-- ==== Sys2Proof/Word.lean ====
section
/-! DEFINITION. The word types of the SH6 and the sparse table that holds every indexed piece of state. -/
namespace Sys2Proof

/-- One byte of memory (R2). -/
abbrev Byte := BitVec 8
/-- One 32-bit vector lane or instruction word. -/
abbrev W32 := BitVec 32
/-- One scalar register or machine-state register (R208, R373). -/
abbrev W64 := BitVec 64
/-- One predicate register: bit 16c + n is lane n of cluster c (R208). -/
abbrev Pred := BitVec 128
/-- One vector register of one cluster: lane l stands in bits 32l to 32l + 31 (R163, R208). -/
abbrev Row := BitVec 512

/-- A sparse table: keys strictly rising. What an unlisted key reads as is said where the table is used. -/
abbrev Tbl (α : Type) := List (Nat × α)

/-- A lent byte of a header in byte mode (R27, R40); `none` when the slot borrows nothing. -/
abbrev Lent := Option (Fin 256)
/-- A copy microword of a header in microword mode (R27, R129); `none` is the microword 0. -/
abbrev Micro := Option (Fin 16777216)
/-- A scalar or vector register number. -/
abbrev Reg := Fin 64

end Sys2Proof
end

