-- ==== Sys2Proof/Config.lean ====
section
/-! DEFINITION. What the model does not compute: the free values of R8 (opaque, so that no proof can see one) and the
times the spec quotes as unloaded figures. -/
namespace Sys2Proof.Config

/-- R8: an unspecified scalar value. Applied to a counter of the state, or to a seed and a register number. Assumption 1. -/
opaque freeWord : Nat → Nat → BitVec 64
/-- R8: an unspecified predicate register. Assumption 1. -/
opaque freePred : Nat → Nat → BitVec 128
/-- R8: an unspecified vector register of one cluster. Assumption 1. -/
opaque freeRow : Nat → Nat → BitVec 512
/-- R8: an unspecified byte of memory (a new tile's storage, private memory after a resume). Assumption 1. -/
opaque freeByte : Nat → Nat → BitVec 8
/-- R411: whether the RSASSA-PSS signature of a firmware image verifies under the key whose hash the fuses hold. Assumption 2. -/
opaque firmwareSigned : List (BitVec 8) → Bool
/-- R411: the images that the two flash slots of the controller hold at manufacture. Assumption 2. -/
opaque factoryImage : Nat → List (BitVec 8)
/-- R70: the rated erase count of a flash block; the spec gives no figure. Assumption 14. -/
opaque ratedErases : Nat
/-- R402: the current, in amperes, that a quad's accepted commands ask for; the spec gives no figure. Applied to a counter of the state
and the quad. Assumption 1. -/
opaque quadDemand : Nat → Nat → Nat
/-- R411: the header fields of a firmware image (security version, supervisor word); their offsets are not stated. Assumption 2. -/
opaque firmwareVersion : List (BitVec 8) → BitVec 64
opaque firmwareSvWord : List (BitVec 8) → BitVec 64
/-- R412: the signature bytes and the certificate chain of an attestation report; the private key never leaves the controller. Assumption 2. -/
opaque attestSignature : List (BitVec 8) → Nat → BitVec 8
opaque certChain : Nat → BitVec 8
opaque certChainLength : Nat
opaque deviceSerial : BitVec 128

end Sys2Proof.Config
end

