-- ==== Sys2Proof/Syntax.lean ====
section
/-! DEFINITION. The instructions of the SH6: one constructor per row of spec/opcode_table.json. Rows with an encoding carry
their encoded fields (and the lent byte or microword the header of the bundle lends them, R40); the rows without one are the
events of the machine (R413, 95): they are never fetched, and they carry the names of the unit or request they act on. The rows without an
operand stand last (the compiler numbers constructors that carry data from 0 to 244). -/
namespace Sys2Proof

inductive Instr where
  /-- NOP_S (R28): Slot-0 no-operation that carries only a stall count and changes no state. -/
  | nopS (st : Fin 8)
  /-- HDR (R26): Slot-0 header that carries the stall count and lends bytes or a microword to the other slots. -/
  | hdr (st : Fin 8) (w : Bool) (z : Bool) (y : Bool) (x : Bool) (c : Fin 256) (b : Fin 256) (a : Fin 256)
  /-- ADD (R210): Scalar add, wrapping modulo 2^64. -/
  | add (st : Fin 8) (d : Fin 64) (a : Fin 64) (b : Fin 64)
  /-- SUB (R210): Scalar subtract. -/
  | sub (st : Fin 8) (d : Fin 64) (a : Fin 64) (b : Fin 64)
  /-- MUL (R210): Low 64 bits of the scalar product. -/
  | mul (st : Fin 8) (d : Fin 64) (a : Fin 64) (b : Fin 64)
  /-- MULH (R210): High 64 bits of the 128-bit product, signed or unsigned. -/
  | mulh (st : Fin 8) (d : Fin 64) (a : Fin 64) (b : Fin 64) (u : Bool)
  /-- AND (R210): Scalar bitwise AND. -/
  | and (st : Fin 8) (d : Fin 64) (a : Fin 64) (b : Fin 64)
  /-- OR (R210): Scalar bitwise OR. -/
  | or (st : Fin 8) (d : Fin 64) (a : Fin 64) (b : Fin 64)
  /-- XOR (R210): Scalar bitwise XOR. -/
  | xor (st : Fin 8) (d : Fin 64) (a : Fin 64) (b : Fin 64)
  /-- SHL (R210): Scalar shift left by sB[5:0]. -/
  | shl (st : Fin 8) (d : Fin 64) (a : Fin 64) (b : Fin 64)
  /-- SHR (R210): Scalar logical shift right. -/
  | shr (st : Fin 8) (d : Fin 64) (a : Fin 64) (b : Fin 64)
  /-- SRA (R210): Scalar arithmetic shift right. -/
  | sra (st : Fin 8) (d : Fin 64) (a : Fin 64) (b : Fin 64)
  /-- MIN (R210): Scalar minimum, signed or unsigned. -/
  | min (st : Fin 8) (d : Fin 64) (a : Fin 64) (b : Fin 64) (u : Bool)
  /-- MAX (R210): Scalar maximum, signed or unsigned. -/
  | max (st : Fin 8) (d : Fin 64) (a : Fin 64) (b : Fin 64) (u : Bool)
  /-- ADDI (R212): Add a sign-extended 10-bit immediate. -/
  | addi (st : Fin 8) (d : Fin 64) (a : Fin 64) (i : Fin 1024)
  /-- ANDI (R212): AND with a sign-extended 10-bit immediate. -/
  | andi (st : Fin 8) (d : Fin 64) (a : Fin 64) (i : Fin 1024)
  /-- ORI (R212): OR with a zero-extended 10-bit immediate. -/
  | ori (st : Fin 8) (d : Fin 64) (a : Fin 64) (i : Fin 1024)
  /-- XORI (R212): XOR with a zero-extended 10-bit immediate. -/
  | xori (st : Fin 8) (d : Fin 64) (a : Fin 64) (i : Fin 1024)
  /-- SHLI (R212): Shift left by an immediate amount. -/
  | shli (st : Fin 8) (d : Fin 64) (a : Fin 64) (i : Fin 64)
  /-- SHRI (R212): Logical shift right by an immediate amount. -/
  | shri (st : Fin 8) (d : Fin 64) (a : Fin 64) (i : Fin 64)
  /-- SRAI (R212): Arithmetic shift right by an immediate amount. -/
  | srai (st : Fin 8) (d : Fin 64) (a : Fin 64) (i : Fin 64)
  /-- LI (R214): Load a sign-extended 16-bit immediate. -/
  | li (st : Fin 8) (d : Fin 64) (i : Fin 65536)
  /-- LIH (R214): Shift the destination left by 16 and insert a 16-bit immediate. -/
  | lih (st : Fin 8) (d : Fin 64) (i : Fin 65536)
  /-- ADDSH (R210): Add sA to sB shifted left by an immediate 0 to 15. -/
  | addsh (st : Fin 8) (d : Fin 64) (a : Fin 64) (b : Fin 64) (k : Fin 16)
  /-- CMP (R215): Scalar compare that writes all 128 bits of a predicate. -/
  | cmp (st : Fin 8) (p : Fin 8) (c : Fin 8) (a : Fin 64) (b : Fin 64)
  /-- CMPI (R215): Scalar compare with a sign-extended immediate into a predicate. -/
  | cmpi (st : Fin 8) (p : Fin 8) (c : Fin 8) (a : Fin 64) (i : Fin 1024)
  /-- PLOG (R216): Per-lane predicate logic through a 4-bit truth table. -/
  | plog (st : Fin 8) (d : Fin 8) (a : Fin 8) (b : Fin 8) (t : Fin 16)
  /-- CLZ (R210): Count leading zero bits of a scalar. -/
  | clz (st : Fin 8) (d : Fin 64) (a : Fin 64)
  /-- POPC (R210): Count set bits of a scalar. -/
  | popc (st : Fin 8) (d : Fin 64) (a : Fin 64)
  /-- SEXT (R213): Sign-extend the low w bits of a scalar. -/
  | sext (st : Fin 8) (d : Fin 64) (a : Fin 64) (w : Fin 128)
  /-- ZEXT (R213): Zero-extend the low w bits of a scalar. -/
  | zext (st : Fin 8) (d : Fin 64) (a : Fin 64) (w : Fin 128)
  /-- DIV (R211): Pipelined scalar division that never faults, with a defined result for a zero divisor. -/
  | div (st : Fin 8) (d : Fin 64) (a : Fin 64) (b : Fin 64) (u : Bool)
  /-- REM (R211): Pipelined scalar remainder that never faults. -/
  | rem (st : Fin 8) (d : Fin 64) (a : Fin 64) (b : Fin 64) (u : Bool)
  /-- BR (R217): Relative branch, optionally predicated on bit 0 of a predicate. -/
  | br (st : Fin 8) (p : Fin 8) (n : Bool) (o : Fin 262144)
  /-- CALL (R217): Relative call that writes the return address to s63 when taken. -/
  | call (st : Fin 8) (p : Fin 8) (n : Bool) (o : Fin 262144)
  /-- JR (R218): Jump to the address held in a register. -/
  | jr (st : Fin 8) (a : Fin 64)
  /-- LOOP_IMMEDIATE (R220): Start a hardware loop with an immediate count. -/
  | loopImm (st : Fin 8) (k : Fin 4) (c : Fin 1024) (l : Fin 256)
  /-- LOOP_REGISTER (R220): Start a hardware loop with its count taken from a register. -/
  | loopReg (st : Fin 8) (k : Fin 4) (r : Fin 64) (l : Fin 256)
  /-- BAR (R225): Barrier arrival at a scope, which stalls until the instance completes. -/
  | bar (st : Fin 8) (c : Fin 8) (g : Fin 256)
  /-- BAR_COMPLETE (R225): The last member arrives and the barrier instance releases its waiting cores. -/
  | barComplete (sc inst p g : Nat)
  /-- WAITC (R142): Stall until a copy counter reaches a threshold, then subtract the threshold. -/
  | waitc (st : Fin 8) (h : Fin 8) (t : Fin 524288)
  /-- SSTEP (R296): Record a superstep arrival and stall until its boundary closes. -/
  | sstep (st : Fin 8) (c : Fin 8)
  /-- TSPAWN (R350): Submit a task record for insertion on a given die. -/
  | tspawn (st : Fin 8) (a : Fin 64) (b : Fin 64)
  /-- PARK (R351): Suspend the task until the Beacon advances by n ticks. -/
  | park (st : Fin 8) (n : Fin 524288)
  /-- YIELD (R351): Suspend the task and put its continuation at the back of its level. -/
  | yield (st : Fin 8)
  /-- TDONE (R352): End the task, release its successors, and free its core and ring entry. -/
  | tdone (st : Fin 8)
  /-- TRAP (R369): Raise a precise trap with code 14 after the other slots of the bundle. -/
  | trap (st : Fin 8) (n : Fin 65536)
  /-- ERET (R372): Return from a trap handler and resume in-flight work from an image or the held buffer. -/
  | eret (st : Fin 8) (a : Fin 64) (b : Fin 64)
  /-- SNAPREL (R371): Discard the held trap buffer and unmask traps. -/
  | snaprel (st : Fin 8)
  /-- RDMS (R376): Read a machine-state register into a scalar register. -/
  | rdms (st : Fin 8) (d : Fin 64) (n : Fin 1024)
  /-- WRMS (R376): Write a machine-state register that has no behaviour of its own, under its field and access rules. -/
  | wrms (st : Fin 8) (a : Fin 64) (n : Fin 1024)
  /-- HALT (R381): Halt the issuing partition, or another partition when issued by the supervisor. -/
  | halt (st : Fin 8) (a : Fin 64)
  /-- LD (R162): Scalar load of 1, 2, 4 or 8 bytes, zero-extended. -/
  | ld (d : Fin 64) (b : Fin 64) (p : Fin 8) (z : Fin 4) (o : Fin 256) (l : Lent)
  /-- LDV (R163): Vector block load, raw or decoded by the page format. -/
  | ldv (d : Fin 64) (b : Fin 64) (p : Fin 8) (z : Fin 4) (o : Fin 256) (l : Lent)
  /-- LDG (R164): Gather load, one element per lane. -/
  | ldg (d : Fin 64) (a : Fin 64) (b : Fin 64) (p : Fin 8) (s : Fin 4) (e : Fin 4)
  /-- LDB (R165): Load one element and broadcast it to every active lane. -/
  | ldb (d : Fin 64) (b : Fin 64) (p : Fin 8) (z : Fin 4) (o : Fin 256) (l : Lent)
  /-- TAGQ (R156): Look up the scratchpad tag table for a page. -/
  | tagq (d : Fin 64) (a : Fin 64) (l : Lent)
  /-- TAGSET (R156): Set the tag of a scratchpad slot. -/
  | tagset (a : Fin 64) (k : Fin 1024) (l : Lent)
  /-- TAGCLR (R156): Clear the valid bit of one tag, or of all tags. -/
  | tagclr (k : Fin 1024) (l : Lent)
  /-- TLD (R179): Wait for the seal, load from a tile and consume one read. -/
  | tld (d : Fin 64) (b : Fin 64) (p : Fin 8) (z : Fin 4) (o : Fin 256) (l : Lent)
  /-- TDROP (R179): Wait for the seal and give up one read of a tile without reading it. -/
  | tdrop (a : Fin 64)
  /-- TCNT (R179): Return the live, sealed and count state of a tile. -/
  | tcnt (d : Fin 64) (a : Fin 64)
  /-- TCNT_WAIT (R179): Wait for the seal of a tile, then return its state as an acquire. -/
  | tcntWait (d : Fin 64) (a : Fin 64)
  /-- AADD (R169): Atomic add on an HBM location. -/
  | aadd (d : Fin 64) (a : Fin 64) (b : Fin 64) (z : Bool) (c : Fin 8) (o : Bool)
  /-- AMIN (R169): Atomic signed minimum. -/
  | amin (d : Fin 64) (a : Fin 64) (b : Fin 64) (z : Bool) (c : Fin 8) (o : Bool)
  /-- AMAX (R169): Atomic signed maximum. -/
  | amax (d : Fin 64) (a : Fin 64) (b : Fin 64) (z : Bool) (c : Fin 8) (o : Bool)
  /-- AAND (R169): Atomic bitwise AND. -/
  | aand (d : Fin 64) (a : Fin 64) (b : Fin 64) (z : Bool) (c : Fin 8) (o : Bool)
  /-- AOR (R169): Atomic bitwise OR. -/
  | aor (d : Fin 64) (a : Fin 64) (b : Fin 64) (z : Bool) (c : Fin 8) (o : Bool)
  /-- AXOR (R169): Atomic bitwise XOR. -/
  | axor (d : Fin 64) (a : Fin 64) (b : Fin 64) (z : Bool) (c : Fin 8) (o : Bool)
  /-- ASWP (R169): Atomic swap. -/
  | aswp (d : Fin 64) (a : Fin 64) (b : Fin 64) (z : Bool) (c : Fin 8) (o : Bool)
  /-- ACAS (R169): Atomic compare and swap. -/
  | acas (d : Fin 64) (a : Fin 64) (b : Fin 64) (z : Bool) (c : Fin 8) (o : Bool)
  /-- CPY_COPY_IN (R136): Linear or walked copy command, L-slot form. -/
  | cpyIn (a : Fin 64) (b : Fin 64) (c : Fin 64) (i : Fin 16) (h : Fin 8) (mw : Micro)
  /-- CPYG_COPY_IN (R136): Gathering copy command, L-slot form. -/
  | cpygIn (a : Fin 64) (b : Fin 64) (c : Fin 64) (i : Fin 16) (h : Fin 8) (mw : Micro)
  /-- CPYS_COPY_IN (R136): Scattering copy command, L-slot form. -/
  | cpysIn (a : Fin 64) (b : Fin 64) (c : Fin 64) (i : Fin 16) (h : Fin 8) (mw : Micro)
  /-- CPYF_COPY_IN (R136): Copy into an operand FIFO part, L-slot form. -/
  | cpyfIn (f : Bool) (b : Fin 64) (c : Fin 64) (i : Fin 16) (h : Fin 8) (mw : Micro)
  /-- SHAPE (R133): Load a 64-byte shape record into a shape-table entry. -/
  | shape (a : Fin 64) (k : Fin 16) (l : Lent)
  /-- HREAD (R80): Allocate or join a weight handle for a flash-to-HBM transfer. -/
  | hread (d : Fin 64) (s : Fin 64) (t : Fin 64) (u : Fin 128) (l : Lent)
  /-- HWAIT (R83): Wait in place or suspend until a handle's transfer is done. -/
  | hwait (a : Fin 64)
  /-- HSTAT (R85): Return the status word of a handle. -/
  | hstat (d : Fin 64) (a : Fin 64)
  /-- HREL (R86): Release one holder of a handle, freeing the slot at zero holders. -/
  | hrel (a : Fin 64)
  /-- GLOAD (R353): Return a task argument, its instance, its identifiers, launch tag or partition. -/
  | gload (d : Fin 64) (k : Fin 1024) (l : Lent)
  /-- VADD (R227): Vector integer add. -/
  | vadd (d : Fin 64) (a : Fin 64) (b : Fin 64) (p : Fin 8) (e : Fin 4) (u : Bool) (s : Bool) (sh : Lent)
  /-- VSUB (R227): Vector integer subtract. -/
  | vsub (d : Fin 64) (a : Fin 64) (b : Fin 64) (p : Fin 8) (e : Fin 4) (u : Bool) (s : Bool) (sh : Lent)
  /-- VMUL (R227): Vector integer multiply. -/
  | vmul (d : Fin 64) (a : Fin 64) (b : Fin 64) (p : Fin 8) (e : Fin 4) (u : Bool) (s : Bool) (sh : Lent)
  /-- VMULH (R227): High half of the vector integer product. -/
  | vmulh (d : Fin 64) (a : Fin 64) (b : Fin 64) (p : Fin 8) (e : Fin 4) (u : Bool) (sh : Lent)
  /-- VMIN (R227): Vector integer minimum. -/
  | vmin (d : Fin 64) (a : Fin 64) (b : Fin 64) (p : Fin 8) (e : Fin 4) (u : Bool) (sh : Lent)
  /-- VMAX (R227): Vector integer maximum. -/
  | vmax (d : Fin 64) (a : Fin 64) (b : Fin 64) (p : Fin 8) (e : Fin 4) (u : Bool) (sh : Lent)
  /-- VAND (R227): Vector bitwise AND. -/
  | vand (d : Fin 64) (a : Fin 64) (b : Fin 64) (p : Fin 8) (sh : Lent)
  /-- VOR (R227): Vector bitwise OR. -/
  | vor (d : Fin 64) (a : Fin 64) (b : Fin 64) (p : Fin 8) (sh : Lent)
  /-- VXOR (R227): Vector bitwise XOR. -/
  | vxor (d : Fin 64) (a : Fin 64) (b : Fin 64) (p : Fin 8) (sh : Lent)
  /-- VSHL (R227): Vector shift left. -/
  | vshl (d : Fin 64) (a : Fin 64) (b : Fin 64) (p : Fin 8) (e : Fin 4) (sh : Lent)
  /-- VSHR (R227): Vector logical shift right. -/
  | vshr (d : Fin 64) (a : Fin 64) (b : Fin 64) (p : Fin 8) (e : Fin 4) (sh : Lent)
  /-- VSRA (R227): Vector arithmetic shift right. -/
  | vsra (d : Fin 64) (a : Fin 64) (b : Fin 64) (p : Fin 8) (e : Fin 4) (sh : Lent)
  /-- VABS (R227): Vector integer absolute value. -/
  | vabs (d : Fin 64) (a : Fin 64) (p : Fin 8) (e : Fin 4) (s : Bool) (sh : Lent)
  /-- VNEG (R227): Vector integer negate. -/
  | vneg (d : Fin 64) (a : Fin 64) (p : Fin 8) (e : Fin 4) (s : Bool) (sh : Lent)
  /-- VCLZ (R227): Vector count of leading zero bits. -/
  | vclz (d : Fin 64) (a : Fin 64) (p : Fin 8) (e : Fin 4) (sh : Lent)
  /-- VPOPC (R227): Vector count of set bits. -/
  | vpopc (d : Fin 64) (a : Fin 64) (p : Fin 8) (e : Fin 4) (sh : Lent)
  /-- VFADD (R229): Vector floating-point add. -/
  | vfadd (d : Fin 64) (a : Fin 64) (b : Fin 64) (p : Fin 8) (t : Fin 4) (r : Fin 4) (sh : Lent)
  /-- VFSUB (R229): Vector floating-point subtract. -/
  | vfsub (d : Fin 64) (a : Fin 64) (b : Fin 64) (p : Fin 8) (t : Fin 4) (r : Fin 4) (sh : Lent)
  /-- VFMUL (R229): Vector floating-point multiply. -/
  | vfmul (d : Fin 64) (a : Fin 64) (b : Fin 64) (p : Fin 8) (t : Fin 4) (r : Fin 4) (sh : Lent)
  /-- VFMA (R229): Vector fused multiply-add with a single rounding. -/
  | vfma (d : Fin 64) (a : Fin 64) (b : Fin 64) (p : Fin 8) (t : Fin 4) (r : Fin 4) (sh : Lent)
  /-- VFMIN (R229): Vector floating-point minimum. -/
  | vfmin (d : Fin 64) (a : Fin 64) (b : Fin 64) (p : Fin 8) (t : Fin 4) (sh : Lent)
  /-- VFMAX (R229): Vector floating-point maximum. -/
  | vfmax (d : Fin 64) (a : Fin 64) (b : Fin 64) (p : Fin 8) (t : Fin 4) (sh : Lent)
  /-- VFABS (R229): Clear the sign of each floating-point element. -/
  | vfabs (d : Fin 64) (a : Fin 64) (p : Fin 8) (t : Fin 4) (sh : Lent)
  /-- VFNEG (R229): Invert the sign of each floating-point element. -/
  | vfneg (d : Fin 64) (a : Fin 64) (p : Fin 8) (t : Fin 4) (sh : Lent)
  /-- VCMP (R230): Vector integer compare into a predicate. -/
  | vcmp (c : Fin 8) (q : Fin 8) (a : Fin 64) (b : Fin 64) (p : Fin 8) (u : Bool) (sh : Lent)
  /-- VFCMP (R230): Vector floating-point compare into a predicate. -/
  | vfcmp (c : Fin 8) (q : Fin 8) (a : Fin 64) (b : Fin 64) (p : Fin 8) (sh : Lent)
  /-- VSEL (R231): Select per lane between two vectors by a predicate. -/
  | vsel (d : Fin 64) (a : Fin 64) (b : Fin 64) (n : Fin 8) (sh : Lent)
  /-- VSHUF (R231): Shuffle lanes within each cluster and row. -/
  | vshuf (d : Fin 64) (a : Fin 64) (b : Fin 64) (p : Fin 8) (sh : Lent)
  /-- VBCAST (R231): Broadcast one lane to all lanes of its cluster and row. -/
  | vbcast (d : Fin 64) (a : Fin 64) (k : Fin 16) (p : Fin 8) (sh : Lent)
  /-- VMOVS (R232): Write the low 32 bits of a scalar to every active lane. -/
  | vmovs (d : Fin 64) (a : Fin 64) (p : Fin 8) (sh : Lent)
  /-- VMOVS_TOS (R232): Move one lane of the first cluster of the extent to a scalar register. -/
  | vmovsTos (d : Fin 64) (a : Fin 64) (k : Fin 16) (sh : Lent)
  /-- VMOV (R231): Vector register move. -/
  | vmov (d : Fin 64) (a : Fin 64) (p : Fin 8) (sh : Lent)
  /-- VRADD (R233): Per-cluster integer sum reduction. -/
  | vradd (d : Fin 64) (a : Fin 64) (p : Fin 8) (u : Bool) (s : Bool) (sh : Lent)
  /-- VRMIN (R233): Per-cluster integer minimum reduction. -/
  | vrmin (d : Fin 64) (a : Fin 64) (p : Fin 8) (u : Bool) (sh : Lent)
  /-- VRMAX (R233): Per-cluster integer maximum reduction. -/
  | vrmax (d : Fin 64) (a : Fin 64) (p : Fin 8) (u : Bool) (sh : Lent)
  /-- VFRADD (R233): Per-cluster floating-point sum, rounded once. -/
  | vfradd (d : Fin 64) (a : Fin 64) (p : Fin 8) (r : Fin 4) (sh : Lent)
  /-- VFRMIN (R233): Per-cluster floating-point minimum reduction. -/
  | vfrmin (d : Fin 64) (a : Fin 64) (p : Fin 8) (sh : Lent)
  /-- VFRMAX (R233): Per-cluster floating-point maximum reduction. -/
  | vfrmax (d : Fin 64) (a : Fin 64) (p : Fin 8) (sh : Lent)
  /-- VCVT (R234): Convert lane elements between float and integer types. -/
  | vcvt (d : Fin 64) (a : Fin 64) (f : Fin 8) (g : Fin 8) (p : Fin 8) (k : Fin 4) (r : Fin 4) (sh : Lent)
  /-- VXC (R235): Copy registers between clusters by rotate, broadcast or XOR pattern. -/
  | vxc (d : Fin 64) (a : Fin 64) (k : Fin 8) (p : Fin 8) (m : Fin 4) (sh : Lent)
  /-- PWLD (R236): Load segments of the piecewise-polynomial table from a vector block. -/
  | pwld (a : Fin 64) (j : Fin 64) (sh : Lent)
  /-- VPWP (R237): Evaluate the piecewise cubic of each lane's segment. -/
  | vpwp (d : Fin 64) (a : Fin 64) (p : Fin 8) (sh : Lent)
  /-- BRANK (R238): Count the set bitmap bits below a position. -/
  | brank (d : Fin 64) (a : Fin 64) (b : Fin 64) (p : Fin 8) (sh : Lent)
  /-- BSEL (R238): Find the position of the set bitmap bit of a given rank. -/
  | bsel (d : Fin 64) (a : Fin 64) (b : Fin 64) (p : Fin 8) (sh : Lent)
  /-- VADDI (R228): Add a sign-extended 10-bit immediate to INT32 lanes. -/
  | vaddi (d : Fin 64) (a : Fin 64) (p : Fin 8) (i : Fin 1024) (sh : Lent)
  /-- VLI (R228): Write a sign-extended 10-bit immediate to INT32 lanes. -/
  | vli (d : Fin 64) (p : Fin 8) (i : Fin 1024) (sh : Lent)
  /-- ST (R162): Scalar store of 1, 2, 4 or 8 bytes. -/
  | st (d : Fin 64) (b : Fin 64) (p : Fin 8) (z : Fin 4) (o : Fin 256) (l : Lent)
  /-- STV (R163): Vector block store of raw bytes. -/
  | stv (d : Fin 64) (b : Fin 64) (p : Fin 8) (z : Fin 4) (o : Fin 256) (l : Lent)
  /-- STS (R164): Scatter store, one element per lane. -/
  | sts (d : Fin 64) (a : Fin 64) (b : Fin 64) (p : Fin 8) (s : Fin 4) (e : Fin 4)
  /-- COWST (R110): Store that breaks sharing of a reference-counted frame by copy on write. -/
  | cowst (d : Fin 64) (b : Fin 64) (p : Fin 8) (z : Fin 4) (o : Fin 256) (l : Lent)
  /-- TALLOC (R174): Request a Kennel tile with its read count and lifetime on a target die. -/
  | talloc (d : Fin 64) (s : Fin 64) (n : Fin 64) (t : Fin 8) (l : Fin 16) (l : Lent)
  /-- TWR (R176): Write a vector block into an unsealed, unbound tile. -/
  | twr (d : Fin 64) (b : Fin 64) (p : Fin 8) (z : Fin 4) (o : Fin 256) (l : Lent)
  /-- TSEAL (R177): Release at .pkg and seal a tile. -/
  | tseal (a : Fin 64)
  /-- CPY_COPY_OUT (R136): Linear or walked copy command, W-slot form. -/
  | cpyOut (a : Fin 64) (b : Fin 64) (c : Fin 64) (i : Fin 16) (h : Fin 8) (mw : Micro)
  /-- CPYG_COPY_OUT (R136): Gathering copy command, W-slot form. -/
  | cpygOut (a : Fin 64) (b : Fin 64) (c : Fin 64) (i : Fin 16) (h : Fin 8) (mw : Micro)
  /-- CPYS_COPY_OUT (R136): Scattering copy command, W-slot form. -/
  | cpysOut (a : Fin 64) (b : Fin 64) (c : Fin 64) (i : Fin 16) (h : Fin 8) (mw : Micro)
  /-- CPYF_COPY_OUT (R136): Copy into an operand FIFO part, W-slot form. -/
  | cpyfOut (f : Bool) (b : Fin 64) (c : Fin 64) (i : Fin 16) (h : Fin 8) (mw : Micro)
  /-- PUBLISH (R149): Flip the select bit of a publish pair for the whole package. -/
  | publish (n : Fin 64)
  /-- PUBLISH_DEF (R148): Define a publish pair from a descriptor. -/
  | publishDef (n : Fin 64) (a : Fin 64)
  /-- PUBLISH_UNDEF (R149): Remove a publish pair after waiting for its accesses. -/
  | publishUndef (n : Fin 64)
  /-- DRAIN (R143): Stall until the core's earlier copies on a channel are performed at a scope. -/
  | drain (h : Fin 8) (c : Fin 8)
  /-- FENCE (R168): Stall until the core's earlier accesses are performed at a scope, and order them before later ones. -/
  | fence (c : Fin 8)
  /-- TLBI_VA (R107): Invalidate the translation of one page of the issuing partition. -/
  | tlbiVa (a : Fin 64)
  /-- TLBI_PVA (R107): Supervisor invalidation of one page of a named partition. -/
  | tlbiPva (a : Fin 64) (b : Fin 64)
  /-- TLBI_PART (R107): Supervisor invalidation of every translation of a named partition. -/
  | tlbiPart (b : Fin 64)
  /-- PAGEMV (R117): Supervisor stop-and-copy migration of a page to a new frame. -/
  | pagemv (a : Fin 64) (b : Fin 64) (h : Fin 8) (l : Lent)
  /-- WMAP (R113): Install a row remap window from a descriptor and a row table. -/
  | wmap (a : Fin 64) (b : Fin 64) (n : Fin 16) (l : Lent)
  /-- WUNMAP (R114): Remove a row remap window. -/
  | wunmap (n : Fin 16)
  /-- LEASE (R242): Claim accumulator banks and become a lessee of the array, alone or in a quad group. -/
  | lease (a : Fin 64) (l : Lent)
  /-- LFREE (R245): Wait for the core's matrix work, then end its turn and release its claims. -/
  | lfree (l : Lent)
  /-- MCFG (R250): Write the FIFO operand geometry register MGEO. -/
  | mcfg (a : Fin 64) (l : Lent)
  /-- MMA (R253): Matrix multiply-accumulate of two FIFO operands into a bank. -/
  | mma (a : Fin 64) (f : Fin 32) (g : Fin 32) (s : Bool) (o : Bool) (n : Bool) (m : Bool) (k : Fin 4) (l : Lent)
  /-- MMV (R255): Matrix-vector multiply against a resident batch of vectors. -/
  | mmv (a : Fin 64) (f : Fin 32) (g : Fin 32) (r : Bool) (s : Bool) (o : Bool) (n : Bool) (m : Bool) (k : Fin 4) (l : Lent)
  /-- MDRAIN (R260): Stream bank rows out through the forwarding latch, one per clock. -/
  | mdrain (a : Fin 64) (k : Fin 4) (l : Lent)
  /-- MZERO (R257): Set every element of a bank to +0. -/
  | mzero (k : Fin 4) (l : Lent)
  /-- MWAIT (R258): Stall until the core's accepted matrix commands on the masked banks retire. -/
  | mwait (k : Fin 16) (l : Lent)
  /-- RTE (R285): Queue a routing pass over a tensor of gate scores. -/
  | rte (a : Fin 64) (i : Fin 16) (h : Fin 8) (l : Lent)
  /-- APRE (R277): Queue a prefill attention command. -/
  | apre (a : Fin 64) (i : Fin 16) (h : Fin 8) (l : Lent)
  /-- ADEC (R280): Queue a decode attention command, optionally staging the next layer. -/
  | adec (a : Fin 64) (i : Fin 16) (h : Fin 8) (l : Lent)
  /-- KVAG (R272): Load a KV address generator from a descriptor. -/
  | kvag (a : Fin 64) (g : Fin 16) (l : Lent)
  /-- XSEND (R300): Bind a message to a send permit for carriage in the exchange phase. -/
  | xsend (a : Fin 64) (b : Fin 64) (c : Fin 64) (i : Fin 16) (h : Fin 8) (l : Lent)
  /-- XRECV (R304): Remove the oldest landed permit from a receive port. -/
  | xrecv (d : Fin 64) (k : Fin 64) (l : Lent)
  /-- PTRCFG (R89): Configure the Pointer unit. -/
  | ptrcfg (a : Fin 64) (l : Lent)
  /-- PTRLD (R90): Copy a layer descriptor into a Pointer layer slot. -/
  | ptrld (a : Fin 64) (b : Fin 64) (l : Lent)
  /-- PTRRUN (R91): Queue a Pointer prediction run. -/
  | ptrrun (a : Fin 64) (b : Fin 64) (c : Fin 64) (l : Lent)
  /-- SNAPST (R370): Write the held trap buffer to memory as an image. -/
  | snapst (b : Fin 64) (o : Fin 256) (l : Lent)
  /-- REGISTER_WRITE_LANDS (R30): A fixed-latency result becomes readable when its latency elapses, or is discarded behind a later write. -/
  | registerWriteLands (c : Nat)
  /-- INTERLOCKED_RESULT_ARRIVES (R32): An interlocked result arrives and clears its register's pending mark. -/
  | interlockedResultArrives (c id : Nat)
  /-- TRAP_ENTRY (R364): Deliver a precise trap: buffer in-flight writes, set the trap registers and enter the handler. -/
  | trapEntry (slot code sub : Nat) (info : BitVec 64)
  /-- PAGE_WALK (R105): A page walk completes, filling the TLBs and serving the waiting misses. -/
  | pageWalk (d p vpn : Nat)
  /-- COPY_SEGMENT (R125): A copy channel moves one segment of up to 4 KiB through the engine's stages. -/
  | copySegment (q id : Nat)
  /-- COPY_COMPLETE (R140): A copy command completes and its increment is added to the counter in order. -/
  | copyComplete (c h : Nat)
  /-- PAGEMV_COPY_COMPLETE (R117): A migration copy ends: the leaf is remapped, the replay queue released and the counter incremented. -/
  | pagemvCopyComplete (q id : Nat)
  /-- HOT_REGION_SWAP (R120): A stack controller remaps a hot 2 MiB region between channels. -/
  | hotRegionSwap (k r r2 : Nat)
  /-- PSEUDO_CHANNEL_POWER_DOWN (R121): An idle pseudo-channel enters power-down after pd_idle clocks. -/
  | pseudoChannelPowerDown (k ch : Nat)
  /-- PSEUDO_CHANNEL_SELF_REFRESH (R121): An idle pseudo-channel enters self-refresh after sr_idle microseconds. -/
  | pseudoChannelSelfRefresh (k ch : Nat)
  /-- STACK_RETRAIN (R122): A data-rate change with retraining starts, or is abandoned after 2 ms in favour of throttling. -/
  | stackRetrain (k : Nat)
  /-- HANDLE_REQUEST_ARRIVES (R78): An HREAD, HSTAT or HREL arrives at an ED's handle table and takes effect there. -/
  | handleRequestArrives (id : Nat)
  /-- FLASH_PAGE_READ (R79): A flash page read completes and writes its units, counting toward read disturb. -/
  | flashPageRead (e slot lp : Nat)
  /-- RELOCATION_SWITCH (R68): A relocation switches the mapping of all the block's logical pages at once. -/
  | relocationSwitch (e k b : Nat)
  /-- OLD_BLOCK_ERASE (R68): The relocated block is erased once every read that resolved to it has completed. -/
  | oldBlockErase (e k b : Nat)
  /-- REBUILD (R74): Rebuild a page from its stripe's parity and deliver it to waiting transfers. -/
  | rebuild (e lp : Nat)
  /-- RELOCATE (R74): Relocate the page's block at once. -/
  | relocate (e lp : Nat)
  /-- RETIRE (R74): Relocate the page's block, then retire the old block. -/
  | retire (e lp : Nat)
  /-- REFILL (R74): Write a page from an HBM source, recompute parity and deliver the page. -/
  | refill (e lp : Nat)
  /-- FTL_COMMAND_COMPLETE (R73): A translation-layer command ends with state done or failed. -/
  | ftlCommandComplete (e : Nat)
  /-- POINTER_RUN (R91): The Pointer evaluates a queued run and allocates prefetch entries. -/
  | pointerRun (d : Nat)
  /-- TALLOC_REQUEST_ARRIVES (R175): A TALLOC arrives at the target Kennel and is granted or queued. -/
  | tallocRequestArrives (c : Nat)
  /-- TALLOC_GRANT (R175): A waiting allocation is granted when units free, and its task resumes or its bundle issues. -/
  | tallocGrant (d : Nat)
  /-- TILE_ACCESS_ARRIVES (R180): A tile access arrives at its Kennel and takes effect in arrival order. -/
  | tileAccessArrives (c : Nat)
  /-- LEASE_GRANT (R242): A waiting LEASE receives its banks and the core becomes a lessee. -/
  | leaseGrant (q : Nat)
  /-- TURN_GRANT (R243): The array's arbiter ends a turn and grants the next one. -/
  | turnGrant (q : Nat)
  /-- MATRIX_COMMAND_RETIRE (R254): A matrix command finishes its passes and retires. -/
  | matrixCommandRetire (q : Nat)
  /-- GROUP_PART_ARRIVES (R247): A group member's partial arrives at the home member and is added to the bank. -/
  | groupPartArrives (q src : Nat)
  /-- DRAIN_ROW_LEAVES (R260): One bank row of a drain leaves the array and stands in the latch for that clock. -/
  | drainRowLeaves (q : Nat)
  /-- ATTENTION_COMMAND_COMPLETE (R269): An attention command finishes its rows and its increment is added. -/
  | attentionCommandComplete (e : Nat)
  /-- CAPACITY_REQUEST (R288): A routing capacity request arrives at the home ED and is granted or refused. -/
  | capacityRequest (id : Nat)
  /-- ROUTING_ROUND (R287): A routing round's answers return and the next round is sent or the outputs are written. -/
  | routingRound (d : Nat)
  /-- XSEND_BINDING (R302): An XSEND binding arrives at its permit and binds or faults. -/
  | xsendBinding (id : Nat)
  /-- LANDING (R300): A message is carried over Etsil and written into its permit. -/
  | landing (id : Nat)
  /-- XRECV_REQUEST_ARRIVES (R304): An XRECV arrives at its receive port and takes the oldest entry. -/
  | xrecvRequestArrives (id : Nat)
  /-- SUPERSTEP_BOUNDARY (R297): A superstep boundary closes: seals landings, adds increments, counts lifetimes, resets counters and returns SSTEPs. -/
  | superstepBoundary (p : Nat)
  /-- FRAME_START (R295): A Beacon frame starts, standing in for boundaries of partitions without supersteps. -/
  | frameStart (p : Nat)
  /-- DEFERRED_FRAME_START (R295): A deferred frame start takes effect once pre-emption and routing passes clear. -/
  | deferredFrameStart (p : Nat)
  /-- FRAME_ADVANCE (R354): A partition's open frame advances, writing an overrun slip entry when it overran. -/
  | frameAdvance (p : Nat)
  /-- TASK_INSERTION (R340): A task record is inserted on a die, taking a ring entry and its region dependences. -/
  | taskInsertion (id : Nat)
  /-- TASK_READY (R341): A task whose predecessors are done enters the ready pool. -/
  | taskReady (p ent : Nat)
  /-- TASK_DISPATCH (R344): An idle core takes the oldest eligible record of the most urgent level. -/
  | taskDispatch (d : Nat)
  /-- CONTINUATION_RESUME (R348): A continuation resumes on a core with its saved registers restored. -/
  | continuationResume (c : Nat)
  /-- PARK_WAKE (R347): A parked continuation becomes ready when the Beacon reaches its wake value. -/
  | parkWake (p ent : Nat)
  /-- LAUNCH_WINDOW_WRITE (R397): A 64-byte host write to the launch window enqueues a launch packet, or is discarded. -/
  | launchWindowWrite (off : Nat) (data : List (BitVec 8))
  /-- HOST_MEM_WRITE (R398): A host CXL.mem write is performed at .pkg and completed. -/
  | hostMemWrite (a : Nat) (data : List (BitVec 8))
  /-- HOST_MEM_READ (R398): A host CXL.mem read returns a write in each byte's order. -/
  | hostMemRead (a n : Nat)
  /-- POD (R405): Mailbox command that configures the pod table and IEEE 1588 domain. -/
  | pod (a0 a1 a2 a3 : BitVec 64)
  /-- LOADW (R409): Mailbox command that loads an object from network storage into flash or HBM. -/
  | loadw (a0 a1 a2 a3 a4 a5 : BitVec 64)
  /-- WEIGHT_CHUNK (R409): A page of a weight load arrives, is written and forwarded to the next package. -/
  | weightChunk (data : List (BitVec 8))
  /-- ATTEST (R412): Mailbox command that writes a signed attestation report. -/
  | attest (a0 a1 : BitVec 64)
  /-- FWSTAGE (R411): Mailbox command that verifies a firmware image and stages it in the inactive slot. -/
  | fwstage (a0 a1 : BitVec 64)
  /-- POD_BARRIER_MESSAGE (R407): A pod barrier arrival or release travels the tree over Ultra Ethernet. -/
  | podBarrierMessage (pkg : Nat) (isBar : Bool) (p g n : Nat)
  /-- POD_BARRIER_RELEASE (R407): The pod barrier completes and releases each package's arrivals. -/
  | podBarrierRelease (isBar : Bool) (p g n : Nat)
  /-- PTP_MESSAGE (R408): An IEEE 1588 event message is timestamped and steers the Beacon. -/
  | ptpMessage (offsetNs : Int)
  /-- KEEPCFG_WRITE (R403): A write to KEEPCFG, clamped, that takes effect at the next window. -/
  | keepcfgWrite (v : BitVec 64)
  /-- POOLBASE_WRITE (R399): A write to POOLBASE, ignored while any partition has a task inserted. -/
  | poolbaseWrite (v : BitVec 64)
  /-- SRSEED_WRITE (R200): A write to SRSEED reloads every stochastic generator of the partition. -/
  | srseedWrite (p : Nat) (v : BitVec 64)
  /-- TTBASE_WRITE (R97): A write to TTBASE.p that acts as TLBI.part for the partition. -/
  | ttbaseWrite (p : Nat) (v : BitVec 64)
  /-- KPART_WRITE (R172): A write to a Kennel quota, applied at once or pending until a boundary. -/
  | kpartWrite (n : Nat) (v : BitVec 64)
  /-- SSCFG_WRITE (R293): A write to SSCFG.p, applied at once or pending until the next boundary. -/
  | sscfgWrite (p : Nat) (v : BitVec 64)
  /-- SLICE_WRITE (R356): A write to a slice entry, clamped to the save-restore bound with a clamp slip entry. -/
  | sliceWrite (n : Nat) (v : BitVec 64)
  /-- PSTATE_HALT (R382): A write of state 2 to PSTATE.p halts the running partition with code 22. -/
  | pstateHalt (p : Nat)
  /-- PSTATE_RESUME (R382): A write of state 0 to PSTATE.p resumes a halted partition. -/
  | pstateResume (p : Nat)
  /-- SVACK_RELEASE (R385): SVACK with end 0 releases the party held by a contained-fault record. -/
  | svackRelease (ix : Nat)
  /-- SVACK_END (R385): SVACK with end 1 ends the work held by a contained-fault record. -/
  | svackEnd (ix : Nat)
  /-- SVQ_RECORD_WRITE (R384): A record is written to the supervisor ring and its handler task is inserted. -/
  | svqRecordWrite (d : Nat)
  /-- HALT_LINE_ARRIVES (R379): The halt line reaches a unit, which stops at its stopping unit and writes a stop record. -/
  | haltLineArrives (p kind ix : Nat)
  /-- HALTED (R379): The Sheepdog has every acknowledgement, writes the closing record and sets the partition halted. -/
  | halted (p : Nat)
  /-- SLICE_END (R357): A time slice ends and the die requests pre-emption of the outgoing partition. -/
  | sliceEnd (d : Nat)
  /-- PREEMPTION_UNIT_SAVE (R387): A unit stops at its stopping unit, saves and acknowledges. -/
  | preemptionUnitSave (d kind ix : Nat)
  /-- PREEMPTION_COMPLETE (R389): Every unit has acknowledged, and the die restores the incoming partition. -/
  | preemptionComplete (d : Nat)
  /-- BRINGUP_STAGE_COMPLETE (R400): A bring-up stage ends and the next begins, or it fails and writes error. -/
  | bringupStageComplete (ok : Bool)
  /-- STORE_PERFORMED (R318): A store, atomic write or engine write reaches its home and is performed at .die and .pkg. -/
  | storePerformed (q : Nat)
  /-- INSTRUCTION_FETCH_MISS_RETURN (R29): The bundle that an instruction fetch miss waited for arrives, ending the core's dynamic stall or raising the fetch's translation fault. -/
  | instructionFetchMissReturn (c : Nat)
  /-- ROUTING_PASS_COMPLETE (R289): A routing pass ends its engine time, writes its outputs and adds its increment under R269. -/
  | routingPassComplete (d : Nat)
  /-- PORT_LANE_CHANGE (R406): Lanes of the Ultra Ethernet port are lost or regained, or the port goes down or up, changing its rate and letting the Beacon run free. -/
  | portLaneChange (lanes : Nat)
  /-- LOADW_DONE_REPORT (R409): A downstream package's done report for a forwarded LOADW arrives, and the issuing package's mailbox state becomes 2 once every package in the chain has reported. -/
  | loadwDoneReport (pkg : Nat)
  /-- NOP (R28): No-operation in slot 1, 2 or 3 that changes no state. -/
  | nop
  /-- LOOP_END (R221): The last bundle of active loops issues, and each loop either goes back or ends, innermost first. -/
  | loopEnd
  /-- MARK (R168): Order the core's earlier accesses before later ones at .core. -/
  | mark
  /-- TLBI_OWN (R107): Invalidate every translation of the issuing partition. -/
  | tlbiOwn
  /-- TLBI_GLOB (R107): Supervisor invalidation of every TLB entry and walk cache. -/
  | tlbiGlob
  /-- BEACON_TICK (R309): The Beacon advances by one tick of 16 clocks, slewing when locked. -/
  | beaconTick
  /-- INSTALL_TEMPLATE (R335): Launch packet kind 1 checks and installs a template image. -/
  | installTemplate
  /-- LAUNCH_TASKS (R337): Launch packet kind 2 checks and inserts task records and writes status. -/
  | launchTasks
  /-- REMOVE_TEMPLATE (R335): Launch packet kind 3 removes an installed template. -/
  | removeTemplate
  /-- TEAR_DOWN_PARTITION (R358): Launch packet kind 4 tears down a partition and everything it holds. -/
  | tearDownPartition
  /-- LOADW_SWITCH (R409): After the last page the digest is checked and all pages are switched, or the load fails. -/
  | loadwSwitch
  /-- LINK_RETRY (R406): A lost lane or packet is retried below every party. -/
  | linkRetry
  /-- KEEPER_WINDOW (R402): At each 2 µs window the Keeper reads demands and grants core-rail current. -/
  | keeperWindow
  /-- POWER_UP (R400): Power-up starts the bring-up stages in order. -/
  | powerUp
  /-- CXL_RESET (R401): A CXL reset drops every partition and returns the package to stage 0. -/
  | cxlReset
  /-- POWER_OFF (R401): Loss of the supply, after which only flash, the translation layer's metadata and the fuses survive. -/
  | powerOff
  deriving DecidableEq, Repr

end Sys2Proof
end

