-- ==== Sys2Proof/WellFormed.lean ====
section
/-! DEFINITION. Which instructions are well formed: the reserved codes and combinations of R27, R41, R42, R47, R130 and of the
instructions' own rules. An instruction that is not raises an illegal-instruction fault (R6, R47). -/
namespace Sys2Proof

/-- Rows of the block shape byte (R41): 1, 2, 4 or 8, the same for every block operand of an instruction (R50); one row without a lent byte. -/
def rowsOf (sh : Lent) : Nat :=
  match sh with
  | none => 1
  | some v => 2 ^ (v.val / 64)

/-- R41: the extent code is 63 (the context's) or stays below cluster 8, and no block operand passes v63. -/
def shapeOk (sh : Lent) (bases : List (Fin 64)) : Bool :=
  match sh with
  | none => true
  | some v => (v.val % 64 == 63 || decide (v.val / 8 % 8 + v.val % 8 ≤ 7)) && bases.all (fun b => decide (b.val + rowsOf sh ≤ 64))

/-- R47: a lent byte that the instruction's description does not use is a reserved field. -/
def noLent (l : Lent) : Bool :=
  match l with
  | none => true
  | some v => v.val == 0

/-- MMA and MMV (R251): fn[9:7] is the rounding code of R42, fn[14:10] is reserved. -/
def roundLent (l : Lent) : Bool :=
  match l with
  | none => true
  | some v => decide (v.val < 6)

/-- R234: elements per lane of a VCVT type code. -/
def perLane (t : Fin 8) : Nat :=
  match t.val with
  | 0 => 1
  | 1 => 2
  | 2 => 2
  | 3 => 1
  | 4 => 2
  | _ => 4

/-- R234: K × min(na, nd) < max(na, nd), and K = 0 when na = nd. -/
def positionOk (na nd : Nat) (k : Fin 4) : Bool :=
  decide (k.val * Nat.min na nd < Nat.max na nd)

/-- The microword fields of R129. -/
def Micro.val (m : Micro) : Nat :=
  match m with
  | none => 0
  | some v => v.val
def Micro.shp (m : Micro) : Nat := m.val / 1048576 % 16
def Micro.walk (m : Micro) : Bool := m.val / 524288 % 2 == 1
def Micro.gix (m : Micro) : Nat := m.val / 131072 % 4
def Micro.six (m : Micro) : Nat := m.val / 32768 % 4
def Micro.cv (m : Micro) : Bool := m.val / 16384 % 2 == 1
def Micro.cfmt (m : Micro) : Nat := m.val / 512 % 32
def Micro.tr (m : Micro) : Nat := m.val / 128 % 4
def Micro.fp (m : Micro) : Bool := m.val / 64 % 2 == 1
def Micro.cmp (m : Micro) : Bool := m.val / 32 % 2 == 1
def Micro.shd (m : Micro) : Bool := m.val / 16 % 2 == 1

/-- R130: the microword of a copy command; `kind` is 0 for CPY and CPYF, 1 for CPYG, 2 for CPYS, `c` its c field. -/
def microOk (m : Micro) (kind : Nat) (c : Fin 64) (fifo : Bool) : Bool :=
  m.val % 16 == 0 && (m.walk || m.shp == 0)
  && ((kind == 1) == (m.gix != 0)) && ((kind == 2) == (m.six != 0))
  && (m.walk || (kind == 0 && m.tr == 0))
  && (if m.cv then !m.walk && m.gix == 0 && m.six == 0 && m.tr == 0 && decide (m.cfmt < 26) else m.cfmt == 0)
  && (m.tr == 0 || m.six == 0)
  && !(m.cmp && (m.shd || fifo)) && !(m.shd && fifo)
  && !(kind == 0 && m.walk && c.val != 0)

/-- The well-formedness of an instruction; an event of the machine is never fetched and has no encoding to check. -/
def Instr.wf (i : Instr) : Bool :=
  match i with
  | .nopS _ => true
  | .nop => true
  | .hdr _ w z y x c b a => if w then (z.toNat + y.toNat + x.toNat == 1)
      else (z || c.val == 0) && (y || b.val == 0) && (x || a.val == 0)
  | .add _ _ _ _ => true
  | .sub _ _ _ _ => true
  | .mul _ _ _ _ => true
  | .mulh _ _ _ _ _ => true
  | .and _ _ _ _ => true
  | .or _ _ _ _ => true
  | .xor _ _ _ _ => true
  | .shl _ _ _ _ => true
  | .shr _ _ _ _ => true
  | .sra _ _ _ _ => true
  | .min _ _ _ _ _ => true
  | .max _ _ _ _ _ => true
  | .addi _ _ _ _ => true
  | .andi _ _ _ _ => true
  | .ori _ _ _ _ => true
  | .xori _ _ _ _ => true
  | .shli _ _ _ _ => true
  | .shri _ _ _ _ => true
  | .srai _ _ _ _ => true
  | .li _ _ _ => true
  | .lih _ _ _ => true
  | .addsh _ _ _ _ _ => true
  | .cmp _ _ c _ _ => c.val < 6
  | .cmpi _ _ c _ _ => c.val < 6
  | .plog _ _ _ _ _ => true
  | .clz _ _ _ => true
  | .popc _ _ _ => true
  | .sext _ _ _ w => 1 ≤ w.val && w.val ≤ 64
  | .zext _ _ _ w => 1 ≤ w.val && w.val ≤ 64
  | .div _ _ _ _ _ => true
  | .rem _ _ _ _ _ => true
  | .br _ p n _ => !(p.val == 0 && n)
  | .call _ p n _ => !(p.val == 0 && n)
  | .jr _ _ => true
  | .loopImm _ k _ _ => k.val < 3
  | .loopReg _ k _ _ => k.val < 3
  | .loopEnd => true
  | .bar _ c g => c.val < 6 && (3 ≤ c.val || g.val == 0)
  | .barComplete _ _ _ _ => true
  | .waitc _ _ _ => true
  | .sstep _ c => c.val == 4 || c.val == 5
  | .tspawn _ _ _ => true
  | .park _ _ => true
  | .yield _ => true
  | .tdone _ => true
  | .trap _ _ => true
  | .eret _ _ _ => true
  | .snaprel _ => true
  | .rdms _ _ _ => true
  | .wrms _ _ _ => true
  | .halt _ _ => true
  | .ld _ _ _ _ _ _ => true
  | .ldv d _ _ z _ _ => d.val + 2 ^ z.val ≤ 64
  | .ldg _ _ _ _ _ e => e.val != 3
  | .ldb _ _ _ z _ _ => z.val != 3
  | .tagq _ _ l => noLent l
  | .tagset _ _ _ => true
  | .tagclr _ _ => true
  | .tld _ _ _ _ _ _ => true
  | .tdrop _ => true
  | .tcnt _ _ => true
  | .tcntWait _ _ => true
  | .aadd _ _ _ _ c _ => 1 ≤ c.val && c.val ≤ 4
  | .amin _ _ _ _ c _ => 1 ≤ c.val && c.val ≤ 4
  | .amax _ _ _ _ c _ => 1 ≤ c.val && c.val ≤ 4
  | .aand _ _ _ _ c _ => 1 ≤ c.val && c.val ≤ 4
  | .aor _ _ _ _ c _ => 1 ≤ c.val && c.val ≤ 4
  | .axor _ _ _ _ c _ => 1 ≤ c.val && c.val ≤ 4
  | .aswp _ _ _ _ c _ => 1 ≤ c.val && c.val ≤ 4
  | .acas _ _ _ _ c _ => 1 ≤ c.val && c.val ≤ 4
  | .cpyIn _ _ c _ _ mw => microOk mw 0 c false
  | .cpygIn _ _ c _ _ mw => microOk mw 1 c false
  | .cpysIn _ _ c _ _ mw => microOk mw 2 c false
  | .cpyfIn _ _ c _ _ mw => microOk mw 0 c true
  | .shape _ _ l => noLent l
  | .hread _ _ _ _ _ => true
  | .hwait _ => true
  | .hstat _ _ => true
  | .hrel _ => true
  | .gload _ _ _ => true
  | .vadd d a b _ e _ _ sh => e.val < 3 && shapeOk sh [d, a, b]
  | .vsub d a b _ e _ _ sh => e.val < 3 && shapeOk sh [d, a, b]
  | .vmul d a b _ e _ _ sh => e.val < 3 && shapeOk sh [d, a, b]
  | .vmulh d a b _ e _ sh => e.val < 3 && shapeOk sh [d, a, b]
  | .vmin d a b _ e _ sh => e.val < 3 && shapeOk sh [d, a, b]
  | .vmax d a b _ e _ sh => e.val < 3 && shapeOk sh [d, a, b]
  | .vand d a b _ sh => shapeOk sh [d, a, b]
  | .vor d a b _ sh => shapeOk sh [d, a, b]
  | .vxor d a b _ sh => shapeOk sh [d, a, b]
  | .vshl d a b _ e sh => e.val < 3 && shapeOk sh [d, a, b]
  | .vshr d a b _ e sh => e.val < 3 && shapeOk sh [d, a, b]
  | .vsra d a b _ e sh => e.val < 3 && shapeOk sh [d, a, b]
  | .vabs d a _ e _ sh => e.val < 3 && shapeOk sh [d, a]
  | .vneg d a _ e _ sh => e.val < 3 && shapeOk sh [d, a]
  | .vclz d a _ e sh => e.val < 3 && shapeOk sh [d, a]
  | .vpopc d a _ e sh => e.val < 3 && shapeOk sh [d, a]
  | .vfadd d a b _ t _ sh => t.val < 3 && shapeOk sh [d, a, b]
  | .vfsub d a b _ t _ sh => t.val < 3 && shapeOk sh [d, a, b]
  | .vfmul d a b _ t _ sh => t.val < 3 && shapeOk sh [d, a, b]
  | .vfma d a b _ t _ sh => t.val < 3 && shapeOk sh [d, a, b]
  | .vfmin d a b _ t sh => t.val < 3 && shapeOk sh [d, a, b]
  | .vfmax d a b _ t sh => t.val < 3 && shapeOk sh [d, a, b]
  | .vfabs d a _ t sh => t.val < 3 && shapeOk sh [d, a]
  | .vfneg d a _ t sh => t.val < 3 && shapeOk sh [d, a]
  | .vcmp c _ a b _ _ sh => c.val < 6 && rowsOf sh == 1 && shapeOk sh [a, b]
  | .vfcmp c _ a b _ sh => c.val < 7 && rowsOf sh == 1 && shapeOk sh [a, b]
  | .vsel d a b _ sh => shapeOk sh [d, a, b]
  | .vshuf d a b _ sh => shapeOk sh [d, a, b]
  | .vbcast d a _ _ sh => shapeOk sh [d, a]
  | .vmovs d _ _ sh => shapeOk sh [d]
  | .vmovsTos _ a _ sh => rowsOf sh == 1 && shapeOk sh [a]
  | .vmov d a _ sh => shapeOk sh [d, a]
  | .vradd d a _ _ _ sh => shapeOk sh [d, a]
  | .vrmin d a _ _ sh => shapeOk sh [d, a]
  | .vrmax d a _ _ sh => shapeOk sh [d, a]
  | .vfradd d a _ _ sh => shapeOk sh [d, a]
  | .vfrmin d a _ sh => shapeOk sh [d, a]
  | .vfrmax d a _ sh => shapeOk sh [d, a]
  | .vcvt d a f g _ k _ sh => f.val < 6 && g.val < 6 && f != g && positionOk (perLane f) (perLane g) k && shapeOk sh [d, a]
  | .vxc d a _ _ m sh => m.val < 3 && shapeOk sh [d, a]
  | .pwld a _ sh => shapeOk sh [a]
  | .vpwp d a _ sh => shapeOk sh [d, a]
  | .brank d a b _ sh => shapeOk sh [d, a, b]
  | .bsel d a b _ sh => shapeOk sh [d, a, b]
  | .vaddi d a _ _ sh => shapeOk sh [d, a]
  | .vli d _ _ sh => shapeOk sh [d]
  | .st _ _ _ _ _ _ => true
  | .stv d _ _ z _ _ => d.val + 2 ^ z.val ≤ 64
  | .sts _ _ _ _ _ e => e.val != 3
  | .cowst _ _ _ _ _ _ => true
  | .talloc _ _ _ t _ m => t.val != 7 && noLent m
  | .twr d _ _ z _ _ => d.val + 2 ^ z.val ≤ 64
  | .tseal _ => true
  | .cpyOut _ _ c _ _ mw => microOk mw 0 c false
  | .cpygOut _ _ c _ _ mw => microOk mw 1 c false
  | .cpysOut _ _ c _ _ mw => microOk mw 2 c false
  | .cpyfOut _ _ c _ _ mw => microOk mw 0 c true
  | .publish _ => true
  | .publishDef _ _ => true
  | .publishUndef _ => true
  | .drain _ c => 1 ≤ c.val && c.val ≤ 4
  | .fence c => 1 ≤ c.val && c.val ≤ 4
  | .mark => true
  | .tlbiVa _ => true
  | .tlbiOwn => true
  | .tlbiPva _ _ => true
  | .tlbiPart _ => true
  | .tlbiGlob => true
  | .pagemv _ _ _ l => noLent l
  | .wmap _ _ _ l => noLent l
  | .wunmap _ => true
  | .lease _ l => noLent l
  | .lfree l => noLent l
  | .mcfg _ l => noLent l
  | .mma _ f g _ _ _ _ _ l => f.val < 26 && g.val < 26 && roundLent l
  | .mmv _ f g _ _ _ _ _ _ l => f.val < 26 && g.val < 26 && roundLent l
  | .mdrain _ _ l => noLent l
  | .mzero _ l => noLent l
  | .mwait _ l => noLent l
  | .rte _ _ _ l => noLent l
  | .apre _ _ _ l => noLent l
  | .adec _ _ _ l => noLent l
  | .kvag _ _ l => noLent l
  | .xsend _ _ _ _ _ l => noLent l
  | .xrecv _ _ l => noLent l
  | .ptrcfg _ l => noLent l
  | .ptrld _ _ l => noLent l
  | .ptrrun _ _ _ l => noLent l
  | .snapst _ _ _ => true
  | .registerWriteLands _ => true
  | .interlockedResultArrives _ _ => true
  | .trapEntry _ _ _ _ => true
  | .pageWalk _ _ _ => true
  | .copySegment _ _ => true
  | .copyComplete _ _ => true
  | .pagemvCopyComplete _ _ => true
  | .hotRegionSwap _ _ _ => true
  | .pseudoChannelPowerDown _ _ => true
  | .pseudoChannelSelfRefresh _ _ => true
  | .stackRetrain _ => true
  | .handleRequestArrives _ => true
  | .flashPageRead _ _ _ => true
  | .relocationSwitch _ _ _ => true
  | .oldBlockErase _ _ _ => true
  | .rebuild _ _ => true
  | .relocate _ _ => true
  | .retire _ _ => true
  | .refill _ _ => true
  | .ftlCommandComplete _ => true
  | .pointerRun _ => true
  | .tallocRequestArrives _ => true
  | .tallocGrant _ => true
  | .tileAccessArrives _ => true
  | .leaseGrant _ => true
  | .turnGrant _ => true
  | .matrixCommandRetire _ => true
  | .groupPartArrives _ _ => true
  | .drainRowLeaves _ => true
  | .attentionCommandComplete _ => true
  | .capacityRequest _ => true
  | .routingRound _ => true
  | .xsendBinding _ => true
  | .landing _ => true
  | .xrecvRequestArrives _ => true
  | .superstepBoundary _ => true
  | .beaconTick => true
  | .frameStart _ => true
  | .deferredFrameStart _ => true
  | .frameAdvance _ => true
  | .taskInsertion _ => true
  | .taskReady _ _ => true
  | .taskDispatch _ => true
  | .continuationResume _ => true
  | .parkWake _ _ => true
  | .installTemplate => true
  | .launchTasks => true
  | .removeTemplate => true
  | .tearDownPartition => true
  | .launchWindowWrite _ _ => true
  | .hostMemWrite _ _ => true
  | .hostMemRead _ _ => true
  | .pod _ _ _ _ => true
  | .loadw _ _ _ _ _ _ => true
  | .weightChunk _ => true
  | .loadwSwitch => true
  | .attest _ _ => true
  | .fwstage _ _ => true
  | .podBarrierMessage _ _ _ _ _ => true
  | .podBarrierRelease _ _ _ _ => true
  | .ptpMessage _ => true
  | .linkRetry => true
  | .keeperWindow => true
  | .keepcfgWrite _ => true
  | .poolbaseWrite _ => true
  | .srseedWrite _ _ => true
  | .ttbaseWrite _ _ => true
  | .kpartWrite _ _ => true
  | .sscfgWrite _ _ => true
  | .sliceWrite _ _ => true
  | .pstateHalt _ => true
  | .pstateResume _ => true
  | .svackRelease _ => true
  | .svackEnd _ => true
  | .svqRecordWrite _ => true
  | .haltLineArrives _ _ _ => true
  | .halted _ => true
  | .sliceEnd _ => true
  | .preemptionUnitSave _ _ _ => true
  | .preemptionComplete _ => true
  | .powerUp => true
  | .bringupStageComplete _ => true
  | .cxlReset => true
  | .storePerformed _ => true
  | .instructionFetchMissReturn _ => true
  | .routingPassComplete _ => true
  | .powerOff => true
  | .portLaneChange _ => true
  | .loadwDoneReport _ => true

end Sys2Proof
end

