-- ==== Sys2Proof/Decode.lean ====
section
/-! DEFINITION. Decoding the slots of a bundle (R24 to R47) and, after it, encoding them. The decoder is total on any words and
refuses by name; each row of the opcode maps R43 to R46 is one line, in the order of spec/opcode_table.json. -/
namespace Sys2Proof

/-- Why the words of a slot are no instruction (R47). -/
inductive Reject where
  /-- Unassigned opcode in the slot. -/
  | unassignedOpcode
  /-- A reserved field is not zero. -/
  | reservedField
  /-- A lent byte or a microword reaches an instruction that takes none, or the wrong one of the two. -/
  | badLend
  /-- A reserved code, block shape, combination or header. -/
  | reservedCode
  deriving DecidableEq, Repr

/-- What a header lends to one slot (R27). -/
inductive Lend where
  | nothing
  | byte (b : Fin 256)
  | micro (m : Fin 16777216)
  deriving DecidableEq, Repr

def Lend.lent : Lend → Lent
  | .byte b => some b
  | .nothing => none
  | .micro _ => none
def Lend.mw : Lend → Micro
  | .micro m => some m
  | .nothing => none
  | .byte _ => none

/-- Slot 0 with bit 31 = 0 (R39, R43). -/
def rowS (w : Nat) : Option Instr :=
  if w / 4194304 % 64 = 0 ∧ w % 4194304 = 0 then some (.nopS (Fin.ofNat 8 (w / 268435456)))
  else if w / 4194304 % 64 = 1 ∧ w % 16 = 0 then some (.add (Fin.ofNat 8 (w / 268435456)) (Fin.ofNat 64 (w / 65536)) (Fin.ofNat 64 (w / 1024)) (Fin.ofNat 64 (w / 16)))
  else if w / 4194304 % 64 = 2 ∧ w % 16 = 0 then some (.sub (Fin.ofNat 8 (w / 268435456)) (Fin.ofNat 64 (w / 65536)) (Fin.ofNat 64 (w / 1024)) (Fin.ofNat 64 (w / 16)))
  else if w / 4194304 % 64 = 3 ∧ w % 16 = 0 then some (.mul (Fin.ofNat 8 (w / 268435456)) (Fin.ofNat 64 (w / 65536)) (Fin.ofNat 64 (w / 1024)) (Fin.ofNat 64 (w / 16)))
  else if w / 4194304 % 64 = 4 ∧ w / 2 % 8 = 0 then some (.mulh (Fin.ofNat 8 (w / 268435456)) (Fin.ofNat 64 (w / 65536)) (Fin.ofNat 64 (w / 1024)) (Fin.ofNat 64 (w / 16)) (w % 2 == 1))
  else if w / 4194304 % 64 = 5 ∧ w % 16 = 0 then some (.and (Fin.ofNat 8 (w / 268435456)) (Fin.ofNat 64 (w / 65536)) (Fin.ofNat 64 (w / 1024)) (Fin.ofNat 64 (w / 16)))
  else if w / 4194304 % 64 = 6 ∧ w % 16 = 0 then some (.or (Fin.ofNat 8 (w / 268435456)) (Fin.ofNat 64 (w / 65536)) (Fin.ofNat 64 (w / 1024)) (Fin.ofNat 64 (w / 16)))
  else if w / 4194304 % 64 = 7 ∧ w % 16 = 0 then some (.xor (Fin.ofNat 8 (w / 268435456)) (Fin.ofNat 64 (w / 65536)) (Fin.ofNat 64 (w / 1024)) (Fin.ofNat 64 (w / 16)))
  else if w / 4194304 % 64 = 8 ∧ w % 16 = 0 then some (.shl (Fin.ofNat 8 (w / 268435456)) (Fin.ofNat 64 (w / 65536)) (Fin.ofNat 64 (w / 1024)) (Fin.ofNat 64 (w / 16)))
  else if w / 4194304 % 64 = 9 ∧ w % 16 = 0 then some (.shr (Fin.ofNat 8 (w / 268435456)) (Fin.ofNat 64 (w / 65536)) (Fin.ofNat 64 (w / 1024)) (Fin.ofNat 64 (w / 16)))
  else if w / 4194304 % 64 = 10 ∧ w % 16 = 0 then some (.sra (Fin.ofNat 8 (w / 268435456)) (Fin.ofNat 64 (w / 65536)) (Fin.ofNat 64 (w / 1024)) (Fin.ofNat 64 (w / 16)))
  else if w / 4194304 % 64 = 11 ∧ w / 2 % 8 = 0 then some (.min (Fin.ofNat 8 (w / 268435456)) (Fin.ofNat 64 (w / 65536)) (Fin.ofNat 64 (w / 1024)) (Fin.ofNat 64 (w / 16)) (w % 2 == 1))
  else if w / 4194304 % 64 = 12 ∧ w / 2 % 8 = 0 then some (.max (Fin.ofNat 8 (w / 268435456)) (Fin.ofNat 64 (w / 65536)) (Fin.ofNat 64 (w / 1024)) (Fin.ofNat 64 (w / 16)) (w % 2 == 1))
  else if w / 4194304 % 64 = 13 then some (.addi (Fin.ofNat 8 (w / 268435456)) (Fin.ofNat 64 (w / 65536)) (Fin.ofNat 64 (w / 1024)) (Fin.ofNat 1024 w))
  else if w / 4194304 % 64 = 14 then some (.andi (Fin.ofNat 8 (w / 268435456)) (Fin.ofNat 64 (w / 65536)) (Fin.ofNat 64 (w / 1024)) (Fin.ofNat 1024 w))
  else if w / 4194304 % 64 = 15 then some (.ori (Fin.ofNat 8 (w / 268435456)) (Fin.ofNat 64 (w / 65536)) (Fin.ofNat 64 (w / 1024)) (Fin.ofNat 1024 w))
  else if w / 4194304 % 64 = 16 then some (.xori (Fin.ofNat 8 (w / 268435456)) (Fin.ofNat 64 (w / 65536)) (Fin.ofNat 64 (w / 1024)) (Fin.ofNat 1024 w))
  else if w / 4194304 % 64 = 17 ∧ w / 64 % 16 = 0 then some (.shli (Fin.ofNat 8 (w / 268435456)) (Fin.ofNat 64 (w / 65536)) (Fin.ofNat 64 (w / 1024)) (Fin.ofNat 64 w))
  else if w / 4194304 % 64 = 18 ∧ w / 64 % 16 = 0 then some (.shri (Fin.ofNat 8 (w / 268435456)) (Fin.ofNat 64 (w / 65536)) (Fin.ofNat 64 (w / 1024)) (Fin.ofNat 64 w))
  else if w / 4194304 % 64 = 19 ∧ w / 64 % 16 = 0 then some (.srai (Fin.ofNat 8 (w / 268435456)) (Fin.ofNat 64 (w / 65536)) (Fin.ofNat 64 (w / 1024)) (Fin.ofNat 64 w))
  else if w / 4194304 % 64 = 20 then some (.li (Fin.ofNat 8 (w / 268435456)) (Fin.ofNat 64 (w / 65536)) (Fin.ofNat 65536 w))
  else if w / 4194304 % 64 = 21 then some (.lih (Fin.ofNat 8 (w / 268435456)) (Fin.ofNat 64 (w / 65536)) (Fin.ofNat 65536 w))
  else if w / 4194304 % 64 = 22 then some (.addsh (Fin.ofNat 8 (w / 268435456)) (Fin.ofNat 64 (w / 65536)) (Fin.ofNat 64 (w / 1024)) (Fin.ofNat 64 (w / 16)) (Fin.ofNat 16 w))
  else if w / 4194304 % 64 = 23 ∧ w % 16 = 0 then some (.cmp (Fin.ofNat 8 (w / 268435456)) (Fin.ofNat 8 (w / 524288)) (Fin.ofNat 8 (w / 65536)) (Fin.ofNat 64 (w / 1024)) (Fin.ofNat 64 (w / 16)))
  else if w / 4194304 % 64 = 24 then some (.cmpi (Fin.ofNat 8 (w / 268435456)) (Fin.ofNat 8 (w / 524288)) (Fin.ofNat 8 (w / 65536)) (Fin.ofNat 64 (w / 1024)) (Fin.ofNat 1024 w))
  else if w / 4194304 % 64 = 25 ∧ w % 512 = 0 then some (.plog (Fin.ofNat 8 (w / 268435456)) (Fin.ofNat 8 (w / 524288)) (Fin.ofNat 8 (w / 65536)) (Fin.ofNat 8 (w / 8192)) (Fin.ofNat 16 (w / 512)))
  else if w / 4194304 % 64 = 26 ∧ w % 1024 = 0 then some (.clz (Fin.ofNat 8 (w / 268435456)) (Fin.ofNat 64 (w / 65536)) (Fin.ofNat 64 (w / 1024)))
  else if w / 4194304 % 64 = 27 ∧ w % 1024 = 0 then some (.popc (Fin.ofNat 8 (w / 268435456)) (Fin.ofNat 64 (w / 65536)) (Fin.ofNat 64 (w / 1024)))
  else if w / 4194304 % 64 = 28 ∧ w / 128 % 8 = 0 then some (.sext (Fin.ofNat 8 (w / 268435456)) (Fin.ofNat 64 (w / 65536)) (Fin.ofNat 64 (w / 1024)) (Fin.ofNat 128 w))
  else if w / 4194304 % 64 = 29 ∧ w / 128 % 8 = 0 then some (.zext (Fin.ofNat 8 (w / 268435456)) (Fin.ofNat 64 (w / 65536)) (Fin.ofNat 64 (w / 1024)) (Fin.ofNat 128 w))
  else if w / 4194304 % 64 = 30 ∧ w / 2 % 8 = 0 then some (.div (Fin.ofNat 8 (w / 268435456)) (Fin.ofNat 64 (w / 65536)) (Fin.ofNat 64 (w / 1024)) (Fin.ofNat 64 (w / 16)) (w % 2 == 1))
  else if w / 4194304 % 64 = 31 ∧ w / 2 % 8 = 0 then some (.rem (Fin.ofNat 8 (w / 268435456)) (Fin.ofNat 64 (w / 65536)) (Fin.ofNat 64 (w / 1024)) (Fin.ofNat 64 (w / 16)) (w % 2 == 1))
  else if w / 4194304 % 64 = 32 then some (.br (Fin.ofNat 8 (w / 268435456)) (Fin.ofNat 8 (w / 524288)) (w / 262144 % 2 == 1) (Fin.ofNat 262144 w))
  else if w / 4194304 % 64 = 33 then some (.call (Fin.ofNat 8 (w / 268435456)) (Fin.ofNat 8 (w / 524288)) (w / 262144 % 2 == 1) (Fin.ofNat 262144 w))
  else if w / 4194304 % 64 = 34 ∧ w % 1024 = 0 ∧ w / 65536 % 64 = 0 then some (.jr (Fin.ofNat 8 (w / 268435456)) (Fin.ofNat 64 (w / 1024)))
  else if w / 4194304 % 64 = 35 ∧ w / 256 % 2 = 0 ∧ w / 524288 % 2 = 0 then some (.loopImm (Fin.ofNat 8 (w / 268435456)) (Fin.ofNat 4 (w / 1048576)) (Fin.ofNat 1024 (w / 512)) (Fin.ofNat 256 w))
  else if w / 4194304 % 64 = 35 ∧ w / 256 % 2 = 0 ∧ w / 32768 % 32 = 16 then some (.loopReg (Fin.ofNat 8 (w / 268435456)) (Fin.ofNat 4 (w / 1048576)) (Fin.ofNat 64 (w / 512)) (Fin.ofNat 256 w))
  else if w / 4194304 % 64 = 36 ∧ w / 256 % 2048 = 0 then some (.bar (Fin.ofNat 8 (w / 268435456)) (Fin.ofNat 8 (w / 524288)) (Fin.ofNat 256 w))
  else if w / 4194304 % 64 = 37 then some (.waitc (Fin.ofNat 8 (w / 268435456)) (Fin.ofNat 8 (w / 524288)) (Fin.ofNat 524288 w))
  else if w / 4194304 % 64 = 38 ∧ w % 524288 = 0 then some (.sstep (Fin.ofNat 8 (w / 268435456)) (Fin.ofNat 8 (w / 524288)))
  else if w / 4194304 % 64 = 39 ∧ w % 16 = 0 ∧ w / 65536 % 64 = 0 then some (.tspawn (Fin.ofNat 8 (w / 268435456)) (Fin.ofNat 64 (w / 1024)) (Fin.ofNat 64 (w / 16)))
  else if w / 4194304 % 64 = 40 ∧ w / 524288 % 8 = 0 then some (.park (Fin.ofNat 8 (w / 268435456)) (Fin.ofNat 524288 w))
  else if w / 4194304 % 64 = 41 ∧ w % 4194304 = 0 then some (.yield (Fin.ofNat 8 (w / 268435456)))
  else if w / 4194304 % 64 = 42 ∧ w % 4194304 = 0 then some (.tdone (Fin.ofNat 8 (w / 268435456)))
  else if w / 4194304 % 64 = 43 ∧ w / 65536 % 64 = 0 then some (.trap (Fin.ofNat 8 (w / 268435456)) (Fin.ofNat 65536 w))
  else if w / 4194304 % 64 = 44 ∧ w % 128 = 0 ∧ w / 524288 % 8 = 0 then some (.eret (Fin.ofNat 8 (w / 268435456)) (Fin.ofNat 64 (w / 8192)) (Fin.ofNat 64 (w / 128)))
  else if w / 4194304 % 64 = 45 ∧ w % 4194304 = 0 then some (.snaprel (Fin.ofNat 8 (w / 268435456)))
  else if w / 4194304 % 64 = 46 ∧ w / 1024 % 64 = 0 then some (.rdms (Fin.ofNat 8 (w / 268435456)) (Fin.ofNat 64 (w / 65536)) (Fin.ofNat 1024 w))
  else if w / 4194304 % 64 = 47 ∧ w / 65536 % 64 = 0 then some (.wrms (Fin.ofNat 8 (w / 268435456)) (Fin.ofNat 64 (w / 1024)) (Fin.ofNat 1024 w))
  else if w / 4194304 % 64 = 48 ∧ w % 8192 = 0 ∧ w / 524288 % 8 = 0 then some (.halt (Fin.ofNat 8 (w / 268435456)) (Fin.ofNat 64 (w / 8192)))
  else none

/-- Slot 0 with bit 31 = 1: a header (R26). -/
def rowH (w : Nat) : Instr :=
  .hdr (Fin.ofNat 8 (w / 268435456)) (w / 134217728 % 2 == 1) (w / 67108864 % 2 == 1) (w / 33554432 % 2 == 1) (w / 16777216 % 2 == 1) (Fin.ofNat 256 (w / 65536)) (Fin.ofNat 256 (w / 256)) (Fin.ofNat 256 w)

/-- Slot 1 (R38, R44). -/
def rowL (w : Nat) (l : Lent) (m : Micro) : Option Instr :=
  if w / 33554432 % 128 = 0 ∧ w % 33554432 = 0 then some (.nop)
  else if w / 33554432 % 128 = 1 then some (.ld (Fin.ofNat 64 (w / 524288)) (Fin.ofNat 64 (w / 8192)) (Fin.ofNat 8 (w / 1024)) (Fin.ofNat 4 (w / 256)) (Fin.ofNat 256 w) l)
  else if w / 33554432 % 128 = 2 then some (.ldv (Fin.ofNat 64 (w / 524288)) (Fin.ofNat 64 (w / 8192)) (Fin.ofNat 8 (w / 1024)) (Fin.ofNat 4 (w / 256)) (Fin.ofNat 256 w) l)
  else if w / 33554432 % 128 = 3 then some (.ldg (Fin.ofNat 64 (w / 524288)) (Fin.ofNat 64 (w / 8192)) (Fin.ofNat 64 (w / 128)) (Fin.ofNat 8 (w / 16)) (Fin.ofNat 4 (w / 4)) (Fin.ofNat 4 w))
  else if w / 33554432 % 128 = 4 then some (.ldb (Fin.ofNat 64 (w / 524288)) (Fin.ofNat 64 (w / 8192)) (Fin.ofNat 8 (w / 1024)) (Fin.ofNat 4 (w / 256)) (Fin.ofNat 256 w) l)
  else if w / 33554432 % 128 = 8 ∧ w % 8192 = 0 then some (.tagq (Fin.ofNat 64 (w / 524288)) (Fin.ofNat 64 (w / 8192)) l)
  else if w / 33554432 % 128 = 9 ∧ w / 1024 % 8 = 0 ∧ w / 524288 % 64 = 0 then some (.tagset (Fin.ofNat 64 (w / 8192)) (Fin.ofNat 1024 w) l)
  else if w / 33554432 % 128 = 10 ∧ w / 1024 % 32768 = 0 then some (.tagclr (Fin.ofNat 1024 w) l)
  else if w / 33554432 % 128 = 16 then some (.tld (Fin.ofNat 64 (w / 524288)) (Fin.ofNat 64 (w / 8192)) (Fin.ofNat 8 (w / 1024)) (Fin.ofNat 4 (w / 256)) (Fin.ofNat 256 w) l)
  else if w / 33554432 % 128 = 17 ∧ w % 8192 = 0 ∧ w / 524288 % 64 = 0 then some (.tdrop (Fin.ofNat 64 (w / 8192)))
  else if w / 33554432 % 128 = 18 ∧ w % 8192 = 0 then some (.tcnt (Fin.ofNat 64 (w / 524288)) (Fin.ofNat 64 (w / 8192)))
  else if w / 33554432 % 128 = 18 ∧ w % 8192 = 1 then some (.tcntWait (Fin.ofNat 64 (w / 524288)) (Fin.ofNat 64 (w / 8192)))
  else if w / 33554432 % 128 = 24 ∧ w / 32 % 4 = 1 then some (.aadd (Fin.ofNat 64 (w / 524288)) (Fin.ofNat 64 (w / 8192)) (Fin.ofNat 64 (w / 128)) (w / 16 % 2 == 1) (Fin.ofNat 8 (w / 2)) (w % 2 == 1))
  else if w / 33554432 % 128 = 25 ∧ w / 32 % 4 = 1 then some (.amin (Fin.ofNat 64 (w / 524288)) (Fin.ofNat 64 (w / 8192)) (Fin.ofNat 64 (w / 128)) (w / 16 % 2 == 1) (Fin.ofNat 8 (w / 2)) (w % 2 == 1))
  else if w / 33554432 % 128 = 26 ∧ w / 32 % 4 = 1 then some (.amax (Fin.ofNat 64 (w / 524288)) (Fin.ofNat 64 (w / 8192)) (Fin.ofNat 64 (w / 128)) (w / 16 % 2 == 1) (Fin.ofNat 8 (w / 2)) (w % 2 == 1))
  else if w / 33554432 % 128 = 27 ∧ w / 32 % 4 = 1 then some (.aand (Fin.ofNat 64 (w / 524288)) (Fin.ofNat 64 (w / 8192)) (Fin.ofNat 64 (w / 128)) (w / 16 % 2 == 1) (Fin.ofNat 8 (w / 2)) (w % 2 == 1))
  else if w / 33554432 % 128 = 28 ∧ w / 32 % 4 = 1 then some (.aor (Fin.ofNat 64 (w / 524288)) (Fin.ofNat 64 (w / 8192)) (Fin.ofNat 64 (w / 128)) (w / 16 % 2 == 1) (Fin.ofNat 8 (w / 2)) (w % 2 == 1))
  else if w / 33554432 % 128 = 29 ∧ w / 32 % 4 = 1 then some (.axor (Fin.ofNat 64 (w / 524288)) (Fin.ofNat 64 (w / 8192)) (Fin.ofNat 64 (w / 128)) (w / 16 % 2 == 1) (Fin.ofNat 8 (w / 2)) (w % 2 == 1))
  else if w / 33554432 % 128 = 30 ∧ w / 32 % 4 = 1 then some (.aswp (Fin.ofNat 64 (w / 524288)) (Fin.ofNat 64 (w / 8192)) (Fin.ofNat 64 (w / 128)) (w / 16 % 2 == 1) (Fin.ofNat 8 (w / 2)) (w % 2 == 1))
  else if w / 33554432 % 128 = 31 ∧ w / 32 % 4 = 1 then some (.acas (Fin.ofNat 64 (w / 524288)) (Fin.ofNat 64 (w / 8192)) (Fin.ofNat 64 (w / 128)) (w / 16 % 2 == 1) (Fin.ofNat 8 (w / 2)) (w % 2 == 1))
  else if w / 33554432 % 128 = 32 then some (.cpyIn (Fin.ofNat 64 (w / 524288)) (Fin.ofNat 64 (w / 8192)) (Fin.ofNat 64 (w / 128)) (Fin.ofNat 16 (w / 8)) (Fin.ofNat 8 w) m)
  else if w / 33554432 % 128 = 33 then some (.cpygIn (Fin.ofNat 64 (w / 524288)) (Fin.ofNat 64 (w / 8192)) (Fin.ofNat 64 (w / 128)) (Fin.ofNat 16 (w / 8)) (Fin.ofNat 8 w) m)
  else if w / 33554432 % 128 = 34 then some (.cpysIn (Fin.ofNat 64 (w / 524288)) (Fin.ofNat 64 (w / 8192)) (Fin.ofNat 64 (w / 128)) (Fin.ofNat 16 (w / 8)) (Fin.ofNat 8 w) m)
  else if w / 33554432 % 128 = 35 ∧ w / 1048576 % 32 = 0 then some (.cpyfIn (w / 524288 % 2 == 1) (Fin.ofNat 64 (w / 8192)) (Fin.ofNat 64 (w / 128)) (Fin.ofNat 16 (w / 8)) (Fin.ofNat 8 w) m)
  else if w / 33554432 % 128 = 36 ∧ w / 16 % 512 = 0 ∧ w / 524288 % 64 = 0 then some (.shape (Fin.ofNat 64 (w / 8192)) (Fin.ofNat 16 w) l)
  else if w / 33554432 % 128 = 40 then some (.hread (Fin.ofNat 64 (w / 524288)) (Fin.ofNat 64 (w / 8192)) (Fin.ofNat 64 (w / 128)) (Fin.ofNat 128 w) l)
  else if w / 33554432 % 128 = 41 ∧ w % 8192 = 0 ∧ w / 524288 % 64 = 0 then some (.hwait (Fin.ofNat 64 (w / 8192)))
  else if w / 33554432 % 128 = 42 ∧ w % 8192 = 0 then some (.hstat (Fin.ofNat 64 (w / 524288)) (Fin.ofNat 64 (w / 8192)))
  else if w / 33554432 % 128 = 43 ∧ w % 8192 = 0 ∧ w / 524288 % 64 = 0 then some (.hrel (Fin.ofNat 64 (w / 8192)))
  else if w / 33554432 % 128 = 44 ∧ w / 1024 % 512 = 0 then some (.gload (Fin.ofNat 64 (w / 524288)) (Fin.ofNat 1024 w) l)
  else none

/-- Slot 2 (R38, R45). -/
def rowV (w : Nat) (l : Lent) : Option Instr :=
  if w / 33554432 % 128 = 0 ∧ w % 33554432 = 0 then some (.nop)
  else if w / 33554432 % 128 = 1 then some (.vadd (Fin.ofNat 64 (w / 524288)) (Fin.ofNat 64 (w / 8192)) (Fin.ofNat 64 (w / 128)) (Fin.ofNat 8 (w / 16)) (Fin.ofNat 4 (w / 4)) (w / 2 % 2 == 1) (w % 2 == 1) l)
  else if w / 33554432 % 128 = 2 then some (.vsub (Fin.ofNat 64 (w / 524288)) (Fin.ofNat 64 (w / 8192)) (Fin.ofNat 64 (w / 128)) (Fin.ofNat 8 (w / 16)) (Fin.ofNat 4 (w / 4)) (w / 2 % 2 == 1) (w % 2 == 1) l)
  else if w / 33554432 % 128 = 3 then some (.vmul (Fin.ofNat 64 (w / 524288)) (Fin.ofNat 64 (w / 8192)) (Fin.ofNat 64 (w / 128)) (Fin.ofNat 8 (w / 16)) (Fin.ofNat 4 (w / 4)) (w / 2 % 2 == 1) (w % 2 == 1) l)
  else if w / 33554432 % 128 = 4 ∧ w % 2 = 0 then some (.vmulh (Fin.ofNat 64 (w / 524288)) (Fin.ofNat 64 (w / 8192)) (Fin.ofNat 64 (w / 128)) (Fin.ofNat 8 (w / 16)) (Fin.ofNat 4 (w / 4)) (w / 2 % 2 == 1) l)
  else if w / 33554432 % 128 = 5 ∧ w % 2 = 0 then some (.vmin (Fin.ofNat 64 (w / 524288)) (Fin.ofNat 64 (w / 8192)) (Fin.ofNat 64 (w / 128)) (Fin.ofNat 8 (w / 16)) (Fin.ofNat 4 (w / 4)) (w / 2 % 2 == 1) l)
  else if w / 33554432 % 128 = 6 ∧ w % 2 = 0 then some (.vmax (Fin.ofNat 64 (w / 524288)) (Fin.ofNat 64 (w / 8192)) (Fin.ofNat 64 (w / 128)) (Fin.ofNat 8 (w / 16)) (Fin.ofNat 4 (w / 4)) (w / 2 % 2 == 1) l)
  else if w / 33554432 % 128 = 7 ∧ w % 16 = 0 then some (.vand (Fin.ofNat 64 (w / 524288)) (Fin.ofNat 64 (w / 8192)) (Fin.ofNat 64 (w / 128)) (Fin.ofNat 8 (w / 16)) l)
  else if w / 33554432 % 128 = 8 ∧ w % 16 = 0 then some (.vor (Fin.ofNat 64 (w / 524288)) (Fin.ofNat 64 (w / 8192)) (Fin.ofNat 64 (w / 128)) (Fin.ofNat 8 (w / 16)) l)
  else if w / 33554432 % 128 = 9 ∧ w % 16 = 0 then some (.vxor (Fin.ofNat 64 (w / 524288)) (Fin.ofNat 64 (w / 8192)) (Fin.ofNat 64 (w / 128)) (Fin.ofNat 8 (w / 16)) l)
  else if w / 33554432 % 128 = 10 ∧ w % 4 = 0 then some (.vshl (Fin.ofNat 64 (w / 524288)) (Fin.ofNat 64 (w / 8192)) (Fin.ofNat 64 (w / 128)) (Fin.ofNat 8 (w / 16)) (Fin.ofNat 4 (w / 4)) l)
  else if w / 33554432 % 128 = 11 ∧ w % 4 = 0 then some (.vshr (Fin.ofNat 64 (w / 524288)) (Fin.ofNat 64 (w / 8192)) (Fin.ofNat 64 (w / 128)) (Fin.ofNat 8 (w / 16)) (Fin.ofNat 4 (w / 4)) l)
  else if w / 33554432 % 128 = 12 ∧ w % 4 = 0 then some (.vsra (Fin.ofNat 64 (w / 524288)) (Fin.ofNat 64 (w / 8192)) (Fin.ofNat 64 (w / 128)) (Fin.ofNat 8 (w / 16)) (Fin.ofNat 4 (w / 4)) l)
  else if w / 33554432 % 128 = 13 ∧ w / 2 % 2 = 0 ∧ w / 128 % 64 = 0 then some (.vabs (Fin.ofNat 64 (w / 524288)) (Fin.ofNat 64 (w / 8192)) (Fin.ofNat 8 (w / 16)) (Fin.ofNat 4 (w / 4)) (w % 2 == 1) l)
  else if w / 33554432 % 128 = 14 ∧ w / 2 % 2 = 0 ∧ w / 128 % 64 = 0 then some (.vneg (Fin.ofNat 64 (w / 524288)) (Fin.ofNat 64 (w / 8192)) (Fin.ofNat 8 (w / 16)) (Fin.ofNat 4 (w / 4)) (w % 2 == 1) l)
  else if w / 33554432 % 128 = 15 ∧ w % 4 = 0 ∧ w / 128 % 64 = 0 then some (.vclz (Fin.ofNat 64 (w / 524288)) (Fin.ofNat 64 (w / 8192)) (Fin.ofNat 8 (w / 16)) (Fin.ofNat 4 (w / 4)) l)
  else if w / 33554432 % 128 = 50 ∧ w % 4 = 0 ∧ w / 128 % 64 = 0 then some (.vpopc (Fin.ofNat 64 (w / 524288)) (Fin.ofNat 64 (w / 8192)) (Fin.ofNat 8 (w / 16)) (Fin.ofNat 4 (w / 4)) l)
  else if w / 33554432 % 128 = 16 then some (.vfadd (Fin.ofNat 64 (w / 524288)) (Fin.ofNat 64 (w / 8192)) (Fin.ofNat 64 (w / 128)) (Fin.ofNat 8 (w / 16)) (Fin.ofNat 4 (w / 4)) (Fin.ofNat 4 w) l)
  else if w / 33554432 % 128 = 17 then some (.vfsub (Fin.ofNat 64 (w / 524288)) (Fin.ofNat 64 (w / 8192)) (Fin.ofNat 64 (w / 128)) (Fin.ofNat 8 (w / 16)) (Fin.ofNat 4 (w / 4)) (Fin.ofNat 4 w) l)
  else if w / 33554432 % 128 = 18 then some (.vfmul (Fin.ofNat 64 (w / 524288)) (Fin.ofNat 64 (w / 8192)) (Fin.ofNat 64 (w / 128)) (Fin.ofNat 8 (w / 16)) (Fin.ofNat 4 (w / 4)) (Fin.ofNat 4 w) l)
  else if w / 33554432 % 128 = 19 then some (.vfma (Fin.ofNat 64 (w / 524288)) (Fin.ofNat 64 (w / 8192)) (Fin.ofNat 64 (w / 128)) (Fin.ofNat 8 (w / 16)) (Fin.ofNat 4 (w / 4)) (Fin.ofNat 4 w) l)
  else if w / 33554432 % 128 = 20 ∧ w % 4 = 0 then some (.vfmin (Fin.ofNat 64 (w / 524288)) (Fin.ofNat 64 (w / 8192)) (Fin.ofNat 64 (w / 128)) (Fin.ofNat 8 (w / 16)) (Fin.ofNat 4 (w / 4)) l)
  else if w / 33554432 % 128 = 21 ∧ w % 4 = 0 then some (.vfmax (Fin.ofNat 64 (w / 524288)) (Fin.ofNat 64 (w / 8192)) (Fin.ofNat 64 (w / 128)) (Fin.ofNat 8 (w / 16)) (Fin.ofNat 4 (w / 4)) l)
  else if w / 33554432 % 128 = 22 ∧ w % 4 = 0 ∧ w / 128 % 64 = 0 then some (.vfabs (Fin.ofNat 64 (w / 524288)) (Fin.ofNat 64 (w / 8192)) (Fin.ofNat 8 (w / 16)) (Fin.ofNat 4 (w / 4)) l)
  else if w / 33554432 % 128 = 23 ∧ w % 4 = 0 ∧ w / 128 % 64 = 0 then some (.vfneg (Fin.ofNat 64 (w / 524288)) (Fin.ofNat 64 (w / 8192)) (Fin.ofNat 8 (w / 16)) (Fin.ofNat 4 (w / 4)) l)
  else if w / 33554432 % 128 = 24 ∧ w % 2 = 0 ∧ w / 4 % 4 = 0 then some (.vcmp (Fin.ofNat 8 (w / 4194304)) (Fin.ofNat 8 (w / 524288)) (Fin.ofNat 64 (w / 8192)) (Fin.ofNat 64 (w / 128)) (Fin.ofNat 8 (w / 16)) (w / 2 % 2 == 1) l)
  else if w / 33554432 % 128 = 25 ∧ w % 16 = 0 then some (.vfcmp (Fin.ofNat 8 (w / 4194304)) (Fin.ofNat 8 (w / 524288)) (Fin.ofNat 64 (w / 8192)) (Fin.ofNat 64 (w / 128)) (Fin.ofNat 8 (w / 16)) l)
  else if w / 33554432 % 128 = 26 ∧ w % 16 = 0 then some (.vsel (Fin.ofNat 64 (w / 524288)) (Fin.ofNat 64 (w / 8192)) (Fin.ofNat 64 (w / 128)) (Fin.ofNat 8 (w / 16)) l)
  else if w / 33554432 % 128 = 28 ∧ w % 16 = 0 then some (.vshuf (Fin.ofNat 64 (w / 524288)) (Fin.ofNat 64 (w / 8192)) (Fin.ofNat 64 (w / 128)) (Fin.ofNat 8 (w / 16)) l)
  else if w / 33554432 % 128 = 29 ∧ w % 16 = 0 ∧ w / 2048 % 4 = 0 then some (.vbcast (Fin.ofNat 64 (w / 524288)) (Fin.ofNat 64 (w / 8192)) (Fin.ofNat 16 (w / 128)) (Fin.ofNat 8 (w / 16)) l)
  else if w / 33554432 % 128 = 30 ∧ w % 16 = 0 ∧ w / 128 % 64 = 0 then some (.vmovs (Fin.ofNat 64 (w / 524288)) (Fin.ofNat 64 (w / 8192)) (Fin.ofNat 8 (w / 16)) l)
  else if w / 33554432 % 128 = 30 ∧ w % 128 = 1 ∧ w / 2048 % 4 = 0 then some (.vmovsTos (Fin.ofNat 64 (w / 524288)) (Fin.ofNat 64 (w / 8192)) (Fin.ofNat 16 (w / 128)) l)
  else if w / 33554432 % 128 = 31 ∧ w % 16 = 0 ∧ w / 128 % 64 = 0 then some (.vmov (Fin.ofNat 64 (w / 524288)) (Fin.ofNat 64 (w / 8192)) (Fin.ofNat 8 (w / 16)) l)
  else if w / 33554432 % 128 = 32 ∧ w / 4 % 4 = 0 ∧ w / 128 % 64 = 0 then some (.vradd (Fin.ofNat 64 (w / 524288)) (Fin.ofNat 64 (w / 8192)) (Fin.ofNat 8 (w / 16)) (w / 2 % 2 == 1) (w % 2 == 1) l)
  else if w / 33554432 % 128 = 33 ∧ w % 2 = 0 ∧ w / 4 % 4 = 0 ∧ w / 128 % 64 = 0 then some (.vrmin (Fin.ofNat 64 (w / 524288)) (Fin.ofNat 64 (w / 8192)) (Fin.ofNat 8 (w / 16)) (w / 2 % 2 == 1) l)
  else if w / 33554432 % 128 = 34 ∧ w % 2 = 0 ∧ w / 4 % 4 = 0 ∧ w / 128 % 64 = 0 then some (.vrmax (Fin.ofNat 64 (w / 524288)) (Fin.ofNat 64 (w / 8192)) (Fin.ofNat 8 (w / 16)) (w / 2 % 2 == 1) l)
  else if w / 33554432 % 128 = 35 ∧ w / 4 % 4 = 0 ∧ w / 128 % 64 = 0 then some (.vfradd (Fin.ofNat 64 (w / 524288)) (Fin.ofNat 64 (w / 8192)) (Fin.ofNat 8 (w / 16)) (Fin.ofNat 4 w) l)
  else if w / 33554432 % 128 = 36 ∧ w % 16 = 0 ∧ w / 128 % 64 = 0 then some (.vfrmin (Fin.ofNat 64 (w / 524288)) (Fin.ofNat 64 (w / 8192)) (Fin.ofNat 8 (w / 16)) l)
  else if w / 33554432 % 128 = 37 ∧ w % 16 = 0 ∧ w / 128 % 64 = 0 then some (.vfrmax (Fin.ofNat 64 (w / 524288)) (Fin.ofNat 64 (w / 8192)) (Fin.ofNat 8 (w / 16)) l)
  else if w / 33554432 % 128 = 38 then some (.vcvt (Fin.ofNat 64 (w / 524288)) (Fin.ofNat 64 (w / 8192)) (Fin.ofNat 8 (w / 1024)) (Fin.ofNat 8 (w / 128)) (Fin.ofNat 8 (w / 16)) (Fin.ofNat 4 (w / 4)) (Fin.ofNat 4 w) l)
  else if w / 33554432 % 128 = 40 ∧ w / 4 % 4 = 0 ∧ w / 1024 % 8 = 0 then some (.vxc (Fin.ofNat 64 (w / 524288)) (Fin.ofNat 64 (w / 8192)) (Fin.ofNat 8 (w / 128)) (Fin.ofNat 8 (w / 16)) (Fin.ofNat 4 w) l)
  else if w / 33554432 % 128 = 44 ∧ w % 128 = 0 ∧ w / 524288 % 64 = 0 then some (.pwld (Fin.ofNat 64 (w / 8192)) (Fin.ofNat 64 (w / 128)) l)
  else if w / 33554432 % 128 = 45 ∧ w % 16 = 0 ∧ w / 128 % 64 = 0 then some (.vpwp (Fin.ofNat 64 (w / 524288)) (Fin.ofNat 64 (w / 8192)) (Fin.ofNat 8 (w / 16)) l)
  else if w / 33554432 % 128 = 48 ∧ w % 16 = 0 then some (.brank (Fin.ofNat 64 (w / 524288)) (Fin.ofNat 64 (w / 8192)) (Fin.ofNat 64 (w / 128)) (Fin.ofNat 8 (w / 16)) l)
  else if w / 33554432 % 128 = 49 ∧ w % 16 = 0 then some (.bsel (Fin.ofNat 64 (w / 524288)) (Fin.ofNat 64 (w / 8192)) (Fin.ofNat 64 (w / 128)) (Fin.ofNat 8 (w / 16)) l)
  else if w / 33554432 % 128 = 56 then some (.vaddi (Fin.ofNat 64 (w / 524288)) (Fin.ofNat 64 (w / 8192)) (Fin.ofNat 8 (w / 1024)) (Fin.ofNat 1024 w) l)
  else if w / 33554432 % 128 = 57 ∧ w / 8192 % 64 = 0 then some (.vli (Fin.ofNat 64 (w / 524288)) (Fin.ofNat 8 (w / 1024)) (Fin.ofNat 1024 w) l)
  else none

/-- Slot 3 (R38, R46). -/
def rowW (w : Nat) (l : Lent) (m : Micro) : Option Instr :=
  if w / 33554432 % 128 = 0 ∧ w % 33554432 = 0 then some (.nop)
  else if w / 33554432 % 128 = 1 then some (.st (Fin.ofNat 64 (w / 524288)) (Fin.ofNat 64 (w / 8192)) (Fin.ofNat 8 (w / 1024)) (Fin.ofNat 4 (w / 256)) (Fin.ofNat 256 w) l)
  else if w / 33554432 % 128 = 2 then some (.stv (Fin.ofNat 64 (w / 524288)) (Fin.ofNat 64 (w / 8192)) (Fin.ofNat 8 (w / 1024)) (Fin.ofNat 4 (w / 256)) (Fin.ofNat 256 w) l)
  else if w / 33554432 % 128 = 3 then some (.sts (Fin.ofNat 64 (w / 524288)) (Fin.ofNat 64 (w / 8192)) (Fin.ofNat 64 (w / 128)) (Fin.ofNat 8 (w / 16)) (Fin.ofNat 4 (w / 4)) (Fin.ofNat 4 w))
  else if w / 33554432 % 128 = 5 then some (.cowst (Fin.ofNat 64 (w / 524288)) (Fin.ofNat 64 (w / 8192)) (Fin.ofNat 8 (w / 1024)) (Fin.ofNat 4 (w / 256)) (Fin.ofNat 256 w) l)
  else if w / 33554432 % 128 = 8 then some (.talloc (Fin.ofNat 64 (w / 524288)) (Fin.ofNat 64 (w / 8192)) (Fin.ofNat 64 (w / 128)) (Fin.ofNat 8 (w / 16)) (Fin.ofNat 16 w) l)
  else if w / 33554432 % 128 = 9 then some (.twr (Fin.ofNat 64 (w / 524288)) (Fin.ofNat 64 (w / 8192)) (Fin.ofNat 8 (w / 1024)) (Fin.ofNat 4 (w / 256)) (Fin.ofNat 256 w) l)
  else if w / 33554432 % 128 = 10 ∧ w % 8192 = 0 ∧ w / 524288 % 64 = 0 then some (.tseal (Fin.ofNat 64 (w / 8192)))
  else if w / 33554432 % 128 = 12 then some (.cpyOut (Fin.ofNat 64 (w / 524288)) (Fin.ofNat 64 (w / 8192)) (Fin.ofNat 64 (w / 128)) (Fin.ofNat 16 (w / 8)) (Fin.ofNat 8 w) m)
  else if w / 33554432 % 128 = 13 then some (.cpygOut (Fin.ofNat 64 (w / 524288)) (Fin.ofNat 64 (w / 8192)) (Fin.ofNat 64 (w / 128)) (Fin.ofNat 16 (w / 8)) (Fin.ofNat 8 w) m)
  else if w / 33554432 % 128 = 14 then some (.cpysOut (Fin.ofNat 64 (w / 524288)) (Fin.ofNat 64 (w / 8192)) (Fin.ofNat 64 (w / 128)) (Fin.ofNat 16 (w / 8)) (Fin.ofNat 8 w) m)
  else if w / 33554432 % 128 = 15 ∧ w / 1048576 % 32 = 0 then some (.cpyfOut (w / 524288 % 2 == 1) (Fin.ofNat 64 (w / 8192)) (Fin.ofNat 64 (w / 128)) (Fin.ofNat 16 (w / 8)) (Fin.ofNat 8 w) m)
  else if w / 33554432 % 128 = 16 ∧ w % 524288 = 0 then some (.publish (Fin.ofNat 64 (w / 524288)))
  else if w / 33554432 % 128 = 16 ∧ w % 8192 = 1 then some (.publishDef (Fin.ofNat 64 (w / 524288)) (Fin.ofNat 64 (w / 8192)))
  else if w / 33554432 % 128 = 16 ∧ w % 524288 = 2 then some (.publishUndef (Fin.ofNat 64 (w / 524288)))
  else if w / 33554432 % 128 = 17 ∧ w % 524288 = 0 then some (.drain (Fin.ofNat 8 (w / 4194304)) (Fin.ofNat 8 (w / 524288)))
  else if w / 33554432 % 128 = 18 ∧ w % 4194304 = 0 then some (.fence (Fin.ofNat 8 (w / 4194304)))
  else if w / 33554432 % 128 = 19 ∧ w % 33554432 = 0 then some (.mark)
  else if w / 33554432 % 128 = 20 ∧ w % 8192 = 0 ∧ w / 524288 % 64 = 0 then some (.tlbiVa (Fin.ofNat 64 (w / 8192)))
  else if w / 33554432 % 128 = 20 ∧ w % 33554432 = 1 then some (.tlbiOwn)
  else if w / 33554432 % 128 = 20 ∧ w % 128 = 2 ∧ w / 524288 % 64 = 0 then some (.tlbiPva (Fin.ofNat 64 (w / 8192)) (Fin.ofNat 64 (w / 128)))
  else if w / 33554432 % 128 = 20 ∧ w % 128 = 3 ∧ w / 8192 % 4096 = 0 then some (.tlbiPart (Fin.ofNat 64 (w / 128)))
  else if w / 33554432 % 128 = 20 ∧ w % 33554432 = 4 then some (.tlbiGlob)
  else if w / 33554432 % 128 = 21 ∧ w / 8 % 1024 = 0 then some (.pagemv (Fin.ofNat 64 (w / 524288)) (Fin.ofNat 64 (w / 8192)) (Fin.ofNat 8 w) l)
  else if w / 33554432 % 128 = 22 ∧ w / 16 % 512 = 0 then some (.wmap (Fin.ofNat 64 (w / 524288)) (Fin.ofNat 64 (w / 8192)) (Fin.ofNat 16 w) l)
  else if w / 33554432 % 128 = 23 ∧ w / 16 % 2097152 = 0 then some (.wunmap (Fin.ofNat 16 w))
  else if w / 33554432 % 128 = 24 ∧ w % 524288 = 0 then some (.lease (Fin.ofNat 64 (w / 524288)) l)
  else if w / 33554432 % 128 = 25 ∧ w % 33554432 = 0 then some (.lfree l)
  else if w / 33554432 % 128 = 26 ∧ w % 524288 = 0 then some (.mcfg (Fin.ofNat 64 (w / 524288)) l)
  else if w / 33554432 % 128 = 27 ∧ w / 64 % 2 = 0 ∧ w / 4096 % 2 = 0 ∧ w / 262144 % 2 = 0 then some (.mma (Fin.ofNat 64 (w / 524288)) (Fin.ofNat 32 (w / 8192)) (Fin.ofNat 32 (w / 128)) (w / 32 % 2 == 1) (w / 16 % 2 == 1) (w / 8 % 2 == 1) (w / 4 % 2 == 1) (Fin.ofNat 4 w) l)
  else if w / 33554432 % 128 = 28 ∧ w / 4096 % 2 = 0 ∧ w / 262144 % 2 = 0 then some (.mmv (Fin.ofNat 64 (w / 524288)) (Fin.ofNat 32 (w / 8192)) (Fin.ofNat 32 (w / 128)) (w / 64 % 2 == 1) (w / 32 % 2 == 1) (w / 16 % 2 == 1) (w / 8 % 2 == 1) (w / 4 % 2 == 1) (Fin.ofNat 4 w) l)
  else if w / 33554432 % 128 = 29 ∧ w / 4 % 131072 = 0 then some (.mdrain (Fin.ofNat 64 (w / 524288)) (Fin.ofNat 4 w) l)
  else if w / 33554432 % 128 = 30 ∧ w / 4 % 8388608 = 0 then some (.mzero (Fin.ofNat 4 w) l)
  else if w / 33554432 % 128 = 31 ∧ w / 16 % 2097152 = 0 then some (.mwait (Fin.ofNat 16 w) l)
  else if w / 33554432 % 128 = 32 ∧ w / 128 % 4096 = 0 then some (.rte (Fin.ofNat 64 (w / 524288)) (Fin.ofNat 16 (w / 8)) (Fin.ofNat 8 w) l)
  else if w / 33554432 % 128 = 33 ∧ w / 128 % 4096 = 0 then some (.apre (Fin.ofNat 64 (w / 524288)) (Fin.ofNat 16 (w / 8)) (Fin.ofNat 8 w) l)
  else if w / 33554432 % 128 = 34 ∧ w / 128 % 4096 = 0 then some (.adec (Fin.ofNat 64 (w / 524288)) (Fin.ofNat 16 (w / 8)) (Fin.ofNat 8 w) l)
  else if w / 33554432 % 128 = 35 ∧ w / 16 % 32768 = 0 then some (.kvag (Fin.ofNat 64 (w / 524288)) (Fin.ofNat 16 w) l)
  else if w / 33554432 % 128 = 36 then some (.xsend (Fin.ofNat 64 (w / 524288)) (Fin.ofNat 64 (w / 8192)) (Fin.ofNat 64 (w / 128)) (Fin.ofNat 16 (w / 8)) (Fin.ofNat 8 w) l)
  else if w / 33554432 % 128 = 37 ∧ w / 64 % 8192 = 0 then some (.xrecv (Fin.ofNat 64 (w / 524288)) (Fin.ofNat 64 w) l)
  else if w / 33554432 % 128 = 40 ∧ w % 524288 = 0 then some (.ptrcfg (Fin.ofNat 64 (w / 524288)) l)
  else if w / 33554432 % 128 = 41 ∧ w % 8192 = 0 then some (.ptrld (Fin.ofNat 64 (w / 524288)) (Fin.ofNat 64 (w / 8192)) l)
  else if w / 33554432 % 128 = 42 ∧ w % 128 = 0 then some (.ptrrun (Fin.ofNat 64 (w / 524288)) (Fin.ofNat 64 (w / 8192)) (Fin.ofNat 64 (w / 128)) l)
  else if w / 33554432 % 128 = 44 ∧ w / 256 % 32 = 0 ∧ w / 524288 % 64 = 0 then some (.snapst (Fin.ofNat 64 (w / 8192)) (Fin.ofNat 256 w) l)
  else none

/-- Assigned opcodes of slot 0 (R43). -/
def assignedS (op : Nat) : Bool :=
  [0, 1, 2, 3, 4, 5, 6, 7, 8, 9, 10, 11, 12, 13, 14, 15, 16, 17, 18, 19, 20, 21, 22, 23, 24, 25, 26, 27, 28, 29, 30, 31, 32, 33, 34, 35, 36, 37, 38, 39, 40, 41, 42, 43, 44, 45, 46, 47, 48].contains op

/-- Assigned opcodes of slot 1 (R44). -/
def assignedL (op : Nat) : Bool :=
  [0, 1, 2, 3, 4, 8, 9, 10, 16, 17, 18, 24, 25, 26, 27, 28, 29, 30, 31, 32, 33, 34, 35, 36, 40, 41, 42, 43, 44].contains op

/-- Assigned opcodes of slot 2 (R45). -/
def assignedV (op : Nat) : Bool :=
  [0, 1, 2, 3, 4, 5, 6, 7, 8, 9, 10, 11, 12, 13, 14, 15, 16, 17, 18, 19, 20, 21, 22, 23, 24, 25, 26, 28, 29, 30, 31, 32, 33, 34, 35, 36, 37, 38, 40, 44, 45, 48, 49, 50, 56, 57].contains op

/-- Assigned opcodes of slot 3 (R46). -/
def assignedW (op : Nat) : Bool :=
  [0, 1, 2, 3, 5, 8, 9, 10, 12, 13, 14, 15, 16, 17, 18, 19, 20, 21, 22, 23, 24, 25, 26, 27, 28, 29, 30, 31, 32, 33, 34, 35, 36, 37, 40, 41, 42, 44].contains op

/-- What an instruction accepts from a header (R27, R40): nothing, a byte, or a microword. -/
inductive LendClass where
  | none
  | byte
  | micro
  deriving DecidableEq, Repr

def Instr.lendClass (i : Instr) : LendClass :=
  match i with
  | .nopS _ => .none
  | .nop => .none
  | .hdr _ _ _ _ _ _ _ _ => .none
  | .add _ _ _ _ => .none
  | .sub _ _ _ _ => .none
  | .mul _ _ _ _ => .none
  | .mulh _ _ _ _ _ => .none
  | .and _ _ _ _ => .none
  | .or _ _ _ _ => .none
  | .xor _ _ _ _ => .none
  | .shl _ _ _ _ => .none
  | .shr _ _ _ _ => .none
  | .sra _ _ _ _ => .none
  | .min _ _ _ _ _ => .none
  | .max _ _ _ _ _ => .none
  | .addi _ _ _ _ => .none
  | .andi _ _ _ _ => .none
  | .ori _ _ _ _ => .none
  | .xori _ _ _ _ => .none
  | .shli _ _ _ _ => .none
  | .shri _ _ _ _ => .none
  | .srai _ _ _ _ => .none
  | .li _ _ _ => .none
  | .lih _ _ _ => .none
  | .addsh _ _ _ _ _ => .none
  | .cmp _ _ _ _ _ => .none
  | .cmpi _ _ _ _ _ => .none
  | .plog _ _ _ _ _ => .none
  | .clz _ _ _ => .none
  | .popc _ _ _ => .none
  | .sext _ _ _ _ => .none
  | .zext _ _ _ _ => .none
  | .div _ _ _ _ _ => .none
  | .rem _ _ _ _ _ => .none
  | .br _ _ _ _ => .none
  | .call _ _ _ _ => .none
  | .jr _ _ => .none
  | .loopImm _ _ _ _ => .none
  | .loopReg _ _ _ _ => .none
  | .loopEnd => .none
  | .bar _ _ _ => .none
  | .barComplete _ _ _ _ => .none
  | .waitc _ _ _ => .none
  | .sstep _ _ => .none
  | .tspawn _ _ _ => .none
  | .park _ _ => .none
  | .yield _ => .none
  | .tdone _ => .none
  | .trap _ _ => .none
  | .eret _ _ _ => .none
  | .snaprel _ => .none
  | .rdms _ _ _ => .none
  | .wrms _ _ _ => .none
  | .halt _ _ => .none
  | .ld _ _ _ _ _ _ => .byte
  | .ldv _ _ _ _ _ _ => .byte
  | .ldg _ _ _ _ _ _ => .none
  | .ldb _ _ _ _ _ _ => .byte
  | .tagq _ _ _ => .byte
  | .tagset _ _ _ => .byte
  | .tagclr _ _ => .byte
  | .tld _ _ _ _ _ _ => .byte
  | .tdrop _ => .none
  | .tcnt _ _ => .none
  | .tcntWait _ _ => .none
  | .aadd _ _ _ _ _ _ => .none
  | .amin _ _ _ _ _ _ => .none
  | .amax _ _ _ _ _ _ => .none
  | .aand _ _ _ _ _ _ => .none
  | .aor _ _ _ _ _ _ => .none
  | .axor _ _ _ _ _ _ => .none
  | .aswp _ _ _ _ _ _ => .none
  | .acas _ _ _ _ _ _ => .none
  | .cpyIn _ _ _ _ _ _ => .micro
  | .cpygIn _ _ _ _ _ _ => .micro
  | .cpysIn _ _ _ _ _ _ => .micro
  | .cpyfIn _ _ _ _ _ _ => .micro
  | .shape _ _ _ => .byte
  | .hread _ _ _ _ _ => .byte
  | .hwait _ => .none
  | .hstat _ _ => .none
  | .hrel _ => .none
  | .gload _ _ _ => .byte
  | .vadd _ _ _ _ _ _ _ _ => .byte
  | .vsub _ _ _ _ _ _ _ _ => .byte
  | .vmul _ _ _ _ _ _ _ _ => .byte
  | .vmulh _ _ _ _ _ _ _ => .byte
  | .vmin _ _ _ _ _ _ _ => .byte
  | .vmax _ _ _ _ _ _ _ => .byte
  | .vand _ _ _ _ _ => .byte
  | .vor _ _ _ _ _ => .byte
  | .vxor _ _ _ _ _ => .byte
  | .vshl _ _ _ _ _ _ => .byte
  | .vshr _ _ _ _ _ _ => .byte
  | .vsra _ _ _ _ _ _ => .byte
  | .vabs _ _ _ _ _ _ => .byte
  | .vneg _ _ _ _ _ _ => .byte
  | .vclz _ _ _ _ _ => .byte
  | .vpopc _ _ _ _ _ => .byte
  | .vfadd _ _ _ _ _ _ _ => .byte
  | .vfsub _ _ _ _ _ _ _ => .byte
  | .vfmul _ _ _ _ _ _ _ => .byte
  | .vfma _ _ _ _ _ _ _ => .byte
  | .vfmin _ _ _ _ _ _ => .byte
  | .vfmax _ _ _ _ _ _ => .byte
  | .vfabs _ _ _ _ _ => .byte
  | .vfneg _ _ _ _ _ => .byte
  | .vcmp _ _ _ _ _ _ _ => .byte
  | .vfcmp _ _ _ _ _ _ => .byte
  | .vsel _ _ _ _ _ => .byte
  | .vshuf _ _ _ _ _ => .byte
  | .vbcast _ _ _ _ _ => .byte
  | .vmovs _ _ _ _ => .byte
  | .vmovsTos _ _ _ _ => .byte
  | .vmov _ _ _ _ => .byte
  | .vradd _ _ _ _ _ _ => .byte
  | .vrmin _ _ _ _ _ => .byte
  | .vrmax _ _ _ _ _ => .byte
  | .vfradd _ _ _ _ _ => .byte
  | .vfrmin _ _ _ _ => .byte
  | .vfrmax _ _ _ _ => .byte
  | .vcvt _ _ _ _ _ _ _ _ => .byte
  | .vxc _ _ _ _ _ _ => .byte
  | .pwld _ _ _ => .byte
  | .vpwp _ _ _ _ => .byte
  | .brank _ _ _ _ _ => .byte
  | .bsel _ _ _ _ _ => .byte
  | .vaddi _ _ _ _ _ => .byte
  | .vli _ _ _ _ => .byte
  | .st _ _ _ _ _ _ => .byte
  | .stv _ _ _ _ _ _ => .byte
  | .sts _ _ _ _ _ _ => .none
  | .cowst _ _ _ _ _ _ => .byte
  | .talloc _ _ _ _ _ _ => .byte
  | .twr _ _ _ _ _ _ => .byte
  | .tseal _ => .none
  | .cpyOut _ _ _ _ _ _ => .micro
  | .cpygOut _ _ _ _ _ _ => .micro
  | .cpysOut _ _ _ _ _ _ => .micro
  | .cpyfOut _ _ _ _ _ _ => .micro
  | .publish _ => .none
  | .publishDef _ _ => .none
  | .publishUndef _ => .none
  | .drain _ _ => .none
  | .fence _ => .none
  | .mark => .none
  | .tlbiVa _ => .none
  | .tlbiOwn => .none
  | .tlbiPva _ _ => .none
  | .tlbiPart _ => .none
  | .tlbiGlob => .none
  | .pagemv _ _ _ _ => .byte
  | .wmap _ _ _ _ => .byte
  | .wunmap _ => .none
  | .lease _ _ => .byte
  | .lfree _ => .byte
  | .mcfg _ _ => .byte
  | .mma _ _ _ _ _ _ _ _ _ => .byte
  | .mmv _ _ _ _ _ _ _ _ _ _ => .byte
  | .mdrain _ _ _ => .byte
  | .mzero _ _ => .byte
  | .mwait _ _ => .byte
  | .rte _ _ _ _ => .byte
  | .apre _ _ _ _ => .byte
  | .adec _ _ _ _ => .byte
  | .kvag _ _ _ => .byte
  | .xsend _ _ _ _ _ _ => .byte
  | .xrecv _ _ _ => .byte
  | .ptrcfg _ _ => .byte
  | .ptrld _ _ _ => .byte
  | .ptrrun _ _ _ _ => .byte
  | .snapst _ _ _ => .byte
  | .registerWriteLands _ => .none
  | .interlockedResultArrives _ _ => .none
  | .trapEntry _ _ _ _ => .none
  | .pageWalk _ _ _ => .none
  | .copySegment _ _ => .none
  | .copyComplete _ _ => .none
  | .pagemvCopyComplete _ _ => .none
  | .hotRegionSwap _ _ _ => .none
  | .pseudoChannelPowerDown _ _ => .none
  | .pseudoChannelSelfRefresh _ _ => .none
  | .stackRetrain _ => .none
  | .handleRequestArrives _ => .none
  | .flashPageRead _ _ _ => .none
  | .relocationSwitch _ _ _ => .none
  | .oldBlockErase _ _ _ => .none
  | .rebuild _ _ => .none
  | .relocate _ _ => .none
  | .retire _ _ => .none
  | .refill _ _ => .none
  | .ftlCommandComplete _ => .none
  | .pointerRun _ => .none
  | .tallocRequestArrives _ => .none
  | .tallocGrant _ => .none
  | .tileAccessArrives _ => .none
  | .leaseGrant _ => .none
  | .turnGrant _ => .none
  | .matrixCommandRetire _ => .none
  | .groupPartArrives _ _ => .none
  | .drainRowLeaves _ => .none
  | .attentionCommandComplete _ => .none
  | .capacityRequest _ => .none
  | .routingRound _ => .none
  | .xsendBinding _ => .none
  | .landing _ => .none
  | .xrecvRequestArrives _ => .none
  | .superstepBoundary _ => .none
  | .beaconTick => .none
  | .frameStart _ => .none
  | .deferredFrameStart _ => .none
  | .frameAdvance _ => .none
  | .taskInsertion _ => .none
  | .taskReady _ _ => .none
  | .taskDispatch _ => .none
  | .continuationResume _ => .none
  | .parkWake _ _ => .none
  | .installTemplate => .none
  | .launchTasks => .none
  | .removeTemplate => .none
  | .tearDownPartition => .none
  | .launchWindowWrite _ _ => .none
  | .hostMemWrite _ _ => .none
  | .hostMemRead _ _ => .none
  | .pod _ _ _ _ => .none
  | .loadw _ _ _ _ _ _ => .none
  | .weightChunk _ => .none
  | .loadwSwitch => .none
  | .attest _ _ => .none
  | .fwstage _ _ => .none
  | .podBarrierMessage _ _ _ _ _ => .none
  | .podBarrierRelease _ _ _ _ => .none
  | .ptpMessage _ => .none
  | .linkRetry => .none
  | .keeperWindow => .none
  | .keepcfgWrite _ => .none
  | .poolbaseWrite _ => .none
  | .srseedWrite _ _ => .none
  | .ttbaseWrite _ _ => .none
  | .kpartWrite _ _ => .none
  | .sscfgWrite _ _ => .none
  | .sliceWrite _ _ => .none
  | .pstateHalt _ => .none
  | .pstateResume _ => .none
  | .svackRelease _ => .none
  | .svackEnd _ => .none
  | .svqRecordWrite _ => .none
  | .haltLineArrives _ _ _ => .none
  | .halted _ => .none
  | .sliceEnd _ => .none
  | .preemptionUnitSave _ _ _ => .none
  | .preemptionComplete _ => .none
  | .powerUp => .none
  | .bringupStageComplete _ => .none
  | .cxlReset => .none
  | .storePerformed _ => .none
  | .instructionFetchMissReturn _ => .none
  | .routingPassComplete _ => .none
  | .powerOff => .none
  | .portLaneChange _ => .none
  | .loadwDoneReport _ => .none

/-- Whether a slot may receive what the header lends it (R27, R47). -/
def LendClass.takes : LendClass → Lend → Bool
  | _, .nothing => true
  | .byte, .byte _ => true
  | .micro, .micro _ => true
  | .none, .byte _ => false
  | .none, .micro _ => false
  | .byte, .micro _ => false
  | .micro, .byte _ => false

/-- The last checks of a slot: the lend fits and the instruction is well formed. -/
def checkInstr (i : Instr) (x : Lend) : Except Reject Instr :=
  if !i.lendClass.takes x then .error .badLend else if i.wf then .ok i else .error .reservedCode

/-- Slot 0. -/
def decodeSlot0 (w : Nat) : Except Reject Instr :=
  if w / 2147483648 % 2 = 1 then checkInstr (rowH w) .nothing
  else match rowS w with
    | some i => checkInstr i .nothing
    | none => .error (if assignedS (w / 4194304 % 64) then .reservedField else .unassignedOpcode)

/-- Slots 1 to 3; a number above 3 counts as slot 3. -/
def decodeSlot (k w : Nat) (x : Lend) : Except Reject Instr :=
  match k with
  | 0 => decodeSlot0 w
  | 1 => match rowL w x.lent x.mw with
    | some i => checkInstr i x
    | none => .error (if assignedL (w / 33554432 % 128) then .reservedField else .unassignedOpcode)
  | 2 => match rowV w x.lent with
    | some i => checkInstr i x
    | none => .error (if assignedV (w / 33554432 % 128) then .reservedField else .unassignedOpcode)
  | _ => match rowW w x.lent x.mw with
    | some i => checkInstr i x
    | none => .error (if assignedW (w / 33554432 % 128) then .reservedField else .unassignedOpcode)

/-- What slot k receives from slot 0 (R27). -/
def lendOf (i : Instr) (k : Nat) : Lend :=
  match i with
  | .hdr _ w z y x c b a =>
    let en := if k = 1 then x else if k = 2 then y else z
    if !en then .nothing
    else if w then .micro (Fin.ofNat 16777216 (c.val * 65536 + b.val * 256 + a.val))
    else .byte (if k = 1 then a else if k = 2 then b else c)
  | _ => .nothing

/-- A decoded bundle (R24). -/
structure Bundle where
  s : Instr
  l : Instr
  v : Instr
  w : Instr
  deriving DecidableEq, Repr

/-- Decode the four words of a bundle; an error names the lowest ill-formed slot (R34). -/
def decodeBundle (w0 w1 w2 w3 : Nat) : Except (Nat × Reject) Bundle :=
  match decodeSlot0 w0 with
  | .error e => .error (0, e)
  | .ok i0 =>
    match decodeSlot 1 w1 (lendOf i0 1) with
    | .error e => .error (1, e)
    | .ok i1 =>
      match decodeSlot 2 w2 (lendOf i0 2) with
      | .error e => .error (2, e)
      | .ok i2 =>
        match decodeSlot 3 w3 (lendOf i0 3) with
        | .error e => .error (3, e)
        | .ok i3 => .ok ⟨i0, i1, i2, i3⟩

/-- The slot an instruction stands in (R24); NOP of slots 1 to 3 answers 1, an event of the machine 0. -/
def Instr.slot (i : Instr) : Nat :=
  match i with
  | .nopS _ => 0
  | .nop => 1
  | .hdr _ _ _ _ _ _ _ _ => 0
  | .add _ _ _ _ => 0
  | .sub _ _ _ _ => 0
  | .mul _ _ _ _ => 0
  | .mulh _ _ _ _ _ => 0
  | .and _ _ _ _ => 0
  | .or _ _ _ _ => 0
  | .xor _ _ _ _ => 0
  | .shl _ _ _ _ => 0
  | .shr _ _ _ _ => 0
  | .sra _ _ _ _ => 0
  | .min _ _ _ _ _ => 0
  | .max _ _ _ _ _ => 0
  | .addi _ _ _ _ => 0
  | .andi _ _ _ _ => 0
  | .ori _ _ _ _ => 0
  | .xori _ _ _ _ => 0
  | .shli _ _ _ _ => 0
  | .shri _ _ _ _ => 0
  | .srai _ _ _ _ => 0
  | .li _ _ _ => 0
  | .lih _ _ _ => 0
  | .addsh _ _ _ _ _ => 0
  | .cmp _ _ _ _ _ => 0
  | .cmpi _ _ _ _ _ => 0
  | .plog _ _ _ _ _ => 0
  | .clz _ _ _ => 0
  | .popc _ _ _ => 0
  | .sext _ _ _ _ => 0
  | .zext _ _ _ _ => 0
  | .div _ _ _ _ _ => 0
  | .rem _ _ _ _ _ => 0
  | .br _ _ _ _ => 0
  | .call _ _ _ _ => 0
  | .jr _ _ => 0
  | .loopImm _ _ _ _ => 0
  | .loopReg _ _ _ _ => 0
  | .loopEnd => 0
  | .bar _ _ _ => 0
  | .barComplete _ _ _ _ => 0
  | .waitc _ _ _ => 0
  | .sstep _ _ => 0
  | .tspawn _ _ _ => 0
  | .park _ _ => 0
  | .yield _ => 0
  | .tdone _ => 0
  | .trap _ _ => 0
  | .eret _ _ _ => 0
  | .snaprel _ => 0
  | .rdms _ _ _ => 0
  | .wrms _ _ _ => 0
  | .halt _ _ => 0
  | .ld _ _ _ _ _ _ => 1
  | .ldv _ _ _ _ _ _ => 1
  | .ldg _ _ _ _ _ _ => 1
  | .ldb _ _ _ _ _ _ => 1
  | .tagq _ _ _ => 1
  | .tagset _ _ _ => 1
  | .tagclr _ _ => 1
  | .tld _ _ _ _ _ _ => 1
  | .tdrop _ => 1
  | .tcnt _ _ => 1
  | .tcntWait _ _ => 1
  | .aadd _ _ _ _ _ _ => 1
  | .amin _ _ _ _ _ _ => 1
  | .amax _ _ _ _ _ _ => 1
  | .aand _ _ _ _ _ _ => 1
  | .aor _ _ _ _ _ _ => 1
  | .axor _ _ _ _ _ _ => 1
  | .aswp _ _ _ _ _ _ => 1
  | .acas _ _ _ _ _ _ => 1
  | .cpyIn _ _ _ _ _ _ => 1
  | .cpygIn _ _ _ _ _ _ => 1
  | .cpysIn _ _ _ _ _ _ => 1
  | .cpyfIn _ _ _ _ _ _ => 1
  | .shape _ _ _ => 1
  | .hread _ _ _ _ _ => 1
  | .hwait _ => 1
  | .hstat _ _ => 1
  | .hrel _ => 1
  | .gload _ _ _ => 1
  | .vadd _ _ _ _ _ _ _ _ => 2
  | .vsub _ _ _ _ _ _ _ _ => 2
  | .vmul _ _ _ _ _ _ _ _ => 2
  | .vmulh _ _ _ _ _ _ _ => 2
  | .vmin _ _ _ _ _ _ _ => 2
  | .vmax _ _ _ _ _ _ _ => 2
  | .vand _ _ _ _ _ => 2
  | .vor _ _ _ _ _ => 2
  | .vxor _ _ _ _ _ => 2
  | .vshl _ _ _ _ _ _ => 2
  | .vshr _ _ _ _ _ _ => 2
  | .vsra _ _ _ _ _ _ => 2
  | .vabs _ _ _ _ _ _ => 2
  | .vneg _ _ _ _ _ _ => 2
  | .vclz _ _ _ _ _ => 2
  | .vpopc _ _ _ _ _ => 2
  | .vfadd _ _ _ _ _ _ _ => 2
  | .vfsub _ _ _ _ _ _ _ => 2
  | .vfmul _ _ _ _ _ _ _ => 2
  | .vfma _ _ _ _ _ _ _ => 2
  | .vfmin _ _ _ _ _ _ => 2
  | .vfmax _ _ _ _ _ _ => 2
  | .vfabs _ _ _ _ _ => 2
  | .vfneg _ _ _ _ _ => 2
  | .vcmp _ _ _ _ _ _ _ => 2
  | .vfcmp _ _ _ _ _ _ => 2
  | .vsel _ _ _ _ _ => 2
  | .vshuf _ _ _ _ _ => 2
  | .vbcast _ _ _ _ _ => 2
  | .vmovs _ _ _ _ => 2
  | .vmovsTos _ _ _ _ => 2
  | .vmov _ _ _ _ => 2
  | .vradd _ _ _ _ _ _ => 2
  | .vrmin _ _ _ _ _ => 2
  | .vrmax _ _ _ _ _ => 2
  | .vfradd _ _ _ _ _ => 2
  | .vfrmin _ _ _ _ => 2
  | .vfrmax _ _ _ _ => 2
  | .vcvt _ _ _ _ _ _ _ _ => 2
  | .vxc _ _ _ _ _ _ => 2
  | .pwld _ _ _ => 2
  | .vpwp _ _ _ _ => 2
  | .brank _ _ _ _ _ => 2
  | .bsel _ _ _ _ _ => 2
  | .vaddi _ _ _ _ _ => 2
  | .vli _ _ _ _ => 2
  | .st _ _ _ _ _ _ => 3
  | .stv _ _ _ _ _ _ => 3
  | .sts _ _ _ _ _ _ => 3
  | .cowst _ _ _ _ _ _ => 3
  | .talloc _ _ _ _ _ _ => 3
  | .twr _ _ _ _ _ _ => 3
  | .tseal _ => 3
  | .cpyOut _ _ _ _ _ _ => 3
  | .cpygOut _ _ _ _ _ _ => 3
  | .cpysOut _ _ _ _ _ _ => 3
  | .cpyfOut _ _ _ _ _ _ => 3
  | .publish _ => 3
  | .publishDef _ _ => 3
  | .publishUndef _ => 3
  | .drain _ _ => 3
  | .fence _ => 3
  | .mark => 3
  | .tlbiVa _ => 3
  | .tlbiOwn => 3
  | .tlbiPva _ _ => 3
  | .tlbiPart _ => 3
  | .tlbiGlob => 3
  | .pagemv _ _ _ _ => 3
  | .wmap _ _ _ _ => 3
  | .wunmap _ => 3
  | .lease _ _ => 3
  | .lfree _ => 3
  | .mcfg _ _ => 3
  | .mma _ _ _ _ _ _ _ _ _ => 3
  | .mmv _ _ _ _ _ _ _ _ _ _ => 3
  | .mdrain _ _ _ => 3
  | .mzero _ _ => 3
  | .mwait _ _ => 3
  | .rte _ _ _ _ => 3
  | .apre _ _ _ _ => 3
  | .adec _ _ _ _ => 3
  | .kvag _ _ _ => 3
  | .xsend _ _ _ _ _ _ => 3
  | .xrecv _ _ _ => 3
  | .ptrcfg _ _ => 3
  | .ptrld _ _ _ => 3
  | .ptrrun _ _ _ _ => 3
  | .snapst _ _ _ => 3
  | .registerWriteLands _ => 0
  | .interlockedResultArrives _ _ => 0
  | .trapEntry _ _ _ _ => 0
  | .pageWalk _ _ _ => 0
  | .copySegment _ _ => 0
  | .copyComplete _ _ => 0
  | .pagemvCopyComplete _ _ => 0
  | .hotRegionSwap _ _ _ => 0
  | .pseudoChannelPowerDown _ _ => 0
  | .pseudoChannelSelfRefresh _ _ => 0
  | .stackRetrain _ => 0
  | .handleRequestArrives _ => 0
  | .flashPageRead _ _ _ => 0
  | .relocationSwitch _ _ _ => 0
  | .oldBlockErase _ _ _ => 0
  | .rebuild _ _ => 0
  | .relocate _ _ => 0
  | .retire _ _ => 0
  | .refill _ _ => 0
  | .ftlCommandComplete _ => 0
  | .pointerRun _ => 0
  | .tallocRequestArrives _ => 0
  | .tallocGrant _ => 0
  | .tileAccessArrives _ => 0
  | .leaseGrant _ => 0
  | .turnGrant _ => 0
  | .matrixCommandRetire _ => 0
  | .groupPartArrives _ _ => 0
  | .drainRowLeaves _ => 0
  | .attentionCommandComplete _ => 0
  | .capacityRequest _ => 0
  | .routingRound _ => 0
  | .xsendBinding _ => 0
  | .landing _ => 0
  | .xrecvRequestArrives _ => 0
  | .superstepBoundary _ => 0
  | .beaconTick => 0
  | .frameStart _ => 0
  | .deferredFrameStart _ => 0
  | .frameAdvance _ => 0
  | .taskInsertion _ => 0
  | .taskReady _ _ => 0
  | .taskDispatch _ => 0
  | .continuationResume _ => 0
  | .parkWake _ _ => 0
  | .installTemplate => 0
  | .launchTasks => 0
  | .removeTemplate => 0
  | .tearDownPartition => 0
  | .launchWindowWrite _ _ => 0
  | .hostMemWrite _ _ => 0
  | .hostMemRead _ _ => 0
  | .pod _ _ _ _ => 0
  | .loadw _ _ _ _ _ _ => 0
  | .weightChunk _ => 0
  | .loadwSwitch => 0
  | .attest _ _ => 0
  | .fwstage _ _ => 0
  | .podBarrierMessage _ _ _ _ _ => 0
  | .podBarrierRelease _ _ _ _ => 0
  | .ptpMessage _ => 0
  | .linkRetry => 0
  | .keeperWindow => 0
  | .keepcfgWrite _ => 0
  | .poolbaseWrite _ => 0
  | .srseedWrite _ _ => 0
  | .ttbaseWrite _ _ => 0
  | .kpartWrite _ _ => 0
  | .sscfgWrite _ _ => 0
  | .sliceWrite _ _ => 0
  | .pstateHalt _ => 0
  | .pstateResume _ => 0
  | .svackRelease _ => 0
  | .svackEnd _ => 0
  | .svqRecordWrite _ => 0
  | .haltLineArrives _ _ _ => 0
  | .halted _ => 0
  | .sliceEnd _ => 0
  | .preemptionUnitSave _ _ _ => 0
  | .preemptionComplete _ => 0
  | .powerUp => 0
  | .bringupStageComplete _ => 0
  | .cxlReset => 0
  | .storePerformed _ => 0
  | .instructionFetchMissReturn _ => 0
  | .routingPassComplete _ => 0
  | .powerOff => 0
  | .portLaneChange _ => 0
  | .loadwDoneReport _ => 0

/-- The 32-bit word of an instruction, from the same formats R38 and R39 (0 for an event of the machine, which has none). -/
def encode (i : Instr) : Nat :=
  match i with
  | .nopS st => st.val * 268435456
  | .nop => 0
  | .hdr st w z y x c b a => 2147483648 + st.val * 268435456 + w.toNat * 134217728 + z.toNat * 67108864 + y.toNat * 33554432 + x.toNat * 16777216 + c.val * 65536 + b.val * 256 + a.val
  | .add st d a b => 4194304 + st.val * 268435456 + d.val * 65536 + a.val * 1024 + b.val * 16
  | .sub st d a b => 8388608 + st.val * 268435456 + d.val * 65536 + a.val * 1024 + b.val * 16
  | .mul st d a b => 12582912 + st.val * 268435456 + d.val * 65536 + a.val * 1024 + b.val * 16
  | .mulh st d a b u => 16777216 + st.val * 268435456 + d.val * 65536 + a.val * 1024 + b.val * 16 + u.toNat
  | .and st d a b => 20971520 + st.val * 268435456 + d.val * 65536 + a.val * 1024 + b.val * 16
  | .or st d a b => 25165824 + st.val * 268435456 + d.val * 65536 + a.val * 1024 + b.val * 16
  | .xor st d a b => 29360128 + st.val * 268435456 + d.val * 65536 + a.val * 1024 + b.val * 16
  | .shl st d a b => 33554432 + st.val * 268435456 + d.val * 65536 + a.val * 1024 + b.val * 16
  | .shr st d a b => 37748736 + st.val * 268435456 + d.val * 65536 + a.val * 1024 + b.val * 16
  | .sra st d a b => 41943040 + st.val * 268435456 + d.val * 65536 + a.val * 1024 + b.val * 16
  | .min st d a b u => 46137344 + st.val * 268435456 + d.val * 65536 + a.val * 1024 + b.val * 16 + u.toNat
  | .max st d a b u => 50331648 + st.val * 268435456 + d.val * 65536 + a.val * 1024 + b.val * 16 + u.toNat
  | .addi st d a i => 54525952 + st.val * 268435456 + d.val * 65536 + a.val * 1024 + i.val
  | .andi st d a i => 58720256 + st.val * 268435456 + d.val * 65536 + a.val * 1024 + i.val
  | .ori st d a i => 62914560 + st.val * 268435456 + d.val * 65536 + a.val * 1024 + i.val
  | .xori st d a i => 67108864 + st.val * 268435456 + d.val * 65536 + a.val * 1024 + i.val
  | .shli st d a i => 71303168 + st.val * 268435456 + d.val * 65536 + a.val * 1024 + i.val
  | .shri st d a i => 75497472 + st.val * 268435456 + d.val * 65536 + a.val * 1024 + i.val
  | .srai st d a i => 79691776 + st.val * 268435456 + d.val * 65536 + a.val * 1024 + i.val
  | .li st d i => 83886080 + st.val * 268435456 + d.val * 65536 + i.val
  | .lih st d i => 88080384 + st.val * 268435456 + d.val * 65536 + i.val
  | .addsh st d a b k => 92274688 + st.val * 268435456 + d.val * 65536 + a.val * 1024 + b.val * 16 + k.val
  | .cmp st p c a b => 96468992 + st.val * 268435456 + p.val * 524288 + c.val * 65536 + a.val * 1024 + b.val * 16
  | .cmpi st p c a i => 100663296 + st.val * 268435456 + p.val * 524288 + c.val * 65536 + a.val * 1024 + i.val
  | .plog st d a b t => 104857600 + st.val * 268435456 + d.val * 524288 + a.val * 65536 + b.val * 8192 + t.val * 512
  | .clz st d a => 109051904 + st.val * 268435456 + d.val * 65536 + a.val * 1024
  | .popc st d a => 113246208 + st.val * 268435456 + d.val * 65536 + a.val * 1024
  | .sext st d a w => 117440512 + st.val * 268435456 + d.val * 65536 + a.val * 1024 + w.val
  | .zext st d a w => 121634816 + st.val * 268435456 + d.val * 65536 + a.val * 1024 + w.val
  | .div st d a b u => 125829120 + st.val * 268435456 + d.val * 65536 + a.val * 1024 + b.val * 16 + u.toNat
  | .rem st d a b u => 130023424 + st.val * 268435456 + d.val * 65536 + a.val * 1024 + b.val * 16 + u.toNat
  | .br st p n o => 134217728 + st.val * 268435456 + p.val * 524288 + n.toNat * 262144 + o.val
  | .call st p n o => 138412032 + st.val * 268435456 + p.val * 524288 + n.toNat * 262144 + o.val
  | .jr st a => 142606336 + st.val * 268435456 + a.val * 1024
  | .loopImm st k c l => 146800640 + st.val * 268435456 + k.val * 1048576 + c.val * 512 + l.val
  | .loopReg st k r l => 147324928 + st.val * 268435456 + k.val * 1048576 + r.val * 512 + l.val
  | .loopEnd => 0
  | .bar st c g => 150994944 + st.val * 268435456 + c.val * 524288 + g.val
  | .barComplete _ _ _ _ => 0
  | .waitc st h t => 155189248 + st.val * 268435456 + h.val * 524288 + t.val
  | .sstep st c => 159383552 + st.val * 268435456 + c.val * 524288
  | .tspawn st a b => 163577856 + st.val * 268435456 + a.val * 1024 + b.val * 16
  | .park st n => 167772160 + st.val * 268435456 + n.val
  | .yield st => 171966464 + st.val * 268435456
  | .tdone st => 176160768 + st.val * 268435456
  | .trap st n => 180355072 + st.val * 268435456 + n.val
  | .eret st a b => 184549376 + st.val * 268435456 + a.val * 8192 + b.val * 128
  | .snaprel st => 188743680 + st.val * 268435456
  | .rdms st d n => 192937984 + st.val * 268435456 + d.val * 65536 + n.val
  | .wrms st a n => 197132288 + st.val * 268435456 + a.val * 1024 + n.val
  | .halt st a => 201326592 + st.val * 268435456 + a.val * 8192
  | .ld d b p z o _ => 33554432 + d.val * 524288 + b.val * 8192 + p.val * 1024 + z.val * 256 + o.val
  | .ldv d b p z o _ => 67108864 + d.val * 524288 + b.val * 8192 + p.val * 1024 + z.val * 256 + o.val
  | .ldg d a b p s e => 100663296 + d.val * 524288 + a.val * 8192 + b.val * 128 + p.val * 16 + s.val * 4 + e.val
  | .ldb d b p z o _ => 134217728 + d.val * 524288 + b.val * 8192 + p.val * 1024 + z.val * 256 + o.val
  | .tagq d a _ => 268435456 + d.val * 524288 + a.val * 8192
  | .tagset a k _ => 301989888 + a.val * 8192 + k.val
  | .tagclr k _ => 335544320 + k.val
  | .tld d b p z o _ => 536870912 + d.val * 524288 + b.val * 8192 + p.val * 1024 + z.val * 256 + o.val
  | .tdrop a => 570425344 + a.val * 8192
  | .tcnt d a => 603979776 + d.val * 524288 + a.val * 8192
  | .tcntWait d a => 603979777 + d.val * 524288 + a.val * 8192
  | .aadd d a b z c o => 805306400 + d.val * 524288 + a.val * 8192 + b.val * 128 + z.toNat * 16 + c.val * 2 + o.toNat
  | .amin d a b z c o => 838860832 + d.val * 524288 + a.val * 8192 + b.val * 128 + z.toNat * 16 + c.val * 2 + o.toNat
  | .amax d a b z c o => 872415264 + d.val * 524288 + a.val * 8192 + b.val * 128 + z.toNat * 16 + c.val * 2 + o.toNat
  | .aand d a b z c o => 905969696 + d.val * 524288 + a.val * 8192 + b.val * 128 + z.toNat * 16 + c.val * 2 + o.toNat
  | .aor d a b z c o => 939524128 + d.val * 524288 + a.val * 8192 + b.val * 128 + z.toNat * 16 + c.val * 2 + o.toNat
  | .axor d a b z c o => 973078560 + d.val * 524288 + a.val * 8192 + b.val * 128 + z.toNat * 16 + c.val * 2 + o.toNat
  | .aswp d a b z c o => 1006632992 + d.val * 524288 + a.val * 8192 + b.val * 128 + z.toNat * 16 + c.val * 2 + o.toNat
  | .acas d a b z c o => 1040187424 + d.val * 524288 + a.val * 8192 + b.val * 128 + z.toNat * 16 + c.val * 2 + o.toNat
  | .cpyIn a b c i h _ => 1073741824 + a.val * 524288 + b.val * 8192 + c.val * 128 + i.val * 8 + h.val
  | .cpygIn a b c i h _ => 1107296256 + a.val * 524288 + b.val * 8192 + c.val * 128 + i.val * 8 + h.val
  | .cpysIn a b c i h _ => 1140850688 + a.val * 524288 + b.val * 8192 + c.val * 128 + i.val * 8 + h.val
  | .cpyfIn f b c i h _ => 1174405120 + f.toNat * 524288 + b.val * 8192 + c.val * 128 + i.val * 8 + h.val
  | .shape a k _ => 1207959552 + a.val * 8192 + k.val
  | .hread d s t u _ => 1342177280 + d.val * 524288 + s.val * 8192 + t.val * 128 + u.val
  | .hwait a => 1375731712 + a.val * 8192
  | .hstat d a => 1409286144 + d.val * 524288 + a.val * 8192
  | .hrel a => 1442840576 + a.val * 8192
  | .gload d k _ => 1476395008 + d.val * 524288 + k.val
  | .vadd d a b p e u s _ => 33554432 + d.val * 524288 + a.val * 8192 + b.val * 128 + p.val * 16 + e.val * 4 + u.toNat * 2 + s.toNat
  | .vsub d a b p e u s _ => 67108864 + d.val * 524288 + a.val * 8192 + b.val * 128 + p.val * 16 + e.val * 4 + u.toNat * 2 + s.toNat
  | .vmul d a b p e u s _ => 100663296 + d.val * 524288 + a.val * 8192 + b.val * 128 + p.val * 16 + e.val * 4 + u.toNat * 2 + s.toNat
  | .vmulh d a b p e u _ => 134217728 + d.val * 524288 + a.val * 8192 + b.val * 128 + p.val * 16 + e.val * 4 + u.toNat * 2
  | .vmin d a b p e u _ => 167772160 + d.val * 524288 + a.val * 8192 + b.val * 128 + p.val * 16 + e.val * 4 + u.toNat * 2
  | .vmax d a b p e u _ => 201326592 + d.val * 524288 + a.val * 8192 + b.val * 128 + p.val * 16 + e.val * 4 + u.toNat * 2
  | .vand d a b p _ => 234881024 + d.val * 524288 + a.val * 8192 + b.val * 128 + p.val * 16
  | .vor d a b p _ => 268435456 + d.val * 524288 + a.val * 8192 + b.val * 128 + p.val * 16
  | .vxor d a b p _ => 301989888 + d.val * 524288 + a.val * 8192 + b.val * 128 + p.val * 16
  | .vshl d a b p e _ => 335544320 + d.val * 524288 + a.val * 8192 + b.val * 128 + p.val * 16 + e.val * 4
  | .vshr d a b p e _ => 369098752 + d.val * 524288 + a.val * 8192 + b.val * 128 + p.val * 16 + e.val * 4
  | .vsra d a b p e _ => 402653184 + d.val * 524288 + a.val * 8192 + b.val * 128 + p.val * 16 + e.val * 4
  | .vabs d a p e s _ => 436207616 + d.val * 524288 + a.val * 8192 + p.val * 16 + e.val * 4 + s.toNat
  | .vneg d a p e s _ => 469762048 + d.val * 524288 + a.val * 8192 + p.val * 16 + e.val * 4 + s.toNat
  | .vclz d a p e _ => 503316480 + d.val * 524288 + a.val * 8192 + p.val * 16 + e.val * 4
  | .vpopc d a p e _ => 1677721600 + d.val * 524288 + a.val * 8192 + p.val * 16 + e.val * 4
  | .vfadd d a b p t r _ => 536870912 + d.val * 524288 + a.val * 8192 + b.val * 128 + p.val * 16 + t.val * 4 + r.val
  | .vfsub d a b p t r _ => 570425344 + d.val * 524288 + a.val * 8192 + b.val * 128 + p.val * 16 + t.val * 4 + r.val
  | .vfmul d a b p t r _ => 603979776 + d.val * 524288 + a.val * 8192 + b.val * 128 + p.val * 16 + t.val * 4 + r.val
  | .vfma d a b p t r _ => 637534208 + d.val * 524288 + a.val * 8192 + b.val * 128 + p.val * 16 + t.val * 4 + r.val
  | .vfmin d a b p t _ => 671088640 + d.val * 524288 + a.val * 8192 + b.val * 128 + p.val * 16 + t.val * 4
  | .vfmax d a b p t _ => 704643072 + d.val * 524288 + a.val * 8192 + b.val * 128 + p.val * 16 + t.val * 4
  | .vfabs d a p t _ => 738197504 + d.val * 524288 + a.val * 8192 + p.val * 16 + t.val * 4
  | .vfneg d a p t _ => 771751936 + d.val * 524288 + a.val * 8192 + p.val * 16 + t.val * 4
  | .vcmp c q a b p u _ => 805306368 + c.val * 4194304 + q.val * 524288 + a.val * 8192 + b.val * 128 + p.val * 16 + u.toNat * 2
  | .vfcmp c q a b p _ => 838860800 + c.val * 4194304 + q.val * 524288 + a.val * 8192 + b.val * 128 + p.val * 16
  | .vsel d a b n _ => 872415232 + d.val * 524288 + a.val * 8192 + b.val * 128 + n.val * 16
  | .vshuf d a b p _ => 939524096 + d.val * 524288 + a.val * 8192 + b.val * 128 + p.val * 16
  | .vbcast d a k p _ => 973078528 + d.val * 524288 + a.val * 8192 + k.val * 128 + p.val * 16
  | .vmovs d a p _ => 1006632960 + d.val * 524288 + a.val * 8192 + p.val * 16
  | .vmovsTos d a k _ => 1006632961 + d.val * 524288 + a.val * 8192 + k.val * 128
  | .vmov d a p _ => 1040187392 + d.val * 524288 + a.val * 8192 + p.val * 16
  | .vradd d a p u s _ => 1073741824 + d.val * 524288 + a.val * 8192 + p.val * 16 + u.toNat * 2 + s.toNat
  | .vrmin d a p u _ => 1107296256 + d.val * 524288 + a.val * 8192 + p.val * 16 + u.toNat * 2
  | .vrmax d a p u _ => 1140850688 + d.val * 524288 + a.val * 8192 + p.val * 16 + u.toNat * 2
  | .vfradd d a p r _ => 1174405120 + d.val * 524288 + a.val * 8192 + p.val * 16 + r.val
  | .vfrmin d a p _ => 1207959552 + d.val * 524288 + a.val * 8192 + p.val * 16
  | .vfrmax d a p _ => 1241513984 + d.val * 524288 + a.val * 8192 + p.val * 16
  | .vcvt d a f g p k r _ => 1275068416 + d.val * 524288 + a.val * 8192 + f.val * 1024 + g.val * 128 + p.val * 16 + k.val * 4 + r.val
  | .vxc d a k p m _ => 1342177280 + d.val * 524288 + a.val * 8192 + k.val * 128 + p.val * 16 + m.val
  | .pwld a j _ => 1476395008 + a.val * 8192 + j.val * 128
  | .vpwp d a p _ => 1509949440 + d.val * 524288 + a.val * 8192 + p.val * 16
  | .brank d a b p _ => 1610612736 + d.val * 524288 + a.val * 8192 + b.val * 128 + p.val * 16
  | .bsel d a b p _ => 1644167168 + d.val * 524288 + a.val * 8192 + b.val * 128 + p.val * 16
  | .vaddi d a p i _ => 1879048192 + d.val * 524288 + a.val * 8192 + p.val * 1024 + i.val
  | .vli d p i _ => 1912602624 + d.val * 524288 + p.val * 1024 + i.val
  | .st d b p z o _ => 33554432 + d.val * 524288 + b.val * 8192 + p.val * 1024 + z.val * 256 + o.val
  | .stv d b p z o _ => 67108864 + d.val * 524288 + b.val * 8192 + p.val * 1024 + z.val * 256 + o.val
  | .sts d a b p s e => 100663296 + d.val * 524288 + a.val * 8192 + b.val * 128 + p.val * 16 + s.val * 4 + e.val
  | .cowst d b p z o _ => 167772160 + d.val * 524288 + b.val * 8192 + p.val * 1024 + z.val * 256 + o.val
  | .talloc d s n t l _ => 268435456 + d.val * 524288 + s.val * 8192 + n.val * 128 + t.val * 16 + l.val
  | .twr d b p z o _ => 301989888 + d.val * 524288 + b.val * 8192 + p.val * 1024 + z.val * 256 + o.val
  | .tseal a => 335544320 + a.val * 8192
  | .cpyOut a b c i h _ => 402653184 + a.val * 524288 + b.val * 8192 + c.val * 128 + i.val * 8 + h.val
  | .cpygOut a b c i h _ => 436207616 + a.val * 524288 + b.val * 8192 + c.val * 128 + i.val * 8 + h.val
  | .cpysOut a b c i h _ => 469762048 + a.val * 524288 + b.val * 8192 + c.val * 128 + i.val * 8 + h.val
  | .cpyfOut f b c i h _ => 503316480 + f.toNat * 524288 + b.val * 8192 + c.val * 128 + i.val * 8 + h.val
  | .publish n => 536870912 + n.val * 524288
  | .publishDef n a => 536870913 + n.val * 524288 + a.val * 8192
  | .publishUndef n => 536870914 + n.val * 524288
  | .drain h c => 570425344 + h.val * 4194304 + c.val * 524288
  | .fence c => 603979776 + c.val * 4194304
  | .mark => 637534208
  | .tlbiVa a => 671088640 + a.val * 8192
  | .tlbiOwn => 671088641
  | .tlbiPva a b => 671088642 + a.val * 8192 + b.val * 128
  | .tlbiPart b => 671088643 + b.val * 128
  | .tlbiGlob => 671088644
  | .pagemv a b h _ => 704643072 + a.val * 524288 + b.val * 8192 + h.val
  | .wmap a b n _ => 738197504 + a.val * 524288 + b.val * 8192 + n.val
  | .wunmap n => 771751936 + n.val
  | .lease a _ => 805306368 + a.val * 524288
  | .lfree _ => 838860800
  | .mcfg a _ => 872415232 + a.val * 524288
  | .mma a f g s o n m k _ => 905969664 + a.val * 524288 + f.val * 8192 + g.val * 128 + s.toNat * 32 + o.toNat * 16 + n.toNat * 8 + m.toNat * 4 + k.val
  | .mmv a f g r s o n m k _ => 939524096 + a.val * 524288 + f.val * 8192 + g.val * 128 + r.toNat * 64 + s.toNat * 32 + o.toNat * 16 + n.toNat * 8 + m.toNat * 4 + k.val
  | .mdrain a k _ => 973078528 + a.val * 524288 + k.val
  | .mzero k _ => 1006632960 + k.val
  | .mwait k _ => 1040187392 + k.val
  | .rte a i h _ => 1073741824 + a.val * 524288 + i.val * 8 + h.val
  | .apre a i h _ => 1107296256 + a.val * 524288 + i.val * 8 + h.val
  | .adec a i h _ => 1140850688 + a.val * 524288 + i.val * 8 + h.val
  | .kvag a g _ => 1174405120 + a.val * 524288 + g.val
  | .xsend a b c i h _ => 1207959552 + a.val * 524288 + b.val * 8192 + c.val * 128 + i.val * 8 + h.val
  | .xrecv d k _ => 1241513984 + d.val * 524288 + k.val
  | .ptrcfg a _ => 1342177280 + a.val * 524288
  | .ptrld a b _ => 1375731712 + a.val * 524288 + b.val * 8192
  | .ptrrun a b c _ => 1409286144 + a.val * 524288 + b.val * 8192 + c.val * 128
  | .snapst b o _ => 1476395008 + b.val * 8192 + o.val
  | .registerWriteLands _ => 0
  | .interlockedResultArrives _ _ => 0
  | .trapEntry _ _ _ _ => 0
  | .pageWalk _ _ _ => 0
  | .copySegment _ _ => 0
  | .copyComplete _ _ => 0
  | .pagemvCopyComplete _ _ => 0
  | .hotRegionSwap _ _ _ => 0
  | .pseudoChannelPowerDown _ _ => 0
  | .pseudoChannelSelfRefresh _ _ => 0
  | .stackRetrain _ => 0
  | .handleRequestArrives _ => 0
  | .flashPageRead _ _ _ => 0
  | .relocationSwitch _ _ _ => 0
  | .oldBlockErase _ _ _ => 0
  | .rebuild _ _ => 0
  | .relocate _ _ => 0
  | .retire _ _ => 0
  | .refill _ _ => 0
  | .ftlCommandComplete _ => 0
  | .pointerRun _ => 0
  | .tallocRequestArrives _ => 0
  | .tallocGrant _ => 0
  | .tileAccessArrives _ => 0
  | .leaseGrant _ => 0
  | .turnGrant _ => 0
  | .matrixCommandRetire _ => 0
  | .groupPartArrives _ _ => 0
  | .drainRowLeaves _ => 0
  | .attentionCommandComplete _ => 0
  | .capacityRequest _ => 0
  | .routingRound _ => 0
  | .xsendBinding _ => 0
  | .landing _ => 0
  | .xrecvRequestArrives _ => 0
  | .superstepBoundary _ => 0
  | .beaconTick => 0
  | .frameStart _ => 0
  | .deferredFrameStart _ => 0
  | .frameAdvance _ => 0
  | .taskInsertion _ => 0
  | .taskReady _ _ => 0
  | .taskDispatch _ => 0
  | .continuationResume _ => 0
  | .parkWake _ _ => 0
  | .installTemplate => 0
  | .launchTasks => 0
  | .removeTemplate => 0
  | .tearDownPartition => 0
  | .launchWindowWrite _ _ => 0
  | .hostMemWrite _ _ => 0
  | .hostMemRead _ _ => 0
  | .pod _ _ _ _ => 0
  | .loadw _ _ _ _ _ _ => 0
  | .weightChunk _ => 0
  | .loadwSwitch => 0
  | .attest _ _ => 0
  | .fwstage _ _ => 0
  | .podBarrierMessage _ _ _ _ _ => 0
  | .podBarrierRelease _ _ _ _ => 0
  | .ptpMessage _ => 0
  | .linkRetry => 0
  | .keeperWindow => 0
  | .keepcfgWrite _ => 0
  | .poolbaseWrite _ => 0
  | .srseedWrite _ _ => 0
  | .ttbaseWrite _ _ => 0
  | .kpartWrite _ _ => 0
  | .sscfgWrite _ _ => 0
  | .sliceWrite _ _ => 0
  | .pstateHalt _ => 0
  | .pstateResume _ => 0
  | .svackRelease _ => 0
  | .svackEnd _ => 0
  | .svqRecordWrite _ => 0
  | .haltLineArrives _ _ _ => 0
  | .halted _ => 0
  | .sliceEnd _ => 0
  | .preemptionUnitSave _ _ _ => 0
  | .preemptionComplete _ => 0
  | .powerUp => 0
  | .bringupStageComplete _ => 0
  | .cxlReset => 0
  | .storePerformed _ => 0
  | .instructionFetchMissReturn _ => 0
  | .routingPassComplete _ => 0
  | .powerOff => 0
  | .portLaneChange _ => 0
  | .loadwDoneReport _ => 0

/-- What the header of the bundle must lend an instruction for it to decode to itself (R27, R40). -/
def Instr.lend (i : Instr) : Lend :=
  match i with
  | .nopS _ => .nothing
  | .nop => .nothing
  | .hdr _ _ _ _ _ _ _ _ => .nothing
  | .add _ _ _ _ => .nothing
  | .sub _ _ _ _ => .nothing
  | .mul _ _ _ _ => .nothing
  | .mulh _ _ _ _ _ => .nothing
  | .and _ _ _ _ => .nothing
  | .or _ _ _ _ => .nothing
  | .xor _ _ _ _ => .nothing
  | .shl _ _ _ _ => .nothing
  | .shr _ _ _ _ => .nothing
  | .sra _ _ _ _ => .nothing
  | .min _ _ _ _ _ => .nothing
  | .max _ _ _ _ _ => .nothing
  | .addi _ _ _ _ => .nothing
  | .andi _ _ _ _ => .nothing
  | .ori _ _ _ _ => .nothing
  | .xori _ _ _ _ => .nothing
  | .shli _ _ _ _ => .nothing
  | .shri _ _ _ _ => .nothing
  | .srai _ _ _ _ => .nothing
  | .li _ _ _ => .nothing
  | .lih _ _ _ => .nothing
  | .addsh _ _ _ _ _ => .nothing
  | .cmp _ _ _ _ _ => .nothing
  | .cmpi _ _ _ _ _ => .nothing
  | .plog _ _ _ _ _ => .nothing
  | .clz _ _ _ => .nothing
  | .popc _ _ _ => .nothing
  | .sext _ _ _ _ => .nothing
  | .zext _ _ _ _ => .nothing
  | .div _ _ _ _ _ => .nothing
  | .rem _ _ _ _ _ => .nothing
  | .br _ _ _ _ => .nothing
  | .call _ _ _ _ => .nothing
  | .jr _ _ => .nothing
  | .loopImm _ _ _ _ => .nothing
  | .loopReg _ _ _ _ => .nothing
  | .loopEnd => .nothing
  | .bar _ _ _ => .nothing
  | .barComplete _ _ _ _ => .nothing
  | .waitc _ _ _ => .nothing
  | .sstep _ _ => .nothing
  | .tspawn _ _ _ => .nothing
  | .park _ _ => .nothing
  | .yield _ => .nothing
  | .tdone _ => .nothing
  | .trap _ _ => .nothing
  | .eret _ _ _ => .nothing
  | .snaprel _ => .nothing
  | .rdms _ _ _ => .nothing
  | .wrms _ _ _ => .nothing
  | .halt _ _ => .nothing
  | .ld _ _ _ _ _ x => match x with
    | some b => .byte b
    | none => .nothing
  | .ldv _ _ _ _ _ x => match x with
    | some b => .byte b
    | none => .nothing
  | .ldg _ _ _ _ _ _ => .nothing
  | .ldb _ _ _ _ _ x => match x with
    | some b => .byte b
    | none => .nothing
  | .tagq _ _ x => match x with
    | some b => .byte b
    | none => .nothing
  | .tagset _ _ x => match x with
    | some b => .byte b
    | none => .nothing
  | .tagclr _ x => match x with
    | some b => .byte b
    | none => .nothing
  | .tld _ _ _ _ _ x => match x with
    | some b => .byte b
    | none => .nothing
  | .tdrop _ => .nothing
  | .tcnt _ _ => .nothing
  | .tcntWait _ _ => .nothing
  | .aadd _ _ _ _ _ _ => .nothing
  | .amin _ _ _ _ _ _ => .nothing
  | .amax _ _ _ _ _ _ => .nothing
  | .aand _ _ _ _ _ _ => .nothing
  | .aor _ _ _ _ _ _ => .nothing
  | .axor _ _ _ _ _ _ => .nothing
  | .aswp _ _ _ _ _ _ => .nothing
  | .acas _ _ _ _ _ _ => .nothing
  | .cpyIn _ _ _ _ _ x => match x with
    | some b => .micro b
    | none => .nothing
  | .cpygIn _ _ _ _ _ x => match x with
    | some b => .micro b
    | none => .nothing
  | .cpysIn _ _ _ _ _ x => match x with
    | some b => .micro b
    | none => .nothing
  | .cpyfIn _ _ _ _ _ x => match x with
    | some b => .micro b
    | none => .nothing
  | .shape _ _ x => match x with
    | some b => .byte b
    | none => .nothing
  | .hread _ _ _ _ x => match x with
    | some b => .byte b
    | none => .nothing
  | .hwait _ => .nothing
  | .hstat _ _ => .nothing
  | .hrel _ => .nothing
  | .gload _ _ x => match x with
    | some b => .byte b
    | none => .nothing
  | .vadd _ _ _ _ _ _ _ x => match x with
    | some b => .byte b
    | none => .nothing
  | .vsub _ _ _ _ _ _ _ x => match x with
    | some b => .byte b
    | none => .nothing
  | .vmul _ _ _ _ _ _ _ x => match x with
    | some b => .byte b
    | none => .nothing
  | .vmulh _ _ _ _ _ _ x => match x with
    | some b => .byte b
    | none => .nothing
  | .vmin _ _ _ _ _ _ x => match x with
    | some b => .byte b
    | none => .nothing
  | .vmax _ _ _ _ _ _ x => match x with
    | some b => .byte b
    | none => .nothing
  | .vand _ _ _ _ x => match x with
    | some b => .byte b
    | none => .nothing
  | .vor _ _ _ _ x => match x with
    | some b => .byte b
    | none => .nothing
  | .vxor _ _ _ _ x => match x with
    | some b => .byte b
    | none => .nothing
  | .vshl _ _ _ _ _ x => match x with
    | some b => .byte b
    | none => .nothing
  | .vshr _ _ _ _ _ x => match x with
    | some b => .byte b
    | none => .nothing
  | .vsra _ _ _ _ _ x => match x with
    | some b => .byte b
    | none => .nothing
  | .vabs _ _ _ _ _ x => match x with
    | some b => .byte b
    | none => .nothing
  | .vneg _ _ _ _ _ x => match x with
    | some b => .byte b
    | none => .nothing
  | .vclz _ _ _ _ x => match x with
    | some b => .byte b
    | none => .nothing
  | .vpopc _ _ _ _ x => match x with
    | some b => .byte b
    | none => .nothing
  | .vfadd _ _ _ _ _ _ x => match x with
    | some b => .byte b
    | none => .nothing
  | .vfsub _ _ _ _ _ _ x => match x with
    | some b => .byte b
    | none => .nothing
  | .vfmul _ _ _ _ _ _ x => match x with
    | some b => .byte b
    | none => .nothing
  | .vfma _ _ _ _ _ _ x => match x with
    | some b => .byte b
    | none => .nothing
  | .vfmin _ _ _ _ _ x => match x with
    | some b => .byte b
    | none => .nothing
  | .vfmax _ _ _ _ _ x => match x with
    | some b => .byte b
    | none => .nothing
  | .vfabs _ _ _ _ x => match x with
    | some b => .byte b
    | none => .nothing
  | .vfneg _ _ _ _ x => match x with
    | some b => .byte b
    | none => .nothing
  | .vcmp _ _ _ _ _ _ x => match x with
    | some b => .byte b
    | none => .nothing
  | .vfcmp _ _ _ _ _ x => match x with
    | some b => .byte b
    | none => .nothing
  | .vsel _ _ _ _ x => match x with
    | some b => .byte b
    | none => .nothing
  | .vshuf _ _ _ _ x => match x with
    | some b => .byte b
    | none => .nothing
  | .vbcast _ _ _ _ x => match x with
    | some b => .byte b
    | none => .nothing
  | .vmovs _ _ _ x => match x with
    | some b => .byte b
    | none => .nothing
  | .vmovsTos _ _ _ x => match x with
    | some b => .byte b
    | none => .nothing
  | .vmov _ _ _ x => match x with
    | some b => .byte b
    | none => .nothing
  | .vradd _ _ _ _ _ x => match x with
    | some b => .byte b
    | none => .nothing
  | .vrmin _ _ _ _ x => match x with
    | some b => .byte b
    | none => .nothing
  | .vrmax _ _ _ _ x => match x with
    | some b => .byte b
    | none => .nothing
  | .vfradd _ _ _ _ x => match x with
    | some b => .byte b
    | none => .nothing
  | .vfrmin _ _ _ x => match x with
    | some b => .byte b
    | none => .nothing
  | .vfrmax _ _ _ x => match x with
    | some b => .byte b
    | none => .nothing
  | .vcvt _ _ _ _ _ _ _ x => match x with
    | some b => .byte b
    | none => .nothing
  | .vxc _ _ _ _ _ x => match x with
    | some b => .byte b
    | none => .nothing
  | .pwld _ _ x => match x with
    | some b => .byte b
    | none => .nothing
  | .vpwp _ _ _ x => match x with
    | some b => .byte b
    | none => .nothing
  | .brank _ _ _ _ x => match x with
    | some b => .byte b
    | none => .nothing
  | .bsel _ _ _ _ x => match x with
    | some b => .byte b
    | none => .nothing
  | .vaddi _ _ _ _ x => match x with
    | some b => .byte b
    | none => .nothing
  | .vli _ _ _ x => match x with
    | some b => .byte b
    | none => .nothing
  | .st _ _ _ _ _ x => match x with
    | some b => .byte b
    | none => .nothing
  | .stv _ _ _ _ _ x => match x with
    | some b => .byte b
    | none => .nothing
  | .sts _ _ _ _ _ _ => .nothing
  | .cowst _ _ _ _ _ x => match x with
    | some b => .byte b
    | none => .nothing
  | .talloc _ _ _ _ _ x => match x with
    | some b => .byte b
    | none => .nothing
  | .twr _ _ _ _ _ x => match x with
    | some b => .byte b
    | none => .nothing
  | .tseal _ => .nothing
  | .cpyOut _ _ _ _ _ x => match x with
    | some b => .micro b
    | none => .nothing
  | .cpygOut _ _ _ _ _ x => match x with
    | some b => .micro b
    | none => .nothing
  | .cpysOut _ _ _ _ _ x => match x with
    | some b => .micro b
    | none => .nothing
  | .cpyfOut _ _ _ _ _ x => match x with
    | some b => .micro b
    | none => .nothing
  | .publish _ => .nothing
  | .publishDef _ _ => .nothing
  | .publishUndef _ => .nothing
  | .drain _ _ => .nothing
  | .fence _ => .nothing
  | .mark => .nothing
  | .tlbiVa _ => .nothing
  | .tlbiOwn => .nothing
  | .tlbiPva _ _ => .nothing
  | .tlbiPart _ => .nothing
  | .tlbiGlob => .nothing
  | .pagemv _ _ _ x => match x with
    | some b => .byte b
    | none => .nothing
  | .wmap _ _ _ x => match x with
    | some b => .byte b
    | none => .nothing
  | .wunmap _ => .nothing
  | .lease _ x => match x with
    | some b => .byte b
    | none => .nothing
  | .lfree x => match x with
    | some b => .byte b
    | none => .nothing
  | .mcfg _ x => match x with
    | some b => .byte b
    | none => .nothing
  | .mma _ _ _ _ _ _ _ _ x => match x with
    | some b => .byte b
    | none => .nothing
  | .mmv _ _ _ _ _ _ _ _ _ x => match x with
    | some b => .byte b
    | none => .nothing
  | .mdrain _ _ x => match x with
    | some b => .byte b
    | none => .nothing
  | .mzero _ x => match x with
    | some b => .byte b
    | none => .nothing
  | .mwait _ x => match x with
    | some b => .byte b
    | none => .nothing
  | .rte _ _ _ x => match x with
    | some b => .byte b
    | none => .nothing
  | .apre _ _ _ x => match x with
    | some b => .byte b
    | none => .nothing
  | .adec _ _ _ x => match x with
    | some b => .byte b
    | none => .nothing
  | .kvag _ _ x => match x with
    | some b => .byte b
    | none => .nothing
  | .xsend _ _ _ _ _ x => match x with
    | some b => .byte b
    | none => .nothing
  | .xrecv _ _ x => match x with
    | some b => .byte b
    | none => .nothing
  | .ptrcfg _ x => match x with
    | some b => .byte b
    | none => .nothing
  | .ptrld _ _ x => match x with
    | some b => .byte b
    | none => .nothing
  | .ptrrun _ _ _ x => match x with
    | some b => .byte b
    | none => .nothing
  | .snapst _ _ x => match x with
    | some b => .byte b
    | none => .nothing
  | .registerWriteLands _ => .nothing
  | .interlockedResultArrives _ _ => .nothing
  | .trapEntry _ _ _ _ => .nothing
  | .pageWalk _ _ _ => .nothing
  | .copySegment _ _ => .nothing
  | .copyComplete _ _ => .nothing
  | .pagemvCopyComplete _ _ => .nothing
  | .hotRegionSwap _ _ _ => .nothing
  | .pseudoChannelPowerDown _ _ => .nothing
  | .pseudoChannelSelfRefresh _ _ => .nothing
  | .stackRetrain _ => .nothing
  | .handleRequestArrives _ => .nothing
  | .flashPageRead _ _ _ => .nothing
  | .relocationSwitch _ _ _ => .nothing
  | .oldBlockErase _ _ _ => .nothing
  | .rebuild _ _ => .nothing
  | .relocate _ _ => .nothing
  | .retire _ _ => .nothing
  | .refill _ _ => .nothing
  | .ftlCommandComplete _ => .nothing
  | .pointerRun _ => .nothing
  | .tallocRequestArrives _ => .nothing
  | .tallocGrant _ => .nothing
  | .tileAccessArrives _ => .nothing
  | .leaseGrant _ => .nothing
  | .turnGrant _ => .nothing
  | .matrixCommandRetire _ => .nothing
  | .groupPartArrives _ _ => .nothing
  | .drainRowLeaves _ => .nothing
  | .attentionCommandComplete _ => .nothing
  | .capacityRequest _ => .nothing
  | .routingRound _ => .nothing
  | .xsendBinding _ => .nothing
  | .landing _ => .nothing
  | .xrecvRequestArrives _ => .nothing
  | .superstepBoundary _ => .nothing
  | .beaconTick => .nothing
  | .frameStart _ => .nothing
  | .deferredFrameStart _ => .nothing
  | .frameAdvance _ => .nothing
  | .taskInsertion _ => .nothing
  | .taskReady _ _ => .nothing
  | .taskDispatch _ => .nothing
  | .continuationResume _ => .nothing
  | .parkWake _ _ => .nothing
  | .installTemplate => .nothing
  | .launchTasks => .nothing
  | .removeTemplate => .nothing
  | .tearDownPartition => .nothing
  | .launchWindowWrite _ _ => .nothing
  | .hostMemWrite _ _ => .nothing
  | .hostMemRead _ _ => .nothing
  | .pod _ _ _ _ => .nothing
  | .loadw _ _ _ _ _ _ => .nothing
  | .weightChunk _ => .nothing
  | .loadwSwitch => .nothing
  | .attest _ _ => .nothing
  | .fwstage _ _ => .nothing
  | .podBarrierMessage _ _ _ _ _ => .nothing
  | .podBarrierRelease _ _ _ _ => .nothing
  | .ptpMessage _ => .nothing
  | .linkRetry => .nothing
  | .keeperWindow => .nothing
  | .keepcfgWrite _ => .nothing
  | .poolbaseWrite _ => .nothing
  | .srseedWrite _ _ => .nothing
  | .ttbaseWrite _ _ => .nothing
  | .kpartWrite _ _ => .nothing
  | .sscfgWrite _ _ => .nothing
  | .sliceWrite _ _ => .nothing
  | .pstateHalt _ => .nothing
  | .pstateResume _ => .nothing
  | .svackRelease _ => .nothing
  | .svackEnd _ => .nothing
  | .svqRecordWrite _ => .nothing
  | .haltLineArrives _ _ _ => .nothing
  | .halted _ => .nothing
  | .sliceEnd _ => .nothing
  | .preemptionUnitSave _ _ _ => .nothing
  | .preemptionComplete _ => .nothing
  | .powerUp => .nothing
  | .bringupStageComplete _ => .nothing
  | .cxlReset => .nothing
  | .storePerformed _ => .nothing
  | .instructionFetchMissReturn _ => .nothing
  | .routingPassComplete _ => .nothing
  | .powerOff => .nothing
  | .portLaneChange _ => .nothing
  | .loadwDoneReport _ => .nothing

/-- The first of some slots in which a word is an instruction. -/
def firstSlot (w : Nat) : List Nat → Option (Nat × Instr)
  | [] => none
  | k :: t =>
    match decodeSlot k w .nothing with
    | .ok i => some (k, i)
    | .error _ => firstSlot w t
/-- The slot in which one bare 32-bit word stands for an instruction, and that instruction. The four slots share their opcodes, so one
word can stand for an instruction of each: slots 0, 1, 3 and 2 are tried in that order, and slot 0 last where its stall count (R28) would
not be zero. Assumption 3. -/
def tableSlot (w : Nat) : Option (Nat × Instr) := firstSlot w (if w < 2 ^ 28 then [0, 1, 3, 2] else [1, 3, 2, 0])

/-- The instruction a bare word of spec/opcode_table.json stands for; an instruction occupies 32 bits (R24). -/
def decodeTableWord (nbits w : Nat) : Option Instr :=
  match tableSlot (w % 2 ^ Nat.min nbits 32) with
  | some p => some p.2
  | none => none

end Sys2Proof
end

