-- ==== Sys2Proof/Machine/State.lean ====
section
/-! DEFINITION. The whole state of the package as plain data (INVENTORY.md lists every piece with its rule and reset value),
the reasons a step can stop, and the state after power-up. Sparse tables (`Tbl`) read a default at an unlisted key; the
operation that reads a table names the default. -/
namespace Sys2Proof.Machine

/-- Why the machine stops with a fault of the model (none of the device's own faults is one: those are taken, R364, R379). -/
inductive Fault where
  /-- Raised by `step` when nothing in the machine can move (powered off, agenda empty and no core running). Safe: no later
  state exists in which a claim could be false. -/
  | idle
  deriving DecidableEq, Repr

/-- Why the model gives no meaning. -/
inductive Refusal where
  /-- Raised by `exec` for an instruction whose meaning is not written. Safe: no claim about it can be proved. -/
  | notModelled (mnemonic : String)
  deriving DecidableEq, Repr

/-- A fault a bundle meets: code (R362), sub-cause (R363), TINFO, slot. -/
structure FaultInfo where
  code : Nat
  sub : Nat
  info : W64
  slot : Nat
  deriving DecidableEq, Repr

/-- What the last operation of a slot did: the step threads the four slots of a bundle by it (R34, R35). -/
inductive Issue where
  | idle
  | issued
  | held
  /-- The slot faults, and its precise trap waits for interlocked results (R364). -/
  | late
  | trapped (f : FaultInfo)
  deriving DecidableEq, Repr

/-- What a register write carries (R368): a scalar, predicate bits, a vector block in the order of R163, PWP segments. -/
inductive Payload where
  | scalar (r : Nat) (v : W64)
  | pred (r : Nat) (lanes bits : Pred)
  | vec (r rows cs n : Nat) (lanes : Pred) (data : List Row)
  | pwp (j rows cs n : Nat) (lanes : Pred) (data : List Row)
  deriving DecidableEq, Repr

/-- A fixed-latency write in flight (R30); `keep`: restored by ERET, never discarded (R372). -/
structure Flight where
  due : Nat
  seq : Nat
  bid : Nat
  keep : Bool
  slot : Nat
  w : Payload
  deriving DecidableEq, Repr

/-- An interlocked result (R32): its register keys, the bundle that issued it, its place in the issue order of writes (R30), its value once
the answer is known. -/
structure Pend where
  id : Nat
  keys : List Nat
  bid : Nat
  seq : Nat
  value : Option Payload
  deriving DecidableEq, Repr

/-- An active hardware loop (R220); the list of a core stands innermost first. -/
structure Loop where
  k : Nat
  first : W64
  last : W64
  deriving DecidableEq, Repr

/-- A streaming drain (R260): the bank, the next row, the rows left, the scheduled clock at which the next row leaves. -/
structure Drain where
  bank : Nat
  row : Nat
  left : Nat
  due : Nat
  deriving DecidableEq, Repr

/-- The held trap buffer (R364): writes with their remaining scheduled clocks, loops, drain, and the loop counters (R224), which an image
does not hold (R367). -/
structure Buffer where
  writes : List Flight
  loops : List Loop
  drain : Option Drain
  lc : Option (Tbl W32)
  deriving DecidableEq, Repr

/-- The task a core runs, from its ring entry and node (R59, R61). -/
structure Task where
  part : Nat
  ent : Nat
  die : Nat
  tmpl : Nat
  node : Nat
  inst : Nat
  prio : Nat
  deadline : Bool
  coop : Bool
  member : Nat
  priv : Nat
  tag : Nat
  frame : Nat
  gen : Nat
  /-- The values of GLOAD k = 0 to 3, fixed at insertion (R341, R353). -/
  args : List W64
  deriving DecidableEq, Repr

/-- Why a core that has issued its bundle does not issue the next one yet. -/
inductive Post where
  | none
  /-- BAR at .quad and wider (R225): scope, instance, group. -/
  | bar (sc inst g : Nat)
  /-- SSTEP (R296): the count of closed boundaries that releases it. -/
  | sstep (count : Nat)
  /-- TSPAWN until its insertion has taken effect (R350). -/
  | tspawn
  /-- A TRAP whose bundle has issued and whose interlocked results have not all landed (R364, R369). -/
  | trap (n : Nat)
  /-- A continuation that its core has taken and not yet read (R344, R348). -/
  | resume
  /-- PARK, YIELD (wake value 0), a blocking TALLOC or HWAIT, TDONE: waiting for the waits of R152, R265, R269. The kinds
  are those of R346; 0 is TDONE, 5 a TDONE whose quad barrier is passed. -/
  | suspend (kind reg : Nat) (wake : W64) (pc : W64)
  deriving DecidableEq, Repr

/-- An HREAD, HSTAT or HREL whose bundle waits for what its handle table finds (R78): its bundle, whether the request has taken effect, the fault's
code or 0, the result. -/
structure HReq where
  pc : W64
  done : Bool
  fault : Nat
  value : W64
  deriving DecidableEq, Repr

/-- A TALLOC on its way (R174, R175). -/
structure TReq where
  die : Nat
  units : Nat
  reads : Nat
  life : Nat
  addr : Option W64
  arrived : Bool
  deriving DecidableEq, Repr

/-- A shape record (R132). -/
structure ShapeRec where
  elog : Nat
  c0 : Nat
  c1 : Nat
  c2 : Nat
  c3 : Nat
  s0 : W64
  s1 : W64
  s2 : W64
  s3 : W64
  deriving DecidableEq, Repr

/-- One control core (R208, R373, R375). -/
structure Core where
  task : Option Task := none
  lastPart : Option Nat := none
  stopped : Bool := false
  held : Option Nat := none
  pc : W64 := 0
  nextClk : Nat := 0
  sched : Nat := 0
  bid : Nat := 0
  seq : Nat := 0
  jumped : Bool := false
  extra : Nat := 0
  post : Post := .none
  s : Tbl W64 := []
  p : Tbl Pred := []
  v : Tbl Row := []
  seed : Nat := 0
  lc : Tbl W32 := []
  loops : List Loop := []
  pwp : Tbl (BitVec 160) := []
  flight : List Flight := []
  landed : Tbl Nat := []
  pend : List Pend := []
  tcause : W64 := 0
  tinfo : W64 := 0
  tepc : W64 := 0
  theld : Bool := false
  tscr : W64 := 0
  buffer : Buffer := ⟨[], [], none, none⟩
  drain : Option Drain := none
  ctxctl : W64 := 0x138
  mgeo : W64 := 0
  drainStall : Nat := 0
  leaseWait : Nat := 0
  shapes : Tbl ShapeRec := []
  shapeAt : Tbl Nat := []
  /-- The entry that the last SHAPE of an entry replaced, with that SHAPE's bundle: its bundle still reads it (R25). -/
  shapeOld : Tbl (Nat × Option ShapeRec) := []
  cc : Tbl W32 := []
  ccsat : BitVec 8 := 0
  cfp : Tbl W64 := []
  ccmp : Tbl W64 := []
  orders : List (Nat × Nat × Nat × Option Nat) := []
  tags : Tbl (BitVec 45) := []
  talloc : Option TReq := none
  hreq : Option HReq := none
  /-- The handle word of a HWAIT that waits in place (R83, R385). -/
  waits : W64 := 0
  /-- The pages the bundle has missed on (R105), and the walks that have ended for it in a failure: page, cause, or cause 0 with the frame
  of an uncorrectable table (R119). -/
  missing : List Nat := []
  walked : List (Nat × Nat × Nat) := []
  fetching : Bool := false
  /-- A restored core waits until its banks are granted again (R264). -/
  rejoins : Bool := false
  /-- The bundle is held in a translation command that waits for stores alone (R388). -/
  engaged : Bool := false
  /-- A release that its bundle waits for: the clock by which every write it covers is due (R317). -/
  relAt : Option Nat := none
  dyn : Nat := 0
  lbuf : Tbl (List Byte) := []
  deriving DecidableEq, Repr

/-- A write on the ordered store path of a quad (R318), on its way to its home, which it reaches at clock `due` or later: `eng` is 0 for a
write of the core itself, 1 + the channel or 16 for one of its engines, 17 for one of a scheduler; `tile` is the die, slot and generation of a Kennel tile, `addr` then an
offset in it. -/
structure PathStore where
  core : Nat
  part : Nat
  eng : Nat
  due : Nat
  tile : Option (Nat × Nat × Nat)
  addr : Nat
  bytes : List Byte
  deriving DecidableEq, Repr

/-- A TLB entry (R104): partition, first virtual page, log2 of its pages, the leaf entry. -/
structure TlbEnt where
  part : Nat
  vpn : Nat
  lg : Nat
  leaf : W64
  deriving DecidableEq, Repr

/-- What an engine's command keeps for R144, by the places of bytes: the bytes its core has written since the command was accepted, each with what
it held before and whether by a store or an atomic (false), oldest first, the ranges the command has written, and those that later commands of
its core and channel have. -/
structure Overlap where
  dirty : List (Nat × List Byte × Bool) := []
  wrote : List (Nat × Nat) := []
  passed : List (Nat × Nat) := []
  deriving DecidableEq, Repr

/-- What a copy command does (R127). -/
inductive CopyKind where
  | cpy
  | gather
  | scatter
  | fifo (f : Nat)
  /-- The copy that PAGEMV starts (R117): entry's address. -/
  | page (leafAt : Nat)
  deriving DecidableEq, Repr

/-- A copy command accepted on a channel (R124 to R137): `total` bytes of its stream, `pos` of them read, `seg` segments done, `buf` stream
bytes read and not yet delivered, `out` bytes delivered, `blk` blocks converted,
`jumps` the stream positions of a conversion before which the destination skips bytes, with how many (R137), `full` while a CPYF waits for room in its FIFO part. -/
structure CopyCmd where
  id : Nat
  core : Nat
  part : Nat
  kind : CopyKind
  wform : Bool
  mw : Nat
  dst : W64
  src : W64
  c : W64
  shape : Option ShapeRec
  inc : Nat
  rnd : Nat
  priv : Nat
  coop : Bool
  total : Nat
  pos : Nat
  seg : Nat
  buf : List Byte
  out : Nat
  blk : Nat
  jumps : List (Nat × Nat)
  full : Bool
  lap : Overlap
  crc : W64
  diff : Option Nat
  active : Bool
  done : Bool
  held : Option Nat
  pc : W64
  tag : Nat
  deriving DecidableEq, Repr

/-- A command of the matrix array (R251 to R257): kind 0 MMA, 1 MMV, 2 MZERO; `grp` the first quad of a group and its lease word,
`clk` its acceptance, `ina` and `inb` the beats it has taken from the FIFO parts, `parts` the parts a home member still adds, `load` and `rows`
the clocks of plane loading and of rows or runs done (R254, R255), `fin` the clock in which its last row ended, `pc` and `tag` its bundle and launch tag for a stop record (R380). -/
structure MatCmd where
  id : Nat
  clk : Nat
  core : Nat
  part : Nat
  kind : Nat
  bank : Nat
  fa : Nat
  fb : Nat
  na : Bool
  nb : Bool
  ovw : Bool
  sat : Bool
  res : Bool
  mode : Nat
  geoA : Nat
  geoB : Nat
  m : Nat
  n : Nat
  k : Nat
  grp : Option (Nat × W64)
  begun : Bool
  ina : List (BitVec 512)
  inb : List (BitVec 512)
  parts : Option Nat
  load : Nat
  rows : Nat
  fin : Option Nat
  pc : W64
  tag : Nat
  deriving DecidableEq, Repr

/-- A core that has asked for a lease of an array (R242): claimed banks, lease word, whether the banks are granted, the clock from
which its LEASE may issue, whether that has issued (the core is a lessee), whether its group has ended by the LFREE of a member (R245). -/
structure Lessee where
  core : Nat
  part : Nat
  banks : Nat
  word : W64
  granted : Bool
  clk : Nat
  issued : Bool
  ended : Bool
  deriving DecidableEq, Repr

/-- A resident batch of MMV (R255), by the command accepted last that loads one. -/
structure Batch where
  core : Nat
  m : Nat
  k : Nat
  fmt : Nat
  deriving DecidableEq, Repr

/-- What a save keeps of a core's array work until the restored core's banks are granted again (R264): the contents of the claimed banks, the
commands, and the resident batch it had loaded. -/
structure ArrSave where
  core : Nat
  banks : Tbl W32
  mat : List MatCmd
  batch : Option Batch
  resident : List (BitVec 512) × Nat
  deriving DecidableEq, Repr

/-- One matrix array (R241 to R266). A bank element is keyed bank * 65536 + 256 * row + column; unlisted is +0. `last` is the
partition of a bank's last holder, `turn` the core that holds the turn (a group's leader), `wants` the cores with a matrix command
stalled at issue, `settled` the clock up to which the progress of its commands is counted, `resident` the batch that each core has loaded, with its
geometry (`batch` says whose may be used, R256), `part` the partials under way to a home quad, by command and arrival clock, `inbox` the parts that have arrived at this home quad, in order, by command
and sending quad, `back` what restored cores wait to have written back. -/
structure Arr where
  banks : Tbl W32 := []
  last : Tbl Nat := []
  lessees : List Lessee := []
  turn : Option Nat := none
  turnCount : Nat := 0
  turnClk : Nat := 0
  lastMember : Nat := 3
  wants : List Nat := []
  queue : List MatCmd := []
  settled : Nat := 0
  batch : Option Batch := none
  resident : Tbl (List (BitVec 512) × Nat) := []
  part : List (Nat × Nat × Nat × Tbl W32) := []
  inbox : List (Nat × Nat × Tbl W32) := []
  back : List ArrSave := []
  deriving DecidableEq, Repr

/-- A quad (R14): store path, TLB, channels, operand FIFO parts (key 4 * fifo + member), array. -/
structure Quad where
  path : List PathStore := []
  tlb : List TlbEnt := []
  chans : Tbl (List CopyCmd) := []
  fifo : Tbl (List (BitVec 512)) := []
  arr : Arr := {}
  deriving DecidableEq, Repr

/-- A bound XSEND (R300): `pos` bytes of it have been carried. -/
structure SendRec where
  core : Nat
  src : W64
  len : Nat
  port : Nat
  chan : Nat
  inc : Nat
  ord : Nat
  step : Nat
  landed : Bool
  pos : Nat
  lap : Overlap
  held : Option Nat
  priv : Nat
  coop : Bool
  pc : W64
  tag : Nat
  deriving DecidableEq, Repr

/-- A live tile (R171); unlisted bytes are unspecified under R8, drawn by `seed`. -/
structure Tile where
  gen : Nat
  units : Nat
  part : Nat
  count : Nat
  life : Nat
  sealed : Bool
  bound : Bool
  send : Option SendRec
  seed : Nat
  bytes : Tbl Byte
  deriving DecidableEq, Repr

/-- A remap window (R112). -/
structure Window where
  winVa : W64
  backVa : W64
  rowBytes : Nat
  rows : Nat
  backRows : Nat
  tableVa : W64
  deriving DecidableEq, Repr

/-- A KV address generator (R272). -/
structure KvGen where
  hot : W64
  slotS : W64
  layerS : W64
  posS : Nat
  headS : Nat
  vOff : W64
  cold : W64
  coldLen : Nat
  maxLen : Nat
  slots : Nat
  heads : Nat
  deriving DecidableEq, Repr

/-- An attention command (R274): `busy` while a block of it is under way, `row` the first row not done, `fullyMasked` the mask bits of the rows done, `units` the distinct
(slot, head) pairs met (R280). -/
structure AttCmd where
  core : Nat
  part : Nat
  dec : Bool
  desc : List Byte
  kv : KvGen
  chan : Nat
  inc : Nat
  ord : Nat
  busy : Bool
  row : Nat
  fullyMasked : List Bool
  units : List (Nat × Nat)
  lap : Overlap
  priv : Nat
  coop : Bool
  held : Option Nat
  pc : W64
  tag : Nat
  deriving DecidableEq, Repr

/-- A routing command (R284) and, once it runs, its pass (R285 to R291): scores as FP32, candidates of each token in rank order, how many
each has tried, the experts granted, answers awaited, the tokens refused in the last round; `touches`: the histogram bytes that the program has
touched since it began; `sent`: a request has gone to a home
die, `ended`: the last round is over, `written`: the outputs are. -/
structure RteCmd where
  core : Nat
  part : Nat
  desc : List Byte
  shape : ShapeRec
  chan : Nat
  inc : Nat
  ord : Nat
  started : Bool
  sent : Bool
  ended : Bool
  written : Bool
  cands : List (List Nat)
  scores : List (List W32)
  tried : List Nat
  grants : List (List Nat)
  waiting : Nat
  refused : List Nat
  touches : List (Nat × Nat)
  lap : Overlap
  priv : Nat
  coop : Bool
  held : Option Nat
  pc : W64
  tag : Nat
  deriving DecidableEq, Repr

/-- A slot of a weight-handle table (R76); units done or started are unit numbers. -/
structure HSlot where
  gen : Nat
  src : W64
  dst : W64
  units : Nat
  part : Nat
  holders : Nat
  prefetch : Bool
  repaired : Bool
  done : List Nat
  repair : List Nat
  dirty : List (Nat × Nat)
  seq : Nat
  life : Nat
  tag : Nat
  core : Nat
  pc : W64
  priv : Nat
  coop : Bool
  deriving DecidableEq, Repr

/-- A layer slot of the Pointer (R90). -/
structure PtrLayer where
  head : W64
  scale : W64
  map : W64
  experts : Nat
  width64 : Nat
  kp : Nat
  deriving DecidableEq, Repr

/-- A queued PTRRUN (R91). -/
structure PtrRun where
  part : Nat
  rows : W64
  layer : Nat
  tokens : Nat
  core : Nat
  priv : Nat
  coop : Bool
  deriving DecidableEq, Repr

/-- Flash of one ED (R64 to R74, R391): translation, read counts, faults, registers; `used` lists the blocks whose use differs from
the one at manufacture, `bad` the physical pages that ECC cannot correct and `soft` those it corrects, `weak` the blocks whose next program or
erase fails, `opened` by stack the next page of the block into which single pages are written, `viaParity` the bad pages that every read rebuilds from
parity, `cmdMove` the block that a command relocates, `source` and `sourceVa` what a REFILL found its source to be when it started, `reading`
the page reads in progress by stack, slot, logical and physical page, `gone` the abandoned transfers whose reads have not ended, `waiting` the
pages in awaiting-repair. -/
structure Flash where
  bytes : Tbl Byte := []
  map : Tbl Nat := []
  count : Tbl Nat := []
  erase : Tbl Nat := []
  retired : List Nat := []
  used : List Nat := []
  bad : List Nat := []
  soft : List Nat := []
  weak : List Nat := []
  opened : Tbl Nat := []
  viaParity : List Nat := []
  moving : List (Nat × Nat) := []
  cmdMove : Option Nat := none
  rdthr : Nat := 100000
  arg : W64 := 0
  lastOp : Nat := 0
  overrun : Bool := false
  state : Nat := 0
  page : Nat := 0
  source : Option (List Nat) := none
  sourceVa : W64 := 0
  slots : Tbl HSlot := []
  gens : Tbl Nat := []
  result : Nat := 0
  reading : List (Nat × Nat × Nat × Nat) := []
  gone : Tbl HSlot := []
  allocSeq : Nat := 0
  waiting : List Nat := []
  deriving DecidableEq, Repr

/-- A ring record in the matcher or pool (R339 to R343). -/
structure Entry where
  task : Task
  seq : Nat
  release : Nat
  frame : Nat
  start : W64
  die : Nat
  cls : Nat
  entry : W64
  regions : List (Nat × Nat × Nat)
  preds : List Nat
  phase : Nat
  cont : Bool
  wait : Nat
  grant : Option W64
  launch : Option Nat
  readyAt : Nat
  deriving DecidableEq, Repr

/-- A party that a contained fault holds, by the index of its record (R385). -/
inductive Party where
  /-- The context of a partition on a core. -/
  | core (c p : Nat)
  | copy (q id : Nat)
  | att (d e id : Nat)
  | rte (d id : Nat)
  | flash (e lp : Nat)
  /-- The message bound to a tile, by its place in the order of its core. -/
  | send (d ix id : Nat)
  deriving DecidableEq, Repr

/-- A pre-emption in progress (R389). -/
structure Preempt where
  part : Nat
  left : List (Nat × Nat)
  deriving DecidableEq, Repr

/-- A context that a save has taken off its core (R389): the core, its copy commands by channel, its FIFO parts, its lease with the contents of the
claimed banks, its matrix commands and resident batch, its engine commands, and the saved bytes of its scratchpad. -/
structure Saved where
  core : Nat
  part : Nat
  k : Core
  copies : List (Nat × CopyCmd)
  fifo : Tbl (List (BitVec 512))
  lessee : Option Lessee
  arr : ArrSave
  att : List (Nat × AttCmd)
  rte : List RteCmd
  pad : Tbl Byte
  deriving DecidableEq, Repr

/-- A compute die. -/
structure Die where
  tlb : List TlbEnt := []
  /-- The walk cache: partition, level, number of the entry (R104); walks in flight and waiting misses: partition, page, quad; the quad whose
  miss queue was served last (R105). -/
  wcache : List (Nat × Nat × Nat) := []
  walks : List (Nat × Nat × Nat) := []
  waitq : List (Nat × Nat × Nat) := []
  served : Nat := 0
  /-- The replay queue: the accesses that wait for a page under migration, by core, partition and address, in order of arrival (R118). -/
  replay : List (Nat × Nat × Nat) := []
  wins : Tbl Window := []
  tiles : Tbl Tile := []
  gens : Tbl Nat := []
  treqs : List (Nat × TReq × Nat × Option Nat) := []
  ports : Tbl (List Nat) := []
  kvs : Tbl KvGen := []
  att : Tbl (List AttCmd) := []
  rte : List RteCmd := []
  caps : Tbl Nat := []
  flash : Flash := {}
  /-- The Pointer's configuration (R89): 0, that is disabled, before any PTRCFG. DESIGN CHOICE: assumption 165. -/
  ptrCfg : W64 := 0
  layers : Tbl PtrLayer := []
  runs : List PtrRun := []
  ptrStat : W64 := 0
  insSeq : Nat := 0
  pool : Tbl (List (Nat × Nat)) := []
  slice : Option Nat := none
  sliceIx : Nat := 0
  /-- The partitions that have been pre-empted here and whose slice has not come again (R357). -/
  outs : List Nat := []
  pre : Option Preempt := none
  saved : List Saved := []
  frt : W64 := 0
  freeqBase : W64 := 9
  freeqTail : BitVec 32 := 0
  freeqHead : BitVec 32 := 0
  hbmpm : W64 := 0xC8020002
  srt : W64 := 40
  errCorrected : BitVec 32 := 0
  errUncorrectable : BitVec 16 := 0
  errRetired : BitVec 16 := 0
  recs : List (List Byte × Option Party) := []
  deriving DecidableEq, Repr

/-- A publish pair (R146). -/
structure Pair where
  nameVa : W64
  secondVa : W64
  len : Nat
  sel : Bool
  deriving DecidableEq, Repr

/-- The command that met a unit's first fault, for its stop record (R380): its bundle, launch tag, core, channel or slot, progress. -/
structure CmdInfo where
  pc : W64
  tag : Nat
  core : Nat
  aux : Nat
  progress : Nat
  deriving DecidableEq, Repr

/-- A halt under way (R379): the code, sub-cause and die of the first fault, its clock, the units that have not stopped, those that
have, and whether the closing record has gone to its die. -/
structure Halt where
  code : Nat
  sub : Nat
  die : Nat
  clk : Nat
  left : List (Nat × Nat)
  done : List (Nat × Nat)
  closing : Bool
  deriving DecidableEq, Repr

/-- A partition. -/
structure Part where
  ttbase : W64 := 0
  ovf : W64 := 0
  hquota : Nat := 256
  kpart : Tbl W64 := []
  kpend : Tbl W64 := []
  kabn : Tbl W64 := []
  srseed : W64 := 0
  pairs : Tbl Pair := []
  tmpls : List (Nat × W64) := []
  tring : W64 := 10
  ring : Tbl Entry := []
  openFrame : Nat := 0
  slip : W64 := 6
  slipTail : BitVec 24 := 0
  slipHead : BitVec 24 := 0
  slipLost : BitVec 16 := 0
  late : List Nat := []
  groups : Tbl Nat := []
  bars : Tbl (List Nat) := []
  podBars : Tbl (List Nat) := []
  sscfg : W64 := 0
  sspend : Option W64 := none
  ssCount : Nat := 0
  ssExchange : Bool := false
  ssArrived : Nat := 0
  ssCarry : Nat := 0
  ssPodDone : Bool := false
  podSeq : Tbl Nat := []
  deferred : Bool := false
  tvec : W64 := 0
  ctxctl : W64 := 0x138
  dbl : Bool := false
  pstate : Nat := 3
  csave : W64 := 0
  halt : Option Halt := none
  unitFault : List (Nat × Nat × FaultInfo × CmdInfo) := []
  deriving DecidableEq, Repr

/-- A request on its way to the unit that decides on it (R413). -/
inductive Req where
  | hread (core part e : Nat) (src dst : W64) (units tag : Nat) (pc : W64) (priv : Nat) (coop : Bool)
  | hstat (core part e : Nat) (word : W64)
  | hrel (core part e : Nat) (word : W64)
  | bind (core part die gen ix : Nat) (s : SendRec)
  | land (die ix : Nat)
  | capacity (die token expert seq cap home : Nat) (core part : Nat)
  | insert (core part die : Nat) (rec : List Byte) (from_ : W64)
  | xrecv (core part port pend : Nat)
  deriving DecidableEq, Repr

/-- A launch status area in use (R337). -/
structure Launch where
  part : Nat
  va : W64
  accepted : Nat
  refused : Nat
  first : Nat
  code : Nat
  endedTag : Nat
  ended : Nat
  deriving DecidableEq, Repr

/-- A LOADW in progress (R409): `first` the first logical page or the HBM address, `got` the bytes that have arrived, `blocks` the free blocks
taken for its pages, `switched` after the digest has matched, `relay` the package that issued a load which another package passes on. -/
structure Load where
  ed : Nat
  first : Nat
  pages : Nat
  toHbm : Bool
  forward : Bool
  digest : List Byte
  got : List Byte
  blocks : List Nat
  written : Nat
  switched : Bool
  relay : Option Nat
  deriving DecidableEq, Repr

/-- What a package sends to another by its port for a forwarded load (R409): the load itself, a page, the report that it is done. -/
inductive PortMsg where
  | load (ed first pages issuer : Nat) (digest : List Byte)
  | page (n : Nat) (bytes : List Byte)
  | done (pkg issuer : Nat)
  deriving DecidableEq, Repr

/-- The whole machine. -/
structure State where
  clk : Nat := 0
  cur : Nat := 0
  issue : Issue := .idle
  powered : Bool := true
  fresh : Nat := 1
  nextId : Nat := 0
  mem : Tbl Byte := []
  /-- Words of 32 bytes that ECC cannot correct, and words it corrects (R119). DESIGN CHOICE: assumption 149. -/
  badWords : List Nat := []
  softWords : List Nat := []
  cores : Tbl Core := []
  quads : Tbl Quad := []
  dies : Tbl Die := []
  parts : Tbl Part := []
  gens : Tbl W64 := []
  reqs : Tbl Req := []
  agenda : List (Nat × Instr) := []
  frame : Nat := 0
  tick : Nat := 0
  frameTicks : Nat := 58750
  frameTicksNew : Option Nat := none
  locked : Bool := false
  slew : Int := 0
  sinceSlew : Nat := 0
  slices : Tbl W64 := []
  sliceClamp : Tbl W64 := []
  svcfg : W64 := 0x10
  svqBase : W64 := 8
  svqTail : BitVec 32 := 0
  svqHead : BitVec 32 := 0
  parties : Tbl Party := []
  devError : Nat := 0
  devStage : Nat := 0
  ready : Bool := false
  packets : List (List Byte) := []
  lcOverrun : Bool := false
  launches : Tbl Launch := []
  /-- Writes of the device that wait for a page under migration: die, partition, address, bytes (R118). -/
  owed : List (Nat × Nat × Nat × List Byte) := []
  poolbase : W64 := 0
  keepcfg : W64 := 0x15183200
  keepNext : Option W64 := none
  throttled : BitVec 32 := 0
  windows : BitVec 32 := 0
  demand : Tbl Nat := []
  granted : Tbl (Nat × Nat) := []
  grants : Tbl (Nat × Nat) := []
  mboxDetail : W32 := 0
  mboxOp : Nat := 0
  mboxOverrun : Bool := false
  mboxState : Nat := 0
  mboxNext : Option Instr := none
  podSize : Nat := 0
  podIndex : Nat := 0
  podMiss : W64 := 0
  podTable : List Byte := []
  podDomain : Nat := 0
  loadw : Option Load := none
  portOut : List PortMsg := []
  loadDone : List Nat := []
  fwActive : Nat := 0
  fwStaged : Bool := false
  fwSlots : Tbl (List Byte) := []
  fwLowest : W64 := 0
  lanes : Nat := 8
  portUp : Bool := true
  measure : List Byte := []
  health : Tbl W64 := []
  hclass : Tbl W64 := []
  hbmMap : Tbl Nat := []
  swaps : Nat := 0
  /-- Accesses of each 2 MiB region, and the regions under a swap with the clock of its end (R120). -/
  hot : Tbl Nat := []
  swapping : List (Nat × Nat) := []
  /-- The clock until which deadline traffic is in flight at each stack (R122). -/
  busyTill : Tbl Nat := []
  /-- Low-power state and last access of each pseudo-channel (R121). -/
  pchan : Tbl Nat := []
  pchanUsed : Tbl Nat := []
  retrains : Tbl Nat := []
  /-- Since when a stack's retraining waits for deadline traffic to end (R122). -/
  retrainWait : Tbl Nat := []
  hostRead : List Byte := []
  deriving DecidableEq, Repr

/-- The package right after power-up (R400): stage 0 is running, and the end of each stage is on the agenda (its bound is in
seconds; one second is 940,000,000 clocks, R18). -/
def State.reset : State :=
  { agenda := [(1880000000, .bringupStageComplete true)] }

end Sys2Proof.Machine
end

