-- ==== Sys2Proof/Machine/Tbl.lean ====
section
/-! DEFINITION. Reading and writing the sparse tables, and the little-endian byte order of R2. -/
namespace Sys2Proof

/-- The entry listed under a key. -/
def tget {α : Type} : Tbl α → Nat → Option α
  | [], _ => none
  | (j, v) :: t, k => if j = k then some v else tget t k

/-- The entry under a key, or the default of the table. -/
def tgetD {α : Type} (t : Tbl α) (k : Nat) (d : α) : α :=
  match tget t k with
  | some v => v
  | none => d

/-- List an entry, keys rising. -/
def tset {α : Type} : Tbl α → Nat → α → Tbl α
  | [], k, v => [(k, v)]
  | (j, w) :: t, k, v => if k < j then (k, v) :: (j, w) :: t else if k = j then (k, v) :: t else (j, w) :: tset t k v

/-- Take every entry under a key out. -/
def tdel {α : Type} : Tbl α → Nat → Tbl α
  | [], _ => []
  | (j, w) :: t, k => if k = j then tdel t k else (j, w) :: tdel t k

/-- Write a value into a table whose unlisted keys read `d`: `d` itself is not listed. -/
def tput {α : Type} [DecidableEq α] (d : α) (t : Tbl α) (k : Nat) (v : α) : Tbl α :=
  if v = d then tdel t k else tset t k v

/-- Keys strictly rising. -/
def tsorted {α : Type} : Tbl α → Bool
  | [] => true
  | [_] => true
  | (i, _) :: (j, w) :: t => decide (i < j) && tsorted ((j, w) :: t)

/-- The one canonical form of a table whose unlisted keys read `d`. -/
def twf {α : Type} [DecidableEq α] (d : α) (t : Tbl α) : Bool :=
  tsorted t && t.all (fun e => decide (e.2 ≠ d))

/-- The canonical form of memory: addresses strictly rising, no entry equal to what an unlisted address reads (R401: 0). -/
def Memory.wf (m : Tbl Byte) : Bool := twf (0 : Byte) m

/-- The n low bytes of a number, least significant first (R2). -/
def leBytes : Nat → Nat → List Byte
  | 0, _ => []
  | n + 1, v => BitVec.ofNat 8 v :: leBytes n (v / 256)

/-- The number that bytes hold, least significant first (R2). -/
def leNat : List Byte → Nat
  | [] => 0
  | b :: t => b.toNat + 256 * leNat t

/-- Bytes written from an address up. -/
def memWrite (m : Tbl Byte) : Nat → List Byte → Tbl Byte
  | _, [] => m
  | a, b :: t => memWrite (tput 0 m a b) (a + 1) t

/-- Bytes read from an address up. DESIGN CHOICE: assumption 13. -/
def memRead (m : Tbl Byte) : Nat → Nat → List Byte
  | _, 0 => []
  | a, n + 1 => tgetD m a 0 :: memRead m (a + 1) n

/-- Bits hi down to lo of a word, as a number (R3). -/
def bits (x : W64) (hi lo : Nat) : Nat := x.toNat / 2 ^ lo % 2 ^ (hi - lo + 1)

/-- One bit of a word (R3). -/
def bit (x : W64) (n : Nat) : Bool := x.toNat / 2 ^ n % 2 == 1

/-- sext of R10, to 64 bits. -/
def sextTo (w : Nat) (x : Nat) : W64 := BitVec.ofInt 64 (if x % 2 ^ w < 2 ^ (w - 1) then (x % 2 ^ w : Nat) else (x % 2 ^ w : Nat) - (2 ^ w : Nat) : Int)

/-- The signed integer of the low w bits of a number. -/
def sintOf (w : Nat) (x : Nat) : Int := if x % 2 ^ w < 2 ^ (w - 1) then (x % 2 ^ w : Nat) else ((x % 2 ^ w : Nat) : Int) - ((2 ^ w : Nat) : Int)

/-- The field of a little-endian record at a byte offset (R2). -/
def field (rec : List Byte) (off n : Nat) : Nat := leNat ((rec.drop off).take n)

/-- Whether every byte from an offset on is zero, over a length. -/
def zeros (rec : List Byte) (off n : Nat) : Bool := ((rec.drop off).take n).all (· == 0)

/-- Ceiling division. -/
def cdiv (a b : Nat) : Nat := (a + b - 1) / b

end Sys2Proof
end

