-- ==== Sys2Proof/Machine/Ops.lean ====
section
/-! DEFINITION. The named operations over the units of the package and the registers of a core: geometry (R13), accessors,
register reads (R30, R37), results (R29, R32), the agenda, taking a trap (R364) and returning from one (R372), the partition
halt (R379) and the contained fault (R385). -/
namespace Sys2Proof.Machine

/-! ### Geometry (R13) -/

def dieOfQuad (q : Nat) : Nat := if q < 16 then 0 else if q < 32 then 1 else 2 + (q - 32) / 40
def firstQuad (d : Nat) : Nat := if d = 0 then 0 else if d = 1 then 16 else 32 + 40 * (d - 2)
def quadsOf (d : Nat) : Nat := if d < 2 then 16 else 40
def dieOfCore (c : Nat) : Nat := dieOfQuad (c / 4)
/-- Kennel units of a die: 384 MiB on an AD, 96 MiB on an ED, in units of 4 KiB (R170). -/
def kennelUnits (d : Nat) : Nat := if d < 2 then 98304 else 24576
/-- The die whose HBM holds a physical address below 1 TiB (R99). -/
def hbmDie (pa : Nat) : Nat :=
  let k := pa / 2 ^ 36
  if k < 4 then 0 else if k < 8 then 1 else 2 + (k - 8) / 2
/-- Core class of a die: 0 AD, 1 ED (R14). -/
def classOf (d : Nat) : Nat := if d < 2 then 0 else 1
/-- Physical address of byte 0 of a core's scratchpad (R99, R160). -/
def scratchPa (c : Nat) : Nat := 2 ^ 40 + dieOfCore c * 2 ^ 32 + (c - 4 * firstQuad (dieOfCore c)) * 2 ^ 20

/-! ### Accessors -/

namespace State
variable (s : State)
def core (c : Nat) : Core := tgetD s.cores c {}
def setCore (c : Nat) (k : Core) : State := { s with cores := tset s.cores c k }
def quad (q : Nat) : Quad := tgetD s.quads q {}
def setQuad (q : Nat) (x : Quad) : State := { s with quads := tset s.quads q x }
def die (d : Nat) : Die := tgetD s.dies d {}
def setDie (d : Nat) (x : Die) : State := { s with dies := tset s.dies d x }
def part (p : Nat) : Part := tgetD s.parts p {}
def setPart (p : Nat) (x : Part) : State := { s with parts := tset s.parts p x }
/-- The core whose bundle issues, and its unit numbers. -/
def me : Core := s.core s.cur
def setMe (k : Core) : State := s.setCore s.cur k
def myQuad : Nat := s.cur / 4
def myDie : Nat := dieOfCore s.cur
end State

/-- The partition of the task a core runs. -/
def Core.part (k : Core) : Nat := match k.task with | some t => t.part | none => 0
def Core.coop (k : Core) : Bool := match k.task with | some t => t.coop | none => false
def Core.priv (k : Core) : Nat := match k.task with | some t => t.priv | none => 0
def Core.tag (k : Core) : Nat := match k.task with | some t => t.tag | none => 0
/-- A task of a coop node or with the deadline flag waits in place (R347). -/
def Core.inPlace (k : Core) : Bool := match k.task with | some t => t.coop || t.deadline | none => true

def State.myPart (s : State) : Nat := s.me.part
/-- The partition that SVCFG.part names (R378). DEDUCED: assumption 4. -/
def State.svPart (s : State) : Nat := bits s.svcfg 3 0
def State.svValid (s : State) : Bool := bit s.svcfg 4
/-- Whether the issuing context is the supervisor (R378). -/
def State.isSup (s : State) : Bool := s.myPart == s.svPart
/-- BEACON (R309). -/
def State.beacon (s : State) : W64 := BitVec.ofNat 64 (s.frame * 2 ^ 24 + s.tick)

/-- Whether the units of a die work for a partition: it is running, and the die has not pre-empted it and does not (R357, R379, R389). DESIGN CHOICE: assumption 18. -/
def State.runsOn (s : State) (d p : Nat) : Bool :=
  (s.part p).pstate == 0 && !(s.die d).outs.contains p
  && (match (s.die d).pre with | some x => x.part != p | none => true)

/-- R388: a core in a translation command that waits for its stores and copies completes it before it stops. DEDUCED: assumption 150. -/
def Core.endsCommand (k : Core) : Bool := k.engaged && k.task.isSome && !k.stopped && k.held.isNone && !k.fetching
/-- A core of a quad completes such a command in a partition: the copies and the array of its quad, whose work it may wait for, go on with it (R388). -/
def State.finishing (s : State) (q p : Nat) : Bool :=
  (List.range 4).any fun m => let k := s.core (4 * q + m); k.endsCommand && k.part == p
/-- Whether the copy engine and the array of a quad work for a partition. -/
def State.quadRuns (s : State) (q p : Nat) : Bool := s.runsOn (dieOfQuad q) p || s.finishing q p

/-- The core that a request to a unit comes from (R413). -/
def Req.from_ : Req → Nat
  | .hread c _ _ _ _ _ _ _ _ _ => c
  | .hstat c _ _ _ => c
  | .hrel c _ _ _ => c
  | .bind c _ _ _ _ _ => c
  | .land _ _ => 0
  | .capacity _ _ _ _ _ _ c _ => c
  | .insert c _ _ _ _ => c
  | .xrecv c _ _ _ => c
/-- The core as which an access to a tile counts (R180, R302): the sender of a TWR, a landing or a binding, the core of a copy command. -/
def State.tileCore (s : State) : Instr → Option Nat
  | .tileAccessArrives c => some c
  | .copySegment q id => (((s.quad q).chans.flatMap (·.2)).find? fun m => m.id == id).map CopyCmd.core
  | .xsendBinding id => (tget s.reqs id).map Req.from_
  | .landing id => match tget s.reqs id with
    | some (.land d ix) => (tget (s.die d).tiles ix).bind fun t => t.send.map SendRec.core
    | _ => none
  | _ => none
/-- The insertion sequence number of a ring entry's task (R340). -/
def State.entrySeq (s : State) (p e : Nat) : Nat := match tget (s.part p).ring e with | some n => n.seq | none => 0
/-- The order of the requests that arrive in one clock at one unit, as a class and a key within it: TALLOCs (R175), commands at a handle table
(R78), XRECVs (R304), insertions (R340, R350), capacity requests (R288), parts of a group MMA (R247), tasks that become ready (R342), and last the
accesses to tiles (R180), and dispatch, which serves what the clock has made ready (R342, R344). -/
def State.rank (s : State) (i : Instr) : Option (Nat × Nat) :=
  match i with
  | .tallocRequestArrives c => some (0, c)
  | .pointerRun _ => some (1, 0)
  | .handleRequestArrives id => (tget s.reqs id).map fun r => (1, r.from_ + 1)
  | .xrecvRequestArrives id => (tget s.reqs id).map fun r => (2, r.from_)
  | .launchTasks => some (3, 0)
  | .taskInsertion id => (tget s.reqs id).map fun r => (3, r.from_ + 1)
  | .capacityRequest id => match tget s.reqs id with
    | some (.capacity _ _ _ seq _ _ c _) => some (4, seq * 1024 + c)
    | _ => none
  | .groupPartArrives _ q => some (5, q)
  | .taskReady p e => some (6, s.entrySeq p e)
  | .parkWake p e => some (6, s.entrySeq p e)
  | .taskDispatch _ => some (8, 0)
  | i => (s.tileCore i).map fun c => (7, c)
/-- Whether an event goes before another of the same clock: by their places in the order of one unit; accesses to tiles, and
dispatch, follow every other event. DESIGN CHOICE: assumption 19. -/
def State.before (s : State) (i j : Instr) : Bool :=
  match s.rank i, s.rank j with
  | some a, some b => decide (a.1 < b.1) || (a.1 == b.1 && decide (a.2 < b.2))
  | none, some b => decide (7 ≤ b.1)
  | _, none => false
/-- Put an event on the agenda, behind every event due no later but for those of its clock that it goes before. -/
def agendaPlace (before : Instr → Bool) : List (Nat × Instr) → Nat → Instr → List (Nat × Instr)
  | [], t, i => [(t, i)]
  | (u, j) :: r, t, i => if t < u || (t == u && before j) then (t, i) :: (u, j) :: r else (u, j) :: agendaPlace before r t i
def State.schedule (s : State) (dt : Nat) (i : Instr) : State := { s with agenda := agendaPlace (s.before i) s.agenda (s.clk + dt) i }
/-- Put an event on the agenda unless it stands there already. -/
def State.scheduleOnce (s : State) (dt : Nat) (i : Instr) : State := if s.agenda.any fun e => e.2 == i then s else s.schedule dt i
/-- Put an event on the agenda unless it stands there for that clock or an earlier one. -/
def State.scheduleBy (s : State) (dt : Nat) (i : Instr) : State :=
  if s.agenda.any fun e => decide (e.1 ≤ s.clk + dt) && e.2 == i then s else s.schedule dt i
/-- A number no other request has. -/
def State.newId (s : State) : Nat × State := (s.nextId, { s with nextId := s.nextId + 1 })
/-- A fresh seed of unspecified values (R8). DESIGN CHOICE: assumption 1. -/
def State.newSeed (s : State) : Nat × State := (s.fresh, { s with fresh := s.fresh + 1 })
def State.addReq (s : State) (r : Req) : Nat × State := (s.nextId, { s with nextId := s.nextId + 1, reqs := tset s.reqs s.nextId r })

/-! ### Registers -/

/-- Register keys: s r is r, p r is 64 + r, v r of cluster c is 128 + 8r + c, PWP segment j is 1024 + j. -/
def keyS (r : Nat) : Nat := r
def keyP (r : Nat) : Nat := 64 + r
def keyV (r c : Nat) : Nat := 128 + 8 * r + c
def keyW (j : Nat) : Nat := 1024 + j

namespace Core
variable (k : Core)
/-- s r, of 64 bits; s0 reads as zero (R37, R50). A register nothing has written since dispatch is unspecified (R345), 0 at reset. -/
def sreg (r : Nat) : W64 :=
  if r = 0 then 0 else match tget k.s r with
    | some v => v
    | none => if k.seed = 0 then 0 else Config.freeWord k.seed r
/-- p r, of 128 lanes; p0 reads as one in every lane (R37, R50). -/
def preg (r : Nat) : Pred :=
  if r = 0 then BitVec.allOnes 128 else match tget k.p r with
    | some v => v
    | none => if k.seed = 0 then 0 else Config.freePred k.seed r
/-- v r of cluster c, 16 lanes of 32 bits (R50, R208). -/
def vreg (r c : Nat) : Row := match tget k.v (8 * r + c) with
    | some v => v
    | none => if k.seed = 0 then 0 else Config.freeRow k.seed (8 * r + c)
/-- PWP segment j: lo in bits 31 to 0, then c0 to c3 (R236). -/
def segment (j : Nat) : BitVec 160 := tgetD k.pwp j 0
/-- lc.k (R220). -/
def lcount (j : Nat) : W32 := tgetD k.lc j 0
/-- Bit 0 of a predicate (R209). -/
def ptest (r : Nat) : Bool := (k.preg r).getLsbD 0
end Core

/-- The 16 lane bits of a cluster widened to the 512 bits of its row. -/
def laneMask (lanes : Pred) (c : Nat) : Nat → Row
  | 0 => 0
  | l + 1 => (if lanes.getLsbD (16 * c + l) then (BitVec.ofNat 512 (2 ^ 32 - 1)) <<< (32 * l) else 0) ||| laneMask lanes c l

/-- Lane l of a row (R163). -/
def lane (x : Row) (l : Nat) : W32 := x.extractLsb' (32 * l) 32
/-- A row from its lanes. -/
def rowOf (f : Nat → W32) : Nat → Row
  | 0 => 0
  | l + 1 => ((f l).zeroExtend 512 <<< (32 * l)) ||| rowOf f l

/-- The register keys a payload writes. -/
def Payload.keys : Payload → List Nat
  | .scalar r _ => [keyS r]
  | .pred r _ _ => [keyP r]
  | .vec r rows cs n _ _ => (List.range rows).flatMap fun i => (List.range n).map fun j => keyV (r + i) (cs + j)
  | .pwp j rows _ n _ _ => (List.range (2 * rows * n)).map fun i => keyW (j + i)

/-- Write one register-cluster of a block in the lanes it changes. -/
def Core.putRow (k : Core) (r c : Nat) (lanes : Pred) (x : Row) : Core :=
  let m := laneMask lanes c 16
  { k with v := tset k.v (8 * r + c) ((k.vreg r c &&& ~~~m) ||| (x &&& m)) }

/-- Write a payload into the registers, but for the keys in `skip` (writes that R30 discards). s0 and p0 discard (R37). -/
def Core.land (k : Core) (skip : List Nat) : Payload → Core
  | .scalar r v => if r = 0 || skip.contains (keyS r) then k else { k with s := tset k.s r v }
  | .pred r lanes b =>
    if r = 0 || skip.contains (keyP r) then k
    else { k with p := tset k.p r ((k.preg r &&& ~~~lanes) ||| (b &&& lanes)) }
  | .vec r rows cs n lanes data =>
    (List.range (rows * n)).foldl (fun k q =>
      let rr := r + q / n; let c := cs + q % n
      if skip.contains (keyV rr c) then k else k.putRow rr c lanes (data.getD q 0)) k
  | .pwp j rows cs n lanes data =>
    (List.range (2 * rows * n)).foldl (fun k q =>
      if skip.contains (keyW (j + q)) then k
      else
        let m := (laneMask lanes (cs + q / 2 % n) 16).extractLsb' (256 * (q % 2)) 160
        { k with pwp := tput 0 k.pwp (j + q) ((k.segment (j + q) &&& ~~~m) ||| ((data.getD (q / 2) 0).extractLsb' (256 * (q % 2)) 160 &&& m)) }) k

/-- R30, R31: issue a fixed-latency write of the current bundle, readable `lat` scheduled clocks after its issue. -/
def Core.push (k : Core) (slot lat : Nat) (w : Payload) : Core :=
  { k with flight := k.flight ++ [⟨k.sched + lat, k.seq, k.bid, false, slot, w⟩], seq := k.seq + 1 }
def State.push (s : State) (slot lat : Nat) (w : Payload) : State := s.setMe (s.me.push slot lat w)
/-- A scalar result of latency `lat` (R30, R43). -/
def State.pushS (s : State) (slot lat r : Nat) (v : W64) : State := s.push slot lat (.scalar r v)

/-- The in-flight writes whose latency has elapsed, in issue order, then the rest. -/
def dueFirst (sched : Nat) (fl : List Flight) : List Flight × List Flight :=
  (fl.filter (fun f => decide (f.due ≤ sched)), fl.filter (fun f => decide (sched < f.due)))

/-- Land one write: a register on which a later-issued write has landed keeps that value (R30), unless ERET restored the
write (R372). DEDUCED: assumption 8. -/
def Core.landFlight (k : Core) (f : Flight) : Core :=
  let skip := if f.keep then [] else f.w.keys.filter (fun q => match tget k.landed q with | some n => decide (f.seq < n) | none => false)
  let k := k.land skip f.w
  { k with landed := f.w.keys.foldl (fun t q => if skip.contains q then t else tset t q f.seq) k.landed }

/-- Land an interlocked value (R32): a fixed-latency write that issued before it and is still in flight is discarded when it lands (R30). -/
def Core.landPend (k : Core) (seq : Nat) (w : Payload) : Core :=
  let k := k.land [] w
  if k.flight.isEmpty then k else { k with landed := w.keys.foldl (fun t q => tset t q seq) k.landed }

/-- REGISTER_WRITE_LANDS (R30): every write readable at the core's scheduled clock lands. -/
def Core.landDue (k : Core) : Core :=
  let (now, later) := dueFirst k.sched k.flight
  let k := now.foldl Core.landFlight { k with flight := later }
  { k with landed := if later.isEmpty then [] else k.landed }

/-- R32: mark an interlocked destination pending; `value` is known when memory was read at issue. -/
def State.pend (s : State) (keys : List Nat) (value : Option Payload) (lat : Nat) : Nat × State :=
  let id := s.nextId
  let s := { s with nextId := id + 1 }
  let k := s.me
  let s := s.setMe { k with pend := k.pend ++ [⟨id, keys, k.bid, k.seq, value⟩], seq := k.seq + 1 }
  (id, if value.isSome then s.schedule lat (.interlockedResultArrives s.cur id) else s)

/-! ### Streaming drains (R260, R267) -/

/-- The drain a core has in flight, running or held in its trap buffer (R260, R364). -/
def Core.anyDrain (k : Core) : Option Drain := match k.drain with
  | some d => if 0 < d.left then some d else k.buffer.drain
  | none => k.buffer.drain
def Core.drains (k : Core) : Bool := match k.anyDrain with | some d => decide (0 < d.left) | none => false
/-- The scheduled clock of a core in clock `clk`: that of its next bundle, less the clocks until it (R29). -/
def Core.schedAt (k : Core) (clk : Nat) : Nat := k.sched - (k.nextClk - clk)
/-- Whether a drain of a core streams a bank in clock `clk`: the rows before the core's scheduled clock have left (R260). A drain that is held in
the trap buffer, with its core or saved, stands still. -/
def Core.streams (k : Core) (clk b : Nat) : Bool :=
  (match k.drain with | some d => d.bank == b && decide (k.schedAt clk < d.due + d.left) | none => false)
  || (match k.buffer.drain with | some d => d.bank == b && decide (0 < d.left) | none => false)
/-- R267: while a stall waits for the core's own drain, its rows go on leaving, one per clock; so do those of a drain that its trap buffer holds. A
second slot of the bundle that waits so takes no second row. -/
def State.flowDrain (s : State) (c : Nat) : State :=
  let k := s.core c
  if s.issue == .held then s
  else match k.drain with
  | none => match k.buffer.drain with
    | none => s
    | some d => s.setCore c { k with buffer := { k.buffer with drain := if d.left ≤ 1 then none else some ⟨d.bank, d.row + 1, d.left - 1, d.due⟩ } }
  | some d => s.setCore c { k with drain := some { d with due := d.due - 1 } }

/-! ### Outcomes of a slot -/

/-- Note how the last slot went. -/
def State.mark (s : State) (v : Issue) : State := { s with issue := v }

/-- What an operation of a slot did: it issued, it raised a fault at issue, or its bundle is held. -/
inductive Res where
  | ok (s : State)
  | raise (f : FaultInfo)
  | hold (s : State)
  deriving DecidableEq, Repr

def fault (code : Nat) (sub : Nat := 0) (info : W64 := 0) : Res := .raise ⟨code, sub, info, 0⟩
/-- Fault codes of R362. -/
def illegalInstruction : Nat := 1
def privilege : Nat := 2
def stallCount : Nat := 3
def alignment : Nat := 4
def invalidOperand : Nat := 5
def translation : Nat := 6
def instructionAlignment : Nat := 7

/-! ### Units, partition halt and contained faults -/

/-- The record of R380, less the record index. -/
def record (code sub unit p index die flags : Nat) (where_ info : W64) (progress tag : Nat) (tiles : List Nat) (issuer aux : Nat)
    (beacon : W64) : List Byte :=
  leBytes 1 code ++ leBytes 1 sub ++ leBytes 1 unit ++ leBytes 1 p ++ leBytes 2 index ++ leBytes 1 die ++ leBytes 1 flags
  ++ leBytes 8 where_.toNat ++ leBytes 8 info.toNat ++ leBytes 4 progress ++ leBytes 4 tag
  ++ ((List.range 4).flatMap fun j => leBytes 4 (tiles.getD j 0)) ++ leBytes 4 issuer ++ leBytes 4 aux ++ leBytes 8 beacon.toNat

/-- The tile identifiers of s3 to s6 (R347). -/
def Core.tiles (k : Core) : List Nat :=
  (List.range 4).map fun j => let v := k.sreg (3 + j); if bits v 63 52 = 0x1C then bits v 51 20 else 0

/-- Queue a record on a die for the supervisor ring (R384). -/
def State.queueRecord (s : State) (d : Nat) (r : List Byte) (who : Option Party) : State :=
  let x := s.die d
  (s.setDie d { x with recs := x.recs ++ [(r, who)] }).schedule 1 (.svqRecordWrite d)

/-- R385: a contained fault holds its core; the record says which core, its bundle and the fault. -/
def State.containCore (s : State) (c code sub : Nat) (info : W64) (progress : Nat := 0) : State :=
  let k := s.core c
  let r := record code sub 0 k.part c (dieOfCore c) (4 + k.theld.toNat) k.pc info progress k.tag k.tiles 0xFFFFFFFF 0 s.beacon
  (s.setCore c { k with held := some (2 ^ 32) }).queueRecord (dieOfCore c) r (some (.core c k.part))

/-- Units of R379 by kind (R380) and index, with their die: cores and quads by number, engines as 64 × die + engine. -/
def unitDie (u : Nat × Nat) : Nat :=
  if u.1 = 0 then dieOfCore u.2 else if u.1 ≤ 2 then dieOfQuad u.2 else if u.1 = 7 then 2 + u.2 / 64 else u.2 / 64

/-- The units of a die that a saved context had work on (R390). -/
def Saved.units (v : Saved) (d : Nat) : List (Nat × Nat) :=
  (0, v.core) :: ((if v.copies.any fun m => !m.2.done then [(1, v.core / 4)] else []) ++ (if v.arr.mat.isEmpty then [] else [(2, v.core / 4)])
    ++ (v.att.map fun a => (if a.1 < 16 then 4 else 3, 64 * d + a.1)) ++ if v.rte.isEmpty then [] else [(5, 64 * d)])
/-- The units of the package that work for a partition. -/
def State.liveUnits (s : State) (p : Nat) : List (Nat × Nat) :=
  let all : List (Nat × Nat) := ((s.cores.filter fun e => match e.2.task with | some t => t.part == p | none => false).map fun e => (0, e.1))
  ++ ((s.quads.filter fun e => e.2.chans.any fun h => h.2.any fun m => m.part == p && !m.done).map fun e => (1, e.1))
  ++ ((s.quads.filter fun e => e.2.arr.queue.any fun m => m.part == p).map fun e => (2, e.1))
  ++ (s.dies.flatMap fun e => (e.2.att.filter fun a => a.2.any fun m => m.part == p).map fun a => (if a.1 < 16 then 4 else 3, 64 * e.1 + a.1))
  ++ ((s.dies.filter fun e => e.2.rte.any fun m => m.part == p).map fun e => (5, 64 * e.1))
  ++ (s.dies.flatMap fun e => e.2.tiles.filterMap fun t => if t.2.part == p then (match t.2.send with
      | some r => if r.landed then none else some (6, 64 * dieOfCore r.core)
      | none => none) else none)
  ++ (s.reqs.filterMap fun e => match e.2 with | .bind c q _ _ _ _ => if q = p then some (6, 64 * dieOfCore c) else none | _ => none)
  ++ ((s.dies.filter fun e => e.1 ≥ 2 && e.2.flash.slots.any fun t => t.2.part == p && decide (t.2.done.length < t.2.units)).map fun e => (7, 64 * (e.1 - 2)))
  all.eraseDups
/-- The units of the package that hold work of a partition, have saved it, or have met a fault of it (R379, R390). -/
def State.unitsOf (s : State) (p : Nat) : List (Nat × Nat) :=
  let all : List (Nat × Nat) := s.liveUnits p ++ (s.dies.flatMap fun e => (e.2.saved.filter fun v => v.part == p).flatMap fun v => v.units e.1)
    ++ ((s.part p).unitFault.filter fun e => e.1 != 8).map fun e => (e.1, e.2.1)
  all.eraseDups

/-- R379: a class-P fault or a HALT asserts the halt line of partition p; code, sub and die become those of the closing
record if it is the first, or comes in the clock of the first from a lower die (R380). DEDUCED: assumption 98. -/
def State.assertHalt (s : State) (p code sub d : Nat) : State :=
  let x := s.part p
  let us := s.unitsOf p
  if x.pstate = 0 ∨ x.pstate = 3 then
    let s := s.setPart p { x with pstate := 1, halt := some ⟨code, sub, d, s.clk, us, [], false⟩ }
    let s := us.foldl (fun s u => s.schedule 120 (.haltLineArrives p u.1 u.2)) s
    if us.isEmpty then s.schedule 120 (.halted p) else s
  else match x.halt with
    | some h => if h.clk = s.clk ∧ d < h.die then s.setPart p { x with halt := some { h with code := code, sub := sub, die := d } } else s
    | none => s

/-- A class-P fault of a unit: its own first fault is kept for its stop record, and the line asserts. A partition that is halted, or torn down
with no work, has no unit that could stop. -/
def State.unitHalt (s : State) (p kind ix : Nat) (f : FaultInfo) (m : CmdInfo := ⟨0, 0, 0xFFFFFFFF, 0, 0⟩) : State :=
  let x := s.part p
  if x.pstate = 2 ∨ (x.pstate = 3 ∧ (s.unitsOf p).isEmpty) then s
  else
    let known := x.unitFault.any fun e => e.1 == kind && e.2.1 == ix
    let s := if known then s else s.setPart p { x with unitFault := x.unitFault ++ [(kind, ix, f, m)] }
    s.assertHalt p f.code f.sub (unitDie (kind, ix))

/-- A class-P fault of a core: it stops at that boundary. -/
def State.coreHalt (s : State) (c : Nat) (f : FaultInfo) : State :=
  let k := s.core c
  (s.setCore c { k with stopped := true }).unitHalt k.part 0 c f

/-! ### Taking a trap and returning from one -/

/-- Whether R30 discards a write on a register key: a write that issued after it has landed there, or lands there no later, among the
writes in flight. -/
def superseded (landed : Tbl Nat) (fl : List Flight) (f : Flight) (q : Nat) : Bool :=
  !f.keep && ((match tget landed q with | some n => decide (f.seq < n) | none => false)
    || fl.any fun g => decide (f.seq < g.seq) && decide (g.due ≤ f.due) && g.w.keys.contains q)
/-- The core n scheduled clocks on, with the writes landed that become readable by then. -/
def Core.after (k : Core) : Nat → Core
  | 0 => k
  | n + 1 => { k.after n with sched := k.sched + n + 1 }.landDue
/-- A block write whose registers of some keys hold what a core's hold. -/
def Payload.patch (k : Core) (gone : List Nat) : Payload → Payload
  | .vec r rows cs n lanes data =>
    .vec r rows cs n lanes ((List.range (rows * n)).map fun i =>
      if gone.contains (keyV (r + i / n) (cs + i % n)) then k.vreg (r + i / n) (cs + i % n) else data.getD i 0)
  | .pwp j rows cs n lanes data =>
    let half (i h : Nat) (x : Row) : Row :=
      if gone.contains (keyW (j + 2 * i + h)) then
        (x &&& ~~~(((BitVec.allOnes 160).zeroExtend 512) <<< (256 * h))) ||| ((k.segment (j + 2 * i + h)).zeroExtend 512 <<< (256 * h))
      else x
    .pwp j rows cs n lanes ((List.range (rows * n)).map fun i => half i 1 (half i 0 (data.getD i 0)))
  | w => w
/-- What a snapshot at scheduled clock t holds of a write in flight: nothing of one that R30 discards, else one entry (R368). A block of which R30
discards some registers holds for these the value that they have when it lands, so that its landing leaves them as it would have (R33).
DEDUCED: assumption 8. -/
def survives (k : Core) (t : Nat) (f : Flight) : List Flight :=
  let gone := f.w.keys.filter (superseded k.landed k.flight f)
  if gone.isEmpty then [f]
  else if f.w.keys.all gone.contains then []
  else [{ f with w := f.w.patch ({ k with sched := t }.after (f.due - t)) gone }]

/-- The in-flight writes of a core with their remaining scheduled clocks, counted from scheduled clock t (R364); a write that R30 discards is
none of them, so that the trap does not change what a read returns (R33). -/
def remaining (k : Core) (t : Nat) : List Flight :=
  ((k.flight.filter fun f => decide (t < f.due)).flatMap (survives k t)).map fun f => { f with due := f.due - t }

/-- R364: enter the trap handler of the current core. `epc` is TEPC and `t` the scheduled clock of the bundle that would
issue at it. The loop buffer is empty from here on (R220). DESIGN CHOICE: assumption 168. -/
def State.trapTo (s : State) (f : FaultInfo) (epc : W64) (t : Nat) : State :=
  let k := s.me
  let p := s.part k.part
  let k := { k with
    buffer := ⟨remaining k t, k.loops, k.drain.map fun d => { d with due := d.due - t }, some k.lc⟩
    flight := k.flight.filter fun w => decide (w.due ≤ t)
    loops := [], lbuf := [], drain := none, theld := true
    tcause := BitVec.ofNat 64 (f.slot * 65536 + f.sub * 256 + f.code)
    tinfo := f.info, tepc := epc
    pc := BitVec.ofNat 64 (bits p.tvec 63 4 * 16), jumped := true, nextClk := s.clk + 4, sched := t + 4 }
  s.setMe k

/-- R364, R366: deliver a class-T fault of the current core, or what stands in its place: a double fault while TSTAT.held is
1, a partition fault while TVEC.p.valid is 0. -/
def State.trap (s : State) (f : FaultInfo) (epc : W64) (t : Nat) : State :=
  let k := s.me
  let p := s.part k.part
  if k.theld then (s.setPart k.part { p with dbl := true }).coreHalt s.cur ⟨21, f.code, f.info, f.slot⟩
  else if !bit p.tvec 0 then s.coreHalt s.cur f
  else s.trapTo f epc t

/-- HBMERR.d.uncorrectable counts a word that ECC could not correct (R386). DESIGN CHOICE: assumption 46. -/
def State.countEcc (s : State) (f : FaultInfo) : State :=
  if f.code = 33 then
    let d := hbmDie f.info.toNat
    let x := s.die d
    s.setDie d { x with errUncorrectable := if x.errUncorrectable = 0xFFFF then x.errUncorrectable else x.errUncorrectable + 1 }
  else s

/-- A fault that a bundle of the current core meets at issue, by its class (R362). -/
def State.takeFault (s : State) (f : FaultInfo) : State :=
  if f.code ≤ 14 then s.trap f s.me.pc s.me.sched
  else if f.code < 32 then s.coreHalt s.cur f
  else (s.countEcc f).containCore s.cur f.code f.sub f.info

/-- The loops a branch target or a slot leaves: R222 keeps the loops whose body holds the target and whose last bundle is not
the branch. -/
def loopsAfter (ls : List Loop) (pc target : W64) : List Loop :=
  ls.filter fun l => l.last != pc && decide (l.first.toNat ≤ target.toNat) && decide (target.toNat ≤ l.last.toNat)

/-- R219, R222, R29: a taken branch of the current bundle. -/
def State.branch (s : State) (target : W64) : State :=
  let k := s.me
  s.setMe { k with pc := target, jumped := true, extra := k.extra + 2, loops := loopsAfter k.loops k.pc target }

/-- R221: the loops that end on the bundle at `pc`, innermost first; the answer is the next bundle. -/
def endLoops (pc : W64) : List Loop → Tbl W32 → List Loop × Tbl W32 × W64
  | [], lc => ([], lc, pc + 16)
  | l :: t, lc =>
    if l.last = pc then
      if (tgetD lc l.k 0).toNat ≤ 1 then endLoops pc t (tput 0 lc l.k 0)
      else (l :: t, tput 0 lc l.k (tgetD lc l.k 0 - 1), l.first)
    else
      let (t', lc', n) := endLoops pc t lc
      (l :: t', lc', n)

/-- LOOP_END (R221): the bundle of the current core has issued without a taken branch; its next bundle. -/
def Core.advance (k : Core) : Core :=
  let (ls, lc, n) := endLoops k.pc k.loops k.lc
  { k with loops := ls, lc := lc, pc := n, lbuf := if ls.isEmpty then [] else k.lbuf, jumped := true }

/-- R372: the writes ERET restores are readable r scheduled clocks after the issue of the bundle at its target, count as issued
after every write of the handler and are never discarded. -/
def restoreWrites (t seq : Nat) (ws : List Flight) : List Flight := ws.map fun f => { f with due := t + f.due, seq := seq, keep := true }

/-- R372: resume at `target` from a source of in-flight work; the next bundle issues 2 scheduled clocks later than the stall
count `st` alone would allow (R29). -/
def State.eretTo (s : State) (target : W64) (src : Buffer) (st : Nat) : State :=
  let k := s.me
  let t := k.sched + 1 + st + 2
  s.setMe { k with
    flight := k.flight ++ restoreWrites t (k.seq + 1) src.writes, seq := k.seq + 2
    loops := src.loops, lc := src.lc.getD k.lc, drain := src.drain.map (fun d => { d with due := t + 6 })
    theld := false, buffer := ⟨[], [], none, none⟩, pc := target, jumped := true, extra := k.extra + 2 }

end Sys2Proof.Machine
end

