-- ==== Sys2Proof/Machine/HostRegs.lean ====
section
/-! DEFINITION. The host register block (R395 to R399, R403, R404, R407): what an offset reads and what a write does, by the host
(R394) or the supervisor through IOD.0's aperture. -/
namespace Sys2Proof.Machine

/-! ### The block as it reads (R395) -/

def State.devstat (s : State) : Nat := s.devError * 256 + s.devStage * 16 + s.ready.toNat
def State.lcredit (s : State) : Nat := s.lcOverrun.toNat * 128 + if s.ready then 64 - s.packets.length else 0
def State.mboxstat (s : State) : Nat := s.mboxDetail.toNat * 2 ^ 32 + s.mboxOp * 256 + s.mboxOverrun.toNat * 4 + s.mboxState
/-- The 64-bit register at an offset; every other offset reads 0. -/
def State.hostWord (s : State) (off : Nat) : Nat :=
  if off = 0 then s.devstat
  else if off = 8 then s.lcredit
  else if off = 0x10 then s.poolbase.toNat
  else if off = 0x40 then s.keepcfg.toNat
  else if off = 0x48 then s.throttled.toNat * 2 ^ 32 + s.windows.toNat
  else if off = 0x80 then s.podSize * 256 + s.podIndex
  else if off = 0x88 then s.podMiss.toNat
  else if off = 0x140 then s.mboxstat
  else 0
def hostRegRead (s : State) (off n : Nat) : List Byte :=
  (List.range n).map fun i => BitVec.ofNat 8 (s.hostWord ((off + i) / 8 * 8) / 256 ^ ((off + i) % 8))

/-! ### Writes -/

/-- The event of the launch packet at the head of the queue, by its kind (R336); a reserved kind is refused as a launch is. -/
def packetEvent (p : List Byte) : Instr :=
  match field p 0 1 with
  | 1 => .installTemplate
  | 3 => .removeTemplate
  | 4 => .tearDownPartition
  | _ => .launchTasks

/-- LAUNCH_WINDOW_WRITE (R397). -/
def State.windowWrite (s : State) (off : Nat) (b : List Byte) : State :=
  if b.length ≠ 64 ∨ off % 64 ≠ 0 then s
  else if !s.ready || decide (64 ≤ s.packets.length) then { s with lcOverrun := true }
  else
    let s' := { s with packets := s.packets ++ [b] }
    if s.packets.isEmpty then s'.schedule 1 (packetEvent b) else s'

/-- KEEPCFG (R403): limits stored for the next window. -/
def State.keepcfgSet (s : State) (v : W64) : State :=
  let limit := max 1000 (min 5400 (bits v 28 16))
  let pct := min 100 (bits v 15 8)
  { s with keepNext := some (BitVec.ofNat 64 (limit * 65536 + pct * 256)) }

/-- Whether any partition has a task inserted (R399). -/
def State.anyInserted (s : State) : Bool := s.parts.any fun e => !e.2.ring.isEmpty
/-- POOLBASE (R399). -/
def State.poolbaseSet (s : State) (v : W64) : State :=
  if s.anyInserted then s else { s with poolbase := BitVec.ofNat 64 (bits v 63 34 * 2 ^ 34) }

/-- The mailbox (R404): a command takes effect when one 64-byte write covers it. -/
def State.mailbox (s : State) (b : List Byte) : State :=
  let op := field b 0 1
  if s.mboxState = 1 then { s with mboxOverrun := true }
  else if !s.ready && !(op == 4 && s.devError == 1) then s
  else
    let a (i : Nat) : W64 := BitVec.ofNat 64 (field b (8 + 8 * i) 8)
    let s' := { s with mboxOp := op }
    if op = 0 ∨ 4 < op ∨ !zeros b 1 7 then { s' with mboxState := 3, mboxDetail := 1 }
    else
      let ev : Instr := match op with
        | 1 => .pod (a 0) (a 1) (a 2) (a 3)
        | 2 => .loadw (a 0) (a 1) (a 2) (a 3) (a 4) (a 5)
        | 3 => .attest (a 0) (a 1)
        | _ => .fwstage (a 0) (a 1)
      { s' with mboxState := 1, mboxDetail := 0, mboxNext := some ev }.schedule 1 ev

/-- The register at offset r as a write of bytes at offset `off` makes it: the bytes that the write covers, the others of `old`. -/
def overlay (old off : Nat) (b : List Byte) (r : Nat) : W64 :=
  BitVec.ofNat 64 (leNat ((List.range 8).map fun i => if off ≤ r + i ∧ r + i < off + b.length then b.getD (r + i - off) 0 else BitVec.ofNat 8 (old / 256 ^ i)))
/-- A write that covers bytes of the register at offset r: W1C clears what is written 1, RW takes the written bytes. -/
def State.hostReg (s : State) (off : Nat) (b : List Byte) (r : Nat) : State :=
  if r + 8 ≤ off ∨ off + b.length ≤ r then s
  else if r = 8 then { s with lcOverrun := s.lcOverrun && !bit (overlay 0 off b r) 7 }
  else if r = 0x10 then s.poolbaseSet (overlay s.poolbase.toNat off b r)
  else if r = 0x40 then s.keepcfgSet (overlay (s.keepNext.getD s.keepcfg).toNat off b r)
  else if r = 0x48 then { s with throttled := 0, windows := 0 }
  else { s with mboxOverrun := s.mboxOverrun && !bit (overlay 0 off b r) 2 }
/-- A write of the host or the supervisor to the block (R395): the launch window, the mailbox, or every register it covers. -/
def State.hostWrite (s : State) (off : Nat) (b : List Byte) : State :=
  if 0x1000 ≤ off ∧ off < 0x2000 then s.windowWrite off b
  else if off = 0x100 ∧ b.length = 64 then s.mailbox b
  else [8, 0x10, 0x40, 0x48, 0x140].foldl (fun s r => s.hostReg off b r) s

end Sys2Proof.Machine
end

