-- ==== Sys2Proof/Machine/Memory.lean ====
section
/-! DEFINITION. Addresses: the physical map (R99), page tables (R100, R101), checks (R102), windows (R98, R112, R153, R158, R170),
publish pairs (R146), TLBs and walks (R104, R105), and reading and writing the bytes at a place. -/
namespace Sys2Proof.Machine

/-! ### The physical map -/

/-- The region of R99 a physical address lies in: 0 HBM, 1 scratchpads, 2 host registers, 3 pooled tier. -/
def regionOf (pa : Nat) : Option Nat :=
  if pa < 2 ^ 40 then some 0
  else if pa < 2 ^ 40 + 8 * 2 ^ 32 then
    let d := (pa - 2 ^ 40) / 2 ^ 32
    let o := pa % 2 ^ 32
    if d < 6 then (if o / 2 ^ 20 < 4 * quadsOf d ∧ o % 2 ^ 20 < 786432 then some 1 else none)
    else if d = 6 ∧ o < 65536 then some 2 else none
  else if 2 ^ 51 ≤ pa ∧ pa < 2 ^ 52 then some 3 else none

/-- Whether every frame of a leaf's page lies in one region (R99). A page of more than 4 KiB lies in HBM or the pooled tier. -/
def pageRegion (pa lg : Nat) : Option Nat :=
  if lg = 12 then (match regionOf pa, regionOf (pa + 4095) with | some a, some b => if a = b then some a else none | _, _ => none)
  else if pa + 2 ^ lg ≤ 2 ^ 40 then some 0
  else if 2 ^ 51 ≤ pa ∧ pa + 2 ^ lg ≤ 2 ^ 52 then some 3 else none

/-! ### Page-table entries (R100) -/

def pteFmt (e : W64) : Nat := bits e 63 59
def pteBaxis (e : W64) : Nat := bits e 58 57
def pteLpack (e : W64) : Bool := bit e 56
def pteShared (e : W64) : Bool := bit e 53
def ptePub (e : W64) : Bool := bit e 52
def ptePa (e : W64) : Nat := bits e 51 12 * 4096
def pteSize (e : W64) : Nat := bits e 8 7
def pteMig (e : W64) : Bool := bit e 6
def pteX (e : W64) : Bool := bit e 4
def pteW (e : W64) : Bool := bit e 3
def pteR (e : W64) : Bool := bit e 2
def pteSup (e : W64) : Bool := bit e 1
def pteV (e : W64) : Bool := bit e 0

/-- Sub-causes of R363. -/
def nonCanonical : Nat := 1
def notMapped : Nat := 2
def permission : Nat := 3
def supervisorPage : Nat := 4
def sharedPage : Nat := 5
def tierCause : Nat := 6
def malformed : Nat := 7
def publishCause : Nat := 8
def quadCause : Nat := 9
def windowRange : Nat := 10
def formatCause : Nat := 16
def tileCause : Nat := 17

/-- R101: a leaf of page size 2^lg that is malformed. -/
def leafBad (e : W64) (lg : Nat) : Bool :=
  bits e 55 54 != 0 || bits e 11 9 != 0 || bit e 5 || decide (2 ≤ pteBaxis e)
  || (decide (26 ≤ pteFmt e) && pteFmt e != 31)
  || ptePa e % 2 ^ lg != 0
  || (match pageRegion (ptePa e) lg with
      | none => true
      | some g => (pteShared e && (lg != 12 || g != 0)) || (pteX e && g != 0))

/-- R101: a non-leaf entry that is malformed. -/
def tableBad (e : W64) : Bool :=
  bits e 55 54 != 0 || bits e 11 9 != 0 || bit e 5 || bits e 63 59 != 0 || bits e 58 57 != 0 || pteLpack e || pteShared e || ptePub e
  || pteMig e || pteX e || pteW e || pteR e || pteSup e || decide (2 ^ 40 ≤ ptePa e)

/-- Whether bytes of a range lie in a word of a list of 32-byte words. -/
def inWords (ws : List Nat) (pa n : Nat) : Bool := ws.any fun w => decide (w < pa + n) && decide (pa < w + 32)

/-- What a walk finds (R101): a leaf, its page size and the address of its entry; the fault's cause; or an entry in an uncorrectable word, by
its frame (R119). -/
inductive Walk where
  | leaf (e : W64) (lg at_ : Nat)
  | fail (cause : Nat)
  | ecc (frame : Nat)
  deriving DecidableEq, Repr

/-- Address of the entry that a walk of va reads at level lvl + 1. -/
def entryAt (va lvl table : Nat) : Nat := table + 8 * (va / 2 ^ (12 + 9 * lvl) % 512)
/-- R101: the walk from a table at level `fuel` (5 down to 1), reading every entry from its home (R320). -/
def walkFrom (mem : Tbl Byte) (bad : List Nat) (va : Nat) : Nat → Nat → Walk
  | 0, _ => .fail malformed
  | lvl + 1, table =>
    if 2 ^ 40 ≤ table then .fail malformed else
    let at_ := entryAt va lvl table
    if inWords bad at_ 8 then .ecc (at_ / 4096 * 4096) else
    let e : W64 := BitVec.ofNat 64 (leNat (memRead mem at_ 8))
    if !pteV e then .fail notMapped
    else if pteSize e = 3 then
      if lvl = 0 || tableBad e then .fail malformed else walkFrom mem bad va lvl (ptePa e)
    else if pteSize e ≠ lvl || decide (2 < lvl) then .fail malformed
    else if leafBad e (12 + 9 * lvl) then .fail malformed
    else .leaf e (12 + 9 * lvl) at_

/-- Physical address of a partition's top table (R97). -/
def Part.root (p : Part) : Nat := bits p.ttbase 51 12 * 4096
/-- The walk of partition p for an address (R97, R101). -/
def State.walk (s : State) (p va : Nat) : Walk :=
  if !bit (s.part p).ttbase 0 then .fail notMapped else walkFrom s.mem s.badWords va 5 (s.part p).root

/-- The levels that a walk reads: the level, its table, whether its entry leads to the next. -/
def walkLevels (mem : Tbl Byte) (va : Nat) : Nat → Nat → List (Nat × Nat × Bool)
  | 0, _ => []
  | lvl + 1, table =>
    let e : W64 := BitVec.ofNat 64 (leNat (memRead mem (entryAt va lvl table) 8))
    let on := decide (table < 2 ^ 40) && pteV e && pteSize e == 3 && lvl != 0 && !tableBad e
    (lvl + 1, table, on) :: if on then walkLevels mem va lvl (ptePa e) else []
/-- The name under which the walk cache holds an entry: partition, level, the part of the address that selects it. -/
def cacheKey (p va lvl : Nat) : Nat × Nat × Nat := (p, lvl, va / 2 ^ (3 + 9 * lvl))

/-! ### Places -/

/-- Where a byte lives. -/
inductive Place where
  /-- HBM, a scratchpad or the pooled tier, by physical address (R99). -/
  | phys (pa : Nat)
  /-- The host register block (R395). -/
  | host (off : Nat)
  /-- A Kennel tile (R170): die, slot, generation, offset. -/
  | tile (d ix gen off : Nat)
  /-- The HBF window of an ED (R98). -/
  | flash (e off : Nat)
  deriving DecidableEq, Repr

/-- What an access is (R102). -/
inductive Acc where
  | fetch
  | load
  | tld
  /-- A source of a copy or another engine read; `hbf`: it may name an HBF window (R98, R126). -/
  | src (hbf : Bool)
  | store
  /-- A destination of a copy or another engine write; `shadow`: a shadow write (R146). -/
  | dst (shadow : Bool)
  /-- The destination that a compare reads (R139), or the destination range HREAD translates. -/
  | atomic
  | cowst
  | twr
  deriving DecidableEq, Repr

def Acc.writes : Acc → Bool
  | .store => true
  | .dst _ => true
  | .atomic => true
  | .cowst => true
  | .twr => true
  | .fetch => false
  | .load => false
  | .tld => false
  | .src _ => false

/-- Who accesses: a core's position, its partition, and what its task sees; `direct`: the walk is part of the access, without a TLB. -/
structure Ctx where
  core : Nat
  part : Nat
  sup : Bool
  coop : Bool
  priv : Nat
  direct : Bool
  deriving DecidableEq, Repr

def State.ctx (s : State) : Ctx := ⟨s.cur, s.myPart, s.isSup, s.me.coop, s.me.priv, false⟩
/-- An engine command acts for its core (R311). -/
def State.ctxOf (s : State) (core part priv : Nat) (coop : Bool) : Ctx := ⟨core, part, part == s.svPart, coop, priv, false⟩

/-- What a translation gives: the place and the leaf (0xF8… raw for the windows); a fault's cause; a TLB miss on a page; a
page under migration; a row table in a tile that may not be read (R178), or a table in an uncorrectable word or flash page (R119, R69). -/
inductive Trans where
  | at_ (p : Place) (leaf : W64)
  | fail (cause : Nat)
  | miss (vpn : Nat)
  | migrating
  | bad
  | ecc (code info e : Nat)
  deriving DecidableEq, Repr

/-- The leaf word of a raw byte with every right. -/
def rawLeaf : W64 := 0xF80000000000000D

/-- R102: the leaf's checks, in the order of the table. -/
def leafCheck (e : W64) (x : Ctx) (a : Acc) : Option Nat :=
  let region := regionOf (ptePa e)
  if (match a with
      | .fetch => !pteX e
      | .load => !pteR e
      | .tld => !pteR e
      | .src _ => !pteR e
      | .store => !pteW e
      | .dst _ => !pteW e
      | .atomic => !pteW e
      | .cowst => !pteW e
      | .twr => true) then some permission
  else if pteSup e && !x.sup then some supervisorPage
  else if pteShared e && a.writes && a != .cowst then some sharedPage
  else if (a == .atomic || a == .cowst) && region != some 0 then some tierCause
  else none

/-- The first TLB entry of a partition that covers a page (R104). -/
def tlbFind (t : List TlbEnt) (p vpn : Nat) : Option TlbEnt :=
  t.find? fun e => e.part == p && e.vpn == vpn / 2 ^ e.lg

/-- R104: the quad's TLB, then the die's. -/
def State.tlb (s : State) (core p vpn : Nat) : Option TlbEnt :=
  match tlbFind (s.quad (core / 4)).tlb p vpn with
  | some e => some e
  | none => tlbFind (s.die (dieOfCore core)).tlb p vpn

/-- The address under which memory holds a physical address: a pooled one by its fabric address (R399). DESIGN CHOICE: assumption 128. -/
def State.fabric (s : State) (pa : Nat) : Nat := if 2 ^ 51 ≤ pa then pa + bits s.poolbase 63 34 * 2 ^ 30 else pa
/-- Fixed windows (R153). -/
def hbfBase : Nat := 0x01F0000000000000
def fixedBase : Nat := 0x01E0000000000000
def kennelBase : Nat := 0x01C0000000000000
def inKennel (va : Nat) : Bool := decide (kennelBase ≤ va) && decide (va < kennelBase + 2 ^ 52)
def inHbf (va : Nat) : Bool := decide (hbfBase ≤ va) && decide (va < hbfBase + 4 * 2 ^ 41)
def inFixed (va : Nat) : Bool := decide (fixedBase ≤ va) && decide (va < fixedBase + 2 ^ 52)
/-- Whether the page tables map no such address (R98, R153, R170). -/
def unmappable (va : Nat) : Bool := inKennel va || inHbf va || inFixed va

/-- R102, R146, R118: the access through a leaf of page size 2^lg. Bytes outside HBM and the pooled tier are raw (R160). -/
def State.throughLeaf (s : State) (x : Ctx) (a : Acc) (va : Nat) (inPair : Bool) (e : W64) (lg : Nat) : Trans :=
  let pa := ptePa e + va % 2 ^ lg
  match leafCheck e x a with
  | some c => .fail c
  | none =>
    if inPair != ptePub e then .fail publishCause
    else if pteMig e then .migrating
    else match regionOf pa with
      | some 2 => .at_ (.host (pa % 2 ^ 32)) rawLeaf
      | some 1 => .at_ (.phys pa) rawLeaf
      | _ => .at_ (.phys (s.fabric pa)) e

/-- R101, R102, R104, R118: translate through the page tables. The result of a remap window is in no pair. DEDUCED: assumption 9. -/
def State.viaTables (s : State) (x : Ctx) (a : Acc) (va : Nat) (inPair : Bool) : Trans :=
  if unmappable va then .fail notMapped
  else if x.direct then
    match s.walk x.part va with
    | .leaf e lg _ => s.throughLeaf x a va inPair e lg
    | .fail c => .fail c
    | .ecc f => .ecc 33 f 0
  else match s.tlb x.core x.part (va / 4096) with
  | some t => s.throughLeaf x a va inPair t.leaf (12 + t.lg)
  | none =>
    -- a walk that has ended for this core in a failure is raised when its bundle issues again (R105)
    match (s.core x.core).walked.find? (fun w => w.1 == va / 4096) with
    | some w => if w.2.1 = 0 then .ecc 33 w.2.2 0 else .fail w.2.1
    | none => .miss (va / 4096)

/-- The publish pair whose name range, or second range, holds an address (R146). -/
def Part.nameIn (p : Part) (va : Nat) : Option Pair :=
  (p.pairs.find? fun e => decide (e.2.nameVa.toNat ≤ va) && decide (va < e.2.nameVa.toNat + e.2.len)).map (·.2)
def Part.secondIn (p : Part) (va : Nat) : Bool :=
  p.pairs.any fun e => decide (e.2.secondVa.toNat ≤ va) && decide (va < e.2.secondVa.toNat + e.2.len)

/-- An address as the publish pairs of a partition send it (R146): the address the page tables translate, and whether it was in a pair. -/
def Part.paired (p : Part) (shadow : Bool) (va : Nat) : Option (Nat × Bool) :=
  match p.nameIn va with
  | some k => some (if k.sel != shadow then (BitVec.ofNat 64 va + (k.secondVa - k.nameVa)).toNat else va, true)
  | none => if shadow || p.secondIn va then none else some (va, false)
/-- R146, then R101 and R102. -/
def State.viaPairs (s : State) (x : Ctx) (a : Acc) (va : Nat) : Trans :=
  match (s.part x.part).paired (a == .dst true) va with
  | some w => s.viaTables x a w.1 w.2
  | none => .fail publishCause

/-- A scratchpad window (R154): raw; fetch faults, atomic and COWST fault tier. -/
def scratchAcc (a : Acc) (pa : Nat) : Trans :=
  match a with
  | .fetch => .fail permission
  | .atomic => .fail tierCause
  | .cowst => .fail tierCause
  | .twr => .fail permission
  | .load => .at_ (.phys pa) rawLeaf
  | .tld => .at_ (.phys pa) rawLeaf
  | .src _ => .at_ (.phys pa) rawLeaf
  | .store => .at_ (.phys pa) rawLeaf
  | .dst sh => if sh then .fail publishCause else .at_ (.phys pa) rawLeaf

/-- R153, R154, R158, R159: without an overflow area every access beyond the carve-out is not mapped. -/
def State.viaFixed (s : State) (x : Ctx) (a : Acc) (o : Nat) : Trans :=
  if o < 786432 then scratchAcc a (scratchPa x.core + o)
  else if 0x400000 ≤ o ∧ o < 0x800000 ∧ o % 2 ^ 20 < 786432 then
    if !x.coop then .fail quadCause
    else scratchAcc a (scratchPa (x.core / 4 * 4 + (o - 0x400000) / 2 ^ 20) + o % 2 ^ 20)
  else if 0x1000000 ≤ o ∧ o < 0x1100000 then
    let o := o - 0x1000000
    let ovf := (s.part x.part).ovf
    if o < x.priv then scratchAcc a (scratchPa x.core + (786432 - 4096 * cdiv x.priv 4096 + o))
    else if !bit ovf 0 then .fail notMapped
    else match scratchAcc a 0 with
      | .fail c => .fail c
      | _ =>
        let vb := bits ovf 63 20 * 2 ^ 20 + 2 ^ 20 * x.core + o
        if 2 ^ 57 ≤ vb then .fail nonCanonical
        else match s.viaTables x a vb false with
          | .at_ p _ => .at_ p rawLeaf
          | r => r
  else .fail notMapped

/-- R170: the tile a Kennel address names; its checks are those of the die, the partition and the offset. -/
def State.viaKennel (s : State) (x : Ctx) (a : Acc) (va : Nat) : Trans :=
  let w := BitVec.ofNat 64 va
  let d := bits w 51 49; let gen := bits w 48 37; let ix := bits w 36 20; let off := va % 2 ^ 20
  match a with
  | .fetch => .fail permission
  | .store => .fail permission
  | .atomic => .fail permission
  | .cowst => .fail permission
  | _ =>
    if 6 ≤ d then .fail notMapped
    else if a == .dst true then .fail publishCause
    else match tget (s.die d).tiles ix with
    | none => .at_ (.tile d ix gen off) rawLeaf
    | some t =>
      if t.gen ≠ gen then .at_ (.tile d ix gen off) rawLeaf
      else if t.part ≠ x.part then .fail permission
      else if 4096 * t.units ≤ off then .fail notMapped
      else .at_ (.tile d ix gen off) rawLeaf

/-- R98. A write to a window is a permission fault, that of a shadow copy too, whose other places are answered as any write's (R146).
DESIGN CHOICE: assumption 167. -/
def State.viaHbf (s : State) (x : Ctx) (a : Acc) (va : Nat) : Trans :=
  let o := (va - hbfBase) % 2 ^ 41
  if !bit (s.part x.part).ttbase 1 ∨ 1440 * 2 ^ 30 ≤ o then .fail permission
  else match a with
    | .load => .at_ (.flash ((va - hbfBase) / 2 ^ 41) o) rawLeaf
    | .src true => .at_ (.flash ((va - hbfBase) / 2 ^ 41) o) rawLeaf
    | _ => .fail permission

/-- The live remap window of the core's die and partition whose range holds an address (R112). -/
def State.windowAt (s : State) (x : Ctx) (va : Nat) : Option Window :=
  ((s.die (dieOfCore x.core)).wins.find? fun e =>
    e.1 / 16 == x.part && decide (e.2.winVa.toNat ≤ va) && decide (va < e.2.winVa.toNat + e.2.rows * e.2.rowBytes)).map (·.2)

/-- The order of R318: a member of a quad reads a byte from the store path, or else from its home. -/
def pathByte (path : List PathStore) (pa : Nat) (home : Byte) : Byte :=
  path.foldl (fun b st =>
    if st.tile = none ∧ st.addr ≤ pa ∧ pa < st.addr + st.bytes.length then st.bytes.getD (pa - st.addr) 0 else b) home
/-- The last write to a byte on its way from a quad, or the byte at its home. -/
def State.physByte (s : State) (q pa : Nat) : Byte := pathByte (s.quad q).path pa (tgetD s.mem pa 0)
/-- The writes of a path that core c sees: a write that stands behind a TWR of its core is performed after it (R167), so that until the TWR has
reached its tile that core alone sees it. -/
def seenBy (c : Nat) : List Nat → List PathStore → List PathStore
  | _, [] => []
  | behind, w :: t =>
    if w.eng = 0 ∧ w.tile.isSome then seenBy c (w.core :: behind) t
    else if w.eng = 0 ∧ w.core ≠ c ∧ behind.contains w.core then seenBy c behind t
    else w :: seenBy c behind t
/-- A byte as core c, or an engine of it, reads it (R318). -/
def State.seenByte (s : State) (c pa : Nat) : Byte := pathByte (seenBy c [] (s.quad (c / 4)).path) pa (tgetD s.mem pa 0)

/-! ### Bytes of tiles and flash -/

/-- A byte of a live tile; a byte nothing has written is unspecified (R174, R8). -/
def Tile.byte (t : Tile) (o : Nat) : Byte := match tget t.bytes o with
  | some b => b
  | none => Config.freeByte t.seed o
def Tile.write (t : Tile) : Nat → List Byte → Tile
  | _, [] => t
  | o, b :: r => Tile.write { t with bytes := tset t.bytes o b } (o + 1) r

/-- Free a tile slot (R171): the generation after 0xFFF is 1; the tile leaves its port at once (R303); waiting requests are
offered the units from the next clock (R175). A permit that is bound to a message goes with it (R299). DESIGN CHOICE: assumption 169. -/
def State.freeTile (s : State) (d ix : Nat) : State :=
  let x := s.die d
  match tget x.tiles ix with
  | none => s
  | some t =>
    let g := if t.gen = 0xFFF then 1 else t.gen + 1
    let s := s.setDie d { x with
      tiles := tdel x.tiles ix, gens := tput 1 x.gens ix g
      ports := (x.ports.map fun e => (e.1, e.2.filter (· != ix))).filter fun e => !e.2.isEmpty }
    if x.treqs.isEmpty then s else s.schedule 1 (.tallocGrant d)

/-- The live tile that an address names, not stale to it (R171). -/
def State.liveTile (s : State) (d ix gen : Nat) : Option Tile :=
  match tget (s.die d).tiles ix with
  | some t => if t.gen = gen then some t else none
  | none => none

/-- Logical page n of an ED maps to itself in the order of R64's data blocks until the layer moves it (R65). DESIGN CHOICE: assumption 15. -/
def Flash.phys (f : Flash) (lp : Nat) : Nat := tgetD f.map lp lp
/-- The data-class blocks of an ED: a group has three of them. A physical page is 256 × block + index; the parity block of group g stands
after all data blocks here, at allBlocks + g (R64). -/
def allBlocks : Nat := 393216
/-- The group of a block. -/
def groupOf (b : Nat) : Nat := if allBlocks ≤ b then b - allBlocks else b / 3
/-- The physical page that stands for the parity page of a stripe. -/
def parityOf (pp : Nat) : Nat := (allBlocks + groupOf (pp / 256)) * 256 + pp % 256
/-- The three other pages of a page's stripe (R64). -/
def stripeRest (pp : Nat) : List Nat :=
  (parityOf pp :: (List.range 3).map fun r => (3 * groupOf (pp / 256) + r) * 256 + pp % 256).filter (· != pp)
/-- Whether a page can be rebuilt: no other page of its stripe is uncorrectable (R74). -/
def Flash.rebuildable (f : Flash) (pp : Nat) : Bool := !(stripeRest pp).any f.bad.contains
/-- Whether a read of a physical page fails: it is uncorrectable, and is not served by parity (R69, R70). -/
def Flash.fails (f : Flash) (pp : Nat) : Bool := f.bad.contains pp && !(f.viaParity.contains pp && f.rebuildable pp)
/-- Whether a read of a logical page fails. -/
def Flash.isBad (f : Flash) (lp : Nat) : Bool := f.fails (f.phys lp)
def State.flashByte (s : State) (e off : Nat) : Byte := tgetD (s.die (2 + e)).flash.bytes off 0

/-! ### Reads at a place -/

/-- What a read at a place meets. -/
inductive Got where
  | bytes (b : List Byte)
  /-- A tile that a read may not read (R178): unsealed, count 0 or free. -/
  | tileBad
  /-- An uncorrectable HBM word (R119), or flash page (R69), by its address. -/
  | uncorrectable (code : Nat) (info : Nat)
  | host (off : Nat)
  deriving DecidableEq, Repr

/-- Read n bytes at a place, as core c or an engine of it reads them (R318). The access stays within a line. -/
def State.readAt (s : State) (c : Nat) (p : Place) (n : Nat) : Got :=
  match p with
  | .phys pa =>
    if inWords s.badWords pa n then .uncorrectable 33 (pa / 4096 * 4096)
    else .bytes ((List.range n).map fun i => s.seenByte c (pa + i))
  | .host o => .host o
  | .tile d ix gen o =>
    match s.liveTile d ix gen with
    | some t => if t.sealed && decide (0 < t.count) then .bytes ((List.range n).map fun i => t.byte (o + i)) else .tileBad
    | none => .tileBad
  | .flash e o =>
    if (s.die (2 + e)).flash.isBad (o / 16384) then .uncorrectable 32 (o / 16384)
    else .bytes ((List.range n).map fun i => s.flashByte e (o + i))

/-! ### Translation -/

/-- R96 to R102, R146, R153 to R160: translate one address outside the remap windows. -/
def State.beyondWindows (s : State) (x : Ctx) (a : Acc) (va : Nat) : Trans :=
  if 2 ^ 57 ≤ va then .fail nonCanonical
  else if !bit (s.part x.part).ttbase 0 then .fail notMapped
  else if inHbf va then s.viaHbf x a va
  else if inFixed va then s.viaFixed x a (va - fixedBase)
  else if inKennel va then s.viaKennel x a va
  else s.viaPairs x a va

/-- Entry i of a row table, which the translation unit reads as a load of the access's party, at every access: it keeps no entry
(R115). The table of one window is not reached through another. DESIGN CHOICE: assumption 142. -/
def State.rowEntry (s : State) (x : Ctx) (w : Window) (i : Nat) : Sum Nat Trans :=
  match s.beyondWindows x .load (w.tableVa + BitVec.ofNat 64 (4 * i)).toNat with
  | .at_ p _ =>
    match s.readAt x.core p 4 with
    | .bytes b => .inl (leNat b)
    | .host o => .inl (leNat (hostRegRead s o 4))
    | .tileBad => .inr .bad
    | .uncorrectable c i => .inr (.ecc c i (match p with | .flash e _ => e | _ => 0))
  | t => .inr t

/-- R112: an address in a remap window; the result goes to the page tables. A shadow write is in a name range (R146). -/
def State.viaWindow (s : State) (x : Ctx) (a : Acc) (w : Window) (va : Nat) : Trans :=
  if a == .cowst then .fail 0
  else if a == .dst true && ((s.part x.part).nameIn va).isNone then .fail publishCause
  else
    match s.rowEntry x w ((va - w.winVa.toNat) / w.rowBytes) with
    | .inr t => t
    | .inl t =>
      if w.backRows ≤ t then .fail windowRange
      else
        let vb := (w.backVa + BitVec.ofNat 64 (t * w.rowBytes + (va - w.winVa.toNat) % w.rowBytes)).toNat
        if 2 ^ 57 ≤ vb then .fail nonCanonical else s.viaTables x a vb false

/-- R96 to R102, R112, R146, R153 to R160: translate one address. The access covers bytes of one 64-byte line. -/
def State.translate (s : State) (x : Ctx) (a : Acc) (va64 : W64) : Trans :=
  let va := va64.toNat
  match (if decide (2 ^ 57 ≤ va) || !bit (s.part x.part).ttbase 0 || unmappable va then none else s.windowAt x va) with
  | some w => s.viaWindow x a w va
  | none => s.beyondWindows x a va

/-! ### The HBM stacks (R120, R121) -/

/-- The 2 MiB region of a stack that an HBM address lies in. -/
def regionKey (pa : Nat) : Nat := pa / 2 ^ 36 * 2 ^ 20 + pa % 2 ^ 36 / 2 ^ 21
/-- The pseudo-channel, 64 to a stack, that serves an HBM address. DESIGN CHOICE: assumption 147. -/
def chanOf (pa : Nat) : Nat := 64 * (pa / 2 ^ 36) + pa / 256 % 64
/-- The low-power state of the pseudo-channel of an address: 1 power-down, 2 self-refresh. It enters them by itself once it has been idle for the
times of HBMPM, a microsecond being 940 clocks (R18), and the events of R121 mark it too. -/
def State.lowPower (s : State) (pa : Nat) : Nat :=
  let idle := s.clk - tgetD s.pchanUsed (chanOf pa) 0
  let pm := (s.die (hbmDie pa)).hbmpm
  let sr := 940 * bits pm 39 24; let pd := bits pm 23 8
  max (tgetD s.pchan (chanOf pa) 0) (if sr ≠ 0 ∧ sr ≤ idle then 2 else if pd ≠ 0 ∧ pd ≤ idle then 1 else 0)
/-- Clocks an access waits at its stack: for the end of a swap of its region, for a pseudo-channel's exit from power-down or self-refresh. -/
def State.stackWait (s : State) (pa : Nat) : Nat :=
  if 2 ^ 40 ≤ pa then 0
  else
    let exit := match s.lowPower pa with | 1 => 24 | 2 => 560 | _ => 0
    s.swapping.foldl (fun m e => if e.1 = regionKey pa then max m (e.2 - s.clk) else m) exit
/-- Accesses of a region after which its stack's controller swaps it. DESIGN CHOICE: assumption 151. -/
def hotLimit : Nat := 65536
/-- The region of a stack with the fewest accesses, but for one of them. DESIGN CHOICE: assumption 151. -/
def State.coldest (s : State) (k r : Nat) : Nat :=
  let used := s.hot.filter fun e => e.1 / 2 ^ 20 == k && e.1 % 2 ^ 20 != r
  match (List.range (used.length + 2)).find? fun j => j != r && !used.any fun e => e.1 % 2 ^ 20 == j with
  | some j => j
  | none => 0
/-- An access reaches its stack: its region counts it, and is remapped when it is hot (R120); its pseudo-channel leaves its low-power state. -/
def State.reach (s : State) (pa : Nat) : State :=
  if 2 ^ 40 ≤ pa then s
  else
    let n := tgetD s.hot (regionKey pa) 0 + 1
    let s := { s with hot := tset s.hot (regionKey pa) n, pchan := tdel s.pchan (chanOf pa), pchanUsed := tset s.pchanUsed (chanOf pa) s.clk }
    let k := pa / 2 ^ 36; let r := pa % 2 ^ 36 / 2 ^ 21
    if n % hotLimit = 0 then s.schedule 0 (.hotRegionSwap k r (s.coldest k r)) else s
/-- A read reaches its stack; each word of it that ECC corrects is counted (R119, R386). -/
def State.touch (s : State) (pa n : Nat) : State :=
  if 2 ^ 40 ≤ pa then s
  else
    let s := s.reach pa
    let k := (s.softWords.eraseDups.filter fun w => decide (w < pa + n) && decide (pa < w + 32)).length
    if k = 0 then s
    else
      let x := s.die (hbmDie pa)
      s.setDie (hbmDie pa) { x with errCorrected := BitVec.ofNat 32 (min 0xFFFFFFFF (x.errCorrected.toNat + k)) }
/-- A read of several lines. -/
def State.touchLines (s : State) (pa n : Nat) : State := (List.range (cdiv n 64)).foldl (fun s i => s.touch (pa + 64 * i) (min 64 (n - 64 * i))) s
/-- Whether a core runs a task with the deadline flag. -/
def State.urgent (s : State) (c : Nat) : Bool := match (s.core c).task with | some t => t.deadline | none => false
/-- Deadline traffic of a core goes to a stack and is in flight there for n clocks (R122). -/
def State.noteTraffic (s : State) (c pa n : Nat) : State :=
  if decide (2 ^ 40 ≤ pa) || !s.urgent c then s
  else { s with busyTill := tset s.busyTill (pa / 2 ^ 36) (max (tgetD s.busyTill (pa / 2 ^ 36) 0) (s.clk + n)) }

/-! ### Writes -/

/-- Physical address of the host register block (R99). -/
def hostPa : Nat := 2 ^ 40 + 6 * 2 ^ 32
/-- Whether a physical address lies in the host register block. -/
def inHostBlock (pa : Nat) : Bool := decide (hostPa ≤ pa) && decide (pa < hostPa + 65536)
/-- Latency of a home from a die (R22, R166): the time a store spends on the path. DESIGN CHOICE: assumption 11. -/
def homeLatency (d pa : Nat) : Nat :=
  if pa < 2 ^ 40 then (if hbmDie pa = d then 116 else 358)
  else if inHostBlock pa then 1081
  else if pa < 2 ^ 51 then (if (pa - 2 ^ 40) / 2 ^ 32 = d then 28 else 358) else 1081

/-- A write enters the ordered path of its quad (R318): it reaches its home after its latency, and after every write before it. -/
def State.enter (s : State) (lat : Nat) (w : PathStore) : State :=
  let q := w.core / 4
  let x := s.quad q
  let due := max (s.clk + lat) (match x.path.getLast? with | some v => v.due | none => 0)
  (s.setQuad q { x with path := x.path ++ [{ w with due := due }] }).schedule (due - s.clk)
    (match w.tile with | some _ => .tileAccessArrives w.core | none => .storePerformed q)
/-- A store of a core, or a write of one of its engines, to a physical address. -/
def State.enterPath (s : State) (c p eng pa : Nat) (b : List Byte) : State :=
  (s.enter (homeLatency (dieOfCore c) pa + s.stackWait pa) ⟨c, p, eng, 0, none, pa, b⟩).reach pa

/-- The address of byte 0 of a tile (R170). -/
def tileVa (d gen ix : Nat) : W64 := BitVec.ofNat 64 (kennelBase + d * 2 ^ 49 + gen * 2 ^ 37 + ix * 2 ^ 20)
/-- A tile that a TWR may write: live, neither sealed nor bound. -/
def State.writable (s : State) (d ix gen : Nat) : Bool :=
  match s.liveTile d ix gen with
  | some t => !t.sealed && !t.bound
  | none => false
/-- Write bytes into a live tile. -/
def State.writeTile (s : State) (d ix o : Nat) (b : List Byte) : State :=
  let x := s.die d
  match tget x.tiles ix with
  | some t => s.setDie d { x with tiles := tset x.tiles ix (t.write o b) }
  | none => s
/-- A TWR reaches its tile (R176): it stores its bytes, or its core takes the count-mismatch fault, in its own partition. -/
def State.tileWrite (s : State) (w : PathStore) (d ix g : Nat) : State :=
  if s.writable d ix g then s.writeTile d ix w.addr w.bytes
  else
    let f : FaultInfo := ⟨16, 0, tileVa d g ix + BitVec.ofNat 64 w.addr, 3⟩
    if (s.core w.core).task.isSome && (s.core w.core).part == w.part then s.coreHalt w.core f else s.unitHalt w.part 0 w.core f
/-- A write of the path takes effect at its home. -/
def State.takeEffect (s : State) (w : PathStore) : State :=
  match w.tile with
  | some (d, ix, g) => s.tileWrite w d ix g
  | none => if inHostBlock w.addr then s.hostWrite (w.addr - hostPa) w.bytes else { s with mem := memWrite s.mem w.addr w.bytes }

/-- The first n writes of a quad's path reach their homes, in order. -/
def State.performFirst (s : State) (q : Nat) : Nat → State
  | 0 => s
  | n + 1 =>
    let x := s.quad q
    match x.path with
    | [] => s
    | w :: r => ((s.setQuad q { x with path := r }).takeEffect w).performFirst q n
/-- How many writes at the head of a path are due at a clock, up to the first to a tile, or through `tiles` of those. -/
def dueCount (clk : Nat) : Nat → List PathStore → Nat
  | _, [] => 0
  | tiles, w :: r =>
    if clk < w.due then 0
    else match w.tile, tiles with
      | none, _ => dueCount clk tiles r + 1
      | some _, 0 => 0
      | some _, n + 1 => dueCount clk n r + 1
/-- STORE_PERFORMED (R318): the writes of a quad's path that are due reach their homes, up to the first that goes to a tile. -/
def State.performStore (s : State) (q : Nat) : State := s.performFirst q (dueCount s.clk 0 (s.quad q).path)
/-- TILE_ACCESS_ARRIVES (R176, R180): the same, through the first write to a tile. -/
def State.tileArrives (s : State) (q : Nat) : State := s.performFirst q (dueCount s.clk 1 (s.quad q).path)
/-- Perform every write of a quad's path, in order. -/
def State.flushPath (s : State) (q : Nat) : State := s.performFirst q (s.quad q).path.length
/-- How many writes at the head of a path reach through the last one that a predicate names. -/
def throughLast (f : PathStore → Bool) : List PathStore → Nat
  | [] => 0
  | w :: r => match throughLast f r with
    | 0 => if f w then 1 else 0
    | n + 1 => n + 2
/-- Perform the writes that a predicate names, with those before them on their paths: the wait of R107, R117, R149 and R305 for accesses
under way. DESIGN CHOICE: assumption 11. -/
def State.flushFor (s : State) (f : PathStore → Bool) : State :=
  s.quads.foldl (fun s e => if e.2.path.any f then s.performFirst e.1 (throughLast f e.2.path) else s) s

/-- Whether a core has a store on its way (R168: not yet performed at .die and .pkg): a write of an engine is none. -/
def State.storesOut (s : State) (c : Nat) : Bool := (s.quad (c / 4)).path.any fun w => w.core == c && w.eng == 0 && w.tile.isNone
/-- Whether a core has a TWR on its way to a Kennel, performed nowhere before it arrives. -/
def State.tileWritesOut (s : State) (c : Nat) : Bool := (s.quad (c / 4)).path.any fun w => w.core == c && w.eng == 0 && w.tile.isSome
/-- Writes of a core that have not reached their homes. -/
def State.writesOut (s : State) (c : Nat) : Bool := s.storesOut c || s.tileWritesOut c
/-- Whether the writes that a release of a core covers at .die and wider have not reached their homes: those of its quad that stand on the path when
its bundle first waits, for it may have synchronised with any member of the quad (R317). DESIGN CHOICE: assumption 157. -/
def State.releaseOut (s : State) (c : Nat) : Bool := (s.quad (c / 4)).path.any fun w => w.eng == 0 && match (s.core c).relAt with
  | some t => decide (w.due ≤ t)
  | none => true
/-- A release begins to wait for the last write on its quad's path. -/
def State.noteRelease (s : State) (c : Nat) : State :=
  let k := s.core c
  match k.relAt, ((s.quad (c / 4)).path.filter fun w => w.eng == 0).getLast? with
  | none, some w => s.setCore c { k with relAt := some w.due }
  | _, _ => s
/-- The bundle of a release is held. -/
def State.releaseHold (s : State) : Res := .hold (s.noteRelease s.cur)
/-- Whether an engine of a core has a write on the path. -/
def State.engOut (s : State) (c eng : Nat) : Bool := (s.quad (c / 4)).path.any fun w => w.core == c && w.eng == eng
/-- Whether a core, or one of its engines, has a write on the path. -/
def State.pathOut (s : State) (c : Nat) : Bool := (s.quad (c / 4)).path.any fun w => w.core == c

/-- Whether a physical address lies in a scratchpad of the core's own quad: such a scratchpad is its own home (R154, R318). -/
def ownQuadPad (c pa : Nat) : Bool :=
  (List.range 4).any fun m => let b := scratchPa (c / 4 * 4 + m); decide (b ≤ pa) && decide (pa < b + 786432)

/-- A write to a scratchpad of the quad waits for what stands before it: an earlier TWR of its core (R167), or an earlier write that waits so. -/
def State.padWaits (s : State) (c eng : Nat) : Bool :=
  (s.quad (c / 4)).path.any fun w => (eng == 0 && w.eng == 0 && w.core == c && w.tile.isSome) || (w.tile.isNone && ownQuadPad c w.addr)
/-- A write of a core (`eng` = 0) or of its engine to a physical address, in a partition: one to a scratchpad of the quad is at its home at once,
unless it waits. DEDUCED: assumption 28. -/
def State.storePhys (s : State) (c p eng pa : Nat) (b : List Byte) : State :=
  if ownQuadPad c pa && !s.padWaits c eng then { s with mem := memWrite s.mem pa b } else s.enterPath c p eng pa b

/-! ### Page walks (R104, R105) -/

/-- Clocks of a walk (R106): for each level that the walk cache does not hold, one figure by the die of that level's table. DESIGN CHOICE: assumption 26. -/
def State.walkTime (s : State) (d p va : Nat) : Nat :=
  (walkLevels s.mem va 5 (s.part p).root).foldl (fun n w =>
    if w.2.2 && (s.die d).wcache.contains (cacheKey p va w.1) then n
    else n + (if hbmDie w.2.1 = d then 110 else 358) + s.stackWait (entryAt va (w.1 - 1) w.2.1)) 0

/-- A walk begins. -/
def State.beginWalk (s : State) (d : Nat) (w : Nat × Nat × Nat) : State :=
  let x := s.die d
  (s.setDie d { x with walks := x.walks ++ [w] }).schedule (s.walkTime d w.1 (w.2.1 * 4096)) (.pageWalk d w.1 w.2.1)
/-- Whether a walk in flight of a die covers a page: it is of a page of 4 KiB in the same leaf (R105). -/
def State.walkCovers (s : State) (d p vpn : Nat) : Bool :=
  (s.die d).walks.any fun w => w.1 == p && (w.2.1 == vpn || match s.walk p (w.2.1 * 4096) with
    | .leaf _ lg _ => w.2.1 / 2 ^ (lg - 12) == vpn / 2 ^ (lg - 12)
    | _ => false)
/-- R105: a miss joins the walk that covers its page, starts one, or waits in its quad's queue while 64 walks are in flight. -/
def State.startWalk (s : State) (d q p vpn : Nat) : State :=
  let x := s.die d
  if s.walkCovers d p vpn || x.waitq.contains (p, vpn, q) then s
  else if x.walks.length < 64 then s.beginWalk d (p, vpn, q)
  else s.setDie d { x with waitq := x.waitq ++ [(p, vpn, q)] }

/-- A bundle of core c misses the TLBs: its walk starts and the access waits. DESIGN CHOICE: assumption 135. -/
def State.missed (s : State) (c p vpn : Nat) : State :=
  let k := s.core c
  (s.setCore c { k with missing := if k.missing.contains vpn then k.missing else k.missing ++ [vpn] }).startWalk (dieOfCore c) (c / 4) p vpn

/-- Keep at most n entries, dropping the oldest (R104: an entry stays until it is evicted). DESIGN CHOICE: assumption 16. -/
def capped {α : Type} (n : Nat) (l : List α) : List α := l.drop (l.length - n)

/-- The quad after quad `last` of a die, in round-robin order over its n quads from `first`, whose miss queue is not empty; after reset the order begins
at the second quad. DESIGN CHOICE: assumption 166. -/
def nextQuad (waitq : List (Nat × Nat × Nat)) (first n last : Nat) : Option Nat :=
  ((List.range n).map fun i => first + (last - first + 1 + i) % n).find? fun q => waitq.any fun w => w.2.2 == q
/-- A walk has ended: the walker takes the oldest miss of the next quad in round-robin order (R105); a page that a walk in flight covers, or
that has been found meanwhile, needs none. -/
def State.serveMiss (s : State) (d : Nat) : Nat → State
  | 0 => s
  | n + 1 =>
    let x := s.die d
    match nextQuad x.waitq (firstQuad d) (quadsOf d) x.served with
    | none => s
    | some q =>
      match x.waitq.find? fun w => w.2.2 == q with
      | none => s
      | some w =>
        let s := s.setDie d { x with waitq := x.waitq.erase w, served := q }
        if s.walkCovers d w.1 w.2.1 || (tlbFind x.tlb w.1 w.2.1).isSome then s.serveMiss d n else s.beginWalk d w

/-- PAGE_WALK (R101, R104, R105): a walk ends; its leaf enters the die's and the quad's TLBs, its other entries the walk cache; a failure is
told to the cores that miss on the page. -/
def State.endWalk (s : State) (d p vpn : Nat) : State :=
  let x := s.die d
  let q := match x.walks.find? fun w => w.1 == p && w.2.1 == vpn with | some w => w.2.2 | none => firstQuad d
  let levels := walkLevels s.mem (vpn * 4096) 5 (s.part p).root
  let keys := (levels.filter fun w => w.2.2).map fun w => cacheKey p (vpn * 4096) w.1
  -- the entries that the walk has read, those the walk cache held apart (R119, R120)
  let s := levels.foldl (fun (s : State) w =>
    if w.2.2 && x.wcache.contains (cacheKey p (vpn * 4096) w.1) then s else s.touch (entryAt (vpn * 4096) (w.1 - 1) w.2.1) 8) s
  let x := s.die d
  let s := s.setDie d { x with
    walks := x.walks.filter fun w => !(w.1 == p && w.2.1 == vpn)
    wcache := capped 1024 ((x.wcache.filter fun w => !keys.contains w) ++ keys) }
  let tell (c f : Nat) : State := { s with
    cores := s.cores.map fun (e : Nat × Core) =>
      if dieOfCore e.1 == d && e.2.part == p && e.2.missing.contains vpn then (e.1, { e.2 with walked := (vpn, c, f) :: e.2.walked }) else e }
  let s := match s.walk p (vpn * 4096) with
    | .leaf e lg _ =>
      let t : TlbEnt := ⟨p, vpn / 2 ^ (lg - 12), lg - 12, e⟩
      let x := s.die d
      let s := s.setDie d { x with tlb := capped 65536 (x.tlb ++ [t]) }
      let y := s.quad q
      s.setQuad q { y with tlb := capped 4096 (y.tlb ++ [t]) }
    | .fail c => tell c 0
    | .ecc f => tell 0 f
  s.serveMiss d ((s.die d).waitq.length + 1)

/-- Remove the entries a predicate names from every TLB of the package (R107), and what ended walks have told of the pages. -/
def State.dropTlb (s : State) (f : TlbEnt → Bool) (caches : Bool) : State :=
  { s with
    cores := s.cores.map fun (e : Nat × Core) => if e.2.walked.isEmpty then e else
      (e.1, { e.2 with walked := e.2.walked.filter fun w => !f ⟨e.2.part, w.1, 0, 0⟩ })
    quads := s.quads.map fun (e : Nat × Quad) => (e.1, { e.2 with tlb := e.2.tlb.filter fun t => !f t })
    dies := s.dies.map fun (e : Nat × Die) => (e.1, { e.2 with tlb := e.2.tlb.filter (fun t => !f t), wcache := if caches then [] else e.2.wcache }) }
/-- Whether a write of the path goes to the frames of a TLB entry: it was translated through it. -/
def State.within (s : State) (t : TlbEnt) (w : PathStore) : Bool :=
  let pa := s.fabric (ptePa t.leaf)
  w.tile.isNone && w.part == t.part && decide (pa ≤ w.addr) && decide (w.addr < pa + 2 ^ (12 + t.lg))
/-- The removal with its wait for the accesses that translated through a removed entry (R107). -/
def State.removeTlb (s : State) (f : TlbEnt → Bool) (caches : Bool) : State :=
  let gone := ((s.quads.flatMap fun e => e.2.tlb) ++ s.dies.flatMap fun e => e.2.tlb).filter f
  (s.flushFor fun w => gone.any fun t => s.within t w).dropTlb f caches

/-- TLBI.va of an address in a partition (R107). -/
def covers (p vpn : Nat) (t : TlbEnt) : Bool := t.part == p && t.vpn == vpn / 2 ^ t.lg

/-! ### Accesses of the current core -/

/-- The scheduler of a die accesses memory in a partition's space with the rights of the supervisor (R337, R339), and walks its page tables itself. -/
def schedCtx (d p : Nat) : Ctx := ⟨4 * firstQuad d, p, true, false, 0, true⟩

/-- An engine's translation: a miss waits for its walk (R105); one that will fail is known at once. DESIGN CHOICE: assumption 148. -/
def State.engineTranslate (s : State) (x : Ctx) (a : Acc) (va : W64) : State × Trans :=
  match s.translate x a va with
  | .miss vpn =>
    match s.walk x.part (vpn * 4096) with
    | .fail c => (s, .fail c)
    | .ecc f => (s, .ecc 33 f 0)
    | .leaf _ _ _ => (s.startWalk (dieOfCore x.core) (x.core / 4) x.part vpn, .miss vpn)
  | t => (s, t)

/-- Leave ranges of virtual memory of a partition, each within a page, unspecified where they translate to memory. -/
def State.scramble (s : State) (x : Ctx) : List (Nat × Nat) → State
  | [] => s
  | (va, n) :: t =>
    let s := match s.translate { x with direct := true } (.dst false) (BitVec.ofNat 64 va) with
      | .at_ (.phys pa) _ => { s with mem := memWrite s.mem pa ((List.range n).map (Config.freeByte s.fresh)), fresh := s.fresh + 1 }
      | _ => s
    s.scramble x t

/-- An outcome of reading or writing memory on the way to a result. -/
inductive MRes (α : Type) where
  | ok (v : α)
  | stop (r : Res)

/-- R69, R119, R98: an uncorrectable word or page holds the core, and one record stands for every party that waits on a page
(R393). -/
def uncorrectable (code info : Nat) : Res := fault code 0 (BitVec.ofNat 64 info)

/-- Latency of a load by its place (R166), and the wait at an HBM stack (R120, R121). The host register block, for which the spec gives no
figure, takes that of the pooled tier. DESIGN CHOICE: assumption 138. -/
def State.loadLatency (s : State) : Place → Nat
  | .phys pa =>
    let own := scratchPa s.cur
    if own ≤ pa ∧ pa < own + 786432 then 4
    else if ownQuadPad s.cur pa then 17
    else if pa < 2 ^ 40 then (if hbmDie pa = s.myDie then 116 else 358) + s.stackWait pa
    else if pa < 2 ^ 51 then (if (pa - 2 ^ 40) / 2 ^ 32 = s.myDie then 28 else 358) else 1081
  | .host _ => 1081
  | .tile d _ _ _ => if d = s.myDie then 28 else 358
  | .flash _ _ => 5640

end Sys2Proof.Machine
end

