-- ==== Sys2Proof/Machine/FlashLayer.lean ====
section
/-! DEFINITION. The flash of an ED and its translation layer (R64 to R72, R391 to R393): blocks, stripes, read counts, relocation, and the
parties that wait on a page. -/
namespace Sys2Proof.Machine

/-! ### Blocks and pages (R64, R65) -/

/-- Data blocks in use at manufacture. -/
def usedBlocks : Nat := 368640
/-- The stack of a block: a group's three data blocks lie in ascending stack order beside its parity block (R64). -/
def stackOf (b : Nat) : Nat :=
  if allBlocks ≤ b then (b - allBlocks) % 4 else let par := b / 3 % 4; let r := b % 3; if r < par then r else r + 1

namespace Flash
variable (f : Flash)
def inUse (b : Nat) : Bool := decide (b < usedBlocks) != f.used.contains b
def free (b : Nat) : Bool := !f.inUse b && !f.retired.contains b && decide (b < allBlocks)
/-- Flip whether a block is in use. -/
def flip (b : Nat) : Flash := { f with used := if f.used.contains b then f.used.filter (· != b) else f.used ++ [b] }
/-- Whether single pages are being written into a block: it is a spare until it is full. DESIGN CHOICE: assumption 39. -/
def isOpen (b : Nat) : Bool := f.opened.any fun o => o.2 / 256 == b
/-- The stacks in which a group has spare blocks: those of its spare data blocks, and that of its parity block while none of the group is full. -/
def sparesIn (g : Nat) : List Nat :=
  let bs := [3 * g, 3 * g + 1, 3 * g + 2]
  let spare := bs.filter fun b => f.free b || f.isOpen b
  spare.map stackOf ++ if spare.isEmpty || bs.any (fun b => f.inUse b && !f.isOpen b) then [] else [g % 4]
/-- Whether a free block is taken before another (R67): the lower erase count; of equal ones that of the stack that is preferred, then the lower
number. DESIGN CHOICE: assumption 39. -/
def before (near a b : Nat) : Bool :=
  let x := tgetD f.erase a 0; let y := tgetD f.erase b 0
  decide (x < y) || (x == y && ((stackOf a == near && stackOf b != near) || ((stackOf a == near) == (stackOf b == near) && decide (a < b))))
/-- The free block to write into, in a stack if one is named; spares beyond every listed one have count 0. -/
def fresh (near : Nat) (only : Bool) : Option Nat :=
  let n := 4 * (f.used.length + f.retired.length + f.erase.length + f.moving.length) + 12
  let cands := (f.used.filter fun b => decide (b < usedBlocks)) ++ (List.range (min n (allBlocks - usedBlocks))).map (usedBlocks + ·)
  (cands.filter fun b => f.free b && (!only || stackOf b == near)).foldl (fun best b => match best with
    | none => some b
    | some a => if f.before near b a then some b else best) none
/-- The logical pages a block holds. -/
def pagesIn (b : Nat) : List Nat :=
  ((if b < usedBlocks then (List.range 256).map (256 * b + ·) else []).filter fun lp => (tget f.map lp).isNone)
  ++ (f.map.filter fun e => e.2 / 256 == b).map (·.1)
/-- Whether a block is under relocation. -/
def isMoving (b : Nat) : Bool := f.moving.any fun m => m.1 == b
end Flash

/-! ### Health counters (R70, R71) -/

/-- Add to a field of w bits at a bit offset, saturating. -/
def satAdd (x : W64) (lo w n : Nat) : W64 :=
  let v := x.toNat / 2 ^ lo % 2 ^ w
  BitVec.ofNat 64 (x.toNat - v * 2 ^ lo + min (2 ^ w - 1) (v + n) * 2 ^ lo)
/-- Take from a field, not below 0. -/
def satSub (x : W64) (lo w n : Nat) : W64 :=
  let v := x.toNat / 2 ^ lo % 2 ^ w
  BitVec.ofNat 64 (x.toNat - v * 2 ^ lo + (v - n) * 2 ^ lo)
/-- HEALTH.STACK of an ED's stack; self-calibration writes what the metadata holds: 1/16 of the stack's 131,072 blocks are spares (R65), 6,144 data
blocks and the parity blocks of 2,048 groups. DESIGN CHOICE: assumption 14. -/
def State.healthOf (s : State) (n : Nat) : W64 := tgetD s.health n (8192 * 2 ^ 48)
def State.classHealth (s : State) (n : Nat) : W64 := tgetD s.hclass n 0
/-- A count of stack st of an ED rises or falls by one. -/
def State.bumpStack (s : State) (e st lo : Nat) : State :=
  { s with health := tset s.health (4 * e + st) (satAdd (s.healthOf (4 * e + st)) lo 16 1) }
def State.dropStack (s : State) (e st lo : Nat) : State :=
  { s with health := tset s.health (4 * e + st) (satSub (s.healthOf (4 * e + st)) lo 16 1) }
/-- The class of a block that a read reaches: 0 data, 1 parity (R71); no read of the classes 2 and 3 is part of any operation the spec describes. -/
def classOfBlock (b : Nat) : Nat := if allBlocks ≤ b then 1 else 0
/-- A count of the class of a block, of w bits at a bit offset, rises by n. -/
def State.bumpClass (s : State) (e b lo w n : Nat) : State :=
  let i := 4 * e + classOfBlock b
  if n = 0 then s else { s with hclass := tset s.hclass i (satAdd (s.classHealth i) lo w n) }

def State.flash (s : State) (e : Nat) : Flash := (s.die (2 + e)).flash
def State.setFlash (s : State) (e : Nat) (f : Flash) : State := let x := s.die (2 + e); s.setDie (2 + e) { x with flash := f }
/-- The flash changes at a block: spare_blocks of its group's stacks follows (R70). -/
def State.setBlock (s : State) (e b : Nat) (f : Flash) : State :=
  let was := (s.flash e).sparesIn (groupOf b)
  let now := f.sparesIn (groupOf b)
  let s := (was.filter fun st => !now.contains st).foldl (fun s st => s.dropStack e st 48) (s.setFlash e f)
  (now.filter fun st => !was.contains st).foldl (fun s st => s.bumpStack e st 48) s

/-- HEALTH.STACK.n as it reads (R70): wear_pct follows the erases of the stack's 131,072 blocks, whose rated count the spec does not give, and
state follows spare_blocks. DESIGN CHOICE: assumption 14. -/
def State.healthWord (s : State) (n : Nat) : W64 :=
  let x := s.healthOf n
  let erases := ((s.flash (n / 4)).erase.filter fun b => stackOf b.1 == n % 4).foldl (fun m b => m + b.2) 0
  let wear := if erases = 0 then bits x 15 8 else min 100 (bits x 15 8 + 100 * erases / (131072 * Config.ratedErases))
  let spare := bits x 63 48
  BitVec.ofNat 64 (bits x 63 16 * 65536 + wear * 256 + if spare = 0 then 2 else if spare < 2048 then 1 else 0)

/-! ### Read counts and relocation (R68, R391, R392) -/

/-- A block is never used again (R67). -/
def State.retireBlock (s : State) (e b : Nat) : State :=
  let f := s.flash e
  (s.setBlock e b { f with retired := f.retired ++ [b], weak := f.weak.filter (· != b) }).bumpStack e (stackOf b) 32
/-- The marks of a block's pages are gone. -/
def Flash.unmark (f : Flash) (b : Nat) : Flash :=
  { f with bad := f.bad.filter (fun pp => pp / 256 != b), soft := f.soft.filter (fun pp => pp / 256 != b)
           viaParity := f.viaParity.filter (fun pp => pp / 256 != b), count := tdel f.count b }
/-- A block is erased and free again; one whose erase fails is retired (R67). -/
def State.eraseBlock (s : State) (e b : Nat) : State :=
  let f := (s.flash e).unmark b
  let s := s.setBlock e b { f.flip b with erase := tset f.erase b (tgetD f.erase b 0 + 1), opened := f.opened.filter fun o => o.2 / 256 != b }
  if f.weak.contains b then s.retireBlock e b else s
/-- A block that was taken and holds no page is free again. -/
def State.giveBack (s : State) (e b : Nat) : State :=
  let f := s.flash e
  if (f.pagesIn b).isEmpty && f.inUse b then s.setBlock e b (f.flip b) else s
/-- Take a spare block to write into: one whose program fails is retired, and the next takes its place (R67). At most n are tried. -/
def State.takeFresh (s : State) (e near : Nat) (only : Bool) : Nat → State × Option Nat
  | 0 => (s, none)
  | n + 1 =>
    let f := s.flash e
    match f.fresh near only with
    | none => (s, none)
    | some b => if f.weak.contains b then (s.retireBlock e b).takeFresh e near only n else (s.setBlock e b (f.flip b), some b)
/-- Take a spare block, of a stack if it must be one of it, else of that stack first among equals; stack 4 is none. -/
def State.takeSpare (s : State) (e near : Nat) (only : Bool) : State × Option Nat := s.takeFresh e near only ((s.flash e).weak.length + 1)

/-- RELOCATION_START (R68, R392): the copy into a fresh block begins; it reaches its switch in 600 µs. A parity block moves within its stack, where
R64 places the parity of its group. Pages that are written one by one go to another block from now on. DESIGN CHOICE: assumption 38. -/
def State.startRelocation (s : State) (e b : Nat) : State :=
  match s.takeSpare e (stackOf b) (decide (allBlocks ≤ b)) with
  | (s, none) => s
  | (s, some k) =>
    let f := s.flash e
    let s := s.setBlock e b { f with moving := f.moving ++ [(b, k)], opened := f.opened.filter fun o => o.2 / 256 != b }
    ((s.bumpStack e (stackOf b) 16).bumpClass e b 0 16 1).schedule 564000 (.relocationSwitch e k b)

/-- The read of one physical page adds 1 to its block's count, and to corrected_pages where ECC corrects it (R71); a count at the limit starts a
relocation while a free block exists. DEDUCED: assumption 127. -/
def State.countPage (s : State) (e pp : Nat) : State :=
  let f := s.flash e
  let b := pp / 256
  let n := tgetD f.count b 0 + 1
  let s := s.setFlash e { f with count := tset f.count b n }
  let s := s.bumpClass e b 32 32 (f.soft.contains pp).toNat
  if f.rdthr ≤ n ∧ !f.isMoving b ∧ !f.retired.contains b ∧ (f.fresh (stackOf b) (decide (allBlocks ≤ b))).isSome then s.startRelocation e b else s
/-- A read counts; one that parity serves reads the rest of the stripe and is a rebuilt page (R70). DESIGN CHOICE: assumption 140. -/
def State.countRead (s : State) (e pp : Nat) : State :=
  let f := s.flash e
  if f.viaParity.contains pp && !f.fails pp then ((stripeRest pp).foldl (fun s q => s.countPage e q) s).bumpClass e (pp / 256) 16 16 1
  else s.countPage e pp

/-! ### Parties that wait on a page (R69, R385, R393) -/

/-- The code by which a held party names the page it waits on; other contained faults hold with 2^32. -/
def pageWait (e lp : Nat) : Nat := 2 ^ 33 + e * 2 ^ 27 + lp
/-- A page enters awaiting-repair: one record for one failure. DESIGN CHOICE: assumption 40. -/
def State.awaitRepair (s : State) (e lp d : Nat) (r : List Byte) : State :=
  let f := s.flash e
  if f.waiting.contains lp then s
  else (s.setFlash e { f with waiting := f.waiting ++ [lp] }).queueRecord d r (some (.flash e lp))

/-- A load of core c, or a read of an engine of it, at places with their lengths counts: each flash page once (R391), each access of an HBM
stack (R120 to R122, R386). -/
def State.countPlaces (s : State) (c : Nat) (ps : List (Place × Nat)) : State :=
  let pages := (ps.filterMap fun p => match p.1 with | .flash e o => some (e, o / 16384) | _ => none).eraseDups
  let s := pages.foldl (fun s p => s.countRead p.1 ((s.flash p.1).phys p.2)) s
  ps.foldl (fun s p => match p.1 with
    | .phys pa => (s.noteTraffic c pa (homeLatency (dieOfCore c) pa + s.stackWait pa)).touch pa p.2
    | _ => s) s

/-- A load of an uncorrectable page holds its core until the page is delivered. -/
def State.pageHold (s : State) (e lp : Nat) (va : W64) : State :=
  let k := s.me
  let r := record 32 0 0 k.part s.cur s.myDie (4 + k.theld.toNat) k.pc va lp k.tag k.tiles 0xFFFFFFFF 0 s.beacon
  (s.awaitRepair e lp s.myDie r).setMe { k with held := some (pageWait e lp) }

/-- No core of a quad issues in the next clock. -/
def State.stallQuad (s : State) (q : Nat) : State :=
  [4 * q, 4 * q + 1, 4 * q + 2, 4 * q + 3].foldl (fun (s : State) c =>
    let k := s.core c
    if k.task.isSome then s.setCore c { k with nextClk := max k.nextClk (s.clk + 2) } else s) s
/-- An access of the current core waits in the replay queue of its die, which holds 512; while it is full, the quad stalls its issue (R118).
DESIGN CHOICE: assumption 153. -/
def State.joinReplay (s : State) (va : W64) : State :=
  let x := s.die s.myDie
  let a := (s.cur, s.myPart, va.toNat)
  if x.replay.contains a then s
  else if 512 ≤ x.replay.length then s.stallQuad s.myQuad
  else s.setDie s.myDie { x with replay := x.replay ++ [a] }
/-- The accesses of a bundle at a list of addresses that find a page under migration wait, in order. -/
def State.joinAll (s : State) (a : Acc) (vas : List W64) : State :=
  vas.foldl (fun (s : State) va => match s.translate s.ctx a va with | .migrating => s.joinReplay va | _ => s) s
/-- Turn a failed translation of an access at `va` into the bundle's outcome: a precise fault, a held bundle whose walk is under
way (R105), a wait in the replay queue (R118), or the contained fault of an uncorrectable table (R119). -/
def State.transStop (s : State) (va : W64) : Trans → Res
  | .fail c => fault translation c va
  | .miss vpn => .hold (s.missed s.cur s.myPart vpn)
  | .migrating => .hold (s.joinReplay va)
  | .bad => fault 16 0 va
  | .ecc c i e => if c = 32 then .hold (s.pageHold e i va) else uncorrectable c i
  | .at_ _ _ => .hold s

/-! ### Reading for a load -/

/-- What the host register block reads as for core c: the earlier writes of its quad come before the read (R318). -/
def State.hostNow (s : State) (c o n : Nat) : List Byte := hostRegRead (s.flushPath (c / 4)) o n
/-- Read n bytes at va within one line as access `a`. -/
def State.readVa (s : State) (a : Acc) (va : W64) (n : Nat) : MRes (List Byte × W64 × Place) :=
  match s.translate s.ctx a va with
  | .at_ p leaf =>
    match s.readAt s.cur p n with
    | .bytes b => .ok (b, leaf, p)
    | .tileBad => .stop (fault 16 0 va)
    | .uncorrectable c i =>
      match p with
      | .flash e o => .stop (.hold ((s.countPlaces s.cur [(p, n)]).pageHold e (o / 16384) va))
      | _ => .stop (uncorrectable c i)
    | .host o => .ok (s.hostNow s.cur o n, leaf, p)
  | t => .stop (s.transStop va t)

end Sys2Proof.Machine
end

