-- ==== Sys2Proof/Machine/Operands.lean ====
section
/-! DEFINITION. Operand forms: the extent and block of a vector operand (R41, R226), the latch as a source (R261), the registers
every instruction reads and writes (R25, R36), and the checks that stand before every operation of a slot (R31, R32, R34). -/
namespace Sys2Proof.Machine

/-- First cluster and number of clusters of a slot-2 operation, from its block shape byte or the context (R41). -/
def Core.extent (k : Core) (sh : Lent) : Nat × Nat :=
  match sh with
  | some v => if v.val % 64 = 63 then (bits k.ctxctl 2 0, bits k.ctxctl 5 3 + 1) else (v.val / 8 % 8, v.val % 8 + 1)
  | none => (bits k.ctxctl 2 0, bits k.ctxctl 5 3 + 1)

/-- The extent of the context, which slots 1 and 3 use (R41). -/
def Core.ctxExtent (k : Core) : Nat × Nat := k.extent none

/-- Register keys of a block over given clusters. -/
def blockKeys (base rows cs n : Nat) : List Nat :=
  (List.range rows).flatMap fun i => (List.range n).map fun j => keyV (base + i) (cs + j)
/-- A block of slots 1 and 3. -/
def Core.blk (k : Core) (rows base : Nat) : List Nat := blockKeys base rows k.ctxExtent.1 k.ctxExtent.2
/-- A destination block of slot 2. DEDUCED: assumption 7. -/
def Core.dst (k : Core) (sh : Lent) (base : Nat) : List Nat := blockKeys base (rowsOf sh) (k.extent sh).1 (k.extent sh).2

/-- The row of the core's own drain that leaves at the scheduled clock of its bundle (R260, R261). -/
def Core.latRow (k : Core) : Option Nat :=
  match k.drain with
  | some d => if d.due = k.sched ∧ 0 < d.left then some d.row else none
  | none => none

/-- A source block of slot 2; field 62 reads lat, which the scoreboard does not check, while a row leaves (R261). -/
def Core.src (k : Core) (sh : Lent) (base : Nat) : List Nat :=
  if base = 62 ∧ k.latRow.isSome then [] else k.dst sh base

/-- The registers an instruction reads and writes, by key. -/
def Instr.uses (i : Instr) (k : Core) : List Nat × List Nat :=
  match i with
  | .nopS _ => ([], [])
  | .nop => ([], [])
  | .hdr _ _ _ _ _ _ _ _ => ([], [])
  | .add _ d a b => ([keyS a.val, keyS b.val], [keyS d.val])
  | .sub _ d a b => ([keyS a.val, keyS b.val], [keyS d.val])
  | .mul _ d a b => ([keyS a.val, keyS b.val], [keyS d.val])
  | .mulh _ d a b _ => ([keyS a.val, keyS b.val], [keyS d.val])
  | .and _ d a b => ([keyS a.val, keyS b.val], [keyS d.val])
  | .or _ d a b => ([keyS a.val, keyS b.val], [keyS d.val])
  | .xor _ d a b => ([keyS a.val, keyS b.val], [keyS d.val])
  | .shl _ d a b => ([keyS a.val, keyS b.val], [keyS d.val])
  | .shr _ d a b => ([keyS a.val, keyS b.val], [keyS d.val])
  | .sra _ d a b => ([keyS a.val, keyS b.val], [keyS d.val])
  | .min _ d a b _ => ([keyS a.val, keyS b.val], [keyS d.val])
  | .max _ d a b _ => ([keyS a.val, keyS b.val], [keyS d.val])
  | .addi _ d a _ => ([keyS a.val], [keyS d.val])
  | .andi _ d a _ => ([keyS a.val], [keyS d.val])
  | .ori _ d a _ => ([keyS a.val], [keyS d.val])
  | .xori _ d a _ => ([keyS a.val], [keyS d.val])
  | .shli _ d a _ => ([keyS a.val], [keyS d.val])
  | .shri _ d a _ => ([keyS a.val], [keyS d.val])
  | .srai _ d a _ => ([keyS a.val], [keyS d.val])
  | .li _ d _ => ([], [keyS d.val])
  | .lih _ d _ => ([keyS d.val], [keyS d.val])
  | .addsh _ d a b _ => ([keyS a.val, keyS b.val], [keyS d.val])
  | .cmp _ p _ a b => ([keyS a.val, keyS b.val], [keyP p.val])
  | .cmpi _ p _ a _ => ([keyS a.val], [keyP p.val])
  | .plog _ d a b _ => ([keyP a.val, keyP b.val], [keyP d.val])
  | .clz _ d a => ([keyS a.val], [keyS d.val])
  | .popc _ d a => ([keyS a.val], [keyS d.val])
  | .sext _ d a _ => ([keyS a.val], [keyS d.val])
  | .zext _ d a _ => ([keyS a.val], [keyS d.val])
  | .div _ d a b _ => ([keyS a.val, keyS b.val], [keyS d.val])
  | .rem _ d a b _ => ([keyS a.val, keyS b.val], [keyS d.val])
  | .br _ p _ _ => ([keyP p.val], [])
  | .call _ p _ _ => ([keyP p.val], [keyS 63])
  | .jr _ a => ([keyS a.val], [])
  | .loopImm _ _ _ _ => ([], [])
  | .loopReg _ _ r _ => ([keyS r.val], [])
  | .loopEnd => ([], [])
  | .bar _ _ _ => ([], [])
  | .barComplete _ _ _ _ => ([], [])
  | .waitc _ _ _ => ([], [])
  | .sstep _ _ => ([], [])
  | .tspawn _ a b => ([keyS a.val, keyS b.val], [])
  | .park _ _ => ([], [])
  | .yield _ => ([], [])
  | .tdone _ => ([], [])
  | .trap _ _ => ([], [])
  | .eret _ a b => ([keyS a.val, keyS b.val], [])
  | .snaprel _ => ([], [])
  | .rdms _ d _ => ([], [keyS d.val])
  | .wrms _ a _ => ([keyS a.val], [])
  | .halt _ a => ([keyS a.val], [])
  | .ld d b p _ _ _ => ([keyS b.val, keyP p.val], [keyS d.val])
  | .ldv d b p z _ _ => ([keyS b.val, keyP p.val], k.blk (2 ^ z.val) d.val)
  | .ldg d a b p _ _ => ([keyS a.val, keyP p.val] ++ k.blk 1 b.val, k.blk 1 d.val)
  | .ldb d b p _ _ _ => ([keyS b.val, keyP p.val], k.blk 1 d.val)
  | .tagq d a _ => ([keyS a.val], [keyS d.val])
  | .tagset a _ _ => ([keyS a.val], [])
  | .tagclr _ _ => ([], [])
  | .tld d b p _ _ _ => ([keyS b.val, keyP p.val], [keyS d.val])
  | .tdrop a => ([keyS a.val], [])
  | .tcnt d a => ([keyS a.val], [keyS d.val])
  | .tcntWait d a => ([keyS a.val], [keyS d.val])
  | .aadd d a b _ _ _ => ([keyS a.val, keyS b.val], [keyS d.val])
  | .amin d a b _ _ _ => ([keyS a.val, keyS b.val], [keyS d.val])
  | .amax d a b _ _ _ => ([keyS a.val, keyS b.val], [keyS d.val])
  | .aand d a b _ _ _ => ([keyS a.val, keyS b.val], [keyS d.val])
  | .aor d a b _ _ _ => ([keyS a.val, keyS b.val], [keyS d.val])
  | .axor d a b _ _ _ => ([keyS a.val, keyS b.val], [keyS d.val])
  | .aswp d a b _ _ _ => ([keyS a.val, keyS b.val], [keyS d.val])
  | .acas d a b _ _ _ => ([keyS a.val, keyS b.val, keyS d.val], [keyS d.val])
  | .cpyIn a b c _ _ _ => ([keyS a.val, keyS b.val, keyS c.val], [])
  | .cpygIn a b c _ _ _ => ([keyS a.val, keyS b.val, keyS c.val], [])
  | .cpysIn a b c _ _ _ => ([keyS a.val, keyS b.val, keyS c.val], [])
  | .cpyfIn _ b c _ _ _ => ([keyS b.val, keyS c.val], [])
  | .shape a _ _ => ([keyS a.val], [])
  | .hread d s t _ _ => ([keyS s.val, keyS t.val], [keyS d.val])
  | .hwait a => ([keyS a.val], [])
  | .hstat d a => ([keyS a.val], [keyS d.val])
  | .hrel a => ([keyS a.val], [])
  | .gload d _ _ => ([], [keyS d.val])
  | .vadd d a b p _ _ _ sh => (k.src sh a.val ++ k.src sh b.val ++ [keyP p.val], k.dst sh d.val)
  | .vsub d a b p _ _ _ sh => (k.src sh a.val ++ k.src sh b.val ++ [keyP p.val], k.dst sh d.val)
  | .vmul d a b p _ _ _ sh => (k.src sh a.val ++ k.src sh b.val ++ [keyP p.val], k.dst sh d.val)
  | .vmulh d a b p _ _ sh => (k.src sh a.val ++ k.src sh b.val ++ [keyP p.val], k.dst sh d.val)
  | .vmin d a b p _ _ sh => (k.src sh a.val ++ k.src sh b.val ++ [keyP p.val], k.dst sh d.val)
  | .vmax d a b p _ _ sh => (k.src sh a.val ++ k.src sh b.val ++ [keyP p.val], k.dst sh d.val)
  | .vand d a b p sh => (k.src sh a.val ++ k.src sh b.val ++ [keyP p.val], k.dst sh d.val)
  | .vor d a b p sh => (k.src sh a.val ++ k.src sh b.val ++ [keyP p.val], k.dst sh d.val)
  | .vxor d a b p sh => (k.src sh a.val ++ k.src sh b.val ++ [keyP p.val], k.dst sh d.val)
  | .vshl d a b p _ sh => (k.src sh a.val ++ k.src sh b.val ++ [keyP p.val], k.dst sh d.val)
  | .vshr d a b p _ sh => (k.src sh a.val ++ k.src sh b.val ++ [keyP p.val], k.dst sh d.val)
  | .vsra d a b p _ sh => (k.src sh a.val ++ k.src sh b.val ++ [keyP p.val], k.dst sh d.val)
  | .vabs d a p _ _ sh => (k.src sh a.val ++ [keyP p.val], k.dst sh d.val)
  | .vneg d a p _ _ sh => (k.src sh a.val ++ [keyP p.val], k.dst sh d.val)
  | .vclz d a p _ sh => (k.src sh a.val ++ [keyP p.val], k.dst sh d.val)
  | .vpopc d a p _ sh => (k.src sh a.val ++ [keyP p.val], k.dst sh d.val)
  | .vfadd d a b p _ _ sh => (k.src sh a.val ++ k.src sh b.val ++ [keyP p.val], k.dst sh d.val)
  | .vfsub d a b p _ _ sh => (k.src sh a.val ++ k.src sh b.val ++ [keyP p.val], k.dst sh d.val)
  | .vfmul d a b p _ _ sh => (k.src sh a.val ++ k.src sh b.val ++ [keyP p.val], k.dst sh d.val)
  | .vfma d a b p _ _ sh => (k.src sh a.val ++ k.src sh b.val ++ k.src sh d.val ++ [keyP p.val], k.dst sh d.val)
  | .vfmin d a b p _ sh => (k.src sh a.val ++ k.src sh b.val ++ [keyP p.val], k.dst sh d.val)
  | .vfmax d a b p _ sh => (k.src sh a.val ++ k.src sh b.val ++ [keyP p.val], k.dst sh d.val)
  | .vfabs d a p _ sh => (k.src sh a.val ++ [keyP p.val], k.dst sh d.val)
  | .vfneg d a p _ sh => (k.src sh a.val ++ [keyP p.val], k.dst sh d.val)
  | .vcmp _ q a b p _ sh => (k.src sh a.val ++ k.src sh b.val ++ [keyP p.val], [keyP q.val])
  | .vfcmp _ q a b p sh => (k.src sh a.val ++ k.src sh b.val ++ [keyP p.val], [keyP q.val])
  | .vsel d a b n sh => (k.src sh a.val ++ k.src sh b.val ++ [keyP n.val], k.dst sh d.val)
  | .vshuf d a b p sh => (k.src sh a.val ++ k.src sh b.val ++ [keyP p.val], k.dst sh d.val)
  | .vbcast d a _ p sh => (k.src sh a.val ++ [keyP p.val], k.dst sh d.val)
  | .vmovs d a p sh => ([keyS a.val, keyP p.val], k.dst sh d.val)
  | .vmovsTos d a _ sh => ((k.src sh a.val).take 1, [keyS d.val])
  | .vmov d a p sh => (k.src sh a.val ++ [keyP p.val], k.dst sh d.val)
  | .vradd d a p _ _ sh => (k.src sh a.val ++ [keyP p.val], k.dst sh d.val)
  | .vrmin d a p _ sh => (k.src sh a.val ++ [keyP p.val], k.dst sh d.val)
  | .vrmax d a p _ sh => (k.src sh a.val ++ [keyP p.val], k.dst sh d.val)
  | .vfradd d a p _ sh => (k.src sh a.val ++ [keyP p.val], k.dst sh d.val)
  | .vfrmin d a p sh => (k.src sh a.val ++ [keyP p.val], k.dst sh d.val)
  | .vfrmax d a p sh => (k.src sh a.val ++ [keyP p.val], k.dst sh d.val)
  | .vcvt d a f g p _ _ sh => (k.src sh a.val ++ [keyP p.val] ++ (if perLane f < perLane g then k.dst sh d.val else []), k.dst sh d.val)
  | .vxc d a _ p _ sh => (k.src sh a.val ++ [keyP p.val], k.dst sh d.val)
  | .pwld a j sh => (k.src sh a.val, (List.range (2 * rowsOf sh * (k.extent sh).2)).map fun q => keyW (j.val + q))
  | .vpwp d a p sh => (k.src sh a.val ++ [keyP p.val] ++ (List.range 64).map keyW, k.dst sh d.val)
  | .brank d a b p sh => (k.src sh a.val ++ k.src sh b.val ++ [keyP p.val], k.dst sh d.val)
  | .bsel d a b p sh => (k.src sh a.val ++ k.src sh b.val ++ [keyP p.val], k.dst sh d.val)
  | .vaddi d a p _ sh => (k.src sh a.val ++ [keyP p.val], k.dst sh d.val)
  | .vli d p _ sh => ([keyP p.val], k.dst sh d.val)
  | .st d b p _ _ _ => ([keyS d.val, keyS b.val, keyP p.val], [])
  | .stv d b p z _ _ => (k.blk (2 ^ z.val) d.val ++ [keyS b.val, keyP p.val], [])
  | .sts d a b p _ _ => (k.blk 1 d.val ++ k.blk 1 b.val ++ [keyS a.val, keyP p.val], [])
  | .cowst d b p _ _ _ => ([keyS d.val, keyS b.val, keyP p.val], [])
  | .talloc d s n _ _ _ => ([keyS s.val, keyS n.val], [keyS d.val])
  | .twr d b p z _ _ => (k.blk (2 ^ z.val) d.val ++ [keyS b.val, keyP p.val], [])
  | .tseal a => ([keyS a.val], [])
  | .cpyOut a b c _ _ _ => ([keyS a.val, keyS b.val, keyS c.val], [])
  | .cpygOut a b c _ _ _ => ([keyS a.val, keyS b.val, keyS c.val], [])
  | .cpysOut a b c _ _ _ => ([keyS a.val, keyS b.val, keyS c.val], [])
  | .cpyfOut _ b c _ _ _ => ([keyS b.val, keyS c.val], [])
  | .publish _ => ([], [])
  | .publishDef _ a => ([keyS a.val], [])
  | .publishUndef _ => ([], [])
  | .drain _ _ => ([], [])
  | .fence _ => ([], [])
  | .mark => ([], [])
  | .tlbiVa a => ([keyS a.val], [])
  | .tlbiOwn => ([], [])
  | .tlbiPva a b => ([keyS a.val, keyS b.val], [])
  | .tlbiPart b => ([keyS b.val], [])
  | .tlbiGlob => ([], [])
  | .pagemv a b _ _ => ([keyS a.val, keyS b.val], [])
  | .wmap a b _ _ => ([keyS a.val, keyS b.val], [])
  | .wunmap _ => ([], [])
  | .lease a _ => ([keyS a.val], [])
  | .lfree _ => ([], [])
  | .mcfg a _ => ([keyS a.val], [])
  | .mma a _ _ _ _ _ _ _ _ => ([keyS a.val], [])
  | .mmv a _ _ _ _ _ _ _ _ _ => ([keyS a.val], [])
  | .mdrain a _ _ => ([keyS a.val], [])
  | .mzero _ _ => ([], [])
  | .mwait _ _ => ([], [])
  | .rte a _ _ _ => ([keyS a.val], [])
  | .apre a _ _ _ => ([keyS a.val], [])
  | .adec a _ _ _ => ([keyS a.val], [])
  | .kvag a _ _ => ([keyS a.val], [])
  | .xsend a b c _ _ _ => ([keyS a.val, keyS b.val, keyS c.val], [])
  | .xrecv d _ _ => ([], [keyS d.val])
  | .ptrcfg a _ => ([keyS a.val], [])
  | .ptrld a b _ => ([keyS a.val, keyS b.val], [])
  | .ptrrun a b c _ => ([keyS a.val, keyS b.val, keyS c.val], [])
  | .snapst b _ _ => ([keyS b.val], [])
  | .registerWriteLands _ => ([], [])
  | .interlockedResultArrives _ _ => ([], [])
  | .trapEntry _ _ _ _ => ([], [])
  | .pageWalk _ _ _ => ([], [])
  | .copySegment _ _ => ([], [])
  | .copyComplete _ _ => ([], [])
  | .pagemvCopyComplete _ _ => ([], [])
  | .hotRegionSwap _ _ _ => ([], [])
  | .pseudoChannelPowerDown _ _ => ([], [])
  | .pseudoChannelSelfRefresh _ _ => ([], [])
  | .stackRetrain _ => ([], [])
  | .handleRequestArrives _ => ([], [])
  | .flashPageRead _ _ _ => ([], [])
  | .relocationSwitch _ _ _ => ([], [])
  | .oldBlockErase _ _ _ => ([], [])
  | .rebuild _ _ => ([], [])
  | .relocate _ _ => ([], [])
  | .retire _ _ => ([], [])
  | .refill _ _ => ([], [])
  | .ftlCommandComplete _ => ([], [])
  | .pointerRun _ => ([], [])
  | .tallocRequestArrives _ => ([], [])
  | .tallocGrant _ => ([], [])
  | .tileAccessArrives _ => ([], [])
  | .leaseGrant _ => ([], [])
  | .turnGrant _ => ([], [])
  | .matrixCommandRetire _ => ([], [])
  | .groupPartArrives _ _ => ([], [])
  | .drainRowLeaves _ => ([], [])
  | .attentionCommandComplete _ => ([], [])
  | .capacityRequest _ => ([], [])
  | .routingRound _ => ([], [])
  | .xsendBinding _ => ([], [])
  | .landing _ => ([], [])
  | .xrecvRequestArrives _ => ([], [])
  | .superstepBoundary _ => ([], [])
  | .beaconTick => ([], [])
  | .frameStart _ => ([], [])
  | .deferredFrameStart _ => ([], [])
  | .frameAdvance _ => ([], [])
  | .taskInsertion _ => ([], [])
  | .taskReady _ _ => ([], [])
  | .taskDispatch _ => ([], [])
  | .continuationResume _ => ([], [])
  | .parkWake _ _ => ([], [])
  | .installTemplate => ([], [])
  | .launchTasks => ([], [])
  | .removeTemplate => ([], [])
  | .tearDownPartition => ([], [])
  | .launchWindowWrite _ _ => ([], [])
  | .hostMemWrite _ _ => ([], [])
  | .hostMemRead _ _ => ([], [])
  | .pod _ _ _ _ => ([], [])
  | .loadw _ _ _ _ _ _ => ([], [])
  | .weightChunk _ => ([], [])
  | .loadwSwitch => ([], [])
  | .attest _ _ => ([], [])
  | .fwstage _ _ => ([], [])
  | .podBarrierMessage _ _ _ _ _ => ([], [])
  | .podBarrierRelease _ _ _ _ => ([], [])
  | .ptpMessage _ => ([], [])
  | .linkRetry => ([], [])
  | .keeperWindow => ([], [])
  | .keepcfgWrite _ => ([], [])
  | .poolbaseWrite _ => ([], [])
  | .srseedWrite _ _ => ([], [])
  | .ttbaseWrite _ _ => ([], [])
  | .kpartWrite _ _ => ([], [])
  | .sscfgWrite _ _ => ([], [])
  | .sliceWrite _ _ => ([], [])
  | .pstateHalt _ => ([], [])
  | .pstateResume _ => ([], [])
  | .svackRelease _ => ([], [])
  | .svackEnd _ => ([], [])
  | .svqRecordWrite _ => ([], [])
  | .haltLineArrives _ _ _ => ([], [])
  | .halted _ => ([], [])
  | .sliceEnd _ => ([], [])
  | .preemptionUnitSave _ _ _ => ([], [])
  | .preemptionComplete _ => ([], [])
  | .powerUp => ([], [])
  | .bringupStageComplete _ => ([], [])
  | .cxlReset => ([], [])
  | .storePerformed _ => ([], [])
  | .instructionFetchMissReturn _ => ([], [])
  | .routingPassComplete _ => ([], [])
  | .powerOff => ([], [])
  | .portLaneChange _ => ([], [])
  | .loadwDoneReport _ => ([], [])

/-- R32: a register of the list is pending on a result of an earlier bundle. -/
def Core.pendingOn (k : Core) (ks : List Nat) : Bool :=
  k.pend.any fun p => p.bid != k.bid && p.keys.any fun q => q != 0 && q != 64 && ks.contains q

/-- R31: a register of the list has a fixed-latency write of an earlier bundle in flight that is not yet readable. -/
def Core.earlyRead (k : Core) (ks : List Nat) : Bool :=
  k.flight.any fun f => f.bid != k.bid && decide (k.sched < f.due) && f.w.keys.any fun q => q != 0 && q != 64 && ks.contains q

/-- What stands before the effect of an instruction in its slot: an ill-formed encoding (R47), an interlocked register (R32), the
checking scoreboard (R31). -/
def guard (i : Instr) (s : State) (r : Res) : Res :=
  let u := Instr.uses i s.me
  if !i.wf then fault illegalInstruction
  else if s.me.pendingOn (u.1 ++ u.2) then .hold s
  else if bit s.me.ctxctl 11 && s.me.earlyRead u.1 then fault stallCount
  else r

/-- The outcome of a slot as a step: a fault is taken by its class (R362), with the slot's number and, for codes 1 and 2, its
word (R364); a precise trap waits until every interlocked result in flight has landed (R364). -/
def finish (i : Instr) (slot : Nat) (s : State) (r : Res) : Host.Outcome State Fault Refusal :=
  match r with
  | .ok s' => .next (s'.mark .issued)
  | .hold s' => .next (s'.mark .held)
  | .raise f =>
    let f := { f with slot := slot, info := if f.code ≤ 2 then BitVec.ofNat 64 (encode i) else f.info }
    if decide (f.code ≤ 14) && s.me.pend.any (fun p => p.bid != s.me.bid) then .next (s.mark .late)
    else .next ((s.takeFault f).mark (.trapped f))

/-- The meaning of an instruction of a slot, from its effect. -/
def meaning (i : Instr) (slot : Nat) (s : State) (effect : Res) : Host.Outcome State Fault Refusal :=
  finish i slot s (guard i s effect)

end Sys2Proof.Machine
end

