-- ==== Sys2Proof/Machine/Flags.lean ====
section
/-! DEFINITION. The SH6 has no flags register: conditions go to predicates (R215, R230) and results clamp (R227). This file holds
every condition and clamp of the spec. -/
namespace Sys2Proof.Machine

/-- Scalar conditions (R42, R215). -/
def condS (c : Nat) (a b : W64) : Bool :=
  match c with
  | 0 => a == b
  | 1 => a != b
  | 2 => a.slt b
  | 3 => !a.slt b
  | 4 => a.ult b
  | _ => !a.ult b

/-- Integer vector conditions (R230), on the values of the elements. -/
def condV (c : Nat) (a b : Int) : Bool :=
  match c with
  | 0 => a == b
  | 1 => a != b
  | 2 => decide (a < b)
  | 3 => decide (b ≤ a)
  | 4 => decide (a ≤ b)
  | _ => decide (b < a)

/-- Range of a w-bit element (R227). -/
def loOf (w : Nat) (uns : Bool) : Int := if uns then 0 else -((2 ^ (w - 1) : Nat) : Int)
def hiOf (w : Nat) (uns : Bool) : Int := if uns then ((2 ^ w : Nat) : Int) - 1 else ((2 ^ (w - 1) : Nat) : Int) - 1

/-- sat8, sat16, sat32 and their unsigned forms (R10). -/
def clampInt (lo hi x : Int) : Int := if x < lo then lo else if hi < x then hi else x

/-- The element result of an exact value (R227): clamped with .sat, else its low bits. -/
def narrow (w : Nat) (uns sat : Bool) (x : Int) : Nat :=
  ((if sat then clampInt (loOf w uns) (hiOf w uns) x else x) % ((2 ^ w : Nat) : Int)).toNat

/-- Leading zero bits of a w-bit value (R210, R227). -/
def clzN (w x : Nat) : Nat := if x = 0 then w else w - 1 - x.log2

/-- Set bits of the w low bits of a value. -/
def popN : Nat → Nat → Nat
  | 0, _ => 0
  | w + 1, x => x % 2 + popN w (x / 2)

/-- Truth table of PLOG over two registers (R216): bit 2a + b of the table, in every lane. -/
def truth (t : Nat) (a b : Pred) : Pred :=
  (if t / 1 % 2 = 1 then ~~~a &&& ~~~b else 0) ||| (if t / 2 % 2 = 1 then ~~~a &&& b else 0)
  ||| (if t / 4 % 2 = 1 then a &&& ~~~b else 0) ||| (if t / 8 % 2 = 1 then a &&& b else 0)

/-- A result of 1 or 0 in every lane (R215). -/
def allLanes (b : Bool) : Pred := if b then BitVec.allOnes 128 else 0

end Sys2Proof.Machine
end

