-- ==== Sys2Proof/Machine/Formats.lean ====
section
/-! DEFINITION. Number formats (R184 to R194), exact values, rounding (R199), the edges of a conversion (R201), block conversion (R202),
the stochastic generators (R200), and e^x and ln x to enough places to round them correctly (R277). -/
namespace Sys2Proof.Machine

/-- An exact value: NaN, an infinity, or (−1)^neg × m × 2^e. -/
inductive Num where
  | nan
  | inf (neg : Bool)
  | fin (neg : Bool) (m : Nat) (e : Int)
  deriving DecidableEq, Repr

/-- A floating-point element format (R186): exponent and fraction bits, bias, whether it has infinities and NaNs. -/
structure FF where
  eb : Nat
  mb : Nat
  bias : Nat
  inf : Bool
  nan : Bool
  deriving DecidableEq, Repr

def fp32 : FF := ⟨8, 23, 127, true, true⟩
def bf16 : FF := ⟨8, 7, 127, true, true⟩
def fp16 : FF := ⟨5, 10, 15, true, true⟩
def e4m3 : FF := ⟨4, 3, 7, false, true⟩
def e5m2 : FF := ⟨5, 2, 15, true, true⟩
def e3m2 : FF := ⟨3, 2, 3, false, false⟩
def e2m3 : FF := ⟨2, 3, 1, false, false⟩
def e2m1 : FF := ⟨2, 1, 1, false, false⟩

def FF.width (f : FF) : Nat := 1 + f.eb + f.mb
/-- The canonical NaN (R187); +0 where the format has none (R201). -/
def FF.canon (f : FF) : Nat :=
  if !f.nan then 0 else if f.inf then (2 ^ f.eb - 1) * 2 ^ f.mb + 2 ^ (f.mb - 1) else 2 ^ (f.eb + f.mb) - 1
/-- The code of the largest finite magnitude. -/
def FF.maxCode (f : FF) : Nat := if f.inf then (2 ^ f.eb - 1) * 2 ^ f.mb - 1 else if f.nan then 2 ^ (f.eb + f.mb) - 2 else 2 ^ (f.eb + f.mb) - 1

/-- R186: the value of an element's bits. -/
def FF.dec (f : FF) (x : Nat) : Num :=
  let neg := x / 2 ^ (f.eb + f.mb) % 2 == 1
  let e := x / 2 ^ f.mb % 2 ^ f.eb
  let m := x % 2 ^ f.mb
  if f.inf && e == 2 ^ f.eb - 1 then (if m = 0 then .inf neg else .nan)
  else if !f.inf && f.nan && e == 2 ^ f.eb - 1 && m == 2 ^ f.mb - 1 then .nan
  else if e = 0 then .fin neg m (1 - (f.bias : Int) - f.mb)
  else .fin neg (2 ^ f.mb + m) ((e : Int) - f.bias - f.mb)

/-- Rounding modes by the codes of CTXCTL.rnd (R199). `d` is the draw. The quotient m / 2^sh rounded to an integer. -/
def roundShift (mode d : Nat) (neg : Bool) (m sh : Nat) : Nat :=
  let lo := m / 2 ^ sh
  let r := m % 2 ^ sh
  if r = 0 then lo else
  match mode with
  | 1 => if 2 * r < 2 ^ sh then lo else if 2 ^ sh < 2 * r then lo + 1 else if lo % 2 = 0 then lo else lo + 1
  | 2 => lo
  | 3 => if neg then lo else lo + 1
  | 4 => if neg then lo + 1 else lo
  | _ => if d < 65536 * r / 2 ^ sh then lo + 1 else lo

/-- m × 2^e in units of 2^u, rounded. -/
def roundUnits (mode d : Nat) (neg : Bool) (m : Nat) (e u : Int) : Nat :=
  if u ≤ e then m * 2 ^ (e - u).toNat else roundShift mode d neg m (u - e).toNat

/-- R199, R201: an exact value rounded into a floating-point format; `sat`: infinities become the largest finite value. -/
def FF.enc (f : FF) (mode d : Nat) (sat : Bool) (x : Num) : Nat :=
  let top (neg : Bool) := neg.toNat * 2 ^ (f.eb + f.mb)
  match x with
  | .nan => f.canon
  | .inf neg => top neg + (if f.inf && !sat then (2 ^ f.eb - 1) * 2 ^ f.mb else f.maxCode)
  | .fin neg m e =>
    if m = 0 then top neg else
    let u : Int := max ((m.log2 : Int) + e) (1 - (f.bias : Int)) - f.mb
    let q := roundUnits mode d neg m e u
    -- q < 2^mb stands for a subnormal, else the code is the exponent field above the fraction; a carry moves into the exponent
    let code := q + (u + f.mb - (1 - (f.bias : Int))).toNat * 2 ^ f.mb
    top neg + (if code ≤ f.maxCode then code else if f.inf && !sat then (2 ^ f.eb - 1) * 2 ^ f.mb else f.maxCode)

/-- R199, R201: rounded to an integer, then clamped; NaN gives 0. -/
def encInt (lo hi : Int) (mode d : Nat) (x : Num) : Int :=
  match x with
  | .nan => 0
  | .inf neg => if neg then lo else hi
  | .fin neg m e =>
    let q : Int := (roundUnits mode d neg m e 0 : Nat)
    let v := if neg then -q else q
    if v < lo then lo else if hi < v then hi else v

/-! ### Exact arithmetic -/

def Num.neg : Num → Num
  | .nan => .nan
  | .inf s => .inf (!s)
  | .fin s m e => .fin (!s) m e
def ofInt (v : Int) : Num := .fin (decide (v < 0)) v.natAbs 0
def signedMant (neg : Bool) (m : Nat) (e base : Int) : Int := let v : Int := (m * 2 ^ (e - base).toNat : Nat); if neg then -v else v
/-- IEEE 754 addition of exact values; `rdn`: the sign of an exact zero is that of round-down (R199). -/
def Num.add (rdn : Bool) : Num → Num → Num
  | .nan, _ => .nan
  | _, .nan => .nan
  | .inf a, .inf b => if a = b then .inf a else .nan
  | .inf a, .fin _ _ _ => .inf a
  | .fin _ _ _, .inf b => .inf b
  | .fin a m e, .fin b n f =>
    let base := min e f
    let v := signedMant a m e base + signedMant b n f base
    if v = 0 then .fin (if m = 0 ∧ n = 0 ∧ a = b then a else rdn) 0 0 else .fin (decide (v < 0)) v.natAbs base
/-- IEEE 754 multiplication: ∞ × 0 is NaN (R203). -/
def Num.mul : Num → Num → Num
  | .nan, _ => .nan
  | _, .nan => .nan
  | .inf a, .inf b => .inf (a != b)
  | .inf a, .fin b n _ => if n = 0 then .nan else .inf (a != b)
  | .fin a m _, .inf b => if m = 0 then .nan else .inf (a != b)
  | .fin a m e, .fin b n f => .fin (a != b) (m * n) (e + f)
/-- A product in the array: a zero factor gives zero, whatever the other (R205). -/
def Num.amul (x y : Num) : Num :=
  match x, y with
  | .fin a 0 _, .inf b => .fin (a != b) 0 0
  | .inf a, .fin b 0 _ => .fin (a != b) 0 0
  | _, _ => x.mul y
def Num.isNan : Num → Bool | .nan => true | .inf _ => false | .fin _ _ _ => false
/-- a < b on values that are not NaN; −0 equals +0. -/
def Num.lt : Num → Num → Bool
  | .nan, _ => false
  | _, .nan => false
  | .inf a, .inf b => a && !b
  | .inf a, .fin _ _ _ => a
  | .fin _ _ _, .inf b => !b
  | .fin a m e, .fin b n f => let base := min e f; decide (signedMant a m e base < signedMant b n f base)
/-- The order that puts −0 below +0 (R229, R233). -/
def Num.below (x y : Num) : Bool :=
  match x, y with
  | .fin true 0 _, .fin false 0 _ => true
  | _, _ => x.lt y
/-- The exact sum of values; the exact zero is −0 when every term is −0, else +0 (R205, R233). NaN with a NaN or both infinities. -/
def Num.sum (xs : List Num) : Num :=
  let r := xs.foldl (Num.add false) (.fin true 0 0)
  match r with
  | .fin _ 0 _ => .fin (xs.all fun x => match x with | .fin true 0 _ => true | _ => false) 0 0
  | _ => r

/-! ### Page formats (R184, R189 to R194) -/

/-- The element format of a floating-point code, base formats of scaled codes included. -/
def ffOf (fmt : Nat) : Option FF :=
  match fmt with
  | 0 => some bf16
  | 1 => some fp16
  | 2 => some e4m3
  | 3 => some e5m2
  | 4 => some e3m2
  | 5 => some e2m3
  | 6 => some e2m1
  | 0x13 => some e4m3
  | 0x14 => some e5m2
  | 0x15 => some e3m2
  | 0x16 => some e2m3
  | 0x17 => some e2m1
  | _ => none
/-- Bits per element (R184). -/
def elemBits (fmt : Nat) : Nat :=
  match ffOf fmt with
  | some f => f.width
  | none => if 7 ≤ fmt ∧ fmt ≤ 0xD then fmt - 5 else match fmt with
    | 0x0E => 8 | 0x0F => 8 | 0x10 => 4 | 0x11 => 4 | 0x12 => 2 | 0x18 => 8 | 0x19 => 4 | _ => 8
def isBfp (fmt : Nat) : Bool := decide (7 ≤ fmt) && decide (fmt ≤ 0xD)
def isScaled (fmt : Nat) : Bool := decide (0x13 ≤ fmt) && decide (fmt ≤ 0x19)
/-- A format with a shared byte (R190, R191). -/
def hasShared (fmt : Nat) : Bool := isBfp fmt || isScaled fmt
/-- Storage block size in bytes (R184). -/
def blockBytes (fmt : Nat) : Nat := (if hasShared fmt then 1 else 0) + cdiv (4 * elemBits fmt) 8
/-- Slice width (R184): 9 stands for two passes. -/
def sliceWidth (fmt : Nat) : Nat := if fmt ≤ 1 then 9 else elemBits fmt
/-- Signed and range of an integer code (R188). -/
def isInt (fmt : Nat) : Bool := (decide (0x0E ≤ fmt) && decide (fmt ≤ 0x12)) || fmt == 0x18 || fmt == 0x19
def isUnsigned (fmt : Nat) : Bool := fmt == 0x0F || fmt == 0x11

/-- The value of an element from its field and, in a format with a shared byte, that byte (R186, R188, R190, R191). -/
def elemValue (fmt shared x : Nat) : Num :=
  let w := elemBits fmt
  if isBfp fmt then (if shared = 255 then .nan else
    match ofInt (sintOf w x) with | .fin s m _ => .fin s m ((shared : Int) - 127 - ((w : Int) - 1)) | r => r)
  else
    let v := match ffOf fmt with
      | some f => f.dec (x % 2 ^ w)
      | none => ofInt (if isUnsigned fmt then ((x % 2 ^ w : Nat) : Int) else sintOf w x)
    if !isScaled fmt then v
    else if shared = 255 then .nan
    else match v with | .fin s m e => .fin s m (e + shared - 127) | r => r

/-- Position of an element of a block: bit offset within the bytes of its geometry, from the first byte of the blocks' area.
`geo`: 0 packed, 1 lines, 2 quads (R192, R193). -/
def quadBlocks (w : Nat) : Nat := 4 * (128 / (w + 2))
def geoOf (fmt : Nat) (g : Nat) : Nat := if g = 2 ∧ !hasShared fmt then 0 else g
/-- Bit offset of the shared byte of storage block b. -/
def sharedAt (fmt g b : Nat) : Nat :=
  match geoOf fmt g with
  | 0 => 8 * (b * blockBytes fmt)
  | 1 => 8 * (64 * (b / (64 / blockBytes fmt)) + b % (64 / blockBytes fmt) * blockBytes fmt)
  | _ => let q := quadBlocks (elemBits fmt); let i := b % q
    2048 * (b / q) + 512 * (i % 4) + 8 * (i / 4)
/-- Bit offset of element t of storage block b. -/
def elemAt (fmt g b t : Nat) : Nat :=
  match geoOf fmt g with
  | 0 => 8 * (b * blockBytes fmt + if hasShared fmt then 1 else 0) + elemBits fmt * t
  | 1 => 8 * (64 * (b / (64 / blockBytes fmt)) + b % (64 / blockBytes fmt) * blockBytes fmt + if hasShared fmt then 1 else 0) + elemBits fmt * t
  | _ => let q := quadBlocks (elemBits fmt); let i := b % q
    2048 * (b / q) + 512 * t + 2 * q + elemBits fmt * i
/-- Blocks of a page (R192, R193). -/
def pageBlocks (fmt g : Nat) : Nat :=
  match geoOf fmt g with
  | 0 => 4096 / blockBytes fmt
  | 1 => 64 * (64 / blockBytes fmt)
  | _ => 16 * quadBlocks (elemBits fmt)
/-- Geometry of a page attribute (R192 to R194). -/
def pageGeo (fmt baxis : Nat) (lpack : Bool) : Nat := if baxis = 1 then (if hasShared fmt then 2 else 0) else if lpack then 1 else 0
/-- w bits from a bit offset, from a byte reader. -/
def bitsAt (rd : Nat → Byte) (o w : Nat) : Nat :=
  leNat ((List.range (w / 8 + 2)).map fun i => rd (o / 8 + i)) / 2 ^ (o % 8) % 2 ^ w
/-- Element number n of a page or stream, decoded. -/
def elemNum (rd : Nat → Byte) (fmt g n : Nat) : Num :=
  elemValue fmt (if hasShared fmt then bitsAt rd (sharedAt fmt g (n / 4)) 8 else 0) (bitsAt rd (elemAt fmt g (n / 4) (n % 4)) (elemBits fmt))
/-- R197: the lane an element of a formatted page enters. -/
def laneOf (rd : Nat → Byte) (fmt g n : Nat) : W32 :=
  let x := bitsAt rd (elemAt fmt g (n / 4) (n % 4)) (elemBits fmt)
  if 0x0E ≤ fmt ∧ fmt ≤ 0x12 then BitVec.ofInt 32 (if isUnsigned fmt then (x : Int) else sintOf (elemBits fmt) x)
  else BitVec.ofNat 32 (fp32.enc 1 0 false (elemNum rd fmt g n))

/-! ### Conversion of a block (R201, R202) -/

def encElem (fmt mode d : Nat) (x : Num) : Nat :=
  match ffOf fmt with
  | some f => f.enc mode d false x
  | none =>
    let w := elemBits fmt
    let v := if isUnsigned fmt then encInt 0 (2 ^ w - 1) mode d x else encInt (-(2 ^ (w - 1) : Nat)) ((2 ^ (w - 1) : Nat) - 1) mode d x
    (v % (2 ^ w : Nat)).toNat

/-- mmax as mantissa and exponent, in units of unit(shared) (R202). -/
def mmax (fmt : Nat) : Nat × Int :=
  match ffOf fmt with
  | some f => match f.dec f.maxCode with | .fin _ m e => (m, e) | _ => (0, 0)
  | none => (2 ^ (elemBits fmt - 1) - 1, 0)
def floorLog2 (m : Nat) (e : Int) : Int := (m.log2 : Int) + e
/-- |x| on exact values, ∞ beyond every finite value. -/
def absLess (x y : Num) : Bool :=
  match x, y with
  | .inf _, _ => false
  | .fin _ _ _, .inf _ => true
  | .fin _ m e, .fin _ n f => Num.lt (.fin false m e) (.fin false n f)
  | _, _ => false

/-- q_t of R202 before the clamp: the element rounded in units of the shared byte; the answer is its exact value in those units. -/
def blockElem (fmt mode d : Nat) (shared : Int) (x : Num) : Num :=
  let unit : Int := if isBfp fmt then shared - 127 - ((elemBits fmt : Int) - 1) else shared - 127
  match x with
  | .fin s m e =>
    match ffOf fmt with
    | some f =>
      if m = 0 then .fin s 0 0 else
      let e := e - unit
      let u : Int := max ((m.log2 : Int) + e) (1 - (f.bias : Int)) - f.mb
      .fin s (roundUnits mode d s m e u) u
    | none => .fin s (roundUnits mode d s m (e - unit) 0) 0
  | r => r
def passes (fmt : Nat) (q : Num) : Bool :=
  let (m, e) := mmax fmt
  -- the mantissa −2^(w−1) of a BFP block is valid where a value rounds to exactly that step
  match q with
  | .inf _ => true
  | .fin s n f => Num.lt (.fin false m e) (.fin false n f) && !(isBfp fmt && s && f == 0 && n == m + 1)
  | .nan => false
/-- The field of a clamped q_t (R189): ±mmax beyond the largest element, an infinity too; −2^(w−1) in a BFP block stands only where q_t is
exactly that step. DESIGN CHOICE: assumption 146. -/
def blockField (fmt : Nat) (q : Num) : Nat :=
  match ffOf fmt with
  | some f => f.enc 2 0 true q
  | none =>
    let w := elemBits fmt
    let top : Nat := 2 ^ (w - 1) - 1
    if isBfp fmt && q == .fin true (top + 1) 0 then top + 1
    else ((encInt (-(top : Int)) top 2 0 (match q with | .inf s => .fin s top 0 | r => r)) % (2 ^ w : Nat)).toNat

/-- R202: the shared byte and four fields of a block, and how many draws it took: none where no element is rounded (R200). -/
def convertBlock (fmt mode : Nat) (draw : Nat → Nat) (xs : List Num) : Nat × List Nat × Nat :=
  let shared0 := if isBfp fmt then 0 else 127
  if xs.any Num.isNan then (255, [0, 0, 0, 0], 0) else
  let z := xs.foldl (fun a x => if absLess a x then x else a) (.fin false 0 0)
  match z with
  | .fin _ 0 _ => (shared0, [0, 0, 0, 0], 0)
  | _ =>
    let k : Int := match z with | .fin _ m e => floorLog2 m e | _ => 128
    let emax : Int := floorLog2 (mmax fmt).1 (mmax fmt).2
    let sh : Int := max 0 (min 254 (if isBfp fmt then k + 128 else k - emax + 127))
    let qs := (List.range 4).map fun t => blockElem fmt mode (draw t) sh (xs.getD t (.fin false 0 0))
    if qs.any (passes fmt) && decide (sh < 254) then
      let sh := sh + 1
      let qs := (List.range 4).map fun t => blockElem fmt mode (draw (4 + t)) sh (xs.getD t (.fin false 0 0))
      (sh.toNat, qs.map (blockField fmt), 8)
    else (sh.toNat, qs.map (blockField fmt), 4)

/-! ### Stochastic generators (R200) -/

def xorshift (x : W64) : W64 :=
  let x := x ^^^ (x <<< 13)
  let x := x ^^^ (x >>> 7)
  x ^^^ (x <<< 17)
def advanceGen : Nat → W64 → W64
  | 0, x => x
  | n + 1, x => advanceGen n (xorshift x)
/-- The n-th draw (from 0) of a generator in state x. -/
def drawAt (x : W64) (n : Nat) : Nat := (advanceGen (n + 1) x).toNat / 2 ^ 48

/-! ### Division, e^x and ln x -/

/-- a / b on exact values with a sticky bit below 80 places, enough to round once in RNE. -/
def Num.div (a b : Num) : Num :=
  match a, b with
  | .fin s m e, .fin t n f =>
    if n = 0 then (if m = 0 then .nan else .inf (s != t))
    else if m = 0 then .fin (s != t) 0 0
    else
      let k := 80 + n.log2
      let q := m * 2 ^ k / n
      .fin (s != t) (2 * q + if m * 2 ^ k % n = 0 then 0 else 1) (e - f - k - 1)
  | .inf s, .fin t _ _ => .inf (s != t)
  | .fin s _ _, .inf t => .fin (s != t) 0 0
  | _, _ => .nan

/-- Fixed point with 2^320 as one. -/
def fxOne : Nat := 2 ^ 320
/-- Σ (−1)^n t^n / n!, alternating, from term n on, t in fixed point. DEDUCED: assumption 25. -/
def expSeries (t : Nat) : Nat → Nat → Nat → Nat
  | 0, _, _ => 0
  | k + 1, n, term => term - expSeries t k (n + 1) (term * t / fxOne / (n + 1))
def squares : Nat → Nat → Nat
  | 0, x => x
  | k + 1, x => squares k (x * x / fxOne)
/-- e^x correctly rounded to FP32 for x ≤ 0, with e^−∞ = +0 (R277). -/
def expRne (x : Num) : Nat :=
  match x with
  | .nan => fp32.canon
  | .inf neg => if neg then 0 else 0x7F800000
  | .fin _ 0 _ => 0x3F800000
  | .fin _ m e =>
    if Num.lt (.fin false 104 0) (.fin false m e) then 0
    else if Num.lt (.fin false m e) (.fin false 1 (-30)) then 0x3F800000
    else
      let t := roundUnits 2 0 false m e (-312)   -- |x| / 2^8 in units of 2^-320
      fp32.enc 1 0 false (.fin false (squares 8 (expSeries t 70 0 fxOne)) (-320))
/-- Σ z^(2k+1) / (2k+1), z and z² in fixed point. -/
def atanhSeries (z2 : Nat) : Nat → Nat → Nat → Nat
  | 0, _, _ => 0
  | k + 1, n, pow => pow / (2 * n + 1) + atanhSeries z2 k (n + 1) (pow * z2 / fxOne)
/-- ln (a / b) for b ≤ a < 2b in fixed point. -/
def lnRatio (a b : Nat) : Nat :=
  let z := (a - b) * fxOne / (a + b)
  2 * atanhSeries (z * z / fxOne) 110 0 z
def ln2 : Nat := lnRatio 2 1
/-- m + ln l rounded to FP32 in RNE, for l > 0 (R277). -/
def lseRne (m l : Num) : Nat :=
  match l with
  | .fin _ a e =>
    if a = 0 then 0xFF800000 else
    let k : Int := floorLog2 a e
    let frac : Int := (lnRatio a (2 ^ a.log2) : Nat)
    let v : Int := k * (ln2 : Nat) + frac
    let ln : Num := .fin (decide (v < 0)) v.natAbs (-320)
    fp32.enc 1 0 false (Num.add false m ln)
  | .inf _ => 0x7F800000
  | .nan => fp32.canon

end Sys2Proof.Machine
end

