-- ==== Sys2Proof/Machine/Vector.lean ====
section
/-! DEFINITION. Slot 2: vector integer (R227, R228), floating-point (R229), compare (R230), select and move (R231, R232), reduction
(R233), conversion (R234), cross-cluster (R235), piecewise-polynomial (R236, R237) and bitmap operations (R238). -/
namespace Sys2Proof.Machine

/-! ### Blocks -/

/-- Row i of a source operand in cluster c; field 62 reads the leaving row of the core's drain when one leaves (R261). -/
def State.vsrc (s : State) (base i c : Nat) : Row :=
  let k := s.me
  match (if base = 62 then k.latRow else none), k.drain with
  | some r, some d => rowOf (fun l => tgetD (s.quad s.myQuad).arr.banks (d.bank * 65536 + r * 256 + (128 * i + 16 * c + l)) 0) 16
  | _, _ => k.vreg (base + i) c

/-- The registers of a block in the order of R163, from a function of row and cluster. -/
def blockData (rows cs n : Nat) (f : Nat → Nat → Row) : List Row :=
  (List.range (rows * n)).map fun q => f (q / n) (cs + q % n)

/-- A vector result over the block of an instruction, in the lanes given. -/
def State.pushV (s : State) (sh : Lent) (lat : Nat) (d : Fin 64) (lanes : Pred) (f : Nat → Nat → Row) : State :=
  let x := s.me.extent sh
  s.push 2 lat (.vec d.val (rowsOf sh) x.1 x.2 lanes (blockData (rowsOf sh) x.1 x.2 f))

/-- R226: a lane-wise operation on one or two source blocks under predicate p. -/
def laneOp2 (i : Instr) (s : State) (sh : Lent) (lat : Nat) (d a b : Fin 64) (p : Fin 8) (f : W32 → W32 → W32) : Host.Outcome State Fault Refusal :=
  meaning i 2 s (.ok (s.pushV sh lat d (s.me.preg p.val) fun r c =>
    let x := s.vsrc a.val r c; let y := s.vsrc b.val r c
    rowOf (fun l => f (lane x l) (lane y l)) 16))
def laneOp1 (i : Instr) (s : State) (sh : Lent) (lat : Nat) (d a : Fin 64) (p : Fin 8) (f : W32 → W32) : Host.Outcome State Fault Refusal :=
  meaning i 2 s (.ok (s.pushV sh lat d (s.me.preg p.val) fun r c =>
    let x := s.vsrc a.val r c
    rowOf (fun l => f (lane x l)) 16))

/-! ### Packed elements (R198) -/

/-- Element width of the integer element code (R42). -/
def elemW (e : Nat) : Nat := match e with | 0 => 32 | 1 => 16 | _ => 8
/-- Element k of a lane. -/
def elemOf (w : Nat) (x : W32) (k : Nat) : Nat := x.toNat / 2 ^ (w * k) % 2 ^ w
/-- A lane from its elements. -/
def packFrom (w : Nat) (f : Nat → Nat) : Nat → Nat
  | 0 => 0
  | k + 1 => f k % 2 ^ w * 2 ^ (w * k) + packFrom w f k
def pack (w : Nat) (f : Nat → Nat) : W32 := BitVec.ofNat 32 (packFrom w f (32 / w))
def elemInt (w : Nat) (uns : Bool) (x : W32) (k : Nat) : Int := if uns then (elemOf w x k : Int) else sintOf w (elemOf w x k)
def packed2 (w : Nat) (uns sat : Bool) (f : Int → Int → Int) (a b : W32) : W32 :=
  pack w fun k => narrow w uns sat (f (elemInt w uns a k) (elemInt w uns b k))
def packed1 (w : Nat) (uns sat : Bool) (f : Int → Int) (a : W32) : W32 := pack w fun k => narrow w uns sat (f (elemInt w uns a k))

/-! ### R227, R228 -/
def execVadd (d a b : Fin 64) (p : Fin 8) (e : Fin 4) (u t : Bool) (sh : Lent) (s : State) :=
  laneOp2 (.vadd d a b p e u t sh) s sh 2 d a b p (packed2 (elemW e.val) u t (· + ·))
def execVsub (d a b : Fin 64) (p : Fin 8) (e : Fin 4) (u t : Bool) (sh : Lent) (s : State) :=
  laneOp2 (.vsub d a b p e u t sh) s sh 2 d a b p (packed2 (elemW e.val) u t (· - ·))
def execVmul (d a b : Fin 64) (p : Fin 8) (e : Fin 4) (u t : Bool) (sh : Lent) (s : State) :=
  laneOp2 (.vmul d a b p e u t sh) s sh 4 d a b p (packed2 (elemW e.val) u t (· * ·))
def execVmulh (d a b : Fin 64) (p : Fin 8) (e : Fin 4) (u : Bool) (sh : Lent) (s : State) :=
  laneOp2 (.vmulh d a b p e u sh) s sh 4 d a b p (packed2 (elemW e.val) u false fun x y => x * y / (2 ^ elemW e.val : Nat))
def execVmin (d a b : Fin 64) (p : Fin 8) (e : Fin 4) (u : Bool) (sh : Lent) (s : State) :=
  laneOp2 (.vmin d a b p e u sh) s sh 2 d a b p (packed2 (elemW e.val) u false fun x y => if x < y then x else y)
def execVmax (d a b : Fin 64) (p : Fin 8) (e : Fin 4) (u : Bool) (sh : Lent) (s : State) :=
  laneOp2 (.vmax d a b p e u sh) s sh 2 d a b p (packed2 (elemW e.val) u false fun x y => if x < y then y else x)
def execVand (d a b : Fin 64) (p : Fin 8) (sh : Lent) (s : State) := laneOp2 (.vand d a b p sh) s sh 2 d a b p (· &&& ·)
def execVor (d a b : Fin 64) (p : Fin 8) (sh : Lent) (s : State) := laneOp2 (.vor d a b p sh) s sh 2 d a b p (· ||| ·)
def execVxor (d a b : Fin 64) (p : Fin 8) (sh : Lent) (s : State) := laneOp2 (.vxor d a b p sh) s sh 2 d a b p (· ^^^ ·)
/-- Shifts by element k of b modulo the width. -/
def shiftPacked (w : Nat) (f : Nat → Nat → Nat) (a b : W32) : W32 := pack w fun k => f (elemOf w a k) (elemOf w b k % w)
def execVshl (d a b : Fin 64) (p : Fin 8) (e : Fin 4) (sh : Lent) (s : State) :=
  laneOp2 (.vshl d a b p e sh) s sh 2 d a b p (shiftPacked (elemW e.val) fun x n => x * 2 ^ n)
def execVshr (d a b : Fin 64) (p : Fin 8) (e : Fin 4) (sh : Lent) (s : State) :=
  laneOp2 (.vshr d a b p e sh) s sh 2 d a b p (shiftPacked (elemW e.val) fun x n => x / 2 ^ n)
def execVsra (d a b : Fin 64) (p : Fin 8) (e : Fin 4) (sh : Lent) (s : State) :=
  laneOp2 (.vsra d a b p e sh) s sh 2 d a b p (shiftPacked (elemW e.val) fun x n =>
    narrow (elemW e.val) false false (sintOf (elemW e.val) x / (2 ^ n : Nat)))
def execVabs (d a : Fin 64) (p : Fin 8) (e : Fin 4) (t : Bool) (sh : Lent) (s : State) :=
  laneOp1 (.vabs d a p e t sh) s sh 2 d a p (packed1 (elemW e.val) false t fun x => if x < 0 then -x else x)
def execVneg (d a : Fin 64) (p : Fin 8) (e : Fin 4) (t : Bool) (sh : Lent) (s : State) :=
  laneOp1 (.vneg d a p e t sh) s sh 2 d a p (packed1 (elemW e.val) false t fun x => -x)
def execVclz (d a : Fin 64) (p : Fin 8) (e : Fin 4) (sh : Lent) (s : State) :=
  laneOp1 (.vclz d a p e sh) s sh 2 d a p fun x => pack (elemW e.val) fun k => clzN (elemW e.val) (elemOf (elemW e.val) x k)
def execVpopc (d a : Fin 64) (p : Fin 8) (e : Fin 4) (sh : Lent) (s : State) :=
  laneOp1 (.vpopc d a p e sh) s sh 2 d a p fun x => pack (elemW e.val) fun k => popN (elemW e.val) (elemOf (elemW e.val) x k)
def imm32 (i : Fin 1024) : W32 := BitVec.ofInt 32 (sintOf 10 i.val)
def execVaddi (d a : Fin 64) (p : Fin 8) (i : Fin 1024) (sh : Lent) (s : State) :=
  laneOp1 (.vaddi d a p i sh) s sh 2 d a p (· + imm32 i)
def execVli (d : Fin 64) (p : Fin 8) (i : Fin 1024) (sh : Lent) (s : State) :=
  meaning (.vli d p i sh) 2 s (.ok (s.pushV sh 2 d (s.me.preg p.val) fun _ _ => rowOf (fun _ => imm32 i) 16))

/-! ### Rounding and draws (R199, R200) -/

/-- The 2-bit rounding field of R42 as a code of CTXCTL.rnd. -/
def Core.modeOf (k : Core) (r : Nat) : Nat := match r with | 0 => bits k.ctxctl 10 8 | 1 => 1 | 2 => 2 | _ => 5
/-- The 3-bit rounding field of R42. -/
def Core.mode3 (k : Core) (r : Nat) : Nat := if r = 0 then bits k.ctxctl 10 8 else r
/-- Key of a generator of a partition (R200). -/
def genKey (p g : Nat) : Nat := p * 32768 + g
/-- The state of a generator; unlisted: as a WRMS of 0 to SRSEED loads it (R200). -/
def State.gen (s : State) (p g : Nat) : W64 := tgetD s.gens (genKey p g) (if g = 0 then 1 else BitVec.ofNat 64 g)
/-- Take n draws from a generator when the mode is stochastic. -/
def State.drew (s : State) (p g mode n : Nat) : State :=
  if mode = 5 then { s with gens := tset s.gens (genKey p g) (advanceGen n (s.gen p g)) } else s
/-- Active lanes of cluster c below lane l. -/
def activeBelow (p : Pred) (c : Nat) : Nat → Nat
  | 0 => 0
  | l + 1 => (if p.getLsbD (16 * c + l) then 1 else 0) + activeBelow p c l
/-- Draws of each cluster of a block: `cnt` per active lane, or one per cluster (`red`). DEDUCED: assumption 132. -/
def State.drewBlock (s : State) (sh : Lent) (mode cnt : Nat) (lanes : Pred) (red : Bool) : State :=
  let x := s.me.extent sh
  (List.range x.2).foldl (fun t j =>
    t.drew s.myPart (8 * s.cur + (x.1 + j)) mode (if red then 1 else cnt * rowsOf sh * activeBelow lanes (x.1 + j) 16)) s

/-- A lane-wise operation that rounds: `f` gets the number of the lane's first draw and the generator. -/
def roundedOp (i : Instr) (s : State) (sh : Lent) (lat mode cnt : Nat) (d : Fin 64) (p : Fin 8)
    (f : (Nat → Nat) → Nat → Nat → Nat → W32) : Host.Outcome State Fault Refusal :=
  let lanes := s.me.preg p.val
  let t := s.pushV sh lat d lanes fun r c =>
    let g := s.gen s.myPart (8 * s.cur + c)
    let a := activeBelow lanes c 16
    rowOf (fun l => f (fun k => if mode = 5 then drawAt g (cnt * (r * a + activeBelow lanes c l) + k) else 0) r c l) 16
  meaning i 2 s (.ok (t.drewBlock sh mode cnt lanes false))

/-! ### R229 -/
/-- The type of the float element code (R42). -/
def floatOf (t : Nat) : FF := match t with | 0 => fp32 | 1 => bf16 | _ => fp16
def perLaneF (t : Nat) : Nat := if t = 0 then 1 else 2
/-- A rounded operation on packed floats with two or three sources, of which d is the third: a source field too (R229, R261). DEDUCED: assumption 7. -/
def floatOp (i : Instr) (s : State) (sh : Lent) (d a b : Fin 64) (p : Fin 8) (t r : Fin 4) (f : Bool → Num → Num → Num → Num) :
    Host.Outcome State Fault Refusal :=
  let ff := floatOf t.val
  let mode := s.me.modeOf r.val
  roundedOp i s sh 4 mode (perLaneF t.val) d p fun draw row c l =>
    let x := lane (s.vsrc a.val row c) l; let y := lane (s.vsrc b.val row c) l; let z := lane (s.vsrc d.val row c) l
    pack ff.width fun k => ff.enc mode (draw k) false
      (f (mode == 4) (ff.dec (elemOf ff.width x k)) (ff.dec (elemOf ff.width y k)) (ff.dec (elemOf ff.width z k)))
def execVfadd (d a b : Fin 64) (p : Fin 8) (t r : Fin 4) (sh : Lent) (s : State) :=
  floatOp (.vfadd d a b p t r sh) s sh d a b p t r fun rdn x y _ => Num.add rdn x y
def execVfsub (d a b : Fin 64) (p : Fin 8) (t r : Fin 4) (sh : Lent) (s : State) :=
  floatOp (.vfsub d a b p t r sh) s sh d a b p t r fun rdn x y _ => Num.add rdn x y.neg
def execVfmul (d a b : Fin 64) (p : Fin 8) (t r : Fin 4) (sh : Lent) (s : State) :=
  floatOp (.vfmul d a b p t r sh) s sh d a b p t r fun _ x y _ => x.mul y
def execVfma (d a b : Fin 64) (p : Fin 8) (t r : Fin 4) (sh : Lent) (s : State) :=
  floatOp (.vfma d a b p t r sh) s sh d a b p t r fun rdn x y z => Num.add rdn (x.mul y) z
/-- The smaller or larger of two encodings, −0 below +0, NaN canonical. -/
def minF (ff : FF) (x y : Nat) : Nat :=
  if (ff.dec x).isNan || (ff.dec y).isNan then ff.canon else if (ff.dec x).below (ff.dec y) then x else y
def maxF (ff : FF) (x y : Nat) : Nat :=
  if (ff.dec x).isNan || (ff.dec y).isNan then ff.canon else if (ff.dec x).below (ff.dec y) then y else x
def floatPick (ff : FF) (f : FF → Nat → Nat → Nat) (a b : W32) : W32 := pack ff.width fun k => f ff (elemOf ff.width a k) (elemOf ff.width b k)
def execVfmin (d a b : Fin 64) (p : Fin 8) (t : Fin 4) (sh : Lent) (s : State) :=
  laneOp2 (.vfmin d a b p t sh) s sh 2 d a b p (floatPick (floatOf t.val) minF)
def execVfmax (d a b : Fin 64) (p : Fin 8) (t : Fin 4) (sh : Lent) (s : State) :=
  laneOp2 (.vfmax d a b p t sh) s sh 2 d a b p (floatPick (floatOf t.val) maxF)
/-- The sign cleared or inverted; a NaN gives the canonical NaN. -/
def signOp (ff : FF) (clear : Bool) (x : Nat) : Nat :=
  let top := 2 ^ (ff.width - 1)
  if (ff.dec x).isNan then ff.canon else if clear then x % top else (x + top) % 2 ^ ff.width
def execVfabs (d a : Fin 64) (p : Fin 8) (t : Fin 4) (sh : Lent) (s : State) :=
  laneOp1 (.vfabs d a p t sh) s sh 2 d a p fun x => pack (floatOf t.val).width fun k => signOp (floatOf t.val) true (elemOf (floatOf t.val).width x k)
def execVfneg (d a : Fin 64) (p : Fin 8) (t : Fin 4) (sh : Lent) (s : State) :=
  laneOp1 (.vfneg d a p t sh) s sh 2 d a p fun x => pack (floatOf t.val).width fun k => signOp (floatOf t.val) false (elemOf (floatOf t.val).width x k)

/-! ### R230 -/
/-- Bits of the lanes of a one-row block where a test holds. -/
def laneBits (cs n : Nat) (f : Nat → Nat → Bool) : Pred :=
  (List.range (16 * n)).foldl (fun r q => if f (cs + q / 16) (q % 16) then r ||| (1#128 <<< (16 * cs + q)) else r) 0
def comparePush (i : Instr) (s : State) (sh : Lent) (q p : Fin 8) (a b : Fin 64) (f : W32 → W32 → Bool) : Host.Outcome State Fault Refusal :=
  let x := s.me.extent sh
  let pg := s.me.preg p.val
  let lanes := laneBits x.1 x.2 fun c l => pg.getLsbD (16 * c + l)
  let res := laneBits x.1 x.2 fun c l => pg.getLsbD (16 * c + l) && f (lane (s.vsrc a.val 0 c) l) (lane (s.vsrc b.val 0 c) l)
  meaning i 2 s (.ok (s.push 2 2 (.pred q.val lanes res)))
def execVcmp (c q : Fin 8) (a b : Fin 64) (p : Fin 8) (u : Bool) (sh : Lent) (s : State) :=
  comparePush (.vcmp c q a b p u sh) s sh q p a b fun x y => condV c.val (elemInt 32 u x 0) (elemInt 32 u y 0)
/-- R230: conditions on FP32; NE and UN are true of a NaN, the others false. -/
def condF (c : Nat) (x y : Num) : Bool :=
  let un := x.isNan || y.isNan
  match c with
  | 0 => !un && !x.lt y && !y.lt x
  | 1 => un || x.lt y || y.lt x
  | 2 => !un && x.lt y
  | 3 => !un && !x.lt y
  | 4 => !un && !y.lt x
  | 5 => !un && y.lt x
  | _ => un
def execVfcmp (c q : Fin 8) (a b : Fin 64) (p : Fin 8) (sh : Lent) (s : State) :=
  comparePush (.vfcmp c q a b p sh) s sh q p a b fun x y => condF c.val (fp32.dec x.toNat) (fp32.dec y.toNat)

/-! ### R231, R232 -/
/-- R231: every lane is written. -/
def execVsel (d a b : Fin 64) (n : Fin 8) (sh : Lent) (s : State) :=
  meaning (.vsel d a b n sh) 2 s (.ok (s.pushV sh 2 d (BitVec.allOnes 128) fun r c =>
    rowOf (fun l => if (s.me.preg n.val).getLsbD (16 * c + l) then lane (s.vsrc a.val r c) l else lane (s.vsrc b.val r c) l) 16))
def execVshuf (d a b : Fin 64) (p : Fin 8) (sh : Lent) (s : State) :=
  meaning (.vshuf d a b p sh) 2 s (.ok (s.pushV sh 3 d (s.me.preg p.val) fun r c =>
    rowOf (fun l => lane (s.vsrc a.val r c) ((lane (s.vsrc b.val r c) l).toNat % 16)) 16))
def execVbcast (d a : Fin 64) (k : Fin 16) (p : Fin 8) (sh : Lent) (s : State) :=
  meaning (.vbcast d a k p sh) 2 s (.ok (s.pushV sh 2 d (s.me.preg p.val) fun r c => rowOf (fun _ => lane (s.vsrc a.val r c) k.val) 16))
def execVmov (d a : Fin 64) (p : Fin 8) (sh : Lent) (s : State) := laneOp1 (.vmov d a p sh) s sh 2 d a p id
def execVmovs (d a : Fin 64) (p : Fin 8) (sh : Lent) (s : State) :=
  meaning (.vmovs d a p sh) 2 s (.ok (s.pushV sh 3 d (s.me.preg p.val) fun _ _ => rowOf (fun _ => (s.me.sreg a.val).truncate 32) 16))
def execVmovsTos (d a : Fin 64) (k : Fin 16) (sh : Lent) (s : State) :=
  meaning (.vmovsTos d a k sh) 2 s (.ok (s.pushS 2 3 d.val ((lane (s.vsrc a.val 0 (s.me.extent sh).1) k.val).zeroExtend 64)))

/-! ### R233 -/
/-- The lanes of a block of cluster c whose bit in pg is 1. -/
def State.gather (s : State) (sh : Lent) (a : Fin 64) (p : Fin 8) (c : Nat) : List W32 :=
  (List.range (rowsOf sh)).flatMap fun r =>
    ((List.range 16).filter fun l => (s.me.preg p.val).getLsbD (16 * c + l)).map fun l => lane (s.vsrc a.val r c) l
/-- The destination block writes every lane. -/
def reduceOp (i : Instr) (s : State) (sh : Lent) (d a : Fin 64) (p : Fin 8) (f : Nat → List W32 → W32) (mode : Nat) : Host.Outcome State Fault Refusal :=
  let t := s.pushV sh 5 d (BitVec.allOnes 128) fun _ c => rowOf (fun _ => f c (s.gather sh a p c)) 16
  meaning i 2 s (.ok (t.drewBlock sh mode 1 0 true))
def execVradd (d a : Fin 64) (p : Fin 8) (u t : Bool) (sh : Lent) (s : State) :=
  reduceOp (.vradd d a p u t sh) s sh d a p (fun _ xs => BitVec.ofNat 32 (narrow 32 u t ((xs.map fun x => elemInt 32 u x 0).foldl (· + ·) 0))) 0
def extreme (lt : W32 → W32 → Bool) (empty : W32) (xs : List W32) : W32 :=
  match xs with
  | [] => empty
  | x :: r => r.foldl (fun m y => if lt y m then y else m) x
def execVrmin (d a : Fin 64) (p : Fin 8) (u : Bool) (sh : Lent) (s : State) :=
  reduceOp (.vrmin d a p u sh) s sh d a p (fun _ => extreme (fun x y => if u then x.ult y else x.slt y) (if u then 0xFFFFFFFF else 0x7FFFFFFF)) 0
def execVrmax (d a : Fin 64) (p : Fin 8) (u : Bool) (sh : Lent) (s : State) :=
  reduceOp (.vrmax d a p u sh) s sh d a p (fun _ => extreme (fun x y => if u then y.ult x else y.slt x) (if u then 0 else 0x80000000)) 0
/-- R233: +0 for an empty X. -/
def sumF (mode d : Nat) (xs : List W32) : W32 :=
  BitVec.ofNat 32 (if xs.isEmpty then 0 else fp32.enc mode d false (Num.sum (xs.map fun x => fp32.dec x.toNat)))
def execVfradd (d a : Fin 64) (p : Fin 8) (r : Fin 4) (sh : Lent) (s : State) :=
  let mode := s.me.modeOf r.val
  reduceOp (.vfradd d a p r sh) s sh d a p (fun c => sumF mode (if mode = 5 then drawAt (s.gen s.myPart (8 * s.cur + c)) 0 else 0)) mode
def extremeF (below : Num → Num → Bool) (empty : W32) (xs : List W32) : W32 :=
  if xs.any (fun x => (fp32.dec x.toNat).isNan) then 0x7FC00000
  else extreme (fun x y => below (fp32.dec x.toNat) (fp32.dec y.toNat)) empty xs
def execVfrmin (d a : Fin 64) (p : Fin 8) (sh : Lent) (s : State) :=
  reduceOp (.vfrmin d a p sh) s sh d a p (fun _ => extremeF Num.below 0x7F800000) 0
def execVfrmax (d a : Fin 64) (p : Fin 8) (sh : Lent) (s : State) :=
  reduceOp (.vfrmax d a p sh) s sh d a p (fun _ => extremeF (fun x y => y.below x) 0xFF800000) 0

/-! ### R234 -/
def cvtWidth (t : Nat) : Nat := match t with | 0 => 32 | 1 => 16 | 2 => 16 | 3 => 32 | 4 => 16 | _ => 8
def isFloatType (t : Nat) : Bool := decide (t < 3)
def cvtDec (t x : Nat) : Num := if isFloatType t then (floatOf t).dec x else ofInt (sintOf (cvtWidth t) x)
def cvtEnc (t mode d : Nat) (x : Num) : Nat :=
  if isFloatType t then (floatOf t).enc mode d false x
  else (encInt (loOf (cvtWidth t) false) (hiOf (cvtWidth t) false) mode d x % (2 ^ cvtWidth t : Nat)).toNat
/-- One lane: `old` is the destination's lane, whose other elements are kept. DEDUCED: assumption 6. -/
def cvtLane (f g k mode : Nat) (draw : Nat → Nat) (x old : W32) : W32 :=
  let na := 32 / cvtWidth f; let nd := 32 / cvtWidth g
  let one (e dr : Nat) : Nat := cvtEnc g mode (draw dr) (cvtDec f (elemOf (cvtWidth f) x e))
  pack (cvtWidth g) fun i =>
    if na = nd then one i i
    else if na < nd then (if k * na ≤ i ∧ i < k * na + na then one (i - k * na) (i - k * na) else elemOf (cvtWidth g) old i)
    else one (k * nd + i) i
def execVcvt (d a : Fin 64) (f g p : Fin 8) (k r : Fin 4) (sh : Lent) (s : State) :=
  let m := s.me.modeOf r.val
  -- a conversion between two integer types performs no rounding and takes no draw (R200)
  let mode := if isFloatType f.val || isFloatType g.val then m else 2
  roundedOp (.vcvt d a f g p k r sh) s sh 3 mode (min (32 / cvtWidth f.val) (32 / cvtWidth g.val)) d p fun draw row c l =>
    cvtLane f.val g.val k.val mode draw (lane (s.vsrc a.val row c) l) (lane (s.me.vreg (d.val + row) c) l)

/-! ### R235 -/
/-- The sending cluster, counted from the block's first, of receiving cluster j. -/
def xcSource (m k n j : Nat) : Nat := match m with | 0 => (j + n - k % n) % n | 1 => k | _ => j ^^^ k
def isPow2 (n : Nat) : Bool := n == 1 || n == 2 || n == 4 || n == 8
def xcNear (m k cs n : Nat) : Bool :=
  (List.range n).all fun j => let a := cs + xcSource m k n j; let b := cs + j; a == b || (a + 1) % 8 == b % 8 || (b + 1) % 8 == a % 8
def execVxc (d a : Fin 64) (k p : Fin 8) (m : Fin 4) (sh : Lent) (s : State) :=
  let x := s.me.extent sh
  meaning (.vxc d a k p m sh) 2 s
    (if (m.val = 1 ∧ x.2 ≤ k.val) ∨ (m.val = 2 ∧ (!isPow2 x.2 ∨ x.2 ≤ k.val ∨ x.1 % x.2 ≠ 0)) then fault invalidOperand
     else .ok (s.pushV sh (if xcNear m.val k.val x.1 x.2 then 6 else 9) d (s.me.preg p.val) fun r c =>
       s.vsrc a.val r (x.1 + xcSource m.val k.val x.2 (c - x.1))))

/-! ### R236, R237 -/
def execPwld (a j : Fin 64) (sh : Lent) (s : State) :=
  let x := s.me.extent sh
  meaning (.pwld a j sh) 2 s
    (if 64 < j.val + 2 * rowsOf sh * x.2 then fault invalidOperand
     else .ok (s.push 2 4 (.pwp j.val (rowsOf sh) x.1 x.2 (BitVec.allOnes 128) (blockData (rowsOf sh) x.1 x.2 (s.vsrc a.val)))))
/-- A word of a segment: 0 lo, 1 to 4 the coefficients c0 to c3. -/
def segWord (x : BitVec 160) (i : Nat) : Num := fp32.dec (x.toNat / 2 ^ (32 * i) % 2 ^ 32)
/-- The largest segment index below n whose lo is at or below x; 0 if none. -/
def findSegment (seg : Nat → BitVec 160) (x : Num) : Nat → Nat
  | 0 => 0
  | n + 1 => let lo := segWord (seg n) 0; if !lo.isNan && !x.lt lo then n else findSegment seg x n
def rne32 (x : Num) : Num := fp32.dec (fp32.enc 1 0 false x)
def polynomial (seg : Nat → BitVec 160) (b : W32) : W32 :=
  let x := fp32.dec b.toNat
  if x.isNan then 0x7FC00000 else
  let c := seg (findSegment seg x 64)
  let t := rne32 (Num.add false x (segWord c 0).neg)
  let y := rne32 (Num.add false ((segWord c 4).mul t) (segWord c 3))
  let y := rne32 (Num.add false (y.mul t) (segWord c 2))
  BitVec.ofNat 32 (fp32.enc 1 0 false (Num.add false (y.mul t) (segWord c 1)))
def execVpwp (d a : Fin 64) (p : Fin 8) (sh : Lent) (s : State) := laneOp1 (.vpwp d a p sh) s sh 6 d a p (polynomial s.me.segment)

/-! ### R238 -/
/-- The bitmap of a block in cluster c: 512 bits a row. -/
def State.bitmap (s : State) (sh : Lent) (a : Fin 64) (c : Nat) : Nat :=
  (List.range (rowsOf sh)).foldl (fun w i => w + (s.vsrc a.val i c).toNat * 2 ^ (512 * i)) 0
/-- Position of the set bit of rank q among n bits, from position i. -/
def select : Nat → Nat → Nat → Nat → Option Nat
  | 0, _, _, _ => none
  | n + 1, w, i, q => if w % 2 = 1 then (if q = 0 then some i else select n (w / 2) (i + 1) (q - 1)) else select n (w / 2) (i + 1) q
def execBrank (d a b : Fin 64) (p : Fin 8) (sh : Lent) (s : State) :=
  meaning (.brank d a b p sh) 2 s (.ok (s.pushV sh 3 d (s.me.preg p.val) fun r c =>
    let w := s.bitmap sh a c
    rowOf (fun l => BitVec.ofNat 32 (popN (min (lane (s.vsrc b.val r c) l).toNat (512 * rowsOf sh)) w)) 16))
def execBsel (d a b : Fin 64) (p : Fin 8) (sh : Lent) (s : State) :=
  meaning (.bsel d a b p sh) 2 s (.ok (s.pushV sh 3 d (s.me.preg p.val) fun r c =>
    let w := s.bitmap sh a c
    rowOf (fun l => match select (512 * rowsOf sh) w 0 (lane (s.vsrc b.val r c) l).toNat with
      | some i => BitVec.ofNat 32 i
      | none => 0xFFFFFFFF) 16))

end Sys2Proof.Machine
end

