-- ==== Sys2Proof/Machine/LoadStore.lean ====
section
/-! DEFINITION. Loads and stores (R161 to R166), the tag table (R156), MARK and FENCE (R168) and atomics (R169). -/
namespace Sys2Proof.Machine

/-- Format M offset (R38, R40): signed off8, or off16 with a lent byte, in units of 2^unit bytes. DEDUCED: assumption 5. -/
def offM (unit : Nat) (o : Fin 256) (l : Lent) : W64 :=
  let v : W64 := match l with
    | none => sextTo 8 o.val
    | some b => sextTo 16 (b.val * 256 + o.val)
  v <<< unit

/-- An 18-bit immediate of format B (R40). -/
def immB (k : Fin 1024) (l : Lent) : Nat := match l with | none => k.val | some b => b.val * 1024 + k.val

/-- Core lanes of a cluster that a predicate leaves on. -/
def anyLane (p : Pred) (c : Nat) : Bool := decide (0 < activeBelow p c 16)

/-! ### Overlaps that a rule leaves unspecified (R81, R144) -/

/-- Whether the byte at va is covered by one of a list of ranges. -/
def isDirty (l : List (Nat × Nat)) (va : Nat) : Bool := l.any fun e => decide (e.1 ≤ va) && decide (va < e.1 + e.2)
/-- The bytes of an address range that a list of ranges covers, if any. -/
def anyDirty (l : List (Nat × Nat)) (va n : Nat) : Bool := l.any fun e => decide (e.1 < va + n) && decide (va < e.1 + e.2)
/-- What a byte, by its place, held before the first store or atomic that a command notes for it (R144). -/
def Overlap.before (l : Overlap) (k : Nat) : Option Byte :=
  (l.dirty.find? fun e => decide (e.1 ≤ k) && decide (k < e.1 + e.2.1.length)).map fun e => e.2.1.getD (k - e.1) 0
/-- A command notes a store, not an atomic alone, of a byte. -/
def Overlap.stored (l : Overlap) (k : Nat) : Bool := l.dirty.any fun e => e.2.2 && decide (e.1 ≤ k) && decide (k < e.1 + e.2.1.length)
/-- A command notes a store or an atomic of one of n bytes. -/
def Overlap.noted (l : Overlap) (k n : Nat) : Bool := l.dirty.any fun e => decide (e.1 < k + n) && decide (k < e.1 + e.2.1.length)
/-- A choice that the spec leaves open: one of two values of a byte (R144). DESIGN CHOICE: assumption 1. -/
def freeBit (n i : Nat) : Bool := (Config.freeByte n i).getLsbD 0

/-- The commands of a core's engines that are not complete, by what they keep for R144. -/
def State.laps (s : State) (c : Nat) : List Overlap :=
  ((s.quad (c / 4)).chans.flatMap fun h => (h.2.filter fun m => m.core == c && !m.done).map CopyCmd.lap)
  ++ ((s.die (dieOfCore c)).att.flatMap fun h => (h.2.filter fun m => m.core == c).map AttCmd.lap)
  ++ ((s.die (dieOfCore c)).rte.filter fun m => m.core == c).map RteCmd.lap
/-- Change what they keep, by the channel and the number of each. -/
def State.mapLaps (s : State) (c : Nat) (f : Nat → Nat → Overlap → Overlap) : State :=
  if (s.laps c).isEmpty then s
  else
    let q := s.quad (c / 4)
    let s := s.setQuad (c / 4) { q with chans := q.chans.map fun (h : Nat × List CopyCmd) => (h.1, h.2.map fun m =>
      if m.core == c && !m.done then { m with lap := f h.1 m.id m.lap } else m) }
    let x := s.die (dieOfCore c)
    s.setDie (dieOfCore c) { x with
      att := x.att.map fun (h : Nat × List AttCmd) => (h.1, h.2.map fun m => if m.core == c then { m with lap := f m.chan m.ord m.lap } else m)
      rte := x.rte.map fun m => if m.core == c then { m with lap := f m.chan m.ord m.lap } else m }

/-- A live slot of a partition that is not done has its destination where a range lies (R81). -/
def HSlot.meets (h : HSlot) (p va n : Nat) : Bool :=
  h.part == p && decide (h.done.length < h.units) && decide (va < h.dst.toNat + 4096 * h.units) && decide (h.dst.toNat < va + n)
def State.inSlot (s : State) (p va n : Nat) : Bool := s.dies.any fun e => e.2.flash.slots.any fun h => h.2.meets p va n
/-- The slots that a write overlaps note it. -/
def State.noteSlots (s : State) (p va n : Nat) : State :=
  if !s.inSlot p va n then s
  else
    let note := fun (h : HSlot) => if h.meets p va n then { h with dirty := (va, n) :: h.dirty } else h
    { s with dies := s.dies.map fun (e : Nat × Die) =>
        (e.1, { e.2 with flash := { e.2.flash with slots := e.2.flash.slots.map fun h => (h.1, note h.2) } }) }
/-- The program touches words of a histogram to which a pass of its partition adds (R290): the pass notes it. -/
def RteCmd.touched (m : RteCmd) (p va n : Nat) : Bool :=
  m.part == p && m.started && field m.desc 59 1 / 2 % 2 == 1 && decide (field m.desc 24 8 < va + n) && decide (va < field m.desc 24 8 + 4 * (m.shape.c0 + 1))
def State.noteHist (s : State) (va n : Nat) : State :=
  if s.dies.any fun d => d.2.rte.any fun m => m.touched s.myPart va n then
    let note := fun (m : RteCmd) => if m.touched s.myPart va n then { m with touches := m.touches ++ [(va, n)] } else m
    { s with dies := s.dies.map fun (d : Nat × Die) => (d.1, { d.2 with rte := d.2.rte.map note }) }
  else s
/-- The loads of a bundle, by address and bytes. -/
def State.noteLoads (s : State) (ls : List (Nat × Nat)) : State := ls.foldl (fun s l => s.noteHist l.1 l.2) s
/-- A message reads its source at an address range, and has not landed (R301). -/
def SendRec.meets (r : SendRec) (va n : Nat) : Bool := !r.landed && decide (r.src.toNat < va + n) && decide (va < r.src.toNat + r.len)
/-- The message notes a store at a place over what its sender read there before. -/
def SendRec.note (r : SendRec) (va k : Nat) (old : Nat → List Byte) (n : Nat) : SendRec :=
  if r.meets va n then { r with lap := { r.lap with dirty := r.lap.dirty ++ [(k, old r.core, true)] } } else r
def Tile.noteSend (t : Tile) (p va k : Nat) (old : Nat → List Byte) (n : Nat) : Tile :=
  if t.part = p then { t with send := t.send.map fun r => r.note va k old n } else t
def Req.noteSend (q : Req) (p va k : Nat) (old : Nat → List Byte) (n : Nat) : Req := match q with
  | .bind c p' d g ix r => if p' = p then .bind c p' d g ix (r.note va k old n) else q
  | q => q
/-- A store of any core of a partition over n source bytes of a message that is bound or on its way to its permit: the message notes it. -/
def State.noteSends (s : State) (va k : Nat) (old : Nat → List Byte) (n : Nat) : State :=
  { s with
    reqs := s.reqs.map fun (e : Nat × Req) => (e.1, e.2.noteSend s.myPart va k old n)
    dies := s.dies.map fun (d : Nat × Die) => (d.1, { d.2 with tiles := d.2.tiles.map fun t => (t.1, t.2.noteSend s.myPart va k old n) }) }
/-- A number for each byte of the machine, by its place: under it a command keeps what overlaps it (R144). -/
def Place.key : Place → Nat
  | .phys pa => pa
  | .host o => hostPa + o
  | .tile d ix _ o => 2 ^ 62 + (d * 2 ^ 17 + ix) * 2 ^ 20 + o
  | .flash e o => 2 ^ 63 + e * 2 ^ 41 + o
/-- The n bytes from a place on, as core c reads them. -/
def State.bytesNow (s : State) (c : Nat) (p : Place) (n : Nat) : List Byte :=
  match p with
  | .phys pa => (List.range n).map fun i => s.seenByte c (pa + i)
  | .host o => s.hostNow c o n
  | .tile d ix gen o => (List.range n).map fun i => match s.liveTile d ix gen with | some t => t.byte (o + i) | none => 0
  | .flash e o => (List.range n).map fun i => s.flashByte e (o + i)
/-- A store of the current core (`plain`), or an atomic of it, of n bytes at a place: the commands of the core in flight, the messages and the
slots note it. -/
def State.noteStore (s : State) (va : Nat) (p : Place) (plain : Bool) (n : Nat) : State :=
  (((s.mapLaps s.cur fun _ _ l => { l with dirty := l.dirty ++ [(p.key, s.bytesNow s.cur p n, plain)] }).noteHist va n).noteSends va p.key
    (fun c => s.bytesNow c p n) n).noteSlots s.myPart va n

/-- Whether bytes of a store now lie where a live slot that is not done (R81) has its destination, or where a command of the core still in
flight has written (R144). DESIGN CHOICE: assumption 21. -/
def State.overlapped (s : State) (va k n : Nat) : Bool :=
  ((s.laps s.cur).any fun l => anyDirty l.wrote k n) || s.inSlot s.myPart va n
/-- A byte that a command of the core has written is left as it is, and not as the store has it: the choice that R144 leaves open. -/
def State.keepsCopy (s : State) (k : Nat) : Bool := ((s.laps s.cur).any fun l => isDirty l.wrote k) && freeBit s.fresh k
/-- A byte as a store or an atomic leaves it: in a slot's destination any byte (R81). -/
def State.slotByte (s : State) (va : Nat) (b : Byte) : Byte := if s.inSlot s.myPart va 1 then Config.freeByte s.fresh va else b
/-- The runs of bytes, by offset, that a list from an offset on holds. -/
def runsOf : Nat → List (Option Byte) → List (Nat × List Byte)
  | _, [] => []
  | o, none :: t => runsOf (o + 1) t
  | o, some b :: t => match runsOf (o + 1) t with
    | (o', bs) :: r => if o' = o + 1 then (o, b :: bs) :: r else (o, [b]) :: (o', bs) :: r
    | [] => [(o, [b])]
/-- What a store writes: its bytes by offset, but those that a command of the core has written and that are left so (R144). -/
def State.storeRuns (s : State) (va k : Nat) (b : List Byte) : List (Nat × List Byte) :=
  if s.overlapped va k b.length then
    runsOf 0 ((b.zip (List.range b.length)).map fun e =>
      if !s.inSlot s.myPart (va + e.2) 1 && s.keepsCopy (k + e.2) then none else some (s.slotByte (va + e.2) e.1))
  else [(0, b)]
/-- What an atomic writes (R313): its bytes, all of them. -/
def State.atomicBytes (s : State) (va : Nat) (b : List Byte) : List Byte := (b.zip (List.range b.length)).map fun e => s.slotByte (va + e.2) e.1
/-- The commands have noted a store or an atomic; the next choice of R144 or R81 is another. -/
def State.settled (s : State) (va : Nat) (p : Place) (plain : Bool) (n : Nat) : State :=
  (if s.overlapped va p.key n then { s with fresh := s.fresh + 1 } else s).noteStore va p plain n
/-- Runs of bytes leave for their home from an address on. -/
def State.storeRunsAt (s : State) (pa : Nat) : List (Nat × List Byte) → State
  | [] => s
  | (o, b) :: t => (s.storePhys s.cur s.myPart 0 (pa + o) b).storeRunsAt pa t
/-- The current core's store at a place it has translated. One to the host register block goes by the path as any other (R318). -/
def State.storePlace (s : State) (va : W64) (p : Place) (b : List Byte) : State :=
  match p with
  | .phys pa => (s.settled va.toNat p true b.length).storeRunsAt pa (s.storeRuns va.toNat p.key b)
  | .host o => (s.settled va.toNat p true b.length).storeRunsAt (hostPa + o) (s.storeRuns va.toNat p.key b)
  | .tile d ix _ o => s.writeTile d ix o b
  | .flash _ _ => s

/-! ### Loads -/

/-- A scalar load (R162): predicated off it makes no access. -/
def loadScalar (s : State) (d b : Fin 64) (p : Fin 8) (z : Fin 4) (o : Fin 256) (l : Lent) : Res :=
  if !s.me.ptest p.val then .ok s else
  let va := s.me.sreg b.val + offM z.val o l
  if va.toNat % 2 ^ z.val ≠ 0 then fault alignment 0 va else
  match s.readVa .load va (2 ^ z.val) with
  | .stop r => r
  | .ok (bs, _, pl) => .ok (((s.noteHist va.toNat (2 ^ z.val)).countPlaces s.cur [(pl, 2 ^ z.val)]).pend [keyS d.val] (some (.scalar d.val (BitVec.ofNat 64 (leNat bs)))) (s.loadLatency pl)).2
def execLd (d b : Fin 64) (p : Fin 8) (z : Fin 4) (o : Fin 256) (l : Lent) (s : State) :=
  meaning (.ld d b p z o l) 1 s (loadScalar s d b p z o l)

/-- Translate and read each line of a list of (address, length); the first that stops decides. -/
def State.readLines (s : State) : List (W64 × Nat) → MRes (List (List Byte × W64 × Place))
  | [] => .ok []
  | (va, n) :: t =>
    match s.readVa .load va n with
    | .stop (.hold u) => .stop (.hold (u.joinAll .load (t.map (·.1))))
    | .stop r => .stop r
    | .ok x =>
      match s.readLines t with
      | .stop r => .stop r
      | .ok xs => .ok (x :: xs)

/-- A row from 64 bytes (R163). -/
def rowBytes (b : List Byte) : Row := BitVec.ofNat 512 (leNat b)
def bytesRow (x : Row) : List Byte := leBytes 64 x.toNat
/-- Attribute of a leaf: format, blocking axis, line packing (R103). -/
def attr (leaf : W64) : Nat := bits leaf 63 56
def State.maxLatency (s : State) (l : List (List Byte × W64 × Place)) : Nat := l.foldl (fun m x => max m (s.loadLatency x.2.2)) 4

/-- R196: the number of the first element of the block, or quad, that begins at a byte offset of a page; the block's index is a
multiple of 4. -/
def firstElem (fmt g off : Nat) : Option Nat :=
  let b := match geoOf fmt g with
    | 0 => if off % blockBytes fmt = 0 then some (off / blockBytes fmt) else none
    | 1 => if off % 64 % blockBytes fmt = 0 ∧ off % 64 / blockBytes fmt < 64 / blockBytes fmt
           then some (off / 64 * (64 / blockBytes fmt) + off % 64 / blockBytes fmt) else none
    | _ => if off % 256 = 0 then some (off / 256 * quadBlocks (elemBits fmt)) else none
  match b with
  | some b => if b % 4 = 0 ∧ b < pageBlocks fmt g then some (4 * b) else none
  | none => none

/-- Byte offsets in its page that an element, and its shared byte, occupy. -/
def elemSpan (fmt g n : Nat) : List Nat :=
  let o := elemAt fmt g (n / 4) (n % 4)
  (if hasShared fmt then [sharedAt fmt g (n / 4) / 8] else []) ++ (List.range ((o + elemBits fmt - 1) / 8 + 1 - o / 8)).map (o / 8 + ·)
/-- The parts of lines that a list of byte offsets lies in, each as (first, length). -/
def linesOf (os : List Nat) : List (Nat × Nat) :=
  ((os.map (· / 64)).eraseDups).map fun l =>
    let mine := os.filter fun o => o / 64 == l
    let lo := mine.foldl min (64 * l + 63)
    (lo, mine.foldl max 0 + 1 - lo)
/-- A byte of pieces read at offsets. -/
def pieceByte (ps : List ((Nat × Nat) × List Byte)) (o : Nat) : Byte :=
  match ps.find? fun p => decide (p.1.1 ≤ o) && decide (o < p.1.1 + p.1.2) with
  | some p => p.2.getD (o - p.1.1) 0
  | none => 0
/-- The reads of lines are counted (R120, R121, R386, R391). -/
def State.counted (s : State) (c : Nat) (xs : List (List Byte × W64 × Place)) : State := s.countPlaces c (xs.map fun x => (x.2.2, x.1.length))

/-- The lanes of a block that a load moves, as elements counted from its first: lane l of register-cluster q is 16 q + l. -/
def laneElems (on : List Nat) (act : Nat → Nat → Bool) : List Nat := on.flatMap fun q => ((List.range 16).filter (act q)).map fun l => 16 * q + l
/-- The rows of a block from raw lines (R163); a line of a formatted page lies in a page of another attribute (R103). -/
def State.rawRows (s : State) (va : W64) (on : List Nat) : MRes (List (Nat × Row) × List (List Byte × W64 × Place)) :=
  match s.readLines (on.map fun q => (va + BitVec.ofNat 64 (64 * q), 64)) with
  | .stop r => .stop r
  | .ok xs => if xs.all fun y => pteFmt y.2.1 == 31 then .ok ((on.zip xs).map fun e => (e.1, rowBytes e.2.1), xs) else .stop (fault alignment 0 va)
/-- The rows of a block from the elements of the formatted page that holds its address (R196): the bytes of the elements of active lanes are read
where the page's geometry has them, and translate on their own (R112). The lines that those bytes lie in are the ones that R103 compares.
DESIGN CHOICE: assumption 152. -/
def State.formattedRows (s : State) (va : W64) (pa : Nat) (leaf : W64) (on : List Nat) (act : Nat → Nat → Bool) :
    MRes (List (Nat × Row) × List (List Byte × W64 × Place)) :=
  let fmt := pteFmt leaf; let g := pageGeo fmt (pteBaxis leaf) (pteLpack leaf); let off := pa % 4096
  match firstElem fmt g off with
  | none => .stop (fault alignment 0 va)
  | some e0 =>
    let es := laneElems on act
    if es.any fun e => decide (4 * pageBlocks fmt g ≤ e0 + e) then .stop (fault alignment 0 va)
    else
      let ls := linesOf (es.flatMap fun e => elemSpan fmt g (e0 + e))
      match s.readLines (ls.map fun l => (va + BitVec.ofNat 64 l.1 - BitVec.ofNat 64 off, l.2)) with
      | .stop r => .stop r
      | .ok xs =>
        if xs.any fun x => attr x.2.1 != attr leaf then .stop (fault alignment 0 va)
        else
          let rd := pieceByte (ls.zip (xs.map fun x => x.1))
          .ok (on.map fun q => (q, rowOf (fun l => if act q l then laneOf rd fmt g (e0 + 16 * q + l) else 0) 16), xs)
/-- LDV (R163, R196, R197): register-cluster q of the block, of those in `on`, whose lanes `act` are moved: from raw lines, or from the elements
of the page that holds the block's address. Where no active line lies in that page, its translation is no access of the load. -/
def State.vectorRows (s : State) (va : W64) (on : List Nat) (act : Nat → Nat → Bool) : MRes (List (Nat × Row) × List (List Byte × W64 × Place)) :=
  if on.isEmpty then .ok ([], [])
  else match s.translate s.ctx .load va with
  | .at_ (.phys pa) leaf => if pteFmt leaf = 31 then s.rawRows va on else s.formattedRows va pa leaf on act
  | .at_ _ _ => s.rawRows va on
  | t => if (s.windowAt s.ctx va.toNat).isSome || on.any fun q => (va.toNat + 64 * q) / 4096 == va.toNat / 4096 then .stop (s.transStop va t) else s.rawRows va on
def loadVector (s : State) (d b : Fin 64) (p : Fin 8) (z : Fin 4) (o : Fin 256) (l : Lent) : Res :=
  let k := s.me
  let (cs, n) := k.ctxExtent
  let rows := 2 ^ z.val
  let pg := k.preg p.val
  let va := k.sreg b.val + offM 6 o l
  if va.toNat % 64 ≠ 0 then fault alignment 0 va else
  let on := (List.range (rows * n)).filter fun q => anyLane pg (cs + q % n)
  match s.vectorRows va on (fun q l => pg.getLsbD (16 * (cs + q % n) + l)) with
  | .stop r => r
  | .ok (_, []) => .ok s
  | .ok (rs, xs) =>
    let data := (List.range (rows * n)).map fun q => match rs.find? fun e => e.1 == q with | some e => e.2 | none => 0
    .ok (((s.noteLoads (on.map fun q => (va.toNat + 64 * q, 64))).counted s.cur xs).pend ((Payload.vec d.val rows cs n pg []).keys) (some (.vec d.val rows cs n pg data)) (s.maxLatency xs)).2
def execLdv (d b : Fin 64) (p : Fin 8) (z : Fin 4) (o : Fin 256) (l : Lent) (s : State) :=
  meaning (.ldv d b p z o l) 1 s (loadVector s d b p z o l)

/-- The active lanes of the context's extent, in core-lane order, with the address LDG and STS give each (R164). -/
def State.laneAddrs (s : State) (a b : Fin 64) (p : Fin 8) (sc : Fin 4) : List (Nat × Nat × W64) :=
  let k := s.me
  let (cs, n) := k.ctxExtent
  (List.range (16 * n)).filterMap fun q =>
    let c := cs + q / 16; let l := q % 16
    if (k.preg p.val).getLsbD (16 * c + l) then some (c, l, k.sreg a.val + ((lane (k.vreg b.val c) l).zeroExtend 64 <<< sc.val)) else none
/-- Element bytes of LDG and STS (R164). -/
def elemN (e : Fin 4) : Nat := match e.val with | 0 => 4 | 1 => 2 | _ => 1
def misaligned (n : Nat) (xs : List (Nat × Nat × W64)) : Option W64 := (xs.find? fun x => x.2.2.toNat % n != 0).map fun x => x.2.2

/-- The reads of the lines of n bytes from an address are counted, where they translate. -/
def State.countSpan (s : State) (va : W64) (n : Nat) : State :=
  match s.readLines ((List.range (cdiv n 64)).map fun i => (va + BitVec.ofNat 64 (64 * i), min 64 (n - 64 * i))) with
  | .ok xs => s.counted s.cur xs
  | .stop _ => s

/-- LDG (R164): if any active lane faults, no lane takes effect. -/
def loadGather (s : State) (d a b : Fin 64) (p : Fin 8) (sc e : Fin 4) : Res :=
  let (cs, n) := s.me.ctxExtent
  let ls := s.laneAddrs a b p sc
  match misaligned (elemN e) ls with
  | some va => fault alignment 0 va
  | none =>
    match s.readLines (ls.map fun x => (x.2.2, elemN e)) with
    | .stop r => r
    | .ok xs =>
      let vals := ls.zip xs
      if ls.isEmpty then .ok s else
      .ok (((s.noteLoads (ls.map fun x => (x.2.2.toNat, elemN e))).counted s.cur xs).pend (blockKeys d.val 1 cs n) (some (.vec d.val 1 cs n (s.me.preg p.val) ((List.range n).map fun j =>
        rowOf (fun l => match vals.find? fun v => v.1.1 == cs + j && v.1.2.1 == l with
          | some v => BitVec.ofNat 32 (leNat v.2.1)
          | none => 0) 16))) (s.maxLatency xs)).2
def execLdg (d a b : Fin 64) (p : Fin 8) (sc e : Fin 4) (s : State) := meaning (.ldg d a b p sc e) 1 s (loadGather s d a b p sc e)

/-- LDB (R165). DEDUCED: assumption 10. -/
def loadBroadcast (s : State) (d b : Fin 64) (p : Fin 8) (z : Fin 4) (o : Fin 256) (l : Lent) : Res :=
  let (cs, n) := s.me.ctxExtent
  let pg := s.me.preg p.val
  if !(List.range n).any (fun j => anyLane pg (cs + j)) then .ok s else
  let va := s.me.sreg b.val + offM z.val o l
  if va.toNat % 2 ^ z.val ≠ 0 then fault alignment 0 va else
  match s.readVa .load va (2 ^ z.val) with
  | .stop r => r
  | .ok (bs, _, pl) =>
    .ok (((s.noteHist va.toNat (2 ^ z.val)).countPlaces s.cur [(pl, 2 ^ z.val)]).pend (blockKeys d.val 1 cs n) (some (.vec d.val 1 cs n pg ((List.range n).map fun _ =>
      rowOf (fun _ => BitVec.ofNat 32 (leNat bs)) 16))) (s.loadLatency pl)).2
def execLdb (d b : Fin 64) (p : Fin 8) (z : Fin 4) (o : Fin 256) (l : Lent) (s : State) :=
  meaning (.ldb d b p z o l) 1 s (loadBroadcast s d b p z o l)

/-! ### Stores -/

def storeScalar (s : State) (d b : Fin 64) (p : Fin 8) (z : Fin 4) (o : Fin 256) (l : Lent) : Res :=
  if !s.me.ptest p.val then .ok s else
  let va := s.me.sreg b.val + offM z.val o l
  if va.toNat % 2 ^ z.val ≠ 0 then fault alignment 0 va else
  match s.translate s.ctx .store va with
  | .at_ pl _ => .ok (s.storePlace va pl (leBytes (2 ^ z.val) (s.me.sreg d.val).toNat))
  | t => s.transStop va t
def execSt (d b : Fin 64) (p : Fin 8) (z : Fin 4) (o : Fin 256) (l : Lent) (s : State) :=
  meaning (.st d b p z o l) 3 s (storeScalar s d b p z o l)

/-- Translate every address of a list as access `a`; the first that stops decides. -/
def State.places (s : State) (a : Acc) : List W64 → MRes (List Place)
  | [] => .ok []
  | va :: t =>
    match s.translate s.ctx a va with
    | .at_ p _ =>
      match s.places a t with
      | .stop r => .stop r
      | .ok ps => .ok (p :: ps)
    | .migrating => .stop (.hold (s.joinAll a (va :: t)))
    | r => .stop (s.transStop va r)

/-- Shift a place by a byte offset within its line. -/
def Place.plus : Place → Nat → Place
  | .phys pa, i => .phys (pa + i)
  | .host o, i => .host (o + i)
  | .tile d ix g o, i => .tile d ix g (o + i)
  | .flash e o, i => .flash e (o + i)

/-- The active lanes of a register-cluster as (offset, bytes); a whole row is one piece. -/
def rowPieces (pg : Pred) (c : Nat) (x : Row) : List (Nat × List Byte) :=
  if activeBelow pg c 16 = 16 then [(0, bytesRow x)]
  else ((List.range 16).filter fun l => pg.getLsbD (16 * c + l)).map fun l => (4 * l, leBytes 4 (lane x l).toNat)

/-- The pieces a vector store writes: address, place, bytes. -/
def State.storePieces (s : State) : List (W64 × Place × List Byte) → State
  | [] => s
  | (va, p, b) :: t => (s.storePlace va p b).storePieces t

/-- The register-clusters of a block that a predicate leaves a lane of, with their addresses (R163). -/
def State.blockLines (s : State) (d : Fin 64) (z : Fin 4) (p : Fin 8) (va : W64) : List (W64 × Nat × Row) :=
  let k := s.me
  let (cs, n) := k.ctxExtent
  ((List.range (2 ^ z.val * n)).filter fun q => anyLane (k.preg p.val) (cs + q % n)).map fun q =>
    (va + BitVec.ofNat 64 (64 * q), cs + q % n, k.vreg (d.val + q / n) (cs + q % n))

def storeVector (s : State) (d b : Fin 64) (p : Fin 8) (z : Fin 4) (o : Fin 256) (l : Lent) : Res :=
  let va := s.me.sreg b.val + offM 6 o l
  if va.toNat % 64 ≠ 0 then fault alignment 0 va else
  let ls := s.blockLines d z p va
  match s.places .store (ls.map (·.1)) with
  | .stop r => r
  | .ok ps => .ok (s.storePieces ((ls.zip ps).flatMap fun e =>
      (rowPieces (s.me.preg p.val) e.1.2.1 e.1.2.2).map fun w => (e.1.1 + BitVec.ofNat 64 w.1, e.2.plus w.1, w.2)))
def execStv (d b : Fin 64) (p : Fin 8) (z : Fin 4) (o : Fin 256) (l : Lent) (s : State) :=
  meaning (.stv d b p z o l) 3 s (storeVector s d b p z o l)

/-- STS (R164): lanes in ascending core-lane order, so the highest leaves its value. -/
def storeScatter (s : State) (d a b : Fin 64) (p : Fin 8) (sc e : Fin 4) : Res :=
  let ls := s.laneAddrs a b p sc
  match misaligned (elemN e) ls with
  | some va => fault alignment 0 va
  | none =>
    match s.places .store (ls.map fun x => x.2.2) with
    | .stop r => r
    | .ok ps => .ok (s.storePieces ((ls.zip ps).map fun x =>
        (x.1.2.2, x.2, leBytes (elemN e) (lane (s.me.vreg d.val x.1.1) x.1.2.1).toNat)))
def execSts (d a b : Fin 64) (p : Fin 8) (sc e : Fin 4) (s : State) := meaning (.sts d a b p sc e) 3 s (storeScatter s d a b p sc e)

/-- STORE_PERFORMED (R318). -/
def execStorePerformed (q : Nat) (s : State) : Host.Outcome State Fault Refusal := .next (s.performStore q)

/-! ### The tag table (R155, R156) -/

/-- Slots of the private carve-out (R158). -/
def Core.carve (k : Core) : Nat := cdiv k.priv 4096
def tagOf (va : W64) : BitVec 45 := BitVec.ofNat 45 (bits va 56 12)
/-- The slot whose entry holds a tag; a slot of the carve-out has no usable entry. -/
def Core.tagSlot (k : Core) (t : BitVec 45) : Option Nat := (k.tags.find? fun e => e.2 == t && decide (e.1 + k.carve < 192)).map (·.1)
/-- Another slot than n holds a tag. -/
def Core.tagRival (k : Core) (t : BitVec 45) (n : Nat) : Bool := k.tags.any fun e => e.2 == t && decide (e.1 + k.carve < 192) && e.1 != n
def execTagq (d a : Fin 64) (l : Lent) (s : State) :=
  meaning (.tagq d a l) 1 s (.ok (s.pushS 1 2 d.val (match s.me.tagSlot (tagOf (s.me.sreg a.val)) with
    | some k => BitVec.ofNat 64 k
    | none => 0xFFFF)))
def execTagset (a : Fin 64) (k : Fin 1024) (l : Lent) (s : State) :=
  let n := immB k l
  let t := tagOf (s.me.sreg a.val)
  meaning (.tagset a k l) 1 s
    (if 192 ≤ n + s.me.carve ∨ s.me.tagRival t n then fault invalidOperand
     else .ok (s.setMe { s.me with tags := tset s.me.tags n t }))
def execTagclr (k : Fin 1024) (l : Lent) (s : State) :=
  let n := immB k l
  meaning (.tagclr k l) 1 s
    (if n = 1023 then .ok (s.setMe { s.me with tags := [] })
     else if 192 ≤ n then fault invalidOperand
     else .ok (s.setMe { s.me with tags := tdel s.me.tags n }))

/-! ### MARK, FENCE (R168) -/

/-- R25, R35: what a slot waits for is earlier than its bundle. The wait is over once a slot of the bundle has issued: what that slot has begun
is not earlier, and every slot has been tried before the first one issues. DEDUCED: assumption 130. -/
def State.waitsFor (s : State) (x : Bool) : Bool := x && s.issue != .issued
/-- MARK orders at .core, where every access is already performed. -/
def execMark (s : State) := meaning .mark 3 s (.ok s)
/-- Whether what a release of a core covers is not yet performed at a scope: a store is, at .core and .quad, as it enters the path (R318), beyond the quad
when it reaches its home; a TWR when it reaches its tile. -/
def State.unperformed (s : State) (sc c : Nat) : Bool := (decide (3 ≤ sc) && s.releaseOut c) || (decide (2 ≤ sc) && s.tileWritesOut c)
def execFence (c : Fin 8) (s : State) :=
  meaning (.fence c) 3 s (if s.waitsFor (s.unperformed c.val s.cur) then s.releaseHold else .ok s)

/-! ### Atomics (R169) -/

/-- The read and the write form one access at the home: it stands in the store queue, so the writes of the quad before it, TWRs among
them, reach theirs first (R167, R318). -/
def atomicEffect (s : State) (d a b : Fin 64) (z : Bool) (f : Nat → W64 → W64 → W64) : Res :=
  let n := if z then 8 else 4
  let va := s.me.sreg a.val
  if va.toNat % n ≠ 0 then fault alignment 0 va else
  match s.translate s.ctx .atomic va with
  | .at_ (.phys pa) _ =>
    let t := s.flushPath s.myQuad
    match t.readAt t.cur (.phys pa) n with
    | .bytes bs =>
      let old : W64 := BitVec.ofNat 64 (leNat bs)
      let new := f (8 * n) old (s.me.sreg b.val)
      let w := t.atomicBytes va.toNat (leBytes n new.toNat)
      let t := (t.settled va.toNat (.phys pa) false n).countPlaces t.cur [(.phys pa, n)]
      .ok (({ t with mem := memWrite t.mem pa w }).pend [keyS d.val] (some (.scalar d.val old)) (s.loadLatency (.phys pa))).2
    | .tileBad => .hold s
    | .uncorrectable k i => uncorrectable k i
    | .host _ => .hold s
  | .at_ _ _ => fault translation tierCause va
  | t => s.transStop va t
/-- Signed order of the low w bits. -/
def lessW (w : Nat) (a b : W64) : Bool := decide (sintOf w a.toNat < sintOf w b.toNat)
def execAadd (d a b : Fin 64) (z : Bool) (c : Fin 8) (o : Bool) (s : State) :=
  meaning (.aadd d a b z c o) 1 s (atomicEffect s d a b z fun _ x y => x + y)
def execAmin (d a b : Fin 64) (z : Bool) (c : Fin 8) (o : Bool) (s : State) :=
  meaning (.amin d a b z c o) 1 s (atomicEffect s d a b z fun w x y => if lessW w y x then y else x)
def execAmax (d a b : Fin 64) (z : Bool) (c : Fin 8) (o : Bool) (s : State) :=
  meaning (.amax d a b z c o) 1 s (atomicEffect s d a b z fun w x y => if lessW w x y then y else x)
def execAand (d a b : Fin 64) (z : Bool) (c : Fin 8) (o : Bool) (s : State) :=
  meaning (.aand d a b z c o) 1 s (atomicEffect s d a b z fun _ x y => x &&& y)
def execAor (d a b : Fin 64) (z : Bool) (c : Fin 8) (o : Bool) (s : State) :=
  meaning (.aor d a b z c o) 1 s (atomicEffect s d a b z fun _ x y => x ||| y)
def execAxor (d a b : Fin 64) (z : Bool) (c : Fin 8) (o : Bool) (s : State) :=
  meaning (.axor d a b z c o) 1 s (atomicEffect s d a b z fun _ x y => x ^^^ y)
def execAswp (d a b : Fin 64) (z : Bool) (c : Fin 8) (o : Bool) (s : State) :=
  meaning (.aswp d a b z c o) 1 s (atomicEffect s d a b z fun _ _ y => y)
def execAcas (d a b : Fin 64) (z : Bool) (c : Fin 8) (o : Bool) (s : State) :=
  meaning (.acas d a b z c o) 1 s (atomicEffect s d a b z fun w x y =>
    if x.toNat % 2 ^ w = (s.me.sreg d.val).toNat % 2 ^ w then y else x)

/-- INTERLOCKED_RESULT_ARRIVES (R32): the value lands and the mark clears. -/
def State.arrive (s : State) (c id : Nat) : State :=
  let k := s.core c
  match k.pend.find? fun p => p.id == id with
  | none => s
  | some p =>
    match p.value with
    | none => s
    | some v => s.setCore c { k.landPend p.seq v with pend := k.pend.filter fun q => q.id != id }
def execInterlockedResultArrives (c id : Nat) (s : State) : Host.Outcome State Fault Refusal := .next (s.arrive c id)
/-- REGISTER_WRITE_LANDS (R30). -/
def execRegisterWriteLands (c : Nat) (s : State) : Host.Outcome State Fault Refusal := .next (s.setCore c (s.core c).landDue)

end Sys2Proof.Machine
end

