-- ==== Sys2Proof/Machine/Kennel.lean ====
section
/-! DEFINITION. The Kennel (R170 to R183): allocating, writing, sealing and reading tiles, and reclaiming them. -/
namespace Sys2Proof.Machine

/-! ### Naming a tile -/

/-- What an address that must name a tile gives (R170): a tile slot of a die with the generation, or the fault. -/
inductive Named where
  | tile (d ix gen : Nat) (t : Option Tile)
  | bad (r : Res)

/-- R170, R177, R179: outside the window invalid-operand, then the die and partition checks. -/
def State.nameTile (s : State) (va : W64) : Named :=
  if !inKennel va.toNat then .bad (fault invalidOperand)
  else if !bit (s.part s.myPart).ttbase 0 then .bad (fault translation notMapped va)
  else
    let d := bits va 51 49; let gen := bits va 48 37; let ix := bits va 36 20
    if 6 ≤ d then .bad (fault translation notMapped va)
    else match s.liveTile d ix gen with
      | some t => if t.part ≠ s.myPart then .bad (fault translation permission va) else .tile d ix gen (some t)
      | none => .tile d ix gen none


/-- The tile identifier of a tile (R170). -/
def tileId (d gen ix : Nat) : Nat := d * 2 ^ 29 + gen * 2 ^ 17 + ix
/-- The generation a slot gives its next tile (R171): 1 at reset, where the rule gives no value. DESIGN CHOICE: assumption 145. -/
def Die.gen (x : Die) (ix : Nat) : Nat := tgetD x.gens ix 1

/-! ### Quotas and grants (R172 to R175) -/

def State.kpart (s : State) (d p : Nat) : W64 := tgetD (s.part p).kpart d 0
def guarantee (w : W64) : Nat := bits w 16 0
def ceiling (w : W64) : Nat := bits w 33 17
/-- Units a partition holds on a die. -/
def Die.used (x : Die) (p : Nat) : Nat := (x.tiles.filter fun t => t.2.part == p).foldl (fun n t => n + t.2.units) 0
/-- Units drawn from the shared part by n more units (R174). -/
def needShared (u n g : Nat) : Nat := (u + n - g) - (u - g)
/-- The shared units of a die that are free (R175). -/
def State.sharedFree (s : State) (d : Nat) : Nat :=
  let x := s.die d
  kennelUnits d - (List.range 16).foldl (fun a p => a + guarantee (s.kpart d p) + (x.used p - guarantee (s.kpart d p))) 0

/-- The lowest free slot of a Kennel (R174). -/
def lowestFree (t : Tbl Tile) : Nat → Nat → Nat
  | 0, n => n
  | f + 1, n => match tget t n with | none => n | some _ => lowestFree t f (n + 1)

/-- Make a tile (R174); its bytes are unspecified. -/
def State.makeTile (s : State) (d p : Nat) (r : TReq) : W64 × State :=
  let x := s.die d
  let ix := lowestFree x.tiles 131072 0
  let (seed, s) := s.newSeed
  (tileVa d (x.gen ix) ix,
    s.setDie d { x with tiles := tset x.tiles ix ⟨x.gen ix, r.units, p, r.reads, r.life, false, false, none, seed, []⟩ })

/-- Deliver a granted tile: to the core that holds the bundle (its grant is held if it is pre-empted, R390), or to the ring entry of the task that suspended (R175, R347). -/
def State.deliverTile (s : State) (c p : Nat) (ent : Option Nat) (r : TReq) (va : W64) : State :=
  match ent with
  | none =>
    let k := s.core c
    if k.part = p ∧ k.task.isSome then s.setCore c { k with talloc := some { r with addr := some va } }
    else
      let d := dieOfCore c
      let x := s.die d
      s.setDie d { x with saved := x.saved.map fun v => if v.core = c ∧ v.part = p then { v with k := { v.k with talloc := some { r with addr := some va } } } else v }
  | some e =>
    let x := s.part p
    match tget x.ring e with
    | some n => (s.setPart p { x with ring := tset x.ring e { n with grant := some va } }).schedule 0 (.taskReady p e)
    | none => s

/-- R175: walk the waiting requests of a die in order; `parts` are the partitions with an older request left waiting, `blocked`
says that an older request waits for shared units. -/
def State.grantWalk (s : State) (d : Nat) : List (Nat × TReq × Nat × Option Nat) → List Nat → Bool → State
  | [], _, _ => s
  | (c, r, p, e) :: t, parts, blocked =>
    let u := (s.die d).used p
    let need := needShared u r.units (guarantee (s.kpart d p))
    if !parts.contains p && decide (u + r.units ≤ ceiling (s.kpart d p)) && decide (need ≤ s.sharedFree d) && !(blocked && decide (0 < need)) then
      let (va, s) := s.makeTile d p r
      (s.deliverTile c p e r va).grantWalk d t parts blocked
    else
      let x := s.die d
      (s.setDie d { x with treqs := x.treqs ++ [(c, r, p, e)] }).grantWalk d t (p :: parts) (blocked || decide (0 < need))
/-- TALLOC_GRANT (R175). -/
def State.grantTiles (s : State) (d : Nat) : State :=
  let x := s.die d
  (s.setDie d { x with treqs := [] }).grantWalk d x.treqs [] false
def execTallocGrant (d : Nat) (s : State) : Host.Outcome State Fault Refusal := .next (s.grantTiles d)

/-- A request that arrives is granted at once or joins the waiting ones, behind which it stands; units freed in this clock are offered to those from
the next (R175). -/
def State.considerNew (s : State) (d : Nat) (r : Nat × TReq × Nat × Option Nat) : State :=
  let x := s.die d
  s.grantWalk d [r] (x.treqs.map fun o => o.2.2.1)
    (x.treqs.any fun o => decide (0 < needShared (x.used o.2.2.1) o.2.1.units (guarantee (s.kpart d o.2.2.1))))
/-- TALLOC_REQUEST_ARRIVES (R175). -/
def State.tallocArrives (s : State) (c : Nat) : State :=
  let k := s.core c
  match k.talloc with
  | some r =>
    if r.arrived then s else
    let r := { r with arrived := true }
    let s := s.setCore c { k with talloc := some r }
    s.considerNew r.die (c, r, k.part, none)
  | none => s
def execTallocRequestArrives (c : Nat) (s : State) : Host.Outcome State Fault Refusal := .next (s.tallocArrives c)

/-- TALLOC (R174): the request travels first; the bundle issues when the grant is there. A waiting task that may suspend does so
(R175), at this bundle. DESIGN CHOICE: assumption 29. -/
def tallocEffect (s : State) (d a n : Fin 64) (t : Fin 8) (l : Fin 16) : Res :=
  let k := s.me
  let die := if t.val = 0 then s.myDie else t.val - 1
  match k.talloc with
  | some r =>
    match r.addr with
    | some va =>
      .ok ((s.setMe { k with talloc := none }).pend [keyS d.val] (some (.scalar d.val va)) (if r.die = s.myDie then 6 else 380)).2
    | none => if r.arrived && !k.inPlace then .hold ((s.setMe { k with post := .suspend 3 0 0 k.pc }).flowDrain s.cur) else .hold s
  | none =>
    let size := (k.sreg a.val).toNat
    let reads := (k.sreg n.val).toNat
    if size % 4096 ≠ 0 ∨ size < 4096 ∨ 262144 < size then fault invalidOperand
    else if reads < 1 ∨ 65535 < reads then fault invalidOperand
    else if ceiling (s.kpart die k.part) < size / 4096 then fault invalidOperand
    else
      .hold ((s.setMe { k with talloc := some ⟨die, size / 4096, reads, if l.val = 0 then 2 else l.val, none, false⟩ }).schedule
        (if die = s.myDie then 6 else 380) (.tallocRequestArrives s.cur))
def execTalloc (d a n : Fin 64) (t : Fin 8) (l : Fin 16) (lent : Lent) (s : State) :=
  meaning (.talloc d a n t l lent) 3 s (tallocEffect s d a n t l)

/-! ### Writing and sealing (R176, R177) -/



/-- Whether the places of a TWR are tiles it may write. -/
def State.twrBad (s : State) : List (W64 × Place) → Option Res
  | [] => none
  | (va, .tile d ix g _) :: t => if s.writable d ix g then s.twrBad t else some (fault 16 0 va)
  | (va, _) :: _ => some (fault translation permission va)

/-- The pieces of a TWR leave for their Kennel by the ordered store path (R167, R318). DESIGN CHOICE: assumption 30. -/
def State.sendPieces (s : State) : List (Place × List Byte) → State
  | [] => s
  | (.tile d ix g o, b) :: t => (s.enter (if d = s.myDie then 28 else 358) ⟨s.cur, s.myPart, 0, 0, some (d, ix, g), o, b⟩).sendPieces t
  | (_, _) :: t => s.sendPieces t

def twrEffect (s : State) (d b : Fin 64) (p : Fin 8) (z : Fin 4) (o : Fin 256) (l : Lent) : Res :=
  let va := s.me.sreg b.val + offM 6 o l
  if va.toNat % 64 ≠ 0 then fault alignment 0 va else
  let ls := s.blockLines d z p va
  match ls.find? fun e => !inKennel e.1.toNat with
  | some e => fault translation permission e.1
  | none =>
    match s.places .twr (ls.map (·.1)) with
    | .stop r => r
    | .ok ps =>
      match s.twrBad ((ls.map (·.1)).zip ps) with
      | some r => r
      | none => .ok (s.sendPieces ((ls.zip ps).flatMap fun e =>
          (rowPieces (s.me.preg p.val) e.1.2.1 e.1.2.2).map fun w => (e.2.plus w.1, w.2)))
def execTwr (d b : Fin 64) (p : Fin 8) (z : Fin 4) (o : Fin 256) (l : Lent) (s : State) :=
  meaning (.twr d b p z o l) 3 s (twrEffect s d b p z o l)

/-- TILE_ACCESS_ARRIVES (R176, R180): a TWR of a quad reaches its tile. -/
def execTileAccessArrives (c : Nat) (s : State) : Host.Outcome State Fault Refusal := .next (s.tileArrives (c / 4))

/-- TSEAL (R177). -/
def tsealEffect (s : State) (a : Fin 64) : Res :=
  let va := s.me.sreg a.val
  match s.nameTile va with
  | .bad r => r
  | .tile d ix _ t =>
    match t with
    | none => fault 16 0 va
    | some t =>
      if t.sealed || t.bound then fault 16 0 va
      else if s.waitsFor (s.releaseOut s.cur) then s.releaseHold
      else let x := s.die d; .ok (s.setDie d { x with tiles := tset x.tiles ix { t with sealed := true } })
def execTseal (a : Fin 64) (s : State) := meaning (.tseal a) 3 s (tsealEffect s a)

/-! ### Consuming reads (R178, R179) -/

def tileLatency (s : State) (d : Nat) : Nat := if d = s.myDie then 28 else 358
/-- Give up one read of a live tile; the last frees it (R171). DESIGN CHOICE: assumption 20. -/
def State.consume (s : State) (d ix : Nat) (t : Tile) : State :=
  let x := s.die d
  if t.count = 1 then s.freeTile d ix else s.setDie d { x with tiles := tset x.tiles ix { t with count := t.count - 1 } }

def tldEffect (s : State) (d b : Fin 64) (p : Fin 8) (z : Fin 4) (o : Fin 256) (l : Lent) : Res :=
  if !s.me.ptest p.val then .ok s else
  let va := s.me.sreg b.val + offM z.val o l
  let n := 2 ^ z.val
  match s.nameTile va with
  | .bad r => r
  | .tile dd ix _ t =>
    if va.toNat % n ≠ 0 then fault alignment 0 va else
    match t with
    | none => fault 16 0 va
    | some t =>
      let off := va.toNat % 2 ^ 20
      if !t.sealed then .hold s
      else if t.count = 0 then fault 16 0 va
      else if 4096 * t.units ≤ off then fault translation notMapped va
      else
        let v : W64 := BitVec.ofNat 64 (leNat ((List.range n).map fun i => t.byte (off + i)))
        .ok ((s.consume dd ix t).pend [keyS d.val] (some (.scalar d.val v)) (tileLatency s dd)).2
def execTld (d b : Fin 64) (p : Fin 8) (z : Fin 4) (o : Fin 256) (l : Lent) (s : State) :=
  meaning (.tld d b p z o l) 1 s (tldEffect s d b p z o l)

def tdropEffect (s : State) (a : Fin 64) : Res :=
  let va := s.me.sreg a.val
  match s.nameTile va with
  | .bad r => r
  | .tile d ix _ t =>
    match t with
    | none => fault 16 0 va
    | some t => if !t.sealed then .hold s else if t.count = 0 then fault 16 0 va else .ok (s.consume d ix t)
def execTdrop (a : Fin 64) (s : State) := meaning (.tdrop a) 1 s (tdropEffect s a)

/-- The status word of TCNT. -/
def tileStatus : Option Tile → W64
  | none => 0
  | some t => BitVec.ofNat 64 (2 ^ 17 + t.sealed.toNat * 2 ^ 16 + t.count)
def tcntEffect (s : State) (wait : Bool) (d a : Fin 64) : Res :=
  match s.nameTile (s.me.sreg a.val) with
  | .bad r => r
  | .tile dd _ _ t =>
    if wait && (match t with | some t => !t.sealed | none => false) then .hold s
    else .ok (s.pend [keyS d.val] (some (.scalar d.val (tileStatus t))) (tileLatency s dd)).2
def execTcnt (d a : Fin 64) (s : State) := meaning (.tcnt d a) 1 s (tcntEffect s false d a)
def execTcntWait (d a : Fin 64) (s : State) := meaning (.tcntWait d a) 1 s (tcntEffect s true d a)

/-! ### Lifetimes (R181) -/

/-- Reclaim one abandoned tile: it is counted on its own die. -/
def State.reclaim (s : State) (d ix : Nat) (t : Tile) : State :=
  let p := s.part t.part
  let old := tgetD p.kabn d 0
  let count := min 65535 (bits old 15 0 + 1)
  let v : W64 := BitVec.ofNat 64 (tileId d t.gen ix * 2 ^ 32 + count)
  (s.setPart t.part { p with kabn := tset p.kabn d v }).freeTile d ix

/-- TILE_RECLAIM: a boundary of partition p counts on every tile of it; lifetimes that end are reclaimed, and a strict
quota raises one count-mismatch fault of the partition. -/
def State.countLives (s : State) (p : Nat) : State :=
  let mine := s.dies.flatMap fun e => (e.2.tiles.filter fun t => t.2.part == p).map fun t => (e.1, t.1, t.2)
  let gone := mine.filter fun e => decide (e.2.2.life ≤ 1) && decide (0 < e.2.2.count)
  let strict := gone.find? fun e => bit (s.kpart e.1 p) 34
  let s := mine.foldl (fun s e =>
    if decide (e.2.2.life ≤ 1) && decide (0 < e.2.2.count) then s.reclaim e.1 e.2.1 e.2.2
    else let x := s.die e.1; s.setDie e.1 { x with tiles := tset x.tiles e.2.1 { e.2.2 with life := e.2.2.life - 1 } }) s
  match strict, gone.head? with
  | some _, some e => s.unitHalt p 8 (64 * e.1) ⟨16, 0, tileVa e.1 e.2.2.gen e.2.1, 0⟩
  | _, _ => s

end Sys2Proof.Machine
end

