-- ==== Sys2Proof/Machine/Translate.lean ====
section
/-! DEFINITION. The translation commands: TLBI (R107), COWST (R108 to R111), WMAP and WUNMAP (R112 to R114), page walks (R105) and
the events of the HBM stacks (R120 to R122). -/
namespace Sys2Proof.Machine

/-! ### TLBI (R107) -/

/-- Whether the core has a copy that is not performed (R143). -/
def State.copiesOut (s : State) (c : Nat) : Bool := (s.quad (c / 4)).chans.any fun h => h.2.any fun m => m.core == c && !m.done

/-- The waits of TLBI and the removal `f`; the core stalls dynamically for the unloaded time of the whole. -/
def tlbiEffect (s : State) (sup : Bool) (bad : Bool) (f : State → State) : Res :=
  if sup && !s.isSup then fault privilege
  else if bad then fault invalidOperand
  else if s.waitsFor (s.pathOut s.cur || s.copiesOut s.cur) then .hold s
  else let s := f s; .ok (s.setMe { s.me with dyn := s.me.dyn + 600 })
/-- Bits [63:4] of the partition operand are zero. -/
def partBad (v : W64) : Bool := bits v 63 4 != 0
def execTlbiVa (a : Fin 64) (s : State) :=
  meaning (.tlbiVa a) 3 s (tlbiEffect s false false fun t => t.removeTlb (covers s.myPart (bits (s.me.sreg a.val) 63 12)) false)
def execTlbiOwn (s : State) := meaning .tlbiOwn 3 s (tlbiEffect s false false fun t => t.removeTlb (fun e => e.part == s.myPart) true)
def execTlbiPva (a b : Fin 64) (s : State) :=
  meaning (.tlbiPva a b) 3 s (tlbiEffect s true (partBad (s.me.sreg b.val)) fun t =>
    t.removeTlb (covers (bits (s.me.sreg b.val) 3 0) (bits (s.me.sreg a.val) 63 12)) false)
def execTlbiPart (b : Fin 64) (s : State) :=
  meaning (.tlbiPart b) 3 s (tlbiEffect s true (partBad (s.me.sreg b.val)) fun t =>
    t.removeTlb (fun e => e.part == bits (s.me.sreg b.val) 3 0) true)
def execTlbiGlob (s : State) := meaning .tlbiGlob 3 s (tlbiEffect s true false fun t => t.removeTlb (fun _ => true) true)

/-- PAGE_WALK (R105). -/
def execPageWalk (d p vpn : Nat) (s : State) : Host.Outcome State Fault Refusal := .next (s.endWalk d p vpn)

/-! ### COWST (R108 to R111) -/

/-- Physical address of byte 0 of a die's HBM (R99). -/
def hbmStart (d : Nat) : Nat := if d = 0 then 0 else if d = 1 then 2 ^ 38 else 2 ^ 39 + (d - 2) * 2 ^ 37
/-- The virtual address of the reference record of a frame (R108). -/
def State.refRecord (s : State) (pa : Nat) : W64 :=
  let d := hbmDie pa
  BitVec.ofNat 64 (bits (s.die d).frt 63 12 * 4096 + 4 * ((pa - hbmStart d) / 4096))
/-- Translate a record's address in the supervisor's space (R110). -/
def State.refPlace (s : State) (pa : Nat) : Trans := s.translate ⟨s.cur, s.svPart, true, false, 0, true⟩ .store (s.refRecord pa)

/-- Clocks that a piece in another die's HBM adds. -/
def farCost (d pa : Nat) : Nat := if pa < 2 ^ 40 ∧ hbmDie pa ≠ d then 242 else 0

/-- The entry of a page with another frame, not shared (R110). -/
def ownedLeaf (e : W64) (g : Nat) : W64 := BitVec.ofNat 64 (e.toNat / 2 ^ 54 * 2 ^ 54 + bits e 52 52 * 2 ^ 52 + g / 4096 % 2 ^ 40 * 4096 + bits e 11 0)

/-- The end of the shared path: the entry is rewritten, every TLB drops it, and the store is performed through the new entry. `tva` is the
address that the page tables translate (R146). -/
def State.cowFinish (s : State) (va : W64) (tva at_ : Nat) (e : W64) (g cost : Nat) (b : List Byte) : State :=
  let s := { s with mem := memWrite s.mem at_ (leBytes 8 (ownedLeaf e g).toNat) }
  let s := s.removeTlb (covers s.myPart (tva / 4096)) false
  let s := (s.storePlace va (.phys (g + va.toNat % 4096)) b).flushPath s.myQuad
  s.setMe { s.me with dyn := s.me.dyn + cost }

/-- Refill and repair are the supervisor's: the fault is contained and the bundle issues again (R110). -/
def contained (code sub : Nat) (info : W64) : Res := fault code sub info

/-- The shared path of COWST, from the leaf the page table holds. DEDUCED: assumption 33. -/
def cowShared (s : State) (va : W64) (tva : Nat) (e : W64) (at_ : Nat) (b : List Byte) : Res :=
  let frame := ptePa e
  let d := hbmDie frame
  let s := s.flushPath s.myQuad
  let lost (pa : Nat) : Res := contained 33 0 (BitVec.ofNat 64 (pa / 4096 * 4096))
  match s.refPlace frame with
  | .at_ (.phys rec) _ =>
    let s := (s.touch rec 4).touch at_ 8
    let c := leNat (memRead s.mem rec 2)
    let far := farCost s.myDie rec + farCost s.myDie at_ + farCost s.myDie frame
    if inWords s.badWords rec 4 then lost rec
    else if c = 0 then contained 34 0 0
    else if c = 1 then .ok (s.cowFinish va tva at_ e frame (850 + far) b)
    else if inWords s.badWords frame 4096 then lost frame
    else
      let x := s.die d
      if x.freeqHead = x.freeqTail then contained 35 0 0
      else
        let lg := bits x.freeqBase 4 0
        let ring := bits x.freeqBase 51 12 * 4096 + 8 * (x.freeqHead.toNat % 2 ^ lg)
        let g := leNat (memRead s.mem ring 8)
        let taken := (s.touch ring 8).setDie d { (s.touch ring 8).die d with freeqHead := x.freeqHead + 1 }
        if inWords s.badWords ring 8 then lost ring
        else if g % 4096 ≠ 0 ∨ 2 ^ 40 ≤ g ∨ hbmDie g ≠ d then .hold (taken.containCore s.cur 35 malformed (BitVec.ofNat 64 g))
        else match taken.refPlace g with
        | .at_ (.phys grec) _ =>
          if inWords s.badWords grec 4 then lost grec
          else if leNat (memRead taken.mem grec 4) ≠ 0 then .hold (taken.containCore s.cur 35 malformed (BitVec.ofNat 64 g))
          else
            let m := memWrite taken.mem g (memRead taken.mem frame 4096)
            let m := memWrite (memWrite m grec (leBytes 4 1)) rec (leBytes 4 (c - 1))
            .ok ((({ taken with mem := m }.touchLines frame 4096).touch grec 4).cowFinish va tva at_ e g (1150 + far + farCost s.myDie g) b)
        | .fail k => contained 34 k (s.refRecord g)
        | .ecc k i _ => contained k 0 (BitVec.ofNat 64 i)
        | _ => .hold s
  | .fail k => contained 34 k (s.refRecord frame)
  | .ecc k i _ => contained k 0 (BitVec.ofNat 64 i)
  | _ => .hold s

def cowstEffect (s : State) (d b : Fin 64) (p : Fin 8) (z : Fin 4) (o : Fin 256) (l : Lent) : Res :=
  if !s.me.ptest p.val then .ok s else
  let va := s.me.sreg b.val + offM z.val o l
  if va.toNat % 2 ^ z.val ≠ 0 then fault alignment 0 va
  else if (s.windowAt s.ctx va.toNat).isSome then fault invalidOperand
  else
    let data := leBytes (2 ^ z.val) (s.me.sreg d.val).toNat
    match s.translate s.ctx .cowst va with
    | .at_ pl leaf =>
      if !pteShared leaf then .ok (s.storePlace va pl data)
      else
        -- the address that the page tables translate, in a publish pair too (R146)
        let tva := match (s.part s.myPart).paired false va.toNat with | some w => w.1 | none => va.toNat
        match s.walk s.myPart tva with
        | .leaf e _ at_ =>
          -- an entry that changed since it was cached is looked up again
          if !pteShared e then .hold (s.dropTlb (covers s.myPart (tva / 4096)) false) else cowShared s va tva e at_ data
        | .fail c => fault translation c va
        | .ecc f => uncorrectable 33 f
    | t => s.transStop va t
def execCowst (d b : Fin 64) (p : Fin 8) (z : Fin 4) (o : Fin 256) (l : Lent) (s : State) :=
  meaning (.cowst d b p z o l) 3 s (cowstEffect s d b p z o l)

/-! ### Remap windows (R112 to R114) -/

/-- Read n bytes that span 64-byte lines from a 64-byte aligned address, or lie in one line. -/
def State.readSpan (s : State) (va : W64) (n : Nat) : MRes (List Byte) :=
  match s.readLines ((List.range (cdiv n 64)).map fun i => (va + BitVec.ofNat 64 (64 * i), min 64 (n - 64 * i))) with
  | .stop r => .stop r
  | .ok xs => .ok (xs.flatMap (·.1))

/-- The window a descriptor describes, if every field is in range (R113). -/
def windowOf (r : List Byte) (table : W64) : Option Window :=
  let win := field r 0 8; let back := field r 8 8; let rb := field r 16 4; let rows := field r 20 4; let br := field r 24 4
  if win % 4096 = 0 ∧ win < 2 ^ 57 ∧ back % 64 = 0 ∧ rb % 64 = 0 ∧ 64 ≤ rb ∧ rb ≤ 65536 ∧ 1 ≤ rows ∧ rows ≤ 65536
     ∧ 1 ≤ br ∧ br ≤ 16777216 ∧ field r 28 4 = 0
     ∧ (List.range 4).all (fun e => decide (win + rows * rb ≤ hbfBase + e * 2 ^ 41) || decide (hbfBase + e * 2 ^ 41 + 1440 * 2 ^ 30 ≤ win)) = true
  then some ⟨BitVec.ofNat 64 win, BitVec.ofNat 64 back, rb, rows, br, table⟩ else none

/-- The virtual range of a window meets another's. -/
def Window.meets (v w : Window) : Bool :=
  decide (v.winVa.toNat < w.winVa.toNat + w.rows * w.rowBytes) && decide (w.winVa.toNat < v.winVa.toNat + v.rows * v.rowBytes)

def wmapEffect (s : State) (a b : Fin 64) (n : Fin 16) : Res :=
  let va := s.me.sreg a.val; let table := s.me.sreg b.val
  if va.toNat % 32 ≠ 0 then fault alignment 0 va
  else if table.toNat % 4 ≠ 0 then fault alignment 0 table
  else match s.readSpan va 32 with
  | .stop r => r
  | .ok r =>
    let x := s.die s.myDie
    let key := 16 * s.myPart + n.val
    match windowOf r table with
    | none => fault invalidOperand
    | some w =>
      if x.wins.any (fun e => e.1 / 16 == s.myPart && e.1 != key && e.2.meets w) then fault invalidOperand
      else if s.waitsFor (s.writesOut s.cur) then .hold s
      else .ok ((s.countSpan va 32).setDie s.myDie { (s.countSpan va 32).die s.myDie with wins := tset x.wins key w })
def execWmap (a b : Fin 64) (n : Fin 16) (l : Lent) (s : State) := meaning (.wmap a b n l) 3 s (wmapEffect s a b n)

def wunmapEffect (s : State) (n : Fin 16) : Res :=
  if s.waitsFor (s.writesOut s.cur) then .hold s
  else let x := s.die s.myDie; .ok (s.setDie s.myDie { x with wins := tdel x.wins (16 * s.myPart + n.val) })
def execWunmap (n : Fin 16) (s : State) := meaning (.wunmap n) 3 s (wunmapEffect s n)

/-! ### HBM stacks (R120 to R122) -/

/-- The die of an HBM stack: four stacks on each AD, two on each ED (R13). -/
def stackDie (k : Nat) : Nat := if k < 8 then k / 4 else 2 + (k - 8) / 2
/-- The slot of a unit in the save area of its partition: offset and size (R389). -/
def saveSlot (u : Nat × Nat) : Nat × Nat :=
  if u.1 = 0 then (u.2 * 2 ^ 22, 2 ^ 22) else if u.1 ≤ 2 then (0xC0000000 + u.2 * 2 ^ 21, 2 ^ 21) else (0xD8000000 + unitDie u * 2 ^ 24, 2 ^ 24)
/-- A pre-emption of a die has units to save into slots that touch an HBM stack. -/
def State.savesTo (s : State) (d k : Nat) : Bool := match (s.die d).pre with
  | none => false
  | some x => x.left.any fun u =>
    let base := bits (s.part x.part).csave 63 20 * 2 ^ 20 + (saveSlot u).1
    (List.range ((saveSlot u).2 / 4096)).any fun i =>
      match s.translate (schedCtx d s.svPart) (.dst false) (BitVec.ofNat 64 (base + 4096 * i)) with
      | .at_ (.phys pa) _ => pa / 2 ^ 36 == k
      | _ => false
/-- Whether deadline traffic is queued or in flight at an HBM stack: accesses there by cores whose task has the deadline flag, or by engines for
them, their writes on the way to it, and pre-emption saves to it. DESIGN CHOICE: assumption 47. -/
def State.deadlineTraffic (s : State) (k : Nat) : Bool :=
  decide (s.clk < tgetD s.busyTill k 0)
  || (s.quads.any fun e => e.2.path.any fun w => w.tile.isNone && decide (w.addr < 2 ^ 40) && w.addr / 2 ^ 36 == k && s.urgent w.core)
  || s.dies.any fun e => s.savesTo e.1 k

/-- HOT_REGION_SWAP (R120): two 2 MiB regions of a stack change places; accesses to them wait for the 10 µs of it; no value and no ordering
changes. -/
def execHotRegionSwap (k r r2 : Nat) (s : State) : Host.Outcome State Fault Refusal :=
  let a := k * 2 ^ 20 + r; let b := k * 2 ^ 20 + r2
  let live := s.swapping.filter fun e => decide (s.clk < e.2)
  .next (if !bit (s.die (stackDie k)).hbmpm 1 || s.deadlineTraffic k || live.any (fun e => e.1 == a || e.1 == b) then s
    else { s with hbmMap := tset (tset s.hbmMap a (tgetD s.hbmMap b b)) b (tgetD s.hbmMap a a), swaps := s.swaps + 1
                  swapping := live ++ [(a, s.clk + 9400), (b, s.clk + 9400)] })
/-- Whether a pseudo-channel has been idle for n clocks. -/
def State.idleFor (s : State) (key n : Nat) : Bool := decide (tgetD s.pchanUsed key 0 + n ≤ s.clk)
/-- PSEUDO_CHANNEL_POWER_DOWN (R121): 1 marks power-down, after pd_idle idle clocks. -/
def execPseudoChannelPowerDown (k ch : Nat) (s : State) : Host.Outcome State Fault Refusal :=
  let n := bits (s.die (stackDie k)).hbmpm 23 8; let key := 64 * k + ch
  .next (if n = 0 ∨ !s.idleFor key n ∨ (tget s.pchan key).isSome then s else { s with pchan := tset s.pchan key 1 })
/-- PSEUDO_CHANNEL_SELF_REFRESH (R121): 2 marks self-refresh, after sr_idle idle microseconds. -/
def execPseudoChannelSelfRefresh (k ch : Nat) (s : State) : Host.Outcome State Fault Refusal :=
  let n := bits (s.die (stackDie k)).hbmpm 39 24; let key := 64 * k + ch
  .next (if n = 0 ∨ !s.idleFor key (940 * n) then s else { s with pchan := tset s.pchan key 2 })
/-- STACK_RETRAIN (R122): it starts when no deadline traffic is there; it waits for that up to 2 ms; then it is abandoned and the die is throttled. -/
def execStackRetrain (k : Nat) (s : State) : Host.Outcome State Fault Refusal :=
  let since := tgetD s.retrainWait k s.clk
  .next (if !s.deadlineTraffic k then { s with retrains := tset s.retrains k (tgetD s.retrains k 0 + 1), retrainWait := tdel s.retrainWait k }
    else if s.clk < since + 1880000 then { s with retrainWait := tset s.retrainWait k since }.schedule 940 (.stackRetrain k)
    else { s with grants := tset s.grants (stackDie k) (0, s.clk + 1880), retrainWait := tdel s.retrainWait k })

end Sys2Proof.Machine
end

