-- ==== Sys2Proof/Machine/Flash.lean ====
section
/-! DEFINITION. Weight handles (R75 to R86) and the commands of the translation layer (R73, R74, R392, R393). -/
namespace Sys2Proof.Machine

/-! ### Slots (R75 to R77) -/

/-- The generation of a handle slot (R76): 1 before its first use, since no word has generation 0 (R75). DESIGN CHOICE: assumption 161. -/
def hgen (f : Flash) (k : Nat) : Nat := tgetD f.gens k 1
def handleWord (e gen k : Nat) : Nat := e * 2 ^ 24 + gen * 2 ^ 12 + k
def HSlot.isDone (h : HSlot) : Bool := h.done.length == h.units
/-- Offset of a slot's source in its window. -/
def HSlot.off (h : HSlot) : Nat := (h.src.toNat - hbfBase) % 2 ^ 41
/-- The logical page that holds a unit of a slot. -/
def HSlot.page (h : HSlot) (u : Nat) : Nat := (h.off + 4096 * u) / 16384
/-- The units of a slot that a page holds. -/
def HSlot.unitsIn (h : HSlot) (lp : Nat) : List Nat := (List.range 5).filterMap fun j =>
  let o := lp * 16384 + 4096 * j
  if j < 4 ∧ h.off ≤ o ∧ o < h.off + 4096 * h.units then some ((o - h.off) / 4096) else none

/-- Tasks that wait on a handle become ready when its slot is done or freed (R83, R347). -/
def State.wakeHandle (s : State) (word : Nat) : State :=
  s.parts.foldl (fun s p => p.2.ring.foldl (fun s n =>
    if n.2.phase = 4 ∧ n.2.wait = word then s.schedule 0 (.taskReady p.1 n.1) else s) s) s

/-! ### Page reads (R79) -/

/-- The next page that a slot needs from a stack, lowest first. -/
def Flash.needs (f : Flash) (st k : Nat) (h : HSlot) : Option Nat :=
  let first := h.page 0
  let last := h.page (h.units - 1)
  ((List.range (last + 1 - first)).map (first + ·)).find? fun lp =>
    stackOf (f.phys lp / 256) == st && !h.repair.contains lp && !(h.unitsIn lp).all h.done.contains
    && !f.reading.any (fun r => r.2.1 == k && r.2.2.1 == lp)

/-- Demand units before prefetch units, then the order of allocation. -/
def HSlot.precedes (a b : HSlot) : Bool := if a.prefetch != b.prefetch then b.prefetch else decide (a.seq < b.seq)
/-- The slot and page a stack reads next. -/
def State.pickRead (s : State) (e st : Nat) : Option (Nat × Nat) :=
  let f := s.flash e
  let cands := f.slots.filterMap fun h =>
    if h.2.isDone || (tget f.gone h.1).isSome || !s.runsOn (2 + e) h.2.part then none else (f.needs st h.1 h.2).map fun lp => (h.1, h.2, lp)
  (cands.foldl (fun best c => match best with
    | none => some c
    | some b => if c.2.1.precedes b.2.1 then some c else some b) none).map fun c => (c.1, c.2.2)

/-- Start the next read of a stack after dt clocks of it, if the stack is idle; it reads the block that the page maps to now (R68).
DESIGN CHOICE: assumption 34. -/
def State.kickStack (s : State) (e st dt : Nat) : State :=
  let f := s.flash e
  if f.reading.any (fun r => r.1 == st) then s
  else match s.pickRead e st with
    | none => s
    | some (k, lp) => (s.setFlash e { f with reading := f.reading ++ [(st, k, lp, f.phys lp)] }).schedule dt (.flashPageRead e k lp)
/-- Work has come to an ED. -/
def State.kickFlash (s : State) (e : Nat) : State := (List.range 4).foldl (fun s st => s.kickStack e st 5640) s

/-- A transfer translates as its core, by walks of its own. -/
def HSlot.ctx (h : HSlot) (s : State) : Ctx := { s.ctxOf h.core h.part h.priv h.coop with direct := true }
/-- The destination of the units of a slot that are not done is unspecified (R86). -/
def State.scrambleUnits (s : State) (h : HSlot) : State :=
  ((List.range h.units).filter fun u => !h.done.contains u).foldl (fun s u =>
    s.scramble (h.ctx s) [(h.dst.toNat + 4096 * u, 4096)]) s
/-- Free a slot (R76): its generation advances, reads in progress end for nobody (R86), and its waiters wake. -/
def State.freeSlot (s : State) (e k : Nat) : State :=
  let f := s.flash e
  match tget f.slots k with
  | none => s
  | some h =>
    let s := s.scrambleUnits h
    let f := s.flash e
    let s := s.setFlash e { f with
      slots := tdel f.slots k, gens := tput 1 f.gens k (if h.gen = 0xFFF then 1 else h.gen + 1)
      gone := if f.reading.any (fun r => r.2.1 == k) && (tget f.gone k).isNone then tset f.gone k h else f.gone }
    (s.wakeHandle (handleWord e h.gen k)).kickFlash e

/-- Write the units of a slot that a page holds to their destinations; unspecified bytes where another writer overlapped (R81). DESIGN CHOICE: assumption 35. -/
def State.writeUnits (s : State) (e : Nat) (h : HSlot) : List Nat → State
  | [] => s
  | u :: t =>
    let va := h.dst + BitVec.ofNat 64 (4096 * u)
    match s.translate (h.ctx s) (.dst false) va with
    | .at_ (.phys pa) _ =>
      let b := (List.range 4096).map fun i =>
        if isDirty h.dirty (va.toNat + i) then Config.freeByte s.fresh i else s.flashByte e (h.off + 4096 * u + i)
      (({ s with mem := memWrite s.mem pa b, fresh := if h.dirty.isEmpty then s.fresh else s.fresh + 1 }).noteTraffic h.core pa 116).writeUnits e h t
    | _ => s.writeUnits e h t
/-- Whether a destination of the units is under migration: the write waits (R118). -/
def State.unitsWait (s : State) (h : HSlot) (us : List Nat) : Bool :=
  us.any fun u => match s.translate (h.ctx s) (.dst false) (h.dst + BitVec.ofNat 64 (4096 * u)) with
    | .migrating => true
    | _ => false

/-- Units of a slot complete. DESIGN CHOICE: assumption 42. -/
def State.doneUnits (s : State) (e k : Nat) (us : List Nat) (lp : Nat) (repaired : Bool) : State :=
  let f := s.flash e
  match tget f.slots k with
  | none => s
  | some h =>
    let h := { h with done := h.done ++ us.filter (fun u => !h.done.contains u), repair := h.repair.filter (· != lp), repaired := h.repaired || repaired }
    let s := s.setFlash e { f with slots := tset f.slots k h }
    if h.isDone then s.wakeHandle (handleWord e h.gen k) else s

/-- The record of a page that a slot's transfer found uncorrectable (R69, R380). -/
def slotRecord (e k : Nat) (h : HSlot) (lp : Nat) (beacon : W64) : List Byte :=
  record 32 0 7 h.part 0 (2 + e) 4 h.pc (BitVec.ofNat 64 (handleWord e h.gen k)) lp h.tag [] h.core k beacon

/-- FLASH_PAGE_READ (R79, R86): a read in progress ends. -/
def State.pageRead (s : State) (e k lp : Nat) : State :=
  let f := s.flash e
  match f.reading.find? fun r => r.2.1 == k && r.2.2.1 == lp with
  | none => s
  | some (st, _, _, pp) =>
    let bad := f.fails pp
    let gone := tget f.gone k
    let live := match gone with | some _ => none | none => tget f.slots k
    let h? := match gone with | some h => some h | none => live
    match h? with
    | some h =>
      if !bad && s.unitsWait h (h.unitsIn lp) then s.schedule 64 (.flashPageRead e k lp) else
      let s := s.setFlash e { f with reading := f.reading.filter fun r => !(r.2.1 == k && r.2.2.1 == lp) }
      let s := s.countRead e pp
      let s := if bad then (match live with
          | some h =>
            let f := s.flash e
            (s.setFlash e { f with slots := tset f.slots k { h with repair := h.repair ++ [lp] } }).awaitRepair e lp (2 + e) (slotRecord e k h lp s.beacon)
          | none => s)
        else (s.writeUnits e h (h.unitsIn lp))
      let s := match live with
        | some _ => if bad then s else s.doneUnits e k (h.unitsIn lp) lp false
        | none =>
          let f := s.flash e
          if f.reading.any (fun r => r.2.1 == k) then s else s.setFlash e { f with gone := tdel f.gone k }
      (s.kickStack e st 17).kickFlash e
    | none => s.setFlash e { f with reading := f.reading.filter fun r => !(r.2.1 == k && r.2.2.1 == lp) }
def execFlashPageRead (e slot lp : Nat) (s : State) : Host.Outcome State Fault Refusal := .next (s.pageRead e slot lp)

/-! ### Requests to a handle table (R78, R413) -/

/-- The answer of a request: the pending result of a core gets its value and arrives later; that of a saved context waits for its restore. -/
def State.answer (s : State) (c id : Nat) (w : Nat → Payload) (dt : Nat) : State :=
  let k := s.core c
  if k.pend.any fun p => p.id == id then
    (s.setCore c { k with pend := k.pend.map fun p => if p.id == id then { p with value := some (w (p.keys.getD 0 0)) } else p }).schedule dt
      (.interlockedResultArrives c id)
  else
    let d := dieOfCore c
    let x := s.die d
    if x.saved.isEmpty then s
    else s.setDie d { x with saved := x.saved.map fun v => if v.core = c then { v with k := { v.k with
      pend := v.k.pend.map fun p => if p.id == id then { p with value := some (w (p.keys.getD 0 0)) } else p } } else v }
/-- A request of the current core to a unit of a die: it arrives after 6 or 380 clocks (R413). -/
def State.sendReq (s : State) (r : Req) (d : Nat) (ev : Nat → Instr) : State :=
  let (id, s) := s.addReq r
  s.schedule (if s.myDie = d then 6 else 380) (ev id)

/-- What a handle table finds reaches the bundle that waits for it, on its core or in a saved context. -/
def State.tell (s : State) (c p fault : Nat) (v : W64) : State :=
  let told := fun (k : Core) => { k with hreq := k.hreq.map fun r => if r.done then r else { r with done := true, fault := fault, value := v } }
  let k := s.core c
  if k.task.isSome && k.part == p then s.setCore c (told k)
  else
    let d := dieOfCore c
    let x := s.die d
    s.setDie d { x with saved := x.saved.map fun v => if v.core = c ∧ v.part = p then { v with k := told v.k } else v }
/-- An HREAD, HSTAT or HREL: its faults are precise and what it finds is decided at the table, so its bundle waits for the request to take
effect, as a TALLOC's does for its grant; then it issues with what `fin` makes of that, or takes the fault (R78, R82). DEDUCED: assumption 37. -/
def State.atTable (s : State) (e : Nat) (r : Req) (fin : State → W64 → State) (info : W64) : Res :=
  let k := s.me
  match k.hreq.filter fun h => h.pc == k.pc with
  | some h =>
    if !h.done then .hold s
    else if h.fault ≠ 0 then fault h.fault 0 info
    else .ok (fin (s.setMe { k with hreq := none }) h.value)
  | none => .hold ((s.setMe { k with hreq := some ⟨k.pc, false, 0, 0⟩ }).sendReq r (2 + e) .handleRequestArrives)
/-- The rest of the full time of such a request (R413). -/
def State.tableRest (s : State) (e : Nat) : Nat := if s.myDie = 2 + e then 6 else 380

/-- The ED whose HBF window holds every byte of a range (R80). -/
def edOf (src n : Nat) : Option Nat :=
  if hbfBase ≤ src ∧ src < hbfBase + 4 * 2 ^ 41 ∧ (src - hbfBase) % 2 ^ 41 + 4096 * n ≤ 1440 * 2 ^ 30 then some ((src - hbfBase) / 2 ^ 41) else none

/-- Each page of a destination range translates; then each lies in HBM of the ED (R80). -/
def State.dstCheck (s : State) (e : Nat) (dst : W64) (us : List Nat) : Option Res :=
  match s.places (.dst false) (us.map fun u => dst + BitVec.ofNat 64 (4096 * u)) with
  | .stop r => some r
  | .ok ps => if ps.all fun p => match p with | .phys pa => decide (pa < 2 ^ 40) && hbmDie pa == 2 + e | _ => false then none else some (fault 11)

/-- Whether a live slot of the partition holds a destination range that overlaps, with another key (R80). -/
def conflicts (f : Flash) (p : Nat) (src dst : W64) (n : Nat) : Bool :=
  let mine := f.slots.filter fun h => h.2.part == p
  match mine.find? fun h => (h.2.src == src && h.2.dst == dst && h.2.units == n)
      || (decide (h.2.dst.toNat < dst.toNat + 4096 * n) && decide (dst.toNat < h.2.dst.toNat + 4096 * h.2.units)) with
  | some h => !(h.2.src == src && h.2.dst == dst && h.2.units == n)
  | none => false
/-- The live slot of the partition with a key. -/
def joinable (f : Flash) (p : Nat) (src dst : W64) (n : Nat) : Option (Nat × HSlot) :=
  f.slots.find? fun h => h.2.part == p && h.2.src == src && h.2.dst == dst && h.2.units == n
/-- The lowest free slot of a table, if the quota leaves one (R77). -/
def State.slotFor (s : State) (e p : Nat) : Option Nat :=
  let f := s.flash e
  if (s.part p).hquota ≤ (f.slots.filter fun h => h.2.part == p).length ∨ 4096 ≤ f.slots.length then none
  else (List.range 4096).find? fun k => (tget f.slots k).isNone

/-- HREAD (R80): the checks at issue; the slot is found or taken when the request arrives. -/
def hreadEffect (s : State) (d a b : Fin 64) (u : Fin 128) (l : Lent) : Res :=
  let src := s.me.sreg a.val; let dst := s.me.sreg b.val
  let n := (match l with | none => u.val | some x => x.val * 128 + u.val) + 1
  if src.toNat % 4096 ≠ 0 then fault alignment 0 src
  else if dst.toNat % 4096 ≠ 0 then fault alignment 0 dst
  else match edOf src.toNat n with
  | none => fault 11
  | some e =>
    match s.translate s.ctx (.src true) src with
    | .at_ (.flash _ _) _ =>
      match s.dstCheck e dst (List.range n) with
      | some r => r
      | none =>
        s.atTable e (.hread s.cur s.myPart e src dst n s.me.tag s.me.pc s.me.priv s.me.coop)
          (fun s v => (s.pend [keyS d.val] (some (.scalar d.val v)) (s.tableRest e)).2) 0
    | .at_ _ _ => fault 11
    | t => s.transStop src t
def execHread (d sc t : Fin 64) (u : Fin 128) (l : Lent) (s : State) := meaning (.hread d sc t u l) 1 s (hreadEffect s d sc t u l)

/-- Take a slot (R80, R87); `pre` for a Pointer entry, with its lifetime. DESIGN CHOICE: assumption 36. -/
def State.takeSlot (s : State) (e k : Nat) (src dst : W64) (n p core : Nat) (tag : Nat) (pc : W64) (priv : Nat) (coop pre : Bool) (life : Nat) : State :=
  let f := s.flash e
  let h : HSlot := ⟨hgen f k, src, dst, n, p, if pre then 0 else 1, pre, false, [], [], [], f.allocSeq, life, tag, core, pc, priv, coop⟩
  (s.setFlash e { f with slots := tset f.slots k h, allocSeq := f.allocSeq + 1 }).kickFlash e

/-- PTR.STAT of an AD: joined counts an entry that the Pointer of that die allocated (R92). -/
def State.ptrCount (s : State) (d lo : Nat) : State := let x := s.die d; s.setDie d { x with ptrStat := satAdd x.ptrStat lo 16 1 }

/-- R82: the slot that a handle word names for a partition: `none` for an invalid handle, `some none` for a stale one. -/
def State.handle (s : State) (p : Nat) (w : W64) : Option (Option HSlot) :=
  if bits w 63 26 ≠ 0 ∨ w = 0 then none
  else match tget (s.flash (bits w 25 24)).slots (bits w 11 0) with
    | none => some none
    | some h => if h.part ≠ p then none else if h.gen = bits w 23 12 then some (some h) else some none
/-- The status word of HSTAT (R85). -/
def HSlot.status (h : HSlot) : W64 :=
  let st := if h.isDone then 1 else if h.repair.isEmpty then 0 else 2
  BitVec.ofNat 64 (h.done.length * 2 ^ 32 + h.holders * 65536 + h.gen * 16 + h.repaired.toNat * 8 + h.prefetch.toNat * 4 + st)

/-- HREAD at its table (R80): a conflict, a join, the null handle, or a new slot. -/
def State.hreadArrives (s : State) (c p e : Nat) (src dst : W64) (n tag : Nat) (pc : W64) (priv : Nat) (coop : Bool) : State :=
  let f := s.flash e
  if conflicts f p src dst n then s.tell c p 12 0
  else match joinable f p src dst n with
  | some (k, h) =>
    let s := if h.prefetch then s.ptrCount (dieOfCore h.core) 16 else s
    let f := s.flash e
    (s.setFlash e { f with slots := tset f.slots k { h with holders := h.holders + 1, prefetch := false } }).tell c p 0 (BitVec.ofNat 64 (handleWord e h.gen k))
  | none =>
    match s.slotFor e p with
    | none => s.tell c p 0 0
    | some k => (s.takeSlot e k src dst n p c tag pc priv coop false 0).tell c p 0 (BitVec.ofNat 64 (handleWord e (hgen f k) k))
/-- HREL at its table (R86); that of an unjoined prefetch entry, which has no holder, frees its slot too. DESIGN CHOICE: assumption 162. -/
def State.hrelArrives (s : State) (c p e : Nat) (w : W64) : State :=
  match s.handle p w with
  | none => s.tell c p 10 0
  | some none => s.tell c p 9 0
  | some (some h) =>
    let k := bits w 11 0
    let f := s.flash e
    (if h.holders ≤ 1 then s.freeSlot e k else s.setFlash e { f with slots := tset f.slots k { h with holders := h.holders - 1 } }).tell c p 0 0
/-- HANDLE_REQUEST_ARRIVES (R78): the request takes effect, and its bundle is told. -/
def State.handleArrives (s : State) (id : Nat) : State :=
  let gone : State := { s with reqs := tdel s.reqs id }
  match tget s.reqs id with
  | some (.hread c p e src dst n tag pc priv coop) => gone.hreadArrives c p e src dst n tag pc priv coop
  | some (.hstat c p _ w) => match s.handle p w with
    | none => gone.tell c p 10 0
    | some none => gone.tell c p 0 3
    | some (some h) => gone.tell c p 0 h.status
  | some (.hrel c p e w) => gone.hrelArrives c p e w
  | _ => s
def execHandleRequestArrives (id : Nat) (s : State) : Host.Outcome State Fault Refusal := .next (s.handleArrives id)

def hwaitEffect (s : State) (a : Fin 64) : Res :=
  let w := s.me.sreg a.val
  match s.handle s.myPart w with
  | none => fault 10 0 w
  | some none => fault 9 0 w
  | some (some h) =>
    if h.isDone then .ok s
    else if s.me.inPlace then .hold (s.setMe { s.me with waits := w })
    else .hold ((s.setMe { s.me with post := .suspend 4 a.val w s.me.pc }).flowDrain s.cur)
def execHwait (a : Fin 64) (s : State) := meaning (.hwait a) 1 s (hwaitEffect s a)

/-- A word that names no slot of any table. -/
def badHandle (w : W64) : Bool := bits w 63 26 != 0 || w == 0
def hstatEffect (s : State) (d a : Fin 64) : Res :=
  let w := s.me.sreg a.val; let e := bits w 25 24
  if badHandle w then fault 10 0 w
  else s.atTable e (.hstat s.cur s.myPart e w) (fun s v => (s.pend [keyS d.val] (some (.scalar d.val v)) (s.tableRest e)).2) w
def execHstat (d a : Fin 64) (s : State) := meaning (.hstat d a) 1 s (hstatEffect s d a)

def hrelEffect (s : State) (a : Fin 64) : Res :=
  let w := s.me.sreg a.val; let e := bits w 25 24
  if badHandle w then fault 10 0 w else s.atTable e (.hrel s.cur s.myPart e w) (fun s _ => s) w
def execHrel (a : Fin 64) (s : State) := meaning (.hrel a) 1 s (hrelEffect s a)

/-! ### The translation layer's commands (R73, R74) -/

/-- The last logical page of an ED (R65). -/
def lastPage : Nat := 94371839
/-- REFILL reads in the supervisor's space, as a core of the ED would. -/
def refillCtx (s : State) (e : Nat) : Ctx := ⟨4 * firstQuad (2 + e), s.svPart, true, false, 0, true⟩
/-- The physical pages of a REFILL source, 16 KiB in HBM of the ED; empty where it is none (R74), nothing yet while a page of it is under migration
(R118). -/
def State.refillSource (s : State) (e : Nat) (va : W64) : Option (List Nat) :=
  let ts := (List.range 4).map fun i => s.translate (refillCtx s e) (.src false) (va + BitVec.ofNat 64 (4096 * i))
  if va.toNat % 16384 ≠ 0 then some []
  else if ts.any fun t => t == .migrating then none
  else some ((ts.mapM fun (t : Trans) => match t with
    | .at_ (.phys q) _ => if q < 2 ^ 40 ∧ hbmDie q = 2 + e then some q else none
    | _ => none).getD [])
/-- A write to FTL.CMD.n (R73): the command starts, and REFILL checks its source (R74); it acts 16,920 clocks later. `none` where the write raises an
invalid-operand fault. DESIGN CHOICE: assumption 163. -/
def State.ftlCommand (s : State) (e : Nat) (v : W64) : Option State :=
  let op := bits v 63 60; let lp := bits v 26 0
  let f := s.flash e
  if op = 0 ∨ 4 < op ∨ lastPage < lp then none
  else if f.state = 1 then some (s.setFlash e { f with overrun := true })
  else
    let s := s.setFlash e { f with state := 1, lastOp := op, page := lp, result := 0, sourceVa := f.arg, source := if op = 4 then s.refillSource e f.arg else none }
    some (s.schedule 16920 (match op with | 1 => .rebuild e lp | 2 => .relocate e lp | 3 => .retire e lp | _ => .refill e lp))

/-- The command's outcome: 2 done or 3 failed, shown when it ends. -/
def State.ftlEnd (s : State) (e r : Nat) : State :=
  let f := s.flash e
  (s.setFlash e { f with result := r }).schedule 1 (.ftlCommandComplete e)
/-- FTL_COMMAND_COMPLETE (R73). -/
def execFtlCommandComplete (e : Nat) (s : State) : Host.Outcome State Fault Refusal :=
  let f := s.flash e
  .next (if f.state = 1 ∧ f.result ≠ 0 then s.setFlash e { f with state := f.result } else s)

/-- A slot that waits on a page has a destination under migration: the delivery waits (R118). -/
def State.deliveryWaits (s : State) (e lp : Nat) : Bool := (s.flash e).slots.any fun h => h.2.repair.contains lp && s.unitsWait h.2 (h.2.unitsIn lp)
/-- A page is good again: every party that waits on it goes on (R74, R385, R393). -/
def State.deliver (s : State) (e lp : Nat) : State :=
  let f := s.flash e
  let s := s.setFlash e { f with waiting := f.waiting.filter (· != lp) }
  let held := pageWait e lp
  let s := { s with
    cores := s.cores.map fun (c : Nat × Core) => if c.2.held = some held then (c.1, { c.2 with held := none, nextClk := s.clk + 1 }) else c
    quads := s.quads.map fun (q : Nat × Quad) => (q.1, { q.2 with chans := q.2.chans.map fun (h : Nat × List CopyCmd) => (h.1, h.2.map fun (m : CopyCmd) =>
      if m.held = some held then { m with held := none } else m) })
    dies := s.dies.map fun (d : Nat × Die) => if d.2.saved.isEmpty then d else (d.1, { d.2 with saved := d.2.saved.map fun (v : Saved) =>
      { v with k := if v.k.held = some held then { v.k with held := none } else v.k
               copies := v.copies.map fun (c : Nat × CopyCmd) => if c.2.held = some held then (c.1, { c.2 with held := none }) else c } }) }
  let s := f.slots.foldl (fun s h => if h.2.repair.contains lp then (s.writeUnits e h.2 (h.2.unitsIn lp)).doneUnits e h.1 (h.2.unitsIn lp) lp true else s) s
  s.kickFlash e

/-- Write a logical page into a fresh physical page, which it maps (R74): the next of the block that takes single pages in the stack of the old one, a
spare block when there is none. DESIGN CHOICE: assumption 39. With no free block left, for which the table gives no failure, the page stays where
it stands and every read of it is served by parity (R70). DESIGN CHOICE: assumption 140. -/
def State.remapPage (s : State) (e lp : Nat) : State :=
  let old := (s.flash e).phys lp
  let st := stackOf (old / 256)
  let (s, page) := match tget (s.flash e).opened st with
    | some pp => (s, some pp)
    | none => match s.takeSpare e st false with
      | (s, some b) => (s, some (256 * b))
      | (s, none) => (s, none)
  let f := s.flash e
  match page with
  | none => s.setFlash e { f with viaParity := if f.bad.contains old && !f.viaParity.contains old then f.viaParity ++ [old] else f.viaParity }
  | some pp =>
    s.setBlock e (pp / 256) { f with
      map := tset f.map lp pp, bad := f.bad.filter (· != old), soft := f.soft.filter (· != old), viaParity := f.viaParity.filter (· != old)
      count := if pp % 256 = 0 then tdel f.count (pp / 256) else f.count
      opened := if pp % 256 = 255 then tdel f.opened st else tset f.opened st (pp + 1) }

/-- Whether a page's block is under relocation: a command that names it waits (R392). -/
def Flash.moves (f : Flash) (lp : Nat) : Bool := f.isMoving (f.phys lp / 256)

def execRebuild (e lp : Nat) (s : State) : Host.Outcome State Fault Refusal :=
  let f := s.flash e
  .next (if f.moves lp then s.schedule 940 (.rebuild e lp)
    else if s.deliveryWaits e lp then s.schedule 64 (.rebuild e lp)
    else
      let pp := f.phys lp
      -- each page that REBUILD reads counts in its block (R391), the parity page too
      let s := (stripeRest pp).foldl (fun s q => s.countRead e q) s
      if !f.rebuildable pp then s.ftlEnd e 3
      else (((s.remapPage e lp).bumpClass e (pp / 256) 16 16 1).deliver e lp).ftlEnd e 2)

/-- RELOCATE and RETIRE (R74): the command's own relocation of its page's block; it fails when no spare block can be written. -/
def State.moveBlock (s : State) (e lp : Nat) : State :=
  let b := (s.flash e).phys lp / 256
  let s := s.startRelocation e b
  let f := s.flash e
  if f.isMoving b then s.setFlash e { f with cmdMove := some b } else s.ftlEnd e 3
def execRelocate (e lp : Nat) (s : State) : Host.Outcome State Fault Refusal :=
  .next (if (s.flash e).moves lp then s.schedule 940 (.relocate e lp) else s.moveBlock e lp)
def execRetire (e lp : Nat) (s : State) : Host.Outcome State Fault Refusal :=
  .next (if (s.flash e).moves lp then s.schedule 940 (.retire e lp) else s.moveBlock e lp)

/-- REFILL (R74). -/
def execRefill (e lp : Nat) (s : State) : Host.Outcome State Fault Refusal :=
  let f := s.flash e
  .next (if f.moves lp then s.schedule 940 (.refill e lp)
    else if s.deliveryWaits e lp then s.schedule 64 (.refill e lp)
    else match f.source.or (s.refillSource e f.sourceVa) with
      | none => s.schedule 64 (.refill e lp)
      | some [] => s.ftlEnd e 3
      | some ps =>
        let b := ps.flatMap fun q => memRead s.mem q 4096
        let s := s.remapPage e lp
        let f := s.flash e
        ((s.setFlash e { f with bytes := memWrite f.bytes (lp * 16384) b }).deliver e lp).ftlEnd e 2)

/-! ### The switch and the erase of a relocation (R68, R392) -/

/-- What ECC corrected in the pages that a relocation has read counts (R71). -/
def State.countSoft (s : State) (e : Nat) (pages : List Nat) : State :=
  pages.foldl (fun s pp => s.bumpClass e (pp / 256) 32 32 ((s.flash e).soft.contains pp).toNat) s
/-- The copy of pages of a block into a fresh one, each from its old place to its new one: good pages are read, uncorrectable ones rebuilt from their
stripes where that can be, and else bad in the new block (R392). -/
def State.copyBlock (s : State) (e : Nat) (ps : List (Nat × Nat)) : State :=
  let f := s.flash e
  let bads := ps.filter fun p => f.bad.contains p.1
  let built := bads.filter fun p => f.rebuildable p.1
  let stay := bads.filter fun p => !f.rebuildable p.1
  let s := s.countSoft e ((ps.filter fun p => !f.bad.contains p.1).map (·.1) ++ built.flatMap fun p => stripeRest p.1)
  let s := built.foldl (fun s p => s.bumpClass e (p.1 / 256) 16 16 1) s
  let f := s.flash e
  s.setFlash e { f with bad := f.bad ++ stay.map (·.2) }
/-- The switch of a data block: its logical pages map to block k in one step; those that waited for repair and are rebuilt are delivered (R393).
DESIGN CHOICE: assumption 164. -/
def State.switchData (s : State) (e k b : Nat) : State :=
  let f := s.flash e
  let lps := f.pagesIn b
  let mended := lps.filter fun lp => f.waiting.contains lp && f.rebuildable (f.phys lp)
  let s := s.copyBlock e (lps.map fun lp => (f.phys lp, 256 * k + f.phys lp % 256))
  let f := s.flash e
  let s := s.setFlash e { f with map := lps.foldl (fun m lp => tset m lp (256 * k + f.phys lp % 256)) f.map, count := tdel f.count k }
  mended.foldl (fun s lp => s.deliver e lp) s
/-- What two keys of a table hold changes places. -/
def swapIn (t : Tbl Nat) (a b : Nat) : Tbl Nat := tput 0 (tput 0 t a (tgetD t b 0)) b (tgetD t a 0)
/-- The switch of a parity block b: the spare block k of its stack becomes the parity block of b's group, and the old one is in its place. The two
exchange their numbers, so that a group's parity block keeps its own; what belongs to the block itself goes with it. DESIGN CHOICE: assumption 38. -/
def State.switchParity (s : State) (e k b : Nat) : State :=
  let s := s.copyBlock e ((List.range 256).map fun i => (256 * b + i, 256 * k + i))
  let f := s.flash e
  let stay := (f.bad.filter fun pp => pp / 256 == k).map fun pp => 256 * b + pp % 256
  let g := (f.unmark k).unmark b
  s.setFlash e { g with
    bad := g.bad ++ stay, erase := swapIn g.erase k b
    weak := g.weak.map fun x => if x = k then b else if x = b then k else x
    moving := g.moving.map fun m => if m = (b, k) then (k, b) else m }
/-- RELOCATION_SWITCH (R68, R392); one whose rebuilt pages go to a destination under migration waits (R118). The command RELOCATE is done then, RETIRE
when it has retired the old block. DESIGN CHOICE: assumption 38. -/
def State.relocSwitch (s : State) (e k b : Nat) : State :=
  let f := s.flash e
  if !f.moving.contains (b, k) then s
  else if (f.pagesIn b).any fun lp => f.waiting.contains lp && s.deliveryWaits e lp then s.schedule 64 (.relocationSwitch e k b)
  else if allBlocks ≤ b then (s.switchParity e k b).schedule 1316000 (.oldBlockErase e b k)
  else
    let s := (s.switchData e k b).schedule 1316000 (.oldBlockErase e k b)
    let f := s.flash e
    if f.cmdMove = some b ∧ f.lastOp = 2 then (s.setFlash e { f with cmdMove := none }).ftlEnd e 2 else s
def execRelocationSwitch (e k b : Nat) (s : State) : Host.Outcome State Fault Refusal := .next (s.relocSwitch e k b)

/-- OLD_BLOCK_ERASE (R68): once every read that resolved to the old block has ended, the block is erased and free again; a block whose erase fails,
and one that a RETIRE has moved, is retired (R67, R74). -/
def State.oldErase (s : State) (e k b : Nat) : State :=
  let f := s.flash e
  if !f.moving.contains (b, k) then s
  else if f.reading.any (fun r => r.2.2.2 / 256 == b) then s.schedule 17 (.oldBlockErase e k b)
  else
    let retiring := f.cmdMove == some b
    let s := (s.setFlash e { f with
      moving := f.moving.filter (· != (b, k)), cmdMove := if retiring then none else f.cmdMove
      weak := if retiring && !f.weak.contains b then f.weak ++ [b] else f.weak }).eraseBlock e b
    if retiring then s.ftlEnd e 2 else s
def execOldBlockErase (e k b : Nat) (s : State) : Host.Outcome State Fault Refusal := .next (s.oldErase e k b)

end Sys2Proof.Machine
end

