-- ==== Sys2Proof/Machine/Engine.lean ====
section
/-! DEFINITION. What the engines share: reading and writing memory for a command (R98, R102, R144), the order in which a core's
commands are counted (R140, R141), and the tier latencies (R131). -/
namespace Sys2Proof.Machine

/-- Why an engine stops at a segment or row: a fault of the command with its sub-cause, a wait, an uncorrectable HBM word
(its frame), an uncorrectable flash page. -/
inductive EngStop where
  | fail (sub : Nat) (va : W64)
  | wait
  | ecc (frame : Nat)
  | page (e lp : Nat)
  deriving DecidableEq, Repr

inductive Eng (α : Type) where
  | ok (s : State) (v : α)
  | stop (s : State) (why : EngStop)

/-- Go on with what an engine has read. -/
def Eng.andThen {α β : Type} (e : Eng α) (f : State → α → Eng β) : Eng β := match e with
  | .ok s v => f s v
  | .stop s w => .stop s w
/-- What cannot be read for any reason but a wait is nothing. -/
def Eng.orElse {α : Type} (e : Eng α) (v : α) : Eng α := match e with
  | .ok s x => .ok s x
  | .stop s .wait => .stop s .wait
  | .stop s _ => .ok s v

/-- Cut a range at 64-byte lines. -/
def lineCuts : Nat → Nat → Nat → List (Nat × Nat)
  | 0, _, _ => []
  | f + 1, va, n => if n = 0 then [] else let m := min n (64 - va % 64); (va, m) :: lineCuts f (va + m) (n - m)
def cuts (va n : Nat) : List (Nat × Nat) := lineCuts (n / 64 + 2) va n

def stopOf (va : W64) : Trans → EngStop
  | .fail c => .fail c va
  | .miss _ => .wait
  | .migrating => .wait
  | .bad => .fail tileCause va
  | .ecc c i e => if c = 32 then .page e i else .ecc i
  | .at_ _ _ => .wait

/-- A source byte, by its place, as a command reads it: where its core has stored since it was accepted, the byte before that or the byte now
(R144). DESIGN CHOICE: assumption 44. -/
def Overlap.read (l : Overlap) (n k : Nat) (now : Byte) : Byte := match l.before k with
  | some o => if freeBit n k then o else now
  | none => now
def Overlap.source (l : Overlap) (n k : Nat) (b : List Byte) : List Byte :=
  if l.dirty.isEmpty then b else (b.zip (List.range b.length)).map fun e => l.read n (k + e.2) e.1
/-- After a read of a command whose core has stored since: the next choice of R144 is another. -/
def State.used (s : State) (l : Overlap) : State := if l.dirty.isEmpty then s else { s with fresh := s.fresh + 1 }

/-- Read a range, line by line, as a member of the command's quad does; the answer lists each piece with its leaf and place. -/
def State.engPieces (s : State) (x : Ctx) (l : Overlap) (a : Acc) : List (Nat × Nat) → Eng (List (List Byte × W64 × Place))
  | [] => .ok s []
  | (va, n) :: t =>
    let va64 := BitVec.ofNat 64 va
    match s.engineTranslate x a va64 with
    | (s, .at_ p leaf) =>
      match s.readAt x.core p n with
      | .tileBad => .stop s (.fail tileCause va64)
      | .uncorrectable c i => .stop s (match p with | .flash e _ => .page e i | _ => if c = 33 then .ecc i else .wait)
      | .host o =>
        match s.engPieces x l a t with
        | .ok s r => .ok s ((l.source s.fresh p.key (s.hostNow x.core o n), leaf, p) :: r)
        | .stop s w => .stop s w
      | .bytes b =>
        match s.engPieces x l a t with
        | .ok s r => .ok s ((l.source s.fresh p.key b, leaf, p) :: r)
        | .stop s w => .stop s w
    | (s, r) => .stop s (stopOf va64 r)
/-- Read a list of ranges for an engine; flash pages count one read each (R391). -/
def State.engReads (s : State) (x : Ctx) (l : Overlap) (a : Acc) (rs : List (Nat × Nat)) : Eng (List Byte) :=
  match s.engPieces x l a (rs.flatMap fun r => cuts r.1 r.2) with
  | .stop s w => .stop s w
  | .ok s ps =>
    .ok ((s.counted x.core ps).used l) (ps.flatMap (·.1))
/-- Read n bytes for an engine. -/
def State.engRead (s : State) (x : Ctx) (l : Overlap) (a : Acc) (va : W64) (n : Nat) : Eng (List Byte) := s.engReads x l a [(va.toNat, n)]

/-- Translate the lines of a write; every one must be writable before any byte is written (R150). -/
def State.engPlaces (s : State) (x : Ctx) (a : Acc) : List (Nat × List Byte) → Eng (List (Nat × Place × List Byte))
  | [] => .ok s []
  | (va, b) :: t =>
    let va64 := BitVec.ofNat 64 va
    match s.engineTranslate x a va64 with
    | (s, .at_ p _) =>
      let bad := match p with | .tile d ix g _ => !s.writable d ix g | _ => false
      if bad then .stop s (.fail tileCause va64)
      else match s.engPlaces x a t with
        | .ok s r => .ok s ((va, p, b) :: r)
        | .stop s w => .stop s w
    | (s, r) => .stop s (stopOf va64 r)
/-- What a command writes at a destination, by offset: in a transfer's range any byte (R81); a byte that a later command of the same core and
channel has written keeps that command's value; where the core has stored since the command was accepted, the stored byte is left or the
command's written (R144). -/
def State.settle (s : State) (x : Ctx) (l : Overlap) (va : Nat) (p : Place) (b : List Byte) : State × List (Nat × List Byte) :=
  let n := b.length; let k := p.key
  if !(s.inSlot x.part va n || anyDirty l.passed k n || l.noted k n) then (s, [(0, b)])
  else
    let out := (b.zip (List.range n)).map fun e =>
      if s.inSlot x.part (va + e.2) 1 then some (Config.freeByte s.fresh (va + e.2))
      else if isDirty l.passed (k + e.2) || (l.stored (k + e.2) && freeBit s.fresh (k + e.2)) then none
      else some e.1
    ({ s.noteSlots x.part va n with fresh := s.fresh + 1 }, runsOf 0 out)
/-- Runs of bytes leave for their home, by offset from a place, on the path under an engine's number; those of a tile reach it at once. -/
def State.putRuns (s : State) (x : Ctx) (eng : Nat) (p : Place) : List (Nat × List Byte) → State
  | [] => s
  | (i, b) :: t =>
    (match p with
     | .phys pa => s.storePhys x.core x.part eng (pa + i) b
     | .host o => s.storePhys x.core x.part eng (hostPa + o + i) b
     | .tile d ix _ o => s.writeTile d ix (o + i) b
     | .flash _ _ => s).putRuns x eng p t
/-- Write the lines of an engine. DESIGN CHOICE: assumption 22. -/
def State.engPut (s : State) (x : Ctx) (eng : Nat) (l : Overlap) : List (Nat × Place × List Byte) → State
  | [] => s
  | (va, p, b) :: t => ((s.settle x l va p b).1.putRuns x eng p (s.settle x l va p b).2).engPut x eng l t
/-- Cut bytes at 64-byte lines. -/
def byteCuts (va : Nat) (b : List Byte) : List (Nat × List Byte) := (cuts va b.length).map fun c => (c.1, (b.drop (c.1 - va)).take c.2)
/-- Write pieces (address, bytes) for an engine, all or none. -/
def State.engWrites (s : State) (x : Ctx) (eng : Nat) (shadow : Bool) (l : Overlap) (ws : List (Nat × List Byte)) : Eng Unit :=
  match s.engPlaces x (.dst shadow) (ws.flatMap fun w => byteCuts w.1 w.2) with
  | .stop s w => .stop s w
  | .ok s ps => .ok (s.engPut x eng l ps) ()

/-- A write of the device from a die in a partition's space, and whether it could be done: it waits for a page under migration (R118). DESIGN CHOICE:
assumption 158. -/
def State.devWrite (s : State) (d p va : Nat) (b : List Byte) : State × Bool :=
  match s.engWrites (schedCtx d p) 17 false {} [(va, b)] with
  | .ok s _ => (s, true)
  | .stop s .wait => ({ s with owed := s.owed ++ [(d, p, va, b)] }, true)
  | .stop s _ => (s, false)
/-- The writes that wait are tried again, in order. -/
def State.payOwed (s : State) : State := s.owed.foldl (fun (s : State) w => (s.devWrite w.1 w.2.1 w.2.2.1 w.2.2.2).1) { s with owed := [] }

/-- Command id of a core's channel has written ranges: it keeps them, and what it overlaps of earlier commands of the channel stays (R144). -/
def State.noteWrites (s : State) (c h id : Nat) (rs : List (Nat × Nat)) : State :=
  s.mapLaps c fun h' id' l =>
    if h' ≠ h ∨ id < id' then l else if id' = id then { l with wrote := l.wrote ++ rs } else { l with passed := l.passed ++ rs }
/-- Write pieces for command id of a core's channel, by engine `eng`. -/
def State.cmdWrites (s : State) (x : Ctx) (eng : Nat) (shadow : Bool) (l : Overlap) (h id : Nat) (ws : List (Nat × List Byte)) : Eng Unit :=
  match s.engPlaces x (.dst shadow) (ws.flatMap fun w => byteCuts w.1 w.2) with
  | .stop s w => .stop s w
  | .ok s ps => .ok ((s.engPut x eng l ps).noteWrites x.core h id (ps.map fun w => (w.2.1.key, w.2.2.length))) ()

/-! ### Counting in order (R140, R141) -/

/-- An increment is added to cc.h of a core; saturation sets CCSTAT.sat (R141). -/
def Core.addCount (k : Core) (h inc : Nat) : Core :=
  let v := (tgetD k.cc h 0).toNat + inc
  if 0xFFFFFFFF < v then { k with cc := tput 0 k.cc h 0xFFFFFFFF, ccsat := k.ccsat ||| BitVec.ofNat 8 (2 ^ h) }
  else { k with cc := tput 0 k.cc h (BitVec.ofNat 32 v) }
/-- CCMP of a compare's outcome (R139). -/
def cmpWord (d : Option Nat) : W64 := match d with
  | none => 0xFFFFFFFF00000001
  | some i => BitVec.ofNat 64 (i * 2 ^ 32)
/-- A counted copy leaves its results (R139). -/
def Core.results (k : Core) (h : Nat) (m : CopyCmd) : Core :=
  let k := if m.mw / 64 % 2 = 1 then { k with cfp := tput 0 k.cfp h (~~~m.crc) } else k
  if m.mw / 32 % 2 = 1 then { k with ccmp := tput 0 k.ccmp h (cmpWord m.diff) } else k

/-- The commands of a channel at the head of a core's order that are complete are counted, in order (R140). DESIGN CHOICE: assumption 27. -/
def State.countUp (s : State) (c h : Nat) : Nat → State
  | 0 => s
  | f + 1 =>
    let k := s.core c
    match k.orders.find? fun o => o.1 == h with
    | some (_, id, inc, some _) =>
      let q := s.quad (c / 4)
      let m := ((tgetD q.chans h []).find? fun m => m.id == id)
      let k := { k with orders := k.orders.filter fun o => !(o.1 == h && o.2.1 == id) }
      let k := match m with | some m => k.results h m | none => k
      let s := s.setQuad (c / 4) { q with chans := tset q.chans h ((tgetD q.chans h []).filter fun m => m.id != id) }
      (s.setCore c (k.addCount h inc)).countUp c h f
    | _ => s
def State.count (s : State) (c h : Nat) : State := s.countUp c h ((s.core c).orders.length)
/-- A command takes its place in the order of its core. -/
def State.order (s : State) (c h id inc : Nat) : State := let k := s.core c; s.setCore c { k with orders := k.orders ++ [(h, id, inc, none)] }
/-- A command of a channel is complete; its increment is added in its turn. -/
def State.completes (s : State) (c h id : Nat) : State :=
  let k := s.core c
  s.setCore c { k with orders := k.orders.map fun o => if o.1 == h && o.2.1 == id then (o.1, o.2.1, o.2.2.1, some 0) else o }
/-- A failed command leaves the order at once (R140). -/
def State.leaves (s : State) (c h id : Nat) : State :=
  let k := s.core c
  (s.setCore c { k with orders := k.orders.filter fun o => !(o.1 == h && o.2.1 == id) }).count c h
/-- COPY_COMPLETE (R140). -/
def execCopyComplete (c h : Nat) (s : State) : Host.Outcome State Fault Refusal := .next (s.count c h)

/-- Latency of a tier for an engine of a die (R131). -/
def tierLatency (d : Nat) : Place → Nat
  | .phys pa =>
    if pa < 2 ^ 40 then (if hbmDie pa = d then 116 else 358)
    else if pa < 2 ^ 51 then (if (pa - 2 ^ 40) / 2 ^ 32 = d then 0 else 358) else 1081
  | .host _ => 1081
  | .tile t _ _ _ => if t = d then 0 else 358
  | .flash _ _ => 5640
/-- What an engine of a die waits for a place: its tier, and its HBM stack (R120, R121). -/
def State.placeWait (s : State) (d : Nat) (p : Place) : Nat := tierLatency d p + match p with | .phys pa => s.stackWait pa | _ => 0
/-- DESIGN CHOICE: assumption 45. -/
def State.tierOf (s : State) (x : Ctx) (a : Acc) (va : W64) : Nat := match s.translate { x with direct := true } a va with
  | .at_ p _ => s.placeWait (dieOfCore x.core) p
  | _ => 0

/-- A contained fault of an engine's command holds the command (R385). -/
def State.engRecord (s : State) (code unit part index d : Nat) (pc info : W64) (progress tag core aux : Nat) : List Byte :=
  record code 0 unit part index d 4 pc info progress tag [] core aux s.beacon

end Sys2Proof.Machine
end

