-- ==== Sys2Proof/Machine/Array.lean ====
section
/-! DEFINITION. What the matrix array computes (R204 to R206, R241, R247, R249, R253 to R255) and how far its commands have come (R248, R254, R255). -/
namespace Sys2Proof.Machine

/-- A FIFO part of a quad (R145). -/
def fifoKey (f member : Nat) : Nat := 4 * f + member

/-! ### Pass geometry and operand layout (R241, R249, R254) -/

/-- The wider slice width of a format pair. -/
def widest (fa fb : Nat) : Nat := max (sliceWidth fa) (sliceWidth fb)
/-- K per pass, and clocks per A row or B run (R241). -/
def perPass (fa fb : Nat) : Nat := let w := widest fa fb; if w ≤ 2 then 1024 else if w ≤ 4 then 512 else 256
def perRow (fa fb : Nat) : Nat := if widest fa fb = 9 then 2 else 1

/-- Beats of an operand of n storage blocks (R249). -/
def beatCount (fmt geo n : Nat) : Nat :=
  match geoOf fmt geo with
  | 0 => cdiv (n * blockBytes fmt) 64
  | 1 => cdiv n (64 / blockBytes fmt)
  | _ => 4 * cdiv n (quadBlocks (elemBits fmt))

/-- Byte o of a sequence of beats. -/
def beatByte (b : List (BitVec 512)) (o : Nat) : Byte := (b.getD (o / 64) 0).extractLsb' (8 * (o % 64)) 8

/-- Blocks of `rows` runs in a pass of kt, over all passes of K (R254). -/
def runBlocks (rows k kt : Nat) : Nat := rows * (k / kt * (kt / 4) + cdiv (k % kt) 4)
/-- Element k of row i of an operand in passes (R254). -/
def passElem (b : List (BitVec 512)) (fmt geo rows kk kt i k : Nat) : Num :=
  let p := k / kt
  let len := min kk ((p + 1) * kt) - p * kt
  elemNum (beatByte b) fmt geo (4 * (p * rows * (kt / 4) + i * cdiv len 4) + k % kt)
/-- Element k of run i of an operand of whole runs: the batch of MMV, or column i of its B (R255). -/
def runElem (b : List (BitVec 512)) (fmt geo kk i k : Nat) : Num := elemNum (beatByte b) fmt geo (4 * (i * cdiv kk 4) + k)

/-! ### The array's arithmetic (R204 to R206, R253) -/

def isNegZero : Num → Bool
  | .fin true 0 _ => true
  | .fin true (_ + 1) _ => false
  | .fin false _ _ => false
  | .nan => false
  | .inf _ => false
/-- The exact sum of a group's products; a group that K leaves incomplete is filled with +0 (R204, R205). -/
def groupSum (ps : List Num) : Num := Num.sum (if ps.length < 16 then ps ++ [.fin false 0 0] else ps)
/-- round_mode(acc + G) (R205, R206). DEDUCED: assumption 55. -/
def accRound (mode d : Nat) (sat : Bool) (acc : W32) (g : Num) : W32 :=
  let a := fp32.dec acc.toNat
  let r := match Num.add false a g with
    | .fin _ 0 _ => .fin (mode == 4 || (isNegZero a && isNegZero g)) 0 0
    | x => x
  BitVec.ofNat 32 (fp32.enc mode d sat r)
/-- The 16-wide groups of an output element in ascending order; `draw` is the draw of a group. DEDUCED: assumption 58. -/
def accChain (mode : Nat) (draw : Nat → Nat) (sat : Bool) (k : Nat) (prod : Nat → Num) : Nat → Nat → W32 → W32
  | 0, _, acc => acc
  | f + 1, g, acc =>
    let ps := (List.range (min 16 (k - 16 * g))).map fun t => prod (16 * g + t)
    -- a NaN operand of the group makes the product NaN; a zero factor hides an infinity only
    accChain mode draw sat k prod f (g + 1) (accRound mode (draw g) sat acc (groupSum ps))
/-- A product with the signs of .na and .nb; NaN when either factor is (R205, R206). -/
def product (na nb : Bool) (a b : Num) : Num :=
  let x := if na then a.neg else a; let y := if nb then b.neg else b
  if x.isNan || y.isNan then .nan else x.amul y

/-- Keys of the elements of a bank. -/
def bankKey (b i j : Nat) : Nat := b * 65536 + 256 * i + j
def clearBank (t : Tbl W32) (b : Nat) : Tbl W32 := t.filter fun e => e.1 / 65536 != b
/-- The generator of an array (R200). -/
def arrGen (q : Nat) : Nat := 8192 + q

/-- The local shape of a command on a quad (R247): rows, columns, K. -/
def gmOf (w : W64) : Nat := bits w 17 16 + 1
def gnOf (w : W64) : Nat := bits w 19 18 + 1
def gkOf (w : W64) : Nat := bits w 21 20 + 1
def groupSize (w : W64) : Nat := gmOf w * gnOf w * gkOf w
/-- Position (qi, qj, qk) of member m (R246). -/
def memberAt (w : W64) (m : Nat) : Nat × Nat × Nat := (m / gnOf w % gmOf w, m % gnOf w, m / (gnOf w * gmOf w))
def cutRange (n from_ len : Nat) : Nat := min n (from_ + len) - from_
def MatCmd.shape (x : MatCmd) (q : Nat) : Nat × Nat × Nat :=
  match x.grp with
  | none => (x.m, x.n, x.k)
  | some (f, w) =>
    let at_ := memberAt w (q - f)
    let kp := 16 * cdiv x.k (16 * gkOf w)
    (cutRange x.m (256 * at_.1) 256, cutRange x.n (256 * at_.2.1) 256, cutRange x.k (at_.2.2 * kp) kp)
/-- Beats of both operands that a command takes on a quad. -/
def MatCmd.needs (x : MatCmd) (q : Nat) : Nat × Nat :=
  let (m, n, k) := x.shape q
  if m = 0 ∨ n = 0 ∨ k = 0 ∨ x.kind = 2 then (0, 0)
  else if x.kind = 1 then
    (if x.res then 0 else beatCount x.fa x.geoA (m * cdiv k 4), beatCount x.fb x.geoB (n * cdiv k 4))
  else
    let kt := perPass x.fa x.fb
    (beatCount x.fa x.geoA (runBlocks m k kt), beatCount x.fb x.geoB (runBlocks n k kt))

/-- The result of the first `groups` groups of K of a command over its local shape: element (i, j) from its start value (R253, R255). -/
def MatCmd.element (x : MatCmd) (m n k groups : Nat) (resident : List (BitVec 512) × Nat) (gen : W64) (i j : Nat) (start : W32) : W32 :=
  let kt := perPass x.fa x.fb
  let (ea, eb) : (Nat → Num) × (Nat → Num) :=
    if x.kind = 1 then
      ((fun t => if x.res then runElem resident.1 x.fa resident.2 k i t else runElem x.ina x.fa x.geoA k i t), runElem x.inb x.fb x.geoB k j)
    else (passElem x.ina x.fa x.geoA m k kt i, passElem x.inb x.fb x.geoB n k kt j)
  -- the order of the draws: passes, rows, groups, columns; or runs, groups, vectors (R200)
  let draw := fun g =>
    if x.mode ≠ 5 then 0
    else if x.kind = 1 then drawAt gen ((j * cdiv k 16 + g) * m + i)
    else
      let p := 16 * g / kt
      let gp := cdiv (min k ((p + 1) * kt) - p * kt) 16
      drawAt gen (p * m * (kt / 16) * n + (i * gp + (g - p * (kt / 16))) * n + j)
  accChain x.mode draw x.sat k (fun t => product x.na x.nb (ea t) (eb t)) groups 0 start

/-- Rewrite the elements of a bank with i < m and j < n. -/
def mapBank (t : Tbl W32) (b m n : Nat) (f : Nat → Nat → W32 → W32) : Tbl W32 :=
  (List.range (m * n)).foldl (fun (t : Tbl W32) e => let key := bankKey b (e / n) (e % n); tput (0 : W32) t key (f (e / n) (e % n) (tgetD t key 0))) t

def State.arr (s : State) (q : Nat) : Arr := (s.quad q).arr
def State.setArr (s : State) (q : Nat) (a : Arr) : State := let x := s.quad q; s.setQuad q { x with arr := a }

/-! ### Progress of commands (R248, R254, R255, R257) -/

/-- Passes of a command on a quad, clocks of one plane load (of the batch's load), clocks of one pass's rows (of all runs), and the clocks from its
last row to its retirement. -/
def MatCmd.work (x : MatCmd) (q : Nat) : Nat × Nat × Nat × Nat :=
  let (m, n, k) := x.shape q
  let r := perRow x.fa x.fb
  if x.kind = 2 then (1, 0, 64, 0)
  else if m = 0 ∨ n = 0 ∨ k = 0 then (1, 0, 0, 0)
  else if x.kind = 1 then (1, if x.res then 0 else cdiv (m * k) 256 * r, n * cdiv k 256 * r, 12)
  else (cdiv k (perPass x.fa x.fb), 256 * r, r * m, 11)

/-- Of `total` clocks of work that take `need` beats at an even pace, those that `got` beats allow. -/
def beatCap (total need got : Nat) : Nat := if need ≤ got then total else total * got / need
/-- Beats taken after `did` of `total` clocks. -/
def beatsDone (total need did : Nat) : Nat := if total = 0 then need else cdiv (need * did) total

/-- Whether a command's plane loads, or its batch, may advance at a clock; `open_`: what stands before it lets its first load begin. -/
def MatCmd.loads (x : MatCmd) (q clk : Nat) (open_ : Bool) : Bool :=
  let (p, lp, rp, _) := x.work q
  decide (x.load < p * lp)
  && (if x.load = 0 then open_ && decide (x.clk + 4 ≤ clk) else decide (x.load % lp ≠ 0) || decide ((x.load / lp - 1) * rp ≤ x.rows))
/-- Whether the rows of a command may advance at a clock, those before it having finished. -/
def MatCmd.runs (x : MatCmd) (q clk : Nat) : Bool :=
  let (p, lp, rp, _) := x.work q
  decide (x.rows < p * rp) && decide (x.clk + 4 ≤ clk) && (decide (x.rows % rp ≠ 0) || decide ((x.rows / rp + 1) * lp ≤ x.load))
/-- The rows of a command's last pass have begun. -/
def MatCmd.lastPass (x : MatCmd) (q : Nat) : Bool :=
  let (p, lp, rp, _) := x.work q
  decide (p * lp ≤ x.load) && decide ((p - 1) * rp ≤ x.rows)

/-- Clocks of loading, and of rows, that the beats a command has or finds in its parts allow. -/
def MatCmd.caps (x : MatCmd) (q : Nat) (y : Quad) : Nat × Nat :=
  let (p, lp, rp, _) := x.work q
  let (na, nb) := x.needs q
  let a := x.ina.length + (tgetD y.fifo (fifoKey 0 (x.core % 4)) []).length
  let b := x.inb.length + (tgetD y.fifo (fifoKey 1 (x.core % 4)) []).length
  if x.kind = 1 then (beatCap (p * lp) na a, beatCap (p * rp) nb b) else (beatCap (p * lp) nb b, beatCap (p * rp) na a)

/-- Move beats of a part that a command needs by now into the command. -/
def takeBeats (need : Nat) (got part : List (BitVec 512)) : List (BitVec 512) × List (BitVec 512) :=
  (got ++ part.take (need - got.length), part.drop (need - got.length))
def MatCmd.take (x : MatCmd) (q : Nat) (y : Quad) : MatCmd × Quad :=
  let (p, lp, rp, _) := x.work q
  let (na, nb) := x.needs q
  let (ka, kb) := (fifoKey 0 (x.core % 4), fifoKey 1 (x.core % 4))
  let (wa, wb) := if x.kind = 1 then (beatsDone (p * lp) na x.load, beatsDone (p * rp) nb x.rows) else (beatsDone (p * rp) na x.rows, beatsDone (p * lp) nb x.load)
  let (ina, ra) := takeBeats wa x.ina (tgetD y.fifo ka [])
  let (inb, rb) := takeBeats wb x.inb (tgetD y.fifo kb [])
  ({ x with ina := ina, inb := inb }, { y with fifo := tput [] (tput [] y.fifo ka ra) kb rb })

/-- Work done, and the limits before which nothing changes: the end of a plane or pass, and the beats. -/
def leftOf (did per cap : Nat) : Nat := min (per - did % per) (cap - did)
/-- The smallest positive number of a list, if there is one. -/
def leastPos : List Nat → Option Nat
  | [] => none
  | n :: t => match leastPos t with
    | none => if n = 0 then none else some n
    | some m => some (if n = 0 then m else min n m)

/-- The first command whose rows have not ended, with those before and after it. -/
def splitDone : List MatCmd → List MatCmd × List MatCmd
  | [] => ([], [])
  | x :: t => if x.fin.isSome then let (a, b) := splitDone t; (x :: a, b) else ([], x :: t)

/-- The command behind one whose plane may load during its rows: an MMV and an MZERO share the array with no other (R254, R255). -/
def MatCmd.follower (x : MatCmd) (q : Nat) : List MatCmd → Option MatCmd
  | [] => none
  | z :: _ => if x.kind = 0 ∧ z.kind = 0 ∧ z.load < (z.work q).2.1 then some z else none
/-- R254: the first unfinished command begins 4 clocks after acceptance, the one behind it when its plane begins to load. DESIGN CHOICE: assumption 50. -/
def markBegun (q now : Nat) (x : MatCmd) (t : List MatCmd) : List MatCmd :=
  { x with begun := x.begun || decide (x.clk + 4 ≤ now) } :: (match x.follower q t, t with
    | some z, _ :: r => { z with begun := z.begun || z.loads q now (x.lastPass q) } :: r
    | _, t => t)

/-- R254, R255: the commands of a quad's queue advance from clock `now` to `till`. The rows of the first unfinished command and the plane loads of it and
of the next go on together. Beats that are missing stop what needs them (R248). -/
def Quad.pace (q till : Nat) : Nat → Nat → Quad → Quad
  | 0, _, y => y
  | f + 1, now, y =>
    match splitDone y.arr.queue with
    | (_, []) => y
    | (done, x :: t) =>
      let (p, lp, rp, _) := x.work q
      if x.load = p * lp ∧ x.rows = p * rp ∧ x.clk + 4 ≤ now then
        Quad.pace q till f now { y with arr := { y.arr with queue := done ++ { x with begun := true, fin := some now } :: t } }
      else if till ≤ now then { y with arr := { y.arr with queue := done ++ markBegun q now x t } }
      else
        let (cl, cr) := x.caps q y
        let aL := x.loads q now true && decide (x.load < cl)
        let aR := x.runs q now && decide (x.rows < cr)
        let next := x.follower q t
        let cn := match next with | some z => min (z.work q).2.1 (z.caps q y).1 | none => 0
        let aN := match next with | some z => z.loads q now (x.lastPass q) && decide (z.load < cn) | none => false
        let d := (leastPos [till - now, x.clk + 4 - now, if aL then leftOf x.load lp cl else 0, if aR then leftOf x.rows rp cr else 0,
          (match next with | some z => if aN then cn - z.load else z.clk + 4 - now | none => 0)]).getD 1
        match markBegun q now x t with
        | [] => y
        | x :: t =>
          let (x, y) := MatCmd.take { x with load := x.load + (if aL then d else 0), rows := x.rows + (if aR then d else 0) } q y
          let (t, y) := match t with
            | z :: r => if aN then (let (z, y) := MatCmd.take { z with load := z.load + d } q y; (z :: r, y)) else (z :: r, y)
            | [] => ([], y)
          Quad.pace q till f (now + d) { y with arr := { y.arr with queue := done ++ x :: t } }

/-- Whether an array works for a partition: its die does, or the halt line that stops it has not yet arrived (R264, R379). -/
def State.arrRuns (s : State) (q p : Nat) : Bool :=
  s.quadRuns q p || ((s.part p).pstate == 1 && (match (s.part p).halt with | some h => h.left.contains (2, q) | none => false))

/-- Count the progress of a quad's commands up to this clock; the commands of a partition that the die does not work for stand still (R264). -/
def State.settleArr (s : State) (q : Nat) : State :=
  let y := s.quad q
  let y' := match splitDone y.arr.queue with
    | (_, x :: _) => if s.arrRuns q x.part then Quad.pace q s.clk 65536 (max y.arr.settled x.clk) y else y
    | (_, []) => y
  s.setQuad q { y' with arr := { y'.arr with settled := s.clk } }

/-! ### A stop at a K-group boundary (R264, R265) -/

/-- The groups of K that a command has done of element (i, j), the row or run in progress among them. -/
def MatCmd.groupsDone (x : MatCmd) (q i j : Nat) : Nat :=
  let (m, _, k) := x.shape q
  let begun := cdiv x.rows (perRow x.fa x.fb)
  min (cdiv k 16) (if x.kind = 1 then 16 * min (cdiv k 256) (begun - j * cdiv k 256) else perPass x.fa x.fb / 16 * cdiv (begun - i) m)
/-- The bank of a command that stops for good as its finished rows or runs leave it (R265). An MZERO that has not ended leaves its bank as it was. DESIGN
CHOICE: assumption 156. -/
def State.stopCmd (s : State) (q : Nat) (x : MatCmd) : State :=
  let a := s.arr q
  let (m, n, k) := x.shape q
  let split := match x.grp with | some (_, w) => decide (1 < gkOf w) | none => false
  if x.kind = 2 then (if x.fin.isSome then s.setArr q { a with banks := clearBank a.banks x.bank } else s)
  else if x.rows = 0 ∨ m = 0 ∨ n = 0 ∨ k = 0 ∨ split = true then s
  else
    let gen := s.gen x.part (arrGen q)
    let a := if x.kind = 1 ∧ !x.res then { a with resident := tset a.resident x.core (x.ina, x.geoA) } else a
    let banks := mapBank a.banks x.bank m n fun i j v =>
      let g := x.groupsDone q i j
      if g = 0 then v else x.element m n k g (tgetD a.resident x.core ([], 0)) gen i j (if x.ovw then 0 else v)
    (s.setArr q { a with banks := banks }).drew x.part (arrGen q) x.mode (m * n * cdiv k 16)
/-- The array's commands of a partition stop for good: what they have done stands in their banks. -/
def State.stopArr (s : State) (p q : Nat) : State := ((s.arr q).queue.filter fun x => x.part == p).foldl (fun (s : State) x => s.stopCmd q x) s

end Sys2Proof.Machine
end

