-- ==== Sys2Proof/Machine/Copy.lean ====
section
/-! DEFINITION. Copy engines (R124 to R145, R150): commands, segments, conversion, fingerprint, counters, SHAPE, WAITC, DRAIN, and the
migration copy of PAGEMV (R116 to R118). -/
namespace Sys2Proof.Machine

/-! ### The microword (R129) -/

def mwOf (mw : Micro) : Nat := match mw with | none => 0 | some v => v.val
def mwShp (m : Nat) : Nat := m / 2 ^ 20 % 16
def mwWalk (m : Nat) : Bool := m / 2 ^ 19 % 2 == 1
def mwGix (m : Nat) : Nat := m / 2 ^ 17 % 4
def mwSix (m : Nat) : Nat := m / 2 ^ 15 % 4
def mwCv (m : Nat) : Bool := m / 2 ^ 14 % 2 == 1
def mwCfmt (m : Nat) : Nat := m / 2 ^ 9 % 32
def mwTr (m : Nat) : Nat := m / 2 ^ 7 % 4
def mwFp (m : Nat) : Bool := m / 64 % 2 == 1
def mwCmp (m : Nat) : Bool := m / 32 % 2 == 1
def mwShd (m : Nat) : Bool := m / 16 % 2 == 1
/-- Index width in bytes of a code of gix, six or tr. -/
def widthOf (c : Nat) : Nat := match c with | 1 => 1 | 2 => 2 | _ => 4

/-! ### Fingerprint (R138) -/

def crcBit (c : W64) : W64 := if c.toNat % 2 = 1 then (c >>> 1) ^^^ 0xC96C5795D7870F42 else c >>> 1
def crcByte (c : W64) (b : Byte) : W64 := (List.range 8).foldl (fun c _ => crcBit c) (c ^^^ b.zeroExtend 64)
/-- The register after more bytes of the stream; it starts at all ones and the fingerprint is its complement. -/
def crcBytes (c : W64) (b : List Byte) : W64 := b.foldl crcByte c

/-! ### Shape records (R132 to R134) -/

def shapeOf (r : List Byte) : Option ShapeRec :=
  let c := fun i => field r (4 + 4 * i) 4
  let ok := field r 0 1 ≤ 6 ∧ zeros r 1 3 ∧ zeros r 20 4 ∧ zeros r 56 8 ∧ (List.range 4).all (fun i => decide (1 ≤ c i) && decide (c i ≤ 65536))
    ∧ 2 ^ field r 0 1 * c 0 * c 1 * c 2 * c 3 ≤ 2 ^ 28
  let st := fun i => BitVec.ofNat 64 (field r (24 + 8 * i) 8)
  if ok then some ⟨field r 0 1, c 0, c 1, c 2, c 3, st 0, st 1, st 2, st 3⟩ else none
def ShapeRec.bytes (x : ShapeRec) : Nat := 2 ^ x.elog * x.c0 * x.c1 * x.c2 * x.c3

def shapeEffect (s : State) (a : Fin 64) (k : Fin 16) : Res :=
  let va := s.me.sreg a.val
  if va.toNat % 64 ≠ 0 then fault alignment 0 va else
  match s.readVa .load va 64 with
  | .stop r => r
  | .ok (b, _, p) =>
    match shapeOf b with
    | none => fault invalidOperand
    | some x => .ok ((s.countSpan va 64).setMe { s.me with shapes := tset s.me.shapes k.val x, shapeOld := tset s.me.shapeOld k.val (s.me.bid, tget s.me.shapes k.val), shapeAt := tset s.me.shapeAt k.val (s.clk + s.loadLatency p) })
def execShape (a : Fin 64) (k : Fin 16) (l : Lent) (s : State) := meaning (.shape a k l) 1 s (shapeEffect s a k)
/-- A command that names an entry waits until its SHAPE has written it (R133). -/
def State.shapeLate (s : State) (k : Nat) : Bool := s.waitsFor (decide (s.clk < tgetD s.me.shapeAt k 0))
/-- The entry as a bundle reads it: a SHAPE of the same bundle is not visible to it (R25). DEDUCED: assumption 131. -/
def Core.shape (k : Core) (n : Nat) : Option ShapeRec := match tget k.shapeOld n with
  | some o => if o.1 = k.bid then o.2 else tget k.shapes n
  | none => tget k.shapes n

/-! ### Acceptance (R124, R136) -/

/-- Commands of a channel that still hold an entry of its queue: a command holds its entry until it is done. DESIGN CHOICE: assumption 143. -/
def queued (l : List CopyCmd) : Nat := (l.filter fun m => !m.done).length
def CopyCmd.ctx (m : CopyCmd) (s : State) : Ctx := s.ctxOf m.core m.part m.priv m.coop
/-- Source access of a command: an HBF window only in the L-slot form (R126). -/
def CopyCmd.acc (m : CopyCmd) : Acc := .src (!m.wform)

/-- The base of the unloaded time (R131): everything but the beats. -/
def State.copyBase (s : State) (m : CopyCmd) : Nat :=
  if m.total = 0 then 24 else
  match m.kind with
  | .page _ => 24 + s.placeWait (dieOfCore m.core) (.phys (s.fabric m.src.toNat)) + s.placeWait (dieOfCore m.core) (.phys (s.fabric m.dst.toNat))
  | _ =>
    let x := m.ctx s
    let ls := s.tierOf x m.acc m.src
    let ld := match m.kind with | .fifo _ => 0 | _ => s.tierOf x (if mwCmp m.mw then .src false else .dst (mwShd m.mw)) m.dst
    let table := 40 + s.tierOf x (.src false) m.c
    let slice := match m.shape with | some h => 2 ^ h.elog * h.c0 * h.c1 / 64 | none => 0
    24 + ls + ld + (if mwWalk m.mw then 8 else 0) + (if mwGix m.mw ≠ 0 then table else 0) + (if mwSix m.mw ≠ 0 then table else 0)
      + (if mwCv m.mw then 12 else 0) + (if mwTr m.mw ≠ 0 then 16 + slice else 0) + (if mwFp m.mw then 16 else 0)
      + (if mwCmp m.mw then 16 else 0) + (if mwShd m.mw then 4 else 0)

/-- The engine has a next step of a command on the agenda. -/
def State.copyDue (s : State) (q id : Nat) : Bool := s.agenda.any fun e => e.2 == .copySegment q id || e.2 == .pagemvCopyComplete q id
/-- Start the first commands of a channel, four at once (R125), or start them again where they stopped (R151, R382); those of a partition that
does not run hold up none, and one of them that has a segment under way finishes it. -/
def State.startCopies (s : State) (q h : Nat) : State :=
  let x := s.quad q
  let l := tgetD x.chans h []
  let runs := fun (m : CopyCmd) => s.quadRuns q m.part
  let first := ((l.filter fun m => !m.done && runs m).take 4).map (·.id)
  let begins := l.filter fun m => first.contains m.id && !s.copyDue q m.id
  let s := s.setQuad q { x with chans := tset x.chans h (l.map fun m => if m.done then m else { m with active := first.contains m.id || (m.active && !runs m) }) }
  begins.foldl (fun s m => s.schedule (s.copyBase m) (.copySegment q m.id)) s
/-- Start the copies of every channel of a quad that stand still. -/
def State.kickCopies (s : State) (q : Nat) : State := (s.quad q).chans.foldl (fun (s : State) (h : Nat × List CopyCmd) => s.startCopies q h.1) s

/-- Accept a command of the current core, or hold its bundle while the channel's queue is full. -/
def State.accept (s : State) (h : Nat) (m : CopyCmd) : Res :=
  let q := s.quad s.myQuad
  let l := tgetD q.chans h []
  if 32 ≤ queued l then .hold s
  else
    let m := { m with id := s.nextId }
    let s := { s with nextId := s.nextId + 1 }
    let s := s.setQuad s.myQuad { q with chans := tset q.chans h (l ++ [m]) }
    .ok ((s.order s.cur h m.id m.inc).startCopies s.myQuad h)

/-- A copy command at issue (R136). -/
def copyEffect (s : State) (kind : CopyKind) (wform : Bool) (dst src c : W64) (inc : Fin 16) (h : Fin 8) (mw : Micro) : Res :=
  let k := s.me
  let m := mwOf mw
  let sh := if mwWalk m then k.shape (mwShp m) else none
  if mwWalk m && s.shapeLate (mwShp m) then .hold s
  else if mwWalk m && sh.isNone then fault invalidOperand
  else if !mwWalk m ∧ 2 ^ 28 < c.toNat then fault invalidOperand
  else if mwCv m ∧ c.toNat % 64 ≠ 0 then fault invalidOperand
  else if (match sh with
      | some x => decide (mwTr m ≠ 0) && (decide (widthOf (mwTr m) ≠ 2 ^ x.elog) || decide (65536 < 2 ^ x.elog * x.c0 * x.c1))
      | none => false) then fault invalidOperand
  else if (match kind, sh with
      | .scatter, some x => decide (x.c2 ≠ 1) || decide (x.c3 ≠ 1)
      | _, _ => false) then fault invalidOperand
  else if (kind == .gather && decide (c.toNat % widthOf (mwGix m) ≠ 0)) || (kind == .scatter && decide (c.toNat % widthOf (mwSix m) ≠ 0)) then
    fault alignment 0 c
  else
    let total := match sh with | some x => x.bytes | none => c.toNat
    s.accept h.val ⟨0, s.cur, s.myPart, kind, wform, m, dst, src, c, sh, inc.val, bits k.ctxctl 10 8, k.priv, k.coop, total, 0, 0, [], 0, 0, [], false, {},
      BitVec.allOnes 64, none, false, false, none, k.pc, k.tag⟩
def execCpyIn (a b c : Fin 64) (i : Fin 16) (h : Fin 8) (mw : Micro) (s : State) :=
  meaning (.cpyIn a b c i h mw) 1 s (copyEffect s .cpy false (s.me.sreg a.val) (s.me.sreg b.val) (s.me.sreg c.val) i h mw)
def execCpyOut (a b c : Fin 64) (i : Fin 16) (h : Fin 8) (mw : Micro) (s : State) :=
  meaning (.cpyOut a b c i h mw) 3 s (copyEffect s .cpy true (s.me.sreg a.val) (s.me.sreg b.val) (s.me.sreg c.val) i h mw)
def execCpygIn (a b c : Fin 64) (i : Fin 16) (h : Fin 8) (mw : Micro) (s : State) :=
  meaning (.cpygIn a b c i h mw) 1 s (copyEffect s .gather false (s.me.sreg a.val) (s.me.sreg b.val) (s.me.sreg c.val) i h mw)
def execCpygOut (a b c : Fin 64) (i : Fin 16) (h : Fin 8) (mw : Micro) (s : State) :=
  meaning (.cpygOut a b c i h mw) 3 s (copyEffect s .gather true (s.me.sreg a.val) (s.me.sreg b.val) (s.me.sreg c.val) i h mw)
def execCpysIn (a b c : Fin 64) (i : Fin 16) (h : Fin 8) (mw : Micro) (s : State) :=
  meaning (.cpysIn a b c i h mw) 1 s (copyEffect s .scatter false (s.me.sreg a.val) (s.me.sreg b.val) (s.me.sreg c.val) i h mw)
def execCpysOut (a b c : Fin 64) (i : Fin 16) (h : Fin 8) (mw : Micro) (s : State) :=
  meaning (.cpysOut a b c i h mw) 3 s (copyEffect s .scatter true (s.me.sreg a.val) (s.me.sreg b.val) (s.me.sreg c.val) i h mw)
def execCpyfIn (f : Bool) (b c : Fin 64) (i : Fin 16) (h : Fin 8) (mw : Micro) (s : State) :=
  meaning (.cpyfIn f b c i h mw) 1 s (copyEffect s (.fifo f.toNat) false 0 (s.me.sreg b.val) (s.me.sreg c.val) i h mw)
def execCpyfOut (f : Bool) (b c : Fin 64) (i : Fin 16) (h : Fin 8) (mw : Micro) (s : State) :=
  meaning (.cpyfOut f b c i h mw) 3 s (copyEffect s (.fifo f.toNat) true 0 (s.me.sreg b.val) (s.me.sreg c.val) i h mw)

/-! ### The stream (R136) -/

/-- Entry i1 of an index table, of w bytes; an HBF window holds no table (R98). -/
def State.indexEntry (s : State) (x : Ctx) (m : CopyCmd) (w i : Nat) : Eng Nat :=
  match s.engRead x m.lap (.src false) (m.c + BitVec.ofNat 64 (w * i)) w with
  | .ok s b => .ok s (leNat b)
  | .stop s r => .stop s r

/-- The place in the walk of the element that stands at position q of the stream, under the transpose of R136. -/
def ShapeRec.at_ (h : ShapeRec) (tr : Bool) (q : Nat) : Nat × Nat × Nat × Nat :=
  let slice := h.c0 * h.c1
  let r := q % slice
  let (i0, i1) := if tr then (r / h.c1, r % h.c1) else (r % h.c0, r / h.c0)
  (i0, i1, q / slice % h.c2, q / slice / h.c2)

/-- Source ranges of the elements of a walk at a list of positions; gather entries are read on the way. -/
def State.walkRanges (s : State) (x : Ctx) (m : CopyCmd) (h : ShapeRec) : List Nat → Eng (List (Nat × Nat))
  | [] => .ok s []
  | q :: t =>
    let (i0, i1, i2, i3) := h.at_ (mwTr m.mw ≠ 0) q
    let row : Eng Nat := if mwGix m.mw ≠ 0 then s.indexEntry x m (widthOf (mwGix m.mw)) i1 else .ok s i1
    match row with
    | .stop s w => .stop s w
    | .ok s j =>
      let va := m.src + BitVec.ofNat 64 i0 * h.s0 + BitVec.ofNat 64 j * h.s1 + BitVec.ofNat 64 i2 * h.s2 + BitVec.ofNat 64 i3 * h.s3
      match s.walkRanges x m h t with
      | .stop s w => .stop s w
      | .ok s r => .ok s ((va.toNat, 2 ^ h.elog) :: r)

/-- Stream bytes lo to lo + n − 1 of a command without conversion. -/
def State.streamBytes (s : State) (x : Ctx) (m : CopyCmd) (lo n : Nat) : Eng (List Byte) :=
  match m.shape with
  | none => s.engRead x m.lap m.acc (m.src + BitVec.ofNat 64 lo) n
  | some h =>
    let e := 2 ^ h.elog
    match s.walkRanges x m h ((List.range (n / e)).map (lo / e + ·)) with
    | .stop s w => .stop s w
    | .ok s rs => s.engReads x m.lap m.acc rs

/-- Bytes of the destination that the stream has jumped over before its byte lo. -/
def CopyCmd.jumped (m : CopyCmd) (lo : Nat) : Nat := m.jumps.foldl (fun n j => if j.1 ≤ lo then n + j.2 else n) 0
/-- The destination of n stream bytes from byte lo on, as (address, length). -/
def CopyCmd.ranges (m : CopyCmd) : Nat → Nat → Nat → List (Nat × Nat)
  | 0, _, _ => []
  | f + 1, lo, n =>
    if n = 0 then []
    else
      let k := m.jumps.foldl (fun k j => if lo < j.1 then min k (j.1 - lo) else k) n
      ((m.dst + BitVec.ofNat 64 (lo + m.jumped lo)).toNat, k) :: m.ranges f (lo + k) (n - k)
def CopyCmd.into (m : CopyCmd) (lo n : Nat) : List (Nat × Nat) := m.ranges (m.jumps.length + 1) lo n
/-- A list of bytes cut into the lengths of ranges. -/
def cutAt : List (Nat × Nat) → List Byte → List (Nat × List Byte)
  | [], _ => []
  | (a, n) :: t, b => (a, b.take n) :: cutAt t (b.drop n)
/-- Destination pieces of stream bytes: in place, or row by row under a scatter table. -/
def State.destPieces (s : State) (x : Ctx) (m : CopyCmd) : Nat → Nat → List Byte → Eng (List (Nat × List Byte))
  | 0, _, _ => .ok s []
  | f + 1, lo, b =>
    if b.isEmpty then .ok s []
    else if mwSix m.mw = 0 then .ok s (cutAt (m.into lo b.length) b)
    else match m.shape with
      | none => .ok s []
      | some h =>
        let row := 2 ^ h.elog * h.c0
        match s.indexEntry x m (widthOf (mwSix m.mw)) (lo / row) with
        | .stop s w => .stop s w
        | .ok s j =>
          let n := min b.length (row - lo % row)
          match s.destPieces x m f (lo + n) (b.drop n) with
          | .stop s w => .stop s w
          | .ok s r => .ok s (((m.dst + BitVec.ofNat 64 (j * row + lo % row)).toNat, b.take n) :: r)

/-- The first difference of two byte lists. -/
def firstDiff : List Byte → List Byte → Nat → Option Nat
  | a :: s, b :: t, i => if a = b then firstDiff s t (i + 1) else some i
  | _, _, _ => none

/-! ### Conversion (R137, R202) -/

/-- What maps a byte of a range (R103, R112): its leaf, its physical address, and how many bytes from it on lie in the same page, and in the same
row of a remap window. -/
structure PageView where
  leaf : W64
  pa : Nat
  span : Nat
  deriving DecidableEq, Repr

/-- Bytes of a range from an address to the end of its page or of its row in a remap window. -/
def State.rowSpan (s : State) (x : Ctx) (va : Nat) : Nat :=
  match s.windowAt x va with
  | some w => w.rowBytes - (va - w.winVa.toNat) % w.rowBytes
  | none => 4096
def State.pageView (s : State) (x : Ctx) (a : Acc) (va : Nat) : Eng PageView :=
  match s.engineTranslate x a (BitVec.ofNat 64 va) with
  | (s, .at_ (.phys pa) leaf) => .ok s ⟨leaf, pa, min (4096 - pa % 4096) (s.rowSpan x va)⟩
  | (s, .at_ p _) => .ok s ⟨rawLeaf, p.key % 4096, 4096 - p.key % 4096⟩
  | (s, r) => .stop s (stopOf (BitVec.ofNat 64 va) r)

/-- First byte and end of a storage block within its page (R192, R193). -/
def blockSpan (fmt g b : Nat) : Nat × Nat :=
  match geoOf fmt g with
  | 0 => (b * blockBytes fmt, (b + 1) * blockBytes fmt)
  | 1 => let o := 64 * (b / (64 / blockBytes fmt)) + b % (64 / blockBytes fmt) * blockBytes fmt; (o, o + blockBytes fmt)
  | _ => let q := b / quadBlocks (elemBits fmt); (256 * q, 256 * q + 256)
/-- The blocks of a page that lie wholly in the byte range lo to hi − 1: a conversion begins at the first whole block of its ranges.
DESIGN CHOICE: assumption 144. -/
def blocksIn (fmt g lo hi : Nat) : List Nat :=
  (List.range (pageBlocks fmt g)).filter fun b => let sp := blockSpan fmt g b; decide (lo ≤ sp.1) && decide (sp.2 ≤ hi)

/-- The source blocks of a conversion from block `skip` on, at most n of them, as the four values of each. -/
def State.sourceBlocks (s : State) (x : Ctx) (m : CopyCmd) : Nat → Nat → Nat → Nat → Eng (List (List Num))
  | 0, _, _, _ => .ok s []
  | f + 1, off, skip, n =>
    if m.total ≤ off ∨ n = 0 then .ok s []
    else
      let va := (m.src + BitVec.ofNat 64 off).toNat
      match s.pageView x m.acc va with
      | .stop s w => .stop s w
      | .ok s v =>
        let fmt := pteFmt v.leaf
        if fmt = 31 then .stop s (.fail formatCause (BitVec.ofNat 64 va))
        else
          let g := pageGeo fmt (pteBaxis v.leaf) (pteLpack v.leaf)
          let lo := v.pa % 4096
          let n' := min v.span (m.total - off)
          let bs := blocksIn fmt g lo (lo + n')
          let take := (bs.drop skip).take n
          let page := v.pa - lo
          let rd (i : Nat) : Byte := m.lap.read s.fresh (page + i) (s.seenByte x.core (page + i))
          let here := take.map fun b => (List.range 4).map fun t => elemNum rd fmt g (4 * b + t)
          match take.find? fun b => inWords s.badWords (page + (blockSpan fmt g b).1) ((blockSpan fmt g b).2 - (blockSpan fmt g b).1) with
          | some _ => .stop s (.ecc page)
          | none =>
            let s := if take.isEmpty then s else s.countPlaces x.core [(.phys v.pa, n')]
            match s.sourceBlocks x m f (off + n') (skip - bs.length) (n - take.length) with
            | .stop s w => .stop s w
            | .ok s r => .ok s (here ++ r)

/-- Encode blocks in order; the answer lists shared byte and fields of each, and the draws taken. -/
def encodeBlocks (fmt mode : Nat) (draw : Nat → Nat) : List (List Num) → Nat → List (Nat × List Nat) × Nat
  | [], n => ([], n)
  | b :: t, n =>
    let (sh, fs, k) := if hasShared fmt then convertBlock fmt mode (fun i => draw (n + i)) b
      else (0, (List.range 4).map fun i => encElem fmt mode (draw (n + i)) (b.getD i (.fin false 0 0)), 4)
    let (r, n') := encodeBlocks fmt mode draw t (n + k)
    ((sh, fs) :: r, n')

/-- Set w bits at a bit offset of a number that stands for a byte image. -/
def putBits (img o w v : Nat) : Nat := img ||| (v % 2 ^ w) * 2 ^ o
/-- The byte image of consecutive blocks of a destination page from block b0: first byte, bytes. Bytes that no block occupies
are zero (R192, R193), and so are the blocks of a last line quad that the source does not fill. DESIGN CHOICE: assumption 155. -/
def blockImage (fmt g b0 : Nat) (bs : List (Nat × List Nat)) : Nat × List Byte :=
  let start := (blockSpan fmt g b0).1
  let last := b0 + bs.length - 1
  let finish := (blockSpan fmt g last).2
  let stop := match geoOf fmt g with
    | 0 => if last + 1 = pageBlocks fmt g then 4096 else finish
    | 1 => if (last + 1) % (64 / blockBytes fmt) = 0 then cdiv finish 64 * 64 else finish
    | _ => finish
  let img := (bs.zip (List.range bs.length)).foldl (fun img e =>
    let b := b0 + e.2
    let img := if hasShared fmt then putBits img (sharedAt fmt g b - 8 * start) 8 e.1.1 else img
    (List.range 4).foldl (fun img t => putBits img (elemAt fmt g b t - 8 * start) (elemBits fmt) (e.1.2.getD t 0)) img) 0
  (start, leBytes (stop - start) img)

/-- The generator of a copy channel (R200). -/
def chanGen (q h : Nat) : Nat := 16384 + 8 * q + h

/-- Where the next blocks of a conversion go: the destination bytes to skip, up to the first whole block of its range, the geometry, the blocks. A
FIFO takes blocks in packed geometry, with no page between them. DESIGN CHOICE: assumption 144. -/
def State.convertTarget (s : State) (x : Ctx) (m : CopyCmd) : Eng (Nat × Nat × List Nat) :=
  let fmt := mwCfmt m.mw
  let need := 4096 - m.buf.length
  match m.kind with
  | .fifo _ => .ok s (0, 0, List.range (min (cdiv need (blockBytes fmt)) (pageBlocks fmt 0 - 1)))
  | _ =>
    let lo := m.out + m.buf.length
    let at_ := m.dst + BitVec.ofNat 64 (lo + m.jumped lo)
    match s.pageView x (if mwCmp m.mw then .src false else .dst (mwShd m.mw)) at_.toNat with
    | .stop s w => .stop s w
    | .ok s v =>
      if pteFmt v.leaf ≠ 31 ∧ pteFmt v.leaf ≠ fmt then .stop s (.fail formatCause at_)
      else
        let g := pageGeo fmt (pteBaxis v.leaf) (pteLpack v.leaf)
        let lo := v.pa % 4096
        let bs := blocksIn fmt g lo (lo + v.span)
        let skip := match bs with | b :: _ => (blockSpan fmt g b).1 - lo | [] => v.span
        .ok s (skip, g, bs.filter fun b => decide ((blockSpan fmt g b).1 < lo + skip + need))
/-- Convert until a segment is there or the source ends, in at most so many turns: the command, and the draws taken so far. -/
def State.convertMore (s : State) (x : Ctx) (gen : W64) : Nat → CopyCmd → Nat → Eng (CopyCmd × Nat)
  | 0, m, n => .ok s (m, n)
  | f + 1, m, n =>
    if 4096 ≤ m.buf.length ∨ m.pos = m.total then .ok s (m, n)
    else match s.convertTarget x m with
    | .stop s w => .stop s w
    | .ok s (skip, g, bs) =>
      let m := if skip = 0 then m else { m with jumps := m.jumps ++ [(m.out + m.buf.length, skip)] }
      if bs.isEmpty then s.convertMore x gen f m n
      else match s.sourceBlocks x m (m.total / 64 + 2) 0 m.blk bs.length with
      | .stop s w => .stop s w
      | .ok s nums =>
        let fmt := mwCfmt m.mw
        let (enc, n) := encodeBlocks fmt m.rnd (drawAt gen) nums n
        let b := if enc.isEmpty then [] else (blockImage fmt g (bs.getD 0 0) enc).2
        s.convertMore x gen f { m with buf := m.buf ++ b, blk := m.blk + nums.length, pos := if nums.length < bs.length then m.total else m.pos } n

/-! ### Segments (R125, R150) -/

/-- Update a command of a quad. -/
def State.updCopy (s : State) (q : Nat) (id : Nat) (f : CopyCmd → CopyCmd) : State :=
  let x := s.quad q
  s.setQuad q { x with chans := x.chans.map fun (h : Nat × List CopyCmd) => (h.1, h.2.map fun m => if m.id = id then f m else m) }
/-- The command with an id, and its channel. -/
def State.findCopy (s : State) (q id : Nat) : Option (Nat × CopyCmd) :=
  (s.quad q).chans.findSome? fun h => (h.2.find? fun m => m.id == id).map fun m => (h.1, m)

/-- The command ends: its increment waits for its turn (R140), and the channel starts the next. -/
def State.endCopy (s : State) (q h : Nat) (m : CopyCmd) : State :=
  let s := s.updCopy q m.id fun m => { m with done := true, active := false }
  ((s.completes m.core h m.id).schedule 0 (.copyComplete m.core h)).startCopies q h

/-- COPY_FAULT (R150): the command stops at its failing segment, and leaves its channel and the order. -/
def State.failCopy (s : State) (q h : Nat) (m : CopyCmd) (sub : Nat) (va : W64) : State :=
  let x := s.quad q
  let s := s.setQuad q { x with chans := tset x.chans h ((tgetD x.chans h []).filter fun o => o.id != m.id) }
  ((s.leaves m.core h m.id).unitHalt m.part 1 q ⟨17, sub, va, 0⟩ ⟨m.pc, m.tag, m.core, h, m.seg⟩).startCopies q h

/-- The next step of a command, n clocks on; a command of a partition that does not run stops here (R151). -/
def State.againCopy (s : State) (q : Nat) (m : CopyCmd) (n : Nat) : State :=
  if s.quadRuns q m.part then s.schedule n (.copySegment q m.id) else s

/-- A contained fault or a wait of a command: it tries its segment again later. -/
def State.stopCopy (s : State) (q h : Nat) (m : CopyCmd) (w : EngStop) : State :=
  let d := dieOfQuad q
  match w with
  | .fail sub va => s.failCopy q h m sub va
  | .wait => s.againCopy q m 64
  | .ecc frame =>
    let s := (s.countEcc ⟨33, 0, BitVec.ofNat 64 frame, 0⟩).updCopy q m.id fun m => { m with held := some (2 ^ 32) }
    (s.queueRecord d (s.engRecord 33 1 m.part q d m.pc (BitVec.ofNat 64 frame) m.seg m.tag m.core h) (some (.copy q m.id))).againCopy q m 256
  | .page e lp =>
    let s := (s.countRead e ((s.flash e).phys lp)).updCopy q m.id fun m => { m with held := some (pageWait e lp) }
    (s.awaitRepair e lp d (s.engRecord 32 1 m.part q d m.pc m.src lp m.tag m.core h)).againCopy q m 256

/-- Bytes of the next segment of a command without conversion (R125, R150). DESIGN CHOICE: assumption 43. -/
def segBytes (m : CopyCmd) : Nat :=
  let rest := m.total - m.pos
  match m.shape with
  | some _ => min rest 4096
  | none =>
    let n := min rest (4096 - (m.src.toNat + m.pos) % 4096)
    match m.kind with
    | .fifo _ => n
    | _ => min n (4096 - (m.dst.toNat + m.pos) % 4096)

/-- The generator of a conversion in mode n that has drawn k times. -/
def State.drewFor (s : State) (q h : Nat) (m : CopyCmd) (k : Nat) : State :=
  if mwCv m.mw && m.rnd = 5 then s.drew m.part (chanGen q h) 5 k else s
/-- The command with the bytes of its next segment read, converted and fingerprinted (R136, R138), and the draws it took. -/
def State.fillSegment (s : State) (q h : Nat) (x : Ctx) (m : CopyCmd) : Eng (CopyCmd × Nat) :=
  let printed (o : CopyCmd) : CopyCmd := if mwFp m.mw then { o with crc := crcBytes m.crc (o.buf.drop m.buf.length) } else o
  if mwCv m.mw then
    match s.convertMore x (s.gen m.part (chanGen q h)) 256 m 0 with
    | .stop s w => .stop s w
    | .ok s (o, n) => .ok (s.used m.lap) (printed o, n)
  else
    let n := segBytes m
    match s.streamBytes x m m.pos n with
    | .stop s w => .stop s w
    | .ok s b => .ok s (printed { m with buf := m.buf ++ b, pos := m.pos + n }, 0)

/-- Beats of a byte stream, the last padded with zeros (R136). -/
def beatsOf (b : List Byte) : List (BitVec 512) :=
  (List.range (cdiv b.length 64)).map fun i => BitVec.ofNat 512 (leNat ((b.drop (64 * i)).take 64))
/-- An earlier CPYF of the same core for the same FIFO has beats left to append (R145). -/
def Quad.fifoBusy (x : Quad) (m : CopyCmd) : Bool :=
  x.chans.any fun h => h.2.any fun o => o.core == m.core && o.kind == m.kind && decide (o.id < m.id) && !o.done
/-- A command before this one on its channel waits for room in its FIFO part: what is queued behind it waits (R145). -/
def behindFull (l : List CopyCmd) (m : CopyCmd) : Bool := l.any fun o => decide (o.id < m.id) && !o.done && o.full

/-- Beats go from the command to its FIFO part, as many as it has room for: the array has counted what it did without them, and looks again (R248). -/
def State.appendBeats (s : State) (q : Nat) (m : CopyCmd) (f : Nat) : State :=
  let s := s.settleArr q
  let y := s.quad q
  let key := fifoKey f (m.core % 4)
  let part := tgetD y.fifo key []
  let ready := if m.pos = m.total then cdiv m.buf.length 64 else m.buf.length / 64
  let n := min ready (256 - part.length)
  let s := s.setQuad q { y with fifo := tset y.fifo key (part ++ beatsOf (m.buf.take (64 * n))) }
  let o := { m with buf := m.buf.drop (64 * n), out := m.out + 64 * n, full := decide (n < ready), seg := if n < ready then m.seg else m.seg + 1 }
  ((s.updCopy q m.id fun p => { o with lap := p.lap }).schedule 0 (.matrixCommandRetire q)).againCopy q m (if n < ready then max 16 n else n)

/-- A segment that has been read stops: unless it fails, the command keeps what it has read, which is read once (R391). -/
def State.keepCopy (s : State) (q h : Nat) (m : CopyCmd) (draws : Nat) (w : EngStop) : State := match w with
  | .fail _ _ => s.stopCopy q h m w
  | _ => ((s.drewFor q h m draws).updCopy q m.id fun p => { m with lap := p.lap }).stopCopy q h m w
/-- The bytes of a segment are compared, scattered or written: all of them, or none. -/
def State.deliverSegment (s : State) (q h : Nat) (x : Ctx) (m : CopyCmd) (draws : Nat) : State :=
  let n := min 4096 m.buf.length
  let b := m.buf.take n
  let next (s : State) (o : CopyCmd) : State :=
    ((s.drewFor q h m draws).updCopy q m.id fun p => { o with lap := p.lap, buf := m.buf.drop n, out := m.out + n, seg := m.seg + 1 }).againCopy q m
      (cdiv (m.out + n) 64 - cdiv m.out 64)
  if mwCmp m.mw then
    match s.engReads x m.lap (.src false) (m.into m.out n) with
    | .stop s w => s.keepCopy q h m draws w
    | .ok s old => next s { m with diff := match m.diff with | some i => some i | none => (firstDiff b old 0).map (m.out + ·) }
  else match s.destPieces x m (n + 1) m.out b with
    | .stop s w => s.keepCopy q h m draws w
    | .ok s ws =>
      match s.cmdWrites x (1 + h) (mwShd m.mw) m.lap h m.id ws with
      | .stop s w => s.keepCopy q h m draws w
      | .ok s _ => next s m

/-- One 4 KiB of the copy of PAGEMV (R117): a word that ECC cannot correct arrives with free bytes, and is left behind. -/
def State.copyPage (s : State) (q : Nat) (m : CopyCmd) : State :=
  let from_ := s.fabric m.src.toNat + m.pos
  let into := s.fabric m.dst.toNat + m.pos
  let t := s.flushPath q
  let b := (List.range 4096).map fun i => if inWords s.badWords (from_ + i) 1 then Config.freeByte s.fresh i else tgetD t.mem (from_ + i) 0
  let t := (t.noteTraffic m.core from_ 4096).noteTraffic m.core into 4096
  let t := (List.range 64).foldl (fun (s : State) i => s.reach (into + 64 * i)) ({ t with mem := memWrite t.mem into b, fresh := t.fresh + 1 }.touchLines from_ 4096)
  let t := t.updCopy q m.id fun m => { m with pos := m.pos + 4096, seg := m.seg + 1 }
  if m.pos + 4096 < m.total then t.againCopy q m 64 else t.schedule 64 (.pagemvCopyComplete q m.id)

/-- COPY_SEGMENT (R125, R145, R150): the next segment of a command is carried, and its beats take their clocks; after the last the command
ends. -/
def State.copySegment (s : State) (q id : Nat) : State :=
  match s.findCopy q id with
  | none => s
  | some (h, m) =>
    if m.done || !m.active then s
    else if m.held.isSome then s.againCopy q m 64
    else
      let x := m.ctx s
      match m.kind with
      | .page _ =>
        if behindFull (tgetD (s.quad q).chans h []) m then s.againCopy q m 16
        else if m.pos < m.total then s.copyPage q m else s.schedule 1 (.pagemvCopyComplete q id)
      | .fifo f =>
        if m.pos = m.total ∧ m.buf.isEmpty then s.endCopy q h m
        else if (s.quad q).fifoBusy m || behindFull (tgetD (s.quad q).chans h []) m then s.againCopy q m 16
        else if 64 ≤ m.buf.length ∨ m.pos = m.total then s.appendBeats q m f
        else match s.fillSegment q h x m with
          | .stop s w => s.stopCopy q h m w
          | .ok s (o, n) => (s.drewFor q h m n).appendBeats q o f
      | _ =>
        if m.pos = m.total ∧ m.buf.isEmpty then s.endCopy q h m
        else if behindFull (tgetD (s.quad q).chans h []) m then s.againCopy q m 16
        else if m.pos = m.total ∨ 4096 ≤ m.buf.length ∨ (!mwCv m.mw && !m.buf.isEmpty) then s.deliverSegment q h x m 0
        else match s.fillSegment q h x m with
          | .stop s w => s.stopCopy q h m w
          | .ok s (o, n) =>
            -- a conversion that has met so many bytes without a whole block goes on in its next turn
            if mwCv m.mw && decide (o.pos ≠ o.total) && decide (o.buf.length < 4096) then
              ((s.drewFor q h m n).updCopy q m.id fun p => { o with lap := p.lap }).againCopy q m 1
            else s.deliverSegment q h x o n
def execCopySegment (q id : Nat) (s : State) : Host.Outcome State Fault Refusal := .next (s.copySegment q id)

/-! ### WAITC, DRAIN (R142, R143) -/

def waitcEffect (s : State) (h : Fin 8) (t : Fin 524288) : Res :=
  let k := s.me
  let v := (tgetD k.cc h.val 0).toNat
  if t.val = 0 then .ok s
  else if v < t.val then .hold s
  else .ok (s.setMe { k with cc := tput 0 k.cc h.val (BitVec.ofNat 32 (v - t.val)) })
def execWaitc (st h : Fin 8) (t : Fin 524288) (s : State) := meaning (.waitc st h t) 0 s (waitcEffect s h t)

/-- A copy is performed at .core and .quad when it is complete, at .die and .pkg when its writes have reached their homes (R143). -/
def drainEffect (s : State) (h c : Fin 8) : Res :=
  let out := (tgetD (s.quad s.myQuad).chans h.val []).any fun m => m.core == s.cur && !m.done
  if s.waitsFor (out || (decide (3 ≤ c.val) && s.engOut s.cur (1 + h.val))) then .hold s else .ok s
def execDrain (h c : Fin 8) (s : State) := meaning (.drain h c) 3 s (drainEffect s h c)

/-! ### PAGEMV (R116 to R118) -/

/-- The entry with mig and frame replaced. -/
def migLeaf (e : W64) (pa : Nat) (mig : Bool) : W64 :=
  BitVec.ofNat 64 (e.toNat / 2 ^ 52 * 2 ^ 52 + pa / 4096 % 2 ^ 40 * 4096 + bits e 11 7 * 128 + mig.toNat * 64 + bits e 5 0)

def pagemvEffect (s : State) (a b : Fin 64) (h : Fin 8) : Res :=
  if !s.isSup then fault privilege else
  let va := s.me.sreg a.val; let pa := (s.me.sreg b.val).toNat
  if (s.windowAt s.ctx va.toNat).isSome then fault invalidOperand
  else if 2 ^ 57 ≤ va.toNat then fault translation nonCanonical va
  else if inHbf va.toNat then fault translation permission va
  else if unmappable va.toNat then fault translation notMapped va
  else match s.walk s.myPart va.toNat with
  | .fail c => fault translation c va
  | .ecc f => uncorrectable 33 f
  | .leaf e lg at_ =>
    if va.toNat % 2 ^ lg ≠ 0 ∨ pa % 2 ^ lg ≠ 0 ∨ !(pageRegion pa lg = some 0 ∨ pageRegion pa lg = some 3)
        ∨ pteShared e ∨ pteX e ∨ pteMig e then fault invalidOperand
    else if s.waitsFor (s.pathOut s.cur || s.copiesOut s.cur) then .hold s
    else if 32 ≤ queued (tgetD (s.quad s.myQuad).chans h.val []) then .hold s
    else
      let k := s.me
      let s := { s with mem := memWrite s.mem at_ (leBytes 8 (migLeaf e (ptePa e) true).toNat) }
      let s := s.removeTlb (covers s.myPart (bits va 63 12)) false
      let s := s.setMe { s.me with dyn := s.me.dyn + 600 }
      s.accept h.val ⟨0, s.cur, s.myPart, .page at_, false, 0, BitVec.ofNat 64 pa, BitVec.ofNat 64 (ptePa e), va, none, 1, 1, k.priv, k.coop,
        2 ^ lg, 0, 0, [], 0, 0, [], false, {}, 0, none, false, false, none, k.pc, k.tag⟩
def execPagemv (a b : Fin 64) (h : Fin 8) (l : Lent) (s : State) := meaning (.pagemv a b h l) 3 s (pagemvEffect s a b h)

/-- A core as it accesses memory for a waiting access of partition p, by walks of its own. -/
def State.replayCtx (s : State) (a : Nat × Nat × Nat) : Ctx := { s.ctxOf a.1 a.2.1 (s.core a.1).priv (s.core a.1).coop with direct := true }
/-- Whether the page of a waiting access is under migration still: some kind of access finds it so. -/
def State.stillMoves (s : State) (a : Nat × Nat × Nat) : Bool :=
  [Acc.fetch, .load, .store, .cowst].any fun k => s.translate (s.replayCtx a) k (BitVec.ofNat 64 a.2.2) == .migrating
/-- A waiting access translates again: its walk starts at once, and its core issues after the walk, i clocks behind the first of its page (R118).
DESIGN CHOICE: assumption 153. -/
def State.replayOne (s : State) (d i : Nat) (a : Nat × Nat × Nat) : State :=
  let (t, r) := s.engineTranslate { s.replayCtx a with direct := false } .load (BitVec.ofNat 64 a.2.2)
  let n := match r with | .miss vpn => s.walkTime d a.2.1 (vpn * 4096) | _ => 0
  let k := t.core a.1
  t.setCore a.1 { k with nextClk := max k.nextClk (s.clk + n + 1 + i) }
/-- The accesses of a die's replay queue whose page is under migration no longer leave it, in the order in which they came (R118). -/
def State.releaseDie (s : State) (d : Nat) : State :=
  let q := (s.die d).replay
  let out := q.filter fun a => !s.stillMoves a
  let s := if out.isEmpty then s else s.setDie d { s.die d with replay := q.filter s.stillMoves }
  (out.zip (List.range out.length)).foldl (fun (s : State) e => s.replayOne d e.2 e.1) s
def State.releaseReplay (s : State) : State := s.dies.foldl (fun (s : State) (d : Nat × Die) => s.releaseDie d.1) s
/-- PAGEMV_COPY_COMPLETE (R117, R386): the leaf names the new frame; the waiting accesses translate again. -/
def State.pagemvDone (s : State) (q id : Nat) : State :=
  match s.findCopy q id with
  | none => s
  | some (h, m) =>
    match m.kind with
    | .page at_ =>
      if m.done || decide (m.pos < m.total) then s
      else
        let e : W64 := BitVec.ofNat 64 (leNat (memRead s.mem at_ 8))
        let bad := ((List.range (m.total / 4096)).filter fun i =>
          s.badWords.any fun w => w / 4096 == m.src.toNat / 4096 + i).length
        let d := hbmDie m.src.toNat
        let x := s.die d
        let s := s.setDie d { x with errRetired := BitVec.ofNat 16 (min 65535 (x.errRetired.toNat + bad)) }
        let s := { s with mem := memWrite s.mem at_ (leBytes 8 (migLeaf e m.dst.toNat false).toNat) }
        let vpn := bits m.c 63 12
        (s.removeTlb (covers m.part vpn) false).releaseReplay.payOwed.endCopy q h m
    | _ => s
def execPagemvCopyComplete (q id : Nat) (s : State) : Host.Outcome State Fault Refusal := .next (s.pagemvDone q id)

end Sys2Proof.Machine
end

