-- ==== Sys2Proof/Machine/Publish.lean ====
section
/-! DEFINITION. Publish pairs (R146 to R149). -/
namespace Sys2Proof.Machine

/-- Two ranges meet. -/
def meet (a n b m : Nat) : Bool := decide (a < b + m) && decide (b < a + n)

/-- A copy writes, by its command, bytes of a range: a compare none, a scatter the rows that its table names (any, where an entry cannot be read
yet), a conversion at most 256 bytes for a byte of its source. DESIGN CHOICE: assumption 154. -/
def State.mayWrite (s : State) (m : CopyCmd) (a n : Nat) : Bool :=
  !mwCmp m.mw && match m.kind with
    | .fifo _ => false
    | .page _ => false
    | .scatter => (match m.shape with
      | none => false
      | some h =>
        let row := 2 ^ h.elog * h.c0
        (List.range h.c1).any fun i => match s.indexEntry { m.ctx s with direct := true } m (widthOf (mwSix m.mw)) i with
          | .ok _ j => meet (m.dst + BitVec.ofNat 64 (j * row)).toNat row a n
          | .stop _ _ => true)
    | _ => meet m.dst.toNat (if mwCv m.mw then 256 * m.total + 8192 else m.total) a n
/-- A copy of the core that writes either range of a pair, and is not complete (R149). -/
def State.copiesInto (s : State) (k : Pair) : Bool :=
  (s.quad s.myQuad).chans.any fun h => h.2.any fun m => m.core == s.cur && !m.done &&
    (s.mayWrite m k.nameVa.toNat k.len || s.mayWrite m k.secondVa.toNat k.len)

/-- Every access that translated through a pair is performed, and every translation of both its ranges in the partition is dropped. -/
def State.dropPair (s : State) (p : Nat) (k : Pair) : State :=
  s.removeTlb (fun t => t.part == p &&
    (meet (t.vpn * 2 ^ t.lg * 4096) (2 ^ t.lg * 4096) k.nameVa.toNat k.len || meet (t.vpn * 2 ^ t.lg * 4096) (2 ^ t.lg * 4096) k.secondVa.toNat k.len)) false

/-- The core stalls for the package-wide removal, as a TLBI does. DESIGN CHOICE: assumption 32. -/
def State.stall (s : State) (n : Nat) : State := s.setMe { s.me with dyn := s.me.dyn + n }

/-- R149: after the accesses that translated through the pair, its select bit changes for the whole package at one moment. -/
def publishEffect (s : State) (n : Fin 64) : Res :=
  let p := s.part s.myPart
  match tget p.pairs n.val with
  | none => fault invalidOperand
  | some k =>
    if s.waitsFor (s.pathOut s.cur || s.copiesInto k) then .hold s
    else
      let s := s.dropPair s.myPart k
      let p := s.part s.myPart
      .ok ((s.setPart s.myPart { p with pairs := tset p.pairs n.val { k with sel := !k.sel } }).stall 600)
def execPublish (n : Fin 64) (s : State) := meaning (.publish n) 3 s (publishEffect s n)

def undefEffect (s : State) (n : Fin 64) : Res :=
  let p := s.part s.myPart
  match tget p.pairs n.val with
  | none => .ok s
  | some k =>
    if s.waitsFor (s.pathOut s.cur || s.copiesInto k) then .hold s
    else
      let s := s.dropPair s.myPart k
      let p := s.part s.myPart
      .ok ((s.setPart s.myPart { p with pairs := tdel p.pairs n.val }).stall 600)
def execPublishUndef (n : Fin 64) (s : State) := meaning (.publishUndef n) 3 s (undefEffect s n)

/-- A range meets an HBF window (R98). -/
def meetsHbf (a n : Nat) : Bool := (List.range 4).any fun e => meet a n (hbfBase + e * 2 ^ 41) (1440 * 2 ^ 30)
/-- The pair a descriptor describes, if every field is in range and the ranges are apart (R148). -/
def pairOf (r : List Byte) : Option Pair :=
  let a := field r 0 8; let b := field r 8 8; let n := field r 16 4
  if a % 4096 = 0 ∧ a < 2 ^ 57 ∧ b % 4096 = 0 ∧ b < 2 ^ 57 ∧ n % 4096 = 0 ∧ 4096 ≤ n ∧ n ≤ 2 ^ 30 ∧ zeros r 20 12 ∧ !meet a n b n
     ∧ !meetsHbf a n ∧ !meetsHbf b n
  then some ⟨BitVec.ofNat 64 a, BitVec.ofNat 64 b, n, false⟩ else none
/-- A range of a pair meets a range of another live pair or a live remap window of the partition (R148). -/
def State.pairMeets (s : State) (p : Nat) (k : Pair) : Bool :=
  let hit := fun a n => meet k.nameVa.toNat k.len a n || meet k.secondVa.toNat k.len a n
  (s.part p).pairs.any (fun e => hit e.2.nameVa.toNat e.2.len || hit e.2.secondVa.toNat e.2.len)
  || s.dies.any fun d => d.2.wins.any fun w => w.1 / 16 == p && hit w.2.winVa.toNat (w.2.rows * w.2.rowBytes)

def defEffect (s : State) (n a : Fin 64) : Res :=
  let va := s.me.sreg a.val
  if va.toNat % 32 ≠ 0 then fault alignment 0 va else
  match s.readSpan va 32 with
  | .stop r => r
  | .ok r =>
    let p := s.part s.myPart
    match pairOf r with
    | none => fault invalidOperand
    | some k =>
      if (tget p.pairs n.val).isSome || s.pairMeets s.myPart k then fault invalidOperand
      else .ok (((s.countSpan va 32).setPart s.myPart { p with pairs := tset p.pairs n.val k }).dropPair s.myPart k)
def execPublishDef (n a : Fin 64) (s : State) := meaning (.publishDef n a) 3 s (defEffect s n a)
/-- PUBSEL (R149). -/
def Part.pubsel (p : Part) : W64 := BitVec.ofNat 64 (p.pairs.foldl (fun v e => if e.2.sel then v + 2 ^ e.1 else v) 0)

end Sys2Proof.Machine
end

