-- ==== Sys2Proof/Machine/Matrix.lean ====
section
/-! DEFINITION. The matrix array (R204 to R206, R241 to R266): leases, turns, groups, commands and their retirement, drains. -/
namespace Sys2Proof.Machine

/-! ### Lessees, groups and claims (R242 to R246) -/

/-- The lease of a core on its array, if it is a lessee. -/
def Arr.lease (a : Arr) (c : Nat) : Option Lessee := a.lessees.find? fun l => l.core == c && l.issued
def isGroup (w : W64) : Bool := bit w 4
/-- The quads of a group lease (R246), for a lessee of quad q. -/
def groupQuads (q : Nat) (w : W64) : List Nat :=
  if isGroup w then (List.range (groupSize w)).map (firstQuad (dieOfQuad q) + bits w 15 8 + ·) else [q]
/-- The entry of a group's word on a quad. -/
def State.member (s : State) (q : Nat) (w : W64) : Option Lessee := (s.arr q).lessees.find? fun l => l.word == w && !l.ended
/-- The core that issues commands under a lease: the lessee itself, or the core of member 0. -/
def State.leader (s : State) (q : Nat) (l : Lessee) : Nat :=
  if isGroup l.word then
    (match (s.arr ((groupQuads q l.word).headD q)).lessees.find? fun x => x.word == l.word && x.ended == l.ended with
     | some x => x.core
     | none => 4096)
  else l.core
/-- A group takes commands while every member is a lessee and none has issued its LFREE (R245). -/
def State.whole (s : State) (q : Nat) (l : Lessee) : Bool :=
  !isGroup l.word || (!l.ended && (groupQuads q l.word).all fun p => match s.member p l.word with | some x => x.granted | none => false)

/-- R246. -/
def State.groupBad (s : State) (q : Nat) (w : W64) : Bool :=
  let qs := groupQuads q w
  decide (groupSize w < 2) || decide (16 < groupSize w) || decide (quadsOf (dieOfQuad q) ≤ bits w 15 8 + groupSize w - 1) || !qs.contains q
  || (s.member q w).isSome
  || (List.range (quadsOf (dieOfQuad q))).any fun i =>
      let p := firstQuad (dieOfQuad q) + i
      (s.arr p).lessees.any fun l => isGroup l.word && l.word != w && (groupQuads p l.word).any qs.contains

/-- Banks that an array may grant an entry: free of other holders and of requests that stand before it (R242). -/
def freeFor (c banks : Nat) : List Lessee → Bool
  | [] => true
  | l :: t => if l.core = c then t.all fun x => !x.granted || x.banks &&& banks == 0 else l.banks &&& banks == 0 && freeFor c banks t

/-- Write a restored core's saved array work back (R264): its banks as they were saved, its commands behind those of the queue, its batch unless
that of a lessee has been loaded since (R256). -/
def State.writeBack (s : State) (q : Nat) (banks : Nat) (v : ArrSave) : State :=
  let a := s.arr q
  let held := (List.range 4).filter fun b => banks / 2 ^ b % 2 == 1
  let s := s.setArr q { a with
    banks := v.banks.foldl (fun (t : Tbl W32) (e : Nat × W32) => tset t e.1 e.2) (held.foldl clearBank a.banks)
    queue := a.queue ++ v.mat
    batch := match a.batch with
      | some b => if a.lessees.any fun l => l.core == b.core && l.issued && l.core != v.core then some b else v.batch.or (some b)
      | none => v.batch
    resident := tset a.resident v.core v.resident
    back := a.back.filter fun x => x.core != v.core }
  (s.setCore v.core { s.core v.core with rejoins := false, nextClk := max (s.core v.core).nextClk (s.clk + 1) }).schedule 0 (.matrixCommandRetire q)
/-- Grant an entry on a quad: banks whose last holder was of another partition are set to +0 (R244); a restored core has its saved contents
written back. -/
def State.grantOn (s : State) (q : Nat) (l : Lessee) : State :=
  let a := s.arr q
  let foreign := (List.range 4).filter fun b => l.banks / 2 ^ b % 2 == 1 && (match tget a.last b with | some p => p != l.part | none => false)
  let s := s.setArr q { a with
    banks := foreign.foldl clearBank a.banks
    last := (List.range 4).foldl (fun t b => if l.banks / 2 ^ b % 2 = 1 then tset t b l.part else t) a.last
    batch := match a.batch with | some b => if b.core = l.core then none else some b | none => none
    lessees := a.lessees.map fun x => if x.core = l.core then { x with granted := true, clk := s.clk + if foreign.isEmpty then 0 else 64 } else x }
  match a.back.find? fun v => v.core == l.core with
  | some v => s.writeBack q l.banks v
  | none => s

/-- LEASE_GRANT (R242): the waiting entries of a quad in order of arrival; a group is granted on all its quads together. -/
def State.grantLeases (s : State) (q : Nat) : List Lessee → State
  | [] => s
  | l :: t =>
    let joint := isGroup l.word && !l.ended
    let ms := (if joint then groupQuads q l.word else [q]).map fun p => (p, if joint then s.member p l.word else some l)
    let ok := !l.granted && ms.all fun e => match e.2 with
      | some x => freeFor x.core x.banks (s.arr e.1).lessees
      | none => false
    (if ok then ms.foldl (fun s e => match e.2 with | some x => s.grantOn e.1 x | none => s) s else s).grantLeases q t
def execLeaseGrant (q : Nat) (s : State) : Host.Outcome State Fault Refusal := .next (s.grantLeases q (s.arr q).lessees)

/-- A clock that the bundle waits for a grant or a turn (R262). -/
def Core.waitLease (k : Core) : Core := { k with leaseWait := min 0xFFFFFFFF (k.leaseWait + 1) }

/-- DEDUCED: assumption 57. -/
def leaseEffect (s : State) (r : Fin 64) : Res :=
  let w := s.me.sreg r.val
  let q := s.myQuad
  let a := s.arr q
  match a.lessees.find? fun l => l.core == s.cur with
  | some l =>
    if l.issued then fault invalidOperand
    else if l.word ≠ w then .hold (s.setArr q { a with lessees := a.lessees.filter fun x => x.core != s.cur })
    else if l.granted ∧ l.clk ≤ s.clk then
      .ok (s.setArr q { a with lessees := a.lessees.map fun x => if x.core = s.cur then { x with issued := true } else x })
    else .hold (s.setMe s.me.waitLease)
  | none =>
    let banks := bits w 3 0
    if bits w 63 22 ≠ 0 ∨ bits w 7 5 ≠ 0 ∨ banks = 0 ∨ (!isGroup w ∧ bits w 21 8 ≠ 0) then fault invalidOperand
    else if isGroup w && s.groupBad q w then fault invalidOperand
    else
      let s := s.setArr q { a with lessees := a.lessees ++ [⟨s.cur, s.myPart, banks, w, false, 0, false, false⟩] }
      let s := s.grantLeases q (s.arr q).lessees
      let a := s.arr q
      match a.lessees.find? fun l => l.core == s.cur with
      | some l =>
        if l.granted ∧ l.clk ≤ s.clk then
          .ok (s.setArr q { a with lessees := a.lessees.map fun x => if x.core = s.cur then { x with issued := true } else x })
        else .hold (s.setMe s.me.waitLease)
      | none => .hold s
def execLease (r : Fin 64) (l : Lent) (s : State) := meaning (.lease r l) 3 s (leaseEffect s r)

/-! ### Retirement (R254, R255) -/

/-- The clock in which the head of a queue retires, if the beats for it are there: a command that retires in a clock has retired for what issues
from the next. DESIGN CHOICE: assumption 51. DESIGN CHOICE: assumption 52. -/
def State.retireDue (s : State) (q : Nat) : Option Nat :=
  match (Quad.pace q (s.clk + 2 ^ 40) 65536 s.clk (s.quad q)).arr.queue with
  | [] => none
  | x :: _ => x.fin.map fun e => e + (x.work q).2.2.2 + 1

/-- The array settles, and its head's retirement is put on the agenda. -/
def State.lookMatrix (s : State) (q : Nat) : State :=
  let s := s.settleArr q
  match (s.arr q).queue with
  | [] => s
  | x :: _ =>
    if x.parts.isSome || !s.arrRuns q x.part then s
    else match s.retireDue q with
      | some t => s.scheduleBy (t - s.clk) (.matrixCommandRetire q)
      | none => s
/-- The array takes its commands up again after a stop: nothing has advanced meanwhile. -/
def State.wakeMatrix (s : State) (q : Nat) : State := (s.setArr q { s.arr q with settled := s.clk }).lookMatrix q

/-! ### Turns (R243) -/

/-- Whether an issuer has a matrix command: stalled at issue, or accepted on the quad and not begun. -/
def State.hasCommand (s : State) (q c : Nat) : Bool :=
  (s.arr (c / 4)).wants.contains c || (s.arr q).queue.any fun m => !m.begun && (m.core == c || match m.grp with
    | some (f, w) => (match s.member f w with | some l => l.core == c | none => false)
    | none => false)
/-- The leaders of live groups over a quad that wait for a turn. -/
def State.groupWaits (s : State) (q : Nat) : Option (Nat × W64) :=
  ((s.arr q).lessees.find? fun l => isGroup l.word && l.granted && s.whole q l && (let c := s.leader q l; (s.arr (c / 4)).wants.contains c && (s.arr q).turn != some c)).map
    fun l => (s.leader q l, l.word)
/-- A single lessee of a quad that waits. -/
def State.singleWaits (s : State) (q c : Nat) : Bool :=
  let a := s.arr q
  a.wants.contains c && a.turn != some c && (match a.lease c with | some l => !isGroup l.word | none => false)
def State.someoneWaits (s : State) (q : Nat) : Bool :=
  (s.groupWaits q).isSome || (List.range 4).any fun m => s.singleWaits q (4 * q + m)
/-- The quads of a turn that core c holds on quad q. -/
def State.turnQuads (s : State) (q c : Nat) : List Nat :=
  match (s.arr (c / 4)).lease c with
  | some l => groupQuads (c / 4) l.word
  | none => [q]
/-- A turn ends (R243): the last holder is remembered by its member index on each array. -/
def State.endTurn (s : State) (q : Nat) : State :=
  match (s.arr q).turn with
  | none => s
  | some c =>
    let qs := s.turnQuads q c
    qs.foldl (fun s p =>
      let a := s.arr p
      let who := match (s.arr (c / 4)).lease c with
        | some l => (match s.member p l.word with | some x => if isGroup l.word then x.core else c | none => c)
        | none => c
      if a.turn = some c then s.setArr p { a with turn := none, turnCount := 0, lastMember := who % 4 } else s) s
/-- Whether the turn on a quad has come to one of its ends. -/
def State.turnOver (s : State) (q : Nat) : Bool :=
  let a := s.arr q
  match a.turn with
  | none => false
  | some c => decide (16 ≤ a.turnCount) || decide (a.turnClk + 8192 ≤ s.clk) || ((s.turnQuads q c).any s.someoneWaits && !s.hasCommand q c)
/-- The turn of an issuer begins on its arrays. -/
def State.beginTurn (s : State) (c : Nat) (qs : List Nat) : State :=
  qs.foldl (fun s p => let a := s.arr p; s.setArr p { a with turn := some c, turnCount := 0, turnClk := s.clk }) s

/-- TURN_GRANT (R243). -/
def State.grantTurn (s : State) (q : Nat) : State :=
  let s := s.settleArr q
  let s := if s.turnOver q then s.endTurn q else s
  let s := match s.groupWaits q with
    | some (c, w) =>
      let qs := groupQuads q w
      let s := qs.foldl State.settleArr s
      let s := qs.foldl (fun (s : State) p => if s.turnOver p then s.endTurn p else s) s
      if qs.all fun p => (s.arr p).turn.isNone then s.beginTurn c qs else s
    | none =>
      let a := s.arr q
      if a.turn.isSome then s
      else match ((List.range 4).map fun i => 4 * q + (a.lastMember + 1 + i) % 4).find? (s.singleWaits q) with
        | some c => s.beginTurn c [q]
        | none => s
  if s.someoneWaits q then s.schedule 1 (.turnGrant q) else s
def execTurnGrant (q : Nat) (s : State) : Host.Outcome State Fault Refusal := .next (s.grantTurn q)

/-- A matrix command of a core is stalled at issue: the arbiter looks in the next clock. DESIGN CHOICE: assumption 49. -/
def State.wantTurn (s : State) (c : Nat) : State :=
  let q := c / 4
  let a := s.arr q
  if a.wants.contains c then s
  else (s.setArr q { a with wants := a.wants ++ [c] }).schedule 1 (.turnGrant q)

/-! ### Acceptance (R243, R252, R259) -/

/-- The core has a lease that claims a bank. -/
def State.claimed (s : State) (b : Nat) : Option Lessee :=
  match (s.arr s.myQuad).lease s.cur with
  | some l => if l.banks / 2 ^ b % 2 = 1 then some l else none
  | none => none

/-- Accept a command on every quad of its issuer's lease, in the issuer's turn; or hold the bundle. -/
def State.acceptMatrix (s : State) (l : Lessee) (x : MatCmd) : Res :=
  let q := s.myQuad
  let qs := groupQuads q l.word
  let s := qs.foldl State.settleArr s
  let s := if s.turnOver q then s.endTurn q else s
  let mine := (s.arr q).turn == some s.cur
  let again := !mine && (s.arr q).turn.isNone && decide ((s.arr q).lastMember = s.cur % 4) && (s.arr q).wants.isEmpty && !qs.any s.someoneWaits
    && qs.all (fun p => (s.arr p).turn.isNone)
  if !s.whole q l then .hold (s.setMe s.me.waitLease)
  else if !mine && !again then .hold ((s.setMe s.me.waitLease).wantTurn s.cur)
  else if qs.any fun p => decide (8 ≤ (s.arr p).queue.length) then .hold (s.wantTurn s.cur)
  else
    let s := if again then s.beginTurn s.cur qs else s
    let x := { x with
      id := s.nextId, clk := s.clk, pc := s.me.pc, tag := s.me.tag, grp := if isGroup l.word then some (qs.headD q, l.word) else none }
    let s := { s with nextId := s.nextId + 1 }
    let s := qs.foldl (fun (s : State) p =>
      let a := s.arr p
      let core := if isGroup l.word then (match s.member p l.word with | some y => y.core | none => s.cur) else s.cur
      let s := s.setArr p { a with turnCount := a.turnCount + 1, queue := a.queue ++ [{ x with core := core, geoA := bits (s.core core).mgeo 1 0, geoB := bits (s.core core).mgeo 3 2 }] }
      if a.queue.isEmpty then s.lookMatrix p else s) s
    let a := s.arr q
    let s := s.setArr q { a with wants := a.wants.filter (· != s.cur) }
    .ok (if (s.arr q).turnCount < 16 then s else s.endTurn q)

/-- The shape word (R252). -/
def shapeM (w : W64) : Nat := bits w 9 0 + 1
def shapeN (w : W64) : Nat := bits w 19 10 + 1
def shapeK (w : W64) : Nat := bits w 35 20 + 1
/-- The mode of a command: its own code, or CTXCTL.rnd (R42, R253). -/
def lentRound (k : Core) (l : Lent) : Nat :=
  let r := match l with | some v => v.val % 8 | none => 0
  if r = 0 then bits k.ctxctl 10 8 else r

def mmaEffect (s : State) (r : Fin 64) (f g : Fin 32) (sat o nb na : Bool) (b : Fin 4) (lent : Lent) : Res :=
  let w := s.me.sreg r.val
  match s.claimed b.val with
  | none => fault invalidOperand
  | some l =>
    let big := if isGroup l.word then decide (256 * gmOf l.word < shapeM w) || decide (256 * gnOf l.word < shapeN w)
      else decide (256 < shapeM w) || decide (256 < shapeN w)
    if bits w 63 36 ≠ 0 ∨ big then fault invalidOperand
    else if isGroup l.word && s.leader s.myQuad l != s.cur then fault invalidOperand
    else
      s.acceptMatrix l ⟨0, 0, s.cur, s.myPart, 0, b.val, f.val, g.val, na, nb, o, sat, false, lentRound s.me lent, 0, 0,
        shapeM w, shapeN w, shapeK w, none, false, [], [], none, 0, 0, none, 0, 0⟩
def execMma (r : Fin 64) (f g : Fin 32) (sat o nb na : Bool) (b : Fin 4) (l : Lent) (s : State) :=
  meaning (.mma r f g sat o nb na b l) 3 s (mmaEffect s r f g sat o nb na b l)

def mmvEffect (s : State) (r : Fin 64) (f g : Fin 32) (res sat o nb na : Bool) (b : Fin 4) (lent : Lent) : Res :=
  let w := s.me.sreg r.val
  let m := shapeM w; let k := shapeK w
  match s.claimed b.val with
  | none => fault invalidOperand
  | some l =>
    if bits w 63 36 ≠ 0 ∨ 256 < shapeN w ∨ 8 < m ∨ (if f.val ≤ 1 then 32768 else 65536) < m * k ∨ isGroup l.word then fault invalidOperand
    else if res && (match (s.arr s.myQuad).batch with
        | some x => x.core != s.cur || x.m != m || x.k != k || x.fmt != f.val
        | none => true) then fault invalidOperand
    else
      match s.acceptMatrix l ⟨0, 0, s.cur, s.myPart, 1, b.val, f.val, g.val, na, nb, o, sat, res, lentRound s.me lent, 0, 0,
        m, shapeN w, k, none, false, [], [], none, 0, 0, none, 0, 0⟩ with
      | .ok s => .ok (if res then s else let a := s.arr s.myQuad; s.setArr s.myQuad { a with batch := some ⟨s.cur, m, k, f.val⟩ })
      | x => x
def execMmv (r : Fin 64) (f g : Fin 32) (res sat o nb na : Bool) (b : Fin 4) (l : Lent) (s : State) :=
  meaning (.mmv r f g res sat o nb na b l) 3 s (mmvEffect s r f g res sat o nb na b l)

def mzeroEffect (s : State) (b : Fin 4) : Res :=
  match s.claimed b.val with
  | none => fault invalidOperand
  | some l =>
    if isGroup l.word && s.leader s.myQuad l != s.cur then fault invalidOperand
    else s.acceptMatrix l ⟨0, 0, s.cur, s.myPart, 2, b.val, 0, 0, false, false, true, false, false, 1, 0, 0, 1, 1, 1, none, false, [], [], none, 0, 0, none, 0, 0⟩
def execMzero (b : Fin 4) (l : Lent) (s : State) := meaning (.mzero b l) 3 s (mzeroEffect s b)

/-! ### Running a command (R247, R253 to R255, R259) -/

/-- Whether a drain of the array streams a bank (R260): that of a restored core that waits for its banks does not yet (R264). -/
def State.draining (s : State) (q b : Nat) : Bool :=
  (List.range 4).any fun m => !(s.core (4 * q + m)).rejoins && (s.core (4 * q + m)).streams s.clk b

/-- The head of the queue retires; the next command's retirement is awaited. -/
def State.popMatrix (s : State) (q : Nat) : State :=
  let a := s.arr q
  (s.setArr q { a with queue := a.queue.tail }).lookMatrix q

/-- The quad of the home member of a command, and the number of parts it adds (R247). DESIGN CHOICE: assumption 56. -/
def homeOf (x : MatCmd) (q : Nat) : Nat × Nat :=
  match x.grp with
  | none => (q, 0)
  | some (f, w) =>
    let at_ := memberAt w (q - f)
    let kp := 16 * cdiv x.k (16 * gkOf w)
    (f + at_.2.1 + gnOf w * at_.1, ((List.range (gkOf w)).filter fun k => decide (k * kp < x.k)).length)

/-- The head of a queue has done its last row: its values. -/
def State.runMatrix (s : State) (q : Nat) (x : MatCmd) : State :=
  let a := s.arr q
  let (m, n, k) := x.shape q
  if x.kind = 2 then (s.setArr q { a with banks := clearBank a.banks x.bank }).popMatrix q
  else if m = 0 ∨ n = 0 ∨ k = 0 then s.popMatrix q
  else
    let gen := s.gen x.part (arrGen q)
    let s := s.drew x.part (arrGen q) x.mode (m * n * cdiv k 16)
    let split := match x.grp with | some (_, w) => decide (1 < gkOf w) | none => false
    let a := if x.kind = 1 ∧ !x.res then { a with resident := tset a.resident x.core (x.ina, x.geoA) } else a
    let resident := tgetD a.resident x.core ([], 0)
    if !split then
      let banks := mapBank a.banks x.bank m n fun i j v => x.element m n k (cdiv k 16) resident gen i j (if x.ovw then 0 else v)
      (s.setArr q { a with banks := banks }).popMatrix q
    else
      let home := homeOf x q
      let part := mapBank [] 0 m n fun i j _ => x.element m n k (cdiv k 16) resident gen i j 0
      let a := { a with part := a.part ++ [(home.1, x.id, s.clk + 288, part)] }
      let s := (s.setArr q a).schedule 288 (.groupPartArrives home.1 q)
      if home.1 = q then (s.setArr q { a with queue := { x with parts := some home.2 } :: a.queue.tail }).schedule 0 (.groupPartArrives q q) else s.popMatrix q

/-- MATRIX_COMMAND_RETIRE: the array counts its progress; when the head has done its last row and its bank may be written, it retires. -/
def State.retireMatrix (s : State) (q : Nat) : State :=
  let s := s.settleArr q
  match (s.arr q).queue with
  | [] => s
  | x :: _ =>
    if x.parts.isSome || !s.arrRuns q x.part then s
    else match x.fin with
      | none => s.lookMatrix q
      | some e =>
        if s.clk < e + (x.work q).2.2.2 + 1 then s.lookMatrix q
        else if s.draining q x.bank then s.schedule 16 (.matrixCommandRetire q)
        else s.runMatrix q x
def execMatrixCommandRetire (q : Nat) (s : State) : Host.Outcome State Fault Refusal := .next (s.retireMatrix q)

/-- R247: the first part of the inbox that the head of the queue waits for is added to its bank; the answer is `none` when there is none, or the
bank may not be written. -/
def State.addPart (s : State) (q : Nat) : Option State :=
  let a := s.arr q
  match a.queue with
  | [] => none
  | x :: t =>
    match x.parts, a.inbox.find? fun e => e.1 == x.id with
    | some left, some (id, src, part) =>
      if s.draining q x.bank || !s.arrRuns q x.part then none
      else
        let (m, n, _) := x.shape q
        let gen := s.gen x.part (arrGen q)
        let banks := mapBank a.banks x.bank m n fun i j v =>
          accRound x.mode (if x.mode = 5 then drawAt gen (i * n + j) else 0) x.sat (if x.ovw then 0 else v) (fp32.dec (tgetD part (bankKey 0 i j) 0).toNat)
        let s := (s.setArr q { a with
          banks := banks, inbox := a.inbox.filter (fun e => !(e.1 == id && e.2.1 == src))
          queue := { x with parts := some (left - 1), ovw := false } :: t }).drew x.part (arrGen q) x.mode (m * n)
        some (if left ≤ 1 then s.popMatrix q else s)
    | _, _ => none
def State.addParts (s : State) (q : Nat) : Nat → State
  | 0 => s
  | f + 1 => match s.addPart q with
    | some t => t.addParts q f
    | none => if (s.arr q).inbox.isEmpty then s else s.schedule 16 (.groupPartArrives q q)

/-- GROUP_PART_ARRIVES (R247): the parts that quad src has sent to its home q arrive there, and the home adds its parts in order of arrival, those of
one clock in ascending qk (the agenda's order, which is that of the quads). -/
def State.partArrives (s : State) (q src : Nat) : State :=
  let from_ := s.arr src
  let (here, rest) := from_.part.partition fun p => p.1 == q && decide (p.2.2.1 ≤ s.clk)
  let s := s.setArr src { from_ with part := rest }
  let a := s.arr q
  let s := s.setArr q { a with inbox := a.inbox ++ here.map fun p => (p.2.1, src, p.2.2.2) }
  s.addParts q ((s.arr q).inbox.length + 1)
def execGroupPartArrives (q src : Nat) (s : State) : Host.Outcome State Fault Refusal := .next (s.partArrives q src)

/-! ### MCFG, MWAIT, MDRAIN, LFREE (R245, R250, R258, R260) -/

/-- MGEO (R250). -/
def mgeoOk (w : W64) : Bool := bits w 63 4 == 0 && bits w 3 2 != 3 && bits w 1 0 != 3
def mcfgEffect (s : State) (r : Fin 64) : Res :=
  let w := s.me.sreg r.val
  if mgeoOk w then .ok (s.setMe { s.me with mgeo := w }) else fault invalidOperand
def execMcfg (r : Fin 64) (l : Lent) (s : State) := meaning (.mcfg r l) 3 s (mcfgEffect s r)

/-- A matrix command of a core that names a bank of a mask has not retired. -/
def State.matrixOut (s : State) (c : Nat) (banks : List Nat) : Bool := (s.arr (c / 4)).queue.any fun m => m.core == c && banks.contains m.bank
/-- DEDUCED: assumption 54. -/
def maskBanks (m : Nat) : List Nat := if m = 0 then [0, 1, 2, 3] else (List.range 4).filter fun b => m / 2 ^ b % 2 == 1
/-- DEDUCED: assumption 53. -/
def mwaitEffect (s : State) (m : Fin 16) : Res :=
  match (s.arr s.myQuad).lease s.cur with
  | none => fault invalidOperand
  | some l =>
    if l.banks &&& m.val ≠ m.val then fault invalidOperand
    else if s.matrixOut s.cur (maskBanks m.val) then .hold s else .ok s
def execMwait (m : Fin 16) (l : Lent) (s : State) := meaning (.mwait m l) 3 s (mwaitEffect s m)

/-- Whether a drain of the array streams (R260). -/
def State.streaming (s : State) (q : Nat) : Bool := (List.range 4).any (s.draining q)
def mdrainEffect (s : State) (r : Fin 64) (b : Fin 4) : Res :=
  let w := s.me.sreg r.val
  let first := bits w 7 0; let count := bits w 16 8
  match s.claimed b.val with
  | none => fault invalidOperand
  | some _ =>
    if bits w 63 17 ≠ 0 ∨ count = 0 ∨ 256 < first + count then fault invalidOperand
    else if s.matrixOut s.cur [b.val] then .hold ((s.setMe { s.me with drainStall := min 0xFFFFFFFF (s.me.drainStall + 1) }).flowDrain s.cur)
    else if s.streaming s.myQuad then .hold (s.flowDrain s.cur)
    else .ok (s.setMe { s.me with drain := some ⟨b.val, first, count, s.me.sched + 6⟩ })
def execMdrain (r : Fin 64) (b : Fin 4) (l : Lent) (s : State) := meaning (.mdrain r b l) 3 s (mdrainEffect s r b)

/-- DRAIN_ROW_LEAVES (R260): the row has stood in the latch for its scheduled clock; the next one is due in the next. -/
def State.rowLeaves (s : State) (c : Nat) : State :=
  let k := s.core c
  match k.drain with
  | none => s
  | some d => s.setCore c { k with drain := if d.left ≤ 1 then none else some ⟨d.bank, d.row + 1, d.left - 1, d.due + 1⟩ }
def execDrainRowLeaves (c : Nat) (s : State) : Host.Outcome State Fault Refusal := .next (s.rowLeaves c)

/-- The claims of a core are released, and its turn ends; a group's turn ends at its first LFREE, which `ends` the group (R245). A save releases
without ending the group, which forms again on restore (R264). -/
def State.release (s : State) (ends : Bool) (c : Nat) : State :=
  let q := c / 4
  match (s.arr q).lessees.find? fun l => l.core == c with
  | none => s
  | some l =>
    let s := if l.issued && (s.arr q).turn == some (s.leader q l) then s.endTurn q else s
    let s := if ends && isGroup l.word && !l.ended then (groupQuads q l.word).foldl (fun (s : State) p =>
        let a := s.arr p
        s.setArr p { a with lessees := a.lessees.map fun x => if x.word = l.word then { x with ended := true } else x }) s else s
    let a := s.arr q
    let s := s.setArr q { a with lessees := a.lessees.filter (fun x => x.core != c), wants := a.wants.filter (· != c), back := a.back.filter fun x => x.core != c }
    (groupQuads q l.word).foldl (fun s p => s.schedule 1 (.leaseGrant p)) s
def State.releaseLease (s : State) (c : Nat) : State := s.release true c
def lfreeEffect (s : State) : Res :=
  if ((s.arr s.myQuad).lease s.cur).isNone then .ok s
  else if s.matrixOut s.cur [0, 1, 2, 3] || s.me.drains then .hold (s.flowDrain s.cur)
  else .ok (s.releaseLease s.cur)
def execLfree (l : Lent) (s : State) := meaning (.lfree l) 3 s (lfreeEffect s)

/-- R265: what a suspension point does to a core's matrix work, once it waits for none. -/
def State.dropMatrix (s : State) (c : Nat) : State :=
  let s := s.releaseLease c
  let q := c / 4
  let y := s.quad q
  let s := s.setQuad q { y with
    fifo := tput [] (tput [] y.fifo (fifoKey 0 (c % 4)) []) (fifoKey 1 (c % 4)) []
    arr := { y.arr with batch := match y.arr.batch with | some b => if b.core = c then none else some b | none => none } }
  let k := s.core c
  s.setCore c { k with mgeo := 0, drain := none }

end Sys2Proof.Machine
end

