-- ==== Sys2Proof/Machine/Attention.lean ====
section
/-! DEFINITION. The attention engines (R268 to R283): address generators, commands, rows, staging. -/
namespace Sys2Proof.Machine

/-! ### KVAG (R272, R273) -/

/-- The generator a descriptor describes, if every field is in range (R272). -/
def kvOf (r : List Byte) : Option KvGen :=
  let hot := field r 0 8; let slotS := field r 8 8; let layerS := field r 16 8; let posS := field r 24 4; let headS := field r 28 4
  let voff := field r 32 8; let cold := field r 40 8; let coldLen := field r 48 4; let maxLen := field r 52 4
  let slots := field r 56 2; let heads := field r 58 1
  if hot < 2 ^ 57 ∧ hot % 64 = 0 ∧ slotS % 64 = 0 ∧ layerS % 64 = 0 ∧ posS % 64 = 0 ∧ 64 ≤ posS ∧ posS ≤ 65536 ∧ headS % 64 = 0 ∧ voff % 64 = 0
     ∧ cold < 2 ^ 57 ∧ cold % 64 = 0 ∧ (coldLen = 0 → cold = 0) ∧ coldLen % 64 = 0 ∧ coldLen ≤ maxLen ∧ 1 ≤ maxLen ∧ maxLen ≤ 1048576
     ∧ 1 ≤ slots ∧ 1 ≤ heads ∧ zeros r 59 5
  then some ⟨BitVec.ofNat 64 hot, BitVec.ofNat 64 slotS, BitVec.ofNat 64 layerS, posS, headS, BitVec.ofNat 64 voff, BitVec.ofNat 64 cold, coldLen, maxLen, slots, heads⟩
  else none

/-- Read a 64-byte descriptor of an engine instruction at issue (R271); the answer carries the latency of its place. DEDUCED: assumption 31. -/
def State.descriptor (s : State) (va : W64) : MRes (List Byte × Nat) :=
  if va.toNat % 64 ≠ 0 then .stop (fault alignment 0 va)
  else match s.readVa .load va 64 with
    | .stop r => .stop r
    | .ok (b, _, p) => .ok (b, s.loadLatency p)

def kvagEffect (s : State) (a : Fin 64) (g : Fin 16) : Res :=
  match s.descriptor (s.me.sreg a.val) with
  | .stop r => r
  | .ok (b, lat) =>
    match kvOf b with
    | none => fault invalidOperand
    | some k => let s := s.countSpan (s.me.sreg a.val) 64; let x := s.die s.myDie; .ok ((s.setDie s.myDie { x with kvs := tset x.kvs (16 * s.myPart + g.val) k }).stall lat)
def execKvag (a : Fin 64) (g : Fin 16) (l : Lent) (s : State) := meaning (.kvag a g l) 3 s (kvagEffect s a g)

/-- The K row address of R273, from a base. -/
def KvGen.addr (g : KvGen) (base : W64) (slot layer head pos : Nat) : W64 :=
  base + BitVec.ofNat 64 slot * g.slotS + BitVec.ofNat 64 layer * g.layerS + BitVec.ofNat 64 (head * g.headS) + BitVec.ofNat 64 (pos * g.posS)
def KvGen.row (g : KvGen) (slot layer head pos : Nat) : W64 := g.addr (if pos < g.coldLen then g.cold else g.hot) slot layer head pos

/-! ### Acceptance (R268, R274, R279, R280) -/

def attStage (d : List Byte) : Bool := field d 50 1 / 2 % 2 == 1
def attRows (d : List Byte) : Nat := field d 44 2
def attD (d : List Byte) : Nat := 64 * 2 ^ field d 49 1
/-- The limits of the table (R274). -/
def attOk (d : List Byte) (dec : Bool) : Bool :=
  field d 0 8 % 64 == 0 && field d 8 8 % 64 == 0 && field d 16 8 % 16 == 0 && field d 24 8 % 4 == 0 && field d 40 4 / 2 ^ 23 % 256 != 255
  && decide (1 ≤ attRows d) && decide (attRows d ≤ 256) && decide (field d 46 2 ≤ 1023) && decide (field d 48 1 ≤ 15) && decide (field d 49 1 ≤ 2)
  && decide (field d 50 1 < 4) && decide (field d 51 1 ≤ 63) && (attStage d || field d 51 1 == 0) && zeros d 52 12 && (dec || !attStage d)

/-- Whether a range lies in HBM of a die, by the page tables of a partition. DESIGN CHOICE: assumption 62. -/
def State.rangeIn (s : State) (p d : Nat) (va : W64) (n : Nat) : Bool :=
  (List.range (cdiv n 4096)).all fun i =>
    let a := (va + BitVec.ofNat 64 (4096 * i)).toNat
    match s.walk p a with
    | .leaf e lg _ => let pa := ptePa e + a % 2 ^ lg; decide (pa < 2 ^ 40) && hbmDie pa == d
    | .fail _ => false
    | .ecc _ => false

/-- R280, the checks at issue of a staging command. -/
def State.stageOk (s : State) (d : List Byte) (g : KvGen) : Bool :=
  !attStage d || (decide (0 < g.coldLen) && field d 46 2 != 1023 &&
    match tget (s.part s.myPart).pairs (field d 51 1) with
    | none => false
    | some k => s.rangeIn s.myPart s.myDie k.nameVa k.len && s.rangeIn s.myPart s.myDie k.secondVa k.len)

/-- The engine of a core on its die (R268): decode engine q, prefill engine q / 4 as 16 + q / 4. -/
def attEngine (s : State) (dec : Bool) : Nat := let q := s.myQuad - firstQuad s.myDie; if dec then q else 16 + q / 4

def AttCmd.ctx (m : AttCmd) (s : State) : Ctx := s.ctxOf m.core m.part m.priv m.coop

/-- A row table entry (R275). -/
structure AttRow where
  slot : Nat
  head : Nat
  lo : Nat
  hi : Nat
  bad : Bool
  deriving DecidableEq, Repr
def State.attEntry (s : State) (m : AttCmd) (i : Nat) : Eng AttRow :=
  match s.engRead (m.ctx s) m.lap (.src false) (BitVec.ofNat 64 (field m.desc 16 8 + 16 * i)) 16 with
  | .stop s w => .stop s w
  | .ok s b =>
    let slot := field b 0 2; let head := field b 2 1; let lo := field b 4 4; let hi := field b 8 4
    .ok s ⟨slot, head, lo, hi, decide (m.kv.slots ≤ slot) || decide (m.kv.heads ≤ head) || decide (m.kv.maxLen < lo) || decide (m.kv.maxLen < hi)
      || !zeros b 3 1 || !zeros b 12 4⟩

/-- Clocks that the next 16-row block takes (R279). -/
def State.blockTime (s : State) (m : AttCmd) : Nat :=
  let rows := (List.range (min 16 (attRows m.desc - m.row))).map fun i => match s.attEntry m (m.row + i) with
    | .ok _ r => r.hi - r.lo
    | .stop _ _ => 0
  let work := rows.foldl (· + ·) 0 * 2 * attD m.desc
  cdiv work (if m.dec then 2048 else 8192)
/-- Replace a command of engine e, or take it out. -/
def State.updAtt (s : State) (d e id : Nat) (f : AttCmd → Option AttCmd) : State :=
  let x := s.die d
  s.setDie d { x with att := tput [] x.att e ((tgetD x.att e []).filterMap fun m => if m.ord = id then f m else some m) }
/-- The command that an engine works on (R268): that of its last block, if there is one, else the oldest, of those whose partition runs. -/
def State.attHead (s : State) (d e : Nat) (last : Option Nat) : Option AttCmd :=
  let l := (tgetD (s.die d).att e []).filter fun m => s.runsOn d m.part
  match l.find? fun m => last == some m.ord with
  | some m => some m
  | none => l.head?
/-- An engine that stands still begins its next 16-row block (R279, R283). -/
def State.kickAtt (s : State) (d e : Nat) (last : Option Nat := none) : State :=
  if s.agenda.any fun v => v.2 == .attentionCommandComplete (64 * d + e) then s
  else match s.attHead d e last with
  | none => s
  | some m =>
    let first := if m.row = 0 then (if m.dec then 24 else 40) + s.tierOf (m.ctx s) (.src false) (BitVec.ofNat 64 (field m.desc 16 8)) else 0
    (s.updAtt d e m.ord fun m => some { m with busy := true }).schedule (first + s.blockTime m) (.attentionCommandComplete (64 * d + e))

/-- DEDUCED: assumption 59. -/
def attEffect (s : State) (dec : Bool) (a : Fin 64) (i : Fin 16) (h : Fin 8) : Res :=
  match s.descriptor (s.me.sreg a.val) with
  | .stop r => r
  | .ok (d, lat) =>
    if !attOk d dec then fault invalidOperand
    else match tget (s.die s.myDie).kvs (16 * s.myPart + field d 48 1) with
    | none => fault invalidOperand
    | some g =>
      if !s.stageOk d g then fault invalidOperand
      else
        let x := s.die s.myDie
        let e := attEngine s dec
        let l := tgetD x.att e []
        if 16 ≤ l.length then .hold s
        else
          let s := s.countSpan (s.me.sreg a.val) 64
          let x := s.die s.myDie
          let id := s.nextId
          let k := s.me
          let m : AttCmd := ⟨s.cur, s.myPart, dec, d, g, h.val, i.val, id, false, 0, [], [], {}, k.priv, k.coop, none, k.pc, k.tag⟩
          let s := { s with nextId := id + 1 }
          let s := s.setDie s.myDie { x with att := tset x.att e (l ++ [m]) }
          let s := (s.order s.cur h.val id i.val).stall lat
          .ok (s.kickAtt s.myDie e)
def execApre (a : Fin 64) (i : Fin 16) (h : Fin 8) (l : Lent) (s : State) := meaning (.apre a i h l) 3 s (attEffect s false a i h)
def execAdec (a : Fin 64) (i : Fin 16) (h : Fin 8) (l : Lent) (s : State) := meaning (.adec a i h l) 3 s (attEffect s true a i h)

/-! ### Operand rows (R276) -/

/-- Formats that a K or V page may have. -/
def kvFormat (f : Nat) : Bool := decide (f ≤ 3) || f == 0x13 || f == 0x14
/-- The storage block that begins at a page offset. -/
def blockAt (fmt g o : Nat) : Option Nat :=
  match g with
  | 0 => if o % blockBytes fmt = 0 ∧ o / blockBytes fmt < pageBlocks fmt 0 then some (o / blockBytes fmt) else none
  | _ => let n := 64 / blockBytes fmt
    if o % 64 % blockBytes fmt = 0 ∧ o % 64 / blockBytes fmt < n then some (o / 64 * n + o % 64 / blockBytes fmt) else none
/-- A piece of a K or V row: its page, format and geometry, the first block, the elements, the address, the bytes to the next piece. -/
structure KvPiece where
  page : Nat
  fmt : Nat
  geo : Nat
  block : Nat
  n : Nat
  va : Nat
  lo : Nat
  len : Nat
  deriving DecidableEq, Repr
/-- The pieces of a K or V row of n elements from va. -/
def State.kvPieces (s : State) (x : Ctx) : Nat → Nat → Nat → Eng (List KvPiece)
  | 0, _, _ => .ok s []
  | f + 1, va, n =>
    if n = 0 then .ok s []
    else match s.pageView x (.src false) va with
    | .stop s w => .stop s w
    | .ok s v =>
      let bad : EngStop := .fail formatCause (BitVec.ofNat 64 va)
      let fmt := pteFmt v.leaf
      let g := pageGeo fmt (pteBaxis v.leaf) (pteLpack v.leaf)
      let lo := v.pa % 4096
      if !kvFormat fmt || g == 2 then .stop s bad
      else match blockAt fmt g lo with
        | none => .stop s bad
        | some b =>
          let whole := ((blocksIn fmt g lo (lo + v.span)).filter fun i => decide (b ≤ i)).length
          let here := min n (4 * whole)
          let stop := (blockSpan fmt g (b + cdiv here 4 - 1)).2
          if here = 0 then .stop s bad
          else if inWords s.badWords v.pa (stop - lo) then .stop s (.ecc (v.pa - lo))
          else match (s.countPlaces x.core [(.phys v.pa, stop - lo)]).kvPieces x f (va + v.span) (n - here) with
            | .stop s w => .stop s w
            | .ok s r => .ok s (⟨v.pa - lo, fmt, g, b, here, va, lo, if here < n then v.span else stop - lo⟩ :: r)
/-- The elements of a row as a command reads them. -/
def State.kvRow (s : State) (x : Ctx) (l : Overlap) (va : W64) (n : Nat) : Eng (List Num) :=
  match s.kvPieces x (n + 1) va.toNat n with
  | .stop s w => .stop s w
  | .ok s ps => .ok (s.used l) (ps.flatMap fun p => (List.range p.n).map fun t =>
      elemNum (fun i => l.read s.fresh (p.page + i) (s.seenByte x.core (p.page + i))) p.fmt p.geo (4 * p.block + t))
def State.kvRows (s : State) (x : Ctx) (l : Overlap) (n : Nat) : List W64 → Eng (List (List Num))
  | [] => .ok s []
  | a :: t =>
    match s.kvRow x l a n with
    | .stop s w => .stop s w
    | .ok s r =>
      match s.kvRows x l n t with
      | .stop s w => .stop s w
      | .ok s rs => .ok s (r :: rs)

/-! ### The arithmetic of a row (R277, R278) -/

def expNum (x : Num) : Num := fp32.dec (expRne x)
def Num.maxOf (a b : Num) : Num := if a.lt b then b else a
def isNegInf : Num → Bool
  | .inf n => n
  | .nan => false
  | .fin _ _ _ => false
def isPosInf : Num → Bool
  | .inf n => !n
  | .nan => false
  | .fin _ _ _ => false
/-- Running maximum, sum and output of a row. -/
structure AttAcc where
  m : Num
  l : Num
  o : List Num
  deriving DecidableEq, Repr
/-- The scores of a tile, from the K rows of its positions. -/
def attScores (scale : Num) (q : List Num) (ks : List (List Num)) : List Num :=
  ks.map fun k => rne32 (scale.mul (Num.sum ((q.zip k).map fun e => e.1.mul e.2)))
/-- A tile whose new maximum mn is a number: its scores and V rows enter the running values. -/
def attTile (xs : List Num) (mn : Num) (vs : List (List Num)) (a : AttAcc) : AttAcc :=
  let c := expNum (if isNegInf a.m then .inf true else a.m.add false mn.neg)
  let ps := xs.map fun x => expNum (if isNegInf x then .inf true else x.add false mn.neg)
  let l := rne32 (Num.sum (a.l.mul c :: ps))
  let o := (a.o.zip (List.range a.o.length)).map fun e => rne32 (Num.sum (e.1.mul c :: (ps.zip vs).map fun pv => pv.1.mul (pv.2.getD e.2 (.fin false 0 0))))
  ⟨mn, l, o⟩
/-- The positions of tile t that a row sees. -/
def tilePos (lo hi t : Nat) : List Nat := (List.range 64).filterMap fun i => let j := 64 * t + i; if lo ≤ j ∧ j < hi then some j else none

/-- K and V row addresses of a position for a command; staged cold positions of unit u are read in the pair's name range (R280). -/
def State.kvAddr (s : State) (m : AttCmd) (r : AttRow) (u : Option Nat) (j : Nat) : W64 × W64 :=
  let k := m.kv.row r.slot (field m.desc 46 2) r.head j
  match u, tget (s.part m.part).pairs (field m.desc 51 1) with
  | some u, some p =>
    if j < m.kv.coldLen then
      let c := m.kv.coldLen * m.kv.posS
      let a := p.nameVa + BitVec.ofNat 64 (2 * c * u + j * m.kv.posS)
      (a, a + BitVec.ofNat 64 c)
    else (k, k + m.kv.vOff)
  | _, _ => (k, k + m.kv.vOff)

/-- The tiles of a row in order; `none`: the row is NaN. The V rows of a tile are read only where its scores leave a maximum to weigh them by
(R277, R278). -/
def State.attTiles (s : State) (m : AttCmd) (r : AttRow) (u : Option Nat) (q : List Num) : Nat → Nat → AttAcc → Eng (Option AttAcc)
  | 0, _, a => .ok s (some a)
  | f + 1, t, a =>
    let js := tilePos r.lo r.hi t
    if js.isEmpty then .ok s (some a)
    else
      let n := attD m.desc
      match s.kvRows (m.ctx s) m.lap n (js.map fun j => (s.kvAddr m r u j).1) with
      | .stop s w => .stop s w
      | .ok s ks =>
        let xs := attScores (fp32.dec (field m.desc 40 4)) q ks
        if xs.any fun x => x.isNan || isPosInf x then .ok s none
        else
          let mn := xs.foldl Num.maxOf a.m
          if isNegInf mn then s.attTiles m r u q f (t + 1) a
          else match s.kvRows (m.ctx s) m.lap n (js.map fun j => (s.kvAddr m r u j).2) with
            | .stop s w => .stop s w
            | .ok s vs => s.attTiles m r u q f (t + 1) (attTile xs mn vs a)

/-- Output bytes of a row: O elements in FP32 or BF16, the LSE, and the mask bit. -/
def attOut (obf16 : Bool) (n : Nat) (a : Option AttAcc) : List Byte × List Byte × Bool :=
  let put (x : Num) : List Byte := if obf16 then leBytes 2 (bf16.enc 1 0 false x) else leBytes 4 (fp32.enc 1 0 false x)
  match a with
  | none => ((List.range n).flatMap (fun _ => put .nan), leBytes 4 fp32.canon, false)
  | some a =>
    if isNegInf a.m then ((List.range n).flatMap (fun _ => put (.fin false 0 0)), leBytes 4 0xFF800000, true)
    else (a.o.flatMap (fun o => put (o.div a.l)), leBytes 4 (lseRne a.m a.l), false)

/-! ### Staging (R280) -/

/-- Copy one row raw: its bytes, written as a shadow write. DESIGN CHOICE: assumption 61. -/
def State.stageRow (s : State) (m : AttCmd) (src dst : W64) : Eng Unit :=
  let x := m.ctx s
  match s.kvPieces x (attD m.desc + 1) src.toNat (attD m.desc) with
  | .stop s w => .stop s w
  | .ok s ps =>
    match s.engRead x m.lap (.src false) src (ps.foldl (fun n p => n + p.len) 0) with
    | .stop s w => .stop s w
    | .ok s b => s.cmdWrites x 16 true m.lap m.chan m.ord [(dst.toNat, b)]
/-- The cold rows of the next layer of one unit, from position j on. -/
def State.stageRows (s : State) (m : AttCmd) (r : AttRow) (u : Nat) (p : Pair) : List Nat → Eng Unit
  | [] => .ok s ()
  | j :: t =>
    let k := m.kv.row r.slot (field m.desc 46 2 + 1) r.head j
    let c := m.kv.coldLen * m.kv.posS
    let dst := p.nameVa + BitVec.ofNat 64 (2 * c * u + j * m.kv.posS)
    match s.stageRow m k dst with
    | .stop s w => .stop s w
    | .ok s _ =>
      match s.stageRow m (k + m.kv.vOff) (dst + BitVec.ofNat 64 c) with
      | .stop s w => .stop s w
      | .ok s _ => s.stageRows m r u p t

/-- The unit of a row and the units met so far; a unit met first is staged. -/
def State.stageUnit (s : State) (m : AttCmd) (r : AttRow) : Eng (Option Nat × List (Nat × Nat)) :=
  if !attStage m.desc then .ok s (none, m.units)
  else match m.units.findIdx? (· == (r.slot, r.head)) with
    | some u => .ok s (some u, m.units)
    | none =>
      let u := m.units.length
      match tget (s.part m.part).pairs (field m.desc 51 1) with
      | none => .stop s (.fail 19 0)
      | some p =>
        if p.len < 2 * (m.kv.coldLen * m.kv.posS) * (u + 1) then .stop s (.fail 19 p.nameVa)
        else match s.stageRows m r u p (List.range m.kv.coldLen) with
          | .stop s w => .stop s w
          | .ok s _ => .ok s (some u, m.units ++ [(r.slot, r.head)])

/-! ### Running a command (R276, R282, R283) -/

/-- Row i of a command: its writes are made; the answer is its mask bit and the units met. -/
def State.attRow (s : State) (m : AttCmd) (i : Nat) : Eng (Bool × List (Nat × Nat)) :=
  let x := m.ctx s
  let d := m.desc; let n := attD d; let obf := field d 50 1 % 2 == 1
  match s.attEntry m i with
  | .stop s w => .stop s w
  | .ok s r =>
    if r.bad then .stop s (.fail 18 (BitVec.ofNat 64 (field d 16 8 + 16 * i)))
    else match s.stageUnit m r with
    | .stop s w => .stop s w
    | .ok s (u, units) =>
      match s.engRead x m.lap (.src false) (BitVec.ofNat 64 (field d 0 8 + 2 * n * i)) (2 * n) with
      | .stop s w => .stop s w
      | .ok s qb =>
        let q := (List.range n).map fun j => bf16.dec (field qb (2 * j) 2)
        match s.attTiles m r u q (r.hi / 64 + 2 - r.lo / 64) (r.lo / 64) ⟨.inf true, .fin false 0 0, List.replicate n (.fin false 0 0)⟩ with
        | .stop s w => .stop s w
        | .ok s a =>
          let (o, lse, bit) := attOut obf n a
          let done := m.fullyMasked ++ [bit]
          let last := i % 8 == 7 || i + 1 == attRows d
          let byte : Byte := BitVec.ofNat 8 (((done.drop (i / 8 * 8)).zip [1, 2, 4, 8, 16, 32, 64, 128]).foldl (fun v e => if e.1 then v + e.2 else v) 0)
          match s.cmdWrites x 16 false m.lap m.chan m.ord ([(field d 8 8 + (if obf then 2 else 4) * n * i, o), (field d 24 8 + 4 * i, lse)]
              ++ if last then [(field d 32 8 + i / 8, [byte])] else []) with
          | .stop s w => .stop s w
          | .ok s _ => .ok s (bit, units)

/-- The number of an engine on its die, and its unit code (R380). -/
def attUnit (e : Nat) : Nat × Nat := if e < 16 then (4, e) else (3, e - 16)
/-- A command of a partition has started the copy of a PAGEMV that is not done. -/
def State.migrates (s : State) (p : Nat) : Bool :=
  s.quads.any fun e => e.2.chans.any fun h => h.2.any fun m => m.part == p && !m.done && (match m.kind with | .page _ => true | _ => false)
/-- A command of a torn-down partition is dropped at its block (R269). -/
def State.dropAtt (s : State) (d e : Nat) (m : AttCmd) : State := (s.updAtt d e m.ord fun _ => none).kickAtt d e
/-- A stop of a command at its first unwritten row (R282, R385): a command that fails leaves its queue and the order; one that waits tries its
row again, and one that is stopped on the way stands still. DESIGN CHOICE: assumption 60. -/
def State.stopAtt (s : State) (d e : Nat) (m : AttCmd) (w : EngStop) : State :=
  if (s.part m.part).pstate = 3 && (w != .wait || !(s.die d).walks.any fun v => v.1 == m.part) then s.dropAtt d e m
  else match w with
  | .fail sub va =>
    let s := (s.updAtt d e m.ord fun _ => none).leaves m.core m.chan m.ord
    (s.unitHalt m.part (attUnit e).1 (64 * d + e) ⟨18, sub, va, 0⟩ ⟨m.pc, m.tag, m.core, 0, m.row⟩).kickAtt d e
  | .ecc frame =>
    let s := (s.countEcc ⟨33, 0, BitVec.ofNat 64 frame, 0⟩).updAtt d e m.ord fun m => some { m with held := some (2 ^ 32) }
    (s.queueRecord d (s.engRecord 33 (attUnit e).1 m.part (attUnit e).2 d m.pc (BitVec.ofNat 64 frame) m.row m.tag m.core 0) (some (.att d e m.ord))).schedule 256
      (.attentionCommandComplete (64 * d + e))
  | _ =>
    if w = .wait && !s.runsOn d m.part && s.migrates m.part then (s.updAtt d e m.ord fun m => some { m with busy := false }).kickAtt d e
    else s.schedule 64 (.attentionCommandComplete (64 * d + e))

/-- The rest of the 16-row block in progress (R283). -/
def State.attBlock (s : State) (d e : Nat) : Nat → AttCmd → State
  | 0, m => if (s.part m.part).pstate = 3 then s.dropAtt d e m else (s.updAtt d e m.ord fun m => some { m with busy := false }).kickAtt d e (some m.ord)
  | f + 1, m =>
    if attRows m.desc ≤ m.row then s.schedule 0 (.attentionCommandComplete (64 * d + e))
    else match s.attRow m m.row with
      | .stop s w => s.stopAtt d e m w
      | .ok s (bit, units) =>
        let s := s.updAtt d e m.ord fun o => some { o with row := m.row + 1, fullyMasked := m.fullyMasked ++ [bit], units := units }
        match (tgetD (s.die d).att e []).find? fun o => o.ord == m.ord with
        | some o => s.attBlock d e f o
        | none => s

/-- ATTENTION_COMMAND_COMPLETE (R269): the engine finishes the block under way; a command whose rows are done completes when its writes are
performed at .pkg; then the engine turns to its next block. -/
def State.attStep (s : State) (d e : Nat) : State :=
  let again (n : Nat) : State := s.schedule n (.attentionCommandComplete (64 * d + e))
  match (tgetD (s.die d).att e []).find? fun m => m.busy with
  | none => s.kickAtt d e
  | some m =>
    if m.held.isSome then
      if s.runsOn d m.part then again 64 else (s.updAtt d e m.ord fun m => some { m with busy := false }).kickAtt d e
    else if m.row < attRows m.desc then s.attBlock d e (16 - m.row % 16) m
    else if s.engOut m.core 16 then again 16
    else (((s.updAtt d e m.ord fun _ => none).completes m.core m.chan m.ord).count m.core m.chan).kickAtt d e
def execAttentionCommandComplete (e : Nat) (s : State) : Host.Outcome State Fault Refusal := .next (s.attStep (e / 64) (e % 64))

end Sys2Proof.Machine
end

