-- ==== Sys2Proof/Machine/Routing.lean ====
section
/-! DEFINITION. The routing engines (R284 to R292): ranking, capacity rounds, outputs. -/
namespace Sys2Proof.Machine

/-! ### Acceptance (R284) -/

def rteK (d : List Byte) : Nat := field d 56 1
def rteCand (d : List Byte) : Nat := field d 57 1
def rteOk (d : List Byte) (h : ShapeRec) : Bool :=
  field d 8 8 % 2 == 0 && field d 16 8 % 4 == 0 && field d 24 8 % 4 == 0 && field d 32 8 % 64 == 0
  && decide (1 ≤ field d 52 4) && decide (field d 52 4 ≤ 65535) && decide (1 ≤ rteK d) && decide (rteK d ≤ 8) && decide (rteK d ≤ h.c0)
  && decide (rteK d ≤ rteCand d) && decide (rteCand d ≤ min 16 h.c0) && decide (field d 59 1 < 4) && zeros d 60 4
  && decide (h.c0 ≤ 1024) && h.c2 == 1 && h.c3 == 1 && (h.elog == 1 || h.elog == 2)

/-- The engine of a die that stands still turns to its next pass. -/
def State.kickRte (s : State) (d : Nat) : State :=
  let l := (s.die d).rte
  if l.any (fun m => m.started) || !l.any fun m => s.runsOn d m.part then s else s.scheduleOnce 40 (.routingRound d)
def rteEffect (s : State) (a : Fin 64) (i : Fin 16) (h : Fin 8) : Res :=
  match s.descriptor (s.me.sreg a.val) with
  | .stop r => r
  | .ok (d, lat) =>
    if 16 ≤ field d 58 1 then fault invalidOperand
    else if s.shapeLate (field d 58 1) then .hold s
    else match s.me.shape (field d 58 1) with
    | none => fault invalidOperand
    | some sh =>
      if !rteOk d sh then fault invalidOperand
      else
        let x := s.die s.myDie
        if 16 ≤ x.rte.length then .hold s
        else
          let s := s.countSpan (s.me.sreg a.val) 64
          let x := s.die s.myDie
          let id := s.nextId
          let k := s.me
          let m : RteCmd := ⟨s.cur, s.myPart, d, sh, h.val, i.val, id, false, false, false, false, [], [], [], [], 0, [], [], {}, k.priv, k.coop, none, k.pc, k.tag⟩
          let s := { s with nextId := id + 1 }
          let s := s.setDie s.myDie { x with rte := x.rte ++ [m] }
          let s := (s.order s.cur h.val id i.val).stall lat
          .ok (s.kickRte s.myDie)
def execRte (a : Fin 64) (i : Fin 16) (h : Fin 8) (l : Lent) (s : State) := meaning (.rte a i h l) 3 s (rteEffect s a i h)

def RteCmd.ctx (m : RteCmd) (s : State) : Ctx := s.ctxOf m.core m.part m.priv m.coop

/-! ### Ranking and weights (R285) -/

/-- A score as an exact value; NaN counts as −∞. -/
def scoreNum (x : W32) : Num := match fp32.dec x.toNat with
  | .nan => .inf true
  | v => v
/-- The expert that ranks next: the largest score, ties to the lower number. -/
def nextBest (xs : List Num) (taken : List Nat) : Option Nat :=
  (xs.zip (List.range xs.length)).foldl (fun best e =>
    if taken.contains e.2 then best else match best with
    | none => some e.2
    | some b => if Num.lt (xs.getD b .nan) e.1 then some e.2 else some b) none
/-- The first n experts of the ranking. -/
def rankTop (xs : List Num) : Nat → List Nat → List Nat
  | 0, taken => taken
  | n + 1, taken => match nextBest xs taken with
    | none => taken
    | some e => rankTop xs n (taken ++ [e])
/-- p.e of every expert. -/
def gateProbs (xs : List Num) : List Num :=
  let m := xs.foldl Num.maxOf (.inf true)
  if isPosInf m then xs.map fun x => if isPosInf x then .fin false 1 0 else .fin false 0 0
  else if isNegInf m then xs.map fun _ => .fin false 0 0
  else xs.map fun x => if isNegInf x then .fin false 0 0 else expNum (x.add false m.neg)
/-- The weight of each granted choice of a token, as FP32 bits. -/
def gateWeights (xs : List Num) (granted : List Nat) (renorm : Bool) : List Nat :=
  let ps := gateProbs xs
  let of := fun e => ps.getD e (.fin false 0 0)
  let sum := rne32 (Num.sum (if renorm then granted.map of else ps))
  granted.map fun e => match sum with
    | .fin _ 0 _ => 0
    | x => fp32.enc 1 0 false ((of e).div x)

/-! ### Rounds (R286 to R288) -/

/-- Replace the pass that a die's engine runs. -/
def State.updRte (s : State) (d id : Nat) (f : RteCmd → Option RteCmd) : State :=
  let x := s.die d
  s.setDie d { x with rte := x.rte.filterMap fun m => if m.ord = id then f m else some m }

/-- A stop of a pass (R291, R385): one that fails leaves the queue and the order, and the engine turns to the next. DESIGN CHOICE: assumption 63. -/
def State.stopRte (s : State) (d : Nat) (m : RteCmd) (w : EngStop) (again : Instr) : State :=
  -- the last pass of a torn-down partition raises nothing (R269)
  if (s.part m.part).pstate = 3 && (w != .wait || !(s.die d).walks.any fun v => v.1 == m.part) then (s.updRte d m.ord fun _ => none).kickRte d
  else match w with
  | .fail sub va =>
    let s := (s.updRte d m.ord fun _ => none).leaves m.core m.chan m.ord
    (s.unitHalt m.part 5 (64 * d) ⟨19, sub, va, 0⟩ ⟨m.pc, m.tag, m.core, 0, 0⟩).kickRte d
  | .ecc frame =>
    let s := (s.countEcc ⟨33, 0, BitVec.ofNat 64 frame, 0⟩).updRte d m.ord fun m => some { m with held := some (2 ^ 32) }
    (s.queueRecord d (s.engRecord 33 5 m.part 0 d m.pc (BitVec.ofNat 64 frame) 0 m.tag m.core 0) (some (.rte d m.ord))).schedule 256 again
  | .wait => s.schedule 64 again
  | .page _ _ => s.schedule 64 again

/-- What trying an expert does: granted inside the engine, a request to send, or a fault. -/
def State.homeOfExpert (s : State) (m : RteCmd) (e : Nat) : Eng Nat :=
  match s.engRead (m.ctx s) m.lap (.src false) (BitVec.ofNat 64 (field m.desc 40 8 + e)) 1 with
  | .stop s w => .stop s w
  | .ok s b =>
    let h := leNat b
    if h = 255 ∨ (2 ≤ h ∧ h ≤ 5) then .ok s h else .stop s (.fail 20 (BitVec.ofNat 64 (field m.desc 40 8 + e)))

/-- Experts granted to a token, kept in rank order. -/
def RteCmd.grant (m : RteCmd) (t e : Nat) : RteCmd :=
  let c := m.cands.getD t []
  { m with grants := m.grants.set t (c.filter fun x => x == e || (m.grants.getD t []).contains x) }

/-- Token t tries its next candidate, if it has one. -/
def State.tryNext (s : State) (d : Nat) (m : RteCmd) (t : Nat) : Eng RteCmd :=
  let n := m.tried.getD t 0
  match (m.cands.getD t [])[n]? with
  | none => .ok s m
  | some e =>
    match s.homeOfExpert m e with
    | .stop s w => .stop s w
    | .ok s h =>
      let m := { m with tried := m.tried.set t (n + 1) }
      if h = 255 then .ok s (m.grant t e)
      else
        let (id, s) := s.addReq (.capacity d t e ((field m.desc 48 4 + t) % 2 ^ 32) (field m.desc 52 4) h m.core m.part)
        .ok (s.schedule (if h = d then 6 else 380) (.capacityRequest id)) { m with waiting := m.waiting + 1, sent := true }
/-- The tokens of a list, one after another. -/
def State.tryAll (s : State) (d : Nat) (m : RteCmd) : List Nat → Eng RteCmd
  | [] => .ok s m
  | t :: r =>
    match s.tryNext d m t with
    | .stop s w => .stop s w
    | .ok s m => s.tryAll d m r

/-- The scores of every token as FP32. -/
def State.readScores (s : State) (m : RteCmd) : Eng (List (List W32)) :=
  let h := m.shape
  let ranges := (List.range (h.c1 * h.c0)).map fun i =>
    ((BitVec.ofNat 64 (field m.desc 0 8) + BitVec.ofNat 64 (i % h.c0) * h.s0 + BitVec.ofNat 64 (i / h.c0) * h.s1).toNat, 2 ^ h.elog)
  match s.engReads (m.ctx s) m.lap (.src false) ranges with
  | .stop s w => .stop s w
  | .ok s b => .ok s ((List.range h.c1).map fun t => (List.range h.c0).map fun e =>
      let v := field b (2 ^ h.elog * (h.c0 * t + e)) (2 ^ h.elog)
      BitVec.ofNat 32 (if h.elog = 1 then v * 65536 else v))

/-- After a round has been sent: its answers are awaited, or the pass has ended. -/
def State.roundSent (s : State) (d : Nat) (m : RteCmd) : State :=
  if 0 < m.waiting then s.updRte d m.ord fun o => some { m with lap := o.lap, touches := o.touches }
  else (s.updRte d m.ord fun o => some { m with lap := o.lap, touches := o.touches, ended := true }).schedule (m.shape.c1 * cdiv m.shape.c0 64) (.routingPassComplete d)

/-- ROUTING_ROUND: the engine starts its oldest command whose partition runs, or the next round of its pass. A round of which a try faults sends no
request, those of its earlier tokens neither. DESIGN CHOICE: assumption 160. -/
def State.routeRound (s : State) (d : Nat) : State :=
  let again : Instr := .routingRound d
  match (s.die d).rte.find? fun m => m.started && !m.ended with
  | some m =>
    if m.held.isSome then s.schedule 64 again
    else if 0 < m.waiting then s
    else match s.tryAll d { m with refused := [] } (((List.range m.shape.c1).flatMap fun t => m.refused.filter (· == t))) with
      -- a round that stops sends nothing
      | .stop _ w => s.stopRte d m w again
      | .ok s m => s.roundSent d m
  | none =>
    if (s.die d).rte.any fun m => m.started then s
    else match (s.die d).rte.find? fun m => s.runsOn d m.part with
    | none => s
    | some m =>
      if m.held.isSome then s.schedule 64 again
      else match s.readScores m with
      | .stop s w => s.stopRte d m w again
      | .ok s sc =>
        let m := { m with started := true, scores := sc, cands := sc.map fun xs => rankTop (xs.map scoreNum) (rteCand m.desc) []
                          tried := sc.map fun _ => 0, grants := sc.map fun _ => [], waiting := 0, refused := [] }
        match s.tryAll d m ((List.range m.shape.c1).flatMap fun t => List.replicate (rteK m.desc) t) with
        | .stop _ w => s.stopRte d m w again
        | .ok s m => s.roundSent d m
def execRoutingRound (d : Nat) (s : State) : Host.Outcome State Fault Refusal := .next (s.routeRound d)

/-- CAPACITY_REQUEST (R288): the counter grants or refuses; the last answer of a round brings the next one. Requests of one clock come in
ascending sequence number (the agenda's order). -/
def State.capacityArrives (s : State) (id : Nat) : State :=
  match tget s.reqs id with
  | some (.capacity d t e _ cap h _ p) =>
    let s := { s with reqs := tdel s.reqs id }
    let x := s.die h
    let n := tgetD x.caps (1024 * p + e) 0
    let ok := decide (n < cap)
    let s := if ok then s.setDie h { x with caps := tset x.caps (1024 * p + e) (n + 1) } else s
    match (s.die d).rte.find? fun m => m.started && !m.ended with
    | some m =>
      let m := if ok then m.grant t e else { m with refused := m.refused ++ [t] }
      let m := { m with waiting := m.waiting - 1 }
      let s := s.updRte d m.ord fun o => some { m with lap := o.lap, touches := o.touches }
      if m.waiting = 0 then s.schedule (if h = d then 6 else 380) (.routingRound d) else s
    | none => s
  | _ => s
def execCapacityRequest (id : Nat) (s : State) : Host.Outcome State Fault Refusal := .next (s.capacityArrives id)

/-! ### Outputs (R289, R290) -/

/-- Grants of each expert. -/
def RteCmd.granted (m : RteCmd) (e : Nat) : Nat := (m.grants.filter fun g => g.contains e).length
/-- The histogram words from the words before. -/
def RteCmd.histogram (m : RteCmd) (prior : List Nat) : List Nat :=
  let E := m.shape.c0
  let old := fun e => prior.getD e 0
  let words := (List.range E).map fun e =>
    let count := old e % 65536 + m.granted e
    (if old e / 65536 % 2 = 1 ∨ 0xFFFF < count then 65536 else 0) + min count 0xFFFF
  let sum := old E % 2 ^ 24 + (List.range E).foldl (fun n e => n + m.granted e) 0
  words ++ [(if old E / 2 ^ 24 % 2 = 1 ∨ 0xFFFFFF < sum then 2 ^ 24 else 0) + min sum 0xFFFFFF]
/-- The bitmap of an expert (R289). -/
def RteCmd.bitmap (m : RteCmd) (e : Nat) : List Byte :=
  (List.range (64 * cdiv m.shape.c1 512)).map fun i => BitVec.ofNat 8 ((List.range 8).foldl (fun v b =>
    if (m.grants.getD (8 * i + b) []).contains e then v + 2 ^ b else v) 0)
/-- Choice records and weights of a token. -/
def RteCmd.choices (m : RteCmd) (t : Nat) : List Byte × List Byte :=
  let g := m.grants.getD t []
  let w := gateWeights ((m.scores.getD t []).map scoreNum) g (field m.desc 59 1 % 2 == 1)
  ((List.range (rteK m.desc)).flatMap (fun c => leBytes 2 (g.getD c 0x83FF)), (List.range (rteK m.desc)).flatMap fun c => leBytes 4 (w.getD c 0))

/-- The bytes of the histogram; a word that the program has touched while an hacc pass runs is unspecified (R290). -/
def State.histBytes (s : State) (m : RteCmd) (prior : List Nat) : List Byte :=
  let ws := m.histogram prior
  (ws.zip (List.range ws.length)).flatMap fun w =>
    if anyDirty m.touches (field m.desc 24 8 + 4 * w.2) 4 then
      (if field m.desc 59 1 / 2 % 2 = 1 then (List.range 4).map fun i => Config.freeByte s.fresh (4 * w.2 + i) else leBytes 4 w.1)
    else leBytes 4 w.1
/-- DESIGN CHOICE: assumption 65. -/
def State.writeOutputs (s : State) (m : RteCmd) : Eng Unit :=
  let x := m.ctx s
  let hist := BitVec.ofNat 64 (field m.desc 24 8)
  let n := m.shape.c0 + 1
  let prior : Eng (List Nat) := if field m.desc 59 1 / 2 % 2 = 1 then
      (match s.engRead x m.lap (.src false) hist (4 * n) with
       | .stop s w => .stop s w
       | .ok s b => .ok s ((List.range n).map fun i => field b (4 * i) 4))
    else .ok s []
  match prior with
  | .stop s w => .stop s w
  | .ok s prior =>
    let cs := (List.range m.shape.c1).map m.choices
    let b := s.histBytes m prior
    let s : State := { s with fresh := s.fresh + 1 }
    s.cmdWrites x 16 false m.lap m.chan m.ord [(field m.desc 8 8, cs.flatMap (·.1)), (field m.desc 16 8, cs.flatMap (·.2)),
      (field m.desc 24 8, b),
      (field m.desc 32 8, (List.range m.shape.c0).flatMap m.bitmap)]

/-- ROUTING_PASS_COMPLETE (R269, R289): the outputs are written, and counted once they are performed at .pkg. DESIGN CHOICE: assumption 64. -/
def State.passComplete (s : State) (d : Nat) : State :=
  let again : Instr := .routingPassComplete d
  match (s.die d).rte.find? fun m => m.ended with
  | none => s
  | some m =>
    if m.held.isSome then s.schedule 64 again
    else if !m.written then
      match s.writeOutputs m with
      | .stop s w => s.stopRte d m w again
      | .ok s _ => (s.updRte d m.ord fun m => some { m with written := true }).schedule 0 again
    else if s.engOut m.core 16 then s.schedule 16 again
    else (((s.updRte d m.ord fun _ => none).completes m.core m.chan m.ord).count m.core m.chan).kickRte d
def execRoutingPassComplete (d : Nat) (s : State) : Host.Outcome State Fault Refusal := .next (s.passComplete d)

/-- A pass of partition p is outstanding (R286). -/
def State.passOut (s : State) (p : Nat) : Bool := s.dies.any fun e => e.2.rte.any fun m => m.part == p && m.sent && !m.ended
/-- The partition's capacity counters reset on every ED (R286). -/
def State.resetCaps (s : State) (p : Nat) : State :=
  { s with dies := s.dies.map fun (e : Nat × Die) => (e.1, { e.2 with caps := e.2.caps.filter fun c => c.1 / 1024 != p }) }

end Sys2Proof.Machine
end

