-- ==== Sys2Proof/Machine/Pointer.lean ====
section
/-! DEFINITION. The Pointer of an attention die (R87 to R92). -/
namespace Sys2Proof.Machine

/-- PTRCFG (R89). -/
def ptrcfgEffect (s : State) (a : Fin 64) : Res :=
  let w := s.me.sreg a.val
  if bits w 63 16 ≠ 0 ∨ bits w 7 4 = 0 ∨ bit w 3 then fault invalidOperand
  else let x := s.die s.myDie; .ok (s.setDie s.myDie { x with ptrCfg := w })
def execPtrcfg (a : Fin 64) (l : Lent) (s : State) := meaning (.ptrcfg a l) 3 s (ptrcfgEffect s a)

/-- The layer that a descriptor describes (R90). -/
def layerOf (r : List Byte) : Option PtrLayer :=
  let n := field r 24 2; let w := field r 26 2; let kp := field r 28 1
  if 1 ≤ n ∧ n ≤ 1024 ∧ 1 ≤ w ∧ w ≤ 256 ∧ 1 ≤ kp ∧ kp ≤ 16 ∧ kp ≤ n ∧ zeros r 29 35
  then some ⟨BitVec.ofNat 64 (field r 0 8), BitVec.ofNat 64 (field r 8 8), BitVec.ofNat 64 (field r 16 8), n, w, kp⟩ else none
def ptrldEffect (s : State) (a b : Fin 64) : Res :=
  match s.descriptor (s.me.sreg a.val) with
  | .stop r => r
  | .ok (d, lat) =>
    let n := (s.me.sreg b.val).toNat
    match layerOf d with
    | none => fault invalidOperand
    | some y => if 255 < n then fault invalidOperand
      else let s := s.countSpan (s.me.sreg a.val) 64; let x := s.die s.myDie; .ok ((s.setDie s.myDie { x with layers := tset x.layers n y }).stall lat)
def execPtrld (a b : Fin 64) (l : Lent) (s : State) := meaning (.ptrld a b l) 3 s (ptrldEffect s a b)

/-- PTRRUN (R91): queued, or discarded. DEDUCED: assumption 66. -/
def ptrrunEffect (s : State) (a b c : Fin 64) : Res :=
  let k := s.me
  let n := (k.sreg c.val).toNat
  let x := s.die s.myDie
  if n = 0 ∨ 256 < n then fault invalidOperand
  else if !bit x.ptrCfg 2 then .ok s
  else if 8 ≤ x.runs.length then .ok (s.ptrCount s.myDie 48)
  else .ok ((s.setDie s.myDie { x with runs := x.runs ++ [⟨s.myPart, k.sreg a.val, (k.sreg b.val).toNat, n, s.cur, k.priv, k.coop⟩] }).schedule 1000
    (.pointerRun s.myDie))
def execPtrrun (a b c : Fin 64) (l : Lent) (s : State) := meaning (.ptrrun a b c l) 3 s (ptrrunEffect s a b c)

/-- The chain of roundings of a score (R91). -/
def scoreChain (acc : Num) : List (Num × Num) → Num
  | [] => acc
  | (h, x) :: t => scoreChain (rne32 (acc.add false (h.mul x))) t
/-- The experts with the highest scores for one token. -/
def predict (kp : Nat) (rows : List (List Num)) (scales : List Num) (x : List Num) : List Nat :=
  rankTop ((rows.zip scales).map fun e => match rne32 ((scoreChain (.fin false 0 0) (e.1.zip x)).mul e.2) with
    | .nan => .inf true
    | v => v) kp []

/-- The Pointer acts for the core of a run; it walks the page tables itself (R91). -/
def PtrRun.ctx (m : PtrRun) (s : State) : Ctx := { s.ctxOf m.core m.part m.priv m.coop with direct := true }
/-- Each page of a prefetch destination lies in HBM of the ED (R80). -/
def State.prefetchDst (s : State) (x : Ctx) (e : Nat) (dst : W64) (n : Nat) : Bool :=
  (List.range n).all fun u => match (s.engineTranslate x (.dst false) (dst + BitVec.ofNat 64 (4096 * u))).2 with
    | .at_ (.phys pa) _ => decide (pa < 2 ^ 40) && hbmDie pa == 2 + e
    | _ => false
/-- Prefetch entries that a Pointer has live on the four EDs. -/
def State.livePrefetch (s : State) (d : Nat) : Nat :=
  ((List.range 4).map fun e => ((s.flash e).slots.filter fun h => h.2.prefetch && dieOfCore h.2.core == d).length).foldl (· + ·) 0

/-- Allocate the entry of one expert (R87). -/
def State.prefetch (s : State) (d : Nat) (m : PtrRun) (entry : List Byte) : State :=
  let cfg := (s.die d).ptrCfg
  let x := m.ctx s
  let src := BitVec.ofNat 64 (field entry 0 8); let dst := BitVec.ofNat 64 (field entry 8 8); let n := field entry 16 4
  if field entry 20 4 % 2 = 0 then s
  else if bits cfg 15 8 ≠ 0 ∧ bits cfg 15 8 ≤ s.livePrefetch d then s
  else if src.toNat % 4096 ≠ 0 ∨ dst.toNat % 4096 ≠ 0 ∨ n = 0 ∨ 32768 < n then s
  else match edOf src.toNat n with
    | none => s
    | some e =>
      match s.translate x (.src true) src with
      | .at_ (.flash _ _) _ =>
        if !s.prefetchDst x e dst n then s
        else if (joinable (s.flash e) m.part src dst n).isSome then s
        else if conflicts (s.flash e) m.part src dst n then s.ptrCount d 32
        else match s.slotFor e m.part with
          | none => s.ptrCount d 32
          | some k => s.takeSlot e k src dst n m.part m.core 0 0 m.priv m.coop true (bits cfg 7 4)
      | _ => s

/-- One run: the experts predicted for any token, in ascending order. It reads the configuration and the layer as they are when it runs, whatever
PTRCFG or PTRLD has done since it was queued. DESIGN CHOICE: assumption 141. -/
def State.ptrRunOne (s : State) (d : Nat) (m : PtrRun) : Eng Unit :=
  let x := m.ctx s
  match tget (s.die d).layers ((m.layer + bits (s.die d).ptrCfg 1 0 + 1) % 256) with
  | none => .ok s ()
  | some y =>
    let w := 64 * y.width64
    match s.engRead x {} (.src false) y.head (y.experts * w) with
    | .stop s r => .stop s r
    | .ok s hb =>
      match s.engRead x {} (.src false) y.scale (4 * y.experts) with
      | .stop s r => .stop s r
      | .ok s sb =>
        match s.engRead x {} (.src false) m.rows (2 * w * m.tokens) with
        | .stop s r => .stop s r
        | .ok s xb =>
          match s.engRead x {} (.src false) y.map (32 * y.experts) with
          | .stop s r => .stop s r
          | .ok s mb =>
            let heads := (List.range y.experts).map fun e => (List.range w).map fun j => ofInt (sintOf 8 (field hb (e * w + j) 1))
            let scales := (List.range y.experts).map fun e => fp32.dec (field sb (4 * e) 4)
            let sets := (List.range m.tokens).map fun t => predict y.kp heads scales ((List.range w).map fun j => bf16.dec (field xb (2 * (w * t + j)) 2))
            let hit := (List.range y.experts).filter fun e => sets.any fun l => l.contains e
            .ok (hit.foldl (fun s e => s.prefetch d m ((mb.drop (32 * e)).take 32)) s) ()

/-- The state after a run; one whose operands cannot be read allocates nothing. DESIGN CHOICE: assumption 68. -/
def Eng.state {α : Type} : Eng α → State
  | .ok s _ => s
  | .stop s _ => s
/-- POINTER_RUN (R91): the oldest queued run of a partition that runs on the die (R357, R389); while a page of its operands migrates it waits (R118). DESIGN CHOICE: assumption 67. -/
def State.pointerRun (s : State) (d : Nat) : State :=
  let x := s.die d
  match x.runs.find? fun m => s.runsOn d m.part with
  | none => s
  | some m => match (s.setDie d { x with runs := x.runs.erase m }).ptrRunOne d m with
    | .stop _ .wait => s.schedule 64 (.pointerRun d)
    | r => r.state
def execPointerRun (d : Nat) (s : State) : Host.Outcome State Fault Refusal := .next (s.pointerRun d)

/-- Every queued run of a partition is complete by the end of its superstep (R91). -/
def State.finishRuns (s : State) (p : Nat) : State :=
  (List.range 2).foldl (fun s d =>
    let x := s.die d
    (x.runs.filter fun m => m.part == p).foldl (fun s m => (s.ptrRunOne d m).state) (s.setDie d { x with runs := x.runs.filter fun m => m.part != p })) s

/-- Prefetch entries of a partition count a boundary; one that no HREAD joined in its lifetime expires (R87). -/
def State.expire (s : State) (p : Nat) : State :=
  (List.range 4).foldl (fun s e =>
    ((s.flash e).slots.filter fun h => h.2.part == p && h.2.prefetch).foldl (fun s h =>
      if h.2.life ≤ 1 then (s.freeSlot e h.1).ptrCount (dieOfCore h.2.core) 0
      else let f := s.flash e; s.setFlash e { f with slots := tset f.slots h.1 { h.2 with life := h.2.life - 1 } }) s) s

end Sys2Proof.Machine
end

