-- ==== Sys2Proof/Machine/Barrier.lean ====
section
/-! DEFINITION. Barriers (R16, R17, R225), pod barriers (R407) and the boundary of supersteps (R293 to R297, R307). -/
namespace Sys2Proof.Machine

/-- Change every context of a partition, on its core or saved. -/
def State.mapCtx (s : State) (p : Nat) (f : Core → Core) : State :=
  { s with
    cores := s.cores.map fun (e : Nat × Core) => if e.2.task.isSome && e.2.part == p then (e.1, f e.2) else e
    dies := s.dies.map fun (e : Nat × Die) => if e.2.saved.isEmpty then e else
      (e.1, { e.2 with saved := e.2.saved.map fun (v : Saved) => if v.part = p then { v with k := f v.k } else v }) }

/-- Put an event on the agenda before every event due in its clock or later (R295, R297: before every access that arrives in it). -/
def agendaFront : List (Nat × Instr) → Nat → Instr → List (Nat × Instr)
  | [], t, i => [(t, i)]
  | (u, j) :: r, t, i => if t ≤ u then (t, i) :: (u, j) :: r else (u, j) :: agendaFront r t i
def State.scheduleFirst (s : State) (dt : Nat) (i : Instr) : State := { s with agenda := agendaFront s.agenda (s.clk + dt) i }

/-! ### Instances (R225) -/

/-- The instance that a core arrives at: a quad's, a die's group, the package's group, the pod's group. -/
def barKey (c sc g : Nat) : Nat :=
  match sc with
  | 2 => 2 * 2 ^ 20 + c / 4
  | 3 => 3 * 2 ^ 20 + dieOfCore c * 256 + g
  | _ => sc * 2 ^ 20 + g
/-- The arrivals that complete an instance: four cores, or the size the launch gave the group (R337). -/
def Part.barSize (p : Part) (sc g : Nat) : Nat := if sc = 2 then 4 else tgetD p.groups g 0
/-- A core arrives; the answer is the number of the instance. An instance is numbered when it begins; a pod instance by its sequence. DESIGN CHOICE: assumption 71. -/
def State.barArrive (s : State) (p c sc g : Nat) : Nat × State :=
  let x := s.part p
  let key := barKey c sc g
  let old := tgetD x.bars key [if sc = 5 then tgetD x.podSeq g 0 else s.nextId]
  let s := if (tget x.bars key).isSome then s else { s with nextId := s.nextId + 1 }
  let inst := old.headD 0
  let now := inst :: (old.tail ++ [c])
  if x.barSize sc g < now.length then
    (inst, (s.setPart p { x with bars := tdel x.bars key, podSeq := if sc = 5 then tset x.podSeq g (inst + 1) else x.podSeq }).schedule 1
      (.barComplete sc inst p g))
  else (inst, s.setPart p { x with bars := tset x.bars key now })

/-- The cores that wait for an instance are released; a member of a coop launch passes the barrier inside its TDONE (R352). -/
def Core.passBar (sc inst g : Nat) (k : Core) : Core :=
  match k.post with
  | .bar sc' i g' => if sc' = sc ∧ i = inst ∧ g' = g then { k with post := .none } else k
  | .suspend 0 i w pc => if sc = 2 ∧ i = inst then { k with post := .suspend 5 i w pc } else k
  | _ => k
/-- The instance of a scope still collects arrivals in the partition; instances of other scopes do not count (R16). -/
def Part.open_ (p : Part) (sc inst : Nat) : Bool := p.bars.any fun e => e.1 / 2 ^ 20 == sc && e.2.head? == some inst

/-! ### The pod barrier (R407) -/

def podKey (isBar : Bool) (g n : Nat) : Nat := n * 1024 + (if isBar then 512 + g else 0)
/-- Packages of the pod; without a pod the package stands alone. DESIGN CHOICE: assumption 70. -/
def State.podCount (s : State) : Nat := if s.podSize = 0 then 1 else s.podSize
def clog2 (n : Nat) : Nat := Nat.log2 (2 * n - 1)
/-- 3 µs and 0.8 µs for each level of the tree. -/
def State.podTime (s : State) : Nat := 2820 + 752 * clog2 s.podCount
/-- PODMISS: the packages that the waiting barriers lack. -/
def State.podMissing (s : State) : State :=
  let waiting := s.parts.flatMap fun e => (e.2.podBars.filter fun b => b.2.contains s.podIndex).map (·.2)
  { s with podMiss := BitVec.ofNat 64 (((List.range s.podCount).filter fun i => waiting.any fun l => !l.contains i).foldl (fun v i => v + 2 ^ i) 0) }
/-- A package arrives; the last arrival lets the release travel. -/
def State.podArrive (s : State) (pkg : Nat) (isBar : Bool) (p g n : Nat) : State :=
  let x := s.part p
  let key := podKey isBar g n
  let old := tgetD x.podBars key []
  if s.podCount ≤ pkg || old.contains pkg then s
  else
    let now := pkg :: old
    let s := (s.setPart p { x with podBars := tset x.podBars key now }).podMissing
    if (List.range s.podCount).all now.contains then s.schedule s.podTime (.podBarrierRelease isBar p g n) else s
def execPodBarrierMessage (pkg : Nat) (isBar : Bool) (p g n : Nat) (s : State) : Host.Outcome State Fault Refusal :=
  .next (s.podArrive pkg isBar p g n)

/-! ### Boundaries (R293 to R298) -/

def Part.members (p : Part) : Nat := bits p.sscfg 15 0
def Part.pod (p : Part) : Bool := bit p.sscfg 19

/-- The sends of a partition that are bound: die, tile slot, tile, send record. -/
def State.sends (s : State) (p : Nat) : List (Nat × Nat × Tile × SendRec) :=
  s.dies.flatMap fun e => e.2.tiles.filterMap fun t => match t.2.send with
    | some r => if t.2.part = p then some (e.1, t.1, t.2, r) else none
    | none => none
/-- A send of the phase that ends with boundary n has not landed, or has not reached its permit. -/
def State.sendsOut (s : State) (p n : Nat) : Bool :=
  (s.sends p).any (fun e => decide (e.2.2.2.step ≤ n) && !e.2.2.2.landed)
  || s.reqs.any fun e => match e.2 with | .bind _ q _ _ _ r => q == p && decide (r.step ≤ n) | _ => false

/-- The links a message takes, by direction (R21, R298). -/
def linksOf (a b : Nat) : List (Nat × Nat) :=
  if a = b then []
  else if a < 2 ∧ b < 2 then [(a, 2 + a), (2 + a, b)]
  else if a < 2 ∨ b < 2 then [(a, b)]
  else let r := (min a b - 2) % 2; [(a, r), (r, b)]
/-- Clocks of a phase that carries the messages (R298). DESIGN CHOICE: assumption 74. -/
def carryTime (ms : List (Nat × Nat × Nat)) : Nat :=
  let use := ms.flatMap fun m => (linksOf m.1 m.2.1).map fun l => (l, m.2.2)
  let most := use.foldl (fun b u => max b ((use.filter fun v => v.1 == u.1).foldl (fun n v => n + v.2) 0)) 0
  358 + cdiv most 1596
/-- The clock of a message's first segment, for it to land after t clocks: its 4 KiB segments follow one another at the link's rate. -/
def firstSegment (t len : Nat) : Nat := t - 3 * (cdiv len 4096 - 1)
/-- The messages of the exchange phase are carried, and land together; those of a die that does not run the partition stand still (R307). -/
def State.carry (s : State) (es : List (Nat × Nat × Tile × SendRec)) : State :=
  let t := carryTime (es.map fun e => (dieOfCore e.2.2.2.core, e.1, e.2.2.2.len))
  es.foldl (fun s e =>
    let (id, s) := s.addReq (.land e.1 e.2.1)
    if s.runsOn (dieOfCore e.2.2.2.core) e.2.2.1.part then s.schedule (firstSegment t e.2.2.2.len) (.landing id) else s) s

/-- The compute phase ends: its sends are carried; with none, the boundary is 120 clocks away (R298). -/
def State.endCompute (s : State) (p : Nat) : State :=
  let x := s.part p
  let n := x.ssCount
  let s := s.setPart p { x with ssExchange := true, ssArrived := 0, ssPodDone := false }
  let s := if x.pod then s.podArrive s.podIndex false p 0 n else s
  let s := s.carry ((s.sends p).filter fun e => decide (e.2.2.2.step ≤ n) && !e.2.2.2.landed)
  if s.sendsOut p n then s else s.scheduleFirst 120 (.superstepBoundary p)

/-- R295, R307: no die holds a pre-empted or halted context of the partition, and no routing pass of it is outstanding. -/
def State.closable (s : State) (p : Nat) : Bool :=
  (s.part p).pstate == 0 && !s.passOut p
  && !s.dies.any fun e => e.2.saved.any (fun v => v.part == p) || (match e.2.pre with | some x => x.part == p | none => false)

/-- Step 1 of R297: the landings are sealed and join their ports, by core and then by acceptance (R303). -/
def insertSend (e : Nat × Nat × Tile × SendRec) : List (Nat × Nat × Tile × SendRec) → List (Nat × Nat × Tile × SendRec)
  | [] => [e]
  | f :: t => if e.2.2.2.core < f.2.2.2.core ∨ (e.2.2.2.core = f.2.2.2.core ∧ e.2.2.2.ord < f.2.2.2.ord) then e :: f :: t else f :: insertSend e t
def portKey (p k : Nat) : Nat := p * 64 + k
def State.sealLanding (s : State) (p : Nat) (e : Nat × Nat × Tile × SendRec) : State :=
  let x := s.die e.1
  let key := portKey p e.2.2.2.port
  s.setDie e.1 { x with
    tiles := tset x.tiles e.2.1 { e.2.2.1 with sealed := true, bound := false, send := none }
    ports := tset x.ports key (tgetD x.ports key [] ++ [e.2.1]) }
/-- Step 4: pending quotas (R172), lifetimes (R181); waiting allocations are looked at from the next clock (R175). -/
def State.applyQuotas (s : State) (p : Nat) : State :=
  let x := s.part p
  let s := s.setPart p { x with kpart := x.kpend.foldl (fun t e => tput 0 t e.1 e.2) x.kpart, kpend := [] }
  let s := s.countLives p
  s.dies.foldl (fun (s : State) (d : Nat × Die) => if d.2.treqs.isEmpty then s else s.scheduleOnce 1 (.tallocGrant d.1)) s
/-- Steps 4 and 5 of R297, which a frame start takes too (R295). -/
def State.boundarySteps (s : State) (p : Nat) : State := ((s.applyQuotas p).resetCaps p).expire p
def Core.passStep (count : Nat) (k : Core) : Core :=
  match k.post with
  | .sstep n => if n ≤ count then { k with post := .none } else k
  | _ => k
/-- A boundary closes (R297); the seal of a landing is a release for its sender's stores (R305), which are performed before it with those of its quad
(R317). -/
def State.closeBoundary (s : State) (p : Nat) : State :=
  let s := s.finishRuns p
  let n := (s.part p).ssCount
  let es := ((s.sends p).filter fun e => e.2.2.2.landed).foldl (fun l e => insertSend e l) []
  let s := s.flushFor fun w => w.eng == 0 && es.any fun e => e.2.2.2.core / 4 == w.core / 4
  let s := es.foldl (fun s e => s.sealLanding p e) s
  let s := es.foldl (fun (s : State) e => (s.completes e.2.2.2.core e.2.2.2.chan e.2.2.2.ord).count e.2.2.2.core e.2.2.2.chan) s
  let x := s.part p
  let s := s.setPart p { x with
    ssCount := n + 1, ssExchange := false, sscfg := x.sspend.getD x.sscfg, sspend := none
    podBars := tdel x.podBars (podKey false 0 n) }
  let s := s.boundarySteps p
  let s := s.mapCtx p (Core.passStep (n + 1))
  let x := s.part p
  if 0 < x.members ∧ x.members ≤ x.ssArrived then s.schedule 1 (.superstepBoundary p) else s

/-- SUPERSTEP_BOUNDARY: the boundary closes in the first clock that lets it; in a compute phase, early arrivals that already number the
members end it (R293). -/
def State.superstep (s : State) (p : Nat) : State :=
  let x := s.part p
  if !x.ssExchange then (if 0 < x.members ∧ x.members ≤ x.ssArrived then s.endCompute p else s)
  else if s.sendsOut p x.ssCount then s
  else if !s.closable p || (x.pod && !x.ssPodDone) then s.scheduleFirst 1 (.superstepBoundary p)
  else s.closeBoundary p
def execSuperstepBoundary (p : Nat) (s : State) : Host.Outcome State Fault Refusal := .next (s.superstep p)

/-- POD_BARRIER_RELEASE (R407): the barrier that every package has reached releases this package's arrivals. -/
def State.podRelease (s : State) (isBar : Bool) (p g n : Nat) : State :=
  let x := s.part p
  let key := podKey isBar g n
  if (List.range s.podCount).all (tgetD x.podBars key []).contains then
    if isBar then ((s.setPart p { x with podBars := tdel x.podBars key }).mapCtx p (Core.passBar 5 n g)).podMissing
    else (s.setPart p { x with podBars := tdel x.podBars key, ssPodDone := true }).podMissing
  else s
def execPodBarrierRelease (isBar : Bool) (p g n : Nat) (s : State) : Host.Outcome State Fault Refusal := .next (s.podRelease isBar p g n)

/-- BAR_COMPLETE (R225): every member has arrived; a pod group's package arrives at the pod barrier (R407). -/
def State.barDone (s : State) (sc inst p g : Nat) : State :=
  if sc = 5 then (if inst < tgetD (s.part p).podSeq g 0 then s.podArrive s.podIndex true p g inst else s)
  else if (s.part p).open_ sc inst then s
  else s.mapCtx p (Core.passBar sc inst g)
def execBarComplete (sc inst p g : Nat) (s : State) : Host.Outcome State Fault Refusal := .next (s.barDone sc inst p g)

/-! ### BAR and SSTEP -/

/-- The scheduled clock at which every fixed-latency result in flight is readable. DEDUCED: assumption 48. -/
def Core.lastDue (k : Core) : Nat := k.flight.foldl (fun m f => max m f.due) 0
/-- BAR (R225). DEDUCED: assumption 41. -/
def barEffect (s : State) (st c : Fin 8) (g : Fin 256) : Res :=
  let k := s.me
  match c.val with
  | 0 => .ok s
  | 1 => .ok (s.setMe { k with extra := k.extra + (k.lastDue - (k.sched + 1 + st.val + k.extra)) })
  | _ =>
    if (if c.val = 2 then !k.coop else decide ((s.part k.part).barSize c.val g.val = 0)) then fault invalidOperand
    else if s.waitsFor (s.unperformed c.val s.cur) then s.releaseHold
    else
      let (inst, s) := s.barArrive k.part s.cur c.val g.val
      .ok (s.setMe { s.me with post := .bar c.val inst g.val })
def execBar (st c : Fin 8) (g : Fin 256) (s : State) := meaning (.bar st c g) 0 s (barEffect s st c g)

/-- SSTEP (R296): an arrival in an exchange phase counts for the boundary after the one that closes (R293). -/
def sstepEffect (s : State) (c : Fin 8) : Res :=
  let p := s.myPart
  let x := s.part p
  if x.members = 0 ∨ x.pod ≠ (c.val == 5) then fault invalidOperand
  else if s.waitsFor (s.releaseOut s.cur) then s.releaseHold
  else
    let s := s.setPart p { x with ssArrived := x.ssArrived + 1 }
    let s := s.setMe { s.me with post := .sstep (x.ssCount + if x.ssExchange then 2 else 1) }
    .ok (if !x.ssExchange ∧ x.members ≤ x.ssArrived + 1 then s.endCompute p else s)
def execSstep (st c : Fin 8) (s : State) := meaning (.sstep st c) 0 s (sstepEffect s c)
/-- SSSTAT (R294). -/
def Part.ssstat (p : Part) : W64 := BitVec.ofNat 64 (p.ssCount * 2 ^ 18 + p.ssExchange.toNat * 2 ^ 17 + min p.ssArrived 65535)

end Sys2Proof.Machine
end

