-- ==== Sys2Proof/Machine/Exchange.lean ====
section
/-! DEFINITION. Send permits (R299 to R306): XSEND, its binding and landing, and the receive ports. -/
namespace Sys2Proof.Machine

/-! ### XSEND (R300) -/

/-- The increment takes its place in the order of the channel (R301); the send belongs to the compute phase of its clock, or to the
next one in an exchange phase (R293). -/
def xsendEffect (s : State) (a b c : Fin 64) (i : Fin 16) (h : Fin 8) : Res :=
  let k := s.me
  let va := k.sreg a.val; let w := k.sreg c.val
  let p := s.part k.part
  let len := bits w 18 0
  if !inKennel va.toNat ∨ 6 ≤ bits va 51 49 then fault invalidOperand
  else if bits w 63 25 ≠ 0 ∨ len = 0 ∨ 262144 < len then fault invalidOperand
  else if p.members = 0 then fault invalidOperand
  else
    let d := bits va 51 49
    let (ord, s) := s.newId
    let s := s.order s.cur h.val ord i.val
    let (id, s) := s.addReq (.bind s.cur k.part d (bits va 48 37) (bits va 36 20)
      ⟨s.cur, k.sreg b.val, len, bits w 24 19, h.val, i.val, ord, if p.ssExchange then p.ssCount + 1 else p.ssCount, false, 0, {}, none,
        k.priv, k.coop, k.pc, k.tag⟩)
    .ok (s.schedule (if d = s.myDie then 12 else 760) (.xsendBinding id))
def execXsend (a b c : Fin 64) (i : Fin 16) (h : Fin 8) (l : Lent) (s : State) := meaning (.xsend a b c i h l) 3 s (xsendEffect s a b c i h)

/-- The address of byte 0 of the permit that a request names. -/
def permitVa (d gen ix : Nat) : W64 := tileVa d gen ix
/-- An exchange fault (R306): the message leaves the order of its core, and the partition halts. DEDUCED: assumption 75. -/
def State.exchangeFault (s : State) (p sub : Nat) (va : W64) (r : SendRec) : State :=
  (s.leaves r.core r.chan r.ord).unitHalt p 6 (64 * dieOfCore r.core) ⟨20, sub, va, 0⟩ ⟨r.pc, r.tag, r.core, r.chan, r.pos / 4096⟩
/-- The last message of the phase is through: the boundary is 120 clocks away (R298). -/
def State.phaseDone (s : State) (p : Nat) : State :=
  let x := s.part p
  if x.ssExchange && !s.sendsOut p x.ssCount then s.scheduleFirst 120 (.superstepBoundary p) else s

/-- The next step of a landing, n clocks on; the carry of a partition that does not run on the sender's die stops here (R307). -/
def State.againLand (s : State) (p id : Nat) (r : SendRec) (n : Nat) : State :=
  if s.runsOn (dieOfCore r.core) p then s.schedule n (.landing id) else s
/-- The binding of a message to its permit (R300, R302). -/
def State.bindSend (s : State) (p d gen ix : Nat) (r : SendRec) : State :=
  let va := permitVa d gen ix
  match s.liveTile d ix gen with
  | none => s.exchangeFault p 22 va r
  | some t =>
    if t.sealed || t.bound then s.exchangeFault p 22 va r
    else if t.part ≠ p then s.exchangeFault p 23 va r
    else if 4096 * t.units < r.len then s.exchangeFault p 21 va r
    else
      let x := s.die d
      let s := s.setDie d { x with tiles := tset x.tiles ix { t with bound := true, send := some r } }
      let y := s.part p
      if y.ssExchange ∧ r.step ≤ y.ssCount then
        let (id, s) := s.addReq (.land d ix)
        s.againLand p id r (firstSegment (carryTime [(dieOfCore r.core, d, r.len)]) r.len)
      else s
/-- XSEND_BINDING; those of one clock take effect in ascending core number (R302: the agenda's order). -/
def State.bindArrives (s : State) (id : Nat) : State :=
  match tget s.reqs id with
  | some (.bind _ p d gen ix r) => ({ s with reqs := tdel s.reqs id }.bindSend p d gen ix r).phaseDone p
  | _ => s
def execXsendBinding (id : Nat) (s : State) : Host.Outcome State Fault Refusal := .next (s.bindArrives id)

/-! ### The carry (R298, R300, R301, R307) -/

/-- Change the send record of a tile. -/
def State.updSend (s : State) (d ix : Nat) (f : Tile → SendRec → Tile) : State :=
  let x := s.die d
  match tget x.tiles ix with
  | some t => (match t.send with | some r => s.setDie d { x with tiles := tset x.tiles ix (f t r) } | none => s)
  | none => s
/-- A landing that fails leaves its permit as an ordinary tile (R306). -/
def State.landFails (s : State) (p d ix : Nat) (t : Tile) (r : SendRec) (sub : Nat) : State :=
  ((s.updSend d ix fun t _ => { t with bound := false, send := none }).exchangeFault p sub (permitVa d t.gen ix) r).phaseDone p

/-- LANDING: the exchange unit of the sender's die reads the next 4 KiB segment of the source and writes it to the permit; the message has landed
after its last one. DESIGN CHOICE: assumption 73. -/
def State.land (s : State) (id : Nat) : State :=
  match tget s.reqs id with
  | some (.land d ix) =>
    match (tget (s.die d).tiles ix).bind fun t => t.send.map fun r => (t, r) with
    | none => { s with reqs := tdel s.reqs id }
    | some (t, r) =>
      let n := min 4096 (r.len - r.pos)
      if r.landed then { s with reqs := tdel s.reqs id }
      -- a message that has not begun waits for the sender's die to run the partition again (R307)
      else if r.pos = 0 && !s.runsOn (dieOfCore r.core) t.part then s
      else if r.held.isSome then s.againLand t.part id r 64
      else match s.engRead (s.ctxOf r.core t.part r.priv r.coop) r.lap (.src false) (r.src + BitVec.ofNat 64 r.pos) n with
        | .ok s b =>
          let last := decide (r.len ≤ r.pos + n)
          let s := s.updSend d ix fun t r => { t.write r.pos b with send := some { r with pos := r.pos + n, landed := last } }
          if last then { s with reqs := tdel s.reqs id }.phaseDone t.part else s.againLand t.part id r 3
        | .stop s (.fail sub _) => { s with reqs := tdel s.reqs id }.landFails t.part d ix t r sub
        | .stop s (.ecc frame) =>
          let s := (s.countEcc ⟨33, 0, BitVec.ofNat 64 frame, 0⟩).updSend d ix fun t r => { t with send := some { r with held := some (2 ^ 32) } }
          let e := dieOfCore r.core
          (s.queueRecord e (s.engRecord 33 6 t.part 0 e r.pc (BitVec.ofNat 64 frame) (r.pos / 4096) r.tag r.core r.chan) (some (.send d ix r.ord))).againLand t.part id r 256
        | .stop s _ => s.againLand t.part id r 64
  | _ => s
/-- The carry of a partition goes on where it stopped (R307). -/
def State.kickLands (s : State) (p : Nat) : State :=
  s.reqs.foldl (fun (s : State) (r : Nat × Req) => match r.2 with
    | .land d ix => match (tget (s.die d).tiles ix).bind fun t => t.send.map fun r => (t, r) with
      | some (t, m) => if t.part = p ∧ s.runsOn (dieOfCore m.core) p then s.scheduleOnce 1 (.landing r.1) else s
      | none => s
    | _ => s) s
def execLanding (id : Nat) (s : State) : Host.Outcome State Fault Refusal := .next (s.land id)

/-! ### XRECV (R303, R304) -/

def xrecvEffect (s : State) (d k : Fin 64) : Res :=
  let (pid, t) := s.pend [keyS d.val] none 0
  let (id, t) := t.addReq (.xrecv s.cur s.myPart k.val pid)
  .ok (t.schedule 14 (.xrecvRequestArrives id))
def execXrecv (d k : Fin 64) (l : Lent) (s : State) := meaning (.xrecv d k l) 3 s (xrecvEffect s d k)

/-- XRECV_REQUEST_ARRIVES: the oldest entry of the port, or the null tile. -/
def State.xrecvArrives (s : State) (id : Nat) : State :=
  match tget s.reqs id with
  | some (.xrecv c p k pid) =>
    let s := { s with reqs := tdel s.reqs id }
    let d := dieOfCore c
    let x := s.die d
    match tgetD x.ports (portKey p k) [] with
    | [] => s.answer c pid (fun r => .scalar r 0) 14
    | ix :: t =>
      let va := match tget x.tiles ix with | some y => permitVa d y.gen ix | none => 0
      (s.setDie d { x with ports := tput [] x.ports (portKey p k) t }).answer c pid (fun r => .scalar r va) 14
  | _ => s
def execXrecvRequestArrives (id : Nat) (s : State) : Host.Outcome State Fault Refusal := .next (s.xrecvArrives id)

end Sys2Proof.Machine
end

