-- ==== Sys2Proof/Machine/Context.lean ====
section
/-! DEFINITION. Continuations read and written in the task ring (R339, R346 to R348), and contexts saved from a core and restored
to it (R157, R264, R387 to R389). -/
namespace Sys2Proof.Machine

/-! ### Ring entries (R339) -/

def Part.ringLg (p : Part) : Nat := bits p.tring 4 0
/-- Where byte 0 of a ring entry stands for the access: its page is under migration and the access waits (R118), or the HBM address, if it translates
to one. -/
inductive RingPlace where
  | waits
  | at_ (pa : Option Nat)
def State.ringPa (s : State) (d p ent : Nat) (a : Acc) : RingPlace :=
  match s.translate (schedCtx d s.svPart) a (BitVec.ofNat 64 (bits (s.part p).tring 63 12 * 4096 + 128 * ent)) with
  | .at_ (.phys pa) _ => .at_ (if pa < 2 ^ 40 then some pa else none)
  | .migrating => .waits
  | _ => .at_ none
/-- Write bytes of a ring entry; an entry that no longer translates is not written (R339). The answer is `none` where the write waits. DESIGN CHOICE:
assumption 78. -/
def State.ringWrite (s : State) (d p ent off : Nat) (b : List Byte) : Option State :=
  match s.ringPa d p ent (.dst false) with
  | .at_ (some pa) => some { s with mem := memWrite s.mem (pa + off) b }
  | .at_ none => some s
  | .waits => none
def State.ringRead (s : State) (d p ent off n : Nat) : Option (List Byte) :=
  match s.ringPa d p ent (.src false) with
  | .at_ (some pa) => some (memRead s.mem (pa + off) n)
  | .at_ none => some ((List.range n).map fun i => Config.freeByte s.fresh i)
  | .waits => none

/-- The continuation record (R346). -/
def contRecord (t : Task) (pc : W64) (kind reg : Nat) (word : W64) (k : Core) : List Byte :=
  leBytes 8 pc.toNat ++ leBytes 2 t.node ++ leBytes 2 t.tmpl ++ leBytes 4 t.inst
  ++ leBytes 4 (t.prio * 2 ^ 30 + t.part * 2 ^ 24 + t.die * 65536 + t.ent)
  ++ leBytes 4 (kind + t.deadline.toNat * 16 + reg * 32) ++ leBytes 8 word.toNat
  ++ (k.tiles.flatMap (leBytes 4)) ++ leBytes 8 (k.sreg 1).toNat ++ leBytes 8 (k.sreg 2).toNat

/-! ### A core at dispatch (R345, R348) -/

/-- The private window's bytes are unspecified (R158, R345): the carve-out, and the core's overflow area beyond it. DEDUCED: assumption 77. -/
def State.scramblePriv (s : State) (c : Nat) (t : Task) : State :=
  let (seed, s) := s.newSeed
  let s := { s with mem := memWrite s.mem (scratchPa c + 786432 - 4096 * cdiv t.priv 4096) ((List.range t.priv).map (Config.freeByte seed)) }
  let ovf := (s.part t.part).ovf
  if !bit ovf 0 then s
  else
    let first := cdiv t.priv 4096
    let base := bits ovf 63 20 * 2 ^ 20 + 2 ^ 20 * c
    s.scramble (s.ctxOf c t.part t.priv t.coop)
      ((if t.priv % 4096 = 0 then [] else [(base + t.priv, 4096 * first - t.priv)]) ++ (List.range (256 - first)).map fun i => (base + 4096 * (first + i), 4096))

/-- Bytes of a core's scratchpad cleared (R157). -/
def inPad (c pa : Nat) : Bool := decide (scratchPa c ≤ pa) && decide (pa < scratchPa c + 786432)
def clearPad (m : Tbl Byte) (c : Nat) : Tbl Byte := m.filter fun e => !inPad c e.1

/-- A core that takes a task: every register unspecified, engines and loops empty, CTXCTL from CTXCTL.p (R345, R375). -/
def freshCore (old : Core) (t : Task) (seed : Nat) (ctxctl pc : W64) (clk : Nat) (tags : Tbl (BitVec 45)) : Core :=
  { task := some t, lastPart := some t.part, pc := pc, nextClk := clk, seed := seed, ctxctl := ctxctl, tags := tags
    drainStall := old.drainStall, leaseWait := old.leaseWait }
/-- A core with no task keeps its tag table and its counters. -/
def idleCore (old : Core) : Core :=
  { lastPart := old.lastPart, tags := old.tags, drainStall := old.drainStall, leaseWait := old.leaseWait }

/-- CONTINUATION_RESUME (R348): the core finds s1, s2, the tiles and the handle restored from the record in the ring. DESIGN CHOICE: assumption 79. -/
def State.resumeCore (s : State) (c : Nat) : State :=
  let k := s.core c
  match k.post, k.task with
  | .resume, some t =>
    match s.ringRead t.die t.part t.ent 64 64 with
    | none => s.schedule 64 (.continuationResume c)
    | some r =>
    let flags := field r 20 4
    let base : Tbl W64 := tset (tset [] 1 (BitVec.ofNat 64 (field r 48 8))) 2 (BitVec.ofNat 64 (field r 56 8))
    let regs := (List.range 4).foldl (fun (v : Tbl W64) j =>
      let w := field r (32 + 4 * j) 4
      tset v (3 + j) (if w = 0 then 0 else BitVec.ofNat 64 (kennelBase + w * 2 ^ 20))) base
    let regs := if flags % 16 = 4 then tset regs (flags / 32 % 64) (BitVec.ofNat 64 (field r 24 8)) else regs
    let x := s.part t.part
    match tget x.ring t.ent with
    | some e =>
      let s := s.setPart t.part { x with ring := tset x.ring t.ent { e with cont := false, grant := none } }
      s.setCore c { k with
        post := .none, pc := BitVec.ofNat 64 (field r 0 8), s := regs
        talloc := e.grant.map fun va => ⟨bits va 51 49, 0, 0, 0, some va, true⟩ }
    | none => s.setCore c { k with post := .none }
  | _, _ => s
def execContinuationResume (c : Nat) (s : State) : Host.Outcome State Fault Refusal := .next (s.resumeCore c)

/-! ### Saving a context (R387 to R389) -/

def State.csaveOk (s : State) (p : Nat) : Bool := bit (s.part p).csave 0
/-- A slot of a core's scratchpad whose bytes a save keeps (R157): one with a valid tag, or of the carve-out. -/
def Core.keptSlot (k : Core) (n : Nat) : Bool := (tget k.tags n).isSome || decide (192 ≤ n + k.carve)
/-- A save of a core waits for what cannot be saved: a write or a request on its way, a copy segment, a block or a pass under way (R151, R283,
R292, R388). DESIGN CHOICE: assumption 82. -/
def State.saveable (s : State) (c : Nat) : Bool :=
  !s.pathOut c && (s.core c).post != .tspawn
  && !((s.core c).post == .resume && match (s.core c).task with | some t => (s.ringRead t.die t.part t.ent 64 64).isNone | none => false)
  && !(s.reqs.any fun r => r.2.from_ == c && match r.2 with | .hread .. => true | .hstat .. => true | .hrel .. => true | .xrecv .. => true | _ => false)
  && !((s.quad (c / 4)).chans.any fun h => h.2.any fun m => m.core == c && !m.done && m.held.isNone && s.copyDue (c / 4) m.id)
  && !((s.die (dieOfCore c)).att.any fun e => e.2.any fun m => m.core == c && m.busy)
  && !((s.die (dieOfCore c)).rte.any fun m => m.core == c && m.started)

/-- What a save keeps of a core's array work (R264). DEDUCED: assumption 87. -/
def Arr.save (a : Arr) (c : Nat) : ArrSave :=
  let claims := match a.lessees.find? fun l => l.core == c with | some l => l.banks | none => 0
  { core := c
    banks := a.banks.filter fun e => claims / 2 ^ (e.1 / 65536) % 2 == 1
    mat := a.queue.filter fun m => m.core == c
    batch := match a.batch with | some b => if b.core = c then some b else none | none => none
    resident := tgetD a.resident c ([], 0) }

/-- The units of a core's die and quad turn to the work of others. -/
def State.kickUnits (s : State) (c : Nat) : State :=
  let d := dieOfCore c
  let s := (s.kickCopies (c / 4)).wakeMatrix (c / 4)
  let s := (s.die d).att.foldl (fun (s : State) (e : Nat × List AttCmd) => s.kickAtt d e.1) s
  s.kickRte d

/-- The waiting accesses of a core leave the replay queue of its die with its context. -/
def State.leaveReplay (s : State) (c : Nat) : State :=
  let d := dieOfCore c
  let x := s.die d
  if x.replay.isEmpty then s else s.setDie d { x with replay := x.replay.filter fun a => a.1 != c }
/-- Put an element into a list that a number orders. -/
def insertBy {α : Type} (f : α → Nat) (x : α) : List α → List α
  | [] => [x]
  | y :: t => if f x < f y then x :: y :: t else y :: insertBy f x t

/-- Take the context of a core off it. DESIGN CHOICE: assumption 17. -/
def State.saveCore (s : State) (c : Nat) : State :=
  let s := s.resumeCore c
  let s := match (s.core c).talloc with | some r => if r.arrived then s else s.tallocArrives c | none => s
  let s := s.settleArr (c / 4)
  let k := s.core c
  let p := k.part
  let d := dieOfCore c
  let q := s.quad (c / 4)
  let x := s.die d
  let mine (f : Nat) := tgetD q.fifo (fifoKey f (c % 4)) []
  let v : Saved := {
    core := c, part := p, k := { k with fetching := false, missing := [], walked := [], engaged := false, relAt := none }
    copies := q.chans.flatMap fun h => (h.2.filter fun m => m.core == c).map fun m => (h.1, { m with active := false })
    fifo := [(0, mine 0), (1, mine 1)]
    lessee := q.arr.lessees.find? fun l => l.core == c
    arr := q.arr.save c
    att := x.att.flatMap fun e => (e.2.filter fun m => m.core == c).map fun m => (e.1, m)
    rte := x.rte.filter fun m => m.core == c
    pad := s.mem.filter fun e => inPad c e.1 && k.keptSlot ((e.1 - scratchPa c) / 4096) }
  let s := s.release false c
  let q := s.quad (c / 4)
  let s := s.setQuad (c / 4) { q with
    chans := q.chans.map fun h => (h.1, h.2.filter fun m => m.core != c)
    fifo := tput [] (tput [] q.fifo (fifoKey 0 (c % 4)) []) (fifoKey 1 (c % 4)) []
    arr := { q.arr with queue := q.arr.queue.filter fun m => m.core != c, batch := if v.arr.batch.isSome then none else q.arr.batch } }
  let x := s.die d
  let s := s.setDie d { x with
    att := (x.att.map fun e => (e.1, e.2.filter fun m => m.core != c)).filter fun e => !e.2.isEmpty
    rte := x.rte.filter fun m => m.core != c
    saved := x.saved ++ [v] }
  ((s.setCore c (idleCore k)).leaveReplay c).kickUnits c

/-- A saved context may return to its core: the core is idle and its partition runs on the die. -/
def State.restorable (s : State) (v : Saved) : Bool := (s.core v.core).task.isNone && s.runsOn (dieOfCore v.core) v.part

/-- The scratchpad of a core as a restore leaves it: the saved slots, and unspecified bytes in every other (R157). DESIGN CHOICE: assumption 86. -/
def Saved.restorePad (v : Saved) (seed : Nat) (m : Tbl Byte) : Tbl Byte :=
  let lost := (List.range 192).filter fun n => !v.k.keptSlot n
  let m := lost.foldl (fun m n => memWrite m (scratchPa v.core + 4096 * n) ((List.range 4096).map fun i => Config.freeByte seed (4096 * n + i))) (clearPad m v.core)
  v.pad.foldl (fun m (e : Nat × Byte) => memWrite m e.1 [e.2]) m
/-- Put a saved context back on its core. A core that was a lessee asks for its banks again and waits for them, and its group forms again with
them (R264). DEDUCED: assumption 83. DEDUCED: assumption 85. -/
def State.restoreCore (s : State) (v : Saved) : State :=
  let c := v.core
  let d := dieOfCore c
  let (seed, s) := s.newSeed
  let s := { s with mem := v.restorePad seed s.mem }
  let lessee := match v.lessee with | some l => l.issued | none => false
  let s := s.setCore c { v.k with stopped := false, nextClk := s.clk + 1, lastPart := some v.part, rejoins := lessee }
  let s := match v.lessee with
    | none => s
    | some l =>
      let a := s.arr (c / 4)
      let s := s.setArr (c / 4) { a with lessees := a.lessees ++ [{ l with granted := false }], back := if l.issued then a.back ++ [v.arr] else a.back }
      (groupQuads (c / 4) l.word).foldl (fun s p => s.schedule 1 (.leaseGrant p)) s
  let q := s.quad (c / 4)
  let s := s.setQuad (c / 4) { q with
    fifo := v.fifo.foldl (fun t (e : Nat × List (BitVec 512)) => tput [] t (fifoKey e.1 (c % 4)) e.2) q.fifo
    chans := v.copies.foldl (fun t (e : Nat × CopyCmd) => tset t e.1 (insertBy CopyCmd.id e.2 (tgetD t e.1 []))) q.chans }
  let x := s.die d
  let s := s.setDie d { x with
    att := v.att.foldl (fun t (e : Nat × AttCmd) => tset t e.1 (insertBy AttCmd.ord e.2 (tgetD t e.1 []))) x.att
    rte := v.rte.foldl (fun t m => insertBy RteCmd.ord m t) x.rte
    saved := x.saved.filter fun o => !(o.core == c && o.part == v.part) }
  let s := v.k.orders.foldl (fun (s : State) o => if o.2.2.2.isSome then s.scheduleOnce 1 (.copyComplete c o.1) else s) s
  (v.k.pend.filter fun p => p.value.isSome).foldl (fun s p => s.schedule 1 (.interlockedResultArrives c p.id)) s
/-- Every saved context of a die that may return does; then the units turn to the commands they have back, in the order of acceptance (R151, R269). -/
def State.restoreAll (s : State) (d : Nat) : State :=
  let back := (s.die d).saved.filter s.restorable
  let s := back.foldl State.restoreCore s
  back.foldl (fun (s : State) v => s.kickUnits v.core) s

end Sys2Proof.Machine
end

