-- ==== Sys2Proof/Machine/Frames.lean ====
section
/-! DEFINITION. The Beacon (R309, R310), frames, deadlines and the slip log (R295, R354, R355). -/
namespace Sys2Proof.Machine

/-- A slip entry (R355); one that finds its ring full or its place unwritable is dropped and counted in `lost`. -/
def slipEntry (kind p late frame : Nat) (beacon : W64) (tag : Nat) : List Byte :=
  leBytes 1 kind ++ leBytes 1 p ++ leBytes 2 0 ++ leBytes 4 late ++ leBytes 8 frame ++ leBytes 8 beacon.toNat ++ leBytes 4 tag ++ leBytes 4 0
/-- DEDUCED: assumption 72. -/
def State.slipWrite (s : State) (p : Nat) (b : List Byte) : State :=
  let x := s.part p
  let n := 2 ^ bits x.slip 4 0
  let lost := s.setPart p { x with slipLost := if x.slipLost = 0xFFFF then x.slipLost else x.slipLost + 1 }
  if (x.slipHead - x.slipTail).toNat = n then lost
  else match s.devWrite 0 s.svPart (bits x.slip 63 12 * 4096 + 32 * (x.slipHead.toNat % n)) b with
    | (s, true) => let x := s.part p; s.setPart p { x with slipHead := x.slipHead + 1 }
    | (_, false) => lost

/-- The deadline tasks of a frame that are inserted and not done, the earliest inserted first. -/
def insertEntry (e : Entry) : List Entry → List Entry
  | [] => [e]
  | f :: t => if e.task.gen < f.task.gen then e :: f :: t else f :: insertEntry e t
/-- DEDUCED: assumption 104. -/
def Part.deadlines (p : Part) (frame : Nat) : List Entry :=
  ((p.ring.map (·.2)).filter fun e => e.task.deadline && e.frame == frame).foldl (fun l e => insertEntry e l) []

/-- FRAME_ADVANCE (R354): the open frame advances by one, or its late tasks are noted. -/
def State.frameStep (s : State) (p : Nat) : State :=
  let x := s.part p
  if s.frame ≤ x.openFrame then s
  else
    let open_ := x.deadlines x.openFrame
    if open_.isEmpty then
      let s := match x.late with
        | [] => s
        | tag :: _ => s.slipWrite p (slipEntry 1 p x.late.length x.openFrame s.beacon tag)
      let x := s.part p
      let s := s.setPart p { x with openFrame := x.openFrame + 1, late := [] }
      let s := (List.range 6).foldl (fun (s : State) d => s.scheduleOnce 0 (.taskDispatch d)) s
      if (s.part p).openFrame < s.frame then s.scheduleOnce 1 (.frameAdvance p) else s
    else if x.late.isEmpty then s.setPart p { x with late := open_.map fun e => e.task.tag } else s
def execFrameAdvance (p : Nat) (s : State) : Host.Outcome State Fault Refusal := .next (s.frameStep p)

/-- The steps of a boundary that a frame start takes for a partition without supersteps (R295). -/
def State.frameSteps (s : State) (p : Nat) : State :=
  let s := s.finishRuns p
  let x := s.part p
  (s.setPart p { x with deferred := false }).boundarySteps p
/-- FRAME_START: it takes effect, or is deferred. DESIGN CHOICE: assumption 99. -/
def State.startFrame (s : State) (p : Nat) : State :=
  let x := s.part p
  if x.members ≠ 0 ∨ x.pstate = 3 then s
  else if s.closable p then s.frameSteps p
  else if x.deferred then s
  else (s.setPart p { x with deferred := true }).scheduleFirst 1 (.deferredFrameStart p)
def execFrameStart (p : Nat) (s : State) : Host.Outcome State Fault Refusal := .next (s.startFrame p)
/-- DEFERRED_FRAME_START: in the first clock that lets it; frame starts stop counting when members becomes nonzero. -/
def State.deferredStart (s : State) (p : Nat) : State :=
  let x := s.part p
  if !x.deferred then s
  else if x.members ≠ 0 ∨ x.pstate = 3 then s.setPart p { x with deferred := false }
  else if s.closable p then s.frameSteps p
  else s.scheduleFirst 1 (.deferredFrameStart p)
def execDeferredFrameStart (p : Nat) (s : State) : Host.Outcome State Fault Refusal := .next (s.deferredStart p)

/-- The Beacon value n ticks on. -/
def State.beaconAfter (s : State) (n : Nat) : W64 :=
  let t := s.tick + n
  if t < s.frameTicks then BitVec.ofNat 64 (s.frame * 2 ^ 24 + t)
  else
    let next := s.frameTicksNew.getD s.frameTicks
    let rest := t - s.frameTicks
    BitVec.ofNat 64 ((s.frame + 1 + rest / next) * 2 ^ 24 + rest % next)

/-- Clocks of the next tick: 16, or one more or less while locked, at most once in 1,024 ticks (R310). -/
def State.tickClocks (s : State) : Nat × State :=
  if s.locked && decide (1024 ≤ s.sinceSlew) && s.slew != 0 then
    if 0 < s.slew then (17, { s with slew := s.slew - 1, sinceSlew := 1 }) else (15, { s with slew := s.slew + 1, sinceSlew := 1 })
  else (16, { s with sinceSlew := s.sinceSlew + 1 })

/-- The partitions a state lists. -/
def allParts : List Nat := List.range 16
/-- BEACON_TICK (R309): the next tick; at the end of a frame every partition meets its frame start and may advance its open frame. -/
def State.beaconStep (s : State) : State :=
  let roll := decide (s.frameTicks ≤ s.tick + 1)
  let s := if roll then { s with frame := s.frame + 1, tick := 0, frameTicks := s.frameTicksNew.getD s.frameTicks, frameTicksNew := none }
    else { s with tick := s.tick + 1 }
  let now := s.beacon.toNat
  let s := s.parts.foldl (fun (s : State) p => p.2.ring.foldl (fun (s : State) e =>
    if e.2.phase = 3 ∧ e.2.wait ≤ now then s.schedule 0 (.parkWake p.1 e.1) else s) s) s
  let s := s.dies.foldl (fun (s : State) d => if d.2.pool.isEmpty then s else s.scheduleOnce 0 (.taskDispatch d.1)) s
  let s := if roll then allParts.foldl (fun (s : State) p => (s.scheduleFirst 0 (.frameAdvance p)).scheduleFirst 0 (.frameStart p)) s else s
  let (n, s) := s.tickClocks
  s.scheduleFirst n .beaconTick
def execBeaconTick (s : State) : Host.Outcome State Fault Refusal := .next s.beaconStep

end Sys2Proof.Machine
end

