-- ==== Sys2Proof/Machine/Sched.lean ====
section
/-! DEFINITION. Templates, insertion, the ready pool, dispatch, suspension and the scheduling instructions (R58 to R62, R335, R339 to R353). -/
namespace Sys2Proof.Machine

/-! ### Template images (R58 to R62, R335) -/

/-- Read bytes of an image in a partition's space with the rights of the supervisor (R337): a page under migration is waited for (R118). -/
def State.imageRead (s : State) (d p va n : Nat) : Eng (List Byte) := s.engRead (schedCtx d p) {} (.src false) (BitVec.ofNat 64 va) n

/-- A header that R62 accepts. -/
def headerOk (h : List Byte) : Bool :=
  let n := field h 2 2; let no := field h 8 4; let r := field h 4 4; let ro := field h 12 4
  decide (1 ≤ n) && decide (n ≤ 4096) && decide (64 ≤ no) && no % 64 == 0 && ro % 32 == 0 && zeros h 16 16
  && (r == 0 || decide (no + 64 * n ≤ ro) || decide (ro + 32 * r ≤ no))
/-- A node descriptor at position i that R62 accepts. -/
def nodeOk (regions i : Nat) (b : List Byte) : Bool :=
  field b 0 8 % 16 == 0 && field b 8 2 == i && decide (field b 10 1 ≤ 1) && decide (field b 11 1 < 4)
  && field b 12 4 % 64 == 0 && decide (field b 12 4 ≤ 262144) && decide (field b 52 2 ≤ 64) && decide (field b 48 4 + field b 52 2 ≤ regions)
  && zeros b 54 10
/-- A region descriptor that R60 gives a meaning. DESIGN CHOICE: assumption 139. -/
def regionOk (b : List Byte) : Bool := decide (1 ≤ field b 8 8) && decide (1 ≤ field b 24 1) && decide (field b 24 1 ≤ 3) && zeros b 25 7

/-- Check n records of a table of an image, from record i on. -/
def State.checkTable (s : State) (d p at_ size : Nat) (ok : Nat → List Byte → Bool) : Nat → Nat → Eng Bool
  | 0, _ => .ok s true
  | n + 1, i => (s.imageRead d p (at_ + size * i) size).andThen fun s b =>
    if ok i b then s.checkTable d p at_ size ok n (i + 1) else .ok s false
/-- The template_id of an image that R62 accepts; one that cannot be read has none. -/
def State.checkImage (s : State) (p va : Nat) : Eng (Option Nat) :=
  Eng.orElse ((s.imageRead 0 p va 32).andThen fun s h =>
    if !headerOk h then .ok s none
    else (s.checkTable 0 p (va + field h 8 4) 64 (nodeOk (field h 4 4)) (field h 2 2) 0).andThen fun s a =>
      (s.checkTable 0 p (va + field h 12 4) 32 (fun _ => regionOk) (field h 4 4) 0).andThen fun s b =>
        .ok s (if a && b then some (field h 0 2) else none)) none

/-- A node of an installed template as the scheduler reads it, with the regions of an instance: start, length, access. -/
structure Node where
  entry : W64
  cls : Nat
  coop : Bool
  deadline : Bool
  priv : Nat
  args : List W64
  regions : List (Nat × Nat × Nat)
  deriving DecidableEq, Repr

def Part.image (p : Part) (tmpl : Nat) : Option Nat := (p.tmpls.find? fun t => t.1 == tmpl).map fun t => t.2.toNat
/-- Argument j of an instance (R59). -/
def argOf (b : List Byte) (inst j : Nat) : W64 := sextTo 32 (field b (16 + 8 * j) 4) + BitVec.ofNat 64 inst * sextTo 32 (field b (20 + 8 * j) 4)
/-- Region descriptors from number i on (R60). -/
def State.readRegions (s : State) (d p at_ inst : Nat) : Nat → Nat → Eng (List (Nat × Nat × Nat))
  | 0, _ => .ok s []
  | n + 1, i => (s.imageRead d p (at_ + 32 * i) 32).andThen fun s b =>
    let base := (BitVec.ofNat 64 (field b 0 8) + BitVec.ofNat 64 inst * BitVec.ofNat 64 (field b 16 8)).toNat
    (s.readRegions d p at_ inst n (i + 1)).andThen fun s r => .ok s ((base, field b 8 8, field b 24 1) :: r)
/-- The node that a record names, if it is installed in the partition and can be read. -/
def State.readNode (s : State) (d p tmpl node inst : Nat) : Eng (Option Node) :=
  match (s.part p).image tmpl with
  | none => .ok s none
  | some va => Eng.orElse ((s.imageRead d p va 32).andThen fun s h =>
      if field h 2 2 ≤ node then .ok s none
      else (s.imageRead d p (va + field h 8 4 + 64 * node) 64).andThen fun s b =>
        (s.readRegions d p (va + field h 12 4) inst (min 64 (field b 52 2)) (field b 48 4)).andThen fun s r =>
          .ok s (some ⟨BitVec.ofNat 64 (field b 0 8), field b 10 1, field b 11 1 % 2 == 1, field b 11 1 / 2 % 2 == 1,
            min 262144 (field b 12 4), (List.range 4).map (argOf b inst), r⟩)) none

/-! ### Task records (R61, R62) -/

def recNode (r : List Byte) : Nat := field r 0 2
def recTmpl (r : List Byte) : Nat := field r 2 2
def recInst (r : List Byte) : Nat := field r 4 4
def recPart (r : List Byte) : Nat := field r 15 1 % 16
def recPrio (r : List Byte) : Nat := field r 15 1 / 64
def recFrame (r : List Byte) : Nat := field r 16 8
def recTag (r : List Byte) : Nat := field r 24 4
/-- valid is 1 and every reserved bit is 0. -/
def recOk (r : List Byte) : Bool :=
  field r 12 2 % 2 == 1 && decide (field r 12 2 < 4) && field r 14 1 == 0 && field r 15 1 / 16 % 4 == 0 && zeros r 28 4
/-- What a record that enters for a partition on a die gives: its node, or the refusal code of R337 (5 record, 7 class). -/
def State.checkRecord (s : State) (p d : Nat) (r : List Byte) : Eng (Except Nat Node) :=
  if !recOk r || recPart r != p then .ok s (.error 5)
  else (s.readNode d p (recTmpl r) (recNode r) (recInst r)).andThen fun s n => .ok s (match n with
    | none => .error 5
    | some n => if n.cls = classOf d then .ok n else .error 7)

/-! ### Insertion (R340, R341) -/

/-- The lowest number that a table does not list. -/
def lowestUnlisted {α : Type} (t : Tbl α) : Nat → Nat → Nat
  | 0, n => n
  | f + 1, n => match tget t n with | none => n | some _ => lowestUnlisted t f (n + 1)
/-- Two lists of regions overlap with a write on one side (R341). -/
def regionsMeet (a b : List (Nat × Nat × Nat)) : Bool :=
  a.any fun x => b.any fun y => meet x.1 x.2.1 y.1 y.2.1 && (decide (2 ≤ x.2.2) || decide (2 ≤ y.2.2))

/-- Insert a record on a die, and whether it has found room in the ring (R339, R340). DESIGN CHOICE: assumption 76. -/
def State.insertTask (s : State) (p d : Nat) (r : List Byte) (n : Node) (start : W64) (launch : Option Nat) : Eng Bool :=
  let x := s.part p
  let ent := lowestUnlisted x.ring 65536 0
  if 2 ^ x.ringLg ≤ ent then .ok s false
  else match s.ringPa d p ent (.dst false) with
    | .waits => .stop s .wait
    | .at_ none => .ok s false
    | .at_ (some pa) =>
      let frame := max x.openFrame (if recFrame r = 0 then (if start = 0 then s.frame else start.toNat / 2 ^ 24) else recFrame r)
      let preds := (x.ring.filter fun e => e.2.die == d && regionsMeet e.2.regions n.regions).map (·.1)
      let y := s.die d
      let t : Task := ⟨p, ent, d, recTmpl r, recNode r, recInst r, recPrio r, field r 12 2 / 2 % 2 == 1 || n.deadline, n.coop, 0, n.priv, recTag r,
        frame, s.nextId, n.args⟩
      let e : Entry := ⟨t, y.insSeq, field r 8 4, frame, start, d, n.cls, n.entry, n.regions, preds, 0, false, 0, none, launch, 0⟩
      let s := { s with nextId := s.nextId + 1, mem := memWrite s.mem pa (r.take 16 ++ leBytes 8 frame ++ (r.drop 24).take 8) }
      let s := s.setDie d { s.die d with insSeq := y.insSeq + 1 }
      -- a deadline task of an overrun frame is late as soon as it is inserted (R354)
      let s := s.setPart p { x with
        ring := tset x.ring ent e, late := if t.deadline && !x.late.isEmpty && frame == x.openFrame then x.late ++ [t.tag] else x.late }
      .ok (if preds.isEmpty then s.schedule 40 (.taskReady p ent) else s) true

/-! ### The ready pool (R342) -/

/-- Enter a level: behind every record, but records that become ready in one clock, continuations among them, stand by sequence number. DEDUCED: assumption 105. -/
def State.enterLevel (s : State) (e : Entry) (l : List (Nat × Nat)) (key : Nat × Nat) : List (Nat × Nat) :=
  let later := fun (k : Nat × Nat) => match tget (s.part k.1).ring k.2 with
    | some o => o.readyAt == s.clk && decide (e.seq < o.seq)
    | none => false
  l.filter (fun k => !later k) ++ [key] ++ l.filter later
/-- A record enters the pool of its die. -/
def State.makeReady (s : State) (p ent : Nat) (e : Entry) : State :=
  let x := s.part p
  let s := s.setPart p { x with ring := tset x.ring ent { e with phase := 1, readyAt := s.clk } }
  let y := s.die e.die
  (s.setDie e.die { y with pool := tset y.pool e.task.prio (s.enterLevel e (tgetD y.pool e.task.prio []) (p, ent)) }).scheduleOnce 0 (.taskDispatch e.die)

/-- Whether a waiting handle word names a slot that is done, freed or stale (R83). -/
def State.handleOver (s : State) (w : Nat) : Bool :=
  match tget (s.flash (w / 2 ^ 24 % 4)).slots (w % 4096) with
  | some h => h.gen != w / 4096 % 4096 || h.isDone
  | none => true
/-- TASK_READY (R341, R347): the last predecessor is done, or what a continuation waits for has come. -/
def State.taskReady (s : State) (p ent : Nat) : State :=
  match tget (s.part p).ring ent with
  | none => s
  | some e =>
    match e.phase with
    | 0 => if e.preds.isEmpty then s.makeReady p ent e else s
    | 4 => if s.handleOver e.wait then s.makeReady p ent e else s
    | 5 => if e.grant.isSome then s.makeReady p ent e else s
    | _ => s
def execTaskReady (p ent : Nat) (s : State) : Host.Outcome State Fault Refusal := .next (s.taskReady p ent)
/-- PARK_WAKE (R347). -/
def State.parkOver (s : State) (p ent : Nat) : State :=
  match tget (s.part p).ring ent with
  | some e => if e.phase = 3 ∧ e.wait ≤ s.beacon.toNat then s.makeReady p ent e else s
  | none => s
def execParkWake (p ent : Nat) (s : State) : Host.Outcome State Fault Refusal := .next (s.parkOver p ent)

/-! ### Dispatch (R343 to R345) -/

/-- A partition holds a die's time slice, or the die has none (R343). -/
def Die.open_ (x : Die) (p : Nat) : Bool := match x.slice with | some q => q == p | none => true
def State.eligible (s : State) (p : Nat) (e : Entry) : Bool :=
  (decide (e.frame < s.frame) || (e.frame == s.frame && decide (e.release ≤ s.tick))) && decide (e.frame ≤ (s.part p).openFrame)
  && decide (e.start.toNat ≤ s.beacon.toNat) && s.runsOn e.die p && (s.die e.die).open_ p
def State.idle (s : State) (c : Nat) : Bool := (s.core c).task.isNone
def coresOf (d : Nat) : List Nat := (List.range (4 * quadsOf d)).map (4 * firstQuad d + ·)
def idleIn (s : State) (q : Nat) : Nat := ((List.range 4).filter fun m => s.idle (4 * q + m)).length
/-- Of the quads with the most idle cores, the lowest. -/
def State.idlest (s : State) (d : Nat) : Nat :=
  ((List.range (quadsOf d)).map (firstQuad d + ·)).foldl (fun b q => if idleIn s b < idleIn s q then q else b) (firstQuad d)

/-- A core takes a task; a change of partition clears the scratchpad and its tag table first (R157), and a slot of the task's carve-out has no
tag (R155). -/
def State.startCore (s : State) (c : Nat) (t : Task) (pc : W64) (cont : Bool) (lat : Nat) : State :=
  let old := s.core c
  let other := match old.lastPart with | some q => q != t.part | none => false
  let s := if other then { s with mem := clearPad s.mem c } else s
  let (seed, s) := s.newSeed
  let k := freshCore old t seed (s.part t.part).ctxctl pc (s.clk + lat)
    (if other then [] else old.tags.filter fun e => decide (e.1 + cdiv t.priv 4096 < 192))
  let s := (s.setCore c (if cont then { k with post := .resume } else k)).scramblePriv c t
  if cont then s.scheduleFirst lat (.continuationResume c) else s

/-- The second read of a node descriptor, when its task is dispatched or its continuation resumed (R335): of an image that has changed since
the insertion it gives the descriptor as it stood before or after the change. A change of the deadline flag does not reach the inserted task. DESIGN
CHOICE: assumption 76. DESIGN CHOICE: assumption 159. -/
def State.rereadNode (s : State) (e : Entry) : Eng Entry :=
  (s.readNode e.die e.task.part e.task.tmpl e.task.node e.task.inst).andThen fun s n =>
  match n with
  | none => .ok s e
  | some n =>
    let new := { e with entry := n.entry, task := { e.task with priv := n.priv, args := n.args } }
    if new = e ∨ n.coop ≠ e.task.coop ∨ n.cls ≠ e.cls then .ok s e
    else
      let (seed, s) := s.newSeed
      .ok s (if freeBit seed 0 then new else e)
/-- Place a record, as its descriptor is read, on its cores. -/
def State.place (s : State) (p ent : Nat) (e : Entry) (spilled : Bool) (cs : List Nat) : State :=
  let y := s.die e.die
  let s := s.setDie e.die { y with pool := tput [] y.pool e.task.prio ((tgetD y.pool e.task.prio []).filter (· != (p, ent))) }
  let x := s.part p
  let s := s.setPart p { x with ring := tset x.ring ent { e with phase := 2 } }
  let moved := cs.any fun c => match (s.core c).lastPart with | some q => q != p | none => false
  let lat := 60 + (if spilled || e.cont then 116 else 0) + (if moved then 3072 else 0)
  (cs.zip (List.range cs.length)).foldl (fun s c => s.startCore c.1 { e.task with member := c.2 } e.entry e.cont lat) s

/-- Hand out the records of a die in the order of R344; `res` is the reserved quad. -/
def State.handOut (s : State) (d : Nat) : List (Nat × Nat × Bool) → Option Nat → State
  | [], _ => s
  | (p, ent, spilled) :: t, res =>
    match tget (s.part p).ring ent with
    | none => s.handOut d t res
    | some e =>
      if !s.eligible p e then s.handOut d t res
      else
        let cs := if e.task.coop then
            (((List.range (quadsOf d)).map (firstQuad d + ·)).find? fun q => idleIn s q == 4 && res != some q).map fun q => (List.range 4).map (4 * q + ·)
          else ((coresOf d).find? fun c => s.idle c && res != some (c / 4)).map fun c => [c]
        match cs with
        | none => s.handOut d t (if e.task.coop && res.isNone then some (s.idlest d) else res)
        | some cs =>
          match s.rereadNode e with
          | .ok s e => (s.place p ent e spilled cs).handOut d t res
          -- its descriptor's page is under migration: the die waits for it (R118)
          | .stop s _ => s.scheduleOnce 64 (.taskDispatch d)
/-- The records of a die's pool, most urgent level first; a level holds 32 on chip. DESIGN CHOICE: assumption 106. -/
def Die.poolOrder (x : Die) : List (Nat × Nat × Bool) :=
  (List.range 4).flatMap fun l => let r := tgetD x.pool l []; (r.zip (List.range r.length)).map fun e => (e.1.1, e.1.2, decide (32 ≤ e.2))
/-- The quad reserved while the oldest eligible coop record cannot be placed: no record, however urgent, takes a core of it (R344). DESIGN
CHOICE: assumption 107. -/
def State.reserved (s : State) (d : Nat) : Option Nat :=
  let waits := (s.die d).poolOrder.any fun r => match tget (s.part r.1).ring r.2.1 with
    | some e => e.task.coop && s.eligible r.1 e
    | none => false
  if waits && decide (idleIn s (s.idlest d) < 4) then some (s.idlest d) else none
/-- TASK_DISPATCH: saved contexts that may return do, then idle cores take records. -/
def State.dispatch (s : State) (d : Nat) : State :=
  let s := s.restoreAll d
  s.handOut d (s.die d).poolOrder (s.reserved d)
def execTaskDispatch (d : Nat) (s : State) : Host.Outcome State Fault Refusal := .next (s.dispatch d)

/-! ### The end of a task, and suspension (R346, R347, R352) -/

/-- A predecessor is done: tasks that waited for it alone become ready 40 clocks later (R341). -/
def State.releaseSuccessors (s : State) (p ent : Nat) : State :=
  let x := s.part p
  let hit := x.ring.filter fun e => e.2.preds.contains ent
  let s := s.setPart p { x with ring := x.ring.map fun e => (e.1, { e.2 with preds := e.2.preds.filter (· != ent) }) }
  hit.foldl (fun s e => if e.2.phase = 0 ∧ e.2.preds.all (· == ent) then s.schedule 40 (.taskReady p e.1) else s) s
/-- A ring entry frees. -/
def State.freeEntry (s : State) (p ent : Nat) : State :=
  let x := s.part p
  ((s.setPart p { x with ring := tdel x.ring ent }).releaseSuccessors p ent).scheduleOnce 0 (.frameAdvance p)
/-- The core gives up its task and its array work, and becomes idle. -/
def State.freeCore (s : State) (c : Nat) : State :=
  let s := s.dropMatrix c
  ((s.setCore c (idleCore (s.core c))).leaveReplay c).scheduleOnce 0 (.taskDispatch (dieOfCore c))
/-- The task of a core is done there; its entry frees with the last core that runs it. -/
def State.endTask (s : State) (c : Nat) : State :=
  match (s.core c).task with
  | none => s
  | some t =>
    let s := s.freeCore c
    let runs := fun (k : Core) => match k.task with | some u => u.part == t.part && u.ent == t.ent | none => false
    if (s.cores.any fun e => runs e.2) || (s.dies.any fun e => e.2.saved.any fun v => runs v.k) then s else s.freeEntry t.part t.ent

/-- The commands a core waits for at a suspension point are counted: only sends of later boundaries remain (R152, R269). -/
def State.countedAll (s : State) (c : Nat) : Bool :=
  (s.core c).orders.all fun o =>
    (s.dies.any fun d => d.2.tiles.any fun t => match t.2.send with | some r => r.ord == o.2.1 | none => false)
    || s.reqs.any fun e => match e.2 with | .bind _ _ _ _ _ r => r.ord == o.2.1 | _ => false
/-- Everything that a suspension point first completes. -/
def State.quiet (s : State) (c : Nat) : Bool :=
  let k := s.core c
  s.countedAll c && k.pend.isEmpty && !s.matrixOut c [0, 1, 2, 3] && !k.drains && !s.releaseOut c

/-- The continuation leaves its core (R346, R347), or waits to be written. -/
def State.suspendCore (s : State) (c kind reg : Nat) (word : W64) : State :=
  let k := s.core c
  match k.task with
  | none => s
  | some t =>
    match s.ringWrite t.die t.part t.ent 64 (contRecord t k.pc kind reg word k) with
    | none => s
    | some s =>
    let x := s.part t.part
    match tget x.ring t.ent with
    | none => s.freeCore c
    | some e =>
      let grant := if kind = 3 then k.talloc.bind TReq.addr else none
      let e := { e with cont := true, wait := word.toNat, grant := grant, phase := match kind with | 1 => 3 | 2 => 1 | 3 => 5 | _ => 4 }
      let s := s.setPart t.part { x with ring := tset x.ring t.ent e }
      let y := match k.talloc with | some r => r.die | none => 0
      let s := if kind = 3 then
          let z := s.die y
          s.setDie y { z with treqs := z.treqs.map fun r => if r.1 = c ∧ r.2.2.1 = t.part ∧ r.2.2.2.isNone then (r.1, r.2.1, r.2.2.1, some t.ent) else r }
        else s
      let s := s.freeCore c
      if kind = 2 then s.makeReady t.part t.ent e
      else if kind = 4 ∨ grant.isSome then s.schedule 0 (.taskReady t.part t.ent)
      else if kind = 1 then s.schedule 0 (.parkWake t.part t.ent)
      else s

/-- A core at a suspension point: it completes its waits, then leaves, though its grant or handle has come meanwhile. A streaming drain goes on
(R267). DESIGN CHOICE: assumption 69. -/
def State.trySuspend (s : State) (c : Nat) : State :=
  let k := s.core c
  match k.post with
  | .suspend kind reg word _ =>
    if kind = 0 then s
    else if s.quiet c then (if kind = 5 then s.endTask c else s.suspendCore c kind reg word)
    else
      let s := s.noteRelease c
      if k.drains then s.flowDrain c else s
  | _ => s

/-! ### TSPAWN (R350) -/

/-- DEDUCED: assumption 81. -/
def tspawnEffect (s : State) (a b : Fin 64) : Res :=
  let va := s.me.sreg a.val
  let d := (s.me.sreg b.val).toNat
  if va.toNat % 32 ≠ 0 then fault alignment 0 va
  else if 5 < d then fault invalidOperand
  else match s.readSpan va 32 with
    | .stop r => r
    | .ok r =>
      match s.checkRecord s.myPart d r with
      | .stop _ _ => .hold s
      | .ok _ (.error _) => fault 13
      | .ok s (.ok _) =>
        if s.waitsFor (s.releaseOut s.cur) then s.releaseHold
        else
          let (id, s) := s.addReq (.insert s.cur s.myPart d r va)
          let s := s.countSpan va 32
          .ok ((s.setMe { s.me with post := .tspawn }).schedule (if d = s.myDie then 6 else 380) (.taskInsertion id))
def execTspawn (st : Fin 8) (a b : Fin 64) (s : State) := meaning (.tspawn st a b) 0 s (tspawnEffect s a b)

/-- TASK_INSERTION: the task is inserted and its spawner goes on, or the ring is full and the spawner's partition halts. DESIGN CHOICE: assumption 80. -/
def State.insertion (s : State) (id : Nat) : State :=
  match tget s.reqs id with
  | some (.insert c p d r va) =>
    let again := s.schedule 64 (.taskInsertion id)
    let s := { s with reqs := tdel s.reqs id }
    let back := if dieOfCore c = d then 34 else 380
    let wake := fun (s : State) => let k := s.core c; s.setCore c { k with post := .none, nextClk := max k.nextClk (s.clk + back) }
    let full := fun (s : State) => (wake s).coreHalt c ⟨15, 0, va, 0⟩
    match s.checkRecord p d r with
    | .stop _ _ => again
    | .ok s (.error _) => full s
    | .ok s (.ok n) =>
      match s.insertTask p d r n 0 none with
      | .ok s true => wake s
      | .ok s false => full s
      | .stop _ _ => again
  | _ => s
def execTaskInsertion (id : Nat) (s : State) : Host.Outcome State Fault Refusal := .next (s.insertion id)

/-! ### PARK, YIELD, TDONE, GLOAD -/

/-- PARK (R351); PARK 0 acts as YIELD. -/
def parkEffect (s : State) (n : Nat) : Res :=
  if s.me.coop then fault invalidOperand
  else .ok (s.setMe { s.me with post := if n = 0 then .suspend 2 0 0 0 else .suspend 1 0 (s.beaconAfter n) 0 })
def execPark (st : Fin 8) (n : Fin 524288) (s : State) := meaning (.park st n) 0 s (parkEffect s n.val)
def execYield (st : Fin 8) (s : State) := meaning (.yield st) 0 s (parkEffect s 0)

/-- TDONE (R352): a coop member first arrives at its quad's barrier. -/
def tdoneEffect (s : State) : Res :=
  let k := s.me
  if k.coop then
    let (inst, s) := s.barArrive k.part s.cur 2 0
    .ok (s.setMe { s.me with post := .suspend 0 inst 0 0 })
  else .ok (s.setMe { k with post := .suspend 5 0 0 0 })
def execTdone (st : Fin 8) (s : State) := meaning (.tdone st) 0 s (tdoneEffect s)

/-- GLOAD (R353). -/
def gloadValue (t : Task) (k : Nat) : W64 :=
  match k with
  | 4 => BitVec.ofNat 64 t.inst
  | 5 => BitVec.ofNat 64 (t.tmpl * 65536 + t.node)
  | 6 => BitVec.ofNat 64 t.member
  | 7 => BitVec.ofNat 64 t.tag
  | 8 => BitVec.ofNat 64 t.part
  | j => t.args.getD j 0
def gloadEffect (s : State) (d : Fin 64) (k : Fin 1024) (l : Lent) : Res :=
  let n := immB k l
  match s.me.task with
  | none => fault invalidOperand
  | some t => if 9 ≤ n then fault invalidOperand else .ok (s.pend [keyS d.val] (some (.scalar d.val (gloadValue t n))) 2).2
def execGload (d : Fin 64) (k : Fin 1024) (l : Lent) (s : State) := meaning (.gload d k l) 1 s (gloadEffect s d k l)

end Sys2Proof.Machine
end

