-- ==== Sys2Proof/Machine/Traps.lean ====
section
/-! DEFINITION. TRAP, ERET, SNAPREL, SNAPST (R364 to R372) and HALT (R381). -/
namespace Sys2Proof.Machine

/-- TRAP (R369): its bundle issues; the trap follows when every interlocked result has landed. -/
def execTrap (st : Fin 8) (n : Fin 65536) (s : State) := meaning (.trap st n) 0 s (.ok (s.setMe { s.me with post := .trap n.val }))
/-- The trap of a TRAP whose bundle has issued (R364, R369): TEPC is the next bundle. DEDUCED: assumption 100. -/
def State.takeTrap (s : State) (n : Nat) : State :=
  let k := s.me
  let s := s.setMe { k with post := .none }
  s.trap ⟨14, 0, BitVec.ofNat 64 n, 0⟩ k.pc k.sched
/-- TRAP_ENTRY (R364): a precise trap of the current core. -/
def execTrapEntry (slot code sub : Nat) (info : W64) (s : State) : Host.Outcome State Fault Refusal :=
  .next (s.trap ⟨code, sub, info, slot⟩ s.me.pc s.me.sched)

/-! ### The image (R367, R368) -/

/-- The block shape byte of R41 for a resolved extent. -/
def shapeByte (rows cs n : Nat) : Nat := Nat.log2 rows * 64 + cs * 8 + (n - 1)
def padTo64 (b : List Byte) : List Byte := b ++ List.replicate (64 * cdiv b.length 64 - b.length) 0
/-- Descriptor and payload of one in-flight write. DEDUCED: assumption 103. -/
def entryBytes (f : Flight) : List Byte :=
  let (kind, reg, shape, lanes, data) : Nat × Nat × Nat × Pred × List Byte := match f.w with
    | .scalar r v => (1, r, 0, 0, leBytes 8 v.toNat)
    | .pred r lanes b => (2, r, 0, lanes, leBytes 16 (b &&& lanes).toNat)
    | .vec r rows cs n lanes d => (3, r, shapeByte rows cs n, lanes, d.flatMap fun x => leBytes 64 x.toNat)
    | .pwp j rows cs n lanes d => (4, j, shapeByte rows cs n, lanes, d.flatMap fun x => leBytes 64 x.toNat)
  leBytes 1 kind ++ leBytes 1 reg ++ leBytes 1 shape ++ leBytes 1 f.due ++ leBytes 4 data.length ++ leBytes 16 lanes.toNat ++ leBytes 40 0 ++ padTo64 data
/-- Entries by remaining clocks, then by slot. -/
def insertFlight (f : Flight) : List Flight → List Flight
  | [] => [f]
  | g :: t => if f.due < g.due ∨ (f.due = g.due ∧ f.slot < g.slot) then f :: g :: t else g :: insertFlight f t
/-- The image of a buffer (R367). -/
def imageOf (b : Buffer) : List Byte :=
  let fs := b.writes.foldl (fun l f => insertFlight f l) []
  let body := fs.flatMap entryBytes
  let lvl (k : Nat) : List Byte := match b.loops.find? fun l => l.k == k with
    | some l => leBytes 8 l.first.toNat ++ leBytes 8 l.last.toNat
    | none => leBytes 16 0
  let drain := match b.drain with
    | some d => if d.left = 0 then 0 else 2 ^ 31 + d.left * 65536 + d.row * 256 + d.bank
    | none => 0
  leBytes 4 0x534E4150 ++ leBytes 1 fs.length ++ leBytes 3 0 ++ leBytes 4 (128 + body.length) ++ leBytes 4 0
  ++ leBytes 1 (b.loops.foldl (fun v l => v ||| 2 ^ l.k) 0) ++ leBytes 7 0 ++ lvl 0 ++ lvl 1 ++ lvl 2 ++ leBytes 4 drain ++ leBytes 52 0 ++ body

/-- Read one entry at an offset: the write and the bytes it takes; `none` when it breaks R368. -/
def entryOf (b : List Byte) : Option (Flight × Nat) :=
  let kind := field b 0 1; let reg := field b 1 1; let sh := field b 2 1; let rem := field b 3 1; let n := field b 4 4
  let lanes : Pred := BitVec.ofNat 128 (field b 8 16)
  let rows := 2 ^ (sh / 64); let cs := sh / 8 % 8; let cl := sh % 8 + 1
  let data := (b.drop 64).take n
  let fits := !(n == 0) && zeros b 24 40 && decide (1 ≤ rem) && decide (rem ≤ 20) && zeros b (64 + n) (64 * cdiv n 64 - n)
    && decide (64 + 64 * cdiv n 64 ≤ b.length)
  let block := (List.range (rows * cl)).map fun i => BitVec.ofNat 512 (field data (64 * i) 64)
  let w : Option Payload := match kind with
    | 1 => if n = 8 ∧ sh = 0 ∧ lanes = 0 ∧ reg < 64 then some (.scalar reg (BitVec.ofNat 64 (field data 0 8))) else none
    | 2 => if n = 16 ∧ sh = 0 ∧ reg < 8 ∧ BitVec.ofNat 128 (field data 0 16) &&& ~~~lanes = 0 then some (.pred reg lanes (BitVec.ofNat 128 (field data 0 16))) else none
    | 3 => if n = 64 * rows * cl ∧ cs + cl ≤ 8 ∧ reg + rows ≤ 64 then some (.vec reg rows cs cl lanes block) else none
    | 4 => if n = 64 * rows * cl ∧ cs + cl ≤ 8 ∧ reg + 2 * rows * cl ≤ 64 then some (.pwp reg rows cs cl lanes block) else none
    | _ => none
  match w with
  | some w => if fits then some (⟨rem, 0, 0, true, 0, w⟩, 64 + 64 * cdiv n 64) else none
  | none => none
/-- The slot of a restored write, which an image does not hold: 2 for a vector block, for segments and for predicate bits of some lanes (VCMP,
VFCMP), else 0, and no lower than that of an entry before it with equal remaining clocks (R368). DEDUCED: assumption 137. -/
def entrySlot (least : Nat) : Payload → Nat
  | .scalar _ _ => least
  | .pred _ lanes _ => if lanes = BitVec.allOnes 128 then least else 2
  | .vec _ _ _ _ _ _ => 2
  | .pwp _ _ _ _ _ _ => 2
/-- The entries of an image, in the order of their remaining clocks (`from_`: those of the entry before, `slot` its slot); the bytes must end
with the last. -/
def entriesOf : Nat → Nat → Nat → List Byte → Option (List Flight)
  | 0, _, _, b => if b.isEmpty then some [] else none
  | n + 1, from_, slot, b =>
    match entryOf b with
    | none => none
    | some (f, len) =>
      if f.due < from_ then none
      else
        let sl := entrySlot (if f.due = from_ then slot else 0) f.w
        match entriesOf n f.due sl (b.drop len) with
        | none => none
        | some l => some ({ f with slot := sl } :: l)
/-- The loops of an image, the innermost first: an inner loop begins later. DEDUCED: assumption 102. -/
def insertLoop (l : Loop) : List Loop → List Loop
  | [] => [l]
  | m :: t => if m.first.toNat < l.first.toNat then l :: m :: t else m :: insertLoop l t
/-- The size an image's header gives, if the header is one of R367. -/
def imageSize (h : List Byte) : Option Nat :=
  let size := field h 8 4; let drain := field h 72 4
  if field h 0 4 = 0x534E4150 ∧ field h 4 1 ≤ 31 ∧ zeros h 5 3 ∧ 128 ≤ size ∧ size % 64 = 0 ∧ size ≤ 40960 ∧ zeros h 12 4 ∧ field h 16 1 < 8 ∧ zeros h 17 7
     ∧ zeros h 76 52 ∧ drain / 2 ^ 25 % 64 = 0 ∧ drain / 4 % 64 = 0
  then some size else none
/-- The buffer that an image describes. -/
def imageBuffer (b : List Byte) : Option Buffer :=
  match entriesOf (field b 4 1) 0 0 (b.drop 128) with
  | none => none
  | some fs =>
    let on := (List.range 3).filter fun k => field b 16 1 / 2 ^ k % 2 == 1
    let loops := on.foldl (fun ls k => insertLoop ⟨k, BitVec.ofNat 64 (field b (24 + 16 * k) 8), BitVec.ofNat 64 (field b (32 + 16 * k) 8)⟩ ls) []
    let d := field b 72 4
    some ⟨fs, loops, if 2 ^ 31 ≤ d then some ⟨d % 4, d / 256 % 256, d / 65536 % 512, 0⟩ else none, none⟩

/-! ### SNAPST, SNAPREL, ERET -/

/-- Ranges of whole or partial lines that cover n bytes. -/
def lineRanges (va : W64) (n : Nat) : List (W64 × Nat) := (lineCuts (n / 64 + 2) va.toNat n).map fun c => (BitVec.ofNat 64 c.1, c.2)
/-- DESIGN CHOICE: assumption 101. -/
def snapstEffect (s : State) (b : Fin 64) (o : Fin 256) (l : Lent) : Res :=
  let va := s.me.sreg b.val + offM 6 o l
  if va.toNat % 64 ≠ 0 then fault alignment 0 va
  else if !s.me.theld then fault invalidOperand
  else
    let img := imageOf s.me.buffer
    let ls := lineRanges va img.length
    match s.places .store (ls.map (·.1)) with
    | .stop r => r
    | .ok ps => .ok (s.storePieces ((ls.zip ps).map fun e => (e.1.1, e.2, (img.drop (e.1.1 - va).toNat).take e.1.2)))
def execSnapst (b : Fin 64) (o : Fin 256) (l : Lent) (s : State) := meaning (.snapst b o l) 3 s (snapstEffect s b o l)

/-- SNAPREL (R371): an earlier SNAPST is performed at .core when it issues. -/
def execSnaprel (st : Fin 8) (s : State) := meaning (.snaprel st) 0 s (.ok (s.setMe { s.me with theld := false, buffer := ⟨[], [], none, none⟩ }))

/-- Read n bytes as loads (R372). -/
def State.readImage (s : State) (va : W64) (n : Nat) : MRes (List Byte) :=
  match s.readLines (lineRanges va n) with
  | .stop r => .stop r
  | .ok xs => .ok (xs.flatMap (·.1))
/-- The reads of the image that an ERET has resumed from are counted. -/
def State.countImage (s : State) (b : Fin 64) : State :=
  if b.val = 0 then s
  else match s.readImage (s.me.sreg b.val) 128 with
    | .ok h => (match imageSize h with | some n => s.countSpan (s.me.sreg b.val) n | none => s)
    | .stop _ => s
def eretEffect (s : State) (st : Fin 8) (a b : Fin 64) : Res :=
  let k := s.me
  let target := k.sreg a.val
  if target.toNat % 16 ≠ 0 then fault instructionAlignment
  else if b.val ≠ 0 then
    match s.readImage (k.sreg b.val) 128 with
    | .stop r => r
    | .ok h =>
      match imageSize h with
      | none => fault invalidOperand
      | some n =>
        match s.readImage (k.sreg b.val) n with
        | .stop r => r
        | .ok img =>
          match imageBuffer img with
          | none => fault invalidOperand
          | some src => .ok (s.eretTo target src st.val)
  else .ok (s.eretTo target (if k.theld then k.buffer else ⟨[], [], none, none⟩) st.val)
def execEret (st : Fin 8) (a b : Fin 64) (s : State) := meaning (.eret st a b) 0 s (eretEffect s st a b)

/-! ### HALT (R381) -/

/-- A halt of partition p by the issuing bundle: its own stops with code 22; one already halting or halted stays as it is. -/
def State.haltPart (s : State) (p : Nat) : State :=
  if (s.part p).pstate = 1 ∨ (s.part p).pstate = 2 then s
  else if p = s.myPart then s.coreHalt s.cur ⟨22, 0, 0, 0⟩ else s.assertHalt p 22 0 s.myDie
def haltEffect (s : State) (a : Fin 64) : Res :=
  let w := s.me.sreg a.val
  if a.val = 0 then .ok (s.haltPart s.myPart)
  else if !s.isSup then fault privilege
  else if bits w 63 4 ≠ 0 then fault invalidOperand
  else .ok (s.haltPart w.toNat)
def execHalt (st : Fin 8) (a : Fin 64) (s : State) := meaning (.halt st a) 0 s (haltEffect s a)

end Sys2Proof.Machine
end

