-- ==== Sys2Proof/Machine/Supervisor.lean ====
section
/-! DEFINITION. The supervisor queue (R384, R385), the partition halt (R379 to R382), slices and pre-emption (R356, R357, R387 to R390), launch
status (R337) and teardown (R358). -/
namespace Sys2Proof.Machine

/-! ### The supervisor queue (R384) -/

/-- The record of the handler task of record i on a die. -/
def handlerRecord (svcfg : W64) (cls i part : Nat) : List Byte :=
  leBytes 2 (if cls = 0 then bits svcfg 47 36 else bits svcfg 35 24) ++ leBytes 2 (bits svcfg 63 48) ++ leBytes 4 i ++ leBytes 4 0
  ++ leBytes 2 1 ++ leBytes 1 0 ++ leBytes 1 part ++ leBytes 16 0
/-- Insert the handler task; `none`: the supervisor's task ring is full, or a page waits. A node that is not installed, or of the other class, gives no task. -/
def State.insertHandler (s : State) (d i : Nat) : Option State :=
  let r := handlerRecord s.svcfg (classOf d) i s.svPart
  match s.checkRecord s.svPart d r with
  | .ok s (.error _) => some s
  | .ok s (.ok n) => match s.insertTask s.svPart d r n 0 none with
    | .ok s true => some s
    | _ => none
  | .stop _ _ => none
/-- SVQ_RECORD_WRITE: the oldest record of a die is written and its task inserted, or it waits. DEDUCED: assumption 91. -/
def State.recordWrite (s : State) (d : Nat) : State :=
  let x := s.die d
  match x.recs with
  | [] => s
  | (r, who) :: t =>
    let pop := fun (s : State) => let s := s.setDie d { s.die d with recs := t }; if t.isEmpty then s else s.scheduleOnce 1 (.svqRecordWrite d)
    if !s.svValid then pop s
    else
      let n := 2 ^ bits s.svqBase 4 0
      let wait := s.scheduleOnce 64 (.svqRecordWrite d)
      if (s.svqHead - s.svqTail).toNat = n then wait
      else match s.insertHandler d s.svqHead.toNat with
        | none => wait
        | some t =>
          match t.engWrites (schedCtx d t.svPart) 17 false {} [(bits t.svqBase 63 12 * 4096 + 64 * (t.svqHead.toNat % n), r.take 56 ++ leBytes 8 t.beacon.toNat)] with
          | .stop _ _ => wait
          | .ok t _ =>
            let t := { t with
              parties := match who with | some p => tset t.parties t.svqHead.toNat p | none => tdel t.parties t.svqHead.toNat
              svqHead := t.svqHead + 1 }
            pop t
def execSvqRecordWrite (d : Nat) (s : State) : Host.Outcome State Fault Refusal := .next (s.recordWrite d)

/-! ### Launch status (R337) -/

/-- Write bytes of a launch's status area; an area that does not translate stays unwritten. -/
def State.statusWrite (s : State) (p : Nat) (va : W64) (off : Nat) (b : List Byte) : State :=
  (s.devWrite 0 p (va.toNat + off) b).1
/-- A task of a launch was ended by an unrecoverable data error (R119, R385). -/
def State.noteEnded (s : State) (launch : Option Nat) (tag : Nat) : State :=
  match launch with
  | none => s
  | some l =>
    match tget s.launches l with
    | none => s
    | some x =>
      let x := { x with endedTag := tag, ended := min 0xFFFFFFFF (x.ended + 1) }
      ({ s with launches := tset s.launches l x }).statusWrite x.part x.va 24 (leBytes 4 x.endedTag ++ leBytes 4 x.ended)

/-! ### SVACK (R385) -/

/-- Change the copy commands of the package, saved ones too. -/
def State.mapCopies (s : State) (f : CopyCmd → CopyCmd) : State :=
  { s with
    quads := s.quads.map fun (q : Nat × Quad) => if q.2.chans.isEmpty then q else (q.1, { q.2 with chans := q.2.chans.map fun (h : Nat × List CopyCmd) => (h.1, h.2.map f) })
    dies := s.dies.map fun (d : Nat × Die) => if d.2.saved.isEmpty then d else
      (d.1, { d.2 with saved := d.2.saved.map fun (v : Saved) => { v with copies := v.copies.map fun (c : Nat × CopyCmd) => (c.1, f c.2) } }) }
def held33 : Option Nat := some (2 ^ 32)
/-- Change the saved contexts of the package. -/
def State.mapSaved (s : State) (f : Saved → Saved) : State :=
  { s with dies := s.dies.map fun (d : Nat × Die) => if d.2.saved.isEmpty then d else (d.1, { d.2 with saved := d.2.saved.map f }) }
/-- A command that is held for an HBM word is held no more. -/
def AttCmd.free (m : AttCmd) : AttCmd := if m.held = held33 then { m with held := none } else m
def RteCmd.free (m : RteCmd) : RteCmd := if m.held = held33 then { m with held := none } else m

/-- Release a held party: its bundle issues again, its command goes on. -/
def State.releaseParty (s : State) : Party → State
  | .core c p =>
    let k := s.core c
    if k.part = p ∧ k.task.isSome then (if k.held = held33 then s.setCore c { k with held := none, nextClk := max k.nextClk (s.clk + 1) } else s)
    else s.mapSaved fun v => if v.core = c ∧ v.part = p ∧ v.k.held = held33 then { v with k := { v.k with held := none } } else v
  | .copy q id => (s.mapCopies fun m => if m.id = id ∧ m.held = held33 then { m with held := none } else m).kickCopies q
  | .att d e id =>
    ((s.updAtt d e id fun m => some m.free).mapSaved fun v => { v with att := v.att.map fun m => if m.2.ord = id then (m.1, m.2.free) else m }).kickAtt d e
  | .rte d id => ((s.updRte d id fun m => some m.free).mapSaved fun v => { v with rte := v.rte.map fun m => if m.ord = id then m.free else m }).kickRte d
  | .flash _ _ => s
  | .send d ix id =>
    let s := s.updSend d ix fun t r => { t with send := some { r with held := if r.ord = id then none else r.held } }
    match tget (s.die d).tiles ix with | some t => s.kickLands t.part | none => s

/-- A core whose task an unrecoverable error ends: it does what a TDONE does (R352), a member of a coop quad first at its quad's barrier. -/
def Core.toEnd (k : Core) (inst : Option Nat) : Core :=
  { k with held := none, hreq := none, waits := 0, fetching := false, drain := k.anyDrain
           post := match inst with | some i => .suspend 0 i 0 0 | none => .suspend 5 0 0 0 }
/-- The arrival of a coop core's TDONE at its quad's barrier. -/
def State.endArrives (s : State) (k : Core) (c : Nat) : Option Nat × State :=
  if k.coop then (let (i, s) := s.barArrive k.part c 2 0; (some i, s)) else (none, s)
/-- The task of a held core, or of a saved context, is done as by TDONE, and its launch notes it. -/
def State.endHeld (s : State) (c p : Nat) : State :=
  let note (s : State) (k : Core) : State :=
    match k.task with
    | some t => s.noteEnded ((tget (s.part p).ring t.ent).bind fun e => e.launch) t.tag
    | none => s
  let k := s.core c
  if k.part = p ∧ k.task.isSome then
    let (i, s) := s.endArrives k c
    note (s.setCore c { (s.core c).toEnd i with nextClk := max k.nextClk (s.clk + 1) }) k
  else match (s.die (dieOfCore c)).saved.find? fun v => v.core == c && v.part == p with
    | none => s
    | some v =>
      let (i, s) := s.endArrives v.k c
      note (s.mapSaved fun v => if v.core = c ∧ v.part = p then { v with k := v.k.toEnd i } else v) v.k

/-- An engine command of a saved context fails: it leaves the context and its core's order. -/
def State.failSaved (s : State) (c p h id : Nat) : State :=
  s.mapSaved fun v => if v.core = c ∧ v.part = p then
    { v with
      copies := v.copies.filter fun m => m.2.id != id
      att := v.att.filter fun m => m.2.ord != id
      rte := v.rte.filter fun m => m.ord != id
      k := { v.k with orders := v.k.orders.filter fun o => !(o.1 == h && o.2.1 == id) } } else v
/-- Every saved context of the package. -/
def State.allSaved (s : State) : List Saved := s.dies.flatMap fun d => d.2.saved
/-- End the copies that a condition names, saved ones too: each takes its engine fault with sub-cause 24 (R385). -/
def State.failHeld (s : State) (f : CopyCmd → Bool) : State :=
  let all := s.quads.flatMap fun q => q.2.chans.flatMap fun h => (h.2.filter f).map fun m => (q.1, h.1, m)
  let s := all.foldl (fun (s : State) e => s.failCopy e.1 e.2.1 e.2.2 24 0) s
  let old := s.allSaved.flatMap fun v => v.copies.filter fun m => f m.2
  old.foldl (fun (s : State) (e : Nat × CopyCmd) =>
    (s.failSaved e.2.core e.2.part e.1 e.2.id).unitHalt e.2.part 1 (e.2.core / 4) ⟨17, 24, 0, 0⟩ ⟨e.2.pc, e.2.tag, e.2.core, e.1, e.2.seg⟩) s
/-- A core that waits for one of some handle words in HWAIT. -/
def Core.waitsOn (k : Core) (words : List Nat) : Bool := words.any fun w => match k.post with
  | .suspend 4 _ v _ => v.toNat == w
  | _ => w != 0 && k.waits.toNat == w
/-- SVACK with end 1 on a page: every slot that waits on it is freed, and every party that waits on it ends. -/
def State.endPage (s : State) (e lp : Nat) : State :=
  let f := s.flash e
  let slots := f.slots.filter fun h => h.2.repair.contains lp
  let words := slots.map fun h => handleWord e h.2.gen h.1
  -- the tasks suspended on those slots end; their continuations are discarded
  let s := s.parts.foldl (fun (s : State) p => p.2.ring.foldl (fun (s : State) n =>
    if n.2.phase = 4 ∧ words.contains n.2.wait then (s.freeEntry p.1 n.1).noteEnded n.2.launch n.2.task.tag else s) s) s
  -- the tasks that wait in place for them end too, and those whose load waits on the page
  let hit := fun (k : Core) => k.waitsOn words || k.held == some (pageWait e lp)
  let here := (s.cores.filter fun c => c.2.task.isSome && hit c.2).map fun c => (c.1, c.2.part)
  let away := (s.allSaved.filter fun v => hit v.k).map fun v => (v.core, v.part)
  let s := slots.foldl (fun (s : State) h => s.freeSlot e h.1) s
  let s := (here ++ away).foldl (fun (s : State) c => s.endHeld c.1 c.2) s
  s.failHeld fun m => m.held == some (pageWait e lp)
/-- End the work of a held party. DEDUCED: assumption 94. -/
def State.endParty (s : State) : Party → State
  | .core c p => s.endHeld c p
  | .copy _ id => s.failHeld fun m => m.id == id && m.held == held33
  | .att d e id => match (tgetD (s.die d).att e []).find? fun m => m.ord == id && m.held == held33 with
    | some m => s.stopAtt d e m (.fail 24 0)
    | none => match s.allSaved.findSome? fun v => v.att.find? fun m => m.2.ord == id && m.2.held == held33 with
      | some (_, m) => (s.failSaved m.core m.part m.chan id).unitHalt m.part (attUnit e).1 (64 * d + e) ⟨18, 24, 0, 0⟩ ⟨m.pc, m.tag, m.core, 0, m.row⟩
      | none => s
  | .rte d id => match (s.die d).rte.find? fun m => m.ord == id && m.held == held33 with
    | some m => s.stopRte d m (.fail 24 0) (.routingRound d)
    | none => match s.allSaved.findSome? fun v => v.rte.find? fun m => m.ord == id && m.held == held33 with
      | some m => (s.failSaved m.core m.part m.chan id).unitHalt m.part 5 (64 * d) ⟨19, 24, 0, 0⟩ ⟨m.pc, m.tag, m.core, 0, 0⟩
      | none => s
  | .flash e lp => if (s.flash e).waiting.contains lp then s.endPage e lp else s
  | .send d ix id => match tget (s.die d).tiles ix with
    | some t => (match t.send with | some r => if r.ord = id ∧ r.held.isSome then s.landFails t.part d ix t r 24 else s | none => s)
    | none => s
/-- SVACK_RELEASE: it changes nothing for a code-32 record. -/
def State.svackRelease (s : State) (ix : Nat) : State :=
  match tget s.parties ix with
  | none => s
  | some (.flash _ _) => s
  | some p => { s with parties := tdel s.parties ix }.releaseParty p
def execSvackRelease (ix : Nat) (s : State) : Host.Outcome State Fault Refusal := .next (s.svackRelease ix)
/-- SVACK_END. -/
def State.svackEnd (s : State) (ix : Nat) : State :=
  match tget s.parties ix with
  | none => s
  | some p => { s with parties := tdel s.parties ix }.endParty p
def execSvackEnd (ix : Nat) (s : State) : Host.Outcome State Fault Refusal := .next (s.svackEnd ix)

/-! ### Stop records and the halt (R379, R380, R387) -/

/-- The core that issued a matrix command, the leader's where it is a group's. -/
def State.matIssuer (s : State) (m : MatCmd) : Nat := match m.grp with
  | some (f, w) => (match s.member f w with | some l => l.core | none => m.core)
  | none => m.core
/-- The command a unit works on for a partition, or that its save keeps, for its stop record: bundle, tag, core, aux, progress. -/
def State.unitCmd (s : State) (p kind ix : Nat) : CmdInfo :=
  let none_ : CmdInfo := ⟨0, 0, 0xFFFFFFFF, 0, 0⟩
  let kept := s.allSaved.filter fun v => v.part == p
  match kind with
  | 1 =>
    let live := (s.quad ix).chans.flatMap fun h => (h.2.filter fun m => m.part == p && !m.done).map fun m => (h.1, m)
    match (live ++ (kept.filter fun v => v.core / 4 == ix).flatMap fun v => v.copies.filter fun m => !m.2.done).head? with
    | some (h, m) => ⟨m.pc, m.tag, m.core, h, m.seg⟩
    | none => none_
  | 2 => match ((s.arr ix).queue.filter (fun m => m.part == p) ++ (kept.filter fun v => v.core / 4 == ix).flatMap fun v => v.arr.mat).head? with
    | some m => ⟨m.pc, m.tag, s.matIssuer m, 0, 0⟩
    | none => none_
  | 5 => match ((s.die (ix / 64)).rte.filter (fun m => m.part == p) ++ (kept.filter fun v => dieOfCore v.core == ix / 64).flatMap fun v => v.rte).head? with
    | some m => ⟨m.pc, m.tag, m.core, 0, 0⟩
    | none => none_
  | 6 =>
    let bound := ((s.sends p).filter fun e => !e.2.2.2.landed).map fun e => e.2.2.2
    let far := s.reqs.filterMap fun r => match r.2 with | .bind _ q _ _ _ m => if q = p then some m else none | _ => none
    match (bound ++ far).find? fun m => dieOfCore m.core == ix / 64 with
    | some m => ⟨m.pc, m.tag, m.core, m.chan, m.pos / 4096⟩
    | none => none_
  | 7 => match (s.flash (ix / 64)).slots.find? fun h => h.2.part == p && !h.2.isDone with
    | some h => ⟨h.2.pc, h.2.tag, h.2.core, h.1, h.2.page h.2.done.length⟩
    | none => none_
  | _ =>
    let old := (kept.filter fun v => dieOfCore v.core == ix / 64).flatMap fun v => (v.att.filter fun m => m.1 == ix % 64).map fun m => m.2
    match ((tgetD (s.die (ix / 64)).att (ix % 64) []).filter (fun m => m.part == p) ++ old).head? with
    | some m => ⟨m.pc, m.tag, m.core, 0, m.row⟩
    | none => none_
/-- The number that a record gives a unit (R380): cores and quads by number, attention engines by number on their die, else 0. -/
def unitIndex (kind ix : Nat) : Nat :=
  match kind with
  | 0 => ix
  | 1 => ix
  | 2 => ix
  | 3 => ix % 64 - 16
  | 4 => ix % 64
  | _ => 0
/-- The stop record of a unit: its own first fault, or code 23. DEDUCED: assumption 93. -/
def State.stopRecord (s : State) (p kind ix : Nat) : List Byte :=
  let own := ((s.part p).unitFault.find? fun e => e.1 == kind && e.2.1 == ix).map fun e => e.2.2
  let d := unitDie (kind, ix)
  let (code, sub) := match own with | some (f, _) => (f.code, f.sub) | none => (23, 0)
  if kind = 0 then
    let k := if (s.core ix).part = p ∧ (s.core ix).task.isSome then s.core ix
      else match (s.die d).saved.find? fun v => v.core == ix && v.part == p with | some v => v.k | none => {}
    let inPlace := k.held.isSome || (match k.post with | .suspend 3 _ _ _ => true | .suspend 4 _ _ _ => true | _ => k.talloc.isSome || k.waits != 0)
    let info := match own with | some (f, _) => f.info | none => k.tinfo
    record code sub 0 p ix d (k.theld.toNat + 2 * inPlace.toNat + 4 * own.isSome.toNat) k.pc info 0 k.tag k.tiles 0xFFFFFFFF 0 s.beacon
  else
    let m := match own with | some (_, m) => m | none => s.unitCmd p kind ix
    let info := match own with | some (f, _) => f.info | none => 0
    record code sub kind p (unitIndex kind ix) d (4 * own.isSome.toNat) m.pc info m.progress m.tag [] m.core m.aux s.beacon

/-- A unit is at its stopping unit (R387) and what it saves can be saved. What a flash controller and an exchange unit save of a partition stays in its
place in the state: their transfers, and their messages with the bytes carried. DESIGN CHOICE: assumption 90. -/
def State.stoppable (s : State) (p kind ix : Nat) : Bool :=
  match kind with
  | 0 => (s.core ix).part != p || !s.csaveOk p || s.saveable ix
  | 1 => !(s.quad ix).chans.any fun h => h.2.any fun m => m.part == p && !m.done && m.held.isNone && s.copyDue ix m.id
  | 2 => true
  | 5 => !(s.die (ix / 64)).rte.any fun m => m.part == p && m.started && m.held.isNone
  | 6 => !s.reqs.any fun r => match r.2 with
    | .land d i => (match (tget (s.die d).tiles i).bind fun t => t.send with
      | some m => dieOfCore m.core == ix / 64 && m.held.isNone && decide (0 < m.pos) && (match tget (s.die d).tiles i with | some t => t.part == p | none => false)
          && s.agenda.any fun e => e.2 == .landing r.1
      | none => false)
    | _ => false
  | 7 => !(s.flash (ix / 64)).reading.any fun r => match tget (s.flash (ix / 64)).slots r.2.1 with | some h => h.part == p | none => false
  | _ => !(tgetD (s.die (ix / 64)).att (ix % 64) []).any fun m => m.part == p && m.busy && m.held.isNone
/-- What a stopped unit saves (R389): a core takes its commands with it. DEDUCED: assumption 84. -/
def State.saveUnit (s : State) (p kind ix : Nat) : State :=
  if kind = 0 ∧ (s.core ix).part = p ∧ (s.core ix).task.isSome ∧ s.csaveOk p then s.saveCore ix else s

/-- HALT_LINE_ARRIVES: a core stops at once, every unit that still holds work, or has met a fault, writes its record at its stopping unit and saves;
after the last the Sheepdog closes. -/
def State.haltLine (s : State) (p kind ix : Nat) : State :=
  match (s.part p).halt with
  | none => s
  | some h =>
    if (s.part p).pstate ≠ 1 || !h.left.contains (kind, ix) then s
    else if kind = 0 ∧ (s.core ix).part = p ∧ (s.core ix).endsCommand then s.schedule 1 (.haltLineArrives p kind ix)
    else
      let s := if kind = 0 ∧ (s.core ix).part = p then s.setCore ix { s.core ix with stopped := true } else s
      if !s.stoppable p kind ix then s.schedule 16 (.haltLineArrives p kind ix)
      else
        let works := (s.unitsOf p).contains (kind, ix)
        let s := if kind = 2 then s.settleArr ix else s
        let s := if works then (s.queueRecord (unitDie (kind, ix)) (s.stopRecord p kind ix) none).saveUnit p kind ix else s
        let left := h.left.filter (· != (kind, ix))
        let x := s.part p
        let s := s.setPart p { x with halt := some { h with left := left, done := if works then h.done ++ [(kind, ix)] else h.done } }
        if left.isEmpty then s.schedule 1 (.halted p) else s
def execHaltLineArrives (p kind ix : Nat) (s : State) : Host.Outcome State Fault Refusal := .next (s.haltLine p kind ix)

/-- HALTED: units that got work of the partition after the line was asserted stop too; after the last unit's record is written, the Sheepdog's
own record, the closing record, and then the state. DEDUCED: assumption 92. -/
def State.closeHalt (s : State) (p : Nat) : State :=
  let x := s.part p
  match x.halt with
  | none => s
  | some h =>
    if x.pstate ≠ 1 || !h.left.isEmpty then s
    else
      let late := (s.unitsOf p).filter fun u => !h.done.contains u
      if s.svValid && s.dies.any (fun y => y.2.recs.any fun r => field r.1 3 1 == p) then s.schedule 16 (.halted p)
      else if h.closing then s.setPart p { x with pstate := 2, halt := none, unitFault := [] }
      else if !late.isEmpty then
        late.foldl (fun (s : State) u => s.schedule 1 (.haltLineArrives p u.1 u.2)) (s.setPart p { x with halt := some { h with left := late } })
      else match x.unitFault.find? fun e => e.1 == 8 with
      | some e =>
        let f := e.2.2.1
        let r := record f.code f.sub 8 p 0 (e.2.1 / 64) 4 0 f.info 0 0 [] 0xFFFFFFFF 0 s.beacon
        ((s.setPart p { x with unitFault := x.unitFault.filter fun e => e.1 != 8 }).queueRecord (e.2.1 / 64) r none).schedule 1 (.halted p)
      | none =>
        ((s.setPart p { x with halt := some { h with closing := true } }).queueRecord h.die
            (record 24 h.code 8 p 0 h.die 0 0 0 0 0 [] 0xFFFFFFFF 0 s.beacon) none).schedule 1 (.halted p)
def execHalted (p : Nat) (s : State) : Host.Outcome State Fault Refusal := .next (s.closeHalt p)

/-- PSTATE_HALT (R382): a write of state 2 while the state is 0 acts as the HALT of its bundle. -/
def State.pstateHalt (s : State) (p : Nat) : State := if (s.part p).pstate = 0 then s.haltPart p else s
def execPstateHalt (p : Nat) (s : State) : Host.Outcome State Fault Refusal := .next (s.pstateHalt p)

/-- The units of a die turn to their work again. -/
def State.kickDie (s : State) (d : Nat) : State :=
  let s := s.quads.foldl (fun (s : State) (q : Nat × Quad) => if dieOfQuad q.1 = d then (s.kickCopies q.1).wakeMatrix q.1 else s) s
  let s := (s.die d).att.foldl (fun (s : State) (e : Nat × List AttCmd) => s.kickAtt d e.1) s
  let s := (s.kickRte d).scheduleOnce 0 (.taskDispatch d)
  let s := (s.die d).runs.foldl (fun (s : State) (_ : PtrRun) => s.schedule 1000 (.pointerRun d)) s
  let s := allParts.foldl State.kickLands s
  if 2 ≤ d then s.kickFlash (d - 2) else s
/-- PSTATE_RESUME (R382): every unit restarts where it stopped. -/
def State.pstateResume (s : State) (p : Nat) : State :=
  let x := s.part p
  if x.pstate ≠ 2 then s
  else
    let s := s.setPart p { x with pstate := 0 }
    let s := { s with cores := s.cores.map fun (e : Nat × Core) =>
      if e.2.task.isSome ∧ e.2.part = p then (e.1, { e.2 with stopped := false, nextClk := max e.2.nextClk (s.clk + 1) }) else e }
    let s := s.mapSaved fun v => if v.part = p then { v with k := { v.k with stopped := false } } else v
    (List.range 6).foldl State.kickDie s
def execPstateResume (p : Nat) (s : State) : Host.Outcome State Fault Refusal := .next (s.pstateResume p)

/-! ### Slices and pre-emption (R356, R357, R389) -/

def sliceValid (w : W64) : Bool := bit w 16
/-- The next valid entry of a die after entry k, cycling. -/
def State.nextSlice (s : State) (d k : Nat) : Option (Nat × W64) :=
  ((List.range 16).map fun i => (k + 1 + i) % 16).findSome? fun i => let w := tgetD s.slices (16 * d + i) 0; if sliceValid w then some (i, w) else none
/-- Units of a die that hold work of a partition and are asked to save it (R389). -/
def State.dieUnits (s : State) (d p : Nat) : List (Nat × Nat) := (s.liveUnits p).filter fun u => unitDie u == d
/-- The lowest partition other than the incoming one, and not pre-empted already, that a die must pre-empt. DESIGN CHOICE: assumption 89. -/
def State.outgoing (s : State) (d p : Nat) : Option Nat :=
  allParts.find? fun q => q != p && !(s.die d).outs.contains q && (s.part q).pstate == 0 && !(s.dieUnits d q).isEmpty
/-- The valid entries of a die. -/
def State.sliceCount (s : State) (d : Nat) : Nat := ((List.range 16).filter fun i => sliceValid (tgetD s.slices (16 * d + i) 0)).length
/-- The slice of entry k of a die begins, for partition p. -/
def State.beginSlice (s : State) (d k p : Nat) (w : W64) : State :=
  let x := s.die d
  let outs := if s.sliceCount d = 1 then x.outs.filter (· != p) else allParts.filter (· != p)
  ((s.setDie d { x with slice := some p, sliceIx := k, outs := outs }).kickDie d).schedule (940 * max 1 (bits w 15 0)) (.sliceEnd d)
/-- A die with no valid entry has no slice, and the end of its last one is awaited no more (R343). -/
def State.endSlices (s : State) (d : Nat) : State :=
  ({ s with agenda := s.agenda.filter fun e => e.2 != Instr.sliceEnd d }.setDie d { s.die d with slice := none, outs := [] }).kickDie d
/-- SLICE_END: the die pre-empts, or the next slice begins. With a single valid entry it pre-empts nothing (R357). A partition with no save area keeps
its slice until its cores are idle (R389). DESIGN CHOICE: assumption 88. -/
def State.sliceEnd (s : State) (d : Nat) : State :=
  let x := s.die d
  if x.pre.isSome then s
  else match s.nextSlice d (if x.slice.isSome then x.sliceIx else 15) with
    | none => s.endSlices d
    | some (k, w) =>
      let p := bits w 20 17
      match if s.sliceCount d = 1 then none else s.outgoing d p with
      | none => s.beginSlice d k p w
      | some q =>
        if !s.csaveOk q then s.schedule 64 (.sliceEnd d)
        else
          let us := s.dieUnits d q
          let s := s.quads.foldl (fun (s : State) (y : Nat × Quad) => if dieOfQuad y.1 = d then s.settleArr y.1 else s) s
          us.foldl (fun (s : State) u => s.schedule 16 (.preemptionUnitSave d u.1 u.2)) (s.setDie d { s.die d with pre := some ⟨q, us⟩ })
def execSliceEnd (d : Nat) (s : State) : Host.Outcome State Fault Refusal := .next (s.sliceEnd d)
/-- PREEMPTION_UNIT_SAVE: a core issues no more, every unit saves at its stopping unit. -/
def State.preemptUnit (s : State) (d kind ix : Nat) : State :=
  match (s.die d).pre with
  | none => s
  | some y =>
    if y.left.contains (kind, ix) ∧ kind = 0 ∧ (s.core ix).part = y.part ∧ (s.core ix).endsCommand then s.schedule 1 (.preemptionUnitSave d kind ix) else
    let s := if y.left.contains (kind, ix) ∧ kind = 0 ∧ (s.core ix).part = y.part then s.setCore ix { s.core ix with stopped := true } else s
    if !y.left.contains (kind, ix) then s
    else if !s.stoppable y.part kind ix then s.schedule 16 (.preemptionUnitSave d kind ix)
    else
      let s := s.saveUnit y.part kind ix
      let left := y.left.filter (· != (kind, ix))
      let s := s.setDie d { s.die d with pre := some ⟨y.part, left⟩ }
      if left.isEmpty then s.schedule 1 (.preemptionComplete d) else s
def execPreemptionUnitSave (d kind ix : Nat) (s : State) : Host.Outcome State Fault Refusal := .next (s.preemptUnit d kind ix)
/-- PREEMPTION_COMPLETE: every unit has acknowledged; the next partition is pre-empted, or the incoming one is restored. -/
def State.preemptDone (s : State) (d : Nat) : State :=
  let x := s.die d
  match x.pre with
  | some ⟨q, []⟩ => (s.setDie d { x with pre := none, outs := if x.outs.contains q then x.outs else x.outs ++ [q] }).sliceEnd d
  | _ => s
def execPreemptionComplete (d : Nat) (s : State) : Host.Outcome State Fault Refusal := .next (s.preemptDone d)

/-! ### Teardown (R358) -/

/-- Tiles of a partition, on every die: freed with no abandon event (R182). -/
def State.freeTiles (s : State) (p : Nat) : State :=
  s.dies.foldl (fun (s : State) d => (d.2.tiles.filter fun t => t.2.part == p).foldl (fun (s : State) t => s.freeTile d.1 t.1) s) s
/-- Weight handles of a partition (R94). -/
def State.freeSlots (s : State) (p : Nat) : State :=
  (List.range 4).foldl (fun (s : State) e => ((s.flash e).slots.filter fun h => h.2.part == p).foldl (fun (s : State) h => s.freeSlot e h.1) s) s
/-- The array work of a partition's cores (R265). -/
def State.dropArray (s : State) (p : Nat) (e : Nat × Core) : State :=
  if e.2.part = p ∧ e.2.task.isSome then
    let s := s.dropMatrix e.1
    s.setCore e.1 (idleCore (s.core e.1))
  else s
/-- The partition whose teardown withdraws a request: a routing pass that runs ends with its requests answered (R269). -/
def State.reqPart (s : State) : Req → Option Nat
  | .hread _ p _ _ _ _ _ _ _ _ => some p
  | .hstat _ p _ _ => some p
  | .hrel _ p _ _ => some p
  | .bind _ p _ _ _ _ => some p
  | .land d ix => (tget (s.die d).tiles ix).map Tile.part
  | .capacity _ _ _ _ _ _ _ _ => none
  | .insert _ p _ _ _ => some p
  | .xrecv _ p _ _ => some p
/-- An array without the commands of a partition, `gone` those of the package, and their parts. -/
def Arr.without (a : Arr) (p : Nat) (gone : List Nat) : Arr :=
  { a with
    queue := a.queue.filter fun m => m.part != p
    part := a.part.filter fun x => !gone.contains x.2.1
    inbox := a.inbox.filter fun x => !gone.contains x.1 }
/-- The party of a record that a teardown leaves: none for a context of the partition. -/
def Party.kept (p : Nat) : Party → Bool
  | .core _ q => q != p
  | _ => true
/-- A TWR under way to a tile of the partition raises no fault when it finds it freed (R182). An attention block and a routing pass under way are
ended first, and then dropped (R269). DESIGN CHOICE: assumption 95. -/
def State.tearDown (s : State) (p : Nat) : State :=
  let s := s.quads.foldl (fun (s : State) (q : Nat × Quad) => (s.settleArr q.1).stopArr p q.1) s
  -- engine commands first, so that no array starts one again
  let gone := s.quads.flatMap fun (q : Nat × Quad) => (q.2.arr.queue.filter fun m => m.part == p).map (·.id)
  let s : State := { s with
    quads := s.quads.map fun (q : Nat × Quad) => (q.1, { q.2 with
      path := q.2.path.filter fun (w : PathStore) => !(w.part == p && w.tile.isSome)
      chans := q.2.chans.map fun (h : Nat × List CopyCmd) => (h.1, h.2.filter fun (m : CopyCmd) => m.part != p)
      arr := q.2.arr.without p gone })
    dies := s.dies.map fun (d : Nat × Die) => (d.1, { d.2 with
      att := (d.2.att.map fun (a : Nat × List AttCmd) => (a.1, a.2.filter fun (m : AttCmd) => m.part != p || (m.busy && m.held.isNone))).filter fun (a : Nat × List AttCmd) => !a.2.isEmpty
      rte := d.2.rte.filter fun (m : RteCmd) => m.part != p || (m.started && m.held.isNone)
      runs := d.2.runs.filter fun (m : PtrRun) => m.part != p
      treqs := d.2.treqs.filter fun (r : Nat × TReq × Nat × Option Nat) => r.2.2.1 != p
      wins := d.2.wins.filter fun (w : Nat × Window) => w.1 / 16 != p
      kvs := d.2.kvs.filter fun (g : Nat × KvGen) => g.1 / 16 != p
      ports := d.2.ports.filter fun (x : Nat × List Nat) => x.1 / 64 != p
      pool := (d.2.pool.map fun (l : Nat × List (Nat × Nat)) => (l.1, l.2.filter fun (r : Nat × Nat) => r.1 != p)).filter fun (l : Nat × List (Nat × Nat)) => !l.2.isEmpty
      saved := d.2.saved.filter fun (v : Saved) => v.part != p
      replay := d.2.replay.filter fun (a : Nat × Nat × Nat) => a.2.1 != p
      recs := d.2.recs.map fun (r : List Byte × Option Party) => (r.1, r.2.filter (Party.kept p))
      outs := d.2.outs.filter fun (q : Nat) => q != p
      pre := match d.2.pre with | some x => if x.part = p then some ⟨p, []⟩ else some x | none => none })
    reqs := s.reqs.filter fun (r : Nat × Req) => s.reqPart r.2 != some p
    parties := s.parties.filter fun (e : Nat × Party) => e.2.kept p
    launches := s.launches.filter fun (l : Nat × Launch) => l.2.part != p
    gens := s.gens.filter fun (g : Nat × W64) => g.1 / 32768 != p }
  let s := s.cores.foldl (fun (s : State) (e : Nat × Core) => s.dropArray p e) s
  let s := s.quads.foldl (fun (s : State) (q : Nat × Quad) => s.lookMatrix q.1) s
  let s := (s.freeTiles p).freeSlots p
  -- a withdrawn request blocks no other any more (R175, R182)
  let s := s.dies.foldl (fun (s : State) (d : Nat × Die) => if d.2.treqs.isEmpty then s else s.scheduleOnce 1 (.tallocGrant d.1)) s
  let s := s.dies.foldl (fun (s : State) (d : Nat × Die) => match d.2.pre with | some ⟨_, []⟩ => s.schedule 1 (.preemptionComplete d.1) | _ => s) s
  let x := s.part p
  let s := s.setPart p { x with
    pairs := [], tmpls := [], ring := [], late := [], groups := [], bars := [], podBars := [], podSeq := []
    kpart := x.kpend.foldl (fun t e => tput 0 t e.1 e.2) x.kpart, kpend := []
    sscfg := x.sspend.getD x.sscfg, sspend := none, ssCount := 0, ssExchange := false, ssArrived := 0, ssPodDone := false, deferred := false
    srseed := 0, dbl := x.dbl, halt := none, unitFault := [], pstate := 3 }
  let s := (x.pairs.foldl (fun (s : State) k => s.dropPair p k.2) s).podMissing
  (List.range 6).foldl State.kickDie s

/-- An engine of a torn-down partition is still in its last block or pass (R269, R358). -/
def State.lastBlocks (s : State) (p : Nat) : Bool :=
  s.dies.any fun d => (d.2.att.any fun a => a.2.any fun m => m.part == p) || d.2.rte.any fun m => m.part == p

end Sys2Proof.Machine
end

