-- ==== Sys2Proof/Machine/SysRegs.lean ====
section
/-! DEFINITION. Machine-state registers (R373 to R377): which numbers name one, what each reads and what a write does, and RDMS and WRMS. -/
namespace Sys2Proof.Machine

/-! ### Numbers (R377) -/

/-- A number that names a register. -/
def regAssigned (n : Nat) : Bool :=
  decide (n ≤ 0x00A) || (decide (0x010 ≤ n) && decide (n ≤ 0x027)) || (decide (0x030 ≤ n) && decide (n ≤ 0x034)) || (decide (0x040 ≤ n) && decide (n ≤ 0x136) && n != 0x137)
  || (decide (0x138 ≤ n) && decide (n < 0x168) && decide (n % 8 < 6)) || (decide (0x170 ≤ n) && decide (n ≤ 0x2FF))
/-- A number of a supervisor register. -/
def regSup (n : Nat) : Bool := decide (0x040 ≤ n)

/-- The reserved bits of a register, by number (R5). -/
def span (hi lo : Nat) : Nat := 2 ^ (hi + 1) - 2 ^ lo
def ctxctlRsv : Nat := span 63 12 + span 7 6
def ringRsv : Nat := span 11 5
def ssstatRsv : Nat := span 16 16
def famRsv (n : Nat) : Nat :=
  match n / 16 with
  | 0x04 => ctxctlRsv
  | 0x05 => span 3 1
  | 0x06 => span 63 4
  | 0x07 => span 63 20 + span 18 16
  | 0x08 => ssstatRsv
  | 0x09 => span 63 52 + span 11 2
  | 0x0A => span 19 1
  | 0x0B => span 63 13
  | 0x0C => ringRsv
  | 0x0D => span 63 17
  | 0x0E => ringRsv
  | 0x0F => 0
  | 0x10 => span 7 2
  | 0x11 => 0
  | 0x17 => span 19 1
  | _ => 0
/-- A word of MGEO with a reserved bit set is one that MCFG and WRMS refuse with an invalid-operand fault (R250), so it is none of these.
DEDUCED: assumption 96. -/
def regRsv (n : Nat) : Nat :=
  if n < 0x040 then
    (match n with
     | 0x000 => ctxctlRsv
     | 0x005 => ssstatRsv
     | 0x007 => span 63 8
     | 0x030 => span 63 19
     | 0x033 => span 63 1
     | _ => if 0x008 ≤ n ∧ n ≤ 0x00A then span 63 32 else if 0x010 ≤ n ∧ n ≤ 0x017 then span 63 32 else if 0x020 ≤ n ∧ n ≤ 0x027 then span 31 1 else 0)
  else if n < 0x120 then famRsv n
  else if n < 0x124 then span 63 20
  else if n < 0x128 then span 59 27
  else if n < 0x12C then 0
  else if n < 0x130 then span 59 3
  else if n < 0x132 then 0
  else if n = 0x132 then span 63 25
  else if n = 0x133 then span 23 5
  else if n = 0x134 then ringRsv
  else if n = 0x135 then 0
  else if n = 0x136 then span 63 33
  else if n < 0x140 then span 11 0
  else if n < 0x148 then span 63 52 + ringRsv
  else if n < 0x150 then 0
  else if n < 0x158 then span 63 40 + span 7 2 + span 0 0
  else if n < 0x160 then span 63 16
  else if n < 0x168 then 0
  else if n < 0x180 then famRsv n
  else if n < 0x1E0 then span 63 35
  else if n < 0x240 then span 63 48 + span 31 17
  else if n < 0x2A0 then span 31 16
  else span 63 21

/-! ### Reading -/

def w64 (n : Nat) : W64 := BitVec.ofNat 64 n
def Part.pstateWord (p : Part) : W64 := w64 (p.dbl.toNat * 8 + p.pstate)
def Part.slipPtr (p : Part) : W64 := w64 (p.slipTail.toNat * 2 ^ 40 + p.slipHead.toNat * 65536 + p.slipLost.toNat)
def Flash.stat (f : Flash) : W64 := w64 (f.lastOp * 2 ^ 60 + f.overrun.toNat * 4 + f.state)
def Die.freeqPtr (x : Die) : W64 := w64 (x.freeqTail.toNat * 2 ^ 32 + x.freeqHead.toNat)
def Die.hbmErr (x : Die) : W64 := w64 (x.errCorrected.toNat * 2 ^ 32 + x.errUncorrectable.toNat * 65536 + x.errRetired.toNat)
/-- KUSE.n (R173). -/
def State.kuse (s : State) (d p : Nat) : W64 :=
  let x := s.die d
  w64 (min 65535 (x.treqs.filter fun r => r.2.2.1 == p).length * 2 ^ 32 + x.used p)
/-- The value of a register as the issuing core reads it; WO fields read 0. DESIGN CHOICE: assumption 97. -/
def State.regRead (s : State) (n : Nat) : W64 :=
  let k := s.me
  let p := s.part (n % 16)
  let d := s.die (n % 8)
  if n < 0x040 then
    (match n with
     | 0x000 => k.ctxctl
     | 0x001 => (s.part s.myPart).srseed
     | 0x002 => k.mgeo
     | 0x003 => w64 (k.drainStall * 2 ^ 32 + k.leaseWait)
     | 0x004 => (s.part s.myPart).pubsel
     | 0x005 => (s.part s.myPart).ssstat
     | 0x006 => s.beacon
     | 0x007 => k.ccsat.zeroExtend 64
     | 0x030 => k.tcause
     | 0x031 => k.tinfo
     | 0x032 => k.tepc
     | 0x033 => w64 k.theld.toNat
     | 0x034 => k.tscr
     | _ =>
       if n ≤ 0x00A then (k.lcount (n - 8)).zeroExtend 64
       else if n ≤ 0x017 then (tgetD k.cc (n - 0x010) 0).zeroExtend 64
       else if n ≤ 0x01F then tgetD k.cfp (n - 0x018) 0
       else tgetD k.ccmp (n - 0x020) 0)
  else if n < 0x100 then
    (match n / 16 with
     | 0x04 => p.ctxctl
     | 0x05 => p.tvec
     | 0x06 => p.pstateWord
     | 0x07 => p.sscfg
     | 0x08 => p.ssstat
     | 0x09 => p.ttbase
     | 0x0A => p.ovf
     | 0x0B => w64 p.hquota
     | 0x0C => p.tring
     | 0x0D => w64 p.ring.length
     | 0x0E => p.slip
     | _ => p.slipPtr)
  else if n < 0x110 then s.healthWord (n - 0x100)
  else if n < 0x120 then tgetD s.hclass (n - 0x110) 0
  else if n < 0x124 then w64 (s.flash (n - 0x120)).rdthr
  else if n < 0x128 then 0
  else if n < 0x12C then (s.flash (n - 0x128)).arg
  else if n < 0x130 then (s.flash (n - 0x12C)).stat
  else if n < 0x132 then (s.die (n - 0x130)).ptrStat
  else if n = 0x132 then w64 (s.locked.toNat * 2 ^ 24 + s.frameTicks)
  else if n = 0x133 then s.svcfg
  else if n = 0x134 then s.svqBase
  else if n = 0x135 then w64 (s.svqTail.toNat * 2 ^ 32 + s.svqHead.toNat)
  else if n = 0x136 then 0
  else if n < 0x140 then d.frt
  else if n < 0x148 then d.freeqBase
  else if n < 0x150 then d.freeqPtr
  else if n < 0x158 then d.hbmpm
  else if n < 0x160 then d.srt
  else if n < 0x168 then d.hbmErr
  else if n < 0x180 then p.csave
  else if n < 0x1E0 then s.kpart ((n - 0x180) / 16) (n % 16)
  else if n < 0x240 then s.kuse ((n - 0x1E0) / 16) (n % 16)
  else if n < 0x2A0 then tgetD p.kabn ((n - 0x240) / 16) 0
  else tgetD s.slices (n - 0x2A0) 0

/-! ### Writes that act (R200, R97, R172, R293, R356) -/

/-- A write of v to register n: one with a reserved bit set leaves the register unchanged (R6). -/
def unlessRsv (n : Nat) (v : W64) (s t : State) : State := if v.toNat &&& regRsv n ≠ 0 then s else t

/-- SRSEED (R200): every generator of the partition is loaded with seed XOR g, or 1 for 0. -/
def loadGen (seed : W64) (g : Nat) : W64 := if seed ^^^ BitVec.ofNat 64 g = 0 then 1 else seed ^^^ BitVec.ofNat 64 g
def State.srseedSet (s : State) (p : Nat) (v : W64) : State :=
  let rest := s.gens.filter fun g => g.1 / 32768 != p
  let all := List.range (8 * 768 + 0) ++ (List.range 192).map (8192 + ·) ++ (List.range (8 * 192)).map (16384 + ·)
  let gens := if v = 0 then rest else all.foldl (fun (t : Tbl W64) g => tset t (genKey p g) (loadGen v g)) rest
  { s.setPart p { s.part p with srseed := v } with gens := gens }
def execSrseedWrite (p : Nat) (v : W64) (s : State) : Host.Outcome State Fault Refusal := .next (s.srseedSet p v)
/-- TTBASE.p (R97): the write acts as TLBI.part. -/
def State.ttbaseSet (s : State) (p : Nat) (v : W64) : State := (s.setPart p { s.part p with ttbase := v }).removeTlb (fun e => e.part == p) true
def execTtbaseWrite (p : Nat) (v : W64) (s : State) : Host.Outcome State Fault Refusal := .next (unlessRsv 0x090 v s (s.ttbaseSet p v))

/-- The guarantee that counts for a partition on a die: the pending one where there is one (R172). -/
def State.guaranteed (s : State) (d p : Nat) : Nat := guarantee (tgetD (s.part p).kpend d (s.kpart d p))
/-- KPART.n (R172); `none` where the value is refused. -/
def State.kpartSet (s : State) (n : Nat) (v : W64) : Option State :=
  let d := n / 16; let p := n % 16
  let others := ((List.range 16).filter (· != p)).foldl (fun a q => a + s.guaranteed d q) 0
  if ceiling v < guarantee v ∨ kennelUnits d < ceiling v ∨ kennelUnits d < others + guarantee v then none
  else
    let x := s.part p
    if x.ring.isEmpty && !s.dies.any fun e => e.2.tiles.any fun t => t.2.part == p then
      -- a request that the new value makes grantable is granted from the next clock (R175)
      some ((s.setPart p { x with kpart := tput 0 x.kpart d v, kpend := tdel x.kpend d }).scheduleOnce 1 (.tallocGrant d))
    else some (s.setPart p { x with kpend := tset x.kpend d v })
def execKpartWrite (n : Nat) (v : W64) (s : State) : Host.Outcome State Fault Refusal := .next (unlessRsv 0x180 v s ((s.kpartSet n v).getD s))

/-- SSCFG.p (R293). -/
def State.sscfgSet (s : State) (p : Nat) (v : W64) : State :=
  let x := s.part p
  if !x.ssExchange && x.ssArrived == 0 then s.setPart p { x with sscfg := v, sspend := none } else s.setPart p { x with sspend := some v }
def execSscfgWrite (p : Nat) (v : W64) (s : State) : Host.Outcome State Fault Refusal := .next (unlessRsv 0x070 v s (s.sscfgSet p v))

/-- SLICE.n (R356): a length below the bound is raised to it with a clamp entry; the first valid entry of a die begins its slices, and
a die with none has no slice (R343). -/
def State.sliceSet (s : State) (n : Nat) (v : W64) : State :=
  let d := n / 16
  let least := bits (s.die d).srt 15 0 + 8
  let short := sliceValid v && decide (bits v 15 0 < least)
  let v' := if short then w64 (bits v 63 16 * 65536 + least) else v
  let s := { s with slices := tput 0 s.slices n v' }
  let s := if short then s.slipWrite (bits v 20 17) (slipEntry 2 (bits v 20 17) (bits v 15 0) 0 s.beacon n) else s
  if s.sliceCount d = 0 then (if (s.die d).slice.isSome then s.endSlices d else s)
  else if (s.die d).slice.isNone then s.scheduleOnce 1 (.sliceEnd d) else s
def execSliceWrite (n : Nat) (v : W64) (s : State) : Host.Outcome State Fault Refusal := .next (unlessRsv 0x2A0 v s (s.sliceSet n v))

/-! ### Writing (R376) -/

def ctxctlOk (v : W64) : Bool := decide (1 ≤ bits v 10 8) && decide (bits v 10 8 ≤ 5) && decide (bits v 2 0 + bits v 5 3 ≤ 7)
/-- Keep the fields of `old` in the bits of a mask, take the rest from `new`. -/
def keep (mask : Nat) (old new : W64) : W64 := (old &&& BitVec.ofNat 64 mask) ||| (new &&& ~~~BitVec.ofNat 64 mask)
def lgIn (v : W64) (lo hi : Nat) : Bool := decide (lo ≤ bits v 4 0) && decide (bits v 4 0 ≤ hi)
def okIf (b : Bool) (s : State) : Res := if b then .ok s else fault invalidOperand
/-- A write to a register of the context. -/
def State.ownWrite (s : State) (n : Nat) (v : W64) : Res :=
  let k := s.me
  match n with
  | 0x000 => okIf (ctxctlOk v) (s.setMe { k with ctxctl := v })
  | 0x001 => .ok (s.srseedSet s.myPart v)
  | 0x002 => okIf (mgeoOk v) (s.setMe { k with mgeo := v })
  | 0x003 => .ok (s.setMe { k with drainStall := 0, leaseWait := 0 })
  | 0x007 => .ok (s.setMe { k with ccsat := k.ccsat &&& ~~~(v.setWidth 8) })
  | 0x034 => .ok (s.setMe { k with tscr := v })
  | _ =>
    if 0x008 ≤ n ∧ n ≤ 0x00A then .ok (s.setMe { k with lc := tput 0 k.lc (n - 8) (v.setWidth 32) })
    else if 0x010 ≤ n ∧ n ≤ 0x017 then .ok (s.setMe { k with cc := tput 0 k.cc (n - 0x010) (v.setWidth 32) })
    else .ok s
/-- A write to a register of partition n % 16. -/
def State.partWrite (s : State) (n : Nat) (v : W64) : Res :=
  let i := n % 16
  let p := s.part i
  match n / 16 with
  | 0x04 => okIf (ctxctlOk v) (s.setPart i { p with ctxctl := v })
  | 0x05 => .ok (s.setPart i { p with tvec := v })
  | 0x06 =>
    let s := if bit v 3 then s.setPart i { p with dbl := false } else s
    .ok (match bits v 2 0 with | 2 => s.pstateHalt i | 0 => s.pstateResume i | _ => s)
  | 0x07 => .ok (s.sscfgSet i v)
  | 0x09 => if s.waitsFor (s.pathOut s.cur || s.copiesOut s.cur) then .hold s else .ok ((s.ttbaseSet i v).stall 600)
  | 0x0A => .ok (s.setPart i { p with ovf := v })
  | 0x0B => okIf (decide (bits v 12 0 ≤ 4096)) (s.setPart i { p with hquota := bits v 12 0 })
  | 0x0C => okIf (lgIn v 6 16 && p.ring.isEmpty) (s.setPart i { p with tring := v })
  | 0x0E => okIf (lgIn v 4 12) (s.setPart i { p with slip := v })
  | 0x0F => .ok (s.setPart i { p with slipTail := v.extractLsb' 40 24, slipLost := p.slipLost &&& ~~~(v.setWidth 16) })
  | 0x17 => .ok (s.setPart i { p with csave := v })
  | _ => .ok s
/-- A write to a register of compute die n % 8. -/
def State.dieWrite (s : State) (n : Nat) (v : W64) : Res :=
  let i := n % 8
  let d := s.die i
  match n / 8 with
  | 0x27 => .ok (s.setDie i { d with frt := v })
  | 0x28 => okIf (lgIn v 9 20) (s.setDie i { d with freeqBase := v })
  | 0x29 =>
    let tail : BitVec 32 := v.extractLsb' 32 32
    okIf (decide ((tail - d.freeqHead).toNat ≤ 2 ^ bits d.freeqBase 4 0)) (s.setDie i { d with freeqTail := tail })
  | 0x2A => .ok (s.setDie i { d with hbmpm := v })
  | 0x2C => .ok (s.setDie i { d with errCorrected := d.errCorrected &&& ~~~(v.extractLsb' 32 32) })
  | _ => .ok s
/-- A write to a register of the flash layer, the Pointer, the Beacon or the supervisor queue. -/
def State.unitWrite (s : State) (n : Nat) (v : W64) : Res :=
  if n < 0x110 then .ok s
  else if n < 0x120 then
    let old := tgetD s.hclass (n - 0x110) 0
    .ok { s with hclass := tput 0 s.hclass (n - 0x110) (old &&& ~~~(v &&& BitVec.ofNat 64 (span 63 32))) }
  else if n < 0x124 then
    let e := n - 0x120
    okIf (decide (1000 ≤ bits v 19 0) && decide (bits v 19 0 ≤ 1000000)) (s.setFlash e { s.flash e with rdthr := bits v 19 0 })
  else if n < 0x128 then (match s.ftlCommand (n - 0x124) v with | some s => .ok s | none => fault invalidOperand)
  else if n < 0x12C then .ok (s.setFlash (n - 0x128) { s.flash (n - 0x128) with arg := v })
  else if n < 0x130 then .ok (if bit v 2 then s.setFlash (n - 0x12C) { s.flash (n - 0x12C) with overrun := false } else s)
  else if n < 0x132 then .ok (s.setDie (n - 0x130) { s.die (n - 0x130) with ptrStat := 0 })
  else if n = 0x132 then okIf (decide (1000 ≤ bits v 23 0)) { s with frameTicksNew := some (bits v 23 0) }
  else if n = 0x134 then okIf (lgIn v 6 14) { s with svqBase := v }
  else if n = 0x135 then .ok { s with svqTail := v.extractLsb' 32 32 }
  else if n = 0x136 then .ok (if bit v 32 then s.svackEnd (bits v 31 0) else s.svackRelease (bits v 31 0))
  else .ok s
/-- A write to an assigned register whose reserved bits are 0. DESIGN CHOICE: assumption 108. -/
def State.regWrite (s : State) (n : Nat) (v : W64) : Res :=
  if n < 0x040 then s.ownWrite n v
  else if n < 0x100 then s.partWrite n v
  else if n < 0x138 then s.unitWrite n v
  else if n < 0x170 then s.dieWrite n v
  else if n < 0x180 then s.partWrite n v
  else if n < 0x1E0 then (match s.kpartSet (n - 0x180) v with | some s => .ok s | none => fault invalidOperand)
  else if n < 0x240 then .ok s
  else if n < 0x2A0 then
    let p := s.part (n % 16); let d := (n - 0x240) / 16
    .ok (s.setPart (n % 16) { p with kabn := tput 0 p.kabn d (keep (span 63 32) (tgetD p.kabn d 0) 0) })
  else .ok (s.sliceSet (n - 0x2A0) v)

/-- RDMS (R376): latency 2. -/
def rdmsEffect (s : State) (d : Fin 64) (n : Fin 1024) : Res :=
  if !regAssigned n.val then fault illegalInstruction
  else if regSup n.val && n.val != 0x133 && !s.isSup then fault privilege
  else .ok (s.pushS 0 2 d.val (s.regRead n.val))
def execRdms (st : Fin 8) (d : Fin 64) (n : Fin 1024) (s : State) := meaning (.rdms st d n) 0 s (rdmsEffect s d n)
/-- WRMS (R376). -/
def wrmsEffect (s : State) (a : Fin 64) (n : Fin 1024) : Res :=
  let v := s.me.sreg a.val
  if !regAssigned n.val then fault illegalInstruction
  else if regSup n.val && !s.isSup then fault privilege
  else if v.toNat &&& regRsv n.val ≠ 0 then fault illegalInstruction
  else s.regWrite n.val v
def execWrms (st : Fin 8) (a : Fin 64) (n : Fin 1024) (s : State) := meaning (.wrms st a n) 0 s (wrmsEffect s a n)

end Sys2Proof.Machine
end

