-- ==== Sys2Proof/Machine/Hash.lean ====
section
/-! DEFINITION. SHA-256 (FIPS 180-4), which R409, R411 and R412 name, from its definition: its constants are roots of primes. -/
namespace Sys2Proof.Machine

/-- The largest r below 2^bits + r₀ with r^k ≤ n, by its bits from the top. -/
def rootBits (k n : Nat) : Nat → Nat → Nat
  | 0, r => r
  | b + 1, r => rootBits k n b (if (r + 2 ^ b) ^ k ≤ n then r + 2 ^ b else r)
/-- The first 32 bits of the fraction of the k-th root of p. -/
def rootFraction (k p : Nat) : W32 := BitVec.ofNat 32 (rootBits k (p * 2 ^ (32 * k)) 37 0)
/-- The primes below 312: there are 64. -/
def shaPrimes : List Nat := (List.range 312).filter fun n => decide (2 ≤ n) && (List.range 18).all fun d => decide (d < 2) || decide (n ≤ d) || n % d != 0
/-- The round constants, and the first hash value. -/
def shaRoundKeys : List W32 := shaPrimes.map (rootFraction 3)
def shaStart : List W32 := (shaPrimes.take 8).map (rootFraction 2)

/-- The exclusive or of a word rotated right by several amounts. -/
def rotations (x : W32) (rs : List Nat) : W32 := rs.foldl (fun a r => a ^^^ x.rotateRight r) 0
/-- The eight working variables. -/
structure ShaVars where
  a : W32
  b : W32
  c : W32
  d : W32
  e : W32
  f : W32
  g : W32
  h : W32
def ShaVars.ofList (l : List W32) : ShaVars := ⟨l.getD 0 0, l.getD 1 0, l.getD 2 0, l.getD 3 0, l.getD 4 0, l.getD 5 0, l.getD 6 0, l.getD 7 0⟩
/-- The variables added to a hash value. -/
def ShaVars.onto (x : ShaVars) (l : List W32) : List W32 := List.zipWith (· + ·) l [x.a, x.b, x.c, x.d, x.e, x.f, x.g, x.h]
/-- One round, with the sum of its constant and its schedule word. -/
def ShaVars.round (x : ShaVars) (kw : W32) : ShaVars :=
  let add := x.h + kw + rotations x.e [6, 11, 25] + (x.g ^^^ (x.e &&& (x.f ^^^ x.g)))
  { x with
    a := add + rotations x.a [2, 13, 22] + ((x.a &&& (x.b ||| x.c)) ||| (x.b &&& x.c))
    b := x.a, c := x.b, d := x.c, e := x.d + add, f := x.e, g := x.f, h := x.g }
/-- The schedule word that follows the sixteen of a window, the oldest first. -/
def scheduleWord (win : List W32) : W32 :=
  let near := win.getD 1 0; let far := win.getD 14 0
  win.getD 0 0 + win.getD 9 0 + (rotations near [7, 18] ^^^ near >>> 3) + (rotations far [17, 19] ^^^ far >>> 10)
/-- The rounds of a block: the window moves on by one word with each. -/
def compress (keys : List W32) (win : List W32) (x : ShaVars) : ShaVars :=
  (keys.foldl (fun (z : List W32 × ShaVars) k => (z.1.tail ++ [scheduleWord z.1], z.2.round (k + z.1.headD 0))) (win, x)).2
/-- A number as bytes, the highest first. -/
def beBytes (n v : Nat) : List Byte := (leBytes n v).reverse
/-- The words of a block, each with its highest byte first. -/
def blockWords (b : List Byte) : List W32 := (List.range 16).map fun i => BitVec.ofNat 32 (leNat ((b.drop (4 * i)).take 4).reverse)
/-- A message is followed by a one bit, zeros up to 8 bytes before a block's end, and its length in bits. -/
def padded (m : List Byte) : List Byte := m ++ 0x80 :: List.replicate ((119 - m.length % 64) % 64) 0 ++ beBytes 8 (8 * m.length)
def sha256 (m : List Byte) : List Byte :=
  let msg := padded m
  let out := (List.range (msg.length / 64)).foldl (fun h i => (compress shaRoundKeys (blockWords (msg.drop (64 * i))) (.ofList h)).onto h) shaStart
  out.flatMap fun w => beBytes 4 w.toNat

end Sys2Proof.Machine
end

