-- ==== Sys2Proof/Machine/Launch.lean ====
section
/-! DEFINITION. Launch packets (R335 to R338, R358, R382, R412) and the launch window (R397). The packet at the head of the queue is taken;
an event that finds no packet of its kind there changes nothing. -/
namespace Sys2Proof.Machine

/-! ### The fields of a packet (R336) -/

def pkKind (b : List Byte) : Nat := field b 0 1
def pkPart (b : List Byte) : Nat := field b 1 1
def pkDie (b : List Byte) : Nat := field b 2 1
def pkGroup (b : List Byte) : Nat := field b 3 1
def pkBar (b : List Byte) : Nat := field b 4 4
def pkAddr (b : List Byte) : Nat := field b 8 8
def pkCount (b : List Byte) : Nat := field b 16 4
def pkMembers (b : List Byte) : Nat := field b 20 2
def pkFlags (b : List Byte) : Nat := field b 22 2
def pkStart (b : List Byte) : W64 := w64 (field b 24 8)
def pkStatus (b : List Byte) : W64 := w64 (field b 32 8)
/-- A packet that sets no reserved field and keeps the limits of R336. -/
def packetOk (b : List Byte) : Bool :=
  let k := pkKind b
  decide (1 ≤ k) && decide (k ≤ 4) && decide (pkPart b ≤ 15) && zeros b 40 24 && decide (pkFlags b ≤ 1) && field b 32 8 % 32 == 0
  && (if k = 2 then decide (pkDie b ≤ 5) && pkAddr b % 32 == 0 && decide (1 ≤ pkCount b) && decide (pkCount b ≤ 65536)
      else pkDie b == 0 && pkCount b == 0 && (k != 3 || decide (pkAddr b < 65536)) && (k != 4 || pkAddr b == 0))

/-! ### Status (R337) -/

/-- What the device writes of a packet: state, accepted, refused, first refused, code. -/
structure Verdict where
  state : Nat
  accepted : Nat
  refused : Nat
  first : Nat
  code : Nat
  deriving DecidableEq, Repr
def noFirst : Nat := 0xFFFFFFFF
def verdictDone : Verdict := ⟨1, 0, 0, noFirst, 0⟩
/-- DEDUCED: assumption 119. -/
def verdictRefused (code : Nat) : Verdict := ⟨2, 0, 0, noFirst, code⟩
def Verdict.bytes (v : Verdict) : List Byte :=
  leBytes 4 v.state ++ leBytes 4 v.accepted ++ leBytes 4 v.refused ++ leBytes 4 v.first ++ leBytes 1 v.code ++ List.replicate 15 0
/-- The packet's status is written and the next packet is taken. -/
def State.packetEnd (s : State) (b : List Byte) (v : Verdict) : State :=
  let s := if pkPart b ≤ 15 then s.statusWrite (pkPart b) (pkStatus b) 0 v.bytes else s
  let rest := s.packets.tail
  let s := { s with packets := rest }
  match rest with
  | [] => s
  | c :: _ => s.schedule 1 (packetEvent c)

/-! ### What every packet that is not refused whole does -/

/-- Group g of a partition has arrivals recorded, on a die, in the package or in the pod (R337). DEDUCED: assumption 121. -/
def Part.groupBusy (p : Part) (g : Nat) : Bool :=
  p.bars.any (fun e => decide (3 * 2 ^ 20 ≤ e.1) && e.1 % 256 == g) || p.podBars.any fun e => e.1 % 1024 == 512 + g
/-- bar_count sizes the group, members and pod are written to SSCFG (R293). DEDUCED: assumption 120. -/
def State.packetSets (s : State) (b : List Byte) : State :=
  let p := pkPart b
  let x := s.part p
  let s := if pkBar b = 0 then s else s.setPart p { x with groups := tset x.groups (pkGroup b) (pkBar b) }
  if pkMembers b = 0 then s else s.sscfgSet p (w64 (pkMembers b + 2 ^ 19 * (pkFlags b % 2)))
/-- A torn-down partition runs again: it is created, and its open frame is the Beacon's (R354, R382). -/
def State.create (s : State) (p : Nat) : State :=
  let x := s.part p
  if x.pstate = 3 then s.setPart p { x with pstate := 0, openFrame := s.frame } else s
/-- The packet at the head of the queue, if an event is its own. -/
def State.headPacket (s : State) (ev : Instr) : Option (List Byte) :=
  match s.packets with
  | b :: _ => if packetEvent b = ev then some b else none
  | [] => none
/-- The refusals that hold for every kind: malformed, then a group with arrivals. -/
def State.packetBad (s : State) (b : List Byte) : Option Verdict :=
  if !packetOk b then some (verdictRefused 1)
  else if pkBar b ≠ 0 ∧ (s.part (pkPart b)).groupBusy (pkGroup b) then some (verdictRefused 8)
  else none

/-! ### Kinds 1 and 3: templates (R335) -/

def Part.tmplBusy (p : Part) (id : Nat) : Bool := p.ring.any fun e => e.2.task.tmpl == id
/-- The bytes of an image: from its header to the end of its tables. PRESUMED: assumption 118. -/
def imageLength (h : List Byte) : Nat := max (max 32 (field h 8 4 + 64 * field h 2 2)) (field h 12 4 + 32 * field h 4 4)
/-- A template installed in the supervisor partition extends the measurement (R412). -/
def State.measureImage (s : State) (p va : Nat) : Eng Unit :=
  if p ≠ s.svPart || !s.svValid then .ok s ()
  else Eng.orElse ((s.imageRead 0 p va 32).andThen fun s h => (s.imageRead 0 p va (imageLength h)).andThen fun s b =>
    .ok { s with measure := sha256 (s.measure ++ sha256 b) } ()) ()
/-- What a packet does whose template is installed or removed. -/
def State.packetActs (s : State) (b : List Byte) : Eng Verdict := .ok ((s.packetSets b).create (pkPart b)) verdictDone
def State.install (s : State) (b : List Byte) : Eng Verdict :=
  let p := pkPart b
  (s.checkImage p (pkAddr b)).andThen fun s id =>
  match id with
  | none => .ok s (verdictRefused 2)
  | some id =>
    let x := s.part p
    let known := x.tmpls.any fun t => t.1 == id
    if known && x.tmplBusy id then .ok s (verdictRefused 4)
    else if !known && decide (256 ≤ x.tmpls.length) then .ok s (verdictRefused 3)
    else
      let s := s.setPart p { x with tmpls := (x.tmpls.filter fun t => t.1 != id) ++ [(id, w64 (pkAddr b))] }
      (s.measureImage p (pkAddr b)).andThen fun s _ => s.packetActs b
def State.remove (s : State) (b : List Byte) : Eng Verdict :=
  let p := pkPart b
  let x := s.part p
  let id := pkAddr b
  if !(x.tmpls.any fun t => t.1 == id) then .ok s (verdictRefused 5)
  else if x.tmplBusy id then .ok s (verdictRefused 4)
  else (s.setPart p { x with tmpls := x.tmpls.filter fun t => t.1 != id }).packetActs b

/-! ### Kind 2: tasks (R337, R338) -/

/-- Check and insert record i; the refusal code, 0 for none. -/
def State.launchRecord (s : State) (b : List Byte) (launch i : Nat) : Eng Nat :=
  let p := pkPart b
  Eng.orElse ((s.imageRead (pkDie b) p (pkAddr b + 32 * i) 32).andThen fun s r => (s.checkRecord p (pkDie b) r).andThen fun s n =>
    match n with
    | .error c => .ok s c
    | .ok n => (s.insertTask p (pkDie b) r n (pkStart b) (some launch)).andThen fun s done => .ok s (if done then 0 else 6)) 5
/-- What record i adds to a verdict. -/
def Verdict.add (v : Verdict) (i c : Nat) : Verdict :=
  if c = 0 then { v with accepted := v.accepted + 1 }
  else if v.refused = 0 then { v with refused := 1, first := i, code := c }
  else { v with refused := v.refused + 1 }
/-- The records from number i on. -/
def State.launchRecords (s : State) (b : List Byte) (launch : Nat) : Nat → Nat → Verdict → Eng Verdict
  | 0, _, v => .ok s v
  | n + 1, i, v => (s.launchRecord b launch i).andThen fun s c => s.launchRecords b launch n (i + 1) (v.add i c)
def State.launch (s : State) (b : List Byte) : Eng Verdict :=
  let p := pkPart b
  let s := (s.packetSets b).create p
  let id := s.nextId
  let s := { s with nextId := id + 1, launches := tset s.launches id ⟨p, pkStatus b, 0, 0, noFirst, 0, 0, 0⟩ }
  (s.launchRecords b id (pkCount b) 0 verdictDone).andThen fun s v =>
    .ok { s with launches := (if v.accepted = 0 then tdel s.launches id
      else tset s.launches id ⟨p, pkStatus b, v.accepted, v.refused, v.first, v.code, 0, 0⟩) } v

/-! ### The events -/

/-- Take the head packet by an action that answers its verdict; one that meets a page under migration waits, and acts whole (R118). -/
def State.takePacket (s : State) (ev : Instr) (f : State → List Byte → Eng Verdict) : State :=
  match s.headPacket ev with
  | none => s
  | some b => match s.packetBad b with
    | some v => s.packetEnd b v
    | none => match f s b with
      | .ok t v => t.packetEnd b v
      | .stop _ _ => s.schedule 64 ev
/-- INSTALL_TEMPLATE (R335). -/
def execInstallTemplate (s : State) : Host.Outcome State Fault Refusal := .next (s.takePacket .installTemplate State.install)
/-- LAUNCH_TASKS (R337); a reserved kind is malformed. -/
def execLaunchTasks (s : State) : Host.Outcome State Fault Refusal := .next (s.takePacket .launchTasks State.launch)
/-- REMOVE_TEMPLATE (R335). -/
def execRemoveTemplate (s : State) : Host.Outcome State Fault Refusal := .next (s.takePacket .removeTemplate State.remove)
/-- The head packet tears its partition down; it ends, with its status, when the last block or pass of an engine has stopped (R269, R358). -/
def State.tearPacket (s : State) : State :=
  match s.headPacket .tearDownPartition with
  | none => s
  | some b => match s.packetBad b with
    | some v => s.packetEnd b v
    | none =>
      let p := pkPart b
      let t := if (s.part p).pstate = 3 ∧ s.lastBlocks p then s else (s.packetSets b).tearDown p
      if t.lastBlocks p then t.schedule 16 .tearDownPartition else t.packetEnd b verdictDone
/-- TEAR_DOWN_PARTITION (R358). -/
def execTearDownPartition (s : State) : Host.Outcome State Fault Refusal := .next s.tearPacket
/-- LAUNCH_WINDOW_WRITE (R397): a write of the host at an offset of BAR 0, in the launch window or at another of the block's registers (R395).
DESIGN CHOICE: assumption 170. -/
def execLaunchWindowWrite (off : Nat) (data : List Byte) (s : State) : Host.Outcome State Fault Refusal := .next (s.hostWrite off data)

end Sys2Proof.Machine
end

