-- ==== Sys2Proof/Machine/Mailbox.lean ====
section
/-! DEFINITION. The mailbox and its commands (R404, R405, R408 to R412), the host's memory accesses (R398), the Ultra Ethernet port (R406)
and the Keeper (R402, R403). -/
namespace Sys2Proof.Machine

/-! ### The host's accesses -/

/-- DEDUCED: assumption 113. -/
def hbmBytes : Nat := 2 ^ 40
/-- HOST_MEM_WRITE (R394, R398): the HDM decoder covers the HBM; a byte past its end has no home. -/
def execHostMemWrite (a : Nat) (data : List Byte) (s : State) : Host.Outcome State Fault Refusal :=
  .next (if a < hbmBytes then { s with mem := memWrite s.mem a (data.take (hbmBytes - a)) } else s)
/-- HOST_MEM_READ (R398): the bytes that the host gets; bytes of an uncorrectable word (R119), and any while the package is not
ready, are unspecified. DESIGN CHOICE: assumption 112. -/
def State.hostByte (s : State) (a : Nat) : Byte :=
  if !s.ready || decide (hbmBytes ≤ a) || s.badWords.any (fun w => decide (w ≤ a) && decide (a < w + 32)) then Config.freeByte s.fresh a
  else tgetD s.mem a 0
def execHostMemRead (a n : Nat) (s : State) : Host.Outcome State Fault Refusal :=
  .next { s with hostRead := (List.range n).map fun i => s.hostByte (a + i), fresh := s.fresh + 1 }
/-- POOLBASE_WRITE (R399). -/
def execPoolbaseWrite (v : W64) (s : State) : Host.Outcome State Fault Refusal := .next (s.poolbaseSet v)
/-- KEEPCFG_WRITE (R403). -/
def execKeepcfgWrite (v : W64) (s : State) : Host.Outcome State Fault Refusal := .next (s.keepcfgSet v)

/-! ### The Keeper (R402) -/

/-- A demand above the floor, both in 1/19,200 A. -/
def above (d f : Nat) : Nat := 19200 * d - f
/-- What a window grants quad q, as a fraction (numerator, denominator) of amperes: its demand up to the floor, and its share of the rest in
proportion to what it asks above the floor. A die that waits on retraining gets floors only (R122). DESIGN CHOICE: assumption 122. -/
def keeperGrant (f rest ask d : Nat) (floorsOnly : Bool) : Nat × Nat :=
  let base := min (19200 * d) f
  if floorsOnly || ask = 0 then (base, 19200)
  else (base * ask + min (above d f * ask) (rest * above d f), 19200 * ask)
/-- KEEPER_WINDOW (R402, R403): demands are free values, since the spec gives no figure for a command's current. -/
def State.keeper (s : State) : State :=
  let cfg := s.keepNext.getD s.keepcfg
  let limit := bits cfg 28 16; let f := limit * bits cfg 15 8
  let ds := (List.range 192).map (Config.quadDemand s.fresh)
  let waits := fun q => match tget s.grants (dieOfQuad q) with | some g => decide (s.clk < g.2) | none => false
  let pairs := ds.zip (List.range 192)
  let used := pairs.foldl (fun n e => n + min (19200 * e.1) f) 0
  let ask := pairs.foldl (fun n e => if waits e.2 then n else n + above e.1 f) 0
  let rest := 19200 * limit - used
  let gs := pairs.map fun e => (e.2, keeperGrant f rest ask e.1 (waits e.2))
  let short := (gs.zip ds).any fun e => decide (e.1.2.1 < e.2 * e.1.2.2)
  let more := fun (v : W32) => if v = 0xFFFFFFFF then v else v + 1
  { s with
    fresh := s.fresh + 1, keepcfg := cfg, keepNext := none, granted := gs, demand := pairs.map fun e => (e.2, e.1)
    windows := more s.windows, throttled := if short then more s.throttled else s.throttled }
def execKeeperWindow (s : State) : Host.Outcome State Fault Refusal :=
  .next (if s.ready then s.keeper.scheduleOnce 1880 .keeperWindow else s)

/-! ### The mailbox (R404) -/

/-- A command of the mailbox ends. -/
def State.mboxEnd (s : State) (state : Nat) (detail : Nat) : State := { s with mboxState := state, mboxDetail := BitVec.ofNat 32 detail }
/-- A command of the mailbox acts: the one that its write has made busy, or one that comes as an event of its own and meets the checks of the write; one
that comes while another is busy is discarded (R404). It waits while a page that it names is under migration (R118). -/
def State.command (s : State) (op : Nat) (ev : Instr) (f : State → Eng Unit) : State :=
  let run (s : State) : State := match f s with
    | .ok s _ => s
    | .stop s _ => { s with mboxNext := some ev }.schedule 64 ev
  if s.mboxState = 1 then (if s.mboxNext = some ev then run { s with mboxNext := none } else { s with mboxOverrun := true })
  else if !s.ready && !(op == 4 && s.devError == 1) then s
  else run { s with mboxOp := op, mboxState := 1, mboxDetail := 0 }
/-- A place in HBM, where the addresses of a command map (R404). -/
def Place.isHbm : Place → Bool
  | .phys pa => decide (pa < hbmBytes)
  | _ => false
/-- Bytes of HBM at an address in the supervisor's view of memory; nothing where they do not map to HBM. DEDUCED: assumption 115. -/
def State.mboxRead (s : State) (va : W64) (n : Nat) : Eng (Option (List Byte)) :=
  ((s.engPieces (schedCtx 0 s.svPart) {} (.src false) (cuts va.toNat n)).andThen fun s ps =>
    .ok s (if ps.all fun p => p.2.2.isHbm then some (ps.flatMap (·.1)) else none)).orElse none
/-- Go on with the bytes of an argument; without them the command fails with detail 1. -/
def State.withArg (e : Eng (Option (List Byte))) (f : State → List Byte → Eng Unit) : Eng Unit :=
  e.andThen fun s b => match b with
    | none => .ok (s.mboxEnd 3 1) ()
    | some b => f s b

/-- POD (R405). DESIGN CHOICE: assumption 116. -/
def State.podSet (s : State) (a0 a1 a2 a3 : W64) : Eng Unit :=
  if a1 = 0 ∨ 64 < a1.toNat ∨ a1.toNat ≤ a2.toNat ∨ 127 < a3.toNat then .ok (s.mboxEnd 3 1) ()
  else if s.parts.any fun e => bit e.2.sscfg 19 then .ok (s.mboxEnd 3 2) ()
  else State.withArg (s.mboxRead a0 (16 * a1.toNat)) fun s t =>
    .ok ({ s with podSize := a1.toNat, podIndex := a2.toNat, podTable := t, podDomain := a3.toNat, locked := false }.podMissing.mboxEnd 2 0) ()
def execPod (a0 a1 a2 a3 : W64) (s : State) : Host.Outcome State Fault Refusal :=
  .next (s.command 1 (.pod a0 a1 a2 a3) fun s => s.podSet a0 a1 a2 a3)

/-! ### Firmware and attestation (R411, R412) -/

/-- The image that a flash slot of the controller holds. DESIGN CHOICE: assumption 2. -/
def State.fwImage (s : State) (k : Nat) : List Byte := (tget s.fwSlots k).getD (Config.factoryImage k)
def State.fwValid (s : State) (k : Nat) : Bool :=
  Config.firmwareSigned (s.fwImage k) && decide (s.fwLowest.toNat ≤ (Config.firmwareVersion (s.fwImage k)).toNat)
/-- The bytes of an image to stage: before ready no partition has tables, and the address is a physical one. DESIGN CHOICE: assumption 114. -/
def State.stageRead (s : State) (a0 : W64) (n : Nat) : Eng (Option (List Byte)) :=
  if s.ready then s.mboxRead a0 n
  else .ok s (if a0.toNat + n ≤ hbmBytes then some (memRead s.mem a0.toNat n) else none)
/-- FWSTAGE (R411). -/
def State.fwStage (s : State) (a0 a1 : W64) : Eng Unit :=
  if 2 ^ 26 < a1.toNat then .ok (s.mboxEnd 3 1) ()
  else State.withArg (s.stageRead a0 a1.toNat) fun s b =>
    .ok (if !Config.firmwareSigned b then s.mboxEnd 3 2
      else if (Config.firmwareVersion b).toNat < s.fwLowest.toNat then s.mboxEnd 3 3
      else { s with fwSlots := tset s.fwSlots (1 - s.fwActive) b, fwStaged := true }.mboxEnd 2 0) ()
def execFwstage (a0 a1 : W64) (s : State) : Host.Outcome State Fault Refusal :=
  .next (s.command 4 (.fwstage a0 a1) fun s => s.fwStage a0 a1)

/-- The signed bytes of a report. -/
def State.reportBytes (s : State) (nonce : List Byte) : List Byte :=
  let fw := s.fwImage s.fwActive
  leBytes 4 0x54535441 ++ leBytes 4 1 ++ nonce ++ leBytes 16 Config.deviceSerial.toNat ++ sha256 fw ++ s.measure
  ++ leBytes 8 (Config.firmwareVersion fw).toNat ++ leBytes 8 s.beacon.toNat ++ List.replicate 120 0
/-- A report with its signature and the certificate chain of the key. -/
def State.reportAll (s : State) (nonce : List Byte) : List Byte :=
  let r := s.reportBytes nonce
  r ++ (List.range 384).map (Config.attestSignature r) ++ (List.range (min Config.certChainLength 3456)).map Config.certChain
/-- ATTEST (R412): the buffer lies in HBM (R404). -/
def State.attestTo (s : State) (a0 a1 : W64) : Eng Unit :=
  State.withArg (s.mboxRead a0 32) fun s nonce =>
    let out := s.reportAll nonce
    match s.engPlaces (schedCtx 0 s.svPart) (.dst false) (byteCuts a1.toNat out) with
    | .stop s .wait => .stop s .wait
    | .stop s _ => .ok (s.mboxEnd 3 1) ()
    | .ok s ps =>
      .ok (if ps.all fun p => p.2.1.isHbm then (s.engPut (schedCtx 0 s.svPart) 17 {} ps).mboxEnd 2 out.length else s.mboxEnd 3 1) ()
def execAttest (a0 a1 : W64) (s : State) : Host.Outcome State Fault Refusal :=
  .next (s.command 3 (.attest a0 a1) fun s => s.attestTo a0 a1)

/-! ### Weight loading (R409, R410) -/

def pageBytes : Nat := 16384
def loadCtx (s : State) (ed : Nat) : Ctx := schedCtx (2 + ed) s.svPart
/-- Whether a range of virtual memory lies in HBM of an ED, page by page; nothing yet while a page of it is under migration. -/
def State.inHbmOf (s : State) (ed va : Nat) (pages : Nat) : Option Bool :=
  let ts := (List.range (4 * pages + 1)).map fun i =>
    (s.engineTranslate (loadCtx s ed) (.dst false) (w64 (min (va + 4096 * i) (va + 4 * 4096 * pages - 1)))).2
  if ts.any fun t => t == .migrating then none
  else some (ts.all fun t => match t with
    | .at_ (.phys pa) _ => decide (pa < hbmBytes) && hbmDie pa == 2 + ed
    | _ => false)
/-- Whether a package passes a load on: to the package of the next index (R409). -/
def State.passesOn (s : State) (l : Load) : Bool := l.forward && decide (s.podSize ≠ 0) && decide (s.podIndex + 1 < s.podSize)
/-- A load begins; a package that passes it on says so to the next. DESIGN CHOICE: assumption 117. -/
def State.loadBegin (s : State) (l : Load) : State :=
  { s with loadw := some l, loadDone := []
           portOut := if s.passesOn l then [.load l.ed l.first l.pages (l.relay.getD s.podIndex) l.digest] else [] }
/-- LOADW: the command is taken, once no load that another package passes on is under way; its pages arrive as chunks. DESIGN CHOICE: assumption 117. -/
def State.loadStart (s : State) (a0 a1 a2 a3 a4 a5 : W64) : Eng Unit :=
  let n := a3.toNat
  let toHbm := bit a5 0
  if 3 < a1.toNat ∨ n = 0 ∨ 2 ^ 26 < n ∨ 3 < a5.toNat then .ok (s.mboxEnd 3 1) ()
  else if !toHbm && decide (lastPage + 1 < a2.toNat + n) then .ok (s.mboxEnd 3 1) ()
  else if s.loadw.isSome then .stop s .wait
  else State.withArg (s.mboxRead a0 32) fun s _ => State.withArg (s.mboxRead a4 32) fun s digest =>
    let go := .ok (s.loadBegin ⟨a1.toNat, a2.toNat, n, toHbm, bit a5 1 && !toHbm, digest, [], [], 0, false, none⟩) ()
    if toHbm then (match s.inHbmOf a1.toNat a2.toNat n with
      | none => .stop s .wait
      | some false => .ok (s.mboxEnd 3 1) ()
      | some true => go)
    else go
def execLoadw (a0 a1 a2 a3 a4 a5 : W64) (s : State) : Host.Outcome State Fault Refusal :=
  .next (s.command 2 (.loadw a0 a1 a2 a3 a4 a5) fun s => s.loadStart a0 a1 a2 a3 a4 a5)

/-- A load fails: its new blocks are free again. One that another package has passed on ends no command here. -/
def State.loadFail (s : State) (l : Load) (detail : Nat) : State :=
  let s := { l.blocks.foldl (fun (s : State) b => s.giveBack l.ed b) s with loadw := none, loadDone := [] }
  if l.relay.isSome then s else s.mboxEnd 3 detail
/-- Write page i of a load: to HBM, unless it is under migration, or into a free block. -/
def State.loadPage (s : State) (l : Load) : Eng Unit :=
  let i := l.written
  let l' := { l with written := i + 1 }
  if l.toHbm then
    match s.engWrites (loadCtx s l.ed) 17 false {} [(l.first + pageBytes * i, (l.got.drop (pageBytes * i)).take pageBytes)] with
    | .ok s _ => .ok { s with loadw := some l' } ()
    | .stop s .wait => .stop s .wait
    | .stop s _ => .ok (s.loadFail l 4) ()
  else if i % 256 = 0 then
    match s.takeSpare l.ed 4 false with
    | (s, none) => .ok (s.loadFail l 3) ()
    | (s, some b) => .ok { s with loadw := some { l' with blocks := l.blocks ++ [b] } } ()
  else .ok { s with loadw := some l' } ()
/-- Write the whole pages that have arrived, in ascending order. -/
def State.loadPages (s : State) : Nat → State
  | 0 => s
  | n + 1 => match s.loadw with
    | none => s
    | some l =>
      if l.written < l.pages ∧ pageBytes * (l.written + 1) ≤ l.got.length then
        (match s.loadPage l with
         | .ok s _ => s.loadPages n
         | .stop s _ => s.scheduleOnce 64 .loadwSwitch)
      else s
/-- The first chunk of a load that another package passes on: the ED, the first page, the pages, the issuer and the digest. DESIGN CHOICE: assumption 117. -/
def State.relayStart (s : State) (b : List Byte) : State :=
  let ed := field b 0 8; let first := field b 8 8; let n := field b 16 8
  if s.podSize = 0 ∨ s.podIndex = 0 ∨ b.length ≠ 64 ∨ 3 < ed ∨ n = 0 ∨ lastPage + 1 < first + n then s
  else s.loadBegin ⟨ed, first, n, false, true, b.drop 32, [], [], 0, false, some (field b 24 8)⟩
/-- WEIGHT_CHUNK: the next bytes of the object; an empty chunk is the storage's error. A page that is whole is passed on and written (R409). -/
def State.chunk (s : State) (data : List Byte) : State :=
  match s.loadw with
  | none => s.relayStart data
  | some l =>
    if l.switched || decide (l.pages * pageBytes ≤ l.got.length) then s
    else if data.isEmpty then s.loadFail l 4
    else
      let got := (l.got ++ data).take (l.pages * pageBytes)
      let whole := (List.range (got.length / pageBytes - l.got.length / pageBytes)).map (l.got.length / pageBytes + ·)
      let out := if s.passesOn l then whole.map fun i => PortMsg.page i ((got.drop (pageBytes * i)).take pageBytes) else []
      let s := { s with loadw := some { l with got := got }, portOut := out }.loadPages (data.length / pageBytes + 2)
      match s.loadw with
      | none => s
      | some m => if m.written = m.pages then s.scheduleOnce 1 .loadwSwitch else s
def execWeightChunk (data : List Byte) (s : State) : Host.Outcome State Fault Refusal := .next (s.chunk data)

/-- The packages that a load's command waits for: the pod's when it forwards, else its own. -/
def State.loadChain (s : State) (l : Load) : List Nat := if l.forward ∧ s.podSize ≠ 0 then List.range s.podSize else [s.podIndex]
/-- A package of the chain reports done to the one that issued the command; the last report ends it. -/
def State.report (s : State) (pkg : Nat) : State :=
  match s.loadw with
  | none => s
  | some l =>
    if l.relay.isSome then s
    else
      let s := { s with loadDone := if s.loadDone.contains pkg then s.loadDone else pkg :: s.loadDone }
      if (s.loadChain l).all s.loadDone.contains then { s with loadw := none, loadDone := [] }.mboxEnd 2 l.pages else s
def execLoadwDoneReport (pkg : Nat) (s : State) : Host.Outcome State Fault Refusal := .next (s.report pkg)

/-- A transfer has read a page of the load, and not yet one before it: after the switch it would read that one new, which R410 forbids. -/
def HSlot.crosses (h : HSlot) (mine : Nat → Bool) : Bool :=
  let first := h.page 0
  let lps := ((List.range (h.page (h.units - 1) + 1 - first)).map (first + ·)).filter mine
  let read (lp : Nat) : Bool := (h.unitsIn lp).all h.done.contains
  lps.any fun lp => read lp && lps.any fun lq => decide (lq < lp) && !read lq && !h.repair.contains lq
/-- A page of the load is being read, its block is under relocation, or a transfer would get a new page before an old one: the switch comes between
two page reads (R68, R392, R410). -/
def State.loadBusy (s : State) (l : Load) : Bool :=
  let f := s.flash l.ed
  let mine := fun lp => decide (l.first ≤ lp) && decide (lp < l.first + l.pages)
  f.reading.any (fun r => mine r.2.2.1) || (f.moving.any fun m => (f.pagesIn m.1).any mine) || f.slots.any fun h => h.2.crosses mine
/-- Every page of the command is mapped to its new block in one step; old blocks that hold no page any more are erased. -/
def State.loadMap (s : State) (l : Load) : State :=
  let f := s.flash l.ed
  let lps := List.range l.pages
  let old := (lps.map fun i => f.phys (l.first + i) / 256).eraseDups
  let g := { f with
    map := lps.foldl (fun m i => tset m (l.first + i) (256 * l.blocks.getD (i / 256) 0 + i % 256)) f.map
    bytes := memWrite f.bytes (l.first * pageBytes) l.got
    count := l.blocks.foldl tdel f.count }
  let s := old.foldl (fun (s : State) b =>
    let f := s.flash l.ed
    if (f.pagesIn b).isEmpty && f.inUse b then s.eraseBlock l.ed b else s) (s.setFlash l.ed g)
  ((s.flash l.ed).waiting.filter fun lp => decide (l.first ≤ lp) && decide (lp < l.first + l.pages)).foldl (fun (s : State) lp => s.deliver l.ed lp) s
/-- LOADW_SWITCH (R409): pages that have waited for their places are written; when all are, the digest decides. -/
def State.loadSwitch (s : State) : State :=
  let s := match s.loadw with
    | some l => s.loadPages (l.pages - l.written)
    | none => s
  match s.loadw with
  | none => s
  | some l =>
    if l.written < l.pages || l.switched then s
    else if sha256 l.got ≠ l.digest then s.loadFail l 2
    else if !l.toHbm && s.loadBusy l then s.schedule 16 .loadwSwitch
    else
      let s := if l.toHbm then s else s.loadMap l
      match l.relay with
      | none => { s with loadw := some { l with switched := true } }.report s.podIndex
      | some i => { s with loadw := none, loadDone := [], portOut := [.done s.podIndex i] }
def execLoadwSwitch (s : State) : Host.Outcome State Fault Refusal := .next s.loadSwitch

/-! ### The Ultra Ethernet port and the Beacon's discipline (R406, R408) -/

/-- PTP_MESSAGE: an offset of the Beacon from the pod's time, in nanoseconds, positive when the Beacon is ahead. It never steps. -/
def execPtpMessage (offsetNs : Int) (s : State) : Host.Outcome State Fault Refusal :=
  .next (if s.podSize = 0 ∨ !s.portUp then s
    else { s with locked := decide (offsetNs.natAbs ≤ 2000), slew := offsetNs * 94 / 100 })
/-- LINK_RETRY: no value changes. -/
def execLinkRetry (s : State) : Host.Outcome State Fault Refusal := .next s
/-- PORT_LANE_CHANGE: the port runs on four or more of its eight lanes; while it is down the Beacon runs free. -/
def execPortLaneChange (lanes : Nat) (s : State) : Host.Outcome State Fault Refusal :=
  let n := min 8 lanes
  .next { s with lanes := n, portUp := decide (4 ≤ n), locked := s.locked && decide (4 ≤ n) }

end Sys2Proof.Machine
end

