-- ==== Sys2Proof/Machine/Bringup.lean ====
section
/-! DEFINITION. Power, reset and bring-up (R400, R401, R383, R411), and the end of an instruction fetch miss (R29). -/
namespace Sys2Proof.Machine

/-- What survives of an ED's flash (R401): its contents and the metadata of the translation layer. -/
def Flash.kept (f : Flash) : Flash :=
  { bytes := f.bytes, map := f.map, count := f.count, erase := f.erase, retired := f.retired, used := f.used, bad := f.bad, soft := f.soft, weak := f.weak
    opened := f.opened, viaParity := f.viaParity }
/-- A relocation or a load in progress leaves its spare blocks free. DEDUCED: assumption 125. -/
def State.giveSpares (s : State) : State :=
  (List.range 4).foldl (fun (s : State) e =>
    let load := match s.loadw with | some l => if l.ed = e then l.blocks else [] | none => []
    (((s.flash e).moving.flatMap fun m => [m.1, m.2]) ++ load).foldl (fun (s : State) b => s.giveBack e b) s) s
/-- The package without what power-off loses (R401); its clock and the model's own counters go on. DESIGN CHOICE: assumption 126. -/
def State.cold (s : State) : State :=
  let s := s.giveSpares
  { powered := false, clk := s.clk, fresh := s.fresh + 1, nextId := s.nextId, health := s.health
    fwActive := s.fwActive, fwStaged := s.fwStaged, fwSlots := s.fwSlots, fwLowest := s.fwLowest, lanes := s.lanes, portUp := s.portUp
    dies := s.dies.filterMap fun d => if d.1 < 2 then none else some (d.1, { flash := d.2.flash.kept }) }
/-- One second is 940,000,000 clocks (R18). DESIGN CHOICE: assumption 109. -/
def stageBound (n : Nat) : Nat :=
  match n with
  | 0 => 1880000000
  | 1 => 940000000
  | 2 => 3760000000
  | 3 => 18800000000
  | 4 => 940000000
  | _ => 188000000
/-- Stage 0 runs. DEDUCED: assumption 110. -/
def State.startBringup (s : State) : State := { s with powered := true, devStage := 0 }.schedule (stageBound 0) (.bringupStageComplete true)
/-- POWER_UP (R400, R411): an image staged since the last power-up becomes the active one. -/
def execPowerUp (s : State) : Host.Outcome State Fault Refusal :=
  .next (if s.powered then s
    else
      let s := s.cold
      { s with fwActive := if s.fwStaged then 1 - s.fwActive else s.fwActive, fwStaged := false }.startBringup)
/-- POWER_OFF (R401). -/
def execPowerOff (s : State) : Host.Outcome State Fault Refusal := .next s.cold
/-- CXL_RESET (R401): every partition is dropped without stop records, and stage 0 runs. -/
def execCxlReset (s : State) : Host.Outcome State Fault Refusal := .next (if s.powered then s.cold.startBringup else s)

/-- SVCFG as stage 4 copies it (R383): a word that is not valid, or has a reserved bit set, leaves it 0. -/
def svcfgOf (w : W64) : W64 := if bit w 4 ∧ bits w 23 5 = 0 then w else 0
/-- The error of a stage that fails. -/
def stageError (n : Nat) : Nat := if n < 4 then n + 1 else 5
/-- The end of stage n with success. -/
def State.stageDone (s : State) (n : Nat) : State :=
  match n with
  | 0 => { s with fwActive := if s.fwValid s.fwActive then s.fwActive else 1 - s.fwActive }
  | 4 => { s with svcfg := svcfgOf (Config.firmwareSvWord (s.fwImage s.fwActive)) }
  | 5 => { s with mem := [], badWords := [], softWords := [] }
  | _ => s
/-- Stage 6: the Beacon starts at frame 0, the Keeper's windows begin, and ready rises. -/
def State.riseReady (s : State) : State :=
  ((({ s with ready := true, frame := 0, tick := 0, measure := List.replicate 32 0 }).scheduleOnce 16 .beaconTick).scheduleOnce 1880 .keeperWindow)
/-- BRINGUP_STAGE_COMPLETE (R400); stage 0 also fails when neither firmware slot is valid (R411). No stage follows one that has failed. -/
def State.bringup (s : State) (ok : Bool) : State :=
  let n := s.devStage
  if !s.powered || s.ready || decide (6 ≤ n) || decide (s.devError ≠ 0) then s
  else if !ok || (n == 0 && !s.fwValid 0 && !s.fwValid 1) then { s with devError := stageError n }
  else
    let s := { s.stageDone n with devStage := n + 1 }
    if n = 5 then s.riseReady else s.schedule (stageBound (n + 1)) (.bringupStageComplete true)
def execBringupStageComplete (ok : Bool) (s : State) : Host.Outcome State Fault Refusal := .next (s.bringup ok)

/-! ### Instruction fetch (R29) -/

/-- INSTRUCTION_FETCH_MISS_RETURN: the bundle is there, or its walk has failed and the fetch meets its fault; a walk that still waits is
waited for. DESIGN CHOICE: assumption 129. -/
def State.fetchReturn (s : State) (c : Nat) : State :=
  let k := s.core c
  if !k.fetching then s
  else
    let waits := match s.translate (s.ctxOf c k.part k.priv k.coop) .fetch k.pc with
      | .miss vpn => s.walkCovers (dieOfCore c) k.part vpn || (s.die (dieOfCore c)).waitq.any fun w => w.1 == k.part && w.2.1 == vpn
      | _ => false
    if waits then s.schedule 16 (.instructionFetchMissReturn c)
    else s.setCore c { k with fetching := false, nextClk := max k.nextClk s.clk }
def execInstructionFetchMissReturn (c : Nat) (s : State) : Host.Outcome State Fault Refusal := .next (s.fetchReturn c)

end Sys2Proof.Machine
end

