-- ==== Sys2Proof/Machine/Scalar.lean ====
section
/-! DEFINITION. Slot 0: no-operations (R28), scalar arithmetic (R210 to R214), compares and predicate logic (R215, R216), branches
(R217 to R219) and hardware loops (R220, R221). -/
namespace Sys2Proof.Machine

/-- A scalar result of latency `lat`. -/
def scalarOp (i : Instr) (s : State) (lat : Nat) (d : Fin 64) (v : W64) : Host.Outcome State Fault Refusal :=
  meaning i 0 s (.ok (s.pushS 0 lat d.val v))

/-- R28. -/
def execNopS (st : Fin 8) (s : State) := meaning (.nopS st) 0 s (.ok s)
/-- R28: slots 1 to 3. -/
def execNop (s : State) := meaning .nop 1 s (.ok s)
/-- R26, R28: a header changes no state; `lendOf` gives what it lends. -/
def execHdr (st : Fin 8) (w z y x : Bool) (c b a : Fin 256) (s : State) := meaning (.hdr st w z y x c b a) 0 s (.ok s)

/-! R210 -/
def execAdd (st : Fin 8) (d a b : Fin 64) (s : State) := scalarOp (.add st d a b) s 1 d (s.me.sreg a.val + s.me.sreg b.val)
def execSub (st : Fin 8) (d a b : Fin 64) (s : State) := scalarOp (.sub st d a b) s 1 d (s.me.sreg a.val - s.me.sreg b.val)
def execMul (st : Fin 8) (d a b : Fin 64) (s : State) := scalarOp (.mul st d a b) s 3 d (s.me.sreg a.val * s.me.sreg b.val)
/-- The high 64 bits of the 128-bit product. -/
def mulHigh (u : Bool) (a b : W64) : W64 :=
  if u then BitVec.ofNat 64 (a.toNat * b.toNat / 2 ^ 64) else BitVec.ofInt 64 (a.toInt * b.toInt / 2 ^ 64)
def execMulh (st : Fin 8) (d a b : Fin 64) (u : Bool) (s : State) :=
  scalarOp (.mulh st d a b u) s 3 d (mulHigh u (s.me.sreg a.val) (s.me.sreg b.val))
def execAnd (st : Fin 8) (d a b : Fin 64) (s : State) := scalarOp (.and st d a b) s 1 d (s.me.sreg a.val &&& s.me.sreg b.val)
def execOr (st : Fin 8) (d a b : Fin 64) (s : State) := scalarOp (.or st d a b) s 1 d (s.me.sreg a.val ||| s.me.sreg b.val)
def execXor (st : Fin 8) (d a b : Fin 64) (s : State) := scalarOp (.xor st d a b) s 1 d (s.me.sreg a.val ^^^ s.me.sreg b.val)
/-- Shift amounts use bits [5:0]. -/
def amount (b : W64) : Nat := b.toNat % 64
def execShl (st : Fin 8) (d a b : Fin 64) (s : State) := scalarOp (.shl st d a b) s 1 d (s.me.sreg a.val <<< amount (s.me.sreg b.val))
def execShr (st : Fin 8) (d a b : Fin 64) (s : State) := scalarOp (.shr st d a b) s 1 d (s.me.sreg a.val >>> amount (s.me.sreg b.val))
def execSra (st : Fin 8) (d a b : Fin 64) (s : State) :=
  scalarOp (.sra st d a b) s 1 d ((s.me.sreg a.val).sshiftRight (amount (s.me.sreg b.val)))
def less (u : Bool) (a b : W64) : Bool := if u then a.ult b else a.slt b
def execMin (st : Fin 8) (d a b : Fin 64) (u : Bool) (s : State) :=
  scalarOp (.min st d a b u) s 1 d (if less u (s.me.sreg a.val) (s.me.sreg b.val) then s.me.sreg a.val else s.me.sreg b.val)
def execMax (st : Fin 8) (d a b : Fin 64) (u : Bool) (s : State) :=
  scalarOp (.max st d a b u) s 1 d (if less u (s.me.sreg a.val) (s.me.sreg b.val) then s.me.sreg b.val else s.me.sreg a.val)
def execAddsh (st : Fin 8) (d a b : Fin 64) (k : Fin 16) (s : State) :=
  scalarOp (.addsh st d a b k) s 1 d (s.me.sreg a.val + (s.me.sreg b.val <<< k.val))
def execClz (st : Fin 8) (d a : Fin 64) (s : State) := scalarOp (.clz st d a) s 1 d (BitVec.ofNat 64 (clzN 64 (s.me.sreg a.val).toNat))
def execPopc (st : Fin 8) (d a : Fin 64) (s : State) := scalarOp (.popc st d a) s 1 d (BitVec.ofNat 64 (popN 64 (s.me.sreg a.val).toNat))

/-- R211: the quotient; a divisor of 0 gives all ones. -/
def divide (u : Bool) (a b : W64) : W64 := if b = 0 then BitVec.allOnes 64 else if u then a / b else a.sdiv b
/-- R211: the remainder; a divisor of 0 gives a. -/
def remainder (u : Bool) (a b : W64) : W64 := if b = 0 then a else if u then a % b else a.srem b
def execDiv (st : Fin 8) (d a b : Fin 64) (u : Bool) (s : State) :=
  scalarOp (.div st d a b u) s 20 d (divide u (s.me.sreg a.val) (s.me.sreg b.val))
def execRem (st : Fin 8) (d a b : Fin 64) (u : Bool) (s : State) :=
  scalarOp (.rem st d a b u) s 20 d (remainder u (s.me.sreg a.val) (s.me.sreg b.val))

/-! R212 -/
def simm10 (i : Fin 1024) : W64 := sextTo 10 i.val
def uimm10 (i : Fin 1024) : W64 := BitVec.ofNat 64 i.val
def execAddi (st : Fin 8) (d a : Fin 64) (i : Fin 1024) (s : State) := scalarOp (.addi st d a i) s 1 d (s.me.sreg a.val + simm10 i)
def execAndi (st : Fin 8) (d a : Fin 64) (i : Fin 1024) (s : State) := scalarOp (.andi st d a i) s 1 d (s.me.sreg a.val &&& simm10 i)
def execOri (st : Fin 8) (d a : Fin 64) (i : Fin 1024) (s : State) := scalarOp (.ori st d a i) s 1 d (s.me.sreg a.val ||| uimm10 i)
def execXori (st : Fin 8) (d a : Fin 64) (i : Fin 1024) (s : State) := scalarOp (.xori st d a i) s 1 d (s.me.sreg a.val ^^^ uimm10 i)
def execShli (st : Fin 8) (d a i : Fin 64) (s : State) := scalarOp (.shli st d a i) s 1 d (s.me.sreg a.val <<< i.val)
def execShri (st : Fin 8) (d a i : Fin 64) (s : State) := scalarOp (.shri st d a i) s 1 d (s.me.sreg a.val >>> i.val)
def execSrai (st : Fin 8) (d a i : Fin 64) (s : State) := scalarOp (.srai st d a i) s 1 d ((s.me.sreg a.val).sshiftRight i.val)

/-! R213, R214 -/
def execSext (st : Fin 8) (d a : Fin 64) (w : Fin 128) (s : State) := scalarOp (.sext st d a w) s 1 d (sextTo w.val (s.me.sreg a.val).toNat)
def execZext (st : Fin 8) (d a : Fin 64) (w : Fin 128) (s : State) :=
  scalarOp (.zext st d a w) s 1 d (BitVec.ofNat 64 ((s.me.sreg a.val).toNat % 2 ^ w.val))
def execLi (st : Fin 8) (d : Fin 64) (i : Fin 65536) (s : State) := scalarOp (.li st d i) s 1 d (sextTo 16 i.val)
def execLih (st : Fin 8) (d : Fin 64) (i : Fin 65536) (s : State) :=
  scalarOp (.lih st d i) s 1 d ((s.me.sreg d.val <<< 16) ||| BitVec.ofNat 64 i.val)

/-! R215, R216 -/
def predOp (i : Instr) (s : State) (p : Fin 8) (v : Pred) : Host.Outcome State Fault Refusal :=
  meaning i 0 s (.ok (s.push 0 1 (.pred p.val (BitVec.allOnes 128) v)))
def execCmp (st p c : Fin 8) (a b : Fin 64) (s : State) :=
  predOp (.cmp st p c a b) s p (allLanes (condS c.val (s.me.sreg a.val) (s.me.sreg b.val)))
def execCmpi (st p c : Fin 8) (a : Fin 64) (i : Fin 1024) (s : State) :=
  predOp (.cmpi st p c a i) s p (allLanes (condS c.val (s.me.sreg a.val) (simm10 i)))
def execPlog (st d a b : Fin 8) (t : Fin 16) (s : State) :=
  predOp (.plog st d a b t) s d (truth t.val (s.me.preg a.val) (s.me.preg b.val))

/-! R217 to R219 -/
/-- Target of an SJ instruction (R39): 16 × off18 from its own bundle. -/
def sjTarget (pc : W64) (o : Fin 262144) : W64 := pc + sextTo 18 o.val * 16
def taken (k : Core) (p : Fin 8) (n : Bool) : Bool := k.ptest p.val != n
def execBr (st p : Fin 8) (n : Bool) (o : Fin 262144) (s : State) :=
  meaning (.br st p n o) 0 s (.ok (if taken s.me p n then s.branch (sjTarget s.me.pc o) else s))
def execCall (st p : Fin 8) (n : Bool) (o : Fin 262144) (s : State) :=
  meaning (.call st p n o) 0 s
    (.ok (if taken s.me p n then (s.pushS 0 1 63 (s.me.pc + 16)).branch (sjTarget s.me.pc o) else s))
/-- R48, R218. -/
def execJr (st : Fin 8) (a : Fin 64) (s : State) :=
  meaning (.jr st a) 0 s
    (if bits (s.me.sreg a.val) 3 0 ≠ 0 then fault instructionAlignment else .ok (s.branch (s.me.sreg a.val)))

/-! R220, R221 -/
/-- LOOP with its count (R220). DEDUCED: assumption 23. -/
def loopEffect (s : State) (j count len : Nat) : Res :=
  let k := s.me
  let first := k.pc + 16
  let last := first + BitVec.ofNat 64 (16 * (len - 1))
  if k.loops.any (fun l => l.k == j) then fault 8
  else if k.loops.any (fun l => decide (l.first.toNat ≤ first.toNat) && decide (first.toNat ≤ l.last.toNat) && decide (l.last.toNat < last.toNat)) then fault 8
  else
    let lc := tput 0 k.lc j (BitVec.ofNat 32 count)
    if count = 0 then
      -- the skip reaches `last` for the loops that end there; then R221 for the loops that end on the LOOP's own bundle
      let (ls, lc, n) := endLoops last k.loops lc
      let (ls, lc, n') := endLoops k.pc ls lc
      .ok (s.setMe { k with lc := lc, loops := ls, pc := if n' = k.pc + 16 then n else n', jumped := true })
    else
      -- a LOOP in the last bundle of an active loop still ends that iteration when its bundle has issued (R221)
      .ok (s.setMe { k with lc := lc, loops := ⟨j, first, last⟩ :: k.loops })
def execLoopImm (st : Fin 8) (k : Fin 4) (c : Fin 1024) (l : Fin 256) (s : State) :=
  meaning (.loopImm st k c l) 0 s (loopEffect s k.val c.val (l.val + 1))
/-- A register count above 32 bits is judged before the loop faults. DESIGN CHOICE: assumption 136. -/
def execLoopReg (st : Fin 8) (k : Fin 4) (r : Fin 64) (l : Fin 256) (s : State) :=
  meaning (.loopReg st k r l) 0 s
    (if 0xFFFFFFFF < (s.me.sreg r.val).toNat then fault invalidOperand else loopEffect s k.val (s.me.sreg r.val).toNat (l.val + 1))
/-- R221: the bundle of the current core has issued without a taken branch. -/
def execLoopEnd (s : State) : Host.Outcome State Fault Refusal := .next (s.setMe s.me.advance)

end Sys2Proof.Machine
end

