-- ==== Sys2Proof/Machine/Dispatch.lean ====
section
/-! DEFINITION. The meaning of every instruction: one arm per constructor. -/
namespace Sys2Proof.Machine

/-- The machine after an instruction. -/
def exec (i : Instr) (s : State) : Host.Outcome State Fault Refusal :=
  match i with
  | .nopS st => Sys2Proof.Machine.execNopS st s
  | .nop => Sys2Proof.Machine.execNop s
  | .hdr st w z y x c b a => Sys2Proof.Machine.execHdr st w z y x c b a s
  | .add st d a b => Sys2Proof.Machine.execAdd st d a b s
  | .sub st d a b => Sys2Proof.Machine.execSub st d a b s
  | .mul st d a b => Sys2Proof.Machine.execMul st d a b s
  | .mulh st d a b u => Sys2Proof.Machine.execMulh st d a b u s
  | .and st d a b => Sys2Proof.Machine.execAnd st d a b s
  | .or st d a b => Sys2Proof.Machine.execOr st d a b s
  | .xor st d a b => Sys2Proof.Machine.execXor st d a b s
  | .shl st d a b => Sys2Proof.Machine.execShl st d a b s
  | .shr st d a b => Sys2Proof.Machine.execShr st d a b s
  | .sra st d a b => Sys2Proof.Machine.execSra st d a b s
  | .min st d a b u => Sys2Proof.Machine.execMin st d a b u s
  | .max st d a b u => Sys2Proof.Machine.execMax st d a b u s
  | .addi st d a imm => Sys2Proof.Machine.execAddi st d a imm s
  | .andi st d a imm => Sys2Proof.Machine.execAndi st d a imm s
  | .ori st d a imm => Sys2Proof.Machine.execOri st d a imm s
  | .xori st d a imm => Sys2Proof.Machine.execXori st d a imm s
  | .shli st d a imm => Sys2Proof.Machine.execShli st d a imm s
  | .shri st d a imm => Sys2Proof.Machine.execShri st d a imm s
  | .srai st d a imm => Sys2Proof.Machine.execSrai st d a imm s
  | .li st d imm => Sys2Proof.Machine.execLi st d imm s
  | .lih st d imm => Sys2Proof.Machine.execLih st d imm s
  | .addsh st d a b k => Sys2Proof.Machine.execAddsh st d a b k s
  | .cmp st p c a b => Sys2Proof.Machine.execCmp st p c a b s
  | .cmpi st p c a imm => Sys2Proof.Machine.execCmpi st p c a imm s
  | .plog st d a b t => Sys2Proof.Machine.execPlog st d a b t s
  | .clz st d a => Sys2Proof.Machine.execClz st d a s
  | .popc st d a => Sys2Proof.Machine.execPopc st d a s
  | .sext st d a w => Sys2Proof.Machine.execSext st d a w s
  | .zext st d a w => Sys2Proof.Machine.execZext st d a w s
  | .div st d a b u => Sys2Proof.Machine.execDiv st d a b u s
  | .rem st d a b u => Sys2Proof.Machine.execRem st d a b u s
  | .br st p n o => Sys2Proof.Machine.execBr st p n o s
  | .call st p n o => Sys2Proof.Machine.execCall st p n o s
  | .jr st a => Sys2Proof.Machine.execJr st a s
  | .loopImm st k c l => Sys2Proof.Machine.execLoopImm st k c l s
  | .loopReg st k r l => Sys2Proof.Machine.execLoopReg st k r l s
  | .loopEnd => Sys2Proof.Machine.execLoopEnd s
  | .bar st c g => Sys2Proof.Machine.execBar st c g s
  | .barComplete sc inst p g => Sys2Proof.Machine.execBarComplete sc inst p g s
  | .waitc st h t => Sys2Proof.Machine.execWaitc st h t s
  | .sstep st c => Sys2Proof.Machine.execSstep st c s
  | .tspawn st a b => Sys2Proof.Machine.execTspawn st a b s
  | .park st n => Sys2Proof.Machine.execPark st n s
  | .yield st => Sys2Proof.Machine.execYield st s
  | .tdone st => Sys2Proof.Machine.execTdone st s
  | .trap st n => Sys2Proof.Machine.execTrap st n s
  | .eret st a b => Sys2Proof.Machine.execEret st a b s
  | .snaprel st => Sys2Proof.Machine.execSnaprel st s
  | .rdms st d n => Sys2Proof.Machine.execRdms st d n s
  | .wrms st a n => Sys2Proof.Machine.execWrms st a n s
  | .halt st a => Sys2Proof.Machine.execHalt st a s
  | .ld d b p z o l => Sys2Proof.Machine.execLd d b p z o l s
  | .ldv d b p z o l => Sys2Proof.Machine.execLdv d b p z o l s
  | .ldg d a b p sc e => Sys2Proof.Machine.execLdg d a b p sc e s
  | .ldb d b p z o l => Sys2Proof.Machine.execLdb d b p z o l s
  | .tagq d a l => Sys2Proof.Machine.execTagq d a l s
  | .tagset a k l => Sys2Proof.Machine.execTagset a k l s
  | .tagclr k l => Sys2Proof.Machine.execTagclr k l s
  | .tld d b p z o l => Sys2Proof.Machine.execTld d b p z o l s
  | .tdrop a => Sys2Proof.Machine.execTdrop a s
  | .tcnt d a => Sys2Proof.Machine.execTcnt d a s
  | .tcntWait d a => Sys2Proof.Machine.execTcntWait d a s
  | .aadd d a b z c o => Sys2Proof.Machine.execAadd d a b z c o s
  | .amin d a b z c o => Sys2Proof.Machine.execAmin d a b z c o s
  | .amax d a b z c o => Sys2Proof.Machine.execAmax d a b z c o s
  | .aand d a b z c o => Sys2Proof.Machine.execAand d a b z c o s
  | .aor d a b z c o => Sys2Proof.Machine.execAor d a b z c o s
  | .axor d a b z c o => Sys2Proof.Machine.execAxor d a b z c o s
  | .aswp d a b z c o => Sys2Proof.Machine.execAswp d a b z c o s
  | .acas d a b z c o => Sys2Proof.Machine.execAcas d a b z c o s
  | .cpyIn a b c imm h mw => Sys2Proof.Machine.execCpyIn a b c imm h mw s
  | .cpygIn a b c imm h mw => Sys2Proof.Machine.execCpygIn a b c imm h mw s
  | .cpysIn a b c imm h mw => Sys2Proof.Machine.execCpysIn a b c imm h mw s
  | .cpyfIn f b c imm h mw => Sys2Proof.Machine.execCpyfIn f b c imm h mw s
  | .shape a k l => Sys2Proof.Machine.execShape a k l s
  | .hread d sc t u l => Sys2Proof.Machine.execHread d sc t u l s
  | .hwait a => Sys2Proof.Machine.execHwait a s
  | .hstat d a => Sys2Proof.Machine.execHstat d a s
  | .hrel a => Sys2Proof.Machine.execHrel a s
  | .gload d k l => Sys2Proof.Machine.execGload d k l s
  | .vadd d a b p e u sc sh => Sys2Proof.Machine.execVadd d a b p e u sc sh s
  | .vsub d a b p e u sc sh => Sys2Proof.Machine.execVsub d a b p e u sc sh s
  | .vmul d a b p e u sc sh => Sys2Proof.Machine.execVmul d a b p e u sc sh s
  | .vmulh d a b p e u sh => Sys2Proof.Machine.execVmulh d a b p e u sh s
  | .vmin d a b p e u sh => Sys2Proof.Machine.execVmin d a b p e u sh s
  | .vmax d a b p e u sh => Sys2Proof.Machine.execVmax d a b p e u sh s
  | .vand d a b p sh => Sys2Proof.Machine.execVand d a b p sh s
  | .vor d a b p sh => Sys2Proof.Machine.execVor d a b p sh s
  | .vxor d a b p sh => Sys2Proof.Machine.execVxor d a b p sh s
  | .vshl d a b p e sh => Sys2Proof.Machine.execVshl d a b p e sh s
  | .vshr d a b p e sh => Sys2Proof.Machine.execVshr d a b p e sh s
  | .vsra d a b p e sh => Sys2Proof.Machine.execVsra d a b p e sh s
  | .vabs d a p e sc sh => Sys2Proof.Machine.execVabs d a p e sc sh s
  | .vneg d a p e sc sh => Sys2Proof.Machine.execVneg d a p e sc sh s
  | .vclz d a p e sh => Sys2Proof.Machine.execVclz d a p e sh s
  | .vpopc d a p e sh => Sys2Proof.Machine.execVpopc d a p e sh s
  | .vfadd d a b p t r sh => Sys2Proof.Machine.execVfadd d a b p t r sh s
  | .vfsub d a b p t r sh => Sys2Proof.Machine.execVfsub d a b p t r sh s
  | .vfmul d a b p t r sh => Sys2Proof.Machine.execVfmul d a b p t r sh s
  | .vfma d a b p t r sh => Sys2Proof.Machine.execVfma d a b p t r sh s
  | .vfmin d a b p t sh => Sys2Proof.Machine.execVfmin d a b p t sh s
  | .vfmax d a b p t sh => Sys2Proof.Machine.execVfmax d a b p t sh s
  | .vfabs d a p t sh => Sys2Proof.Machine.execVfabs d a p t sh s
  | .vfneg d a p t sh => Sys2Proof.Machine.execVfneg d a p t sh s
  | .vcmp c q a b p u sh => Sys2Proof.Machine.execVcmp c q a b p u sh s
  | .vfcmp c q a b p sh => Sys2Proof.Machine.execVfcmp c q a b p sh s
  | .vsel d a b n sh => Sys2Proof.Machine.execVsel d a b n sh s
  | .vshuf d a b p sh => Sys2Proof.Machine.execVshuf d a b p sh s
  | .vbcast d a k p sh => Sys2Proof.Machine.execVbcast d a k p sh s
  | .vmovs d a p sh => Sys2Proof.Machine.execVmovs d a p sh s
  | .vmovsTos d a k sh => Sys2Proof.Machine.execVmovsTos d a k sh s
  | .vmov d a p sh => Sys2Proof.Machine.execVmov d a p sh s
  | .vradd d a p u sc sh => Sys2Proof.Machine.execVradd d a p u sc sh s
  | .vrmin d a p u sh => Sys2Proof.Machine.execVrmin d a p u sh s
  | .vrmax d a p u sh => Sys2Proof.Machine.execVrmax d a p u sh s
  | .vfradd d a p r sh => Sys2Proof.Machine.execVfradd d a p r sh s
  | .vfrmin d a p sh => Sys2Proof.Machine.execVfrmin d a p sh s
  | .vfrmax d a p sh => Sys2Proof.Machine.execVfrmax d a p sh s
  | .vcvt d a f g p k r sh => Sys2Proof.Machine.execVcvt d a f g p k r sh s
  | .vxc d a k p m sh => Sys2Proof.Machine.execVxc d a k p m sh s
  | .pwld a j sh => Sys2Proof.Machine.execPwld a j sh s
  | .vpwp d a p sh => Sys2Proof.Machine.execVpwp d a p sh s
  | .brank d a b p sh => Sys2Proof.Machine.execBrank d a b p sh s
  | .bsel d a b p sh => Sys2Proof.Machine.execBsel d a b p sh s
  | .vaddi d a p imm sh => Sys2Proof.Machine.execVaddi d a p imm sh s
  | .vli d p imm sh => Sys2Proof.Machine.execVli d p imm sh s
  | .st d b p z o l => Sys2Proof.Machine.execSt d b p z o l s
  | .stv d b p z o l => Sys2Proof.Machine.execStv d b p z o l s
  | .sts d a b p sc e => Sys2Proof.Machine.execSts d a b p sc e s
  | .cowst d b p z o l => Sys2Proof.Machine.execCowst d b p z o l s
  | .talloc d sc n t l l2 => Sys2Proof.Machine.execTalloc d sc n t l l2 s
  | .twr d b p z o l => Sys2Proof.Machine.execTwr d b p z o l s
  | .tseal a => Sys2Proof.Machine.execTseal a s
  | .cpyOut a b c imm h mw => Sys2Proof.Machine.execCpyOut a b c imm h mw s
  | .cpygOut a b c imm h mw => Sys2Proof.Machine.execCpygOut a b c imm h mw s
  | .cpysOut a b c imm h mw => Sys2Proof.Machine.execCpysOut a b c imm h mw s
  | .cpyfOut f b c imm h mw => Sys2Proof.Machine.execCpyfOut f b c imm h mw s
  | .publish n => Sys2Proof.Machine.execPublish n s
  | .publishDef n a => Sys2Proof.Machine.execPublishDef n a s
  | .publishUndef n => Sys2Proof.Machine.execPublishUndef n s
  | .drain h c => Sys2Proof.Machine.execDrain h c s
  | .fence c => Sys2Proof.Machine.execFence c s
  | .mark => Sys2Proof.Machine.execMark s
  | .tlbiVa a => Sys2Proof.Machine.execTlbiVa a s
  | .tlbiOwn => Sys2Proof.Machine.execTlbiOwn s
  | .tlbiPva a b => Sys2Proof.Machine.execTlbiPva a b s
  | .tlbiPart b => Sys2Proof.Machine.execTlbiPart b s
  | .tlbiGlob => Sys2Proof.Machine.execTlbiGlob s
  | .pagemv a b h l => Sys2Proof.Machine.execPagemv a b h l s
  | .wmap a b n l => Sys2Proof.Machine.execWmap a b n l s
  | .wunmap n => Sys2Proof.Machine.execWunmap n s
  | .lease a l => Sys2Proof.Machine.execLease a l s
  | .lfree l => Sys2Proof.Machine.execLfree l s
  | .mcfg a l => Sys2Proof.Machine.execMcfg a l s
  | .mma a f g sc o n m k l => Sys2Proof.Machine.execMma a f g sc o n m k l s
  | .mmv a f g r sc o n m k l => Sys2Proof.Machine.execMmv a f g r sc o n m k l s
  | .mdrain a k l => Sys2Proof.Machine.execMdrain a k l s
  | .mzero k l => Sys2Proof.Machine.execMzero k l s
  | .mwait k l => Sys2Proof.Machine.execMwait k l s
  | .rte a imm h l => Sys2Proof.Machine.execRte a imm h l s
  | .apre a imm h l => Sys2Proof.Machine.execApre a imm h l s
  | .adec a imm h l => Sys2Proof.Machine.execAdec a imm h l s
  | .kvag a g l => Sys2Proof.Machine.execKvag a g l s
  | .xsend a b c imm h l => Sys2Proof.Machine.execXsend a b c imm h l s
  | .xrecv d k l => Sys2Proof.Machine.execXrecv d k l s
  | .ptrcfg a l => Sys2Proof.Machine.execPtrcfg a l s
  | .ptrld a b l => Sys2Proof.Machine.execPtrld a b l s
  | .ptrrun a b c l => Sys2Proof.Machine.execPtrrun a b c l s
  | .snapst b o l => Sys2Proof.Machine.execSnapst b o l s
  | .registerWriteLands c => Sys2Proof.Machine.execRegisterWriteLands c s
  | .interlockedResultArrives c id => Sys2Proof.Machine.execInterlockedResultArrives c id s
  | .trapEntry slot code sub info => Sys2Proof.Machine.execTrapEntry slot code sub info s
  | .pageWalk d p vpn => Sys2Proof.Machine.execPageWalk d p vpn s
  | .copySegment q id => Sys2Proof.Machine.execCopySegment q id s
  | .copyComplete c h => Sys2Proof.Machine.execCopyComplete c h s
  | .pagemvCopyComplete q id => Sys2Proof.Machine.execPagemvCopyComplete q id s
  | .hotRegionSwap k r r2 => Sys2Proof.Machine.execHotRegionSwap k r r2 s
  | .pseudoChannelPowerDown k ch => Sys2Proof.Machine.execPseudoChannelPowerDown k ch s
  | .pseudoChannelSelfRefresh k ch => Sys2Proof.Machine.execPseudoChannelSelfRefresh k ch s
  | .stackRetrain k => Sys2Proof.Machine.execStackRetrain k s
  | .handleRequestArrives id => Sys2Proof.Machine.execHandleRequestArrives id s
  | .flashPageRead e slot lp => Sys2Proof.Machine.execFlashPageRead e slot lp s
  | .relocationSwitch e k b => Sys2Proof.Machine.execRelocationSwitch e k b s
  | .oldBlockErase e k b => Sys2Proof.Machine.execOldBlockErase e k b s
  | .rebuild e lp => Sys2Proof.Machine.execRebuild e lp s
  | .relocate e lp => Sys2Proof.Machine.execRelocate e lp s
  | .retire e lp => Sys2Proof.Machine.execRetire e lp s
  | .refill e lp => Sys2Proof.Machine.execRefill e lp s
  | .ftlCommandComplete e => Sys2Proof.Machine.execFtlCommandComplete e s
  | .pointerRun d => Sys2Proof.Machine.execPointerRun d s
  | .tallocRequestArrives c => Sys2Proof.Machine.execTallocRequestArrives c s
  | .tallocGrant d => Sys2Proof.Machine.execTallocGrant d s
  | .tileAccessArrives id => Sys2Proof.Machine.execTileAccessArrives id s
  | .leaseGrant q => Sys2Proof.Machine.execLeaseGrant q s
  | .turnGrant q => Sys2Proof.Machine.execTurnGrant q s
  | .matrixCommandRetire q => Sys2Proof.Machine.execMatrixCommandRetire q s
  | .groupPartArrives q src => Sys2Proof.Machine.execGroupPartArrives q src s
  | .drainRowLeaves q => Sys2Proof.Machine.execDrainRowLeaves q s
  | .attentionCommandComplete e => Sys2Proof.Machine.execAttentionCommandComplete e s
  | .capacityRequest id => Sys2Proof.Machine.execCapacityRequest id s
  | .routingRound d => Sys2Proof.Machine.execRoutingRound d s
  | .xsendBinding id => Sys2Proof.Machine.execXsendBinding id s
  | .landing id => Sys2Proof.Machine.execLanding id s
  | .xrecvRequestArrives id => Sys2Proof.Machine.execXrecvRequestArrives id s
  | .superstepBoundary p => Sys2Proof.Machine.execSuperstepBoundary p s
  | .beaconTick => Sys2Proof.Machine.execBeaconTick s
  | .frameStart p => Sys2Proof.Machine.execFrameStart p s
  | .deferredFrameStart p => Sys2Proof.Machine.execDeferredFrameStart p s
  | .frameAdvance p => Sys2Proof.Machine.execFrameAdvance p s
  | .taskInsertion id => Sys2Proof.Machine.execTaskInsertion id s
  | .taskReady p ent => Sys2Proof.Machine.execTaskReady p ent s
  | .taskDispatch d => Sys2Proof.Machine.execTaskDispatch d s
  | .continuationResume c => Sys2Proof.Machine.execContinuationResume c s
  | .parkWake p ent => Sys2Proof.Machine.execParkWake p ent s
  | .installTemplate => Sys2Proof.Machine.execInstallTemplate s
  | .launchTasks => Sys2Proof.Machine.execLaunchTasks s
  | .removeTemplate => Sys2Proof.Machine.execRemoveTemplate s
  | .tearDownPartition => Sys2Proof.Machine.execTearDownPartition s
  | .launchWindowWrite off data => Sys2Proof.Machine.execLaunchWindowWrite off data s
  | .hostMemWrite a data => Sys2Proof.Machine.execHostMemWrite a data s
  | .hostMemRead a n => Sys2Proof.Machine.execHostMemRead a n s
  | .pod a0 a1 a2 a3 => Sys2Proof.Machine.execPod a0 a1 a2 a3 s
  | .loadw a0 a1 a2 a3 a4 a5 => Sys2Proof.Machine.execLoadw a0 a1 a2 a3 a4 a5 s
  | .weightChunk data => Sys2Proof.Machine.execWeightChunk data s
  | .loadwSwitch => Sys2Proof.Machine.execLoadwSwitch s
  | .attest a0 a1 => Sys2Proof.Machine.execAttest a0 a1 s
  | .fwstage a0 a1 => Sys2Proof.Machine.execFwstage a0 a1 s
  | .podBarrierMessage pkg isBar p g n => Sys2Proof.Machine.execPodBarrierMessage pkg isBar p g n s
  | .podBarrierRelease isBar p g n => Sys2Proof.Machine.execPodBarrierRelease isBar p g n s
  | .ptpMessage offsetNs => Sys2Proof.Machine.execPtpMessage offsetNs s
  | .linkRetry => Sys2Proof.Machine.execLinkRetry s
  | .keeperWindow => Sys2Proof.Machine.execKeeperWindow s
  | .keepcfgWrite v => Sys2Proof.Machine.execKeepcfgWrite v s
  | .poolbaseWrite v => Sys2Proof.Machine.execPoolbaseWrite v s
  | .srseedWrite p v => Sys2Proof.Machine.execSrseedWrite p v s
  | .ttbaseWrite p v => Sys2Proof.Machine.execTtbaseWrite p v s
  | .kpartWrite n v => Sys2Proof.Machine.execKpartWrite n v s
  | .sscfgWrite p v => Sys2Proof.Machine.execSscfgWrite p v s
  | .sliceWrite n v => Sys2Proof.Machine.execSliceWrite n v s
  | .pstateHalt p => Sys2Proof.Machine.execPstateHalt p s
  | .pstateResume p => Sys2Proof.Machine.execPstateResume p s
  | .svackRelease ix => Sys2Proof.Machine.execSvackRelease ix s
  | .svackEnd ix => Sys2Proof.Machine.execSvackEnd ix s
  | .svqRecordWrite d => Sys2Proof.Machine.execSvqRecordWrite d s
  | .haltLineArrives p kind ix => Sys2Proof.Machine.execHaltLineArrives p kind ix s
  | .halted p => Sys2Proof.Machine.execHalted p s
  | .sliceEnd d => Sys2Proof.Machine.execSliceEnd d s
  | .preemptionUnitSave d kind ix => Sys2Proof.Machine.execPreemptionUnitSave d kind ix s
  | .preemptionComplete d => Sys2Proof.Machine.execPreemptionComplete d s
  | .powerUp => Sys2Proof.Machine.execPowerUp s
  | .bringupStageComplete ok => Sys2Proof.Machine.execBringupStageComplete ok s
  | .cxlReset => Sys2Proof.Machine.execCxlReset s
  | .storePerformed q => Sys2Proof.Machine.execStorePerformed q s
  | .instructionFetchMissReturn c => Sys2Proof.Machine.execInstructionFetchMissReturn c s
  | .routingPassComplete d => Sys2Proof.Machine.execRoutingPassComplete d s
  | .powerOff => Sys2Proof.Machine.execPowerOff s
  | .portLaneChange lanes => Sys2Proof.Machine.execPortLaneChange lanes s
  | .loadwDoneReport pkg => Sys2Proof.Machine.execLoadwDoneReport pkg s

end Sys2Proof.Machine
end

