-- ==== Sys2Proof/Machine/Issue.lean ====
section
/-! DEFINITION. Fetching a bundle (R24, R102), its bundle-level rules (R34 to R36), and issuing its four slots (R25, R29). -/
namespace Sys2Proof.Machine

/-! ### Fetch -/

/-- What the fetch of the current core's bundle meets. -/
inductive Fetch where
  | words (b : List Byte)
  | stop (s : State)

/-- A fault of the current core outside any slot's meaning: taken at once, but a precise trap waits for interlocked results
(R364). -/
def State.raiseNow (s : State) (f : FaultInfo) : State :=
  if decide (f.code ≤ 14) && !s.me.pend.isEmpty then s.mark .held else (s.takeFault f).mark (.trapped f)

/-- Fetch 16 bytes at pc (R24); a bundle of an active loop's body is kept (R220). A TLB miss is an instruction fetch miss
(R29). -/
def State.fetch (s : State) : Fetch :=
  let k := s.me
  match tget k.lbuf k.pc.toNat with
  | some b => .words b
  | none =>
    match s.translate s.ctx .fetch k.pc with
    | .at_ p _ =>
      match s.readAt s.cur p 16 with
      | .bytes b => .words b
      | .uncorrectable c i => .stop (s.raiseNow ⟨c, 0, BitVec.ofNat 64 i, 0⟩)
      | .tileBad => .stop (s.raiseNow ⟨translation, permission, k.pc, 0⟩)
      | .host _ => .stop (s.raiseNow ⟨translation, permission, k.pc, 0⟩)
    | .miss vpn =>
      let t := (s.missed s.cur s.myPart vpn).setMe { k with fetching := true }
      .stop ((t.schedule (s.walkTime s.myDie s.myPart (vpn * 4096)) (.instructionFetchMissReturn s.cur)).mark .held)
    | t => match s.transStop k.pc t with
      | .raise f => .stop (s.raiseNow f)
      | .hold s => .stop (s.mark .held)
      | .ok s => .stop (s.mark .held)

/-- Word k of a bundle (R24). -/
def wordOf (b : List Byte) (k : Nat) : Nat := field b (4 * k) 4

/-! ### Bundle-level rules -/

/-- The destination registers of a slot that R36 counts. -/
def dests (i : Instr) (k : Core) : List Nat := (Instr.uses i k).2.filter fun q => q != 0 && q != 64

/-- R36: the lowest slot of a list that names a register a later slot names too. -/
def collision (k : Core) : List (Nat × Instr) → Option Nat
  | [] => none
  | (n, i) :: t =>
    if (dests i k).any (fun q => t.any fun e => (dests e.2 k).contains q) then some n else collision k t

/-- R47: what an encoding may not be on the core, or names no register. -/
def barred (d : Nat) (i : Instr) : Bool :=
  match i with
  | .ptrcfg _ _ => decide (2 ≤ d)
  | .ptrld _ _ _ => decide (2 ≤ d)
  | .ptrrun _ _ _ _ => decide (2 ≤ d)
  | .apre _ _ _ _ => decide (2 ≤ d)
  | .adec _ _ _ _ => decide (2 ≤ d)
  | .kvag _ _ _ => decide (2 ≤ d)
  | .rdms _ _ n => !regAssigned n.val
  | .wrms _ _ n => !regAssigned n.val
  | _ => false

/-- The slots of a bundle, each decoded or not, with what slot 0 lends. -/
def slotsOf (b : List Byte) : List (Nat × Except Reject Instr) :=
  let i0 := decodeSlot0 (wordOf b 0)
  let lend (k : Nat) : Lend := match i0 with | .ok i => lendOf i k | .error _ => .nothing
  [(0, i0), (1, decodeSlot 1 (wordOf b 1) (lend 1)), (2, decodeSlot 2 (wordOf b 2) (lend 2)), (3, decodeSlot 3 (wordOf b 3) (lend 3))]

/-- The lower of two slot numbers. -/
def minSlot : Option Nat → Option Nat → Option Nat
  | some a, some b => some (min a b)
  | some a, none => some a
  | none, x => x

/-- R34, R36, R47: the slot of the ill-formed-encoding fault a bundle raises. -/
def illFormed (k : Core) (d : Nat) (b : List Byte) : Option Nat :=
  let sl := slotsOf b
  let good := sl.filterMap fun e => match e.2 with | .ok i => some (e.1, i) | .error _ => none
  let bad := (sl.find? fun e => match e.2 with | .ok i => barred d i | .error _ => true).map (·.1)
  minSlot bad (collision k good)

/-! ### Issue -/

/-- What exec does with a slot of the current bundle, as a state whose `issue` says how it went. -/
def runSlot (i : Instr) (s : State) : State :=
  match exec i s with
  | .next t => t
  | .fault _ => s.mark .held
  | .refused _ => s.mark .held

/-- Every slot of a held bundle that waits does so on the same state: each asks for what it waits for, and a drain goes on under any (R267). -/
def holdAll : List Instr → State → State
  | [], s => s
  | i :: t, s => let s' := runSlot i s; holdAll t (if s'.issue == .held then s' else s)
/-- A slot that faults: its trap is taken, or waits for interlocked results. -/
def Issue.faults : Issue → Bool
  | .trapped _ => true
  | .late => true
  | .idle => false
  | .issued => false
  | .held => false
/-- The first of a list of slots that faults, each tried on the same state, or else the bundle held if any slot is (R34, R35). A fault whose trap
waits holds the bundle, and no later slot's fault comes before it. -/
def firstStop (s : State) (is : List Instr) : Option State :=
  let ts := is.map fun i => runSlot i s
  match ts.find? fun t => t.issue.faults with
  | some t => some (if t.issue == .late then (holdAll is s).mark .held else t)
  | none => if ts.any fun t => t.issue == .held then some (holdAll is s) else none

/-- A state with the memory, the quads and the dies of another: what a load or a read at a tile sees. -/
def State.seeing (s base : State) : State := { s with mem := base.mem, quads := base.quads, dies := base.dies }
/-- A slot on the state that its bundle has reached. An ERET reads its image as memory stood before the bundle (R25); nothing else that
it does touches memory, a quad or a die. -/
def runInTurn (base : State) (i : Instr) (s : State) : State :=
  match i with
  | .eret _ _ b => ((runSlot i (s.seeing base)).seeing s).countImage b
  | i => runSlot i s

/-- The slots one after another on one state; a slot that stops after all stops the bundle (R34). DEDUCED: assumption 134. -/
def threadSlots (base : State) : List Instr → State → State
  | [], s => s
  | i :: t, s =>
    let s' := runInTurn base i s
    match s'.issue with
    | .trapped f => base.raiseNow f
    | .held => base.mark .held
    | .late => base.mark .held
    | .issued => threadSlots base t s'
    | .idle => threadSlots base t s'

/-- The bundle at pc has issued: its place in time (R29), its successor (R221), and the bodies of active loops, which are kept (R220). -/
def State.retire (s : State) (pc st : Nat) (b : List Byte) : State :=
  let s := if s.me.jumped then s else runSlot .loopEnd s
  let k := s.me
  let inBody := fun (a : Nat) => k.loops.any fun l => decide (l.first.toNat ≤ a) && decide (a ≤ l.last.toNat)
  s.setMe { k with
    sched := k.sched + 1 + st + k.extra, nextClk := max k.nextClk (s.clk + 1 + st + k.extra + k.dyn)
    extra := 0, dyn := 0, jumped := false, bid := k.bid + 1, walked := [], missing := [], relAt := none
    lbuf := (tset k.lbuf pc b).filter fun e => inBody e.1 }

/-- A matrix command. -/
def isMatrix : Instr → Bool
  | .mma _ _ _ _ _ _ _ _ _ => true
  | .mmv _ _ _ _ _ _ _ _ _ _ => true
  | .mzero _ _ => true
  | _ => false
/-- The current core has no command stalled at issue any more. -/
def State.unwant (s : State) : State :=
  let a := s.arr s.myQuad
  if a.wants.contains s.cur then s.setArr s.myQuad { a with wants := a.wants.filter (· != s.cur) } else s
/-- The commands that a core ends before it stops (R388); COWST acts in one step here, so it holds nothing between clocks. -/
def endsFirst : Instr → Bool
  | .tlbiVa _ => true
  | .tlbiOwn => true
  | .tlbiPva _ _ => true
  | .tlbiPart _ => true
  | .tlbiGlob => true
  | .publish _ => true
  | .publishUndef _ => true
  | .wmap _ _ _ _ => true
  | .wunmap _ => true
  | .pagemv _ _ _ _ => true
  | _ => false
/-- The fetch of the bundle that s issues is counted in t (R119, R120), and what it has waited for at its HBM stack delays the next bundle. DESIGN
CHOICE: assumption 151. -/
def State.countFetch (s t : State) : State :=
  if (tget s.me.lbuf s.me.pc.toNat).isSome then t
  else match s.translate s.ctx .fetch s.me.pc with
    | .at_ (.phys pa) _ =>
      let u := t.countPlaces s.cur [(.phys pa, 16)]
      u.setMe { u.me with dyn := u.me.dyn + s.stackWait pa }
    | _ => t
/-- R243: a bundle that is held for any reason stalls the matrix command it holds at issue. R388: a translation command held for stores on the
path, or for copies, is completed before its core stops. DEDUCED: assumption 150. -/
def State.stallWant (s : State) (w : Instr) : State :=
  let s := if s.issue == .held && endsFirst w && (s.pathOut s.cur || s.copiesOut s.cur) then s.setMe { s.me with engaged := true } else s
  if s.issue == .held && isMatrix w && ((s.arr s.myQuad).lease s.cur).isSome then s.wantTurn s.cur else s

/-- What follows a bundle that did not issue: it tries again in the next clock, or its trap has been taken. -/
def State.stopped (s : State) : State :=
  let s := match s.issue with | .trapped _ => s.unwant | _ => s
  let k := s.me
  match s.issue with
  | .trapped _ => s.setMe { k with
      extra := 0, dyn := 0, jumped := false, bid := k.bid + 1, walked := [], missing := [], relAt := none
      hreq := k.hreq.filter fun h => !(h.done && h.fault != 0) }
  | _ => s.setMe { k with nextClk := s.clk + 1 }

/-- The order in which the slots of a bundle act on one state: slot 0 last, but for RDMS and TSPAWN, which see no result of their
bundle (R25). -/
def slotOrder (x : Bundle) : List Instr := match x.s with
  | .rdms _ _ _ => [x.s, x.l, x.v, x.w]
  | .tspawn _ _ _ => [x.s, x.l, x.v, x.w]
  | _ => [x.l, x.v, x.w, x.s]
/-- One bundle of the current core. -/
def State.issueBundle (s : State) : State :=
  let s := (s.mark .idle).setMe { s.me with waits := 0, engaged := false }
  match s.fetch with
  | .stop t => t.stopped
  | .words b =>
    match illFormed s.me s.myDie b with
    | some n => (s.countFetch (s.raiseNow ⟨illegalInstruction, 0, BitVec.ofNat 64 (wordOf b n), n⟩)).stopped
    | none =>
      match decodeBundle (wordOf b 0) (wordOf b 1) (wordOf b 2) (wordOf b 3) with
      | .error e => (s.raiseNow ⟨illegalInstruction, 0, BitVec.ofNat 64 (wordOf b e.1), e.1⟩).stopped
      | .ok x =>
        match firstStop s [x.s, x.l, x.v, x.w] with
        | some t => (match t.issue with | .trapped _ => s.countFetch t | _ => t.stallWant x.w).stopped
        | none =>
          let t := threadSlots s (slotOrder x) s
          match t.issue with
          | .trapped _ => (s.countFetch t).stopped
          | .held => (t.stallWant x.w).stopped
          | .late => (t.stallWant x.w).stopped
          | .issued => (s.countFetch t).retire s.me.pc.toNat (wordOf b 0 / 2 ^ 28 % 8) b
          | .idle => (s.countFetch t).retire s.me.pc.toNat (wordOf b 0 / 2 ^ 28 % 8) b

/-- The turn of the current core: a suspension point that still waits (R152, R347), the trap of a TRAP (R369), or its next bundle. -/
def State.issueNext (s : State) : State :=
  match s.me.post with
  | .suspend _ _ _ _ =>
    let t := (s.mark .idle).trySuspend s.cur
    let k := t.core s.cur
    if k.task.isSome then t.setCore s.cur { k with nextClk := s.clk + 1 } else t
  | .trap n =>
    if s.me.pend.isEmpty then ((s.takeTrap n).mark (.trapped ⟨14, 0, BitVec.ofNat 64 n, 0⟩)).stopped
    else s.setMe { s.me with nextClk := s.clk + 1 }
  | _ => s.issueBundle

/-! ### Who moves next -/

/-- Whether a core can issue (R29, R225, R264, R296, R379, R385). -/
def Core.ready (k : Core) : Bool :=
  k.task.isSome && !k.stopped && k.held.isNone && !k.fetching && !k.rejoins &&
  match k.post with
  | .none => true
  | .suspend _ _ _ _ => true
  | .bar _ _ _ => false
  | .sstep _ => false
  | .tspawn => false
  | .resume => false
  | .trap _ => true

/-- The ready core whose bundle comes first from clock `clk` on, the lowest number in a tie. -/
def earliest (clk : Nat) : Tbl Core → Option (Nat × Core)
  | [] => none
  | (c, k) :: t =>
    match earliest clk t with
    | none => if k.ready then some (c, k) else none
    | some e => if k.ready && decide (max clk k.nextClk ≤ max clk e.2.nextClk) then some (c, k) else some e

/-- What moves next: the first event of the agenda, or a core; events come first in a clock. -/
inductive Mover where
  | event (t : Nat) (i : Instr)
  | core (c : Nat)
  | nobody

/-- A landing or a drain row of the core comes before its bundle: the writes readable at its scheduled clock have landed (R30),
the row that left before it is gone (R260). -/
def Core.first (c : Nat) (k : Core) : Option Instr :=
  if k.flight.any (fun f => decide (f.due ≤ k.sched)) then some (.registerWriteLands c)
  else match k.drain with
    | some d => if d.due < k.sched then some (.drainRowLeaves c) else none
    | none => none

/-- A pre-emption that reaches a core in the clock of its bundle: the writes readable then land, and a class-T fault of the bundle, or the trap
of a TRAP, is entered first (R390). -/
def State.trapsFirst (s : State) (c : Nat) : Bool :=
  let u : State := { s with clk := max s.clk (s.core c).nextClk, cur := c, issue := .idle }
  (Core.first c u.me).isSome || match u.issueNext.issue with
    | .trapped f => decide (f.code ≤ 14)
    | _ => false
/-- Whether the bundle of core c, the earliest of those to come, goes before an event of its clock: before an access to a tile by a higher core
(R180), before dispatch, and where its fault does before the pre-emption of the core. -/
def State.yields (s : State) (i : Instr) (c : Nat) : Bool :=
  match i with
  | .taskDispatch _ => true
  | i => match s.tileCore i with | some c' => decide (c < c') | none => false
/-- The core that a pre-emption on the agenda reaches, where its trap comes first. -/
def State.trapAt (s : State) (t : Nat) : Instr → Option Nat
  | .preemptionUnitSave _ 0 c =>
    let k := s.core c
    if k.ready && decide (max s.clk k.nextClk ≤ max s.clk t) && s.trapsFirst c then some c else none
  | _ => none
/-- In a clock the agenda's events come before the bundles, but for those that a bundle goes before. DESIGN CHOICE: assumption 19. -/
def State.mover (s : State) : Mover :=
  match s.agenda.head?, earliest s.clk s.cores with
  | none, none => .nobody
  | some (t, i), none => .event t i
  | none, some (c, _) => .core c
  | some (t, i), some (c, k) =>
    match s.trapAt t i with
    | some c => .core c
    | none =>
      let at_ := max s.clk k.nextClk
      if max s.clk t < at_ ∨ (max s.clk t = at_ ∧ !s.yields i c) then .event t i else .core c

end Sys2Proof.Machine
end

