-- ==== Sys2Proof/Machine/Step.lean ====
section
/-! DEFINITION. One step of the machine: an event that is due, or one bundle of one core. -/
namespace Sys2Proof.Machine

/-- One step: the event that is due, the landing before a bundle, or the bundle. -/
def step (s : State) : Host.Outcome State Fault Refusal :=
  match s.mover with
  | .nobody => .fault .idle
  | .event t i => exec i { s with clk := max s.clk t, agenda := s.agenda.tail }
  | .core c =>
    let s := { s with clk := max s.clk (s.core c).nextClk, cur := c }
    match Core.first c s.me with
    | some i => exec i s
    | none => .next s.issueNext

/-- The core that withFetchWord uses runs a task of partition 0, the supervisor's; its code page is the first GiB of HBM, mapped
raw with every right but `shared`. DESIGN CHOICE: assumption 24. -/
def fetchTask : Task := ⟨0, 0, 0, 0, 0, 0, 0, false, false, 0, 0, 0, 0, 1, []⟩
def fetchPc : W64 := 0x30000000
def fetchLeaf : W64 := 0xF80000000000011D

/-- A State in which the next step fetches and issues a bundle that holds the word in its slot and NOPs in the others. -/
def State.withFetchWord (s : State) (nbits w : Nat) : State :=
  let x := w % 2 ^ Nat.min nbits 32
  let k := match tableSlot x with | some p => p.1 | none => 0
  let c := s.core 0
  let q := s.quad 0
  let p := s.part 0
  let s := s.setCore 0 { c with task := some fetchTask, pc := fetchPc, nextClk := 0, stopped := false, held := none,
                                fetching := false, rejoins := false, post := .none, flight := [], pend := [], drain := none, lbuf := [],
                                missing := [], walked := [] }
  let s := s.setQuad 0 { q with path := [], tlb := ⟨0, 0, 18, fetchLeaf⟩ :: q.tlb }
  let s := s.setPart 0 { p with ttbase := 1, pairs := [] }
  { s with agenda := s.agenda.map fun e => (max e.1 1, e.2), badWords := []
           mem := memWrite s.mem fetchPc.toNat (List.replicate (4 * k) 0 ++ leBytes 4 x ++ List.replicate (12 - 4 * k) 0) }

end Sys2Proof.Machine
end

