-- ==== Sys2Proof/Safety.lean ====
section
/-! DEFINITION. The terms in which claims are stated: what the machine must keep, what lets an instruction take its own effect, what
counts as unchanged, and the results of the spec's tables written over plain numbers, apart from the meanings of Machine/. -/
namespace Sys2Proof.Machine

/-! ### States -/

/-- Memory keeps its canonical form, so that equal memories are equal data. -/
def State.memOk (s : State) : Prop := Memory.wf s.mem = true

/-- A step is safe when it answers a next state: no reason to stop has come up. -/
def State.canStep (s : State) : Prop := ∃ t, step s = .next t

/-- Nothing has changed but the current core, the mark of how its slot went, the agenda and the counter that numbers requests. -/
def OnlyCore (s t : State) : Prop :=
  t = { s with cores := t.cores, issue := t.issue, agenda := t.agenda, nextId := t.nextId } ∧ ∀ c, c ≠ s.cur → t.core c = s.core c

/-- Every register and every other field of a core is unchanged; only results under way have been added. -/
def Core.kept (k k' : Core) : Prop := k' = { k with flight := k'.flight, seq := k'.seq, pend := k'.pend }

/-- Every byte of memory reads as before, for every core (R318). -/
def SameBytes (s t : State) : Prop := ∀ c a, t.seenByte c a = s.seenByte c a

/-- The machine as core c's next bundle finds it: the slots of the bundle are tried on this state. -/
def State.issuing (s : State) (c : Nat) : State :=
  let u := { s with clk := max s.clk (s.core c).nextClk, cur := c }
  (u.mark .idle).setMe { u.me with waits := 0, engaged := false }
/-- Core c moves next, and with its next bundle: no landing, no drain row and no wait stands before it. -/
structure State.Issues (s : State) (c : Nat) : Prop where
  mover : s.mover = .core c
  first : Core.first c (s.core c) = none
  post : (s.core c).post = .none

/-! ### Instructions -/

/-- The instructions that a bundle can hold; an event of the machine has no word (R413). -/
def Instr.fetched (i : Instr) : Bool := encode i != 0 || i == .nop || i == .nopS 0

/-- Nothing stands before the effect of an instruction of a slot: its encoding is well formed (R47), no register it reads or writes
waits for an interlocked result of an earlier bundle (R32), and the checking scoreboard finds no early read (R31). -/
abbrev Clear (i : Instr) (s : State) : Prop :=
  i.wf = true ∧ s.me.pendingOn ((Instr.uses i s.me).1 ++ (Instr.uses i s.me).2) = false
  ∧ (bit s.me.ctxctl 11 && s.me.earlyRead (Instr.uses i s.me).1) = false

/-- A fault of a slot is taken at once: it is no precise trap, or no interlocked result of an earlier bundle is under way (R364). -/
abbrev TakesNow (s : State) (code : Nat) : Prop := 14 < code ∨ (s.me.pend.any fun p => p.bid != s.me.bid) = false

/-- The context has a trap handler: no trap is held and TVEC.p is valid (R364, R366). -/
abbrev Trappable (s : State) : Prop := s.me.theld = false ∧ bit (s.part s.me.part).tvec 0 = true

/-- R364: what the current core looks like after a trap was taken from its bundle at `epc`, whose next bundle would have issued at
scheduled clock `due`: the saved registers, the handler's address, and what the buffer holds. -/
structure Trapped (s t : State) (slot code sub : Nat) (info epc : W64) (due : Nat) : Prop where
  held : t.me.theld = true
  cause : t.me.tcause.toNat = slot * 65536 + sub * 256 + code
  info : t.me.tinfo = info
  epc : t.me.tepc = epc
  pc : t.me.pc.toNat = (s.part s.me.part).tvec.toNat / 16 * 16
  later : t.me.nextClk = s.clk + 4
  loops : t.me.loops = [] ∧ t.me.buffer.loops = s.me.loops ∧ t.me.buffer.lc = some s.me.lc
  drain : t.me.drain = none ∧ (t.me.buffer.drain.isSome = s.me.drain.isSome)
  /-- The writes not yet readable, less what R30 discards of them (R33), each with its remaining clocks. -/
  writes : t.me.buffer.writes = (((s.me.flight.filter fun f => decide (due < f.due)).flatMap (survives s.me due)).map fun f => { f with due := f.due - due })
  flight : ∀ f, f ∈ t.me.flight → f ∈ s.me.flight ∧ f.due ≤ due
  regs : t.me.s = s.me.s ∧ t.me.p = s.me.p ∧ t.me.v = s.me.v ∧ t.me.pwp = s.me.pwp ∧ t.me.lc = s.me.lc ∧ t.me.pend = s.me.pend
  special : t.me.ctxctl = s.me.ctxctl ∧ t.me.tscr = s.me.tscr ∧ t.me.cc = s.me.cc ∧ t.me.mgeo = s.me.mgeo ∧ t.me.task = s.me.task
  others : (∀ c, c ≠ s.cur → t.core c = s.core c) ∧ t = { s with cores := t.cores, issue := t.issue }

/-- R34, R364: the instruction meets a fault of class T at issue. Where it can be taken now, in a context that has a handler, its slot
has no effect, and the trap is taken at its bundle. -/
def Traps (i : Instr) (s : State) (slot code sub : Nat) (info : W64) : Prop :=
  TakesNow s code → Trappable s → ∃ t, exec i s = .next t ∧ t.issue = .trapped ⟨code, sub, info, slot⟩
    ∧ Trapped s t slot code sub info s.me.pc s.me.sched

/-- R362, R379, R381: the instruction meets a fault of class P. Its core stops at the boundary of its bundle, and its partition, where it runs,
begins to halt; no unit's state and no byte changes. -/
def HaltsAt (i : Instr) (s : State) (slot code sub : Nat) (info : W64) : Prop :=
  ∃ t, exec i s = .next t ∧ t.issue = .trapped ⟨code, sub, info, slot⟩ ∧ t.me = { s.me with stopped := true }
    ∧ (∀ c, c ≠ s.cur → t.core c = s.core c) ∧ ((s.part s.me.part).pstate = 0 → (t.part s.me.part).pstate = 1)
    ∧ t = { s with cores := t.cores, parts := t.parts, agenda := t.agenda, issue := t.issue }

end Sys2Proof.Machine

/-! ### The spec's tables over plain numbers -/
namespace Sys2Proof.Spec
open Sys2Proof.Machine

/-- The signed value of a w-bit number. -/
def sgn (w x : Nat) : Int := if x % 2 ^ w < 2 ^ (w - 1) then (x % 2 ^ w : Nat) else ((x % 2 ^ w : Nat) : Int) - (2 ^ w : Nat)
/-- An integer modulo 2^w. -/
def wrap (w : Nat) (z : Int) : Nat := (z % ((2 ^ w : Nat) : Int)).toNat
/-- How many of the w low bits of a number are 1. -/
def ones (w x : Nat) : Nat := ((List.range w).filter fun k => x / 2 ^ k % 2 == 1).length
/-- How many zero bits stand above the highest 1 of a w-bit number: the k for which it lies below 2^k. -/
def leading (w x : Nat) : Nat := ((List.range w).filter fun k => decide (x < 2 ^ k)).length
/-- A quotient rounded toward zero and its remainder (R210, R211). -/
def quotient (uns : Bool) (a b : Nat) : Nat :=
  if b = 0 then 2 ^ 64 - 1 else if uns then a / b else wrap 64 (Int.tdiv (sgn 64 a) (sgn 64 b))
def remainder (uns : Bool) (a b : Nat) : Nat :=
  if b = 0 then a else if uns then a % b else wrap 64 (sgn 64 a - Int.tdiv (sgn 64 a) (sgn 64 b) * sgn 64 b)

/-- R210 to R214: latency, destination and result of a scalar operation, from the registers as numbers below 2^64. -/
def scalar (i : Instr) (r : Nat → Nat) : Option (Nat × Nat × Nat) :=
  match i with
  | .add _ d a b => some (1, d.val, (r a + r b) % 2 ^ 64)
  | .sub _ d a b => some (1, d.val, wrap 64 ((r a : Int) - r b))
  | .mul _ d a b => some (3, d.val, r a * r b % 2 ^ 64)
  | .mulh _ d a b u => some (3, d.val, if u then r a * r b / 2 ^ 64 else wrap 64 (sgn 64 (r a) * sgn 64 (r b) / (2 ^ 64 : Nat)))
  | .and _ d a b => some (1, d.val, r a &&& r b)
  | .or _ d a b => some (1, d.val, r a ||| r b)
  | .xor _ d a b => some (1, d.val, r a ^^^ r b)
  | .shl _ d a b => some (1, d.val, r a * 2 ^ (r b % 64) % 2 ^ 64)
  | .shr _ d a b => some (1, d.val, r a / 2 ^ (r b % 64))
  | .sra _ d a b => some (1, d.val, wrap 64 (sgn 64 (r a) / (2 ^ (r b % 64) : Nat)))
  | .min _ d a b u => some (1, d.val, if u then (if r a ≤ r b then r a else r b) else if sgn 64 (r a) ≤ sgn 64 (r b) then r a else r b)
  | .max _ d a b u => some (1, d.val, if u then (if r a ≤ r b then r b else r a) else if sgn 64 (r a) ≤ sgn 64 (r b) then r b else r a)
  | .addsh _ d a b k => some (1, d.val, (r a + r b * 2 ^ k.val) % 2 ^ 64)
  | .clz _ d a => some (1, d.val, leading 64 (r a))
  | .popc _ d a => some (1, d.val, ones 64 (r a))
  | .div _ d a b u => some (20, d.val, quotient u (r a) (r b))
  | .rem _ d a b u => some (20, d.val, remainder u (r a) (r b))
  | .addi _ d a n => some (1, d.val, wrap 64 ((r a : Int) + sgn 10 n))
  | .andi _ d a n => some (1, d.val, r a &&& wrap 64 (sgn 10 n))
  | .ori _ d a n => some (1, d.val, r a ||| n.val)
  | .xori _ d a n => some (1, d.val, r a ^^^ n.val)
  | .shli _ d a n => some (1, d.val, r a * 2 ^ n.val % 2 ^ 64)
  | .shri _ d a n => some (1, d.val, r a / 2 ^ n.val)
  | .srai _ d a n => some (1, d.val, wrap 64 (sgn 64 (r a) / (2 ^ n.val : Nat)))
  | .sext _ d a w => some (1, d.val, wrap 64 (sgn w (r a)))
  | .zext _ d a w => some (1, d.val, r a % 2 ^ w.val)
  | .li _ d n => some (1, d.val, wrap 64 (sgn 16 n))
  | .lih _ d n => some (1, d.val, (r d * 65536 + n.val) % 2 ^ 64)
  | _ => none

/-- R42: the scalar conditions. -/
def cond (c a b : Nat) : Prop :=
  match c with
  | 0 => a = b
  | 1 => a ≠ b
  | 2 => sgn 64 a < sgn 64 b
  | 3 => sgn 64 b ≤ sgn 64 a
  | 4 => a < b
  | _ => b ≤ a

/-- R217, R39: the target of a branch that stands at pc. -/
def target (pc : W64) (o : Fin 262144) : Nat := wrap 64 ((pc.toNat : Int) + 16 * sgn 18 o)

/-- R222: what a taken branch of the bundle at pc leaves of the active loops: those whose body holds the target and whose last bundle is
not the branch, in their order. -/
def keepsLoops (ls ls' : List Loop) (pc target : Nat) : Prop :=
  ls' = ls.filter fun l => decide (l.last.toNat ≠ pc ∧ l.first.toNat ≤ target ∧ target ≤ l.last.toNat)

/-- R221: the loops, innermost first, when the bundle at pc issues without a taken branch: the loops and counters after it and the
next bundle. -/
inductive Ends (pc : W64) : List Loop → (Nat → W32) → List Loop → (Nat → W32) → W64 → Prop where
  | done (lc : Nat → W32) : Ends pc [] lc [] lc (pc + 16)
  | back (l : Loop) (t : List Loop) (lc : Nat → W32) (h : l.last = pc) (n : 1 < (lc l.k).toNat) :
      Ends pc (l :: t) lc (l :: t) (fun k => if k = l.k then lc k - 1 else lc k) l.first
  | out (l : Loop) (t t' : List Loop) (lc lc' : Nat → W32) (n : W64) (h : l.last = pc) (z : (lc l.k).toNat ≤ 1)
      (r : Ends pc t (fun k => if k = l.k then 0 else lc k) t' lc' n) : Ends pc (l :: t) lc t' lc' n
  | skip (l : Loop) (t t' : List Loop) (lc lc' : Nat → W32) (n : W64) (h : l.last ≠ pc) (r : Ends pc t lc t' lc' n) :
      Ends pc (l :: t) lc (l :: t') lc' n

/-- A number that bytes hold, least significant first, as a sum (R2). -/
def number (b : List Byte) : Nat := ((List.range b.length).map fun i => (b.getD i 0).toNat * 256 ^ i).sum

/-! ### Addresses, loads and stores -/

/-- R413: an agenda with one more event, due at a clock: behind no event due later and before none due earlier. -/
def Adds (ag : List (Nat × Instr)) (at_ : Nat) (i : Instr) (ag' : List (Nat × Instr)) : Prop :=
  ∃ a b, ag = a ++ b ∧ ag' = a ++ (at_, i) :: b ∧ (∀ e, e ∈ a → e.1 ≤ at_) ∧ ∀ e, b.head? = some e → at_ ≤ e.1

/-- R38, R40: the signed offset of format M, of 8 bits or, with a lent byte, of 16. -/
def offset (o : Fin 256) (l : Lent) : Int :=
  match l with
  | none => sgn 8 o.val
  | some b => sgn 16 (256 * b.val + o.val)
/-- R38: base + offset × 2^unit, modulo 2^64. -/
def address (base : W64) (unit : Nat) (o : Fin 256) (l : Lent) : W64 :=
  BitVec.ofNat 64 (wrap 64 ((base.toNat : Int) + offset o l * (2 ^ unit : Nat)))
/-- The n bytes from physical address pa on, as core c reads them (R318). -/
def bytesAt (s : State) (c pa n : Nat) : List Byte := (List.range n).map fun i => s.seenByte c (pa + i)
/-- No uncorrectable word lies in the n bytes from pa on (R119). -/
def sound (s : State) (pa n : Nat) : Prop := ∀ w, w ∈ s.badWords → pa + n ≤ w ∨ w + 32 ≤ pa
/-- The n low bytes of a number, least significant first (R2). -/
def bytesOf (n x : Nat) : List Byte := (List.range n).map fun i => BitVec.ofNat 8 (x / 256 ^ i)
/-- What the last of the pieces (address, bytes) that cover an address leaves there. -/
def last : List (Nat × List Byte) → Nat → Byte → Byte
  | [], _, b => b
  | (p, x) :: t, a, b => last t a (if p ≤ a ∧ a < p + x.length then x.getD (a - p) 0 else b)
/-- A store of the current core to this address is at its home at once: a scratchpad of its own quad, for which nothing on the path is waited
for (R154, R167). -/
def atHome (s : State) (pa : Nat) : Bool := ownQuadPad s.cur pa && !s.padWaits s.cur 0
/-- R318, R154: the machine after the current core has stored pieces, in order: those that are at home at once stand there, the others are on
the quad's store path, which its four cores read through; every other byte reads as before. -/
structure Stored (s t : State) (ps : List (Nat × List Byte)) : Prop where
  home : ∀ a, tgetD t.mem a 0 = last (ps.filter fun p => atHome s p.1) a (tgetD s.mem a 0)
  /-- Read through the path, whatever byte stands at the home. -/
  own : ∀ a h, pathByte (t.quad s.myQuad).path a h =
    last (ps.filter fun p => !atHome s p.1) a (pathByte (s.quad s.myQuad).path a h)
  waits : t.padWaits s.cur 0 = s.padWaits s.cur 0
  others : ∀ q, q ≠ s.myQuad → t.quad q = s.quad q
  quad : t.quad s.myQuad = { s.quad s.myQuad with path := (t.quad s.myQuad).path, chans := (t.quad s.myQuad).chans }
  rest : t = { s with mem := t.mem, quads := t.quads, dies := t.dies, agenda := t.agenda, fresh := t.fresh, issue := t.issue, reqs := t.reqs
                      hot := t.hot, pchan := t.pchan, pchanUsed := t.pchanUsed }

/-- R120 to R122, R386, R290: what a load changes beside its result: the counts of the stacks, which may find a region hot, and the notes of
routing passes. -/
structure Noted (s u : State) : Prop where
  rest : u = { s with dies := u.dies, hot := u.hot, pchan := u.pchan, pchanUsed := u.pchanUsed, busyTill := u.busyTill, agenda := u.agenda }
  events : ∀ e, e ∈ u.agenda ↔ e ∈ s.agenda ∨ (e ∈ u.agenda ∧ ∃ k r j, e = (s.clk, Instr.hotRegionSwap k r j))
  dies : ∀ d, u.die d = { s.die d with rte := (u.die d).rte, errCorrected := (u.die d).errCorrected }
  passes : ∀ d, (u.die d).rte.map (fun m => { m with touches := [] }) = (s.die d).rte.map fun m => { m with touches := [] }
/-- A write of a path that stores to memory: it goes to no tile and to no register of the host (R395). -/
def toMem (w : PathStore) : Bool := w.tile.isNone && !inHostBlock w.addr
/-- A byte as it stands at its home once writes have reached it in their order. -/
def homeByte (s : State) (ws : List PathStore) (x : Nat) : Byte :=
  last ((ws.filter toMem).map fun w => (w.addr, w.bytes)) x (tgetD s.mem x 0)
/-- R318: writes of the paths have reached their homes, each path in its order; what a byte then holds it held before or one of those
writes brought. -/
structure Reached (s t : State) : Prop where
  paths : ∀ q, ∃ done, (s.quad q).path = done ++ (t.quad q).path
  bytes : ∀ x, tgetD t.mem x 0 = tgetD s.mem x 0
    ∨ ∃ q w, w ∈ (s.quad q).path ∧ w.tile = none ∧ w.addr ≤ x ∧ x < w.addr + w.bytes.length ∧ tgetD t.mem x 0 = w.bytes.getD (x - w.addr) 0
/-- Every write on its way on a path goes to memory. -/
def plainPaths (s : State) : Prop := ∀ q w, w ∈ (s.quad q).path → toMem w = true
/-- R169: an atomic's registers, width in bytes and new value, from the old value, sB and sD as numbers. -/
def atomic (i : Instr) : Option (Fin 64 × Fin 64 × Fin 64 × Nat × Fin 8 × Bool × (Nat → Nat → Nat → Nat)) :=
  let w (z : Bool) := if z then 8 else 4
  match i with
  | .aadd d a b z c o => some (d, a, b, w z, c, o, fun x y _ => (x + y) % 256 ^ w z)
  | .amin d a b z c o => some (d, a, b, w z, c, o, fun x y _ => if sgn (8 * w z) y < sgn (8 * w z) x then y % 256 ^ w z else x)
  | .amax d a b z c o => some (d, a, b, w z, c, o, fun x y _ => if sgn (8 * w z) x < sgn (8 * w z) y then y % 256 ^ w z else x)
  | .aand d a b z c o => some (d, a, b, w z, c, o, fun x y _ => (x &&& y) % 256 ^ w z)
  | .aor d a b z c o => some (d, a, b, w z, c, o, fun x y _ => (x ||| y) % 256 ^ w z)
  | .axor d a b z c o => some (d, a, b, w z, c, o, fun x y _ => (x ^^^ y) % 256 ^ w z)
  | .aswp d a b z c o => some (d, a, b, w z, c, o, fun _ y _ => y % 256 ^ w z)
  | .acas d a b z c o => some (d, a, b, w z, c, o, fun x y e => if x = e % 256 ^ w z then y % 256 ^ w z else x)
  | _ => none

/-! ### Tiles -/

/-- R170: an address names a live tile of the issuing partition: slot ix of die d, and the tile there. -/
structure Names (s : State) (va : W64) (d ix : Nat) (tl : Tile) : Prop where
  window : kennelBase ≤ va.toNat ∧ va.toNat < kennelBase + 2 ^ 52
  valid : bit (s.part s.me.part).ttbase 0 = true
  die : d = va.toNat / 2 ^ 49 % 8 ∧ d < 6
  slot : ix = va.toNat / 2 ^ 20 % 2 ^ 17
  live : tget (s.die d).tiles ix = some tl
  gen : tl.gen = va.toNat / 2 ^ 37 % 4096
  owner : tl.part = s.me.part
/-- R170: an address names a live tile of another partition. -/
structure NamesOther (s : State) (va : W64) (tl : Tile) : Prop where
  window : kennelBase ≤ va.toNat ∧ va.toNat < kennelBase + 2 ^ 52
  valid : bit (s.part s.me.part).ttbase 0 = true
  die : va.toNat / 2 ^ 49 % 8 < 6
  live : tget (s.die (va.toNat / 2 ^ 49 % 8)).tiles (va.toNat / 2 ^ 20 % 2 ^ 17) = some tl
  gen : tl.gen = va.toNat / 2 ^ 37 % 4096
  owner : tl.part ≠ s.me.part
/-- R170: an address of the Kennel window that names no live tile. -/
structure NamesNone (s : State) (va : W64) (d : Nat) : Prop where
  window : kennelBase ≤ va.toNat ∧ va.toNat < kennelBase + 2 ^ 52
  valid : bit (s.part s.me.part).ttbase 0 = true
  die : d = va.toNat / 2 ^ 49 % 8 ∧ d < 6
  none : ∀ tl, tget (s.die d).tiles (va.toNat / 2 ^ 20 % 2 ^ 17) = some tl → tl.gen ≠ va.toNat / 2 ^ 37 % 4096
/-- R179, R171: one read of a tile is given up; with its last read the tile is gone, its slot gives the next generation, and no port lists it. -/
structure Consumed (s t : State) (d ix : Nat) (tl : Tile) : Prop where
  more : tl.count ≠ 1 → tget (t.die d).tiles ix = some { tl with count := tl.count - 1 } ∧ (t.die d).gens = (s.die d).gens
  last : tl.count = 1 → tget (t.die d).tiles ix = none ∧ (t.die d).gen ix = (if tl.gen = 0xFFF then 1 else tl.gen + 1)
    ∧ ∀ p, ix ∉ tgetD (t.die d).ports p []
  slots : ∀ j, j ≠ ix → tget (t.die d).tiles j = tget (s.die d).tiles j
  dies : ∀ e, e ≠ d → t.die e = s.die e
/-- An interlocked result of the current core: its number, register and value, and when it arrives (R32). -/
def Awaits (s t : State) (d : Nat) (v : W64) (lat : Nat) : Prop :=
  ∃ id, t.me.pend = s.me.pend ++ [⟨id, [keyS d], s.me.bid, s.me.seq, some (.scalar d v)⟩] ∧ (s.clk + lat, Instr.interlockedResultArrives s.cur id) ∈ t.agenda

/-- R78, R82, R413: an HREAD, HSTAT or HREL asks a handle table and is held until the table has told what it found, a fault of which it takes. -/
structure Asks (i : Instr) (s : State) (slot e : Nat) (r : Req) (info : W64) : Prop where
  sends : (∀ h, s.me.hreq = some h → h.pc ≠ s.me.pc) → ∃ t, exec i s = .next t ∧ t.issue = .held
    ∧ t.me = { s.me with hreq := some ⟨s.me.pc, false, 0, 0⟩ } ∧ (∀ j, j ≠ s.cur → t.core j = s.core j) ∧ tget t.reqs s.nextId = some r
    ∧ Adds s.agenda (s.clk + if s.myDie = 2 + e then 6 else 380) (.handleRequestArrives s.nextId) t.agenda
    ∧ t = { s with cores := t.cores, reqs := t.reqs, agenda := t.agenda, nextId := s.nextId + 1, issue := .held }
  waits : ∀ h, s.me.hreq = some h → h.pc = s.me.pc → h.done = false → exec i s = .next (s.mark .held)
  faults : ∀ h, s.me.hreq = some h → h.pc = s.me.pc → h.done = true → h.fault ∈ [9, 10, 12] → Traps i s slot h.fault 0 info

/-! ### Copies -/

/-- R126 to R128, R145: slot, kind, slot-3 form, destination, source and count operands, increment, channel and microword of a copy. -/
def copy (i : Instr) (r : Nat → W64) : Option (Nat × CopyKind × Bool × W64 × W64 × W64 × Nat × Nat × Micro) :=
  match i with
  | .cpyIn a b c n h mw => some (1, .cpy, false, r a.val, r b.val, r c.val, n.val, h.val, mw)
  | .cpyOut a b c n h mw => some (3, .cpy, true, r a.val, r b.val, r c.val, n.val, h.val, mw)
  | .cpygIn a b c n h mw => some (1, .gather, false, r a.val, r b.val, r c.val, n.val, h.val, mw)
  | .cpygOut a b c n h mw => some (3, .gather, true, r a.val, r b.val, r c.val, n.val, h.val, mw)
  | .cpysIn a b c n h mw => some (1, .scatter, false, r a.val, r b.val, r c.val, n.val, h.val, mw)
  | .cpysOut a b c n h mw => some (3, .scatter, true, r a.val, r b.val, r c.val, n.val, h.val, mw)
  | .cpyfIn f b c n h mw => some (1, .fifo f.toNat, false, 0, r b.val, r c.val, n.val, h.val, mw)
  | .cpyfOut f b c n h mw => some (3, .fifo f.toNat, true, 0, r b.val, r c.val, n.val, h.val, mw)
  | _ => none
/-- R136: what a command's shape and count operand may be. -/
structure CopyFits (kind : CopyKind) (m : Nat) (sh : Option ShapeRec) (c : Nat) : Prop where
  shape : mwWalk m = true → sh.isSome = true
  size : mwWalk m = false → c ≤ 2 ^ 28
  convert : mwCv m = true → c % 64 = 0
  transpose : ∀ x, sh = some x → mwTr m ≠ 0 → widthOf (mwTr m) = 2 ^ x.elog ∧ 2 ^ x.elog * x.c0 * x.c1 ≤ 65536
  rows : ∀ x, sh = some x → kind = .scatter → x.c2 = 1 ∧ x.c3 = 1
  gather : kind = .gather → c % widthOf (mwGix m) = 0
  scatter : kind = .scatter → c % widthOf (mwSix m) = 0

/-- R107: an entry of every TLB stays just where a removal does not name it, and every write that went through an entry it names has reached
its home. -/
structure Removed (s t : State) (f : TlbEnt → Bool) : Prop where
  quads : ∀ q, (t.quad q).tlb = (s.quad q).tlb.filter fun e => !f e
  dies : ∀ d, (t.die d).tlb = (s.die d).tlb.filter fun e => !f e
  reached : Reached s t
  done : ∀ e, f e = true → ((∃ q, e ∈ (s.quad q).tlb) ∨ ∃ d, e ∈ (s.die d).tlb) → ∀ q w, w ∈ (t.quad q).path → s.within e w = false
/-- What the removal leaves as it is, where every write on its way goes to memory. -/
structure RemovedOnly (s t : State) : Prop where
  quads : ∀ q, t.quad q = { s.quad q with tlb := (t.quad q).tlb, path := (t.quad q).path }
  dies : ∀ d, t.die d = { s.die d with tlb := (t.die d).tlb, wcache := (t.die d).wcache }
  cores : ∀ j, j ≠ s.cur → t.core j = { s.core j with walked := (t.core j).walked }
  me : t.me = { s.me with walked := t.me.walked, dyn := t.me.dyn }
  rest : t = { s with cores := t.cores, quads := t.quads, dies := t.dies, mem := t.mem, issue := t.issue, parts := t.parts }

/-! ### Vectors -/

/-- R198: element k of a lane, and the number that a w-bit element stands for. -/
def elem (w : Nat) (x : W32) (k : Nat) : Nat := x.toNat / 2 ^ (w * k) % 2 ^ w
def value (w : Nat) (uns : Bool) (x : Nat) : Int := if uns then (x % 2 ^ w : Nat) else sgn w x
/-- R227: an exact result as an element: its low bits, or the number of the element's range that is nearest to it. -/
def fit (w : Nat) (uns sat : Bool) (z : Int) : Nat :=
  wrap w (if sat then (if uns then max 0 (min z ((2 ^ w : Nat) - 1)) else max (-(2 ^ (w - 1) : Nat)) (min z ((2 ^ (w - 1) : Nat) - 1))) else z)
/-- R42: element widths by element code, and the float types. -/
def width (e : Nat) : Nat := if e = 0 then 32 else if e = 1 then 16 else 8
def float (t : Nat) : FF := if t = 0 then fp32 else if t = 1 then bf16 else fp16

/-- R227 to R229, R231: latency, element width, destination, sources, predicate, block shape and element result of the operations
that round nothing. -/
def elements (i : Instr) : Option (Nat × Nat × Fin 64 × Fin 64 × Fin 64 × Fin 8 × Lent × (Nat → Nat → Nat)) :=
  match i with
  | .vadd d a b p e u t sh =>
    let w := width e.val
    some (2, w, d, a, b, p, sh, fun x y => fit w u t (value w u x + value w u y))
  | .vsub d a b p e u t sh =>
    let w := width e.val
    some (2, w, d, a, b, p, sh, fun x y => fit w u t (value w u x - value w u y))
  | .vmul d a b p e u t sh =>
    let w := width e.val
    some (4, w, d, a, b, p, sh, fun x y => fit w u t (value w u x * value w u y))
  | .vmulh d a b p e u sh =>
    let w := width e.val
    some (4, w, d, a, b, p, sh, fun x y => wrap w (value w u x * value w u y / (2 ^ w : Nat)))
  | .vmin d a b p e u sh =>
    let w := width e.val
    some (2, w, d, a, b, p, sh, fun x y => if value w u x < value w u y then x else y)
  | .vmax d a b p e u sh =>
    let w := width e.val
    some (2, w, d, a, b, p, sh, fun x y => if value w u x < value w u y then y else x)
  | .vand d a b p sh => some (2, 32, d, a, b, p, sh, fun x y => x &&& y)
  | .vor d a b p sh => some (2, 32, d, a, b, p, sh, fun x y => x ||| y)
  | .vxor d a b p sh => some (2, 32, d, a, b, p, sh, fun x y => x ^^^ y)
  | .vshl d a b p e sh => some (2, width e.val, d, a, b, p, sh, fun x y => x * 2 ^ (y % width e.val) % 2 ^ width e.val)
  | .vshr d a b p e sh => some (2, width e.val, d, a, b, p, sh, fun x y => x / 2 ^ (y % width e.val))
  | .vsra d a b p e sh =>
    let w := width e.val
    some (2, w, d, a, b, p, sh, fun x y => wrap w (sgn w x / (2 ^ (y % w) : Nat)))
  | .vabs d a p e t sh => some (2, width e.val, d, a, a, p, sh, fun x _ => fit (width e.val) false t (sgn (width e.val) x).natAbs)
  | .vneg d a p e t sh => some (2, width e.val, d, a, a, p, sh, fun x _ => fit (width e.val) false t (-sgn (width e.val) x))
  | .vclz d a p e sh => some (2, width e.val, d, a, a, p, sh, fun x _ => leading (width e.val) x)
  | .vpopc d a p e sh => some (2, width e.val, d, a, a, p, sh, fun x _ => ones (width e.val) x)
  | .vaddi d a p n sh => some (2, 32, d, a, a, p, sh, fun x _ => wrap 32 ((x : Int) + sgn 10 n.val))
  | .vli d p n sh => some (2, 32, d, d, d, p, sh, fun _ _ => wrap 32 (sgn 10 n.val))
  | .vmov d a p sh => some (2, 32, d, a, a, p, sh, fun x _ => x)
  | .vfmin d a b p t sh =>
    let f := float t.val
    some (2, f.width, d, a, b, p, sh, fun x y =>
      if (f.dec x).isNan || (f.dec y).isNan then f.canon else if (f.dec x).below (f.dec y) then x else y)
  | .vfmax d a b p t sh =>
    let f := float t.val
    some (2, f.width, d, a, b, p, sh, fun x y =>
      if (f.dec x).isNan || (f.dec y).isNan then f.canon else if (f.dec x).below (f.dec y) then y else x)
  | .vfabs d a p t sh =>
    let f := float t.val
    some (2, f.width, d, a, a, p, sh, fun x _ => if (f.dec x).isNan then f.canon else x % 2 ^ (f.width - 1))
  | .vfneg d a p t sh =>
    let f := float t.val
    some (2, f.width, d, a, a, p, sh, fun x _ => if (f.dec x).isNan then f.canon else x ^^^ 2 ^ (f.width - 1))
  | _ => none
/-- R229: destination, sources, predicate, type, rounding and shape of an operation that rounds, and its exact value from those of the two
sources and the addend. -/
def rounded (i : Instr) : Option (Fin 64 × Fin 64 × Fin 64 × Fin 8 × Fin 4 × Fin 4 × Lent × (Bool → Machine.Num → Machine.Num → Machine.Num → Machine.Num)) :=
  match i with
  | .vfadd d a b p t r sh => some (d, a, b, p, t, r, sh, fun rdn x y _ => Machine.Num.add rdn x y)
  | .vfsub d a b p t r sh => some (d, a, b, p, t, r, sh, fun rdn x y _ => Machine.Num.add rdn x y.neg)
  | .vfmul d a b p t r sh => some (d, a, b, p, t, r, sh, fun _ x y _ => x.mul y)
  | .vfma d a b p t r sh => some (d, a, b, p, t, r, sh, fun rdn x y z => Machine.Num.add rdn (x.mul y) z)
  | _ => none
/-- How many lanes of cluster c below lane l a predicate turns on. -/
def below (p : Pred) (c l : Nat) : Nat := ((List.range l).filter fun m => p.getLsbD (16 * c + m)).length
/-- R200: nothing has changed but the generators; and of the clusters of an extent, each generator has been drawn from so often. -/
def Drew (s t u : State) (cs n : Nat) (draws : Nat → Nat) : Prop :=
  t = { u with gens := t.gens }
  ∧ (∀ j, j < n → t.gen s.myPart (8 * s.cur + (cs + j)) = advanceGen (draws (cs + j)) (s.gen s.myPart (8 * s.cur + (cs + j))))
  ∧ ∀ g, (∀ j, j < n → g ≠ 8 * s.cur + (cs + j)) → t.gen s.myPart g = s.gen s.myPart g
/-- R238: bit i of the bitmap of a block in cluster c. -/
def bitmap (s : State) (a c i : Nat) : Bool := (lane (s.vsrc a (i / 512) c) (i / 32 % 16)).getLsbD (i % 32)
/-- How many bits below q are set. -/
def rank (f : Nat → Bool) (q : Nat) : Nat := ((List.range q).filter f).length

/-! ### Engines -/

/-- R271: the 64 aligned bytes of a descriptor that the issuing core can read, and the latency of their place. -/
def Reads (s : State) (va : W64) (d : List Byte) (lat : Nat) : Prop :=
  va.toNat % 64 = 0 ∧ ∃ pa leaf, s.translate s.ctx .load va = .at_ (.phys pa) leaf ∧ sound s pa 64
    ∧ bytesAt s s.cur pa 64 = d ∧ lat = s.loadLatency (.phys pa)
/-- R243: core c holds the turn of its quad q alone, and nothing has ended it. -/
structure HasTurn (s : State) (q c : Nat) : Prop where
  quad : q = s.myQuad ∧ q = c / 4 ∧ c = s.cur
  turn : (s.arr q).turn = some c
  count : (s.arr q).turnCount < 16
  clock : s.clk < (s.arr q).turnClk + 8192
  nobody : s.someoneWaits q = false
  room : (s.arr q).queue.length < 8
/-- R243, R252: a matrix command has been accepted: it stands behind the queue of its quad, whose commands have made the progress that this clock
allows them, and it counts in the turn, which its 16th command ends. -/
structure Accepted (s t : State) (q : Nat) (x : MatCmd) : Prop where
  queue : ∃ y, (t.arr q).queue = ((s.settleArr q).arr q).queue ++ [y]
    ∧ y = { x with id := s.nextId, clk := s.clk, geoA := bits s.me.mgeo 1 0, geoB := bits s.me.mgeo 3 2, pc := s.me.pc, tag := s.me.tag }
  turn : (t.arr q).turn = if (s.arr q).turnCount = 15 then none else some s.cur
  banks : (t.arr q).banks = (s.arr q).banks ∧ (t.arr q).lessees = (s.arr q).lessees ∧ (t.arr q).wants = (s.arr q).wants.filter (· != s.cur)
  quads : (∀ p, p ≠ q → t.quad p = s.quad p) ∧ t.quad q = { s.quad q with arr := (t.quad q).arr, fifo := (t.quad q).fifo }
  rest : t = { s with quads := t.quads, agenda := t.agenda, nextId := s.nextId + 1, issue := t.issue }

/-- R243, R246: the current core leads a group, every member of which is a lessee, and holds the group's turn on all its arrays, which nothing has ended. -/
structure GroupTurn (s : State) (x : Lessee) : Prop where
  group : isGroup x.word = true
  leads : s.leader s.myQuad x = s.cur
  whole : s.whole s.myQuad x = true
  mine : s.myQuad ∈ groupQuads s.myQuad x.word
  turn : ∀ p, p ∈ groupQuads s.myQuad x.word → (s.arr p).turn = some s.cur ∧ (s.arr p).turnCount < 16 ∧ s.clk < (s.arr p).turnClk + 8192
    ∧ s.someoneWaits p = false ∧ (s.arr p).queue.length < 8
/-- R246, R247: a command of a group has been accepted on every member array in one clock, each as that of the member's core, behind its queue. -/
structure GroupAccepted (s t : State) (x : Lessee) (c : MatCmd) : Prop where
  queues : ∀ p, p ∈ groupQuads s.myQuad x.word → ∃ y e, s.member p x.word = some e ∧ (t.arr p).queue = ((s.settleArr p).arr p).queue ++ [y]
    ∧ y = { c with id := s.nextId, clk := s.clk, core := e.core, geoA := bits (s.core e.core).mgeo 1 0, geoB := bits (s.core e.core).mgeo 3 2
                   pc := s.me.pc, tag := s.me.tag, grp := some ((groupQuads s.myQuad x.word).headD s.myQuad, x.word) }
  banks : ∀ p, (t.arr p).banks = (s.arr p).banks ∧ (t.arr p).lessees = (s.arr p).lessees
  counts : ∀ p, p ∈ groupQuads s.myQuad x.word → (s.arr s.myQuad).turnCount < 15 →
    (t.arr p).turn = some s.cur ∧ (t.arr p).turnCount = (s.arr p).turnCount + 1
  quads : ∀ p, p ∉ groupQuads s.myQuad x.word → t.quad p = s.quad p
  rest : t = { s with quads := t.quads, agenda := t.agenda, nextId := s.nextId + 1, issue := t.issue }

/-! ### Events -/

/-- R32: the pending result of a core with a number has its value, which arrives after a while. -/
def Answered (s t : State) (c id : Nat) (v : W64) (lat : Nat) : Prop :=
  ∀ p, p ∈ (s.core c).pend → p.id = id →
    { p with value := some (.scalar (p.keys.getD 0 0) v) } ∈ (t.core c).pend ∧ (s.clk + lat, Instr.interlockedResultArrives c id) ∈ t.agenda
/-- R78: the bundle of core c's context in partition p, which waits at a handle table, is told a fault's code, or 0, and a result. -/
def Told (s t : State) (c p fault : Nat) (v : W64) : Prop :=
  ∀ r, (s.core c).hreq = some r → r.done = false → (s.core c).task.isSome = true → (s.core c).part = p →
    (t.core c).hreq = some { r with done := true, fault := fault, value := v }
/-- R404: a command of the mailbox acts, with the machine as it then is: its write has made it busy and it is its turn, or it comes while the mailbox
is idle, in a package that is ready. -/
def Mailed (s u : State) (op : Nat) (ev : Instr) : Prop :=
  s.ready = true ∧ ((s.mboxState = 1 ∧ s.mboxNext = some ev ∧ u = { s with mboxNext := none })
    ∨ (s.mboxState ≠ 1 ∧ u = { s with mboxOp := op, mboxState := 1, mboxDetail := 0 }))
/-- R140, R141: a command of channel h of core c has been counted: its increment is in the counter, which saturates. -/
def Counted (s t : State) (c h inc : Nat) : Prop :=
  (tgetD (t.core c).cc h 0).toNat = min 0xFFFFFFFF ((tgetD (s.core c).cc h 0).toNat + inc)
  ∧ (0xFFFFFFFF < (tgetD (s.core c).cc h 0).toNat + inc → (t.core c).ccsat = (s.core c).ccsat ||| BitVec.ofNat 8 (2 ^ h))
  ∧ ∀ g, g ≠ h → tgetD (t.core c).cc g 0 = tgetD (s.core c).cc g 0
end Sys2Proof.Spec
end

