-- ==== Sys2Proof/Certificates/Slice0/Obligations.lean ====
section
/-! DEFINITION. The statements for the provers. Each names the rule of spec/ it formalises; `Clear`, `OnlyCore`, `Trapped` and the
tables of `Spec` stand in Sys2Proof/Safety.lean. -/
open Sys2Proof Sys2Proof.Machine

/-! ### Slot 0 -/

/-- R210 to R214: every scalar operation answers the state in which its result, computed over plain numbers, is on its way to its
destination with the operation's latency, and nothing else has changed. -/
def Obligations.ScalarResults : Prop :=
  ∀ (i : Instr) (s : State) (lat d v : Nat),
    Spec.scalar i (fun r => (s.me.sreg r).toNat) = some (lat, d, v) → Clear i s →
    exec i s = .next ((s.push 0 lat (.scalar d (BitVec.ofNat 64 v))).mark .issued)

/-- R215, R209: a scalar compare writes 1 or 0, as its condition holds of the two values, to all 128 bits of its predicate, with latency 1.
R216: PLOG writes, in each of the 128 lanes, bit 2a + b of its truth table, with latency 1. -/
def Obligations.ComparesAndPredicates : Prop :=
  (∀ (st p c : Fin 8) (a : Fin 64) (s : State),
     (∀ b : Fin 64, Clear (.cmp st p c a b) s → ∃ v : Pred,
       exec (.cmp st p c a b) s = .next ((s.push 0 1 (.pred p.val (BitVec.allOnes 128) v)).mark .issued)
       ∧ ∀ l, l < 128 → (v.getLsbD l = true ↔ Spec.cond c.val (s.me.sreg a.val).toNat (s.me.sreg b.val).toNat))
     ∧ (∀ n : Fin 1024, Clear (.cmpi st p c a n) s → ∃ v : Pred,
       exec (.cmpi st p c a n) s = .next ((s.push 0 1 (.pred p.val (BitVec.allOnes 128) v)).mark .issued)
       ∧ ∀ l, l < 128 → (v.getLsbD l = true ↔ Spec.cond c.val (s.me.sreg a.val).toNat (Spec.wrap 64 (Spec.sgn 10 n.val)))))
  ∧ (∀ (st d a b : Fin 8) (t : Fin 16) (s : State), Clear (.plog st d a b t) s → ∃ v : Pred,
       exec (.plog st d a b t) s = .next ((s.push 0 1 (.pred d.val (BitVec.allOnes 128) v)).mark .issued)
       ∧ ∀ l, l < 128 → v.getLsbD l = t.val.testBit (2 * ((s.me.preg a.val).getLsbD l).toNat + ((s.me.preg b.val).getLsbD l).toNat))

/-- R28, R26, R168: NOP in every slot, the header, and MARK (which orders at .core, where every access is performed already) change no
state. -/
def Obligations.NoOperations : Prop :=
  ∀ s : State,
    (∀ st : Fin 8, exec (.nopS st) s = .next (s.mark .issued))
    ∧ exec .nop s = .next (s.mark .issued)
    ∧ exec .mark s = .next (s.mark .issued)
    ∧ ∀ (st : Fin 8) (w z y x : Bool) (c b a : Fin 256), Instr.wf (.hdr st w z y x c b a) = true →
        exec (.hdr st w z y x c b a) s = .next (s.mark .issued)

/-- R217, R219, R222, R29: BR and CALL are taken as bit 0 of the predicate, XORed with neg, is 1; the next bundle is then the target, 2
scheduled clocks later, and CALL writes the return address to s63; not taken they change nothing. R218, R48: JR jumps to an aligned address;
a misaligned one traps with code 7 at the JR, which takes no effect. -/
def Obligations.ControlTransfers : Prop :=
  (∀ (st p : Fin 8) (n : Bool) (o : Fin 262144) (s : State),
     let taken := (s.me.preg p.val).getLsbD 0 != n
     (Clear (.br st p n o) s →
       (taken = false → exec (.br st p n o) s = .next (s.mark .issued))
       ∧ (taken = true → ∃ t, exec (.br st p n o) s = .next t ∧ t.issue = .issued ∧ OnlyCore s t
           ∧ t.me.pc.toNat = Spec.target s.me.pc o ∧ t.me.extra = s.me.extra + 2
           ∧ Spec.keepsLoops s.me.loops t.me.loops s.me.pc.toNat t.me.pc.toNat
           ∧ t.me = { s.me with pc := t.me.pc, jumped := true, extra := t.me.extra, loops := t.me.loops }))
     ∧ (Clear (.call st p n o) s →
       (taken = false → exec (.call st p n o) s = .next (s.mark .issued))
       ∧ (taken = true → ∃ t, exec (.call st p n o) s = .next t ∧ t.issue = .issued ∧ OnlyCore s t
           ∧ t.me.pc.toNat = Spec.target s.me.pc o ∧ t.me.extra = s.me.extra + 2
           ∧ Spec.keepsLoops s.me.loops t.me.loops s.me.pc.toNat t.me.pc.toNat
           ∧ t.me = { s.me.push 0 1 (.scalar 63 (s.me.pc + 16)) with
               pc := t.me.pc, jumped := true, extra := t.me.extra, loops := t.me.loops })))
  ∧ (∀ (st : Fin 8) (a : Fin 64) (s : State), Clear (.jr st a) s →
       ((s.me.sreg a.val).toNat % 16 = 0 → ∃ t, exec (.jr st a) s = .next t ∧ t.issue = .issued ∧ OnlyCore s t
           ∧ t.me.pc = s.me.sreg a.val ∧ t.me.extra = s.me.extra + 2
           ∧ Spec.keepsLoops s.me.loops t.me.loops s.me.pc.toNat t.me.pc.toNat
           ∧ t.me = { s.me with pc := t.me.pc, jumped := true, extra := t.me.extra, loops := t.me.loops })
       ∧ ((s.me.sreg a.val).toNat % 16 ≠ 0 → TakesNow s 7 → Trappable s → ∃ t, exec (.jr st a) s = .next t
           ∧ t.issue = .trapped ⟨7, 0, 0, 0⟩ ∧ Trapped s t 0 7 0 0 s.me.pc s.me.sched))

/-- R220: LOOP, with its count immediate or in a register, arms a loop over the len + 1 bundles after it, or, with count 0, goes past its body
as if the body's last bundle had issued, and then ends the iterations of the loops whose last bundle is its own (R221, the model's reading,
assumption 23); a level in use, or a body that overlaps the end of an active loop's, is a loop fault, and a register count above 0xFFFF_FFFF
an invalid-operand fault (which comes before a loop fault: the model's choice, assumption 136). R221: the end of a bundle without a taken
branch ends the iterations of the loops whose last bundle it is. -/
def Obligations.Loops : Prop :=
  (∀ (st : Fin 8) (k : Fin 4) (l : Fin 256) (s : State) (i : Instr) (count : Nat),
     ((∃ c : Fin 1024, i = .loopImm st k c l ∧ count = c.val)
       ∨ (∃ r : Fin 64, i = .loopReg st k r l ∧ count = (s.me.sreg r.val).toNat)) → Clear i s →
     let first := s.me.pc + 16
     let last := first + BitVec.ofNat 64 (16 * l.val)
     let used := s.me.loops.any fun x => x.k == k.val
     let crosses := s.me.loops.any fun x => decide (x.first.toNat ≤ first.toNat ∧ first.toNat ≤ x.last.toNat ∧ x.last.toNat < last.toNat)
     (count < 2 ^ 32 → used = false → crosses = false → ∃ t, exec i s = .next t ∧ t.issue = .issued ∧ OnlyCore s t
         ∧ t.me = { s.me with lc := t.me.lc, loops := t.me.loops, pc := t.me.pc, jumped := t.me.jumped }
         ∧ (count ≠ 0 → t.me.loops = ⟨k.val, first, last⟩ :: s.me.loops ∧ t.me.pc = s.me.pc ∧ t.me.jumped = s.me.jumped
             ∧ ∀ j, t.me.lcount j = if j = k.val then BitVec.ofNat 32 count else s.me.lcount j)
         ∧ (count = 0 → t.me.jumped = true ∧ ∃ ls lc n n',
             Spec.Ends last s.me.loops (fun j => if j = k.val then 0 else s.me.lcount j) ls lc n
             ∧ Spec.Ends s.me.pc ls lc t.me.loops t.me.lcount n' ∧ t.me.pc = if n' = s.me.pc + 16 then n else n'))
     ∧ (count < 2 ^ 32 → (used || crosses) = true → TakesNow s 8 → Trappable s → ∃ t, exec i s = .next t
         ∧ t.issue = .trapped ⟨8, 0, 0, 0⟩ ∧ Trapped s t 0 8 0 0 s.me.pc s.me.sched)
     ∧ (2 ^ 32 ≤ count → TakesNow s 5 → Trappable s → ∃ t, exec i s = .next t
         ∧ t.issue = .trapped ⟨5, 0, 0, 0⟩ ∧ Trapped s t 0 5 0 0 s.me.pc s.me.sched))
  ∧ (∀ s : State, ∃ t, exec .loopEnd s = .next t ∧ OnlyCore s t ∧ t.me.jumped = true
       ∧ Spec.Ends s.me.pc s.me.loops s.me.lcount t.me.loops t.me.lcount t.me.pc
       ∧ t.me = { s.me with loops := t.me.loops, lc := t.me.lc, pc := t.me.pc, lbuf := t.me.lbuf, jumped := true })

/-! ### Results landing -/

/-- R30, R37, R209: a single write whose latency has elapsed lands at REGISTER_WRITE_LANDS. A scalar register then holds the value; a predicate
and a register-cluster hold the new bits or lanes where the write's lanes are 1 and keep the others; s0 and p0 discard it, and every other
register keeps what it held. A write on whose register a later-issued write has landed is discarded. R30: writes land in issue order. Of
several writes to one scalar register that have become readable, the one issued last stays. -/
def Obligations.WritesLand : Prop :=
  (∀ (c : Nat) (s : State) (f : Flight),
     ((s.core c).flight.filter fun g => decide (g.due ≤ (s.core c).sched)) = [f] →
     let k := s.core c
     let late := fun q => f.keep = false ∧ ∃ n, tget k.landed q = some n ∧ f.seq < n
     ∃ t, exec (.registerWriteLands c) s = .next t ∧ (∀ j, j ≠ c → t.core j = s.core j) ∧ t = { s with cores := t.cores }
       ∧ (let k' := t.core c
         k' = { k with s := k'.s, p := k'.p, v := k'.v, pwp := k'.pwp, flight := k'.flight, landed := k'.landed }
         ∧ k'.flight = k.flight.filter (fun g => decide (k.sched < g.due))
         ∧ (∀ r v, f.w = .scalar r v →
             (∀ q, k'.sreg q = if q = r ∧ r ≠ 0 ∧ ¬ late (keyS r) then v else k.sreg q)
             ∧ k'.p = k.p ∧ k'.v = k.v ∧ k'.pwp = k.pwp)
         ∧ (∀ r lanes b, f.w = .pred r lanes b →
             (∀ q l, l < 128 → (k'.preg q).getLsbD l =
               if q = r ∧ r ≠ 0 ∧ ¬ late (keyP r) ∧ lanes.getLsbD l = true then b.getLsbD l else (k.preg q).getLsbD l)
             ∧ k'.s = k.s ∧ k'.v = k.v ∧ k'.pwp = k.pwp)
         ∧ (∀ r rows cs n lanes data, f.w = .vec r rows cs n lanes data → cs + n ≤ 8 →
             (∀ q g l, g < 8 → l < 16 → lane (k'.vreg q g) l =
               if r ≤ q ∧ q < r + rows ∧ cs ≤ g ∧ g < cs + n ∧ ¬ late (keyV q g) ∧ lanes.getLsbD (16 * g + l) = true
               then lane (data.getD (n * (q - r) + (g - cs)) 0) l else lane (k.vreg q g) l)
             ∧ k'.s = k.s ∧ k'.p = k.p ∧ k'.pwp = k.pwp)))
  ∧ (∀ (c r : Nat) (s : State), r ≠ 0 →
       let k := s.core c
       let now := k.flight.filter fun g => decide (g.due ≤ k.sched)
       (now.map (·.seq)).Pairwise (· < ·) →
       (∀ n, tget k.landed r = some n → ∀ f, f ∈ now → n ≤ f.seq) →
       ∃ t, exec (.registerWriteLands c) s = .next t
         ∧ (t.core c).sreg r = ((now.filterMap fun f => match f.w with | .scalar q v => if q = r then some v else none | _ => none).getLast?).getD (k.sreg r))

/-- R32: when an interlocked result arrives, its register holds the value and is no longer pending; a result whose value is not known
yet, or is of nobody, changes nothing. R30: it has landed as issued with its instruction, so that an earlier-issued write of the register
that is still in flight will be discarded. -/
def Obligations.InterlockedResultArrives : Prop :=
  ∀ (c id : Nat) (s : State), ∃ t, exec (.interlockedResultArrives c id) s = .next t
    ∧ (∀ p r v, (s.core c).pend.find? (fun p => p.id == id) = some p → p.value = some (.scalar r v) →
        (∀ q, (t.core c).sreg q = if q = r ∧ r ≠ 0 then v else (s.core c).sreg q)
        ∧ (t.core c).pend = (s.core c).pend.filter (fun p => p.id != id)
        ∧ ((s.core c).flight ≠ [] → ∀ q, tget (t.core c).landed q = if q = keyS r then some p.seq else tget (s.core c).landed q)
        ∧ ((s.core c).flight = [] → (t.core c).landed = (s.core c).landed)
        ∧ t.core c = { s.core c with s := (t.core c).s, pend := (t.core c).pend, landed := (t.core c).landed }
        ∧ (∀ j, j ≠ c → t.core j = s.core j) ∧ t = { s with cores := t.cores })
    ∧ (((s.core c).pend.find? (fun p => p.id == id) = none
        ∨ ∃ p, (s.core c).pend.find? (fun p => p.id == id) = some p ∧ p.value = none) → t = s)


/-! ### Barriers, supersteps and tasks -/

/-- R225, R16: BAR at .lane completes in its bundle; at .core it holds issue, as a stall count does, until the last fixed-latency result in
flight is readable and no longer; at .quad and wider it records one arrival, which completes the instance when it is the last, and the core
waits for it. At .quad a task of no coop node, and a group of no members, is an invalid-operand fault (the second is the model's reading,
assumption 41); that a bundle's own results are waited for, and that the completion comes in the next clock, are the model's (assumptions 48
and 71), as is the set of writes that a release covers (assumption 157). R296, R293: SSTEP records one arrival of its partition and waits
for the boundary it counts for, the one after next in an exchange phase. The arrival that makes up the members ends the compute phase. With
supersteps disabled, or at the other scope, it is an invalid-operand fault. Which writes its release waits for is the model's choice
(assumption 157). -/
def Obligations.Arrivals : Prop :=
  (∀ (st c : Fin 8) (g : Fin 256) (s : State), Clear (.bar st c g) s →
     let k := s.me
     let x := s.part k.part
     let key := barKey s.cur c.val g.val
     let old := (tgetD x.bars key []).tail
     let size := if c.val = 2 then 4 else tgetD x.groups g.val 0
     (c.val = 0 → exec (.bar st c g) s = .next (s.mark .issued))
     ∧ (c.val = 1 → ∃ n, exec (.bar st c g) s = .next ((s.setMe { k with extra := k.extra + n }).mark .issued)
         ∧ (∀ f, f ∈ k.flight → f.due ≤ k.sched + 1 + st.val + (k.extra + n))
         ∧ (n ≠ 0 → ∃ f, f ∈ k.flight ∧ f.due = k.sched + 1 + st.val + (k.extra + n)))
     ∧ (2 ≤ c.val → (if c.val = 2 then k.coop = true else 0 < size ∧ s.releaseOut s.cur = false) → s.tileWritesOut s.cur = false →
         ∃ t inst, exec (.bar st c g) s = .next t ∧ t.issue = .issued
           ∧ t.me = { k with post := .bar c.val inst g.val } ∧ (∀ j, j ≠ s.cur → t.core j = s.core j)
           ∧ (old.length + 1 < size → tget (t.part k.part).bars key = some (inst :: (old ++ [s.cur])) ∧ t.agenda = s.agenda)
           ∧ (size ≤ old.length + 1 → tget (t.part k.part).bars key = none
               ∧ Spec.Adds s.agenda (s.clk + 1) (.barComplete c.val inst k.part g.val) t.agenda)
           ∧ (∀ q, q ≠ k.part → t.part q = s.part q)
           ∧ t = { s with cores := t.cores, parts := t.parts, agenda := t.agenda, nextId := t.nextId, issue := .issued })
     ∧ (2 ≤ c.val → (if c.val = 2 then k.coop = false else size = 0) → Traps (.bar st c g) s 0 5 0 0))
  ∧ (∀ (st c : Fin 8) (s : State), Clear (.sstep st c) s →
       let p := s.me.part
       let x := s.part p
       (x.members ≠ 0 → x.pod = (c.val == 5) → s.releaseOut s.cur = false → ∃ t, exec (.sstep st c) s = .next t ∧ t.issue = .issued
         ∧ t.me = { s.me with post := .sstep (x.ssCount + if x.ssExchange then 2 else 1) } ∧ (∀ j, j ≠ s.cur → t.core j = s.core j)
         ∧ (x.ssExchange = true ∨ x.ssArrived + 1 < x.members →
             t.part p = { x with ssArrived := x.ssArrived + 1 } ∧ t = { s with cores := t.cores, parts := t.parts, issue := .issued })
         ∧ (x.ssExchange = false → x.members ≤ x.ssArrived + 1 →
             (t.part p).ssExchange = true ∧ (t.part p).ssArrived = 0 ∧ (t.part p).ssCount = x.ssCount)
         ∧ t.mem = s.mem ∧ t.quads = s.quads)
       ∧ (x.members = 0 ∨ x.pod ≠ (c.val == 5) → Traps (.sstep st c) s 0 5 0 0))

/-- R353: GLOAD answers the value its number names, 2 clocks later and interlocked; a number from 9 on is an invalid-operand fault. R351, R352,
R35: PARK and YIELD leave their core at a suspension point after their bundle, PARK until the Beacon has counted its ticks and YIELD, like
PARK 0, at once; in a coop task they are an invalid-operand fault. TDONE leaves it at its task's end, which in a coop task first arrives at
the quad's barrier, whose completion comes in the next clock (the model's choice, assumption 71). R350: TSPAWN checks its operands, reads
the record as a load and checks it for the issuing partition and the die; when no earlier access of the core is unperformed at .pkg, the
record is on its way to the die's scheduler, 6 clocks to its own die and 380 to another, and the core waits for the insertion. A page of the
record's image under migration is waited for (R118). Which writes its release waits for is the model's choice (assumption 157). -/
def Obligations.TaskInstructions : Prop :=
  (∀ (d : Fin 64) (k : Fin 1024) (l : Lent) (s : State) (t : Task), Clear (.gload d k l) s → s.me.task = some t →
     (∀ v : W64, (k.val + 1024 * (l.elim 0 (·.val)), v) ∈
         [(0, t.args.getD 0 0), (1, t.args.getD 1 0), (2, t.args.getD 2 0), (3, t.args.getD 3 0), (4, BitVec.ofNat 64 t.inst),
          (5, BitVec.ofNat 64 (t.tmpl * 65536 + t.node)), (6, BitVec.ofNat 64 t.member), (7, BitVec.ofNat 64 t.tag),
          (8, BitVec.ofNat 64 t.part)] →
       exec (.gload d k l) s = .next ((s.pend [keyS d.val] (some (.scalar d.val v)) 2).2.mark .issued))
     ∧ (9 ≤ k.val + 1024 * (l.elim 0 (·.val)) → Traps (.gload d k l) s 1 5 0 0))
  ∧ (∀ (st : Fin 8) (s : State),
       (Clear (.yield st) s →
         (s.me.coop = false → exec (.yield st) s = .next ((s.setMe { s.me with post := .suspend 2 0 0 0 }).mark .issued))
         ∧ (s.me.coop = true → Traps (.yield st) s 0 5 0 0))
       ∧ (∀ n : Fin 524288, Clear (.park st n) s →
         (s.me.coop = false → n.val = 0 → exec (.park st n) s = .next ((s.setMe { s.me with post := .suspend 2 0 0 0 }).mark .issued))
         ∧ (s.me.coop = false → n.val ≠ 0 → ∃ wake, exec (.park st n) s = .next ((s.setMe { s.me with post := .suspend 1 0 wake 0 }).mark .issued)
             ∧ (s.tick + n.val < s.frameTicks → wake = BitVec.ofNat 64 (s.frame * 2 ^ 24 + (s.tick + n.val)))
             -- across frame ends: every later frame has the length that is then in force (R309)
             ∧ (let next := s.frameTicksNew.getD s.frameTicks
                s.frameTicks ≤ s.tick + n.val → 0 < next →
                  ∃ e r, r < next ∧ s.tick + n.val = s.frameTicks + e * next + r ∧ wake = BitVec.ofNat 64 ((s.frame + 1 + e) * 2 ^ 24 + r)))
         ∧ (s.me.coop = true → Traps (.park st n) s 0 5 0 0))
       ∧ (Clear (.tdone st) s →
         (s.me.coop = false → exec (.tdone st) s = .next ((s.setMe { s.me with post := .suspend 5 0 0 0 }).mark .issued))
         ∧ (s.me.coop = true → ∃ t inst, exec (.tdone st) s = .next t ∧ t.issue = .issued ∧ t.me = { s.me with post := .suspend 0 inst 0 0 }
             ∧ (let key := barKey s.cur 2 0
                let old := (tgetD (s.part s.me.part).bars key []).tail
                (old.length + 1 < 4 → tget (t.part s.me.part).bars key = some (inst :: (old ++ [s.cur])) ∧ t.agenda = s.agenda)
                ∧ (4 ≤ old.length + 1 → tget (t.part s.me.part).bars key = none
                    ∧ Spec.Adds s.agenda (s.clk + 1) (.barComplete 2 inst s.me.part 0) t.agenda))
             ∧ t = { s with cores := t.cores, parts := t.parts, agenda := t.agenda, nextId := t.nextId, issue := .issued })))
  ∧ (∀ (st : Fin 8) (a b : Fin 64) (s : State), Clear (.tspawn st a b) s →
       let va := s.me.sreg a.val
       let d := (s.me.sreg b.val).toNat
       (va.toNat % 32 ≠ 0 → Traps (.tspawn st a b) s 0 4 0 va)
       ∧ (va.toNat % 32 = 0 → 5 < d → Traps (.tspawn st a b) s 0 5 0 0)
       ∧ (va.toNat % 32 = 0 → d ≤ 5 → ∀ r, s.readSpan va 32 = .ok r →
           (∀ u e, s.checkRecord s.myPart d r = .ok u (.error e) → Traps (.tspawn st a b) s 0 13 0 0)
           ∧ (∀ u w, s.checkRecord s.myPart d r = .stop u w → exec (.tspawn st a b) s = .next (s.mark .held))
           ∧ (∀ n u, s.checkRecord s.myPart d r = .ok u (.ok n) → u.releaseOut u.cur = false →
               let asked := { u with nextId := u.nextId + 1, reqs := tset u.reqs u.nextId (.insert u.cur u.myPart d r va) }.countSpan va 32
               exec (.tspawn st a b) s = .next
                 (((asked.setMe { asked.me with post := .tspawn }).schedule (if d = asked.myDie then 6 else 380) (.taskInsertion u.nextId)).mark .issued))))

/-! ### Traps -/

/-- R369, R364: TRAP takes effect after its bundle: the trap is due, and is taken, with code 14, its n as TINFO and the next bundle as TEPC, once
no interlocked result is in flight. -/
def Obligations.TrapInstruction : Prop :=
  ∀ (s : State),
    (∀ (st : Fin 8) (n : Fin 65536), Clear (.trap st n) s →
      exec (.trap st n) s = .next ((s.setMe { s.me with post := .trap n.val }).mark .issued))
    ∧ (∀ n, n < 65536 → s.me.post = .trap n → s.me.pend = [] → Trappable s →
        Trapped (s.setMe { s.me with post := .none }) (s.takeTrap n) 0 14 0 (BitVec.ofNat 64 n) s.me.pc s.me.sched)

/-- R364, R366, R379: what taking a trap does. With no trap held and a handler, the context enters it; with a trap held, the
partition is marked for a double fault; with no handler, it is not; in both cases the core stops and the partition's halt begins. -/
def Obligations.TrapEntry : Prop :=
  ∀ (slot code sub : Nat) (info : W64) (s : State), slot < 4 → sub < 256 → code < 256 →
    ∃ t, exec (.trapEntry slot code sub info) s = .next t
      ∧ (Trappable s → Trapped s t slot code sub info s.me.pc s.me.sched)
      ∧ (s.me.theld = true → (t.part s.me.part).dbl = true ∧ t.me = { s.me with stopped := true }
          ∧ ((s.part s.me.part).pstate = 0 → (t.part s.me.part).pstate = 1))
      ∧ (s.me.theld = false → bit (s.part s.me.part).tvec 0 = false →
          (t.part s.me.part).dbl = (s.part s.me.part).dbl ∧ t.me = { s.me with stopped := true }
          ∧ ((s.part s.me.part).pstate = 0 → (t.part s.me.part).pstate = 1))
      ∧ SameBytes s t

/-- R372, R224, R48: ERET without an image goes on at its target 2 scheduled clocks later with the held buffer's loops and counters, drain and
writes, or with none of them where no trap is held: each write readable its remaining clocks after the next bundle's issue, issued after
every write of the handler, and never discarded. A misaligned target traps with code 7. R371, R370, R372: SNAPREL forgets the held trap and
its buffer. SNAPST, with a trap held, an aligned address and every line of the image writable, stores the image of the buffer and leaves the
buffer as it is; a misaligned address traps with code 4, no held trap with code 5; which of the two comes first is the model's choice
(assumption 101). An ERET from an image goes on at its target with the buffer that the image holds; an image that holds none traps with code
5. -/
def Obligations.TrapReturns : Prop :=
  (∀ (st : Fin 8) (a : Fin 64) (s : State), Clear (.eret st a 0) s →
     let k := s.me
     let target := k.sreg a.val
     let src : Buffer := if k.theld then k.buffer else ⟨[], [], none, none⟩
     let at_ := k.sched + 1 + st.val + 2
     (target.toNat % 16 = 0 → ∃ t, exec (.eret st a 0) s = .next t ∧ t.issue = .issued ∧ OnlyCore s t
       ∧ t.me.pc = target ∧ t.me.jumped = true ∧ t.me.extra = k.extra + 2
       ∧ t.me.theld = false ∧ t.me.buffer = ⟨[], [], none, none⟩ ∧ t.me.lc = src.lc.getD k.lc
       ∧ t.me.loops = src.loops ∧ t.me.drain = src.drain.map (fun d => { d with due := at_ + 6 })
       ∧ (∃ n, (∀ f, f ∈ k.flight → f.seq < k.seq → f.seq < n) ∧ k.seq ≤ n
           ∧ t.me.flight = k.flight ++ src.writes.map fun f => { f with due := at_ + f.due, seq := n, keep := true })
       ∧ t.me = { k with
           pc := t.me.pc, jumped := true, extra := t.me.extra, theld := false, buffer := t.me.buffer, loops := t.me.loops
           lc := t.me.lc, drain := t.me.drain, flight := t.me.flight, seq := t.me.seq })
     ∧ (target.toNat % 16 ≠ 0 → Traps (.eret st a 0) s 0 7 0 0))
  ∧ (∀ (s : State),
       (∀ st : Fin 8, Clear (.snaprel st) s →
         exec (.snaprel st) s = .next ((s.setMe { s.me with theld := false, buffer := ⟨[], [], none, none⟩ }).mark .issued))
       ∧ (∀ (b : Fin 64) (o : Fin 256) (l : Lent), Clear (.snapst b o l) s →
           let va := s.me.sreg b.val + offM 6 o l
           let img := imageOf s.me.buffer
           (va.toNat % 64 ≠ 0 → Traps (.snapst b o l) s 3 4 0 va)
           ∧ (va.toNat % 64 = 0 → s.me.theld = false → Traps (.snapst b o l) s 3 5 0 0)
           ∧ (va.toNat % 64 = 0 → s.me.theld = true → ∀ ps, s.places .store ((lineRanges va img.length).map (·.1)) = .ok ps →
               ∃ t, exec (.snapst b o l) s = .next t ∧ t.issue = .issued ∧ t.me.buffer = s.me.buffer ∧ t.me.theld = true
                 ∧ t = ((s.storePieces (((lineRanges va img.length).zip ps).map fun e =>
                     (e.1.1, e.2, (img.drop (e.1.1 - va).toNat).take e.1.2))).mark .issued)))
       ∧ (∀ (st : Fin 8) (a b : Fin 64), Clear (.eret st a b) s → b ≠ 0 → (s.me.sreg a.val).toNat % 16 = 0 →
           ∀ h, s.readImage (s.me.sreg b.val) 128 = .ok h →
             (imageSize h = none → Traps (.eret st a b) s 0 5 0 0)
             ∧ (∀ n img, imageSize h = some n → s.readImage (s.me.sreg b.val) n = .ok img →
                 (imageBuffer img = none → Traps (.eret st a b) s 0 5 0 0)
                 ∧ (∀ src, imageBuffer img = some src →
                     exec (.eret st a b) s = .next ((s.eretTo (s.me.sreg a.val) src st.val).mark .issued)))))

/-! ### Machine-state registers -/

/-- R376, R377, R378, R383: RDMS answers the value of every assigned register with latency 2. A tenant reads no supervisor register but SVCFG,
and an unassigned number names no register. -/
def Obligations.RegisterReads : Prop :=
  ∀ (st : Fin 8) (d : Fin 64) (n : Fin 1024) (s : State), Clear (.rdms st d n) s →
    let i := Instr.rdms st d n
    (regAssigned n.val = true → n.val < 0x40 ∨ n.val = 0x133 ∨ s.isSup = true →
      exec i s = .next ((s.push 0 2 (.scalar d.val (s.regRead n.val))).mark .issued))
    ∧ (regAssigned n.val = true → 0x40 ≤ n.val → n.val ≠ 0x133 → s.isSup = false → Traps i s 0 2 0 (BitVec.ofNat 64 (encode i)))
    ∧ (regAssigned n.val = false → Traps i s 0 1 0 (BitVec.ofNat 64 (encode i)))

/-- R376: WRMS writes a register of the context that its write can change, so that a read then finds the value; a tenant writes no supervisor
register, and a value with a reserved bit changes nothing; a word that is no geometry is refused for MGEO (R250) and a word with no sound lane
split for CTXCTL. -/
def Obligations.RegisterWrites : Prop :=
  ∀ (st : Fin 8) (a : Fin 64) (n : Fin 1024) (s : State), Clear (.wrms st a n) s →
    let i := Instr.wrms st a n
    let v := s.me.sreg a.val
    (n.val ∈ [0x000, 0x002, 0x008, 0x009, 0x00A, 0x010, 0x011, 0x012, 0x013, 0x014, 0x015, 0x016, 0x017, 0x034] →
      v.toNat &&& regRsv n.val = 0 → (n.val = 0x000 → ctxctlOk v = true) → (n.val = 0x002 → mgeoOk v = true) →
      ∃ t, exec i s = .next t ∧ t.issue = .issued ∧ OnlyCore s t ∧ t.regRead n.val = v
        ∧ t.me.s = s.me.s ∧ t.me.p = s.me.p ∧ t.me.v = s.me.v ∧ t.me.flight = s.me.flight ∧ t.me.pc = s.me.pc)
    ∧ (n.val = 0x000 → v.toNat &&& regRsv n.val = 0 → ctxctlOk v = false → Traps i s 0 5 0 0)
    ∧ (n.val = 0x002 → mgeoOk v = false → Traps i s 0 5 0 0)
    ∧ (n.val = 0x003 → ∃ t, exec i s = .next t ∧ t.issue = .issued ∧ OnlyCore s t ∧ t.regRead 0x003 = 0)
    ∧ (0x40 ≤ n.val → regAssigned n.val = true → s.isSup = false → Traps i s 0 2 0 (BitVec.ofNat 64 (encode i)))
    ∧ (regAssigned n.val = true → n.val < 0x40 ∨ s.isSup = true → v.toNat &&& regRsv n.val ≠ 0 →
        Traps i s 0 1 0 (BitVec.ofNat 64 (encode i)))
    ∧ (n.val ∈ [0x050, 0x057, 0x05F, 0x0A0, 0x0A9, 0x170, 0x17F] → s.isSup = true → v.toNat &&& regRsv n.val = 0 →
        ∃ t, exec i s = .next t ∧ t.issue = .issued ∧ t.regRead n.val = v
          ∧ t = { s with parts := t.parts, issue := .issued } ∧ ∀ q, q ≠ n.val % 16 → t.part q = s.part q)

/-- R376, R5, R377: the supervisor's WRMS to the registers that hold what is written: of a partition, of a die, and of the supervisor's queue. A
value outside a register's limits traps with code 5 and leaves it as it was; a read-only register takes no write; a field that is cleared by
writing 1 loses just the bits written 1. (TTBASE, PSTATE, SSCFG, KPART, SLICE, FTL.CMD and SVACK act, and have statements of their own.) -/
def Obligations.SupervisorWrites : Prop :=
  ∀ (st : Fin 8) (a : Fin 64) (n : Fin 1024) (s : State), Clear (.wrms st a n) s → s.isSup = true → regAssigned n.val = true →
    let i := Instr.wrms st a n
    let v := s.me.sreg a.val
    let p := n.val % 16
    let lg := v.toNat % 32
    v.toNat &&& regRsv n.val = 0 →
    -- the registers of a partition: numbers, limits
    (∀ ok : Bool, (n.val / 16, ok) ∈ [(0x04, ctxctlOk v), (0x05, true), (0x0A, true), (0x0B, decide (v.toNat ≤ 4096)),
        (0x0C, decide (6 ≤ lg ∧ lg ≤ 16 ∧ (s.part p).ring = [])), (0x0E, decide (4 ≤ lg ∧ lg ≤ 12)), (0x17, true)] →
      (ok = true → ∃ t, exec i s = .next t ∧ t.issue = .issued ∧ t.regRead n.val = v
        ∧ t = { s with parts := t.parts, issue := .issued } ∧ ∀ q, q ≠ p → t.part q = s.part q)
      ∧ (ok = false → Traps i s 0 5 0 0))
    -- those of an ED's flash or of a die
    ∧ (∀ (d : Nat) (ok : Bool), (n.val, d, ok) ∈ ((List.range 4).map fun e => (0x120 + e, 2 + e, decide (1000 ≤ v.toNat ∧ v.toNat ≤ 1000000)))
          ++ ((List.range 4).map fun e => (0x128 + e, 2 + e, true)) ++ ((List.range 6).map fun d => (0x138 + d, d, true))
          ++ ((List.range 6).map fun d => (0x140 + d, d, decide (9 ≤ lg ∧ lg ≤ 20))) ++ ((List.range 6).map fun d => (0x150 + d, d, true)) →
      (ok = true → ∃ t, exec i s = .next t ∧ t.issue = .issued ∧ t.regRead n.val = v
        ∧ t = { s with dies := t.dies, issue := .issued } ∧ ∀ e, e ≠ d → t.die e = s.die e)
      ∧ (ok = false → Traps i s 0 5 0 0))
    -- the Beacon's frame length, from the next frame on, and the supervisor's queue
    ∧ (n.val = 0x132 → (1000 ≤ v.toNat % 2 ^ 24 → exec i s = .next ({ s with frameTicksNew := some (v.toNat % 2 ^ 24) }.mark .issued))
        ∧ (v.toNat % 2 ^ 24 < 1000 → Traps i s 0 5 0 0))
    ∧ (n.val = 0x134 → (6 ≤ lg → lg ≤ 14 → exec i s = .next ({ s with svqBase := v }.mark .issued)) ∧ (lg < 6 ∨ 14 < lg → Traps i s 0 5 0 0))
    ∧ (n.val = 0x135 → exec i s = .next ({ s with svqTail := BitVec.ofNat 32 (v.toNat / 2 ^ 32) }.mark .issued))
    -- read only
    ∧ (n.val / 16 ∈ [0x08, 0x0D, 0x10] ∨ n.val = 0x133 ∨ (0x158 ≤ n.val ∧ n.val < 0x160) ∨ (0x1E0 ≤ n.val ∧ n.val < 0x240) → exec i s = .next (s.mark .issued))
    -- cleared by writing 1: HEALTH.CLASS.corrected_pages, FTL.STAT.overrun, HBMERR.corrected, SLIPPTR.lost
    ∧ (∀ e, e < 4 → n.val = 0x12C + e → ∃ t, exec i s = .next t ∧ t.issue = .issued ∧ t = { s with dies := t.dies, issue := .issued }
        ∧ t.flash e = { s.flash e with overrun := (s.flash e).overrun && !v.getLsbD 2 } ∧ ∀ d, d ≠ 2 + e → t.die d = s.die d)
    ∧ (∀ lo hi, (n.val / 16 = 0x11 ∧ (lo, hi) = (32, 64))
          ∨ (0x160 ≤ n.val ∧ n.val < 0x166 ∧ (lo, hi) = (32, 64)) ∨ (n.val / 16 = 0x0F ∧ (lo, hi) = (0, 16)) →
      ∃ t, exec i s = .next t ∧ t.issue = .issued ∧ t = { s with parts := t.parts, dies := t.dies, hclass := t.hclass, issue := .issued }
        ∧ ∀ b, lo ≤ b → b < hi → (t.regRead n.val).getLsbD b = ((s.regRead n.val).getLsbD b && !v.getLsbD b))

/-- R381, R378, R379: HALT without a register, or of its own partition, stops its core and begins the halt of its partition with code 22, of which
every unit with work of it hears 120 clocks later; of another partition, torn down or not, it begins that one's; of a partition that is halting or halted it
changes nothing. A tenant may name none, and a number above 15 is an invalid-operand fault. -/
def Obligations.Halts : Prop :=
  ∀ (st : Fin 8) (a : Fin 64) (s : State), Clear (.halt st a) s →
    let i := Instr.halt st a
    let w := (s.me.sreg a.val).toNat
    let x := s.part s.me.part
    (a.val = 0 ∨ (s.isSup = true ∧ w = s.me.part) → w < 16 →
      (x.pstate = 1 ∨ x.pstate = 2 → exec i s = .next (s.mark .issued))
      ∧ (x.pstate ≠ 1 → x.pstate ≠ 2 → ∃ t, exec i s = .next t ∧ t.issue = .issued ∧ t.me = { s.me with stopped := true }
          ∧ (x.pstate = 0 → (t.part s.me.part).pstate = 1
              ∧ ∃ h, (t.part s.me.part).halt = some h ∧ h.code = 22 ∧ h.sub = 0 ∧ h.die = s.myDie ∧ h.done = [] ∧ h.closing = false
                ∧ ∀ u, u ∈ h.left → (s.clk + 120, Instr.haltLineArrives s.me.part u.1 u.2) ∈ t.agenda)
          ∧ SameBytes s t))
    ∧ (a.val ≠ 0 → s.isSup = true → w < 16 → w ≠ s.me.part → ∃ t, exec i s = .next t ∧ t.issue = .issued ∧ t.me = s.me
      ∧ ((s.part w).pstate = 0 ∨ (s.part w).pstate = 3 → (t.part w).pstate = 1) ∧ ((s.part w).pstate = 1 ∨ (s.part w).pstate = 2 → t = (s.mark .issued)) ∧ SameBytes s t)
    ∧ (a.val ≠ 0 → s.isSup = false → Traps i s 0 2 0 (BitVec.ofNat 64 (encode i)))
    ∧ (a.val ≠ 0 → s.isSup = true → 16 ≤ w → Traps i s 0 5 0 0)


/-! ### Loads and stores -/

/-- R162, R166: LD of an aligned address that translates to a place of the physical map answers the zero-extended bytes there, interlocked and
after the latency of the place, in which a wait at the place's stack is counted (R120, R121: the model's clocks, assumption 151); predicated
off it does nothing, and a misaligned address traps with code 4. R165: LDB answers one zero-extended element in every lane of its register
over the context's extent, to be written where the predicate is 1; with no lane on it does nothing. That a misaligned address traps with
code 4 is the model's reading (assumption 10). -/
def Obligations.SingleLoads : Prop :=
  (∀ (d b : Fin 64) (p : Fin 8) (z : Fin 4) (o : Fin 256) (l : Lent) (s : State), Clear (.ld d b p z o l) s →
     let va := Spec.address (s.me.sreg b.val) z.val o l
     ((s.me.preg p.val).getLsbD 0 = false → exec (.ld d b p z o l) s = .next (s.mark .issued))
     ∧ ((s.me.preg p.val).getLsbD 0 = true → va.toNat % 2 ^ z.val ≠ 0 → Traps (.ld d b p z o l) s 1 4 0 va)
     ∧ ((s.me.preg p.val).getLsbD 0 = true → va.toNat % 2 ^ z.val = 0 → ∀ pa leaf,
         s.translate s.ctx .load va = .at_ (.phys pa) leaf → Spec.sound s pa (2 ^ z.val) →
         ∃ u, Spec.Noted s u ∧ exec (.ld d b p z o l) s = .next ((u.pend [keyS d.val]
           (some (.scalar d.val (BitVec.ofNat 64 (Spec.number (Spec.bytesAt s s.cur pa (2 ^ z.val)))))) (s.loadLatency (.phys pa))).2.mark .issued))
     ∧ ((s.me.preg p.val).getLsbD 0 = true → va.toNat % 2 ^ z.val = 0 → ∀ c, s.translate s.ctx .load va = .fail c → c < 256 →
         Traps (.ld d b p z o l) s 1 6 c va))
  ∧ (∀ (d b : Fin 64) (p : Fin 8) (z : Fin 4) (o : Fin 256) (l : Lent) (s : State), Clear (.ldb d b p z o l) s →
       let va := Spec.address (s.me.sreg b.val) z.val o l
       let cs := s.me.ctxExtent.1
       let n := s.me.ctxExtent.2
       let on := ∃ j l, j < n ∧ l < 16 ∧ (s.me.preg p.val).getLsbD (16 * (cs + j) + l) = true
       (¬ on → exec (.ldb d b p z o l) s = .next (s.mark .issued))
       ∧ (on → va.toNat % 2 ^ z.val ≠ 0 → Traps (.ldb d b p z o l) s 1 4 0 va)
       ∧ (on → va.toNat % 2 ^ z.val = 0 → ∀ pa leaf, s.translate s.ctx .load va = .at_ (.phys pa) leaf → Spec.sound s pa (2 ^ z.val) →
           ∃ data u, Spec.Noted s u ∧ exec (.ldb d b p z o l) s = .next ((u.pend (blockKeys d.val 1 cs n) (some (.vec d.val 1 cs n (s.me.preg p.val) data))
               (s.loadLatency (.phys pa))).2.mark .issued)
             ∧ data.length = n
             ∧ ∀ j l, j < n → l < 16 → lane (data.getD j 0) l = BitVec.ofNat 32 (Spec.number (Spec.bytesAt s s.cur pa (2 ^ z.val)))))

/-- R163: LDV from raw pages. Lane l of register base + i in cluster cs + j is loaded from the 4 bytes at a + 64 (n i + j) + 4 l; a register-
cluster with no lane on is not translated, and the block's own address is where a line of its page is (what tells that a page is raw is the
model's reading, assumption 152). A misaligned block traps with code 4, and so does one with a line in a formatted page (R103). R163, R196,
R197, R112: LDV from a formatted page, which the block's address tells. That address names the first element of a block or quad of blocks
whose index is a multiple of 4; lane l of register-cluster q, where it is on, takes element 16 q + l from there on, decoded from the bytes
where the page's layout has them, which translate by 64-byte lines on their own. An address that names none, bytes in a page of another
attribute, or an element past the page's last, trap with code 4. That the lines which count are those of the elements is the model's reading
(assumption 152). -/
def Obligations.BlockLoads : Prop :=
  (∀ (d b : Fin 64) (p : Fin 8) (z : Fin 4) (o : Fin 256) (l : Lent) (s : State), Clear (.ldv d b p z o l) s →
     let va := Spec.address (s.me.sreg b.val) 6 o l
     let cs := s.me.ctxExtent.1
     let n := s.me.ctxExtent.2
     let on := fun q => ∃ l, l < 16 ∧ (s.me.preg p.val).getLsbD (16 * (cs + q % n) + l) = true
     (va.toNat % 64 ≠ 0 → Traps (.ldv d b p z o l) s 1 4 0 va)
     ∧ (va.toNat % 64 = 0 → (∀ q, q < 2 ^ z.val * n → ¬ on q) → exec (.ldv d b p z o l) s = .next (s.mark .issued))
     ∧ (va.toNat % 64 = 0 → (∃ q, q < 2 ^ z.val * n ∧ on q) → ∀ (pa : Nat → Nat) (leaf : Nat → W64),
         (∀ q, q < 2 ^ z.val * n → on q → s.translate s.ctx .load (va + BitVec.ofNat 64 (64 * q)) = .at_ (.phys (pa q)) (leaf q)
           ∧ Spec.sound s (pa q) 64) →
         ((∃ w e, s.translate s.ctx .load va = .at_ (.phys w) e ∧ pteFmt e = 31)
           ∨ ((∀ w e, s.translate s.ctx .load va ≠ .at_ w e) ∧ s.windowAt s.ctx va.toNat = none
             ∧ ∀ q, q < 2 ^ z.val * n → on q → (va.toNat + 64 * q) / 4096 ≠ va.toNat / 4096)) →
         ((∃ q, q < 2 ^ z.val * n ∧ on q ∧ pteFmt (leaf q) ≠ 31) → Traps (.ldv d b p z o l) s 1 4 0 va)
         ∧ ((∀ q, q < 2 ^ z.val * n → on q → pteFmt (leaf q) = 31) → ∃ data lat u, Spec.Noted s u ∧ exec (.ldv d b p z o l) s = .next ((u.pend (blockKeys d.val (2 ^ z.val) cs n)
             (some (.vec d.val (2 ^ z.val) cs n (s.me.preg p.val) data)) lat).2.mark .issued)
           ∧ (∀ q, q < 2 ^ z.val * n → on q → s.loadLatency (.phys (pa q)) ≤ lat)
           ∧ ∀ q l, q < 2 ^ z.val * n → on q → l < 16 →
               lane (data.getD q 0) l = BitVec.ofNat 32 (Spec.number (Spec.bytesAt s s.cur (pa q + 4 * l) 4)))))
  ∧ (∀ (d b : Fin 64) (p : Fin 8) (z : Fin 4) (o : Fin 256) (l : Lent) (s : State), Clear (.ldv d b p z o l) s →
       let va := Spec.address (s.me.sreg b.val) 6 o l
       let cs := s.me.ctxExtent.1
       let n := s.me.ctxExtent.2
       let on := fun q l => q < 2 ^ z.val * n ∧ l < 16 ∧ (s.me.preg p.val).getLsbD (16 * (cs + q % n) + l) = true
       va.toNat % 64 = 0 → (∃ q l, on q l) → ∀ (first : Nat) (leaf : W64),
         s.translate s.ctx .load va = .at_ (.phys first) leaf → pteFmt leaf ≠ 31 →
         let fmt := pteFmt leaf
         let g := pageGeo fmt (pteBaxis leaf) (pteLpack leaf)
         (firstElem fmt g (first % 4096) = none → Traps (.ldv d b p z o l) s 1 4 0 va)
         ∧ (∀ e, firstElem fmt g (first % 4096) = some e →
             ((∃ q l, on q l ∧ 4 * pageBlocks fmt g ≤ e + (16 * q + l)) → Traps (.ldv d b p z o l) s 1 4 0 va)
             ∧ ((∀ q l, on q l → e + (16 * q + l) < 4 * pageBlocks fmt g) → ∀ (at_ : Nat → Nat) (leafs : Nat → W64),
                 let ls := linesOf ((laneElems ((List.range (2 ^ z.val * n)).filter fun q => anyLane (s.me.preg p.val) (cs + q % n))
                   fun q l => (s.me.preg p.val).getLsbD (16 * (cs + q % n) + l)).flatMap fun i => elemSpan fmt g (e + i))
                 (∀ w, w ∈ ls →
                   s.translate s.ctx .load (va + BitVec.ofNat 64 w.1 - BitVec.ofNat 64 (first % 4096)) = .at_ (.phys (at_ w.1)) (leafs w.1)
                   ∧ Spec.sound s (at_ w.1) w.2 ∧ ∀ i, i < w.2 → at_ (w.1 + i) = at_ w.1 + i) →
                 ((∃ w, w ∈ ls ∧ bits (leafs w.1) 63 56 ≠ bits leaf 63 56) → Traps (.ldv d b p z o l) s 1 4 0 va)
                 ∧ ((∀ w, w ∈ ls → bits (leafs w.1) 63 56 = bits leaf 63 56) →
                     ∃ data lat u, Spec.Noted s u ∧ exec (.ldv d b p z o l) s = .next ((u.pend (blockKeys d.val (2 ^ z.val) cs n)
                         (some (.vec d.val (2 ^ z.val) cs n (s.me.preg p.val) data)) lat).2.mark .issued)
                       ∧ ∀ q l, on q l → lane (data.getD q 0) l = laneOf (fun i => s.seenByte s.cur (at_ i)) fmt g (e + (16 * q + l))))))

/-- R164: LDG gives each lane that is on the zero-extended element at sA plus its shifted 32-bit offset; a lane whose address is misaligned makes it
trap with code 4, and with no lane on it does nothing. -/
def Obligations.GatherLoads : Prop :=
  ∀ (d a b : Fin 64) (p : Fin 8) (sc e : Fin 4) (s : State), Clear (.ldg d a b p sc e) s →
    let cs := s.me.ctxExtent.1
    let n := s.me.ctxExtent.2
    let size := if e.val = 0 then 4 else if e.val = 1 then 2 else 1
    let on := fun j l => j < n ∧ l < 16 ∧ (s.me.preg p.val).getLsbD (16 * (cs + j) + l) = true
    let va := fun j l => BitVec.ofNat 64 ((s.me.sreg a.val).toNat + (lane (s.me.vreg b.val (cs + j)) l).toNat * 2 ^ sc.val)
    ((∀ j l, ¬ on j l) → exec (.ldg d a b p sc e) s = .next (s.mark .issued))
    ∧ (∀ j l, on j l → (va j l).toNat % size ≠ 0 → (∀ i m, on i m → 16 * i + m < 16 * j + l → (va i m).toNat % size = 0) →
        Traps (.ldg d a b p sc e) s 1 4 0 (va j l))
    ∧ ((∃ j l, on j l) → (∀ j l, on j l → (va j l).toNat % size = 0) → ∀ (pa : Nat → Nat → Nat) (leaf : Nat → Nat → W64),
        (∀ j l, on j l → s.translate s.ctx .load (va j l) = .at_ (.phys (pa j l)) (leaf j l) ∧ Spec.sound s (pa j l) size) →
        ∃ data lat u, Spec.Noted s u ∧ exec (.ldg d a b p sc e) s = .next ((u.pend (blockKeys d.val 1 cs n)
            (some (.vec d.val 1 cs n (s.me.preg p.val) data)) lat).2.mark .issued)
          ∧ (∀ j l, on j l → s.loadLatency (.phys (pa j l)) ≤ lat)
          ∧ ∀ j l, on j l → lane (data.getD j 0) l = BitVec.ofNat 32 (Spec.number (Spec.bytesAt s s.cur (pa j l) size)))

/-- R162, R318, R144, R81: ST, and COWST on a page that is not shared, store the low bytes of their register at the address they compute, and change
no other byte and no register; a store that overlaps bytes that a command of the core has written, or a handle's destination, may leave other values in
its own bytes. Predicated off they do nothing; a misaligned address traps with code 4. That a store to a scratchpad of the quad is at its home at
issue is the model's (assumption 28), as is the place where an overlap is found (assumption 21). -/
def Obligations.ScalarStores : Prop :=
  ∀ (d b : Fin 64) (p : Fin 8) (z : Fin 4) (o : Fin 256) (l : Lent) (s : State) (i : Instr) (acc : Acc),
    (i = .st d b p z o l ∧ acc = .store) ∨ (i = .cowst d b p z o l ∧ acc = .cowst) → Clear i s →
    let va := Spec.address (s.me.sreg b.val) z.val o l
    ((s.me.preg p.val).getLsbD 0 = false → exec i s = .next (s.mark .issued))
    ∧ ((s.me.preg p.val).getLsbD 0 = true → va.toNat % 2 ^ z.val ≠ 0 → Traps i s 3 4 0 va)
    ∧ ((s.me.preg p.val).getLsbD 0 = true → va.toNat % 2 ^ z.val = 0 → (acc = .cowst → s.windowAt s.ctx va.toNat = none) → ∀ pa leaf,
        s.translate s.ctx acc va = .at_ (.phys pa) leaf → (acc = .cowst → pteShared leaf = false) →
        ∃ t ps, exec i s = .next t ∧ t.issue = .issued ∧ Spec.Stored s t ps
          ∧ (∀ w, w ∈ ps → pa ≤ w.1 ∧ w.1 + w.2.length ≤ pa + 2 ^ z.val)
          ∧ (s.overlapped va.toNat pa (2 ^ z.val) = false → ps = [(pa, Spec.bytesOf (2 ^ z.val) (s.me.sreg d.val).toNat)]))

/-- R163: STV stores each lane of its block that is on to the 4 bytes at a + 64 (n i + j) + 4 l, raw on every page, and no other byte. That a
store to a scratchpad of the quad is at its home at issue is the model's (assumption 28). R164: STS stores each lane that is on to its own
address, in the order of the lanes, so that of several lanes that write one byte the highest leaves its value; and no other byte. -/
def Obligations.LaneStores : Prop :=
  (∀ (d b : Fin 64) (p : Fin 8) (z : Fin 4) (o : Fin 256) (l : Lent) (s : State), Clear (.stv d b p z o l) s →
     let va := Spec.address (s.me.sreg b.val) 6 o l
     let cs := s.me.ctxExtent.1
     let n := s.me.ctxExtent.2
     let on := fun q l => l < 16 ∧ (s.me.preg p.val).getLsbD (16 * (cs + q % n) + l) = true
     (va.toNat % 64 ≠ 0 → Traps (.stv d b p z o l) s 3 4 0 va)
     ∧ (va.toNat % 64 = 0 → ∀ (pa : Nat → Nat) (leaf : Nat → W64),
         (∀ q, q < 2 ^ z.val * n → (∃ l, on q l) → s.translate s.ctx .store (va + BitVec.ofNat 64 (64 * q)) = .at_ (.phys (pa q)) (leaf q)
           ∧ pa q % 64 = 0 ∧ s.overlapped (va + BitVec.ofNat 64 (64 * q)).toNat (pa q) 64 = false) →
         ∃ t ps, exec (.stv d b p z o l) s = .next t ∧ t.issue = .issued ∧ Spec.Stored s t ps
           ∧ (∀ w a, w ∈ ps → w.1 ≤ a → a < w.1 + w.2.length →
               ∃ q l i, q < 2 ^ z.val * n ∧ on q l ∧ i < 4 ∧ a = pa q + 4 * l + i)
           ∧ (∀ q l i x, q < 2 ^ z.val * n → on q l → i < 4 → (∀ r m, r < 2 ^ z.val * n → on r m → pa r = pa q → r = q) →
               Spec.last ps (pa q + 4 * l + i) x = BitVec.ofNat 8 ((lane (s.me.vreg (d.val + q / n) (cs + q % n)) l).toNat / 256 ^ i))))
  ∧ (∀ (d a b : Fin 64) (p : Fin 8) (sc e : Fin 4) (s : State), Clear (.sts d a b p sc e) s →
       let cs := s.me.ctxExtent.1
       let n := s.me.ctxExtent.2
       let size := if e.val = 0 then 4 else if e.val = 1 then 2 else 1
       let on := fun q => q < 16 * n ∧ (s.me.preg p.val).getLsbD (16 * (cs + q / 16) + q % 16) = true
       let va := fun q => BitVec.ofNat 64 ((s.me.sreg a.val).toNat + (lane (s.me.vreg b.val (cs + q / 16)) (q % 16)).toNat * 2 ^ sc.val)
       (∀ q, on q → (va q).toNat % size ≠ 0 → (∀ r, on r → r < q → (va r).toNat % size = 0) → Traps (.sts d a b p sc e) s 3 4 0 (va q))
       ∧ ((∀ q, on q → (va q).toNat % size = 0) → ∀ (pa : Nat → Nat) (leaf : Nat → W64),
           (∀ q, on q → s.translate s.ctx .store (va q) = .at_ (.phys (pa q)) (leaf q) ∧ s.overlapped (va q).toNat (pa q) size = false) →
           ∃ t, exec (.sts d a b p sc e) s = .next t ∧ t.issue = .issued
             ∧ Spec.Stored s t (((List.range (16 * n)).filter fun q => (s.me.preg p.val).getLsbD (16 * (cs + q / 16) + q % 16)).map fun q =>
                 (pa q, Spec.bytesOf size (lane (s.me.vreg d.val (cs + q / 16)) (q % 16)).toNat))))

/-- R169, R318, R313: an atomic on an aligned address of HBM reads and writes its bytes at their home in one step, after the writes of its quad, TWRs
among them, answers the old value zero-extended, and changes no other byte; its new value is the table's, but where its bytes lie in a handle's
destination (R81). A misaligned address traps with code 4. -/
def Obligations.Atomics : Prop :=
  ∀ (i : Instr) (s : State) (d a b : Fin 64) (n : Nat) (c : Fin 8) (rel : Bool) (f : Nat → Nat → Nat → Nat),
    Spec.atomic i = some (d, a, b, n, c, rel, f) → Clear i s →
    let va := s.me.sreg a.val
    let ws := (s.quad s.myQuad).path
    (va.toNat % n ≠ 0 → Traps i s 1 4 0 va)
    ∧ (va.toNat % n = 0 → ∀ pa leaf, s.translate s.ctx .atomic va = .at_ (.phys pa) leaf → Spec.sound s pa n →
        let old := Spec.number ((List.range n).map fun j => Spec.homeByte s ws (pa + j))
        ∃ t, exec i s = .next t ∧ t.issue = .issued
          ∧ (s.inSlot s.myPart va.toNat n = false → ∀ j, j < n →
              tgetD t.mem (pa + j) 0 = BitVec.ofNat 8 (f old (s.me.sreg b.val).toNat (s.me.sreg d.val).toNat / 256 ^ j))
          ∧ (∀ x, x < pa ∨ pa + n ≤ x → tgetD t.mem x 0 = Spec.homeByte s ws x)
          ∧ (t.quad s.myQuad).path = [] ∧ (∀ q, q ≠ s.myQuad → t.quad q = s.quad q)
          ∧ Spec.Awaits s t d.val (BitVec.ofNat 64 old) (s.loadLatency (.phys pa))
          ∧ ((∀ w, w ∈ ws → Spec.toMem w = true) →
              t.me = { s.me with pend := t.me.pend, seq := s.me.seq + 1 } ∧ (∀ j, j ≠ s.cur → t.core j = s.core j) ∧ t.parts = s.parts))

/-- R318: the writes at the head of a quad's path that are due, up to the first that goes to a tile, reach their homes in their order: each
byte then holds what the last of them brought, and the path keeps the others. Where they go to memory, every core of the quad reads as before; one that goes to the
host register block writes the registers there (R395). -/
def Obligations.StorePerformed : Prop :=
  ∀ (q : Nat) (s : State), ∃ t done, exec (.storePerformed q) s = .next t
    ∧ (s.quad q).path = done ++ (t.quad q).path
    ∧ (∀ w, w ∈ done → w.tile = none ∧ w.due ≤ s.clk)
    ∧ (∀ w, (t.quad q).path.head? = some w → w.tile ≠ none ∨ s.clk < w.due)
    ∧ (∀ x, tgetD t.mem x 0 = Spec.homeByte s done x)
    ∧ (∀ p, p ≠ q → t.quad p = s.quad p) ∧ t.quad q = { s.quad q with path := (t.quad q).path }
    ∧ ((∀ w, w ∈ done → Spec.toMem w = true) → (∀ c x, c / 4 = q → t.seenByte c x = s.seenByte c x) ∧ t = { s with mem := t.mem, quads := t.quads })
    ∧ ∀ w, done = [w] → Spec.toMem w = false → t = { s.hostWrite (w.addr - hostPa) w.bytes with quads := t.quads }

/-- R155, R156: the tag table. TAGQ answers, with latency 2, a slot below the carve-out that holds the page's tag, or 0xFFFF where none does; TAGSET
marks a slot below the carve-out that no other such slot rivals; TAGCLR clears one slot or, with 1,023, all. -/
def Obligations.TagTable : Prop :=
  ∀ (s : State),
    (∀ (d a : Fin 64) (l : Lent), Clear (.tagq d a l) s → ∃ v : W64,
      exec (.tagq d a l) s = .next ((s.push 1 2 (.scalar d.val v)).mark .issued)
      ∧ (let holds := fun k => (k, BitVec.ofNat 45 ((s.me.sreg a.val).toNat / 4096)) ∈ s.me.tags ∧ k + (s.me.priv + 4095) / 4096 < 192
         (∃ k, holds k ∧ v = BitVec.ofNat 64 k) ∨ ((∀ k, ¬ holds k) ∧ v = 0xFFFF)))
    ∧ (∀ (a : Fin 64) (k : Fin 1024) (l : Lent), Clear (.tagset a k l) s →
        let n := k.val + 1024 * (l.elim 0 (·.val))
        let tag := BitVec.ofNat 45 ((s.me.sreg a.val).toNat / 4096)
        let c := (s.me.priv + 4095) / 4096
        (n + c < 192 → (∀ j, (j, tag) ∈ s.me.tags → j + c < 192 → j = n) → ∃ t, exec (.tagset a k l) s = .next t ∧ t.issue = .issued ∧ OnlyCore s t
            ∧ t.me = { s.me with tags := t.me.tags } ∧ ∀ j, tget t.me.tags j = if j = n then some tag else tget s.me.tags j)
        ∧ (192 ≤ n + c ∨ (∃ j, j ≠ n ∧ (j, tag) ∈ s.me.tags ∧ j + c < 192) → Traps (.tagset a k l) s 1 5 0 0))
    ∧ (∀ (k : Fin 1024) (l : Lent), Clear (.tagclr k l) s →
        let n := k.val + 1024 * (l.elim 0 (·.val))
        (n = 1023 ∨ n < 192 → ∃ t, exec (.tagclr k l) s = .next t ∧ t.issue = .issued ∧ OnlyCore s t
            ∧ t.me = { s.me with tags := t.me.tags } ∧ ∀ j, tget t.me.tags j = if n = 1023 ∨ j = n then none else tget s.me.tags j)
        ∧ (n ≠ 1023 → 192 ≤ n → Traps (.tagclr k l) s 1 5 0 0))


/-! ### The Kennel -/

/-- R174, R175: TALLOC checks its operands and sends its request; its bundle is held while the request is out and not granted, in which a task that may
suspend does so once the request waits at its Kennel (R347), and then answers the tile's address 6 clocks later from its own die, 380 from another. That
the bundle is held until then is the model's way to suspend at it (assumption 29). -/
def Obligations.TileAllocates : Prop :=
  ∀ (d a n : Fin 64) (tg : Fin 8) (life : Fin 16) (l : Lent) (s : State), Clear (.talloc d a n tg life l) s →
    let i := Instr.talloc d a n tg life l
    let die := if tg.val = 0 then s.myDie else tg.val - 1
    let size := (s.me.sreg a.val).toNat
    let reads := (s.me.sreg n.val).toNat
    (∀ r va, s.me.talloc = some r → r.addr = some va → ∃ t, exec i s = .next t ∧ t.issue = .issued ∧ OnlyCore s t
        ∧ t.me.talloc = none ∧ Spec.Awaits s t d.val va (if r.die = s.myDie then 6 else 380)
        ∧ t.me = { s.me with talloc := none, pend := t.me.pend, seq := s.me.seq + 1 })
    ∧ (∀ r, s.me.talloc = some r → r.addr = none →
        (r.arrived = false ∨ s.me.inPlace = true → exec i s = .next (s.mark .held))
        ∧ (r.arrived = true → s.me.inPlace = false → ∃ t, exec i s = .next t ∧ t.issue = .held ∧ OnlyCore s t
            ∧ t.me = { s.me with post := .suspend 3 0 0 s.me.pc, drain := t.me.drain, buffer := t.me.buffer }))
    ∧ (s.me.talloc = none → (size % 4096 ≠ 0 ∨ size < 4096 ∨ 262144 < size ∨ reads < 1 ∨ 65535 < reads
          ∨ ceiling (s.kpart die s.me.part) < size / 4096) → Traps i s 3 5 0 0)
    ∧ (s.me.talloc = none → size % 4096 = 0 → 4096 ≤ size → size ≤ 262144 → 1 ≤ reads → reads ≤ 65535 →
        size / 4096 ≤ ceiling (s.kpart die s.me.part) → ∃ t, exec i s = .next t ∧ t.issue = .held ∧ OnlyCore s t
          ∧ t.me = { s.me with talloc := some ⟨die, size / 4096, reads, if life.val = 0 then 2 else life.val, none, false⟩ }
          ∧ Spec.Adds s.agenda (s.clk + if die = s.myDie then 6 else 380) (.tallocRequestArrives s.cur) t.agenda)

/-- R176, R167, R318: TWR to tiles that it may write puts each lane of its block that is on behind the writes of its quad's path, on its way to
its tile, 28 clocks to its own die and 358 to another at least; a misaligned block traps with code 4. When the writes of a quad that are due
reach their homes through one to a tile, the tile, if it may still be written, holds its bytes and is else unchanged; if not, a
count-mismatch fault of the writer's partition stops its core there, and no tile changes. That a TWR which is refused at issue takes the fault there,
and its clocks on the way, are the model's (assumption 30). -/
def Obligations.TileWrites : Prop :=
  ∀ (s : State),
    (∀ (d b : Fin 64) (p : Fin 8) (z : Fin 4) (o : Fin 256) (l : Lent), Clear (.twr d b p z o l) s →
      let va := Spec.address (s.me.sreg b.val) 6 o l
      (va.toNat % 64 ≠ 0 → Traps (.twr d b p z o l) s 3 4 0 va)
      ∧ (va.toNat % 64 = 0 → (∀ e, e ∈ s.blockLines d z p va → inKennel e.1.toNat = true) →
          ∀ ps, s.places .twr ((s.blockLines d z p va).map (·.1)) = .ok ps →
          (∀ q, q ∈ ps → ∃ dd ix g o', q = Place.tile dd ix g o' ∧ s.writable dd ix g = true) →
          ∃ t new, exec (.twr d b p z o l) s = .next t ∧ t.issue = .issued
            ∧ t.quad s.myQuad = { s.quad s.myQuad with path := (s.quad s.myQuad).path ++ new } ∧ (∀ q, q ≠ s.myQuad → t.quad q = s.quad q)
            ∧ new.map (fun w => (w.tile, w.addr, w.bytes)) = ((s.blockLines d z p va).zip ps).flatMap (fun e =>
                (rowPieces (s.me.preg p.val) e.1.2.1 e.1.2.2).map fun w =>
                  match e.2 with | .tile dd ix g o' => (some (dd, ix, g), o' + w.1, w.2) | _ => (none, 0, w.2))
            ∧ (∀ w, w ∈ new → w.core = s.cur ∧ w.part = s.me.part ∧ w.eng = 0
                ∧ ∀ dd ix g, w.tile = some (dd, ix, g) → s.clk + (if dd = s.myDie then 28 else 358) ≤ w.due)
            ∧ (((s.quad s.myQuad).path.map (·.due)).Pairwise (· ≤ ·) → ((t.quad s.myQuad).path.map (·.due)).Pairwise (· ≤ ·))
            ∧ t = { s with quads := t.quads, agenda := t.agenda, issue := .issued }))
    ∧ (∀ c, ∃ t done, exec (.tileAccessArrives c) s = .next t
        ∧ (s.quad (c / 4)).path = done ++ (t.quad (c / 4)).path ∧ (∀ w, w ∈ done → w.due ≤ s.clk) ∧ (done.filter fun w => w.tile.isSome).length ≤ 1
        ∧ (∀ w, (t.quad (c / 4)).path.head? = some w → s.clk < w.due ∨ (w.tile ≠ none ∧ ∃ v, v ∈ done ∧ v.tile ≠ none))
        ∧ (∀ x, tgetD t.mem x 0 = Spec.homeByte s done x)
        ∧ (∀ w rest d ix g, done = w :: rest → w.tile = some (d, ix, g) →
            (∀ tl, s.writable d ix g = true → tget (s.die d).tiles ix = some tl → ∃ tl', tget (t.die d).tiles ix = some tl'
                ∧ (∀ j, j < w.bytes.length → tget tl'.bytes (w.addr + j) = some (w.bytes.getD j 0))
                ∧ (∀ x, x < w.addr ∨ w.addr + w.bytes.length ≤ x → tget tl'.bytes x = tget tl.bytes x)
                ∧ tl' = { tl with bytes := tl'.bytes } ∧ t.cores = s.cores ∧ t.parts = s.parts)
            ∧ (s.writable d ix g = false → (∀ k, (t.die k).tiles = (s.die k).tiles)
                ∧ ((s.core w.core).task.isSome = true → (s.core w.core).part = w.part → (t.core w.core).stopped = true)
                ∧ ((s.part w.part).pstate = 0 → (t.part w.part).pstate = 1))))

/-- R177 to R179: TSEAL seals a live tile of the partition that is neither sealed nor bound, when every earlier write is performed. TLD, of a sealed tile
whose count is above 0, answers the zero-extended bytes at its offset and gives up one read; TDROP gives up one read; TCNT answers
live, sealed and count, or 0, and so does TCNT.wait, which waits while a live tile is not sealed. R362: TSEAL of no live tile, of one that is sealed or
bound, and TLD and TDROP of no live tile or of one without a read left, are count-mismatch faults; R170: an address outside the window is an
invalid-operand fault, that of a Kennel that is not there or a tile of another partition a translation fault, and TLD past the tile's end or
misaligned traps. That the read is taken, and the count given up, at issue is the model's (assumption 20), as is the set of writes that a release
covers (assumption 157). -/
def Obligations.TilesConsumed : Prop :=
  ∀ (s : State) (d ix : Nat) (tl : Tile),
    let lat := if d = s.myDie then 28 else 358
    (∀ a : Fin 64, Clear (.tseal a) s → Spec.Names s (s.me.sreg a.val) d ix tl → tl.sealed = false → tl.bound = false → s.releaseOut s.cur = false →
      exec (.tseal a) s = .next ((s.setDie d { s.die d with tiles := tset (s.die d).tiles ix { tl with sealed := true } }).mark .issued))
    ∧ (∀ a : Fin 64, Clear (.tseal a) s →
        let va := s.me.sreg a.val
        (Spec.NamesNone s va d ∨ (Spec.Names s va d ix tl ∧ (tl.sealed = true ∨ tl.bound = true)) → HaltsAt (.tseal a) s 3 16 0 va)
        ∧ (inKennel va.toNat = false → Traps (.tseal a) s 3 5 0 0)
        ∧ (inKennel va.toNat = true → bit (s.part s.me.part).ttbase 0 = true → 6 ≤ va.toNat / 2 ^ 49 % 8 → Traps (.tseal a) s 3 6 2 va)
        ∧ (Spec.NamesOther s va tl → Traps (.tseal a) s 3 6 3 va))
    ∧ (∀ (r b : Fin 64) (p : Fin 8) (z : Fin 4) (o : Fin 256) (l : Lent), Clear (.tld r b p z o l) s → (s.me.preg p.val).getLsbD 0 = true →
        let i := Instr.tld r b p z o l
        let va := Spec.address (s.me.sreg b.val) z.val o l
        (va.toNat % 2 ^ z.val = 0 → Spec.NamesNone s va d ∨ (Spec.Names s va d ix tl ∧ tl.sealed = true ∧ tl.count = 0) → HaltsAt i s 1 16 0 va)
        ∧ (Spec.NamesNone s va d ∨ Spec.Names s va d ix tl → va.toNat % 2 ^ z.val ≠ 0 → Traps i s 1 4 0 va)
        ∧ (va.toNat % 2 ^ z.val = 0 → Spec.Names s va d ix tl → tl.sealed = true → tl.count ≠ 0 → 4096 * tl.units ≤ va.toNat % 2 ^ 20 → Traps i s 1 6 2 va)
        ∧ (inKennel va.toNat = false → Traps i s 1 5 0 0)
        ∧ (inKennel va.toNat = true → bit (s.part s.me.part).ttbase 0 = true → 6 ≤ va.toNat / 2 ^ 49 % 8 → Traps i s 1 6 2 va)
        ∧ (Spec.NamesOther s va tl → Traps i s 1 6 3 va))
    ∧ (∀ a : Fin 64, Clear (.tdrop a) s →
        let va := s.me.sreg a.val
        (Spec.NamesNone s va d ∨ (Spec.Names s va d ix tl ∧ tl.sealed = true ∧ tl.count = 0) → HaltsAt (.tdrop a) s 1 16 0 va)
        ∧ (inKennel va.toNat = false → Traps (.tdrop a) s 1 5 0 0)
        ∧ (inKennel va.toNat = true → bit (s.part s.me.part).ttbase 0 = true → 6 ≤ va.toNat / 2 ^ 49 % 8 → Traps (.tdrop a) s 1 6 2 va)
        ∧ (Spec.NamesOther s va tl → Traps (.tdrop a) s 1 6 3 va))
    ∧ (∀ (r b : Fin 64) (p : Fin 8) (z : Fin 4) (o : Fin 256) (l : Lent), Clear (.tld r b p z o l) s →
        let va := Spec.address (s.me.sreg b.val) z.val o l
        ((s.me.preg p.val).getLsbD 0 = false → exec (.tld r b p z o l) s = .next (s.mark .issued))
        ∧ ((s.me.preg p.val).getLsbD 0 = true → va.toNat % 2 ^ z.val = 0 → Spec.Names s va d ix tl → va.toNat % 2 ^ 20 < 4096 * tl.units →
            (tl.sealed = true → tl.count ≠ 0 → ∃ t, exec (.tld r b p z o l) s = .next t ∧ t.issue = .issued ∧ Spec.Consumed s t d ix tl
              ∧ Spec.Awaits s t r.val (BitVec.ofNat 64 (Spec.number ((List.range (2 ^ z.val)).map fun i => tl.byte (va.toNat % 2 ^ 20 + i)))) lat
              ∧ t.mem = s.mem ∧ t.quads = s.quads ∧ t.me = { s.me with pend := t.me.pend, seq := s.me.seq + 1 })
            ∧ (tl.sealed = false → exec (.tld r b p z o l) s = .next (s.mark .held))))
    ∧ (∀ a : Fin 64, Clear (.tdrop a) s → Spec.Names s (s.me.sreg a.val) d ix tl →
        (tl.sealed = true → tl.count ≠ 0 → ∃ t, exec (.tdrop a) s = .next t ∧ t.issue = .issued ∧ Spec.Consumed s t d ix tl
          ∧ t.cores = s.cores ∧ t.mem = s.mem ∧ t.quads = s.quads)
        ∧ (tl.sealed = false → exec (.tdrop a) s = .next (s.mark .held)))
    ∧ (∀ (r a : Fin 64), Clear (.tcnt r a) s →
        (Spec.Names s (s.me.sreg a.val) d ix tl → exec (.tcnt r a) s = .next ((s.pend [keyS r.val]
          (some (.scalar r.val (BitVec.ofNat 64 (2 ^ 17 + tl.sealed.toNat * 2 ^ 16 + tl.count)))) lat).2.mark .issued))
        ∧ (Spec.NamesNone s (s.me.sreg a.val) d →
          exec (.tcnt r a) s = .next ((s.pend [keyS r.val] (some (.scalar r.val 0)) lat).2.mark .issued)))
    ∧ (∀ (r a : Fin 64), Clear (.tcntWait r a) s →
        (Spec.Names s (s.me.sreg a.val) d ix tl → tl.sealed = true → exec (.tcntWait r a) s = .next ((s.pend [keyS r.val]
          (some (.scalar r.val (BitVec.ofNat 64 (2 ^ 17 + 2 ^ 16 + tl.count)))) lat).2.mark .issued))
        ∧ (Spec.Names s (s.me.sreg a.val) d ix tl → tl.sealed = false → exec (.tcntWait r a) s = .next (s.mark .held))
        ∧ (Spec.NamesNone s (s.me.sreg a.val) d →
          exec (.tcntWait r a) s = .next ((s.pend [keyS r.val] (some (.scalar r.val 0)) lat).2.mark .issued)))

/-! ### Copies -/

/-- R124, R136, R140: a copy whose operands fit is accepted on its channel behind the commands there, takes its place in the order of its
core, and has moved no byte; while 32 commands are queued there its bundle is held (a command holds its place in the queue until it is done: the
model's choice, assumption 143). A count above 2^28 or, with conversion, off a multiple of 64 is an invalid-operand fault. -/
def Obligations.CopiesAccepted : Prop :=
  ∀ (i : Instr) (s : State) (slot : Nat) (kind : CopyKind) (wform : Bool) (dst src c : W64) (inc h : Nat) (mw : Micro),
    Spec.copy i s.me.sreg = some (slot, kind, wform, dst, src, c, inc, h, mw) → Clear i s →
    let m := mwOf mw
    let sh := if mwWalk m then s.me.shape (mwShp m) else none
    let old := tgetD (s.quad s.myQuad).chans h []
    ((mwWalk m = true → s.shapeLate (mwShp m) = false) → Spec.CopyFits kind m sh c.toNat →
      (old.filter fun o => !o.done).length < 32 → ∃ t new, exec i s = .next t ∧ t.issue = .issued
        ∧ (tgetD (t.quad s.myQuad).chans h []).map (fun o => { o with active := false })
            = old.map (fun o => { o with active := false }) ++ [new]
        ∧ new.id = s.nextId ∧ new.core = s.cur ∧ new.part = s.me.part ∧ new.kind = kind ∧ new.wform = wform ∧ new.mw = m ∧ new.dst = dst
        ∧ new.src = src ∧ new.c = c ∧ new.shape = sh ∧ new.inc = inc ∧ new.pos = 0 ∧ new.seg = 0 ∧ new.done = false ∧ new.buf = [] ∧ new.out = 0
        ∧ new.total = (match sh with | some x => 2 ^ x.elog * x.c0 * x.c1 * x.c2 * x.c3 | none => c.toNat)
        ∧ t.me = { s.me with orders := s.me.orders ++ [(h, s.nextId, inc, none)] } ∧ (∀ j, j ≠ s.cur → t.core j = s.core j)
        ∧ (∀ q, q ≠ s.myQuad → t.quad q = s.quad q) ∧ SameBytes s t
        ∧ t = { s with cores := t.cores, quads := t.quads, agenda := t.agenda, nextId := s.nextId + 1, issue := .issued })
    ∧ ((mwWalk m = true → s.shapeLate (mwShp m) = false) → Spec.CopyFits kind m sh c.toNat →
        32 ≤ (old.filter fun o => !o.done).length → exec i s = .next (s.mark .held))
    ∧ (mwWalk m = false → 2 ^ 28 < c.toNat ∨ (mwCv m = true ∧ c.toNat % 64 ≠ 0) → Traps i s slot 5 0 0)

/-- R133: SHAPE writes its entry of the core from a record of 64 aligned bytes whose fields are in range, and changes no other; a record out of
range is an invalid-operand fault, a misaligned one an alignment fault. Beside that its read is counted. -/
def Obligations.ShapeLoads : Prop :=
  ∀ (a : Fin 64) (k : Fin 16) (l : Lent) (s : State), Clear (.shape a k l) s →
    let va := s.me.sreg a.val
    (va.toNat % 64 ≠ 0 → Traps (.shape a k l) s 1 4 0 va)
    ∧ (va.toNat % 64 = 0 → ∀ pa leaf, s.translate s.ctx .load va = .at_ (.phys pa) leaf → Spec.sound s pa 64 →
        (∀ x, shapeOf (Spec.bytesAt s s.cur pa 64) = some x → ∃ u t, Spec.Noted s u ∧ exec (.shape a k l) s = .next t ∧ t.issue = .issued ∧ OnlyCore u t
            ∧ t.me = { s.me with shapes := t.me.shapes, shapeOld := t.me.shapeOld, shapeAt := t.me.shapeAt }
            ∧ (∀ j, tget t.me.shapes j = if j = k.val then some x else tget s.me.shapes j)
            ∧ (∀ j, j ≠ k.val → tget t.me.shapeAt j = tget s.me.shapeAt j))
        ∧ (shapeOf (Spec.bytesAt s s.cur pa 64) = none → Traps (.shape a k l) s 1 5 0 0))

/-- R142, R143, R168: WAITC takes its threshold from the channel's counter once it is reached and is held until then; with 0 it does nothing.
DRAIN goes on once the core's earlier copies on the channel are complete and, beyond the quad, the channel's writes are at their homes; FENCE once
the core's earlier accesses are performed at the scope: its TWRs from .quad on, beyond the quad the stores of its quad that it may have synchronised with
(R317: which they are is the model's reading, assumption 157), and no copy. -/
def Obligations.CounterWaits : Prop :=
  ∀ (s : State),
    (∀ (st h : Fin 8) (n : Fin 524288), Clear (.waitc st h n) s →
      let v := (tgetD s.me.cc h.val 0).toNat
      (n.val = 0 → exec (.waitc st h n) s = .next (s.mark .issued))
      ∧ (n.val ≠ 0 → n.val ≤ v → ∃ t, exec (.waitc st h n) s = .next t ∧ t.issue = .issued ∧ OnlyCore s t ∧ t.me = { s.me with cc := t.me.cc }
          ∧ ∀ j, tgetD t.me.cc j 0 = if j = h.val then BitVec.ofNat 32 (v - n.val) else tgetD s.me.cc j 0)
      ∧ (v < n.val → exec (.waitc st h n) s = .next (s.mark .held)))
    ∧ (∀ h c : Fin 8, Clear (.drain h c) s → (∀ m, m ∈ tgetD (s.quad s.myQuad).chans h.val [] → m.core = s.cur → m.done = true) →
        (3 ≤ c.val → s.engOut s.cur (1 + h.val) = false) → exec (.drain h c) s = .next (s.mark .issued))
    ∧ (∀ c : Fin 8, Clear (.fence c) s → (3 ≤ c.val → s.releaseOut s.cur = false) → (2 ≤ c.val → s.tileWritesOut s.cur = false) →
        exec (.fence c) s = .next (s.mark .issued))
    ∧ (∀ c : Fin 8, Clear (.fence c) s → (3 ≤ c.val ∧ s.releaseOut s.cur = true) ∨ (2 ≤ c.val ∧ s.tileWritesOut s.cur = true) → s.issue = .idle →
        exec (.fence c) s = .next ((s.noteRelease s.cur).mark .held))

/-! ### Weight handles -/

/-- R80, R82, R413: HREAD, with aligned ranges, its source in one HBF window and every destination page in HBM of that ED, asks the ED's table
for its slot, 6 clocks away on that ED and 380 elsewhere; its bundle is held until the request has taken effect there, and then issues with
the handle as its interlocked result, or takes the fault that the table found (that it waits there for the answer is the model's, assumption
37). A misaligned range traps with code 4, a source in no window or across its end with code 11. R82, R83, R85, R86, R413: of a handle word
that names a live slot of the partition, HWAIT goes on once the slot is done and is held before that in a task that waits in place; another
partition's slot traps with code 10 and a stale handle with code 9. HSTAT and HREL send their requests to the table and go on, HSTAT with
the status as its interlocked result, when these have taken effect there, or take the fault that the table found. A word with a bit above 25
and the null handle trap with code 10 in all three. -/
def Obligations.Handles : Prop :=
  (∀ (d a b : Fin 64) (u : Fin 128) (l : Lent) (s : State), Clear (.hread d a b u l) s →
     let i := Instr.hread d a b u l
     let src := s.me.sreg a.val
     let dst := s.me.sreg b.val
     let n := 128 * (l.elim 0 (·.val)) + u.val + 1
     (src.toNat % 4096 ≠ 0 → Traps i s 1 4 0 src)
     ∧ (src.toNat % 4096 = 0 → dst.toNat % 4096 ≠ 0 → Traps i s 1 4 0 dst)
     ∧ (src.toNat % 4096 = 0 → dst.toNat % 4096 = 0 →
         (src.toNat < hbfBase ∨ hbfBase + 4 * 2 ^ 41 ≤ src.toNat ∨ 1440 * 2 ^ 30 < (src.toNat - hbfBase) % 2 ^ 41 + 4096 * n) →
         Traps i s 1 11 0 0)
     ∧ (src.toNat % 4096 = 0 → dst.toNat % 4096 = 0 → ∀ e o leaf, hbfBase ≤ src.toNat → src.toNat < hbfBase + 4 * 2 ^ 41 →
         (src.toNat - hbfBase) % 2 ^ 41 + 4096 * n ≤ 1440 * 2 ^ 30 → e = (src.toNat - hbfBase) / 2 ^ 41 →
         s.translate s.ctx (.src true) src = .at_ (.flash e o) leaf →
         (∀ k, k < n → ∃ pa leaf', s.translate s.ctx (.dst false) (dst + BitVec.ofNat 64 (4096 * k)) = .at_ (.phys pa) leaf'
           ∧ pa < 2 ^ 40 ∧ hbmDie pa = 2 + e) →
         Spec.Asks i s 1 e (.hread s.cur s.me.part e src dst n s.me.tag s.me.pc s.me.priv s.me.coop) 0
         ∧ ∀ h, s.me.hreq = some h → h.pc = s.me.pc → h.done = true → h.fault = 0 → ∃ t, exec i s = .next t ∧ t.issue = .issued ∧ OnlyCore s t
             ∧ Spec.Awaits s t d.val h.value (if s.myDie = 2 + e then 6 else 380)
             ∧ t.me = { s.me with hreq := none, pend := t.me.pend, seq := s.me.seq + 1 }))
  ∧ (∀ (d a : Fin 64) (s : State),
       let w := s.me.sreg a.val
       let e := w.toNat / 2 ^ 24 % 4
       let none_ := 2 ^ 26 ≤ w.toNat ∨ w = 0
       let alien := ∃ h, tget (s.flash e).slots (w.toNat % 4096) = some h ∧ h.part ≠ s.me.part
       let stale := ∀ h, tget (s.flash e).slots (w.toNat % 4096) = some h → h.part = s.me.part ∧ h.gen ≠ w.toNat / 4096 % 4096
       let names := fun h => tget (s.flash e).slots (w.toNat % 4096) = some h ∧ h.part = s.me.part ∧ h.gen = w.toNat / 4096 % 4096
       (Clear (.hwait a) s →
         (none_ ∨ alien → Traps (.hwait a) s 1 10 0 w) ∧ (¬ none_ → stale → Traps (.hwait a) s 1 9 0 w)
         ∧ (¬ none_ → ∀ h, names h → h.done.length = h.units → exec (.hwait a) s = .next (s.mark .issued))
         ∧ (¬ none_ → ∀ h, names h → h.done.length ≠ h.units → s.me.inPlace = true →
             exec (.hwait a) s = .next ((s.setMe { s.me with waits := w }).mark .held)))
       ∧ (Clear (.hstat d a) s →
           (none_ → Traps (.hstat d a) s 1 10 0 w)
           ∧ (¬ none_ → Spec.Asks (.hstat d a) s 1 e (.hstat s.cur s.me.part e w) w
               ∧ ∀ h, s.me.hreq = some h → h.pc = s.me.pc → h.done = true → h.fault = 0 → ∃ t, exec (.hstat d a) s = .next t ∧ t.issue = .issued
                   ∧ OnlyCore s t ∧ Spec.Awaits s t d.val h.value (if s.myDie = 2 + e then 6 else 380)
                   ∧ t.me = { s.me with hreq := none, pend := t.me.pend, seq := s.me.seq + 1 }))
       ∧ (Clear (.hrel a) s →
           (none_ → Traps (.hrel a) s 1 10 0 w)
           ∧ (¬ none_ → Spec.Asks (.hrel a) s 1 e (.hrel s.cur s.me.part e w) w
               ∧ ∀ h, s.me.hreq = some h → h.pc = s.me.pc → h.done = true → h.fault = 0 →
                   exec (.hrel a) s = .next ((s.setMe { s.me with hreq := none }).mark .issued))))

/-! ### Translation commands -/

/-- R107: TLBI, when the core's earlier stores and copies are performed, removes from every TLB of the package just the entries its kind names, and
what walks have told of their pages, once every write that went through one of them has reached its home; a kind that names a partition or all
clears the walk caches. Kinds 2 to 4 trap with code 2 in a tenant, and a partition operand above 15 with code 5. -/
def Obligations.TlbRemovals : Prop :=
  ∀ (a b : Fin 64) (s : State) (i : Instr) (sup : Bool) (bad : Bool) (f : TlbEnt → Bool),
    let p := (s.me.sreg b.val).toNat
    let page := (s.me.sreg a.val).toNat / 4096
    ((i = .tlbiVa a ∧ sup = false ∧ bad = false ∧ f = fun e => e.part == s.me.part && e.vpn == page / 2 ^ e.lg)
      ∨ (i = .tlbiOwn ∧ sup = false ∧ bad = false ∧ f = fun e => e.part == s.me.part)
      ∨ (i = .tlbiPva a b ∧ sup = true ∧ bad = decide (16 ≤ p) ∧ f = fun e => e.part == p % 16 && e.vpn == page / 2 ^ e.lg)
      ∨ (i = .tlbiPart b ∧ sup = true ∧ bad = decide (16 ≤ p) ∧ f = fun e => e.part == p % 16)
      ∨ (i = .tlbiGlob ∧ sup = true ∧ bad = false ∧ f = fun _ => true)) → Clear i s →
    ((sup = true → s.isSup = true) → bad = false → s.pathOut s.cur = false → s.copiesOut s.cur = false →
      ∃ t, exec i s = .next t ∧ t.issue = .issued ∧ Spec.Removed s t f
        ∧ (∀ d, (t.die d).wcache = if i = .tlbiVa a ∨ i = .tlbiPva a b then (s.die d).wcache else [])
        ∧ (∀ j w, w ∈ (t.core j).walked → w ∈ (s.core j).walked)
        ∧ (Spec.plainPaths s → Spec.RemovedOnly s t ∧ t.parts = s.parts))
    ∧ (sup = true → s.isSup = false → Traps i s 3 2 0 (BitVec.ofNat 64 (encode i)))
    ∧ (sup = true → s.isSup = true → bad = true → Traps i s 3 5 0 0)

/-- R149, R147, R148, R146: PUBLISH turns the select bit of a live pair of the partition, when the core's stores and its copies into the pair
are performed (which copies those are is the model's reading, assumption 154); PUBLISH.undef takes a live pair away and leaves the others,
and on a pair that is not live changes nothing. PUBLISH of a pair that is not live is an invalid-operand fault. R148, R113, R114:
PUBLISH.def and WMAP install what an aligned descriptor describes, when its fields are in range and it meets no other pair or window, and
count the reads of the descriptor; a misaligned descriptor traps with code 4 (the model's reading, assumption 31) and one out of range with
code 5. WUNMAP takes a window away. -/
def Obligations.Remaps : Prop :=
  (∀ (n : Fin 64) (s : State),
     let p := s.me.part
     let pairs := (s.part p).pairs
     let ranged := fun (p : Nat) (k : Pair) (e : TlbEnt) => e.part == p && (meet (e.vpn * 2 ^ e.lg * 4096) (2 ^ e.lg * 4096) k.nameVa.toNat k.len
       || meet (e.vpn * 2 ^ e.lg * 4096) (2 ^ e.lg * 4096) k.secondVa.toNat k.len)
     (Clear (.publish n) s →
       (∀ k, tget pairs n.val = some k → s.pathOut s.cur = false → s.copiesInto k = false → ∃ t, exec (.publish n) s = .next t ∧ t.issue = .issued
         ∧ (∀ j, tget (t.part p).pairs j = if j = n.val then some { k with sel := !k.sel } else tget pairs j)
         ∧ Spec.Removed s t (ranged p k) ∧ (Spec.plainPaths s → Spec.RemovedOnly s t ∧ ∀ q, q ≠ p → t.part q = s.part q))
       ∧ (tget pairs n.val = none → Traps (.publish n) s 3 5 0 0))
     ∧ (Clear (.publishUndef n) s →
       (∀ k, tget pairs n.val = some k → s.pathOut s.cur = false → s.copiesInto k = false → ∃ t, exec (.publishUndef n) s = .next t
         ∧ t.issue = .issued ∧ (∀ j, tget (t.part p).pairs j = if j = n.val then none else tget pairs j)
         ∧ Spec.Removed s t (ranged p k) ∧ (Spec.plainPaths s → Spec.RemovedOnly s t ∧ ∀ q, q ≠ p → t.part q = s.part q))
       ∧ (tget pairs n.val = none → exec (.publishUndef n) s = .next (s.mark .issued))))
  ∧ (∀ (s : State),
       (∀ (n a : Fin 64), Clear (.publishDef n a) s →
         let va := s.me.sreg a.val
         let pairs := (s.part s.me.part).pairs
         (va.toNat % 32 ≠ 0 → Traps (.publishDef n a) s 3 4 0 va)
         ∧ (va.toNat % 32 = 0 → ∀ r, s.readSpan va 32 = .ok r →
             (pairOf r = none → Traps (.publishDef n a) s 3 5 0 0)
             ∧ (∀ k, pairOf r = some k → (∃ o, tget pairs n.val = some o) → Traps (.publishDef n a) s 3 5 0 0)
             ∧ (∀ k, pairOf r = some k → tget pairs n.val = none → s.pairMeets s.me.part k = false → ∃ t, exec (.publishDef n a) s = .next t
                 ∧ t.issue = .issued ∧ k.sel = false ∧ (∀ j, tget (t.part s.me.part).pairs j = if j = n.val then some k else tget pairs j)
                 ∧ (Spec.plainPaths s → Spec.RemovedOnly (s.countSpan va 32) t ∧ ∀ q, q ≠ s.me.part → t.part q = s.part q))))
       ∧ (∀ (a b : Fin 64) (n : Fin 16) (l : Lent), Clear (.wmap a b n l) s →
         let va := s.me.sreg a.val
         let table := s.me.sreg b.val
         (va.toNat % 32 ≠ 0 → Traps (.wmap a b n l) s 3 4 0 va)
         ∧ (va.toNat % 32 = 0 → table.toNat % 4 ≠ 0 → Traps (.wmap a b n l) s 3 4 0 table)
         ∧ (va.toNat % 32 = 0 → table.toNat % 4 = 0 → ∀ r, s.readSpan va 32 = .ok r →
             (windowOf r table = none → Traps (.wmap a b n l) s 3 5 0 0)
             ∧ (∀ w, windowOf r table = some w →
                 (∀ e, e ∈ (s.die s.myDie).wins → e.1 / 16 = s.me.part → e.1 ≠ 16 * s.me.part + n.val → e.2.meets w = false) → s.writesOut s.cur = false →
                 exec (.wmap a b n l) s = .next
                   (((s.countSpan va 32).setDie s.myDie
                     { (s.countSpan va 32).die s.myDie with wins := tset (s.die s.myDie).wins (16 * s.me.part + n.val) w }).mark .issued))))
       ∧ (∀ n : Fin 16, Clear (.wunmap n) s → s.writesOut s.cur = false → ∃ t, exec (.wunmap n) s = .next t ∧ t.issue = .issued
           ∧ (∀ j, tget (t.die s.myDie).wins j = if j = 16 * s.me.part + n.val then none else tget (s.die s.myDie).wins j)
           ∧ (∀ d, d ≠ s.myDie → t.die d = s.die d) ∧ t = { s with dies := t.dies, issue := .issued }))

/-- R116, R117: PAGEMV of the supervisor, of an aligned page that is neither shared, executable nor already migrating, to an aligned frame of one
region, when the core's stores and copies are performed and its channel has room, issues: the page's entry shows mig = 1, no TLB of the package holds
the page, every write that went through an entry of it has reached the old frame, and a copy of the page from its frame to the new one stands on the
channel behind the commands there. A tenant traps with code 2, and an operand out of these bounds with code 5. That a command holds its place in the
queue until it is done is the model's choice (assumption 143). -/
def Obligations.PageMoves : Prop :=
  ∀ (a b : Fin 64) (h : Fin 8) (l : Lent) (s : State), Clear (.pagemv a b h l) s →
    let i := Instr.pagemv a b h l
    let va := s.me.sreg a.val
    let pa := (s.me.sreg b.val).toNat
    (s.isSup = false → Traps i s 3 2 0 (BitVec.ofNat 64 (encode i)))
    ∧ (s.isSup = true → s.windowAt s.ctx va.toNat = none → va.toNat < 2 ^ 57 → inHbf va.toNat = false → unmappable va.toNat = false → ∀ e lg at_, s.walk s.me.part va.toNat = .leaf e lg at_ →
        (va.toNat % 2 ^ lg ≠ 0 ∨ pa % 2 ^ lg ≠ 0 ∨ pteShared e = true ∨ pteX e = true ∨ pteMig e = true → Traps i s 3 5 0 0)
        ∧ (va.toNat % 2 ^ lg = 0 → pa % 2 ^ lg = 0 → pageRegion pa lg = some 0 ∨ pageRegion pa lg = some 3 → pteShared e = false → pteX e = false →
            pteMig e = false → s.pathOut s.cur = false → s.copiesOut s.cur = false →
            ((tgetD (s.quad s.myQuad).chans h.val []).filter fun o => !o.done).length < 32 →
            ∃ t m, exec i s = .next t ∧ t.issue = .issued
              ∧ Spec.Removed { s with mem := memWrite s.mem at_ (Spec.bytesOf 8 (migLeaf e (ptePa e) true).toNat) } t
                  (fun x => x.part == s.me.part && x.vpn == va.toNat / 4096 / 2 ^ x.lg)
              ∧ (tgetD (t.quad s.myQuad).chans h.val []).map (fun o => { o with active := false })
                  = (tgetD (s.quad s.myQuad).chans h.val []).map (fun o => { o with active := false }) ++ [m]
              ∧ m.id = s.nextId ∧ m.kind = .page at_ ∧ m.src.toNat = ptePa e % 2 ^ 64 ∧ m.dst.toNat = pa
              ∧ m.total = 2 ^ lg ∧ m.core = s.cur ∧ m.pos = 0 ∧ m.done = false))


/-! ### Vector operations -/

/-- R226 to R229, R231: every lane-wise operation that rounds nothing answers the state in which its block is on its way with the table's latency,
to be written where the predicate is 1, and each element of each lane is the table's result of the elements in its place. -/
def Obligations.VectorElements : Prop :=
  ∀ (i : Instr) (s : State) (lat w : Nat) (d a b : Fin 64) (p : Fin 8) (sh : Lent) (f : Nat → Nat → Nat),
    Spec.elements i = some (lat, w, d, a, b, p, sh, f) → Clear i s →
    let cs := (s.me.extent sh).1
    let n := (s.me.extent sh).2
    ∃ data, exec i s = .next ((s.push 2 lat (.vec d.val (rowsOf sh) cs n (s.me.preg p.val) data)).mark .issued)
      ∧ ∀ r j l k, r < rowsOf sh → j < n → l < 16 → k < 32 / w →
          Spec.elem w (lane (data.getD (n * r + j) 0) l) k
            = f (Spec.elem w (lane (s.vsrc a.val r (cs + j)) l) k) (Spec.elem w (lane (s.vsrc b.val r (cs + j)) l) k)

/-- R229, R234, R199, R200: VFADD, VFSUB, VFMUL and VFMA round the exact value of each element once, with latency 4; VCVT converts elements between
types, with latency 3, and where the destination has more elements than the source keeps the others. In the stochastic mode every rounding
of an active lane takes the next draw of its cluster's generator, by row, lane and element, and in the others no generator changes. That VCVT keeps the
other elements as they are at issue, and that VFMA with d = 62 adds the row that leaves, are the model's readings (assumptions 6 and 7). -/
def Obligations.VectorRounding : Prop :=
  ∀ (s : State),
    (∀ (i : Instr) (d a b : Fin 64) (p : Fin 8) (t r : Fin 4) (sh : Lent) (f : Bool → Machine.Num → Machine.Num → Machine.Num → Machine.Num),
      Spec.rounded i = some (d, a, b, p, t, r, sh, f) → Clear i s →
      let cs := (s.me.extent sh).1
      let n := (s.me.extent sh).2
      let ff := Spec.float t.val
      let mode := s.me.modeOf r.val
      let m := 32 / ff.width
      let pg := s.me.preg p.val
      ∃ data u, exec i s = .next u
        ∧ Spec.Drew s u ((s.push 2 4 (.vec d.val (rowsOf sh) cs n pg data)).mark .issued) cs n
            (fun c => if mode = 5 then m * rowsOf sh * Spec.below pg c 16 else 0)
        ∧ ∀ w j l k, w < rowsOf sh → j < n → l < 16 → k < m →
            let c := cs + j
            let x := fun v => ff.dec (Spec.elem ff.width v k)
            Spec.elem ff.width (lane (data.getD (n * w + j) 0) l) k = ff.enc mode
              (if mode = 5 then drawAt (s.gen s.myPart (8 * s.cur + c)) (m * (w * Spec.below pg c 16 + Spec.below pg c l) + k) else 0) false
              (f (mode == 4) (x (lane (s.vsrc a.val w c) l)) (x (lane (s.vsrc b.val w c) l)) (x (lane (s.vsrc d.val w c) l))))
    ∧ (∀ (d a : Fin 64) (g h p : Fin 8) (k r : Fin 4) (sh : Lent), Clear (.vcvt d a g h p k r sh) s →
      let cs := (s.me.extent sh).1
      let n := (s.me.extent sh).2
      let mode := if isFloatType g.val || isFloatType h.val then s.me.modeOf r.val else 2
      let na := 32 / cvtWidth g.val
      let nd := 32 / cvtWidth h.val
      let m := min na nd
      let pg := s.me.preg p.val
      ∃ data u, exec (.vcvt d a g h p k r sh) s = .next u
        ∧ Spec.Drew s u ((s.push 2 3 (.vec d.val (rowsOf sh) cs n pg data)).mark .issued) cs n
            (fun c => if mode = 5 then m * rowsOf sh * Spec.below pg c 16 else 0)
        ∧ ∀ w j l e, w < rowsOf sh → j < n → l < 16 →
            let c := cs + j
            let draw := if mode = 5 then drawAt (s.gen s.myPart (8 * s.cur + c)) (m * (w * Spec.below pg c 16 + Spec.below pg c l) + e) else 0
            let v := fun q => cvtEnc h.val mode draw (cvtDec g.val (Spec.elem (cvtWidth g.val) (lane (s.vsrc a.val w c) l) q))
            let out := fun q => Spec.elem (cvtWidth h.val) (lane (data.getD (n * w + j) 0) l) q
            (na ≤ nd → e < na → out (k.val * na + e) = v e)
            ∧ (na < nd → e < nd → (e < k.val * na ∨ k.val * na + na ≤ e) →
                out e = Spec.elem (cvtWidth h.val) (lane (s.me.vreg (d.val + w) c) l) e)
            ∧ (nd < na → e < nd → out e = v (k.val * nd + e)))

/-- R230: VCMP and VFCMP write the bits of the block's lanes that are on, with latency 2, as their condition holds of the lanes. R231, R232: VSEL,
VSHUF, VBCAST, VMOVS and its form to a scalar move lanes within their cluster and row. -/
def Obligations.VectorMoves : Prop :=
  ∀ (s : State) (sh : Lent),
    let cs := (s.me.extent sh).1
    let n := (s.me.extent sh).2
    let on := fun (p : Fin 8) q => decide (16 * cs ≤ q) && decide (q < 16 * (cs + n)) && (s.me.preg p.val).getLsbD q
    let x := fun (a : Fin 64) q => lane (s.vsrc a.val 0 (q / 16)) (q % 16)
    (∀ (c q p : Fin 8) (a b : Fin 64) (u : Bool), Clear (.vcmp c q a b p u sh) s → ∃ lanes v : Pred,
      exec (.vcmp c q a b p u sh) s = .next ((s.push 2 2 (.pred q.val lanes v)).mark .issued)
      ∧ ∀ g, g < 128 → lanes.getLsbD g = on p g ∧ (on p g = true → v.getLsbD g =
          (let y := Spec.value 32 u (x a g).toNat
           let z := Spec.value 32 u (x b g).toNat
           match c.val with
           | 0 => decide (y = z) | 1 => decide (y ≠ z) | 2 => decide (y < z) | 3 => decide (y ≥ z) | 4 => decide (y ≤ z) | _ => decide (y > z))))
    ∧ (∀ (c q p : Fin 8) (a b : Fin 64), Clear (.vfcmp c q a b p sh) s → ∃ lanes v : Pred,
      exec (.vfcmp c q a b p sh) s = .next ((s.push 2 2 (.pred q.val lanes v)).mark .issued)
      ∧ ∀ g, g < 128 → lanes.getLsbD g = on p g ∧ (on p g = true →
          (let y := fp32.dec (x a g).toNat
           let z := fp32.dec (x b g).toNat
           ((y.isNan || z.isNan) = true → v.getLsbD g = (c.val == 1 || decide (6 ≤ c.val)))
           ∧ (y.isNan = false → z.isNan = false → v.getLsbD g =
              match c.val with
              | 0 => !y.lt z && !z.lt y | 1 => y.lt z || z.lt y | 2 => y.lt z | 3 => !y.lt z | 4 => !z.lt y | 5 => z.lt y | _ => false))))
    ∧ (∀ (d a b : Fin 64) (k : Fin 8), Clear (.vsel d a b k sh) s → ∃ data,
      exec (.vsel d a b k sh) s = .next ((s.push 2 2 (.vec d.val (rowsOf sh) cs n (BitVec.allOnes 128) data)).mark .issued)
      ∧ ∀ r j l, r < rowsOf sh → j < n → l < 16 → lane (data.getD (n * r + j) 0) l =
          lane (s.vsrc (if (s.me.preg k.val).getLsbD (16 * (cs + j) + l) then a.val else b.val) r (cs + j)) l)
    ∧ (∀ (d a b : Fin 64) (p : Fin 8), Clear (.vshuf d a b p sh) s → ∃ data,
      exec (.vshuf d a b p sh) s = .next ((s.push 2 3 (.vec d.val (rowsOf sh) cs n (s.me.preg p.val) data)).mark .issued)
      ∧ ∀ r j l, r < rowsOf sh → j < n → l < 16 → lane (data.getD (n * r + j) 0) l =
          lane (s.vsrc a.val r (cs + j)) ((lane (s.vsrc b.val r (cs + j)) l).toNat % 16))
    ∧ (∀ (d a : Fin 64) (k : Fin 16) (p : Fin 8), Clear (.vbcast d a k p sh) s → ∃ data,
      exec (.vbcast d a k p sh) s = .next ((s.push 2 2 (.vec d.val (rowsOf sh) cs n (s.me.preg p.val) data)).mark .issued)
      ∧ ∀ r j l, r < rowsOf sh → j < n → l < 16 → lane (data.getD (n * r + j) 0) l = lane (s.vsrc a.val r (cs + j)) k.val)
    ∧ (∀ (d a : Fin 64) (p : Fin 8), Clear (.vmovs d a p sh) s → ∃ data,
      exec (.vmovs d a p sh) s = .next ((s.push 2 3 (.vec d.val (rowsOf sh) cs n (s.me.preg p.val) data)).mark .issued)
      ∧ ∀ r j l, r < rowsOf sh → j < n → l < 16 → (lane (data.getD (n * r + j) 0) l).toNat = (s.me.sreg a.val).toNat % 2 ^ 32)
    ∧ (∀ (d a : Fin 64) (k : Fin 16), Clear (.vmovsTos d a k sh) s →
      exec (.vmovsTos d a k sh) s = .next ((s.push 2 3 (.scalar d.val
        (BitVec.ofNat 64 (lane (s.vsrc a.val 0 cs) k.val).toNat))).mark .issued))

/-- R233, R200: a reduction writes, in every lane of every row of its destination block, what it makes of the lanes of its cluster that are on,
with latency 5: the sum, the smallest or the largest; VFRADD rounds once and takes one draw of each cluster in the stochastic mode. -/
def Obligations.VectorReductions : Prop :=
  ∀ (s : State) (sh : Lent) (d a : Fin 64) (p : Fin 8),
    let cs := (s.me.extent sh).1
    let n := (s.me.extent sh).2
    let xs := s.gather sh a p
    let all := fun (data : List Row) (v : Nat → W32) => ∀ r j l, r < rowsOf sh → j < n → l < 16 → lane (data.getD (n * r + j) 0) l = v (cs + j)
    let sends := fun (i : Instr) (v : Nat → W32) => ∃ data,
      exec i s = .next ((s.push 2 5 (.vec d.val (rowsOf sh) cs n (BitVec.allOnes 128) data)).mark .issued) ∧ all data v
    (∀ c x, x ∈ xs c ↔ ∃ r l, r < rowsOf sh ∧ l < 16 ∧ (s.me.preg p.val).getLsbD (16 * c + l) = true ∧ x = lane (s.vsrc a.val r c) l)
    ∧ (∀ u t : Bool, Clear (.vradd d a p u t sh) s →
      sends (.vradd d a p u t sh) fun c => BitVec.ofNat 32 (Spec.fit 32 u t ((xs c).map fun x => Spec.value 32 u x.toNat).sum))
    ∧ (∀ u : Bool, Clear (.vrmin d a p u sh) s → ∃ v : Nat → W32, sends (.vrmin d a p u sh) v ∧ ∀ c,
        (xs c = [] → v c = if u then 0xFFFFFFFF else 0x7FFFFFFF)
        ∧ (xs c ≠ [] → v c ∈ xs c ∧ ∀ x, x ∈ xs c → Spec.value 32 u (v c).toNat ≤ Spec.value 32 u x.toNat))
    ∧ (∀ u : Bool, Clear (.vrmax d a p u sh) s → ∃ v : Nat → W32, sends (.vrmax d a p u sh) v ∧ ∀ c,
        (xs c = [] → v c = if u then 0 else 0x80000000)
        ∧ (xs c ≠ [] → v c ∈ xs c ∧ ∀ x, x ∈ xs c → Spec.value 32 u x.toNat ≤ Spec.value 32 u (v c).toNat))
    ∧ (∀ r : Fin 4, Clear (.vfradd d a p r sh) s →
        let mode := s.me.modeOf r.val
        ∃ data t, exec (.vfradd d a p r sh) s = .next t
          ∧ Spec.Drew s t ((s.push 2 5 (.vec d.val (rowsOf sh) cs n (BitVec.allOnes 128) data)).mark .issued) cs n
              (fun _ => if mode = 5 then 1 else 0)
          ∧ all data fun c => if xs c = [] then 0 else BitVec.ofNat 32 (fp32.enc mode
              (if mode = 5 then drawAt (s.gen s.myPart (8 * s.cur + c)) 0 else 0) false (Machine.Num.sum ((xs c).map fun x => fp32.dec x.toNat))))
    ∧ (Clear (.vfrmin d a p sh) s → ∃ v : Nat → W32, sends (.vfrmin d a p sh) v ∧ ∀ c,
        (xs c = [] → v c = 0x7F800000)
        ∧ ((∃ x, x ∈ xs c ∧ (fp32.dec x.toNat).isNan = true) → v c = 0x7FC00000)
        ∧ (xs c ≠ [] → (∀ x, x ∈ xs c → (fp32.dec x.toNat).isNan = false) →
            v c ∈ xs c ∧ ∀ x, x ∈ xs c → (fp32.dec x.toNat).below (fp32.dec (v c).toNat) = false))
    ∧ (Clear (.vfrmax d a p sh) s → ∃ v : Nat → W32, sends (.vfrmax d a p sh) v ∧ ∀ c,
        (xs c = [] → v c = 0xFF800000)
        ∧ ((∃ x, x ∈ xs c ∧ (fp32.dec x.toNat).isNan = true) → v c = 0x7FC00000)
        ∧ (xs c ≠ [] → (∀ x, x ∈ xs c → (fp32.dec x.toNat).isNan = false) →
            v c ∈ xs c ∧ ∀ x, x ∈ xs c → (fp32.dec (v c).toNat).below (fp32.dec x.toNat) = false))

/-- R235: VXC carries whole registers between the clusters of its block, with latency 6 where every move stays in its cluster or joins neighbours of the ring, else 9; a
broadcast from outside the block, and an exclusive-or pattern that does not fit it, are invalid-operand faults. R236, R237: PWLD loads the segments of
its block and faults past entry 64; VPWP evaluates, in each lane, the cubic of the largest segment whose breakpoint is not above. R238: BRANK
counts the bits below a position and BSEL finds the bit of a rank. -/
def Obligations.VectorTables : Prop :=
  ∀ (s : State) (sh : Lent) (d a b : Fin 64) (p : Fin 8),
    let cs := (s.me.extent sh).1
    let n := (s.me.extent sh).2
    let pg := s.me.preg p.val
    let size := 512 * rowsOf sh
    (∀ (k : Fin 8) (m : Fin 4), Clear (.vxc d a k p m sh) s →
      let fails := (m.val = 1 ∧ n ≤ k.val) ∨ (m.val = 2 ∧ (n ∉ [1, 2, 4, 8] ∨ n ≤ k.val ∨ cs % n ≠ 0))
      (fails → Traps (.vxc d a k p m sh) s 2 5 0 0)
      ∧ (¬ fails → ∃ data lat, exec (.vxc d a k p m sh) s = .next ((s.push 2 lat (.vec d.val (rowsOf sh) cs n pg data)).mark .issued)
          ∧ (∀ r j, r < rowsOf sh → j < n →
              (m.val = 0 → data.getD (n * r + (j + k.val) % n) 0 = s.vsrc a.val r (cs + j))
              ∧ (m.val = 1 → data.getD (n * r + j) 0 = s.vsrc a.val r (cs + k.val))
              ∧ (m.val = 2 → data.getD (n * r + (j ^^^ k.val)) 0 = s.vsrc a.val r (cs + j)))
          ∧ (let far := ∃ j x y, j < n ∧ (x, y) = (match m.val with
                | 0 => (cs + j, cs + (j + k.val) % n)
                | 1 => (cs + k.val, cs + j)
                | _ => (cs + j, cs + (j ^^^ k.val))) ∧ x ≠ y ∧ (x + 1) % 8 ≠ y % 8 ∧ (y + 1) % 8 ≠ x % 8
             (far → lat = 9) ∧ (¬ far → lat = 6))))
    ∧ (∀ j : Fin 64, Clear (.pwld a j sh) s →
      (j.val + 2 * rowsOf sh * n ≤ 64 → ∃ data,
        exec (.pwld a j sh) s = .next ((s.push 2 4 (.pwp j.val (rowsOf sh) cs n (BitVec.allOnes 128) data)).mark .issued)
        ∧ ∀ r i, r < rowsOf sh → i < n → data.getD (n * r + i) 0 = s.vsrc a.val r (cs + i))
      ∧ (64 < j.val + 2 * rowsOf sh * n → Traps (.pwld a j sh) s 2 5 0 0))
    ∧ (Clear (.vpwp d a p sh) s → ∃ data,
      exec (.vpwp d a p sh) s = .next ((s.push 2 6 (.vec d.val (rowsOf sh) cs n pg data)).mark .issued)
      ∧ ∀ r j l, r < rowsOf sh → j < n → l < 16 →
          let x := fp32.dec (lane (s.vsrc a.val r (cs + j)) l).toNat
          let y := lane (data.getD (n * r + j) 0) l
          let lo := fun k => segWord (s.me.segment k) 0
          (x.isNan = true → y = 0x7FC00000)
          ∧ (x.isNan = false → ∃ k, k < 64
              ∧ (((lo k).isNan = false ∧ x.lt (lo k) = false) ∨ (k = 0 ∧ ∀ q, q < 64 → (lo q).isNan = true ∨ x.lt (lo q) = true))
              ∧ (∀ q, k < q → q < 64 → (lo q).isNan = true ∨ x.lt (lo q) = true)
              ∧ (let c := fun i => segWord (s.me.segment k) (i + 1)
                 let t := rne32 (Machine.Num.add false x (lo k).neg)
                 let step := fun v q => rne32 (Machine.Num.add false (Machine.Num.mul v t) q)
                 y = BitVec.ofNat 32 (fp32.enc 1 0 false (Machine.Num.add false (Machine.Num.mul (step (step (c 3) (c 2)) (c 1)) t) (c 0))))))
    ∧ (Clear (.brank d a b p sh) s → ∃ data,
      exec (.brank d a b p sh) s = .next ((s.push 2 3 (.vec d.val (rowsOf sh) cs n pg data)).mark .issued)
      ∧ ∀ r j l, r < rowsOf sh → j < n → l < 16 → (lane (data.getD (n * r + j) 0) l).toNat =
          Spec.rank (Spec.bitmap s a.val (cs + j)) (min (lane (s.vsrc b.val r (cs + j)) l).toNat size))
    ∧ (Clear (.bsel d a b p sh) s → ∃ data,
      exec (.bsel d a b p sh) s = .next ((s.push 2 3 (.vec d.val (rowsOf sh) cs n pg data)).mark .issued)
      ∧ ∀ r j l, r < rowsOf sh → j < n → l < 16 →
          let q := (lane (s.vsrc b.val r (cs + j)) l).toNat
          let y := lane (data.getD (n * r + j) 0) l
          let w := Spec.bitmap s a.val (cs + j)
          (Spec.rank w size ≤ q → y = 0xFFFFFFFF)
          ∧ (q < Spec.rank w size → y.toNat < size ∧ w y.toNat = true ∧ Spec.rank w y.toNat = q))


/-! ### Encodings -/

/-- R24, R38 to R46: encoding then decoding gives every well-formed instruction of a bundle back, with every operand at every value that its encoding
admits; and its word has 32 bits. -/
def Obligations.EncodeThenDecode : Prop :=
  ∀ i : Instr, Instr.fetched i = true → i.wf = true → encode i < 2 ^ 32 ∧ decodeSlot i.slot (encode i) i.lend = .ok i

/-- R47: each word of a slot has one meaning: an instruction that a slot decodes has that word and that lent value, so reserved fields are zero. -/
def Obligations.DecodeThenEncode : Prop :=
  ∀ (k w : Nat) (x : Lend) (i : Instr), k < 4 → w < 2 ^ 32 → decodeSlot k w x = .ok i → i.wf = true ∧ encode i = w ∧ (k ≠ 0 → i.lend = x)

/-- R24, R38, R39: words written out from the spec's encodings decode to the instructions they stand for. -/
def Obligations.DecodesTheSpecsWords : Prop :=
  decodeSlot 0 0x00431050 .nothing = .ok (.add 0 3 4 5) ∧ decodeSlot 0 0x0813FFFD .nothing = .ok (.br 0 2 false 262141)
  ∧ decodeSlot 1 0x0220A302 .nothing = .ok (.ld 4 5 0 3 2 none) ∧ decodeSlot 2 0x0A208600 .nothing = .ok (.vmin 4 4 12 0 0 false none)
  ∧ decodeSlot 3 0x36302080 .nothing = .ok (.mma 6 1 1 false false false false 0 none)
  ∧ decodeSlot 0 0xFFFFFFFF .nothing = .error .reservedCode

/-! ### Steps -/

/-- R24, R25, R29: when the bytes at the program counter are a bundle of NOPs and one instruction, the step is exec of that instruction, then the core
moves past the bundle by its stall count; held, the bundle waits for the next clock, and a trap of it is the step. Beside that the fetch is counted at its
HBM stack (R119, R120; that it delays the next bundle there is the model's choice, assumption 151), and so is the image an ERET reads. -/
def Obligations.StepRunsOneInstruction : Prop :=
  ∀ (s : State) (c pa : Nat) (leaf : W64) (i : Instr) (x : Bundle) (st : Fin 8), s.Issues c →
    let u := s.issuing c
    let b := Spec.bytesAt u u.cur pa 16
    tget u.me.lbuf u.me.pc.toNat = none → u.translate u.ctx .fetch u.me.pc = .at_ (.phys pa) leaf → Spec.sound u pa 16 →
    illFormed u.me u.myDie b = none → decodeBundle (wordOf b 0) (wordOf b 1) (wordOf b 2) (wordOf b 3) = .ok x →
    x ∈ [⟨i, .nop, .nop, .nop⟩, ⟨.nopS st, i, .nop, .nop⟩, ⟨.nopS st, .nop, i, .nop⟩, ⟨.nopS st, .nop, .nop, i⟩] →
    ∀ t, exec i u = .next t →
      (t.issue = .issued → ∀ r, exec i (if x.l = i then u else u.mark .issued) = .next r → r.issue = .issued →
        let v := match i with | .eret _ _ q => r.countImage q | _ => r
        step s = .next ((u.countFetch v).retire u.me.pc.toNat (wordOf b 0 / 2 ^ 28 % 8) b))
      ∧ (t.issue = .held → step s = .next (t.stallWant x.w).stopped)
      ∧ (t.issue = .late → step s = .next ((u.mark .held).stallWant x.w).stopped)
      ∧ (∀ f, t.issue = .trapped f → step s = .next (u.countFetch t).stopped)

/-- R25, R34, R35: a bundle takes effect as a whole or not at all. Every slot is tried on the state before the bundle: the trap of the lowest slot that
faults is the whole effect, or the bundle is held where that trap waits for an interlocked result (R364), else a slot that is held holds the bundle; and
when none stops, the slots act and the bundle issues. The order in which they then act on one state is the model's (assumption 134): slots 1, 2, 3 and 0,
but for an RDMS and a TSPAWN, which come first, since they see no result of their bundle; an ERET reads its image as memory stood before the bundle. -/
def Obligations.StepRunsTheBundle : Prop :=
  ∀ (s : State) (c : Nat) (b : List Byte) (x : Bundle), s.Issues c →
    let u := s.issuing c
    u.fetch = .words b → illFormed u.me u.myDie b = none →
    decodeBundle (wordOf b 0) (wordOf b 1) (wordOf b 2) (wordOf b 3) = .ok x →
    let slots := [x.s, x.l, x.v, x.w]
    let passes := fun i => ∃ t, exec i u = .next t ∧ t.issue ≠ .late ∧ ∀ g, t.issue ≠ .trapped g
    ((∀ i, i ∈ slots → ∃ t, exec i u = .next t ∧ t.issue = .issued) → ∀ i1 i2 i3 i4 t1 t2 t3 t4,
        [i1, i2, i3, i4] = (match x.s with
          | .rdms _ _ _ => [x.s, x.l, x.v, x.w] | .tspawn _ _ _ => [x.s, x.l, x.v, x.w] | _ => [x.l, x.v, x.w, x.s]) →
        exec i1 u = .next t1 → t1.issue = .issued → exec i2 t1 = .next t2 → t2.issue = .issued →
        exec i3 t2 = .next t3 → t3.issue = .issued →
        exec i4 (match x.s with | .eret _ _ _ => t3.seeing u | _ => t3) = .next t4 → t4.issue = .issued →
        let v := match x.s with | .eret _ _ q => (t4.seeing t3).countImage q | _ => t4
        step s = .next ((u.countFetch v).retire u.me.pc.toNat (wordOf b 0 / 2 ^ 28 % 8) b))
    ∧ (∀ before i after t, slots = before ++ i :: after → exec i u = .next t → (∀ j, j ∈ before → passes j) →
        (∀ f, t.issue = .trapped f → step s = .next (u.countFetch t).stopped)
        ∧ (t.issue = .late → step s = .next (((holdAll slots u).mark .held).stallWant x.w).stopped))
    ∧ (∀ before i after t, slots = before ++ i :: after → exec i u = .next t → t.issue = .held → (∀ j, j ∈ slots → passes j) →
        (∀ j, j ∈ before → ∃ r, exec j u = .next r ∧ r.issue ≠ .held) → (∀ j, j ∈ after → ∃ r, exec j t = .next r ∧ r.issue ≠ .held) →
        step s = .next (t.stallWant x.w).stopped)

/-- R34, R36, R47, R364: a slot is ill-formed that decodes to nothing, that may not stand on its die, or that names a destination which a higher slot names
too, s0 and p0 apart; the bundle is then an illegal instruction of the lowest such slot and of no other, and else it is none. With no interlocked
result under way the trap has code 1, that slot and its word as TINFO, and no slot has acted. -/
def Obligations.IllFormedBundlesTrap : Prop :=
  ∀ (s : State) (c : Nat) (b : List Byte), s.Issues c →
    let u := s.issuing c
    let bad := fun n => ∃ e, (n, e) ∈ slotsOf b ∧ match e with
      | .error _ => True
      | .ok i => barred u.myDie i = true ∨ ∃ m j q, (m, Except.ok j) ∈ slotsOf b ∧ n < m ∧ q ≠ keyS 0 ∧ q ≠ keyP 0
          ∧ q ∈ (Instr.uses i u.me).2 ∧ q ∈ (Instr.uses j u.me).2
    u.fetch = .words b →
    (∀ n, illFormed u.me u.myDie b = some n ↔ bad n ∧ ∀ m, m < n → ¬ bad m)
    ∧ (∀ n, bad n → (∀ m, m < n → ¬ bad m) → u.me.pend = [] → Trappable u → ∃ t, step s = .next (u.countFetch t).stopped
        ∧ t.issue = .trapped ⟨1, 0, BitVec.ofNat 64 (wordOf b n), n⟩
        ∧ Trapped u t n 1 0 (BitVec.ofNat 64 (wordOf b n)) u.me.pc u.me.sched)

/-- R30, R260, R413, R180, R342, R390: an event that is due takes effect before a bundle, but for an access to a tile, which comes after the bundle of a lower
core in its clock, for dispatch, which comes after every bundle of its clock, and for the pre-emption of a core whose bundle of that clock traps; the writes
of a core that have become readable and the row of a drain that has left come before its bundle; a machine in which nothing is due and no core is ready
stops. That other events come before bundles, and the stop, a fault of its own name for which the spec has none, are the model's (assumption 19). -/
def Obligations.StepTakesEventsFirst : Prop :=
  ∀ s : State,
    let late := fun i c => (∃ d, i = Instr.taskDispatch d) ∨ ∃ c', s.tileCore i = some c' ∧ c < c'
    (∀ t i r, s.agenda = (t, i) :: r → (∀ e, earliest s.clk s.cores = some e → s.trapAt t i = none ∧
          (max s.clk t < max s.clk e.2.nextClk ∨ (max s.clk t = max s.clk e.2.nextClk ∧ ¬ late i e.1))) →
      step s = exec i { s with clk := max s.clk t, agenda := r })
    ∧ (∀ t i r e, s.agenda = (t, i) :: r → earliest s.clk s.cores = some e → s.trapAt t i = none → max s.clk e.2.nextClk < max s.clk t
          ∨ (max s.clk t = max s.clk e.2.nextClk ∧ late i e.1) → s.mover = .core e.1)
    ∧ (∀ t d c k r, s.agenda = (t, .preemptionUnitSave d 0 c) :: r → (c, k) ∈ s.cores → s.core c = k → k.ready = true →
        max s.clk k.nextClk ≤ max s.clk t → s.trapsFirst c = true → s.mover = .core c)
    ∧ (∀ c, s.mover = .core c →
        let u := { s with clk := max s.clk (s.core c).nextClk, cur := c }
        ((∃ f, f ∈ (s.core c).flight ∧ f.due ≤ (s.core c).sched) → step s = exec (.registerWriteLands c) u)
        ∧ (∀ d, (∀ f, f ∈ (s.core c).flight → (s.core c).sched < f.due) → (s.core c).drain = some d → d.due < (s.core c).sched →
            step s = exec (.drainRowLeaves c) u))
    ∧ (s.agenda = [] → (∀ c k, (c, k) ∈ s.cores → k.ready = false) → step s = .fault .idle)

/-! ### The whole machine -/

/-- Every step keeps memory in its canonical form. -/
def Obligations.StepKeepsMemory : Prop :=
  ∀ s t : State, s.memOk → step s = .next t → t.memOk

/-- R5, R375, R379, R401: what reset leaves where the spec says it: memory reads 0 and is in its canonical form, no core has a task, and the
machine-state registers hold the values of their Reset columns. -/
def Obligations.ResetState : Prop :=
  State.reset.memOk ∧ (∀ a, tgetD State.reset.mem a 0 = 0) ∧ (∀ c, (State.reset.core c).task = none)
  ∧ (∀ c k, tget (State.reset.core c).shapes k = none)
  ∧ (∀ p, p < 16 → State.reset.regRead (0x40 + p) = 0x138 ∧ State.reset.regRead (0x50 + p) = 0 ∧ State.reset.regRead (0x70 + p) = 0
      ∧ State.reset.regRead (0x90 + p) = 0 ∧ State.reset.regRead (0xA0 + p) = 0 ∧ State.reset.regRead (0xB0 + p) = 256
      ∧ State.reset.regRead (0xE0 + p) = 6 ∧ State.reset.regRead (0xF0 + p) = 0)
  ∧ (∀ n, n < 4 → State.reset.regRead (0x120 + n) = 100000 ∧ State.reset.regRead (0x124 + n) = 0)
  ∧ State.reset.regRead 0x132 = 58750
  ∧ (∀ n, n < 96 → State.reset.regRead (0x180 + n) = 0 ∧ State.reset.regRead (0x2A0 + n) = 0)


/-! ### The matrix array and the engines -/

/-- R242, R244, R245, R246, R258: a single LEASE whose banks nobody else holds or waits for makes its core a lessee in its bundle, if no bank must be
cleared for it; one that waits is held; a zero field that is not zero, no bank, and a second lease are invalid-operand faults. A group LEASE that breaks a
condition of its group is one too; it waits, without banks, while a member quad has not asked, and the last member's makes every member's banks
granted in one clock and its core a lessee. LFREE, with no matrix work of the core out, gives the claims up and, for a group, ends it; MWAIT goes on
when no command on its banks is out, and faults without a lease of them. That MWAIT with mask 0 asks for a lease and no bank, that a LEASE whose word
changes asks anew, are the model's readings (assumptions 54 and 57). -/
def Obligations.ArrayLeases : Prop :=
  ∀ (s : State),
    let q := s.myQuad
    let a := s.arr q
    (∀ (r : Fin 64) (l : Lent), Clear (.lease r l) s →
      let w := s.me.sreg r.val
      let free := (∀ x, x ∈ a.lessees → x.granted = true ∧ x.core ≠ s.cur ∧ x.banks &&& bits w 3 0 = 0) ∧ ∀ v, v ∈ a.back → v.core ≠ s.cur
      let form := bits w 63 22 = 0 ∧ bits w 7 5 = 0 ∧ bits w 3 0 ≠ 0
      (free → bits w 63 4 = 0 → bits w 3 0 ≠ 0 → (∀ b p, bits w 3 0 / 2 ^ b % 2 = 1 → tget a.last b = some p → p = s.myPart) →
        ∃ t, exec (.lease r l) s = .next t ∧ t.issue = .issued
          ∧ (t.arr q).lessees = a.lessees ++ [⟨s.cur, s.myPart, bits w 3 0, w, true, s.clk, true, false⟩] ∧ (t.arr q).banks = a.banks
          ∧ (∀ b, b < 4 → tget (t.arr q).last b = if bits w 3 0 / 2 ^ b % 2 = 1 then some s.myPart else tget a.last b)
          ∧ (∀ p, p ≠ q → t.quad p = s.quad p) ∧ t = { s with quads := t.quads, issue := .issued })
      ∧ (∀ x, a.lessees.find? (fun x => x.core == s.cur) = some x → x.issued = false → x.word = w → x.granted = false →
          ∃ t, exec (.lease r l) s = .next t ∧ t.issue = .held ∧ OnlyCore s t ∧ t.me = { s.me with leaseWait := t.me.leaseWait })
      ∧ (∀ x, a.lessees.find? (fun x => x.core == s.cur) = some x → x.issued = true → Traps (.lease r l) s 3 5 0 0)
      ∧ (free → ¬ form ∨ (bit w 4 = false ∧ bits w 21 8 ≠ 0) → Traps (.lease r l) s 3 5 0 0)
      -- a group
      ∧ (bit w 4 = true → form → free →
          let d := s.myDie
          let size := (bits w 17 16 + 1) * (bits w 19 18 + 1) * (bits w 21 20 + 1)
          let first := firstQuad d + bits w 15 8
          let bad := size < 2 ∨ 16 < size ∨ quadsOf d ≤ bits w 15 8 + size - 1 ∨ q < first ∨ first + size ≤ q
            ∨ (∃ x, x ∈ a.lessees ∧ x.word = w ∧ x.ended = false)
            ∨ ∃ i x n, i < quadsOf d ∧ x ∈ (s.arr (firstQuad d + i)).lessees ∧ bit x.word 4 = true ∧ x.word ≠ w
                ∧ bits x.word 15 8 ≤ n ∧ n < bits x.word 15 8 + (bits x.word 17 16 + 1) * (bits x.word 19 18 + 1) * (bits x.word 21 20 + 1)
                ∧ bits w 15 8 ≤ n ∧ n < bits w 15 8 + size
          let asks := fun p x => x ∈ (s.arr p).lessees ∧ x.word = w ∧ x.ended = false
          (bad → Traps (.lease r l) s 3 5 0 0)
          ∧ (¬ bad → (∃ p, first ≤ p ∧ p < first + size ∧ p ≠ q ∧ ∀ x, ¬ asks p x) → ∃ t, exec (.lease r l) s = .next t ∧ t.issue = .held
              ∧ (t.arr q).lessees = a.lessees ++ [⟨s.cur, s.myPart, bits w 3 0, w, false, 0, false, false⟩]
              ∧ (∀ p, p ≠ q → t.quad p = s.quad p) ∧ t.me = { s.me with leaseWait := t.me.leaseWait })
          ∧ (¬ bad → (∀ p, first ≤ p → p < first + size → p ≠ q → (s.arr p).back = [] ∧ ∃ x, asks p x ∧ (∀ y, y ∈ (s.arr p).lessees → y = x ∨
                (y.granted = true ∧ y.core ≠ x.core ∧ y.word ≠ w ∧ y.banks &&& x.banks = 0))) →
              (∀ b p, bits w 3 0 / 2 ^ b % 2 = 1 → tget a.last b = some p → p = s.myPart) → ∃ t, exec (.lease r l) s = .next t ∧ t.issue = .issued
                ∧ (t.arr q).lessees = a.lessees ++ [⟨s.cur, s.myPart, bits w 3 0, w, true, s.clk, true, false⟩]
                ∧ (∀ p, first ≤ p → p < first + size → ∃ y, y ∈ (t.arr p).lessees ∧ y.word = w ∧ y.granted = true ∧ y.ended = false)
                ∧ (∀ p, p < first ∨ first + size ≤ p → t.quad p = s.quad p))))
    ∧ (∀ l : Lent, Clear (.lfree l) s →
      (a.lease s.cur = none → exec (.lfree l) s = .next (s.mark .issued))
      ∧ (s.matrixOut s.cur [0, 1, 2, 3] = false → s.me.drain = none → s.me.buffer.drain = none →
          ∃ t, exec (.lfree l) s = .next t ∧ t.issue = .issued ∧ t.me = s.me
            ∧ (a.lease s.cur ≠ none → (∀ y, y ∈ (t.arr q).lessees → y.core ≠ s.cur ∧ ∃ x, x ∈ a.lessees ∧ y = { x with ended := y.ended })
              ∧ (∀ x, x ∈ a.lessees → x.core ≠ s.cur → ∃ y, y ∈ (t.arr q).lessees ∧ y = { x with ended := y.ended })
              ∧ ((∀ x, x ∈ a.lessees → x.core = s.cur → isGroup x.word = false) → ∀ x, x ∈ (t.arr q).lessees ↔ x ∈ a.lessees ∧ x.core ≠ s.cur))
            ∧ (∀ x, a.lessees.find? (fun x => x.core == s.cur) = some x → x.issued = true → isGroup x.word = true → x.ended = false →
                (∀ p y, p ∈ groupQuads q x.word → y ∈ (t.arr p).lessees → y.word = x.word → y.ended = true)
                ∧ (a.turn = some (s.leader q x) → q ∈ s.turnQuads q (s.leader q x) → (t.arr q).turn = none))
            ∧ t = { s with quads := t.quads, agenda := t.agenda, issue := .issued }))
    ∧ (∀ (m : Fin 16) (l : Lent), Clear (.mwait m l) s →
      let masked := if m.val = 0 then [0, 1, 2, 3] else (List.range 4).filter fun b => m.val / 2 ^ b % 2 == 1
      (a.lease s.cur = none → Traps (.mwait m l) s 3 5 0 0)
      ∧ (∀ x, a.lease s.cur = some x → x.banks &&& m.val ≠ m.val → Traps (.mwait m l) s 3 5 0 0)
      ∧ (∀ x, a.lease s.cur = some x → x.banks &&& m.val = m.val → s.matrixOut s.cur masked = false →
          exec (.mwait m l) s = .next (s.mark .issued))
      ∧ (∀ x, a.lease s.cur = some x → x.banks &&& m.val = m.val → s.matrixOut s.cur masked = true →
          exec (.mwait m l) s = .next (s.mark .held)))

/-- R250, R243, R244, R246, R247, R252, R253, R255 to R257, R260, R263: MCFG writes MGEO. MMA, MMV and MZERO on a bank the core claims, in its turn, are
accepted behind the commands of the queue and have changed no bank; a group's leader has its MMA and MZERO accepted on every member array in one clock,
each for its member's core. A core that is no lessee, a bank that is not claimed, a shape that does not fit, MMV under a group lease, and a member that is
not the leader, are invalid-operand faults. MDRAIN of a claimed bank, of rows in range, starts the core's drain 6 scheduled clocks after its issue. When a
waiting command finds its turn is the model's (assumption 49). -/
def Obligations.MatrixCommands : Prop :=
  ∀ (s : State) (q : Nat) (r : Fin 64) (l : Lent),
    let w := s.me.sreg r.val
    let m := bits w 9 0 + 1
    let n := bits w 19 10 + 1
    let k := bits w 35 20 + 1
    let mode := if l.elim 0 (·.val) % 8 = 0 then bits s.me.ctxctl 10 8 else l.elim 0 (·.val) % 8
    let has := fun (b : Nat) (x : Lessee) => (s.arr q).lease s.cur = some x ∧ x.banks / 2 ^ b % 2 = 1
    let claims := fun (b : Nat) => ∃ x, has b x ∧ isGroup x.word = false
    let lacks := fun (b : Nat) => (s.arr q).lease s.cur = none ∨ ∃ x, (s.arr q).lease s.cur = some x ∧ x.banks / 2 ^ b % 2 = 0
    (Clear (.mcfg r l) s →
      (bits w 63 4 = 0 → bits w 3 2 ≠ 3 → bits w 1 0 ≠ 3 → exec (.mcfg r l) s = .next ((s.setMe { s.me with mgeo := w }).mark .issued))
      ∧ (bits w 63 4 ≠ 0 ∨ bits w 3 2 = 3 ∨ bits w 1 0 = 3 → Traps (.mcfg r l) s 3 5 0 0))
    ∧ (∀ (f g : Fin 32) (st o nb na : Bool) (b : Fin 4), Clear (.mma r f g st o nb na b l) s → q = s.myQuad →
      let c : MatCmd := ⟨0, 0, s.cur, s.myPart, 0, b.val, f.val, g.val, na, nb, o, st, false, mode, 0, 0, m, n, k, none, false, [], [], none, 0, 0, none, 0, 0⟩
      (Spec.HasTurn s q s.cur → claims b.val → bits w 63 36 = 0 → m ≤ 256 → n ≤ 256 →
        ∃ t, exec (.mma r f g st o nb na b l) s = .next t ∧ t.issue = .issued ∧ Spec.Accepted s t q c)
      ∧ (∀ x, has b.val x → Spec.GroupTurn s x → bits w 63 36 = 0 → m ≤ 256 * (bits x.word 17 16 + 1) → n ≤ 256 * (bits x.word 19 18 + 1) →
          ∃ t, exec (.mma r f g st o nb na b l) s = .next t ∧ t.issue = .issued ∧ Spec.GroupAccepted s t x c)
      ∧ (claims b.val → bits w 63 36 ≠ 0 ∨ 256 < m ∨ 256 < n → Traps (.mma r f g st o nb na b l) s 3 5 0 0)
      ∧ (∀ x, has b.val x → isGroup x.word = true → bits w 63 36 ≠ 0 ∨ 256 * (bits x.word 17 16 + 1) < m ∨ 256 * (bits x.word 19 18 + 1) < n
          ∨ s.leader q x ≠ s.cur → Traps (.mma r f g st o nb na b l) s 3 5 0 0)
      ∧ (lacks b.val → Traps (.mma r f g st o nb na b l) s 3 5 0 0))
    ∧ (∀ (f g : Fin 32) (res st o nb na : Bool) (b : Fin 4), Clear (.mmv r f g res st o nb na b l) s → q = s.myQuad →
      let fits := bits w 63 36 = 0 ∧ n ≤ 256 ∧ m ≤ 8 ∧ m * k ≤ (if f.val ≤ 1 then 32768 else 65536)
      let resident := res = true → ∃ x, (s.arr q).batch = some x ∧ x.core = s.cur ∧ x.m = m ∧ x.k = k ∧ x.fmt = f.val
      (Spec.HasTurn s q s.cur → claims b.val → fits → resident → ∃ t, exec (.mmv r f g res st o nb na b l) s = .next t
        ∧ t.issue = .issued ∧ Spec.Accepted s t q ⟨0, 0, s.cur, s.myPart, 1, b.val, f.val, g.val, na, nb, o, st, res, mode, 0, 0, m, n, k, none, false, [], [], none, 0, 0, none, 0, 0⟩
        ∧ (t.arr q).batch = if res = true then (s.arr q).batch else some ⟨s.cur, m, k, f.val⟩)
      ∧ (claims b.val → ¬ fits ∨ ¬ resident → Traps (.mmv r f g res st o nb na b l) s 3 5 0 0)
      ∧ (lacks b.val ∨ (∃ x, has b.val x ∧ isGroup x.word = true) → Traps (.mmv r f g res st o nb na b l) s 3 5 0 0))
    ∧ (∀ b : Fin 4, Clear (.mzero b l) s → q = s.myQuad →
      let c : MatCmd := ⟨0, 0, s.cur, s.myPart, 2, b.val, 0, 0, false, false, true, false, false, 1, 0, 0, 1, 1, 1, none, false, [], [], none, 0, 0, none, 0, 0⟩
      (Spec.HasTurn s q s.cur → claims b.val → ∃ t, exec (.mzero b l) s = .next t ∧ t.issue = .issued ∧ Spec.Accepted s t q c)
      ∧ (∀ x, has b.val x → Spec.GroupTurn s x → ∃ t, exec (.mzero b l) s = .next t ∧ t.issue = .issued ∧ Spec.GroupAccepted s t x c)
      ∧ (lacks b.val ∨ (∃ x, has b.val x ∧ isGroup x.word = true ∧ s.leader q x ≠ s.cur) → Traps (.mzero b l) s 3 5 0 0))
    ∧ (∀ b : Fin 4, Clear (.mdrain r b l) s → q = s.myQuad →
      let first := bits w 7 0
      let count := bits w 16 8
      (∀ x, has b.val x → bits w 63 17 = 0 → count ≠ 0 → first + count ≤ 256 → s.matrixOut s.cur [b.val] = false → s.streaming q = false →
        exec (.mdrain r b l) s = .next ((s.setMe { s.me with drain := some ⟨b.val, first, count, s.me.sched + 6⟩ }).mark .issued))
      ∧ (∀ x, has b.val x → bits w 63 17 ≠ 0 ∨ count = 0 ∨ 256 < first + count → Traps (.mdrain r b l) s 3 5 0 0)
      ∧ (lacks b.val → Traps (.mdrain r b l) s 3 5 0 0))

/-- R272, R268, R274, R280, R284, R89, R90, R91: KVAG loads a generator, PTRLD a layer and PTRCFG the configuration of their die; APRE, ADEC and RTE with a descriptor
that fits are queued on their engine, take their place in the order of their channel, and are held by a full queue; PTRRUN is queued
while the Pointer is enabled, and discarded where it is disabled or eight runs wait. A misaligned descriptor traps with code 4 and one that does not fit
with code 5; the reads of one are counted at its HBM stack. The alignment fault of PTRLD, the order of the checks, and that a PTRRUN reads its
operands 1,000 clocks later, with what the rules of the Pointer leave open of it, are the model's (assumptions 31, 59, 66 and 67). -/
def Obligations.EngineCommands : Prop :=
  ∀ (s : State) (a : Fin 64) (l : Lent),
    let va := s.me.sreg a.val
    let x := s.die s.myDie
    let queued := fun (t : State) (h inc lat : Nat) => t.issue = .issued ∧ SameBytes s t
      ∧ t.me = { s.me with orders := s.me.orders ++ [(h, s.nextId, inc, none)], dyn := s.me.dyn + lat }
      ∧ t = { s with cores := t.cores, dies := t.dies, agenda := t.agenda, nextId := s.nextId + 1, issue := .issued
                     hot := t.hot, pchan := t.pchan, pchanUsed := t.pchanUsed, busyTill := t.busyTill }
    let u := s.countSpan va 64
    (∀ g : Fin 16, Clear (.kvag a g l) s →
      (va.toNat % 64 ≠ 0 → Traps (.kvag a g l) s 3 4 0 va)
      ∧ (∀ d lat, Spec.Reads s va d lat →
          (∀ k, kvOf d = some k → exec (.kvag a g l) s =
            .next (((u.setDie s.myDie { u.die s.myDie with kvs := tset x.kvs (16 * s.myPart + g.val) k }).setMe { s.me with dyn := s.me.dyn + lat }).mark .issued))
          ∧ (kvOf d = none → Traps (.kvag a g l) s 3 5 0 0)))
    ∧ (∀ (dec : Bool) (i : Fin 16) (h : Fin 8) (n : Instr), n = (if dec then .adec a i h l else .apre a i h l) → Clear n s →
      let e := attEngine s dec
      (va.toNat % 64 ≠ 0 → Traps n s 3 4 0 va)
      ∧ (∀ d lat, Spec.Reads s va d lat →
          (attOk d dec = false → Traps n s 3 5 0 0)
          ∧ (∀ g, attOk d dec = true → tget x.kvs (16 * s.myPart + field d 48 1) = some g → s.stageOk d g = true →
              ((tgetD x.att e []).length < 16 → ∃ t m, exec n s = .next t ∧ queued t h.val i.val lat
                ∧ (tgetD (t.die s.myDie).att e []).map (fun y => { y with busy := false }) = (tgetD x.att e []).map (fun y => { y with busy := false }) ++ [m]
                ∧ m = ⟨s.cur, s.myPart, dec, d, g, h.val, i.val, s.nextId, false, 0, [], [], {}, s.me.priv, s.me.coop, none, s.me.pc, s.me.tag⟩)
              ∧ (16 ≤ (tgetD x.att e []).length → exec n s = .next (s.mark .held)))))
    ∧ (∀ (i : Fin 16) (h : Fin 8), Clear (.rte a i h l) s →
      (va.toNat % 64 ≠ 0 → Traps (.rte a i h l) s 3 4 0 va)
      ∧ (∀ d lat, Spec.Reads s va d lat → field d 58 1 < 16 → s.shapeLate (field d 58 1) = false →
          (s.me.shape (field d 58 1) = none → Traps (.rte a i h l) s 3 5 0 0)
          ∧ (∀ sh, s.me.shape (field d 58 1) = some sh →
              (rteOk d sh = false → Traps (.rte a i h l) s 3 5 0 0)
              ∧ (rteOk d sh = true → x.rte.length < 16 → ∃ t m, exec (.rte a i h l) s = .next t ∧ queued t h.val i.val lat
                  ∧ (t.die s.myDie).rte = x.rte ++ [m] ∧ m.core = s.cur ∧ m.part = s.myPart ∧ m.desc = d ∧ m.shape = sh ∧ m.chan = h.val
                  ∧ m.inc = i.val ∧ m.ord = s.nextId ∧ m.started = false)
              ∧ (rteOk d sh = true → 16 ≤ x.rte.length → exec (.rte a i h l) s = .next (s.mark .held)))))
    ∧ (Clear (.ptrcfg a l) s →
      (bits va 63 16 = 0 → bits va 7 4 ≠ 0 → bit va 3 = false →
        exec (.ptrcfg a l) s = .next ((s.setDie s.myDie { x with ptrCfg := va }).mark .issued))
      ∧ (bits va 63 16 ≠ 0 ∨ bits va 7 4 = 0 ∨ bit va 3 = true → Traps (.ptrcfg a l) s 3 5 0 0))
    ∧ (∀ b : Fin 64, Clear (.ptrld a b l) s →
      let n := (s.me.sreg b.val).toNat
      (va.toNat % 64 ≠ 0 → Traps (.ptrld a b l) s 3 4 0 va)
      ∧ (∀ d lat, Spec.Reads s va d lat →
          (∀ y, layerOf d = some y → n < 256 → exec (.ptrld a b l) s =
            .next (((u.setDie s.myDie { u.die s.myDie with layers := tset x.layers n y }).setMe { s.me with dyn := s.me.dyn + lat }).mark .issued))
          ∧ (layerOf d = none ∨ 256 ≤ n → Traps (.ptrld a b l) s 3 5 0 0)))
    ∧ (∀ b c : Fin 64, Clear (.ptrrun a b c l) s →
      let n := (s.me.sreg c.val).toNat
      (n = 0 ∨ 256 < n → Traps (.ptrrun a b c l) s 3 5 0 0)
      ∧ (1 ≤ n → n ≤ 256 → bit x.ptrCfg 2 = false → exec (.ptrrun a b c l) s = .next (s.mark .issued))
      ∧ (1 ≤ n → n ≤ 256 → bit x.ptrCfg 2 = true → 8 ≤ x.runs.length → exec (.ptrrun a b c l) s = .next ((s.ptrCount s.myDie 48).mark .issued))
      ∧ (1 ≤ n → n ≤ 256 → bit x.ptrCfg 2 = true → x.runs.length < 8 → exec (.ptrrun a b c l) s =
          .next (((s.setDie s.myDie { x with
              runs := x.runs ++ [⟨s.myPart, va, (s.me.sreg b.val).toNat, n, s.cur, s.me.priv, s.me.coop⟩] }).schedule 1000
            (.pointerRun s.myDie)).mark .issued)))

/-- R300, R301, R304: XSEND of a permit address, with a length of 1 to 262,144 bytes in a partition with supersteps, takes its place in the order of its channel
and asks the permit's die to bind it, 12 clocks away on its own die and 760 elsewhere; XRECV asks its port for the oldest landed permit. -/
def Obligations.ExchangeCommands : Prop :=
  ∀ (s : State),
    (∀ (a b c : Fin 64) (i : Fin 16) (h : Fin 8) (l : Lent), Clear (.xsend a b c i h l) s →
      let n := Instr.xsend a b c i h l
      let va := (s.me.sreg a.val).toNat
      let w := s.me.sreg c.val
      let x := s.part s.me.part
      let named := kennelBase ≤ va ∧ va < kennelBase + 2 ^ 52 ∧ va / 2 ^ 49 % 8 < 6
      (named → bits w 63 25 = 0 → 1 ≤ bits w 18 0 → bits w 18 0 ≤ 262144 → x.members ≠ 0 → ∃ t r, exec n s = .next t ∧ t.issue = .issued
        ∧ t.me = { s.me with orders := s.me.orders ++ [(h.val, s.nextId, i.val, none)] }
        ∧ tget t.reqs (s.nextId + 1) = some (.bind s.cur s.me.part (va / 2 ^ 49 % 8) (va / 2 ^ 37 % 4096) (va / 2 ^ 20 % 2 ^ 17) r)
        ∧ r.core = s.cur ∧ r.src = s.me.sreg b.val ∧ r.len = bits w 18 0 ∧ r.port = bits w 24 19 ∧ r.chan = h.val ∧ r.inc = i.val
        ∧ r.ord = s.nextId ∧ r.landed = false ∧ r.pos = 0 ∧ r.step = (if x.ssExchange then x.ssCount + 1 else x.ssCount)
        ∧ Spec.Adds s.agenda (s.clk + if va / 2 ^ 49 % 8 = s.myDie then 12 else 760) (.xsendBinding (s.nextId + 1)) t.agenda
        ∧ t = { s with cores := t.cores, reqs := t.reqs, agenda := t.agenda, nextId := s.nextId + 2, issue := .issued })
      ∧ (¬ named ∨ bits w 63 25 ≠ 0 ∨ bits w 18 0 = 0 ∨ 262144 < bits w 18 0 ∨ x.members = 0 → Traps n s 3 5 0 0))
    ∧ (∀ (d k : Fin 64) (l : Lent), Clear (.xrecv d k l) s → ∃ t, exec (.xrecv d k l) s = .next t ∧ t.issue = .issued
        ∧ t.me = { s.me with pend := s.me.pend ++ [⟨s.nextId, [keyS d.val], s.me.bid, s.me.seq, none⟩], seq := s.me.seq + 1 }
        ∧ tget t.reqs (s.nextId + 1) = some (.xrecv s.cur s.me.part k.val s.nextId)
        ∧ Spec.Adds s.agenda (s.clk + 14) (.xrecvRequestArrives (s.nextId + 1)) t.agenda
        ∧ t = { s with cores := t.cores, reqs := t.reqs, agenda := t.agenda, nextId := s.nextId + 2, issue := .issued })


/-! ### Events of the machine -/

/-- R125, R136, R318: a segment of a plain copy, whose ranges the engine can read and write and no other writer overlaps, leaves at its destination the bytes
that its source holds, and changes no other byte, as every core reads them; no TWR is under way on the quad's path. -/
def Obligations.CopySegmentMovesBytes : Prop :=
  ∀ (s : State) (q id h : Nat) (m : CopyCmd) (ps pd : Nat) (ls ld : Nat → W64),
    s.findCopy q id = some (h, m) → m.kind = .cpy → m.mw = 0 → m.shape = none → m.done = false → m.active = true → m.held = none →
    m.lap.dirty = [] → m.lap.passed = [] → m.jumps = [] → q = m.core / 4 → (∀ w, w ∈ (s.quad q).path → w.tile = none) → behindFull (tgetD (s.quad q).chans h []) m = false → m.pos < m.total → m.buf = [] → m.out = m.pos →
    let n := segBytes m
    let src := m.src + BitVec.ofNat 64 m.pos
    let dst := m.dst + BitVec.ofNat 64 m.pos
    (∀ i, i < n → s.translate (m.ctx s) m.acc (src + BitVec.ofNat 64 i) = .at_ (.phys (ps + i)) (ls i)) → Spec.sound s ps n →
    (∀ i, i < n → s.translate (m.ctx s) (.dst false) (dst + BitVec.ofNat 64 i) = .at_ (.phys (pd + i)) (ld i)
      ∧ ownQuadPad m.core (pd + i) = false) → s.inSlot m.part dst.toNat n = false →
    ∃ t, exec (.copySegment q id) s = .next t ∧ t.mem = s.mem
      ∧ (∀ c i, c / 4 = q → i < n → t.seenByte c (pd + i) = s.seenByte c (ps + i))
      ∧ (∀ c a, c / 4 ≠ q ∨ a < pd ∨ pd + n ≤ a → t.seenByte c a = s.seenByte c a)

/-- R101, R104, R105, R29, R117, R120 to R122, R140: a page walk fills the TLBs or tells its failure to the cores that wait; a fetch whose page is there ends its wait; an ended
migration leaves the leaf on its new frame and no old translation in any TLB, and the writes through the old ones have reached their homes, where no write
of the device waits for a page; a hot-region swap, a power-down and a retraining change no byte; the first complete command of a channel is counted. The
retraining's new look after 940 clocks and the throttle are assumption 47, the 9,400 clocks of a swap assumption 151. -/
def Obligations.MemoryEvents : Prop :=
  ∀ (s : State),
    (∀ d p vpn, ∃ t, exec (.pageWalk d p vpn) s = .next t ∧ SameBytes s t
      ∧ (∀ e lg a, s.walk p (vpn * 4096) = .leaf e lg a → ⟨p, vpn / 2 ^ (lg - 12), lg - 12, e⟩ ∈ (t.die d).tlb)
      ∧ (∀ c, s.walk p (vpn * 4096) = .fail c → (t.die d).tlb = (s.die d).tlb ∧
          ∀ j k, tget s.cores j = some k → dieOfCore j = d → k.part = p → vpn ∈ k.missing → (vpn, c, 0) ∈ (t.core j).walked)
      ∧ (∀ f, s.walk p (vpn * 4096) = .ecc f → (t.die d).tlb = (s.die d).tlb ∧
          ∀ j k, tget s.cores j = some k → dieOfCore j = d → k.part = p → vpn ∈ k.missing → (vpn, 0, f) ∈ (t.core j).walked))
    ∧ (∀ c, ∃ t, exec (.instructionFetchMissReturn c) s = .next t
      ∧ ((s.core c).fetching = false → t = s)
      ∧ (∀ pl leaf, (s.core c).fetching = true →
          s.translate (s.ctxOf c (s.core c).part (s.core c).priv (s.core c).coop) .fetch (s.core c).pc = .at_ pl leaf →
          t = s.setCore c { s.core c with fetching := false, nextClk := max (s.core c).nextClk s.clk }))
    ∧ (∀ k r r2, let a := k * 2 ^ 20 + r
      let b := k * 2 ^ 20 + r2
      let may := bit (s.die (stackDie k)).hbmpm 1 = true ∧ s.deadlineTraffic k = false ∧ ∀ e, e ∈ s.swapping → s.clk < e.2 → e.1 ≠ a ∧ e.1 ≠ b
      ∃ t, exec (.hotRegionSwap k r r2) s = .next t ∧ SameBytes s t ∧ (¬ may → t = s)
        ∧ (may → tgetD t.hbmMap a a = tgetD s.hbmMap b b ∧ tgetD t.hbmMap b b = tgetD s.hbmMap a a ∧ (a, s.clk + 9400) ∈ t.swapping ∧ (b, s.clk + 9400) ∈ t.swapping
          ∧ t = { s with hbmMap := t.hbmMap, swaps := s.swaps + 1, swapping := t.swapping }))
    ∧ (∀ k ch, ∃ t u, exec (.pseudoChannelPowerDown k ch) s = .next t ∧ exec (.pseudoChannelSelfRefresh k ch) s = .next u
      ∧ t = { s with pchan := t.pchan } ∧ u = { s with pchan := u.pchan }
      ∧ (let n := bits (s.die (stackDie k)).hbmpm 23 8
        let idle := tgetD s.pchanUsed (64 * k + ch) 0 + n ≤ s.clk
        (n = 0 ∨ ¬ idle → t = s) ∧ (n ≠ 0 → idle → tget s.pchan (64 * k + ch) = none → tget t.pchan (64 * k + ch) = some 1))
      ∧ (let n := bits (s.die (stackDie k)).hbmpm 39 24
        let idle := tgetD s.pchanUsed (64 * k + ch) 0 + 940 * n ≤ s.clk
        (n = 0 ∨ ¬ idle → u = s) ∧ (n ≠ 0 → idle → tget u.pchan (64 * k + ch) = some 2)))
    ∧ (∀ k, ∃ t, exec (.stackRetrain k) s = .next t ∧ SameBytes s t
      ∧ (s.deadlineTraffic k = false → tgetD t.retrains k 0 = tgetD s.retrains k 0 + 1 ∧ t.grants = s.grants)
      ∧ (s.deadlineTraffic k = true → t.retrains = s.retrains ∧ let since := tgetD s.retrainWait k s.clk
          (s.clk < since + 1880000 → t.grants = s.grants ∧ (s.clk + 940, Instr.stackRetrain k) ∈ t.agenda ∧ tget t.retrainWait k = some since)
          ∧ (since + 1880000 ≤ s.clk → tget t.grants (stackDie k) = some (0, s.clk + 1880))))
    ∧ (∀ c h, ∃ t, exec (.copyComplete c h) s = .next t ∧ SameBytes s t
      ∧ ((∀ id inc x, (s.core c).orders.find? (fun o => o.1 == h) ≠ some (h, id, inc, some x)) → t = s)
      ∧ (∀ id inc x, (s.core c).orders.find? (fun o => o.1 == h) = some (h, id, inc, some x) →
          (∀ o, o ∈ (s.core c).orders → o.1 = h → o.2.1 ≠ id → o.2.2.2 = none) → Spec.Counted s t c h inc
            ∧ (t.core c).orders = (s.core c).orders.filter fun o => !(o.1 == h && o.2.1 == id)))
    ∧ (∀ q id, ∃ t, exec (.pagemvCopyComplete q id) s = .next t
      ∧ (s.findCopy q id = none → t = s)
      ∧ (∀ h m at_, s.findCopy q id = some (h, m) → m.kind = .page at_ → m.done = false → m.total ≤ m.pos →
          s.owed = [] → Spec.Removed { s with mem := memWrite s.mem at_ (Spec.bytesOf 8 (migLeaf (BitVec.ofNat 64 (leNat (memRead s.mem at_ 8))) m.dst.toNat false).toNat) } t
            (fun e => e.part == m.part && e.vpn == m.c.toNat / 2 ^ 12 / 2 ^ e.lg)))

/-- R68, R73, R74, R78 to R80, R85, R91: requests that reach a handle table join, take and release slots and answer their core; a page that has been read completes its
units, or waits for repair; a relocation moves every page of its block at once and frees the old block, which is retired where a RETIRE moved it or its
erase fails; the translation layer's commands end done or failed; the Pointer takes its oldest run. The looks after 940, 64 and 17 clocks are assumption
18, the conflict decided at the table assumption 36, the switch of a parity block assumption 38, the command's time and its source assumption 163, the
delivery at a switch assumption 164. -/
def Obligations.FlashEvents : Prop :=
  ∀ (s : State),
    (∀ id, ∃ t, exec (.handleRequestArrives id) s = .next t
      ∧ (∀ c p e src dst n tag pc priv coop, tget s.reqs id = some (.hread c p e src dst n tag pc priv coop) →
          let f := s.flash e
          tget t.reqs id = none
          ∧ (conflicts f p src dst n = true → (t.flash e).slots = f.slots ∧ Spec.Told s t c p 12 0)
          ∧ (conflicts f p src dst n = false →
              (∀ k h, joinable f p src dst n = some (k, h) →
                tget (t.flash e).slots k = some { h with holders := h.holders + 1, prefetch := false }
                ∧ Spec.Told s t c p 0 (BitVec.ofNat 64 (e * 2 ^ 24 + h.gen * 2 ^ 12 + k)))
              ∧ (joinable f p src dst n = none → s.slotFor e p = none → (t.flash e).slots = f.slots ∧ Spec.Told s t c p 0 0)
              ∧ (∀ k, joinable f p src dst n = none → s.slotFor e p = some k →
                (∃ h, tget (t.flash e).slots k = some h ∧ h.gen = tgetD f.gens k 1 ∧ h.src = src ∧ h.dst = dst ∧ h.units = n ∧ h.part = p
                  ∧ h.holders = 1 ∧ h.done = [])
                ∧ Spec.Told s t c p 0 (BitVec.ofNat 64 (e * 2 ^ 24 + tgetD f.gens k 1 * 2 ^ 12 + k)))))
      ∧ (∀ c p e w, (tget s.reqs id = some (.hstat c p e w) ∨ tget s.reqs id = some (.hrel c p e w)) → w ≠ 0 → w.toNat < 2 ^ 26 → e = w.toNat / 2 ^ 24 →
          let isStat := tget s.reqs id = some (.hstat c p e w)
          let k := w.toNat % 4096
          let named := tget (s.flash e).slots k
          tget t.reqs id = none
          ∧ (named = none → Spec.Told s t c p (if isStat then 0 else 9) (if isStat then 3 else 0) ∧ (t.flash e).slots = (s.flash e).slots)
          ∧ (∀ h, named = some h → h.part ≠ p → Spec.Told s t c p 10 0 ∧ t.mem = s.mem ∧ (t.flash e).slots = (s.flash e).slots)
          ∧ (∀ h, named = some h → h.part = p → h.gen ≠ w.toNat / 4096 % 4096 →
              Spec.Told s t c p (if isStat then 0 else 9) (if isStat then 3 else 0) ∧ t.mem = s.mem ∧ (t.flash e).slots = (s.flash e).slots)
          ∧ (∀ h, named = some h → h.part = p → h.gen = w.toNat / 4096 % 4096 →
              (isStat → (t.flash e).slots = (s.flash e).slots ∧ Spec.Told s t c p 0 (BitVec.ofNat 64 (h.done.length * 2 ^ 32 + h.holders * 65536
                + h.gen * 16 + h.repaired.toNat * 8 + h.prefetch.toNat * 4 + if h.done.length = h.units then 1 else if h.repair = [] then 0 else 2)))
              ∧ (¬ isStat → Spec.Told s t c p 0 0
                ∧ (1 < h.holders → tget (t.flash e).slots k = some { h with holders := h.holders - 1 })
                ∧ (h.holders ≤ 1 → tget (t.flash e).slots k = none)))))
    ∧ (∀ e k lp, ∃ t, exec (.flashPageRead e k lp) s = .next t
      ∧ ((s.flash e).reading.find? (fun r => r.2.1 == k && r.2.2.1 == lp) = none → t = s)
      ∧ (∀ r h, (s.flash e).reading.find? (fun r => r.2.1 == k && r.2.2.1 == lp) = some r → tget (s.flash e).gone k = none →
          tget (s.flash e).slots k = some h →
          ((s.flash e).fails r.2.2.2 = false → s.unitsWait h (h.unitsIn lp) = true → t = s.schedule 64 (.flashPageRead e k lp))
          ∧ ((s.flash e).fails r.2.2.2 = false → s.unitsWait h (h.unitsIn lp) = false →
            ∃ h', tget (t.flash e).slots k = some h' ∧ ∀ u, u ∈ h'.done ↔ u ∈ h.done ∨ u ∈ h.unitsIn lp)
          ∧ ((s.flash e).fails r.2.2.2 = true → t.mem = s.mem ∧ lp ∈ (t.flash e).waiting
              ∧ ∃ h', tget (t.flash e).slots k = some h' ∧ h'.done = h.done ∧ lp ∈ h'.repair)))
    ∧ (∀ e k b, ∃ t, exec (.relocationSwitch e k b) s = .next t
      ∧ ((b, k) ∉ (s.flash e).moving → t = s)
      ∧ ((b, k) ∈ (s.flash e).moving →
          let waits := ∃ lp, lp ∈ (s.flash e).pagesIn b ∧ lp ∈ (s.flash e).waiting ∧ s.deliveryWaits e lp = true
          (waits → t = s.schedule 64 (.relocationSwitch e k b))
          ∧ (¬ waits → b < allBlocks →
              (∀ lp, (t.flash e).phys lp = if lp ∈ (s.flash e).pagesIn b then 256 * k + (s.flash e).phys lp % 256 else (s.flash e).phys lp)
              ∧ (∀ lp, lp ∈ (s.flash e).pagesIn b → (s.flash e).phys lp ∈ (s.flash e).bad → (s.flash e).rebuildable ((s.flash e).phys lp) = false →
                  256 * k + (s.flash e).phys lp % 256 ∈ (t.flash e).bad)
              ∧ (s.clk + 1316000, Instr.oldBlockErase e k b) ∈ t.agenda)
          ∧ (¬ waits → allBlocks ≤ b → (∀ lp, (t.flash e).phys lp = (s.flash e).phys lp) ∧ (k, b) ∈ (t.flash e).moving
              ∧ (s.clk + 1316000, Instr.oldBlockErase e b k) ∈ t.agenda)))
    ∧ (∀ e k b, ∃ t, exec (.oldBlockErase e k b) s = .next t
      ∧ ((b, k) ∉ (s.flash e).moving → t = s)
      ∧ ((b, k) ∈ (s.flash e).moving → (∃ r, r ∈ (s.flash e).reading ∧ r.2.2.2 / 256 = b) → t = s.schedule 17 (.oldBlockErase e k b))
      ∧ ((b, k) ∈ (s.flash e).moving → (∀ r, r ∈ (s.flash e).reading → r.2.2.2 / 256 ≠ b) → (b, k) ∉ (t.flash e).moving ∧ (t.flash e).inUse b = !(s.flash e).inUse b
          ∧ tgetD (t.flash e).erase b 0 = tgetD (s.flash e).erase b 0 + 1
          ∧ (let ends := (s.flash e).cmdMove = some b ∨ b ∈ (s.flash e).weak
            (ends → b ∈ (t.flash e).retired) ∧ (¬ ends → (t.flash e).retired = (s.flash e).retired))
          ∧ ((s.flash e).cmdMove = some b → (t.flash e).cmdMove = none ∧ (t.flash e).result = 2)))
    ∧ (∀ e lp, ∃ t1 t2 t3 t4, exec (.rebuild e lp) s = .next t1 ∧ exec (.relocate e lp) s = .next t2 ∧ exec (.retire e lp) s = .next t3
      ∧ exec (.refill e lp) s = .next t4
      ∧ ((s.flash e).moves lp = true → t1 = s.schedule 940 (.rebuild e lp) ∧ t2 = s.schedule 940 (.relocate e lp)
          ∧ t3 = s.schedule 940 (.retire e lp) ∧ t4 = s.schedule 940 (.refill e lp))
      ∧ ((s.flash e).moves lp = false →
          let b := (s.flash e).phys lp / 256
          let spare := (s.flash e).fresh (stackOf b) (decide (allBlocks ≤ b))
          let source := (s.flash e).source.or (s.refillSource e (s.flash e).sourceVa)
          (spare = none → (t2.flash e).result = 3 ∧ (t3.flash e).result = 3)
          ∧ (∀ k, spare = some k → k ∉ (s.flash e).weak → ((s.flash e).phys lp / 256, k) ∈ (t2.flash e).moving
              ∧ ((s.flash e).phys lp / 256, k) ∈ (t3.flash e).moving)
          ∧ (s.deliveryWaits e lp = true → t1 = s.schedule 64 (.rebuild e lp) ∧ t4 = s.schedule 64 (.refill e lp))
          ∧ (s.deliveryWaits e lp = false →
              ((s.flash e).rebuildable ((s.flash e).phys lp) = false → (t1.flash e).result = 3)
              ∧ ((s.flash e).rebuildable ((s.flash e).phys lp) = true → (t1.flash e).result = 2 ∧ lp ∉ (t1.flash e).waiting)
              ∧ (source = none → t4 = s.schedule 64 (.refill e lp))
              ∧ (source = some [] → (t4.flash e).result = 3)
              ∧ (∀ ps, source = some ps → ps ≠ [] → (t4.flash e).result = 2 ∧ lp ∉ (t4.flash e).waiting
                  ∧ ∀ i, i < 4096 * ps.length → tgetD (t4.flash e).bytes (16384 * lp + i) 0 = tgetD s.mem (ps.getD (i / 4096) 0 + i % 4096) 0))))
    ∧ (∀ e, ∃ t, exec (.ftlCommandComplete e) s = .next t
      ∧ ((s.flash e).state = 1 → (s.flash e).result ≠ 0 → (t.flash e).state = (s.flash e).result)
      ∧ ((s.flash e).state ≠ 1 ∨ (s.flash e).result = 0 → t = s))
    ∧ (∀ d, ∃ t, exec (.pointerRun d) s = .next t ∧ ((∀ m, m ∈ (s.die d).runs → s.runsOn d m.part = false) → t = s)
      ∧ (∀ m r, (s.die d).runs = m :: r → s.runsOn d m.part = true → tget (s.die d).layers ((m.layer + bits (s.die d).ptrCfg 1 0 + 1) % 256) = none → (t.die d).runs = r ∧ t.mem = s.mem)
      ∧ (∀ m r u, (s.die d).runs = m :: r → s.runsOn d m.part = true → (s.setDie d { s.die d with runs := r }).ptrRunOne d m = .stop u .wait →
          t = s.schedule 64 (.pointerRun d))
      ∧ (∀ m r y s1 s2 s3 s4 heads scales rows table, (s.die d).runs = m :: r → s.runsOn d m.part = true →
          tget (s.die d).layers ((m.layer + bits (s.die d).ptrCfg 1 0 + 1) % 256) = some y →
          let u := s.setDie d { s.die d with runs := r }
          let w := 64 * y.width64
          u.engRead (m.ctx u) {} (.src false) y.head (y.experts * w) = .ok s1 heads → s1.engRead (m.ctx u) {} (.src false) y.scale (4 * y.experts) = .ok s2 scales →
          s2.engRead (m.ctx u) {} (.src false) m.rows (2 * w * m.tokens) = .ok s3 rows → s3.engRead (m.ctx u) {} (.src false) y.map (32 * y.experts) = .ok s4 table →
          let predicted := fun (t e : Nat) => e ∈ predict y.kp ((List.range y.experts).map fun e => (List.range w).map fun j => ofInt (Spec.sgn 8 (heads.getD (e * w + j) 0).toNat))
            ((List.range y.experts).map fun e => fp32.dec (Spec.number ((List.range 4).map fun j => scales.getD (4 * e + j) 0)))
            ((List.range w).map fun j => bf16.dec (Spec.number ((List.range 2).map fun i => rows.getD (2 * (w * t + j) + i) 0)))
          ∃ es : List Nat, es.Pairwise (· < ·) ∧ (∀ e, e ∈ es ↔ e < y.experts ∧ ∃ t, t < m.tokens ∧ predicted t e)
            ∧ t = es.foldl (fun v e => v.prefetch d m ((table.drop (32 * e)).take 32)) s4))

/-- R175, R242, R243, R247, R254, R257, R260, R261, R269, R288, R289, R302, R304: allocations are granted the lowest free slot, leases and turns in order; a matrix command that
retires has made the elements of its bank and leaves its queue; a row leaves a drain; an attention command and a routing pass whose writes
are performed leave their queues; a capacity counter grants below its capacity; a message binds to a permit, lands on it, and its port
hands it out. The looks after 16 clocks are assumption 18, the clock of a retirement assumption 51, the answers' order assumption 64, a round that stops
assumption 160, the steps of a landing assumption 73. -/
def Obligations.EngineEvents : Prop :=
  ∀ (s : State),
    (∀ c, ∃ t, exec (.tallocRequestArrives c) s = .next t ∧ ((s.core c).talloc = none → t = s)
      ∧ (∀ r ix, (s.core c).talloc = some r → r.arrived = false → (s.core c).task.isSome = true → (s.die r.die).treqs = [] →
          (s.die r.die).used (s.core c).part + r.units ≤ ceiling (s.kpart r.die (s.core c).part) →
          (s.die r.die).used (s.core c).part + r.units ≤ guarantee (s.kpart r.die (s.core c).part) →
          ix < 131072 → (∀ j, j < ix → tget (s.die r.die).tiles j ≠ none) → tget (s.die r.die).tiles ix = none →
          (t.core c).talloc = some { r with arrived := true, addr := some (tileVa r.die ((s.die r.die).gen ix) ix) }
          ∧ ∃ y, tget (t.die r.die).tiles ix = some y ∧ y.gen = (s.die r.die).gen ix ∧ y.units = r.units ∧ y.part = (s.core c).part
              ∧ y.count = r.reads ∧ y.life = r.life ∧ y.sealed = false ∧ y.bound = false)
      ∧ (∀ r, (s.core c).talloc = some r → r.arrived = false → (∃ o, o ∈ (s.die r.die).treqs ∧ o.2.2.1 = (s.core c).part) →
          (t.die r.die).treqs = (s.die r.die).treqs ++ [(c, { r with arrived := true }, (s.core c).part, none)] ∧ (t.die r.die).tiles = (s.die r.die).tiles))
    ∧ (∀ d, ∃ t, exec (.tallocGrant d) s = .next t ∧ t.mem = s.mem
      ∧ ((s.die d).treqs = [] → (t.die d).tiles = (s.die d).tiles ∧ t.cores = s.cores)
      ∧ (∀ c r p ix, (s.die d).treqs = [(c, r, p, none)] → (s.core c).part = p → (s.core c).task.isSome = true →
          (s.die d).used p + r.units ≤ ceiling (s.kpart d p) → (s.die d).used p + r.units ≤ guarantee (s.kpart d p) →
          ix < 131072 → (∀ j, j < ix → tget (s.die d).tiles j ≠ none) → tget (s.die d).tiles ix = none →
          (t.core c).talloc = some { r with addr := some (tileVa d ((s.die d).gen ix) ix) } ∧ (t.die d).treqs = []
          ∧ ∃ y, tget (t.die d).tiles ix = some y ∧ y.gen = (s.die d).gen ix ∧ y.units = r.units ∧ y.part = p
              ∧ y.count = r.reads ∧ y.life = r.life ∧ y.sealed = false ∧ y.bound = false)
      ∧ (∀ x, (s.die d).treqs = [x] → ceiling (s.kpart d x.2.2.1) < (s.die d).used x.2.2.1 + x.2.1.units →
          (t.die d).treqs = [x] ∧ (t.die d).tiles = (s.die d).tiles ∧ t.cores = s.cores))
    ∧ (∀ q, ∃ t, exec (.leaseGrant q) s = .next t
      ∧ ((∀ x, x ∈ (s.arr q).lessees → x.granted = true) → t = s)
      ∧ (∀ l r, (s.arr q).lessees = l :: r → isGroup l.word = false → l.granted = false →
          (∀ x, x ∈ r → x.granted = true → x.banks &&& l.banks = 0) → ∃ x, x ∈ (t.arr q).lessees ∧ x.core = l.core ∧ x.granted = true))
    ∧ (∀ q, let u := s.settleArr q
      ∃ t, exec (.turnGrant q) s = .next t
      ∧ (u.turnOver q = false → u.someoneWaits q = false → t = u)
      ∧ (∀ m, m < 4 → (u.arr q).turn = none → u.groupWaits q = none → (∀ k, k < 4 → (u.singleWaits q (4 * q + k) = true ↔ k = m)) →
          (t.arr q).turn = some (4 * q + m) ∧ (t.arr q).turnCount = 0))
    ∧ (∀ q, let u := s.settleArr q
      ∃ t, exec (.matrixCommandRetire q) s = .next t ∧ ((u.arr q).queue = [] → t = u)
      ∧ (∀ x r e, (u.arr q).queue = x :: r → x.parts = none → u.arrRuns q x.part = true → x.fin = some e → e + (x.work q).2.2.2 + 1 ≤ s.clk →
          u.draining q x.bank = false →
          (x.kind = 2 → (∀ b i, i < 65536 → tgetD (t.arr q).banks (b * 65536 + i) 0 = if b = x.bank then 0 else tgetD (s.arr q).banks (b * 65536 + i) 0)
              ∧ (t.arr q).queue.length = r.length)
          ∧ (x.kind = 0 ∨ x.kind = 1 → x.grp = none → x.mode ≠ 5 → 0 < x.m → 0 < x.n → 0 < x.k → x.m ≤ 256 → x.n ≤ 256 →
              (∀ i j, i < 256 → j < 256 → tgetD (t.arr q).banks (bankKey x.bank i j) 0 =
                if i < x.m ∧ j < x.n then
                  x.element x.m x.n x.k (cdiv x.k 16) (if x.kind = 1 ∧ x.res = false then (x.ina, x.geoA) else tgetD (u.arr q).resident x.core ([], 0))
                    (u.gen x.part (arrGen q)) i j (if x.ovw then 0 else tgetD (s.arr q).banks (bankKey x.bank i j) 0)
                else tgetD (s.arr q).banks (bankKey x.bank i j) 0)
              ∧ (t.arr q).queue.length = r.length)))
    ∧ (∀ q src, ∃ t, exec (.groupPartArrives q src) s = .next t
      ∧ ((∀ p, p ∈ (s.arr src).part → p.1 = q → s.clk < p.2.2.1) → (s.arr q).inbox = [] →
          (∀ p, (t.arr p).banks = (s.arr p).banks ∧ (t.arr p).queue = (s.arr p).queue ∧ (t.arr p).inbox = (s.arr p).inbox) ∧ t.agenda = s.agenda)
      ∧ (∀ id at_ part x r left, (s.arr src).part.filter (fun p => p.1 == q && decide (p.2.2.1 ≤ s.clk)) = [(q, id, at_, part)] → (s.arr q).inbox = [] →
          (s.arr q).queue = x :: r → x.id = id → x.parts = some left → x.mode ≠ 5 → s.draining q x.bank = false → s.arrRuns q x.part = true →
          (x.shape q).1 ≤ 256 → (x.shape q).2.1 ≤ 256 →
          (∀ i j, i < 256 → j < 256 → tgetD (t.arr q).banks (bankKey x.bank i j) 0 =
            if i < (x.shape q).1 ∧ j < (x.shape q).2.1 then
              accRound x.mode 0 x.sat (if x.ovw then 0 else tgetD (s.arr q).banks (bankKey x.bank i j) 0) (fp32.dec (tgetD part (bankKey 0 i j) 0).toNat)
            else tgetD (s.arr q).banks (bankKey x.bank i j) 0)
          ∧ (t.arr q).inbox = [] ∧ (1 < left → (t.arr q).queue = { x with parts := some (left - 1), ovw := false } :: r)
          ∧ (left ≤ 1 → (t.arr q).queue.length = r.length)))
    ∧ (∀ c, ∃ t, exec (.drainRowLeaves c) s = .next t ∧ ((s.core c).drain = none → t = s)
      ∧ (∀ d, (s.core c).drain = some d → t = s.setCore c { s.core c with
          drain := if d.left ≤ 1 then none else some ⟨d.bank, d.row + 1, d.left - 1, d.due + 1⟩ }))
    ∧ (∀ e, ∃ t, exec (.attentionCommandComplete e) s = .next t
      ∧ (tgetD (s.die (e / 64)).att (e % 64) [] = [] → t = s)
      ∧ (∀ m, (tgetD (s.die (e / 64)).att (e % 64) []).find? (fun m => m.busy) = some m → m.held = none → attRows m.desc ≤ m.row →
          (s.engOut m.core 16 = true → t = s.schedule 16 (.attentionCommandComplete (64 * (e / 64) + e % 64)))
          ∧ (s.engOut m.core 16 = false → let idle := fun (l : List AttCmd) => l.map fun y => { y with busy := false }
              idle (tgetD (t.die (e / 64)).att (e % 64) []) = idle ((tgetD (s.die (e / 64)).att (e % 64) []).filter fun y => y.ord != m.ord))))
    ∧ (∀ id, ∃ t, exec (.capacityRequest id) s = .next t
      ∧ (∀ d k e q cap h c p, tget s.reqs id = some (.capacity d k e q cap h c p) →
          let n := tgetD (s.die h).caps (1024 * p + e) 0
          tget t.reqs id = none ∧ tgetD (t.die h).caps (1024 * p + e) 0 = if n < cap then n + 1 else n))
    ∧ (∀ d, ∃ t, exec (.routingRound d) s = .next t ∧ ((s.die d).rte = [] → t = s)
      ∧ (∀ m, (s.die d).rte.find? (fun m => m.started && !m.ended) = some m → m.held = none →
          (0 < m.waiting → t = s)
          ∧ (m.waiting = 0 → m.refused = [] → ∃ x, x ∈ (t.die d).rte ∧ x.ord = m.ord ∧ x.ended = true ∧ x.grants = m.grants)))
    ∧ (∀ d, ∃ t, exec (.routingPassComplete d) s = .next t
      ∧ ((∀ m, m ∈ (s.die d).rte → m.ended = false) → t = s)
      ∧ (∀ m, (s.die d).rte.find? (fun m => m.ended) = some m → m.held = none → m.written = true →
          (s.engOut m.core 16 = true → t = s.schedule 16 (.routingPassComplete d))
          ∧ (s.engOut m.core 16 = false → ∀ x, x ∈ (t.die d).rte ↔ x ∈ (s.die d).rte ∧ x.ord ≠ m.ord)))
    ∧ (∀ id, ∃ t, exec (.xsendBinding id) s = .next t
      ∧ (∀ c p d gen ix r y, tget s.reqs id = some (.bind c p d gen ix r) → s.liveTile d ix gen = some y →
          y.part = p → y.sealed = false → y.bound = false → r.len ≤ 4096 * y.units →
          tget (t.die d).tiles ix = some { y with bound := true, send := some r } ∧ t.cores = s.cores ∧ t.mem = s.mem)
      ∧ (∀ c p d gen ix r, tget s.reqs id = some (.bind c p d gen ix r) → s.liveTile d ix gen = none →
          (s.part p).pstate = 0 → (t.part p).pstate = 1))
    ∧ (∀ id, ∃ t, exec (.landing id) s = .next t
      ∧ (∀ d ix y r u b, tget s.reqs id = some (.land d ix) → tget (s.die d).tiles ix = some y → y.send = some r → r.landed = false →
          r.held = none → (r.pos = 0 → s.runsOn (dieOfCore r.core) y.part = true) → let n := min 4096 (r.len - r.pos)
          s.engRead (s.ctxOf r.core y.part r.priv r.coop) r.lap (.src false) (r.src + BitVec.ofNat 64 r.pos) n = .ok u b →
          ∃ z, tget (t.die d).tiles ix = some z ∧ z.send = some { r with pos := r.pos + n, landed := decide (r.len ≤ r.pos + n) } ∧ z.count = y.count
            ∧ z.sealed = y.sealed ∧ ∀ i, i < b.length → tget z.bytes (r.pos + i) = some (b.getD i 0)))
    ∧ (∀ id d ix y r, tget s.reqs id = some (.land d ix) → tget (s.die d).tiles ix = some y → y.send = some r → r.landed = false → r.pos = 0 →
        s.runsOn (dieOfCore r.core) y.part = false → exec (.landing id) s = .next s)
    ∧ (∀ id, ∃ t, exec (.xrecvRequestArrives id) s = .next t
      ∧ (∀ c p k pd, tget s.reqs id = some (.xrecv c p k pd) →
          (tgetD (s.die (dieOfCore c)).ports (p * 64 + k) [] = [] → Spec.Answered s t c pd 0 14)
          ∧ (∀ ix r y, tgetD (s.die (dieOfCore c)).ports (p * 64 + k) [] = ix :: r → tget (s.die (dieOfCore c)).tiles ix = some y →
              tgetD (t.die (dieOfCore c)).ports (p * 64 + k) [] = r ∧ Spec.Answered s t c pd (tileVa (dieOfCore c) y.gen ix) 14)))


/-- R225, R293 to R297, R309, R354, R407, R408: a barrier that every member has reached releases the cores that wait for it; a pod barrier waits for
every package; a boundary closes when every send has landed and counts; the Beacon ticks every 16 clocks, one more or less while it is
disciplined; frame starts are deferred until they may be taken; the open frame advances when its deadline tasks are done. The looks of a waiting boundary
are assumption 18, a deferred frame start assumption 99. -/
def Obligations.BoundaryEvents : Prop :=
  ∀ (s : State),
    (∀ sc inst p g, ∃ t, exec (.barComplete sc inst p g) s = .next t
      ∧ (sc ≠ 5 → (s.part p).open_ sc inst = true → t = s)
      ∧ (sc = 5 → tgetD (s.part p).podSeq g 0 ≤ inst → t = s)
      ∧ (sc = 5 → inst < tgetD (s.part p).podSeq g 0 → exec (.podBarrierMessage s.podIndex true p g inst) s = .next t)
      ∧ (sc ≠ 5 → (s.part p).open_ sc inst = false → ∀ c k, tget s.cores c = some k →
          (k.task.isSome = true → k.part = p → k.post = .bar sc inst g → t.core c = { k with post := .none })
          ∧ (k.task = none ∨ k.part ≠ p → t.core c = k)))
    ∧ (∀ pkg isBar p g n, let old := tgetD (s.part p).podBars (podKey isBar g n) []
      ∃ t, exec (.podBarrierMessage pkg isBar p g n) s = .next t
      ∧ (s.podCount ≤ pkg ∨ pkg ∈ old → t = s)
      ∧ (pkg < s.podCount → pkg ∉ old → tgetD (t.part p).podBars (podKey isBar g n) [] = pkg :: old
          ∧ ((∀ i, i < s.podCount → i ∈ pkg :: old) → (s.clk + s.podTime, Instr.podBarrierRelease isBar p g n) ∈ t.agenda)))
    ∧ (∀ isBar p g n, let all := ∀ i, i < s.podCount → i ∈ tgetD (s.part p).podBars (podKey isBar g n) []
      ∃ t, exec (.podBarrierRelease isBar p g n) s = .next t
      ∧ (¬ all → t = s)
      ∧ (all → tget (t.part p).podBars (podKey isBar g n) = none
          ∧ (isBar = false → (t.part p).ssPodDone = true)
          ∧ (isBar = true → ∀ c k, tget s.cores c = some k → k.task.isSome = true → k.part = p → k.post = .bar 5 n g → (t.core c).post = .none)))
    ∧ (∀ p, let x := s.part p
      ∃ t, exec (.superstepBoundary p) s = .next t
      ∧ (x.ssExchange = true → s.sendsOut p x.ssCount = true → t = s)
      ∧ (x.ssExchange = false → x.members = 0 ∨ x.ssArrived < x.members → t = s)
      ∧ (x.ssExchange = true → s.sendsOut p x.ssCount = false → s.closable p = false → t = s.scheduleFirst 1 (.superstepBoundary p))
      ∧ (x.ssExchange = true → s.sendsOut p x.ssCount = false → s.closable p = true → (x.pod = true → x.ssPodDone = true) →
          (t.part p).ssCount = x.ssCount + 1 ∧ ∀ c k m, tget t.cores c = some k → k.task.isSome = true → k.part = p → k.post = .sstep m → x.ssCount + 1 < m))
    ∧ (∃ t n, exec .beaconTick s = .next t ∧ (s.clk + n, Instr.beaconTick) ∈ t.agenda
      ∧ (s.tick + 1 < s.frameTicks → t.tick = s.tick + 1 ∧ t.frame = s.frame ∧ t.frameTicks = s.frameTicks)
      ∧ (s.frameTicks ≤ s.tick + 1 → t.tick = 0 ∧ t.frame = s.frame + 1 ∧ t.frameTicks = s.frameTicksNew.getD s.frameTicks ∧ t.frameTicksNew = none)
      ∧ (s.locked = false ∨ s.slew = 0 ∨ s.sinceSlew < 1024 → n = 16)
      ∧ (s.locked = true → 0 < s.slew → 1024 ≤ s.sinceSlew → n = 17) ∧ (s.locked = true → s.slew < 0 → 1024 ≤ s.sinceSlew → n = 15))
    ∧ (∀ p, let x := s.part p
      ∃ t u, exec (.frameStart p) s = .next t ∧ exec (.deferredFrameStart p) s = .next u
      ∧ (x.members ≠ 0 ∨ x.pstate = 3 → t = s ∧ (u.part p).deferred = false)
      ∧ (x.members = 0 → x.pstate ≠ 3 → s.closable p = true → (t.part p).deferred = false ∧ (t.part p).kpend = [])
      ∧ (x.members = 0 → x.pstate ≠ 3 → s.closable p = false → (t.part p).deferred = true ∧ (x.deferred = true → u = s.scheduleFirst 1 (.deferredFrameStart p)))
      ∧ (x.members = 0 → x.pstate ≠ 3 → s.closable p = true → x.deferred = true →
          (u.part p).deferred = false ∧ (u.part p).kpend = [] ∧ ∀ d, d < 6 → s.kpart d p = u.kpart d p ∨ tget x.kpend d = some (u.kpart d p))
      ∧ (x.deferred = false → u = s))
    ∧ (∀ p, let x := s.part p
      ∃ t, exec (.frameAdvance p) s = .next t
      ∧ (s.frame ≤ x.openFrame → t = s)
      ∧ (x.openFrame < s.frame → x.deadlines x.openFrame = [] → (t.part p).openFrame = x.openFrame + 1 ∧ (t.part p).late = [])
      ∧ (x.openFrame < s.frame → x.deadlines x.openFrame ≠ [] →
          t = if x.late = [] then s.setPart p { x with late := (x.deadlines x.openFrame).map fun e => e.task.tag } else s))
    ∧ (∀ o, ∃ t, exec (.ptpMessage o) s = .next t
      ∧ (s.podSize = 0 ∨ s.portUp = false → t = s)
      ∧ (s.podSize ≠ 0 → s.portUp = true → (t.locked = true ↔ -2000 ≤ o ∧ o ≤ 2000) ∧ t = { s with locked := t.locked, slew := t.slew }))

/-- R335 to R348, R350, R358, R397: an insertion takes the lowest free ring entry and lets its spawner go on, or halts the partition; a task
without predecessors becomes ready; a parked one wakes at its time; the dispatcher gives the lowest idle core an eligible record; a continuation
finds its pc and registers; packets install, remove, launch and tear down, one after the other. What meets a page under migration is tried again after
64 clocks (assumption 18). What a continuation reads of a ring that does not translate is assumption 78, the clock of its resumption assumption 79, the
clocks of an insertion's answer assumption 80. -/
def Obligations.TaskEvents : Prop :=
  ∀ (s : State),
    (∀ id, ∃ t, exec (.taskInsertion id) s = .next t
      ∧ (∀ c p d r va, tget s.reqs id = some (.insert c p d r va) →
          let s0 := { s with reqs := tdel s.reqs id }
          (∀ s1 n u, s0.checkRecord p d r = .ok s1 (.ok n) → s1.insertTask p d r n 0 none = .ok u true →
              tget t.reqs id = none ∧ (t.core c).post = .none ∧ t.parts = u.parts ∧ t.mem = u.mem)
          ∧ ((∃ s1 e, s0.checkRecord p d r = .ok s1 (.error e)) ∨ (∃ s1 n u, s0.checkRecord p d r = .ok s1 (.ok n) ∧ s1.insertTask p d r n 0 none = .ok u false) →
              (s.core c).part = p → (t.core c).stopped = true ∧ (t.part p).pstate ≠ 0)
          ∧ ((∃ u w, s0.checkRecord p d r = .stop u w) ∨ (∃ s1 n u w, s0.checkRecord p d r = .ok s1 (.ok n) ∧ s1.insertTask p d r n 0 none = .stop u w) →
              t = s.schedule 64 (.taskInsertion id))))
    ∧ (∀ p d r n start launch u ent, s.insertTask p d r n start launch = .ok u true → ent < 65536 →
        (∀ j, j < ent → tget (s.part p).ring j ≠ none) → tget (s.part p).ring ent = none →
        ent < 2 ^ (s.part p).ringLg ∧ ∃ e, tget (u.part p).ring ent = some e ∧ e.die = d ∧ e.phase = 0 ∧ e.entry = n.entry ∧ e.task.args = n.args
          ∧ e.task.inst = recInst r ∧ e.launch = launch ∧ (e.preds = [] → (s.clk + 40, Instr.taskReady p ent) ∈ u.agenda))
    ∧ (∀ p ent, ∃ t u, exec (.taskReady p ent) s = .next t ∧ exec (.parkWake p ent) s = .next u
      ∧ (tget (s.part p).ring ent = none → t = s ∧ u = s)
      ∧ (∀ e, tget (s.part p).ring ent = some e →
          (e.phase = 0 → e.preds ≠ [] → t = s)
          ∧ (e.phase = 0 → e.preds = [] → tget (t.part p).ring ent = some { e with phase := 1, readyAt := s.clk }
              ∧ (p, ent) ∈ tgetD (t.die e.die).pool e.task.prio [])
          ∧ (e.phase = 3 → e.wait ≤ s.beacon.toNat → tget (u.part p).ring ent = some { e with phase := 1, readyAt := s.clk }
              ∧ (p, ent) ∈ tgetD (u.die e.die).pool e.task.prio [])
          ∧ (e.phase ≠ 3 ∨ s.beacon.toNat < e.wait → u = s)))
    ∧ (∀ d, ∃ t, exec (.taskDispatch d) s = .next t
      ∧ ((s.die d).saved = [] → (s.die d).pool = [] → t = s)
      ∧ (∀ p ent b e c, (s.die d).saved = [] → (s.die d).poolOrder = [(p, ent, b)] → tget (s.part p).ring ent = some e → e.die = d → d < 6 →
          e.task.coop = false → s.eligible p e = true → (coresOf d).find? s.idle = some c →
          (∀ u w, s.rereadNode e = .stop u w → t = s.scheduleOnce 64 (.taskDispatch d))
          ∧ ∀ u, s.rereadNode e = .ok u e → (t.core c).task = some { e.task with member := 0 } ∧ (t.core c).pc = e.entry ∧ tget (t.part p).ring ent = some { e with phase := 2 }))
    ∧ (∀ c, ∃ t, exec (.continuationResume c) s = .next t
      ∧ ((s.core c).post ≠ .resume → t = s)
      ∧ (∀ u e, (s.core c).post = .resume → (s.core c).task = some u → tget (s.part u.part).ring u.ent = some e →
          (s.ringRead u.die u.part u.ent 64 64 = none → t = s.schedule 64 (.continuationResume c))
          ∧ ∀ r, s.ringRead u.die u.part u.ent 64 64 = some r → (t.core c).post = .none ∧ (t.core c).pc = BitVec.ofNat 64 (field r 0 8)
          ∧ (field r 20 4 % 16 ≠ 4 → (t.core c).sreg 1 = BitVec.ofNat 64 (field r 48 8) ∧ (t.core c).sreg 2 = BitVec.ofNat 64 (field r 56 8))))
    ∧ (∃ t1 t2 t3 t4, exec .installTemplate s = .next t1 ∧ exec .launchTasks s = .next t2 ∧ exec .removeTemplate s = .next t3
      ∧ exec .tearDownPartition s = .next t4
      ∧ (s.headPacket .installTemplate = none → t1 = s) ∧ (s.headPacket .launchTasks = none → t2 = s)
      ∧ (s.headPacket .removeTemplate = none → t3 = s) ∧ (s.headPacket .tearDownPartition = none → t4 = s)
      ∧ (∀ b, s.headPacket .installTemplate = some b →
          (∀ v, s.packetBad b = some v → t1.packets = s.packets.tail ∧ t1.parts = s.parts)
          ∧ (∀ u w, s.packetBad b = none → s.install b = .stop u w → t1 = s.schedule 64 .installTemplate)
          ∧ (∀ u v, s.packetBad b = none → s.install b = .ok u v → t1.packets = s.packets.tail
              ∧ ∀ id s1, s.checkImage (pkPart b) (pkAddr b) = .ok s1 (some id) → (s.part (pkPart b)).tmplBusy id = false →
                (s.part (pkPart b)).tmpls.length < 256 → (id, BitVec.ofNat 64 (pkAddr b)) ∈ (t1.part (pkPart b)).tmpls))
      ∧ (∀ b, s.headPacket .launchTasks = some b →
          (∀ v, s.packetBad b = some v → t2.packets = s.packets.tail ∧ t2.parts = s.parts)
          ∧ (∀ u w, s.packetBad b = none → s.launch b = .stop u w → t2 = s.schedule 64 .launchTasks)
          ∧ (∀ u v, s.packetBad b = none → s.launch b = .ok u v → t2.packets = s.packets.tail
              ∧ ((s.part (pkPart b)).pstate = 3 → (t2.part (pkPart b)).pstate = 0)))
      ∧ (∀ b, s.headPacket .removeTemplate = some b → t3.packets = s.packets.tail
          ∧ (s.packetBad b = none → (s.part (pkPart b)).tmplBusy (pkAddr b) = false → ∀ m, m ∈ (t3.part (pkPart b)).tmpls → m.1 ≠ pkAddr b))
      ∧ (∀ b, s.headPacket .tearDownPartition = some b →
          let p := pkPart b
          let again := (s.part p).pstate = 3 ∧ s.lastBlocks p = true
          let u := if again then s else (s.packetSets b).tearDown p
          (∀ v, s.packetBad b = some v → t4.packets = s.packets.tail)
          ∧ (s.packetBad b = none → u.lastBlocks p = true → t4 = u.schedule 16 .tearDownPartition)
          ∧ (s.packetBad b = none → u.lastBlocks p = false → t4.packets = s.packets.tail)
          ∧ (s.packetBad b = none → ¬ again → (t4.part (pkPart b)).pstate = 3 ∧ (t4.part (pkPart b)).ring = [] ∧ (t4.part (pkPart b)).tmpls = []
              ∧ ∀ c k, tget t4.cores c = some k → k.task.isSome = true → k.part ≠ pkPart b)))
    ∧ (∀ off data, ∃ t, exec (.launchWindowWrite off data) s = .next t
      ∧ (0x1000 ≤ off → off < 0x2000 →
          (data.length ≠ 64 ∨ off % 64 ≠ 0 → t = s)
          ∧ (data.length = 64 → off % 64 = 0 → s.ready = false ∨ 64 ≤ s.packets.length → t = { s with lcOverrun := true })
          ∧ (data.length = 64 → off % 64 = 0 → s.ready = true → s.packets.length < 64 → t.packets = s.packets ++ [data]
              ∧ (s.packets = [] → (s.clk + 1, packetEvent data) ∈ t.agenda)))
      ∧ (off = 8 → data.length = 8 → t = { s with lcOverrun := s.lcOverrun && !(data.getD 0 0).getLsbD 7 })
      ∧ (off = 0x48 → data.length = 8 → t = { s with throttled := 0, windows := 0 })
      ∧ (off = 0x140 → data.length = 8 → t = { s with mboxOverrun := s.mboxOverrun && !(data.getD 0 0).getLsbD 2 }))

/-- R97, R172, R200, R293, R356, R394 to R412: the host writes and reads HBM; the mailbox takes a command in one write of 64 bytes, and its commands end
done or failed; what meets a page under migration is tried again; a weight load switches its
pages at once when its digest fits; the Keeper grants each quad no less than its demand up to the floor and no more than it asks; the
supervisor's writes to registers of the package. Where a command finds its bytes is assumption 115, what POD replaces is assumption 116, how a load's
pages travel is assumption 117, what a host reads of a bad word assumption 112, the end of HBM assumption 113, the bytes of an image before ready assumption
114, the demands and the shares of the Keeper assumptions 111 and 122. -/
def Obligations.HostEvents : Prop :=
  ∀ (s : State),
    (∀ a data, ∃ t, exec (.hostMemWrite a data) s = .next t ∧ t = { s with mem := t.mem }
      ∧ ∀ x, tgetD t.mem x 0 = if a ≤ x ∧ x < a + data.length ∧ x < 2 ^ 40 then data.getD (x - a) 0 else tgetD s.mem x 0)
    ∧ (∀ a n, ∃ t, exec (.hostMemRead a n) s = .next t ∧ t = { s with hostRead := t.hostRead, fresh := s.fresh + 1 } ∧ t.hostRead.length = n
      ∧ (s.ready = true → a + n ≤ 2 ^ 40 → Spec.sound s a n → t.hostRead = (List.range n).map fun i => tgetD s.mem (a + i) 0))
    ∧ (∀ data : List Byte, data.length = 64 → ∃ t, exec (.launchWindowWrite 0x100 data) s = .next t
      ∧ (s.mboxState = 1 → t = { s with mboxOverrun := true })
      ∧ (s.mboxState ≠ 1 → s.ready = true → let op := (data.getD 0 0).toNat
          let bad := op = 0 ∨ 4 < op ∨ ∃ i, 0 < i ∧ i < 8 ∧ data.getD i 0 ≠ 0
          t.mboxOp = op ∧ (bad → t.mboxState = 3 ∧ t.mboxDetail = 1)
          ∧ (¬ bad → t.mboxState = 1 ∧ t.mboxDetail = 0 ∧ ∃ ev, t.mboxNext = some ev ∧ (s.clk + 1, ev) ∈ t.agenda)))
    ∧ (∀ a0 a1 a2 a3, ∃ t, exec (.pod a0 a1 a2 a3) s = .next t
      ∧ (s.mboxState = 1 → s.mboxNext ≠ some (.pod a0 a1 a2 a3) → t = { s with mboxOverrun := true })
      ∧ (∀ u, Spec.Mailed s u 1 (.pod a0 a1 a2 a3) →
          let bad := a1 = 0 ∨ 64 < a1.toNat ∨ a1.toNat ≤ a2.toNat ∨ 127 < a3.toNat
          let inUse := ∃ e, e ∈ s.parts ∧ bit e.2.sscfg 19 = true
          (bad → t.mboxState = 3 ∧ t.mboxDetail = 1) ∧ (¬ bad → inUse → t.mboxState = 3 ∧ t.mboxDetail = 2)
          ∧ (∀ v w, ¬ bad → ¬ inUse → u.mboxRead a0 (16 * a1.toNat) = .stop v w →
              t = { v with mboxNext := some (.pod a0 a1 a2 a3) }.schedule 64 (.pod a0 a1 a2 a3))
          ∧ (∀ v, ¬ bad → ¬ inUse → u.mboxRead a0 (16 * a1.toNat) = .ok v none → t.mboxState = 3 ∧ t.mboxDetail = 1)
          ∧ (∀ v b, ¬ bad → ¬ inUse → u.mboxRead a0 (16 * a1.toNat) = .ok v (some b) → t.mboxState = 2 ∧ t.mboxDetail = 0 ∧ t.podSize = a1.toNat
              ∧ t.podIndex = a2.toNat ∧ t.podTable = b ∧ t.podDomain = a3.toNat)))
    ∧ (∀ a0 a1 a2 a3 a4 a5, ∃ t, exec (.loadw a0 a1 a2 a3 a4 a5) s = .next t
      ∧ (s.mboxState = 1 → s.mboxNext ≠ some (.loadw a0 a1 a2 a3 a4 a5) → t = { s with mboxOverrun := true })
      ∧ (∀ u, Spec.Mailed s u 2 (.loadw a0 a1 a2 a3 a4 a5) →
          (3 < a1.toNat ∨ a3 = 0 ∨ 2 ^ 26 < a3.toNat ∨ 3 < a5.toNat → t.mboxState = 3 ∧ t.mboxDetail = 1)
          ∧ (a1.toNat ≤ 3 → 0 < a3.toNat → a2.toNat + a3.toNat ≤ lastPage + 1 → a5 = 0 ∨ a5 = 2 → a3.toNat ≤ 2 ^ 26 →
              (s.loadw ≠ none → t = { u with mboxNext := some (.loadw a0 a1 a2 a3 a4 a5) }.schedule 64 (.loadw a0 a1 a2 a3 a4 a5))
              ∧ (∀ v w b dg, s.loadw = none → u.mboxRead a0 32 = .ok v (some b) → v.mboxRead a4 32 = .ok w (some dg) →
                t.mboxState = 1 ∧ t.loadw = some ⟨a1.toNat, a2.toNat, a3.toNat, false, a5 == 2, dg, [], [], 0, false, none⟩
                ∧ t.portOut = if a5 = 2 ∧ s.podSize ≠ 0 ∧ s.podIndex + 1 < s.podSize then [.load a1.toNat a2.toNat a3.toNat s.podIndex dg] else []))))
    ∧ (∀ data, ∃ t, exec (.weightChunk data) s = .next t
      ∧ (s.loadw = none → let n := fun (o : Nat) => Spec.number ((List.range 8).map fun i => data.getD (o + i) 0)
          let taken := s.podSize ≠ 0 ∧ s.podIndex ≠ 0 ∧ data.length = 64 ∧ n 0 ≤ 3 ∧ n 16 ≠ 0 ∧ n 8 + n 16 ≤ lastPage + 1
          (¬ taken → t = s) ∧ (taken → t.loadw = some ⟨n 0, n 8, n 16, false, true, data.drop 32, [], [], 0, false, some (n 24)⟩))
      ∧ (∀ l, s.loadw = some l → l.switched = false → l.got.length < l.pages * 16384 → data = [] →
          t.loadw = none ∧ (l.relay = none → t.mboxState = 3 ∧ t.mboxDetail = 4) ∧ (l.relay ≠ none → t.mboxState = s.mboxState))
      ∧ (∀ l n, s.loadw = some l → l.switched = false → n < l.pages → l.got.length = 16384 * n → data.length = 16384 →
          t.portOut = if l.forward = true ∧ s.podSize ≠ 0 ∧ s.podIndex + 1 < s.podSize then [.page n data] else [])
      ∧ (∀ l, s.loadw = some l → l.switched = false → l.written < l.pages → data ≠ [] → l.got.length + data.length ≤ 16384 * l.pages →
          (l.got.length + data.length < 16384 * (l.written + 1) → t = { s with loadw := some { l with got := l.got ++ data }, portOut := t.portOut })
          ∧ (16384 * (l.written + 1) ≤ l.got.length + data.length → l.got.length + data.length < 16384 * (l.written + 2) → l.toHbm = false →
              l.written % 256 ≠ 0 → t.loadw = some { l with got := l.got ++ data, written := l.written + 1 }
              ∧ (l.written + 1 < l.pages → t.agenda = s.agenda) ∧ (l.written + 1 = l.pages → ∃ e, e ∈ t.agenda ∧ e.2 = .loadwSwitch))
          ∧ (16384 * (l.written + 1) ≤ l.got.length + data.length → l.got.length + data.length < 16384 * (l.written + 2) → l.toHbm = false →
              l.written % 256 = 0 → (∀ u, s.takeSpare l.ed 4 false = (u, none) → t.loadw = none ∧ (l.relay = none → t.mboxState = 3 ∧ t.mboxDetail = 3))
              ∧ ∀ u b, s.takeSpare l.ed 4 false = (u, some b) → t.loadw = some { l with got := l.got ++ data, written := l.written + 1, blocks := l.blocks ++ [b] } ∧ t.flash l.ed = u.flash l.ed)))
    ∧ (∃ t, exec .loadwSwitch s = .next t ∧ (s.loadw = none → t = s)
      ∧ (∀ l, s.loadw = some l → l.switched = false → l.written = l.pages →
          (sha256 l.got ≠ l.digest → t.loadw = none ∧ (l.relay = none → t.mboxState = 3 ∧ t.mboxDetail = 2))
          ∧ (sha256 l.got = l.digest → l.toHbm = false → s.loadBusy l = true → t = s.schedule 16 .loadwSwitch)
          ∧ (sha256 l.got = l.digest → l.toHbm = false → s.loadBusy l = false →
              (∀ j, l.relay = some j → t.loadw = none ∧ t.portOut = [.done s.podIndex j] ∧ t.mboxState = s.mboxState) ∧ ∀ i, i < l.pages → (t.flash l.ed).phys (l.first + i) = 256 * l.blocks.getD (i / 256) 0 + i % 256)))
    ∧ (∀ pkg, ∃ t, exec (.loadwDoneReport pkg) s = .next t ∧ (s.loadw = none → t = s)
      ∧ (∀ l, s.loadw = some l → l.relay ≠ none → t = s)
      ∧ (∀ l, s.loadw = some l → l.relay = none → (∀ i, i ∈ s.loadChain l → i = pkg ∨ i ∈ s.loadDone) →
          t.loadw = none ∧ t.mboxState = 2 ∧ t.mboxDetail = BitVec.ofNat 32 l.pages))
    ∧ (∀ a0 a1, ∃ t, exec (.attest a0 a1) s = .next t
      ∧ (s.mboxState = 1 → s.mboxNext ≠ some (.attest a0 a1) → t = { s with mboxOverrun := true })
      ∧ (∀ u, Spec.Mailed s u 3 (.attest a0 a1) →
          (∀ v w, u.mboxRead a0 32 = .stop v w → t = { v with mboxNext := some (.attest a0 a1) }.schedule 64 (.attest a0 a1))
          ∧ (∀ v, u.mboxRead a0 32 = .ok v none → t.mboxState = 3 ∧ t.mboxDetail = 1)
          ∧ (∀ v n, u.mboxRead a0 32 = .ok v (some n) →
              let report := Spec.bytesOf 4 0x54535441 ++ Spec.bytesOf 4 1 ++ n ++ Spec.bytesOf 16 Config.deviceSerial.toNat ++ sha256 (v.fwImage v.fwActive)
                ++ v.measure ++ Spec.bytesOf 8 (Config.firmwareVersion (v.fwImage v.fwActive)).toNat ++ Spec.bytesOf 8 v.beacon.toNat ++ List.replicate 120 0
              let out := report ++ (List.range 384).map (Config.attestSignature report) ++ (List.range (min Config.certChainLength 3456)).map Config.certChain
              (∀ x, (x = a1.toNat ∨ x % 64 = 0 ∧ a1.toNat < x) → x < a1.toNat + out.length →
                ∃ pa leaf, pa < 2 ^ 40 ∧ v.translate (schedCtx 0 v.svPart) (.dst false) (BitVec.ofNat 64 x) = .at_ (.phys pa) leaf) →
              ∃ w, v.engWrites (schedCtx 0 v.svPart) 17 false {} [(a1.toNat, out)] = .ok w ()
                ∧ t = { w with mboxState := 2, mboxDetail := BitVec.ofNat 32 out.length })))
    ∧ (∀ a0 a1, ∃ t, exec (.fwstage a0 a1) s = .next t
      ∧ (s.mboxState = 1 → s.mboxNext ≠ some (.fwstage a0 a1) → t = { s with mboxOverrun := true })
      ∧ (∀ u, Spec.Mailed s u 4 (.fwstage a0 a1) →
          (2 ^ 26 < a1.toNat → t.mboxState = 3 ∧ t.mboxDetail = 1)
          ∧ (∀ v, a1.toNat ≤ 2 ^ 26 → u.mboxRead a0 a1.toNat = .ok v none → t.mboxState = 3 ∧ t.mboxDetail = 1)
          ∧ (∀ v b, a1.toNat ≤ 2 ^ 26 → u.mboxRead a0 a1.toNat = .ok v (some b) →
              (Config.firmwareSigned b = false → t.mboxState = 3 ∧ t.mboxDetail = 2)
              ∧ (Config.firmwareSigned b = true → (Config.firmwareVersion b).toNat < s.fwLowest.toNat → t.mboxState = 3 ∧ t.mboxDetail = 3)
              ∧ (Config.firmwareSigned b = true → s.fwLowest.toNat ≤ (Config.firmwareVersion b).toNat → t.mboxState = 2
                  ∧ tget t.fwSlots (1 - s.fwActive) = some b ∧ t.fwStaged = true ∧ t.fwActive = s.fwActive))))
    ∧ (∃ t, exec .linkRetry s = .next t ∧ t = s)
    ∧ (∀ n, ∃ t, exec (.portLaneChange n) s = .next t ∧ t.lanes = min 8 n ∧ (t.portUp = true ↔ 4 ≤ n) ∧ (n < 4 → t.locked = false)
      ∧ t = { s with lanes := t.lanes, portUp := t.portUp, locked := t.locked })
    ∧ (∃ t, exec .keeperWindow s = .next t ∧ (s.ready = false → t = s)
      ∧ (s.ready = true → let cfg := s.keepNext.getD s.keepcfg
          t.keepcfg = cfg ∧ t.keepNext = none ∧ t.windows.toNat = min 0xFFFFFFFF (s.windows.toNat + 1)
          ∧ ∀ q, q < 192 → ∃ want n d, tget t.demand q = some want ∧ tget t.granted q = some (n, d) ∧ 0 < d
            ∧ min (19200 * want) (bits cfg 28 16 * bits cfg 15 8) * d ≤ 19200 * n ∧ n ≤ want * d))
    ∧ (∀ v, ∃ t, exec (.keepcfgWrite v) s = .next t ∧ t = { s with keepNext := t.keepNext }
      ∧ ∃ w, t.keepNext = some w ∧ bits w 28 16 = max 1000 (min 5400 (bits v 28 16)) ∧ bits w 15 8 = min 100 (bits v 15 8))
    ∧ (∀ v, ∃ t, exec (.poolbaseWrite v) s = .next t
      ∧ ((∃ e, e ∈ s.parts ∧ e.2.ring ≠ []) → t = s) ∧ ((∀ e, e ∈ s.parts → e.2.ring = []) → t = { s with poolbase := t.poolbase } ∧ t.poolbase.toNat = v.toNat / 2 ^ 34 * 2 ^ 34))
    ∧ (∀ p v, ∃ t, exec (.srseedWrite p v) s = .next t ∧ (t.part p).srseed = v
      ∧ ∀ g, g < 6144 → (t.gen p g).toNat = if v.toNat ^^^ g = 0 then 1 else v.toNat ^^^ g)
    ∧ (∀ p v, ∃ t, exec (.ttbaseWrite p v) s = .next t ∧ (v.toNat &&& regRsv 0x090 ≠ 0 → t = s)
      ∧ (v.toNat &&& regRsv 0x090 = 0 → (t.part p).ttbase = v ∧ Spec.Removed s t fun e => e.part == p))
    ∧ (∀ n v, let d := n / 16
      let p := n % 16
      ∃ t, exec (.kpartWrite n v) s = .next t
      ∧ (v.toNat &&& regRsv 0x180 ≠ 0 ∨ ceiling v < guarantee v ∨ kennelUnits d < ceiling v → t = s)
      ∧ (∀ w, v.toNat &&& regRsv 0x180 = 0 → s.kpartSet n v = some w → t = w ∧
          ((s.part p).ring = [] → (∀ e, e ∈ s.dies → ∀ x, x ∈ e.2.tiles → x.2.part ≠ p) → t.kpart d p = v)
          ∧ ((s.part p).ring ≠ [] → tgetD (t.part p).kpend d 0 = v ∧ (t.part p).kpart = (s.part p).kpart)))
    ∧ (∀ p v, ∃ t, exec (.sscfgWrite p v) s = .next t
      ∧ (v.toNat &&& regRsv 0x070 ≠ 0 → t = s)
      ∧ (v.toNat &&& regRsv 0x070 = 0 → (s.part p).ssExchange = false → (s.part p).ssArrived = 0 → (t.part p).sscfg = v ∧ (t.part p).sspend = none)
      ∧ (v.toNat &&& regRsv 0x070 = 0 → (s.part p).ssExchange = true ∨ (s.part p).ssArrived ≠ 0 → (t.part p).sscfg = (s.part p).sscfg ∧ (t.part p).sspend = some v))
    ∧ (∀ n v, ∃ t, exec (.sliceWrite n v) s = .next t
      ∧ (v.toNat &&& regRsv 0x2A0 ≠ 0 → t = s) ∧ (v.toNat &&& regRsv 0x2A0 = 0 → let least := bits (s.die (n / 16)).srt 15 0 + 8
        (bit v 16 = false ∨ least ≤ bits v 15 0 → tgetD t.slices n 0 = v)
        ∧ (bit v 16 = true → bits v 15 0 < least → least < 65536 → bits (tgetD t.slices n 0) 15 0 = least ∧ bits (tgetD t.slices n 0) 63 16 = bits v 63 16)))

/-- R356, R357, R379 to R389, R400, R401: a partition is halted unit by unit and resumed; the supervisor releases or ends a party that a record names;
records wait for room in its queue; slices begin and pre-empt; bring-up goes stage by stage, and none follows one that fails; a reset or a loss of power
keeps flash alone. The looks after 16 and 64 clocks are assumption 18, a save area that is missing assumption 88, the order of pre-emptions assumption 89,
the records' order assumption 91, what an ended party does assumption 94, a stage's time assumption 109, stage 0 assumption 110, a core that ends its
command first assumption 150. -/
def Obligations.SupervisorEvents : Prop :=
  ∀ (s : State),
    (∀ p, ∃ t u, exec (.pstateHalt p) s = .next t ∧ exec (.pstateResume p) s = .next u
      ∧ ((s.part p).pstate ≠ 0 → t = s) ∧ ((s.part p).pstate ≠ 2 → u = s)
      ∧ ((s.part p).pstate = 0 → (t.part p).pstate = 1 ∧ (∀ x, x ∈ s.unitsOf p → (s.clk + 120, Instr.haltLineArrives p x.1 x.2) ∈ t.agenda)
          ∧ (p = s.myPart → t.me.stopped = true)
          ∧ (p ≠ s.myPart → t.cores = s.cores ∧ (s.unitsOf p = [] → (s.clk + 120, Instr.halted p) ∈ t.agenda)))
      ∧ ((s.part p).pstate = 2 → (u.part p).pstate = 0 ∧ ∀ c k, tget s.cores c = some k → k.task.isSome = true → k.part = p → (u.core c).stopped = false))
    ∧ (∀ ix, ∃ t u, exec (.svackRelease ix) s = .next t ∧ exec (.svackEnd ix) s = .next u
      ∧ (tget s.parties ix = none → t = s ∧ u = s)
      ∧ (∀ e lp, tget s.parties ix = some (.flash e lp) → t = s)
      ∧ (∀ c p, tget s.parties ix = some (.core c p) → (s.core c).part = p → (s.core c).task.isSome = true → (s.core c).held = some (2 ^ 32) →
          t = { s with parties := tdel s.parties ix }.setCore c { s.core c with held := none, nextClk := max (s.core c).nextClk (s.clk + 1) }
          ∧ (u.core c).held = none ∧ ((s.core c).coop = false → (u.core c).post = .suspend 5 0 0 0)))
    ∧ (∀ d, ∃ t, exec (.svqRecordWrite d) s = .next t
      ∧ ((s.die d).recs = [] → t = s)
      ∧ (∀ r rs, (s.die d).recs = r :: rs → s.svValid = false → (t.die d).recs = rs ∧ t.mem = s.mem ∧ t.svqHead = s.svqHead)
      ∧ (∀ r rs, (s.die d).recs = r :: rs → s.svValid = true → (s.svqHead - s.svqTail).toNat = 2 ^ bits s.svqBase 4 0 →
          t = s.scheduleOnce 64 (.svqRecordWrite d))
      ∧ (∀ r who rs u w, (s.die d).recs = (r, who) :: rs → s.svValid = true → (s.svqHead - s.svqTail).toNat ≠ 2 ^ bits s.svqBase 4 0 →
          s.insertHandler d s.svqHead.toNat = some u →
          u.engWrites (schedCtx d s.svPart) 17 false {}
            [(bits s.svqBase 63 12 * 4096 + 64 * (s.svqHead.toNat % 2 ^ bits s.svqBase 4 0), r.take 56 ++ Spec.bytesOf 8 s.beacon.toNat)] = .ok w () →
          (t.die d).recs = rs ∧ t.svqHead = s.svqHead + 1 ∧ t.mem = w.mem ∧ t.quads = w.quads ∧ tget t.parties s.svqHead.toNat = who))
    ∧ (∀ p kind ix, ∃ t, exec (.haltLineArrives p kind ix) s = .next t
      ∧ ((s.part p).halt = none ∨ (s.part p).pstate ≠ 1 → t = s)
      ∧ (∀ h, (s.part p).halt = some h → (kind, ix) ∉ h.left → t = s)
      ∧ (∀ h, (s.part p).halt = some h → (s.part p).pstate = 1 → (kind, ix) ∈ h.left → kind ≠ 0 → s.stoppable p kind ix = true →
          let works := (kind, ix) ∈ s.unitsOf p
          (t.part p).halt = some { h with left := h.left.filter (· != (kind, ix)), done := if works then h.done ++ [(kind, ix)] else h.done } ∧ t.cores = s.cores
          ∧ (t.die (unitDie (kind, ix))).recs.length = (s.die (unitDie (kind, ix))).recs.length + (if works then 1 else 0)
          ∧ ((∀ u, u ∈ h.left → u = (kind, ix)) → (s.clk + 1, Instr.halted p) ∈ t.agenda))
      ∧ (∀ h, (s.part p).halt = some h → (s.part p).pstate = 1 → (kind, ix) ∈ h.left → kind = 0 → (s.core ix).part = p →
          ((s.core ix).endsCommand = true → t.cores = s.cores ∧ t.parts = s.parts ∧ (s.clk + 1, Instr.haltLineArrives p kind ix) ∈ t.agenda)
          ∧ ((s.core ix).endsCommand = false → s.stoppable p kind ix = false →
              (t.core ix).stopped = true ∧ (s.clk + 16, Instr.haltLineArrives p kind ix) ∈ t.agenda)))
    ∧ (∀ p, ∃ t, exec (.halted p) s = .next t
      ∧ ((s.part p).halt = none ∨ (s.part p).pstate ≠ 1 → t = s)
      ∧ (∀ h, (s.part p).halt = some h → h.left ≠ [] → t = s)
      ∧ (∀ h, (s.part p).halt = some h → (s.part p).pstate = 1 → h.left = [] → s.svValid = false →
          (h.closing = true → (t.part p).pstate = 2 ∧ (t.part p).halt = none ∧ (t.part p).unitFault = [] ∧ t.dies = s.dies)
          ∧ (h.closing = false → (∀ u, u ∈ s.unitsOf p → u ∈ h.done) → (∀ e, e ∈ (s.part p).unitFault → e.1 ≠ 8) →
              (t.part p).halt = some { h with closing := true } ∧ (t.die h.die).recs.length = (s.die h.die).recs.length + 1
              ∧ (s.clk + 1, Instr.halted p) ∈ t.agenda)))
    ∧ (∀ d, ∃ t u, exec (.sliceEnd d) s = .next t ∧ exec (.preemptionComplete d) s = .next u
      ∧ ((s.die d).pre.isSome = true → t = s)
      ∧ ((s.die d).pre = none → u = s)
      ∧ (∀ p x xs, (s.die d).pre = some ⟨p, x :: xs⟩ → u = s)
      ∧ (∀ p, (s.die d).pre = some ⟨p, []⟩ →
          exec (.sliceEnd d) (s.setDie d { s.die d with pre := none, outs := if p ∈ (s.die d).outs then (s.die d).outs else (s.die d).outs ++ [p] }) = .next u)
      ∧ ((s.die d).pre = none → (∀ i, i < 16 → bit (tgetD s.slices (16 * d + i) 0) 16 = false) →
          (t.die d).slice = none ∧ (t.die d).pre = none ∧ ∀ e, e ∈ t.agenda → e.2 ≠ .sliceEnd d)
      ∧ (∀ i w q, (s.die d).pre = none → (s.die d).slice = none → i < 16 → (∀ j, j < i → bit (tgetD s.slices (16 * d + j) 0) 16 = false) →
          w = tgetD s.slices (16 * d + i) 0 → bit w 16 = true → (∃ j, j < 16 ∧ j ≠ i ∧ bit (tgetD s.slices (16 * d + j) 0) 16 = true) →
          s.outgoing d (bits w 20 17) = some q →
          (s.csaveOk q = false → t = s.schedule 64 (.sliceEnd d))
          ∧ (s.csaveOk q = true → (t.die d).pre = some ⟨q, s.dieUnits d q⟩ ∧ (t.die d).slice = none
              ∧ ∀ x, x ∈ s.dieUnits d q → (s.clk + 16, Instr.preemptionUnitSave d x.1 x.2) ∈ t.agenda))
      ∧ (∀ i w, (s.die d).pre = none → (s.die d).slice = none → i < 16 → (∀ j, j < i → bit (tgetD s.slices (16 * d + j) 0) 16 = false) →
          w = tgetD s.slices (16 * d + i) 0 → bit w 16 = true →
          s.outgoing d (bits w 20 17) = none ∨ (∀ j, j < 16 → j ≠ i → bit (tgetD s.slices (16 * d + j) 0) 16 = false) →
          (t.die d).slice = some (bits w 20 17) ∧ (t.die d).sliceIx = i ∧ (s.clk + 940 * max 1 (bits w 15 0), Instr.sliceEnd d) ∈ t.agenda))
    ∧ (∀ d kind ix, ∃ t, exec (.preemptionUnitSave d kind ix) s = .next t
      ∧ ((s.die d).pre = none → t = s)
      ∧ (∀ p us, (s.die d).pre = some ⟨p, us⟩ → (kind, ix) ∉ us → t = s)
      ∧ (∀ p us, (s.die d).pre = some ⟨p, us⟩ → (kind, ix) ∈ us → kind ≠ 0 → s.stoppable p kind ix = true →
          (t.die d).pre = some ⟨p, us.filter (· != (kind, ix))⟩ ∧ t.cores = s.cores
          ∧ ((∀ u, u ∈ us → u = (kind, ix)) → (s.clk + 1, Instr.preemptionComplete d) ∈ t.agenda))
      ∧ (∀ p us, (s.die d).pre = some ⟨p, us⟩ → (kind, ix) ∈ us → kind = 0 → (s.core ix).part = p →
          ((s.core ix).endsCommand = true → t.cores = s.cores ∧ t.dies = s.dies ∧ (s.clk + 1, Instr.preemptionUnitSave d kind ix) ∈ t.agenda)
          ∧ ((s.core ix).endsCommand = false → s.stoppable p kind ix = false →
              (t.core ix).stopped = true ∧ (s.clk + 16, Instr.preemptionUnitSave d kind ix) ∈ t.agenda)))
    ∧ (∃ t u v, exec .powerUp s = .next t ∧ exec .powerOff s = .next u ∧ exec .cxlReset s = .next v
      ∧ (s.powered = true → t = s) ∧ (s.powered = false → v = s)
      ∧ (s.powered = false → t.powered = true ∧ t.ready = false ∧ t.devStage = 0 ∧ t.agenda = [(s.clk + 1880000000, Instr.bringupStageComplete true)]
          ∧ t.fwStaged = false ∧ t.fwActive = if s.fwStaged then 1 - s.fwActive else s.fwActive)
      ∧ (u.powered = false ∧ u.ready = false ∧ u.mem = [] ∧ u.cores = [] ∧ u.parts = [] ∧ u.agenda = [])
      ∧ (s.powered = true → v.powered = true ∧ v.ready = false ∧ v.devStage = 0 ∧ v.mem = [] ∧ v.cores = [] ∧ v.parts = [])
      ∧ ∀ e, (u.flash e).bytes = (s.flash e).bytes ∧ (u.flash e).map = (s.flash e).map ∧ (s.powered = true → (v.flash e).bytes = (s.flash e).bytes))
    ∧ (∀ ok, let n := s.devStage
      ∃ t, exec (.bringupStageComplete ok) s = .next t
      ∧ (s.powered = false ∨ s.ready = true ∨ 6 ≤ n ∨ s.devError ≠ 0 → t = s)
      ∧ (s.powered = true → s.ready = false → n < 6 → s.devError = 0 →
          (ok = false ∨ (n = 0 ∧ s.fwValid 0 = false ∧ s.fwValid 1 = false) → t = { s with devError := if n < 4 then n + 1 else 5 })
          ∧ (ok = true → n ≠ 0 ∨ s.fwValid 0 = true ∨ s.fwValid 1 = true → t.devStage = n + 1
              ∧ (n < 5 → t.ready = false ∧ (s.clk + stageBound (n + 1), Instr.bringupStageComplete true) ∈ t.agenda)
              ∧ (n = 5 → t.ready = true ∧ t.mem = [] ∧ t.frame = 0 ∧ t.tick = 0))))
end

