-- ==== Sys2Proof/Laws/Tbl.lean ====
section
/-! SUPPORT. The sparse tables: a read after a write, and the canonical form that memory keeps. -/
namespace Sys2Proof

variable {α : Type}

@[simp] theorem tget_nil (k : Nat) : tget ([] : Tbl α) k = none := rfl
@[simp] theorem tgetD_nil (k : Nat) (d : α) : tgetD ([] : Tbl α) k d = d := rfl
theorem tget_cons (j : Nat) (v : α) (t : Tbl α) (k : Nat) : tget ((j, v) :: t) k = if j = k then some v else tget t k := rfl

/-- An entry that has just been listed is read back. -/
@[simp] theorem tget_tset_same (t : Tbl α) (k : Nat) (v : α) : tget (tset t k v) k = some v := by
  induction t with
  | nil => simp [tset, tget]
  | cons e t ih =>
    obtain ⟨j, w⟩ := e
    unfold tset
    split
    · simp [tget]
    · split
      · simp [tget]
      · next h => simp [tget, ih, show ¬j = k from fun e => h e.symm]

/-- Listing an entry leaves every other one alone. -/
theorem tget_tset_other (t : Tbl α) {k j : Nat} (v : α) (h : k ≠ j) : tget (tset t k v) j = tget t j := by
  induction t with
  | nil => simp [tset, tget, h]
  | cons e t ih =>
    obtain ⟨i, w⟩ := e
    unfold tset
    split
    · simp [tget, h]
    · split
      · next hk => subst hk; simp [tget, h]
      · simp [tget, ih]

@[simp] theorem tgetD_tset_same (t : Tbl α) (k : Nat) (v d : α) : tgetD (tset t k v) k d = v := by simp [tgetD]
theorem tgetD_tset_other (t : Tbl α) {k j : Nat} (v d : α) (h : k ≠ j) : tgetD (tset t k v) j d = tgetD t j d := by
  simp [tgetD, tget_tset_other t v h]
theorem tgetD_tset (t : Tbl α) (k j : Nat) (v d : α) : tgetD (tset t k v) j d = if k = j then v else tgetD t j d := by
  split
  · next h => subst h; simp
  · next h => exact tgetD_tset_other t v d h

/-- Taking an entry out leaves every other one alone. -/
theorem tget_tdel_other (t : Tbl α) {k j : Nat} (h : k ≠ j) : tget (tdel t k) j = tget t j := by
  induction t with
  | nil => rfl
  | cons e t ih =>
    obtain ⟨i, w⟩ := e
    unfold tdel
    split
    · next hk => subst hk; simp [tget, h, ih]
    · simp [tget, ih]

/-! ### Rising keys -/

/-- Every key of the table is above k. -/
def tabove (k : Nat) (t : Tbl α) : Prop := ∀ e ∈ t, k < e.1

theorem tsorted_cons {k : Nat} {v : α} {t : Tbl α} : tsorted ((k, v) :: t) = true ↔ tabove k t ∧ tsorted t = true := by
  induction t generalizing k v with
  | nil => simp [tsorted, tabove]
  | cons e t ih =>
    obtain ⟨j, w⟩ := e
    rw [show tsorted ((k, v) :: (j, w) :: t) = (decide (k < j) && tsorted ((j, w) :: t)) from rfl]
    simp only [Bool.and_eq_true, decide_eq_true_eq]
    constructor
    · rintro ⟨h, hs⟩
      refine ⟨?_, hs⟩
      intro e he
      rcases List.mem_cons.1 he with rfl | he
      · exact h
      · exact Nat.lt_trans h ((ih.1 hs).1 e he)
    · rintro ⟨h, hs⟩
      exact ⟨h (j, w) (by simp), hs⟩

theorem tget_above {t : Tbl α} {k : Nat} (h : tabove k t) : tget t k = none := by
  induction t with
  | nil => rfl
  | cons e t ih =>
    obtain ⟨j, w⟩ := e
    have hj : k < j := h (j, w) (by simp)
    rw [tget_cons, if_neg (by omega)]
    exact ih fun e he => h e (by simp [he])

theorem tset_mem {t : Tbl α} {k : Nat} {v : α} {e : Nat × α} (h : e ∈ tset t k v) : e = (k, v) ∨ e ∈ t := by
  induction t with
  | nil => simpa [tset] using h
  | cons x t ih =>
    obtain ⟨j, w⟩ := x
    unfold tset at h
    split at h
    · simpa using h
    · split at h
      · rcases List.mem_cons.1 h with rfl | h
        · exact .inl rfl
        · exact .inr (by simp [h])
      · rcases List.mem_cons.1 h with rfl | h
        · exact .inr (by simp)
        · rcases ih h with h | h
          · exact .inl h
          · exact .inr (by simp [h])

theorem tdel_mem {t : Tbl α} {k : Nat} {e : Nat × α} (h : e ∈ tdel t k) : e ∈ t := by
  induction t with
  | nil => simp [tdel] at h
  | cons x t ih =>
    obtain ⟨j, w⟩ := x
    unfold tdel at h
    split at h
    · simp [ih h]
    · rcases List.mem_cons.1 h with rfl | h
      · simp
      · simp [ih h]

theorem tsorted_tset {t : Tbl α} (k : Nat) (v : α) (h : tsorted t = true) : tsorted (tset t k v) = true := by
  induction t with
  | nil => rfl
  | cons e t ih =>
    obtain ⟨j, w⟩ := e
    have hs := tsorted_cons.1 h
    unfold tset
    split
    · next hk =>
      refine tsorted_cons.2 ⟨?_, h⟩
      intro e he
      rcases List.mem_cons.1 he with rfl | he
      · exact hk
      · exact Nat.lt_trans hk (hs.1 e he)
    · split
      · next hk => subst hk; exact tsorted_cons.2 hs
      · refine tsorted_cons.2 ⟨?_, ih hs.2⟩
        intro e he
        rcases tset_mem he with rfl | he
        · show j < k; omega
        · exact hs.1 e he

theorem tsorted_tdel {t : Tbl α} (k : Nat) (h : tsorted t = true) : tsorted (tdel t k) = true := by
  induction t with
  | nil => rfl
  | cons e t ih =>
    obtain ⟨j, w⟩ := e
    have hs := tsorted_cons.1 h
    unfold tdel
    split
    · exact ih hs.2
    · exact tsorted_cons.2 ⟨fun e he => hs.1 e (tdel_mem he), ih hs.2⟩

/-- An entry taken out is gone. -/
@[simp] theorem tget_tdel_same (t : Tbl α) (k : Nat) : tget (tdel t k) k = none := by
  induction t with
  | nil => rfl
  | cons e t ih =>
    obtain ⟨j, w⟩ := e
    unfold tdel
    split
    · exact ih
    · next hk => rw [tget_cons, if_neg (fun e => hk e.symm)]; exact ih

/-! ### The canonical form -/

section
variable [DecidableEq α] {d : α}

theorem twf_iff {t : Tbl α} : twf d t = true ↔ tsorted t = true ∧ ∀ e ∈ t, e.2 ≠ d := by simp [twf]

/-- A write keeps the canonical form. -/
theorem twf_tput {t : Tbl α} (k : Nat) (v : α) (h : twf d t = true) : twf d (tput d t k v) = true := by
  obtain ⟨hs, hd⟩ := twf_iff.1 h
  unfold tput
  split
  · exact twf_iff.2 ⟨tsorted_tdel k hs, fun e he => hd e (tdel_mem he)⟩
  · next hv =>
    refine twf_iff.2 ⟨tsorted_tset k v hs, fun e he => ?_⟩
    rcases tset_mem he with rfl | he
    · exact hv
    · exact hd e he

/-- A write leaves every other key alone. -/
theorem tgetD_tput_other (t : Tbl α) {k j : Nat} (v : α) (h : k ≠ j) : tgetD (tput d t k v) j d = tgetD t j d := by
  unfold tput
  split
  · simp [tgetD, tget_tdel_other t h]
  · exact tgetD_tset_other t v d h

/-- A write is read back. -/
@[simp] theorem tgetD_tput_same (t : Tbl α) (k : Nat) (v : α) : tgetD (tput d t k v) k d = v := by
  unfold tput
  split
  · next hv => simp [tgetD, hv]
  · simp
theorem tgetD_tput (t : Tbl α) (k j : Nat) (v : α) : tgetD (tput d t k v) j d = if k = j then v else tgetD t j d := by
  split
  · next h => subst h; simp
  · next h => exact tgetD_tput_other t v h
end

/-! ### Memory (R2) -/

theorem memory_wf_nil : Memory.wf [] = true := rfl

/-- Writing bytes keeps the canonical form of memory. -/
theorem memWrite_wf (b : List Byte) : ∀ (m : Tbl Byte) (a : Nat), Memory.wf m = true → Memory.wf (memWrite m a b) = true := by
  induction b with
  | nil => intro m a h; exact h
  | cons x b ih => intro m a h; exact ih _ _ (twf_tput a x h)

/-- Bytes below the written range keep their value. -/
theorem memWrite_below (b : List Byte) : ∀ (m : Tbl Byte) (a j : Nat), j < a → tgetD (memWrite m a b) j 0 = tgetD m j 0 := by
  induction b with
  | nil => intro m a j h; rfl
  | cons x b ih =>
    intro m a j h
    rw [show memWrite m a (x :: b) = memWrite (tput 0 m a x) (a + 1) b from rfl, ih _ _ _ (by omega)]
    exact tgetD_tput_other m x (by omega)

/-- Bytes above the written range keep their value. -/
theorem memWrite_above (b : List Byte) : ∀ (m : Tbl Byte) (a j : Nat), a + b.length ≤ j → tgetD (memWrite m a b) j 0 = tgetD m j 0 := by
  induction b with
  | nil => intro m a j h; rfl
  | cons x b ih =>
    intro m a j h
    simp only [List.length_cons] at h
    rw [show memWrite m a (x :: b) = memWrite (tput 0 m a x) (a + 1) b from rfl, ih _ _ _ (by omega)]
    exact tgetD_tput_other m x (by omega)

/-- Each written byte is read back. -/
theorem memWrite_at (b : List Byte) : ∀ (m : Tbl Byte) (a i : Nat), i < b.length →
    tgetD (memWrite m a b) (a + i) 0 = b.getD i 0 := by
  induction b with
  | nil => intro m a i h; simp at h
  | cons x b ih =>
    intro m a i h
    rw [show memWrite m a (x :: b) = memWrite (tput 0 m a x) (a + 1) b from rfl]
    cases i with
    | zero =>
      rw [memWrite_below b _ _ _ (by omega)]
      simp
    | succ i =>
      simp only [List.length_cons] at h
      rw [show a + (i + 1) = a + 1 + i by omega, ih _ _ _ (by omega)]
      simp

theorem memRead_length (m : Tbl Byte) : ∀ (n a : Nat), (memRead m a n).length = n := by
  intro n
  induction n with
  | zero => intro a; rfl
  | succ n ih => intro a; simp [memRead, ih]

/-- A list of writes keeps the canonical form. -/
theorem foldl_memWrite_wf {β : Type} (f : β → Nat × List Byte) (l : List β) : ∀ m : Tbl Byte, Memory.wf m = true →
    Memory.wf (l.foldl (fun m x => memWrite m (f x).1 (f x).2) m) = true := by
  induction l with
  | nil => intro m h; exact h
  | cons x l ih => intro m h; exact ih _ (memWrite_wf _ _ _ h)

/-! ### Little-endian numbers (R2) -/

@[simp] theorem leBytes_length : ∀ (n v : Nat), (leBytes n v).length = n := by
  intro n
  induction n with
  | zero => intro v; rfl
  | succ n ih => intro v; simp [leBytes, ih]

/-- The bytes of a number read back as the number, modulo the width. -/
theorem leNat_leBytes : ∀ (n v : Nat), leNat (leBytes n v) = v % 256 ^ n := by
  intro n
  induction n with
  | zero => intro v; simp [leBytes, leNat, Nat.mod_one]
  | succ n ih =>
    intro v
    simp only [leBytes, leNat, ih, BitVec.toNat_ofNat]
    have h := Nat.mod_mul (x := v) (a := 256) (b := 256 ^ n)
    have e : 256 ^ (n + 1) = 256 * 256 ^ n := by rw [Nat.pow_succ, Nat.mul_comm]
    rw [e, h]

end Sys2Proof
end

