-- ==== Sys2Proof/Laws/State.lean ====
section
/-! SUPPORT. One lemma per field of the state per update, so that no proof unfolds a record update; and what each accessor reads after
an update of a unit. -/
namespace Sys2Proof.Machine
namespace State
variable (s : State)

@[simp] theorem setMe_eq (k : Core) : s.setMe k = s.setCore s.cur k := rfl

/-! ### setCore -/
@[simp] theorem setCore_clk (c : Nat) (k : Core) : (s.setCore c k).clk = s.clk := rfl
@[simp] theorem setCore_cur (c : Nat) (k : Core) : (s.setCore c k).cur = s.cur := rfl
@[simp] theorem setCore_issue (c : Nat) (k : Core) : (s.setCore c k).issue = s.issue := rfl
@[simp] theorem setCore_powered (c : Nat) (k : Core) : (s.setCore c k).powered = s.powered := rfl
@[simp] theorem setCore_fresh (c : Nat) (k : Core) : (s.setCore c k).fresh = s.fresh := rfl
@[simp] theorem setCore_nextId (c : Nat) (k : Core) : (s.setCore c k).nextId = s.nextId := rfl
@[simp] theorem setCore_mem (c : Nat) (k : Core) : (s.setCore c k).mem = s.mem := rfl
@[simp] theorem setCore_badWords (c : Nat) (k : Core) : (s.setCore c k).badWords = s.badWords := rfl
@[simp] theorem setCore_softWords (c : Nat) (k : Core) : (s.setCore c k).softWords = s.softWords := rfl
@[simp] theorem setCore_quads (c : Nat) (k : Core) : (s.setCore c k).quads = s.quads := rfl
@[simp] theorem setCore_dies (c : Nat) (k : Core) : (s.setCore c k).dies = s.dies := rfl
@[simp] theorem setCore_parts (c : Nat) (k : Core) : (s.setCore c k).parts = s.parts := rfl
@[simp] theorem setCore_gens (c : Nat) (k : Core) : (s.setCore c k).gens = s.gens := rfl
@[simp] theorem setCore_reqs (c : Nat) (k : Core) : (s.setCore c k).reqs = s.reqs := rfl
@[simp] theorem setCore_agenda (c : Nat) (k : Core) : (s.setCore c k).agenda = s.agenda := rfl
@[simp] theorem setCore_frame (c : Nat) (k : Core) : (s.setCore c k).frame = s.frame := rfl
@[simp] theorem setCore_tick (c : Nat) (k : Core) : (s.setCore c k).tick = s.tick := rfl
@[simp] theorem setCore_frameTicks (c : Nat) (k : Core) : (s.setCore c k).frameTicks = s.frameTicks := rfl
@[simp] theorem setCore_frameTicksNew (c : Nat) (k : Core) : (s.setCore c k).frameTicksNew = s.frameTicksNew := rfl
@[simp] theorem setCore_locked (c : Nat) (k : Core) : (s.setCore c k).locked = s.locked := rfl
@[simp] theorem setCore_slew (c : Nat) (k : Core) : (s.setCore c k).slew = s.slew := rfl
@[simp] theorem setCore_sinceSlew (c : Nat) (k : Core) : (s.setCore c k).sinceSlew = s.sinceSlew := rfl
@[simp] theorem setCore_slices (c : Nat) (k : Core) : (s.setCore c k).slices = s.slices := rfl
@[simp] theorem setCore_sliceClamp (c : Nat) (k : Core) : (s.setCore c k).sliceClamp = s.sliceClamp := rfl
@[simp] theorem setCore_svcfg (c : Nat) (k : Core) : (s.setCore c k).svcfg = s.svcfg := rfl
@[simp] theorem setCore_svqBase (c : Nat) (k : Core) : (s.setCore c k).svqBase = s.svqBase := rfl
@[simp] theorem setCore_svqTail (c : Nat) (k : Core) : (s.setCore c k).svqTail = s.svqTail := rfl
@[simp] theorem setCore_svqHead (c : Nat) (k : Core) : (s.setCore c k).svqHead = s.svqHead := rfl
@[simp] theorem setCore_parties (c : Nat) (k : Core) : (s.setCore c k).parties = s.parties := rfl
@[simp] theorem setCore_devError (c : Nat) (k : Core) : (s.setCore c k).devError = s.devError := rfl
@[simp] theorem setCore_devStage (c : Nat) (k : Core) : (s.setCore c k).devStage = s.devStage := rfl
@[simp] theorem setCore_ready (c : Nat) (k : Core) : (s.setCore c k).ready = s.ready := rfl
@[simp] theorem setCore_packets (c : Nat) (k : Core) : (s.setCore c k).packets = s.packets := rfl
@[simp] theorem setCore_lcOverrun (c : Nat) (k : Core) : (s.setCore c k).lcOverrun = s.lcOverrun := rfl
@[simp] theorem setCore_launches (c : Nat) (k : Core) : (s.setCore c k).launches = s.launches := rfl
@[simp] theorem setCore_owed (c : Nat) (k : Core) : (s.setCore c k).owed = s.owed := rfl
@[simp] theorem setCore_poolbase (c : Nat) (k : Core) : (s.setCore c k).poolbase = s.poolbase := rfl
@[simp] theorem setCore_keepcfg (c : Nat) (k : Core) : (s.setCore c k).keepcfg = s.keepcfg := rfl
@[simp] theorem setCore_keepNext (c : Nat) (k : Core) : (s.setCore c k).keepNext = s.keepNext := rfl
@[simp] theorem setCore_throttled (c : Nat) (k : Core) : (s.setCore c k).throttled = s.throttled := rfl
@[simp] theorem setCore_windows (c : Nat) (k : Core) : (s.setCore c k).windows = s.windows := rfl
@[simp] theorem setCore_demand (c : Nat) (k : Core) : (s.setCore c k).demand = s.demand := rfl
@[simp] theorem setCore_granted (c : Nat) (k : Core) : (s.setCore c k).granted = s.granted := rfl
@[simp] theorem setCore_grants (c : Nat) (k : Core) : (s.setCore c k).grants = s.grants := rfl
@[simp] theorem setCore_mboxDetail (c : Nat) (k : Core) : (s.setCore c k).mboxDetail = s.mboxDetail := rfl
@[simp] theorem setCore_mboxOp (c : Nat) (k : Core) : (s.setCore c k).mboxOp = s.mboxOp := rfl
@[simp] theorem setCore_mboxOverrun (c : Nat) (k : Core) : (s.setCore c k).mboxOverrun = s.mboxOverrun := rfl
@[simp] theorem setCore_mboxState (c : Nat) (k : Core) : (s.setCore c k).mboxState = s.mboxState := rfl
@[simp] theorem setCore_mboxNext (c : Nat) (k : Core) : (s.setCore c k).mboxNext = s.mboxNext := rfl
@[simp] theorem setCore_podSize (c : Nat) (k : Core) : (s.setCore c k).podSize = s.podSize := rfl
@[simp] theorem setCore_podIndex (c : Nat) (k : Core) : (s.setCore c k).podIndex = s.podIndex := rfl
@[simp] theorem setCore_podMiss (c : Nat) (k : Core) : (s.setCore c k).podMiss = s.podMiss := rfl
@[simp] theorem setCore_podTable (c : Nat) (k : Core) : (s.setCore c k).podTable = s.podTable := rfl
@[simp] theorem setCore_podDomain (c : Nat) (k : Core) : (s.setCore c k).podDomain = s.podDomain := rfl
@[simp] theorem setCore_loadw (c : Nat) (k : Core) : (s.setCore c k).loadw = s.loadw := rfl
@[simp] theorem setCore_portOut (c : Nat) (k : Core) : (s.setCore c k).portOut = s.portOut := rfl
@[simp] theorem setCore_loadDone (c : Nat) (k : Core) : (s.setCore c k).loadDone = s.loadDone := rfl
@[simp] theorem setCore_fwActive (c : Nat) (k : Core) : (s.setCore c k).fwActive = s.fwActive := rfl
@[simp] theorem setCore_fwStaged (c : Nat) (k : Core) : (s.setCore c k).fwStaged = s.fwStaged := rfl
@[simp] theorem setCore_fwSlots (c : Nat) (k : Core) : (s.setCore c k).fwSlots = s.fwSlots := rfl
@[simp] theorem setCore_fwLowest (c : Nat) (k : Core) : (s.setCore c k).fwLowest = s.fwLowest := rfl
@[simp] theorem setCore_lanes (c : Nat) (k : Core) : (s.setCore c k).lanes = s.lanes := rfl
@[simp] theorem setCore_portUp (c : Nat) (k : Core) : (s.setCore c k).portUp = s.portUp := rfl
@[simp] theorem setCore_measure (c : Nat) (k : Core) : (s.setCore c k).measure = s.measure := rfl
@[simp] theorem setCore_health (c : Nat) (k : Core) : (s.setCore c k).health = s.health := rfl
@[simp] theorem setCore_hclass (c : Nat) (k : Core) : (s.setCore c k).hclass = s.hclass := rfl
@[simp] theorem setCore_hbmMap (c : Nat) (k : Core) : (s.setCore c k).hbmMap = s.hbmMap := rfl
@[simp] theorem setCore_swaps (c : Nat) (k : Core) : (s.setCore c k).swaps = s.swaps := rfl
@[simp] theorem setCore_hot (c : Nat) (k : Core) : (s.setCore c k).hot = s.hot := rfl
@[simp] theorem setCore_swapping (c : Nat) (k : Core) : (s.setCore c k).swapping = s.swapping := rfl
@[simp] theorem setCore_busyTill (c : Nat) (k : Core) : (s.setCore c k).busyTill = s.busyTill := rfl
@[simp] theorem setCore_pchan (c : Nat) (k : Core) : (s.setCore c k).pchan = s.pchan := rfl
@[simp] theorem setCore_pchanUsed (c : Nat) (k : Core) : (s.setCore c k).pchanUsed = s.pchanUsed := rfl
@[simp] theorem setCore_retrains (c : Nat) (k : Core) : (s.setCore c k).retrains = s.retrains := rfl
@[simp] theorem setCore_retrainWait (c : Nat) (k : Core) : (s.setCore c k).retrainWait = s.retrainWait := rfl
@[simp] theorem setCore_hostRead (c : Nat) (k : Core) : (s.setCore c k).hostRead = s.hostRead := rfl
theorem setCore_cores (c : Nat) (k : Core) : (s.setCore c k).cores = tset s.cores c k := rfl
/-! ### setQuad -/
@[simp] theorem setQuad_clk (q : Nat) (x : Quad) : (s.setQuad q x).clk = s.clk := rfl
@[simp] theorem setQuad_cur (q : Nat) (x : Quad) : (s.setQuad q x).cur = s.cur := rfl
@[simp] theorem setQuad_issue (q : Nat) (x : Quad) : (s.setQuad q x).issue = s.issue := rfl
@[simp] theorem setQuad_powered (q : Nat) (x : Quad) : (s.setQuad q x).powered = s.powered := rfl
@[simp] theorem setQuad_fresh (q : Nat) (x : Quad) : (s.setQuad q x).fresh = s.fresh := rfl
@[simp] theorem setQuad_nextId (q : Nat) (x : Quad) : (s.setQuad q x).nextId = s.nextId := rfl
@[simp] theorem setQuad_mem (q : Nat) (x : Quad) : (s.setQuad q x).mem = s.mem := rfl
@[simp] theorem setQuad_badWords (q : Nat) (x : Quad) : (s.setQuad q x).badWords = s.badWords := rfl
@[simp] theorem setQuad_softWords (q : Nat) (x : Quad) : (s.setQuad q x).softWords = s.softWords := rfl
@[simp] theorem setQuad_cores (q : Nat) (x : Quad) : (s.setQuad q x).cores = s.cores := rfl
@[simp] theorem setQuad_dies (q : Nat) (x : Quad) : (s.setQuad q x).dies = s.dies := rfl
@[simp] theorem setQuad_parts (q : Nat) (x : Quad) : (s.setQuad q x).parts = s.parts := rfl
@[simp] theorem setQuad_gens (q : Nat) (x : Quad) : (s.setQuad q x).gens = s.gens := rfl
@[simp] theorem setQuad_reqs (q : Nat) (x : Quad) : (s.setQuad q x).reqs = s.reqs := rfl
@[simp] theorem setQuad_agenda (q : Nat) (x : Quad) : (s.setQuad q x).agenda = s.agenda := rfl
@[simp] theorem setQuad_frame (q : Nat) (x : Quad) : (s.setQuad q x).frame = s.frame := rfl
@[simp] theorem setQuad_tick (q : Nat) (x : Quad) : (s.setQuad q x).tick = s.tick := rfl
@[simp] theorem setQuad_frameTicks (q : Nat) (x : Quad) : (s.setQuad q x).frameTicks = s.frameTicks := rfl
@[simp] theorem setQuad_frameTicksNew (q : Nat) (x : Quad) : (s.setQuad q x).frameTicksNew = s.frameTicksNew := rfl
@[simp] theorem setQuad_locked (q : Nat) (x : Quad) : (s.setQuad q x).locked = s.locked := rfl
@[simp] theorem setQuad_slew (q : Nat) (x : Quad) : (s.setQuad q x).slew = s.slew := rfl
@[simp] theorem setQuad_sinceSlew (q : Nat) (x : Quad) : (s.setQuad q x).sinceSlew = s.sinceSlew := rfl
@[simp] theorem setQuad_slices (q : Nat) (x : Quad) : (s.setQuad q x).slices = s.slices := rfl
@[simp] theorem setQuad_sliceClamp (q : Nat) (x : Quad) : (s.setQuad q x).sliceClamp = s.sliceClamp := rfl
@[simp] theorem setQuad_svcfg (q : Nat) (x : Quad) : (s.setQuad q x).svcfg = s.svcfg := rfl
@[simp] theorem setQuad_svqBase (q : Nat) (x : Quad) : (s.setQuad q x).svqBase = s.svqBase := rfl
@[simp] theorem setQuad_svqTail (q : Nat) (x : Quad) : (s.setQuad q x).svqTail = s.svqTail := rfl
@[simp] theorem setQuad_svqHead (q : Nat) (x : Quad) : (s.setQuad q x).svqHead = s.svqHead := rfl
@[simp] theorem setQuad_parties (q : Nat) (x : Quad) : (s.setQuad q x).parties = s.parties := rfl
@[simp] theorem setQuad_devError (q : Nat) (x : Quad) : (s.setQuad q x).devError = s.devError := rfl
@[simp] theorem setQuad_devStage (q : Nat) (x : Quad) : (s.setQuad q x).devStage = s.devStage := rfl
@[simp] theorem setQuad_ready (q : Nat) (x : Quad) : (s.setQuad q x).ready = s.ready := rfl
@[simp] theorem setQuad_packets (q : Nat) (x : Quad) : (s.setQuad q x).packets = s.packets := rfl
@[simp] theorem setQuad_lcOverrun (q : Nat) (x : Quad) : (s.setQuad q x).lcOverrun = s.lcOverrun := rfl
@[simp] theorem setQuad_launches (q : Nat) (x : Quad) : (s.setQuad q x).launches = s.launches := rfl
@[simp] theorem setQuad_owed (q : Nat) (x : Quad) : (s.setQuad q x).owed = s.owed := rfl
@[simp] theorem setQuad_poolbase (q : Nat) (x : Quad) : (s.setQuad q x).poolbase = s.poolbase := rfl
@[simp] theorem setQuad_keepcfg (q : Nat) (x : Quad) : (s.setQuad q x).keepcfg = s.keepcfg := rfl
@[simp] theorem setQuad_keepNext (q : Nat) (x : Quad) : (s.setQuad q x).keepNext = s.keepNext := rfl
@[simp] theorem setQuad_throttled (q : Nat) (x : Quad) : (s.setQuad q x).throttled = s.throttled := rfl
@[simp] theorem setQuad_windows (q : Nat) (x : Quad) : (s.setQuad q x).windows = s.windows := rfl
@[simp] theorem setQuad_demand (q : Nat) (x : Quad) : (s.setQuad q x).demand = s.demand := rfl
@[simp] theorem setQuad_granted (q : Nat) (x : Quad) : (s.setQuad q x).granted = s.granted := rfl
@[simp] theorem setQuad_grants (q : Nat) (x : Quad) : (s.setQuad q x).grants = s.grants := rfl
@[simp] theorem setQuad_mboxDetail (q : Nat) (x : Quad) : (s.setQuad q x).mboxDetail = s.mboxDetail := rfl
@[simp] theorem setQuad_mboxOp (q : Nat) (x : Quad) : (s.setQuad q x).mboxOp = s.mboxOp := rfl
@[simp] theorem setQuad_mboxOverrun (q : Nat) (x : Quad) : (s.setQuad q x).mboxOverrun = s.mboxOverrun := rfl
@[simp] theorem setQuad_mboxState (q : Nat) (x : Quad) : (s.setQuad q x).mboxState = s.mboxState := rfl
@[simp] theorem setQuad_mboxNext (q : Nat) (x : Quad) : (s.setQuad q x).mboxNext = s.mboxNext := rfl
@[simp] theorem setQuad_podSize (q : Nat) (x : Quad) : (s.setQuad q x).podSize = s.podSize := rfl
@[simp] theorem setQuad_podIndex (q : Nat) (x : Quad) : (s.setQuad q x).podIndex = s.podIndex := rfl
@[simp] theorem setQuad_podMiss (q : Nat) (x : Quad) : (s.setQuad q x).podMiss = s.podMiss := rfl
@[simp] theorem setQuad_podTable (q : Nat) (x : Quad) : (s.setQuad q x).podTable = s.podTable := rfl
@[simp] theorem setQuad_podDomain (q : Nat) (x : Quad) : (s.setQuad q x).podDomain = s.podDomain := rfl
@[simp] theorem setQuad_loadw (q : Nat) (x : Quad) : (s.setQuad q x).loadw = s.loadw := rfl
@[simp] theorem setQuad_portOut (q : Nat) (x : Quad) : (s.setQuad q x).portOut = s.portOut := rfl
@[simp] theorem setQuad_loadDone (q : Nat) (x : Quad) : (s.setQuad q x).loadDone = s.loadDone := rfl
@[simp] theorem setQuad_fwActive (q : Nat) (x : Quad) : (s.setQuad q x).fwActive = s.fwActive := rfl
@[simp] theorem setQuad_fwStaged (q : Nat) (x : Quad) : (s.setQuad q x).fwStaged = s.fwStaged := rfl
@[simp] theorem setQuad_fwSlots (q : Nat) (x : Quad) : (s.setQuad q x).fwSlots = s.fwSlots := rfl
@[simp] theorem setQuad_fwLowest (q : Nat) (x : Quad) : (s.setQuad q x).fwLowest = s.fwLowest := rfl
@[simp] theorem setQuad_lanes (q : Nat) (x : Quad) : (s.setQuad q x).lanes = s.lanes := rfl
@[simp] theorem setQuad_portUp (q : Nat) (x : Quad) : (s.setQuad q x).portUp = s.portUp := rfl
@[simp] theorem setQuad_measure (q : Nat) (x : Quad) : (s.setQuad q x).measure = s.measure := rfl
@[simp] theorem setQuad_health (q : Nat) (x : Quad) : (s.setQuad q x).health = s.health := rfl
@[simp] theorem setQuad_hclass (q : Nat) (x : Quad) : (s.setQuad q x).hclass = s.hclass := rfl
@[simp] theorem setQuad_hbmMap (q : Nat) (x : Quad) : (s.setQuad q x).hbmMap = s.hbmMap := rfl
@[simp] theorem setQuad_swaps (q : Nat) (x : Quad) : (s.setQuad q x).swaps = s.swaps := rfl
@[simp] theorem setQuad_hot (q : Nat) (x : Quad) : (s.setQuad q x).hot = s.hot := rfl
@[simp] theorem setQuad_swapping (q : Nat) (x : Quad) : (s.setQuad q x).swapping = s.swapping := rfl
@[simp] theorem setQuad_busyTill (q : Nat) (x : Quad) : (s.setQuad q x).busyTill = s.busyTill := rfl
@[simp] theorem setQuad_pchan (q : Nat) (x : Quad) : (s.setQuad q x).pchan = s.pchan := rfl
@[simp] theorem setQuad_pchanUsed (q : Nat) (x : Quad) : (s.setQuad q x).pchanUsed = s.pchanUsed := rfl
@[simp] theorem setQuad_retrains (q : Nat) (x : Quad) : (s.setQuad q x).retrains = s.retrains := rfl
@[simp] theorem setQuad_retrainWait (q : Nat) (x : Quad) : (s.setQuad q x).retrainWait = s.retrainWait := rfl
@[simp] theorem setQuad_hostRead (q : Nat) (x : Quad) : (s.setQuad q x).hostRead = s.hostRead := rfl
theorem setQuad_quads (q : Nat) (x : Quad) : (s.setQuad q x).quads = tset s.quads q x := rfl
/-! ### setDie -/
@[simp] theorem setDie_clk (d : Nat) (x : Die) : (s.setDie d x).clk = s.clk := rfl
@[simp] theorem setDie_cur (d : Nat) (x : Die) : (s.setDie d x).cur = s.cur := rfl
@[simp] theorem setDie_issue (d : Nat) (x : Die) : (s.setDie d x).issue = s.issue := rfl
@[simp] theorem setDie_powered (d : Nat) (x : Die) : (s.setDie d x).powered = s.powered := rfl
@[simp] theorem setDie_fresh (d : Nat) (x : Die) : (s.setDie d x).fresh = s.fresh := rfl
@[simp] theorem setDie_nextId (d : Nat) (x : Die) : (s.setDie d x).nextId = s.nextId := rfl
@[simp] theorem setDie_mem (d : Nat) (x : Die) : (s.setDie d x).mem = s.mem := rfl
@[simp] theorem setDie_badWords (d : Nat) (x : Die) : (s.setDie d x).badWords = s.badWords := rfl
@[simp] theorem setDie_softWords (d : Nat) (x : Die) : (s.setDie d x).softWords = s.softWords := rfl
@[simp] theorem setDie_cores (d : Nat) (x : Die) : (s.setDie d x).cores = s.cores := rfl
@[simp] theorem setDie_quads (d : Nat) (x : Die) : (s.setDie d x).quads = s.quads := rfl
@[simp] theorem setDie_parts (d : Nat) (x : Die) : (s.setDie d x).parts = s.parts := rfl
@[simp] theorem setDie_gens (d : Nat) (x : Die) : (s.setDie d x).gens = s.gens := rfl
@[simp] theorem setDie_reqs (d : Nat) (x : Die) : (s.setDie d x).reqs = s.reqs := rfl
@[simp] theorem setDie_agenda (d : Nat) (x : Die) : (s.setDie d x).agenda = s.agenda := rfl
@[simp] theorem setDie_frame (d : Nat) (x : Die) : (s.setDie d x).frame = s.frame := rfl
@[simp] theorem setDie_tick (d : Nat) (x : Die) : (s.setDie d x).tick = s.tick := rfl
@[simp] theorem setDie_frameTicks (d : Nat) (x : Die) : (s.setDie d x).frameTicks = s.frameTicks := rfl
@[simp] theorem setDie_frameTicksNew (d : Nat) (x : Die) : (s.setDie d x).frameTicksNew = s.frameTicksNew := rfl
@[simp] theorem setDie_locked (d : Nat) (x : Die) : (s.setDie d x).locked = s.locked := rfl
@[simp] theorem setDie_slew (d : Nat) (x : Die) : (s.setDie d x).slew = s.slew := rfl
@[simp] theorem setDie_sinceSlew (d : Nat) (x : Die) : (s.setDie d x).sinceSlew = s.sinceSlew := rfl
@[simp] theorem setDie_slices (d : Nat) (x : Die) : (s.setDie d x).slices = s.slices := rfl
@[simp] theorem setDie_sliceClamp (d : Nat) (x : Die) : (s.setDie d x).sliceClamp = s.sliceClamp := rfl
@[simp] theorem setDie_svcfg (d : Nat) (x : Die) : (s.setDie d x).svcfg = s.svcfg := rfl
@[simp] theorem setDie_svqBase (d : Nat) (x : Die) : (s.setDie d x).svqBase = s.svqBase := rfl
@[simp] theorem setDie_svqTail (d : Nat) (x : Die) : (s.setDie d x).svqTail = s.svqTail := rfl
@[simp] theorem setDie_svqHead (d : Nat) (x : Die) : (s.setDie d x).svqHead = s.svqHead := rfl
@[simp] theorem setDie_parties (d : Nat) (x : Die) : (s.setDie d x).parties = s.parties := rfl
@[simp] theorem setDie_devError (d : Nat) (x : Die) : (s.setDie d x).devError = s.devError := rfl
@[simp] theorem setDie_devStage (d : Nat) (x : Die) : (s.setDie d x).devStage = s.devStage := rfl
@[simp] theorem setDie_ready (d : Nat) (x : Die) : (s.setDie d x).ready = s.ready := rfl
@[simp] theorem setDie_packets (d : Nat) (x : Die) : (s.setDie d x).packets = s.packets := rfl
@[simp] theorem setDie_lcOverrun (d : Nat) (x : Die) : (s.setDie d x).lcOverrun = s.lcOverrun := rfl
@[simp] theorem setDie_launches (d : Nat) (x : Die) : (s.setDie d x).launches = s.launches := rfl
@[simp] theorem setDie_owed (d : Nat) (x : Die) : (s.setDie d x).owed = s.owed := rfl
@[simp] theorem setDie_poolbase (d : Nat) (x : Die) : (s.setDie d x).poolbase = s.poolbase := rfl
@[simp] theorem setDie_keepcfg (d : Nat) (x : Die) : (s.setDie d x).keepcfg = s.keepcfg := rfl
@[simp] theorem setDie_keepNext (d : Nat) (x : Die) : (s.setDie d x).keepNext = s.keepNext := rfl
@[simp] theorem setDie_throttled (d : Nat) (x : Die) : (s.setDie d x).throttled = s.throttled := rfl
@[simp] theorem setDie_windows (d : Nat) (x : Die) : (s.setDie d x).windows = s.windows := rfl
@[simp] theorem setDie_demand (d : Nat) (x : Die) : (s.setDie d x).demand = s.demand := rfl
@[simp] theorem setDie_granted (d : Nat) (x : Die) : (s.setDie d x).granted = s.granted := rfl
@[simp] theorem setDie_grants (d : Nat) (x : Die) : (s.setDie d x).grants = s.grants := rfl
@[simp] theorem setDie_mboxDetail (d : Nat) (x : Die) : (s.setDie d x).mboxDetail = s.mboxDetail := rfl
@[simp] theorem setDie_mboxOp (d : Nat) (x : Die) : (s.setDie d x).mboxOp = s.mboxOp := rfl
@[simp] theorem setDie_mboxOverrun (d : Nat) (x : Die) : (s.setDie d x).mboxOverrun = s.mboxOverrun := rfl
@[simp] theorem setDie_mboxState (d : Nat) (x : Die) : (s.setDie d x).mboxState = s.mboxState := rfl
@[simp] theorem setDie_mboxNext (d : Nat) (x : Die) : (s.setDie d x).mboxNext = s.mboxNext := rfl
@[simp] theorem setDie_podSize (d : Nat) (x : Die) : (s.setDie d x).podSize = s.podSize := rfl
@[simp] theorem setDie_podIndex (d : Nat) (x : Die) : (s.setDie d x).podIndex = s.podIndex := rfl
@[simp] theorem setDie_podMiss (d : Nat) (x : Die) : (s.setDie d x).podMiss = s.podMiss := rfl
@[simp] theorem setDie_podTable (d : Nat) (x : Die) : (s.setDie d x).podTable = s.podTable := rfl
@[simp] theorem setDie_podDomain (d : Nat) (x : Die) : (s.setDie d x).podDomain = s.podDomain := rfl
@[simp] theorem setDie_loadw (d : Nat) (x : Die) : (s.setDie d x).loadw = s.loadw := rfl
@[simp] theorem setDie_portOut (d : Nat) (x : Die) : (s.setDie d x).portOut = s.portOut := rfl
@[simp] theorem setDie_loadDone (d : Nat) (x : Die) : (s.setDie d x).loadDone = s.loadDone := rfl
@[simp] theorem setDie_fwActive (d : Nat) (x : Die) : (s.setDie d x).fwActive = s.fwActive := rfl
@[simp] theorem setDie_fwStaged (d : Nat) (x : Die) : (s.setDie d x).fwStaged = s.fwStaged := rfl
@[simp] theorem setDie_fwSlots (d : Nat) (x : Die) : (s.setDie d x).fwSlots = s.fwSlots := rfl
@[simp] theorem setDie_fwLowest (d : Nat) (x : Die) : (s.setDie d x).fwLowest = s.fwLowest := rfl
@[simp] theorem setDie_lanes (d : Nat) (x : Die) : (s.setDie d x).lanes = s.lanes := rfl
@[simp] theorem setDie_portUp (d : Nat) (x : Die) : (s.setDie d x).portUp = s.portUp := rfl
@[simp] theorem setDie_measure (d : Nat) (x : Die) : (s.setDie d x).measure = s.measure := rfl
@[simp] theorem setDie_health (d : Nat) (x : Die) : (s.setDie d x).health = s.health := rfl
@[simp] theorem setDie_hclass (d : Nat) (x : Die) : (s.setDie d x).hclass = s.hclass := rfl
@[simp] theorem setDie_hbmMap (d : Nat) (x : Die) : (s.setDie d x).hbmMap = s.hbmMap := rfl
@[simp] theorem setDie_swaps (d : Nat) (x : Die) : (s.setDie d x).swaps = s.swaps := rfl
@[simp] theorem setDie_hot (d : Nat) (x : Die) : (s.setDie d x).hot = s.hot := rfl
@[simp] theorem setDie_swapping (d : Nat) (x : Die) : (s.setDie d x).swapping = s.swapping := rfl
@[simp] theorem setDie_busyTill (d : Nat) (x : Die) : (s.setDie d x).busyTill = s.busyTill := rfl
@[simp] theorem setDie_pchan (d : Nat) (x : Die) : (s.setDie d x).pchan = s.pchan := rfl
@[simp] theorem setDie_pchanUsed (d : Nat) (x : Die) : (s.setDie d x).pchanUsed = s.pchanUsed := rfl
@[simp] theorem setDie_retrains (d : Nat) (x : Die) : (s.setDie d x).retrains = s.retrains := rfl
@[simp] theorem setDie_retrainWait (d : Nat) (x : Die) : (s.setDie d x).retrainWait = s.retrainWait := rfl
@[simp] theorem setDie_hostRead (d : Nat) (x : Die) : (s.setDie d x).hostRead = s.hostRead := rfl
theorem setDie_dies (d : Nat) (x : Die) : (s.setDie d x).dies = tset s.dies d x := rfl
/-! ### setPart -/
@[simp] theorem setPart_clk (p : Nat) (x : Part) : (s.setPart p x).clk = s.clk := rfl
@[simp] theorem setPart_cur (p : Nat) (x : Part) : (s.setPart p x).cur = s.cur := rfl
@[simp] theorem setPart_issue (p : Nat) (x : Part) : (s.setPart p x).issue = s.issue := rfl
@[simp] theorem setPart_powered (p : Nat) (x : Part) : (s.setPart p x).powered = s.powered := rfl
@[simp] theorem setPart_fresh (p : Nat) (x : Part) : (s.setPart p x).fresh = s.fresh := rfl
@[simp] theorem setPart_nextId (p : Nat) (x : Part) : (s.setPart p x).nextId = s.nextId := rfl
@[simp] theorem setPart_mem (p : Nat) (x : Part) : (s.setPart p x).mem = s.mem := rfl
@[simp] theorem setPart_badWords (p : Nat) (x : Part) : (s.setPart p x).badWords = s.badWords := rfl
@[simp] theorem setPart_softWords (p : Nat) (x : Part) : (s.setPart p x).softWords = s.softWords := rfl
@[simp] theorem setPart_cores (p : Nat) (x : Part) : (s.setPart p x).cores = s.cores := rfl
@[simp] theorem setPart_quads (p : Nat) (x : Part) : (s.setPart p x).quads = s.quads := rfl
@[simp] theorem setPart_dies (p : Nat) (x : Part) : (s.setPart p x).dies = s.dies := rfl
@[simp] theorem setPart_gens (p : Nat) (x : Part) : (s.setPart p x).gens = s.gens := rfl
@[simp] theorem setPart_reqs (p : Nat) (x : Part) : (s.setPart p x).reqs = s.reqs := rfl
@[simp] theorem setPart_agenda (p : Nat) (x : Part) : (s.setPart p x).agenda = s.agenda := rfl
@[simp] theorem setPart_frame (p : Nat) (x : Part) : (s.setPart p x).frame = s.frame := rfl
@[simp] theorem setPart_tick (p : Nat) (x : Part) : (s.setPart p x).tick = s.tick := rfl
@[simp] theorem setPart_frameTicks (p : Nat) (x : Part) : (s.setPart p x).frameTicks = s.frameTicks := rfl
@[simp] theorem setPart_frameTicksNew (p : Nat) (x : Part) : (s.setPart p x).frameTicksNew = s.frameTicksNew := rfl
@[simp] theorem setPart_locked (p : Nat) (x : Part) : (s.setPart p x).locked = s.locked := rfl
@[simp] theorem setPart_slew (p : Nat) (x : Part) : (s.setPart p x).slew = s.slew := rfl
@[simp] theorem setPart_sinceSlew (p : Nat) (x : Part) : (s.setPart p x).sinceSlew = s.sinceSlew := rfl
@[simp] theorem setPart_slices (p : Nat) (x : Part) : (s.setPart p x).slices = s.slices := rfl
@[simp] theorem setPart_sliceClamp (p : Nat) (x : Part) : (s.setPart p x).sliceClamp = s.sliceClamp := rfl
@[simp] theorem setPart_svcfg (p : Nat) (x : Part) : (s.setPart p x).svcfg = s.svcfg := rfl
@[simp] theorem setPart_svqBase (p : Nat) (x : Part) : (s.setPart p x).svqBase = s.svqBase := rfl
@[simp] theorem setPart_svqTail (p : Nat) (x : Part) : (s.setPart p x).svqTail = s.svqTail := rfl
@[simp] theorem setPart_svqHead (p : Nat) (x : Part) : (s.setPart p x).svqHead = s.svqHead := rfl
@[simp] theorem setPart_parties (p : Nat) (x : Part) : (s.setPart p x).parties = s.parties := rfl
@[simp] theorem setPart_devError (p : Nat) (x : Part) : (s.setPart p x).devError = s.devError := rfl
@[simp] theorem setPart_devStage (p : Nat) (x : Part) : (s.setPart p x).devStage = s.devStage := rfl
@[simp] theorem setPart_ready (p : Nat) (x : Part) : (s.setPart p x).ready = s.ready := rfl
@[simp] theorem setPart_packets (p : Nat) (x : Part) : (s.setPart p x).packets = s.packets := rfl
@[simp] theorem setPart_lcOverrun (p : Nat) (x : Part) : (s.setPart p x).lcOverrun = s.lcOverrun := rfl
@[simp] theorem setPart_launches (p : Nat) (x : Part) : (s.setPart p x).launches = s.launches := rfl
@[simp] theorem setPart_owed (p : Nat) (x : Part) : (s.setPart p x).owed = s.owed := rfl
@[simp] theorem setPart_poolbase (p : Nat) (x : Part) : (s.setPart p x).poolbase = s.poolbase := rfl
@[simp] theorem setPart_keepcfg (p : Nat) (x : Part) : (s.setPart p x).keepcfg = s.keepcfg := rfl
@[simp] theorem setPart_keepNext (p : Nat) (x : Part) : (s.setPart p x).keepNext = s.keepNext := rfl
@[simp] theorem setPart_throttled (p : Nat) (x : Part) : (s.setPart p x).throttled = s.throttled := rfl
@[simp] theorem setPart_windows (p : Nat) (x : Part) : (s.setPart p x).windows = s.windows := rfl
@[simp] theorem setPart_demand (p : Nat) (x : Part) : (s.setPart p x).demand = s.demand := rfl
@[simp] theorem setPart_granted (p : Nat) (x : Part) : (s.setPart p x).granted = s.granted := rfl
@[simp] theorem setPart_grants (p : Nat) (x : Part) : (s.setPart p x).grants = s.grants := rfl
@[simp] theorem setPart_mboxDetail (p : Nat) (x : Part) : (s.setPart p x).mboxDetail = s.mboxDetail := rfl
@[simp] theorem setPart_mboxOp (p : Nat) (x : Part) : (s.setPart p x).mboxOp = s.mboxOp := rfl
@[simp] theorem setPart_mboxOverrun (p : Nat) (x : Part) : (s.setPart p x).mboxOverrun = s.mboxOverrun := rfl
@[simp] theorem setPart_mboxState (p : Nat) (x : Part) : (s.setPart p x).mboxState = s.mboxState := rfl
@[simp] theorem setPart_mboxNext (p : Nat) (x : Part) : (s.setPart p x).mboxNext = s.mboxNext := rfl
@[simp] theorem setPart_podSize (p : Nat) (x : Part) : (s.setPart p x).podSize = s.podSize := rfl
@[simp] theorem setPart_podIndex (p : Nat) (x : Part) : (s.setPart p x).podIndex = s.podIndex := rfl
@[simp] theorem setPart_podMiss (p : Nat) (x : Part) : (s.setPart p x).podMiss = s.podMiss := rfl
@[simp] theorem setPart_podTable (p : Nat) (x : Part) : (s.setPart p x).podTable = s.podTable := rfl
@[simp] theorem setPart_podDomain (p : Nat) (x : Part) : (s.setPart p x).podDomain = s.podDomain := rfl
@[simp] theorem setPart_loadw (p : Nat) (x : Part) : (s.setPart p x).loadw = s.loadw := rfl
@[simp] theorem setPart_portOut (p : Nat) (x : Part) : (s.setPart p x).portOut = s.portOut := rfl
@[simp] theorem setPart_loadDone (p : Nat) (x : Part) : (s.setPart p x).loadDone = s.loadDone := rfl
@[simp] theorem setPart_fwActive (p : Nat) (x : Part) : (s.setPart p x).fwActive = s.fwActive := rfl
@[simp] theorem setPart_fwStaged (p : Nat) (x : Part) : (s.setPart p x).fwStaged = s.fwStaged := rfl
@[simp] theorem setPart_fwSlots (p : Nat) (x : Part) : (s.setPart p x).fwSlots = s.fwSlots := rfl
@[simp] theorem setPart_fwLowest (p : Nat) (x : Part) : (s.setPart p x).fwLowest = s.fwLowest := rfl
@[simp] theorem setPart_lanes (p : Nat) (x : Part) : (s.setPart p x).lanes = s.lanes := rfl
@[simp] theorem setPart_portUp (p : Nat) (x : Part) : (s.setPart p x).portUp = s.portUp := rfl
@[simp] theorem setPart_measure (p : Nat) (x : Part) : (s.setPart p x).measure = s.measure := rfl
@[simp] theorem setPart_health (p : Nat) (x : Part) : (s.setPart p x).health = s.health := rfl
@[simp] theorem setPart_hclass (p : Nat) (x : Part) : (s.setPart p x).hclass = s.hclass := rfl
@[simp] theorem setPart_hbmMap (p : Nat) (x : Part) : (s.setPart p x).hbmMap = s.hbmMap := rfl
@[simp] theorem setPart_swaps (p : Nat) (x : Part) : (s.setPart p x).swaps = s.swaps := rfl
@[simp] theorem setPart_hot (p : Nat) (x : Part) : (s.setPart p x).hot = s.hot := rfl
@[simp] theorem setPart_swapping (p : Nat) (x : Part) : (s.setPart p x).swapping = s.swapping := rfl
@[simp] theorem setPart_busyTill (p : Nat) (x : Part) : (s.setPart p x).busyTill = s.busyTill := rfl
@[simp] theorem setPart_pchan (p : Nat) (x : Part) : (s.setPart p x).pchan = s.pchan := rfl
@[simp] theorem setPart_pchanUsed (p : Nat) (x : Part) : (s.setPart p x).pchanUsed = s.pchanUsed := rfl
@[simp] theorem setPart_retrains (p : Nat) (x : Part) : (s.setPart p x).retrains = s.retrains := rfl
@[simp] theorem setPart_retrainWait (p : Nat) (x : Part) : (s.setPart p x).retrainWait = s.retrainWait := rfl
@[simp] theorem setPart_hostRead (p : Nat) (x : Part) : (s.setPart p x).hostRead = s.hostRead := rfl
theorem setPart_parts (p : Nat) (x : Part) : (s.setPart p x).parts = tset s.parts p x := rfl
/-! ### schedule -/
@[simp] theorem schedule_clk (dt : Nat) (i : Instr) : (s.schedule dt i).clk = s.clk := rfl
@[simp] theorem schedule_cur (dt : Nat) (i : Instr) : (s.schedule dt i).cur = s.cur := rfl
@[simp] theorem schedule_issue (dt : Nat) (i : Instr) : (s.schedule dt i).issue = s.issue := rfl
@[simp] theorem schedule_powered (dt : Nat) (i : Instr) : (s.schedule dt i).powered = s.powered := rfl
@[simp] theorem schedule_fresh (dt : Nat) (i : Instr) : (s.schedule dt i).fresh = s.fresh := rfl
@[simp] theorem schedule_nextId (dt : Nat) (i : Instr) : (s.schedule dt i).nextId = s.nextId := rfl
@[simp] theorem schedule_mem (dt : Nat) (i : Instr) : (s.schedule dt i).mem = s.mem := rfl
@[simp] theorem schedule_badWords (dt : Nat) (i : Instr) : (s.schedule dt i).badWords = s.badWords := rfl
@[simp] theorem schedule_softWords (dt : Nat) (i : Instr) : (s.schedule dt i).softWords = s.softWords := rfl
@[simp] theorem schedule_cores (dt : Nat) (i : Instr) : (s.schedule dt i).cores = s.cores := rfl
@[simp] theorem schedule_quads (dt : Nat) (i : Instr) : (s.schedule dt i).quads = s.quads := rfl
@[simp] theorem schedule_dies (dt : Nat) (i : Instr) : (s.schedule dt i).dies = s.dies := rfl
@[simp] theorem schedule_parts (dt : Nat) (i : Instr) : (s.schedule dt i).parts = s.parts := rfl
@[simp] theorem schedule_gens (dt : Nat) (i : Instr) : (s.schedule dt i).gens = s.gens := rfl
@[simp] theorem schedule_reqs (dt : Nat) (i : Instr) : (s.schedule dt i).reqs = s.reqs := rfl
@[simp] theorem schedule_frame (dt : Nat) (i : Instr) : (s.schedule dt i).frame = s.frame := rfl
@[simp] theorem schedule_tick (dt : Nat) (i : Instr) : (s.schedule dt i).tick = s.tick := rfl
@[simp] theorem schedule_frameTicks (dt : Nat) (i : Instr) : (s.schedule dt i).frameTicks = s.frameTicks := rfl
@[simp] theorem schedule_frameTicksNew (dt : Nat) (i : Instr) : (s.schedule dt i).frameTicksNew = s.frameTicksNew := rfl
@[simp] theorem schedule_locked (dt : Nat) (i : Instr) : (s.schedule dt i).locked = s.locked := rfl
@[simp] theorem schedule_slew (dt : Nat) (i : Instr) : (s.schedule dt i).slew = s.slew := rfl
@[simp] theorem schedule_sinceSlew (dt : Nat) (i : Instr) : (s.schedule dt i).sinceSlew = s.sinceSlew := rfl
@[simp] theorem schedule_slices (dt : Nat) (i : Instr) : (s.schedule dt i).slices = s.slices := rfl
@[simp] theorem schedule_sliceClamp (dt : Nat) (i : Instr) : (s.schedule dt i).sliceClamp = s.sliceClamp := rfl
@[simp] theorem schedule_svcfg (dt : Nat) (i : Instr) : (s.schedule dt i).svcfg = s.svcfg := rfl
@[simp] theorem schedule_svqBase (dt : Nat) (i : Instr) : (s.schedule dt i).svqBase = s.svqBase := rfl
@[simp] theorem schedule_svqTail (dt : Nat) (i : Instr) : (s.schedule dt i).svqTail = s.svqTail := rfl
@[simp] theorem schedule_svqHead (dt : Nat) (i : Instr) : (s.schedule dt i).svqHead = s.svqHead := rfl
@[simp] theorem schedule_parties (dt : Nat) (i : Instr) : (s.schedule dt i).parties = s.parties := rfl
@[simp] theorem schedule_devError (dt : Nat) (i : Instr) : (s.schedule dt i).devError = s.devError := rfl
@[simp] theorem schedule_devStage (dt : Nat) (i : Instr) : (s.schedule dt i).devStage = s.devStage := rfl
@[simp] theorem schedule_ready (dt : Nat) (i : Instr) : (s.schedule dt i).ready = s.ready := rfl
@[simp] theorem schedule_packets (dt : Nat) (i : Instr) : (s.schedule dt i).packets = s.packets := rfl
@[simp] theorem schedule_lcOverrun (dt : Nat) (i : Instr) : (s.schedule dt i).lcOverrun = s.lcOverrun := rfl
@[simp] theorem schedule_launches (dt : Nat) (i : Instr) : (s.schedule dt i).launches = s.launches := rfl
@[simp] theorem schedule_owed (dt : Nat) (i : Instr) : (s.schedule dt i).owed = s.owed := rfl
@[simp] theorem schedule_poolbase (dt : Nat) (i : Instr) : (s.schedule dt i).poolbase = s.poolbase := rfl
@[simp] theorem schedule_keepcfg (dt : Nat) (i : Instr) : (s.schedule dt i).keepcfg = s.keepcfg := rfl
@[simp] theorem schedule_keepNext (dt : Nat) (i : Instr) : (s.schedule dt i).keepNext = s.keepNext := rfl
@[simp] theorem schedule_throttled (dt : Nat) (i : Instr) : (s.schedule dt i).throttled = s.throttled := rfl
@[simp] theorem schedule_windows (dt : Nat) (i : Instr) : (s.schedule dt i).windows = s.windows := rfl
@[simp] theorem schedule_demand (dt : Nat) (i : Instr) : (s.schedule dt i).demand = s.demand := rfl
@[simp] theorem schedule_granted (dt : Nat) (i : Instr) : (s.schedule dt i).granted = s.granted := rfl
@[simp] theorem schedule_grants (dt : Nat) (i : Instr) : (s.schedule dt i).grants = s.grants := rfl
@[simp] theorem schedule_mboxDetail (dt : Nat) (i : Instr) : (s.schedule dt i).mboxDetail = s.mboxDetail := rfl
@[simp] theorem schedule_mboxOp (dt : Nat) (i : Instr) : (s.schedule dt i).mboxOp = s.mboxOp := rfl
@[simp] theorem schedule_mboxOverrun (dt : Nat) (i : Instr) : (s.schedule dt i).mboxOverrun = s.mboxOverrun := rfl
@[simp] theorem schedule_mboxState (dt : Nat) (i : Instr) : (s.schedule dt i).mboxState = s.mboxState := rfl
@[simp] theorem schedule_mboxNext (dt : Nat) (i : Instr) : (s.schedule dt i).mboxNext = s.mboxNext := rfl
@[simp] theorem schedule_podSize (dt : Nat) (i : Instr) : (s.schedule dt i).podSize = s.podSize := rfl
@[simp] theorem schedule_podIndex (dt : Nat) (i : Instr) : (s.schedule dt i).podIndex = s.podIndex := rfl
@[simp] theorem schedule_podMiss (dt : Nat) (i : Instr) : (s.schedule dt i).podMiss = s.podMiss := rfl
@[simp] theorem schedule_podTable (dt : Nat) (i : Instr) : (s.schedule dt i).podTable = s.podTable := rfl
@[simp] theorem schedule_podDomain (dt : Nat) (i : Instr) : (s.schedule dt i).podDomain = s.podDomain := rfl
@[simp] theorem schedule_loadw (dt : Nat) (i : Instr) : (s.schedule dt i).loadw = s.loadw := rfl
@[simp] theorem schedule_portOut (dt : Nat) (i : Instr) : (s.schedule dt i).portOut = s.portOut := rfl
@[simp] theorem schedule_loadDone (dt : Nat) (i : Instr) : (s.schedule dt i).loadDone = s.loadDone := rfl
@[simp] theorem schedule_fwActive (dt : Nat) (i : Instr) : (s.schedule dt i).fwActive = s.fwActive := rfl
@[simp] theorem schedule_fwStaged (dt : Nat) (i : Instr) : (s.schedule dt i).fwStaged = s.fwStaged := rfl
@[simp] theorem schedule_fwSlots (dt : Nat) (i : Instr) : (s.schedule dt i).fwSlots = s.fwSlots := rfl
@[simp] theorem schedule_fwLowest (dt : Nat) (i : Instr) : (s.schedule dt i).fwLowest = s.fwLowest := rfl
@[simp] theorem schedule_lanes (dt : Nat) (i : Instr) : (s.schedule dt i).lanes = s.lanes := rfl
@[simp] theorem schedule_portUp (dt : Nat) (i : Instr) : (s.schedule dt i).portUp = s.portUp := rfl
@[simp] theorem schedule_measure (dt : Nat) (i : Instr) : (s.schedule dt i).measure = s.measure := rfl
@[simp] theorem schedule_health (dt : Nat) (i : Instr) : (s.schedule dt i).health = s.health := rfl
@[simp] theorem schedule_hclass (dt : Nat) (i : Instr) : (s.schedule dt i).hclass = s.hclass := rfl
@[simp] theorem schedule_hbmMap (dt : Nat) (i : Instr) : (s.schedule dt i).hbmMap = s.hbmMap := rfl
@[simp] theorem schedule_swaps (dt : Nat) (i : Instr) : (s.schedule dt i).swaps = s.swaps := rfl
@[simp] theorem schedule_hot (dt : Nat) (i : Instr) : (s.schedule dt i).hot = s.hot := rfl
@[simp] theorem schedule_swapping (dt : Nat) (i : Instr) : (s.schedule dt i).swapping = s.swapping := rfl
@[simp] theorem schedule_busyTill (dt : Nat) (i : Instr) : (s.schedule dt i).busyTill = s.busyTill := rfl
@[simp] theorem schedule_pchan (dt : Nat) (i : Instr) : (s.schedule dt i).pchan = s.pchan := rfl
@[simp] theorem schedule_pchanUsed (dt : Nat) (i : Instr) : (s.schedule dt i).pchanUsed = s.pchanUsed := rfl
@[simp] theorem schedule_retrains (dt : Nat) (i : Instr) : (s.schedule dt i).retrains = s.retrains := rfl
@[simp] theorem schedule_retrainWait (dt : Nat) (i : Instr) : (s.schedule dt i).retrainWait = s.retrainWait := rfl
@[simp] theorem schedule_hostRead (dt : Nat) (i : Instr) : (s.schedule dt i).hostRead = s.hostRead := rfl
theorem schedule_agenda (dt : Nat) (i : Instr) : (s.schedule dt i).agenda = agendaPlace (s.before i) s.agenda (s.clk + dt) i := rfl
/-! ### mark -/
@[simp] theorem mark_clk (v : Issue) : (s.mark v).clk = s.clk := rfl
@[simp] theorem mark_cur (v : Issue) : (s.mark v).cur = s.cur := rfl
@[simp] theorem mark_powered (v : Issue) : (s.mark v).powered = s.powered := rfl
@[simp] theorem mark_fresh (v : Issue) : (s.mark v).fresh = s.fresh := rfl
@[simp] theorem mark_nextId (v : Issue) : (s.mark v).nextId = s.nextId := rfl
@[simp] theorem mark_mem (v : Issue) : (s.mark v).mem = s.mem := rfl
@[simp] theorem mark_badWords (v : Issue) : (s.mark v).badWords = s.badWords := rfl
@[simp] theorem mark_softWords (v : Issue) : (s.mark v).softWords = s.softWords := rfl
@[simp] theorem mark_cores (v : Issue) : (s.mark v).cores = s.cores := rfl
@[simp] theorem mark_quads (v : Issue) : (s.mark v).quads = s.quads := rfl
@[simp] theorem mark_dies (v : Issue) : (s.mark v).dies = s.dies := rfl
@[simp] theorem mark_parts (v : Issue) : (s.mark v).parts = s.parts := rfl
@[simp] theorem mark_gens (v : Issue) : (s.mark v).gens = s.gens := rfl
@[simp] theorem mark_reqs (v : Issue) : (s.mark v).reqs = s.reqs := rfl
@[simp] theorem mark_agenda (v : Issue) : (s.mark v).agenda = s.agenda := rfl
@[simp] theorem mark_frame (v : Issue) : (s.mark v).frame = s.frame := rfl
@[simp] theorem mark_tick (v : Issue) : (s.mark v).tick = s.tick := rfl
@[simp] theorem mark_frameTicks (v : Issue) : (s.mark v).frameTicks = s.frameTicks := rfl
@[simp] theorem mark_frameTicksNew (v : Issue) : (s.mark v).frameTicksNew = s.frameTicksNew := rfl
@[simp] theorem mark_locked (v : Issue) : (s.mark v).locked = s.locked := rfl
@[simp] theorem mark_slew (v : Issue) : (s.mark v).slew = s.slew := rfl
@[simp] theorem mark_sinceSlew (v : Issue) : (s.mark v).sinceSlew = s.sinceSlew := rfl
@[simp] theorem mark_slices (v : Issue) : (s.mark v).slices = s.slices := rfl
@[simp] theorem mark_sliceClamp (v : Issue) : (s.mark v).sliceClamp = s.sliceClamp := rfl
@[simp] theorem mark_svcfg (v : Issue) : (s.mark v).svcfg = s.svcfg := rfl
@[simp] theorem mark_svqBase (v : Issue) : (s.mark v).svqBase = s.svqBase := rfl
@[simp] theorem mark_svqTail (v : Issue) : (s.mark v).svqTail = s.svqTail := rfl
@[simp] theorem mark_svqHead (v : Issue) : (s.mark v).svqHead = s.svqHead := rfl
@[simp] theorem mark_parties (v : Issue) : (s.mark v).parties = s.parties := rfl
@[simp] theorem mark_devError (v : Issue) : (s.mark v).devError = s.devError := rfl
@[simp] theorem mark_devStage (v : Issue) : (s.mark v).devStage = s.devStage := rfl
@[simp] theorem mark_ready (v : Issue) : (s.mark v).ready = s.ready := rfl
@[simp] theorem mark_packets (v : Issue) : (s.mark v).packets = s.packets := rfl
@[simp] theorem mark_lcOverrun (v : Issue) : (s.mark v).lcOverrun = s.lcOverrun := rfl
@[simp] theorem mark_launches (v : Issue) : (s.mark v).launches = s.launches := rfl
@[simp] theorem mark_owed (v : Issue) : (s.mark v).owed = s.owed := rfl
@[simp] theorem mark_poolbase (v : Issue) : (s.mark v).poolbase = s.poolbase := rfl
@[simp] theorem mark_keepcfg (v : Issue) : (s.mark v).keepcfg = s.keepcfg := rfl
@[simp] theorem mark_keepNext (v : Issue) : (s.mark v).keepNext = s.keepNext := rfl
@[simp] theorem mark_throttled (v : Issue) : (s.mark v).throttled = s.throttled := rfl
@[simp] theorem mark_windows (v : Issue) : (s.mark v).windows = s.windows := rfl
@[simp] theorem mark_demand (v : Issue) : (s.mark v).demand = s.demand := rfl
@[simp] theorem mark_granted (v : Issue) : (s.mark v).granted = s.granted := rfl
@[simp] theorem mark_grants (v : Issue) : (s.mark v).grants = s.grants := rfl
@[simp] theorem mark_mboxDetail (v : Issue) : (s.mark v).mboxDetail = s.mboxDetail := rfl
@[simp] theorem mark_mboxOp (v : Issue) : (s.mark v).mboxOp = s.mboxOp := rfl
@[simp] theorem mark_mboxOverrun (v : Issue) : (s.mark v).mboxOverrun = s.mboxOverrun := rfl
@[simp] theorem mark_mboxState (v : Issue) : (s.mark v).mboxState = s.mboxState := rfl
@[simp] theorem mark_mboxNext (v : Issue) : (s.mark v).mboxNext = s.mboxNext := rfl
@[simp] theorem mark_podSize (v : Issue) : (s.mark v).podSize = s.podSize := rfl
@[simp] theorem mark_podIndex (v : Issue) : (s.mark v).podIndex = s.podIndex := rfl
@[simp] theorem mark_podMiss (v : Issue) : (s.mark v).podMiss = s.podMiss := rfl
@[simp] theorem mark_podTable (v : Issue) : (s.mark v).podTable = s.podTable := rfl
@[simp] theorem mark_podDomain (v : Issue) : (s.mark v).podDomain = s.podDomain := rfl
@[simp] theorem mark_loadw (v : Issue) : (s.mark v).loadw = s.loadw := rfl
@[simp] theorem mark_portOut (v : Issue) : (s.mark v).portOut = s.portOut := rfl
@[simp] theorem mark_loadDone (v : Issue) : (s.mark v).loadDone = s.loadDone := rfl
@[simp] theorem mark_fwActive (v : Issue) : (s.mark v).fwActive = s.fwActive := rfl
@[simp] theorem mark_fwStaged (v : Issue) : (s.mark v).fwStaged = s.fwStaged := rfl
@[simp] theorem mark_fwSlots (v : Issue) : (s.mark v).fwSlots = s.fwSlots := rfl
@[simp] theorem mark_fwLowest (v : Issue) : (s.mark v).fwLowest = s.fwLowest := rfl
@[simp] theorem mark_lanes (v : Issue) : (s.mark v).lanes = s.lanes := rfl
@[simp] theorem mark_portUp (v : Issue) : (s.mark v).portUp = s.portUp := rfl
@[simp] theorem mark_measure (v : Issue) : (s.mark v).measure = s.measure := rfl
@[simp] theorem mark_health (v : Issue) : (s.mark v).health = s.health := rfl
@[simp] theorem mark_hclass (v : Issue) : (s.mark v).hclass = s.hclass := rfl
@[simp] theorem mark_hbmMap (v : Issue) : (s.mark v).hbmMap = s.hbmMap := rfl
@[simp] theorem mark_swaps (v : Issue) : (s.mark v).swaps = s.swaps := rfl
@[simp] theorem mark_hot (v : Issue) : (s.mark v).hot = s.hot := rfl
@[simp] theorem mark_swapping (v : Issue) : (s.mark v).swapping = s.swapping := rfl
@[simp] theorem mark_busyTill (v : Issue) : (s.mark v).busyTill = s.busyTill := rfl
@[simp] theorem mark_pchan (v : Issue) : (s.mark v).pchan = s.pchan := rfl
@[simp] theorem mark_pchanUsed (v : Issue) : (s.mark v).pchanUsed = s.pchanUsed := rfl
@[simp] theorem mark_retrains (v : Issue) : (s.mark v).retrains = s.retrains := rfl
@[simp] theorem mark_retrainWait (v : Issue) : (s.mark v).retrainWait = s.retrainWait := rfl
@[simp] theorem mark_hostRead (v : Issue) : (s.mark v).hostRead = s.hostRead := rfl
@[simp] theorem mark_issue (v : Issue) : (s.mark v).issue = v := rfl
@[simp] theorem core_mark (v : Issue) (j : Nat) : (s.mark v).core j = s.core j := rfl
@[simp] theorem quad_mark (v : Issue) (j : Nat) : (s.mark v).quad j = s.quad j := rfl
@[simp] theorem die_mark (v : Issue) (j : Nat) : (s.mark v).die j = s.die j := rfl
@[simp] theorem part_mark (v : Issue) (j : Nat) : (s.mark v).part j = s.part j := rfl
@[simp] theorem me_mark (v : Issue) : (s.mark v).me = s.me := rfl
/-! ### Accessors -/
@[simp] theorem core_setCore_same (c : Nat) (k : Core) : (s.setCore c k).core c = k := by simp [core, setCore]
theorem core_setCore_other {c j : Nat} (k : Core) (h : c ≠ j) : (s.setCore c k).core j = s.core j := by
  simp [core, setCore, tgetD_tset_other _ _ _ h]
theorem core_setCore (c j : Nat) (k : Core) : (s.setCore c k).core j = if c = j then k else s.core j := by
  simp [core, setCore, tgetD_tset]
@[simp] theorem core_setQuad (j q : Nat) (x : Quad) : (s.setQuad q x).core j = s.core j := rfl
@[simp] theorem core_setDie (j d : Nat) (x : Die) : (s.setDie d x).core j = s.core j := rfl
@[simp] theorem core_setPart (j p : Nat) (x : Part) : (s.setPart p x).core j = s.core j := rfl
@[simp] theorem core_schedule (j dt : Nat) (i : Instr) : (s.schedule dt i).core j = s.core j := rfl
@[simp] theorem quad_setQuad_same (q : Nat) (x : Quad) : (s.setQuad q x).quad q = x := by simp [quad, setQuad]
theorem quad_setQuad_other {q j : Nat} (x : Quad) (h : q ≠ j) : (s.setQuad q x).quad j = s.quad j := by
  simp [quad, setQuad, tgetD_tset_other _ _ _ h]
theorem quad_setQuad (q j : Nat) (x : Quad) : (s.setQuad q x).quad j = if q = j then x else s.quad j := by
  simp [quad, setQuad, tgetD_tset]
@[simp] theorem quad_setCore (j c : Nat) (k : Core) : (s.setCore c k).quad j = s.quad j := rfl
@[simp] theorem quad_setDie (j d : Nat) (x : Die) : (s.setDie d x).quad j = s.quad j := rfl
@[simp] theorem quad_setPart (j p : Nat) (x : Part) : (s.setPart p x).quad j = s.quad j := rfl
@[simp] theorem quad_schedule (j dt : Nat) (i : Instr) : (s.schedule dt i).quad j = s.quad j := rfl
@[simp] theorem die_setDie_same (d : Nat) (x : Die) : (s.setDie d x).die d = x := by simp [die, setDie]
theorem die_setDie_other {d j : Nat} (x : Die) (h : d ≠ j) : (s.setDie d x).die j = s.die j := by
  simp [die, setDie, tgetD_tset_other _ _ _ h]
theorem die_setDie (d j : Nat) (x : Die) : (s.setDie d x).die j = if d = j then x else s.die j := by
  simp [die, setDie, tgetD_tset]
@[simp] theorem die_setCore (j c : Nat) (k : Core) : (s.setCore c k).die j = s.die j := rfl
@[simp] theorem die_setQuad (j q : Nat) (x : Quad) : (s.setQuad q x).die j = s.die j := rfl
@[simp] theorem die_setPart (j p : Nat) (x : Part) : (s.setPart p x).die j = s.die j := rfl
@[simp] theorem die_schedule (j dt : Nat) (i : Instr) : (s.schedule dt i).die j = s.die j := rfl
@[simp] theorem part_setPart_same (p : Nat) (x : Part) : (s.setPart p x).part p = x := by simp [part, setPart]
theorem part_setPart_other {p j : Nat} (x : Part) (h : p ≠ j) : (s.setPart p x).part j = s.part j := by
  simp [part, setPart, tgetD_tset_other _ _ _ h]
theorem part_setPart (p j : Nat) (x : Part) : (s.setPart p x).part j = if p = j then x else s.part j := by
  simp [part, setPart, tgetD_tset]
@[simp] theorem part_setCore (j c : Nat) (k : Core) : (s.setCore c k).part j = s.part j := rfl
@[simp] theorem part_setQuad (j q : Nat) (x : Quad) : (s.setQuad q x).part j = s.part j := rfl
@[simp] theorem part_setDie (j d : Nat) (x : Die) : (s.setDie d x).part j = s.part j := rfl
@[simp] theorem part_schedule (j dt : Nat) (i : Instr) : (s.schedule dt i).part j = s.part j := rfl
@[simp] theorem me_setCore (k : Core) : (s.setCore s.cur k).me = k := by simp [me]
theorem me_eq : s.me = s.core s.cur := rfl
@[simp] theorem setCore_me_self (c : Nat) (k : Core) (h : s.cur = c) : (s.setCore c k).me = k := by subst h; simp

/-! ### Record updates of single fields -/

@[simp] theorem me_setQuad (q : Nat) (x : Quad) : (s.setQuad q x).me = s.me := rfl
@[simp] theorem me_setDie (d : Nat) (x : Die) : (s.setDie d x).me = s.me := rfl
@[simp] theorem me_setPart (p : Nat) (x : Part) : (s.setPart p x).me = s.me := rfl
@[simp] theorem me_schedule (dt : Nat) (i : Instr) : (s.schedule dt i).me = s.me := rfl
@[simp] theorem me_newId : s.newId.2.me = s.me := rfl
@[simp] theorem me_newSeed : s.newSeed.2.me = s.me := rfl
@[simp] theorem me_addReq (r : Req) : (s.addReq r).2.me = s.me := rfl
@[simp] theorem core_with_issue (v : Issue) (j : Nat) : State.core { s with issue := v } j = s.core j := rfl
@[simp] theorem quad_with_issue (v : Issue) (j : Nat) : State.quad { s with issue := v } j = s.quad j := rfl
@[simp] theorem die_with_issue (v : Issue) (j : Nat) : State.die { s with issue := v } j = s.die j := rfl
@[simp] theorem part_with_issue (v : Issue) (j : Nat) : State.part { s with issue := v } j = s.part j := rfl
@[simp] theorem core_with_fresh (v : Nat) (j : Nat) : State.core { s with fresh := v } j = s.core j := rfl
@[simp] theorem quad_with_fresh (v : Nat) (j : Nat) : State.quad { s with fresh := v } j = s.quad j := rfl
@[simp] theorem die_with_fresh (v : Nat) (j : Nat) : State.die { s with fresh := v } j = s.die j := rfl
@[simp] theorem part_with_fresh (v : Nat) (j : Nat) : State.part { s with fresh := v } j = s.part j := rfl
@[simp] theorem core_with_nextId (v : Nat) (j : Nat) : State.core { s with nextId := v } j = s.core j := rfl
@[simp] theorem quad_with_nextId (v : Nat) (j : Nat) : State.quad { s with nextId := v } j = s.quad j := rfl
@[simp] theorem die_with_nextId (v : Nat) (j : Nat) : State.die { s with nextId := v } j = s.die j := rfl
@[simp] theorem part_with_nextId (v : Nat) (j : Nat) : State.part { s with nextId := v } j = s.part j := rfl
@[simp] theorem core_with_mem (v : Tbl Byte) (j : Nat) : State.core { s with mem := v } j = s.core j := rfl
@[simp] theorem quad_with_mem (v : Tbl Byte) (j : Nat) : State.quad { s with mem := v } j = s.quad j := rfl
@[simp] theorem die_with_mem (v : Tbl Byte) (j : Nat) : State.die { s with mem := v } j = s.die j := rfl
@[simp] theorem part_with_mem (v : Tbl Byte) (j : Nat) : State.part { s with mem := v } j = s.part j := rfl
@[simp] theorem core_with_agenda (v : List (Nat × Instr)) (j : Nat) : State.core { s with agenda := v } j = s.core j := rfl
@[simp] theorem quad_with_agenda (v : List (Nat × Instr)) (j : Nat) : State.quad { s with agenda := v } j = s.quad j := rfl
@[simp] theorem die_with_agenda (v : List (Nat × Instr)) (j : Nat) : State.die { s with agenda := v } j = s.die j := rfl
@[simp] theorem part_with_agenda (v : List (Nat × Instr)) (j : Nat) : State.part { s with agenda := v } j = s.part j := rfl
@[simp] theorem core_with_reqs (v : Tbl Req) (j : Nat) : State.core { s with reqs := v } j = s.core j := rfl
@[simp] theorem quad_with_reqs (v : Tbl Req) (j : Nat) : State.quad { s with reqs := v } j = s.quad j := rfl
@[simp] theorem die_with_reqs (v : Tbl Req) (j : Nat) : State.die { s with reqs := v } j = s.die j := rfl
@[simp] theorem part_with_reqs (v : Tbl Req) (j : Nat) : State.part { s with reqs := v } j = s.part j := rfl
@[simp] theorem core_with_clk (v : Nat) (j : Nat) : State.core { s with clk := v } j = s.core j := rfl
@[simp] theorem quad_with_clk (v : Nat) (j : Nat) : State.quad { s with clk := v } j = s.quad j := rfl
@[simp] theorem die_with_clk (v : Nat) (j : Nat) : State.die { s with clk := v } j = s.die j := rfl
@[simp] theorem part_with_clk (v : Nat) (j : Nat) : State.part { s with clk := v } j = s.part j := rfl
@[simp] theorem core_with_cur (v : Nat) (j : Nat) : State.core { s with cur := v } j = s.core j := rfl
@[simp] theorem quad_with_cur (v : Nat) (j : Nat) : State.quad { s with cur := v } j = s.quad j := rfl
@[simp] theorem die_with_cur (v : Nat) (j : Nat) : State.die { s with cur := v } j = s.die j := rfl
@[simp] theorem part_with_cur (v : Nat) (j : Nat) : State.part { s with cur := v } j = s.part j := rfl

/-! ### Numbers, seeds, requests -/
@[simp] theorem newId_fst : s.newId.1 = s.nextId := rfl
@[simp] theorem newSeed_fst : s.newSeed.1 = s.fresh := rfl
@[simp] theorem addReq_fst (r : Req) : (s.addReq r).1 = s.nextId := rfl
@[simp] theorem newId_clk : s.newId.2.clk = s.clk := rfl
@[simp] theorem newSeed_clk : s.newSeed.2.clk = s.clk := rfl
@[simp] theorem addReq_clk (r : Req) : (s.addReq r).2.clk = s.clk := rfl
@[simp] theorem newId_cur : s.newId.2.cur = s.cur := rfl
@[simp] theorem newSeed_cur : s.newSeed.2.cur = s.cur := rfl
@[simp] theorem addReq_cur (r : Req) : (s.addReq r).2.cur = s.cur := rfl
@[simp] theorem newId_issue : s.newId.2.issue = s.issue := rfl
@[simp] theorem newSeed_issue : s.newSeed.2.issue = s.issue := rfl
@[simp] theorem addReq_issue (r : Req) : (s.addReq r).2.issue = s.issue := rfl
@[simp] theorem newId_powered : s.newId.2.powered = s.powered := rfl
@[simp] theorem newSeed_powered : s.newSeed.2.powered = s.powered := rfl
@[simp] theorem addReq_powered (r : Req) : (s.addReq r).2.powered = s.powered := rfl
@[simp] theorem newId_fresh : s.newId.2.fresh = s.fresh := rfl
@[simp] theorem addReq_fresh (r : Req) : (s.addReq r).2.fresh = s.fresh := rfl
@[simp] theorem newSeed_nextId : s.newSeed.2.nextId = s.nextId := rfl
@[simp] theorem newId_mem : s.newId.2.mem = s.mem := rfl
@[simp] theorem newSeed_mem : s.newSeed.2.mem = s.mem := rfl
@[simp] theorem addReq_mem (r : Req) : (s.addReq r).2.mem = s.mem := rfl
@[simp] theorem newId_badWords : s.newId.2.badWords = s.badWords := rfl
@[simp] theorem newSeed_badWords : s.newSeed.2.badWords = s.badWords := rfl
@[simp] theorem addReq_badWords (r : Req) : (s.addReq r).2.badWords = s.badWords := rfl
@[simp] theorem newId_softWords : s.newId.2.softWords = s.softWords := rfl
@[simp] theorem newSeed_softWords : s.newSeed.2.softWords = s.softWords := rfl
@[simp] theorem addReq_softWords (r : Req) : (s.addReq r).2.softWords = s.softWords := rfl
@[simp] theorem newId_cores : s.newId.2.cores = s.cores := rfl
@[simp] theorem newSeed_cores : s.newSeed.2.cores = s.cores := rfl
@[simp] theorem addReq_cores (r : Req) : (s.addReq r).2.cores = s.cores := rfl
@[simp] theorem newId_quads : s.newId.2.quads = s.quads := rfl
@[simp] theorem newSeed_quads : s.newSeed.2.quads = s.quads := rfl
@[simp] theorem addReq_quads (r : Req) : (s.addReq r).2.quads = s.quads := rfl
@[simp] theorem newId_dies : s.newId.2.dies = s.dies := rfl
@[simp] theorem newSeed_dies : s.newSeed.2.dies = s.dies := rfl
@[simp] theorem addReq_dies (r : Req) : (s.addReq r).2.dies = s.dies := rfl
@[simp] theorem newId_parts : s.newId.2.parts = s.parts := rfl
@[simp] theorem newSeed_parts : s.newSeed.2.parts = s.parts := rfl
@[simp] theorem addReq_parts (r : Req) : (s.addReq r).2.parts = s.parts := rfl
@[simp] theorem newId_gens : s.newId.2.gens = s.gens := rfl
@[simp] theorem newSeed_gens : s.newSeed.2.gens = s.gens := rfl
@[simp] theorem addReq_gens (r : Req) : (s.addReq r).2.gens = s.gens := rfl
@[simp] theorem newId_reqs : s.newId.2.reqs = s.reqs := rfl
@[simp] theorem newSeed_reqs : s.newSeed.2.reqs = s.reqs := rfl
@[simp] theorem newId_agenda : s.newId.2.agenda = s.agenda := rfl
@[simp] theorem newSeed_agenda : s.newSeed.2.agenda = s.agenda := rfl
@[simp] theorem addReq_agenda (r : Req) : (s.addReq r).2.agenda = s.agenda := rfl
@[simp] theorem newId_frame : s.newId.2.frame = s.frame := rfl
@[simp] theorem newSeed_frame : s.newSeed.2.frame = s.frame := rfl
@[simp] theorem addReq_frame (r : Req) : (s.addReq r).2.frame = s.frame := rfl
@[simp] theorem newId_tick : s.newId.2.tick = s.tick := rfl
@[simp] theorem newSeed_tick : s.newSeed.2.tick = s.tick := rfl
@[simp] theorem addReq_tick (r : Req) : (s.addReq r).2.tick = s.tick := rfl
@[simp] theorem newId_frameTicks : s.newId.2.frameTicks = s.frameTicks := rfl
@[simp] theorem newSeed_frameTicks : s.newSeed.2.frameTicks = s.frameTicks := rfl
@[simp] theorem addReq_frameTicks (r : Req) : (s.addReq r).2.frameTicks = s.frameTicks := rfl
@[simp] theorem newId_frameTicksNew : s.newId.2.frameTicksNew = s.frameTicksNew := rfl
@[simp] theorem newSeed_frameTicksNew : s.newSeed.2.frameTicksNew = s.frameTicksNew := rfl
@[simp] theorem addReq_frameTicksNew (r : Req) : (s.addReq r).2.frameTicksNew = s.frameTicksNew := rfl
@[simp] theorem newId_locked : s.newId.2.locked = s.locked := rfl
@[simp] theorem newSeed_locked : s.newSeed.2.locked = s.locked := rfl
@[simp] theorem addReq_locked (r : Req) : (s.addReq r).2.locked = s.locked := rfl
@[simp] theorem newId_slew : s.newId.2.slew = s.slew := rfl
@[simp] theorem newSeed_slew : s.newSeed.2.slew = s.slew := rfl
@[simp] theorem addReq_slew (r : Req) : (s.addReq r).2.slew = s.slew := rfl
@[simp] theorem newId_sinceSlew : s.newId.2.sinceSlew = s.sinceSlew := rfl
@[simp] theorem newSeed_sinceSlew : s.newSeed.2.sinceSlew = s.sinceSlew := rfl
@[simp] theorem addReq_sinceSlew (r : Req) : (s.addReq r).2.sinceSlew = s.sinceSlew := rfl
@[simp] theorem newId_slices : s.newId.2.slices = s.slices := rfl
@[simp] theorem newSeed_slices : s.newSeed.2.slices = s.slices := rfl
@[simp] theorem addReq_slices (r : Req) : (s.addReq r).2.slices = s.slices := rfl
@[simp] theorem newId_sliceClamp : s.newId.2.sliceClamp = s.sliceClamp := rfl
@[simp] theorem newSeed_sliceClamp : s.newSeed.2.sliceClamp = s.sliceClamp := rfl
@[simp] theorem addReq_sliceClamp (r : Req) : (s.addReq r).2.sliceClamp = s.sliceClamp := rfl
@[simp] theorem newId_svcfg : s.newId.2.svcfg = s.svcfg := rfl
@[simp] theorem newSeed_svcfg : s.newSeed.2.svcfg = s.svcfg := rfl
@[simp] theorem addReq_svcfg (r : Req) : (s.addReq r).2.svcfg = s.svcfg := rfl
@[simp] theorem newId_svqBase : s.newId.2.svqBase = s.svqBase := rfl
@[simp] theorem newSeed_svqBase : s.newSeed.2.svqBase = s.svqBase := rfl
@[simp] theorem addReq_svqBase (r : Req) : (s.addReq r).2.svqBase = s.svqBase := rfl
@[simp] theorem newId_svqTail : s.newId.2.svqTail = s.svqTail := rfl
@[simp] theorem newSeed_svqTail : s.newSeed.2.svqTail = s.svqTail := rfl
@[simp] theorem addReq_svqTail (r : Req) : (s.addReq r).2.svqTail = s.svqTail := rfl
@[simp] theorem newId_svqHead : s.newId.2.svqHead = s.svqHead := rfl
@[simp] theorem newSeed_svqHead : s.newSeed.2.svqHead = s.svqHead := rfl
@[simp] theorem addReq_svqHead (r : Req) : (s.addReq r).2.svqHead = s.svqHead := rfl
@[simp] theorem newId_parties : s.newId.2.parties = s.parties := rfl
@[simp] theorem newSeed_parties : s.newSeed.2.parties = s.parties := rfl
@[simp] theorem addReq_parties (r : Req) : (s.addReq r).2.parties = s.parties := rfl
@[simp] theorem newId_devError : s.newId.2.devError = s.devError := rfl
@[simp] theorem newSeed_devError : s.newSeed.2.devError = s.devError := rfl
@[simp] theorem addReq_devError (r : Req) : (s.addReq r).2.devError = s.devError := rfl
@[simp] theorem newId_devStage : s.newId.2.devStage = s.devStage := rfl
@[simp] theorem newSeed_devStage : s.newSeed.2.devStage = s.devStage := rfl
@[simp] theorem addReq_devStage (r : Req) : (s.addReq r).2.devStage = s.devStage := rfl
@[simp] theorem newId_ready : s.newId.2.ready = s.ready := rfl
@[simp] theorem newSeed_ready : s.newSeed.2.ready = s.ready := rfl
@[simp] theorem addReq_ready (r : Req) : (s.addReq r).2.ready = s.ready := rfl
@[simp] theorem newId_packets : s.newId.2.packets = s.packets := rfl
@[simp] theorem newSeed_packets : s.newSeed.2.packets = s.packets := rfl
@[simp] theorem addReq_packets (r : Req) : (s.addReq r).2.packets = s.packets := rfl
@[simp] theorem newId_lcOverrun : s.newId.2.lcOverrun = s.lcOverrun := rfl
@[simp] theorem newSeed_lcOverrun : s.newSeed.2.lcOverrun = s.lcOverrun := rfl
@[simp] theorem addReq_lcOverrun (r : Req) : (s.addReq r).2.lcOverrun = s.lcOverrun := rfl
@[simp] theorem newId_launches : s.newId.2.launches = s.launches := rfl
@[simp] theorem newSeed_launches : s.newSeed.2.launches = s.launches := rfl
@[simp] theorem addReq_launches (r : Req) : (s.addReq r).2.launches = s.launches := rfl
@[simp] theorem newId_owed : s.newId.2.owed = s.owed := rfl
@[simp] theorem newSeed_owed : s.newSeed.2.owed = s.owed := rfl
@[simp] theorem addReq_owed (r : Req) : (s.addReq r).2.owed = s.owed := rfl
@[simp] theorem newId_poolbase : s.newId.2.poolbase = s.poolbase := rfl
@[simp] theorem newSeed_poolbase : s.newSeed.2.poolbase = s.poolbase := rfl
@[simp] theorem addReq_poolbase (r : Req) : (s.addReq r).2.poolbase = s.poolbase := rfl
@[simp] theorem newId_keepcfg : s.newId.2.keepcfg = s.keepcfg := rfl
@[simp] theorem newSeed_keepcfg : s.newSeed.2.keepcfg = s.keepcfg := rfl
@[simp] theorem addReq_keepcfg (r : Req) : (s.addReq r).2.keepcfg = s.keepcfg := rfl
@[simp] theorem newId_keepNext : s.newId.2.keepNext = s.keepNext := rfl
@[simp] theorem newSeed_keepNext : s.newSeed.2.keepNext = s.keepNext := rfl
@[simp] theorem addReq_keepNext (r : Req) : (s.addReq r).2.keepNext = s.keepNext := rfl
@[simp] theorem newId_throttled : s.newId.2.throttled = s.throttled := rfl
@[simp] theorem newSeed_throttled : s.newSeed.2.throttled = s.throttled := rfl
@[simp] theorem addReq_throttled (r : Req) : (s.addReq r).2.throttled = s.throttled := rfl
@[simp] theorem newId_windows : s.newId.2.windows = s.windows := rfl
@[simp] theorem newSeed_windows : s.newSeed.2.windows = s.windows := rfl
@[simp] theorem addReq_windows (r : Req) : (s.addReq r).2.windows = s.windows := rfl
@[simp] theorem newId_demand : s.newId.2.demand = s.demand := rfl
@[simp] theorem newSeed_demand : s.newSeed.2.demand = s.demand := rfl
@[simp] theorem addReq_demand (r : Req) : (s.addReq r).2.demand = s.demand := rfl
@[simp] theorem newId_granted : s.newId.2.granted = s.granted := rfl
@[simp] theorem newSeed_granted : s.newSeed.2.granted = s.granted := rfl
@[simp] theorem addReq_granted (r : Req) : (s.addReq r).2.granted = s.granted := rfl
@[simp] theorem newId_grants : s.newId.2.grants = s.grants := rfl
@[simp] theorem newSeed_grants : s.newSeed.2.grants = s.grants := rfl
@[simp] theorem addReq_grants (r : Req) : (s.addReq r).2.grants = s.grants := rfl
@[simp] theorem newId_mboxDetail : s.newId.2.mboxDetail = s.mboxDetail := rfl
@[simp] theorem newSeed_mboxDetail : s.newSeed.2.mboxDetail = s.mboxDetail := rfl
@[simp] theorem addReq_mboxDetail (r : Req) : (s.addReq r).2.mboxDetail = s.mboxDetail := rfl
@[simp] theorem newId_mboxOp : s.newId.2.mboxOp = s.mboxOp := rfl
@[simp] theorem newSeed_mboxOp : s.newSeed.2.mboxOp = s.mboxOp := rfl
@[simp] theorem addReq_mboxOp (r : Req) : (s.addReq r).2.mboxOp = s.mboxOp := rfl
@[simp] theorem newId_mboxOverrun : s.newId.2.mboxOverrun = s.mboxOverrun := rfl
@[simp] theorem newSeed_mboxOverrun : s.newSeed.2.mboxOverrun = s.mboxOverrun := rfl
@[simp] theorem addReq_mboxOverrun (r : Req) : (s.addReq r).2.mboxOverrun = s.mboxOverrun := rfl
@[simp] theorem newId_mboxState : s.newId.2.mboxState = s.mboxState := rfl
@[simp] theorem newSeed_mboxState : s.newSeed.2.mboxState = s.mboxState := rfl
@[simp] theorem addReq_mboxState (r : Req) : (s.addReq r).2.mboxState = s.mboxState := rfl
@[simp] theorem newId_mboxNext : s.newId.2.mboxNext = s.mboxNext := rfl
@[simp] theorem newSeed_mboxNext : s.newSeed.2.mboxNext = s.mboxNext := rfl
@[simp] theorem addReq_mboxNext (r : Req) : (s.addReq r).2.mboxNext = s.mboxNext := rfl
@[simp] theorem newId_podSize : s.newId.2.podSize = s.podSize := rfl
@[simp] theorem newSeed_podSize : s.newSeed.2.podSize = s.podSize := rfl
@[simp] theorem addReq_podSize (r : Req) : (s.addReq r).2.podSize = s.podSize := rfl
@[simp] theorem newId_podIndex : s.newId.2.podIndex = s.podIndex := rfl
@[simp] theorem newSeed_podIndex : s.newSeed.2.podIndex = s.podIndex := rfl
@[simp] theorem addReq_podIndex (r : Req) : (s.addReq r).2.podIndex = s.podIndex := rfl
@[simp] theorem newId_podMiss : s.newId.2.podMiss = s.podMiss := rfl
@[simp] theorem newSeed_podMiss : s.newSeed.2.podMiss = s.podMiss := rfl
@[simp] theorem addReq_podMiss (r : Req) : (s.addReq r).2.podMiss = s.podMiss := rfl
@[simp] theorem newId_podTable : s.newId.2.podTable = s.podTable := rfl
@[simp] theorem newSeed_podTable : s.newSeed.2.podTable = s.podTable := rfl
@[simp] theorem addReq_podTable (r : Req) : (s.addReq r).2.podTable = s.podTable := rfl
@[simp] theorem newId_podDomain : s.newId.2.podDomain = s.podDomain := rfl
@[simp] theorem newSeed_podDomain : s.newSeed.2.podDomain = s.podDomain := rfl
@[simp] theorem addReq_podDomain (r : Req) : (s.addReq r).2.podDomain = s.podDomain := rfl
@[simp] theorem newId_loadw : s.newId.2.loadw = s.loadw := rfl
@[simp] theorem newSeed_loadw : s.newSeed.2.loadw = s.loadw := rfl
@[simp] theorem addReq_loadw (r : Req) : (s.addReq r).2.loadw = s.loadw := rfl
@[simp] theorem newId_portOut : s.newId.2.portOut = s.portOut := rfl
@[simp] theorem newSeed_portOut : s.newSeed.2.portOut = s.portOut := rfl
@[simp] theorem addReq_portOut (r : Req) : (s.addReq r).2.portOut = s.portOut := rfl
@[simp] theorem newId_loadDone : s.newId.2.loadDone = s.loadDone := rfl
@[simp] theorem newSeed_loadDone : s.newSeed.2.loadDone = s.loadDone := rfl
@[simp] theorem addReq_loadDone (r : Req) : (s.addReq r).2.loadDone = s.loadDone := rfl
@[simp] theorem newId_fwActive : s.newId.2.fwActive = s.fwActive := rfl
@[simp] theorem newSeed_fwActive : s.newSeed.2.fwActive = s.fwActive := rfl
@[simp] theorem addReq_fwActive (r : Req) : (s.addReq r).2.fwActive = s.fwActive := rfl
@[simp] theorem newId_fwStaged : s.newId.2.fwStaged = s.fwStaged := rfl
@[simp] theorem newSeed_fwStaged : s.newSeed.2.fwStaged = s.fwStaged := rfl
@[simp] theorem addReq_fwStaged (r : Req) : (s.addReq r).2.fwStaged = s.fwStaged := rfl
@[simp] theorem newId_fwSlots : s.newId.2.fwSlots = s.fwSlots := rfl
@[simp] theorem newSeed_fwSlots : s.newSeed.2.fwSlots = s.fwSlots := rfl
@[simp] theorem addReq_fwSlots (r : Req) : (s.addReq r).2.fwSlots = s.fwSlots := rfl
@[simp] theorem newId_fwLowest : s.newId.2.fwLowest = s.fwLowest := rfl
@[simp] theorem newSeed_fwLowest : s.newSeed.2.fwLowest = s.fwLowest := rfl
@[simp] theorem addReq_fwLowest (r : Req) : (s.addReq r).2.fwLowest = s.fwLowest := rfl
@[simp] theorem newId_lanes : s.newId.2.lanes = s.lanes := rfl
@[simp] theorem newSeed_lanes : s.newSeed.2.lanes = s.lanes := rfl
@[simp] theorem addReq_lanes (r : Req) : (s.addReq r).2.lanes = s.lanes := rfl
@[simp] theorem newId_portUp : s.newId.2.portUp = s.portUp := rfl
@[simp] theorem newSeed_portUp : s.newSeed.2.portUp = s.portUp := rfl
@[simp] theorem addReq_portUp (r : Req) : (s.addReq r).2.portUp = s.portUp := rfl
@[simp] theorem newId_measure : s.newId.2.measure = s.measure := rfl
@[simp] theorem newSeed_measure : s.newSeed.2.measure = s.measure := rfl
@[simp] theorem addReq_measure (r : Req) : (s.addReq r).2.measure = s.measure := rfl
@[simp] theorem newId_health : s.newId.2.health = s.health := rfl
@[simp] theorem newSeed_health : s.newSeed.2.health = s.health := rfl
@[simp] theorem addReq_health (r : Req) : (s.addReq r).2.health = s.health := rfl
@[simp] theorem newId_hclass : s.newId.2.hclass = s.hclass := rfl
@[simp] theorem newSeed_hclass : s.newSeed.2.hclass = s.hclass := rfl
@[simp] theorem addReq_hclass (r : Req) : (s.addReq r).2.hclass = s.hclass := rfl
@[simp] theorem newId_hbmMap : s.newId.2.hbmMap = s.hbmMap := rfl
@[simp] theorem newSeed_hbmMap : s.newSeed.2.hbmMap = s.hbmMap := rfl
@[simp] theorem addReq_hbmMap (r : Req) : (s.addReq r).2.hbmMap = s.hbmMap := rfl
@[simp] theorem newId_swaps : s.newId.2.swaps = s.swaps := rfl
@[simp] theorem newSeed_swaps : s.newSeed.2.swaps = s.swaps := rfl
@[simp] theorem addReq_swaps (r : Req) : (s.addReq r).2.swaps = s.swaps := rfl
@[simp] theorem newId_hot : s.newId.2.hot = s.hot := rfl
@[simp] theorem newSeed_hot : s.newSeed.2.hot = s.hot := rfl
@[simp] theorem addReq_hot (r : Req) : (s.addReq r).2.hot = s.hot := rfl
@[simp] theorem newId_swapping : s.newId.2.swapping = s.swapping := rfl
@[simp] theorem newSeed_swapping : s.newSeed.2.swapping = s.swapping := rfl
@[simp] theorem addReq_swapping (r : Req) : (s.addReq r).2.swapping = s.swapping := rfl
@[simp] theorem newId_busyTill : s.newId.2.busyTill = s.busyTill := rfl
@[simp] theorem newSeed_busyTill : s.newSeed.2.busyTill = s.busyTill := rfl
@[simp] theorem addReq_busyTill (r : Req) : (s.addReq r).2.busyTill = s.busyTill := rfl
@[simp] theorem newId_pchan : s.newId.2.pchan = s.pchan := rfl
@[simp] theorem newSeed_pchan : s.newSeed.2.pchan = s.pchan := rfl
@[simp] theorem addReq_pchan (r : Req) : (s.addReq r).2.pchan = s.pchan := rfl
@[simp] theorem newId_pchanUsed : s.newId.2.pchanUsed = s.pchanUsed := rfl
@[simp] theorem newSeed_pchanUsed : s.newSeed.2.pchanUsed = s.pchanUsed := rfl
@[simp] theorem addReq_pchanUsed (r : Req) : (s.addReq r).2.pchanUsed = s.pchanUsed := rfl
@[simp] theorem newId_retrains : s.newId.2.retrains = s.retrains := rfl
@[simp] theorem newSeed_retrains : s.newSeed.2.retrains = s.retrains := rfl
@[simp] theorem addReq_retrains (r : Req) : (s.addReq r).2.retrains = s.retrains := rfl
@[simp] theorem newId_retrainWait : s.newId.2.retrainWait = s.retrainWait := rfl
@[simp] theorem newSeed_retrainWait : s.newSeed.2.retrainWait = s.retrainWait := rfl
@[simp] theorem addReq_retrainWait (r : Req) : (s.addReq r).2.retrainWait = s.retrainWait := rfl
@[simp] theorem newId_hostRead : s.newId.2.hostRead = s.hostRead := rfl
@[simp] theorem newSeed_hostRead : s.newSeed.2.hostRead = s.hostRead := rfl
@[simp] theorem addReq_hostRead (r : Req) : (s.addReq r).2.hostRead = s.hostRead := rfl

end State
end Sys2Proof.Machine
end

