-- ==== Sys2Proof/Laws/Ops.lean ====
section
/-! SUPPORT. What the shared operations of Machine/ do: the outcome of a slot, results on their way, traps. -/
namespace Sys2Proof.Machine

/-! ### The outcome of a slot -/

theorem guard_clear {i : Instr} {s : State} {r : Res} (h : Clear i s) : guard i s r = r := by
  simp [guard, h.1, h.2.1, h.2.2]

/-- A clear instruction whose effect answers a state issues. -/
theorem meaning_ok {i : Instr} {n : Nat} {s t : State} (h : Clear i s) : meaning i n s (.ok t) = .next (t.mark .issued) := by
  simp [meaning, guard_clear h, finish]

/-- A clear instruction whose effect waits is held. -/
theorem meaning_hold {i : Instr} {n : Nat} {s t : State} (h : Clear i s) :
    meaning i n s (.hold t) = .next (t.mark .held) := by
  simp [meaning, guard_clear h, finish]

/-- A clear instruction whose effect raises a fault that can be taken now takes it. -/
theorem meaning_raise {i : Instr} {n : Nat} {s : State} {f : FaultInfo} (h : Clear i s) (hp : TakesNow s f.code) :
    meaning i n s (.raise f) = (let g := { f with slot := n, info := if f.code ≤ 2 then BitVec.ofNat 64 (encode i) else f.info };
      .next ((s.takeFault g).mark (.trapped g))) := by
  have hc : (decide (f.code ≤ 14) && s.me.pend.any (fun p => p.bid != s.me.bid)) = false := by
    rcases hp with h | h
    · simp; omega
    · simp [h]
  simp [meaning, guard_clear h, finish, hc]

/-- Every meaning answers a next state. -/
theorem meaning_next (i : Instr) (n : Nat) (s : State) (r : Res) : ∃ t, meaning i n s r = .next t := by
  unfold meaning finish
  split
  · exact ⟨_, rfl⟩
  · exact ⟨_, rfl⟩
  · dsimp only
    split
    · exact ⟨_, rfl⟩
    · exact ⟨_, rfl⟩

/-- A meaning that issues was clear, and its effect answered the state. -/
theorem meaning_issued {i : Instr} {n : Nat} {s t : State} {r : Res} (h : meaning i n s r = .next t) (ht : t.issue = .issued) :
    Clear i s ∧ ∃ u, r = .ok u ∧ t = (u.mark .issued) := by
  unfold meaning finish at h
  unfold guard at h
  dsimp only at h
  by_cases h1 : i.wf = true
  · by_cases h2 : s.me.pendingOn ((Instr.uses i s.me).1 ++ (Instr.uses i s.me).2) = true
    · simp [h1, h2] at h; subst h; simp at ht
    · by_cases h3 : (bit s.me.ctxctl 11 && s.me.earlyRead (Instr.uses i s.me).1) = true
      · simp [h1, h2, h3, fault] at h
        split at h <;> (injection h with h; subst h; simp at ht)
      · simp only [h1, h2, h3, Bool.not_true, Bool.false_eq_true, if_false] at h
        refine ⟨⟨h1, by simpa using h2, by simpa using h3⟩, ?_⟩
        cases r with
        | ok u => injection h with h; exact ⟨u, rfl, h.symm⟩
        | raise f =>
          dsimp only at h
          split at h <;> (injection h with h; subst h; simp at ht)
        | hold u => injection h with h; subst h; simp at ht
  · simp [h1, fault] at h
    split at h <;> (injection h with h; subst h; simp at ht)

/-! ### Results on their way -/

@[simp] theorem push_me (s : State) (slot lat : Nat) (w : Payload) : (s.push slot lat w).me = s.me.push slot lat w := by
  simp [State.push]
@[simp] theorem Core.push_s (k : Core) (slot lat : Nat) (w : Payload) : (k.push slot lat w).s = k.s := rfl
@[simp] theorem Core.push_flight (k : Core) (slot lat : Nat) (w : Payload) :
    (k.push slot lat w).flight = k.flight ++ [⟨k.sched + lat, k.seq, k.bid, false, slot, w⟩] := rfl
theorem Core.push_kept (k : Core) (slot lat : Nat) (w : Payload) : k.kept (k.push slot lat w) := rfl

theorem setMe_onlyCore (s : State) (k : Core) : OnlyCore s (s.setMe k) := by
  refine ⟨rfl, fun c hc => ?_⟩
  simp [State.setMe, State.core_setCore_other s k (Ne.symm hc)]

theorem push_onlyCore (s : State) (slot lat : Nat) (w : Payload) : OnlyCore s (s.push slot lat w) := setMe_onlyCore _ _

theorem OnlyCore.mark {s t : State} (h : OnlyCore s t) (v : Issue) : OnlyCore s (t.mark v) := by
  obtain ⟨h1, h2⟩ := h
  refine ⟨?_, h2⟩
  rw [h1]
  rfl

/-- What changes no memory, no store path and no other unit leaves every byte as it reads. -/
theorem OnlyCore.sameBytes {s t : State} (h : OnlyCore s t) : SameBytes s t := by
  intro q a
  rw [h.1]
  rfl

/-! ### Faults and traps -/

theorem trap_trapTo {s : State} {f : FaultInfo} {e : W64} {t : Nat} (h : Trappable s) : s.trap f e t = s.trapTo f e t := by
  simp [State.trap, h.1, h.2]

theorem bits_63_4 (x : W64) : bits x 63 4 * 16 = x.toNat / 16 * 16 := by
  unfold bits
  have := x.isLt
  omega

/-- What `trapTo` leaves, in the terms of the spec (R364). -/
theorem trapTo_trapped (s : State) (f : FaultInfo) (e : W64) (d : Nat) (v : Issue) (h : f.slot * 65536 + f.sub * 256 + f.code < 2 ^ 64) :
    Trapped s ((s.trapTo f e d).mark v) f.slot f.code f.sub f.info e d := by
  have hme : ((s.trapTo f e d).mark v).me = (s.trapTo f e d).me := rfl
  have hk : (s.trapTo f e d).me = _ := State.me_setCore _ _
  constructor <;> try rw [hme, hk]
  case cause => rw [BitVec.toNat_ofNat, Nat.mod_eq_of_lt h]
  case pc =>
    rw [BitVec.toNat_ofNat, bits_63_4, Nat.mod_eq_of_lt]
    have := (s.part s.me.part).tvec.isLt
    omega
  case drain => exact ⟨rfl, by simp⟩
  case flight =>
    intro f hf
    simpa using hf
  case others =>
    refine ⟨fun c hc => ?_, rfl⟩
    exact State.core_setCore_other s _ (Ne.symm hc)
  all_goals simp [remaining]

/-- A precise fault that can be taken now, in a context that has a handler, traps (R364). -/
theorem meaning_traps {i : Instr} {n : Nat} {s : State} {f : FaultInfo} (h : Clear i s) (hp : TakesNow s f.code) (ht : Trappable s)
    (hc : f.code ≤ 14) (hb : n * 65536 + f.sub * 256 + f.code < 2 ^ 64) :
    ∃ t, meaning i n s (.raise f) = .next t
      ∧ t.issue = .trapped ⟨f.code, f.sub, if f.code ≤ 2 then BitVec.ofNat 64 (encode i) else f.info, n⟩
      ∧ Trapped s t n f.code f.sub (if f.code ≤ 2 then BitVec.ofNat 64 (encode i) else f.info) s.me.pc s.me.sched := by
  refine ⟨_, meaning_raise h hp, rfl, ?_⟩
  rw [State.takeFault, if_pos hc, trap_trapTo ht]
  exact trapTo_trapped s _ _ _ _ hb

end Sys2Proof.Machine
end

