-- ==== Sys2Proof/Laws/Address.lean ====
section
/-! SUPPORT. The spec's numbers (Safety.lean) and the bit vectors the meanings compute with: addresses, offsets and bytes. -/
namespace Sys2Proof.Machine

theorem ofNat_wrap (z : Int) : BitVec.ofNat 64 (Spec.wrap 64 z) = BitVec.ofInt 64 z := by
  apply BitVec.eq_of_toNat_eq
  rw [BitVec.toNat_ofNat, BitVec.toNat_ofInt]
  unfold Spec.wrap
  rw [Nat.mod_eq_of_lt]
  have := Int.emod_lt_of_pos z (show (0:Int) < (2^64 : Nat) by decide)
  have := Int.emod_nonneg z (show ((2^64 : Nat):Int) ≠ 0 by decide)
  omega
theorem sextTo_sgn (w x : Nat) : sextTo w x = BitVec.ofInt 64 (Spec.sgn w x) := by
  unfold sextTo Spec.sgn; split <;> rfl
theorem ofInt_toNat (x : W64) : BitVec.ofInt 64 (x.toNat : Int) = x := by
  apply BitVec.eq_of_toNat_eq; simp
theorem ofInt_shl (z : Int) (u : Nat) : (BitVec.ofInt 64 z) <<< u = BitVec.ofInt 64 (z * (2 ^ u : Nat)) := by
  rw [BitVec.ofInt_mul, BitVec.shiftLeft_eq_mul_twoPow]
  congr 1
  apply BitVec.eq_of_toNat_eq
  rw [BitVec.toNat_ofInt, BitVec.toNat_twoPow, ← Int.natCast_emod, Int.toNat_natCast]

/-- The offset of format M (R38, R40). -/
theorem offM_eq (u : Nat) (o : Fin 256) (l : Lent) : offM u o l = BitVec.ofInt 64 (Spec.offset o l * (2 ^ u : Nat)) := by
  unfold offM Spec.offset
  cases l with
  | none => dsimp only; rw [sextTo_sgn, ofInt_shl]
  | some b => dsimp only; rw [sextTo_sgn, ofInt_shl, Nat.mul_comm]
/-- The address of format M. -/
theorem address_eq (x : W64) (u : Nat) (o : Fin 256) (l : Lent) : Spec.address x u o l = x + offM u o l := by
  unfold Spec.address
  rw [ofNat_wrap, BitVec.ofInt_add, offM_eq, ofInt_toNat]

/-- The bytes of a number (R2). -/
theorem leBytes_eq (n : Nat) : ∀ x, leBytes n x = Spec.bytesOf n x := by
  induction n with
  | zero => intro x; rfl
  | succ n ih =>
    intro x
    rw [leBytes, ih]
    unfold Spec.bytesOf
    rw [List.range_succ_eq_map, List.map_cons, List.map_map]
    congr 1
    · simp
    · apply List.map_congr_left; intro i _; simp only [Function.comp]; rw [Nat.div_div_eq_div_mul, Nat.pow_succ, Nat.mul_comm]
/-- The number that bytes hold (R2). -/
theorem leNat_eq (b : List Byte) : leNat b = Spec.number b := by
  induction b with
  | nil => rfl
  | cons x t ih =>
    rw [leNat, ih]
    unfold Spec.number
    rw [List.length_cons, List.range_succ_eq_map, List.map_cons, List.map_map, List.sum_cons]
    congr 1
    · simp
    · rw [← List.sum_map_mul_left]
      congr 1
      apply List.map_congr_left; intro i _
      simp only [Function.comp, List.getD_cons_succ, Nat.pow_succ]; ring
/-- An immediate of format B with its lent byte (R40). -/
theorem immB_eq (k : Fin 1024) (l : Lent) : immB k l = k.val + 1024 * (l.elim 0 (·.val)) := by
  cases l <;> simp [immB]; omega

end Sys2Proof.Machine
end

