-- ==== Sys2Proof/Laws/Arms.lean ====
section
/-! SUPPORT. The meaning that `exec` calls for each instruction, one lemma an arm. -/
namespace Sys2Proof.Machine

theorem exec_nopS (st : Fin 8) (s : State) : exec (.nopS st) s = execNopS st s := rfl
theorem exec_nop (s : State) : exec (.nop) s = execNop s := rfl
theorem exec_hdr (st : Fin 8) (w : Bool) (z : Bool) (y : Bool) (x : Bool) (c : Fin 256) (b : Fin 256) (a : Fin 256) (s : State) : exec (.hdr st w z y x c b a) s = execHdr st w z y x c b a s := rfl
theorem exec_add (st : Fin 8) (d : Fin 64) (a : Fin 64) (b : Fin 64) (s : State) : exec (.add st d a b) s = execAdd st d a b s := rfl
theorem exec_sub (st : Fin 8) (d : Fin 64) (a : Fin 64) (b : Fin 64) (s : State) : exec (.sub st d a b) s = execSub st d a b s := rfl
theorem exec_mul (st : Fin 8) (d : Fin 64) (a : Fin 64) (b : Fin 64) (s : State) : exec (.mul st d a b) s = execMul st d a b s := rfl
theorem exec_mulh (st : Fin 8) (d : Fin 64) (a : Fin 64) (b : Fin 64) (u : Bool) (s : State) : exec (.mulh st d a b u) s = execMulh st d a b u s := rfl
theorem exec_and (st : Fin 8) (d : Fin 64) (a : Fin 64) (b : Fin 64) (s : State) : exec (.and st d a b) s = execAnd st d a b s := rfl
theorem exec_or (st : Fin 8) (d : Fin 64) (a : Fin 64) (b : Fin 64) (s : State) : exec (.or st d a b) s = execOr st d a b s := rfl
theorem exec_xor (st : Fin 8) (d : Fin 64) (a : Fin 64) (b : Fin 64) (s : State) : exec (.xor st d a b) s = execXor st d a b s := rfl
theorem exec_shl (st : Fin 8) (d : Fin 64) (a : Fin 64) (b : Fin 64) (s : State) : exec (.shl st d a b) s = execShl st d a b s := rfl
theorem exec_shr (st : Fin 8) (d : Fin 64) (a : Fin 64) (b : Fin 64) (s : State) : exec (.shr st d a b) s = execShr st d a b s := rfl
theorem exec_sra (st : Fin 8) (d : Fin 64) (a : Fin 64) (b : Fin 64) (s : State) : exec (.sra st d a b) s = execSra st d a b s := rfl
theorem exec_min (st : Fin 8) (d : Fin 64) (a : Fin 64) (b : Fin 64) (u : Bool) (s : State) : exec (.min st d a b u) s = execMin st d a b u s := rfl
theorem exec_max (st : Fin 8) (d : Fin 64) (a : Fin 64) (b : Fin 64) (u : Bool) (s : State) : exec (.max st d a b u) s = execMax st d a b u s := rfl
theorem exec_addi (st : Fin 8) (d : Fin 64) (a : Fin 64) (imm : Fin 1024) (s : State) : exec (.addi st d a imm) s = execAddi st d a imm s := rfl
theorem exec_andi (st : Fin 8) (d : Fin 64) (a : Fin 64) (imm : Fin 1024) (s : State) : exec (.andi st d a imm) s = execAndi st d a imm s := rfl
theorem exec_ori (st : Fin 8) (d : Fin 64) (a : Fin 64) (imm : Fin 1024) (s : State) : exec (.ori st d a imm) s = execOri st d a imm s := rfl
theorem exec_xori (st : Fin 8) (d : Fin 64) (a : Fin 64) (imm : Fin 1024) (s : State) : exec (.xori st d a imm) s = execXori st d a imm s := rfl
theorem exec_shli (st : Fin 8) (d : Fin 64) (a : Fin 64) (imm : Fin 64) (s : State) : exec (.shli st d a imm) s = execShli st d a imm s := rfl
theorem exec_shri (st : Fin 8) (d : Fin 64) (a : Fin 64) (imm : Fin 64) (s : State) : exec (.shri st d a imm) s = execShri st d a imm s := rfl
theorem exec_srai (st : Fin 8) (d : Fin 64) (a : Fin 64) (imm : Fin 64) (s : State) : exec (.srai st d a imm) s = execSrai st d a imm s := rfl
theorem exec_li (st : Fin 8) (d : Fin 64) (imm : Fin 65536) (s : State) : exec (.li st d imm) s = execLi st d imm s := rfl
theorem exec_lih (st : Fin 8) (d : Fin 64) (imm : Fin 65536) (s : State) : exec (.lih st d imm) s = execLih st d imm s := rfl
theorem exec_addsh (st : Fin 8) (d : Fin 64) (a : Fin 64) (b : Fin 64) (k : Fin 16) (s : State) : exec (.addsh st d a b k) s = execAddsh st d a b k s := rfl
theorem exec_cmp (st : Fin 8) (p : Fin 8) (c : Fin 8) (a : Fin 64) (b : Fin 64) (s : State) : exec (.cmp st p c a b) s = execCmp st p c a b s := rfl
theorem exec_cmpi (st : Fin 8) (p : Fin 8) (c : Fin 8) (a : Fin 64) (imm : Fin 1024) (s : State) : exec (.cmpi st p c a imm) s = execCmpi st p c a imm s := rfl
theorem exec_plog (st : Fin 8) (d : Fin 8) (a : Fin 8) (b : Fin 8) (t : Fin 16) (s : State) : exec (.plog st d a b t) s = execPlog st d a b t s := rfl
theorem exec_clz (st : Fin 8) (d : Fin 64) (a : Fin 64) (s : State) : exec (.clz st d a) s = execClz st d a s := rfl
theorem exec_popc (st : Fin 8) (d : Fin 64) (a : Fin 64) (s : State) : exec (.popc st d a) s = execPopc st d a s := rfl
theorem exec_sext (st : Fin 8) (d : Fin 64) (a : Fin 64) (w : Fin 128) (s : State) : exec (.sext st d a w) s = execSext st d a w s := rfl
theorem exec_zext (st : Fin 8) (d : Fin 64) (a : Fin 64) (w : Fin 128) (s : State) : exec (.zext st d a w) s = execZext st d a w s := rfl
theorem exec_div (st : Fin 8) (d : Fin 64) (a : Fin 64) (b : Fin 64) (u : Bool) (s : State) : exec (.div st d a b u) s = execDiv st d a b u s := rfl
theorem exec_rem (st : Fin 8) (d : Fin 64) (a : Fin 64) (b : Fin 64) (u : Bool) (s : State) : exec (.rem st d a b u) s = execRem st d a b u s := rfl
theorem exec_br (st : Fin 8) (p : Fin 8) (n : Bool) (o : Fin 262144) (s : State) : exec (.br st p n o) s = execBr st p n o s := rfl
theorem exec_call (st : Fin 8) (p : Fin 8) (n : Bool) (o : Fin 262144) (s : State) : exec (.call st p n o) s = execCall st p n o s := rfl
theorem exec_jr (st : Fin 8) (a : Fin 64) (s : State) : exec (.jr st a) s = execJr st a s := rfl
theorem exec_loopImm (st : Fin 8) (k : Fin 4) (c : Fin 1024) (l : Fin 256) (s : State) : exec (.loopImm st k c l) s = execLoopImm st k c l s := rfl
theorem exec_loopReg (st : Fin 8) (k : Fin 4) (r : Fin 64) (l : Fin 256) (s : State) : exec (.loopReg st k r l) s = execLoopReg st k r l s := rfl
theorem exec_loopEnd (s : State) : exec (.loopEnd) s = execLoopEnd s := rfl
theorem exec_bar (st : Fin 8) (c : Fin 8) (g : Fin 256) (s : State) : exec (.bar st c g) s = execBar st c g s := rfl
theorem exec_barComplete (sc : Nat) (inst : Nat) (p : Nat) (g : Nat) (s : State) : exec (.barComplete sc inst p g) s = execBarComplete sc inst p g s := rfl
theorem exec_waitc (st : Fin 8) (h : Fin 8) (t : Fin 524288) (s : State) : exec (.waitc st h t) s = execWaitc st h t s := rfl
theorem exec_sstep (st : Fin 8) (c : Fin 8) (s : State) : exec (.sstep st c) s = execSstep st c s := rfl
theorem exec_tspawn (st : Fin 8) (a : Fin 64) (b : Fin 64) (s : State) : exec (.tspawn st a b) s = execTspawn st a b s := rfl
theorem exec_park (st : Fin 8) (n : Fin 524288) (s : State) : exec (.park st n) s = execPark st n s := rfl
theorem exec_yield (st : Fin 8) (s : State) : exec (.yield st) s = execYield st s := rfl
theorem exec_tdone (st : Fin 8) (s : State) : exec (.tdone st) s = execTdone st s := rfl
theorem exec_trap (st : Fin 8) (n : Fin 65536) (s : State) : exec (.trap st n) s = execTrap st n s := rfl
theorem exec_eret (st : Fin 8) (a : Fin 64) (b : Fin 64) (s : State) : exec (.eret st a b) s = execEret st a b s := rfl
theorem exec_snaprel (st : Fin 8) (s : State) : exec (.snaprel st) s = execSnaprel st s := rfl
theorem exec_rdms (st : Fin 8) (d : Fin 64) (n : Fin 1024) (s : State) : exec (.rdms st d n) s = execRdms st d n s := rfl
theorem exec_wrms (st : Fin 8) (a : Fin 64) (n : Fin 1024) (s : State) : exec (.wrms st a n) s = execWrms st a n s := rfl
theorem exec_halt (st : Fin 8) (a : Fin 64) (s : State) : exec (.halt st a) s = execHalt st a s := rfl
theorem exec_ld (d : Fin 64) (b : Fin 64) (p : Fin 8) (z : Fin 4) (o : Fin 256) (l : Lent) (s : State) : exec (.ld d b p z o l) s = execLd d b p z o l s := rfl
theorem exec_ldv (d : Fin 64) (b : Fin 64) (p : Fin 8) (z : Fin 4) (o : Fin 256) (l : Lent) (s : State) : exec (.ldv d b p z o l) s = execLdv d b p z o l s := rfl
theorem exec_ldg (d : Fin 64) (a : Fin 64) (b : Fin 64) (p : Fin 8) (sc : Fin 4) (e : Fin 4) (s : State) : exec (.ldg d a b p sc e) s = execLdg d a b p sc e s := rfl
theorem exec_ldb (d : Fin 64) (b : Fin 64) (p : Fin 8) (z : Fin 4) (o : Fin 256) (l : Lent) (s : State) : exec (.ldb d b p z o l) s = execLdb d b p z o l s := rfl
theorem exec_tagq (d : Fin 64) (a : Fin 64) (l : Lent) (s : State) : exec (.tagq d a l) s = execTagq d a l s := rfl
theorem exec_tagset (a : Fin 64) (k : Fin 1024) (l : Lent) (s : State) : exec (.tagset a k l) s = execTagset a k l s := rfl
theorem exec_tagclr (k : Fin 1024) (l : Lent) (s : State) : exec (.tagclr k l) s = execTagclr k l s := rfl
theorem exec_tld (d : Fin 64) (b : Fin 64) (p : Fin 8) (z : Fin 4) (o : Fin 256) (l : Lent) (s : State) : exec (.tld d b p z o l) s = execTld d b p z o l s := rfl
theorem exec_tdrop (a : Fin 64) (s : State) : exec (.tdrop a) s = execTdrop a s := rfl
theorem exec_tcnt (d : Fin 64) (a : Fin 64) (s : State) : exec (.tcnt d a) s = execTcnt d a s := rfl
theorem exec_tcntWait (d : Fin 64) (a : Fin 64) (s : State) : exec (.tcntWait d a) s = execTcntWait d a s := rfl
theorem exec_aadd (d : Fin 64) (a : Fin 64) (b : Fin 64) (z : Bool) (c : Fin 8) (o : Bool) (s : State) : exec (.aadd d a b z c o) s = execAadd d a b z c o s := rfl
theorem exec_amin (d : Fin 64) (a : Fin 64) (b : Fin 64) (z : Bool) (c : Fin 8) (o : Bool) (s : State) : exec (.amin d a b z c o) s = execAmin d a b z c o s := rfl
theorem exec_amax (d : Fin 64) (a : Fin 64) (b : Fin 64) (z : Bool) (c : Fin 8) (o : Bool) (s : State) : exec (.amax d a b z c o) s = execAmax d a b z c o s := rfl
theorem exec_aand (d : Fin 64) (a : Fin 64) (b : Fin 64) (z : Bool) (c : Fin 8) (o : Bool) (s : State) : exec (.aand d a b z c o) s = execAand d a b z c o s := rfl
theorem exec_aor (d : Fin 64) (a : Fin 64) (b : Fin 64) (z : Bool) (c : Fin 8) (o : Bool) (s : State) : exec (.aor d a b z c o) s = execAor d a b z c o s := rfl
theorem exec_axor (d : Fin 64) (a : Fin 64) (b : Fin 64) (z : Bool) (c : Fin 8) (o : Bool) (s : State) : exec (.axor d a b z c o) s = execAxor d a b z c o s := rfl
theorem exec_aswp (d : Fin 64) (a : Fin 64) (b : Fin 64) (z : Bool) (c : Fin 8) (o : Bool) (s : State) : exec (.aswp d a b z c o) s = execAswp d a b z c o s := rfl
theorem exec_acas (d : Fin 64) (a : Fin 64) (b : Fin 64) (z : Bool) (c : Fin 8) (o : Bool) (s : State) : exec (.acas d a b z c o) s = execAcas d a b z c o s := rfl
theorem exec_cpyIn (a : Fin 64) (b : Fin 64) (c : Fin 64) (imm : Fin 16) (h : Fin 8) (mw : Micro) (s : State) : exec (.cpyIn a b c imm h mw) s = execCpyIn a b c imm h mw s := rfl
theorem exec_cpygIn (a : Fin 64) (b : Fin 64) (c : Fin 64) (imm : Fin 16) (h : Fin 8) (mw : Micro) (s : State) : exec (.cpygIn a b c imm h mw) s = execCpygIn a b c imm h mw s := rfl
theorem exec_cpysIn (a : Fin 64) (b : Fin 64) (c : Fin 64) (imm : Fin 16) (h : Fin 8) (mw : Micro) (s : State) : exec (.cpysIn a b c imm h mw) s = execCpysIn a b c imm h mw s := rfl
theorem exec_cpyfIn (f : Bool) (b : Fin 64) (c : Fin 64) (imm : Fin 16) (h : Fin 8) (mw : Micro) (s : State) : exec (.cpyfIn f b c imm h mw) s = execCpyfIn f b c imm h mw s := rfl
theorem exec_shape (a : Fin 64) (k : Fin 16) (l : Lent) (s : State) : exec (.shape a k l) s = execShape a k l s := rfl
theorem exec_hread (d : Fin 64) (sc : Fin 64) (t : Fin 64) (u : Fin 128) (l : Lent) (s : State) : exec (.hread d sc t u l) s = execHread d sc t u l s := rfl
theorem exec_hwait (a : Fin 64) (s : State) : exec (.hwait a) s = execHwait a s := rfl
theorem exec_hstat (d : Fin 64) (a : Fin 64) (s : State) : exec (.hstat d a) s = execHstat d a s := rfl
theorem exec_hrel (a : Fin 64) (s : State) : exec (.hrel a) s = execHrel a s := rfl
theorem exec_gload (d : Fin 64) (k : Fin 1024) (l : Lent) (s : State) : exec (.gload d k l) s = execGload d k l s := rfl
theorem exec_vadd (d : Fin 64) (a : Fin 64) (b : Fin 64) (p : Fin 8) (e : Fin 4) (u : Bool) (sc : Bool) (sh : Lent) (s : State) : exec (.vadd d a b p e u sc sh) s = execVadd d a b p e u sc sh s := rfl
theorem exec_vsub (d : Fin 64) (a : Fin 64) (b : Fin 64) (p : Fin 8) (e : Fin 4) (u : Bool) (sc : Bool) (sh : Lent) (s : State) : exec (.vsub d a b p e u sc sh) s = execVsub d a b p e u sc sh s := rfl
theorem exec_vmul (d : Fin 64) (a : Fin 64) (b : Fin 64) (p : Fin 8) (e : Fin 4) (u : Bool) (sc : Bool) (sh : Lent) (s : State) : exec (.vmul d a b p e u sc sh) s = execVmul d a b p e u sc sh s := rfl
theorem exec_vmulh (d : Fin 64) (a : Fin 64) (b : Fin 64) (p : Fin 8) (e : Fin 4) (u : Bool) (sh : Lent) (s : State) : exec (.vmulh d a b p e u sh) s = execVmulh d a b p e u sh s := rfl
theorem exec_vmin (d : Fin 64) (a : Fin 64) (b : Fin 64) (p : Fin 8) (e : Fin 4) (u : Bool) (sh : Lent) (s : State) : exec (.vmin d a b p e u sh) s = execVmin d a b p e u sh s := rfl
theorem exec_vmax (d : Fin 64) (a : Fin 64) (b : Fin 64) (p : Fin 8) (e : Fin 4) (u : Bool) (sh : Lent) (s : State) : exec (.vmax d a b p e u sh) s = execVmax d a b p e u sh s := rfl
theorem exec_vand (d : Fin 64) (a : Fin 64) (b : Fin 64) (p : Fin 8) (sh : Lent) (s : State) : exec (.vand d a b p sh) s = execVand d a b p sh s := rfl
theorem exec_vor (d : Fin 64) (a : Fin 64) (b : Fin 64) (p : Fin 8) (sh : Lent) (s : State) : exec (.vor d a b p sh) s = execVor d a b p sh s := rfl
theorem exec_vxor (d : Fin 64) (a : Fin 64) (b : Fin 64) (p : Fin 8) (sh : Lent) (s : State) : exec (.vxor d a b p sh) s = execVxor d a b p sh s := rfl
theorem exec_vshl (d : Fin 64) (a : Fin 64) (b : Fin 64) (p : Fin 8) (e : Fin 4) (sh : Lent) (s : State) : exec (.vshl d a b p e sh) s = execVshl d a b p e sh s := rfl
theorem exec_vshr (d : Fin 64) (a : Fin 64) (b : Fin 64) (p : Fin 8) (e : Fin 4) (sh : Lent) (s : State) : exec (.vshr d a b p e sh) s = execVshr d a b p e sh s := rfl
theorem exec_vsra (d : Fin 64) (a : Fin 64) (b : Fin 64) (p : Fin 8) (e : Fin 4) (sh : Lent) (s : State) : exec (.vsra d a b p e sh) s = execVsra d a b p e sh s := rfl
theorem exec_vabs (d : Fin 64) (a : Fin 64) (p : Fin 8) (e : Fin 4) (sc : Bool) (sh : Lent) (s : State) : exec (.vabs d a p e sc sh) s = execVabs d a p e sc sh s := rfl
theorem exec_vneg (d : Fin 64) (a : Fin 64) (p : Fin 8) (e : Fin 4) (sc : Bool) (sh : Lent) (s : State) : exec (.vneg d a p e sc sh) s = execVneg d a p e sc sh s := rfl
theorem exec_vclz (d : Fin 64) (a : Fin 64) (p : Fin 8) (e : Fin 4) (sh : Lent) (s : State) : exec (.vclz d a p e sh) s = execVclz d a p e sh s := rfl
theorem exec_vpopc (d : Fin 64) (a : Fin 64) (p : Fin 8) (e : Fin 4) (sh : Lent) (s : State) : exec (.vpopc d a p e sh) s = execVpopc d a p e sh s := rfl
theorem exec_vfadd (d : Fin 64) (a : Fin 64) (b : Fin 64) (p : Fin 8) (t : Fin 4) (r : Fin 4) (sh : Lent) (s : State) : exec (.vfadd d a b p t r sh) s = execVfadd d a b p t r sh s := rfl
theorem exec_vfsub (d : Fin 64) (a : Fin 64) (b : Fin 64) (p : Fin 8) (t : Fin 4) (r : Fin 4) (sh : Lent) (s : State) : exec (.vfsub d a b p t r sh) s = execVfsub d a b p t r sh s := rfl
theorem exec_vfmul (d : Fin 64) (a : Fin 64) (b : Fin 64) (p : Fin 8) (t : Fin 4) (r : Fin 4) (sh : Lent) (s : State) : exec (.vfmul d a b p t r sh) s = execVfmul d a b p t r sh s := rfl
theorem exec_vfma (d : Fin 64) (a : Fin 64) (b : Fin 64) (p : Fin 8) (t : Fin 4) (r : Fin 4) (sh : Lent) (s : State) : exec (.vfma d a b p t r sh) s = execVfma d a b p t r sh s := rfl
theorem exec_vfmin (d : Fin 64) (a : Fin 64) (b : Fin 64) (p : Fin 8) (t : Fin 4) (sh : Lent) (s : State) : exec (.vfmin d a b p t sh) s = execVfmin d a b p t sh s := rfl
theorem exec_vfmax (d : Fin 64) (a : Fin 64) (b : Fin 64) (p : Fin 8) (t : Fin 4) (sh : Lent) (s : State) : exec (.vfmax d a b p t sh) s = execVfmax d a b p t sh s := rfl
theorem exec_vfabs (d : Fin 64) (a : Fin 64) (p : Fin 8) (t : Fin 4) (sh : Lent) (s : State) : exec (.vfabs d a p t sh) s = execVfabs d a p t sh s := rfl
theorem exec_vfneg (d : Fin 64) (a : Fin 64) (p : Fin 8) (t : Fin 4) (sh : Lent) (s : State) : exec (.vfneg d a p t sh) s = execVfneg d a p t sh s := rfl
theorem exec_vcmp (c : Fin 8) (q : Fin 8) (a : Fin 64) (b : Fin 64) (p : Fin 8) (u : Bool) (sh : Lent) (s : State) : exec (.vcmp c q a b p u sh) s = execVcmp c q a b p u sh s := rfl
theorem exec_vfcmp (c : Fin 8) (q : Fin 8) (a : Fin 64) (b : Fin 64) (p : Fin 8) (sh : Lent) (s : State) : exec (.vfcmp c q a b p sh) s = execVfcmp c q a b p sh s := rfl
theorem exec_vsel (d : Fin 64) (a : Fin 64) (b : Fin 64) (n : Fin 8) (sh : Lent) (s : State) : exec (.vsel d a b n sh) s = execVsel d a b n sh s := rfl
theorem exec_vshuf (d : Fin 64) (a : Fin 64) (b : Fin 64) (p : Fin 8) (sh : Lent) (s : State) : exec (.vshuf d a b p sh) s = execVshuf d a b p sh s := rfl
theorem exec_vbcast (d : Fin 64) (a : Fin 64) (k : Fin 16) (p : Fin 8) (sh : Lent) (s : State) : exec (.vbcast d a k p sh) s = execVbcast d a k p sh s := rfl
theorem exec_vmovs (d : Fin 64) (a : Fin 64) (p : Fin 8) (sh : Lent) (s : State) : exec (.vmovs d a p sh) s = execVmovs d a p sh s := rfl
theorem exec_vmovsTos (d : Fin 64) (a : Fin 64) (k : Fin 16) (sh : Lent) (s : State) : exec (.vmovsTos d a k sh) s = execVmovsTos d a k sh s := rfl
theorem exec_vmov (d : Fin 64) (a : Fin 64) (p : Fin 8) (sh : Lent) (s : State) : exec (.vmov d a p sh) s = execVmov d a p sh s := rfl
theorem exec_vradd (d : Fin 64) (a : Fin 64) (p : Fin 8) (u : Bool) (sc : Bool) (sh : Lent) (s : State) : exec (.vradd d a p u sc sh) s = execVradd d a p u sc sh s := rfl
theorem exec_vrmin (d : Fin 64) (a : Fin 64) (p : Fin 8) (u : Bool) (sh : Lent) (s : State) : exec (.vrmin d a p u sh) s = execVrmin d a p u sh s := rfl
theorem exec_vrmax (d : Fin 64) (a : Fin 64) (p : Fin 8) (u : Bool) (sh : Lent) (s : State) : exec (.vrmax d a p u sh) s = execVrmax d a p u sh s := rfl
theorem exec_vfradd (d : Fin 64) (a : Fin 64) (p : Fin 8) (r : Fin 4) (sh : Lent) (s : State) : exec (.vfradd d a p r sh) s = execVfradd d a p r sh s := rfl
theorem exec_vfrmin (d : Fin 64) (a : Fin 64) (p : Fin 8) (sh : Lent) (s : State) : exec (.vfrmin d a p sh) s = execVfrmin d a p sh s := rfl
theorem exec_vfrmax (d : Fin 64) (a : Fin 64) (p : Fin 8) (sh : Lent) (s : State) : exec (.vfrmax d a p sh) s = execVfrmax d a p sh s := rfl
theorem exec_vcvt (d : Fin 64) (a : Fin 64) (f : Fin 8) (g : Fin 8) (p : Fin 8) (k : Fin 4) (r : Fin 4) (sh : Lent) (s : State) : exec (.vcvt d a f g p k r sh) s = execVcvt d a f g p k r sh s := rfl
theorem exec_vxc (d : Fin 64) (a : Fin 64) (k : Fin 8) (p : Fin 8) (m : Fin 4) (sh : Lent) (s : State) : exec (.vxc d a k p m sh) s = execVxc d a k p m sh s := rfl
theorem exec_pwld (a : Fin 64) (j : Fin 64) (sh : Lent) (s : State) : exec (.pwld a j sh) s = execPwld a j sh s := rfl
theorem exec_vpwp (d : Fin 64) (a : Fin 64) (p : Fin 8) (sh : Lent) (s : State) : exec (.vpwp d a p sh) s = execVpwp d a p sh s := rfl
theorem exec_brank (d : Fin 64) (a : Fin 64) (b : Fin 64) (p : Fin 8) (sh : Lent) (s : State) : exec (.brank d a b p sh) s = execBrank d a b p sh s := rfl
theorem exec_bsel (d : Fin 64) (a : Fin 64) (b : Fin 64) (p : Fin 8) (sh : Lent) (s : State) : exec (.bsel d a b p sh) s = execBsel d a b p sh s := rfl
theorem exec_vaddi (d : Fin 64) (a : Fin 64) (p : Fin 8) (imm : Fin 1024) (sh : Lent) (s : State) : exec (.vaddi d a p imm sh) s = execVaddi d a p imm sh s := rfl
theorem exec_vli (d : Fin 64) (p : Fin 8) (imm : Fin 1024) (sh : Lent) (s : State) : exec (.vli d p imm sh) s = execVli d p imm sh s := rfl
theorem exec_st (d : Fin 64) (b : Fin 64) (p : Fin 8) (z : Fin 4) (o : Fin 256) (l : Lent) (s : State) : exec (.st d b p z o l) s = execSt d b p z o l s := rfl
theorem exec_stv (d : Fin 64) (b : Fin 64) (p : Fin 8) (z : Fin 4) (o : Fin 256) (l : Lent) (s : State) : exec (.stv d b p z o l) s = execStv d b p z o l s := rfl
theorem exec_sts (d : Fin 64) (a : Fin 64) (b : Fin 64) (p : Fin 8) (sc : Fin 4) (e : Fin 4) (s : State) : exec (.sts d a b p sc e) s = execSts d a b p sc e s := rfl
theorem exec_cowst (d : Fin 64) (b : Fin 64) (p : Fin 8) (z : Fin 4) (o : Fin 256) (l : Lent) (s : State) : exec (.cowst d b p z o l) s = execCowst d b p z o l s := rfl
theorem exec_talloc (d : Fin 64) (sc : Fin 64) (n : Fin 64) (t : Fin 8) (l : Fin 16) (l2 : Lent) (s : State) : exec (.talloc d sc n t l l2) s = execTalloc d sc n t l l2 s := rfl
theorem exec_twr (d : Fin 64) (b : Fin 64) (p : Fin 8) (z : Fin 4) (o : Fin 256) (l : Lent) (s : State) : exec (.twr d b p z o l) s = execTwr d b p z o l s := rfl
theorem exec_tseal (a : Fin 64) (s : State) : exec (.tseal a) s = execTseal a s := rfl
theorem exec_cpyOut (a : Fin 64) (b : Fin 64) (c : Fin 64) (imm : Fin 16) (h : Fin 8) (mw : Micro) (s : State) : exec (.cpyOut a b c imm h mw) s = execCpyOut a b c imm h mw s := rfl
theorem exec_cpygOut (a : Fin 64) (b : Fin 64) (c : Fin 64) (imm : Fin 16) (h : Fin 8) (mw : Micro) (s : State) : exec (.cpygOut a b c imm h mw) s = execCpygOut a b c imm h mw s := rfl
theorem exec_cpysOut (a : Fin 64) (b : Fin 64) (c : Fin 64) (imm : Fin 16) (h : Fin 8) (mw : Micro) (s : State) : exec (.cpysOut a b c imm h mw) s = execCpysOut a b c imm h mw s := rfl
theorem exec_cpyfOut (f : Bool) (b : Fin 64) (c : Fin 64) (imm : Fin 16) (h : Fin 8) (mw : Micro) (s : State) : exec (.cpyfOut f b c imm h mw) s = execCpyfOut f b c imm h mw s := rfl
theorem exec_publish (n : Fin 64) (s : State) : exec (.publish n) s = execPublish n s := rfl
theorem exec_publishDef (n : Fin 64) (a : Fin 64) (s : State) : exec (.publishDef n a) s = execPublishDef n a s := rfl
theorem exec_publishUndef (n : Fin 64) (s : State) : exec (.publishUndef n) s = execPublishUndef n s := rfl
theorem exec_drain (h : Fin 8) (c : Fin 8) (s : State) : exec (.drain h c) s = execDrain h c s := rfl
theorem exec_fence (c : Fin 8) (s : State) : exec (.fence c) s = execFence c s := rfl
theorem exec_mark (s : State) : exec (.mark) s = execMark s := rfl
theorem exec_tlbiVa (a : Fin 64) (s : State) : exec (.tlbiVa a) s = execTlbiVa a s := rfl
theorem exec_tlbiOwn (s : State) : exec (.tlbiOwn) s = execTlbiOwn s := rfl
theorem exec_tlbiPva (a : Fin 64) (b : Fin 64) (s : State) : exec (.tlbiPva a b) s = execTlbiPva a b s := rfl
theorem exec_tlbiPart (b : Fin 64) (s : State) : exec (.tlbiPart b) s = execTlbiPart b s := rfl
theorem exec_tlbiGlob (s : State) : exec (.tlbiGlob) s = execTlbiGlob s := rfl
theorem exec_pagemv (a : Fin 64) (b : Fin 64) (h : Fin 8) (l : Lent) (s : State) : exec (.pagemv a b h l) s = execPagemv a b h l s := rfl
theorem exec_wmap (a : Fin 64) (b : Fin 64) (n : Fin 16) (l : Lent) (s : State) : exec (.wmap a b n l) s = execWmap a b n l s := rfl
theorem exec_wunmap (n : Fin 16) (s : State) : exec (.wunmap n) s = execWunmap n s := rfl
theorem exec_lease (a : Fin 64) (l : Lent) (s : State) : exec (.lease a l) s = execLease a l s := rfl
theorem exec_lfree (l : Lent) (s : State) : exec (.lfree l) s = execLfree l s := rfl
theorem exec_mcfg (a : Fin 64) (l : Lent) (s : State) : exec (.mcfg a l) s = execMcfg a l s := rfl
theorem exec_mma (a : Fin 64) (f : Fin 32) (g : Fin 32) (sc : Bool) (o : Bool) (n : Bool) (m : Bool) (k : Fin 4) (l : Lent) (s : State) : exec (.mma a f g sc o n m k l) s = execMma a f g sc o n m k l s := rfl
theorem exec_mmv (a : Fin 64) (f : Fin 32) (g : Fin 32) (r : Bool) (sc : Bool) (o : Bool) (n : Bool) (m : Bool) (k : Fin 4) (l : Lent) (s : State) : exec (.mmv a f g r sc o n m k l) s = execMmv a f g r sc o n m k l s := rfl
theorem exec_mdrain (a : Fin 64) (k : Fin 4) (l : Lent) (s : State) : exec (.mdrain a k l) s = execMdrain a k l s := rfl
theorem exec_mzero (k : Fin 4) (l : Lent) (s : State) : exec (.mzero k l) s = execMzero k l s := rfl
theorem exec_mwait (k : Fin 16) (l : Lent) (s : State) : exec (.mwait k l) s = execMwait k l s := rfl
theorem exec_rte (a : Fin 64) (imm : Fin 16) (h : Fin 8) (l : Lent) (s : State) : exec (.rte a imm h l) s = execRte a imm h l s := rfl
theorem exec_apre (a : Fin 64) (imm : Fin 16) (h : Fin 8) (l : Lent) (s : State) : exec (.apre a imm h l) s = execApre a imm h l s := rfl
theorem exec_adec (a : Fin 64) (imm : Fin 16) (h : Fin 8) (l : Lent) (s : State) : exec (.adec a imm h l) s = execAdec a imm h l s := rfl
theorem exec_kvag (a : Fin 64) (g : Fin 16) (l : Lent) (s : State) : exec (.kvag a g l) s = execKvag a g l s := rfl
theorem exec_xsend (a : Fin 64) (b : Fin 64) (c : Fin 64) (imm : Fin 16) (h : Fin 8) (l : Lent) (s : State) : exec (.xsend a b c imm h l) s = execXsend a b c imm h l s := rfl
theorem exec_xrecv (d : Fin 64) (k : Fin 64) (l : Lent) (s : State) : exec (.xrecv d k l) s = execXrecv d k l s := rfl
theorem exec_ptrcfg (a : Fin 64) (l : Lent) (s : State) : exec (.ptrcfg a l) s = execPtrcfg a l s := rfl
theorem exec_ptrld (a : Fin 64) (b : Fin 64) (l : Lent) (s : State) : exec (.ptrld a b l) s = execPtrld a b l s := rfl
theorem exec_ptrrun (a : Fin 64) (b : Fin 64) (c : Fin 64) (l : Lent) (s : State) : exec (.ptrrun a b c l) s = execPtrrun a b c l s := rfl
theorem exec_snapst (b : Fin 64) (o : Fin 256) (l : Lent) (s : State) : exec (.snapst b o l) s = execSnapst b o l s := rfl
theorem exec_registerWriteLands (c : Nat) (s : State) : exec (.registerWriteLands c) s = execRegisterWriteLands c s := rfl
theorem exec_interlockedResultArrives (c : Nat) (id : Nat) (s : State) : exec (.interlockedResultArrives c id) s = execInterlockedResultArrives c id s := rfl
theorem exec_trapEntry (slot : Nat) (code : Nat) (sub : Nat) (info : BitVec 64) (s : State) : exec (.trapEntry slot code sub info) s = execTrapEntry slot code sub info s := rfl
theorem exec_pageWalk (d : Nat) (p : Nat) (vpn : Nat) (s : State) : exec (.pageWalk d p vpn) s = execPageWalk d p vpn s := rfl
theorem exec_copySegment (q : Nat) (id : Nat) (s : State) : exec (.copySegment q id) s = execCopySegment q id s := rfl
theorem exec_copyComplete (c : Nat) (h : Nat) (s : State) : exec (.copyComplete c h) s = execCopyComplete c h s := rfl
theorem exec_pagemvCopyComplete (q : Nat) (id : Nat) (s : State) : exec (.pagemvCopyComplete q id) s = execPagemvCopyComplete q id s := rfl
theorem exec_hotRegionSwap (k : Nat) (r : Nat) (r2 : Nat) (s : State) : exec (.hotRegionSwap k r r2) s = execHotRegionSwap k r r2 s := rfl
theorem exec_pseudoChannelPowerDown (k : Nat) (ch : Nat) (s : State) : exec (.pseudoChannelPowerDown k ch) s = execPseudoChannelPowerDown k ch s := rfl
theorem exec_pseudoChannelSelfRefresh (k : Nat) (ch : Nat) (s : State) : exec (.pseudoChannelSelfRefresh k ch) s = execPseudoChannelSelfRefresh k ch s := rfl
theorem exec_stackRetrain (k : Nat) (s : State) : exec (.stackRetrain k) s = execStackRetrain k s := rfl
theorem exec_handleRequestArrives (id : Nat) (s : State) : exec (.handleRequestArrives id) s = execHandleRequestArrives id s := rfl
theorem exec_flashPageRead (e : Nat) (slot : Nat) (lp : Nat) (s : State) : exec (.flashPageRead e slot lp) s = execFlashPageRead e slot lp s := rfl
theorem exec_relocationSwitch (e : Nat) (k : Nat) (b : Nat) (s : State) : exec (.relocationSwitch e k b) s = execRelocationSwitch e k b s := rfl
theorem exec_oldBlockErase (e : Nat) (k : Nat) (b : Nat) (s : State) : exec (.oldBlockErase e k b) s = execOldBlockErase e k b s := rfl
theorem exec_rebuild (e : Nat) (lp : Nat) (s : State) : exec (.rebuild e lp) s = execRebuild e lp s := rfl
theorem exec_relocate (e : Nat) (lp : Nat) (s : State) : exec (.relocate e lp) s = execRelocate e lp s := rfl
theorem exec_retire (e : Nat) (lp : Nat) (s : State) : exec (.retire e lp) s = execRetire e lp s := rfl
theorem exec_refill (e : Nat) (lp : Nat) (s : State) : exec (.refill e lp) s = execRefill e lp s := rfl
theorem exec_ftlCommandComplete (e : Nat) (s : State) : exec (.ftlCommandComplete e) s = execFtlCommandComplete e s := rfl
theorem exec_pointerRun (d : Nat) (s : State) : exec (.pointerRun d) s = execPointerRun d s := rfl
theorem exec_tallocRequestArrives (c : Nat) (s : State) : exec (.tallocRequestArrives c) s = execTallocRequestArrives c s := rfl
theorem exec_tallocGrant (d : Nat) (s : State) : exec (.tallocGrant d) s = execTallocGrant d s := rfl
theorem exec_tileAccessArrives (id : Nat) (s : State) : exec (.tileAccessArrives id) s = execTileAccessArrives id s := rfl
theorem exec_leaseGrant (q : Nat) (s : State) : exec (.leaseGrant q) s = execLeaseGrant q s := rfl
theorem exec_turnGrant (q : Nat) (s : State) : exec (.turnGrant q) s = execTurnGrant q s := rfl
theorem exec_matrixCommandRetire (q : Nat) (s : State) : exec (.matrixCommandRetire q) s = execMatrixCommandRetire q s := rfl
theorem exec_groupPartArrives (q : Nat) (src : Nat) (s : State) : exec (.groupPartArrives q src) s = execGroupPartArrives q src s := rfl
theorem exec_drainRowLeaves (q : Nat) (s : State) : exec (.drainRowLeaves q) s = execDrainRowLeaves q s := rfl
theorem exec_attentionCommandComplete (e : Nat) (s : State) : exec (.attentionCommandComplete e) s = execAttentionCommandComplete e s := rfl
theorem exec_capacityRequest (id : Nat) (s : State) : exec (.capacityRequest id) s = execCapacityRequest id s := rfl
theorem exec_routingRound (d : Nat) (s : State) : exec (.routingRound d) s = execRoutingRound d s := rfl
theorem exec_xsendBinding (id : Nat) (s : State) : exec (.xsendBinding id) s = execXsendBinding id s := rfl
theorem exec_landing (id : Nat) (s : State) : exec (.landing id) s = execLanding id s := rfl
theorem exec_xrecvRequestArrives (id : Nat) (s : State) : exec (.xrecvRequestArrives id) s = execXrecvRequestArrives id s := rfl
theorem exec_superstepBoundary (p : Nat) (s : State) : exec (.superstepBoundary p) s = execSuperstepBoundary p s := rfl
theorem exec_beaconTick (s : State) : exec (.beaconTick) s = execBeaconTick s := rfl
theorem exec_frameStart (p : Nat) (s : State) : exec (.frameStart p) s = execFrameStart p s := rfl
theorem exec_deferredFrameStart (p : Nat) (s : State) : exec (.deferredFrameStart p) s = execDeferredFrameStart p s := rfl
theorem exec_frameAdvance (p : Nat) (s : State) : exec (.frameAdvance p) s = execFrameAdvance p s := rfl
theorem exec_taskInsertion (id : Nat) (s : State) : exec (.taskInsertion id) s = execTaskInsertion id s := rfl
theorem exec_taskReady (p : Nat) (ent : Nat) (s : State) : exec (.taskReady p ent) s = execTaskReady p ent s := rfl
theorem exec_taskDispatch (d : Nat) (s : State) : exec (.taskDispatch d) s = execTaskDispatch d s := rfl
theorem exec_continuationResume (c : Nat) (s : State) : exec (.continuationResume c) s = execContinuationResume c s := rfl
theorem exec_parkWake (p : Nat) (ent : Nat) (s : State) : exec (.parkWake p ent) s = execParkWake p ent s := rfl
theorem exec_installTemplate (s : State) : exec (.installTemplate) s = execInstallTemplate s := rfl
theorem exec_launchTasks (s : State) : exec (.launchTasks) s = execLaunchTasks s := rfl
theorem exec_removeTemplate (s : State) : exec (.removeTemplate) s = execRemoveTemplate s := rfl
theorem exec_tearDownPartition (s : State) : exec (.tearDownPartition) s = execTearDownPartition s := rfl
theorem exec_launchWindowWrite (off : Nat) (data : List (BitVec 8)) (s : State) : exec (.launchWindowWrite off data) s = execLaunchWindowWrite off data s := rfl
theorem exec_hostMemWrite (a : Nat) (data : List (BitVec 8)) (s : State) : exec (.hostMemWrite a data) s = execHostMemWrite a data s := rfl
theorem exec_hostMemRead (a : Nat) (n : Nat) (s : State) : exec (.hostMemRead a n) s = execHostMemRead a n s := rfl
theorem exec_pod (a0 : BitVec 64) (a1 : BitVec 64) (a2 : BitVec 64) (a3 : BitVec 64) (s : State) : exec (.pod a0 a1 a2 a3) s = execPod a0 a1 a2 a3 s := rfl
theorem exec_loadw (a0 : BitVec 64) (a1 : BitVec 64) (a2 : BitVec 64) (a3 : BitVec 64) (a4 : BitVec 64) (a5 : BitVec 64) (s : State) : exec (.loadw a0 a1 a2 a3 a4 a5) s = execLoadw a0 a1 a2 a3 a4 a5 s := rfl
theorem exec_weightChunk (data : List (BitVec 8)) (s : State) : exec (.weightChunk data) s = execWeightChunk data s := rfl
theorem exec_loadwSwitch (s : State) : exec (.loadwSwitch) s = execLoadwSwitch s := rfl
theorem exec_attest (a0 : BitVec 64) (a1 : BitVec 64) (s : State) : exec (.attest a0 a1) s = execAttest a0 a1 s := rfl
theorem exec_fwstage (a0 : BitVec 64) (a1 : BitVec 64) (s : State) : exec (.fwstage a0 a1) s = execFwstage a0 a1 s := rfl
theorem exec_podBarrierMessage (pkg : Nat) (isBar : Bool) (p : Nat) (g : Nat) (n : Nat) (s : State) : exec (.podBarrierMessage pkg isBar p g n) s = execPodBarrierMessage pkg isBar p g n s := rfl
theorem exec_podBarrierRelease (isBar : Bool) (p : Nat) (g : Nat) (n : Nat) (s : State) : exec (.podBarrierRelease isBar p g n) s = execPodBarrierRelease isBar p g n s := rfl
theorem exec_ptpMessage (offsetNs : Int) (s : State) : exec (.ptpMessage offsetNs) s = execPtpMessage offsetNs s := rfl
theorem exec_linkRetry (s : State) : exec (.linkRetry) s = execLinkRetry s := rfl
theorem exec_keeperWindow (s : State) : exec (.keeperWindow) s = execKeeperWindow s := rfl
theorem exec_keepcfgWrite (v : BitVec 64) (s : State) : exec (.keepcfgWrite v) s = execKeepcfgWrite v s := rfl
theorem exec_poolbaseWrite (v : BitVec 64) (s : State) : exec (.poolbaseWrite v) s = execPoolbaseWrite v s := rfl
theorem exec_srseedWrite (p : Nat) (v : BitVec 64) (s : State) : exec (.srseedWrite p v) s = execSrseedWrite p v s := rfl
theorem exec_ttbaseWrite (p : Nat) (v : BitVec 64) (s : State) : exec (.ttbaseWrite p v) s = execTtbaseWrite p v s := rfl
theorem exec_kpartWrite (n : Nat) (v : BitVec 64) (s : State) : exec (.kpartWrite n v) s = execKpartWrite n v s := rfl
theorem exec_sscfgWrite (p : Nat) (v : BitVec 64) (s : State) : exec (.sscfgWrite p v) s = execSscfgWrite p v s := rfl
theorem exec_sliceWrite (n : Nat) (v : BitVec 64) (s : State) : exec (.sliceWrite n v) s = execSliceWrite n v s := rfl
theorem exec_pstateHalt (p : Nat) (s : State) : exec (.pstateHalt p) s = execPstateHalt p s := rfl
theorem exec_pstateResume (p : Nat) (s : State) : exec (.pstateResume p) s = execPstateResume p s := rfl
theorem exec_svackRelease (ix : Nat) (s : State) : exec (.svackRelease ix) s = execSvackRelease ix s := rfl
theorem exec_svackEnd (ix : Nat) (s : State) : exec (.svackEnd ix) s = execSvackEnd ix s := rfl
theorem exec_svqRecordWrite (d : Nat) (s : State) : exec (.svqRecordWrite d) s = execSvqRecordWrite d s := rfl
theorem exec_haltLineArrives (p : Nat) (kind : Nat) (ix : Nat) (s : State) : exec (.haltLineArrives p kind ix) s = execHaltLineArrives p kind ix s := rfl
theorem exec_halted (p : Nat) (s : State) : exec (.halted p) s = execHalted p s := rfl
theorem exec_sliceEnd (d : Nat) (s : State) : exec (.sliceEnd d) s = execSliceEnd d s := rfl
theorem exec_preemptionUnitSave (d : Nat) (kind : Nat) (ix : Nat) (s : State) : exec (.preemptionUnitSave d kind ix) s = execPreemptionUnitSave d kind ix s := rfl
theorem exec_preemptionComplete (d : Nat) (s : State) : exec (.preemptionComplete d) s = execPreemptionComplete d s := rfl
theorem exec_powerUp (s : State) : exec (.powerUp) s = execPowerUp s := rfl
theorem exec_bringupStageComplete (ok : Bool) (s : State) : exec (.bringupStageComplete ok) s = execBringupStageComplete ok s := rfl
theorem exec_cxlReset (s : State) : exec (.cxlReset) s = execCxlReset s := rfl
theorem exec_storePerformed (q : Nat) (s : State) : exec (.storePerformed q) s = execStorePerformed q s := rfl
theorem exec_instructionFetchMissReturn (c : Nat) (s : State) : exec (.instructionFetchMissReturn c) s = execInstructionFetchMissReturn c s := rfl
theorem exec_routingPassComplete (d : Nat) (s : State) : exec (.routingPassComplete d) s = execRoutingPassComplete d s := rfl
theorem exec_powerOff (s : State) : exec (.powerOff) s = execPowerOff s := rfl
theorem exec_portLaneChange (lanes : Nat) (s : State) : exec (.portLaneChange lanes) s = execPortLaneChange lanes s := rfl
theorem exec_loadwDoneReport (pkg : Nat) (s : State) : exec (.loadwDoneReport pkg) s = execLoadwDoneReport pkg s := rfl

end Sys2Proof.Machine
end

