-- ==== Sys2Proof/Laws/Lane.lean ====
section
/-! SUPPORT. Lanes of a row (R163): what a row built from its lanes holds, and what writing some lanes of a row leaves. -/
namespace Sys2Proof.Machine

theorem lane_getLsbD (x : Row) (l i : Nat) (h : i < 32) : (lane x l).getLsbD i = x.getLsbD (32 * l + i) := by
  simp [lane, h]

theorem rowOf_getLsbD (f : Nat → W32) : ∀ n, n ≤ 16 → ∀ j, (rowOf f n).getLsbD j = (decide (j < 32 * n) && (f (j / 32)).getLsbD (j % 32)) := by
  intro n
  induction n with
  | zero => intro _ j; simp [rowOf]
  | succ n ih =>
    intro hn j
    have ih := ih (by omega) j
    unfold rowOf
    rw [BitVec.getLsbD_or, ih, BitVec.getLsbD_shiftLeft]
    by_cases h1 : j < 32 * n
    · have h2 : j < 32 * (n + 1) := by omega
      simp [h1, h2]
    · by_cases h2 : j < 32 * (n + 1)
      · have e1 : j / 32 = n := by omega
        have e2 : j % 32 = j - 32 * n := by omega
        have e3 : j < 512 := by omega
        have e4 : j - 32 * n < 512 := by omega
        simp [h1, h2, e1, e2, e3, e4]
      · have e5 : (f n).getLsbD (j - 32 * n) = false := BitVec.getLsbD_of_ge _ _ (by omega)
        simp [h1, h2, e5]

/-- A row built from its lanes holds them. -/
theorem lane_rowOf (f : Nat → W32) {l : Nat} (h : l < 16) : lane (rowOf f 16) l = f l := by
  apply BitVec.eq_of_getLsbD_eq
  intro i hi
  rw [lane_getLsbD _ _ _ hi, rowOf_getLsbD f 16 (by omega)]
  have e1 : (32 * l + i) / 32 = l := by omega
  have e2 : (32 * l + i) % 32 = i := by omega
  have e3 : 32 * l + i < 512 := by omega
  simp [e1, e2, e3]

theorem low32 (i : Nat) (h : i < 512) : (BitVec.ofNat 512 (2 ^ 32 - 1)).getLsbD i = decide (i < 32) := by
  rw [BitVec.getLsbD_ofNat, Nat.testBit_two_pow_sub_one]
  simp [h]

theorem laneMask_getLsbD (p : Pred) (c : Nat) : ∀ n, n ≤ 16 → ∀ j,
    (laneMask p c n).getLsbD j = (decide (j < 32 * n) && p.getLsbD (16 * c + j / 32)) := by
  intro n
  induction n with
  | zero => intro _ j; simp [laneMask]
  | succ n ih =>
    intro hn j
    have ih := ih (by omega) j
    unfold laneMask
    rw [BitVec.getLsbD_or, ih]
    by_cases h1 : j < 32 * n
    · have h2 : j < 32 * (n + 1) := by omega
      have h3 : ((if p.getLsbD (16 * c + n) = true then (BitVec.ofNat 512 (2 ^ 32 - 1)) <<< (32 * n) else 0 : Row)).getLsbD j = false := by
        split
        · rw [BitVec.getLsbD_shiftLeft]; simp [h1]
        · simp
      rw [h3]; simp [h1, h2]
    · by_cases h2 : j < 32 * (n + 1)
      · have e1 : j / 32 = n := by omega
        have e3 : j < 512 := by omega
        have e4 : j - 32 * n < 32 := by omega
        have e6 : j - 32 * n < 512 := by omega
        simp only [h1, h2, e1, decide_true, decide_false, Bool.true_and, Bool.false_and, Bool.or_false]
        split
        · next h => rw [BitVec.getLsbD_shiftLeft, low32 _ e6]; simp [e3, h1, e4, h]
        · next h => simp at h; simp [h]
      · have h3 : ((if p.getLsbD (16 * c + n) = true then (BitVec.ofNat 512 (2 ^ 32 - 1)) <<< (32 * n) else 0 : Row)).getLsbD j = false := by
          split
          · rw [BitVec.getLsbD_shiftLeft]
            by_cases hj : j < 512
            · rw [low32 _ (by omega)]
              have : ¬ j - 32 * n < 32 := by omega
              simp [this]
            · simp [hj]
          · simp
        rw [h3]; simp [h1, h2]

/-- Writing the lanes of a mask into a row: those lanes are the new ones, the others stay. -/
theorem lane_masked (p : Pred) (c : Nat) (old new : Row) {l : Nat} (h : l < 16) :
    lane ((old &&& ~~~laneMask p c 16) ||| (new &&& laneMask p c 16)) l = if p.getLsbD (16 * c + l) = true then lane new l else lane old l := by
  have key : ∀ i, i < 32 → (laneMask p c 16).getLsbD (32 * l + i) = p.getLsbD (16 * c + l) := by
    intro i hi
    rw [laneMask_getLsbD p c 16 (by omega)]
    have e1 : (32 * l + i) / 32 = l := by omega
    have e3 : 32 * l + i < 512 := by omega
    simp [e1, e3]
  apply BitVec.eq_of_getLsbD_eq
  intro i hi
  have e3 : 32 * l + i < 512 := by omega
  rw [lane_getLsbD _ _ _ hi]
  simp only [BitVec.getLsbD_or, BitVec.getLsbD_and, BitVec.getLsbD_not, key i hi, e3, decide_true, Bool.true_and]
  split
  · next hp => rw [lane_getLsbD _ _ _ hi]; simp [hp]
  · next hp => rw [lane_getLsbD _ _ _ hi]; simp at hp; simp [hp]

/-- What `putRow` leaves of a register-cluster. -/
theorem lane_putRow (k : Core) (r c : Nat) (p : Pred) (x : Row) (q g l : Nat) (hc : c < 8) (hg : g < 8) (hl : l < 16) :
    lane ((k.putRow r c p x).vreg q g) l = if q = r ∧ g = c ∧ p.getLsbD (16 * c + l) = true then lane x l else lane (k.vreg q g) l := by
  by_cases h : 8 * r + c = 8 * q + g
  · have h1 : q = r := by omega
    have h2 : g = c := by omega
    subst h1 h2
    have : (k.putRow q g p x).vreg q g = ((k.vreg q g &&& ~~~laneMask p g 16) ||| (x &&& laneMask p g 16)) := by
      simp [Core.putRow, Core.vreg, tget_tset_same]
    rw [this, lane_masked p g _ _ hl]
    simp
  · have h1 : ¬ (q = r ∧ g = c ∧ p.getLsbD (16 * c + l) = true) := by
      rintro ⟨rfl, rfl, _⟩; exact h rfl
    rw [if_neg h1]
    have : (k.putRow r c p x).vreg q g = k.vreg q g := by
      simp [Core.putRow, Core.vreg, tget_tset_other _ _ h]
    rw [this]

end Sys2Proof.Machine
end

