-- ==== Sys2Proof/Laws/Store.lean ====
section
/-! SUPPORT. What the operations on memory do: a byte read through a store path (R318), a store of the current core (R154, R318), and the
canonical form that every one of them keeps. -/
namespace Sys2Proof.Machine

/-! ### Bytes and paths -/

theorem tgetD_memWrite (m : Tbl Byte) (a j : Nat) (b : List Byte) :
    tgetD (memWrite m a b) j 0 = if a ≤ j ∧ j < a + b.length then b.getD (j - a) 0 else tgetD m j 0 := by
  by_cases h1 : j < a
  · rw [memWrite_below b m a j h1, if_neg (by omega)]
  · by_cases h2 : a + b.length ≤ j
    · rw [memWrite_above b m a j h2, if_neg (by omega)]
    · rw [if_pos (by omega)]
      have h := memWrite_at b m a (j - a) (by omega)
      rw [show a + (j - a) = j by omega] at h
      exact h

theorem pathByte_nil (a : Nat) (h : Byte) : pathByte [] a h = h := rfl
theorem pathByte_cons (st : PathStore) (r : List PathStore) (a : Nat) (h : Byte) :
    pathByte (st :: r) a h = pathByte r a (if st.tile = none ∧ st.addr ≤ a ∧ a < st.addr + st.bytes.length then st.bytes.getD (a - st.addr) 0 else h) := rfl
theorem pathByte_append (p r : List PathStore) (a : Nat) (h : Byte) : pathByte (p ++ r) a h = pathByte r a (pathByte p a h) := by
  simp [pathByte]

/-- A store on a path reads the same at its home once it is performed. -/
theorem pathByte_perform (st : PathStore) (r : List PathStore) (m : Tbl Byte) (a : Nat) (ht : st.tile = none) :
    pathByte r a (tgetD (memWrite m st.addr st.bytes) a 0) = pathByte (st :: r) a (tgetD m a 0) := by
  rw [pathByte_cons, tgetD_memWrite]
  simp [ht]
/-- A write to a tile changes no byte that the path gives. -/
theorem pathByte_tile (st : PathStore) (r : List PathStore) (a : Nat) (h : Byte) (ht : st.tile ≠ none) : pathByte (st :: r) a h = pathByte r a h := by
  rw [pathByte_cons, if_neg (fun e => ht e.1)]

/-- After every store of a path is performed, each byte stands at its home as the path gave it. -/
theorem tgetD_flush (p : List PathStore) : ∀ (m : Tbl Byte) (a : Nat), (∀ st, st ∈ p → st.tile = none) →
    tgetD (p.foldl (fun m st => memWrite m st.addr st.bytes) m) a 0 = pathByte p a (tgetD m a 0) := by
  induction p with
  | nil => intro m a _; rfl
  | cons st r ih =>
    intro m a h
    rw [List.foldl_cons, ih _ _ fun x hx => h x (by simp [hx]), pathByte_perform _ _ _ _ (h st (by simp))]

/-! ### What a list of pieces leaves -/

theorem last_append (p q : List (Nat × List Byte)) : ∀ (a : Nat) (b : Byte), Spec.last (p ++ q) a b = Spec.last q a (Spec.last p a b) := by
  induction p with
  | nil => intro a b; rfl
  | cons e t ih => intro a b; exact ih a _

/-- An address that no piece covers keeps its byte. -/
theorem last_other (p : List (Nat × List Byte)) : ∀ (a : Nat) (b : Byte), (∀ e, e ∈ p → ¬ (e.1 ≤ a ∧ a < e.1 + e.2.length)) → Spec.last p a b = b := by
  induction p with
  | nil => intro a b _; rfl
  | cons e t ih =>
    intro a b h
    rw [Spec.last, if_neg (h e (by simp))]
    exact ih a b fun f hf => h f (by simp [hf])

/-! ### The current core's stores -/

theorem mapLaps_eq (s : State) (c : Nat) (f : Nat → Nat → Overlap → Overlap) :
    s.mapLaps c f = { s with quads := (s.mapLaps c f).quads, dies := (s.mapLaps c f).dies } := by
  unfold State.mapLaps; split <;> rfl
theorem noteHist_eq (s : State) (va n : Nat) : s.noteHist va n = { s with dies := (s.noteHist va n).dies } := by
  unfold State.noteHist; split <;> rfl
theorem noteSends_eq (s : State) (va k : Nat) (o : Nat → List Byte) (n : Nat) :
    s.noteSends va k o n = { s with dies := (s.noteSends va k o n).dies, reqs := (s.noteSends va k o n).reqs } := rfl
theorem noteSlots_eq (s : State) (p va n : Nat) : s.noteSlots p va n = { s with dies := (s.noteSlots p va n).dies } := by
  unfold State.noteSlots; split <;> rfl
/-- The notes of a store change what the commands keep, and the messages. -/
theorem noteStore_quads (s : State) (va : Nat) (p : Place) (f : Bool) (n : Nat) :
    (s.noteStore va p f n).quads = (s.mapLaps s.cur fun _ _ l => { l with dirty := l.dirty ++ [(p.key, s.bytesNow s.cur p n, f)] }).quads := by
  unfold State.noteStore; rw [noteSlots_eq, noteSends_eq, noteHist_eq]
theorem eq_notes {s t u : State} (h : t = { s with quads := t.quads, dies := t.dies, reqs := t.reqs })
    (h' : u = { t with dies := u.dies, reqs := u.reqs }) : u = { s with quads := u.quads, dies := u.dies, reqs := u.reqs } := by
  rw [h']; rw [h]
theorem mapLaps_notes (s : State) (c : Nat) (f : Nat → Nat → Overlap → Overlap) :
    s.mapLaps c f = { s with quads := (s.mapLaps c f).quads, dies := (s.mapLaps c f).dies, reqs := (s.mapLaps c f).reqs } := by
  unfold State.mapLaps; split <;> rfl
theorem noteHist_notes (s : State) (va n : Nat) : s.noteHist va n = { s with dies := (s.noteHist va n).dies, reqs := (s.noteHist va n).reqs } := by
  unfold State.noteHist; split <;> rfl
theorem noteSlots_notes (s : State) (p va n : Nat) : s.noteSlots p va n = { s with dies := (s.noteSlots p va n).dies, reqs := (s.noteSlots p va n).reqs } := by
  unfold State.noteSlots; split <;> rfl
theorem noteStore_eq (s : State) (va : Nat) (p : Place) (f : Bool) (n : Nat) :
    s.noteStore va p f n = { s with quads := (s.noteStore va p f n).quads, dies := (s.noteStore va p f n).dies, reqs := (s.noteStore va p f n).reqs } := by
  exact eq_notes (eq_notes (eq_notes (mapLaps_notes _ _ _) (noteHist_notes _ _ _)) (noteSends_eq _ _ _ _ _)) (noteSlots_notes _ _ _ _)
theorem mapLaps_quad_other (s : State) (c : Nat) (f : Nat → Nat → Overlap → Overlap) {q : Nat} (h : q ≠ c / 4) : (s.mapLaps c f).quad q = s.quad q := by
  unfold State.mapLaps; dsimp only; split
  · rfl
  · show (s.setQuad (c / 4) _).quad q = _; rw [State.quad_setQuad_other _ _ (Ne.symm h)]
theorem mapLaps_quad (s : State) (c : Nat) (f : Nat → Nat → Overlap → Overlap) :
    ∃ ch, (s.mapLaps c f).quad (c / 4) = { s.quad (c / 4) with chans := ch } := by
  unfold State.mapLaps; dsimp only; split
  · exact ⟨_, rfl⟩
  · exact ⟨_, State.quad_setQuad_same _ _ _⟩
theorem noteStore_quad_other (s : State) (va : Nat) (p : Place) (f : Bool) (n : Nat) {q : Nat} (h : q ≠ s.myQuad) :
    (s.noteStore va p f n).quad q = s.quad q := by
  unfold State.quad; rw [noteStore_quads]; exact mapLaps_quad_other s s.cur _ h
theorem noteStore_quad (s : State) (va : Nat) (p : Place) (f : Bool) (n : Nat) :
    ∃ ch, (s.noteStore va p f n).quad s.myQuad = { s.quad s.myQuad with chans := ch } := by
  obtain ⟨ch, h⟩ := mapLaps_quad s s.cur fun _ _ l => { l with dirty := l.dirty ++ [(p.key, s.bytesNow s.cur p n, f)] }
  refine ⟨ch, ?_⟩
  show tgetD (s.noteStore va p f n).quads _ _ = _
  rw [noteStore_quads]; exact h

/-- A store to a scratchpad of the core's own quad, for which nothing is waited for. -/
theorem stored_home (s : State) (pa : Nat) (b : List Byte) (h : Spec.atHome s pa = true) :
    Spec.Stored s { s with mem := memWrite s.mem pa b } [(pa, b)] := by
  have f1 : ([(pa, b)].filter fun p => Spec.atHome s p.1) = [(pa, b)] := by simp [h]
  have f2 : ([(pa, b)].filter fun p => !Spec.atHome s p.1) = [] := by simp [h]
  refine ⟨fun a => ?_, fun a x => ?_, rfl, fun _ _ => rfl, rfl, rfl⟩
  · rw [f1]; exact tgetD_memWrite _ _ _ _
  · rw [f2]; rfl
/-- The accesses of a stack are counted beside everything else. -/
theorem reach_eq (s : State) (pa : Nat) :
    s.reach pa = { s with hot := (s.reach pa).hot, pchan := (s.reach pa).pchan, pchanUsed := (s.reach pa).pchanUsed, agenda := (s.reach pa).agenda } := by
  unfold State.reach; split
  · rfl
  · dsimp only; split <;> rfl
/-- A store that enters the quad's path. -/
theorem stored_path (s : State) (p pa : Nat) (b : List Byte) (h : Spec.atHome s pa = false) :
    Spec.Stored s (s.enterPath s.cur p 0 pa b) [(pa, b)] := by
  have f1 : ([(pa, b)].filter fun p => Spec.atHome s p.1) = [] := by simp [h]
  have f2 : ([(pa, b)].filter fun p => !Spec.atHome s p.1) = [(pa, b)] := by simp [h]
  obtain ⟨w, hw, ht, ha, hb⟩ : ∃ w : PathStore, (s.enterPath s.cur p 0 pa b).quads =
      (s.setQuad s.myQuad { s.quad s.myQuad with path := (s.quad s.myQuad).path ++ [w] }).quads ∧ w.tile = none ∧ w.addr = pa ∧ w.bytes = b := by
    unfold State.enterPath
    rw [reach_eq]
    exact ⟨_, rfl, rfl, rfl, rfl⟩
  have hq : ∀ q, (s.enterPath s.cur p 0 pa b).quad q =
      (s.setQuad s.myQuad { s.quad s.myQuad with path := (s.quad s.myQuad).path ++ [w] }).quad q := fun q => by
    unfold State.quad; rw [hw]; rfl
  have hr : s.enterPath s.cur p 0 pa b = { s with
      quads := (s.enterPath s.cur p 0 pa b).quads, agenda := (s.enterPath s.cur p 0 pa b).agenda
      hot := (s.enterPath s.cur p 0 pa b).hot, pchan := (s.enterPath s.cur p 0 pa b).pchan, pchanUsed := (s.enterPath s.cur p 0 pa b).pchanUsed } := by
    unfold State.enterPath; rw [reach_eq]; rfl
  have hp : ((s.enterPath s.cur p 0 pa b).quad (s.cur / 4)).path = (s.quad (s.cur / 4)).path ++ [w] := by
    rw [hq]; exact congrArg Quad.path (State.quad_setQuad_same _ _ _)
  refine ⟨fun a => ?_, fun a x => ?_, ?_, fun q hne => ?_, ?_, ?_⟩
  · rw [f1, hr]; rfl
  · rw [f2, hq, State.quad_setQuad_same, pathByte_append, pathByte_cons, ht, ha, hb]; simp [Spec.last, pathByte_nil]
  · unfold Spec.atHome at h
    unfold State.padWaits at h ⊢
    rw [hp, List.any_append]
    cases ho : ownQuadPad s.cur pa
    · simp [ht, ha, ho]
    · rw [ho] at h
      simp only [Bool.true_and, Bool.not_eq_false'] at h
      rw [h]; rfl
  · rw [hq, State.quad_setQuad_other _ _ (Ne.symm hne)]
  · rw [hq, State.quad_setQuad_same]
  · rw [hr]
/-- One store of the current core to the physical map. -/
theorem storePhys_stored (s : State) (p pa : Nat) (b : List Byte) : Spec.Stored s (s.storePhys s.cur p 0 pa b) [(pa, b)] := by
  cases h : Spec.atHome s pa
  · have := stored_path s p pa b h
    unfold Spec.atHome at h
    unfold State.storePhys
    rw [h]; exact this
  · have := stored_home s pa b h
    unfold Spec.atHome at h
    unfold State.storePhys
    rw [h]; exact this

/-- Two stretches of stores make one. -/
theorem Stored.trans {s t u : State} {ps qs : List (Nat × List Byte)} (h : Spec.Stored s t ps) (h' : Spec.Stored t u qs) :
    Spec.Stored s u (ps ++ qs) := by
  have hc : t.cur = s.cur := by rw [h.rest]
  have hq : t.myQuad = s.myQuad := by unfold State.myQuad; rw [hc]
  obtain ⟨a1, a2, a3, a4, a5, a6⟩ := h
  obtain ⟨b1, b2, b3, b4, b5, b6⟩ := h'
  have hh : ∀ pa, Spec.atHome t pa = Spec.atHome s pa := fun pa => by unfold Spec.atHome; rw [hc, a3]
  simp only [hh, hc, hq] at b1 b2 b3 b4 b5
  refine ⟨fun a => ?_, fun a x => ?_, b3.trans a3, fun q hne => (b4 q hne).trans (a4 q hne), ?_, ?_⟩
  · rw [List.filter_append, last_append, b1, a1]
  · rw [List.filter_append, last_append, b2, a2]
  · rw [b5, a5]
  · rw [b6, a6]

/-- A mark changes nothing of a store. -/
theorem Stored.mark {s t : State} {ps : List (Nat × List Byte)} (h : Spec.Stored s t ps) (v : Issue) : Spec.Stored s (t.mark v) ps := by
  obtain ⟨a1, a2, a3, a4, a5, a6⟩ := h
  exact ⟨a1, a2, a3, a4, a5, by rw [a6]; rfl⟩

theorem Stored.refl (s : State) : Spec.Stored s s [] := ⟨fun _ => rfl, fun _ _ => rfl, rfl, fun _ _ => rfl, rfl, rfl⟩

/-- A state that differs from another in what the notes of a store may change, before a store. -/
theorem Stored.of_same {s u t : State} {ps : List (Nat × List Byte)} (hc : u.cur = s.cur) (hm : u.mem = s.mem)
    (ho : ∀ q, q ≠ s.myQuad → u.quad q = s.quad q) (hq : ∃ ch, u.quad s.myQuad = { s.quad s.myQuad with chans := ch })
    (hr : u = { s with quads := u.quads, dies := u.dies, reqs := u.reqs, fresh := u.fresh }) (h : Spec.Stored u t ps) : Spec.Stored s t ps := by
  have my : u.myQuad = s.myQuad := by unfold State.myQuad; rw [hc]
  obtain ⟨ch, hq⟩ := hq
  have hw : u.padWaits s.cur 0 = s.padWaits s.cur 0 := by
    unfold State.padWaits
    rw [show s.cur / 4 = s.myQuad from rfl, hq]
  have hh : ∀ pa, Spec.atHome u pa = Spec.atHome s pa := fun pa => by unfold Spec.atHome; rw [hc, hw]
  obtain ⟨h1, h2, h3, h4, h5, h6⟩ := h
  simp only [hh, hc, my] at h1 h2 h3 h4 h5
  refine ⟨fun a => ?_, fun a x => ?_, h3.trans hw, fun q hn => ?_, ?_, ?_⟩
  · rw [h1, hm]
  · rw [h2, hq]
  · rw [h4 q hn, ho q hn]
  · rw [h5, hq]
  · rw [h6, hr]

/-- Runs of bytes that the current core stores from an address on. -/
theorem storeRunsAt_stored (rs : List (Nat × List Byte)) : ∀ (s : State) (pa : Nat),
    Spec.Stored s (s.storeRunsAt pa rs) (rs.map fun r => (pa + r.1, r.2)) := by
  induction rs with
  | nil => intro s _; exact Stored.refl s
  | cons r t ih => intro s pa; exact Stored.trans (storePhys_stored s s.myPart (pa + r.1) r.2) (ih _ pa)

/-- A core's store at a translated place of the physical map, with the runs of bytes that it leaves there. -/
theorem storePlace_stored (s : State) (va : W64) (pa : Nat) (b : List Byte) :
    Spec.Stored s (s.storePlace va (.phys pa) b) ((s.storeRuns va.toNat pa b).map fun r => (pa + r.1, r.2)) := by
  have key : ∀ (u : State), u.cur = s.cur → u.mem = s.mem → u.quads = s.quads → u = { s with fresh := u.fresh } → ∀ rs : List (Nat × List Byte),
      Spec.Stored s ((u.noteStore va.toNat (.phys pa) true b.length).storeRunsAt pa rs) (rs.map fun r => (pa + r.1, r.2)) := by
    intro u hc hm hq hf rs
    have hq1 : ∀ q, u.quad q = s.quad q := fun q => by unfold State.quad; rw [hq]
    have my : u.myQuad = s.myQuad := by unfold State.myQuad; rw [hc]
    obtain ⟨ch, hqm⟩ := noteStore_quad u va.toNat (.phys pa) true b.length
    rw [my, hq1] at hqm
    have hne := noteStore_eq u va.toNat (.phys pa) true b.length
    refine Stored.of_same ?_ ?_ (fun q hn => ?_) ⟨ch, hqm⟩ ?_ (storeRunsAt_stored rs _ pa)
    · rw [hne]; exact hc
    · rw [hne]; exact hm
    · rw [noteStore_quad_other _ _ _ _ _ (by rw [my]; exact hn), hq1]
    · rw [hne, hf]
  unfold State.storePlace State.settled
  by_cases h : s.overlapped va.toNat (Place.phys pa).key b.length = true
  · dsimp only; rw [if_pos h]; exact key { s with fresh := s.fresh + 1 } rfl rfl rfl rfl _
  · dsimp only; rw [if_neg h]; exact key s rfl rfl rfl rfl _

/-- A store that overlaps nothing leaves its bytes. -/
theorem storeRuns_plain {s : State} {va k : Nat} {b : List Byte} (h : s.overlapped va k b.length = false) : s.storeRuns va k b = [(0, b)] := by
  simp [State.storeRuns, h]

/-! ### Overlaps -/

/-- A list of stores to the physical map, none of which overlaps anything when its turn comes. -/
def State.plainly : State → List (W64 × Nat × List Byte) → Prop
  | _, [] => True
  | s, e :: t => s.overlapped e.1.toNat e.2.1 e.2.2.length = false ∧ (s.storePlace e.1 (.phys e.2.1) e.2.2).plainly t
theorem storePieces_stored (ps : List (W64 × Nat × List Byte)) : ∀ (s : State), s.plainly ps →
    Spec.Stored s (s.storePieces (ps.map fun e => (e.1, .phys e.2.1, e.2.2))) (ps.map (·.2)) := by
  induction ps with
  | nil => intro s _; exact Stored.refl s
  | cons e t ih =>
    intro s h
    have h1 := storePlace_stored s e.1 e.2.1 e.2.2
    rw [storeRuns_plain h.1] at h1
    exact Stored.trans h1 (ih _ h.2)

/-- What a store reads to see whether it overlaps: what the commands of the core have written, and the slots of its partition. -/
def State.wroteBy (s : State) (c : Nat) : List (List (Nat × Nat)) := (s.laps c).map Overlap.wrote
theorem overlapped_eq (s : State) (va k n : Nat) : s.overlapped va k n = ((s.wroteBy s.cur).any (fun l => anyDirty l k n) || s.inSlot s.myPart va n) := by
  unfold State.overlapped State.wroteBy; rw [List.any_map]; rfl

theorem wrote_map {α : Type} (l : List α) (keep : α → Bool) (lap : α → Overlap) (g : α → α) (hk : ∀ m, keep (g m) = keep m)
    (hw : ∀ m, (lap (g m)).wrote = (lap m).wrote) :
    (((l.map g).filter keep).map lap).map Overlap.wrote = ((l.filter keep).map lap).map Overlap.wrote := by
  induction l with
  | nil => rfl
  | cons m t ih =>
    simp only [List.map_cons, List.filter_cons, hk m]
    cases keep m
    · simpa using ih
    · simp only [if_true, List.map_cons, hw m, ih]
theorem wrote_tbl {α : Type} (t : List (Nat × List α)) (keep : α → Bool) (lap : α → Overlap) (g : Nat → α → α) (hk : ∀ h m, keep (g h m) = keep m)
    (hw : ∀ h m, (lap (g h m)).wrote = (lap m).wrote) :
    (((t.map fun e => (e.1, e.2.map (g e.1))).flatMap fun e => (e.2.filter keep).map lap).map Overlap.wrote)
      = ((t.flatMap fun e => (e.2.filter keep).map lap).map Overlap.wrote) := by
  induction t with
  | nil => rfl
  | cons e t ih =>
    simp only [List.map_cons, List.flatMap_cons, List.map_append]
    rw [wrote_map e.2 keep lap (g e.1) (hk e.1) (hw e.1)]
    exact congrArg _ ih
/-- A change of what the commands keep that leaves the ranges they have written. -/
theorem mapLaps_wroteBy (s : State) (c : Nat) (f : Nat → Nat → Overlap → Overlap) (hf : ∀ h i l, (f h i l).wrote = l.wrote) :
    (s.mapLaps c f).wroteBy c = s.wroteBy c := by
  unfold State.mapLaps
  dsimp only
  split
  · rfl
  · unfold State.wroteBy State.laps
    simp only [List.map_append]
    have hd : ∀ (u : State) (y : Die), (u.setDie (dieOfCore c) y).die (dieOfCore c) = y := fun u y => State.die_setDie_same _ _ _
    have hq : ∀ (u : State) (y : Quad) (z : Die), ((u.setQuad (c / 4) y).setDie (dieOfCore c) z).quad (c / 4) = y := fun u y z =>
      State.quad_setQuad_same _ _ _
    rw [hd, hq]
    congr 1
    · congr 1
      · exact wrote_tbl _ _ CopyCmd.lap (fun h m => if m.core == c && !m.done then { m with lap := f h m.id m.lap } else m)
          (fun h m => by split <;> rfl) (fun h m => by split; exact hf _ _ _; rfl)
      · exact wrote_tbl _ _ AttCmd.lap (fun _ m => if m.core == c then { m with lap := f m.chan m.ord m.lap } else m)
          (fun h m => by split <;> rfl) (fun h m => by split; exact hf _ _ _; rfl)
    · exact wrote_map _ _ RteCmd.lap (fun m => if m.core == c then { m with lap := f m.chan m.ord m.lap } else m)
        (fun m => by split <;> rfl) (fun m => by split; exact hf _ _ _; rfl)

end Sys2Proof.Machine
end

