-- ==== Sys2Proof/Laws/Memory.lean ====
section
/-! SUPPORT. Every operation that writes memory keeps its canonical form, and the operations that look memory up leave it as it is. -/
namespace Sys2Proof.Machine
open Sys2Proof

/-- A state whose memory another state has keeps the form with it. -/
theorem memOk_of_mem {s t : State} (h : t.mem = s.mem) (hs : s.memOk) : t.memOk := by
  unfold State.memOk at *
  rw [h]
  exact hs
/-- Bytes written to the memory of a state. -/
theorem memOk_write {s t : State} (a : Nat) (b : List Byte) (h : t.mem = memWrite s.mem a b) (hs : s.memOk) : t.memOk := by
  unfold State.memOk at *
  rw [h]
  exact memWrite_wf b _ _ hs

/-! ### Tables that only lose entries -/

theorem tabove_filter {α : Type} (f : Nat × α → Bool) {t : Tbl α} {k : Nat} (h : tabove k t) : tabove k (t.filter f) :=
  fun e he => h e (List.mem_of_mem_filter he)
theorem tsorted_filter {α : Type} (f : Nat × α → Bool) : ∀ t : Tbl α, tsorted t = true → tsorted (t.filter f) = true
  | [], _ => rfl
  | (k, v) :: t, h => by
    have ⟨ha, ht⟩ := tsorted_cons.mp h
    rw [List.filter_cons]
    split
    · exact tsorted_cons.mpr ⟨tabove_filter f ha, tsorted_filter f t ht⟩
    · exact tsorted_filter f t ht
/-- Taking entries out keeps the canonical form: a cleared scratchpad reads 0 (R157). -/
theorem memory_wf_filter (f : Nat × Byte → Bool) {m : Tbl Byte} (h : Memory.wf m = true) : Memory.wf (m.filter f) = true := by
  unfold Memory.wf at *
  rw [twf_iff] at *
  exact ⟨tsorted_filter f m h.1, fun e he => h.2 e (List.mem_of_mem_filter he)⟩
theorem clearPad_wf (c : Nat) {m : Tbl Byte} (h : Memory.wf m = true) : Memory.wf (clearPad m c) = true := memory_wf_filter _ h

/-! ### Halts -/

theorem assertHalt_mem (s : State) (p c u d : Nat) : (s.assertHalt p c u d).mem = s.mem := by
  have hf : ∀ (l : List (Nat × Nat)) (s : State), (l.foldl (fun s u => s.schedule 120 (.haltLineArrives p u.1 u.2)) s).mem = s.mem := by
    intro l
    induction l with
    | nil => intro s; rfl
    | cons e t ih => intro s; exact ih _
  unfold State.assertHalt
  dsimp only
  split
  · split
    · exact hf _ _
    · exact hf _ _
  · split
    · split <;> rfl
    · rfl
theorem unitHalt_mem (s : State) (p k i : Nat) (f : FaultInfo) (m : CmdInfo) : (s.unitHalt p k i f m).mem = s.mem := by
  unfold State.unitHalt
  dsimp only
  split
  · rfl
  · rw [assertHalt_mem]; split <;> rfl
theorem coreHalt_mem (s : State) (c : Nat) (f : FaultInfo) : (s.coreHalt c f).mem = s.mem := by
  unfold State.coreHalt; rw [unitHalt_mem]; rfl

/-! ### The host register block (R395) -/

theorem windowWrite_mem (s : State) (o : Nat) (b : List Byte) : (s.windowWrite o b).mem = s.mem := by
  unfold State.windowWrite
  dsimp only
  repeat' split
  all_goals rfl
theorem mailbox_mem (s : State) (b : List Byte) : (s.mailbox b).mem = s.mem := by
  unfold State.mailbox
  dsimp only
  repeat' split
  all_goals rfl
theorem hostReg_mem (s : State) (o : Nat) (b : List Byte) (r : Nat) : (s.hostReg o b r).mem = s.mem := by
  unfold State.hostReg State.poolbaseSet
  repeat' split
  all_goals rfl
theorem hostWrite_mem (s : State) (o : Nat) (b : List Byte) : (s.hostWrite o b).mem = s.mem := by
  unfold State.hostWrite
  split
  · exact windowWrite_mem s o b
  · split
    · exact mailbox_mem s b
    · simp only [List.foldl_cons, List.foldl_nil, hostReg_mem]

/-! ### Stores (R318) -/

theorem writeTile_mem (s : State) (d ix o : Nat) (b : List Byte) : (s.writeTile d ix o b).mem = s.mem := by
  unfold State.writeTile
  dsimp only
  split <;> rfl
theorem takeEffect_memOk {s : State} (w : PathStore) (h : s.memOk) : (s.takeEffect w).memOk := by
  unfold State.takeEffect State.tileWrite
  split
  · dsimp only
    refine memOk_of_mem (s := s) ?_ h
    split
    · exact writeTile_mem _ _ _ _ _
    · split
      · exact coreHalt_mem _ _ _
      · exact unitHalt_mem _ _ _ _ _ _
  · split
    · exact memOk_of_mem (hostWrite_mem _ _ _) h
    · exact memOk_write (s := s) _ _ rfl h
theorem performFirst_memOk (q : Nat) : ∀ (n : Nat) (s : State), s.memOk → (s.performFirst q n).memOk
  | 0, _, h => h
  | n + 1, s, h => by
    unfold State.performFirst
    dsimp only
    split
    · exact h
    · exact performFirst_memOk q n _ (takeEffect_memOk _ (memOk_of_mem (s := s) rfl h))
theorem performStore_memOk {s : State} (q : Nat) (h : s.memOk) : (s.performStore q).memOk := performFirst_memOk q _ s h
theorem tileArrives_memOk {s : State} (q : Nat) (h : s.memOk) : (s.tileArrives q).memOk := performFirst_memOk q _ s h
theorem flushPath_memOk {s : State} (q : Nat) (h : s.memOk) : (s.flushPath q).memOk := performFirst_memOk q _ s h
theorem flushFor_memOk {s : State} (f : PathStore → Bool) (h : s.memOk) : (s.flushFor f).memOk := by
  have hf : ∀ (l : List (Nat × Quad)) (s : State), s.memOk →
      (l.foldl (fun s e => if e.2.path.any f then s.performFirst e.1 (throughLast f e.2.path) else s) s).memOk := by
    intro l
    induction l with
    | nil => intro s h; exact h
    | cons e t ih =>
      intro s h
      refine ih _ ?_
      dsimp only
      split
      · exact performFirst_memOk _ _ _ h
      · exact h
  exact hf _ _ h
/-- The removal from the TLBs, with its wait (R107). -/
theorem removeTlb_memOk {s : State} (f : TlbEnt → Bool) (c : Bool) (h : s.memOk) : (s.removeTlb f c).memOk :=
  memOk_of_mem (s := s.flushFor _) rfl (flushFor_memOk _ h)
theorem enterPath_mem (s : State) (c p eng pa : Nat) (b : List Byte) : (s.enterPath c p eng pa b).mem = s.mem := by
  unfold State.enterPath; rw [reach_eq]; rfl
theorem storePhys_memOk {s : State} (c p eng pa : Nat) (b : List Byte) (h : s.memOk) : (s.storePhys c p eng pa b).memOk := by
  unfold State.storePhys
  split
  · exact memOk_write (s := s) _ _ rfl h
  · exact memOk_of_mem (enterPath_mem _ _ _ _ _ _) h

/-! ### Lookups -/

theorem touch_mem (s : State) (pa n : Nat) : (s.touch pa n).mem = s.mem := by
  unfold State.touch
  split
  · rfl
  · dsimp only
    split
    · rw [reach_eq]
    · show (s.reach pa).mem = _
      rw [reach_eq]
theorem noteTraffic_mem (s : State) (c pa n : Nat) : (s.noteTraffic c pa n).mem = s.mem := by
  unfold State.noteTraffic
  split <;> rfl

theorem startWalk_mem (s : State) (d q p vpn : Nat) : (s.startWalk d q p vpn).mem = s.mem := by
  unfold State.startWalk
  dsimp only
  split
  · rfl
  · split <;> rfl
theorem serveMiss_mem (d : Nat) : ∀ (n : Nat) (s : State), (s.serveMiss d n).mem = s.mem
  | 0, _ => rfl
  | n + 1, s => by
    unfold State.serveMiss
    dsimp only
    split
    · rfl
    · split
      · rfl
      · split
        · rw [serveMiss_mem d n]; rfl
        · rfl
theorem endWalk_mem (s : State) (d p vpn : Nat) : (s.endWalk d p vpn).mem = s.mem := by
  unfold State.endWalk
  have hf : ∀ (l : List (Nat × Nat × Bool)) (g : Nat × Nat × Bool → Bool) (at_ : Nat × Nat × Bool → Nat) (s : State),
      (l.foldl (fun (s : State) w => if g w then s else s.touch (at_ w) 8) s).mem = s.mem := by
    intro l g at_
    induction l with
    | nil => intro s; rfl
    | cons w r ih =>
      intro s
      rw [List.foldl_cons, ih]
      split
      · rfl
      · exact touch_mem _ _ _
  rw [serveMiss_mem]
  dsimp only
  generalize hw : State.walk _ _ _ = w
  cases w with
  | leaf e lg a => exact hf _ (fun w => w.2.2 && (s.die d).wcache.contains (cacheKey p (vpn * 4096) w.1)) (fun w => entryAt (vpn * 4096) (w.1 - 1) w.2.1) s
  | fail c => exact hf _ (fun w => w.2.2 && (s.die d).wcache.contains (cacheKey p (vpn * 4096) w.1)) (fun w => entryAt (vpn * 4096) (w.1 - 1) w.2.1) s
  | ecc f => exact hf _ (fun w => w.2.2 && (s.die d).wcache.contains (cacheKey p (vpn * 4096) w.1)) (fun w => entryAt (vpn * 4096) (w.1 - 1) w.2.1) s
/-- An engine's translation changes no byte. -/
theorem engineTranslate_mem (s : State) (x : Ctx) (a : Acc) (va : W64) : (s.engineTranslate x a va).1.mem = s.mem := by
  unfold State.engineTranslate
  split
  · split
    · rfl
    · rfl
    · exact startWalk_mem _ _ _ _ _
  · rfl
theorem dropTlb_mem (s : State) (f : TlbEnt → Bool) (c : Bool) : (s.dropTlb f c).mem = s.mem := rfl

/-! ### Engines -/

/-- Unspecified bytes are memory too (R81, R86, R158). -/
theorem scramble_memOk (x : Ctx) : ∀ (l : List (Nat × Nat)) (s : State), s.memOk → (s.scramble x l).memOk := by
  intro l
  induction l with
  | nil => intro s h; exact h
  | cons e t ih =>
    intro s h
    unfold State.scramble
    refine ih _ ?_
    split
    · exact memOk_write (s := s) _ _ rfl h
    · exact h
/-- The units that a handle writes (R79). -/
theorem writeUnits_memOk (e : Nat) (k : HSlot) : ∀ (us : List Nat) (s : State), s.memOk → (s.writeUnits e k us).memOk := by
  intro us
  induction us with
  | nil => intro s h; exact h
  | cons u t ih =>
    intro s h
    unfold State.writeUnits
    dsimp only
    split
    · refine ih _ (memOk_of_mem (noteTraffic_mem _ _ _ _) ?_)
      unfold State.memOk at h ⊢
      dsimp only
      exact memWrite_wf _ _ _ h
    · exact ih _ h
/-- A continuation record in the task ring (R346). -/
theorem ringWrite_memOk {s t : State} (d p ent off : Nat) (b : List Byte) (e : s.ringWrite d p ent off b = some t) (h : s.memOk) : t.memOk := by
  unfold State.ringWrite at e
  split at e
  · cases e
    exact memOk_write (s := s) _ _ rfl h
  · cases e
    exact h
  · cases e
/-- A task record in its ring entry (R339, R340). -/
theorem insertTask_memOk {s t : State} {p d : Nat} {r : List Byte} {n : Node} {start : W64} {l : Option Nat} {ok : Bool}
    (e : s.insertTask p d r n start l = .ok t ok) (h : s.memOk) : t.memOk := by
  unfold State.insertTask at e
  dsimp only at e
  split at e
  · cases e
    exact h
  · split at e
    · cases e
    · cases e
      exact h
    · cases e
      unfold State.memOk at h ⊢
      split
      · exact memWrite_wf _ _ _ h
      · exact memWrite_wf _ _ _ h

/-! ### Pieces at their places -/

theorem noteStore_mem (s : State) (va : Nat) (p : Place) (f : Bool) (n : Nat) : (s.noteStore va p f n).mem = s.mem := by rw [noteStore_eq]
theorem settled_mem (s : State) (va : Nat) (p : Place) (f : Bool) (n : Nat) : (s.settled va p f n).mem = s.mem := by
  unfold State.settled
  rw [noteStore_mem]
  split <;> rfl
theorem storeRunsAt_memOk : ∀ (rs : List (Nat × List Byte)) (pa : Nat) (s : State), s.memOk → (s.storeRunsAt pa rs).memOk
  | [], _, _, h => h
  | (_, _) :: t, pa, _, h => storeRunsAt_memOk t pa _ (storePhys_memOk _ _ _ _ _ h)
/-- A store of a core, wherever it goes (R147). -/
theorem storePlace_memOk {s : State} (va : W64) (p : Place) (b : List Byte) (h : s.memOk) : (s.storePlace va p b).memOk := by
  unfold State.storePlace
  cases p with
  | phys pa => exact storeRunsAt_memOk _ _ _ (memOk_of_mem (settled_mem _ _ _ _ _) h)
  | host o => exact storeRunsAt_memOk _ _ _ (memOk_of_mem (settled_mem _ _ _ _ _) h)
  | tile d ix g o => exact memOk_of_mem (writeTile_mem _ _ _ _ _) h
  | flash e o => exact h
theorem storePieces_memOk : ∀ (ps : List (W64 × Place × List Byte)) (s : State), s.memOk → (s.storePieces ps).memOk
  | [], _, h => h
  | (va, p, b) :: t, _, h => storePieces_memOk t _ (storePlace_memOk va p b h)

theorem settle_mem (s : State) (x : Ctx) (l : Overlap) (va : Nat) (p : Place) (b : List Byte) : (s.settle x l va p b).1.mem = s.mem := by
  unfold State.settle
  dsimp only
  split
  · rfl
  · show (s.noteSlots _ _ _).mem = _
    rw [noteSlots_eq]
theorem putRuns_memOk (x : Ctx) (eng : Nat) (p : Place) : ∀ (rs : List (Nat × List Byte)) (s : State), s.memOk → (s.putRuns x eng p rs).memOk
  | [], _, h => h
  | (i, b) :: t, s, h => by
    unfold State.putRuns
    refine putRuns_memOk x eng p t _ ?_
    cases p with
    | phys pa => exact storePhys_memOk _ _ _ _ _ h
    | host o => exact storePhys_memOk _ _ _ _ _ h
    | tile d ix g o => exact memOk_of_mem (writeTile_mem _ _ _ _ _) h
    | flash e o => exact h
theorem engPut_memOk (x : Ctx) (eng : Nat) (l : Overlap) : ∀ (ps : List (Nat × Place × List Byte)) (s : State), s.memOk → (s.engPut x eng l ps).memOk
  | [], _, h => h
  | (va, p, b) :: t, s, h => engPut_memOk x eng l t _ (putRuns_memOk x eng p _ _ (memOk_of_mem (settle_mem s x l va p b) h))
theorem engPlaces_mem (x : Ctx) (a : Acc) : ∀ (ws : List (Nat × List Byte)) (s : State),
    match s.engPlaces x a ws with
    | .ok t _ => t.mem = s.mem
    | .stop t _ => t.mem = s.mem := by
  intro ws
  induction ws with
  | nil => intro s; rfl
  | cons w r ih =>
    intro s
    obtain ⟨va, b⟩ := w
    have hm := engineTranslate_mem s x a (BitVec.ofNat 64 va)
    unfold State.engPlaces
    dsimp only
    generalize s.engineTranslate x a (BitVec.ofNat 64 va) = z at hm ⊢
    obtain ⟨u, tr⟩ := z
    cases tr with
    | at_ p leaf =>
      have hi : ∀ (bad : Bool) (w : EngStop),
          match (if bad = true then Eng.stop u w else match u.engPlaces x a r with
            | .ok s q => .ok s ((va, p, b) :: q)
            | .stop s w => .stop s w : Eng (List (Nat × Place × List Byte))) with
          | .ok t _ => t.mem = s.mem
          | .stop t _ => t.mem = s.mem := by
        intro bad w
        have hi := ih u
        cases bad with
        | true => exact hm
        | false =>
          rw [if_neg (by simp)]
          generalize u.engPlaces x a r = z at hi ⊢
          cases z <;> exact hi.trans hm
      exact hi _ _
    | _ => exact hm
/-- A write of an engine, done or refused (R150). -/
theorem engWrites_memOk {s : State} (x : Ctx) (eng : Nat) (shadow : Bool) (l : Overlap) (ws : List (Nat × List Byte)) (h : s.memOk) :
    match s.engWrites x eng shadow l ws with
    | .ok t _ => t.memOk
    | .stop t _ => t.memOk := by
  have hm := engPlaces_mem x (.dst shadow) (ws.flatMap fun w => byteCuts w.1 w.2) s
  unfold State.engWrites
  generalize s.engPlaces x (.dst shadow) (ws.flatMap fun w => byteCuts w.1 w.2) = z at hm ⊢
  cases z with
  | ok u ps => exact engPut_memOk x eng l ps u (memOk_of_mem hm h)
  | stop u w => exact memOk_of_mem hm h

/-! ### The host -/

theorem hostMemWrite_memOk {s t : State} (a : Nat) (b : List Byte) (e : execHostMemWrite a b s = .next t) (h : s.memOk) : t.memOk := by
  unfold execHostMemWrite at e
  cases e
  split
  · exact memOk_write (s := s) _ _ rfl h
  · exact h

/-- Memory has its canonical form right after reset. -/
theorem reset_memOk : State.reset.memOk := rfl

end Sys2Proof.Machine
end

