-- ==== Sys2Proof/Laws/PerInstr.lean ====
section
/-! SUPPORT. The family Fits: the word of every instruction has 32 bits (R25, R47).  -/
namespace Sys2Proof.Laws

/-- The word that the encoder gives an instruction is one of 32 bits. -/
def Fits.Statement (i : Instr) : Prop := encode i < 2 ^ 32

theorem Fits.nopS (st : Fin 8) : Fits.Statement (.nopS st) := by
  unfold Fits.Statement encode
  have := st.isLt
  dsimp only
  omega
theorem Fits.nop : Fits.Statement (.nop) := by
  show 0 < 2 ^ 32
  decide
theorem Fits.hdr (st : Fin 8) (w : Bool) (z : Bool) (y : Bool) (x : Bool) (c : Fin 256) (b : Fin 256) (a : Fin 256) : Fits.Statement (.hdr st w z y x c b a) := by
  unfold Fits.Statement encode
  have := st.isLt
  have := Bool.toNat_lt w
  have := Bool.toNat_lt z
  have := Bool.toNat_lt y
  have := Bool.toNat_lt x
  have := c.isLt
  have := b.isLt
  have := a.isLt
  dsimp only
  omega
theorem Fits.add (st : Fin 8) (d : Fin 64) (a : Fin 64) (b : Fin 64) : Fits.Statement (.add st d a b) := by
  unfold Fits.Statement encode
  have := st.isLt
  have := d.isLt
  have := a.isLt
  have := b.isLt
  dsimp only
  omega
theorem Fits.sub (st : Fin 8) (d : Fin 64) (a : Fin 64) (b : Fin 64) : Fits.Statement (.sub st d a b) := by
  unfold Fits.Statement encode
  have := st.isLt
  have := d.isLt
  have := a.isLt
  have := b.isLt
  dsimp only
  omega
theorem Fits.mul (st : Fin 8) (d : Fin 64) (a : Fin 64) (b : Fin 64) : Fits.Statement (.mul st d a b) := by
  unfold Fits.Statement encode
  have := st.isLt
  have := d.isLt
  have := a.isLt
  have := b.isLt
  dsimp only
  omega
theorem Fits.mulh (st : Fin 8) (d : Fin 64) (a : Fin 64) (b : Fin 64) (u : Bool) : Fits.Statement (.mulh st d a b u) := by
  unfold Fits.Statement encode
  have := st.isLt
  have := d.isLt
  have := a.isLt
  have := b.isLt
  have := Bool.toNat_lt u
  dsimp only
  omega
theorem Fits.and (st : Fin 8) (d : Fin 64) (a : Fin 64) (b : Fin 64) : Fits.Statement (.and st d a b) := by
  unfold Fits.Statement encode
  have := st.isLt
  have := d.isLt
  have := a.isLt
  have := b.isLt
  dsimp only
  omega
theorem Fits.or (st : Fin 8) (d : Fin 64) (a : Fin 64) (b : Fin 64) : Fits.Statement (.or st d a b) := by
  unfold Fits.Statement encode
  have := st.isLt
  have := d.isLt
  have := a.isLt
  have := b.isLt
  dsimp only
  omega
theorem Fits.xor (st : Fin 8) (d : Fin 64) (a : Fin 64) (b : Fin 64) : Fits.Statement (.xor st d a b) := by
  unfold Fits.Statement encode
  have := st.isLt
  have := d.isLt
  have := a.isLt
  have := b.isLt
  dsimp only
  omega
theorem Fits.shl (st : Fin 8) (d : Fin 64) (a : Fin 64) (b : Fin 64) : Fits.Statement (.shl st d a b) := by
  unfold Fits.Statement encode
  have := st.isLt
  have := d.isLt
  have := a.isLt
  have := b.isLt
  dsimp only
  omega
theorem Fits.shr (st : Fin 8) (d : Fin 64) (a : Fin 64) (b : Fin 64) : Fits.Statement (.shr st d a b) := by
  unfold Fits.Statement encode
  have := st.isLt
  have := d.isLt
  have := a.isLt
  have := b.isLt
  dsimp only
  omega
theorem Fits.sra (st : Fin 8) (d : Fin 64) (a : Fin 64) (b : Fin 64) : Fits.Statement (.sra st d a b) := by
  unfold Fits.Statement encode
  have := st.isLt
  have := d.isLt
  have := a.isLt
  have := b.isLt
  dsimp only
  omega
theorem Fits.min (st : Fin 8) (d : Fin 64) (a : Fin 64) (b : Fin 64) (u : Bool) : Fits.Statement (.min st d a b u) := by
  unfold Fits.Statement encode
  have := st.isLt
  have := d.isLt
  have := a.isLt
  have := b.isLt
  have := Bool.toNat_lt u
  dsimp only
  omega
theorem Fits.max (st : Fin 8) (d : Fin 64) (a : Fin 64) (b : Fin 64) (u : Bool) : Fits.Statement (.max st d a b u) := by
  unfold Fits.Statement encode
  have := st.isLt
  have := d.isLt
  have := a.isLt
  have := b.isLt
  have := Bool.toNat_lt u
  dsimp only
  omega
theorem Fits.addi (st : Fin 8) (d : Fin 64) (a : Fin 64) (imm : Fin 1024) : Fits.Statement (.addi st d a imm) := by
  unfold Fits.Statement encode
  have := st.isLt
  have := d.isLt
  have := a.isLt
  have := imm.isLt
  dsimp only
  omega
theorem Fits.andi (st : Fin 8) (d : Fin 64) (a : Fin 64) (imm : Fin 1024) : Fits.Statement (.andi st d a imm) := by
  unfold Fits.Statement encode
  have := st.isLt
  have := d.isLt
  have := a.isLt
  have := imm.isLt
  dsimp only
  omega
theorem Fits.ori (st : Fin 8) (d : Fin 64) (a : Fin 64) (imm : Fin 1024) : Fits.Statement (.ori st d a imm) := by
  unfold Fits.Statement encode
  have := st.isLt
  have := d.isLt
  have := a.isLt
  have := imm.isLt
  dsimp only
  omega
theorem Fits.xori (st : Fin 8) (d : Fin 64) (a : Fin 64) (imm : Fin 1024) : Fits.Statement (.xori st d a imm) := by
  unfold Fits.Statement encode
  have := st.isLt
  have := d.isLt
  have := a.isLt
  have := imm.isLt
  dsimp only
  omega
theorem Fits.shli (st : Fin 8) (d : Fin 64) (a : Fin 64) (imm : Fin 64) : Fits.Statement (.shli st d a imm) := by
  unfold Fits.Statement encode
  have := st.isLt
  have := d.isLt
  have := a.isLt
  have := imm.isLt
  dsimp only
  omega
theorem Fits.shri (st : Fin 8) (d : Fin 64) (a : Fin 64) (imm : Fin 64) : Fits.Statement (.shri st d a imm) := by
  unfold Fits.Statement encode
  have := st.isLt
  have := d.isLt
  have := a.isLt
  have := imm.isLt
  dsimp only
  omega
theorem Fits.srai (st : Fin 8) (d : Fin 64) (a : Fin 64) (imm : Fin 64) : Fits.Statement (.srai st d a imm) := by
  unfold Fits.Statement encode
  have := st.isLt
  have := d.isLt
  have := a.isLt
  have := imm.isLt
  dsimp only
  omega
theorem Fits.li (st : Fin 8) (d : Fin 64) (imm : Fin 65536) : Fits.Statement (.li st d imm) := by
  unfold Fits.Statement encode
  have := st.isLt
  have := d.isLt
  have := imm.isLt
  dsimp only
  omega
theorem Fits.lih (st : Fin 8) (d : Fin 64) (imm : Fin 65536) : Fits.Statement (.lih st d imm) := by
  unfold Fits.Statement encode
  have := st.isLt
  have := d.isLt
  have := imm.isLt
  dsimp only
  omega
theorem Fits.addsh (st : Fin 8) (d : Fin 64) (a : Fin 64) (b : Fin 64) (k : Fin 16) : Fits.Statement (.addsh st d a b k) := by
  unfold Fits.Statement encode
  have := st.isLt
  have := d.isLt
  have := a.isLt
  have := b.isLt
  have := k.isLt
  dsimp only
  omega
theorem Fits.cmp (st : Fin 8) (p : Fin 8) (c : Fin 8) (a : Fin 64) (b : Fin 64) : Fits.Statement (.cmp st p c a b) := by
  unfold Fits.Statement encode
  have := st.isLt
  have := p.isLt
  have := c.isLt
  have := a.isLt
  have := b.isLt
  dsimp only
  omega
theorem Fits.cmpi (st : Fin 8) (p : Fin 8) (c : Fin 8) (a : Fin 64) (imm : Fin 1024) : Fits.Statement (.cmpi st p c a imm) := by
  unfold Fits.Statement encode
  have := st.isLt
  have := p.isLt
  have := c.isLt
  have := a.isLt
  have := imm.isLt
  dsimp only
  omega
theorem Fits.plog (st : Fin 8) (d : Fin 8) (a : Fin 8) (b : Fin 8) (t : Fin 16) : Fits.Statement (.plog st d a b t) := by
  unfold Fits.Statement encode
  have := st.isLt
  have := d.isLt
  have := a.isLt
  have := b.isLt
  have := t.isLt
  dsimp only
  omega
theorem Fits.clz (st : Fin 8) (d : Fin 64) (a : Fin 64) : Fits.Statement (.clz st d a) := by
  unfold Fits.Statement encode
  have := st.isLt
  have := d.isLt
  have := a.isLt
  dsimp only
  omega
theorem Fits.popc (st : Fin 8) (d : Fin 64) (a : Fin 64) : Fits.Statement (.popc st d a) := by
  unfold Fits.Statement encode
  have := st.isLt
  have := d.isLt
  have := a.isLt
  dsimp only
  omega
theorem Fits.sext (st : Fin 8) (d : Fin 64) (a : Fin 64) (w : Fin 128) : Fits.Statement (.sext st d a w) := by
  unfold Fits.Statement encode
  have := st.isLt
  have := d.isLt
  have := a.isLt
  have := w.isLt
  dsimp only
  omega
theorem Fits.zext (st : Fin 8) (d : Fin 64) (a : Fin 64) (w : Fin 128) : Fits.Statement (.zext st d a w) := by
  unfold Fits.Statement encode
  have := st.isLt
  have := d.isLt
  have := a.isLt
  have := w.isLt
  dsimp only
  omega
theorem Fits.div (st : Fin 8) (d : Fin 64) (a : Fin 64) (b : Fin 64) (u : Bool) : Fits.Statement (.div st d a b u) := by
  unfold Fits.Statement encode
  have := st.isLt
  have := d.isLt
  have := a.isLt
  have := b.isLt
  have := Bool.toNat_lt u
  dsimp only
  omega
theorem Fits.rem (st : Fin 8) (d : Fin 64) (a : Fin 64) (b : Fin 64) (u : Bool) : Fits.Statement (.rem st d a b u) := by
  unfold Fits.Statement encode
  have := st.isLt
  have := d.isLt
  have := a.isLt
  have := b.isLt
  have := Bool.toNat_lt u
  dsimp only
  omega
theorem Fits.br (st : Fin 8) (p : Fin 8) (n : Bool) (o : Fin 262144) : Fits.Statement (.br st p n o) := by
  unfold Fits.Statement encode
  have := st.isLt
  have := p.isLt
  have := Bool.toNat_lt n
  have := o.isLt
  dsimp only
  omega
theorem Fits.call (st : Fin 8) (p : Fin 8) (n : Bool) (o : Fin 262144) : Fits.Statement (.call st p n o) := by
  unfold Fits.Statement encode
  have := st.isLt
  have := p.isLt
  have := Bool.toNat_lt n
  have := o.isLt
  dsimp only
  omega
theorem Fits.jr (st : Fin 8) (a : Fin 64) : Fits.Statement (.jr st a) := by
  unfold Fits.Statement encode
  have := st.isLt
  have := a.isLt
  dsimp only
  omega
theorem Fits.loopImm (st : Fin 8) (k : Fin 4) (c : Fin 1024) (l : Fin 256) : Fits.Statement (.loopImm st k c l) := by
  unfold Fits.Statement encode
  have := st.isLt
  have := k.isLt
  have := c.isLt
  have := l.isLt
  dsimp only
  omega
theorem Fits.loopReg (st : Fin 8) (k : Fin 4) (r : Fin 64) (l : Fin 256) : Fits.Statement (.loopReg st k r l) := by
  unfold Fits.Statement encode
  have := st.isLt
  have := k.isLt
  have := r.isLt
  have := l.isLt
  dsimp only
  omega
theorem Fits.loopEnd : Fits.Statement (.loopEnd) := by
  show 0 < 2 ^ 32
  decide
theorem Fits.bar (st : Fin 8) (c : Fin 8) (g : Fin 256) : Fits.Statement (.bar st c g) := by
  unfold Fits.Statement encode
  have := st.isLt
  have := c.isLt
  have := g.isLt
  dsimp only
  omega
theorem Fits.barComplete (sc : Nat) (inst : Nat) (p : Nat) (g : Nat) : Fits.Statement (.barComplete sc inst p g) := by
  show 0 < 2 ^ 32
  decide
theorem Fits.waitc (st : Fin 8) (h : Fin 8) (t : Fin 524288) : Fits.Statement (.waitc st h t) := by
  unfold Fits.Statement encode
  have := st.isLt
  have := h.isLt
  have := t.isLt
  dsimp only
  omega
theorem Fits.sstep (st : Fin 8) (c : Fin 8) : Fits.Statement (.sstep st c) := by
  unfold Fits.Statement encode
  have := st.isLt
  have := c.isLt
  dsimp only
  omega
theorem Fits.tspawn (st : Fin 8) (a : Fin 64) (b : Fin 64) : Fits.Statement (.tspawn st a b) := by
  unfold Fits.Statement encode
  have := st.isLt
  have := a.isLt
  have := b.isLt
  dsimp only
  omega
theorem Fits.park (st : Fin 8) (n : Fin 524288) : Fits.Statement (.park st n) := by
  unfold Fits.Statement encode
  have := st.isLt
  have := n.isLt
  dsimp only
  omega
theorem Fits.yield (st : Fin 8) : Fits.Statement (.yield st) := by
  unfold Fits.Statement encode
  have := st.isLt
  dsimp only
  omega
theorem Fits.tdone (st : Fin 8) : Fits.Statement (.tdone st) := by
  unfold Fits.Statement encode
  have := st.isLt
  dsimp only
  omega
theorem Fits.trap (st : Fin 8) (n : Fin 65536) : Fits.Statement (.trap st n) := by
  unfold Fits.Statement encode
  have := st.isLt
  have := n.isLt
  dsimp only
  omega
theorem Fits.eret (st : Fin 8) (a : Fin 64) (b : Fin 64) : Fits.Statement (.eret st a b) := by
  unfold Fits.Statement encode
  have := st.isLt
  have := a.isLt
  have := b.isLt
  dsimp only
  omega
theorem Fits.snaprel (st : Fin 8) : Fits.Statement (.snaprel st) := by
  unfold Fits.Statement encode
  have := st.isLt
  dsimp only
  omega
theorem Fits.rdms (st : Fin 8) (d : Fin 64) (n : Fin 1024) : Fits.Statement (.rdms st d n) := by
  unfold Fits.Statement encode
  have := st.isLt
  have := d.isLt
  have := n.isLt
  dsimp only
  omega
theorem Fits.wrms (st : Fin 8) (a : Fin 64) (n : Fin 1024) : Fits.Statement (.wrms st a n) := by
  unfold Fits.Statement encode
  have := st.isLt
  have := a.isLt
  have := n.isLt
  dsimp only
  omega
theorem Fits.halt (st : Fin 8) (a : Fin 64) : Fits.Statement (.halt st a) := by
  unfold Fits.Statement encode
  have := st.isLt
  have := a.isLt
  dsimp only
  omega
theorem Fits.ld (d : Fin 64) (b : Fin 64) (p : Fin 8) (z : Fin 4) (o : Fin 256) (l : Lent) : Fits.Statement (.ld d b p z o l) := by
  unfold Fits.Statement encode
  have := d.isLt
  have := b.isLt
  have := p.isLt
  have := z.isLt
  have := o.isLt
  dsimp only
  omega
theorem Fits.ldv (d : Fin 64) (b : Fin 64) (p : Fin 8) (z : Fin 4) (o : Fin 256) (l : Lent) : Fits.Statement (.ldv d b p z o l) := by
  unfold Fits.Statement encode
  have := d.isLt
  have := b.isLt
  have := p.isLt
  have := z.isLt
  have := o.isLt
  dsimp only
  omega
theorem Fits.ldg (d : Fin 64) (a : Fin 64) (b : Fin 64) (p : Fin 8) (sc : Fin 4) (e : Fin 4) : Fits.Statement (.ldg d a b p sc e) := by
  unfold Fits.Statement encode
  have := d.isLt
  have := a.isLt
  have := b.isLt
  have := p.isLt
  have := sc.isLt
  have := e.isLt
  dsimp only
  omega
theorem Fits.ldb (d : Fin 64) (b : Fin 64) (p : Fin 8) (z : Fin 4) (o : Fin 256) (l : Lent) : Fits.Statement (.ldb d b p z o l) := by
  unfold Fits.Statement encode
  have := d.isLt
  have := b.isLt
  have := p.isLt
  have := z.isLt
  have := o.isLt
  dsimp only
  omega
theorem Fits.tagq (d : Fin 64) (a : Fin 64) (l : Lent) : Fits.Statement (.tagq d a l) := by
  unfold Fits.Statement encode
  have := d.isLt
  have := a.isLt
  dsimp only
  omega
theorem Fits.tagset (a : Fin 64) (k : Fin 1024) (l : Lent) : Fits.Statement (.tagset a k l) := by
  unfold Fits.Statement encode
  have := a.isLt
  have := k.isLt
  dsimp only
  omega
theorem Fits.tagclr (k : Fin 1024) (l : Lent) : Fits.Statement (.tagclr k l) := by
  unfold Fits.Statement encode
  have := k.isLt
  dsimp only
  omega
theorem Fits.tld (d : Fin 64) (b : Fin 64) (p : Fin 8) (z : Fin 4) (o : Fin 256) (l : Lent) : Fits.Statement (.tld d b p z o l) := by
  unfold Fits.Statement encode
  have := d.isLt
  have := b.isLt
  have := p.isLt
  have := z.isLt
  have := o.isLt
  dsimp only
  omega
theorem Fits.tdrop (a : Fin 64) : Fits.Statement (.tdrop a) := by
  unfold Fits.Statement encode
  have := a.isLt
  dsimp only
  omega
theorem Fits.tcnt (d : Fin 64) (a : Fin 64) : Fits.Statement (.tcnt d a) := by
  unfold Fits.Statement encode
  have := d.isLt
  have := a.isLt
  dsimp only
  omega
theorem Fits.tcntWait (d : Fin 64) (a : Fin 64) : Fits.Statement (.tcntWait d a) := by
  unfold Fits.Statement encode
  have := d.isLt
  have := a.isLt
  dsimp only
  omega
theorem Fits.aadd (d : Fin 64) (a : Fin 64) (b : Fin 64) (z : Bool) (c : Fin 8) (o : Bool) : Fits.Statement (.aadd d a b z c o) := by
  unfold Fits.Statement encode
  have := d.isLt
  have := a.isLt
  have := b.isLt
  have := Bool.toNat_lt z
  have := c.isLt
  have := Bool.toNat_lt o
  dsimp only
  omega
theorem Fits.amin (d : Fin 64) (a : Fin 64) (b : Fin 64) (z : Bool) (c : Fin 8) (o : Bool) : Fits.Statement (.amin d a b z c o) := by
  unfold Fits.Statement encode
  have := d.isLt
  have := a.isLt
  have := b.isLt
  have := Bool.toNat_lt z
  have := c.isLt
  have := Bool.toNat_lt o
  dsimp only
  omega
theorem Fits.amax (d : Fin 64) (a : Fin 64) (b : Fin 64) (z : Bool) (c : Fin 8) (o : Bool) : Fits.Statement (.amax d a b z c o) := by
  unfold Fits.Statement encode
  have := d.isLt
  have := a.isLt
  have := b.isLt
  have := Bool.toNat_lt z
  have := c.isLt
  have := Bool.toNat_lt o
  dsimp only
  omega
theorem Fits.aand (d : Fin 64) (a : Fin 64) (b : Fin 64) (z : Bool) (c : Fin 8) (o : Bool) : Fits.Statement (.aand d a b z c o) := by
  unfold Fits.Statement encode
  have := d.isLt
  have := a.isLt
  have := b.isLt
  have := Bool.toNat_lt z
  have := c.isLt
  have := Bool.toNat_lt o
  dsimp only
  omega
theorem Fits.aor (d : Fin 64) (a : Fin 64) (b : Fin 64) (z : Bool) (c : Fin 8) (o : Bool) : Fits.Statement (.aor d a b z c o) := by
  unfold Fits.Statement encode
  have := d.isLt
  have := a.isLt
  have := b.isLt
  have := Bool.toNat_lt z
  have := c.isLt
  have := Bool.toNat_lt o
  dsimp only
  omega
theorem Fits.axor (d : Fin 64) (a : Fin 64) (b : Fin 64) (z : Bool) (c : Fin 8) (o : Bool) : Fits.Statement (.axor d a b z c o) := by
  unfold Fits.Statement encode
  have := d.isLt
  have := a.isLt
  have := b.isLt
  have := Bool.toNat_lt z
  have := c.isLt
  have := Bool.toNat_lt o
  dsimp only
  omega
theorem Fits.aswp (d : Fin 64) (a : Fin 64) (b : Fin 64) (z : Bool) (c : Fin 8) (o : Bool) : Fits.Statement (.aswp d a b z c o) := by
  unfold Fits.Statement encode
  have := d.isLt
  have := a.isLt
  have := b.isLt
  have := Bool.toNat_lt z
  have := c.isLt
  have := Bool.toNat_lt o
  dsimp only
  omega
theorem Fits.acas (d : Fin 64) (a : Fin 64) (b : Fin 64) (z : Bool) (c : Fin 8) (o : Bool) : Fits.Statement (.acas d a b z c o) := by
  unfold Fits.Statement encode
  have := d.isLt
  have := a.isLt
  have := b.isLt
  have := Bool.toNat_lt z
  have := c.isLt
  have := Bool.toNat_lt o
  dsimp only
  omega
theorem Fits.cpyIn (a : Fin 64) (b : Fin 64) (c : Fin 64) (imm : Fin 16) (h : Fin 8) (mw : Micro) : Fits.Statement (.cpyIn a b c imm h mw) := by
  unfold Fits.Statement encode
  have := a.isLt
  have := b.isLt
  have := c.isLt
  have := imm.isLt
  have := h.isLt
  dsimp only
  omega
theorem Fits.cpygIn (a : Fin 64) (b : Fin 64) (c : Fin 64) (imm : Fin 16) (h : Fin 8) (mw : Micro) : Fits.Statement (.cpygIn a b c imm h mw) := by
  unfold Fits.Statement encode
  have := a.isLt
  have := b.isLt
  have := c.isLt
  have := imm.isLt
  have := h.isLt
  dsimp only
  omega
theorem Fits.cpysIn (a : Fin 64) (b : Fin 64) (c : Fin 64) (imm : Fin 16) (h : Fin 8) (mw : Micro) : Fits.Statement (.cpysIn a b c imm h mw) := by
  unfold Fits.Statement encode
  have := a.isLt
  have := b.isLt
  have := c.isLt
  have := imm.isLt
  have := h.isLt
  dsimp only
  omega
theorem Fits.cpyfIn (f : Bool) (b : Fin 64) (c : Fin 64) (imm : Fin 16) (h : Fin 8) (mw : Micro) : Fits.Statement (.cpyfIn f b c imm h mw) := by
  unfold Fits.Statement encode
  have := Bool.toNat_lt f
  have := b.isLt
  have := c.isLt
  have := imm.isLt
  have := h.isLt
  dsimp only
  omega
theorem Fits.shape (a : Fin 64) (k : Fin 16) (l : Lent) : Fits.Statement (.shape a k l) := by
  unfold Fits.Statement encode
  have := a.isLt
  have := k.isLt
  dsimp only
  omega
theorem Fits.hread (d : Fin 64) (sc : Fin 64) (t : Fin 64) (u : Fin 128) (l : Lent) : Fits.Statement (.hread d sc t u l) := by
  unfold Fits.Statement encode
  have := d.isLt
  have := sc.isLt
  have := t.isLt
  have := u.isLt
  dsimp only
  omega
theorem Fits.hwait (a : Fin 64) : Fits.Statement (.hwait a) := by
  unfold Fits.Statement encode
  have := a.isLt
  dsimp only
  omega
theorem Fits.hstat (d : Fin 64) (a : Fin 64) : Fits.Statement (.hstat d a) := by
  unfold Fits.Statement encode
  have := d.isLt
  have := a.isLt
  dsimp only
  omega
theorem Fits.hrel (a : Fin 64) : Fits.Statement (.hrel a) := by
  unfold Fits.Statement encode
  have := a.isLt
  dsimp only
  omega
theorem Fits.gload (d : Fin 64) (k : Fin 1024) (l : Lent) : Fits.Statement (.gload d k l) := by
  unfold Fits.Statement encode
  have := d.isLt
  have := k.isLt
  dsimp only
  omega
theorem Fits.vadd (d : Fin 64) (a : Fin 64) (b : Fin 64) (p : Fin 8) (e : Fin 4) (u : Bool) (sc : Bool) (sh : Lent) : Fits.Statement (.vadd d a b p e u sc sh) := by
  unfold Fits.Statement encode
  have := d.isLt
  have := a.isLt
  have := b.isLt
  have := p.isLt
  have := e.isLt
  have := Bool.toNat_lt u
  have := Bool.toNat_lt sc
  dsimp only
  omega
theorem Fits.vsub (d : Fin 64) (a : Fin 64) (b : Fin 64) (p : Fin 8) (e : Fin 4) (u : Bool) (sc : Bool) (sh : Lent) : Fits.Statement (.vsub d a b p e u sc sh) := by
  unfold Fits.Statement encode
  have := d.isLt
  have := a.isLt
  have := b.isLt
  have := p.isLt
  have := e.isLt
  have := Bool.toNat_lt u
  have := Bool.toNat_lt sc
  dsimp only
  omega
theorem Fits.vmul (d : Fin 64) (a : Fin 64) (b : Fin 64) (p : Fin 8) (e : Fin 4) (u : Bool) (sc : Bool) (sh : Lent) : Fits.Statement (.vmul d a b p e u sc sh) := by
  unfold Fits.Statement encode
  have := d.isLt
  have := a.isLt
  have := b.isLt
  have := p.isLt
  have := e.isLt
  have := Bool.toNat_lt u
  have := Bool.toNat_lt sc
  dsimp only
  omega
theorem Fits.vmulh (d : Fin 64) (a : Fin 64) (b : Fin 64) (p : Fin 8) (e : Fin 4) (u : Bool) (sh : Lent) : Fits.Statement (.vmulh d a b p e u sh) := by
  unfold Fits.Statement encode
  have := d.isLt
  have := a.isLt
  have := b.isLt
  have := p.isLt
  have := e.isLt
  have := Bool.toNat_lt u
  dsimp only
  omega
theorem Fits.vmin (d : Fin 64) (a : Fin 64) (b : Fin 64) (p : Fin 8) (e : Fin 4) (u : Bool) (sh : Lent) : Fits.Statement (.vmin d a b p e u sh) := by
  unfold Fits.Statement encode
  have := d.isLt
  have := a.isLt
  have := b.isLt
  have := p.isLt
  have := e.isLt
  have := Bool.toNat_lt u
  dsimp only
  omega
theorem Fits.vmax (d : Fin 64) (a : Fin 64) (b : Fin 64) (p : Fin 8) (e : Fin 4) (u : Bool) (sh : Lent) : Fits.Statement (.vmax d a b p e u sh) := by
  unfold Fits.Statement encode
  have := d.isLt
  have := a.isLt
  have := b.isLt
  have := p.isLt
  have := e.isLt
  have := Bool.toNat_lt u
  dsimp only
  omega
theorem Fits.vand (d : Fin 64) (a : Fin 64) (b : Fin 64) (p : Fin 8) (sh : Lent) : Fits.Statement (.vand d a b p sh) := by
  unfold Fits.Statement encode
  have := d.isLt
  have := a.isLt
  have := b.isLt
  have := p.isLt
  dsimp only
  omega
theorem Fits.vor (d : Fin 64) (a : Fin 64) (b : Fin 64) (p : Fin 8) (sh : Lent) : Fits.Statement (.vor d a b p sh) := by
  unfold Fits.Statement encode
  have := d.isLt
  have := a.isLt
  have := b.isLt
  have := p.isLt
  dsimp only
  omega
theorem Fits.vxor (d : Fin 64) (a : Fin 64) (b : Fin 64) (p : Fin 8) (sh : Lent) : Fits.Statement (.vxor d a b p sh) := by
  unfold Fits.Statement encode
  have := d.isLt
  have := a.isLt
  have := b.isLt
  have := p.isLt
  dsimp only
  omega
theorem Fits.vshl (d : Fin 64) (a : Fin 64) (b : Fin 64) (p : Fin 8) (e : Fin 4) (sh : Lent) : Fits.Statement (.vshl d a b p e sh) := by
  unfold Fits.Statement encode
  have := d.isLt
  have := a.isLt
  have := b.isLt
  have := p.isLt
  have := e.isLt
  dsimp only
  omega
theorem Fits.vshr (d : Fin 64) (a : Fin 64) (b : Fin 64) (p : Fin 8) (e : Fin 4) (sh : Lent) : Fits.Statement (.vshr d a b p e sh) := by
  unfold Fits.Statement encode
  have := d.isLt
  have := a.isLt
  have := b.isLt
  have := p.isLt
  have := e.isLt
  dsimp only
  omega
theorem Fits.vsra (d : Fin 64) (a : Fin 64) (b : Fin 64) (p : Fin 8) (e : Fin 4) (sh : Lent) : Fits.Statement (.vsra d a b p e sh) := by
  unfold Fits.Statement encode
  have := d.isLt
  have := a.isLt
  have := b.isLt
  have := p.isLt
  have := e.isLt
  dsimp only
  omega
theorem Fits.vabs (d : Fin 64) (a : Fin 64) (p : Fin 8) (e : Fin 4) (sc : Bool) (sh : Lent) : Fits.Statement (.vabs d a p e sc sh) := by
  unfold Fits.Statement encode
  have := d.isLt
  have := a.isLt
  have := p.isLt
  have := e.isLt
  have := Bool.toNat_lt sc
  dsimp only
  omega
theorem Fits.vneg (d : Fin 64) (a : Fin 64) (p : Fin 8) (e : Fin 4) (sc : Bool) (sh : Lent) : Fits.Statement (.vneg d a p e sc sh) := by
  unfold Fits.Statement encode
  have := d.isLt
  have := a.isLt
  have := p.isLt
  have := e.isLt
  have := Bool.toNat_lt sc
  dsimp only
  omega
theorem Fits.vclz (d : Fin 64) (a : Fin 64) (p : Fin 8) (e : Fin 4) (sh : Lent) : Fits.Statement (.vclz d a p e sh) := by
  unfold Fits.Statement encode
  have := d.isLt
  have := a.isLt
  have := p.isLt
  have := e.isLt
  dsimp only
  omega
theorem Fits.vpopc (d : Fin 64) (a : Fin 64) (p : Fin 8) (e : Fin 4) (sh : Lent) : Fits.Statement (.vpopc d a p e sh) := by
  unfold Fits.Statement encode
  have := d.isLt
  have := a.isLt
  have := p.isLt
  have := e.isLt
  dsimp only
  omega
theorem Fits.vfadd (d : Fin 64) (a : Fin 64) (b : Fin 64) (p : Fin 8) (t : Fin 4) (r : Fin 4) (sh : Lent) : Fits.Statement (.vfadd d a b p t r sh) := by
  unfold Fits.Statement encode
  have := d.isLt
  have := a.isLt
  have := b.isLt
  have := p.isLt
  have := t.isLt
  have := r.isLt
  dsimp only
  omega
theorem Fits.vfsub (d : Fin 64) (a : Fin 64) (b : Fin 64) (p : Fin 8) (t : Fin 4) (r : Fin 4) (sh : Lent) : Fits.Statement (.vfsub d a b p t r sh) := by
  unfold Fits.Statement encode
  have := d.isLt
  have := a.isLt
  have := b.isLt
  have := p.isLt
  have := t.isLt
  have := r.isLt
  dsimp only
  omega
theorem Fits.vfmul (d : Fin 64) (a : Fin 64) (b : Fin 64) (p : Fin 8) (t : Fin 4) (r : Fin 4) (sh : Lent) : Fits.Statement (.vfmul d a b p t r sh) := by
  unfold Fits.Statement encode
  have := d.isLt
  have := a.isLt
  have := b.isLt
  have := p.isLt
  have := t.isLt
  have := r.isLt
  dsimp only
  omega
theorem Fits.vfma (d : Fin 64) (a : Fin 64) (b : Fin 64) (p : Fin 8) (t : Fin 4) (r : Fin 4) (sh : Lent) : Fits.Statement (.vfma d a b p t r sh) := by
  unfold Fits.Statement encode
  have := d.isLt
  have := a.isLt
  have := b.isLt
  have := p.isLt
  have := t.isLt
  have := r.isLt
  dsimp only
  omega
theorem Fits.vfmin (d : Fin 64) (a : Fin 64) (b : Fin 64) (p : Fin 8) (t : Fin 4) (sh : Lent) : Fits.Statement (.vfmin d a b p t sh) := by
  unfold Fits.Statement encode
  have := d.isLt
  have := a.isLt
  have := b.isLt
  have := p.isLt
  have := t.isLt
  dsimp only
  omega
theorem Fits.vfmax (d : Fin 64) (a : Fin 64) (b : Fin 64) (p : Fin 8) (t : Fin 4) (sh : Lent) : Fits.Statement (.vfmax d a b p t sh) := by
  unfold Fits.Statement encode
  have := d.isLt
  have := a.isLt
  have := b.isLt
  have := p.isLt
  have := t.isLt
  dsimp only
  omega
theorem Fits.vfabs (d : Fin 64) (a : Fin 64) (p : Fin 8) (t : Fin 4) (sh : Lent) : Fits.Statement (.vfabs d a p t sh) := by
  unfold Fits.Statement encode
  have := d.isLt
  have := a.isLt
  have := p.isLt
  have := t.isLt
  dsimp only
  omega
theorem Fits.vfneg (d : Fin 64) (a : Fin 64) (p : Fin 8) (t : Fin 4) (sh : Lent) : Fits.Statement (.vfneg d a p t sh) := by
  unfold Fits.Statement encode
  have := d.isLt
  have := a.isLt
  have := p.isLt
  have := t.isLt
  dsimp only
  omega
theorem Fits.vcmp (c : Fin 8) (q : Fin 8) (a : Fin 64) (b : Fin 64) (p : Fin 8) (u : Bool) (sh : Lent) : Fits.Statement (.vcmp c q a b p u sh) := by
  unfold Fits.Statement encode
  have := c.isLt
  have := q.isLt
  have := a.isLt
  have := b.isLt
  have := p.isLt
  have := Bool.toNat_lt u
  dsimp only
  omega
theorem Fits.vfcmp (c : Fin 8) (q : Fin 8) (a : Fin 64) (b : Fin 64) (p : Fin 8) (sh : Lent) : Fits.Statement (.vfcmp c q a b p sh) := by
  unfold Fits.Statement encode
  have := c.isLt
  have := q.isLt
  have := a.isLt
  have := b.isLt
  have := p.isLt
  dsimp only
  omega
theorem Fits.vsel (d : Fin 64) (a : Fin 64) (b : Fin 64) (n : Fin 8) (sh : Lent) : Fits.Statement (.vsel d a b n sh) := by
  unfold Fits.Statement encode
  have := d.isLt
  have := a.isLt
  have := b.isLt
  have := n.isLt
  dsimp only
  omega
theorem Fits.vshuf (d : Fin 64) (a : Fin 64) (b : Fin 64) (p : Fin 8) (sh : Lent) : Fits.Statement (.vshuf d a b p sh) := by
  unfold Fits.Statement encode
  have := d.isLt
  have := a.isLt
  have := b.isLt
  have := p.isLt
  dsimp only
  omega
theorem Fits.vbcast (d : Fin 64) (a : Fin 64) (k : Fin 16) (p : Fin 8) (sh : Lent) : Fits.Statement (.vbcast d a k p sh) := by
  unfold Fits.Statement encode
  have := d.isLt
  have := a.isLt
  have := k.isLt
  have := p.isLt
  dsimp only
  omega
theorem Fits.vmovs (d : Fin 64) (a : Fin 64) (p : Fin 8) (sh : Lent) : Fits.Statement (.vmovs d a p sh) := by
  unfold Fits.Statement encode
  have := d.isLt
  have := a.isLt
  have := p.isLt
  dsimp only
  omega
theorem Fits.vmovsTos (d : Fin 64) (a : Fin 64) (k : Fin 16) (sh : Lent) : Fits.Statement (.vmovsTos d a k sh) := by
  unfold Fits.Statement encode
  have := d.isLt
  have := a.isLt
  have := k.isLt
  dsimp only
  omega
theorem Fits.vmov (d : Fin 64) (a : Fin 64) (p : Fin 8) (sh : Lent) : Fits.Statement (.vmov d a p sh) := by
  unfold Fits.Statement encode
  have := d.isLt
  have := a.isLt
  have := p.isLt
  dsimp only
  omega
theorem Fits.vradd (d : Fin 64) (a : Fin 64) (p : Fin 8) (u : Bool) (sc : Bool) (sh : Lent) : Fits.Statement (.vradd d a p u sc sh) := by
  unfold Fits.Statement encode
  have := d.isLt
  have := a.isLt
  have := p.isLt
  have := Bool.toNat_lt u
  have := Bool.toNat_lt sc
  dsimp only
  omega
theorem Fits.vrmin (d : Fin 64) (a : Fin 64) (p : Fin 8) (u : Bool) (sh : Lent) : Fits.Statement (.vrmin d a p u sh) := by
  unfold Fits.Statement encode
  have := d.isLt
  have := a.isLt
  have := p.isLt
  have := Bool.toNat_lt u
  dsimp only
  omega
theorem Fits.vrmax (d : Fin 64) (a : Fin 64) (p : Fin 8) (u : Bool) (sh : Lent) : Fits.Statement (.vrmax d a p u sh) := by
  unfold Fits.Statement encode
  have := d.isLt
  have := a.isLt
  have := p.isLt
  have := Bool.toNat_lt u
  dsimp only
  omega
theorem Fits.vfradd (d : Fin 64) (a : Fin 64) (p : Fin 8) (r : Fin 4) (sh : Lent) : Fits.Statement (.vfradd d a p r sh) := by
  unfold Fits.Statement encode
  have := d.isLt
  have := a.isLt
  have := p.isLt
  have := r.isLt
  dsimp only
  omega
theorem Fits.vfrmin (d : Fin 64) (a : Fin 64) (p : Fin 8) (sh : Lent) : Fits.Statement (.vfrmin d a p sh) := by
  unfold Fits.Statement encode
  have := d.isLt
  have := a.isLt
  have := p.isLt
  dsimp only
  omega
theorem Fits.vfrmax (d : Fin 64) (a : Fin 64) (p : Fin 8) (sh : Lent) : Fits.Statement (.vfrmax d a p sh) := by
  unfold Fits.Statement encode
  have := d.isLt
  have := a.isLt
  have := p.isLt
  dsimp only
  omega
theorem Fits.vcvt (d : Fin 64) (a : Fin 64) (f : Fin 8) (g : Fin 8) (p : Fin 8) (k : Fin 4) (r : Fin 4) (sh : Lent) : Fits.Statement (.vcvt d a f g p k r sh) := by
  unfold Fits.Statement encode
  have := d.isLt
  have := a.isLt
  have := f.isLt
  have := g.isLt
  have := p.isLt
  have := k.isLt
  have := r.isLt
  dsimp only
  omega
theorem Fits.vxc (d : Fin 64) (a : Fin 64) (k : Fin 8) (p : Fin 8) (m : Fin 4) (sh : Lent) : Fits.Statement (.vxc d a k p m sh) := by
  unfold Fits.Statement encode
  have := d.isLt
  have := a.isLt
  have := k.isLt
  have := p.isLt
  have := m.isLt
  dsimp only
  omega
theorem Fits.pwld (a : Fin 64) (j : Fin 64) (sh : Lent) : Fits.Statement (.pwld a j sh) := by
  unfold Fits.Statement encode
  have := a.isLt
  have := j.isLt
  dsimp only
  omega
theorem Fits.vpwp (d : Fin 64) (a : Fin 64) (p : Fin 8) (sh : Lent) : Fits.Statement (.vpwp d a p sh) := by
  unfold Fits.Statement encode
  have := d.isLt
  have := a.isLt
  have := p.isLt
  dsimp only
  omega
theorem Fits.brank (d : Fin 64) (a : Fin 64) (b : Fin 64) (p : Fin 8) (sh : Lent) : Fits.Statement (.brank d a b p sh) := by
  unfold Fits.Statement encode
  have := d.isLt
  have := a.isLt
  have := b.isLt
  have := p.isLt
  dsimp only
  omega
theorem Fits.bsel (d : Fin 64) (a : Fin 64) (b : Fin 64) (p : Fin 8) (sh : Lent) : Fits.Statement (.bsel d a b p sh) := by
  unfold Fits.Statement encode
  have := d.isLt
  have := a.isLt
  have := b.isLt
  have := p.isLt
  dsimp only
  omega
theorem Fits.vaddi (d : Fin 64) (a : Fin 64) (p : Fin 8) (imm : Fin 1024) (sh : Lent) : Fits.Statement (.vaddi d a p imm sh) := by
  unfold Fits.Statement encode
  have := d.isLt
  have := a.isLt
  have := p.isLt
  have := imm.isLt
  dsimp only
  omega
theorem Fits.vli (d : Fin 64) (p : Fin 8) (imm : Fin 1024) (sh : Lent) : Fits.Statement (.vli d p imm sh) := by
  unfold Fits.Statement encode
  have := d.isLt
  have := p.isLt
  have := imm.isLt
  dsimp only
  omega
theorem Fits.st (d : Fin 64) (b : Fin 64) (p : Fin 8) (z : Fin 4) (o : Fin 256) (l : Lent) : Fits.Statement (.st d b p z o l) := by
  unfold Fits.Statement encode
  have := d.isLt
  have := b.isLt
  have := p.isLt
  have := z.isLt
  have := o.isLt
  dsimp only
  omega
theorem Fits.stv (d : Fin 64) (b : Fin 64) (p : Fin 8) (z : Fin 4) (o : Fin 256) (l : Lent) : Fits.Statement (.stv d b p z o l) := by
  unfold Fits.Statement encode
  have := d.isLt
  have := b.isLt
  have := p.isLt
  have := z.isLt
  have := o.isLt
  dsimp only
  omega
theorem Fits.sts (d : Fin 64) (a : Fin 64) (b : Fin 64) (p : Fin 8) (sc : Fin 4) (e : Fin 4) : Fits.Statement (.sts d a b p sc e) := by
  unfold Fits.Statement encode
  have := d.isLt
  have := a.isLt
  have := b.isLt
  have := p.isLt
  have := sc.isLt
  have := e.isLt
  dsimp only
  omega
theorem Fits.cowst (d : Fin 64) (b : Fin 64) (p : Fin 8) (z : Fin 4) (o : Fin 256) (l : Lent) : Fits.Statement (.cowst d b p z o l) := by
  unfold Fits.Statement encode
  have := d.isLt
  have := b.isLt
  have := p.isLt
  have := z.isLt
  have := o.isLt
  dsimp only
  omega
theorem Fits.talloc (d : Fin 64) (sc : Fin 64) (n : Fin 64) (t : Fin 8) (l : Fin 16) (l2 : Lent) : Fits.Statement (.talloc d sc n t l l2) := by
  unfold Fits.Statement encode
  have := d.isLt
  have := sc.isLt
  have := n.isLt
  have := t.isLt
  have := l.isLt
  dsimp only
  omega
theorem Fits.twr (d : Fin 64) (b : Fin 64) (p : Fin 8) (z : Fin 4) (o : Fin 256) (l : Lent) : Fits.Statement (.twr d b p z o l) := by
  unfold Fits.Statement encode
  have := d.isLt
  have := b.isLt
  have := p.isLt
  have := z.isLt
  have := o.isLt
  dsimp only
  omega
theorem Fits.tseal (a : Fin 64) : Fits.Statement (.tseal a) := by
  unfold Fits.Statement encode
  have := a.isLt
  dsimp only
  omega
theorem Fits.cpyOut (a : Fin 64) (b : Fin 64) (c : Fin 64) (imm : Fin 16) (h : Fin 8) (mw : Micro) : Fits.Statement (.cpyOut a b c imm h mw) := by
  unfold Fits.Statement encode
  have := a.isLt
  have := b.isLt
  have := c.isLt
  have := imm.isLt
  have := h.isLt
  dsimp only
  omega
theorem Fits.cpygOut (a : Fin 64) (b : Fin 64) (c : Fin 64) (imm : Fin 16) (h : Fin 8) (mw : Micro) : Fits.Statement (.cpygOut a b c imm h mw) := by
  unfold Fits.Statement encode
  have := a.isLt
  have := b.isLt
  have := c.isLt
  have := imm.isLt
  have := h.isLt
  dsimp only
  omega
theorem Fits.cpysOut (a : Fin 64) (b : Fin 64) (c : Fin 64) (imm : Fin 16) (h : Fin 8) (mw : Micro) : Fits.Statement (.cpysOut a b c imm h mw) := by
  unfold Fits.Statement encode
  have := a.isLt
  have := b.isLt
  have := c.isLt
  have := imm.isLt
  have := h.isLt
  dsimp only
  omega
theorem Fits.cpyfOut (f : Bool) (b : Fin 64) (c : Fin 64) (imm : Fin 16) (h : Fin 8) (mw : Micro) : Fits.Statement (.cpyfOut f b c imm h mw) := by
  unfold Fits.Statement encode
  have := Bool.toNat_lt f
  have := b.isLt
  have := c.isLt
  have := imm.isLt
  have := h.isLt
  dsimp only
  omega
theorem Fits.publish (n : Fin 64) : Fits.Statement (.publish n) := by
  unfold Fits.Statement encode
  have := n.isLt
  dsimp only
  omega
theorem Fits.publishDef (n : Fin 64) (a : Fin 64) : Fits.Statement (.publishDef n a) := by
  unfold Fits.Statement encode
  have := n.isLt
  have := a.isLt
  dsimp only
  omega
theorem Fits.publishUndef (n : Fin 64) : Fits.Statement (.publishUndef n) := by
  unfold Fits.Statement encode
  have := n.isLt
  dsimp only
  omega
theorem Fits.drain (h : Fin 8) (c : Fin 8) : Fits.Statement (.drain h c) := by
  unfold Fits.Statement encode
  have := h.isLt
  have := c.isLt
  dsimp only
  omega
theorem Fits.fence (c : Fin 8) : Fits.Statement (.fence c) := by
  unfold Fits.Statement encode
  have := c.isLt
  dsimp only
  omega
theorem Fits.mark : Fits.Statement (.mark) := by
  unfold Fits.Statement encode
  dsimp only
  omega
theorem Fits.tlbiVa (a : Fin 64) : Fits.Statement (.tlbiVa a) := by
  unfold Fits.Statement encode
  have := a.isLt
  dsimp only
  omega
theorem Fits.tlbiOwn : Fits.Statement (.tlbiOwn) := by
  unfold Fits.Statement encode
  dsimp only
  omega
theorem Fits.tlbiPva (a : Fin 64) (b : Fin 64) : Fits.Statement (.tlbiPva a b) := by
  unfold Fits.Statement encode
  have := a.isLt
  have := b.isLt
  dsimp only
  omega
theorem Fits.tlbiPart (b : Fin 64) : Fits.Statement (.tlbiPart b) := by
  unfold Fits.Statement encode
  have := b.isLt
  dsimp only
  omega
theorem Fits.tlbiGlob : Fits.Statement (.tlbiGlob) := by
  unfold Fits.Statement encode
  dsimp only
  omega
theorem Fits.pagemv (a : Fin 64) (b : Fin 64) (h : Fin 8) (l : Lent) : Fits.Statement (.pagemv a b h l) := by
  unfold Fits.Statement encode
  have := a.isLt
  have := b.isLt
  have := h.isLt
  dsimp only
  omega
theorem Fits.wmap (a : Fin 64) (b : Fin 64) (n : Fin 16) (l : Lent) : Fits.Statement (.wmap a b n l) := by
  unfold Fits.Statement encode
  have := a.isLt
  have := b.isLt
  have := n.isLt
  dsimp only
  omega
theorem Fits.wunmap (n : Fin 16) : Fits.Statement (.wunmap n) := by
  unfold Fits.Statement encode
  have := n.isLt
  dsimp only
  omega
theorem Fits.lease (a : Fin 64) (l : Lent) : Fits.Statement (.lease a l) := by
  unfold Fits.Statement encode
  have := a.isLt
  dsimp only
  omega
theorem Fits.lfree (l : Lent) : Fits.Statement (.lfree l) := by
  unfold Fits.Statement encode
  dsimp only
  omega
theorem Fits.mcfg (a : Fin 64) (l : Lent) : Fits.Statement (.mcfg a l) := by
  unfold Fits.Statement encode
  have := a.isLt
  dsimp only
  omega
theorem Fits.mma (a : Fin 64) (f : Fin 32) (g : Fin 32) (sc : Bool) (o : Bool) (n : Bool) (m : Bool) (k : Fin 4) (l : Lent) : Fits.Statement (.mma a f g sc o n m k l) := by
  unfold Fits.Statement encode
  have := a.isLt
  have := f.isLt
  have := g.isLt
  have := Bool.toNat_lt sc
  have := Bool.toNat_lt o
  have := Bool.toNat_lt n
  have := Bool.toNat_lt m
  have := k.isLt
  dsimp only
  omega
theorem Fits.mmv (a : Fin 64) (f : Fin 32) (g : Fin 32) (r : Bool) (sc : Bool) (o : Bool) (n : Bool) (m : Bool) (k : Fin 4) (l : Lent) : Fits.Statement (.mmv a f g r sc o n m k l) := by
  unfold Fits.Statement encode
  have := a.isLt
  have := f.isLt
  have := g.isLt
  have := Bool.toNat_lt r
  have := Bool.toNat_lt sc
  have := Bool.toNat_lt o
  have := Bool.toNat_lt n
  have := Bool.toNat_lt m
  have := k.isLt
  dsimp only
  omega
theorem Fits.mdrain (a : Fin 64) (k : Fin 4) (l : Lent) : Fits.Statement (.mdrain a k l) := by
  unfold Fits.Statement encode
  have := a.isLt
  have := k.isLt
  dsimp only
  omega
theorem Fits.mzero (k : Fin 4) (l : Lent) : Fits.Statement (.mzero k l) := by
  unfold Fits.Statement encode
  have := k.isLt
  dsimp only
  omega
theorem Fits.mwait (k : Fin 16) (l : Lent) : Fits.Statement (.mwait k l) := by
  unfold Fits.Statement encode
  have := k.isLt
  dsimp only
  omega
theorem Fits.rte (a : Fin 64) (imm : Fin 16) (h : Fin 8) (l : Lent) : Fits.Statement (.rte a imm h l) := by
  unfold Fits.Statement encode
  have := a.isLt
  have := imm.isLt
  have := h.isLt
  dsimp only
  omega
theorem Fits.apre (a : Fin 64) (imm : Fin 16) (h : Fin 8) (l : Lent) : Fits.Statement (.apre a imm h l) := by
  unfold Fits.Statement encode
  have := a.isLt
  have := imm.isLt
  have := h.isLt
  dsimp only
  omega
theorem Fits.adec (a : Fin 64) (imm : Fin 16) (h : Fin 8) (l : Lent) : Fits.Statement (.adec a imm h l) := by
  unfold Fits.Statement encode
  have := a.isLt
  have := imm.isLt
  have := h.isLt
  dsimp only
  omega
theorem Fits.kvag (a : Fin 64) (g : Fin 16) (l : Lent) : Fits.Statement (.kvag a g l) := by
  unfold Fits.Statement encode
  have := a.isLt
  have := g.isLt
  dsimp only
  omega
theorem Fits.xsend (a : Fin 64) (b : Fin 64) (c : Fin 64) (imm : Fin 16) (h : Fin 8) (l : Lent) : Fits.Statement (.xsend a b c imm h l) := by
  unfold Fits.Statement encode
  have := a.isLt
  have := b.isLt
  have := c.isLt
  have := imm.isLt
  have := h.isLt
  dsimp only
  omega
theorem Fits.xrecv (d : Fin 64) (k : Fin 64) (l : Lent) : Fits.Statement (.xrecv d k l) := by
  unfold Fits.Statement encode
  have := d.isLt
  have := k.isLt
  dsimp only
  omega
theorem Fits.ptrcfg (a : Fin 64) (l : Lent) : Fits.Statement (.ptrcfg a l) := by
  unfold Fits.Statement encode
  have := a.isLt
  dsimp only
  omega
theorem Fits.ptrld (a : Fin 64) (b : Fin 64) (l : Lent) : Fits.Statement (.ptrld a b l) := by
  unfold Fits.Statement encode
  have := a.isLt
  have := b.isLt
  dsimp only
  omega
theorem Fits.ptrrun (a : Fin 64) (b : Fin 64) (c : Fin 64) (l : Lent) : Fits.Statement (.ptrrun a b c l) := by
  unfold Fits.Statement encode
  have := a.isLt
  have := b.isLt
  have := c.isLt
  dsimp only
  omega
theorem Fits.snapst (b : Fin 64) (o : Fin 256) (l : Lent) : Fits.Statement (.snapst b o l) := by
  unfold Fits.Statement encode
  have := b.isLt
  have := o.isLt
  dsimp only
  omega
theorem Fits.registerWriteLands (c : Nat) : Fits.Statement (.registerWriteLands c) := by
  show 0 < 2 ^ 32
  decide
theorem Fits.interlockedResultArrives (c : Nat) (id : Nat) : Fits.Statement (.interlockedResultArrives c id) := by
  show 0 < 2 ^ 32
  decide
theorem Fits.trapEntry (slot : Nat) (code : Nat) (sub : Nat) (info : BitVec 64) : Fits.Statement (.trapEntry slot code sub info) := by
  show 0 < 2 ^ 32
  decide
theorem Fits.pageWalk (d : Nat) (p : Nat) (vpn : Nat) : Fits.Statement (.pageWalk d p vpn) := by
  show 0 < 2 ^ 32
  decide
theorem Fits.copySegment (q : Nat) (id : Nat) : Fits.Statement (.copySegment q id) := by
  show 0 < 2 ^ 32
  decide
theorem Fits.copyComplete (c : Nat) (h : Nat) : Fits.Statement (.copyComplete c h) := by
  show 0 < 2 ^ 32
  decide
theorem Fits.pagemvCopyComplete (q : Nat) (id : Nat) : Fits.Statement (.pagemvCopyComplete q id) := by
  show 0 < 2 ^ 32
  decide
theorem Fits.hotRegionSwap (k : Nat) (r : Nat) (r2 : Nat) : Fits.Statement (.hotRegionSwap k r r2) := by
  show 0 < 2 ^ 32
  decide
theorem Fits.pseudoChannelPowerDown (k : Nat) (ch : Nat) : Fits.Statement (.pseudoChannelPowerDown k ch) := by
  show 0 < 2 ^ 32
  decide
theorem Fits.pseudoChannelSelfRefresh (k : Nat) (ch : Nat) : Fits.Statement (.pseudoChannelSelfRefresh k ch) := by
  show 0 < 2 ^ 32
  decide
theorem Fits.stackRetrain (k : Nat) : Fits.Statement (.stackRetrain k) := by
  show 0 < 2 ^ 32
  decide
theorem Fits.handleRequestArrives (id : Nat) : Fits.Statement (.handleRequestArrives id) := by
  show 0 < 2 ^ 32
  decide
theorem Fits.flashPageRead (e : Nat) (slot : Nat) (lp : Nat) : Fits.Statement (.flashPageRead e slot lp) := by
  show 0 < 2 ^ 32
  decide
theorem Fits.relocationSwitch (e : Nat) (k : Nat) (b : Nat) : Fits.Statement (.relocationSwitch e k b) := by
  show 0 < 2 ^ 32
  decide
theorem Fits.oldBlockErase (e : Nat) (k : Nat) (b : Nat) : Fits.Statement (.oldBlockErase e k b) := by
  show 0 < 2 ^ 32
  decide
theorem Fits.rebuild (e : Nat) (lp : Nat) : Fits.Statement (.rebuild e lp) := by
  show 0 < 2 ^ 32
  decide
theorem Fits.relocate (e : Nat) (lp : Nat) : Fits.Statement (.relocate e lp) := by
  show 0 < 2 ^ 32
  decide
theorem Fits.retire (e : Nat) (lp : Nat) : Fits.Statement (.retire e lp) := by
  show 0 < 2 ^ 32
  decide
theorem Fits.refill (e : Nat) (lp : Nat) : Fits.Statement (.refill e lp) := by
  show 0 < 2 ^ 32
  decide
theorem Fits.ftlCommandComplete (e : Nat) : Fits.Statement (.ftlCommandComplete e) := by
  show 0 < 2 ^ 32
  decide
theorem Fits.pointerRun (d : Nat) : Fits.Statement (.pointerRun d) := by
  show 0 < 2 ^ 32
  decide
theorem Fits.tallocRequestArrives (c : Nat) : Fits.Statement (.tallocRequestArrives c) := by
  show 0 < 2 ^ 32
  decide
theorem Fits.tallocGrant (d : Nat) : Fits.Statement (.tallocGrant d) := by
  show 0 < 2 ^ 32
  decide
theorem Fits.tileAccessArrives (id : Nat) : Fits.Statement (.tileAccessArrives id) := by
  show 0 < 2 ^ 32
  decide
theorem Fits.leaseGrant (q : Nat) : Fits.Statement (.leaseGrant q) := by
  show 0 < 2 ^ 32
  decide
theorem Fits.turnGrant (q : Nat) : Fits.Statement (.turnGrant q) := by
  show 0 < 2 ^ 32
  decide
theorem Fits.matrixCommandRetire (q : Nat) : Fits.Statement (.matrixCommandRetire q) := by
  show 0 < 2 ^ 32
  decide
theorem Fits.groupPartArrives (q : Nat) (src : Nat) : Fits.Statement (.groupPartArrives q src) := by
  show 0 < 2 ^ 32
  decide
theorem Fits.drainRowLeaves (q : Nat) : Fits.Statement (.drainRowLeaves q) := by
  show 0 < 2 ^ 32
  decide
theorem Fits.attentionCommandComplete (e : Nat) : Fits.Statement (.attentionCommandComplete e) := by
  show 0 < 2 ^ 32
  decide
theorem Fits.capacityRequest (id : Nat) : Fits.Statement (.capacityRequest id) := by
  show 0 < 2 ^ 32
  decide
theorem Fits.routingRound (d : Nat) : Fits.Statement (.routingRound d) := by
  show 0 < 2 ^ 32
  decide
theorem Fits.xsendBinding (id : Nat) : Fits.Statement (.xsendBinding id) := by
  show 0 < 2 ^ 32
  decide
theorem Fits.landing (id : Nat) : Fits.Statement (.landing id) := by
  show 0 < 2 ^ 32
  decide
theorem Fits.xrecvRequestArrives (id : Nat) : Fits.Statement (.xrecvRequestArrives id) := by
  show 0 < 2 ^ 32
  decide
theorem Fits.superstepBoundary (p : Nat) : Fits.Statement (.superstepBoundary p) := by
  show 0 < 2 ^ 32
  decide
theorem Fits.beaconTick : Fits.Statement (.beaconTick) := by
  show 0 < 2 ^ 32
  decide
theorem Fits.frameStart (p : Nat) : Fits.Statement (.frameStart p) := by
  show 0 < 2 ^ 32
  decide
theorem Fits.deferredFrameStart (p : Nat) : Fits.Statement (.deferredFrameStart p) := by
  show 0 < 2 ^ 32
  decide
theorem Fits.frameAdvance (p : Nat) : Fits.Statement (.frameAdvance p) := by
  show 0 < 2 ^ 32
  decide
theorem Fits.taskInsertion (id : Nat) : Fits.Statement (.taskInsertion id) := by
  show 0 < 2 ^ 32
  decide
theorem Fits.taskReady (p : Nat) (ent : Nat) : Fits.Statement (.taskReady p ent) := by
  show 0 < 2 ^ 32
  decide
theorem Fits.taskDispatch (d : Nat) : Fits.Statement (.taskDispatch d) := by
  show 0 < 2 ^ 32
  decide
theorem Fits.continuationResume (c : Nat) : Fits.Statement (.continuationResume c) := by
  show 0 < 2 ^ 32
  decide
theorem Fits.parkWake (p : Nat) (ent : Nat) : Fits.Statement (.parkWake p ent) := by
  show 0 < 2 ^ 32
  decide
theorem Fits.installTemplate : Fits.Statement (.installTemplate) := by
  show 0 < 2 ^ 32
  decide
theorem Fits.launchTasks : Fits.Statement (.launchTasks) := by
  show 0 < 2 ^ 32
  decide
theorem Fits.removeTemplate : Fits.Statement (.removeTemplate) := by
  show 0 < 2 ^ 32
  decide
theorem Fits.tearDownPartition : Fits.Statement (.tearDownPartition) := by
  show 0 < 2 ^ 32
  decide
theorem Fits.launchWindowWrite (off : Nat) (data : List (BitVec 8)) : Fits.Statement (.launchWindowWrite off data) := by
  show 0 < 2 ^ 32
  decide
theorem Fits.hostMemWrite (a : Nat) (data : List (BitVec 8)) : Fits.Statement (.hostMemWrite a data) := by
  show 0 < 2 ^ 32
  decide
theorem Fits.hostMemRead (a : Nat) (n : Nat) : Fits.Statement (.hostMemRead a n) := by
  show 0 < 2 ^ 32
  decide
theorem Fits.pod (a0 : BitVec 64) (a1 : BitVec 64) (a2 : BitVec 64) (a3 : BitVec 64) : Fits.Statement (.pod a0 a1 a2 a3) := by
  show 0 < 2 ^ 32
  decide
theorem Fits.loadw (a0 : BitVec 64) (a1 : BitVec 64) (a2 : BitVec 64) (a3 : BitVec 64) (a4 : BitVec 64) (a5 : BitVec 64) : Fits.Statement (.loadw a0 a1 a2 a3 a4 a5) := by
  show 0 < 2 ^ 32
  decide
theorem Fits.weightChunk (data : List (BitVec 8)) : Fits.Statement (.weightChunk data) := by
  show 0 < 2 ^ 32
  decide
theorem Fits.loadwSwitch : Fits.Statement (.loadwSwitch) := by
  show 0 < 2 ^ 32
  decide
theorem Fits.attest (a0 : BitVec 64) (a1 : BitVec 64) : Fits.Statement (.attest a0 a1) := by
  show 0 < 2 ^ 32
  decide
theorem Fits.fwstage (a0 : BitVec 64) (a1 : BitVec 64) : Fits.Statement (.fwstage a0 a1) := by
  show 0 < 2 ^ 32
  decide
theorem Fits.podBarrierMessage (pkg : Nat) (isBar : Bool) (p : Nat) (g : Nat) (n : Nat) : Fits.Statement (.podBarrierMessage pkg isBar p g n) := by
  show 0 < 2 ^ 32
  decide
theorem Fits.podBarrierRelease (isBar : Bool) (p : Nat) (g : Nat) (n : Nat) : Fits.Statement (.podBarrierRelease isBar p g n) := by
  show 0 < 2 ^ 32
  decide
theorem Fits.ptpMessage (offsetNs : Int) : Fits.Statement (.ptpMessage offsetNs) := by
  show 0 < 2 ^ 32
  decide
theorem Fits.linkRetry : Fits.Statement (.linkRetry) := by
  show 0 < 2 ^ 32
  decide
theorem Fits.keeperWindow : Fits.Statement (.keeperWindow) := by
  show 0 < 2 ^ 32
  decide
theorem Fits.keepcfgWrite (v : BitVec 64) : Fits.Statement (.keepcfgWrite v) := by
  show 0 < 2 ^ 32
  decide
theorem Fits.poolbaseWrite (v : BitVec 64) : Fits.Statement (.poolbaseWrite v) := by
  show 0 < 2 ^ 32
  decide
theorem Fits.srseedWrite (p : Nat) (v : BitVec 64) : Fits.Statement (.srseedWrite p v) := by
  show 0 < 2 ^ 32
  decide
theorem Fits.ttbaseWrite (p : Nat) (v : BitVec 64) : Fits.Statement (.ttbaseWrite p v) := by
  show 0 < 2 ^ 32
  decide
theorem Fits.kpartWrite (n : Nat) (v : BitVec 64) : Fits.Statement (.kpartWrite n v) := by
  show 0 < 2 ^ 32
  decide
theorem Fits.sscfgWrite (p : Nat) (v : BitVec 64) : Fits.Statement (.sscfgWrite p v) := by
  show 0 < 2 ^ 32
  decide
theorem Fits.sliceWrite (n : Nat) (v : BitVec 64) : Fits.Statement (.sliceWrite n v) := by
  show 0 < 2 ^ 32
  decide
theorem Fits.pstateHalt (p : Nat) : Fits.Statement (.pstateHalt p) := by
  show 0 < 2 ^ 32
  decide
theorem Fits.pstateResume (p : Nat) : Fits.Statement (.pstateResume p) := by
  show 0 < 2 ^ 32
  decide
theorem Fits.svackRelease (ix : Nat) : Fits.Statement (.svackRelease ix) := by
  show 0 < 2 ^ 32
  decide
theorem Fits.svackEnd (ix : Nat) : Fits.Statement (.svackEnd ix) := by
  show 0 < 2 ^ 32
  decide
theorem Fits.svqRecordWrite (d : Nat) : Fits.Statement (.svqRecordWrite d) := by
  show 0 < 2 ^ 32
  decide
theorem Fits.haltLineArrives (p : Nat) (kind : Nat) (ix : Nat) : Fits.Statement (.haltLineArrives p kind ix) := by
  show 0 < 2 ^ 32
  decide
theorem Fits.halted (p : Nat) : Fits.Statement (.halted p) := by
  show 0 < 2 ^ 32
  decide
theorem Fits.sliceEnd (d : Nat) : Fits.Statement (.sliceEnd d) := by
  show 0 < 2 ^ 32
  decide
theorem Fits.preemptionUnitSave (d : Nat) (kind : Nat) (ix : Nat) : Fits.Statement (.preemptionUnitSave d kind ix) := by
  show 0 < 2 ^ 32
  decide
theorem Fits.preemptionComplete (d : Nat) : Fits.Statement (.preemptionComplete d) := by
  show 0 < 2 ^ 32
  decide
theorem Fits.powerUp : Fits.Statement (.powerUp) := by
  show 0 < 2 ^ 32
  decide
theorem Fits.bringupStageComplete (ok : Bool) : Fits.Statement (.bringupStageComplete ok) := by
  show 0 < 2 ^ 32
  decide
theorem Fits.cxlReset : Fits.Statement (.cxlReset) := by
  show 0 < 2 ^ 32
  decide
theorem Fits.storePerformed (q : Nat) : Fits.Statement (.storePerformed q) := by
  show 0 < 2 ^ 32
  decide
theorem Fits.instructionFetchMissReturn (c : Nat) : Fits.Statement (.instructionFetchMissReturn c) := by
  show 0 < 2 ^ 32
  decide
theorem Fits.routingPassComplete (d : Nat) : Fits.Statement (.routingPassComplete d) := by
  show 0 < 2 ^ 32
  decide
theorem Fits.powerOff : Fits.Statement (.powerOff) := by
  show 0 < 2 ^ 32
  decide
theorem Fits.portLaneChange (lanes : Nat) : Fits.Statement (.portLaneChange lanes) := by
  show 0 < 2 ^ 32
  decide
theorem Fits.loadwDoneReport (pkg : Nat) : Fits.Statement (.loadwDoneReport pkg) := by
  show 0 < 2 ^ 32
  decide

end Sys2Proof.Laws
end

