-- ==== Sys2Proof/Tests/Slice0.lean ====
section
/-! SUPPORT. The model's own tests: ill-formed terms, words written out from the spec's encodings, the spec's worked examples, and one
witness for the hypotheses of every statement. -/
namespace Sys2Proof.Tests
open Sys2Proof Sys2Proof.Machine

set_option Elab.async false

/-! ### Small states -/

/-- Core 0 runs a task of partition 0, which has a trap handler; the first GiB is mapped to HBM by core 0's quad. -/
def core0 : Core := { task := some fetchTask, lastPart := some 0, pc := fetchPc }
def part0 : Part := { ttbase := 1, pstate := 0, tvec := 0x4001 }
def base : State := { cores := [(0, core0)], quads := [(0, { tlb := [⟨0, 0, 18, fetchLeaf⟩] })], parts := [(0, part0)] }
/-- Page tables at 0x20000000 that map the first GiB to itself, for those who walk them (R100, R101). -/
def giga : Tbl Byte := memWrite (memWrite (memWrite [] 0x20000000 (leBytes 8 0x20001181)) 0x20001000 (leBytes 8 0x20002181)) 0x20002000 (leBytes 8 fetchLeaf.toNat)
def partT : Part := { part0 with ttbase := 0x20000001 }
theorem witness_giga : ({ base with mem := giga, parts := [(0, partT)] } : State).walk 0 0x3FFFFFFF = .leaf fetchLeaf 30 0x20002000 := by decide +kernel
/-- The same with a core of one's own. -/
def withCore (k : Core) : State := base.setCore 0 k
def regs (l : Tbl W64) : State := withCore { core0 with s := l }
def regsMem (l : Tbl W64) (m : Tbl Byte) : State := { regs l with mem := m }
/-- A tenant's core: partition 1. -/
def tenant (l : Tbl W64) : State :=
  { (withCore { core0 with task := some { fetchTask with part := 1 }, s := l }) with parts := [(0, part0), (1, part0)] }
def next (r : Host.Outcome State Fault Refusal) : State := match r with | .next t => t | _ => base
/-- What is on its way to a register after an instruction. -/
def sent (i : Instr) (s : State) : List Payload := (next (exec i s)).me.flight.map (·.w)
/-- What is pending after an instruction. -/
def asked (i : Instr) (s : State) : List (Option Payload) := (next (exec i s)).me.pend.map (·.value)
/-- How the slot went. -/
def went (i : Instr) (s : State) : Issue := (next (exec i s)).issue

/-! ### Ill-formed terms (R6, R41, R42, R47, R130) -/

theorem test_wf_header_byte : Instr.wf (.hdr 0 false false true true 1 0 0) = false := by decide
theorem test_wf_header_microwords : Instr.wf (.hdr 0 true true true false 0 0 0) = false := by decide
theorem test_wf_condition : Instr.wf (.cmp 0 1 6 2 3) = false := by decide
theorem test_wf_sext_width : Instr.wf (.sext 0 1 2 0) = false := by decide
theorem test_wf_zext_width : Instr.wf (.zext 0 1 2 65) = false := by decide
theorem test_wf_never_taken : Instr.wf (.br 0 0 true 1) = false ∧ Instr.wf (.call 0 0 true 1) = false := by decide
theorem test_wf_loop_level : Instr.wf (.loopImm 0 3 1 1) = false ∧ Instr.wf (.loopReg 0 3 1 1) = false := by decide
theorem test_wf_barrier : Instr.wf (.bar 0 6 0) = false ∧ Instr.wf (.bar 0 2 1) = false := by decide
theorem test_wf_sstep_scope : Instr.wf (.sstep 0 3) = false := by decide
theorem test_wf_block_past_v63 : Instr.wf (.ldv 62 1 0 2 0 none) = false ∧ Instr.wf (.stv 63 1 0 1 0 none) = false ∧ Instr.wf (.twr 60 1 0 3 0 none) = false := by decide
theorem test_wf_gather_size : Instr.wf (.ldg 1 2 3 0 0 3) = false ∧ Instr.wf (.sts 1 2 3 0 0 3) = false ∧ Instr.wf (.ldb 1 2 0 3 0 none) = false := by decide
theorem test_wf_lent_unused : Instr.wf (.tagq 1 2 (some 1)) = false ∧ Instr.wf (.mzero 0 (some 1)) = false ∧ Instr.wf (.lease 1 (some 2)) = false := by decide
theorem test_wf_atomic_scope : Instr.wf (.aadd 1 2 3 false 0 false) = false ∧ Instr.wf (.acas 1 2 3 false 5 false) = false := by decide
theorem test_wf_microword : Instr.wf (.cpyIn 1 2 3 0 0 (some 1)) = false ∧ Instr.wf (.cpyIn 1 2 3 0 0 (some 0x100000)) = false
    ∧ Instr.wf (.cpygIn 1 2 3 0 0 none) = false ∧ Instr.wf (.cpysOut 1 2 3 0 0 none) = false
    ∧ Instr.wf (.cpyOut 1 2 3 0 0 (some (0x4000 + 26 * 512))) = false ∧ Instr.wf (.cpyIn 1 2 3 0 0 (some 0x200)) = false
    ∧ Instr.wf (.cpyfIn false 2 3 0 0 (some 16)) = false ∧ Instr.wf (.cpyIn 1 2 3 0 0 (some 0x80000)) = false := by decide
theorem test_wf_shape : Instr.wf (.vadd 1 2 3 0 0 false false (some 0x3E)) = false ∧ Instr.wf (.vadd 62 2 3 0 0 false false (some 0xBF)) = false := by decide
theorem test_wf_element : Instr.wf (.vadd 1 2 3 0 3 false false none) = false ∧ Instr.wf (.vfadd 1 2 3 0 3 0 none) = false := by decide
theorem test_wf_compare_rows : Instr.wf (.vcmp 0 1 2 3 0 false (some 0x7F)) = false ∧ Instr.wf (.vfcmp 7 1 2 3 0 none) = false := by decide
theorem test_wf_convert : Instr.wf (.vcvt 1 2 0 0 0 0 0 none) = false ∧ Instr.wf (.vcvt 1 2 6 0 0 0 0 none) = false
    ∧ Instr.wf (.vcvt 1 2 0 1 0 2 0 none) = false := by decide
theorem test_wf_exchange_mode : Instr.wf (.vxc 1 2 0 0 3 none) = false := by decide
theorem test_wf_talloc_target : Instr.wf (.talloc 1 2 3 7 0 none) = false := by decide
theorem test_wf_fence_scope : Instr.wf (.fence 0) = false ∧ Instr.wf (.drain 0 5) = false := by decide
theorem test_wf_format : Instr.wf (.mma 1 26 0 false false false false 0 none) = false ∧ Instr.wf (.mmv 1 0 26 false false false false false 0 none) = false := by decide
theorem test_wf_rounding : Instr.wf (.mma 1 0 0 false false false false 0 (some 6)) = false := by decide

/-! ### Words written out from the spec's encodings (R24, R38 to R46) -/

theorem test_decode_add : decodeSlot 0 0x00431050 .nothing = .ok (.add 0 3 4 5) := rfl
theorem test_decode_addi : decodeSlot 0 0x03420864 .nothing = .ok (.addi 0 2 2 100) := rfl
theorem test_decode_li : decodeSlot 0 0x05020000 .nothing = .ok (.li 0 2 0) := rfl
theorem test_decode_cmpi : decodeSlot 0 0x060A1064 .nothing = .ok (.cmpi 0 1 2 4 100) := rfl
theorem test_decode_br : decodeSlot 0 0x0813FFFD .nothing = .ok (.br 0 2 false 262141) := rfl
theorem test_decode_loop : decodeSlot 0 0x08C00602 .nothing = .ok (.loopImm 0 0 3 2) := rfl
theorem test_decode_bar : decodeSlot 0 0x09100000 .nothing = .ok (.bar 0 2 0) := rfl
theorem test_decode_waitc : decodeSlot 0 0x09500040 .nothing = .ok (.waitc 0 2 64) := rfl
theorem test_decode_sstep : decodeSlot 0 0x09A00000 .nothing = .ok (.sstep 0 4) := rfl
theorem test_decode_tspawn : decodeSlot 0 0x09C01050 .nothing = .ok (.tspawn 0 4 5) := rfl
theorem test_decode_park : decodeSlot 0 0x0A000064 .nothing = .ok (.park 0 100) := rfl
theorem test_decode_trap : decodeSlot 0 0x0AC00001 .nothing = .ok (.trap 0 1) := rfl
theorem test_decode_eret : decodeSlot 0 0x0B079E80 .nothing = .ok (.eret 0 60 61) := rfl
theorem test_decode_rdms : decodeSlot 0 0x0BBC0032 .nothing = .ok (.rdms 0 60 0x32) := rfl
theorem test_decode_wrms : decodeSlot 0 0x0BC01001 .nothing = .ok (.wrms 0 4 1) := rfl
theorem test_decode_halt : decodeSlot 0 0x0C00A000 .nothing = .ok (.halt 0 5) := rfl
theorem test_decode_ld : decodeSlot 1 0x0220A302 .nothing = .ok (.ld 4 5 0 3 2 none) := rfl
theorem test_decode_tagq : decodeSlot 1 0x1020A000 .nothing = .ok (.tagq 4 5 none) := rfl
theorem test_decode_tld : decodeSlot 1 0x20412200 .nothing = .ok (.tld 8 9 0 2 0 none) := rfl
theorem test_decode_tcntWait : decodeSlot 1 0x24288001 .nothing = .ok (.tcntWait 5 4) := rfl
theorem test_decode_aadd : decodeSlot 1 0x3028C3A9 .nothing = .ok (.aadd 5 6 7 false 4 true) := rfl
theorem test_decode_cpy : decodeSlot 1 0x40516009 (.micro 0x280000) = .ok (.cpyIn 10 11 0 1 1 (some 0x280000)) := rfl
theorem test_decode_shape : decodeSlot 1 0x4800C003 .nothing = .ok (.shape 6 3 none) := rfl
theorem test_decode_hread : decodeSlot 1 0x50528ABF .nothing = .ok (.hread 10 20 21 63 none) := rfl
theorem test_decode_gload : decodeSlot 1 0x58200000 .nothing = .ok (.gload 4 0 none) := rfl
theorem test_decode_vmin : decodeSlot 2 0x0A208600 .nothing = .ok (.vmin 4 4 12 0 0 false none) := rfl
theorem test_decode_vfadd : decodeSlot 2 0x20420C01 (.byte 0x53) = .ok (.vfadd 8 16 24 0 0 1 (some 0x53)) := rfl
theorem test_decode_vcmp : decodeSlot 2 0x30888280 .nothing = .ok (.vcmp 2 1 4 5 0 false none) := rfl
theorem test_decode_vcvt : decodeSlot 2 0x4C38E084 .nothing = .ok (.vcvt 7 7 0 1 0 1 0 none) := rfl
theorem test_decode_vxc : decodeSlot 2 0x50288080 .nothing = .ok (.vxc 5 4 1 0 0 none) := rfl
theorem test_decode_stv : decodeSlot 3 0x04414100 .nothing = .ok (.stv 8 10 0 1 0 none) := rfl
theorem test_decode_cowst : decodeSlot 3 0x0A498301 .nothing = .ok (.cowst 9 12 0 3 1 none) := rfl
theorem test_decode_talloc : decodeSlot 3 0x1020A300 .nothing = .ok (.talloc 4 5 6 0 0 none) := rfl
theorem test_decode_twr : decodeSlot 3 0x12008200 .nothing = .ok (.twr 0 4 0 2 0 none) := rfl
theorem test_decode_tseal : decodeSlot 3 0x14008000 .nothing = .ok (.tseal 4) := rfl
theorem test_decode_fence : decodeSlot 3 0x24C00000 .nothing = .ok (.fence 3) := rfl
theorem test_decode_drain : decodeSlot 3 0x22D80000 .nothing = .ok (.drain 3 3) := rfl
theorem test_decode_tlbi : decodeSlot 3 0x2800E000 .nothing = .ok (.tlbiVa 7) := rfl
theorem test_decode_publishDef : decodeSlot 3 0x20288001 .nothing = .ok (.publishDef 5 4) := rfl
theorem test_decode_pagemv : decodeSlot 3 0x2A20A001 .nothing = .ok (.pagemv 4 5 1 none) := rfl
theorem test_decode_wmap : decodeSlot 3 0x2C20A002 .nothing = .ok (.wmap 4 5 2 none) := rfl
theorem test_decode_wunmap : decodeSlot 3 0x2E000002 .nothing = .ok (.wunmap 2) := rfl
theorem test_decode_lease : decodeSlot 3 0x30200000 .nothing = .ok (.lease 4 none) := rfl
theorem test_decode_lfree : decodeSlot 3 0x32000000 .nothing = .ok (.lfree none) := rfl
theorem test_decode_mcfg : decodeSlot 3 0x34280000 .nothing = .ok (.mcfg 5 none) := rfl
theorem test_decode_mma : decodeSlot 3 0x36302080 .nothing = .ok (.mma 6 1 1 false false false false 0 none) := rfl
theorem test_decode_mma_int8 : decodeSlot 3 0x3631C710 .nothing = .ok (.mma 6 14 14 false true false false 0 none) := rfl
theorem test_decode_mmv : decodeSlot 3 0x38384842 .nothing = .ok (.mmv 7 2 16 true false false false false 2 none) := rfl
theorem test_decode_mdrain : decodeSlot 3 0x3A480000 .nothing = .ok (.mdrain 9 0 none) := rfl
theorem test_decode_mzero : decodeSlot 3 0x3C000003 .nothing = .ok (.mzero 3 none) := rfl
theorem test_decode_rte : decodeSlot 3 0x40200008 .nothing = .ok (.rte 4 1 0 none) := rfl
theorem test_decode_adec : decodeSlot 3 0x44400009 .nothing = .ok (.adec 8 1 1 none) := rfl
theorem test_decode_kvag : decodeSlot 3 0x46280003 .nothing = .ok (.kvag 5 3 none) := rfl
theorem test_decode_xsend : decodeSlot 3 0x4820A309 .nothing = .ok (.xsend 4 5 6 1 1 none) := rfl
theorem test_decode_xrecv : decodeSlot 3 0x4A380005 .nothing = .ok (.xrecv 7 5 none) := rfl
theorem test_decode_snapst : decodeSlot 3 0x5807A000 .nothing = .ok (.snapst 61 0 none) := rfl
/-- A reserved code, a reserved field and a lent byte that an instruction does not use (R47). -/
theorem test_decode_refuses : decodeSlot 0 0xFFFFFFFF .nothing = .error .reservedCode ∧ (∀ i, decodeSlot 3 0x14008001 .nothing ≠ .ok i) :=
  ⟨rfl, fun _ h => nomatch h⟩
theorem test_table_word : decodeTableWord 32 0x3631C710 = some (.mma 6 14 14 false true false false 0 none) ∧ decodeTableWord 32 0x00431050 = some (.add 0 3 4 5) := ⟨rfl, rfl⟩

/-! ### Slot 0: results from the rules' tables, and witnesses -/

/-- ScalarResults: the sum wraps at 64 bits (R210). -/
theorem test_add_wraps : Clear (.add 0 3 4 5) (regs [(4, 0xFFFFFFFFFFFFFFFF), (5, 3)])
    ∧ sent (.add 0 3 4 5) (regs [(4, 0xFFFFFFFFFFFFFFFF), (5, 3)]) = [.scalar 3 2] := by decide +kernel
theorem test_sub_wraps : sent (.sub 0 3 4 5) (regs [(4, 1), (5, 2)]) = [.scalar 3 0xFFFFFFFFFFFFFFFF] := by decide +kernel
theorem test_mulh_signed : sent (.mulh 0 3 4 5 false) (regs [(4, 0xFFFFFFFFFFFFFFFF), (5, 2)]) = [.scalar 3 0xFFFFFFFFFFFFFFFF] := by decide +kernel
theorem test_mulh_unsigned : sent (.mulh 0 3 4 5 true) (regs [(4, 0xFFFFFFFFFFFFFFFF), (5, 2)]) = [.scalar 3 1] := by decide +kernel
theorem test_sra_sign : sent (.sra 0 3 4 5) (regs [(4, 0x8000000000000000), (5, 67)]) = [.scalar 3 0xF000000000000000] := by decide +kernel
theorem test_min_signed : sent (.min 0 3 4 5 false) (regs [(4, 0xFFFFFFFFFFFFFFFF), (5, 1)]) = [.scalar 3 0xFFFFFFFFFFFFFFFF] := by decide +kernel
theorem test_max_unsigned : sent (.max 0 3 4 5 true) (regs [(4, 0xFFFFFFFFFFFFFFFF), (5, 1)]) = [.scalar 3 0xFFFFFFFFFFFFFFFF] := by decide +kernel
theorem test_addsh : sent (.addsh 0 3 4 5 3) (regs [(4, 1), (5, 0x2000000000000001)]) = [.scalar 3 9] := by decide +kernel
theorem test_clz_zero : sent (.clz 0 3 4) (regs [(4, 0)]) = [.scalar 3 64] := by decide +kernel
theorem test_popc : sent (.popc 0 3 4) (regs [(4, 0x8000000000000003)]) = [.scalar 3 3] := by decide +kernel
/-- The corners of division (R211). -/
theorem test_div_by_zero : sent (.div 0 3 4 5 false) (regs [(4, 7), (5, 0)]) = [.scalar 3 0xFFFFFFFFFFFFFFFF]
    ∧ sent (.rem 0 3 4 5 false) (regs [(4, 7), (5, 0)]) = [.scalar 3 7] := by decide +kernel
theorem test_div_overflow : sent (.div 0 3 4 5 false) (regs [(4, 0x8000000000000000), (5, 0xFFFFFFFFFFFFFFFF)]) = [.scalar 3 0x8000000000000000]
    ∧ sent (.rem 0 3 4 5 false) (regs [(4, 0x8000000000000000), (5, 0xFFFFFFFFFFFFFFFF)]) = [.scalar 3 0] := by decide +kernel
/-- A quotient rounds toward zero, and the remainder has the dividend's sign (R211). -/
theorem test_div_toward_zero : sent (.div 0 3 4 5 false) (regs [(4, 0xFFFFFFFFFFFFFFF9), (5, 2)]) = [.scalar 3 0xFFFFFFFFFFFFFFFD]
    ∧ sent (.rem 0 3 4 5 false) (regs [(4, 0xFFFFFFFFFFFFFFF9), (5, 2)]) = [.scalar 3 0xFFFFFFFFFFFFFFFF] := by decide +kernel
theorem test_addi_negative : sent (.addi 0 3 4 1023) (regs [(4, 0)]) = [.scalar 3 0xFFFFFFFFFFFFFFFF] := by decide +kernel
theorem test_ori_zero_extends : sent (.ori 0 3 4 1023) (regs [(4, 0)]) = [.scalar 3 0x3FF] := by decide +kernel
theorem test_sext : sent (.sext 0 3 4 8) (regs [(4, 0x80)]) = [.scalar 3 0xFFFFFFFFFFFFFF80] := by decide +kernel
theorem test_lih : sent (.lih 0 3 0xABCD) (regs [(3, 0x1234)]) = [.scalar 3 0x1234ABCD] := by decide +kernel

/-- ComparesAndPredicates. -/
theorem witness_compare : Clear (.cmp 0 1 2 4 5) (regs [(4, 0x8000000000000000), (5, 0)]) ∧ Clear (.cmpi 0 1 4 4 1023) (regs [(4, 1)])
    ∧ Clear (.plog 0 1 2 3 6) (withCore { core0 with p := [(2, 5), (3, 3)] }) := by decide
theorem test_cmp_signed : sent (.cmp 0 1 2 4 5) (regs [(4, 0x8000000000000000), (5, 0)]) = [.pred 1 (BitVec.allOnes 128) (BitVec.allOnes 128)] := by decide +kernel
theorem test_cmpi_unsigned_of_sign_extended : sent (.cmpi 0 1 4 4 1023) (regs [(4, 1)]) = [.pred 1 (BitVec.allOnes 128) (BitVec.allOnes 128)] := by decide +kernel
/-- Truth table 6 is exclusive or (R216). -/
theorem test_plog_xor : sent (.plog 0 1 2 3 6) (withCore { core0 with p := [(2, 5), (3, 3)] }) = [.pred 1 (BitVec.allOnes 128) 6] := by decide +kernel

/-- NoOperations: a header that lends slot 1 a byte. -/
theorem witness_header : Instr.wf (.hdr 0 false false false true 0 0 255) = true := by decide

/-- ControlTransfers: not taken, taken, and JR to an aligned and a misaligned address. -/
theorem witness_branch : Clear (.br 0 0 false 262141) (regs []) ∧ ((regs []).me.preg 0).getLsbD 0 != false
    ∧ Clear (.call 0 1 false 1) (withCore { core0 with p := [(1, 0)] })
    ∧ (((withCore { core0 with p := [(1, 0)] }).me.preg 1).getLsbD 0 != false) = false := by decide
theorem witness_jump : Clear (.jr 0 4) (regs [(4, 0x100)]) ∧ ((regs [(4, 0x100)]).me.sreg 4).toNat % 16 = 0
    ∧ Clear (.jr 0 4) (regs [(4, 8)]) ∧ ((regs [(4, 8)]).me.sreg 4).toNat % 16 ≠ 0 ∧ TakesNow (regs [(4, 8)]) 7 ∧ Trappable (regs [(4, 8)]) := by decide
theorem test_br_target : (next (exec (.br 0 0 false 262141) (regs []))).me.pc = fetchPc - 48 := by decide +kernel
theorem test_call_return : sent (.call 0 0 false 4) (regs []) = [.scalar 63 (fetchPc + 16)] ∧ (next (exec (.call 0 0 false 4) (regs []))).me.pc = fetchPc + 64 := by
  decide +kernel
theorem test_jr_misaligned : went (.jr 0 4) (regs [(4, 8)]) = .trapped ⟨7, 0, 0, 0⟩ := by decide +kernel

/-- Loops: a start, a count of 0, a level in use, a body that crosses, a register count above 32 bits. -/
def looped : State := withCore { core0 with s := [(4, 0x100000000)], loops := [⟨0, fetchPc - 16, fetchPc + 16⟩], lc := [(0, 2)] }
theorem witness_loop : Clear (.loopImm 0 0 3 1) (regs []) ∧ Clear (.loopImm 0 1 0 0) looped ∧ Clear (.loopReg 0 1 4 0) looped
    ∧ (looped.me.loops.any fun x => x.k == 0) = true ∧ TakesNow looped 8 ∧ TakesNow looped 5 ∧ Trappable looped
    ∧ (looped.me.loops.any fun x => decide (x.first.toNat ≤ (fetchPc + 16).toNat ∧ (fetchPc + 16).toNat ≤ x.last.toNat ∧ x.last.toNat < (fetchPc + 32).toNat)) = true
    ∧ 2 ^ 32 ≤ (looped.me.sreg 4).toNat := by decide
theorem test_loop_starts : (next (exec (.loopImm 0 0 3 1) (regs []))).me.loops = [⟨0, fetchPc + 16, fetchPc + 32⟩] ∧ (next (exec (.loopImm 0 0 3 1) (regs []))).me.lc = [(0, 3)] := by
  decide +kernel
theorem test_loop_zero_skips : (next (exec (.loopImm 0 0 0 1) (regs []))).me.pc = fetchPc + 48 := by decide +kernel
theorem test_loop_nest_faults : went (.loopImm 0 0 1 0) looped = .trapped ⟨8, 0, 0, 0⟩ ∧ went (.loopImm 0 1 1 1) looped = .trapped ⟨8, 0, 0, 0⟩
    ∧ went (.loopReg 0 1 4 0) looped = .trapped ⟨5, 0, 0, 0⟩ := by decide +kernel
/-- The last bundle of a body with count 2 goes back once (R221). -/
theorem test_loop_end : (next (exec .loopEnd (withCore { looped.me with pc := fetchPc + 16 }))).me.pc = fetchPc - 16
    ∧ (next (exec .loopEnd (withCore { looped.me with pc := fetchPc + 16 }))).me.lc = [(0, 1)] := by decide +kernel

/-- WritesLand: a scalar write that is due; two writes to one register; a discarded one. -/
def landing : State := withCore { core0 with s := [(3, 1)], sched := 5, flight := [⟨5, 7, 1, false, 0, .scalar 3 9⟩, ⟨6, 8, 1, false, 0, .scalar 4 9⟩] }
def landings : State := withCore { core0 with s := [(3, 1)], sched := 5, landed := [(3, 2)], flight := [⟨5, 7, 1, false, 0, .scalar 3 9⟩, ⟨4, 8, 1, false, 0, .scalar 3 10⟩] }
theorem witness_landing : ((landing.core 0).flight.filter fun g => decide (g.due ≤ (landing.core 0).sched)) = [⟨5, 7, 1, false, 0, .scalar 3 9⟩] := by decide
theorem witness_landings : (((landings.core 0).flight.filter fun g => decide (g.due ≤ (landings.core 0).sched)).map (·.seq)).Pairwise (· < ·)
    ∧ (∀ n, tget (landings.core 0).landed 3 = some n → ∀ f, f ∈ ((landings.core 0).flight.filter fun g => decide (g.due ≤ (landings.core 0).sched)) → n ≤ f.seq) :=
  ⟨by decide, fun n h f hf => by
    have e : n = 2 := by injection h with h; exact h.symm
    subst e
    revert f
    decide⟩
theorem test_lands : (next (exec (.registerWriteLands 0) landing)).me.sreg 3 = 9 ∧ (next (exec (.registerWriteLands 0) landings)).me.sreg 3 = 10 := by decide +kernel
theorem test_predicate_lanes_land : ((next (exec (.registerWriteLands 0) (withCore { core0 with p := [(1, 0xF0)], flight := [⟨0, 1, 1, false, 2, .pred 1 0x33 0x0F⟩] }))).me.preg 1) = 0xC3 := by
  decide +kernel
/-- InterlockedResultArrives: a value that is there, a value that is not known, a result of nobody. -/
def waiting : State := withCore { core0 with s := [(3, 1)], pend := [⟨1, [3], 0, 9, some (.scalar 3 9)⟩, ⟨2, [4], 0, 9, none⟩], landed := [(4, 2)], flight := [⟨9, 8, 0, false, 0, .scalar 3 7⟩] }
theorem witness_interlocked : (waiting.core 0).pend.find? (fun p => p.id == 1) = some ⟨1, [3], 0, 9, some (.scalar 3 9)⟩
    ∧ (waiting.core 0).flight ≠ [] ∧ (waiting.core 0).pend.find? (fun p => p.id == 2) = some ⟨2, [4], 0, 9, none⟩ ∧ (waiting.core 0).pend.find? (fun p => p.id == 3) = none := by decide
/-- The value that lands discards the write that was issued before it (R30). -/
theorem test_result_arrives : (next (exec (.interlockedResultArrives 0 1) waiting)).me.sreg 3 = 9
    ∧ tget (next (exec (.interlockedResultArrives 0 1) waiting)).me.landed 3 = some 9 := by decide +kernel

/-! ### Barriers, tasks, traps and registers -/

/-- What a read of the issuing core gave. -/
def got (x : MRes (List Byte)) : Option (List Byte) := match x with | .ok r => some r | .stop _ => none
theorem ok_of {x : MRes (List Byte)} {r : List Byte} (h : got x = some r) : x = .ok r := by
  cases x with
  | ok v => exact congrArg MRes.ok (Option.some.inj h)
  | stop v => nomatch h

/-- Arrivals: a core of a coop task; groups of two members and of none; a result in flight; a partition of two members. -/
def coop : State := withCore { core0 with task := some { fetchTask with coop := true }, flight := [⟨9, 1, 0, false, 0, .scalar 3 1⟩] }
def grouped : State := { regs [] with parts := [(0, { part0 with groups := [(1, 2)], sscfg := 2 })] }
theorem witness_bar : Clear (.bar 0 0 0) coop ∧ Clear (.bar 0 1 0) coop ∧ Clear (.bar 0 2 0) coop ∧ coop.me.coop = true ∧ coop.tileWritesOut coop.cur = false
    ∧ Clear (.bar 0 4 1) grouped ∧ 0 < tgetD (grouped.part 0).groups 1 0 ∧ grouped.releaseOut grouped.cur = false ∧ grouped.tileWritesOut grouped.cur = false
    ∧ Clear (.bar 0 4 2) grouped ∧ tgetD (grouped.part 0).groups 2 0 = 0 ∧ Clear (.bar 0 2 0) grouped ∧ grouped.me.coop = false
    ∧ TakesNow grouped 5 ∧ Trappable grouped := by decide
theorem witness_sstep : Clear (.sstep 0 4) grouped ∧ (grouped.part 0).members ≠ 0 ∧ (grouped.part 0).pod = ((4 : Fin 8).val == 5)
    ∧ (grouped.part 0).ssExchange = false ∧ (grouped.part 0).ssArrived + 1 < (grouped.part 0).members ∧ grouped.releaseOut grouped.cur = false
    ∧ ({ part0 with sscfg := 1 } : Part).members ≤ ({ part0 with sscfg := 1 } : Part).ssArrived + 1
    ∧ Clear (.sstep 0 4) base ∧ (base.part 0).members = 0 ∧ (grouped.part 0).pod ≠ ((5 : Fin 8).val == 5) := by decide
/-- The last member of a superstep ends its compute phase (R293). -/
theorem test_sstep_last : ((next (exec (.sstep 0 4) { regs [] with parts := [(0, { part0 with sscfg := 1 })] })).part 0).ssExchange = true := by decide +kernel
theorem test_bar_core_waits : (next (exec (.bar 0 1 0) coop)).me.extra = 8 := by decide +kernel
theorem test_bar_arrives : (next (exec (.bar 0 4 1) grouped)).me.post = .bar 4 0 1 := by decide +kernel

/-- TaskInstructions. -/
def record1 : Tbl Byte := [(0x100C, 1)]
def image1 : Tbl Byte := [(0x100C, 1), (0x2002, 1), (0x2008, 64)]
def spawner (a d : W64) : State := { regsMem [(4, a), (5, d)] (image1 ++ giga) with parts := [(0, { partT with tmpls := [(0, 0x2000)] })] }
/-- The same while the page of the image is under migration. -/
def moving (a d : W64) : State :=
  { spawner a d with mem := memWrite (spawner a d).mem 0x20002000 (leBytes 8 (migLeaf fetchLeaf 0 true).toNat) }
theorem witness_gload : Clear (.gload 4 8 none) base ∧ base.me.task = some fetchTask ∧ (8, BitVec.ofNat 64 fetchTask.part) ∈
      [(0, fetchTask.args.getD 0 0), (1, fetchTask.args.getD 1 0), (2, fetchTask.args.getD 2 0), (3, fetchTask.args.getD 3 0), (4, BitVec.ofNat 64 fetchTask.inst),
       (5, BitVec.ofNat 64 (fetchTask.tmpl * 65536 + fetchTask.node)), (6, BitVec.ofNat 64 fetchTask.member), (7, BitVec.ofNat 64 fetchTask.tag), (8, BitVec.ofNat 64 fetchTask.part)]
    ∧ Clear (.gload 4 9 none) base ∧ TakesNow base 5 ∧ Trappable base := by decide
theorem witness_leave : Clear (.yield 0) base ∧ base.me.coop = false ∧ Clear (.park 0 0) base ∧ Clear (.park 0 524287) base ∧ Clear (.tdone 0) base
    ∧ Clear (.tdone 0) coop ∧ coop.me.coop = true := by decide
/-- A wait that ends in the frame it begins in, and one that ends past the next frame. -/
theorem witness_park : ({ base with frameTicks := 1000 } : State).tick + 999 < 1000 ∧ Clear (.park 0 999) { base with frameTicks := 1000 }
    ∧ 1000 ≤ ({ base with frameTicks := 1000 } : State).tick + 5000 ∧ 0 < ({ base with frameTicks := 1000 } : State).frameTicksNew.getD 1000
    ∧ Clear (.park 0 5000) { base with frameTicks := 1000 } := by decide
theorem witness_spawn : Clear (.tspawn 0 4 5) (spawner 0x1000 5) ∧ Clear (.tspawn 0 4 5) (spawner 0x1010 0) ∧ (0x1010 : W64).toNat % 32 ≠ 0 ∧ (5 : W64).toNat ≤ 5 := by decide
/-- The record names node 0 of template 0, which is installed, and of the class of an AD; a record of zeros is not valid. -/
theorem witness_spawn_record : (spawner 0x1000 0).readSpan 0x1000 32 = .ok (memRead record1 0x1000 32)
    ∧ (∃ u n, (spawner 0x1000 0).checkRecord 0 0 (memRead record1 0x1000 32) = .ok u (.ok n) ∧ u.releaseOut u.cur = false)
    ∧ (∃ u, (spawner 0x1000 0).checkRecord 0 0 (memRead [] 0x1000 32) = .ok u (.error 5))
    ∧ ∃ u w, (moving 0x1000 0).checkRecord 0 0 (memRead record1 0x1000 32) = .stop u w :=
  ⟨ok_of (by decide +kernel), ⟨_, _, rfl, rfl⟩, ⟨_, rfl⟩, ⟨_, _, rfl⟩⟩
theorem test_gload_part : asked (.gload 4 7 none) base = [some (.scalar 4 0)] := by decide +kernel
theorem test_park_wakes : (next (exec (.park 0 100) { base with frame := 1, tick := 5 })).me.post = .suspend 1 0 (BitVec.ofNat 64 (2 ^ 24 + 105)) 0 := by decide +kernel
theorem test_tspawn_asks : (next (exec (.tspawn 0 4 5) (spawner 0x1000 0))).agenda = [(6, .taskInsertion 0)]
    ∧ (next (exec (.tspawn 0 4 5) (spawner 0x1000 0))).me.post = .tspawn := by decide +kernel

/-- TrapInstruction, TrapEntry, TrapReturns. -/
def trapping : State := withCore { core0 with post := .trap 65535 }
def handling : State := withCore { core0 with s := [(4, 0x100), (5, 8), (6, 0x1000)], theld := true, loops := [⟨0, 0, 0⟩], buffer := ⟨[⟨3, 1, 0, false, 0, .scalar 3 7⟩], [⟨1, 16, 32⟩], none, none⟩ }
def handlerless : State := { regs [] with parts := [(0, { part0 with tvec := 0 })] }
theorem witness_trap : Clear (.trap 0 65535) base ∧ trapping.me.post = .trap 65535 ∧ trapping.me.pend = [] ∧ Trappable trapping
    ∧ handling.me.theld = true ∧ (handling.part 0).pstate = 0 ∧ handlerless.me.theld = false ∧ bit (handlerless.part 0).tvec 0 = false := by decide
theorem test_trap_enters : (next (exec (.trapEntry 3 4 0 0x77) (withCore { core0 with sched := 2, flight := [⟨5, 1, 0, false, 0, .scalar 3 7⟩] }))).me.tcause = 0x30004
    ∧ (next (exec (.trapEntry 3 4 0 0x77) base)).me.pc = 0x4000 ∧ (next (exec (.trapEntry 3 4 0 0x77) base)).me.tepc = fetchPc := by decide +kernel
theorem test_double_fault : ((next (exec (.trapEntry 0 1 0 0) handling)).part 0).dbl = true ∧ ((next (exec (.trapEntry 0 1 0 0) handling)).part 0).pstate = 1
    ∧ ((next (exec (.trapEntry 0 1 0 0) handlerless)).part 0).dbl = false := by decide +kernel
theorem witness_eret : Clear (.eret 0 4 0) handling ∧ (handling.me.sreg 4).toNat % 16 = 0 ∧ Clear (.eret 0 5 0) handling ∧ (handling.me.sreg 5).toNat % 16 ≠ 0 := by decide
theorem test_eret_restores : (next (exec (.eret 0 4 0) handling)).me.pc = 0x100 ∧ (next (exec (.eret 0 4 0) handling)).me.loops = [⟨1, 16, 32⟩]
    ∧ (next (exec (.eret 0 4 0) handling)).me.flight.map (fun f => (f.due, f.keep)) = [(6, true)] ∧ (next (exec (.eret 0 4 0) handling)).me.theld = false := by decide +kernel
def imaged (m : Tbl Byte) : State := { handling with mem := m }
theorem witness_snapst : Clear (.snaprel 0) handling ∧ Clear (.snapst 6 0 none) handling ∧ (handling.me.sreg 6 + offM 6 0 none).toNat % 64 = 0
    ∧ Clear (.snapst 5 0 none) handling ∧ (handling.me.sreg 5 + offM 6 0 none).toNat % 64 ≠ 0 ∧ Clear (.snapst 4 0 none) (regs [(4, 64)]) ∧ (regs [(4, 64)]).me.theld = false := by decide
theorem test_snapst_magic : (next (exec (.snapst 6 0 none) handling)).physByte 0 0x1000 = 0x50 ∧ (next (exec (.snapst 6 0 none) handling)).physByte 0 0x1003 = 0x53 := by decide +kernel
/-- An image that SNAPST stored is one that ERET reads; memory of zeros is none, and one that counts an entry it does not hold is none. -/
def image0 : Tbl Byte := memWrite [] 0x1000 (imageOf ⟨[], [], none, none⟩)
def imageBad : Tbl Byte := memWrite image0 0x1004 [1]
theorem witness_eret_image : Clear (.eret 0 4 6) (imaged image0) ∧ (imaged image0).readImage 0x1000 128 = .ok (memRead image0 0x1000 128)
    ∧ imageSize (memRead image0 0x1000 128) = some 128 ∧ imageBuffer (memRead image0 0x1000 128) = some ⟨[], [], none, none⟩
    ∧ (imaged []).readImage 0x1000 128 = .ok (memRead [] 0x1000 128) ∧ imageSize (memRead [] 0x1000 128) = none
    ∧ imageSize (memRead imageBad 0x1000 128) = some 128 ∧ imageBuffer (memRead imageBad 0x1000 128) = none :=
  ⟨by decide, ok_of (by decide +kernel), by decide +kernel, by decide +kernel, ok_of (by decide +kernel), by decide +kernel, by decide +kernel, by decide +kernel⟩

/-- RegisterReads, RegisterWrites, Halts. -/
theorem witness_rdms : Clear (.rdms 0 60 0x32) base ∧ regAssigned 0x32 = true ∧ Clear (.rdms 0 60 0x50) (tenant []) ∧ regAssigned 0x50 = true ∧ (tenant []).isSup = false
    ∧ Clear (.rdms 0 60 0x133) (tenant []) ∧ Clear (.rdms 0 60 0x00B) base ∧ regAssigned 0x00B = false ∧ TakesNow (tenant []) 2 ∧ Trappable (tenant []) ∧ TakesNow base 1 := by decide
theorem witness_wrms : Clear (.wrms 0 4 0) (regs [(4, 0x138)]) ∧ (0x138 : W64).toNat &&& regRsv 0 = 0 ∧ ctxctlOk 0x138 = true
    ∧ ctxctlOk 0x038 = false ∧ (0x038 : W64).toNat &&& regRsv 0 = 0 ∧ (0x40 : W64).toNat &&& regRsv 0 ≠ 0 ∧ Clear (.wrms 0 4 2) (regs [(4, 10)]) ∧ mgeoOk 10 = true
    ∧ (10 : W64).toNat &&& regRsv 2 = 0 ∧ Clear (.wrms 0 4 0x50) (regs [(4, 0x4001)]) ∧ (regs []).isSup = true ∧ (0x4001 : W64).toNat &&& regRsv 0x50 = 0
    ∧ Clear (.wrms 0 4 3) (regs [(4, 1)]) ∧ Clear (.wrms 0 4 0x50) (tenant [(4, 1)]) := by decide
/-- SupervisorWrites: what a write of a value to a register asks of the state that holds it in s4. -/
def writes (n : Fin 1024) (v : W64) : Bool := decide (Clear (.wrms 0 4 n) (regs [(4, v)])) && regAssigned n.val && decide (v.toNat &&& regRsv n.val = 0)
theorem witness_writes_part : writes 0x04F 0x138 ∧ (0x4F / 16, true) ∈ [(0x04, ctxctlOk 0x138)] ∧ writes 0x040 0x038 ∧ ctxctlOk 0x038 = false ∧ writes 0x05F 0x8001
    ∧ writes 0x0B1 4096 ∧ writes 0x0B1 4097 ∧ writes 0x0C0 6 ∧ writes 0x0C0 5 ∧ ((regs []).part 0).ring = [] ∧ writes 0x0E3 12 ∧ writes 0x0E3 13 := by decide +kernel
theorem witness_writes_die : writes 0x123 1000 ∧ writes 0x123 999 ∧ writes 0x12B 0x1000 ∧ writes 0x13D 0x1000 ∧ writes 0x145 20 ∧ writes 0x145 21 ∧ writes 0x155 0x102
    ∧ writes 0x12F 4 ∧ writes 0x11F 0xFFFFFFFF00000000 ∧ writes 0x165 0x100000000 ∧ writes 0x0F2 0x8001 := by decide +kernel
theorem witness_writes_all : writes 0x132 1000 ∧ writes 0x132 999 ∧ writes 0x134 6 ∧ writes 0x134 14 ∧ writes 0x134 15 ∧ writes 0x134 5 ∧ writes 0x135 0x700000000
    ∧ writes 0x080 0 ∧ writes 0x133 0 ∧ writes 0x15D 0 ∧ writes 0x1E0 0 ∧ (regs []).isSup = true ∧ TakesNow (regs []) 5 ∧ Trappable (regs []) := by decide +kernel
/-- A field that is cleared by writing 1 keeps the bits that are written 0 (R5). -/
def slipped : State := { regs [(4, 0x8001)] with parts := [(0, { part0 with slipLost := 0x8003 })] }
theorem test_w1c_bits : ((next (exec (.wrms 0 4 0x0F0) slipped)).part 0).slipLost = 2 := by decide +kernel
theorem test_wrms_tvec : (next (exec (.wrms 0 4 0x50) (regs [(4, 0x8001)]))).regRead 0x50 = 0x8001 := by decide +kernel
theorem test_wrms_tenant_traps : went (.wrms 0 4 0x50) (tenant [(4, 0x8001)]) = .trapped ⟨2, 0, BitVec.ofNat 64 (encode (.wrms 0 4 0x50)), 0⟩ := by decide +kernel
theorem test_rdms_sends : sent (.rdms 0 60 0x50) base = [.scalar 60 0x4001] := by decide +kernel
theorem witness_halt : Clear (.halt 0 0) base ∧ Clear (.halt 0 4) (regs [(4, 0)]) ∧ (regs [(4, 0)]).isSup = true ∧ Clear (.halt 0 4) (regs [(4, 15)])
    ∧ Clear (.halt 0 4) (regs [(4, 16)]) ∧ Clear (.halt 0 4) (tenant [(4, 1)]) ∧ (tenant [(4, 1)]).isSup = false := by decide
/-- A HALT of a partition that is halting changes nothing (R381). -/
def halting0 : State := { regs [(4, 0)] with parts := [(0, { part0 with pstate := 1 })] }
theorem witness_halt_again : Clear (.halt 0 4) halting0 ∧ (halting0.part halting0.me.part).pstate = 1 ∧ halting0.isSup = true ∧ Clear (.halt 0 4) (regs [(4, 1)]) ∧ (1 : W64).toNat ≠ base.me.part := by decide
theorem test_halt_again : (next (exec (.halt 0 4) halting0)).me.stopped = false := by decide +kernel
theorem test_halt_begins : ((next (exec (.halt 0 0) base)).part 0).pstate = 1 ∧ (next (exec (.halt 0 0) base)).agenda = [(120, .haltLineArrives 0 0 0)] := by decide +kernel

/-! ### Loads and stores -/

/-- One cluster, with lane l of v5 holding 4l, or 2 in every lane. -/
def core1 : Core := { core0 with ctxctl := 0x100, s := [(4, 0x1000)] }
def offsets (f : Nat → Nat) : State := { withCore { core1 with v := [(32, rowOf (fun l => BitVec.ofNat 32 (l + 1)) 16), (40, rowOf (fun l => BitVec.ofNat 32 (f l)) 16)] } with mem := [(0x1004, 0x80), (0x1007, 0x12)] }
/-- The same memory through a page of a format. -/
def formatted (fmt : Nat) (a : W64) : State := { regs [(4, a)] with quads := [(0, { tlb := [⟨0, 0, 18, BitVec.ofNat 64 (fmt * 2 ^ 59 + 0x11D)⟩] })] }
def off1 (l : Tbl W64) : State := withCore { core0 with s := l, p := [(1, 0)] }

/-- SingleLoads: off, misaligned, translated, not translated; LDB with and without a lane. -/
theorem witness_ld : Clear (.ld 3 4 1 3 0 none) (off1 []) ∧ ((off1 []).me.preg 1).getLsbD 0 = false
    ∧ Clear (.ld 3 4 0 3 0 none) (regs [(4, 0x1004)]) ∧ ((regs [(4, 0x1004)]).me.preg 0).getLsbD 0 = true
    ∧ (Spec.address ((regs [(4, 0x1004)]).me.sreg 4) 3 0 none).toNat % 2 ^ 3 ≠ 0
    ∧ Spec.address ((regs [(4, 0x1000)]).me.sreg 4) 3 255 none = 0xFF8
    ∧ (regs [(4, 0x1000)]).translate (regs [(4, 0x1000)]).ctx .load 0xFF8 = .at_ (.phys 0xFF8) fetchLeaf
    ∧ (regs [(4, 0x8000000000000000)]).translate (regs [(4, 0x8000000000000000)]).ctx .load 0x8000000000000000 = .fail 1 ∧ (1 : Nat) < 256
    ∧ TakesNow (regs []) 4 ∧ TakesNow (regs []) 6 ∧ Trappable (regs []) := by decide +kernel
theorem witness_sound : Spec.sound base 0xFF8 8 := fun _ h => nomatch h
theorem witness_ldb : Clear (.ldb 3 4 0 2 0 none) (regs [(4, 0x1000)]) ∧ Clear (.ldb 3 4 1 2 0 none) (off1 [(4, 0x1000)])
    ∧ (∃ j l, j < (regs []).me.ctxExtent.2 ∧ l < 16 ∧ ((regs []).me.preg 0).getLsbD (16 * ((regs []).me.ctxExtent.1 + j) + l) = true)
    ∧ ¬ (∃ j l, j < 8 ∧ l < 16 ∧ ((off1 []).me.preg 1).getLsbD (16 * (0 + j) + l) = true) := by
  refine ⟨by decide, by decide, ⟨0, 0, by decide⟩, ?_⟩
  intro ⟨j, l, _, _, h⟩
  have e : (off1 []).me.preg 1 = 0 := by decide
  rw [e] at h
  simp at h
theorem test_ld_zero_extends : asked (.ld 3 4 0 0 4 none) (offsets id) = [some (.scalar 3 0x80)] ∧ asked (.ld 3 4 0 2 1 none) (offsets id) = [some (.scalar 3 0x12000080)] := by
  decide +kernel

/-- BlockLoads: eight register-clusters; a page of fp16 elements near its end; a format whose blocks do not stand at 64. -/
theorem witness_ldv : Clear (.ldv 8 4 0 0 0 none) (regs [(4, 0x1000)]) ∧ Clear (.ldv 8 4 0 0 0 none) (regs [(4, 0x1020)]) ∧ pteFmt fetchLeaf = 31
    ∧ (regs [(4, 0x1000)]).translate (regs [(4, 0x1000)]).ctx .load 0x1000 = .at_ (.phys 0x1000) fetchLeaf
    ∧ (∀ q, q < 8 → (regs [(4, 0x1000)]).translate (regs [(4, 0x1000)]).ctx .load (0x1000 + BitVec.ofNat 64 (64 * q)) = .at_ (.phys (0x1000 + 64 * q)) fetchLeaf) := by
  decide +kernel
theorem witness_ldv_formatted : Clear (.ldv 8 4 0 0 0 none) (formatted 0 0x1000) ∧ pteFmt 0x11D = 0
    ∧ (∀ q, q < 8 → (formatted 0 0x1000).translate (formatted 0 0x1000).ctx .load (0x1000 + BitVec.ofNat 64 (64 * q)) = .at_ (.phys (0x1000 + 64 * q)) 0x11D)
    ∧ firstElem 0 (pageGeo 0 0 false) 0 = some 0 ∧ (∀ q, q < 8 → ∀ l, l < 16 → 0 + (16 * q + l) < 4 * pageBlocks 0 (pageGeo 0 0 false))
    ∧ (∀ w, w ∈ linesOf ((laneElems ((List.range (2 ^ 0 * 8)).filter fun q => anyLane ((formatted 0 0x1000).me.preg 0) (0 + q % 8))
          fun q l => ((formatted 0 0x1000).me.preg 0).getLsbD (16 * (0 + q % 8) + l)).flatMap fun i => elemSpan 0 (pageGeo 0 0 false) (0 + i)) →
        (formatted 0 0x1000).translate (formatted 0 0x1000).ctx .load ((0x1000 : W64) + BitVec.ofNat 64 w.1 - BitVec.ofNat 64 (0x1000 % 4096)) = .at_ (.phys (0x1000 + w.1)) 0x11D)
    ∧ firstElem 0 (pageGeo 0 0 false) 4032 = some 2016 ∧ 4 * pageBlocks 0 (pageGeo 0 0 false) < 2016 + 16 * (7 + 1)
    ∧ firstElem 4 (pageGeo 4 0 false) 64 = none := by decide +kernel
/-- The one register-cluster with a lane on lies in a formatted page, the block's address in a raw one, or in a page that is not mapped. -/
def twoPages (l : List TlbEnt) : State :=
  { withCore { core0 with s := [(4, 0x1FC0)], p := [(1, 0xFFFF0000)] } with quads := [(0, { tlb := l })], parts := [(0, partT)], mem := [] }
def twoTlb : List TlbEnt := [⟨0, 1, 0, 0xF800000000001105⟩, ⟨0, 2, 0, 0x0000000000002105⟩]
theorem witness_two_pages : Clear (.ldv 8 4 1 0 0 none) (twoPages twoTlb)
    ∧ (∀ q, q < 8 → ((∃ l, l < 16 ∧ ((twoPages twoTlb).me.preg 1).getLsbD (16 * (0 + q % 8) + l) = true) ↔ q = 1))
    ∧ (twoPages twoTlb).translate (twoPages twoTlb).ctx .load (0x1FC0 + BitVec.ofNat 64 (64 * 1)) = .at_ (.phys 0x2000) 0x0000000000002105
    ∧ (twoPages twoTlb).translate (twoPages twoTlb).ctx .load 0x1FC0 = .at_ (.phys 0x1FC0) 0xF800000000001105 ∧ pteFmt 0xF800000000001105 = 31
    ∧ (twoPages [⟨0, 2, 0, 0xF800000000002105⟩]).translate (twoPages []).ctx .load 0x1FC0 = .miss 1 ∧ (twoPages []).windowAt (twoPages []).ctx 0x1FC0 = none
    ∧ (0x1FC0 + 64 * 1) / 4096 ≠ 0x1FC0 / 4096 := by decide +kernel
/-- A remap window whose rows of 512 bytes lie in two pages of different attributes: elements of both. -/
def split : State :=
  { withCore { core0 with s := [(4, 0x1001C0)] } with
    mem := [(0x2004, 8)], dies := [(0, { wins := [(0, ⟨0x100000, 0x200000, 512, 2, 16, 0x2000⟩)] })]
    quads := [(0, { tlb := [⟨0, 2, 0, 0xF800000000002105⟩, ⟨0, 0x200, 0, 0x0000000000200105⟩, ⟨0, 0x201, 0, 0x1000000000201105⟩] })] }
theorem witness_split : Clear (.ldv 8 4 0 0 0 none) split ∧ split.translate split.ctx .load 0x1001C0 = .at_ (.phys 0x2001C0) 0x0000000000200105
    ∧ firstElem 0 (pageGeo 0 0 false) 0x1C0 = some 224 ∧ (∀ q, q < 8 → ∀ l, l < 16 → 224 + (16 * q + l) < 4 * pageBlocks 0 (pageGeo 0 0 false))
    ∧ (∀ w, w ∈ linesOf ((laneElems ((List.range (2 ^ 0 * 8)).filter fun q => anyLane (split.me.preg 0) (0 + q % 8))
          fun q l => (split.me.preg 0).getLsbD (16 * (0 + q % 8) + l)).flatMap fun i => elemSpan 0 (pageGeo 0 0 false) (224 + i)) →
        split.translate split.ctx .load ((0x1001C0 : W64) + BitVec.ofNat 64 w.1 - BitVec.ofNat 64 (0x2001C0 % 4096))
          = if w.1 < 512 then .at_ (.phys (0x200000 + w.1)) 0x0000000000200105 else .at_ (.phys (0x201000 + (w.1 - 512))) 0x1000000000201105)
    ∧ bits (0x1000000000201105 : W64) 63 56 ≠ bits (0x0000000000200105 : W64) 63 56 := by decide +kernel
/-- LDG and STS: sixteen aligned lanes, and a first lane that is misaligned. -/
theorem witness_gather : Clear (.ldg 3 4 5 0 0 0) (offsets (4 * ·)) ∧ (offsets (4 * ·)).me.ctxExtent = (0, 1)
    ∧ (∀ l, l < 16 → (BitVec.ofNat 64 (((offsets (4 * ·)).me.sreg 4).toNat + (lane ((offsets (4 * ·)).me.vreg 5 0) l).toNat * 2 ^ 0)).toNat % 4 = 0
        ∧ (offsets (4 * ·)).translate (offsets (4 * ·)).ctx .load (BitVec.ofNat 64 (0x1000 + 4 * l)) = .at_ (.phys (0x1000 + 4 * l)) fetchLeaf)
    ∧ Clear (.ldg 3 4 5 0 0 0) (offsets fun _ => 2) ∧ (BitVec.ofNat 64 (0x1000 + (lane ((offsets fun _ => 2).me.vreg 5 0) 0).toNat * 2 ^ 0)).toNat % 4 ≠ 0 := by decide +kernel
theorem test_ldg_lane : ((next (exec (.ldg 3 4 5 0 0 0) (offsets (4 * ·)))).me.pend.map fun p => match p.value with
    | some (.vec _ _ _ _ _ d) => (lane (d.getD 0 0) 0, lane (d.getD 0 0) 1) | _ => (0, 0)) = [(0, 0x12000080)] := by decide +kernel

/-- ScalarStores, LaneStores: off, misaligned, and to a page that is writable and not shared. -/
theorem witness_st : Clear (.st 3 4 0 3 0 none) (regs [(3, 7), (4, 0x1000)]) ∧ Clear (.cowst 3 4 0 3 0 none) (regs [(3, 7), (4, 0x1000)])
    ∧ Clear (.st 3 4 1 3 0 none) (off1 [(3, 7), (4, 0x1000)]) ∧ Clear (.st 3 4 0 3 0 none) (regs [(3, 7), (4, 0x1001)]) ∧ (0x1001 : W64).toNat % 2 ^ 3 ≠ 0
    ∧ (regs []).windowAt (regs []).ctx 0x1000 = none ∧ (regs []).translate (regs []).ctx .store 0x1000 = .at_ (.phys 0x1000) fetchLeaf
    ∧ (regs []).translate (regs []).ctx .cowst 0x1000 = .at_ (.phys 0x1000) fetchLeaf ∧ pteShared fetchLeaf = false ∧ (regs []).overlapped 0x1000 0x1000 8 = false := by decide +kernel
theorem test_st_bytes : ((List.range 4).map fun i => (next (exec (.st 3 4 0 1 0 none) (regs [(3, 0x11223344), (4, 0x1000)]))).physByte 0 (0x1000 + i)) = [0x44, 0x33, 0, 0] := by
  decide +kernel
theorem test_cowst_bytes : ((List.range 2).map fun i => (next (exec (.cowst 3 4 0 0 0 none) (regs [(3, 0x11223344), (4, 0x1000)]))).physByte 0 (0x1000 + i)) = [0x44, 0] := by
  decide +kernel
theorem witness_stv : Clear (.stv 4 4 0 0 0 none) (offsets id) ∧ ((0x1000 : Nat) + 64 * 0) % 64 = 0
    ∧ (offsets id).translate (offsets id).ctx .store (0x1000 + BitVec.ofNat 64 (64 * 0)) = .at_ (.phys 0x1000) fetchLeaf
    ∧ 0x1000 % 64 = 0 ∧ (offsets id).overlapped ((0x1000 : W64) + BitVec.ofNat 64 (64 * 0)).toNat 0x1000 64 = false
    ∧ Clear (.stv 4 4 0 0 0 none) (regs [(4, 0x1008)]) ∧ (Spec.address ((regs [(4, 0x1008)]).me.sreg 4) 6 0 none).toNat % 64 ≠ 0 := by decide +kernel
theorem witness_sts : Clear (.sts 4 4 5 0 0 0) (offsets (4 * ·)) ∧ (∀ q, q < 16 →
      (offsets (4 * ·)).translate (offsets (4 * ·)).ctx .store (BitVec.ofNat 64 (0x1000 + (lane ((offsets (4 * ·)).me.vreg 5 0) q).toNat * 2 ^ 0)) = .at_ (.phys (0x1000 + 4 * q)) fetchLeaf
      ∧ (offsets (4 * ·)).overlapped (0x1000 + 4 * q) (0x1000 + 4 * q) 4 = false)
    ∧ Clear (.sts 4 4 5 0 0 0) (offsets fun _ => 2) := by decide +kernel
/-- Of lanes that write one address the highest leaves its value (R164). -/
theorem test_sts_highest_lane : (next (exec (.sts 4 4 5 0 0 0) (offsets fun _ => 0))).physByte 0 0x1000 = 16 := by decide +kernel
theorem test_stv_lane : (next (exec (.stv 4 4 0 0 0 none) (offsets id))).physByte 0 0x103C = 16 := by decide +kernel

/-- Atomics, StorePerformed. -/
def atom : State := { regs [(3, 5), (4, 0x1000), (5, 0xFFFFFFFF)] with mem := [(0x1000, 5)], quads := [(0, { tlb := [⟨0, 0, 18, fetchLeaf⟩], path := [⟨0, 0, 0, 0, none, 0x1004, [7]⟩] })] }
theorem witness_atomic : Clear (.aadd 3 4 5 false 4 true) atom ∧ (atom.me.sreg 4).toNat % 4 = 0 ∧ atom.translate atom.ctx .atomic 0x1000 = .at_ (.phys 0x1000) fetchLeaf
    ∧ (∀ w, w ∈ (atom.quad atom.myQuad).path → Spec.toMem w = true) ∧ atom.inSlot atom.myPart 0x1000 4 = false ∧ Clear (.acas 3 5 4 false 1 false) atom ∧ (atom.me.sreg 5).toNat % 4 ≠ 0 := by decide +kernel
theorem test_aadd_wraps : asked (.aadd 3 4 5 false 4 true) atom = [some (.scalar 3 5)] ∧ memRead (next (exec (.aadd 3 4 5 false 4 true) atom)).mem 0x1000 5 = [4, 0, 0, 0, 7] := by
  decide +kernel
theorem test_amin_signed : memRead (next (exec (.amin 3 4 5 false 4 false) atom)).mem 0x1000 4 = [0xFF, 0xFF, 0xFF, 0xFF] := by decide +kernel
theorem test_acas_equal : memRead (next (exec (.acas 3 4 5 false 4 false) atom)).mem 0x1000 4 = [0xFF, 0xFF, 0xFF, 0xFF] := by decide +kernel
theorem test_aswp_answers_old : asked (.aswp 3 4 5 false 4 false) atom = [some (.scalar 3 5)] := by decide +kernel
/-- A write that is due, and behind it one that is not. -/
def paths : State := { atom with quads := [(0, { path := [⟨0, 0, 0, 0, none, 0x1004, [7]⟩, ⟨0, 0, 0, 9, none, 0x1005, [8]⟩] })] }
theorem witness_plain : Spec.plainPaths atom := by
  intro q w h
  by_cases e : q = 0
  · subst e; revert w; decide
  · have : (atom.quad q).path = [] := by simp [State.quad, tgetD, tget, atom, regs, withCore, State.setCore, base, Ne.symm e]
    rw [this] at h; nomatch h
theorem test_store_performed : memRead (next (exec (.storePerformed 0) paths)).mem 0x1000 6 = [5, 0, 0, 0, 7, 0] ∧ ((next (exec (.storePerformed 0) paths)).quad 0).path.map (·.due) = [9] := by
  decide +kernel

/-- TagTable: the last slot below the carve-out, a rival, all slots. -/
def tagged : State := withCore { core0 with s := [(4, 0x5000)], tags := [(190, 5)], task := some { fetchTask with priv := 4096 } }
theorem witness_tags : Clear (.tagq 3 4 none) tagged ∧ (190, BitVec.ofNat 45 ((tagged.me.sreg 4).toNat / 4096)) ∈ tagged.me.tags
    ∧ Clear (.tagset 4 190 none) tagged ∧ 190 + (tagged.me.priv + 4095) / 4096 < 192 ∧ 192 ≤ 191 + (tagged.me.priv + 4095) / 4096 ∧ Clear (.tagset 4 191 none) tagged
    ∧ Clear (.tagset 4 0 none) tagged ∧ Clear (.tagclr 1023 none) tagged ∧ Clear (.tagclr 191 none) tagged ∧ Clear (.tagclr 192 none) tagged := by decide
theorem test_tagq : sent (.tagq 3 4 none) tagged = [.scalar 3 190] ∧ sent (.tagq 3 4 none) (regs [(4, 0x5000)]) = [.scalar 3 0xFFFF] := by decide +kernel
theorem test_tagset_rival : went (.tagset 4 0 none) tagged = .trapped ⟨5, 0, 0, 1⟩ := by decide +kernel
theorem test_tagclr_all : (next (exec (.tagclr 1023 none) tagged)).me.tags = [] := by decide +kernel

/-! ### Tiles, copies, handles, translation commands -/

/-- A tile of slot 3 of die 0, generation 1, of partition 0, with reads left; and its address. -/
def tile1 (count : Nat) (sealed : Bool) : Tile := ⟨1, 1, 0, count, 2, sealed, false, none, 0, [(0, 0x34), (1, 0x12)]⟩
def tileAddr : W64 := BitVec.ofNat 64 (kennelBase + 2 ^ 37 + 3 * 2 ^ 20)
def tiled (count : Nat) (sealed : Bool) : State :=
  { regs [(4, tileAddr), (5, 4096), (6, 1), (7, 0)] with dies := [(0, { tiles := [(3, tile1 count sealed)] })], parts := [(0, { part0 with kpart := [(0, 0x80004)] })] }
theorem witness_talloc : Clear (.talloc 3 5 6 0 0 none) (tiled 1 true) ∧ (tiled 1 true).me.talloc = none ∧ (4096 : Nat) / 4096 ≤ ceiling ((tiled 1 true).kpart 0 0)
    ∧ Clear (.talloc 3 7 6 0 0 none) (tiled 1 true) ∧ (0 : Nat) < 4096
    ∧ Clear (.talloc 3 5 6 0 0 none) (withCore { core0 with s := [(5, 4096), (6, 1)], talloc := some ⟨0, 1, 1, 2, some tileAddr, true⟩ })
    ∧ ceiling ((regs []).kpart 0 0) < 4096 / 4096 := by decide
/-- Held: the request is on its way, waits in a task that waits in place, and waits in one that may suspend. -/
def tallocing (arrived deadline : Bool) : State :=
  withCore { core0 with task := some { fetchTask with deadline := deadline }, talloc := some ⟨0, 1, 1, 2, none, arrived⟩ }
theorem witness_talloc_held : Clear (.talloc 3 5 6 0 0 none) (tallocing false false) ∧ Clear (.talloc 3 5 6 0 0 none) (tallocing true true) ∧ (tallocing true true).me.inPlace = true
    ∧ Clear (.talloc 3 5 6 0 0 none) (tallocing true false) ∧ (tallocing true false).me.inPlace = false := by decide
theorem test_talloc_suspends : (next (exec (.talloc 3 5 6 0 0 none) (tallocing true false))).me.post = .suspend 3 0 0 fetchPc := by decide +kernel
theorem test_talloc_asks : (next (exec (.talloc 3 5 6 0 0 none) (tiled 1 true))).agenda = [(6, .tallocRequestArrives 0)] ∧ went (.talloc 3 5 6 0 0 none) (tiled 1 true) = .held
    ∧ went (.talloc 3 7 6 0 0 none) (tiled 1 true) = .trapped ⟨5, 0, 0, 3⟩ := by decide +kernel
/-- TileWrites: a block of one register-cluster into the tile; one that arrives at a tile that may be written, and at one that may not. -/
def writer (sealed : Bool) : State :=
  { tiled 1 sealed with cores := [(0, { core1 with s := [(4, tileAddr), (5, tileAddr + 8)], v := [(32, rowOf (fun l => BitVec.ofNat 32 (l + 1)) 16)] })]
                        quads := [(0, { path := [⟨0, 0, 0, 0, some (0, 3, 1), 4092, [9, 8]⟩] })] }
theorem witness_twr : Clear (.twr 4 4 0 0 0 none) (writer false) ∧ (Spec.address ((writer false).me.sreg 4) 6 0 none).toNat % 64 = 0
    ∧ (∀ e, e ∈ (writer false).blockLines 4 0 0 tileAddr → inKennel e.1.toNat = true) ∧ (writer false).writable 0 3 1 = true
    ∧ Clear (.twr 4 5 0 0 0 none) (writer false) ∧ (Spec.address ((writer false).me.sreg 5) 6 0 none).toNat % 64 ≠ 0
    ∧ tget ((writer false).die 0).tiles 3 = some (tile1 1 false) ∧ ((writer true).core 0).task.isSome = true ∧ ((writer true).core 0).part = 0
    ∧ ((writer true).part 0).pstate = 0 ∧ (writer true).writable 0 3 1 = false := by decide +kernel
theorem witness_twr_places : (writer false).places .twr (((writer false).blockLines 4 0 0 tileAddr).map (·.1)) = .ok [.tile 0 3 1 0] := rfl
theorem test_tile_write_arrives : (((next (exec (.tileAccessArrives 0) (writer false))).die 0).tiles.map fun e => (tget e.2.bytes 4092, tget e.2.bytes 4093)) = [(some 9, some 8)] := by
  decide +kernel
theorem test_tile_write_too_late : ((next (exec (.tileAccessArrives 0) (writer true))).core 0).stopped = true := by decide +kernel
/-- TilesConsumed: the address names the tile, its last read, its last but one, and not sealed; and an address of another generation. -/
theorem witness_names : Spec.Names (tiled 1 true) tileAddr 0 3 (tile1 1 true) ∧ Spec.Names (tiled 2 true) tileAddr 0 3 (tile1 2 true)
    ∧ Spec.Names (tiled 1 false) tileAddr 0 3 (tile1 1 false) := by
  refine ⟨?_, ?_, ?_⟩ <;> constructor <;> decide +kernel
theorem witness_names_none : Spec.NamesNone (tiled 1 true) (tileAddr + 2 ^ 37) 0 :=
  ⟨by decide, rfl, by decide, fun tl h => by
    have e : tget ((tiled 1 true).die 0).tiles ((tileAddr + 2 ^ 37).toNat / 2 ^ 20 % 2 ^ 17) = some (tile1 1 true) := rfl
    rw [e] at h
    cases h
    decide⟩
theorem witness_tiles : Clear (.tseal 4) (tiled 1 false) ∧ (tiled 1 false).releaseOut 0 = false ∧ Clear (.tld 3 4 0 1 0 none) (tiled 1 true) ∧ Clear (.tld 3 4 0 1 0 none) (tiled 2 false)
    ∧ Clear (.tdrop 4) (tiled 1 true) ∧ Clear (.tcnt 3 4) (tiled 2 true) ∧ Clear (.tcntWait 3 4) (tiled 2 true) ∧ (tileAddr.toNat % 2 ^ 20 < 4096 * (tile1 1 true).units)
    ∧ Clear (.tld 3 4 1 1 0 none) (off1 [(4, tileAddr)]) := by decide +kernel
/-- The faults: a sealed tile for TSEAL and a bound one, no read left, an address past the tile's end, misaligned, outside the window, of a Kennel that
is not there, and a tile of another partition. -/
def tileBound : State := { tiled 1 false with dies := [(0, { tiles := [(3, { tile1 1 false with bound := true })] })] }
def tileAlien : State := { tiled 1 true with dies := [(0, { tiles := [(3, { tile1 1 true with part := 2 })] })] }
theorem witness_tile_faults : Clear (.tseal 4) (tiled 1 true) ∧ Clear (.tseal 4) tileBound ∧ Clear (.tdrop 4) (tiled 0 true) ∧ Clear (.tld 3 4 0 1 0 none) (tiled 0 true)
    ∧ Clear (.tseal 5) (tiled 1 true) ∧ inKennel ((tiled 1 true).me.sreg 5).toNat = false ∧ Clear (.tld 3 4 0 1 0 none) (regs [(4, tileAddr + 1)])
    ∧ inKennel (tileAddr + 6 * 2 ^ 49).toNat = true ∧ 6 ≤ (tileAddr + 6 * 2 ^ 49).toNat / 2 ^ 49 % 8 ∧ bit ((tiled 1 true).part 0).ttbase 0 = true
    ∧ (tileAddr + 1).toNat % 2 ^ 1 ≠ 0 ∧ 4096 * (tile1 1 true).units ≤ (tileAddr + 8192).toNat % 2 ^ 20 ∧ (tileAddr + 8192).toNat % 2 ^ 1 = 0 := by decide +kernel
theorem witness_names_faults : Spec.Names tileBound tileAddr 0 3 { tile1 1 false with bound := true } ∧ Spec.Names (tiled 0 true) tileAddr 0 3 (tile1 0 true)
    ∧ Spec.NamesOther tileAlien tileAddr { tile1 1 true with part := 2 } := by
  refine ⟨?_, ?_, ?_⟩ <;> constructor <;> decide +kernel
theorem test_tseal_sealed : went (.tseal 4) (tiled 1 true) = .trapped ⟨16, 0, tileAddr, 3⟩ ∧ went (.tdrop 5) (tiled 1 true) = .trapped ⟨5, 0, 0, 1⟩
    ∧ went (.tdrop 4) tileAlien = .trapped ⟨6, 3, tileAddr, 1⟩ := by decide +kernel
theorem test_tld_last_read : asked (.tld 3 4 0 1 0 none) (tiled 1 true) = [some (.scalar 3 0x1234)] ∧ ((next (exec (.tld 3 4 0 1 0 none) (tiled 1 true))).die 0).tiles = []
    ∧ ((next (exec (.tld 3 4 0 1 0 none) (tiled 1 true))).die 0).gens = [(3, 2)] := by decide +kernel
theorem test_tcnt : asked (.tcnt 3 4) (tiled 2 true) = [some (.scalar 3 0x30002)] ∧ asked (.tcnt 3 5) (tiled 2 true) = [] := by decide +kernel
theorem test_tseal : (((next (exec (.tseal 4) (tiled 1 false))).die 0).tiles.map (·.2.sealed)) = [true] := by decide +kernel

/-- CopiesAccepted: 64 bytes, a full channel, a count above 2^28, a conversion of no whole block of 64. -/
def copy0 : CopyCmd := ⟨0, 0, 0, .cpy, false, 0, 0x2000, 0x1000, 4096, none, 1, 0, 0, false, 4096, 0, 0, [], 0, 0, [], false, {}, 0, none, false, false, none, fetchPc, 0⟩
def copying (n : Nat) (c : W64) : State := { regs [(4, 0x2000), (5, 0x1000), (6, c)] with quads := [(0, { tlb := [⟨0, 0, 18, fetchLeaf⟩], chans := [(1, List.replicate n copy0)] })] }
theorem witness_copy_reads : Spec.copy (.cpyIn 4 5 6 2 1 none) (copying 31 64).me.sreg = some (1, .cpy, false, 0x2000, 0x1000, 64, 2, 1, none) := rfl
theorem witness_copy : Clear (.cpyIn 4 5 6 2 1 none) (copying 31 64)
    ∧ mwWalk (mwOf none) = false ∧ ((tgetD ((copying 31 64).quad 0).chans 1 []).filter fun o => !o.done).length < 32
    ∧ 32 ≤ ((tgetD ((copying 32 64).quad 0).chans 1 []).filter fun o => !o.done).length ∧ Clear (.cpyIn 4 5 6 2 1 none) (copying 0 0x10000001) ∧ 2 ^ 28 < (0x10000001 : W64).toNat
    ∧ Clear (.cpyIn 4 5 6 2 1 (some 0x4000)) (copying 0 65) ∧ mwCv (mwOf (some 0x4000)) = true ∧ (65 : W64).toNat % 64 ≠ 0 := by decide +kernel
theorem witness_copy_fits : Spec.CopyFits .cpy (mwOf none) none 64 where
  shape h := absurd h (by decide)
  size _ := by decide
  convert _ := rfl
  transpose x h := nomatch h
  rows x h := nomatch h
  gather h := nomatch h
  scatter h := nomatch h
theorem test_copy_queues : (((next (exec (.cpyIn 4 5 6 2 1 none) (copying 31 64))).quad 0).chans.map fun h => h.2.length) = [32] ∧ went (.cpyIn 4 5 6 2 1 none) (copying 32 64) = .held
    ∧ went (.cpyIn 4 5 6 2 1 none) (copying 0 0x10000001) = .trapped ⟨5, 0, 0, 1⟩ := by decide +kernel
/-- A segment of 64 bytes moves them (R125). -/
def segment1 : State := { regs [] with mem := [(0x1000, 9), (0x103F, 8)], quads := [(0, { tlb := [⟨0, 0, 18, fetchLeaf⟩], chans := [(1, [{ copy0 with total := 64, c := 64, active := true }])] })] }
theorem witness_segment : segment1.findCopy 0 0 = some (1, { copy0 with total := 64, c := 64, active := true }) ∧ behindFull (tgetD (segment1.quad 0).chans 1 []) { copy0 with total := 64, c := 64, active := true } = false ∧ segment1.inSlot 0 0x2000 64 = false
    ∧ ownQuadPad 0 0x2000 = false ∧ segBytes { copy0 with total := 64, c := 64, active := true } = 64
    ∧ (∀ i, i < 64 → segment1.translate ({ copy0 with total := 64, c := 64, active := true }.ctx segment1) (.dst false) (0x2000 + BitVec.ofNat 64 i) = .at_ (.phys (0x2000 + i)) fetchLeaf)
    ∧ (∀ i, i < 64 → segment1.translate ({ copy0 with total := 64, c := 64, active := true }.ctx segment1) ({ copy0 with total := 64, c := 64, active := true }.acc) (0x1000 + BitVec.ofNat 64 i)
        = .at_ (.phys (0x1000 + i)) fetchLeaf) := by decide +kernel
theorem test_segment : (next (exec (.copySegment 0 0) segment1)).physByte 0 0x203F = 8 ∧ (next (exec (.copySegment 0 0) segment1)).physByte 0 0x2000 = 9
    ∧ (next (exec (.copySegment 0 0) segment1)).physByte 0 0x2040 = 0 := by decide +kernel

/-- ShapeLoads: the smallest record (all counts 1), a record of zeros, a misaligned address. -/
def shapeRec : Tbl Byte := [(0x1004, 1), (0x1008, 1), (0x100C, 1), (0x1010, 1)]
theorem witness_shape : Clear (.shape 4 15 none) (regsMem [(4, 0x1000)] shapeRec) ∧ (regsMem [(4, 0x1000)] shapeRec).translate (regsMem [(4, 0x1000)] shapeRec).ctx .load 0x1000 = .at_ (.phys 0x1000) fetchLeaf
    ∧ shapeOf (memRead shapeRec 0x1000 64) = some ⟨0, 1, 1, 1, 1, 0, 0, 0, 0⟩ ∧ shapeOf (memRead [] 0x1000 64) = none ∧ Clear (.shape 4 0 none) (regs [(4, 0x1020)])
    ∧ (0x1020 : W64).toNat % 64 ≠ 0 := by decide +kernel
theorem test_shape : (next (exec (.shape 4 15 none) (regsMem [(4, 0x1000)] shapeRec))).me.shapes = [(15, ⟨0, 1, 1, 1, 1, 0, 0, 0, 0⟩)] := by decide +kernel
/-- CounterWaits: the threshold is reached exactly, not reached, or 0. -/
def counting : State := withCore { core0 with cc := [(2, 64)] }
theorem witness_waits : Clear (.waitc 0 2 64) counting ∧ 64 ≤ (tgetD counting.me.cc 2 0).toNat ∧ Clear (.waitc 0 2 65) counting ∧ (tgetD counting.me.cc 2 0).toNat < 65 ∧ Clear (.waitc 0 2 0) counting
    ∧ Clear (.drain 1 4) base ∧ tgetD (base.quad 0).chans 1 [] = [] ∧ base.engOut 0 2 = false ∧ Clear (.fence 4) base ∧ base.releaseOut 0 = false ∧ base.tileWritesOut 0 = false ∧ Clear (.fence 3) atom
    ∧ atom.releaseOut 0 = true ∧ atom.issue = .idle := by
  decide
theorem test_waitc : (next (exec (.waitc 0 2 64) counting)).me.cc = [] ∧ went (.waitc 0 2 65) counting = .held := by decide +kernel
theorem witness_fence_tiles : Clear (.fence 2) (writer false) ∧ (writer false).tileWritesOut 0 = true ∧ (writer false).issue = .idle := by decide
/-- A FENCE of the quad waits for no store, but for a TWR (R168). -/
theorem test_fence_waits : went (.fence 3) atom = .held ∧ went (.fence 2) atom = .issued ∧ went (.fence 2) (writer false) = .held := by decide +kernel

/-- Handles: a read of the last page of the window; a live slot, done and not done, of another partition, stale. -/
def hslot (part : Nat) (done : List Nat) : HSlot := ⟨1, BitVec.ofNat 64 hbfBase, 0x40001000, 1, part, 1, false, false, done, [], [], 0, 0, 0, 0, 0, 0, false⟩
def flashed (part : Nat) (done : List Nat) (w src dst : W64) : State :=
  { withCore { core0 with task := some { fetchTask with deadline := true }, s := [(4, w), (5, src), (6, dst)] } with
    quads := [(0, { tlb := [⟨0, 1, 18, 0xF80000800000011D⟩] })], parts := [(0, { part0 with ttbase := 3 })]
    dies := [(2, { flash := { slots := [(0, hslot part done)] } })] }
def lastFlash : W64 := BitVec.ofNat 64 (hbfBase + 1440 * 2 ^ 30 - 4096)
theorem witness_hread : Clear (.hread 3 5 6 0 none) (flashed 0 [0] 0x1000 lastFlash 0x40002000) ∧ (lastFlash.toNat - hbfBase) % 2 ^ 41 + 4096 * 1 ≤ 1440 * 2 ^ 30
    ∧ (flashed 0 [0] 0x1000 lastFlash 0x40002000).translate (flashed 0 [0] 0x1000 lastFlash 0x40002000).ctx (.src true) lastFlash = .at_ (.flash 0 (1440 * 2 ^ 30 - 4096)) rawLeaf
    ∧ (flashed 0 [0] 0x1000 lastFlash 0x40002000).translate (flashed 0 [0] 0x1000 lastFlash 0x40002000).ctx (.dst false) 0x40002000 = .at_ (.phys (2 ^ 39 + 0x2000)) 0xF80000800000011D
    ∧ 2 ^ 39 + 0x2000 < 2 ^ 40 ∧ hbmDie (2 ^ 39 + 0x2000) = 2
    ∧ 1440 * 2 ^ 30 < (lastFlash.toNat - hbfBase) % 2 ^ 41 + 4096 * 2 ∧ Clear (.hread 3 5 6 1 none) (flashed 0 [0] 0x1000 lastFlash 0x40002000)
    ∧ (lastFlash + 8).toNat % 4096 ≠ 0 ∧ (0x40002008 : W64).toNat % 4096 ≠ 0 ∧ TakesNow (regs []) 11 ∧ TakesNow (regs []) 12 := by decide +kernel
/-- Asks: the bundle has not asked, waits, has been told a fault, and has been told what it asked. -/
def told (done : Bool) (fault : Nat) (v : W64) (s : State) : State := s.setMe { s.me with hreq := some ⟨fetchPc, done, fault, v⟩ }
def asker : State := flashed 0 [0] 0x1000 lastFlash 0x40002000
theorem witness_asks : asker.me.hreq = none ∧ (told false 0 0 asker).me.hreq = some ⟨fetchPc, false, 0, 0⟩ ∧ Clear (.hread 3 5 6 0 none) (told false 0 0 asker) ∧ asker.me.pc = fetchPc
    ∧ Clear (.hread 3 5 6 0 none) (told true 12 0 asker) ∧ 12 ∈ [9, 10, 12] ∧ TakesNow (told true 12 0 asker) 12 ∧ Trappable (told true 12 0 asker)
    ∧ Clear (.hread 3 5 6 0 none) (told true 0 0x1001 asker) ∧ Clear (.hstat 3 4) (told true 0 3 asker) ∧ Clear (.hrel 4) (told true 0 0 asker) ∧ (asker.me.sreg 4) ≠ 0 := by decide +kernel
theorem test_hread_asks : (next (exec (.hread 3 5 6 0 none) asker)).agenda = [(380, .handleRequestArrives 0)] ∧ went (.hread 3 5 6 0 none) asker = .held
    ∧ went (.hread 3 5 6 1 none) asker = .trapped ⟨11, 0, 0, 1⟩ := by decide +kernel
theorem test_hread_told : asked (.hread 3 5 6 0 none) (told true 0 0x1001 asker) = [some (.scalar 3 0x1001)]
    ∧ went (.hread 3 5 6 0 none) (told true 12 0 asker) = .trapped ⟨12, 0, 0, 1⟩ ∧ went (.hrel 4) (told true 9 0 asker) = .trapped ⟨9, 0, 0x1000, 1⟩ := by decide +kernel
theorem witness_handle : Clear (.hwait 4) (flashed 0 [0] 0x1000 0 0) ∧ tget ((flashed 0 [0] 0x1000 0 0).flash 0).slots 0 = some (hslot 0 [0]) ∧ (hslot 0 [0]).done.length = (hslot 0 [0]).units
    ∧ (hslot 0 [0]).gen = (0x1000 : W64).toNat / 4096 % 4096 ∧ (hslot 0 []).done.length ≠ (hslot 0 []).units ∧ (flashed 0 [] 0x1000 0 0).me.inPlace = true
    ∧ tget ((flashed 1 [] 0x1000 0 0).flash 0).slots 0 = some (hslot 1 []) ∧ (hslot 1 []).part ≠ 0 ∧ (hslot 0 []).gen ≠ (0x2000 : W64).toNat / 4096 % 4096
    ∧ (0x2000 : W64).toNat < 2 ^ 26 ∧ 2 ^ 26 ≤ (0x4000000 : W64).toNat ∧ Clear (.hstat 3 4) (flashed 0 [] 0x1000 0 0) ∧ Clear (.hrel 4) (flashed 0 [] 0x1000 0 0)
    ∧ Clear (.hstat 3 4) (flashed 0 [] 0x4000000 0 0) ∧ TakesNow (regs []) 10 ∧ TakesNow (regs []) 9 := by decide +kernel
theorem test_hwait : went (.hwait 4) (flashed 0 [0] 0x1000 0 0) = .issued ∧ went (.hwait 4) (flashed 0 [] 0x1000 0 0) = .held
    ∧ went (.hwait 4) (flashed 1 [] 0x1000 0 0) = .trapped ⟨10, 0, 0x1000, 1⟩ ∧ went (.hwait 4) (flashed 0 [] 0x2000 0 0) = .trapped ⟨9, 0, 0x2000, 1⟩ := by decide +kernel

/-- TlbRemovals, Remaps, PageMoves. -/
theorem witness_tlbi : Clear (.tlbiVa 4) (regs [(4, 0x1000)]) ∧ Clear .tlbiOwn base ∧ Clear (.tlbiPva 4 5) (regs [(4, 0x1000), (5, 15)]) ∧ Clear (.tlbiPart 5) (regs [(5, 16)]) ∧ Clear .tlbiGlob base
    ∧ base.isSup = true ∧ base.pathOut 0 = false ∧ base.copiesOut 0 = false ∧ (16 ≤ (16 : W64).toNat) ∧ Clear .tlbiGlob (tenant []) ∧ (tenant []).isSup = false := by decide
/-- Where every write on its way goes to memory, the removal changes nothing else. -/
theorem witness_plain_paths : Spec.plainPaths base := fun q w h => by
  have e : (base.quad q).path = [] := by
    by_cases hq : q = 0
    · subst hq; rfl
    · simp [State.quad, base, tgetD, tget, Ne.symm hq]
  rw [e] at h
  nomatch h
theorem test_tlbi_va : ((next (exec (.tlbiVa 4) (regs [(4, 0x1000)]))).quad 0).tlb = [] ∧ ((next (exec (.tlbiVa 4) (regs [(4, 0x40000000)]))).quad 0).tlb.length = 1 := by decide +kernel
def pairDesc : Tbl Byte := [(0x1001, 0x10), (0x1009, 0x20), (0x1011, 0x10)]
def pair0 : Pair := ⟨0x1000, 0x2000, 4096, false⟩
def paired : State := { regsMem [(4, 0x1000)] pairDesc with parts := [(0, { part0 with pairs := [(63, { pair0 with nameVa := 0x100000, secondVa := 0x200000 })] })] }
theorem witness_pairs : Clear (.publish 63) paired ∧ tget (paired.part 0).pairs 63 = some { pair0 with nameVa := 0x100000, secondVa := 0x200000 }
    ∧ paired.copiesInto { pair0 with nameVa := 0x100000, secondVa := 0x200000 } = false ∧ paired.pathOut 0 = false ∧ Clear (.publish 0) paired ∧ tget (paired.part 0).pairs 0 = none
    ∧ Clear (.publishUndef 63) paired ∧ Clear (.publishUndef 0) paired ∧ Clear (.publishDef 0 4) paired ∧ Clear (.publishDef 63 4) paired ∧ pairOf (memRead pairDesc 0x1000 32) = some pair0
    ∧ paired.pairMeets 0 pair0 = false ∧ pairOf (memRead [] 0x1000 32) = none ∧ Clear (.publishDef 0 4) (regs [(4, 0x1010)]) ∧ (0x1010 : W64).toNat % 32 ≠ 0 := by decide +kernel
theorem witness_pair_read : paired.readSpan 0x1000 32 = .ok (memRead pairDesc 0x1000 32) ∧ (regs [(4, 0x1000)]).readSpan 0x1000 32 = .ok (memRead [] 0x1000 32) :=
  ⟨ok_of (by decide +kernel), ok_of (by decide +kernel)⟩
theorem test_publish_turns : ((next (exec (.publish 63) paired)).part 0).pairs.map (fun e => e.2.sel) = [true] := by decide +kernel
theorem test_publishDef : tget ((next (exec (.publishDef 0 4) paired)).part 0).pairs 0 = some pair0 ∧ went (.publishDef 63 4) paired = .trapped ⟨5, 0, 0, 3⟩ := by decide +kernel
/-- A window of one row of 64 bytes over one backing row. -/
def winDesc : Tbl Byte := [(0x1001, 0x10), (0x1009, 0x20), (0x1010, 64), (0x1014, 1), (0x1018, 1)]
theorem witness_window : Clear (.wmap 4 5 15 none) (regsMem [(4, 0x1000), (5, 0x3000)] winDesc) ∧ windowOf (memRead winDesc 0x1000 32) 0x3000 = some ⟨0x1000, 0x2000, 64, 1, 1, 0x3000⟩
    ∧ (base.die 0).wins = [] ∧ windowOf (memRead [] 0x1000 32) 0x3000 = none ∧ Clear (.wmap 4 5 15 none) (regs [(4, 0x1008), (5, 0x3000)]) ∧ (0x1008 : W64).toNat % 32 ≠ 0
    ∧ Clear (.wmap 4 5 15 none) (regs [(4, 0x1000), (5, 0x3002)]) ∧ (0x3002 : W64).toNat % 4 ≠ 0 ∧ Clear (.wunmap 15) base ∧ base.writesOut 0 = false := by decide +kernel
theorem witness_window_read : (regsMem [(4, 0x1000), (5, 0x3000)] winDesc).readSpan 0x1000 32 = .ok (memRead winDesc 0x1000 32) := ok_of (by decide +kernel)
theorem test_wmap : ((next (exec (.wmap 4 5 15 none) (regsMem [(4, 0x1000), (5, 0x3000)] winDesc))).die 0).wins = [(15, ⟨0x1000, 0x2000, 64, 1, 1, 0x3000⟩)] := by decide +kernel
/-- Page tables at 0 to 0x4FFF that map page 0x5000, raw, readable and writable, to its own frame (R100, R101). -/
def tables (mig : Nat) : Tbl Byte :=
  memWrite (memWrite (memWrite (memWrite (memWrite [] 0 (leBytes 8 0x1181)) 0x1000 (leBytes 8 0x2181)) 0x2000 (leBytes 8 0x3181)) 0x3000 (leBytes 8 0x4181)) 0x4028
    (leBytes 8 (0xF80000000000500D + mig))
theorem witness_pagemv : Clear (.pagemv 4 5 7 none) (regsMem [(4, 0x5000), (5, 0x9000)] (tables 0)) ∧ (regsMem [(4, 0x5000), (5, 0x9000)] (tables 0)).isSup = true
    ∧ (regsMem [(4, 0x5000), (5, 0x9000)] (tables 0)).windowAt base.ctx 0x5000 = none ∧ unmappable 0x5000 = false ∧ inHbf 0x5000 = false ∧ tgetD (base.quad 0).chans 7 [] = []
    ∧ (regsMem [(4, 0x5000), (5, 0x9000)] (tables 0)).walk 0 0x5000 = .leaf 0xF80000000000500D 12 0x4028 ∧ pageRegion 0x9000 12 = some 0 ∧ pteShared 0xF80000000000500D = false
    ∧ base.pathOut 0 = false ∧ base.copiesOut 0 = false ∧ pteX 0xF80000000000500D = false ∧ pteMig 0xF80000000000500D = false ∧ (regsMem [] (tables 0x40)).walk 0 0x5000 = .leaf 0xF80000000000504D 12 0x4028 ∧ pteMig 0xF80000000000504D = true
    ∧ Clear (.pagemv 4 5 7 none) (tenant [(4, 0x5000), (5, 0x9000)]) ∧ (0x9800 : Nat) % 2 ^ 12 ≠ 0 := by decide +kernel
theorem test_pagemv : memRead (next (exec (.pagemv 4 5 7 none) (regsMem [(4, 0x5000), (5, 0x9000)] (tables 0)))).mem 0x4028 2 = [0x4D, 0x50]
    ∧ went (.pagemv 4 5 7 none) (regsMem [(4, 0x5000), (5, 0x9000)] (tables 0x40)) = .trapped ⟨5, 0, 0, 3⟩ := by decide +kernel


/-! ### Vectors -/

/-- One cluster of one row, round to nearest even: v2 and v3 hold the lanes given, v4 one half of each lane. -/
def vecs (a b : List Nat) : State :=
  withCore { core1 with v := [(16, rowOf (fun l => BitVec.ofNat 32 (a.getD l 0)) 16), (24, rowOf (fun l => BitVec.ofNat 32 (b.getD l 0)) 16)] }
/-- The first lanes of row r of what an instruction sends to a register. -/
def lanesOf (i : Instr) (s : State) (r n : Nat) : List Nat :=
  match sent i s with
  | [.vec _ _ _ _ _ data] => (List.range n).map fun l => (lane (data.getD r 0) l).toNat
  | [.pred _ _ v] => [v.toNat]
  | _ => []
theorem witness_vectors : (Spec.elements (.vadd 4 2 3 0 0 false false none)).isSome = true ∧ Clear (.vadd 4 2 3 0 0 false false none) (vecs [] [])
    ∧ (Spec.rounded (.vfma 4 2 3 0 0 3 none)).isSome = true ∧ Clear (.vfma 4 2 3 0 0 3 none) (vecs [] []) ∧ (vecs [] []).me.modeOf 3 = 5 ∧ (vecs [] []).me.modeOf 0 = 1
    ∧ Clear (.vcvt 4 2 0 1 0 1 0 none) (vecs [] []) ∧ Clear (.vcvt 4 2 1 0 0 1 0 none) (vecs [] []) ∧ 32 / cvtWidth 0 < 32 / cvtWidth 1 := by decide
/-- Bytes wrap or saturate apart (R227). -/
theorem test_vadd_bytes : lanesOf (.vadd 4 2 3 0 2 false false none) (vecs [0x7F01FF80] [0x01010180]) 0 1 = [0x80020000]
    ∧ lanesOf (.vadd 4 2 3 0 2 false true none) (vecs [0x7F01FF80] [0x01010180]) 0 1 = [0x7F020080] := by decide +kernel
theorem test_vmulh : lanesOf (.vmulh 4 2 3 0 0 false none) (vecs [0xFFFFFFFF] [2]) 0 1 = [0xFFFFFFFF] ∧ lanesOf (.vmulh 4 2 3 0 0 true none) (vecs [0xFFFFFFFF] [2]) 0 1 = [1] := by
  decide +kernel
/-- VADDI of -512, VLI of -1 (R228). -/
theorem test_vaddi : lanesOf (.vaddi 4 2 0 512 none) (vecs [5] []) 0 1 = [0xFFFFFE05] ∧ lanesOf (.vli 4 0 1023 none) (vecs [] []) 0 1 = [0xFFFFFFFF] := by decide +kernel
/-- 1 + 2^-24 is a tie and rounds to even; 1.0 * 3.0 + 0 (R199, R203). -/
theorem test_vfadd_tie : lanesOf (.vfadd 4 2 3 0 0 0 none) (vecs [0x3F800000] [0x33800000]) 0 1 = [0x3F800000]
    ∧ lanesOf (.vfma 4 2 3 0 0 0 none) (vecs [0x3F800000] [0x40400000]) 0 1 = [0x40400000] := by decide +kernel
/-- A stochastic rounding draws once for each lane that is on. -/
theorem test_stochastic_draws : (next (exec (.vfadd 4 2 3 0 0 3 none) (vecs [] []))).gen 0 0 = advanceGen 16 ((vecs [] []).gen 0 0) := by decide +kernel

/-- VectorMoves. -/
theorem witness_vector_moves : Clear (.vcmp 2 1 2 3 0 true none) (vecs [] []) ∧ Clear (.vfcmp 1 1 2 3 0 none) (vecs [] []) ∧ Clear (.vsel 4 2 3 0 none) (vecs [] [])
    ∧ Clear (.vshuf 4 2 3 0 none) (vecs [] []) ∧ Clear (.vbcast 4 2 15 0 none) (vecs [] []) ∧ Clear (.vmovs 4 4 0 none) (vecs [] []) ∧ Clear (.vmovsTos 3 2 15 none) (vecs [] [])
    ∧ (fp32.dec 0x7FC00000).isNan = true ∧ (fp32.dec 0x80000000).isNan = false := by decide +kernel
theorem test_vcmp : lanesOf (.vcmp 2 1 2 3 0 false none) (vecs [0xFFFFFFFF, 1] [0, 1]) 0 0 = [1] ∧ lanesOf (.vcmp 2 1 2 3 0 true none) (vecs [0xFFFFFFFF, 1] [0, 1]) 0 0 = [0] := by decide +kernel
/-- NaN is not equal to anything; the zeros are equal (R230). -/
theorem test_vfcmp_nan : lanesOf (.vfcmp 1 1 2 3 0 none) (vecs [0x7FC00000, 0x80000000] [0x7FC00000, 0]) 0 0 = [1] := by decide +kernel
theorem test_vshuf : lanesOf (.vshuf 4 2 3 0 none) (vecs [10, 11, 12] [2, 17, 0]) 0 3 = [12, 11, 10] := by decide +kernel
theorem test_vmovs_tos : sent (.vmovsTos 3 2 2 none) (vecs [10, 11, 0xFFFFFFFF] []) = [.scalar 3 0xFFFFFFFF] := by decide +kernel

/-- VectorReductions. -/
theorem witness_reductions : Clear (.vradd 4 2 0 false false none) (vecs [] []) ∧ Clear (.vrmin 4 2 0 true none) (vecs [] []) ∧ Clear (.vrmax 4 2 0 false none) (vecs [] [])
    ∧ Clear (.vfradd 4 2 0 3 none) (vecs [] []) ∧ Clear (.vfrmin 4 2 0 none) (vecs [] []) ∧ Clear (.vfrmax 4 2 0 none) (vecs [] []) := by decide +kernel
theorem witness_gathers : ((vecs [0x7FC00000] []).gather none 2 0 0).map (·.toNat) = 0x7FC00000 :: List.replicate 15 0
    ∧ (withCore { core1 with p := [(1, 0)] }).gather none 2 1 0 = [] ∧ (fp32.dec 0x7FC00000).isNan = true ∧ (fp32.dec 0).isNan = false := by decide +kernel
theorem test_vrmin : lanesOf (.vrmin 4 2 0 false none) (vecs [1, 0x80000000] []) 0 2 = [0x80000000, 0x80000000] ∧ lanesOf (.vrmax 4 2 0 true none) (vecs [1, 0x80000000] []) 0 1 = [0x80000000] := by
  decide +kernel
theorem test_vfradd_rounds_once : lanesOf (.vfradd 4 2 0 1 none) (vecs [0x3F800000, 0x33800000, 0x33800000] []) 0 1 = [0x3F800001] := by decide +kernel

/-- VectorTables: two clusters, 1 and 2: the rotation by one; a broadcast from outside; a pattern that does not fit; the last two
segments and two too many; the example of R238. -/
theorem witness_vxc : Clear (.vxc 4 2 1 0 0 (some 9)) (vecs [] []) ∧ Clear (.vxc 4 2 2 0 1 (some 9)) (vecs [] []) ∧ Clear (.vxc 4 2 1 0 1 (some 9)) (vecs [] [])
    ∧ Clear (.vxc 4 2 1 0 2 (some 9)) (vecs [] []) ∧ Clear (.vxc 4 2 1 0 2 (some 17)) (vecs [] []) ∧ (vecs [] []).me.extent (some 9) = (1, 2) ∧ 1 % 2 ≠ 0 ∧ (2 : Nat) ≤ 2
    ∧ (vecs [] []).me.extent (some 17) = (2, 2) ∧ Clear (.pwld 2 62 none) (vecs [] []) ∧ 62 + 2 * 1 * 1 ≤ 64 ∧ Clear (.pwld 2 63 none) (vecs [] []) ∧ 64 < 63 + 2 * 1 * 1
    ∧ Clear (.vpwp 4 2 0 none) (vecs [] []) ∧ Clear (.brank 4 2 3 0 none) (vecs [] []) ∧ Clear (.bsel 4 2 3 0 none) (vecs [] []) := by decide
/-- A move to the opposite cluster of the ring, and moves that all join neighbours. -/
theorem witness_vxc_far : ((0 : Nat) + 0, 0 + (0 + 4) % 8) = (0, 4) ∧ (0 : Nat) ≠ 4 ∧ ((0 : Nat) + 1) % 8 ≠ 4 % 8 ∧ ((4 : Nat) + 1) % 8 ≠ 0 % 8
    ∧ ∀ j, j < 2 → 1 + j = 1 + (j + 1) % 2 ∨ (1 + j + 1) % 8 = (1 + (j + 1) % 2) % 8 ∨ (1 + (j + 1) % 2 + 1) % 8 = (1 + j) % 8 := by decide
theorem test_vxc_latency : (next (exec (.vxc 4 2 1 0 0 (some 9)) (vecs [] []))).me.flight.map (·.due) = [6] ∧ (next (exec (.vxc 4 2 4 0 0 (some 7)) (vecs [] []))).me.flight.map (·.due) = [9]
    ∧ went (.vxc 4 2 2 0 1 (some 9)) (vecs [] []) = .trapped ⟨5, 0, 0, 2⟩ ∧ went (.vxc 4 2 1 0 2 (some 9)) (vecs [] []) = .trapped ⟨5, 0, 0, 2⟩ := by decide +kernel
/-- The largest segment below 3.0 is the last, which starts at 1.0; it has c0 = 2.0, c1 = 1.0: at 3.0 it gives 4.0 (R237). -/
def piecewise : State := withCore { core1 with v := [(16, rowOf (fun l => if l = 0 then 0x40400000 else 0x7F800001) 16)], pwp := [(63, 0x3F800000400000003F800000#160)] }
theorem test_vpwp : lanesOf (.vpwp 4 2 0 none) piecewise 0 2 = [0x40800000, 0x7FC00000] := by decide +kernel
theorem test_bsel : lanesOf (.bsel 4 2 3 0 none) (vecs [0xB2] [0, 1, 2, 3, 4]) 0 5 = [1, 4, 5, 7, 0xFFFFFFFF] ∧ lanesOf (.brank 4 2 3 0 none) (vecs [0xB2] [8]) 0 1 = [4] := by decide +kernel

/-! ### Encodings, bundles and steps -/

theorem witness_encoded : Instr.fetched (.wrms 0 63 0x7FF) = true ∧ Instr.wf (.wrms 0 63 0x7FF) = true ∧ Instr.fetched .nop = true ∧ Instr.wf .nop = true
    ∧ decodeSlot 3 0x36302080 .nothing = .ok (.mma 6 1 1 false false false false 0 none) := by decide
/-- Two bundles of the worked example of a minimum over 128 lanes. -/
theorem test_decode_bundles : decodeBundle 0x40000000 0 0x42288000 0 = .ok ⟨.nopS 4, .nop, .vrmin 5 4 0 false none, .nop⟩
    ∧ decodeBundle 0x70000000 0 0x5030A200 0 = .ok ⟨.nopS 7, .nop, .vxc 6 5 4 0 0 none, .nop⟩ := by decide +kernel
/-- Core 0 runs, and these are the words of its next bundle. -/
def coded (k : Core) (w0 w1 w2 w3 : Nat) : State :=
  { withCore k with mem := memWrite [] fetchPc.toNat (leBytes 4 w0 ++ leBytes 4 w1 ++ leBytes 4 w2 ++ leBytes 4 w3) }
theorem witness_issues : (coded core0 0x00431050 0 0 0).Issues 0 ∧ (coded core0 0xFFFFFFFF 0 0 0).Issues 0 := ⟨⟨rfl, rfl, rfl⟩, ⟨rfl, rfl, rfl⟩⟩
theorem witness_one : let u := (coded core0 0x50431050 0 0 0).issuing 0
    tget u.me.lbuf u.me.pc.toNat = none ∧ u.translate u.ctx .fetch u.me.pc = .at_ (.phys 0x30000000) fetchLeaf ∧ u.badWords = []
    ∧ illFormed u.me u.myDie (memRead u.mem 0x30000000 16) = none ∧ decodeBundle 0x50431050 0 0 0 = .ok ⟨.add 5 3 4 5, .nop, .nop, .nop⟩ := by decide +kernel
/-- The bundle after an ADD with stall count 5 issues 6 scheduled clocks later (R29). -/
theorem test_step_add : (next (step (coded core0 0x50431050 0 0 0))).me.pc = fetchPc + 16 ∧ (next (step (coded core0 0x50431050 0 0 0))).me.nextClk = 6
    ∧ (next (step (coded core0 0x50431050 0 0 0))).me.flight.map (·.w) = [.scalar 3 0] := by decide +kernel
theorem test_step_from_reset : (next (step (State.reset.withFetchWord 32 0x00431050))).me.flight.map (·.w) = [.scalar 3 0] := by decide +kernel
/-- StepRunsTheBundle: a LI and a LD of word 0x1000; the LD at an odd address; a WAITC that waits in slot 0. -/
def pairOfSlots (a : W64) : State := coded { core0 with s := [(5, a)] } 0x05020000 0x0220A302 0 0
theorem witness_bundle : (pairOfSlots 0x1000).Issues 0 ∧ ((pairOfSlots 0x1000).issuing 0).fetch = .words (memRead (pairOfSlots 0x1000).mem 0x30000000 16)
    ∧ illFormed ((pairOfSlots 0x1000).issuing 0).me 0 (memRead (pairOfSlots 0x1000).mem 0x30000000 16) = none
    ∧ decodeBundle 0x05020000 0x0220A302 0 0 = .ok ⟨.li 0 2 0, .ld 4 5 0 3 2 none, .nop, .nop⟩ := by
  refine ⟨⟨rfl, rfl, rfl⟩, rfl, ?_, ?_⟩ <;> decide +kernel
theorem witness_bundle_slots : (∀ i, i ∈ [Instr.li 0 2 0, .ld 4 5 0 3 2 none, .nop] → went i ((pairOfSlots 0x1000).issuing 0) = .issued)
    ∧ went (.ld 4 5 0 3 2 none) ((pairOfSlots 0x1001).issuing 0) = .trapped ⟨4, 0, 0x1011, 1⟩ ∧ went (.waitc 0 2 64) ((coded core0 0x09500040 0 0 0).issuing 0) = .held := by decide +kernel
/-- In slot 0 an RDMS of s4's register, a TSPAWN and an ERET that returns to an image; and a LD that traps while an earlier load is under way. -/
def lateLoad : State := coded { core0 with s := [(5, 0x1001)], pend := [⟨9, [keyS 20], 5, 0, none⟩] } 0 0x0220A302 0 0
theorem witness_bundle_late : lateLoad.Issues 0 ∧ ((lateLoad.issuing 0).fetch = .words (memRead lateLoad.mem 0x30000000 16)) ∧ went (.ld 4 5 0 3 2 none) (lateLoad.issuing 0) = .late
    ∧ went .nop (lateLoad.issuing 0) = .issued := by
  refine ⟨⟨rfl, rfl, rfl⟩, rfl, ?_, ?_⟩ <;> decide +kernel
theorem witness_bundle_first : decodeBundle (encode (.rdms 0 60 0x50)) (encode (.ld 4 5 0 3 2 none)) 0 0 = .ok ⟨.rdms 0 60 0x50, .ld 4 5 0 3 2 none, .nop, .nop⟩
    ∧ decodeBundle (encode (.tspawn 0 4 5)) 0 0 0 = .ok ⟨.tspawn 0 4 5, .nop, .nop, .nop⟩ ∧ decodeBundle (encode (.eret 0 4 6)) 0 0 0 = .ok ⟨.eret 0 4 6, .nop, .nop, .nop⟩ := by decide +kernel
/-- The bundle of a trap that waits for an earlier result is held, and takes nothing (R364). -/
theorem test_bundle_late : (next (step lateLoad)).issue = .held ∧ (next (step lateLoad)).me.tcause = 0 ∧ (next (step lateLoad)).me.pc = fetchPc := by decide +kernel
theorem test_bundle_whole : (next (step (pairOfSlots 0x1000))).me.flight.map (·.w) = [.scalar 2 0] ∧ (next (step (pairOfSlots 0x1000))).me.pend.length = 1 := by decide +kernel
/-- Nothing of a bundle takes effect that traps or waits (R34, R35). -/
theorem test_bundle_nothing : (next (step (pairOfSlots 0x1001))).me.flight = [] ∧ (next (step (pairOfSlots 0x1001))).me.tcause = 0x10004
    ∧ (next (step (coded core0 0x09500040 0x0220A302 0 0))).me.pend = [] ∧ (next (step (coded core0 0x09500040 0x0220A302 0 0))).me.pc = fetchPc := by decide +kernel
/-- IllFormedBundlesTrap: a word of a reserved code; an ADD and a LD that write s3. -/
theorem witness_ill : ((coded core0 0xFFFFFFFF 0 0 0).issuing 0).fetch = .words (memRead (coded core0 0xFFFFFFFF 0 0 0).mem 0x30000000 16)
    ∧ decodeBundle 0xFFFFFFFF 0 0 0 = .error (0, .reservedCode) ∧ decodeBundle 0x00431050 0x0218A302 0 0 = .ok ⟨.add 0 3 4 5, .ld 3 5 0 3 2 none, .nop, .nop⟩
    ∧ keyS 3 ≠ keyS 0 ∧ keyS 3 ≠ keyP 0 ∧ keyS 3 ∈ (Instr.uses (.add 0 3 4 5) core0).2 ∧ keyS 3 ∈ (Instr.uses (.ld 3 5 0 3 2 none) core0).2 := by
  refine ⟨rfl, ?_⟩
  decide +kernel
theorem test_ill_traps : (next (step (coded core0 0xFFFFFFFF 0 0 0))).me.tcause = 1 ∧ (next (step (coded core0 0xFFFFFFFF 0 0 0))).me.tinfo = 0xFFFFFFFF
    ∧ (next (step (coded core0 0x00431050 0x0218A302 0 0))).me.tcause = 1 := by decide +kernel
/-- StepTakesEventsFirst. -/
theorem witness_first : ({ base with agenda := [(0, .beaconTick)] } : State).agenda = [(0, .beaconTick)] ∧ earliest 0 base.cores = some (0, core0) ∧ base.mover = .core 0
    ∧ base.tileCore .beaconTick = none ∧ ({} : State).agenda = [] ∧ ({} : State).cores = [] := ⟨rfl, rfl, rfl, rfl, rfl, rfl⟩
/-- A dispatch in the clock of a bundle, after it; a pre-emption of a core whose bundle of that clock traps, after its trap's entry; a row that is due. -/
theorem witness_late : ({ base with agenda := [(0, .taskDispatch 0)] } : State).mover = .core 0 ∧ base.trapAt 0 (.taskDispatch 0) = none := ⟨rfl, rfl⟩
def preempted : State := { coded core0 0xFFFFFFFF 0 0 0 with agenda := [(0, .preemptionUnitSave 0 0 0)] }
theorem witness_preempted : (preempted.core 0).ready = true ∧ preempted.trapsFirst 0 = true ∧ ({ base with agenda := [(0, .preemptionUnitSave 0 0 0)] } : State).trapAt 0 (.preemptionUnitSave 0 0 0) = none := by
  decide +kernel
def rowDue : State := withCore { core0 with drain := some ⟨0, 0, 1, 6⟩, sched := 7 }
theorem witness_row_due : rowDue.mover = .core 0 ∧ (rowDue.core 0).flight = [] ∧ (rowDue.core 0).drain = some ⟨0, 0, 1, 6⟩ ∧ (6 : Nat) < (rowDue.core 0).sched := ⟨rfl, rfl, rfl, by decide⟩
theorem test_preempted_traps : (next (step preempted)).me.tcause = 1 := by decide +kernel
theorem test_row_leaves : (next (step rowDue)).me.drain = none := by decide +kernel
/-- The TWR of core 1 arrives in the clock in which core 0 issues a bundle: the bundle comes first (R180). -/
def arriving (w : Nat) : State :=
  { base with agenda := [(0, .tileAccessArrives w)], quads := [(0, { tlb := [⟨0, 0, 18, fetchLeaf⟩], path := [⟨w, 0, 0, 0, some (0, 3, 1), 0, [9]⟩] })] }
theorem witness_tiles_in_order : (arriving 1).tileCore (.tileAccessArrives 1) = some 1 ∧ (arriving 0).tileCore (.tileAccessArrives 0) = some 0 ∧ (arriving 1).mover = .core 0 := ⟨rfl, rfl, rfl⟩
theorem test_lands_first : (next (step (coded { core0 with flight := [⟨0, 1, 0, false, 0, .scalar 3 7⟩] } 0 0 0 0))).me.s = [(3, 7)]
    ∧ (next (step (coded { core0 with flight := [⟨0, 1, 0, false, 0, .scalar 3 7⟩] } 0 0 0 0))).me.pc = fetchPc := by decide +kernel
theorem test_nothing_left : step ({} : State) = .fault .idle := rfl
theorem witness_keeps : (coded core0 0x00431050 0 0 0).memOk := by
  unfold State.memOk
  decide +kernel
theorem witness_keeps_steps : (coded core0 0x00431050 0 0 0).canStep := ⟨_, rfl⟩

/-! ### The matrix array and the engines -/

def quad0 (a : Arr) (l : Tbl W64) : State := { regs l with quads := [(0, { tlb := [⟨0, 0, 18, fetchLeaf⟩], arr := a })] }
def lease0 (w : W64) (granted issued : Bool) : Lessee := ⟨0, 0, bits w 3 0, w, granted, 0, issued, false⟩
def zero0 (b : Nat) : MatCmd := ⟨0, 0, 0, 0, 2, b, 0, 0, false, false, true, false, false, 1, 0, 0, 1, 1, 1, none, false, [], [], none, 0, 0, none, fetchPc, 0⟩
/-- ArrayLeases: banks of its own, waiting, a lessee already, reserved bits; commands out on bank 1 alone. -/
theorem witness_lease : Clear (.lease 4 none) (quad0 {} [(4, 8)]) ∧ (quad0 {} [(4, 8)]).arr 0 = {} ∧ bits (8 : W64) 63 4 = 0 ∧ bits (8 : W64) 3 0 ≠ 0 ∧ bits (0x400001 : W64) 63 22 ≠ 0
    ∧ bits (0x20 : W64) 7 5 ≠ 0 ∧ bits (0 : W64) 3 0 = 0 ∧ ((quad0 { lessees := [lease0 8 false false] } [(4, 8)]).arr 0).lessees.find? (fun x => x.core == 0) = some (lease0 8 false false)
    ∧ ((quad0 { lessees := [lease0 8 true true] } [(4, 8)]).arr 0).lessees.find? (fun x => x.core == 0) = some (lease0 8 true true) := by decide +kernel
def leased (w : W64) : State := quad0 { lessees := [lease0 w true true], queue := [zero0 1], turn := some 0 } [(4, w)]
theorem witness_lfree : Clear (.lfree none) (quad0 {} []) ∧ ((quad0 {} []).arr 0).lease 0 = none ∧ (quad0 {} []).matrixOut 0 [0, 1, 2, 3] = false
    ∧ Clear (.mwait 1 none) (leased 3) ∧ ((leased 3).arr 0).lease 0 = some (lease0 3 true true) ∧ (lease0 3 true true).banks &&& 1 = 1 ∧ (leased 3).matrixOut 0 [0] = false
    ∧ (leased 3).matrixOut 0 [1] = true ∧ (lease0 3 true true).banks &&& 4 ≠ 4 := by decide +kernel
/-- Groups: quads 0 and 1 of die 0, bank 0 of each; the last member to ask, one that waits for the other, a group of one quad; and one at work. -/
def grpWord : W64 := 0x10011
def grpMember (c : Nat) (granted : Bool) : Lessee := ⟨c, 0, 1, grpWord, granted, 0, granted, false⟩
def grouping (a b : Arr) : State := { regs [(4, grpWord), (5, 0x11)] with quads := [(0, { tlb := [⟨0, 0, 18, fetchLeaf⟩], arr := a }), (1, { arr := b })] }
def grpAsk : State := grouping {} { lessees := [grpMember 4 false] }
def grpWork : State := grouping { lessees := [grpMember 0 true], turn := some 0 } { lessees := [grpMember 4 true], turn := some 0 }
theorem witness_group_lease : Clear (.lease 4 none) grpAsk ∧ bit grpWord 4 = true ∧ bits grpWord 63 22 = 0 ∧ bits grpWord 7 5 = 0 ∧ bits grpWord 3 0 ≠ 0
    ∧ (bits grpWord 17 16 + 1) * (bits grpWord 19 18 + 1) * (bits grpWord 21 20 + 1) = 2 ∧ (grpAsk.arr 0) = {} ∧ (grpAsk.arr 1).back = []
    ∧ (grpAsk.arr 1).lessees = [grpMember 4 false] ∧ (∀ i, i < 16 → ∀ x, x ∈ (grpAsk.arr (firstQuad 0 + i)).lessees → x.word = grpWord)
    ∧ ((grouping {} {}).arr 1).lessees = [] ∧ Clear (.lease 5 none) (grouping {} {})
    ∧ (bits (0x11 : W64) 17 16 + 1) * (bits (0x11 : W64) 19 18 + 1) * (bits (0x11 : W64) 21 20 + 1) = 1 := by decide +kernel
theorem witness_group_lfree : Clear (.lfree none) grpWork ∧ grpWork.matrixOut 0 [0, 1, 2, 3] = false ∧ grpWork.me.drain = none ∧ grpWork.me.buffer.drain = none
    ∧ (grpWork.arr 0).lessees.find? (fun x => x.core == 0) = some (grpMember 0 true) ∧ (grpWork.arr 0).turn = some (grpWork.leader 0 (grpMember 0 true))
    ∧ 0 ∈ grpWork.turnQuads 0 (grpWork.leader 0 (grpMember 0 true)) ∧ 1 ∈ groupQuads 0 grpWord := by decide +kernel
theorem test_group_lease : (((next (exec (.lease 4 none) grpAsk)).arr 1).lessees.map (·.granted)) = [true] ∧ went (.lease 4 none) grpAsk = .issued
    ∧ went (.lease 4 none) (grouping {} {}) = .held ∧ went (.lease 5 none) (grouping {} {}) = .trapped ⟨5, 0, 0, 3⟩ := by decide +kernel
theorem test_group_lfree : (((next (exec (.lfree none) grpWork)).arr 1).lessees.map (·.ended)) = [true] ∧ ((next (exec (.lfree none) grpWork)).arr 1).turn = none := by decide +kernel
theorem test_lease : (((next (exec (.lease 4 none) (quad0 {} [(4, 8)]))).arr 0).lessees.map fun x => (x.banks, x.issued)) = [(8, true)]
    ∧ went (.lease 4 none) (quad0 {} [(4, 0)]) = .trapped ⟨5, 0, 0, 3⟩ := by decide +kernel
theorem test_mwait : went (.mwait 1 none) (leased 3) = .issued ∧ went (.mwait 2 none) (leased 3) = .held ∧ went (.mwait 4 none) (leased 3) = .trapped ⟨5, 0, 0, 3⟩ := by decide +kernel
/-- MatrixCommands: the smallest geometry, 256 rows and columns, 257 rows; a bank not claimed. -/
theorem witness_turn : Spec.HasTurn (leased 3) 0 0 := by constructor <;> decide +kernel
theorem witness_claims : ∃ x, ((leased 3).arr 0).lease 0 = some x ∧ x.banks / 2 ^ 0 % 2 = 1 ∧ isGroup x.word = false := ⟨lease0 3 true true, by decide +kernel⟩
theorem witness_matrix : Clear (.mcfg 4 none) (leased 3) ∧ bits (10 : W64) 63 4 = 0 ∧ bits (10 : W64) 3 2 ≠ 3 ∧ bits (10 : W64) 1 0 ≠ 3 ∧ bits (12 : W64) 3 2 = 3
    ∧ Clear (.mma 4 0 0 false false false false 0 none) (leased 3) ∧ bits (0x3FCFF : W64) 63 36 = 0 ∧ bits (0x3FCFF : W64) 9 0 + 1 = 256 ∧ bits (0x3FCFF : W64) 19 10 + 1 = 256
    ∧ 256 < bits (0x100 : W64) 9 0 + 1 ∧ Clear (.mmv 4 0 0 true false false false false 0 none) (leased 3) ∧ Clear (.mzero 1 none) (leased 3) ∧ Clear (.mdrain 4 0 none) (leased 3)
    ∧ bits (0x100FF : W64) 7 0 + bits (0x100FF : W64) 16 8 = 511 ∧ bits (0x1FF : W64) 7 0 + bits (0x1FF : W64) 16 8 = 256 ∧ (leased 3).matrixOut 0 [0] = false
    ∧ (leased 3).streaming 0 = false ∧ ((quad0 {} []).arr 0).lease 0 = none ∧ Clear (.mzero 0 none) (quad0 {} []) := by decide +kernel
/-- A group's leader in its turn; its matrix of 512 rows; a member that does not lead; a bank that a lessee did not claim. -/
theorem witness_group_turn : Spec.GroupTurn grpWork (grpMember 0 true) where
  group := by decide
  leads := by decide +kernel
  whole := by decide +kernel
  mine := by decide +kernel
  turn := by decide +kernel
theorem witness_group_matrix : Clear (.mma 5 0 0 false false false false 0 none) grpWork ∧ (grpWork.arr 0).lease 0 = some (grpMember 0 true) ∧ (1 : Nat) / 2 ^ 0 % 2 = 1
    ∧ bits (0x1FF : W64) 9 0 + 1 = 512 ∧ 256 * (bits grpWord 17 16 + 1) = 512 ∧ 256 * (bits grpWord 17 16 + 1) < bits (0x200 : W64) 9 0 + 1 ∧ Clear (.mzero 0 none) grpWork
    ∧ Clear (.mmv 5 0 0 false false false false false 0 none) grpWork ∧ isGroup grpWord = true
    ∧ (∃ x, ((leased 3).arr 0).lease 0 = some x ∧ x.banks / 2 ^ 2 % 2 = 0) ∧ Clear (.mma 4 0 0 false false false false 2 none) (leased 3)
    ∧ Clear (.mmv 4 0 0 false false false false false 2 none) (leased 3) ∧ Clear (.mzero 2 none) (leased 3) ∧ Clear (.mdrain 4 2 none) (leased 3) :=
  ⟨by decide +kernel, by decide +kernel, by decide, by decide, by decide, by decide, by decide +kernel, by decide +kernel, by decide, ⟨lease0 3 true true, by decide +kernel⟩,
    by decide +kernel, by decide +kernel, by decide +kernel, by decide +kernel⟩
theorem witness_not_leader : (grouping { lessees := [grpMember 1 true] } { lessees := [grpMember 4 true] }).leader 0 (grpMember 0 true) ≠ base.cur := by decide +kernel
theorem test_group_mzero : (((next (exec (.mzero 0 none) grpWork)).arr 1).queue.map fun x => (x.kind, x.core)) = [(2, 4)]
    ∧ went (.mdrain 4 2 none) (leased 3) = .trapped ⟨5, 0, 0, 3⟩ ∧ went (.mzero 2 none) (leased 3) = .trapped ⟨5, 0, 0, 3⟩ := by decide +kernel
theorem test_mzero_queues : (((next (exec (.mzero 0 none) (leased 3))).arr 0).queue.map fun x => (x.kind, x.bank)) = [(2, 1), (2, 0)]
    ∧ went (.mzero 0 none) (quad0 {} []) = .trapped ⟨5, 0, 0, 3⟩ := by decide +kernel
theorem test_mcfg : (next (exec (.mcfg 4 none) (leased 6))).me.mgeo = 6 ∧ went (.mcfg 4 none) (leased 12) = .trapped ⟨5, 0, 0, 3⟩ := by decide +kernel
/-- The accumulator takes the groups of R206's first example: 2^24 + 1, then 1, each rounded to nearest even, stay 2^24. -/
theorem test_group_rounding : fp32.enc 1 0 false (Sys2Proof.Machine.Num.add false (fp32.dec (fp32.enc 1 0 false (Sys2Proof.Machine.ofInt 16777217))) (ofInt 1)) = 0x4B800000 := by decide +kernel

/-- EngineCommands: descriptors at 0x1000 that fit, and zeros that do not. -/
def desc (m : Tbl Byte) (q : Nat) : State := { regsMem [(4, 0x1000), (5, q), (6, 1)] m with dies := [(0, { kvs := [(0, ⟨0, 0, 0, 64, 0, 0, 0, 0, 1, 1, 1⟩)], ptrCfg := 0x14 })] }
def kvDesc : Tbl Byte := [(0x1018, 64), (0x1034, 1), (0x1038, 1), (0x103A, 1)]
def layerDesc : Tbl Byte := [(0x1018, 1), (0x101A, 1), (0x101C, 1)]
theorem witness_reads : Spec.Reads (desc kvDesc 0) 0x1000 (memRead kvDesc 0x1000 64) ((desc kvDesc 0).loadLatency (.phys 0x1000)) :=
  ⟨by decide, 0x1000, fetchLeaf, by decide +kernel, fun _ h => (nomatch h), by decide +kernel, rfl⟩
theorem witness_engines : Clear (.kvag 4 15 none) (desc kvDesc 0) ∧ (kvOf (memRead kvDesc 0x1000 64)).isSome = true ∧ kvOf (memRead [] 0x1000 64) = none
    ∧ Clear (.ptrld 4 5 none) (desc layerDesc 255) ∧ (layerOf (memRead layerDesc 0x1000 64)).isSome = true ∧ layerOf (memRead [] 0x1000 64) = none
    ∧ Clear (.ptrcfg 5 none) (desc [] 0x14) ∧ bits (0x14 : W64) 63 16 = 0 ∧ bits (0x14 : W64) 7 4 ≠ 0 ∧ bit (0x14 : W64) 3 = false ∧ bits (4 : W64) 7 4 = 0
    ∧ Clear (.ptrrun 4 5 6 none) (desc [] 0) ∧ Clear (.ptrrun 4 5 6 none) (regs [(6, 256)]) ∧ bit ((regs []).die 0).ptrCfg 2 = false ∧ bit ((desc [] 0).die 0).ptrCfg 2 = true
    ∧ ((desc [] 0).die 0).runs.length < 8 ∧ Clear (.kvag 5 0 none) (desc [] 8) ∧ (8 : W64).toNat % 64 ≠ 0 := by decide +kernel
def attDesc : Tbl Byte := [(0x102C, 1)]
def rteDesc : Tbl Byte := [(0x1034, 1), (0x1038, 1), (0x1039, 1)]
theorem witness_attention : attOk (memRead attDesc 0x1000 64) true = true ∧ attOk (memRead [] 0x1000 64) true = false ∧ field (memRead attDesc 0x1000 64) 48 1 = 0
    ∧ (desc attDesc 0).stageOk (memRead attDesc 0x1000 64) ⟨0, 0, 0, 64, 0, 0, 0, 0, 1, 1, 1⟩ = true ∧ Clear (.adec 4 0 0 none) (desc attDesc 0) ∧ Clear (.apre 4 15 7 none) (desc attDesc 0)
    ∧ Clear (.rte 4 15 7 none) (desc rteDesc 0) ∧ field (memRead rteDesc 0x1000 64) 58 1 = 0 ∧ rteOk (memRead rteDesc 0x1000 64) ⟨2, 1, 1, 1, 1, 0, 0, 0, 0⟩ = true
    ∧ rteOk (memRead [] 0x1000 64) ⟨2, 1, 1, 1, 1, 0, 0, 0, 0⟩ = false ∧ (desc rteDesc 0).me.shape 0 = none ∧ (desc rteDesc 0).shapeLate 0 = false := by decide +kernel
theorem test_adec_queues : ((next (exec (.adec 4 3 5 none) (desc attDesc 0))).die 0).att.map (fun e => (e.1, e.2.map fun m => (m.inc, m.chan))) = [(0, [(3, 5)])]
    ∧ went (.adec 4 3 5 none) (desc [] 0) = .trapped ⟨5, 0, 0, 3⟩ := by decide +kernel
theorem test_kvag : ((next (exec (.kvag 4 15 none) (desc kvDesc 0))).die 0).kvs.map (·.1) = [0, 15] ∧ went (.kvag 5 0 none) (desc [] 8) = .trapped ⟨4, 0, 8, 3⟩ := by decide +kernel
theorem test_ptrrun : (((next (exec (.ptrrun 4 5 6 none) (desc [] 0))).die 0).runs.map (·.tokens)) = [1] ∧ went (.ptrrun 4 5 5 none) (desc [] 0) = .trapped ⟨5, 0, 0, 3⟩ := by decide +kernel

/-- ExchangeCommands. -/
def sending (w : W64) : State := { regs [(4, tileAddr), (5, 0x2000), (6, w)] with parts := [(0, { part0 with sscfg := 1 })] }
theorem witness_xsend : Clear (.xsend 4 5 6 15 7 none) (sending 0x40000) ∧ kennelBase ≤ tileAddr.toNat ∧ tileAddr.toNat < kennelBase + 2 ^ 52 ∧ tileAddr.toNat / 2 ^ 49 % 8 < 6
    ∧ bits (0x40000 : W64) 63 25 = 0 ∧ bits (0x40000 : W64) 18 0 = 262144 ∧ ((sending 0).part 0).members ≠ 0 ∧ bits (0 : W64) 18 0 = 0 ∧ ((regs []).part 0).members = 0
    ∧ Clear (.xrecv 3 63 none) base := by decide +kernel
theorem test_xsend_asks : (next (exec (.xsend 4 5 6 15 7 none) (sending 0x40000))).agenda = [(12, .xsendBinding 1)] ∧ went (.xsend 4 5 6 15 7 none) (sending 0) = .trapped ⟨5, 0, 0, 3⟩ := by
  decide +kernel
theorem test_xrecv_asks : (next (exec (.xrecv 3 63 none) base)).agenda = [(14, .xrecvRequestArrives 1)] := by decide +kernel

/-! ### Events: memory and flash -/

/-- MemoryEvents: a page that is mapped and one that is not, a fetch that waits, power management, a channel's first command. -/
theorem witness_walk : (regsMem [] (tables 0)).walk 0 (5 * 4096) = .leaf 0xF80000000000500D 12 0x4028 ∧ (regsMem [] (tables 0)).walk 0 (6 * 4096) = .fail 2
    ∧ tget (regs []).cores 0 = some core0 ∧ dieOfCore 0 = 0 ∧ core0.part = 0 ∧ 6 ∈ ({ core0 with missing := [6] } : Core).missing
    ∧ ({ regsMem [] (tables 0) with badWords := [0x1000] } : State).walk 0 (5 * 4096) = .ecc 0x1000 := by decide +kernel
theorem test_walk_fails : ((next (exec (.pageWalk 0 0 6) { withCore { core0 with missing := [6] } with mem := tables 0 })).core 0).walked = [(6, 2, 0)] := by decide +kernel
def fetching : State := withCore { core0 with fetching := true }
theorem witness_fetching : (fetching.core 0).fetching = true ∧ (base.core 0).fetching = false
    ∧ fetching.translate (fetching.ctxOf 0 0 0 false) .fetch (fetching.core 0).pc = .at_ (.phys 0x30000000) fetchLeaf := by decide +kernel
/-- A read of a deadline task on its way from stack 0; a stack that has waited for one 2 ms; a region that is changing places. -/
def hurried : State := { base with busyTill := [(0, 10)] }
def longHurried : State := { base with clk := 1880000, busyTill := [(0, 2000000)], retrainWait := [(0, 0)] }
theorem witness_hbm : bit (base.die 0).hbmpm 1 = true ∧ base.deadlineTraffic 0 = false ∧ hurried.deadlineTraffic 0 = true ∧ stackDie 0 = 0
    ∧ hurried.clk < tgetD hurried.retrainWait 0 hurried.clk + 1880000 ∧ longHurried.deadlineTraffic 0 = true ∧ tgetD longHurried.retrainWait 0 longHurried.clk + 1880000 ≤ longHurried.clk
    ∧ bits (base.die 0).hbmpm 23 8 = 512 ∧ bits (base.die 0).hbmpm 39 24 ≠ 0 ∧ base.swapping = [] ∧ ¬ tgetD base.pchanUsed (64 * 0 + 3) 0 + 512 ≤ base.clk
    ∧ tgetD longHurried.pchanUsed (64 * 0 + 3) 0 + 940 * bits (base.die 0).hbmpm 39 24 ≤ longHurried.clk ∧ tget longHurried.pchan (64 * 0 + 3) = none := by decide +kernel
theorem test_power_down : (next (exec (.pseudoChannelPowerDown 0 3) longHurried)).pchan = [(3, 1)] ∧ (next (exec (.pseudoChannelSelfRefresh 0 3) longHurried)).pchan = [(3, 2)] := by decide +kernel
theorem test_swap : ((next (exec (.hotRegionSwap 0 1 2) base)).hbmMap, (next (exec (.hotRegionSwap 0 1 2) base)).swaps) = ([(1, 2), (2, 1)], 1) := by decide +kernel
def counted (n : W32) : State := withCore { core0 with cc := [(3, n)], orders := [(3, 5, 2, some 0), (3, 6, 1, none)] }
theorem witness_counted : ((counted 0).core 0).orders.find? (fun o => o.1 == 3) = some (3, 5, 2, some 0) ∧ ((counted 0).core 0).orders.find? (fun o => o.1 == 2) = none := by decide
/-- The counter saturates and says so (R141). -/
theorem test_counts : ((next (exec (.copyComplete 0 3) (counted 7))).core 0).cc = [(3, 9)] ∧ ((next (exec (.copyComplete 0 3) (counted 0xFFFFFFFF))).core 0).cc = [(3, 0xFFFFFFFF)]
    ∧ ((next (exec (.copyComplete 0 3) (counted 0xFFFFFFFF))).core 0).ccsat = 8 := by decide +kernel
def moved : CopyCmd := { copy0 with kind := .page 0x4028, src := 0x5000, dst := 0x9000, c := 0x5000, total := 4096, pos := 4096 }
def migrated : State := { regsMem [] (tables 0x40) with quads := [(0, { tlb := [⟨0, 5, 0, 0xF80000000000504D⟩], chans := [(9, [moved])] })] }
theorem witness_migrated : migrated.findCopy 0 0 = some (9, moved) ∧ moved.done = false ∧ moved.total ≤ moved.pos ∧ migrated.owed = [] ∧ base.findCopy 0 9 = none := by decide +kernel
theorem test_migration_ends : memRead (next (exec (.pagemvCopyComplete 0 0) migrated)).mem 0x4028 8 = leBytes 8 0xF80000000000900D
    ∧ ((next (exec (.pagemvCopyComplete 0 0) migrated)).quad 0).tlb = [] := by decide +kernel

/-- FlashEvents: requests of each kind, of a live slot, of a stale one, and with a full quota; their bundle waits. -/
def asking (r : Req) (slots : Tbl HSlot) (quota : Nat) : State :=
  { withCore { core0 with hreq := some ⟨fetchPc, false, 0, 0⟩ } with reqs := [(7, r)], parts := [(0, { part0 with hquota := quota })], dies := [(2, { flash := { slots := slots } })] }
def hreadReq (dst : W64) : Req := .hread 0 0 0 (BitVec.ofNat 64 hbfBase) dst 1 0 fetchPc 0 false
/-- What the bundle is told: a fault, a value. -/
def toldOf (s : State) : Option (Nat × W64) := (next (exec (.handleRequestArrives 7) s)).me.hreq.map fun r => (r.fault, r.value)
theorem witness_handle_requests : conflicts ((asking (hreadReq 0x40001000) [(0, { hslot 0 [] with src := 0 })] 256).flash 0) 0 (BitVec.ofNat 64 hbfBase) 0x40001000 1 = true
    ∧ conflicts ((asking (hreadReq 0x40001000) [(0, hslot 0 [])] 256).flash 0) 0 (BitVec.ofNat 64 hbfBase) 0x40001000 1 = false
    ∧ joinable ((asking (hreadReq 0x40001000) [(0, hslot 0 [])] 256).flash 0) 0 (BitVec.ofNat 64 hbfBase) 0x40001000 1 = some (0, hslot 0 [])
    ∧ joinable ((asking (hreadReq 0x40009000) [(0, hslot 0 [])] 256).flash 0) 0 (BitVec.ofNat 64 hbfBase) 0x40009000 1 = none
    ∧ conflicts ((asking (hreadReq 0x40009000) [(0, hslot 0 [])] 256).flash 0) 0 (BitVec.ofNat 64 hbfBase) 0x40009000 1 = false
    ∧ (asking (hreadReq 0x40009000) [(0, hslot 0 [])] 256).slotFor 0 0 = some 1 ∧ (asking (hreadReq 0x40009000) [(0, hslot 0 [])] 1).slotFor 0 0 = none
    ∧ (hslot 0 []).gen = (0x1000 : W64).toNat / 4096 % 4096 ∧ (hslot 0 []).gen ≠ (0x2000 : W64).toNat / 4096 % 4096 ∧ (hslot 0 []).holders ≤ 1 := by decide +kernel
theorem test_hread_answers : toldOf (asking (hreadReq 0x40009000) [(0, hslot 0 [])] 256) = some (0, 0x1001) ∧ toldOf (asking (hreadReq 0x40001000) [(0, hslot 0 [])] 1) = some (0, 0x1000)
    ∧ toldOf (asking (hreadReq 0x40009000) [(0, hslot 0 [])] 1) = some (0, 0) ∧ toldOf (asking (hreadReq 0x40001000) [(0, { hslot 0 [] with src := 0 })] 1) = some (12, 0) := by decide +kernel
theorem test_hstat_answers : toldOf (asking (.hstat 0 0 0 0x1000) [(0, hslot 0 [0])] 1) = some (0, 0x100010011) ∧ toldOf (asking (.hstat 0 0 0 0x2000) [(0, hslot 0 [0])] 1) = some (0, 3) := by
  decide +kernel
theorem test_hrel_frees : ((next (exec (.handleRequestArrives 7) (asking (.hrel 0 0 0 0x1000) [(0, hslot 0 [0])] 1))).flash 0).slots = []
    ∧ toldOf (asking (.hrel 0 0 0 0x2000) [(0, hslot 0 [0])] 1) = some (9, 0) := by decide +kernel
/-- A page read, of a good page and of a bad one. -/
def pageRead (bad : List Nat) : State :=
  { base with quads := [(0, { tlb := [⟨0, 1, 18, 0xF80000800000011D⟩] })], dies := [(2, { tlb := [⟨0, 1, 18, 0xF80000800000011D⟩], flash := { slots := [(0, hslot 0 [])], reading := [(0, 0, 0, 0)], bad := bad, bytes := [(3, 9)] } })] }
/-- The page of the destination is under migration. -/
def hbmAway : State := { pageRead [] with mem := memWrite giga 0x20002008 (leBytes 8 (migLeaf 0xF80000800000011D 0x8000000000 true).toNat), parts := [(0, partT)], quads := [], dies := [(2, { flash := { slots := [(0, hslot 0 [])], reading := [(0, 0, 0, 0)] } })] }
theorem witness_page_read : ((pageRead []).flash 0).reading.find? (fun r => r.2.1 == 0 && r.2.2.1 == 0) = some (0, 0, 0, 0) ∧ tget ((pageRead []).flash 0).gone 0 = none
    ∧ ((pageRead []).flash 0).fails 0 = false ∧ ((pageRead [0]).flash 0).fails 0 = true ∧ hbmAway.unitsWait (hslot 0 []) ((hslot 0 []).unitsIn 0) = true
    ∧ (pageRead []).unitsWait (hslot 0 []) ((hslot 0 []).unitsIn 0) = false
    ∧ tget ((pageRead []).flash 0).slots 0 = some (hslot 0 []) ∧ (base.flash 0).reading = [] := by decide +kernel
theorem test_page_read : (((next (exec (.flashPageRead 0 0 0) (pageRead []))).flash 0).slots.map (·.2.done)) = [[0]] ∧ ((next (exec (.flashPageRead 0 0 0) (pageRead [0]))).flash 0).waiting = [0] := by decide +kernel
/-- Block 0 moves to block 9; a command that has an outcome; a Pointer with a run of an unloaded layer. -/
def layer (f : Flash) : State := { base with dies := [(2, { flash := f, ptrCfg := 0x14, runs := [⟨0, 0, 0, 1, 0, 0, false⟩] })] }
theorem witness_layer : (0, 9) ∈ ((layer { moving := [(0, 9)] }).flash 0).moving ∧ (0, 9) ∉ ((layer {}).flash 0).moving ∧ ((layer { moving := [(0, 9)] }).flash 0).moves 5 = true
    ∧ ((layer {}).flash 0).moves 5 = false ∧ ((layer {}).flash 0).rebuildable (((layer {}).flash 0).phys 5) = true ∧ ((layer {}).flash 0).fresh (stackOf 0) (decide (allBlocks ≤ 0)) = some 368640 ∧ 368640 ∉ ((layer {}).flash 0).weak
    ∧ (layer {}).deliveryWaits 0 5 = false ∧ ((layer { bad := [5, 261] }).flash 0).rebuildable 5 = false ∧ ((layer { state := 1, result := 2 }).flash 0).state = 1 ∧ ((layer {}).flash 0).state ≠ 1
    ∧ ((layer {}).die 2).runs = [⟨0, 0, 0, 1, 0, 0, false⟩] ∧ tget ((layer {}).die 2).layers ((0 + bits ((layer {}).die 2).ptrCfg 1 0 + 1) % 256) = none := by decide +kernel
/-- A read of block 0 under way; a spare that is retired with no other left. -/
theorem witness_erase : (∃ r, r ∈ ((layer { reading := [(0, 0, 0, 0)] }).flash 0).reading ∧ r.2.2.2 / 256 = 0) ∧ (∀ r, r ∈ ((layer {}).flash 0).reading → r.2.2.2 / 256 ≠ 0) := by decide +kernel
theorem test_erase : ((next (exec (.oldBlockErase 0 9 0) (layer { moving := [(0, 9)] }))).flash 0).moving = [] ∧ (next (exec (.oldBlockErase 0 9 0) (layer { moving := [(0, 9)], reading := [(0, 0, 0, 0)] }))).agenda = [(17, .oldBlockErase 0 9 0)] := by
  decide +kernel
/-- A parity block moves; a page of block 0 that waits and cannot be delivered yet; one whose stripe is lost; no spare. -/
def parityMove : Flash := { moving := [(allBlocks, 9)] }
def awaited : State := { layer { moving := [(0, 9)], waiting := [5], slots := [(0, { hslot 0 [] with repair := [5], src := BitVec.ofNat 64 (hbfBase + 5 * 16384) })] } with mem := hbmAway.mem, parts := [(0, partT)] }
theorem witness_switch : (allBlocks, 9) ∈ ((layer parityMove).flash 0).moving ∧ (0, 9) ∈ (awaited.flash 0).moving ∧ 5 ∈ (awaited.flash 0).pagesIn 0 ∧ 5 ∈ (awaited.flash 0).waiting
    ∧ awaited.deliveryWaits 0 5 = true ∧ ((layer { bad := [5, 261], moving := [(0, 9)] }).flash 0).rebuildable (((layer { bad := [5, 261] }).flash 0).phys 5) = false := by decide +kernel
theorem test_switch_parity : ((next (exec (.relocationSwitch 0 9 allBlocks) (layer parityMove))).flash 0).moving.contains (9, allBlocks) = true
    ∧ (next (exec (.relocationSwitch 0 9 0) awaited)).agenda = [(64, .relocationSwitch 0 9 0)] := by decide +kernel
/-- A block that a RETIRE moved is retired once it is erased, and one whose erase fails (R67, R74). -/
theorem test_erase_retires : ((next (exec (.oldBlockErase 0 9 0) (layer { moving := [(0, 9)], cmdMove := some 0 }))).flash 0).retired = [0]
    ∧ ((next (exec (.oldBlockErase 0 9 0) (layer { moving := [(0, 9)], weak := [0] }))).flash 0).retired = [0] ∧ ((next (exec (.oldBlockErase 0 9 0) (layer { moving := [(0, 9)] }))).flash 0).retired = [] := by decide +kernel
theorem test_relocates : ((next (exec (.relocate 0 5) (layer {}))).flash 0).moving = [(0, 368640)] ∧ ((next (exec (.relocationSwitch 0 9 0) (layer { moving := [(0, 9)] }))).flash 0).phys 5 = 2309 := by decide +kernel
theorem test_ftl_ends : ((next (exec (.ftlCommandComplete 0) (layer { state := 1, result := 3 }))).flash 0).state = 3 ∧ ((next (exec (.pointerRun 2) (layer {}))).die 2).runs = [] := by decide +kernel
theorem test_rebuild : ((next (exec (.rebuild 0 5) (layer {}))).flash 0).result = 2 ∧ ((next (exec (.rebuild 0 5) (layer { bad := [5, 261] }))).flash 0).result = 3 := by decide +kernel
/-- REFILL from 16 KiB at 0x4000 of the second GiB, which is HBM of ED 0. -/
def giga2 : Tbl Byte := memWrite giga 0x20002008 (leBytes 8 0xF80000800000011D)
def refilling (arg : W64) : State := { base with mem := giga2, parts := [(0, partT)], dies := [(2, { flash := { sourceVa := arg, waiting := [5] } })] }
theorem witness_refill : (refilling 0).refillSource 0 0x40004000 = some [2 ^ 39 + 0x4000, 2 ^ 39 + 0x5000, 2 ^ 39 + 0x6000, 2 ^ 39 + 0x7000] ∧ (refilling 0).refillSource 0 0x40004001 = some []
    ∧ hbmAway.refillSource 0 0x40004000 = none ∧ (hbmAway.flash 0).source = none
    ∧ (refilling 0x40004000).deliveryWaits 0 5 = false ∧ ((refilling 0x40004000).flash 0).moves 5 = false := by decide +kernel
theorem test_refill_fails : ((next (exec (.refill 0 5) (refilling 0x40004001))).flash 0).result = 3 := by decide +kernel
/-- What a read of an engine gave, and the state after it. -/
def Eng.read (x : Eng (List Byte)) : Option (List Byte) := match x with | .ok _ b => some b | .stop _ _ => none
theorem eng_ok {x : Eng (List Byte)} (h : (Eng.read x).isSome = true) : x = .ok x.state ((Eng.read x).getD []) := by
  cases x with
  | ok s v => rfl
  | stop s w => nomatch h
/-- A run of one expert over 64 weights and one token. -/
def run0 : PtrRun := ⟨0, 0x3000, 0, 1, 0, 0, false⟩
def layer1 : PtrLayer := ⟨0x1000, 0x2000, 0x4000, 1, 1, 1⟩
def predicting : State := { base with mem := giga, parts := [(0, partT)], dies := [(0, { ptrCfg := 0x14, layers := [(1, layer1)], runs := [run0] })] }
def taken : State := predicting.setDie 0 { predicting.die 0 with runs := [] }
def read1 : Eng (List Byte) := taken.engRead (run0.ctx taken) {} (.src false) layer1.head (1 * 64)
def read2 : Eng (List Byte) := read1.state.engRead (run0.ctx taken) {} (.src false) layer1.scale (4 * 1)
def read3 : Eng (List Byte) := read2.state.engRead (run0.ctx taken) {} (.src false) 0x3000 (2 * 64 * 1)
def read4 : Eng (List Byte) := read3.state.engRead (run0.ctx taken) {} (.src false) layer1.map (32 * 1)
/-- A run whose weights stand in a page under migration waits. -/
def predictingAway : State := { predicting with mem := memWrite giga 0x20002000 (leBytes 8 (migLeaf fetchLeaf 0 true).toNat) }
theorem witness_pointer_waits : ∃ u, (predictingAway.setDie 0 { predictingAway.die 0 with runs := [] }).ptrRunOne 0 run0 = .stop u .wait := ⟨_, rfl⟩
theorem witness_pointer : (predicting.die 0).runs = [run0] ∧ predicting.runsOn 0 run0.part = true ∧ tget (predicting.die 0).layers ((run0.layer + bits (predicting.die 0).ptrCfg 1 0 + 1) % 256) = some layer1 := by decide +kernel
theorem witness_pointer_reads : ∃ s1 h s2 c s3 r s4 t, taken.engRead (run0.ctx taken) {} (.src false) layer1.head (1 * 64) = .ok s1 h
    ∧ s1.engRead (run0.ctx taken) {} (.src false) layer1.scale (4 * 1) = .ok s2 c ∧ s2.engRead (run0.ctx taken) {} (.src false) 0x3000 (2 * 64 * 1) = .ok s3 r
    ∧ s3.engRead (run0.ctx taken) {} (.src false) layer1.map (32 * 1) = .ok s4 t :=
  ⟨read1.state, _, read2.state, _, read3.state, _, read4.state, _, eng_ok (x := read1) (by decide +kernel), eng_ok (x := read2) (by decide +kernel), eng_ok (x := read3) (by decide +kernel),
    eng_ok (x := read4) (by decide +kernel)⟩

/-! ### Events: engines and barriers -/

/-- EngineEvents: a TALLOC within its ceiling, and one that waits beyond it. -/
def wanting (units : Nat) : State :=
  { withCore { core0 with talloc := some ⟨0, units, 1, 2, none, false⟩ } with parts := [(0, { part0 with kpart := [(0, 0x80004)] })] }
def excess : State := { wanting 9 with dies := [(0, { treqs := [(0, ⟨0, 9, 1, 2, none, false⟩, 0, none)] })] }
theorem witness_wanting : (wanting 4).me.talloc = some ⟨0, 4, 1, 2, none, false⟩ ∧ (wanting 4).me.task.isSome = true ∧ ((wanting 4).die 0).treqs = []
    ∧ ((wanting 4).die 0).used 0 + 4 ≤ ceiling ((wanting 4).kpart 0 0) ∧ ((wanting 4).die 0).used 0 + 4 ≤ guarantee ((wanting 4).kpart 0 0)
    ∧ tget ((wanting 4).die 0).tiles 0 = none ∧ (excess.die 0).treqs = [(0, ⟨0, 9, 1, 2, none, false⟩, 0, none)]
    ∧ ceiling (excess.kpart 0 0) < (excess.die 0).used 0 + 9 := by decide +kernel
/-- A request that waits and can be granted. -/
def unserved : State := { wanting 4 with dies := [(0, { treqs := [(0, ⟨0, 4, 1, 2, none, true⟩, 0, none)] })] }
theorem witness_grant : (unserved.die 0).treqs = [(0, ⟨0, 4, 1, 2, none, true⟩, 0, none)] ∧ unserved.me.part = 0 ∧ unserved.me.task.isSome = true ∧ (unserved.die 0).used 0 + 4 ≤ ceiling (unserved.kpart 0 0)
    ∧ unserved.me.talloc = some ⟨0, 4, 1, 2, none, false⟩ ∧ (unserved.die 0).used 0 + 4 ≤ guarantee (unserved.kpart 0 0) ∧ tget (unserved.die 0).tiles 0 = none := by decide +kernel
theorem test_grant : ((next (exec (.tallocGrant 0) unserved)).die 0).tiles.map (fun e => (e.1, e.2.units)) = [(0, 4)] ∧ ((next (exec (.tallocGrant 0) excess)).die 0).treqs.length = 1 := by decide +kernel
theorem test_talloc_granted : ((next (exec (.tallocRequestArrives 0) (wanting 4))).die 0).tiles.map (fun e => (e.1, e.2.units, e.2.sealed)) = [(0, 4, false)] := by decide +kernel
/-- A lease and a turn that wait, and nobody else. -/
theorem witness_lease_grant : ((quad0 { lessees := [lease0 8 false false] } []).arr 0).lessees = [lease0 8 false false] ∧ isGroup (lease0 8 false false).word = false
    ∧ (lease0 8 false false).granted = false ∧ ((quad0 { lessees := [lease0 8 true true] } []).arr 0).lessees.all (·.granted) = true := by decide +kernel
def turning : State := quad0 { lessees := [lease0 8 true true], wants := [0] } []
theorem witness_turn_grant : (turning.arr 0).turn = none ∧ turning.groupWaits 0 = none ∧ (∀ k, k < 4 → (turning.singleWaits 0 (4 * 0 + k) = true ↔ k = 0))
    ∧ base.turnOver 0 = false ∧ base.someoneWaits 0 = false := by decide +kernel
theorem test_turn_grant : ((next (exec (.turnGrant 0) turning)).arr 0).turn = some 0 ∧ (((next (exec (.leaseGrant 0) (quad0 { lessees := [lease0 8 false false] } []))).arr 0).lessees.map (·.granted)) = [true] := by
  decide +kernel
/-- A product of one element, 2.0 * 3.0 in BF16, into bank 1. -/
def mma0 : MatCmd := { zero0 1 with kind := 0, begun := true, ina := [0x4000], inb := [0x4040], fin := some 300 }
def zeroed : MatCmd := { zero0 1 with begun := true, fin := some 64 }
def matrix (q : List MatCmd) : State := { quad0 { queue := q, banks := [(65536, 0x3F800000)] } [] with clk := 1000 }
theorem witness_retires : (((matrix [zeroed]).settleArr 0).arr 0).queue = [zeroed] ∧ ((matrix [zeroed]).settleArr 0).arrRuns 0 0 = true ∧ ((matrix [zeroed]).settleArr 0).draining 0 1 = false
    ∧ 64 + (zeroed.work 0).2.2.2 + 1 ≤ 1000 ∧ zeroed.parts = none ∧ (((matrix [mma0]).settleArr 0).arr 0).queue = [mma0] ∧ 300 + (mma0.work 0).2.2.2 + 1 ≤ 1000 ∧ mma0.mode ≠ 5 ∧ mma0.parts = none
    ∧ mma0.grp = none ∧ ((matrix [mma0]).settleArr 0).arrRuns 0 0 = true ∧ ((matrix [mma0]).settleArr 0).draining 0 1 = false ∧ mma0.m = 1 ∧ mma0.n = 1 ∧ mma0.k = 1 := by decide +kernel
theorem test_retire : ((next (exec (.matrixCommandRetire 0) (matrix [zeroed]))).arr 0).banks = [] ∧ ((next (exec (.matrixCommandRetire 0) (matrix [mma0]))).arr 0).banks = [(65536, 0x40C00000)] := by decide +kernel
theorem test_element : mma0.element 1 1 1 1 ([], 0) 0 0 0 0 = 0x40C00000 := by decide +kernel
/-- A part of quad 1 arrives at its home quad 0, whose command awaits one more. -/
def homed : MatCmd := { mma0 with id := 5, parts := some 1, ovw := false }
def parting : State := { matrix [homed] with quads := [(0, { arr := { queue := [homed], banks := [(65536, 0x3F800000)] } }), (1, { arr := { part := [(0, 5, 9, [(0, 0x40000000)])] } })] }
theorem witness_group_part : (parting.arr 1).part.filter (fun p => p.1 == 0 && decide (p.2.2.1 ≤ parting.clk)) = [(0, 5, 9, [(0, 0x40000000)])] ∧ (parting.arr 0).inbox = [] ∧ (parting.arr 0).queue = [homed]
    ∧ homed.parts = some 1 ∧ homed.mode ≠ 5 ∧ parting.draining 0 homed.bank = false ∧ parting.arrRuns 0 homed.part = true ∧ (homed.shape 0).1 ≤ 256 ∧ (homed.shape 0).2.1 ≤ 256
    ∧ (base.arr 1).part = [] ∧ (base.arr 0).inbox = [] := by decide +kernel
theorem test_group_part : ((next (exec (.groupPartArrives 0 1) parting)).arr 0).banks = [(65536, 0x40400000)] ∧ ((next (exec (.groupPartArrives 0 1) parting)).arr 0).queue = [] := by decide +kernel
theorem test_drain_row : ((next (exec (.drainRowLeaves 0) (withCore { core0 with drain := some ⟨1, 5, 2, 6⟩ }))).core 0).drain = some ⟨1, 6, 1, 7⟩
    ∧ ((next (exec (.drainRowLeaves 0) (withCore { core0 with drain := some ⟨1, 5, 1, 6⟩ }))).core 0).drain = none := by decide +kernel
/-- An attention command of one row that is done, and a routing pass that is written. -/
def att0 : AttCmd := ⟨0, 0, true, memRead attDesc 0x1000 64, ⟨0, 0, 0, 64, 0, 0, 0, 0, 1, 1, 1⟩, 3, 1, 5, true, 1, [], [], {}, 0, false, none, fetchPc, 0⟩
def rte0 (ended written : Bool) (w : Nat) : RteCmd :=
  ⟨0, 0, memRead rteDesc 0x1000 64, ⟨2, 1, 1, 1, 1, 0, 0, 0, 0⟩, 3, 1, 6, true, true, ended, written, [[0]], [[0]], [1], [[0]], w, [], [], {}, 0, false, none, fetchPc, 0⟩
def engines (r : RteCmd) : State := { base with dies := [(0, { att := [(0, [att0])], rte := [r] })] }
/-- The same with a write of core 0's engines on the path. -/
def writing : State := { engines (rte0 true true 0) with quads := [(0, { path := [⟨0, 0, 16, 9, none, 0x1000, [7]⟩] })] }
theorem witness_engines_end : (tgetD ((engines (rte0 true true 0)).die (0 / 64)).att (0 % 64) []).find? (fun m => m.busy) = some att0 ∧ att0.held = none ∧ attRows att0.desc ≤ att0.row
    ∧ (engines (rte0 true true 0)).engOut att0.core 16 = false ∧ writing.engOut att0.core 16 = true ∧ ((engines (rte0 true true 0)).die 0).rte.find? (fun m => m.ended) = some (rte0 true true 0)
    ∧ (rte0 true true 0).held = none ∧ (rte0 true true 0).written = true ∧ (rte0 false false 0).held = none
    ∧ ((engines (rte0 false false 1)).die 0).rte.find? (fun m => m.started && !m.ended) = some (rte0 false false 1) ∧ 0 < (rte0 false false 1).waiting
    ∧ (rte0 false false 0).waiting = 0 ∧ (rte0 false false 0).refused = [] := by decide +kernel
theorem test_engines_end : tgetD ((next (exec (.attentionCommandComplete 0) (engines (rte0 true true 0)))).die 0).att 0 [] = [] ∧ ((next (exec (.routingPassComplete 0) (engines (rte0 true true 0)))).die 0).rte = [] := by
  decide +kernel
/-- A capacity request, a binding to a live permit and to none, a landing, a receive from an empty and a full port. -/
def send0 : SendRec := ⟨0, 0x1000, 2, 5, 3, 1, 9, 0, false, 0, {}, none, 0, false, fetchPc, 0⟩
def permit (r : Req) (t : Tile) (ports : Tbl (List Nat)) : State :=
  { withCore { core0 with pend := [⟨4, [keyS 3], 0, 0, none⟩] } with reqs := [(7, r)], mem := [(0x1000, 8), (0x1001, 9)], dies := [(0, { tiles := [(3, t)], ports := ports, tlb := [⟨0, 0, 18, fetchLeaf⟩] })] }
def bound0 : Tile := { tile1 1 false with bound := true, send := some send0 }
/-- The same while the sender's die does not run the partition. -/
def away0 : State := permit (.land 0 3) bound0 [] |>.setDie 0 { (permit (.land 0 3) bound0 []).die 0 with outs := [0] }
theorem witness_permit : (permit (.bind 0 0 0 1 3 send0) (tile1 1 false) []).liveTile 0 3 1 = some (tile1 1 false) ∧ (tile1 1 false).part = 0 ∧ (tile1 1 false).sealed = false
    ∧ (tile1 1 false).bound = false ∧ send0.len ≤ 4096 * (tile1 1 false).units ∧ (permit (.bind 0 0 0 2 3 send0) (tile1 1 false) []).liveTile 0 3 2 = none
    ∧ ((permit (.bind 0 0 0 2 3 send0) (tile1 1 false) []).part 0).pstate = 0 ∧ tget ((permit (.land 0 3) bound0 []).die 0).tiles 3 = some bound0
    ∧ send0.held = none ∧ send0.landed = false ∧ (permit (.land 0 3) bound0 []).runsOn (dieOfCore send0.core) bound0.part = true ∧ send0.pos = 0
    ∧ away0.runsOn (dieOfCore send0.core) bound0.part = false ∧ tget (away0.die 0).tiles 3 = some bound0 ∧ (permit (.xrecv 0 0 5 4) (tile1 1 true) [(5, [3])]).me.pend.any (fun x => x.id == 4) = true := by decide +kernel
theorem test_binding : (((next (exec (.xsendBinding 7) (permit (.bind 0 0 0 1 3 send0) (tile1 1 false) []))).die 0).tiles.map (·.2.bound)) = [true]
    ∧ ((next (exec (.xsendBinding 7) (permit (.bind 0 0 0 2 3 send0) (tile1 1 false) []))).part 0).pstate = 1 := by decide +kernel
def landed0 : Eng (List Byte) :=
  (permit (.land 0 3) bound0 []).engRead ((permit (.land 0 3) bound0 []).ctxOf 0 0 0 false) send0.lap (.src false) (send0.src + BitVec.ofNat 64 send0.pos) (min 4096 (send0.len - send0.pos))
theorem witness_landing_read : ∃ u b, landed0 = .ok u b := ⟨_, _, eng_ok (x := landed0) (by decide +kernel)⟩
theorem test_landing : (((next (exec (.landing 7) (permit (.land 0 3) bound0 []))).die 0).tiles.map fun e => (tget e.2.bytes 0, tget e.2.bytes 1)) = [(some 8, some 9)] := by decide +kernel
theorem test_xrecv : (next (exec (.xrecvRequestArrives 7) (permit (.xrecv 0 0 5 4) (tile1 1 true) [(5, [3])]))).me.pend.map (·.value) = [some (.scalar 3 (BitVec.ofNat 64 (kennelBase + 2 ^ 37 + 3 * 2 ^ 20)))]
    ∧ (next (exec (.xrecvRequestArrives 7) (permit (.xrecv 0 0 5 4) (tile1 1 true) []))).me.pend.map (·.value) = [some (.scalar 3 0)] := by decide +kernel
theorem test_capacity : ((next (exec (.capacityRequest 7) (permit (.capacity 0 0 2 0 1 0 0 0) (tile1 1 true) []))).die 0).caps = [(2, 1)] := by decide +kernel

/-- BoundaryEvents: a barrier that is open and one that is closed; packages of a pod; a boundary; the last tick of a frame and a slewed one;
frame starts of a running and a halted partition; an open frame that is behind; the offset that still locks. -/
def barred0 : State := withCore { core0 with post := .bar 3 8 2 }
def opened : State := { barred0 with parts := [(0, { part0 with bars := [(3 * 2 ^ 20 + 2, [8, 0])] })] }
theorem witness_bar_members : (opened.part 0).open_ 3 8 = true ∧ (barred0.part 0).open_ 3 8 = false ∧ barred0.me.post = .bar 3 8 2 ∧ tgetD (base.part 0).podSeq 2 0 ≤ 0 := by decide +kernel
theorem test_bar : (next (exec (.barComplete 3 8 0 2) barred0)).me.post = .none ∧ (next (exec (.barComplete 3 8 0 2) opened)).me.post = .bar 3 8 2 := by decide +kernel
def pod (n : Nat) : State := { withCore { core0 with post := .bar 5 0 2 } with podSize := n, parts := [(0, { part0 with podBars := [(podKey true 2 0, [0])] })] }
theorem witness_pod : (pod 2).podCount = 2 ∧ (pod 2).podCount ≤ 2 ∧ 0 ∈ tgetD ((pod 2).part 0).podBars (podKey true 2 0) [] ∧ 1 ∉ tgetD ((pod 2).part 0).podBars (podKey true 2 0) []
    ∧ (∀ i, i < (pod 2).podCount → i ∈ [1, 0]) ∧ (∀ i, i < (pod 1).podCount → i ∈ tgetD ((pod 1).part 0).podBars (podKey true 2 0) [])
    ∧ ¬ (∀ i, i < (pod 2).podCount → i ∈ tgetD ((pod 2).part 0).podBars (podKey true 2 0) []) := by decide +kernel
theorem test_pod : (next (exec (.podBarrierMessage 1 true 0 2 0) (pod 2))).agenda = [(3572, .podBarrierRelease true 0 2 0)] ∧ (next (exec (.podBarrierRelease true 0 2 0) (pod 1))).me.post = .none := by
  decide +kernel
def stepping (x : Part) : State := { withCore { core0 with post := .sstep 1 } with parts := [(0, x)] }
theorem witness_boundary : (stepping { part0 with ssExchange := true }).sendsOut 0 0 = false ∧ (stepping { part0 with ssExchange := true }).closable 0 = true
    ∧ (stepping { part0 with ssExchange := true, pstate := 1 }).closable 0 = false ∧ ({ part0 with sscfg := 2, ssArrived := 1 } : Part).members = 2
    ∧ { permit (.bind 0 0 0 1 3 send0) (tile1 1 false) [] with parts := [(0, { part0 with ssExchange := true })] }.sendsOut 0 0 = true := by decide +kernel
theorem test_boundary : (next (exec (.superstepBoundary 0) (stepping { part0 with ssExchange := true }))).me.post = .none
    ∧ ((next (exec (.superstepBoundary 0) (stepping { part0 with ssExchange := true }))).part 0).ssCount = 1 := by decide +kernel
theorem test_last_tick : (next (exec .beaconTick { base with tick := 58749 })).frame = 1 ∧ (next (exec .beaconTick { base with tick := 58748 })).tick = 58749
    ∧ (next (exec .beaconTick { base with locked := true, slew := 1, sinceSlew := 1024 })).agenda.map (·.1) = [17] := by decide +kernel
theorem witness_frames : (base.part 0).members = 0 ∧ (base.part 0).pstate = 0 ∧ base.closable 0 = true ∧ (stepping { part0 with pstate := 1, deferred := true }).closable 0 = false
    ∧ ({ base with frame := 1 } : State).frame = 1 ∧ (base.part 0).openFrame = 0 ∧ (base.part 0).deadlines 0 = [] := by decide +kernel
theorem test_frame_advances : ((next (exec (.frameAdvance 0) { base with frame := 1 })).part 0).openFrame = 1 := by decide +kernel
theorem test_ptp : (next (exec (.ptpMessage 2000) { base with podSize := 2, lanes := 8, portUp := true })).locked = true ∧ (next (exec (.ptpMessage (-2001)) { base with podSize := 2, portUp := true, locked := true })).locked = false := by
  decide +kernel

/-! ### Events: tasks, the host, the supervisor -/

/-- Template 7 of one node at 0x1000, with the entry 0x4000; a record of it; the ring of partition 0 at 0x3000. -/
def image : Tbl Byte := [(0x1000, 7), (0x1002, 1), (0x1008, 64), (0x1041, 0x40)]
def record0 : List Byte := [0, 0, 7, 0, 0, 0, 0, 0, 0, 0, 0, 0, 1, 0, 0, 0] ++ List.replicate 16 0
def node0 : Node := ⟨0x4000, 0, false, false, 0, [0, 0, 0, 0], []⟩
def entry0 (phase wait : Nat) (preds : List Nat) : Entry := ⟨{ fetchTask with tmpl := 7, args := [0, 0, 0, 0] }, 0, 0, 0, 0, 2, 0, 0x4000, [], preds, phase, false, wait, none, none, 0⟩
def scheduling (ring : Tbl Entry) (reqs : Tbl Req) : State :=
  { regsMem [] (image ++ giga) with
    dies := [(2, { pool := [(0, [(0, 0)])] })]
    parts := [(0, { partT with tmpls := [(7, 0x1000)], tring := 0x3000, ring := ring })], reqs := reqs }
def inserting (ring : Tbl Entry) : State := scheduling ring [(7, .insert 0 0 0 record0 0)]
/-- What an operation gave, and whether it waits for a page under migration. -/
def Eng.gave {α : Type} (x : Eng α) : Option α := match x with | .ok _ v => some v | .stop _ _ => none
def Eng.waits {α : Type} (x : Eng α) : Bool := match x with | .stop _ .wait => true | _ => false
theorem eng_gave {α : Type} {x : Eng α} {v : α} (h : Eng.gave x = some v) : x = .ok x.state v := by
  cases x with
  | ok s w => exact congrArg _ (Option.some.inj h)
  | stop s w => nomatch h
theorem eng_waits {α : Type} {x : Eng α} (h : Eng.waits x = true) : x = .stop x.state .wait := by
  cases x with
  | ok s w => nomatch h
  | stop s w => cases w <;> first | rfl | nomatch h
/-- The pages of the partition under migration. -/
def away : Tbl Byte := memWrite giga 0x20002000 (leBytes 8 (migLeaf fetchLeaf 0 true).toNat)
def inMove (s : State) : State := { s with mem := image ++ away }
theorem witness_insert : ∃ s1 u s2, (scheduling [] []).checkRecord 0 0 record0 = .ok s1 (.ok node0) ∧ s1.insertTask 0 0 record0 node0 0 none = .ok u true
    ∧ (scheduling [(0, entry0 0 0 [])] []).checkRecord 0 0 record0 = .ok s2 (.ok node0) ∧ ∃ v, s2.insertTask 0 0 record0 node0 0 none = .ok v false :=
  ⟨_, _, _, rfl, rfl, rfl, _, rfl⟩
theorem witness_insert_waits : ∃ u w, (inMove (scheduling [] [])).checkRecord 0 0 record0 = .stop u w := ⟨_, _, rfl⟩
theorem witness_insertion : tget ((scheduling [] []).part 0).ring 0 = none
    ∧ 0 < 2 ^ ((scheduling [] []).part 0).ringLg ∧ ((inserting []).core 0).part = 0 := by decide +kernel
theorem test_insertion : ((next (exec (.taskInsertion 7) (inserting []))).part 0).ring.map (fun e => (e.1, e.2.entry)) = [(0, 0x4000)]
    ∧ ((next (exec (.taskInsertion 7) (inserting [(0, entry0 0 0 [])]))).part 0).pstate = 1 := by decide +kernel
theorem witness_ready : tget ((scheduling [(0, entry0 0 0 [])] []).part 0).ring 0 = some (entry0 0 0 []) ∧ (entry0 0 0 [3]).preds ≠ [] ∧ (entry0 3 9 []).wait ≤ ({ base with tick := 9 } : State).beacon.toNat
    ∧ base.beacon.toNat < (entry0 3 9 []).wait := by decide +kernel
theorem witness_dispatch : ((scheduling [(0, entry0 1 0 [])] []).die 2).saved = [] ∧ ((scheduling [(0, entry0 1 0 [])] []).die 2).poolOrder = [(0, 0, false)] ∧ (entry0 1 0 []).die = 2
    ∧ (entry0 1 0 []).task.coop = false ∧ (scheduling [] []).eligible 0 (entry0 1 0 []) = true ∧ ((coresOf 2).find? (scheduling [] []).idle).isSome = true 
    ∧ (base.die 1).pool = [] := by decide +kernel
theorem witness_reread : (∃ u, (scheduling [(0, entry0 1 0 [])] []).rereadNode (entry0 1 0 []) = .ok u (entry0 1 0 []))
    ∧ ∃ u w, (inMove (scheduling [(0, entry0 1 0 [])] [])).rereadNode (entry0 1 0 []) = .stop u w := ⟨⟨_, rfl⟩, _, _, rfl⟩
theorem test_dispatch : (((next (exec (.taskDispatch 2) (scheduling [(0, entry0 1 0 [])] []))).part 0).ring.map (·.2.phase)) = [2] := by decide +kernel
def resuming : State := { scheduling [(0, entry0 2 0 [])] [] with cores := [(0, { core0 with post := .resume })], mem := [(0x3041, 0x50), (0x3070, 6)] ++ giga }
theorem witness_resume : resuming.me.post = .resume ∧ resuming.me.task = some fetchTask ∧ (tget (resuming.part 0).ring 0).isSome = true
    ∧ (resuming.ringRead 0 0 0 64 64).map (fun r => field r 20 4 % 16) = some 0 ∧ { resuming with mem := away }.ringRead 0 0 0 64 64 = none ∧ base.me.post ≠ .resume := by decide +kernel
theorem test_resume : (next (exec (.continuationResume 0) resuming)).me.pc = 0x5000 ∧ (next (exec (.continuationResume 0) resuming)).me.sreg 1 = 6 := by decide +kernel
/-- Packets of each kind at the head. -/
def packet (kind : Byte) (a : Nat) (count : Byte) : List Byte := [kind, 0, 0, 0, 0, 0, 0, 0] ++ leBytes 8 a ++ [count] ++ List.replicate 47 0
def headed (kind : Byte) (a : Nat) (count : Byte) (pstate : Nat) : State :=
  { scheduling [] [] with packets := [packet kind a count], parts := [(0, { partT with pstate := pstate, tmpls := if kind = 1 then [] else [(7, 0x1000)] })], ready := true }
theorem witness_packets : ((headed 1 0x1000 0 0).headPacket .installTemplate).isSome = true ∧ (headed 1 0x1000 0 0).packetBad (packet 1 0x1000 0) = none
    ∧ Eng.gave ((headed 1 0x1000 0 0).checkImage 0 0x1000) = some (some 7) ∧ (Eng.gave ((headed 1 0x1000 0 0).install (packet 1 0x1000 0))).isSome = true
    ∧ Eng.waits ((inMove (headed 1 0x1000 0 0)).install (packet 1 0x1000 0)) = true ∧ (Eng.gave ((headed 2 0x2000 1 3).launch (packet 2 0x2000 1))).isSome = true
    ∧ Eng.waits ((inMove (headed 2 0x2000 1 3)).launch (packet 2 0x2000 1)) = true
    ∧ ((headed 1 0x1000 0 0).part 0).tmplBusy 7 = false ∧ ((headed 1 0x1000 0 0).part 0).tmpls.length < 256
    ∧ ((headed 2 0x2000 1 3).headPacket .launchTasks).isSome = true ∧ (headed 2 0x2000 1 3).packetBad (packet 2 0x2000 1) = none ∧ ((headed 2 0x2000 1 3).part 0).pstate = 3
    ∧ ((headed 3 7 0 0).headPacket .removeTemplate).isSome = true ∧ (headed 3 7 0 0).packetBad (packet 3 7 0) = none ∧ ((headed 3 7 0 0).part 0).tmplBusy 7 = false
    ∧ ((headed 4 0 0 0).headPacket .tearDownPartition).isSome = true ∧ (headed 4 0 0 0).packetBad (packet 4 0 0) = none ∧ base.headPacket .launchTasks = none := by decide +kernel
/-- A torn-down partition whose attention command is in its last block, and one that has none. -/
def lingering : State := { headed 4 0 0 3 with dies := [(0, { att := [(0, [att0])] })] }
theorem witness_teardown : lingering.headPacket .tearDownPartition = some (packet 4 0 0) ∧ (lingering.part 0).pstate = 3 ∧ lingering.lastBlocks 0 = true
    ∧ ((headed 4 0 0 0).packetSets (packet 4 0 0) |>.tearDown 0).lastBlocks 0 = false := by decide +kernel
theorem test_teardown_waits : (next (exec .tearDownPartition lingering)).agenda = [(16, .tearDownPartition)] ∧ (next (exec .tearDownPartition lingering)).packets.length = 1 := by decide +kernel
theorem test_packets : ((next (exec .installTemplate (headed 1 0x1000 0 0))).part 0).tmpls = [(7, 0x1000)] ∧ ((next (exec .removeTemplate (headed 3 7 0 0))).part 0).tmpls = []
    ∧ ((next (exec .tearDownPartition (headed 4 0 0 0))).part 0).pstate = 3 := by decide +kernel
theorem test_window : (next (exec (.launchWindowWrite 0x1000 (packet 4 0 0)) { base with ready := true })).agenda = [(1, .tearDownPartition)] ∧ (next (exec (.launchWindowWrite 0x1000 (packet 4 0 0)) base)).lcOverrun = true := by
  decide +kernel
/-- LCREDIT.overrun and MBOXSTAT.overrun clear by a 1 in their bit, KEEPSTAT by any write (R395, R403). -/
theorem test_window_registers : (next (exec (.launchWindowWrite 8 [0x80, 0, 0, 0, 0, 0, 0, 0]) { base with lcOverrun := true })).lcOverrun = false
    ∧ (next (exec (.launchWindowWrite 0x48 (List.replicate 8 0)) { base with windows := 7, throttled := 7 })).windows = 0
    ∧ (next (exec (.launchWindowWrite 0x140 [4, 0, 0, 0, 0, 0, 0, 0]) { base with mboxOverrun := true })).mboxOverrun = false := by decide +kernel

/-- HostEvents. -/
def host : State := { base with ready := true, mem := giga, parts := [(0, partT)] }
def mailing : State := { host with mboxOp := 1, mboxState := 1, mboxDetail := 0 }
/-- A command whose write has made the mailbox busy, and one that comes while it is idle. -/
theorem witness_mailed (ev : Instr) (op : Nat) : Spec.Mailed { host with mboxState := 1, mboxNext := some ev } { host with mboxState := 1, mboxNext := none } op ev
    ∧ Spec.Mailed host { host with mboxOp := op, mboxState := 1, mboxDetail := 0 } op ev :=
  ⟨⟨rfl, .inl ⟨rfl, rfl, rfl⟩⟩, rfl, .inr ⟨by decide, rfl⟩⟩
/-- A write of POD's 64 bytes makes the mailbox busy with it; one of an unknown command fails (R404). -/
def podWrite (op : Byte) : List Byte := op :: List.replicate 16 0 ++ [2] ++ List.replicate 46 0
theorem test_mailbox_write : (next (exec (.launchWindowWrite 0x100 (podWrite 1)) host)).mboxState = 1 ∧ (next (exec (.launchWindowWrite 0x100 (podWrite 9)) host)).mboxState = 3
    ∧ (next (exec (.launchWindowWrite 0x100 (podWrite 1)) { host with mboxState := 1 })).mboxOverrun = true := by decide +kernel
theorem witness_host : host.ready = true ∧ host.mboxState ≠ 1 ∧ host.badWords = [] ∧ (Eng.gave (mailing.mboxRead 0x1000 32)).isSome = true
    ∧ Eng.gave (mailing.mboxRead 0x40000000 32) = some none ∧ Eng.waits ({ mailing with mem := away }.mboxRead 0x1000 32) = true ∧ (∀ e, e ∈ host.parts → bit e.2.sscfg 19 = false)
    ∧ bit ({ part0 with sscfg := 0x80000 } : Part).sscfg 19 = true ∧ (64 < (65 : W64).toNat) ∧ (∀ e, e ∈ host.parts → e.2.ring = []) := by decide +kernel
theorem test_pod_command : (next (exec (.pod 0x1000 2 1 3) host)).podSize = 2 ∧ (next (exec (.pod 0x1000 2 2 3) host)).mboxDetail = 1
    ∧ (next (exec (.pod 0x1000 2 1 3) { host with mboxState := 1, mboxOp := 2 })).mboxOverrun = true := by decide +kernel
/-- A load by which a package of a pod begins to pass another's on; one that meets a load under way. -/
def podded (ix : Nat) : State := { host with podSize := 3, podIndex := ix }
def relayHead : List Byte := leBytes 8 1 ++ leBytes 8 5 ++ leBytes 8 2 ++ leBytes 8 0 ++ List.replicate 32 9
theorem witness_relay : (podded 1).podSize ≠ 0 ∧ (podded 1).podIndex ≠ 0 ∧ relayHead.length = 64 ∧ Spec.number ((List.range 8).map fun i => relayHead.getD (0 + i) 0) = 1
    ∧ Spec.number ((List.range 8).map fun i => relayHead.getD (8 + i) 0) = 5 ∧ Spec.number ((List.range 8).map fun i => relayHead.getD (16 + i) 0) = 2 ∧ (podded 1).loadw = none := by decide +kernel
theorem test_relay : (next (exec (.weightChunk relayHead) (podded 1))).loadw = some ⟨1, 5, 2, false, true, List.replicate 32 9, [], [], 0, false, some 0⟩
    ∧ (next (exec (.weightChunk relayHead) (podded 1))).portOut = [.load 1 5 2 0 (List.replicate 32 9)] ∧ (next (exec (.weightChunk relayHead) (podded 2))).portOut = []
    ∧ (next (exec (.weightChunk relayHead) (podded 0))).loadw = none := by decide +kernel
theorem witness_loadw_reads : (Eng.gave (mailing.mboxRead 0x1000 32)).isSome = true ∧ (2 : W64) = 2 ∧ (podded 0).podSize ≠ 0 ∧ (podded 0).podIndex + 1 < (podded 0).podSize := by decide +kernel
theorem witness_loadw : (lastPage : Nat) + 0 + 1 ≤ lastPage + 1 ∧ (3 < (4 : W64).toNat) ∧ (0 < (1 : W64).toNat) ∧ ((5 : W64).toNat + (1 : W64).toNat ≤ lastPage + 1) := by decide
theorem test_loadw : ((next (exec (.loadw 0x1000 0 5 1 0x1000 0) host)).loadw.map fun l => (l.first, l.pages)) = some (5, 1) ∧ (next (exec (.loadw 0x1000 4 5 1 0x1000 0) host)).mboxDetail = 1 := by
  decide +kernel
def loading (digest : List Byte) : State := { host with loadw := some ⟨0, 5, 1, false, false, digest, [], [9], 1, false, none⟩, mboxState := 1 }
theorem witness_loading : (loading []).loadw = some ⟨0, 5, 1, false, false, [], [], [9], 1, false, none⟩ ∧ sha256 [] ≠ [] ∧ (loading []).loadBusy ⟨0, 5, 1, false, false, sha256 [], [], [9], 1, false, none⟩ = false
    ∧ (∀ i, i ∈ (loading []).loadChain ⟨0, 5, 1, false, false, [], [], [9], 1, false, none⟩ → i = 0 ∨ i ∈ (loading []).loadDone) := by decide +kernel
/-- The switch of a load that is passed on ends it here and tells its issuer; one that fails ends no command. -/
def relayed (digest : List Byte) : State := { podded 1 with loadw := some ⟨0, 5, 1, false, true, digest, [], [9], 1, false, some 0⟩ }
theorem test_relay_ends : (next (exec .loadwSwitch (relayed (sha256 [])))).portOut = [.done 1 0] ∧ (next (exec .loadwSwitch (relayed []))).loadw = none
    ∧ (next (exec .loadwSwitch (relayed []))).mboxState = 0 := by decide +kernel
theorem test_load_ends : (next (exec .loadwSwitch (loading []))).mboxDetail = 2 ∧ (next (exec (.loadwDoneReport 0) (loading []))).mboxState = 2 ∧ (next (exec (.weightChunk []) (loading []))).mboxDetail = 4 := by
  decide +kernel
/-- Chunks: less than a page, the second page of its block, the first. -/
def chunking (written got : Nat) : State := { host with loadw := some ⟨0, 5, 2, false, false, [], List.replicate got 0, [9], written, false, none⟩, mboxState := 1 }
theorem witness_chunks : (List.replicate 16384 (0 : Byte)).length + [(0 : Byte)].length ≤ 16384 * 2 ∧ (List.replicate 16384 (0 : Byte)).length + [(0 : Byte)].length < 16384 * (1 + 1)
    ∧ 16384 * (1 + 1) ≤ (List.replicate 32767 (0 : Byte)).length + [(0 : Byte)].length ∧ (List.replicate 32767 (0 : Byte)).length + [(0 : Byte)].length < 16384 * (1 + 2) ∧ 1 % 256 ≠ 0
    ∧ 16384 * (0 + 1) ≤ (List.replicate 16383 (0 : Byte)).length + [(0 : Byte)].length ∧ (List.replicate 16383 (0 : Byte)).length + [(0 : Byte)].length < 16384 * (0 + 2) := by
  simp only [List.length_replicate, List.length_cons, List.length_nil]; decide
theorem witness_spare : ∃ u b, (chunking 0 16383).takeSpare 0 4 false = (u, some b) := ⟨_, 368640, Prod.ext rfl (by decide +kernel)⟩
theorem test_chunk : (next (exec (.weightChunk [7]) (chunking 0 2))).loadw.map (·.got) = some [0, 0, 7] := by decide +kernel
/-- ATTEST of a nonce at 0x1000 with a report of any length to 0x2000. -/
def attesting : State := { host with mboxOp := 3, mboxState := 1, mboxDetail := 0 }
theorem witness_attest (out : List Byte) (l : out.length ≤ 4096) : ∃ v n, attesting.mboxRead 0x1000 32 = .ok v (some n)
    ∧ ∀ x, (x = (0x2000 : W64).toNat ∨ x % 64 = 0 ∧ (0x2000 : W64).toNat < x) → x < (0x2000 : W64).toNat + out.length →
      ∃ pa leaf, pa < 2 ^ 40 ∧ v.translate (schedCtx 0 v.svPart) (.dst false) (BitVec.ofNat 64 x) = .at_ (.phys pa) leaf := by
  have lines : ∀ i, i < 64 → (attesting.mboxRead 0x1000 32).state.translate (schedCtx 0 (attesting.mboxRead 0x1000 32).state.svPart) (.dst false) (BitVec.ofNat 64 (0x2000 + 64 * i))
      = .at_ (.phys (0x2000 + 64 * i)) fetchLeaf := by decide +kernel
  have gave : Eng.gave (attesting.mboxRead 0x1000 32) = some (some (List.replicate 32 0)) := by decide +kernel
  refine ⟨_, _, eng_gave gave, fun x hx hl => ?_⟩
  have e : (0x2000 : W64).toNat = 0x2000 := rfl
  rw [e] at hx hl
  obtain ⟨i, hi, rfl⟩ : ∃ i, i < 64 ∧ x = 0x2000 + 64 * i := ⟨(x - 0x2000) / 64, by omega, by omega⟩
  exact ⟨_, _, by omega, lines i hi⟩
/-- Whether an image is signed is firmware's own: one of the cases of FWSTAGE is met. -/
theorem witness_fwstage (b : List Byte) : Config.firmwareSigned b = false ∨ (Config.firmwareSigned b = true ∧ (Config.firmwareVersion b).toNat < host.fwLowest.toNat)
    ∨ (Config.firmwareSigned b = true ∧ host.fwLowest.toNat ≤ (Config.firmwareVersion b).toNat) := by
  cases Config.firmwareSigned b
  · exact .inl rfl
  · simp only [true_and]
    omega
theorem test_host_write : memRead (next (exec (.hostMemWrite 0x1000 [7, 8]) host)).mem 0x1000 3 = [7, 8, 0] ∧ (next (exec (.hostMemRead 0x1000 2) { host with mem := [(0x1001, 8)] })).hostRead = [0, 8] := by decide +kernel
theorem test_lanes : (next (exec (.portLaneChange 4) host)).portUp = true ∧ (next (exec (.portLaneChange 3) host)).portUp = false := by decide +kernel
/-- KEEPCFG clamps the wanted and the least share (R356). -/
theorem test_keepcfg : (next (exec (.keepcfgWrite 0) host)).keepNext.map (fun w => bits w 28 16) = some 1000 ∧ (next (exec (.keepcfgWrite 0x1FFFFFFF) host)).keepNext.map (fun w => (bits w 28 16, bits w 15 8)) = some (5400, 100) := by
  decide +kernel
theorem witness_register_writes : (4 : W64).toNat &&& regRsv 0x090 ≠ 0 ∧ (0x9001 : W64).toNat &&& regRsv 0x090 = 0 ∧ (0x80004 : W64).toNat &&& regRsv 0x180 = 0
    ∧ (0x1000000000 : W64).toNat &&& regRsv 0x180 ≠ 0 ∧ (0x100000000 : W64).toNat &&& regRsv 0x2A0 ≠ 0 ∧ (0x10008 : W64).toNat &&& regRsv 0x2A0 = 0 ∧ (5 : W64).toNat &&& regRsv 0x070 = 0
    ∧ (host.part 0).ssExchange = false ∧ (host.part 0).ssArrived = 0 ∧ ceiling (4 : W64) < guarantee (4 : W64) ∧ (host.kpartSet 0 0x80004).isSome = true := by decide +kernel
theorem test_ttbase_forgets : ((next (exec (.ttbaseWrite 0 0x9001) host)).quad 0).tlb = [] := by decide +kernel
/-- FIPS 180-4: the digest of the three bytes of "abc" (R410). -/
theorem test_sha256_abc : sha256 [0x61, 0x62, 0x63] = [0xBA, 0x78, 0x16, 0xBF, 0x8F, 0x01, 0xCF, 0xEA, 0x41, 0x41, 0x40, 0xDE, 0x5D, 0xAE, 0x22, 0x23, 0xB0, 0x03, 0x61, 0xA3, 0x96, 0x17, 0x7A, 0x9C,
    0xB4, 0x10, 0xFF, 0x61, 0xF2, 0x00, 0x15, 0xAD] := by decide +kernel

/-- SupervisorEvents. -/
def party (p : Party) : State := { withCore { core0 with held := some (2 ^ 32) } with parties := [(3, p)] }
theorem witness_party : tget (party (.core 0 0)).parties 3 = some (.core 0 0) ∧ (party (.core 0 0)).me.part = 0 ∧ (party (.core 0 0)).me.held = some (2 ^ 32) ∧ tget base.parties 3 = none
    ∧ tget (party (.flash 1 2)).parties 3 = some (.flash 1 2) := by decide +kernel
theorem test_svack : (next (exec (.svackRelease 3) (party (.core 0 0)))).me.held = none ∧ (next (exec (.svackEnd 3) (party (.core 0 0)))).me.post = .suspend 5 0 0 0 ∧ (party (.core 0 0)).me.coop = false := by decide +kernel
def halting (us : List (Nat × Nat)) (n : Nat) : State := { base with parts := [(0, { part0 with pstate := n, halt := some ⟨1, 0, 0, 0, us, [], false⟩ })] }
/-- The last unit has stopped, and the closing record has gone; a core whose insertion is still under way. -/
def closed (h : Halt) (k : Core) : State := { withCore k with svcfg := 0, parts := [(0, { part0 with pstate := 1, halt := some h })] }
theorem witness_closing : ((closed ⟨1, 0, 0, 0, [], [(0, 0)], true⟩ core0).part 0).halt = some ⟨1, 0, 0, 0, [], [(0, 0)], true⟩
    ∧ (∀ u, u ∈ (closed ⟨1, 0, 0, 0, [], [(0, 0)], false⟩ core0).unitsOf 0 → u ∈ [(0, 0)]) ∧ ((closed ⟨1, 0, 0, 0, [], [(0, 0)], false⟩ core0).part 0).unitFault = []
    ∧ (closed ⟨1, 0, 0, 0, [], [], false⟩ core0).svValid = false
    ∧ ({ closed ⟨1, 0, 0, 0, [(0, 0)], [], false⟩ { core0 with post := .tspawn } with parts := [(0, { part0 with pstate := 1, csave := 1 })] } : State).stoppable 0 0 0 = false := by decide +kernel
theorem test_closing : ((next (exec (.halted 0) (closed ⟨1, 0, 0, 0, [], [(0, 0)], true⟩ core0))).part 0).pstate = 2
    ∧ ((next (exec (.halted 0) (closed ⟨1, 0, 0, 0, [], [(0, 0)], false⟩ core0))).die 0).recs.length = 1 := by decide +kernel
/-- A core in a TLBI that waits for its stores, as a halt and a pre-emption reach it (R388). -/
def inTlbi (x : Bool) (post : Post) : State := { closed ⟨1, 0, 0, 0, [(0, 0)], [], false⟩ { core0 with engaged := x, post := post } with
  parts := [(0, { part0 with pstate := 1, csave := 1, halt := some ⟨1, 0, 0, 0, [(0, 0)], [], false⟩ })], dies := [(0, { pre := some ⟨0, [(0, 0)]⟩ })] }
theorem witness_in_tlbi : ((inTlbi true .none).core 0).endsCommand = true ∧ ((inTlbi false .tspawn).core 0).endsCommand = false ∧ (inTlbi false .tspawn).stoppable 0 0 0 = false
    ∧ ((inTlbi true .none).die 0).pre = some ⟨0, [(0, 0)]⟩ := by decide +kernel
theorem test_in_tlbi : (next (exec (.haltLineArrives 0 0 0) (inTlbi true .none))).agenda = [(1, .haltLineArrives 0 0 0)]
    ∧ ((next (exec (.preemptionUnitSave 0 0 0) (inTlbi true .none))).core 0).stopped = false
    ∧ ((next (exec (.preemptionUnitSave 0 0 0) (inTlbi false .tspawn))).core 0).stopped = true := by decide +kernel
theorem witness_halting : ((halting [(2, 0)] 1).part 0).halt = some ⟨1, 0, 0, 0, [(2, 0)], [], false⟩ ∧ (halting [(2, 0)] 1).stoppable 0 2 0 = true ∧ (base.part 0).halt = none ∧ base.svValid = true
    ∧ ((halting [] 1).part 0).unitFault = [] ∧ ({ halting [] 1 with svcfg := 0 } : State).svValid = false ∧ base.unitsOf 0 = [(0, 0)] ∧ base.unitsOf 1 = [] := by decide +kernel
/-- A copy channel of quad 0, listed when the halt was asserted, whose work has ended when the line comes: it stops without a record (R379). -/
theorem witness_idle_unit : (2, 0) ∉ (halting [(2, 0)] 1).unitsOf 0 := by decide +kernel
theorem test_idle_unit : ((next (exec (.haltLineArrives 0 2 0) (halting [(2, 0)] 1))).die 0).recs = [] := by decide +kernel
theorem test_halts : ((next (exec (.pstateHalt 0) base)).part 0).pstate = 1 ∧ ((next (exec (.pstateResume 0) (halting [] 2))).part 0).pstate = 0
    ∧ (1, Instr.halted 0) ∈ (next (exec (.haltLineArrives 0 2 0) (halting [(2, 0)] 1))).agenda := by decide +kernel
def recorded (sv : W64) (h : BitVec 32) : State := { base with svcfg := sv, svqHead := h, dies := [(0, { recs := [([], none)] })] }
theorem witness_recorded : ((recorded 0 0).die 0).recs = [([], none)] ∧ (recorded 0 0).svValid = false ∧ (recorded 0x10 256).svValid = true
    ∧ ((recorded 0x10 256).svqHead - (recorded 0x10 256).svqTail).toNat = 2 ^ bits (recorded 0x10 256).svqBase 4 0 ∧ (base.die 0).recs = [] := by decide +kernel
/-- A record that finds room: the ring lies at 0x6000, and the supervisor has no handler template. -/
def recording : State := { base with mem := giga, parts := [(0, partT)], svqBase := 0x6008, dies := [(0, { recs := [(List.replicate 64 1, some (.core 0 0))] })] }
def handlered : State := (recording.insertHandler 0 0).getD recording
def Eng.done (x : Eng Unit) : Bool := match x with | .ok _ _ => true | .stop _ _ => false
theorem eng_done {x : Eng Unit} (h : Eng.done x = true) : x = .ok x.state () := by
  cases x with
  | ok s v => rfl
  | stop s w => nomatch h
def recorded0 : Eng Unit :=
  handlered.engWrites (schedCtx 0 recording.svPart) 17 false {} [(0x6000, (List.replicate 64 1).take 56 ++ Spec.bytesOf 8 recording.beacon.toNat)]
theorem witness_room : (recording.die 0).recs = [(List.replicate 64 1, some (.core 0 0))] ∧ recording.svValid = true ∧ (recording.svqHead - recording.svqTail).toNat ≠ 2 ^ bits recording.svqBase 4 0
    ∧ (recording.insertHandler 0 0).isSome = true ∧ bits recording.svqBase 63 12 * 4096 + 64 * (recording.svqHead.toNat % 2 ^ bits recording.svqBase 4 0) = 0x6000 := by decide +kernel
theorem witness_record_write : ∃ w, recorded0 = .ok w () := ⟨_, eng_done (x := recorded0) (by decide +kernel)⟩
theorem test_record_write : (next (exec (.svqRecordWrite 0) recording)).svqHead = 1 ∧ (next (exec (.svqRecordWrite 0) recording)).parties = [(0, .core 0 0)]
    ∧ (next (exec (.svqRecordWrite 0) recording)).physByte 0 0x6037 = 1 := by decide +kernel
theorem test_queue_full : (next (exec (.svqRecordWrite 0) (recorded 0x10 256))).agenda = [(64, .svqRecordWrite 0)] ∧ ((next (exec (.svqRecordWrite 0) (recorded 0 0))).die 0).recs = [] := by decide +kernel
def sliced (pre : Option Preempt) (w : W64) : State := { base with dies := [(0, { pre := pre })], slices := [(2, w)] }
theorem witness_sliced : ((sliced none 0).die 0).pre = none ∧ (∀ i, i < 16 → bit (tgetD (sliced none 0).slices (16 * 0 + i) 0) 16 = false)
    ∧ (∀ j, j < 2 → bit (tgetD (sliced none 0x10008).slices (16 * 0 + j) 0) 16 = false) ∧ bit (0x10008 : W64) 16 = true ∧ (sliced none 0x10008).outgoing 0 0 = none
    ∧ ((sliced none 0x10008).die 0).slice = none ∧ ((sliced (some ⟨0, [(2, 0)]⟩) 0).die 0).pre = some ⟨0, [(2, 0)]⟩ ∧ (sliced none 0).stoppable 0 2 0 = true := by decide +kernel
/-- One valid entry, and another partition at work on the die. -/
def alone : State := { tenant [] with slices := [(2, 0x10008)] }
theorem witness_alone : alone.outgoing 0 (bits (0x10008 : W64) 20 17) ≠ none ∧ (∀ j, j < 16 → j ≠ 2 → bit (tgetD alone.slices (16 * 0 + j) 0) 16 = false) ∧ bit (tgetD alone.slices (16 * 0 + 2) 0) 16 = true := by
  decide +kernel
theorem test_alone : ((next (exec (.sliceEnd 0) alone)).die 0).pre = none ∧ ((next (exec (.sliceEnd 0) alone)).die 0).slice = some 0 := by decide +kernel
/-- Two valid entries, the first of a partition that is not on the die, where another one works: with a save area and without one. -/
def contested (save : W64) : State :=
  { withCore { core0 with task := some { fetchTask with part := 1 } } with parts := [(0, part0), (1, { part0 with csave := save })], slices := [(0, 0x10008), (3, 0x30008)] }
theorem witness_contested : (contested 0x40001).outgoing 0 (bits (0x10008 : W64) 20 17) = some 1 ∧ (contested 0x40001).csaveOk 1 = true ∧ (contested 0).csaveOk 1 = false
    ∧ bit (tgetD (contested 0).slices (16 * 0 + 3) 0) 16 = true ∧ ((contested 0).die 0).slice = none := by decide +kernel
theorem test_contested : ((next (exec (.sliceEnd 0) (contested 0x40001))).die 0).pre = some ⟨1, [(0, 0)]⟩ ∧ (next (exec (.sliceEnd 0) (contested 0))).agenda = [(64, .sliceEnd 0)] := by decide +kernel
theorem test_preemption_over : ((next (exec (.preemptionComplete 0) (sliced (some ⟨1, []⟩) 0x10008))).die 0).pre = none ∧ ((next (exec (.preemptionComplete 0) (sliced (some ⟨1, []⟩) 0x10008))).die 0).outs = [1] := by decide +kernel
theorem test_slice_begins : (next (exec (.sliceEnd 0) (sliced none 0x10008))).agenda.map (·.1) = [0, 7520] ∧ ((next (exec (.preemptionUnitSave 0 2 0) (sliced (some ⟨0, [(2, 0)]⟩) 0))).die 0).pre = some ⟨0, []⟩ := by
  decide +kernel
/-- Power and bring-up: the last stage makes the machine ready; a stage that fails shows its error. -/
theorem test_power : (next (exec .powerOff host)).powered = false ∧ (next (exec .powerUp { host with powered := false })).agenda = [(1880000000, .bringupStageComplete true)] := by decide +kernel
theorem test_bringup : (next (exec (.bringupStageComplete true) { base with devStage := 5 })).ready = true ∧ (next (exec (.bringupStageComplete false) { base with devStage := 2 })).devError = 3
    ∧ (next (exec (.bringupStageComplete true) { base with devStage := 5, devError := 3 })).ready = false := by decide +kernel

end Sys2Proof.Tests
end

section
/-! Proofs about slot 0 (R210 to R216): the words that the scalar operations compute are the numbers of the spec's tables. -/
namespace Sys2Proof.Machine

/-- A clear scalar operation answers the state in which the table's result is on its way, when its value is that result. -/
theorem scalarOp_next {i : Instr} {s : State} {lat lat' d' n n' : Nat} {d : Fin 64} {v : W64} (h : Clear i s)
    (ht : some (lat, d.val, n) = some (lat', d', n')) (hv : v = BitVec.ofNat 64 n) :
    scalarOp i s lat d v = .next ((s.push 0 lat' (.scalar d' (BitVec.ofNat 64 n'))).mark .issued) := by
  cases ht
  rw [scalarOp, meaning_ok h, hv, State.pushS]

/-! ### Words and numbers -/

theorem eq_ofNat {v : W64} {n : Nat} (h : v.toNat = n % 2 ^ 64) : v = BitVec.ofNat 64 n :=
  BitVec.eq_of_toNat_eq (by rw [h, BitVec.toNat_ofNat])
theorem ofNat_self (x : W64) : x = BitVec.ofNat 64 x.toNat := eq_ofNat (Nat.mod_eq_of_lt x.isLt).symm
theorem eq_ofNat_wrap {v : W64} {z : Int} (h : v = BitVec.ofInt 64 z) : v = BitVec.ofNat 64 (Spec.wrap 64 z) := by
  rw [h, ofNat_wrap]

/-- The signed value of a word of the model is the one the spec's tables use. -/
theorem sgn_toNat (x : W64) : Spec.sgn 64 x.toNat = x.toInt := by
  unfold Spec.sgn
  rw [BitVec.toInt_eq_toNat_cond, Nat.mod_eq_of_lt x.isLt]
  split <;> split <;> omega

/-! ### R210 -/

theorem add_value (x y : W64) : x + y = BitVec.ofNat 64 ((x.toNat + y.toNat) % 2 ^ 64) := eq_ofNat (by simp)
theorem sub_value (x y : W64) : x - y = BitVec.ofNat 64 (Spec.wrap 64 ((x.toNat : Int) - y.toNat)) :=
  eq_ofNat_wrap (by rw [Int.sub_eq_add_neg, BitVec.ofInt_add, BitVec.ofInt_neg, ofInt_toNat, ofInt_toNat, BitVec.sub_eq_add_neg])
theorem mul_value (x y : W64) : x * y = BitVec.ofNat 64 (x.toNat * y.toNat % 2 ^ 64) := eq_ofNat (by simp)
theorem mulHigh_value (u : Bool) (x y : W64) : mulHigh u x y = BitVec.ofNat 64
    (if u then x.toNat * y.toNat / 2 ^ 64 else Spec.wrap 64 (Spec.sgn 64 x.toNat * Spec.sgn 64 y.toNat / (2 ^ 64 : Nat))) := by
  cases u
  · exact eq_ofNat_wrap (by rw [sgn_toNat, sgn_toNat]; rfl)
  · rfl
theorem and_value (x y : W64) : x &&& y = BitVec.ofNat 64 (x.toNat &&& y.toNat) := by rw [← BitVec.toNat_and]; exact ofNat_self _
theorem or_value (x y : W64) : x ||| y = BitVec.ofNat 64 (x.toNat ||| y.toNat) := by rw [← BitVec.toNat_or]; exact ofNat_self _
theorem xor_value (x y : W64) : x ^^^ y = BitVec.ofNat 64 (x.toNat ^^^ y.toNat) := by rw [← BitVec.toNat_xor]; exact ofNat_self _
theorem shl_value (x : W64) (k : Nat) : x <<< k = BitVec.ofNat 64 (x.toNat * 2 ^ k % 2 ^ 64) :=
  eq_ofNat (by simp [Nat.shiftLeft_eq])
theorem shr_value (x : W64) (k : Nat) : x >>> k = BitVec.ofNat 64 (x.toNat / 2 ^ k) := by
  rw [← Nat.shiftRight_eq_div_pow, ← BitVec.toNat_ushiftRight]
  exact ofNat_self _
theorem sra_value (x : W64) (k : Nat) : x.sshiftRight k = BitVec.ofNat 64 (Spec.wrap 64 (Spec.sgn 64 x.toNat / (2 ^ k : Nat))) :=
  eq_ofNat_wrap (by rw [sgn_toNat, ← Int.shiftRight_eq_div_pow, ← BitVec.toInt_sshiftRight, BitVec.ofInt_toInt])
theorem addsh_value (x y : W64) (k : Nat) : x + (y <<< k) = BitVec.ofNat 64 ((x.toNat + y.toNat * 2 ^ k) % 2 ^ 64) :=
  eq_ofNat (by simp [Nat.shiftLeft_eq])

/-- `less` compares the values that the form of a comparison gives its operands. -/
theorem less_iff (u : Bool) (x y : W64) : less u x y = true ↔ if u then x.toNat < y.toNat else Spec.sgn 64 x.toNat < Spec.sgn 64 y.toNat := by
  cases u
  · simp [less, sgn_toNat, BitVec.slt_iff_toInt_lt]
  · simp [less, BitVec.ult_iff_toNat_lt]

/-- R42, R210: a choice by the order of two words. `<` and `≤` decide it differently only where the words are equal. -/
theorem choice_value (u : Bool) (x y a b : W64) (h : x = y → a = b) : (if less u x y then a else b) = BitVec.ofNat 64
    (if u then (if x.toNat ≤ y.toNat then a.toNat else b.toNat) else if Spec.sgn 64 x.toNat ≤ Spec.sgn 64 y.toNat then a.toNat else b.toNat) := by
  by_cases e : x = y
  · simp [h e]
  · have hn : x.toNat ≠ y.toNat := fun q => e (BitVec.eq_of_toNat_eq q)
    have hi : x.toInt ≠ y.toInt := fun q => e (BitVec.eq_of_toInt_eq q)
    have hl : less u x y = true ↔ if u then x.toNat ≤ y.toNat else x.toInt ≤ y.toInt := by
      rw [less_iff, sgn_toNat, sgn_toNat]
      split <;> omega
    rw [sgn_toNat, sgn_toNat]
    simp only [hl]
    cases u with
    | true => by_cases q : x.toNat ≤ y.toNat <;> simp [q]
    | false => by_cases q : x.toInt ≤ y.toInt <;> simp [q]

/-! ### R210: counts of bits -/

theorem range_succ_filter (f : Nat → Bool) (n : Nat) :
    ((List.range (n + 1)).filter f).length = (f 0).toNat + ((List.range n).filter fun k => f (k + 1)).length := by
  rw [List.range_succ_eq_map, List.filter_cons, List.filter_map]
  cases f 0 <;> simp [Function.comp_def, Nat.add_comm]

/-- `popN` counts the bits that are set. -/
theorem popN_eq (w : Nat) : ∀ x, popN w x = ((List.range w).filter x.testBit).length := by
  induction w with
  | zero => intro x; rfl
  | succ w ih =>
    intro x
    have h0 : x % 2 = (x.testBit 0).toNat := by
      rw [Nat.testBit_zero]
      rcases Nat.mod_two_eq_zero_or_one x with h | h <;> simp [h]
    rw [popN, ih, range_succ_filter, h0]
    simp only [Nat.testBit_succ]
theorem popN_value (w x : Nat) : popN w x = Spec.ones w x := by
  have h : x.testBit = fun k => x / 2 ^ k % 2 == 1 := by
    funext k
    rw [Nat.testBit_eq_decide_div_mod_eq, beq_eq_decide]
  rw [popN_eq, Spec.ones, h]

/-- The numbers below w that are greater than l. -/
theorem range_above_length (l w : Nat) : ((List.range w).filter fun k => decide (l < k)).length = w - 1 - l := by
  induction w with
  | zero => simp
  | succ w ih =>
    rw [List.range_succ, List.filter_append, List.length_append, ih, List.filter_cons, List.filter_nil]
    simp only [decide_eq_true_eq]
    split
    case isTrue h =>
      rw [List.length_singleton]
      omega
    case isFalse h =>
      rw [List.length_nil]
      omega
theorem clzN_value (w x : Nat) : clzN w x = Spec.leading w x := by
  unfold clzN Spec.leading
  split
  case isTrue h => simp [h]
  case isFalse h => rw [← range_above_length]; simp only [Nat.log2_lt h]

/-! ### R211 -/
theorem divide_value (u : Bool) (x y : W64) : divide u x y = BitVec.ofNat 64 (Spec.quotient u x.toNat y.toNat) := by
  unfold divide Spec.quotient
  by_cases h : y = 0
  · simp [h]
  · have hn : y.toNat ≠ 0 := fun q => h (BitVec.eq_of_toNat_eq (by simpa using q))
    rw [if_neg h, if_neg hn]
    cases u with
    | false =>
      refine eq_ofNat_wrap ?_
      rw [sgn_toNat, sgn_toNat]
      exact BitVec.eq_of_toInt_eq (by rw [BitVec.toInt_ofInt]; exact BitVec.toInt_sdiv x y)
    | true =>
      rw [if_pos rfl, if_pos rfl, ← BitVec.toNat_udiv]
      exact ofNat_self _
theorem remainder_value (u : Bool) (x y : W64) : remainder u x y = BitVec.ofNat 64 (Spec.remainder u x.toNat y.toNat) := by
  unfold remainder Spec.remainder
  by_cases h : y = 0
  · simp [h]
  · have hn : y.toNat ≠ 0 := fun q => h (BitVec.eq_of_toNat_eq (by simpa using q))
    rw [if_neg h, if_neg hn]
    cases u with
    | false =>
      refine eq_ofNat_wrap ?_
      rw [sgn_toNat, sgn_toNat, Int.mul_comm, ← Int.tmod_def, ← BitVec.toInt_srem, BitVec.ofInt_toInt]
      rfl
    | true =>
      rw [if_pos rfl, if_pos rfl, ← BitVec.toNat_umod]
      exact ofNat_self _

/-! ### R212 to R214: immediates -/
theorem simm10_toNat (k : Fin 1024) : (simm10 k).toNat = Spec.wrap 64 (Spec.sgn 10 k) := by
  rw [simm10, sextTo_sgn, BitVec.toNat_ofInt]
  rfl
theorem uimm10_toNat (k : Fin 1024) : (uimm10 k).toNat = k.val := by
  unfold uimm10
  rw [BitVec.toNat_ofNat, Nat.mod_eq_of_lt (by omega)]
theorem addi_value (x : W64) (k : Fin 1024) : x + simm10 k = BitVec.ofNat 64 (Spec.wrap 64 ((x.toNat : Int) + Spec.sgn 10 k)) :=
  eq_ofNat_wrap (by rw [BitVec.ofInt_add, ofInt_toNat]; rw [simm10, sextTo_sgn])
theorem shl_and_low (x : W64) {n k : Nat} (h : k < 2 ^ n) : x <<< n &&& BitVec.ofNat 64 k = 0 := by
  ext i hi
  by_cases q : i < n
  · simp [q]
  · have hk : (BitVec.ofNat 64 k).getLsbD i = false := by
      rw [BitVec.getLsbD_ofNat, Nat.testBit_lt_two_pow (Nat.lt_of_lt_of_le h (Nat.pow_le_pow_right (by decide) (by omega))), Bool.and_false]
    rw [BitVec.getElem_and, ← BitVec.getLsbD_eq_getElem (x := BitVec.ofNat 64 k), hk, Bool.and_false]
    simp
/-- The two halves that LIH joins share no bit, so that joining them adds them. -/
theorem lih_value (x : W64) (k : Fin 65536) : (x <<< 16) ||| BitVec.ofNat 64 k.val = BitVec.ofNat 64 ((x.toNat * 65536 + k.val) % 2 ^ 64) := by
  rw [← BitVec.add_eq_or_of_and_eq_zero _ _ (shl_and_low x k.isLt)]
  exact eq_ofNat (by simp [Nat.shiftLeft_eq])

/-- Settles O1, operation by operation: the word that the model computes is the number of the table. -/
theorem scalarResults : Obligations.ScalarResults := by
  intro i s lat d v h hc
  cases i with
  | add _ d a b => exact scalarOp_next hc h (add_value _ _)
  | sub _ d a b => exact scalarOp_next hc h (sub_value _ _)
  | mul _ d a b => exact scalarOp_next hc h (mul_value _ _)
  | mulh _ d a b u => exact scalarOp_next hc h (mulHigh_value _ _ _)
  | and _ d a b => exact scalarOp_next hc h (and_value _ _)
  | or _ d a b => exact scalarOp_next hc h (or_value _ _)
  | xor _ d a b => exact scalarOp_next hc h (xor_value _ _)
  | shl _ d a b => exact scalarOp_next hc h (shl_value _ _)
  | shr _ d a b => exact scalarOp_next hc h (shr_value _ _)
  | sra _ d a b => exact scalarOp_next hc h (sra_value _ _)
  | min _ d a b u => exact scalarOp_next hc h (choice_value u _ _ _ _ id)
  | max _ d a b u => exact scalarOp_next hc h (choice_value u _ _ _ _ Eq.symm)
  | addsh _ d a b k => exact scalarOp_next hc h (addsh_value _ _ _)
  | clz _ d a => exact scalarOp_next hc h (congrArg _ (clzN_value 64 _))
  | popc _ d a => exact scalarOp_next hc h (congrArg _ (popN_value 64 _))
  | div _ d a b u => exact scalarOp_next hc h (divide_value _ _ _)
  | rem _ d a b u => exact scalarOp_next hc h (remainder_value _ _ _)
  | addi _ d a n => exact scalarOp_next hc h (addi_value _ _)
  | andi _ d a n => exact scalarOp_next hc h (simm10_toNat n ▸ and_value _ _)
  | ori _ d a n => exact scalarOp_next hc h (uimm10_toNat n ▸ or_value _ _)
  | xori _ d a n => exact scalarOp_next hc h (uimm10_toNat n ▸ xor_value _ _)
  | shli _ d a n => exact scalarOp_next hc h (shl_value _ _)
  | shri _ d a n => exact scalarOp_next hc h (shr_value _ _)
  | srai _ d a n => exact scalarOp_next hc h (sra_value _ _)
  | sext _ d a w => exact scalarOp_next hc h (eq_ofNat_wrap (sextTo_sgn _ _))
  | zext _ d a w => exact scalarOp_next hc h rfl
  | li _ d n => exact scalarOp_next hc h (eq_ofNat_wrap (sextTo_sgn _ _))
  | lih _ d n => exact scalarOp_next hc h (lih_value _ _)
  | _ => cases h

/-! ### R215, R216 -/

theorem predOp_next {i : Instr} {s : State} (h : Clear i s) (p : Fin 8) (v : Pred) :
    predOp i s p v = .next ((s.push 0 1 (.pred p.val (BitVec.allOnes 128) v)).mark .issued) := meaning_ok h

theorem allLanes_getLsbD (b : Bool) {l : Nat} (h : l < 128) : (allLanes b).getLsbD l = b := by
  cases b with
  | true => rw [allLanes, if_pos rfl, BitVec.getLsbD_allOnes, decide_eq_true h]
  | false => simp [allLanes]

/-- R42: the model's scalar conditions are the spec's. -/
theorem condS_iff (c : Nat) (x y : W64) : condS c x y = true ↔ Spec.cond c x.toNat y.toNat := by
  match c with
  | 0 =>
    show (x == y) = true ↔ x.toNat = y.toNat
    rw [beq_iff_eq, BitVec.toNat_inj]
  | 1 =>
    show (x != y) = true ↔ x.toNat ≠ y.toNat
    rw [bne_iff_ne, Ne, Ne, BitVec.toNat_inj]
  | 2 =>
    show x.slt y = true ↔ Spec.sgn 64 x.toNat < Spec.sgn 64 y.toNat
    rw [BitVec.slt_iff_toInt_lt, sgn_toNat, sgn_toNat]
  | 3 =>
    show (!x.slt y) = true ↔ Spec.sgn 64 y.toNat ≤ Spec.sgn 64 x.toNat
    rw [sgn_toNat, sgn_toNat, ← Int.not_lt, ← BitVec.slt_iff_toInt_lt, Bool.not_eq_true', Bool.not_eq_true]
  | 4 =>
    show x.ult y = true ↔ x.toNat < y.toNat
    rw [BitVec.ult_iff_toNat_lt]
  | _ + 5 =>
    show (!x.ult y) = true ↔ y.toNat ≤ x.toNat
    rw [← Nat.not_lt, ← BitVec.ult_iff_toNat_lt, Bool.not_eq_true', Bool.not_eq_true]

/-- R216: PLOG's table, lane by lane. -/
theorem truth_getLsbD (t : Nat) (a b : Pred) {l : Nat} (h : l < 128) :
    (truth t a b).getLsbD l = t.testBit (2 * (a.getLsbD l).toNat + (b.getLsbD l).toNat) := by
  have gate : ∀ (p : Prop) [Decidable p] (x : Pred), (if p then x else 0).getLsbD l = (decide p && x.getLsbD l) := by
    intro p _ x
    split <;> simp [*]
  simp only [truth, BitVec.getLsbD_or, gate, BitVec.getLsbD_and, BitVec.getLsbD_not, h, decide_true, Bool.true_and, Nat.testBit_eq_decide_div_mod_eq]
  cases a.getLsbD l <;> cases b.getLsbD l <;> simp

/-- Settles O2: the conditions of R42, and the truth table of PLOG in every lane. -/
theorem comparesAndPredicates : Obligations.ComparesAndPredicates := by
  refine ⟨fun st p c a s => ⟨fun b h => ?_, fun n h => ?_⟩, fun st d a b t s h => ?_⟩
  · exact ⟨_, predOp_next h p _, fun l hl => by rw [allLanes_getLsbD _ hl, condS_iff]⟩
  · exact ⟨_, predOp_next h p _, fun l hl => by rw [allLanes_getLsbD _ hl, condS_iff, simm10_toNat]⟩
  · exact ⟨_, predOp_next h d _, fun l hl => truth_getLsbD _ _ _ hl⟩

end Sys2Proof.Machine
end

section
/-! Proofs about slot 2 (R235 to R238): the moves of VXC, the segments of a piecewise polynomial, and bitmaps. -/
namespace Sys2Proof.Machine

/-! ### Blocks -/

/-- A bitmap has at most 4,096 bits (R41, R238). -/
theorem rowsOf_le (sh : Lent) : rowsOf sh ≤ 8 := by
  cases sh with
  | none => decide
  | some v => exact (Nat.pow_le_pow_right (by decide) (by omega) : 2 ^ (v.val / 64) ≤ 2 ^ 3)

/-- The register of row r and of the j-th cluster of a block (R163). -/
theorem blockData_getD {rows n r j : Nat} (cs : Nat) (f : Nat → Nat → Row) (hr : r < rows) (hj : j < n) :
    (blockData rows cs n f).getD (n * r + j) 0 = f r (cs + j) := by
  have hd : (n * r + j) / n = r := by rw [Nat.mul_add_div (by omega), Nat.div_eq_of_lt hj, Nat.add_zero]
  have hm : (n * r + j) % n = j := by rw [Nat.mul_add_mod, Nat.mod_eq_of_lt hj]
  have hlt : n * r + j < rows * n := by
    calc n * r + j < n * r + n := by omega
      _ = (r + 1) * n := by ring
      _ ≤ rows * n := Nat.mul_le_mul_right n hr
  unfold blockData
  rw [List.getD_eq_getElem _ _ (by simpa using hlt)]
  simp [hd, hm]

/-- What a clear slot-2 operation sends to its block (R226). -/
theorem pushV_next {i : Instr} {s : State} (h : Clear i s) (sh : Lent) (lat : Nat) (d : Fin 64) (lanes : Pred) (f : Nat → Nat → Row) :
    meaning i 2 s (.ok (s.pushV sh lat d lanes f)) = .next ((s.push 2 lat (.vec d.val (rowsOf sh) (s.me.extent sh).1 (s.me.extent sh).2 lanes
      (blockData (rowsOf sh) (s.me.extent sh).1 (s.me.extent sh).2 f))).mark .issued) := meaning_ok h

/-- What it sends, where it makes each row from its lanes. -/
theorem lanes_next {i : Instr} {s : State} (h : Clear i s) (sh : Lent) (lat : Nat) (d : Fin 64) (lanes : Pred) (g : Nat → Nat → Nat → W32) :
    ∃ data, meaning i 2 s (.ok (s.pushV sh lat d lanes fun r c => rowOf (g r c) 16)) =
        .next ((s.push 2 lat (.vec d.val (rowsOf sh) (s.me.extent sh).1 (s.me.extent sh).2 lanes data)).mark .issued)
      ∧ ∀ r j l, r < rowsOf sh → j < (s.me.extent sh).2 → l < 16 →
        lane (data.getD ((s.me.extent sh).2 * r + j) 0) l = g r ((s.me.extent sh).1 + j) l :=
  ⟨_, pushV_next h sh lat d lanes _, fun r j l hr hj hl => by rw [blockData_getD _ _ hr hj, lane_rowOf _ hl]⟩

/-- An invalid operand of slot 2 traps (R364). -/
theorem invalidOperand_traps {i : Instr} {s : State} (h : Clear i s) (he : exec i s = meaning i 2 s (fault invalidOperand)) : Traps i s 2 5 0 0 := by
  intro hn ht
  rw [he]
  exact meaning_traps h hn ht (by decide) (by decide)

/-! ### R235 -/

theorem isPow2_iff (n : Nat) : isPow2 n = true ↔ n ∈ [1, 2, 4, 8] := by simp [isPow2, or_assoc]

theorem xor_lt_of_isPow2 {n j k : Nat} (h : isPow2 n = true) (hj : j < n) (hk : k < n) : j ^^^ k < n := by
  rw [isPow2_iff] at h
  simp only [List.mem_cons, List.not_mem_nil, or_false] at h
  rcases h with rfl | rfl | rfl | rfl
  · exact Nat.xor_lt_two_pow (n := 0) hj hk
  · exact Nat.xor_lt_two_pow (n := 1) hj hk
  · exact Nat.xor_lt_two_pow (n := 2) hj hk
  · exact Nat.xor_lt_two_pow (n := 3) hj hk

theorem mod_of_lt_double {a n : Nat} (h : a < 2 * n) : a % n = if a < n then a else a - n := by
  split
  case isTrue q => exact Nat.mod_eq_of_lt q
  case isFalse q => rw [Nat.mod_eq_sub_mod (by omega), Nat.mod_eq_of_lt (by omega)]

/-- Where a register goes that the j-th cluster of a block sends, in a rotation (mode 0) or an exclusive-or pattern. -/
def xcTarget (m k n j : Nat) : Nat := match m with | 0 => (j + k) % n | _ => j ^^^ k
/-- A pattern that moves every register of the block within it. -/
def xcPermutes (m k n : Nat) : Prop := m = 0 ∨ (m = 2 ∧ isPow2 n = true ∧ k < n)

theorem xcTarget_spec {m k n j : Nat} (h : xcPermutes m k n) (hj : j < n) : xcTarget m k n j < n ∧ xcSource m k n (xcTarget m k n j) = j := by
  rcases h with rfl | ⟨rfl, hp, hk⟩
  · have hk := Nat.mod_lt k (show 0 < n by omega)
    have ht : (j + k) % n = if j + k % n < n then j + k % n else j + k % n - n := by
      rw [← mod_of_lt_double (by omega), Nat.add_mod_mod]
    refine ⟨Nat.mod_lt _ (by omega), ?_⟩
    simp only [xcTarget, xcSource, ht]
    rw [mod_of_lt_double (by split <;> omega)]
    split <;> split <;> omega
  · exact ⟨xor_lt_of_isPow2 hp hj hk, Nat.xor_xor_cancel_right j k⟩
theorem xcSource_spec {m k n i : Nat} (h : xcPermutes m k n) (hi : i < n) : xcSource m k n i < n ∧ xcTarget m k n (xcSource m k n i) = i := by
  rcases h with rfl | ⟨rfl, hp, hk⟩
  · have hk := Nat.mod_lt k (show 0 < n by omega)
    refine ⟨Nat.mod_lt _ (by omega), ?_⟩
    simp only [xcTarget, xcSource]
    rw [← Nat.add_mod_mod, mod_of_lt_double (n := n) (a := i + n - k % n) (by omega), mod_of_lt_double (by split <;> omega)]
    split <;> split <;> omega
  · exact ⟨xor_lt_of_isPow2 hp hi hk, Nat.xor_xor_cancel_right i k⟩

/-- The move of index j of a block at cluster cs: its sending and its receiving cluster (R235). -/
def xcMove (m k cs n j : Nat) : Nat × Nat :=
  match m with
  | 0 => (cs + j, cs + (j + k) % n)
  | 1 => (cs + k, cs + j)
  | _ => (cs + j, cs + (j ^^^ k))
/-- Two clusters of the ring that are neither one nor neighbours. -/
def Apart (x y : Nat) : Prop := x ≠ y ∧ (x + 1) % 8 ≠ y % 8 ∧ (y + 1) % 8 ≠ x % 8

theorem xcMove_of_permutes {m k n : Nat} (h : xcPermutes m k n) (cs j : Nat) : xcMove m k cs n j = (cs + j, cs + xcTarget m k n j) := by
  rcases h with rfl | ⟨rfl, -⟩ <;> rfl

theorem xcNear_eq_false {m k cs n : Nat} : xcNear m k cs n = false ↔ ∃ i, i < n ∧ Apart (cs + xcSource m k n i) (cs + i) := by
  simp [xcNear, Apart, and_assoc]

/-- The latency of VXC looks at the receivers, R235 at the moves: one of each is the other. -/
theorem far_iff {m k cs n : Nat} (h : m = 1 ∨ xcPermutes m k n) :
    (∃ j x y, j < n ∧ (x, y) = xcMove m k cs n j ∧ Apart x y) ↔ xcNear m k cs n = false := by
  rw [xcNear_eq_false]
  rcases h with rfl | h
  · constructor
    · rintro ⟨j, x, y, hj, e, ha⟩
      cases e
      exact ⟨j, hj, ha⟩
    · rintro ⟨i, hi, ha⟩
      exact ⟨i, _, _, hi, rfl, ha⟩
  · constructor
    · rintro ⟨j, x, y, hj, e, ha⟩
      obtain ⟨ht, hs⟩ := xcTarget_spec h hj
      rw [xcMove_of_permutes h] at e
      cases e
      exact ⟨_, ht, by rwa [hs]⟩
    · rintro ⟨i, hi, ha⟩
      obtain ⟨hs, ht⟩ := xcSource_spec h hi
      exact ⟨_, _, _, hs, by rw [xcMove_of_permutes h, ht], ha⟩

/-! ### R236, R237 -/

/-- The lower end of a segment lies at or below a value. -/
def startsBelow (seg : Nat → BitVec 160) (x : Num) (k : Nat) : Prop := (segWord (seg k) 0).isNan = false ∧ x.lt (segWord (seg k) 0) = false
theorem not_startsBelow {seg : Nat → BitVec 160} {x : Num} {k : Nat} :
    ¬ startsBelow seg x k ↔ (segWord (seg k) 0).isNan = true ∨ x.lt (segWord (seg k) 0) = true := by
  rw [startsBelow, Decidable.not_and_iff_not_or_not, Bool.not_eq_false, Bool.not_eq_false]

/-- R237: the segment found is the largest that starts at or below the value, or 0 where none does. -/
theorem findSegment_spec (seg : Nat → BitVec 160) (x : Num) (n : Nat) :
    (startsBelow seg x (findSegment seg x n) ∨ (findSegment seg x n = 0 ∧ ∀ q, q < n → ¬ startsBelow seg x q))
    ∧ (∀ q, findSegment seg x n < q → q < n → ¬ startsBelow seg x q) ∧ (0 < n → findSegment seg x n < n) := by
  induction n with
  | zero => simp [findSegment]
  | succ n ih =>
    obtain ⟨ih1, ih2, ih3⟩ := ih
    unfold findSegment
    dsimp only
    split
    case isTrue h =>
      have hs : startsBelow seg x n := by simpa [startsBelow] using h
      exact ⟨.inl hs, fun q h1 h2 => by omega, fun _ => by omega⟩
    case isFalse h =>
      have hs : ¬ startsBelow seg x n := by simpa [startsBelow] using h
      have step : ∀ {q}, q < n + 1 → (q < n → ¬ startsBelow seg x q) → ¬ startsBelow seg x q := by
        intro q hq hb
        rcases Nat.lt_succ_iff_lt_or_eq.mp hq with h | rfl
        · exact hb h
        · exact hs
      refine ⟨ih1.imp_right fun ⟨h0, hb⟩ => ⟨h0, fun q hq => step hq (hb q)⟩, fun q h1 hq => step hq (ih2 q h1), fun _ => ?_⟩
      rcases Nat.eq_zero_or_pos n with rfl | hn
      · exact Nat.one_pos
      · exact Nat.lt_succ_of_lt (ih3 hn)

theorem polynomial_nan {seg : Nat → BitVec 160} (b : W32) (h : (fp32.dec b.toNat).isNan = true) : polynomial seg b = 0x7FC00000 := if_pos h
/-- R237: the cubic of the segment that is found, rounded after every step. -/
def Cubic (seg : Nat → BitVec 160) (x : Num) (k : Nat) (y : W32) : Prop :=
  let c := fun i => segWord (seg k) (i + 1)
  let t := rne32 (Num.add false x (segWord (seg k) 0).neg)
  let step := fun v q => rne32 (Num.add false (Num.mul v t) q)
  y = BitVec.ofNat 32 (fp32.enc 1 0 false (Num.add false (Num.mul (step (step (c 3) (c 2)) (c 1)) t) (c 0)))
theorem polynomial_cubic {seg : Nat → BitVec 160} (b : W32) (h : (fp32.dec b.toNat).isNan = false) :
    Cubic seg (fp32.dec b.toNat) (findSegment seg (fp32.dec b.toNat) 64) (polynomial seg b) :=
  if_neg (by rw [h]; decide)
theorem polynomial_segment {seg : Nat → BitVec 160} (b : W32) (h : (fp32.dec b.toNat).isNan = false) : ∃ k, k < 64
    ∧ (startsBelow seg (fp32.dec b.toNat) k ∨ (k = 0 ∧ ∀ q, q < 64 → ¬ startsBelow seg (fp32.dec b.toNat) q))
    ∧ (∀ q, k < q → q < 64 → ¬ startsBelow seg (fp32.dec b.toNat) q)
    ∧ Cubic seg (fp32.dec b.toNat) k (polynomial seg b) := by
  obtain ⟨hs, ha, hk⟩ := findSegment_spec seg (fp32.dec b.toNat) 64
  exact ⟨_, hk (by decide), hs, ha, polynomial_cubic b h⟩

/-! ### R238 -/

/-- Rows joined into one number, the first lowest. -/
def joined (f : Nat → Row) (n : Nat) : Nat := (List.range n).foldl (fun w i => w + (f i).toNat * 2 ^ (512 * i)) 0
theorem joined_succ (f : Nat → Row) (n : Nat) : joined f (n + 1) = 2 ^ (512 * n) * (f n).toNat + joined f n := by
  simp [joined, List.range_succ, Nat.add_comm, Nat.mul_comm]
theorem joined_lt (f : Nat → Row) (n : Nat) : joined f n < 2 ^ (512 * n) := by
  induction n with
  | zero => simp [joined]
  | succ n ih =>
    rw [joined_succ, Nat.mul_succ, Nat.pow_add]
    calc 2 ^ (512 * n) * (f n).toNat + joined f n < 2 ^ (512 * n) * ((f n).toNat + 1) := Nat.add_lt_add_left ih _
      _ ≤ 2 ^ (512 * n) * 2 ^ 512 := Nat.mul_le_mul_left _ (f n).isLt
theorem joined_testBit (f : Nat → Row) (n : Nat) : ∀ {i}, i < 512 * n → (joined f n).testBit i = (f (i / 512)).getLsbD (i % 512) := by
  induction n with
  | zero => intro i h; omega
  | succ n ih =>
    intro i h
    rw [joined_succ, Nat.testBit_two_pow_mul_add _ (joined_lt f n)]
    split
    case isTrue hi => exact ih hi
    case isFalse hi =>
      rw [show i / 512 = n by omega, show i % 512 = i - 512 * n by omega]
      rfl

/-- The bitmap that the model joins has the bits of R238. -/
theorem bitmap_testBit (s : State) (sh : Lent) (a : Fin 64) (c : Nat) {i : Nat} (h : i < 512 * rowsOf sh) :
    (s.bitmap sh a c).testBit i = Spec.bitmap s a.val c i := by
  rw [Spec.bitmap, lane_getLsbD _ _ _ (Nat.mod_lt _ (by decide)), show 32 * (i / 32 % 16) + i % 32 = i % 512 by omega]
  exact joined_testBit (fun r => s.vsrc a.val r c) _ h
theorem popN_bitmap (s : State) (sh : Lent) (a : Fin 64) (c : Nat) {m : Nat} (h : m ≤ 512 * rowsOf sh) :
    popN m (s.bitmap sh a c) = Spec.rank (Spec.bitmap s a.val c) m := by
  rw [popN_eq, Spec.rank]
  congr 1
  exact List.filter_congr fun i hi => bitmap_testBit s sh a c (Nat.lt_of_lt_of_le (List.mem_range.mp hi) h)

theorem popN_le (n x : Nat) : popN n x ≤ n := by
  rw [popN_eq]
  exact (List.length_filter_le _ _).trans_eq List.length_range

/-- `select` finds a bit that is set, with q set bits below it. -/
theorem select_some {n : Nat} : ∀ {w i q k : Nat}, select n w i q = some k → ∃ m, k = i + m ∧ m < n ∧ w.testBit m = true ∧ popN m w = q := by
  induction n with
  | zero => intro w i q k h; cases h
  | succ n ih =>
    intro w i q k h
    have later : ∀ {p}, select n (w / 2) (i + 1) p = some k → w % 2 + p = q →
        ∃ m, k = i + m ∧ m < n + 1 ∧ w.testBit m = true ∧ popN m w = q := by
      intro p hp hq
      obtain ⟨m, hk, hm, hb, hr⟩ := ih hp
      exact ⟨m + 1, by omega, by omega, by rwa [Nat.testBit_succ], by rw [popN, hr, hq]⟩
    unfold select at h
    split at h
    case isTrue hw =>
      split at h
      case isTrue hq =>
        cases h
        exact ⟨0, rfl, Nat.succ_pos n, by rw [Nat.testBit_zero, decide_eq_true hw], hq.symm⟩
      case isFalse hq => exact later h (by omega)
    case isFalse hw => exact later h (by omega)
/-- It finds none where there are no more than q. -/
theorem select_none {n : Nat} : ∀ {w i q : Nat}, select n w i q = none ↔ popN n w ≤ q := by
  induction n with
  | zero => exact fun {_ _ q} => ⟨fun _ => Nat.zero_le q, fun _ => rfl⟩
  | succ n ih =>
    intro w i q
    rw [select, popN]
    split
    case isTrue hw =>
      split
      case isTrue hq => exact ⟨nofun, fun h => by omega⟩
      case isFalse hq =>
        rw [ih]
        omega
    case isFalse hw =>
      rw [ih]
      omega

/-- The word that BSEL answers. -/
def selectWord (n w q : Nat) : W32 :=
  match select n w 0 q with
  | some i => BitVec.ofNat 32 i
  | none => 0xFFFFFFFF
theorem selectWord_none {n w q : Nat} (h : popN n w ≤ q) : selectWord n w q = 0xFFFFFFFF := by rw [selectWord, select_none.mpr h]
theorem selectWord_some {n w q : Nat} (hn : n ≤ 2 ^ 32) (h : q < popN n w) :
    (selectWord n w q).toNat < n ∧ w.testBit (selectWord n w q).toNat = true ∧ popN (selectWord n w q).toNat w = q := by
  obtain ⟨k, hk⟩ := Option.ne_none_iff_exists'.mp (mt select_none.mp (Nat.not_le.mpr h))
  obtain ⟨m, rfl, hm, hb, hr⟩ := select_some hk
  have hv : (selectWord n w q).toNat = m := by
    rw [selectWord, hk, Nat.zero_add]
    exact (BitVec.toNat_ofNat _ _).trans (Nat.mod_eq_of_lt (by omega))
  rw [hv]
  exact ⟨hm, hb, hr⟩

/-- The word that BRANK answers. -/
def countWord (s : State) (sh : Lent) (a : Fin 64) (c q : Nat) : W32 := BitVec.ofNat 32 (popN (min q (512 * rowsOf sh)) (s.bitmap sh a c))
theorem countWord_toNat (s : State) (sh : Lent) (a : Fin 64) (c q : Nat) :
    (countWord s sh a c q).toNat = Spec.rank (Spec.bitmap s a.val c) (min q (512 * rowsOf sh)) := by
  have hrows := rowsOf_le sh
  rw [countWord, BitVec.toNat_ofNat, Nat.mod_eq_of_lt, popN_bitmap s sh a c (Nat.min_le_right _ _)]
  exact Nat.lt_of_le_of_lt ((popN_le _ _).trans (Nat.min_le_right _ _)) (by omega)

theorem selectWord_bitmap_none {s : State} {sh : Lent} {a : Fin 64} {c q : Nat} (h : Spec.rank (Spec.bitmap s a.val c) (512 * rowsOf sh) ≤ q) :
    selectWord (512 * rowsOf sh) (s.bitmap sh a c) q = 0xFFFFFFFF :=
  selectWord_none (by rwa [popN_bitmap s sh a c (Nat.le_refl _)])
theorem selectWord_bitmap_some {s : State} {sh : Lent} {a : Fin 64} {c q : Nat} (h : q < Spec.rank (Spec.bitmap s a.val c) (512 * rowsOf sh)) :
    (selectWord (512 * rowsOf sh) (s.bitmap sh a c) q).toNat < 512 * rowsOf sh
    ∧ Spec.bitmap s a.val c (selectWord (512 * rowsOf sh) (s.bitmap sh a c) q).toNat = true
    ∧ Spec.rank (Spec.bitmap s a.val c) (selectWord (512 * rowsOf sh) (s.bitmap sh a c) q).toNat = q := by
  have hrows := rowsOf_le sh
  obtain ⟨hlt, hb, hr⟩ := selectWord_some (n := 512 * rowsOf sh) (w := s.bitmap sh a c) (q := q) (by omega)
    (by rwa [popN_bitmap s sh a c (Nat.le_refl _)])
  exact ⟨hlt, by rw [← bitmap_testBit s sh a c hlt, hb], by rw [← popN_bitmap s sh a c hlt.le, hr]⟩

/-! ### The instructions -/

/-- R235: the operands that VXC refuses. -/
def xcFails (m k cs n : Nat) : Prop := (m = 1 ∧ n ≤ k) ∨ (m = 2 ∧ (n ∉ [1, 2, 4, 8] ∨ n ≤ k ∨ cs % n ≠ 0))

theorem xcFails_iff {m k cs n : Nat} : xcFails m k cs n ↔ (m = 1 ∧ n ≤ k) ∨ (m = 2 ∧ (!isPow2 n ∨ n ≤ k ∨ cs % n ≠ 0)) := by
  rw [xcFails, ← isPow2_iff, Bool.not_eq_true, Bool.not_eq_true']
/-- A mode that VXC accepts broadcasts from within its block, or permutes it. -/
theorem xcPermutes_of_not_fails {m k cs n : Nat} (hm : m < 3) (h : ¬ xcFails m k cs n) : m = 1 ∨ xcPermutes m k n := by
  rw [xcFails_iff] at h
  unfold xcPermutes
  by_cases h2 : m = 2
  · by_cases hp : isPow2 n = true
    · right; right
      exact ⟨h2, hp, by omega⟩
    · simp [h2, hp] at h
  · omega

section
variable {s : State} {sh : Lent} {d a : Fin 64} {k p : Fin 8} {m : Fin 4}

theorem exec_vxc_fails (h : xcFails m.val k.val (s.me.extent sh).1 (s.me.extent sh).2) :
    exec (.vxc d a k p m sh) s = meaning (.vxc d a k p m sh) 2 s (fault invalidOperand) := by
  rw [exec_vxc]
  exact congrArg (meaning _ 2 s) (if_pos (xcFails_iff.mp h))
theorem exec_vxc_moves (h : ¬ xcFails m.val k.val (s.me.extent sh).1 (s.me.extent sh).2) :
    exec (.vxc d a k p m sh) s = meaning (.vxc d a k p m sh) 2 s
      (.ok (s.pushV sh (if xcNear m.val k.val (s.me.extent sh).1 (s.me.extent sh).2 then 6 else 9) d (s.me.preg p.val) fun r c =>
        s.vsrc a.val r ((s.me.extent sh).1 + xcSource m.val k.val (s.me.extent sh).2 (c - (s.me.extent sh).1)))) := by
  rw [exec_vxc]
  exact congrArg (meaning _ 2 s) (if_neg fun q => h (xcFails_iff.mpr q))

/-- What a cluster of VXC's block receives is what its source in the pattern holds. -/
theorem exec_vxc_block (hc : Clear (.vxc d a k p m sh) s) (h : ¬ xcFails m.val k.val (s.me.extent sh).1 (s.me.extent sh).2) :
    ∃ data, exec (.vxc d a k p m sh) s = .next ((s.push 2 (if xcNear m.val k.val (s.me.extent sh).1 (s.me.extent sh).2 then 6 else 9)
        (.vec d.val (rowsOf sh) (s.me.extent sh).1 (s.me.extent sh).2 (s.me.preg p.val) data)).mark .issued)
      ∧ ∀ r i, r < rowsOf sh → i < (s.me.extent sh).2 → data.getD ((s.me.extent sh).2 * r + i) 0 =
          s.vsrc a.val r ((s.me.extent sh).1 + xcSource m.val k.val (s.me.extent sh).2 i) := by
  rw [exec_vxc_moves h, pushV_next hc]
  exact ⟨_, rfl, fun r i hr hi => by rw [blockData_getD _ _ hr hi, Nat.add_sub_cancel_left]⟩

theorem exec_pwld_fails {j : Fin 64} (h : 64 < j.val + 2 * rowsOf sh * (s.me.extent sh).2) :
    exec (.pwld a j sh) s = meaning (.pwld a j sh) 2 s (fault invalidOperand) := by
  rw [exec_pwld]
  exact congrArg (meaning _ 2 s) (if_pos h)
theorem exec_pwld_loads {j : Fin 64} (h : ¬ 64 < j.val + 2 * rowsOf sh * (s.me.extent sh).2) :
    exec (.pwld a j sh) s = meaning (.pwld a j sh) 2 s (.ok (s.push 2 4 (.pwp j.val (rowsOf sh) (s.me.extent sh).1 (s.me.extent sh).2 (BitVec.allOnes 128)
      (blockData (rowsOf sh) (s.me.extent sh).1 (s.me.extent sh).2 (s.vsrc a.val))))) := by
  rw [exec_pwld]
  exact congrArg (meaning _ 2 s) (if_neg h)
end

/-- Settles O38: VXC by its pattern of moves, the others lane by lane. -/
theorem vectorTables : Obligations.VectorTables := by
  intro s sh d a b p cs n pg size
  refine ⟨fun k m h => ⟨fun hf => invalidOperand_traps h (exec_vxc_fails hf), fun hf => ?_⟩,
    fun j h => ⟨fun hj => ?_, fun hj => invalidOperand_traps h (exec_pwld_fails hj)⟩, fun h => ?_, fun h => ?_, fun h => ?_⟩
  · have hm : m.val = 1 ∨ xcPermutes m.val k.val n := xcPermutes_of_not_fails (of_decide_eq_true (Bool.and_eq_true_iff.mp h.1).1) hf
    obtain ⟨data, he, hd⟩ := exec_vxc_block h hf
    have moved : ∀ {r j}, r < rowsOf sh → j < n → xcPermutes m.val k.val n →
        data.getD (n * r + xcTarget m.val k.val n j) 0 = s.vsrc a.val r (cs + j) := by
      intro r j hr hj hp
      obtain ⟨ht, hs⟩ := xcTarget_spec hp hj
      rw [hd r _ hr ht, hs]
    refine ⟨data, _, he, fun r j hr hj => ⟨fun h0 => ?_, fun h1 => ?_, fun h2 => ?_⟩, fun far => ?_, fun far => ?_⟩
    · simpa only [xcTarget, h0] using moved hr hj (.inl h0)
    · rw [hd r j hr hj, h1]
      rfl
    · simpa only [xcTarget, h2] using moved hr hj (hm.resolve_left (by omega))
    · rw [(far_iff hm).mp far]
      rfl
    · rw [Bool.eq_true_of_not_eq_false (mt (far_iff hm).mpr far)]
      rfl
  · exact ⟨_, (exec_pwld_loads (Nat.not_lt.mpr hj)).trans (meaning_ok h), fun r i hr hi => blockData_getD cs (s.vsrc a.val) hr hi⟩
  · obtain ⟨data, he, hd⟩ := lanes_next h sh 6 d pg fun r c l => polynomial s.me.segment (lane (s.vsrc a.val r c) l)
    refine ⟨data, he, fun r j l hr hj hl => ?_⟩
    dsimp only
    rw [hd r j l hr hj hl]
    refine ⟨polynomial_nan _, fun hn => ?_⟩
    have hk := polynomial_segment (seg := s.me.segment) _ hn
    simp only [not_startsBelow] at hk
    exact hk
  · obtain ⟨data, he, hd⟩ := lanes_next h sh 3 d pg fun r c l => countWord s sh a c (lane (s.vsrc b.val r c) l).toNat
    refine ⟨data, he, fun r j l hr hj hl => ?_⟩
    rw [hd r j l hr hj hl]
    exact countWord_toNat s sh a _ _
  · obtain ⟨data, he, hd⟩ := lanes_next h sh 3 d pg fun r c l => selectWord (512 * rowsOf sh) (s.bitmap sh a c) (lane (s.vsrc b.val r c) l).toNat
    refine ⟨data, he, fun r j l hr hj hl => ?_⟩
    dsimp only
    rw [hd r j l hr hj hl]
    exact ⟨selectWord_bitmap_none, selectWord_bitmap_some⟩

end Sys2Proof.Machine
end

section
/-! Proofs about traps (R364, R369): TRAP, whose trap waits at its core and is then taken. -/
namespace Sys2Proof.Machine

/-- A change of the current core that keeps its partition and the held trap keeps whether a trap enters the handler (R364). -/
theorem trappable_setMe {s : State} (k : Core) (hh : k.theld = s.me.theld) (hp : k.part = s.me.part) : Trappable (s.setMe k) ↔ Trappable s := by
  have hk : (s.setMe k).me = k := State.me_setCore s k
  have hq : (s.setMe k).part k.part = s.part k.part := State.part_setCore s _ _ _
  rw [Trappable, hk, hq, hh, hp]

/-- The trap of a TRAP, in a context that has a handler, enters it at the bundle that would issue next, with the trap no longer due (R369). -/
theorem takeTrap_trapTo {s : State} (n : Nat) (h : Trappable s) :
    s.takeTrap n = (s.setMe { s.me with post := .none }).trapTo ⟨14, 0, BitVec.ofNat 64 n, 0⟩ s.me.pc s.me.sched :=
  trap_trapTo ((trappable_setMe { s.me with post := .none } rfl rfl).mpr h)

/-- Settles O10: TRAP only makes its trap due; what is taken is the entry that every trap of R364 makes. -/
theorem trapInstruction : Obligations.TrapInstruction := by
  intro s
  refine ⟨fun st n h => ?_, fun n _ _ _ ht => ?_⟩
  · rw [exec_trap, execTrap, meaning_ok h]
  · rw [takeTrap_trapTo n ht]
    -- the entry leaves the outcome of the slot alone: the state marked with its own outcome is itself
    exact trapTo_trapped _ _ _ _ (State.issue _) (by decide : 0 * 65536 + 0 * 256 + 14 < 2 ^ 64)

end Sys2Proof.Machine
end

section
/-! Proofs about encodings (R24, R38 to R47): the fields of a word, and the rows of the opcode maps. -/
namespace Sys2Proof

/-! ### Fields of a word -/

theorem ofNat_field {n x : Nat} [NeZero n] {d : Fin n} (h : x % n = d.val) : Fin.ofNat n x = d := Fin.ext h
theorem beq_field {x : Nat} {u : Bool} (h : x % 2 = u.toNat) : (x % 2 == 1) = u := by
  rw [h]
  cases u <;> rfl
theorem toNat_beq (x : Nat) : (x % 2 == 1).toNat = x % 2 := by
  rcases Nat.mod_two_eq_zero_or_one x with h | h <;> simp [h]
/-- A field joins the bits below it to the bits up to its own end. -/
theorem field_mod (w m n : Nat) : w / m % n * m + w % m = w % (m * n) := by
  rw [Nat.mod_mul, Nat.mul_comm, Nat.add_comm]
/-- The opcode of slot 0 stands above its operands and below its stall count (R39). -/
theorem opcode_slot0 {w base st x : Nat} (hw : base + (st * 268435456 + x) = w) (hx : base % 4194304 + x < 4194304) :
    w / 4194304 % 64 = base / 4194304 % 64 := by omega
/-- The opcode of slots 1 to 3 stands above their operands (R38). -/
theorem opcode_slot {w base x : Nat} (hw : base + x = w) (hx : base % 33554432 + x < 33554432) : w / 33554432 % 128 = base / 33554432 % 128 := by
  omega

theorem of_row {α : Type} {P : α → Prop} {c : Prop} {_ : Decidable c} {x i : α} {t : Option α} (ht : t = some i → P i) (hx : c → P x)
    (h : (if c then some x else t) = some i) : P i := by
  split at h
  case isTrue hc => exact Option.some.inj h ▸ hx hc
  case isFalse => exact ht h

/-- What a header lends to an instruction that a row has taken, by what the instruction accepts. -/
def LendClass.pick (c : LendClass) (l : Lent) (m : Micro) : Lend :=
  match c with
  | .none => .nothing
  | .byte => match l with
    | .some b => .byte b
    | .none => .nothing
  | .micro => match m with
    | .some b => .micro b
    | .none => .nothing
theorem LendClass.takes_pick (c : LendClass) (l : Lent) (m : Micro) : c.takes (c.pick l m) = true := by
  cases c with
  | none => rfl
  | byte => cases l <;> rfl
  | micro => cases m <;> rfl
theorem LendClass.pick_of_takes {c : LendClass} {x : Lend} (h : c.takes x = true) : c.pick x.lent x.mw = x := by
  cases x with
  | nothing => cases c <;> rfl
  | byte b => cases c with
    | byte => rfl
    | _ => cases h
  | micro b => cases c with
    | micro => rfl
    | _ => cases h

end Sys2Proof
end

section
/-! Proofs about encodings (R24, R38 to R47): slot 0. A row takes the words of its instruction and no others. -/
namespace Sys2Proof

theorem encode_of_rowS {w : Nat} {i : Instr} (hw : w < 2 ^ 31) : rowS w = some i → encode i = w := by
  unfold rowS
  iterate 50 refine of_row (P := fun i => encode i = w) ?_ fun h => ?_
  · exact nofun
  all_goals
    unfold encode
    simp only [Fin.val_ofNat, toNat_beq, Nat.add_assoc, field_mod, Nat.reduceMul]
    omega
theorem encode_rowH {w : Nat} (hw : w < 2 ^ 32) (h : w / 2147483648 % 2 = 1) : encode (rowH w) = w := by
  unfold rowH encode
  simp only [Fin.val_ofNat, toNat_beq, Nat.add_assoc, field_mod, Nat.reduceMul]
  omega

theorem rowS_encode_nopS (st : Fin 8) : encode (.nopS st) < 2 ^ 31 ∧ rowS (encode (.nopS st)) = some (.nopS st) := by
  show st.val * 268435456 < 2 ^ 31 ∧ rowS (st.val * 268435456) = _
  refine ⟨by omega, ?_⟩
  unfold rowS
  rw [if_pos (by omega)]
  congr 2
  exact ofNat_field (by omega)
theorem rowS_encode_bare (st : Fin 8) (i : Instr) (h : i ∈ [.yield st, .tdone st, .snaprel st]) : encode i < 2 ^ 31 ∧ rowS (encode i) = some i := by
  generalize hw : encode i = w
  simp only [List.mem_cons, List.not_mem_nil, or_false] at h
  rcases h with rfl | rfl | rfl
  all_goals
    unfold encode at hw
    dsimp only at hw
    refine ⟨by omega, ?_⟩
    rw [← Nat.add_zero (st.val * 268435456)] at hw
    have ho := opcode_slot0 hw (by decide)
    simp (disch := omega) only [rowS, ho, ↓reduceIte, Nat.reduceEqDiff, false_and, true_and, Nat.reduceDiv, Nat.reduceMod, if_pos]
    congr 2
    exact ofNat_field (by omega)

theorem rowS_encode_registers (st : Fin 8) (d a b : Fin 64) (i : Instr) (h : i ∈ [.add st d a b, .sub st d a b, .mul st d a b, .and st d a b, .or
    st d a b, .xor st d a b, .shl st d a b, .shr st d a b, .sra st d a b, .clz st d a, .popc st d a]) :
encode i < 2 ^ 31 ∧ rowS (encode i) = some i := by
  generalize hw : encode i = w
  simp only [List.mem_cons, List.not_mem_nil, or_false] at h
  rcases h with rfl | rfl | rfl | rfl | rfl | rfl | rfl | rfl | rfl | rfl | rfl
  all_goals
    unfold encode at hw
    simp only [Nat.add_assoc] at hw
    refine ⟨by omega, ?_⟩
    have ho := opcode_slot0 hw (by omega)
    simp (disch := omega) only [rowS, ho, ↓reduceIte, Nat.reduceEqDiff, false_and, true_and, Nat.reduceDiv, Nat.reduceMod, if_pos]
    congr 2 <;> exact ofNat_field (by omega)

theorem rowS_encode_signed (st : Fin 8) (d a b : Fin 64) (u : Bool) (i : Instr) (h : i ∈ [.mulh st d a b u, .min st d a b u, .max st d a b u, .div st
    d a b u, .rem st d a b u]) :
encode i < 2 ^ 31 ∧ rowS (encode i) = some i := by
  generalize hw : encode i = w
  simp only [List.mem_cons, List.not_mem_nil, or_false] at h
  rcases h with rfl | rfl | rfl | rfl | rfl
  all_goals
    have := Bool.toNat_lt u
    unfold encode at hw
    simp only [Nat.add_assoc] at hw
    refine ⟨by omega, ?_⟩
    have ho := opcode_slot0 hw (by omega)
    simp (disch := omega) only [rowS, ho, ↓reduceIte, Nat.reduceEqDiff, false_and, true_and, Nat.reduceDiv, Nat.reduceMod, if_pos]
    congr 2
    exacts [ofNat_field (by omega), ofNat_field (by omega), ofNat_field (by omega), ofNat_field (by omega), beq_field (by omega)]

theorem rowS_encode_immediates (st : Fin 8) (d a k b : Fin 64) (n : Fin 1024) (z : Fin 65536) (y : Fin 16) (x : Fin 128) (i : Instr) (h : i ∈ [.addi
    st d a n, .andi st d a n, .ori st d a n, .xori st d a n, .shli st d a k, .shri st d a k, .srai st d a k, .li st d z, .lih st d z, .addsh st d a b
    y, .sext st d a x, .zext st d a x]) :
encode i < 2 ^ 31 ∧ rowS (encode i) = some i := by
  generalize hw : encode i = w
  simp only [List.mem_cons, List.not_mem_nil, or_false] at h
  rcases h with rfl | rfl | rfl | rfl | rfl | rfl | rfl | rfl | rfl | rfl | rfl | rfl
  all_goals
    unfold encode at hw
    simp only [Nat.add_assoc] at hw
    refine ⟨by omega, ?_⟩
    have ho := opcode_slot0 hw (by omega)
    simp (disch := omega) only [rowS, ho, ↓reduceIte, Nat.reduceEqDiff, false_and, true_and, Nat.reduceDiv, Nat.reduceMod, if_pos]
    congr 2 <;> exact ofNat_field (by omega)

theorem rowS_encode_predicates (st p c q : Fin 8) (a b : Fin 64) (n : Fin 1024) (y : Fin 16) (i : Instr) (h : i ∈ [.cmp st p c a b, .cmpi st p c a n,
    .plog st p c q y]) :
encode i < 2 ^ 31 ∧ rowS (encode i) = some i := by
  generalize hw : encode i = w
  simp only [List.mem_cons, List.not_mem_nil, or_false] at h
  rcases h with rfl | rfl | rfl
  all_goals
    unfold encode at hw
    simp only [Nat.add_assoc] at hw
    refine ⟨by omega, ?_⟩
    have ho := opcode_slot0 hw (by omega)
    simp (disch := omega) only [rowS, ho, ↓reduceIte, Nat.reduceEqDiff, false_and, true_and, Nat.reduceDiv, Nat.reduceMod, if_pos]
    congr 2 <;> exact ofNat_field (by omega)

theorem rowS_encode_branches (st p : Fin 8) (u : Bool) (o : Fin 262144) (i : Instr) (h : i ∈ [.br st p u o, .call st p u o]) :
encode i < 2 ^ 31 ∧ rowS (encode i) = some i := by
  generalize hw : encode i = w
  simp only [List.mem_cons, List.not_mem_nil, or_false] at h
  rcases h with rfl | rfl
  all_goals
    have := Bool.toNat_lt u
    unfold encode at hw
    simp only [Nat.add_assoc] at hw
    refine ⟨by omega, ?_⟩
    have ho := opcode_slot0 hw (by omega)
    simp only [rowS, ho, ↓reduceIte, Nat.reduceEqDiff, false_and, Nat.reduceDiv, Nat.reduceMod]
    congr 2
    exacts [ofNat_field (by omega), ofNat_field (by omega), beq_field (by omega), ofNat_field (by omega)]

theorem rowS_encode_control (st c h : Fin 8) (a b : Fin 64) (k : Fin 4) (n : Fin 1024) (l : Fin 256) (t : Fin 524288) (i : Instr) (h : i ∈ [.jr st a,
    .loopImm st k n l, .loopReg st k a l, .bar st c l, .waitc st h t, .sstep st c, .tspawn st a b, .park st t]) :
encode i < 2 ^ 31 ∧ rowS (encode i) = some i := by
  generalize hw : encode i = w
  simp only [List.mem_cons, List.not_mem_nil, or_false] at h
  rcases h with rfl | rfl | rfl | rfl | rfl | rfl | rfl | rfl
  all_goals
    unfold encode at hw
    simp only [Nat.add_assoc] at hw
    refine ⟨by omega, ?_⟩
    have ho := opcode_slot0 hw (by omega)
    simp (disch := omega) only [rowS, ho, ↓reduceIte, Nat.reduceEqDiff, false_and, true_and, Nat.reduceDiv, Nat.reduceMod, if_pos, if_neg]
    congr 2 <;> exact ofNat_field (by omega)

theorem rowS_encode_machine (st : Fin 8) (z : Fin 65536) (a b d : Fin 64) (n : Fin 1024) (i : Instr) (h : i ∈ [.trap st z, .eret st a b, .rdms st d
    n, .wrms st a n, .halt st a]) :
encode i < 2 ^ 31 ∧ rowS (encode i) = some i := by
  generalize hw : encode i = w
  simp only [List.mem_cons, List.not_mem_nil, or_false] at h
  rcases h with rfl | rfl | rfl | rfl | rfl
  all_goals
    unfold encode at hw
    simp only [Nat.add_assoc] at hw
    refine ⟨by omega, ?_⟩
    have ho := opcode_slot0 hw (by omega)
    simp (disch := omega) only [rowS, ho, ↓reduceIte, Nat.reduceEqDiff, false_and, true_and, Nat.reduceDiv, Nat.reduceMod, if_pos]
    congr 2 <;> exact ofNat_field (by omega)

theorem decodeSlot0_of_row {i : Instr} (h : encode i < 2 ^ 31 ∧ rowS (encode i) = some i) : decodeSlot0 (encode i) = checkInstr i .nothing := by
  unfold decodeSlot0
  rw [if_neg (by omega), h.2]
theorem decodeSlot0_header (st : Fin 8) (w z y x : Bool) (c b a : Fin 256) :
    decodeSlot0 (encode (.hdr st w z y x c b a)) = checkInstr (.hdr st w z y x c b a) .nothing := by
  generalize hw : encode _ = v
  have := Bool.toNat_lt w
  have := Bool.toNat_lt z
  have := Bool.toNat_lt y
  have := Bool.toNat_lt x
  unfold encode at hw
  simp only [Nat.add_assoc] at hw
  unfold decodeSlot0
  rw [if_pos (by omega)]
  unfold rowH
  congr 2
  exacts [ofNat_field (by omega), beq_field (by omega), beq_field (by omega), beq_field (by omega), beq_field (by omega), ofNat_field (by omega),
    ofNat_field (by omega), ofNat_field (by omega)]
/-- The word of an instruction of slot 0 is taken by the instruction's own row, or is a header. -/
theorem decodeSlot0_encode {i : Instr} (hs : i.slot = 0) (hf : Machine.Instr.fetched i = true) : decodeSlot0 (encode i) = checkInstr i .nothing := by
  cases i with
  | nopS st => exact decodeSlot0_of_row (rowS_encode_nopS st)
  | yield st | tdone st | snaprel st => exact decodeSlot0_of_row (rowS_encode_bare st _ (by simp))
  | hdr st w z y x c b a => exact decodeSlot0_header st w z y x c b a
  | add st d a b | sub st d a b | mul st d a b | and st d a b | or st d a b | xor st d a b | shl st d a b | shr st d a b | sra st d a b =>
    exact decodeSlot0_of_row (rowS_encode_registers st d a b _ (by simp))
  | clz st d a | popc st d a =>
    exact decodeSlot0_of_row (rowS_encode_registers st d a 0 _ (by simp))
  | mulh st d a b u | min st d a b u | max st d a b u | div st d a b u | rem st d a b u =>
    exact decodeSlot0_of_row (rowS_encode_signed st d a b u _ (by simp))
  | addi st d a n | andi st d a n | ori st d a n | xori st d a n =>
    exact decodeSlot0_of_row (rowS_encode_immediates st d a 0 0 n 0 0 0 _ (by simp))
  | shli st d a k | shri st d a k | srai st d a k =>
    exact decodeSlot0_of_row (rowS_encode_immediates st d a k 0 0 0 0 0 _ (by simp))
  | li st d z | lih st d z =>
    exact decodeSlot0_of_row (rowS_encode_immediates st d 0 0 0 0 z 0 0 _ (by simp))
  | addsh st d a b y =>
    exact decodeSlot0_of_row (rowS_encode_immediates st d a 0 b 0 0 y 0 _ (by simp))
  | sext st d a x | zext st d a x =>
    exact decodeSlot0_of_row (rowS_encode_immediates st d a 0 0 0 0 0 x _ (by simp))
  | cmp st p c a b =>
    exact decodeSlot0_of_row (rowS_encode_predicates st p c 0 a b 0 0 _ (by simp))
  | cmpi st p c a n =>
    exact decodeSlot0_of_row (rowS_encode_predicates st p c 0 a 0 n 0 _ (by simp))
  | plog st p c q y =>
    exact decodeSlot0_of_row (rowS_encode_predicates st p c q 0 0 0 y _ (by simp))
  | br st p u o | call st p u o =>
    exact decodeSlot0_of_row (rowS_encode_branches st p u o _ (by simp))
  | jr st a =>
    exact decodeSlot0_of_row (rowS_encode_control st 0 0 a 0 0 0 0 0 _ (by simp))
  | loopImm st k n l =>
    exact decodeSlot0_of_row (rowS_encode_control st 0 0 0 0 k n l 0 _ (by simp))
  | loopReg st k a l =>
    exact decodeSlot0_of_row (rowS_encode_control st 0 0 a 0 k 0 l 0 _ (by simp))
  | bar st c l =>
    exact decodeSlot0_of_row (rowS_encode_control st c 0 0 0 0 0 l 0 _ (by simp))
  | waitc st h t =>
    exact decodeSlot0_of_row (rowS_encode_control st 0 h 0 0 0 0 0 t _ (by simp))
  | sstep st c =>
    exact decodeSlot0_of_row (rowS_encode_control st c 0 0 0 0 0 0 0 _ (by simp))
  | tspawn st a b =>
    exact decodeSlot0_of_row (rowS_encode_control st 0 0 a b 0 0 0 0 _ (by simp))
  | park st t =>
    exact decodeSlot0_of_row (rowS_encode_control st 0 0 0 0 0 0 0 t _ (by simp))
  | trap st z =>
    exact decodeSlot0_of_row (rowS_encode_machine st z 0 0 0 0 _ (by simp))
  | eret st a b =>
    exact decodeSlot0_of_row (rowS_encode_machine st 0 a b 0 0 _ (by simp))
  | rdms st d n =>
    exact decodeSlot0_of_row (rowS_encode_machine st 0 0 0 d n _ (by simp))
  | wrms st a n =>
    exact decodeSlot0_of_row (rowS_encode_machine st 0 a 0 0 n _ (by simp))
  | halt st a =>
    exact decodeSlot0_of_row (rowS_encode_machine st 0 a 0 0 0 _ (by simp))
  | _ => simp [Instr.slot, Machine.Instr.fetched, encode] at hs hf

end Sys2Proof
end

section
/-! Proofs about encodings (R24, R38 to R47): slot 1. A row takes the words of its instruction and no others. -/
namespace Sys2Proof

theorem encode_of_rowL {w : Nat} {l : Lent} {m : Micro} {i : Instr} (hw : w < 2 ^ 32) : rowL w l m = some i → encode i = w := by
  unfold rowL
  iterate 30 refine of_row (P := fun i => encode i = w) ?_ fun h => ?_
  · exact nofun
  all_goals
    unfold encode
    simp only [Fin.val_ofNat, toNat_beq, Nat.add_assoc, field_mod, Nat.reduceMul]
    omega
theorem lend_of_rowL {w : Nat} {l : Lent} {m : Micro} {i : Instr} : rowL w l m = some i → i.lend = i.lendClass.pick l m := by
  unfold rowL
  iterate 30 refine of_row (P := fun i : Instr => i.lend = i.lendClass.pick l m) ?_ fun _ => rfl
  exact nofun

theorem rowL_encode_accesses (d b a : Fin 64) (p : Fin 8) (z e : Fin 4) (o : Fin 256) (l : Lent) (m : Micro) (i : Instr) (h : i ∈ [.ld d b p z o l,
    .ldv d b p z o l, .ldg d a b p z e, .ldb d b p z o l, .tld d b p z o l]) :
    rowL (encode i) l m = some i := by
  generalize hw : encode i = w
  simp only [List.mem_cons, List.not_mem_nil, or_false] at h
  rcases h with rfl | rfl | rfl | rfl | rfl
  all_goals
    unfold encode at hw
    simp only [Nat.add_assoc] at hw
    have ho := opcode_slot hw (by omega)
    simp only [rowL, ho, ↓reduceIte, Nat.reduceEqDiff, false_and, Nat.reduceDiv, Nat.reduceMod]
    congr 2 <;> exact ofNat_field (by omega)

theorem rowL_encode_tags (d a : Fin 64) (l : Lent) (k : Fin 1024) (m : Micro) (i : Instr) (h : i ∈ [.tagq d a l, .tagset a k l, .tagclr k l, .tdrop
    a, .tcnt d a, .tcntWait d a]) :
    rowL (encode i) l m = some i := by
  generalize hw : encode i = w
  simp only [List.mem_cons, List.not_mem_nil, or_false] at h
  rcases h with rfl | rfl | rfl | rfl | rfl | rfl
  all_goals
    unfold encode at hw
    simp only [Nat.add_assoc] at hw
    have ho := opcode_slot hw (by omega)
    simp (disch := omega) only [rowL, ho, ↓reduceIte, Nat.reduceEqDiff, false_and, true_and, Nat.reduceDiv, Nat.reduceMod, if_pos, if_neg]
    congr 2 <;> exact ofNat_field (by omega)

theorem rowL_encode_atomics (d a b : Fin 64) (z o : Bool) (c : Fin 8) (l : Lent) (m : Micro) (i : Instr) (h : i ∈ [.aadd d a b z c o, .amin d a b z c
    o, .amax d a b z c o, .aand d a b z c o, .aor d a b z c o, .axor d a b z c o, .aswp d a b z c o, .acas d a b z c o]) :
    rowL (encode i) l m = some i := by
  generalize hw : encode i = w
  simp only [List.mem_cons, List.not_mem_nil, or_false] at h
  rcases h with rfl | rfl | rfl | rfl | rfl | rfl | rfl | rfl
  all_goals
    have := Bool.toNat_lt z
    have := Bool.toNat_lt o
    unfold encode at hw
    simp only [Nat.add_assoc] at hw
    have ho := opcode_slot hw (by omega)
    simp (disch := omega) only [rowL, ho, ↓reduceIte, Nat.reduceEqDiff, false_and, true_and, Nat.reduceDiv, Nat.reduceMod, if_pos]
    congr 2
    exacts [ofNat_field (by omega), ofNat_field (by omega), ofNat_field (by omega), beq_field (by omega), ofNat_field (by omega), beq_field (by omega)]

theorem rowL_encode_copies (a b c : Fin 64) (y : Fin 16) (h : Fin 8) (m : Micro) (l : Lent) (i : Instr) (h : i ∈ [.cpyIn a b c y h m, .cpygIn a b c y
    h m, .cpysIn a b c y h m]) :
    rowL (encode i) l m = some i := by
  generalize hw : encode i = w
  simp only [List.mem_cons, List.not_mem_nil, or_false] at h
  rcases h with rfl | rfl | rfl
  all_goals
    unfold encode at hw
    simp only [Nat.add_assoc] at hw
    have ho := opcode_slot hw (by omega)
    simp only [rowL, ho, ↓reduceIte, Nat.reduceEqDiff, false_and, Nat.reduceDiv, Nat.reduceMod]
    congr 2 <;> exact ofNat_field (by omega)

theorem rowL_encode_fifo (f : Bool) (b c : Fin 64) (y : Fin 16) (h : Fin 8) (m : Micro) (l : Lent) (i : Instr) (h : i ∈ [.cpyfIn f b c y h m]) :
    rowL (encode i) l m = some i := by
  generalize hw : encode i = w
  simp only [List.mem_cons, List.not_mem_nil, or_false] at h
  subst h
  have := Bool.toNat_lt f
  unfold encode at hw
  simp only [Nat.add_assoc] at hw
  have ho := opcode_slot hw (by omega)
  simp (disch := omega) only [rowL, ho, ↓reduceIte, Nat.reduceEqDiff, false_and, true_and, Nat.reduceDiv, Nat.reduceMod, if_pos]
  congr 2
  exacts [beq_field (by omega), ofNat_field (by omega), ofNat_field (by omega), ofNat_field (by omega), ofNat_field (by omega)]

theorem rowL_encode_handles (a d b : Fin 64) (y : Fin 16) (l : Lent) (t : Fin 128) (k : Fin 1024) (m : Micro) (i : Instr) (h : i ∈ [.shape a y l,
    .hread d a b t l, .hwait a, .hstat d a, .hrel a, .gload d k l]) :
    rowL (encode i) l m = some i := by
  generalize hw : encode i = w
  simp only [List.mem_cons, List.not_mem_nil, or_false] at h
  rcases h with rfl | rfl | rfl | rfl | rfl | rfl
  all_goals
    unfold encode at hw
    simp only [Nat.add_assoc] at hw
    have ho := opcode_slot hw (by omega)
    simp (disch := omega) only [rowL, ho, ↓reduceIte, Nat.reduceEqDiff, false_and, true_and, Nat.reduceDiv, Nat.reduceMod, if_pos]
    congr 2 <;> exact ofNat_field (by omega)

theorem rowL_lends {w : Nat} {l : Lent} {m : Micro} {x : Lend} {i : Instr} (hl : x.lent = l) (hm : x.mw = m) (h : rowL w l m = some i) :
    rowL w x.lent x.mw = some i := by rw [hl, hm, h]
theorem rowL_encode {i : Instr} (hs : i.slot = 1) : rowL (encode i) i.lend.lent i.lend.mw = some i := by
  cases i with
  | nop => rfl
  | ld d b p z o l | ldv d b p z o l | ldb d b p z o l | tld d b p z o l =>
    exact rowL_lends (by cases l <;> rfl) rfl (rowL_encode_accesses d b 0 p z 0 o l _ _ (by simp))
  | ldg d a b p z e =>
    exact rowL_encode_accesses d b a p z e 0 _ _ _ (by simp)
  | tagq d a l =>
    exact rowL_lends (by cases l <;> rfl) rfl (rowL_encode_tags d a l 0 _ _ (by simp))
  | tagset a k l =>
    exact rowL_lends (by cases l <;> rfl) rfl (rowL_encode_tags 0 a l k _ _ (by simp))
  | tagclr k l =>
    exact rowL_lends (by cases l <;> rfl) rfl (rowL_encode_tags 0 0 l k _ _ (by simp))
  | tdrop a =>
    exact rowL_encode_tags 0 a _ 0 _ _ (by simp)
  | tcnt d a | tcntWait d a =>
    exact rowL_encode_tags d a _ 0 _ _ (by simp)
  | aadd d a b z c o | amin d a b z c o | amax d a b z c o | aand d a b z c o | aor d a b z c o | axor d a b z c o | aswp d a b z c o | acas d a b z c o =>
    exact rowL_encode_atomics d a b z o c _ _ _ (by simp)
  | cpyIn a b c y h m | cpygIn a b c y h m | cpysIn a b c y h m =>
    exact rowL_lends rfl (by cases m <;> rfl) (rowL_encode_copies a b c y h m _ _ (by simp))
  | cpyfIn f b c y h m =>
    exact rowL_lends rfl (by cases m <;> rfl) (rowL_encode_fifo f b c y h m _ _ (by simp))
  | shape a y l =>
    exact rowL_lends (by cases l <;> rfl) rfl (rowL_encode_handles a 0 0 y l 0 0 _ _ (by simp))
  | hread d a b t l =>
    exact rowL_lends (by cases l <;> rfl) rfl (rowL_encode_handles a d b 0 l t 0 _ _ (by simp))
  | hwait a | hrel a =>
    exact rowL_encode_handles a 0 0 0 _ 0 0 _ _ (by simp)
  | hstat d a =>
    exact rowL_encode_handles a d 0 0 _ 0 0 _ _ (by simp)
  | gload d k l =>
    exact rowL_lends (by cases l <;> rfl) rfl (rowL_encode_handles 0 d 0 0 l 0 k _ _ (by simp))
  | _ => cases hs

end Sys2Proof
end

section
/-! Proofs about encodings (R24, R38 to R47): slot 2. A row takes the words of its instruction and no others. -/
namespace Sys2Proof

/-- The opcodes below 24 stand in the first 25 rows; the row among them that is another is that of VPOPC. -/
theorem encode_of_rowV_low {w : Nat} {l : Lent} {i : Instr} (hw : w < 2 ^ 32) (hl : w / 33554432 < 24) : rowV w l = some i → encode i = w := by
  unfold rowV
  iterate 25 refine of_row (P := fun i => encode i = w) ?_ fun h => ?_
  · iterate 22 refine of_row (P := fun i => encode i = w) ?_ fun h => absurd h (by omega)
    exact nofun
  all_goals
    clear hl
    unfold encode
    simp only [Fin.val_ofNat, toNat_beq, Nat.add_assoc, field_mod, Nat.reduceMul]
    omega
theorem encode_of_rowV_high {w : Nat} {l : Lent} {i : Instr} (hw : w < 2 ^ 32) (hl : 24 ≤ w / 33554432) : rowV w l = some i → encode i = w := by
  unfold rowV
  iterate 16 refine of_row (P := fun i => encode i = w) ?_ fun h => absurd h (by omega)
  refine of_row (P := fun i => encode i = w) ?_ fun h => ?_
  iterate 8 refine of_row (P := fun i => encode i = w) ?_ fun h => absurd h (by omega)
  iterate 22 refine of_row (P := fun i => encode i = w) ?_ fun h => ?_
  · exact nofun
  all_goals
    clear hl
    unfold encode
    simp only [Fin.val_ofNat, toNat_beq, Nat.add_assoc, field_mod, Nat.reduceMul]
    omega
theorem encode_of_rowV {w : Nat} {l : Lent} {i : Instr} (hw : w < 2 ^ 32) (h : rowV w l = some i) : encode i = w := by
  by_cases hl : w / 33554432 < 24
  · exact encode_of_rowV_low hw hl h
  · exact encode_of_rowV_high hw (Nat.not_lt.mp hl) h
theorem lend_of_rowV {w : Nat} {l : Lent} (m : Micro) {i : Instr} : rowV w l = some i → i.lend = i.lendClass.pick l m := by
  unfold rowV
  iterate 47 refine of_row (P := fun i : Instr => i.lend = i.lendClass.pick l m) ?_ fun _ => rfl
  exact nofun

theorem rowV_encode_saturating (d a b : Fin 64) (p : Fin 8) (e : Fin 4) (u s : Bool) (sh : Lent) (i : Instr) (h : i ∈ [.vadd d a b p e u s sh, .vsub
    d a b p e u s sh, .vmul d a b p e u s sh]) :
    rowV (encode i) sh = some i := by
  generalize hw : encode i = w
  simp only [List.mem_cons, List.not_mem_nil, or_false] at h
  rcases h with rfl | rfl | rfl
  all_goals
    have := Bool.toNat_lt u
    have := Bool.toNat_lt s
    unfold encode at hw
    simp only [Nat.add_assoc] at hw
    have ho := opcode_slot hw (by omega)
    simp only [rowV, ho, ↓reduceIte, Nat.reduceEqDiff, false_and, Nat.reduceDiv, Nat.reduceMod]
    congr 2
    exacts [ofNat_field (by omega), ofNat_field (by omega), ofNat_field (by omega), ofNat_field (by omega), ofNat_field (by omega), beq_field (by omega), beq_field (by omega)]

theorem rowV_encode_signed (d a b : Fin 64) (p c q : Fin 8) (e : Fin 4) (u : Bool) (sh : Lent) (i : Instr) (h : i ∈ [.vmulh d a b p e u sh, .vmin d a
    b p e u sh, .vmax d a b p e u sh, .vcmp c q a b p u sh]) :
    rowV (encode i) sh = some i := by
  generalize hw : encode i = w
  simp only [List.mem_cons, List.not_mem_nil, or_false] at h
  rcases h with rfl | rfl | rfl | rfl
  all_goals
    have := Bool.toNat_lt u
    unfold encode at hw
    simp only [Nat.add_assoc] at hw
    have ho := opcode_slot hw (by omega)
    simp (disch := omega) only [rowV, ho, ↓reduceIte, Nat.reduceEqDiff, false_and, true_and, Nat.reduceDiv, Nat.reduceMod, if_pos]
    congr 2
    exacts [ofNat_field (by omega), ofNat_field (by omega), ofNat_field (by omega), ofNat_field (by omega), ofNat_field (by omega), beq_field (by omega)]

theorem rowV_encode_words (d a b : Fin 64) (p : Fin 8) (sh : Lent) (e : Fin 4) (i : Instr) (h : i ∈ [.vand d a b p sh, .vor d a b p sh, .vxor d a b p
    sh, .vshl d a b p e sh, .vshr d a b p e sh, .vsra d a b p e sh, .vclz d a p e sh, .vpopc d a p e sh]) :
    rowV (encode i) sh = some i := by
  generalize hw : encode i = w
  simp only [List.mem_cons, List.not_mem_nil, or_false] at h
  rcases h with rfl | rfl | rfl | rfl | rfl | rfl | rfl | rfl
  all_goals
    unfold encode at hw
    simp only [Nat.add_assoc] at hw
    have ho := opcode_slot hw (by omega)
    simp (disch := omega) only [rowV, ho, ↓reduceIte, Nat.reduceEqDiff, false_and, true_and, Nat.reduceDiv, Nat.reduceMod, if_pos]
    congr 2 <;> exact ofNat_field (by omega)

theorem rowV_encode_absolute (d a : Fin 64) (p : Fin 8) (e : Fin 4) (s : Bool) (sh : Lent) (i : Instr) (h : i ∈ [.vabs d a p e s sh, .vneg d a p e s
    sh]) :
    rowV (encode i) sh = some i := by
  generalize hw : encode i = w
  simp only [List.mem_cons, List.not_mem_nil, or_false] at h
  rcases h with rfl | rfl
  all_goals
    have := Bool.toNat_lt s
    unfold encode at hw
    simp only [Nat.add_assoc] at hw
    have ho := opcode_slot hw (by omega)
    simp (disch := omega) only [rowV, ho, ↓reduceIte, Nat.reduceEqDiff, false_and, true_and, Nat.reduceDiv, Nat.reduceMod, if_pos]
    congr 2
    exacts [ofNat_field (by omega), ofNat_field (by omega), ofNat_field (by omega), ofNat_field (by omega), beq_field (by omega)]

theorem rowV_encode_floats (d a b : Fin 64) (p c q f g : Fin 8) (t r k : Fin 4) (sh : Lent) (i : Instr) (h : i ∈ [.vfadd d a b p t r sh, .vfsub d a b
    p t r sh, .vfmul d a b p t r sh, .vfma d a b p t r sh, .vfmin d a b p t sh, .vfmax d a b p t sh, .vfabs d a p t sh, .vfneg d a p t sh, .vfcmp c q
    a b p sh, .vcvt d a f g p k r sh]) :
    rowV (encode i) sh = some i := by
  generalize hw : encode i = w
  simp only [List.mem_cons, List.not_mem_nil, or_false] at h
  rcases h with rfl | rfl | rfl | rfl | rfl | rfl | rfl | rfl | rfl | rfl
  all_goals
    unfold encode at hw
    simp only [Nat.add_assoc] at hw
    have ho := opcode_slot hw (by omega)
    simp (disch := omega) only [rowV, ho, ↓reduceIte, Nat.reduceEqDiff, false_and, true_and, Nat.reduceDiv, Nat.reduceMod, if_pos]
    congr 2 <;> exact ofNat_field (by omega)

theorem rowV_encode_moves (d a b : Fin 64) (q p f : Fin 8) (sh : Lent) (j : Fin 16) (k : Fin 4) (n : Fin 1024) (i : Instr) (h : i ∈ [.vsel d a b q
    sh, .vshuf d a b p sh, .vbcast d a j p sh, .vmovs d a p sh, .vmovsTos d a j sh, .vmov d a p sh, .vxc d a f p k sh, .vaddi d a p n sh, .vli d p n
    sh]) :
    rowV (encode i) sh = some i := by
  generalize hw : encode i = w
  simp only [List.mem_cons, List.not_mem_nil, or_false] at h
  rcases h with rfl | rfl | rfl | rfl | rfl | rfl | rfl | rfl | rfl
  all_goals
    unfold encode at hw
    simp only [Nat.add_assoc] at hw
    have ho := opcode_slot hw (by omega)
    simp (disch := omega) only [rowV, ho, ↓reduceIte, Nat.reduceEqDiff, false_and, true_and, Nat.reduceDiv, Nat.reduceMod, if_pos, if_neg]
    congr 2 <;> exact ofNat_field (by omega)

theorem rowV_encode_sum (d a : Fin 64) (p : Fin 8) (u s : Bool) (sh : Lent) (i : Instr) (h : i ∈ [.vradd d a p u s sh]) :
    rowV (encode i) sh = some i := by
  generalize hw : encode i = w
  simp only [List.mem_cons, List.not_mem_nil, or_false] at h
  subst h
  have := Bool.toNat_lt u
  have := Bool.toNat_lt s
  unfold encode at hw
  simp only [Nat.add_assoc] at hw
  have ho := opcode_slot hw (by omega)
  simp (disch := omega) only [rowV, ho, ↓reduceIte, Nat.reduceEqDiff, false_and, true_and, Nat.reduceDiv, Nat.reduceMod, if_pos]
  congr 2
  exacts [ofNat_field (by omega), ofNat_field (by omega), ofNat_field (by omega), beq_field (by omega), beq_field (by omega)]

theorem rowV_encode_extremes (d a : Fin 64) (p : Fin 8) (u : Bool) (sh : Lent) (i : Instr) (h : i ∈ [.vrmin d a p u sh, .vrmax d a p u sh]) :
    rowV (encode i) sh = some i := by
  generalize hw : encode i = w
  simp only [List.mem_cons, List.not_mem_nil, or_false] at h
  rcases h with rfl | rfl
  all_goals
    have := Bool.toNat_lt u
    unfold encode at hw
    simp only [Nat.add_assoc] at hw
    have ho := opcode_slot hw (by omega)
    simp (disch := omega) only [rowV, ho, ↓reduceIte, Nat.reduceEqDiff, false_and, true_and, Nat.reduceDiv, Nat.reduceMod, if_pos]
    congr 2
    exacts [ofNat_field (by omega), ofNat_field (by omega), ofNat_field (by omega), beq_field (by omega)]

theorem rowV_encode_reductions (d a b : Fin 64) (p : Fin 8) (r : Fin 4) (sh : Lent) (i : Instr) (h : i ∈ [.vfradd d a p r sh, .vfrmin d a p sh,
    .vfrmax d a p sh, .pwld a b sh, .vpwp d a p sh, .brank d a b p sh, .bsel d a b p sh]) :
    rowV (encode i) sh = some i := by
  generalize hw : encode i = w
  simp only [List.mem_cons, List.not_mem_nil, or_false] at h
  rcases h with rfl | rfl | rfl | rfl | rfl | rfl | rfl
  all_goals
    unfold encode at hw
    simp only [Nat.add_assoc] at hw
    have ho := opcode_slot hw (by omega)
    simp (disch := omega) only [rowV, ho, ↓reduceIte, Nat.reduceEqDiff, false_and, true_and, Nat.reduceDiv, Nat.reduceMod, if_pos]
    congr 2 <;> exact ofNat_field (by omega)

theorem rowV_lends {w : Nat} {l : Lent} {x : Lend} {i : Instr} (hl : x.lent = l) (h : rowV w l = some i) : rowV w x.lent = some i := by rw [hl, h]
theorem rowV_encode {i : Instr} (hs : i.slot = 2) : rowV (encode i) i.lend.lent = some i := by
  cases i with
  | vadd d a b p e u s sh | vsub d a b p e u s sh | vmul d a b p e u s sh =>
    exact rowV_lends (by cases sh <;> rfl) (rowV_encode_saturating d a b p e u s sh _ (by simp))
  | vmulh d a b p e u sh | vmin d a b p e u sh | vmax d a b p e u sh =>
    exact rowV_lends (by cases sh <;> rfl) (rowV_encode_signed d a b p 0 0 e u sh _ (by simp))
  | vcmp c q a b p u sh =>
    exact rowV_lends (by cases sh <;> rfl) (rowV_encode_signed 0 a b p c q 0 u sh _ (by simp))
  | vand d a b p sh | vor d a b p sh | vxor d a b p sh =>
    exact rowV_lends (by cases sh <;> rfl) (rowV_encode_words d a b p sh 0 _ (by simp))
  | vshl d a b p e sh | vshr d a b p e sh | vsra d a b p e sh =>
    exact rowV_lends (by cases sh <;> rfl) (rowV_encode_words d a b p sh e _ (by simp))
  | vclz d a p e sh | vpopc d a p e sh =>
    exact rowV_lends (by cases sh <;> rfl) (rowV_encode_words d a 0 p sh e _ (by simp))
  | vabs d a p e s sh | vneg d a p e s sh =>
    exact rowV_lends (by cases sh <;> rfl) (rowV_encode_absolute d a p e s sh _ (by simp))
  | vfadd d a b p t r sh | vfsub d a b p t r sh | vfmul d a b p t r sh | vfma d a b p t r sh =>
    exact rowV_lends (by cases sh <;> rfl) (rowV_encode_floats d a b p 0 0 0 0 t r 0 sh _ (by simp))
  | vfmin d a b p t sh | vfmax d a b p t sh =>
    exact rowV_lends (by cases sh <;> rfl) (rowV_encode_floats d a b p 0 0 0 0 t 0 0 sh _ (by simp))
  | vfabs d a p t sh | vfneg d a p t sh =>
    exact rowV_lends (by cases sh <;> rfl) (rowV_encode_floats d a 0 p 0 0 0 0 t 0 0 sh _ (by simp))
  | vfcmp c q a b p sh =>
    exact rowV_lends (by cases sh <;> rfl) (rowV_encode_floats 0 a b p c q 0 0 0 0 0 sh _ (by simp))
  | vcvt d a f g p k r sh =>
    exact rowV_lends (by cases sh <;> rfl) (rowV_encode_floats d a 0 p 0 0 f g 0 r k sh _ (by simp))
  | vsel d a b q sh =>
    exact rowV_lends (by cases sh <;> rfl) (rowV_encode_moves d a b q 0 0 sh 0 0 0 _ (by simp))
  | vshuf d a b p sh =>
    exact rowV_lends (by cases sh <;> rfl) (rowV_encode_moves d a b 0 p 0 sh 0 0 0 _ (by simp))
  | vbcast d a j p sh =>
    exact rowV_lends (by cases sh <;> rfl) (rowV_encode_moves d a 0 0 p 0 sh j 0 0 _ (by simp))
  | vmovs d a p sh | vmov d a p sh =>
    exact rowV_lends (by cases sh <;> rfl) (rowV_encode_moves d a 0 0 p 0 sh 0 0 0 _ (by simp))
  | vmovsTos d a j sh =>
    exact rowV_lends (by cases sh <;> rfl) (rowV_encode_moves d a 0 0 0 0 sh j 0 0 _ (by simp))
  | vxc d a f p k sh =>
    exact rowV_lends (by cases sh <;> rfl) (rowV_encode_moves d a 0 0 p f sh 0 k 0 _ (by simp))
  | vaddi d a p n sh =>
    exact rowV_lends (by cases sh <;> rfl) (rowV_encode_moves d a 0 0 p 0 sh 0 0 n _ (by simp))
  | vli d p n sh =>
    exact rowV_lends (by cases sh <;> rfl) (rowV_encode_moves d 0 0 0 p 0 sh 0 0 n _ (by simp))
  | vradd d a p u s sh =>
    exact rowV_lends (by cases sh <;> rfl) (rowV_encode_sum d a p u s sh _ (by simp))
  | vrmin d a p u sh | vrmax d a p u sh =>
    exact rowV_lends (by cases sh <;> rfl) (rowV_encode_extremes d a p u sh _ (by simp))
  | vfradd d a p r sh =>
    exact rowV_lends (by cases sh <;> rfl) (rowV_encode_reductions d a 0 p r sh _ (by simp))
  | vfrmin d a p sh | vfrmax d a p sh | vpwp d a p sh =>
    exact rowV_lends (by cases sh <;> rfl) (rowV_encode_reductions d a 0 p 0 sh _ (by simp))
  | pwld a b sh =>
    exact rowV_lends (by cases sh <;> rfl) (rowV_encode_reductions 0 a b 0 0 sh _ (by simp))
  | brank d a b p sh | bsel d a b p sh =>
    exact rowV_lends (by cases sh <;> rfl) (rowV_encode_reductions d a b p 0 sh _ (by simp))
  | _ => cases hs

end Sys2Proof
end

section
/-! Proofs about encodings (R24, R38 to R47): slot 3. A row takes the words of its instruction and no others. -/
namespace Sys2Proof

theorem encode_of_rowW {w : Nat} {l : Lent} {m : Micro} {i : Instr} (hw : w < 2 ^ 32) : rowW w l m = some i → encode i = w := by
  unfold rowW
  iterate 44 refine of_row (P := fun i => encode i = w) ?_ fun h => ?_
  · exact nofun
  all_goals
    unfold encode
    simp only [Fin.val_ofNat, toNat_beq, Nat.add_assoc, field_mod, Nat.reduceMul]
    omega
theorem lend_of_rowW {w : Nat} {l : Lent} {m : Micro} {i : Instr} : rowW w l m = some i → i.lend = i.lendClass.pick l m := by
  unfold rowW
  iterate 44 refine of_row (P := fun i : Instr => i.lend = i.lendClass.pick l m) ?_ fun _ => rfl
  exact nofun


theorem rowW_encode_lfree (l : Lent) (m : Micro) : rowW (encode (.lfree l)) l m = some (.lfree l) := by
  show rowW 838860800 l m = _
  unfold rowW
  simp only [Nat.reduceDiv, Nat.reduceMod, ↓reduceIte, Nat.reduceEqDiff, false_and, and_self]

theorem rowW_encode_stores (d b a : Fin 64) (p : Fin 8) (z e : Fin 4) (o : Fin 256) (l : Lent) (y : Fin 16) (m : Micro) (i : Instr) (h : i ∈ [.st d b
    p z o l, .stv d b p z o l, .sts d a b p z e, .cowst d b p z o l, .talloc d a b p y l, .twr d b p z o l, .snapst b o l]) :
    rowW (encode i) l m = some i := by
  generalize hw : encode i = w
  simp only [List.mem_cons, List.not_mem_nil, or_false] at h
  rcases h with rfl | rfl | rfl | rfl | rfl | rfl | rfl
  all_goals
    unfold encode at hw
    simp only [Nat.add_assoc] at hw
    have ho := opcode_slot hw (by omega)
    simp (disch := omega) only [rowW, ho, ↓reduceIte, Nat.reduceEqDiff, false_and, true_and, Nat.reduceDiv, Nat.reduceMod, if_pos]
    congr 2 <;> exact ofNat_field (by omega)

theorem rowW_encode_copies (a b c : Fin 64) (y : Fin 16) (h : Fin 8) (m : Micro) (l : Lent) (i : Instr) (h : i ∈ [.cpyOut a b c y h m, .cpygOut a b c
    y h m, .cpysOut a b c y h m]) :
    rowW (encode i) l m = some i := by
  generalize hw : encode i = w
  simp only [List.mem_cons, List.not_mem_nil, or_false] at h
  rcases h with rfl | rfl | rfl
  all_goals
    unfold encode at hw
    simp only [Nat.add_assoc] at hw
    have ho := opcode_slot hw (by omega)
    simp only [rowW, ho, ↓reduceIte, Nat.reduceEqDiff, false_and, Nat.reduceDiv, Nat.reduceMod]
    congr 2 <;> exact ofNat_field (by omega)

theorem rowW_encode_fifo (f : Bool) (b c : Fin 64) (y : Fin 16) (h : Fin 8) (m : Micro) (l : Lent) (i : Instr) (h : i ∈ [.cpyfOut f b c y h m]) :
    rowW (encode i) l m = some i := by
  generalize hw : encode i = w
  simp only [List.mem_cons, List.not_mem_nil, or_false] at h
  subst h
  have := Bool.toNat_lt f
  unfold encode at hw
  simp only [Nat.add_assoc] at hw
  have ho := opcode_slot hw (by omega)
  simp (disch := omega) only [rowW, ho, ↓reduceIte, Nat.reduceEqDiff, false_and, true_and, Nat.reduceDiv, Nat.reduceMod, if_pos]
  congr 2
  exacts [beq_field (by omega), ofNat_field (by omega), ofNat_field (by omega), ofNat_field (by omega), ofNat_field (by omega)]

theorem rowW_encode_pages (a b : Fin 64) (h c : Fin 8) (l : Lent) (y : Fin 16) (m : Micro) (i : Instr) (h : i ∈ [.tseal a, .publish a, .publishDef a
    b, .publishUndef a, .drain h c, .fence c, .tlbiVa a, .tlbiPva a b, .tlbiPart b, .pagemv a b h l, .wmap a b y l, .wunmap y]) :
    rowW (encode i) l m = some i := by
  generalize hw : encode i = w
  simp only [List.mem_cons, List.not_mem_nil, or_false] at h
  rcases h with rfl | rfl | rfl | rfl | rfl | rfl | rfl | rfl | rfl | rfl | rfl | rfl
  all_goals
    unfold encode at hw
    simp only [Nat.add_assoc] at hw
    have ho := opcode_slot hw (by omega)
    simp (disch := omega) only [rowW, ho, ↓reduceIte, Nat.reduceEqDiff, false_and, true_and, Nat.reduceDiv, Nat.reduceMod, if_pos, if_neg]
    congr 2 <;> exact ofNat_field (by omega)

theorem rowW_encode_array (a : Fin 64) (l : Lent) (z : Fin 4) (y : Fin 16) (m : Micro) (i : Instr) (h : i ∈ [.lease a l, .mcfg a l, .mdrain a z l,
    .mzero z l, .mwait y l]) :
    rowW (encode i) l m = some i := by
  generalize hw : encode i = w
  simp only [List.mem_cons, List.not_mem_nil, or_false] at h
  rcases h with rfl | rfl | rfl | rfl | rfl
  all_goals
    unfold encode at hw
    simp only [Nat.add_assoc] at hw
    have ho := opcode_slot hw (by omega)
    simp (disch := omega) only [rowW, ho, ↓reduceIte, Nat.reduceEqDiff, false_and, true_and, Nat.reduceDiv, Nat.reduceMod, if_pos]
    congr 2 <;> exact ofNat_field (by omega)

theorem rowW_encode_mma (a : Fin 64) (f g : Fin 32) (s o n v : Bool) (k : Fin 4) (l : Lent) (m : Micro) (i : Instr) (h : i ∈ [.mma a f g s o n v k
    l]) :
    rowW (encode i) l m = some i := by
  generalize hw : encode i = w
  simp only [List.mem_cons, List.not_mem_nil, or_false] at h
  subst h
  have := Bool.toNat_lt s
  have := Bool.toNat_lt o
  have := Bool.toNat_lt n
  have := Bool.toNat_lt v
  unfold encode at hw
  simp only [Nat.add_assoc] at hw
  have ho := opcode_slot hw (by omega)
  simp (disch := omega) only [rowW, ho, ↓reduceIte, Nat.reduceEqDiff, false_and, true_and, Nat.reduceDiv, Nat.reduceMod, if_pos]
  congr 2
  exacts [ofNat_field (by omega), ofNat_field (by omega), ofNat_field (by omega), beq_field (by omega), beq_field (by omega), beq_field (by omega), beq_field (by omega), ofNat_field (by omega)]

theorem rowW_encode_mmv (a : Fin 64) (f g : Fin 32) (r s o n v : Bool) (k : Fin 4) (l : Lent) (m : Micro) (i : Instr) (h : i ∈ [.mmv a f g r s o n v
    k l]) :
    rowW (encode i) l m = some i := by
  generalize hw : encode i = w
  simp only [List.mem_cons, List.not_mem_nil, or_false] at h
  subst h
  have := Bool.toNat_lt r
  have := Bool.toNat_lt s
  have := Bool.toNat_lt o
  have := Bool.toNat_lt n
  have := Bool.toNat_lt v
  unfold encode at hw
  simp only [Nat.add_assoc] at hw
  have ho := opcode_slot hw (by omega)
  simp (disch := omega) only [rowW, ho, ↓reduceIte, Nat.reduceEqDiff, false_and, true_and, Nat.reduceDiv, Nat.reduceMod, if_pos]
  congr 2
  exacts [ofNat_field (by omega), ofNat_field (by omega), ofNat_field (by omega), beq_field (by omega), beq_field (by omega), beq_field (by omega), beq_field (by omega), beq_field (by omega), ofNat_field (by omega)]

theorem rowW_encode_engines (a b c d : Fin 64) (y : Fin 16) (h : Fin 8) (l : Lent) (m : Micro) (i : Instr) (h : i ∈ [.rte a y h l, .apre a y h l,
    .adec a y h l, .kvag a y l, .xsend a b c y h l, .xrecv d a l, .ptrcfg a l, .ptrld a b l, .ptrrun a b c l]) :
    rowW (encode i) l m = some i := by
  generalize hw : encode i = w
  simp only [List.mem_cons, List.not_mem_nil, or_false] at h
  rcases h with rfl | rfl | rfl | rfl | rfl | rfl | rfl | rfl | rfl
  all_goals
    unfold encode at hw
    simp only [Nat.add_assoc] at hw
    have ho := opcode_slot hw (by omega)
    simp (disch := omega) only [rowW, ho, ↓reduceIte, Nat.reduceEqDiff, false_and, true_and, Nat.reduceDiv, Nat.reduceMod, if_pos]
    congr 2 <;> exact ofNat_field (by omega)

theorem rowW_lends {w : Nat} {l : Lent} {m : Micro} {x : Lend} {i : Instr} (hl : x.lent = l) (hm : x.mw = m) (h : rowW w l m = some i) :
    rowW w x.lent x.mw = some i := by rw [hl, hm, h]
theorem rowW_encode {i : Instr} (hs : i.slot = 3) : rowW (encode i) i.lend.lent i.lend.mw = some i := by
  cases i with
  | mark | tlbiOwn | tlbiGlob => rfl
  | lfree l => exact rowW_lends (by cases l <;> rfl) rfl (rowW_encode_lfree l _)
  | st d b p z o l | stv d b p z o l | cowst d b p z o l | twr d b p z o l =>
    exact rowW_lends (by cases l <;> rfl) rfl (rowW_encode_stores d b 0 p z 0 o l 0 _ _ (by simp))
  | sts d a b p z e =>
    exact rowW_encode_stores d b a p z e 0 _ 0 _ _ (by simp)
  | talloc d a b p y l =>
    exact rowW_lends (by cases l <;> rfl) rfl (rowW_encode_stores d b a p 0 0 0 l y _ _ (by simp))
  | snapst b o l =>
    exact rowW_lends (by cases l <;> rfl) rfl (rowW_encode_stores 0 b 0 0 0 0 o l 0 _ _ (by simp))
  | cpyOut a b c y h m | cpygOut a b c y h m | cpysOut a b c y h m =>
    exact rowW_lends rfl (by cases m <;> rfl) (rowW_encode_copies a b c y h m _ _ (by simp))
  | cpyfOut f b c y h m =>
    exact rowW_lends rfl (by cases m <;> rfl) (rowW_encode_fifo f b c y h m _ _ (by simp))
  | tseal a | publish a | publishUndef a | tlbiVa a =>
    exact rowW_encode_pages a 0 0 0 _ 0 _ _ (by simp)
  | publishDef a b | tlbiPva a b =>
    exact rowW_encode_pages a b 0 0 _ 0 _ _ (by simp)
  | drain h c =>
    exact rowW_encode_pages 0 0 h c _ 0 _ _ (by simp)
  | fence c =>
    exact rowW_encode_pages 0 0 0 c _ 0 _ _ (by simp)
  | tlbiPart b =>
    exact rowW_encode_pages 0 b 0 0 _ 0 _ _ (by simp)
  | pagemv a b h l =>
    exact rowW_lends (by cases l <;> rfl) rfl (rowW_encode_pages a b h 0 l 0 _ _ (by simp))
  | wmap a b y l =>
    exact rowW_lends (by cases l <;> rfl) rfl (rowW_encode_pages a b 0 0 l y _ _ (by simp))
  | wunmap y =>
    exact rowW_encode_pages 0 0 0 0 _ y _ _ (by simp)
  | lease a l | mcfg a l =>
    exact rowW_lends (by cases l <;> rfl) rfl (rowW_encode_array a l 0 0 _ _ (by simp))
  | mdrain a z l =>
    exact rowW_lends (by cases l <;> rfl) rfl (rowW_encode_array a l z 0 _ _ (by simp))
  | mzero z l =>
    exact rowW_lends (by cases l <;> rfl) rfl (rowW_encode_array 0 l z 0 _ _ (by simp))
  | mwait y l =>
    exact rowW_lends (by cases l <;> rfl) rfl (rowW_encode_array 0 l 0 y _ _ (by simp))
  | mma a f g s o n v k l =>
    exact rowW_lends (by cases l <;> rfl) rfl (rowW_encode_mma a f g s o n v k l _ _ (by simp))
  | mmv a f g r s o n v k l =>
    exact rowW_lends (by cases l <;> rfl) rfl (rowW_encode_mmv a f g r s o n v k l _ _ (by simp))
  | rte a y h l | apre a y h l | adec a y h l =>
    exact rowW_lends (by cases l <;> rfl) rfl (rowW_encode_engines a 0 0 0 y h l _ _ (by simp))
  | kvag a y l =>
    exact rowW_lends (by cases l <;> rfl) rfl (rowW_encode_engines a 0 0 0 y 0 l _ _ (by simp))
  | xsend a b c y h l =>
    exact rowW_lends (by cases l <;> rfl) rfl (rowW_encode_engines a b c 0 y h l _ _ (by simp))
  | xrecv d a l =>
    exact rowW_lends (by cases l <;> rfl) rfl (rowW_encode_engines a 0 0 d 0 0 l _ _ (by simp))
  | ptrcfg a l =>
    exact rowW_lends (by cases l <;> rfl) rfl (rowW_encode_engines a 0 0 0 0 0 l _ _ (by simp))
  | ptrld a b l =>
    exact rowW_lends (by cases l <;> rfl) rfl (rowW_encode_engines a b 0 0 0 0 l _ _ (by simp))
  | ptrrun a b c l =>
    exact rowW_lends (by cases l <;> rfl) rfl (rowW_encode_engines a b c 0 0 0 l _ _ (by simp))
  | _ => cases hs

end Sys2Proof
end

section
/-! Proofs about encodings (R24, R38 to R47): what a slot decodes, it encodes, and conversely. -/
namespace Sys2Proof

open Laws

/-- The words of the encoder have 32 bits (R25). -/
theorem encode_lt (i : Instr) : encode i < 2 ^ 32 :=
  match i with
  | .nopS .. => Fits.nopS .. | .hdr .. => Fits.hdr .. | .add .. => Fits.add .. | .sub .. => Fits.sub .. | .mul .. => Fits.mul ..
  | .mulh .. => Fits.mulh .. | .and .. => Fits.and .. | .or .. => Fits.or .. | .xor .. => Fits.xor .. | .shl .. => Fits.shl ..
  | .shr .. => Fits.shr .. | .sra .. => Fits.sra .. | .min .. => Fits.min .. | .max .. => Fits.max .. | .addi .. => Fits.addi ..
  | .andi .. => Fits.andi .. | .ori .. => Fits.ori .. | .xori .. => Fits.xori .. | .shli .. => Fits.shli .. | .shri .. => Fits.shri ..
  | .srai .. => Fits.srai .. | .li .. => Fits.li .. | .lih .. => Fits.lih .. | .addsh .. => Fits.addsh .. | .cmp .. => Fits.cmp ..
  | .cmpi .. => Fits.cmpi .. | .plog .. => Fits.plog .. | .clz .. => Fits.clz .. | .popc .. => Fits.popc .. | .sext .. => Fits.sext ..
  | .zext .. => Fits.zext .. | .div .. => Fits.div .. | .rem .. => Fits.rem .. | .br .. => Fits.br .. | .call .. => Fits.call ..
  | .jr .. => Fits.jr .. | .loopImm .. => Fits.loopImm .. | .loopReg .. => Fits.loopReg .. | .bar .. => Fits.bar ..
  | .barComplete .. => Fits.barComplete .. | .waitc .. => Fits.waitc .. | .sstep .. => Fits.sstep .. | .tspawn .. => Fits.tspawn ..
  | .park .. => Fits.park .. | .yield .. => Fits.yield .. | .tdone .. => Fits.tdone .. | .trap .. => Fits.trap .. | .eret .. => Fits.eret ..
  | .snaprel .. => Fits.snaprel .. | .rdms .. => Fits.rdms .. | .wrms .. => Fits.wrms .. | .halt .. => Fits.halt .. | .ld .. => Fits.ld ..
  | .ldv .. => Fits.ldv .. | .ldg .. => Fits.ldg .. | .ldb .. => Fits.ldb .. | .tagq .. => Fits.tagq .. | .tagset .. => Fits.tagset ..
  | .tagclr .. => Fits.tagclr .. | .tld .. => Fits.tld .. | .tdrop .. => Fits.tdrop .. | .tcnt .. => Fits.tcnt ..
  | .tcntWait .. => Fits.tcntWait .. | .aadd .. => Fits.aadd .. | .amin .. => Fits.amin .. | .amax .. => Fits.amax .. | .aand .. => Fits.aand ..
  | .aor .. => Fits.aor .. | .axor .. => Fits.axor .. | .aswp .. => Fits.aswp .. | .acas .. => Fits.acas .. | .cpyIn .. => Fits.cpyIn ..
  | .cpygIn .. => Fits.cpygIn .. | .cpysIn .. => Fits.cpysIn .. | .cpyfIn .. => Fits.cpyfIn .. | .shape .. => Fits.shape ..
  | .hread .. => Fits.hread .. | .hwait .. => Fits.hwait .. | .hstat .. => Fits.hstat .. | .hrel .. => Fits.hrel .. | .gload .. => Fits.gload ..
  | .vadd .. => Fits.vadd .. | .vsub .. => Fits.vsub .. | .vmul .. => Fits.vmul .. | .vmulh .. => Fits.vmulh .. | .vmin .. => Fits.vmin ..
  | .vmax .. => Fits.vmax .. | .vand .. => Fits.vand .. | .vor .. => Fits.vor .. | .vxor .. => Fits.vxor .. | .vshl .. => Fits.vshl ..
  | .vshr .. => Fits.vshr .. | .vsra .. => Fits.vsra .. | .vabs .. => Fits.vabs .. | .vneg .. => Fits.vneg .. | .vclz .. => Fits.vclz ..
  | .vpopc .. => Fits.vpopc .. | .vfadd .. => Fits.vfadd .. | .vfsub .. => Fits.vfsub .. | .vfmul .. => Fits.vfmul .. | .vfma .. => Fits.vfma ..
  | .vfmin .. => Fits.vfmin .. | .vfmax .. => Fits.vfmax .. | .vfabs .. => Fits.vfabs .. | .vfneg .. => Fits.vfneg .. | .vcmp .. => Fits.vcmp ..
  | .vfcmp .. => Fits.vfcmp .. | .vsel .. => Fits.vsel .. | .vshuf .. => Fits.vshuf .. | .vbcast .. => Fits.vbcast .. | .vmovs .. => Fits.vmovs ..
  | .vmovsTos .. => Fits.vmovsTos .. | .vmov .. => Fits.vmov .. | .vradd .. => Fits.vradd .. | .vrmin .. => Fits.vrmin ..
  | .vrmax .. => Fits.vrmax .. | .vfradd .. => Fits.vfradd .. | .vfrmin .. => Fits.vfrmin .. | .vfrmax .. => Fits.vfrmax ..
  | .vcvt .. => Fits.vcvt .. | .vxc .. => Fits.vxc .. | .pwld .. => Fits.pwld .. | .vpwp .. => Fits.vpwp .. | .brank .. => Fits.brank ..
  | .bsel .. => Fits.bsel .. | .vaddi .. => Fits.vaddi .. | .vli .. => Fits.vli .. | .st .. => Fits.st .. | .stv .. => Fits.stv ..
  | .sts .. => Fits.sts .. | .cowst .. => Fits.cowst .. | .talloc .. => Fits.talloc .. | .twr .. => Fits.twr .. | .tseal .. => Fits.tseal ..
  | .cpyOut .. => Fits.cpyOut .. | .cpygOut .. => Fits.cpygOut .. | .cpysOut .. => Fits.cpysOut .. | .cpyfOut .. => Fits.cpyfOut ..
  | .publish .. => Fits.publish .. | .publishDef .. => Fits.publishDef .. | .publishUndef .. => Fits.publishUndef .. | .drain .. => Fits.drain ..
  | .fence .. => Fits.fence .. | .tlbiVa .. => Fits.tlbiVa .. | .tlbiPva .. => Fits.tlbiPva .. | .tlbiPart .. => Fits.tlbiPart ..
  | .pagemv .. => Fits.pagemv .. | .wmap .. => Fits.wmap .. | .wunmap .. => Fits.wunmap .. | .lease .. => Fits.lease ..
  | .lfree .. => Fits.lfree .. | .mcfg .. => Fits.mcfg .. | .mma .. => Fits.mma .. | .mmv .. => Fits.mmv .. | .mdrain .. => Fits.mdrain ..
  | .mzero .. => Fits.mzero .. | .mwait .. => Fits.mwait .. | .rte .. => Fits.rte .. | .apre .. => Fits.apre .. | .adec .. => Fits.adec ..
  | .kvag .. => Fits.kvag .. | .xsend .. => Fits.xsend .. | .xrecv .. => Fits.xrecv .. | .ptrcfg .. => Fits.ptrcfg .. | .ptrld .. => Fits.ptrld ..
  | .ptrrun .. => Fits.ptrrun .. | .snapst .. => Fits.snapst .. | .registerWriteLands .. => Fits.registerWriteLands ..
  | .interlockedResultArrives .. => Fits.interlockedResultArrives .. | .trapEntry .. => Fits.trapEntry .. | .pageWalk .. => Fits.pageWalk ..
  | .copySegment .. => Fits.copySegment .. | .copyComplete .. => Fits.copyComplete .. | .pagemvCopyComplete .. => Fits.pagemvCopyComplete ..
  | .hotRegionSwap .. => Fits.hotRegionSwap .. | .pseudoChannelPowerDown .. => Fits.pseudoChannelPowerDown ..
  | .pseudoChannelSelfRefresh .. => Fits.pseudoChannelSelfRefresh .. | .stackRetrain .. => Fits.stackRetrain ..
  | .handleRequestArrives .. => Fits.handleRequestArrives .. | .flashPageRead .. => Fits.flashPageRead ..
  | .relocationSwitch .. => Fits.relocationSwitch .. | .oldBlockErase .. => Fits.oldBlockErase .. | .rebuild .. => Fits.rebuild ..
  | .relocate .. => Fits.relocate .. | .retire .. => Fits.retire .. | .refill .. => Fits.refill ..
  | .ftlCommandComplete .. => Fits.ftlCommandComplete .. | .pointerRun .. => Fits.pointerRun ..
  | .tallocRequestArrives .. => Fits.tallocRequestArrives .. | .tallocGrant .. => Fits.tallocGrant ..
  | .tileAccessArrives .. => Fits.tileAccessArrives .. | .leaseGrant .. => Fits.leaseGrant .. | .turnGrant .. => Fits.turnGrant ..
  | .matrixCommandRetire .. => Fits.matrixCommandRetire .. | .groupPartArrives .. => Fits.groupPartArrives ..
  | .drainRowLeaves .. => Fits.drainRowLeaves .. | .attentionCommandComplete .. => Fits.attentionCommandComplete ..
  | .capacityRequest .. => Fits.capacityRequest .. | .routingRound .. => Fits.routingRound .. | .xsendBinding .. => Fits.xsendBinding ..
  | .landing .. => Fits.landing .. | .xrecvRequestArrives .. => Fits.xrecvRequestArrives .. | .superstepBoundary .. => Fits.superstepBoundary ..
  | .frameStart .. => Fits.frameStart .. | .deferredFrameStart .. => Fits.deferredFrameStart .. | .frameAdvance .. => Fits.frameAdvance ..
  | .taskInsertion .. => Fits.taskInsertion .. | .taskReady .. => Fits.taskReady .. | .taskDispatch .. => Fits.taskDispatch ..
  | .continuationResume .. => Fits.continuationResume .. | .parkWake .. => Fits.parkWake .. | .launchWindowWrite .. => Fits.launchWindowWrite ..
  | .hostMemWrite .. => Fits.hostMemWrite .. | .hostMemRead .. => Fits.hostMemRead .. | .pod .. => Fits.pod .. | .loadw .. => Fits.loadw ..
  | .weightChunk .. => Fits.weightChunk .. | .attest .. => Fits.attest .. | .fwstage .. => Fits.fwstage ..
  | .podBarrierMessage .. => Fits.podBarrierMessage .. | .podBarrierRelease .. => Fits.podBarrierRelease .. | .ptpMessage .. => Fits.ptpMessage ..
  | .keepcfgWrite .. => Fits.keepcfgWrite .. | .poolbaseWrite .. => Fits.poolbaseWrite .. | .srseedWrite .. => Fits.srseedWrite ..
  | .ttbaseWrite .. => Fits.ttbaseWrite .. | .kpartWrite .. => Fits.kpartWrite .. | .sscfgWrite .. => Fits.sscfgWrite ..
  | .sliceWrite .. => Fits.sliceWrite .. | .pstateHalt .. => Fits.pstateHalt .. | .pstateResume .. => Fits.pstateResume ..
  | .svackRelease .. => Fits.svackRelease .. | .svackEnd .. => Fits.svackEnd .. | .svqRecordWrite .. => Fits.svqRecordWrite ..
  | .haltLineArrives .. => Fits.haltLineArrives .. | .halted .. => Fits.halted .. | .sliceEnd .. => Fits.sliceEnd ..
  | .preemptionUnitSave .. => Fits.preemptionUnitSave .. | .preemptionComplete .. => Fits.preemptionComplete ..
  | .bringupStageComplete .. => Fits.bringupStageComplete .. | .storePerformed .. => Fits.storePerformed ..
  | .instructionFetchMissReturn .. => Fits.instructionFetchMissReturn .. | .routingPassComplete .. => Fits.routingPassComplete ..
  | .portLaneChange .. => Fits.portLaneChange .. | .loadwDoneReport .. => Fits.loadwDoneReport .. | .nop => Fits.nop | .loopEnd => Fits.loopEnd
  | .mark => Fits.mark | .tlbiOwn => Fits.tlbiOwn | .tlbiGlob => Fits.tlbiGlob | .beaconTick => Fits.beaconTick
  | .installTemplate => Fits.installTemplate | .launchTasks => Fits.launchTasks | .removeTemplate => Fits.removeTemplate
  | .tearDownPartition => Fits.tearDownPartition | .loadwSwitch => Fits.loadwSwitch | .linkRetry => Fits.linkRetry
  | .keeperWindow => Fits.keeperWindow | .powerUp => Fits.powerUp | .cxlReset => Fits.cxlReset | .powerOff => Fits.powerOff
theorem slot_lt_four (i : Instr) : i.slot < 4 := by
  cases i <;> exact Nat.le_of_ble_eq_true rfl

theorem checkInstr_eq_ok {i j : Instr} {x : Lend} : checkInstr i x = .ok j ↔ i.lendClass.takes x = true ∧ i.wf = true ∧ i = j := by
  unfold checkInstr
  cases i.lendClass.takes x <;> cases i.wf <;> simp
/-- What a slot answers: its row takes the word, and the last checks pass. -/
theorem of_decoded {o : Option Instr} {e : Reject} {i : Instr} {x : Lend}
    (h : (match o with | some j => checkInstr j x | none => .error e) = .ok i) : o = some i ∧ i.lendClass.takes x = true ∧ i.wf = true := by
  cases o with
  | none => cases h
  | some j =>
    obtain ⟨ht, hw, rfl⟩ := checkInstr_eq_ok.mp h
    exact ⟨rfl, ht, hw⟩
/-- Settles O40: the row that takes a word answers the instruction that has it. -/
theorem decodeThenEncode : Obligations.DecodeThenEncode := by
  intro k w x i hk hw h
  match k with
  | 0 =>
    refine and_assoc.mp ⟨?_, fun hk => absurd rfl hk⟩
    change decodeSlot0 w = .ok i at h
    unfold decodeSlot0 at h
    split at h
    case isTrue hb =>
      obtain ⟨-, hf, rfl⟩ := checkInstr_eq_ok.mp h
      exact ⟨hf, encode_rowH hw hb⟩
    case isFalse hb =>
      obtain ⟨hr, -, hf⟩ := of_decoded h
      exact ⟨hf, encode_of_rowS (by omega) hr⟩
  | 1 =>
    obtain ⟨hr, ht, hf⟩ := of_decoded h
    exact ⟨hf, encode_of_rowL hw hr, fun _ => (lend_of_rowL hr).trans (LendClass.pick_of_takes ht)⟩
  | 2 =>
    obtain ⟨hr, ht, hf⟩ := of_decoded h
    exact ⟨hf, encode_of_rowV hw hr, fun _ => (lend_of_rowV x.mw hr).trans (LendClass.pick_of_takes ht)⟩
  | 3 =>
    obtain ⟨hr, ht, hf⟩ := of_decoded h
    exact ⟨hf, encode_of_rowW hw hr, fun _ => (lend_of_rowW hr).trans (LendClass.pick_of_takes ht)⟩

/-- Settles O39: the word of an instruction is taken by its own row, which the last checks pass. -/
theorem encodeThenDecode : Obligations.EncodeThenDecode := by
  intro i hf hw
  refine ⟨encode_lt i, ?_⟩
  match hs : i.slot with
  | 0 =>
    show decodeSlot0 (encode i) = .ok i
    rw [decodeSlot0_encode hs hf]
    exact checkInstr_eq_ok.mpr ⟨by cases i.lendClass <;> rfl, hw, rfl⟩
  | 1 =>
    have hr := rowL_encode hs
    show (match rowL (encode i) i.lend.lent i.lend.mw with | some j => checkInstr j i.lend | none => .error _) = .ok i
    rw [hr]
    exact checkInstr_eq_ok.mpr ⟨(congrArg _ (lend_of_rowL hr)).trans (LendClass.takes_pick ..), hw, rfl⟩
  | 2 =>
    have hr := rowV_encode hs
    show (match rowV (encode i) i.lend.lent with | some j => checkInstr j i.lend | none => .error _) = .ok i
    rw [hr]
    exact checkInstr_eq_ok.mpr ⟨(congrArg _ (lend_of_rowV i.lend.mw hr)).trans (LendClass.takes_pick ..), hw, rfl⟩
  | 3 =>
    have hr := rowW_encode hs
    show (match rowW (encode i) i.lend.lent i.lend.mw with | some j => checkInstr j i.lend | none => .error _) = .ok i
    rw [hr]
    exact checkInstr_eq_ok.mpr ⟨(congrArg _ (lend_of_rowW hr)).trans (LendClass.takes_pick ..), hw, rfl⟩
  | n + 4 => exact absurd (slot_lt_four i) (by omega)

end Sys2Proof
end

section
/-! Proofs about memory (O46), first part: what no function but a writer of memory changes. Each lemma `f_mem` says that `f` leaves `mem` as it is. -/
namespace Sys2Proof.Machine
open Sys2Proof
/-- A fold of steps that leave memory as it is. -/
theorem foldl_mem {α : Type} {f : State → α → State} (h : ∀ s a, (f s a).mem = s.mem) : ∀ (l : List α) (s : State), (l.foldl f s).mem = s.mem
  | [], _ => rfl
  | a :: l, s => (foldl_mem h l (f s a)).trans (h s a)

@[simp] theorem scheduleOnce_mem (s : State) (dt : Nat) (i : Instr) : (s.scheduleOnce dt i).mem = s.mem := by
  unfold State.scheduleOnce
  split <;> simp
@[simp] theorem scheduleBy_mem (s : State) (dt : Nat) (i : Instr) : (s.scheduleBy dt i).mem = s.mem := by
  unfold State.scheduleBy
  split <;> simp
@[simp] theorem push_mem (s : State) (slot lat : Nat) (w : Payload) : (s.push slot lat w).mem = s.mem := rfl
@[simp] theorem pushS_mem (s : State) (slot lat r : Nat) (v : W64) : (s.pushS slot lat r v).mem = s.mem := rfl
@[simp] theorem pend_mem (s : State) (keys : List Nat) (value : Option Payload) (lat : Nat) : (s.pend keys value lat).2.mem = s.mem := by
  unfold State.pend
  split <;> simp
@[simp] theorem flowDrain_mem (s : State) (c : Nat) : (s.flowDrain c).mem = s.mem := by
  unfold State.flowDrain
  dsimp only
  repeat' split
  all_goals rfl
@[simp] theorem queueRecord_mem (s : State) (d : Nat) (r : List Byte) (who : Option Party) : (s.queueRecord d r who).mem = s.mem := rfl
@[simp] theorem containCore_mem (s : State) (c code sub : Nat) (info : W64) (progress : Nat := 0) : (s.containCore c code sub info progress).mem = s.mem := rfl
@[simp] theorem trapTo_mem (s : State) (f : FaultInfo) (epc : W64) (t : Nat) : (s.trapTo f epc t).mem = s.mem := rfl
@[simp] theorem trap_mem (s : State) (f : FaultInfo) (epc : W64) (t : Nat) : (s.trap f epc t).mem = s.mem := by
  unfold State.trap
  dsimp only
  repeat' split
  all_goals simp [coreHalt_mem]
@[simp] theorem countEcc_mem (s : State) (f : FaultInfo) : (s.countEcc f).mem = s.mem := by
  unfold State.countEcc
  split <;> simp
@[simp] theorem takeFault_mem (s : State) (f : FaultInfo) : (s.takeFault f).mem = s.mem := by
  unfold State.takeFault
  repeat' split
  all_goals simp [coreHalt_mem]
@[simp] theorem branch_mem (s : State) (target : W64) : (s.branch target).mem = s.mem := rfl
@[simp] theorem eretTo_mem (s : State) (target : W64) (src : Buffer) (st : Nat) : (s.eretTo target src st).mem = s.mem := rfl
@[simp] theorem keepcfgSet_mem (s : State) (v : W64) : (s.keepcfgSet v).mem = s.mem := rfl
@[simp] theorem poolbaseSet_mem (s : State) (v : W64) : (s.poolbaseSet v).mem = s.mem := by
  unfold State.poolbaseSet
  split <;> simp
@[simp] theorem freeTile_mem (s : State) (d ix : Nat) : (s.freeTile d ix).mem = s.mem := by
  unfold State.freeTile
  dsimp only
  repeat' split
  all_goals rfl
@[simp] theorem reach_mem (s : State) (pa : Nat) : (s.reach pa).mem = s.mem := by
  unfold State.reach
  dsimp only
  repeat' split
  all_goals rfl
@[simp] theorem touchLines_mem (s : State) (pa n : Nat) : (s.touchLines pa n).mem = s.mem := foldl_mem (fun s _ => touch_mem s _ _) _ _
@[simp] theorem enter_mem (s : State) (lat : Nat) (w : PathStore) : (s.enter lat w).mem = s.mem := rfl
@[simp] theorem tileWrite_mem (s : State) (w : PathStore) (d ix g : Nat) : (s.tileWrite w d ix g).mem = s.mem := by
  unfold State.tileWrite
  repeat' split
  all_goals simp [unitHalt_mem, coreHalt_mem, writeTile_mem]
@[simp] theorem noteRelease_mem (s : State) (c : Nat) : (s.noteRelease c).mem = s.mem := by
  unfold State.noteRelease
  dsimp only
  split <;> simp
@[simp] theorem beginWalk_mem (s : State) (d : Nat) (w : Nat × Nat × Nat) : (s.beginWalk d w).mem = s.mem := rfl
@[simp] theorem missed_mem (s : State) (c p vpn : Nat) : (s.missed c p vpn).mem = s.mem := by
  unfold State.missed
  simp [startWalk_mem]
@[simp] theorem bumpStack_mem (s : State) (e st lo : Nat) : (s.bumpStack e st lo).mem = s.mem := rfl
@[simp] theorem dropStack_mem (s : State) (e st lo : Nat) : (s.dropStack e st lo).mem = s.mem := rfl
@[simp] theorem bumpClass_mem (s : State) (e b lo w n : Nat) : (s.bumpClass e b lo w n).mem = s.mem := by
  unfold State.bumpClass
  split <;> simp
@[simp] theorem setFlash_mem (s : State) (e : Nat) (f : Flash) : (s.setFlash e f).mem = s.mem := rfl
@[simp] theorem setBlock_mem (s : State) (e b : Nat) (f : Flash) : (s.setBlock e b f).mem = s.mem := by
  unfold State.setBlock
  dsimp only
  rw [foldl_mem (by simp), foldl_mem (by simp), setFlash_mem]
@[simp] theorem retireBlock_mem (s : State) (e b : Nat) : (s.retireBlock e b).mem = s.mem := by
  unfold State.retireBlock
  simp
@[simp] theorem eraseBlock_mem (s : State) (e b : Nat) : (s.eraseBlock e b).mem = s.mem := by
  unfold State.eraseBlock
  dsimp only
  split <;> simp
@[simp] theorem giveBack_mem (s : State) (e b : Nat) : (s.giveBack e b).mem = s.mem := by
  unfold State.giveBack
  dsimp only
  split <;> simp
@[simp] theorem takeFresh_mem (e near : Nat) (only : Bool) : ∀ (s : State) (n : Nat), (s.takeFresh e near only n).1.mem = s.mem
  | s, 0 => rfl
  | s, n + 1 => by
    unfold State.takeFresh
    have ih := fun s => takeFresh_mem e near only s n
    grind [retireBlock_mem, setBlock_mem]
@[simp] theorem takeSpare_mem (s : State) (e near : Nat) (only : Bool) : (s.takeSpare e near only).1.mem = s.mem := takeFresh_mem _ _ _ _ _
@[simp] theorem startRelocation_mem (s : State) (e b : Nat) : (s.startRelocation e b).mem = s.mem := by
  unfold State.startRelocation
  have h := takeSpare_mem s e (stackOf b) (decide (allBlocks ≤ b))
  split
  case h_1 heq => rw [heq] at h; exact h
  case h_2 heq => rw [heq] at h; simpa using h
@[simp] theorem countPage_mem (s : State) (e pp : Nat) : (s.countPage e pp).mem = s.mem := by
  unfold State.countPage
  dsimp only
  split <;> simp
@[simp] theorem countRead_mem (s : State) (e pp : Nat) : (s.countRead e pp).mem = s.mem := by
  unfold State.countRead
  dsimp only
  split
  · rw [bumpClass_mem, foldl_mem (by simp)]
  · simp
@[simp] theorem awaitRepair_mem (s : State) (e lp d : Nat) (r : List Byte) : (s.awaitRepair e lp d r).mem = s.mem := by
  unfold State.awaitRepair
  dsimp only
  split <;> simp
@[simp] theorem countPlaces_mem (s : State) (c : Nat) (ps : List (Place × Nat)) : (s.countPlaces c ps).mem = s.mem := by
  unfold State.countPlaces
  dsimp only
  rw [foldl_mem ?_, foldl_mem (by simp)]
  intro s p
  split
  · rw [touch_mem, noteTraffic_mem]
  · rfl
@[simp] theorem pageHold_mem (s : State) (e lp : Nat) (va : W64) : (s.pageHold e lp va).mem = s.mem := by
  unfold State.pageHold
  simp
@[simp] theorem stallQuad_mem (s : State) (q : Nat) : (s.stallQuad q).mem = s.mem := foldl_mem (fun s a => by dsimp only; split <;> simp) _ _
@[simp] theorem joinReplay_mem (s : State) (va : W64) : (s.joinReplay va).mem = s.mem := by
  unfold State.joinReplay
  dsimp only
  repeat' split
  all_goals simp
@[simp] theorem joinAll_mem (s : State) (a : Acc) (vas : List W64) : (s.joinAll a vas).mem = s.mem := by
  refine foldl_mem (fun s a => ?_) _ _
  split <;> simp
@[simp] theorem pushV_mem (s : State) (sh : Lent) (lat : Nat) (d : Fin 64) (lanes : Pred) (f : Nat → Nat → Row) : (s.pushV sh lat d lanes f).mem = s.mem := rfl
@[simp] theorem drew_mem (s : State) (p g mode n : Nat) : (s.drew p g mode n).mem = s.mem := by
  unfold State.drew
  split <;> simp
@[simp] theorem drewBlock_mem (s : State) (sh : Lent) (mode cnt : Nat) (lanes : Pred) (red : Bool) : (s.drewBlock sh mode cnt lanes red).mem = s.mem := foldl_mem (fun s a => by simp) _ _
@[simp] theorem mapLaps_mem (s : State) (c : Nat) (f : Nat → Nat → Overlap → Overlap) : (s.mapLaps c f).mem = s.mem := by
  unfold State.mapLaps
  split <;> simp
@[simp] theorem noteSlots_mem (s : State) (p va n : Nat) : (s.noteSlots p va n).mem = s.mem := by
  unfold State.noteSlots
  split <;> simp
@[simp] theorem noteHist_mem (s : State) (va n : Nat) : (s.noteHist va n).mem = s.mem := by
  unfold State.noteHist
  split <;> simp
@[simp] theorem noteLoads_mem (s : State) (ls : List (Nat × Nat)) : (s.noteLoads ls).mem = s.mem := foldl_mem (fun s a => by simp) _ _
@[simp] theorem noteSends_mem (s : State) (va k : Nat) (old : Nat → List Byte) (n : Nat) : (s.noteSends va k old n).mem = s.mem := rfl
@[simp] theorem counted_mem (s : State) (c : Nat) (xs : List (List Byte × W64 × Place)) : (s.counted c xs).mem = s.mem := by
  unfold State.counted
  simp
@[simp] theorem countSpan_mem (s : State) (va : W64) (n : Nat) : (s.countSpan va n).mem = s.mem := by
  unfold State.countSpan
  split <;> simp
@[simp] theorem arrive_mem (s : State) (c id : Nat) : (s.arrive c id).mem = s.mem := by
  unfold State.arrive
  dsimp only
  repeat' split
  all_goals rfl
@[simp] theorem makeTile_mem (s : State) (d p : Nat) (r : TReq) : (s.makeTile d p r).2.mem = s.mem := rfl
@[simp] theorem deliverTile_mem (s : State) (c p : Nat) (ent : Option Nat) (r : TReq) (va : W64) : (s.deliverTile c p ent r va).mem = s.mem := by
  unfold State.deliverTile
  dsimp only
  repeat' split
  all_goals rfl
@[simp] theorem grantWalk_mem (d : Nat) : ∀ (s : State) (rs : List (Nat × TReq × Nat × Option Nat)) (ps : List Nat) (b : Bool), (s.grantWalk d rs ps b).mem = s.mem
  | _, [], _, _ => rfl
  | s, (c, r, p, e) :: t, ps, b => by
    unfold State.grantWalk
    have ih := fun s => grantWalk_mem d s t
    grind [makeTile_mem, deliverTile_mem, State.setDie_mem]
@[simp] theorem grantTiles_mem (s : State) (d : Nat) : (s.grantTiles d).mem = s.mem := by
  unfold State.grantTiles
  simp
@[simp] theorem considerNew_mem (s : State) (d : Nat) (r : Nat × TReq × Nat × Option Nat) : (s.considerNew d r).mem = s.mem := by
  unfold State.considerNew
  simp
@[simp] theorem tallocArrives_mem (s : State) (c : Nat) : (s.tallocArrives c).mem = s.mem := by
  unfold State.tallocArrives
  dsimp only
  repeat' split
  all_goals simp
@[simp] theorem sendPieces_mem : ∀ (ps : List (Place × List Byte)) (s : State), (s.sendPieces ps).mem = s.mem
  | [], _ => rfl
  | (p, b) :: t, s => by
    cases p with
    | tile d ix g o => exact (sendPieces_mem t _).trans (enter_mem _ _ _)
    | phys pa => exact sendPieces_mem t s
    | host o => exact sendPieces_mem t s
    | flash e o => exact sendPieces_mem t s
@[simp] theorem consume_mem (s : State) (d ix : Nat) (t : Tile) : (s.consume d ix t).mem = s.mem := by
  unfold State.consume
  split <;> simp
@[simp] theorem reclaim_mem (s : State) (d ix : Nat) (t : Tile) : (s.reclaim d ix t).mem = s.mem := by
  unfold State.reclaim
  simp
@[simp] theorem countLives_mem (s : State) (p : Nat) : (s.countLives p).mem = s.mem := by
  unfold State.countLives
  dsimp only
  have h := foldl_mem (f := fun (s : State) (e : Nat × Nat × Tile) => if decide (e.2.2.life ≤ 1) && decide (0 < e.2.2.count) then s.reclaim e.1 e.2.1 e.2.2 else s.setDie e.1 { s.die e.1 with tiles := tset (s.die e.1).tiles e.2.1 { e.2.2 with life := e.2.2.life - 1 } }) (fun s a => by dsimp only; split <;> simp)
  split
  · exact (unitHalt_mem _ _ _ _ _ _).trans (h _ _)
  · exact h _ _
@[simp] theorem wakeHandle_mem (s : State) (word : Nat) : (s.wakeHandle word).mem = s.mem := by
  refine foldl_mem (fun s a => foldl_mem (fun s a => ?_) _ _) _ _
  split <;> rfl
@[simp] theorem kickStack_mem (s : State) (e st dt : Nat) : (s.kickStack e st dt).mem = s.mem := by
  unfold State.kickStack
  dsimp only
  repeat' split
  all_goals rfl
@[simp] theorem kickFlash_mem (s : State) (e : Nat) : (s.kickFlash e).mem = s.mem := foldl_mem (fun s a => by simp) _ _
@[simp] theorem doneUnits_mem (s : State) (e k : Nat) (us : List Nat) (lp : Nat) (repaired : Bool) : (s.doneUnits e k us lp repaired).mem = s.mem := by
  unfold State.doneUnits
  dsimp only
  repeat' split
  all_goals simp
@[simp] theorem answer_mem (s : State) (c id : Nat) (w : Nat → Payload) (dt : Nat) : (s.answer c id w dt).mem = s.mem := by
  unfold State.answer
  dsimp only
  repeat' split
  all_goals rfl
@[simp] theorem sendReq_mem (s : State) (r : Req) (d : Nat) (ev : Nat → Instr) : (s.sendReq r d ev).mem = s.mem := rfl
@[simp] theorem tell_mem (s : State) (c p fault : Nat) (v : W64) : (s.tell c p fault v).mem = s.mem := by
  unfold State.tell
  dsimp only
  split <;> simp
@[simp] theorem takeSlot_mem (s : State) (e k : Nat) (src dst : W64) (n p core : Nat) (tag : Nat) (pc : W64) (priv : Nat) (coop pre : Bool) (life : Nat) : (s.takeSlot e k src dst n p core tag pc priv coop pre life).mem = s.mem := by
  unfold State.takeSlot
  simp
@[simp] theorem ptrCount_mem (s : State) (d lo : Nat) : (s.ptrCount d lo).mem = s.mem := rfl
@[simp] theorem hreadArrives_mem (s : State) (c p e : Nat) (src dst : W64) (n tag : Nat) (pc : W64) (priv : Nat) (coop : Bool) : (s.hreadArrives c p e src dst n tag pc priv coop).mem = s.mem := by
  unfold State.hreadArrives
  dsimp only
  repeat' split
  all_goals simp
@[simp] theorem ftlEnd_mem (s : State) (e r : Nat) : (s.ftlEnd e r).mem = s.mem := rfl
@[simp] theorem remapPage_mem (s : State) (e lp : Nat) : (s.remapPage e lp).mem = s.mem := by
  unfold State.remapPage
  dsimp only
  cases tget (s.flash e).opened (stackOf ((s.flash e).phys lp / 256)) with
  | some pp => simp
  | none =>
    have h := takeSpare_mem s e (stackOf ((s.flash e).phys lp / 256)) false
    generalize s.takeSpare e (stackOf ((s.flash e).phys lp / 256)) false = z at h ⊢
    obtain ⟨u, b⟩ := z
    cases b <;> simpa using h
@[simp] theorem moveBlock_mem (s : State) (e lp : Nat) : (s.moveBlock e lp).mem = s.mem := by
  unfold State.moveBlock
  dsimp only
  split <;> simp
@[simp] theorem countSoft_mem (s : State) (e : Nat) (pages : List Nat) : (s.countSoft e pages).mem = s.mem := foldl_mem (fun s a => by simp) _ _
@[simp] theorem copyBlock_mem (s : State) (e : Nat) (ps : List (Nat × Nat)) : (s.copyBlock e ps).mem = s.mem := by
  unfold State.copyBlock
  dsimp only
  rw [setFlash_mem, foldl_mem (by simp), countSoft_mem]
@[simp] theorem switchParity_mem (s : State) (e k b : Nat) : (s.switchParity e k b).mem = s.mem := by
  unfold State.switchParity
  simp
@[simp] theorem oldErase_mem (s : State) (e k b : Nat) : (s.oldErase e k b).mem = s.mem := by
  unfold State.oldErase
  dsimp only
  repeat' split
  all_goals simp
/-- What is read after what has been read leaves memory as it is, where both do. -/
theorem andThen_mem {α β : Type} {e : Eng α} {f : State → α → Eng β} (s : State) (he : e.state.mem = s.mem)
    (hf : ∀ u v, u.mem = s.mem → (f u v).state.mem = s.mem) : (e.andThen f).state.mem = s.mem := by
  cases e with
  | ok u v => exact hf u v he
  | stop u w => exact he
@[simp] theorem orElse_state {α : Type} (e : Eng α) (v : α) : (e.orElse v).state = e.state := by
  cases e with
  | ok u x => rfl
  | stop u w => cases w <;> rfl
@[simp] theorem used_mem (s : State) (l : Overlap) : (s.used l).mem = s.mem := by
  unfold State.used
  split <;> simp
@[simp] theorem engPieces_mem (x : Ctx) (l : Overlap) (a : Acc) : ∀ (s : State) (rs : List (Nat × Nat)), (s.engPieces x l a rs).state.mem = s.mem
  | _, [] => rfl
  | s, (va, n) :: t => by
    unfold State.engPieces
    have ih := fun s => engPieces_mem x l a s t
    grind [Eng.state, engineTranslate_mem]
@[simp] theorem engReads_mem (s : State) (x : Ctx) (l : Overlap) (a : Acc) (rs : List (Nat × Nat)) : (s.engReads x l a rs).state.mem = s.mem := by
  unfold State.engReads
  grind [Eng.state, engPieces_mem, counted_mem, used_mem]
@[simp] theorem engRead_mem (s : State) (x : Ctx) (l : Overlap) (a : Acc) (va : W64) (n : Nat) : (s.engRead x l a va n).state.mem = s.mem := by
  unfold State.engRead
  grind [Eng.state, engReads_mem]
/-- A read of an engine, done or stopped, has changed no byte. -/
theorem engRead_ok {s t : State} {x : Ctx} {l : Overlap} {a : Acc} {va : W64} {n : Nat} {b : List Byte} (h : s.engRead x l a va n = .ok t b) :
    t.mem = s.mem := by
  simpa [h, Eng.state] using engRead_mem s x l a va n
theorem engRead_stop {s t : State} {x : Ctx} {l : Overlap} {a : Acc} {va : W64} {n : Nat} {w : EngStop} (h : s.engRead x l a va n = .stop t w) :
    t.mem = s.mem := by
  simpa [h, Eng.state] using engRead_mem s x l a va n
@[simp] theorem noteWrites_mem (s : State) (c h id : Nat) (rs : List (Nat × Nat)) : (s.noteWrites c h id rs).mem = s.mem := by
  unfold State.noteWrites
  simp
@[simp] theorem countUp_mem (c h : Nat) : ∀ (s : State) (n : Nat), (s.countUp c h n).mem = s.mem
  | _, 0 => rfl
  | s, n + 1 => by
    unfold State.countUp
    have ih := fun s => countUp_mem c h s n
    grind [State.setCore_mem, State.setQuad_mem]
@[simp] theorem count_mem (s : State) (c h : Nat) : (s.count c h).mem = s.mem := countUp_mem _ _ _ _
@[simp] theorem order_mem (s : State) (c h id inc : Nat) : (s.order c h id inc).mem = s.mem := rfl
@[simp] theorem completes_mem (s : State) (c h id : Nat) : (s.completes c h id).mem = s.mem := rfl
@[simp] theorem leaves_mem (s : State) (c h id : Nat) : (s.leaves c h id).mem = s.mem := by
  unfold State.leaves
  simp
@[simp] theorem setArr_mem (s : State) (q : Nat) (a : Arr) : (s.setArr q a).mem = s.mem := rfl
@[simp] theorem settleArr_mem (s : State) (q : Nat) : (s.settleArr q).mem = s.mem := rfl
@[simp] theorem stopCmd_mem (s : State) (q : Nat) (x : MatCmd) : (s.stopCmd q x).mem = s.mem := by
  unfold State.stopCmd
  dsimp only
  repeat' split
  all_goals simp
@[simp] theorem stopArr_mem (s : State) (p q : Nat) : (s.stopArr p q).mem = s.mem := foldl_mem (fun s a => by simp) _ _
@[simp] theorem indexEntry_mem (s : State) (x : Ctx) (m : CopyCmd) (w i : Nat) : (s.indexEntry x m w i).state.mem = s.mem := by
  unfold State.indexEntry
  grind [Eng.state, engRead_mem]
@[simp] theorem walkRanges_mem (x : Ctx) (m : CopyCmd) (h : ShapeRec) : ∀ (s : State) (qs : List Nat), (s.walkRanges x m h qs).state.mem = s.mem
  | _, [] => rfl
  | s, q :: t => by
    unfold State.walkRanges
    have ih := fun s => walkRanges_mem x m h s t
    grind [Eng.state, indexEntry_mem]
@[simp] theorem streamBytes_mem (s : State) (x : Ctx) (m : CopyCmd) (lo n : Nat) : (s.streamBytes x m lo n).state.mem = s.mem := by
  unfold State.streamBytes
  grind [Eng.state, engRead_mem, engReads_mem, walkRanges_mem]
@[simp] theorem destPieces_mem (x : Ctx) (m : CopyCmd) : ∀ (s : State) (f lo : Nat) (b : List Byte), (s.destPieces x m f lo b).state.mem = s.mem
  | _, 0, _, _ => rfl
  | s, f + 1, lo, b => by
    unfold State.destPieces
    have ih := fun s => destPieces_mem x m s f
    grind [Eng.state, indexEntry_mem]
@[simp] theorem pageView_mem (s : State) (x : Ctx) (a : Acc) (va : Nat) : (s.pageView x a va).state.mem = s.mem := by
  unfold State.pageView
  grind [Eng.state, engineTranslate_mem]
@[simp] theorem sourceBlocks_mem (x : Ctx) (m : CopyCmd) : ∀ (s : State) (f lo k n : Nat), (s.sourceBlocks x m f lo k n).state.mem = s.mem
  | _, 0, _, _, _ => rfl
  | s, f + 1, lo, k, n => by
    unfold State.sourceBlocks
    have ih := fun s => sourceBlocks_mem x m s f
    grind [Eng.state, pageView_mem, countPlaces_mem]
@[simp] theorem convertTarget_mem (s : State) (x : Ctx) (m : CopyCmd) : (s.convertTarget x m).state.mem = s.mem := by
  unfold State.convertTarget
  grind [Eng.state, pageView_mem]
@[simp] theorem convertMore_mem (x : Ctx) (gen : W64) : ∀ (s : State) (f : Nat) (m : CopyCmd) (n : Nat), (s.convertMore x gen f m n).state.mem = s.mem
  | _, 0, _, _ => rfl
  | s, f + 1, m, n => by
    unfold State.convertMore
    have ih := fun s => convertMore_mem x gen s f
    grind [Eng.state, convertTarget_mem, sourceBlocks_mem]
@[simp] theorem updCopy_mem (s : State) (q : Nat) (id : Nat) (f : CopyCmd → CopyCmd) : (s.updCopy q id f).mem = s.mem := rfl
@[simp] theorem drewFor_mem (s : State) (q h : Nat) (m : CopyCmd) (k : Nat) : (s.drewFor q h m k).mem = s.mem := by
  unfold State.drewFor
  split <;> simp
@[simp] theorem fillSegment_mem (s : State) (q h : Nat) (x : Ctx) (m : CopyCmd) : (s.fillSegment q h x m).state.mem = s.mem := by
  unfold State.fillSegment
  grind [Eng.state, convertMore_mem, streamBytes_mem, used_mem]
@[simp] theorem replayOne_mem (s : State) (d i : Nat) (a : Nat × Nat × Nat) : (s.replayOne d i a).mem = s.mem := by
  unfold State.replayOne
  simp [engineTranslate_mem]
@[simp] theorem releaseDie_mem (s : State) (d : Nat) : (s.releaseDie d).mem = s.mem := by
  unfold State.releaseDie
  dsimp only
  rw [foldl_mem (by simp)]
  split <;> simp
@[simp] theorem releaseReplay_mem (s : State) : (s.releaseReplay).mem = s.mem := foldl_mem (fun s a => by simp) _ _
@[simp] theorem stall_mem (s : State) (n : Nat) : (s.stall n).mem = s.mem := rfl
@[simp] theorem writeBack_mem (s : State) (q : Nat) (banks : Nat) (v : ArrSave) : (s.writeBack q banks v).mem = s.mem := rfl
@[simp] theorem grantOn_mem (s : State) (q : Nat) (l : Lessee) : (s.grantOn q l).mem = s.mem := by
  unfold State.grantOn
  dsimp only
  split <;> simp
@[simp] theorem grantLeases_mem (q : Nat) : ∀ (s : State) (ls : List Lessee), (s.grantLeases q ls).mem = s.mem
  | _, [] => rfl
  | s, l :: t => by
    unfold State.grantLeases
    dsimp only
    rw [grantLeases_mem q]
    grind [foldl_mem, grantOn_mem]
@[simp] theorem lookMatrix_mem (s : State) (q : Nat) : (s.lookMatrix q).mem = s.mem := by
  unfold State.lookMatrix
  dsimp only
  repeat' split
  all_goals simp
@[simp] theorem wakeMatrix_mem (s : State) (q : Nat) : (s.wakeMatrix q).mem = s.mem := by
  unfold State.wakeMatrix
  simp
@[simp] theorem endTurn_mem (s : State) (q : Nat) : (s.endTurn q).mem = s.mem := by
  unfold State.endTurn
  split
  · rfl
  · exact foldl_mem (fun s a => by dsimp only; split <;> simp) _ _
@[simp] theorem beginTurn_mem (s : State) (c : Nat) (qs : List Nat) : (s.beginTurn c qs).mem = s.mem := foldl_mem (fun s a => by simp) _ _
@[simp] theorem grantTurn_mem (s : State) (q : Nat) : (s.grantTurn q).mem = s.mem := by
  unfold State.grantTurn
  dsimp only
  grind [settleArr_mem, endTurn_mem, beginTurn_mem, foldl_mem, State.schedule_mem]
@[simp] theorem wantTurn_mem (s : State) (c : Nat) : (s.wantTurn c).mem = s.mem := by
  unfold State.wantTurn
  dsimp only
  split <;> simp
@[simp] theorem popMatrix_mem (s : State) (q : Nat) : (s.popMatrix q).mem = s.mem := by
  unfold State.popMatrix
  simp
@[simp] theorem runMatrix_mem (s : State) (q : Nat) (x : MatCmd) : (s.runMatrix q x).mem = s.mem := by
  unfold State.runMatrix
  dsimp only
  repeat' split
  all_goals simp
@[simp] theorem retireMatrix_mem (s : State) (q : Nat) : (s.retireMatrix q).mem = s.mem := by
  unfold State.retireMatrix
  dsimp only
  repeat' split
  all_goals simp
theorem addPart_mem {s t : State} {q : Nat} (h : s.addPart q = some t) : t.mem = s.mem := by
  unfold State.addPart at h
  dsimp only at h
  grind [setArr_mem, drew_mem, popMatrix_mem]
@[simp] theorem addParts_mem (q : Nat) : ∀ (s : State) (n : Nat), (s.addParts q n).mem = s.mem
  | _, 0 => rfl
  | s, f + 1 => by
    unfold State.addParts
    have ih := fun s => addParts_mem q s f
    grind [addPart_mem, State.schedule_mem]
@[simp] theorem partArrives_mem (s : State) (q src : Nat) : (s.partArrives q src).mem = s.mem := by
  unfold State.partArrives
  simp
@[simp] theorem rowLeaves_mem (s : State) (c : Nat) : (s.rowLeaves c).mem = s.mem := by
  unfold State.rowLeaves
  dsimp only
  split <;> simp
@[simp] theorem release_mem (s : State) (ends : Bool) (c : Nat) : (s.release ends c).mem = s.mem := by
  unfold State.release
  dsimp only
  split
  · rfl
  · rw [foldl_mem (by simp)]
    grind [endTurn_mem, foldl_mem, setArr_mem]
@[simp] theorem releaseLease_mem (s : State) (c : Nat) : (s.releaseLease c).mem = s.mem := by
  unfold State.releaseLease
  simp
@[simp] theorem dropMatrix_mem (s : State) (c : Nat) : (s.dropMatrix c).mem = s.mem := by
  unfold State.dropMatrix
  simp
@[simp] theorem attEntry_mem (s : State) (m : AttCmd) (i : Nat) : (s.attEntry m i).state.mem = s.mem := by
  unfold State.attEntry
  grind [Eng.state, engRead_mem]
@[simp] theorem updAtt_mem (s : State) (d e id : Nat) (f : AttCmd → Option AttCmd) : (s.updAtt d e id f).mem = s.mem := rfl
@[simp] theorem kickAtt_mem (s : State) (d e : Nat) (last : Option Nat := none) : (s.kickAtt d e last).mem = s.mem := by
  unfold State.kickAtt
  repeat' split
  all_goals rfl
@[simp] theorem kvPieces_mem (x : Ctx) : ∀ (s : State) (f va n : Nat), (s.kvPieces x f va n).state.mem = s.mem
  | _, 0, _, _ => rfl
  | s, f + 1, va, n => by
    unfold State.kvPieces
    have ih := fun s => kvPieces_mem x s f
    grind [Eng.state, pageView_mem, countPlaces_mem]
@[simp] theorem kvRow_mem (s : State) (x : Ctx) (l : Overlap) (va : W64) (n : Nat) : (s.kvRow x l va n).state.mem = s.mem := by
  unfold State.kvRow
  grind [Eng.state, kvPieces_mem, used_mem]
@[simp] theorem kvRows_mem (x : Ctx) (l : Overlap) (n : Nat) : ∀ (s : State) (vs : List W64), (s.kvRows x l n vs).state.mem = s.mem
  | _, [] => rfl
  | s, a :: t => by
    unfold State.kvRows
    have ih := fun s => kvRows_mem x l n s t
    grind [Eng.state, kvRow_mem]
@[simp] theorem attTiles_mem (m : AttCmd) (r : AttRow) (u : Option Nat) (q : List Num) : ∀ (s : State) (f t : Nat) (a : AttAcc), (s.attTiles m r u q f t a).state.mem = s.mem
  | _, 0, _, _ => rfl
  | s, f + 1, t, a => by
    unfold State.attTiles
    have ih := fun s => attTiles_mem m r u q s f
    grind [Eng.state, kvRows_mem]
@[simp] theorem dropAtt_mem (s : State) (d e : Nat) (m : AttCmd) : (s.dropAtt d e m).mem = s.mem := by
  unfold State.dropAtt
  simp
@[simp] theorem stopAtt_mem (s : State) (d e : Nat) (m : AttCmd) (w : EngStop) : (s.stopAtt d e m w).mem = s.mem := by
  unfold State.stopAtt
  repeat' split
  all_goals simp [unitHalt_mem]
@[simp] theorem kickRte_mem (s : State) (d : Nat) : (s.kickRte d).mem = s.mem := by
  unfold State.kickRte
  dsimp only
  split <;> simp
@[simp] theorem updRte_mem (s : State) (d id : Nat) (f : RteCmd → Option RteCmd) : (s.updRte d id f).mem = s.mem := rfl
@[simp] theorem stopRte_mem (s : State) (d : Nat) (m : RteCmd) (w : EngStop) (again : Instr) : (s.stopRte d m w again).mem = s.mem := by
  unfold State.stopRte
  repeat' split
  all_goals simp [unitHalt_mem]
@[simp] theorem homeOfExpert_mem (s : State) (m : RteCmd) (e : Nat) : (s.homeOfExpert m e).state.mem = s.mem := by
  unfold State.homeOfExpert
  grind [Eng.state, engRead_mem]
@[simp] theorem tryNext_mem (s : State) (d : Nat) (m : RteCmd) (t : Nat) : (s.tryNext d m t).state.mem = s.mem := by
  unfold State.tryNext
  grind [Eng.state, homeOfExpert_mem, State.addReq_mem, State.schedule_mem]
@[simp] theorem tryAll_mem (d : Nat) : ∀ (s : State) (m : RteCmd) (ts : List Nat), (s.tryAll d m ts).state.mem = s.mem
  | _, _, [] => rfl
  | s, m, t :: r => by
    unfold State.tryAll
    have ih := fun s m => tryAll_mem d s m r
    grind [Eng.state, tryNext_mem]
@[simp] theorem readScores_mem (s : State) (m : RteCmd) : (s.readScores m).state.mem = s.mem := by
  unfold State.readScores
  grind [Eng.state, engReads_mem]
@[simp] theorem roundSent_mem (s : State) (d : Nat) (m : RteCmd) : (s.roundSent d m).mem = s.mem := by
  unfold State.roundSent
  split <;> simp
@[simp] theorem routeRound_mem (s : State) (d : Nat) : (s.routeRound d).mem = s.mem := by
  unfold State.routeRound
  dsimp only
  grind [Eng.state, State.schedule_mem, tryAll_mem, stopRte_mem, roundSent_mem, readScores_mem]
@[simp] theorem capacityArrives_mem (s : State) (id : Nat) : (s.capacityArrives id).mem = s.mem := by
  unfold State.capacityArrives
  dsimp only
  repeat' split
  all_goals rfl
@[simp] theorem resetCaps_mem (s : State) (p : Nat) : (s.resetCaps p).mem = s.mem := rfl
@[simp] theorem prefetch_mem (s : State) (d : Nat) (m : PtrRun) (entry : List Byte) : (s.prefetch d m entry).mem = s.mem := by
  unfold State.prefetch
  dsimp only
  repeat' split
  all_goals simp
@[simp] theorem ptrRunOne_mem (s : State) (d : Nat) (m : PtrRun) : (s.ptrRunOne d m).state.mem = s.mem := by
  unfold State.ptrRunOne
  dsimp only
  split
  · rfl
  · split
    · rename_i h1
      exact engRead_stop h1
    · rename_i h1
      split
      · rename_i h2
        exact (engRead_stop h2).trans (engRead_ok h1)
      · rename_i h2
        split
        · rename_i h3
          exact (engRead_stop h3).trans ((engRead_ok h2).trans (engRead_ok h1))
        · rename_i h3
          have h123 := (engRead_ok h3).trans ((engRead_ok h2).trans (engRead_ok h1))
          split
          · rename_i h4
            exact (engRead_stop h4).trans h123
          · rename_i h4
            exact (foldl_mem (fun s e => prefetch_mem s d m _) _ _).trans ((engRead_ok h4).trans h123)
@[simp] theorem pointerRun_mem (s : State) (d : Nat) : (s.pointerRun d).mem = s.mem := by
  unfold State.pointerRun
  dsimp only
  split
  · rfl
  · rename_i m _
    have h := ptrRunOne_mem (s.setDie d { s.die d with runs := (s.die d).runs.erase m }) d m
    split
    · rfl
    · exact h
@[simp] theorem finishRuns_mem (s : State) (p : Nat) : (s.finishRuns p).mem = s.mem := foldl_mem (fun _ _ => (foldl_mem (fun s _ => ptrRunOne_mem s _ _) _ _).trans (State.setDie_mem _ _ _)) _ _
@[simp] theorem mapCtx_mem (s : State) (p : Nat) (f : Core → Core) : (s.mapCtx p f).mem = s.mem := rfl
@[simp] theorem scheduleFirst_mem (s : State) (dt : Nat) (i : Instr) : (s.scheduleFirst dt i).mem = s.mem := rfl
@[simp] theorem barArrive_mem (s : State) (p c sc g : Nat) : (s.barArrive p c sc g).2.mem = s.mem := by
  unfold State.barArrive
  dsimp only
  repeat' split
  all_goals rfl
@[simp] theorem podMissing_mem (s : State) : (s.podMissing).mem = s.mem := rfl
@[simp] theorem podArrive_mem (s : State) (pkg : Nat) (isBar : Bool) (p g n : Nat) : (s.podArrive pkg isBar p g n).mem = s.mem := by
  unfold State.podArrive
  dsimp only
  repeat' split
  all_goals rfl
@[simp] theorem carry_mem (s : State) (es : List (Nat × Nat × Tile × SendRec)) : (s.carry es).mem = s.mem := foldl_mem (fun s a => by dsimp only; split <;> simp) _ _
@[simp] theorem sealLanding_mem (s : State) (p : Nat) (e : Nat × Nat × Tile × SendRec) : (s.sealLanding p e).mem = s.mem := rfl
@[simp] theorem applyQuotas_mem (s : State) (p : Nat) : (s.applyQuotas p).mem = s.mem := by
  unfold State.applyQuotas
  dsimp only
  rw [foldl_mem (fun s a => by split <;> simp)]
  simp
@[simp] theorem podRelease_mem (s : State) (isBar : Bool) (p g n : Nat) : (s.podRelease isBar p g n).mem = s.mem := by
  unfold State.podRelease
  dsimp only
  repeat' split
  all_goals rfl
@[simp] theorem barDone_mem (s : State) (sc inst p g : Nat) : (s.barDone sc inst p g).mem = s.mem := by
  unfold State.barDone
  repeat' split
  all_goals simp
@[simp] theorem exchangeFault_mem (s : State) (p sub : Nat) (va : W64) (r : SendRec) : (s.exchangeFault p sub va r).mem = s.mem := by
  unfold State.exchangeFault
  simp [unitHalt_mem]
@[simp] theorem phaseDone_mem (s : State) (p : Nat) : (s.phaseDone p).mem = s.mem := by
  unfold State.phaseDone
  dsimp only
  split <;> simp
@[simp] theorem againLand_mem (s : State) (p id : Nat) (r : SendRec) (n : Nat) : (s.againLand p id r n).mem = s.mem := by
  unfold State.againLand
  split <;> simp
@[simp] theorem updSend_mem (s : State) (d ix : Nat) (f : Tile → SendRec → Tile) : (s.updSend d ix f).mem = s.mem := by
  unfold State.updSend
  dsimp only
  repeat' split
  all_goals rfl
@[simp] theorem landFails_mem (s : State) (p d ix : Nat) (t : Tile) (r : SendRec) (sub : Nat) : (s.landFails p d ix t r sub).mem = s.mem := by
  unfold State.landFails
  simp
@[simp] theorem land_mem (s : State) (id : Nat) : (s.land id).mem = s.mem := by
  unfold State.land
  dsimp only
  grind [Eng.state, againLand_mem, engRead_mem, updSend_mem, phaseDone_mem, landFails_mem, countEcc_mem, queueRecord_mem]
@[simp] theorem kickLands_mem (s : State) (p : Nat) : (s.kickLands p).mem = s.mem := by
  refine foldl_mem (fun s a => ?_) _ _
  grind [scheduleOnce_mem]
@[simp] theorem xrecvArrives_mem (s : State) (id : Nat) : (s.xrecvArrives id).mem = s.mem := by
  unfold State.xrecvArrives
  dsimp only
  repeat' split
  all_goals simp
@[simp] theorem resumeCore_mem (s : State) (c : Nat) : (s.resumeCore c).mem = s.mem := by
  unfold State.resumeCore
  dsimp only
  repeat' split
  all_goals rfl
@[simp] theorem leaveReplay_mem (s : State) (c : Nat) : (s.leaveReplay c).mem = s.mem := by
  unfold State.leaveReplay
  dsimp only
  split <;> simp
@[simp] theorem tickClocks_mem (s : State) : (s.tickClocks).2.mem = s.mem := by
  unfold State.tickClocks
  repeat' split
  all_goals rfl
@[simp] theorem beaconStep_mem (s : State) : (s.beaconStep).mem = s.mem := by
  unfold State.beaconStep
  dsimp only
  rw [scheduleFirst_mem, tickClocks_mem]
  have hp := fun (now : Nat) => foldl_mem (f := fun (s : State) (p : Nat × Part) => p.2.ring.foldl (fun (s : State) e =>
    if e.2.phase = 3 ∧ e.2.wait ≤ now then s.schedule 0 (.parkWake p.1 e.1) else s) s) (fun s a => foldl_mem (fun s a => by split <;> rfl) _ _)
  have hd := foldl_mem (f := fun (s : State) (d : Nat × Die) => if d.2.pool.isEmpty then s else s.scheduleOnce 0 (.taskDispatch d.1)) (fun s a => by split <;> simp)
  have hf := foldl_mem (f := fun (s : State) (p : Nat) => (s.scheduleFirst 0 (.frameAdvance p)).scheduleFirst 0 (.frameStart p)) (by simp)
  split
  · rw [hf, hd, hp]
  · rw [hd, hp]
@[simp] theorem imageRead_mem (s : State) (d p va n : Nat) : (s.imageRead d p va n).state.mem = s.mem := by
  unfold State.imageRead
  grind [Eng.state, engRead_mem]
@[simp] theorem checkTable_mem (d p at_ size : Nat) (ok : Nat → List Byte → Bool) : ∀ (n i : Nat) (s : State), (s.checkTable d p at_ size ok n i).state.mem = s.mem
  | 0, _, _ => rfl
  | n + 1, i, s => andThen_mem s (imageRead_mem _ _ _ _ _) fun u b hu => by
    split
    · exact (checkTable_mem d p at_ size ok n (i + 1) u).trans hu
    · exact hu
@[simp] theorem checkImage_mem (s : State) (p va : Nat) : (s.checkImage p va).state.mem = s.mem := by
  unfold State.checkImage
  rw [orElse_state]
  refine andThen_mem s (imageRead_mem _ _ _ _ _) fun u h hu => ?_
  split
  · exact hu
  · refine andThen_mem s ((checkTable_mem _ _ _ _ _ _ _ _).trans hu) fun u a hu => ?_
    exact andThen_mem s ((checkTable_mem _ _ _ _ _ _ _ _).trans hu) fun u b hu => hu
@[simp] theorem readRegions_mem (d p at_ inst : Nat) : ∀ (n i : Nat) (s : State), (s.readRegions d p at_ inst n i).state.mem = s.mem
  | 0, _, _ => rfl
  | n + 1, i, s => andThen_mem s (imageRead_mem _ _ _ _ _) fun u _ hu =>
    andThen_mem s ((readRegions_mem d p at_ inst n (i + 1) u).trans hu) fun _ _ hu => hu
@[simp] theorem readNode_mem (s : State) (d p tmpl node inst : Nat) : (s.readNode d p tmpl node inst).state.mem = s.mem := by
  unfold State.readNode
  split
  · rfl
  · rw [orElse_state]
    refine andThen_mem s (imageRead_mem _ _ _ _ _) fun u h hu => ?_
    split
    · exact hu
    · refine andThen_mem s ((imageRead_mem _ _ _ _ _).trans hu) fun u b hu => ?_
      exact andThen_mem s ((readRegions_mem _ _ _ _ _ _ _).trans hu) fun u r hu => hu
@[simp] theorem checkRecord_mem (s : State) (p d : Nat) (r : List Byte) : (s.checkRecord p d r).state.mem = s.mem := by
  unfold State.checkRecord
  split
  · rfl
  · exact andThen_mem s (readNode_mem _ _ _ _ _ _) fun u n hu => hu
@[simp] theorem makeReady_mem (s : State) (p ent : Nat) (e : Entry) : (s.makeReady p ent e).mem = s.mem := by
  unfold State.makeReady
  simp
@[simp] theorem taskReady_mem (s : State) (p ent : Nat) : (s.taskReady p ent).mem = s.mem := by
  unfold State.taskReady
  repeat' split
  all_goals simp
@[simp] theorem parkOver_mem (s : State) (p ent : Nat) : (s.parkOver p ent).mem = s.mem := by
  unfold State.parkOver
  repeat' split
  all_goals simp
@[simp] theorem rereadNode_mem (s : State) (e : Entry) : (s.rereadNode e).state.mem = s.mem := by
  refine andThen_mem s (readNode_mem _ _ _ _ _ _) fun u n hu => ?_
  dsimp only
  split
  · exact hu
  · split <;> exact hu
@[simp] theorem releaseSuccessors_mem (s : State) (p ent : Nat) : (s.releaseSuccessors p ent).mem = s.mem := by
  unfold State.releaseSuccessors
  dsimp only
  rw [foldl_mem (fun s a => by split <;> simp)]
  simp
@[simp] theorem freeEntry_mem (s : State) (p ent : Nat) : (s.freeEntry p ent).mem = s.mem := by
  unfold State.freeEntry
  simp
@[simp] theorem freeCore_mem (s : State) (c : Nat) : (s.freeCore c).mem = s.mem := by
  unfold State.freeCore
  simp
@[simp] theorem endTask_mem (s : State) (c : Nat) : (s.endTask c).mem = s.mem := by
  unfold State.endTask
  dsimp only
  repeat' split
  all_goals simp
@[simp] theorem takeTrap_mem (s : State) (n : Nat) : (s.takeTrap n).mem = s.mem := by
  unfold State.takeTrap
  simp
@[simp] theorem countImage_mem (s : State) (b : Fin 64) : (s.countImage b).mem = s.mem := by
  unfold State.countImage
  repeat' split
  all_goals simp
@[simp] theorem haltPart_mem (s : State) (p : Nat) : (s.haltPart p).mem = s.mem := by
  unfold State.haltPart
  repeat' split
  all_goals simp [assertHalt_mem, coreHalt_mem]
@[simp] theorem mapCopies_mem (s : State) (f : CopyCmd → CopyCmd) : (s.mapCopies f).mem = s.mem := rfl
@[simp] theorem mapSaved_mem (s : State) (f : Saved → Saved) : (s.mapSaved f).mem = s.mem := rfl
@[simp] theorem endArrives_mem (s : State) (k : Core) (c : Nat) : (s.endArrives k c).2.mem = s.mem := by
  unfold State.endArrives
  split <;> simp
@[simp] theorem failSaved_mem (s : State) (c p h id : Nat) : (s.failSaved c p h id).mem = s.mem := rfl
@[simp] theorem closeHalt_mem (s : State) (p : Nat) : (s.closeHalt p).mem = s.mem := by
  unfold State.closeHalt
  dsimp only
  split
  · rfl
  split
  · rfl
  split
  · simp
  split
  · simp
  split
  · exact (foldl_mem (by simp) _ _).trans (State.setPart_mem ..)
  split
  · simp
  · simp
@[simp] theorem pstateHalt_mem (s : State) (p : Nat) : (s.pstateHalt p).mem = s.mem := by
  unfold State.pstateHalt
  split <;> simp
@[simp] theorem freeTiles_mem (s : State) (p : Nat) : (s.freeTiles p).mem = s.mem := foldl_mem (fun s a => foldl_mem (by simp) _ _) _ _
@[simp] theorem dropArray_mem (s : State) (p : Nat) (e : Nat × Core) : (s.dropArray p e).mem = s.mem := by
  unfold State.dropArray
  split <;> simp
@[simp] theorem srseedSet_mem (s : State) (p : Nat) (v : W64) : (s.srseedSet p v).mem = s.mem := rfl
theorem kpartSet_mem {s t : State} {n : Nat} {v : W64} (h : s.kpartSet n v = some t) : t.mem = s.mem := by
  unfold State.kpartSet at h
  grind [scheduleOnce_mem, State.setPart_mem]
@[simp] theorem sscfgSet_mem (s : State) (p : Nat) (v : W64) : (s.sscfgSet p v).mem = s.mem := by
  unfold State.sscfgSet
  dsimp only
  split <;> simp
@[simp] theorem packetSets_mem (s : State) (b : List Byte) : (s.packetSets b).mem = s.mem := by
  unfold State.packetSets
  repeat' split
  all_goals simp
@[simp] theorem create_mem (s : State) (p : Nat) : (s.create p).mem = s.mem := by
  unfold State.create
  dsimp only
  split <;> simp
@[simp] theorem measureImage_mem (s : State) (p va : Nat) : (s.measureImage p va).state.mem = s.mem := by
  unfold State.measureImage
  split
  · rfl
  · rw [orElse_state]
    refine andThen_mem s (imageRead_mem _ _ _ _ _) fun u h hu => ?_
    exact andThen_mem s ((imageRead_mem _ _ _ _ _).trans hu) fun u b hu => hu
@[simp] theorem packetActs_mem (s : State) (b : List Byte) : (s.packetActs b).state.mem = s.mem := (create_mem _ _).trans (packetSets_mem _ _)
@[simp] theorem install_mem (s : State) (b : List Byte) : (s.install b).state.mem = s.mem := by
  refine andThen_mem s (checkImage_mem _ _ _) fun u id hu => ?_
  cases id with
  | none => exact hu
  | some id =>
    dsimp only
    split
    · exact hu
    · split
      · exact hu
      · exact andThen_mem s ((measureImage_mem _ _ _).trans hu) fun u _ hu => (packetActs_mem _ _).trans hu
@[simp] theorem remove_mem (s : State) (b : List Byte) : (s.remove b).state.mem = s.mem := by
  unfold State.remove
  dsimp only
  split
  · rfl
  · split
    · rfl
    · exact packetActs_mem _ _
@[simp] theorem keeper_mem (s : State) : (s.keeper).mem = s.mem := rfl
@[simp] theorem mboxEnd_mem (s : State) (state : Nat) (detail : Nat) : (s.mboxEnd state detail).mem = s.mem := rfl
@[simp] theorem mboxRead_mem (s : State) (va : W64) (n : Nat) : (s.mboxRead va n).state.mem = s.mem := by
  unfold State.mboxRead
  rw [orElse_state]
  exact andThen_mem s (engPieces_mem _ _ _ _ _) fun u ps hu => hu
theorem withArg_mem {e : Eng (Option (List Byte))} {f : State → List Byte → Eng Unit} (s : State) (he : e.state.mem = s.mem)
    (hf : ∀ u b, u.mem = s.mem → (f u b).state.mem = s.mem) : (State.withArg e f).state.mem = s.mem :=
  andThen_mem s he fun u b hu => by
    cases b with
    | none => exact hu
    | some b => exact hf u b hu
@[simp] theorem podSet_mem (s : State) (a b c d : W64) : (s.podSet a b c d).state.mem = s.mem := by
  unfold State.podSet
  split
  · rfl
  · split
    · rfl
    · exact withArg_mem s (mboxRead_mem _ _ _) fun u t hu => (podMissing_mem _).trans hu
@[simp] theorem stageRead_mem (s : State) (a : W64) (n : Nat) : (s.stageRead a n).state.mem = s.mem := by
  unfold State.stageRead
  split
  · exact mboxRead_mem _ _ _
  · rfl
@[simp] theorem fwStage_mem (s : State) (a b : W64) : (s.fwStage a b).state.mem = s.mem := by
  unfold State.fwStage
  split
  · rfl
  · exact withArg_mem s (stageRead_mem _ _ _) fun u b hu => by
      dsimp only [Eng.state]
      rw [← hu]
      repeat' split
      all_goals rfl
@[simp] theorem loadBegin_mem (s : State) (l : Load) : (s.loadBegin l).mem = s.mem := rfl
@[simp] theorem loadStart_mem (s : State) (a b c d e f : W64) : (s.loadStart a b c d e f).state.mem = s.mem := by
  unfold State.loadStart
  dsimp only
  split
  · rfl
  · split
    · rfl
    · split
      · rfl
      · refine withArg_mem s (mboxRead_mem _ _ _) fun u _ hu => withArg_mem s ((mboxRead_mem _ _ _).trans hu) fun u b hu => ?_
        grind [Eng.state, loadBegin_mem, mboxEnd_mem]
@[simp] theorem loadFail_mem (s : State) (l : Load) (detail : Nat) : (s.loadFail l detail).mem = s.mem := by
  unfold State.loadFail
  dsimp only
  split <;> simp [foldl_mem]
@[simp] theorem relayStart_mem (s : State) (b : List Byte) : (s.relayStart b).mem = s.mem := by
  unfold State.relayStart
  dsimp only
  split <;> simp
@[simp] theorem report_mem (s : State) (pkg : Nat) : (s.report pkg).mem = s.mem := by
  unfold State.report
  dsimp only
  repeat' split
  all_goals rfl
@[simp] theorem giveSpares_mem (s : State) : (s.giveSpares).mem = s.mem := foldl_mem (fun s a => foldl_mem (by simp) _ _) _ _
@[simp] theorem startBringup_mem (s : State) : (s.startBringup).mem = s.mem := rfl
@[simp] theorem riseReady_mem (s : State) : (s.riseReady).mem = s.mem := by
  unfold State.riseReady
  simp
@[simp] theorem fetchReturn_mem (s : State) (c : Nat) : (s.fetchReturn c).mem = s.mem := by
  unfold State.fetchReturn
  dsimp only
  repeat' split
  all_goals rfl
/-- A result of a slot leaves memory in its canonical form. -/
def Res.memOk : Res → Prop
  | .ok t => t.memOk
  | .hold t => t.memOk
  | .raise _ => True
/-- What reading for a load stops with leaves memory in its canonical form. -/
def MRes.memOk {α : Type} : MRes α → Prop
  | .ok _ => True
  | .stop r => r.memOk
theorem wf_mem_iff (s : State) : Memory.wf s.mem = true ↔ s.memOk := Iff.rfl
end Sys2Proof.Machine
end

section
/-! Proofs about memory (O46), second part: what keeps memory in its canonical form. Each lemma `f_memOk` says that `f` does. -/
namespace Sys2Proof.Machine
open Sys2Proof
theorem State.setMe_mem (s : State) (k : Core) : (s.setMe k).mem = s.mem := rfl
/-- A fold of steps that keep the canonical form. -/
theorem foldl_memOk {α : Type} {f : State → α → State} (h : ∀ s a, s.memOk → (f s a).memOk) :
    ∀ (l : List α) (s : State), s.memOk → (l.foldl f s).memOk
  | [], _, hs => hs
  | a :: l, s, hs => foldl_memOk h l (f s a) (h s a hs)
/-- What an engine goes on with after it has read keeps the canonical form. -/
theorem andThen_memOk {α β : Type} {e : Eng α} {f : State → α → Eng β} (he : e.state.memOk)
    (hf : ∀ u v, u.memOk → (f u v).state.memOk) : (e.andThen f).state.memOk := by
  cases e with
  | ok u v => exact hf u v he
  | stop u w => exact he
theorem fault_memOk (c s : Nat) (i : W64) : (fault c s i).memOk := trivial
theorem uncorrectable_memOk (c i : Nat) : (uncorrectable c i).memOk := trivial
theorem contained_memOk (c s : Nat) (i : W64) : (contained c s i).memOk := trivial
theorem Res.memOk_ite (c : Prop) [Decidable c] {x y : Res} (hx : x.memOk) (hy : y.memOk) : Res.memOk (if c then x else y) := by
  split
  · exact hx
  · exact hy
theorem ite_memOk (c : Prop) [Decidable c] {u v : State} (hu : u.memOk) (hv : v.memOk) : State.memOk (if c then u else v) := by
  split
  · exact hu
  · exact hv
theorem releaseHold_memOk (s : State) (hs : s.memOk) : (s.releaseHold).memOk := by
  unfold State.releaseHold
  grind [State.memOk, wf_mem_iff, noteRelease_mem, Res.memOk]
theorem transStop_memOk {s : State} (va : W64) (hs : s.memOk) : ∀ t : Trans, (s.transStop va t).memOk
  | .fail _ => trivial
  | .miss _ => memOk_of_mem (missed_mem _ _ _ _) hs
  | .migrating => memOk_of_mem (joinReplay_mem _ _) hs
  | .bad => trivial
  | .ecc c i e => by
    change Res.memOk (if c = 32 then .hold (s.pageHold e i va) else uncorrectable c i)
    split
    · exact memOk_of_mem (pageHold_mem _ _ _ _) hs
    · trivial
  | .at_ _ _ => hs
theorem readVa_memOk (s : State) (a : Acc) (va : W64) (n : Nat) (hs : s.memOk) : (s.readVa a va n).memOk := by
  unfold State.readVa
  split
  · split
    · trivial
    · trivial
    · split
      · exact memOk_of_mem (s := s) (by simp) hs
      · trivial
    · trivial
  · exact transStop_memOk va hs _
theorem guard_memOk (i : Instr) {s : State} {r : Res} (hs : s.memOk) (hr : r.memOk) : (guard i s r).memOk := by
  unfold guard
  dsimp only
  split
  · trivial
  · split
    · exact hs
    · split
      · trivial
      · exact hr
/-- What an outcome leaves is in its canonical form. -/
def StepOk (o : Host.Outcome State Fault Refusal) : Prop := ∀ t, o = .next t → t.memOk
theorem stepOk_next {t : State} (h : t.memOk) : StepOk (.next t) := by
  rintro _ ⟨⟩
  exact h
theorem takeFault_memOk {s : State} (f : FaultInfo) (hs : s.memOk) : (s.takeFault f).memOk := memOk_of_mem (takeFault_mem s f) hs
theorem finish_stepOk (i : Instr) (slot : Nat) {s : State} {r : Res} (hs : s.memOk) (hr : r.memOk) : StepOk (finish i slot s r) := by
  cases r with
  | ok t => exact stepOk_next hr
  | hold t => exact stepOk_next hr
  | raise f =>
    unfold finish
    dsimp only
    split
    · exact stepOk_next hs
    · exact stepOk_next (takeFault_memOk (s := s) _ hs)
theorem meaning_stepOk (i : Instr) (slot : Nat) {s : State} {r : Res} (hs : s.memOk) (hr : r.memOk) : StepOk (meaning i slot s r) :=
  finish_stepOk i slot hs (guard_memOk i hs hr)
theorem loadScalar_memOk (s : State) (d b : Fin 64) (p : Fin 8) (z : Fin 4) (o : Fin 256) (l : Lent) (hs : s.memOk) : (loadScalar s d b p z o l).memOk := by
  unfold loadScalar
  grind [State.memOk, wf_mem_iff, readVa_memOk, noteHist_mem, countPlaces_mem, pend_mem, Res.memOk, fault, MRes.memOk, Eng.state]
theorem readLines_memOk {s : State} (hs : s.memOk) : ∀ ls : List (W64 × Nat), (s.readLines ls).memOk
  | [] => trivial
  | (va, n) :: t => by
    unfold State.readLines
    have hv := readVa_memOk s .load va n hs
    have ht := readLines_memOk hs t
    split
    · rename_i u heq
      rw [heq] at hv
      exact memOk_of_mem (joinAll_mem _ _ _) hv
    · rename_i heq
      rw [heq] at hv
      exact hv
    · split
      · rename_i heq
        rw [heq] at ht
        exact ht
      · trivial
theorem readLines_stop {s : State} {ls : List (W64 × Nat)} {r : Res} (h : s.readLines ls = .stop r) (hs : s.memOk) : r.memOk := by
  simpa [h, MRes.memOk] using readLines_memOk hs ls
theorem rawRows_memOk (s : State) (va : W64) (on : List Nat) (hs : s.memOk) : (s.rawRows va on).memOk := by
  unfold State.rawRows
  split
  · rename_i heq
    exact readLines_stop heq hs
  · split <;> trivial
theorem formattedRows_memOk (s : State) (va : W64) (pa : Nat) (leaf : W64) (on : List Nat) (act : Nat → Nat → Bool) (hs : s.memOk) : (s.formattedRows va pa leaf on act).memOk := by
  unfold State.formattedRows
  dsimp only
  split
  · trivial
  · split
    · trivial
    · split
      · rename_i heq
        exact readLines_stop heq hs
      · split <;> trivial
theorem vectorRows_memOk (s : State) (va : W64) (on : List Nat) (act : Nat → Nat → Bool) (hs : s.memOk) : (s.vectorRows va on act).memOk := by
  unfold State.vectorRows
  split
  · trivial
  · split
    · split
      · exact rawRows_memOk _ _ _ hs
      · exact formattedRows_memOk _ _ _ _ _ _ hs
    · exact rawRows_memOk _ _ _ hs
    · split
      · exact transStop_memOk va hs _
      · exact rawRows_memOk _ _ _ hs
theorem loadVector_memOk (s : State) (d b : Fin 64) (p : Fin 8) (z : Fin 4) (o : Fin 256) (l : Lent) (hs : s.memOk) : (loadVector s d b p z o l).memOk := by
  unfold loadVector
  grind [State.memOk, wf_mem_iff, vectorRows_memOk, noteLoads_mem, counted_mem, pend_mem, Res.memOk, fault, MRes.memOk, Eng.state]
theorem loadGather_memOk (s : State) (d a b : Fin 64) (p : Fin 8) (sc e : Fin 4) (hs : s.memOk) : (loadGather s d a b p sc e).memOk := by
  unfold loadGather
  dsimp only
  split
  · trivial
  · split
    · rename_i heq
      exact readLines_stop heq hs
    · split
      · exact hs
      · exact memOk_of_mem (s := s) (by simp) hs
theorem loadBroadcast_memOk (s : State) (d b : Fin 64) (p : Fin 8) (z : Fin 4) (o : Fin 256) (l : Lent) (hs : s.memOk) : (loadBroadcast s d b p z o l).memOk := by
  unfold loadBroadcast
  grind [State.memOk, wf_mem_iff, readVa_memOk, noteHist_mem, countPlaces_mem, pend_mem, Res.memOk, fault, MRes.memOk, Eng.state]
theorem storeScalar_memOk (s : State) (d b : Fin 64) (p : Fin 8) (z : Fin 4) (o : Fin 256) (l : Lent) (hs : s.memOk) : (storeScalar s d b p z o l).memOk := by
  unfold storeScalar
  dsimp only
  split
  · exact hs
  · split
    · trivial
    · split
      · exact storePlace_memOk _ _ _ hs
      · exact transStop_memOk _ hs _
theorem places_memOk {s : State} (a : Acc) (hs : s.memOk) : ∀ vs : List W64, (s.places a vs).memOk
  | [] => trivial
  | va :: t => by
    unfold State.places
    have ht := places_memOk a hs t
    split
    · split
      · rename_i heq
        rw [heq] at ht
        exact ht
      · trivial
    · exact memOk_of_mem (s := s) (joinAll_mem _ _ _) hs
    · exact transStop_memOk va hs _
theorem places_stop {s : State} {a : Acc} {vs : List W64} {r : Res} (h : s.places a vs = .stop r) (hs : s.memOk) : r.memOk := by
  simpa [h, MRes.memOk] using places_memOk a hs vs
theorem storeVector_memOk (s : State) (d b : Fin 64) (p : Fin 8) (z : Fin 4) (o : Fin 256) (l : Lent) (hs : s.memOk) : (storeVector s d b p z o l).memOk := by
  unfold storeVector
  dsimp only
  split
  · trivial
  · split
    · rename_i heq
      exact places_stop heq hs
    · exact storePieces_memOk _ _ hs
theorem storeScatter_memOk (s : State) (d a b : Fin 64) (p : Fin 8) (sc e : Fin 4) (hs : s.memOk) : (storeScatter s d a b p sc e).memOk := by
  unfold storeScatter
  dsimp only
  split
  · trivial
  · split
    · rename_i heq
      exact places_stop heq hs
    · exact storePieces_memOk _ _ hs
/-- An atomic's write at its home, once the writes of its quad have reached theirs. -/
theorem atomicEffect_memOk (s : State) (d a b : Fin 64) (z : Bool) (f : Nat → W64 → W64 → W64) (hs : s.memOk) : (atomicEffect s d a b z f).memOk := by
  unfold atomicEffect
  dsimp only
  generalize (if z = true then 8 else 4) = n
  split
  · trivial
  · split
    · rename_i pa _ _
      have ht : (((s.flushPath s.myQuad).settled (s.me.sreg a.val).toNat (.phys pa) false n).countPlaces (s.flushPath s.myQuad).cur [(.phys pa, n)]).memOk :=
        memOk_of_mem ((countPlaces_mem _ _ _).trans (settled_mem _ _ _ _ _)) (flushPath_memOk _ hs)
      split
      · exact memOk_of_mem (pend_mem _ _ _ _) (memWrite_wf _ _ _ ht)
      · exact hs
      · trivial
      · exact hs
    · trivial
    · exact transStop_memOk _ hs _
theorem tallocEffect_memOk (s : State) (d a n : Fin 64) (t : Fin 8) (l : Fin 16) (hs : s.memOk) : (tallocEffect s d a n t l).memOk := by
  unfold tallocEffect
  grind [Res.memOk, State.memOk, wf_mem_iff, fault_memOk, uncorrectable_memOk, contained_memOk, pend_mem, State.setMe_mem, flowDrain_mem, State.schedule_mem]
theorem twrBad_memOk {s : State} {r : Res} : ∀ ps : List (W64 × Place), s.twrBad ps = some r → r.memOk
  | (va, .tile d ix g o) :: t, h => by
    unfold State.twrBad at h
    split at h
    · exact twrBad_memOk t h
    · cases h
      trivial
  | (va, .phys _) :: _, h => by cases h; trivial
  | (va, .host _) :: _, h => by cases h; trivial
  | (va, .flash _ _) :: _, h => by cases h; trivial
theorem twrEffect_memOk (s : State) (d b : Fin 64) (p : Fin 8) (z : Fin 4) (o : Fin 256) (l : Lent) (hs : s.memOk) : (twrEffect s d b p z o l).memOk := by
  unfold twrEffect
  dsimp only
  split
  · trivial
  · split
    · trivial
    · split
      · rename_i heq
        exact places_stop heq hs
      · split
        · rename_i heq
          exact twrBad_memOk _ heq
        · exact memOk_of_mem (s := s) (sendPieces_mem _ _) hs
theorem nameTile_bad {s : State} {va : W64} {r : Res} (h : s.nameTile va = .bad r) : r.memOk := by
  unfold State.nameTile at h
  dsimp only at h
  repeat' split at h
  all_goals cases h
  all_goals trivial
theorem tsealEffect_memOk (s : State) (a : Fin 64) (hs : s.memOk) : (tsealEffect s a).memOk := by
  unfold tsealEffect
  grind [Res.memOk, State.memOk, fault_memOk, nameTile_bad, releaseHold_memOk, State.setDie_mem]
theorem tldEffect_memOk (s : State) (d b : Fin 64) (p : Fin 8) (z : Fin 4) (o : Fin 256) (l : Lent) (hs : s.memOk) : (tldEffect s d b p z o l).memOk := by
  unfold tldEffect
  grind [Res.memOk, State.memOk, wf_mem_iff, fault_memOk, uncorrectable_memOk, contained_memOk, nameTile_bad, consume_mem, pend_mem]
theorem tdropEffect_memOk (s : State) (a : Fin 64) (hs : s.memOk) : (tdropEffect s a).memOk := by
  unfold tdropEffect
  grind [Res.memOk, State.memOk, wf_mem_iff, fault_memOk, uncorrectable_memOk, contained_memOk, nameTile_bad, consume_mem]
theorem tcntEffect_memOk (s : State) (wait : Bool) (d a : Fin 64) (hs : s.memOk) : (tcntEffect s wait d a).memOk := by
  unfold tcntEffect
  grind [Res.memOk, State.memOk, wf_mem_iff, fault_memOk, uncorrectable_memOk, contained_memOk, nameTile_bad, pend_mem]
theorem tlbiEffect_memOk {s : State} (sup bad : Bool) {f : State → State} (hs : s.memOk) (hf : (f s).memOk) : (tlbiEffect s sup bad f).memOk := by
  unfold tlbiEffect
  grind [Res.memOk, State.memOk, fault_memOk, State.setMe_mem]
theorem cowFinish_memOk (s : State) (va : W64) (tva at_ : Nat) (e : W64) (g cost : Nat) (b : List Byte) (hs : s.memOk) : (s.cowFinish va tva at_ e g cost b).memOk := by
  have h1 : State.memOk { s with mem := memWrite s.mem at_ (leBytes 8 (ownedLeaf e g).toNat) } := memOk_write (s := s) _ _ rfl hs
  exact memOk_of_mem (State.setMe_mem _ _) (flushPath_memOk _ (storePlace_memOk va _ b (removeTlb_memOk _ _ h1)))
theorem cowShared_memOk (s : State) (va : W64) (tva : Nat) (e : W64) (at_ : Nat) (b : List Byte) (hs : s.memOk) : (cowShared s va tva e at_ b).memOk := by
  unfold cowShared
  grind [State.memOk, wf_mem_iff, flushPath_memOk, touch_mem, cowFinish_memOk, State.setDie_mem, containCore_mem, touchLines_mem, memWrite_wf, Res.memOk, contained, fault]
theorem cowstEffect_memOk (s : State) (d b : Fin 64) (p : Fin 8) (z : Fin 4) (o : Fin 256) (l : Lent) (hs : s.memOk) : (cowstEffect s d b p z o l).memOk := by
  unfold cowstEffect
  dsimp only
  split
  · exact hs
  · split
    · trivial
    · split
      · trivial
      · split
        · split
          · exact storePlace_memOk _ _ _ hs
          · split
            · split
              · exact hs
              · exact cowShared_memOk _ _ _ _ _ _ hs
            · trivial
            · trivial
        · exact transStop_memOk _ hs _
theorem readSpan_memOk (s : State) (va : W64) (n : Nat) (hs : s.memOk) : (s.readSpan va n).memOk := by
  unfold State.readSpan
  split
  · rename_i heq
    exact readLines_stop heq hs
  · trivial
theorem wmapEffect_memOk (s : State) (a b : Fin 64) (n : Fin 16) (hs : s.memOk) : (wmapEffect s a b n).memOk := by
  unfold wmapEffect
  grind [State.memOk, wf_mem_iff, readSpan_memOk, countSpan_mem, State.setDie_mem, Res.memOk, fault, MRes.memOk, Eng.state]
theorem wunmapEffect_memOk (s : State) (n : Fin 16) (hs : s.memOk) : (wunmapEffect s n).memOk := by
  unfold wunmapEffect
  grind [State.memOk, wf_mem_iff, State.setDie_mem, Res.memOk]
theorem scrambleUnits_memOk (s : State) (h : HSlot) (hs : s.memOk) : (s.scrambleUnits h).memOk := foldl_memOk (fun s _ h => scramble_memOk _ _ s h) _ _ hs
theorem freeSlot_memOk (s : State) (e k : Nat) (hs : s.memOk) : (s.freeSlot e k).memOk := by
  unfold State.freeSlot
  grind [State.memOk, wf_mem_iff, scrambleUnits_memOk, setFlash_mem, wakeHandle_mem, kickFlash_mem]
theorem pageRead_memOk (s : State) (e k lp : Nat) (hs : s.memOk) : (s.pageRead e k lp).memOk := by
  unfold State.pageRead
  dsimp only
  repeat' split
  all_goals grind [State.memOk, wf_mem_iff, State.schedule_mem, setFlash_mem, countRead_mem, awaitRepair_mem, writeUnits_memOk, doneUnits_mem, kickStack_mem, kickFlash_mem]
theorem atTable_memOk {s : State} (e : Nat) (r : Req) {fin : State → W64 → State} (info : W64) (hs : s.memOk)
    (hf : ∀ u v, u.memOk → (fin u v).memOk) : (s.atTable e r fin info).memOk := by
  unfold State.atTable
  dsimp only
  split
  · split
    · exact hs
    · split
      · trivial
      · exact hf _ _ hs
  · exact memOk_of_mem (s := s) (sendReq_mem _ _ _ _) hs
theorem dstCheck_memOk {s : State} {e : Nat} {dst : W64} {us : List Nat} {r : Res} (h : s.dstCheck e dst us = some r) (hs : s.memOk) : r.memOk := by
  unfold State.dstCheck at h
  split at h
  · rename_i heq
    cases h
    exact places_stop heq hs
  · split at h <;> cases h
    trivial
theorem hreadEffect_memOk (s : State) (d a b : Fin 64) (u : Fin 128) (l : Lent) (hs : s.memOk) : (hreadEffect s d a b u l).memOk := by
  unfold hreadEffect
  dsimp only
  split
  · trivial
  · split
    · trivial
    · split
      · trivial
      · split
        · split
          · rename_i heq
            exact dstCheck_memOk heq hs
          · exact atTable_memOk _ _ _ hs fun u v hu => memOk_of_mem (pend_mem _ _ _ _) hu
        · trivial
        · exact transStop_memOk _ hs _
theorem hrelArrives_memOk (s : State) (c p e : Nat) (w : W64) (hs : s.memOk) : (s.hrelArrives c p e w).memOk := by
  unfold State.hrelArrives
  grind [State.memOk, wf_mem_iff, tell_mem, freeSlot_memOk, setFlash_mem]
theorem handleArrives_memOk (s : State) (id : Nat) (hs : s.memOk) : (s.handleArrives id).memOk := by
  unfold State.handleArrives
  grind [State.memOk, wf_mem_iff, hreadArrives_mem, tell_mem, hrelArrives_memOk]
theorem hwaitEffect_memOk (s : State) (a : Fin 64) (hs : s.memOk) : (hwaitEffect s a).memOk := by
  unfold hwaitEffect
  grind [Res.memOk, State.memOk, wf_mem_iff, fault_memOk, uncorrectable_memOk, contained_memOk, State.setMe_mem, flowDrain_mem]
theorem hstatEffect_memOk (s : State) (d a : Fin 64) (hs : s.memOk) : (hstatEffect s d a).memOk := by
  unfold hstatEffect
  grind [State.memOk, wf_mem_iff, atTable_memOk, pend_mem, Res.memOk, fault]
theorem hrelEffect_memOk (s : State) (a : Fin 64) (hs : s.memOk) : (hrelEffect s a).memOk := by
  unfold hrelEffect
  grind [State.memOk, wf_mem_iff, atTable_memOk, Res.memOk, fault]
theorem ftlCommand_mem {s t : State} {e : Nat} {v : W64} (h : s.ftlCommand e v = some t) : t.mem = s.mem := by
  unfold State.ftlCommand at h
  grind [setFlash_mem, State.schedule_mem]
theorem deliver_memOk (s : State) (e lp : Nat) (hs : s.memOk) : (s.deliver e lp).memOk := by
  unfold State.deliver
  dsimp only
  refine memOk_of_mem (kickFlash_mem _ _) (foldl_memOk (fun s h hs => ?_) _ _ hs)
  split
  · exact memOk_of_mem (doneUnits_mem _ _ _ _ _ _) (writeUnits_memOk _ _ _ _ hs)
  · exact hs
theorem switchData_memOk (s : State) (e k b : Nat) (hs : s.memOk) : (s.switchData e k b).memOk := foldl_memOk (fun s lp h => deliver_memOk s e lp h) _ _ (memOk_of_mem ((setFlash_mem _ _ _).trans (copyBlock_mem _ _ _)) hs)
theorem relocSwitch_memOk (s : State) (e k b : Nat) (hs : s.memOk) : (s.relocSwitch e k b).memOk := by
  unfold State.relocSwitch
  grind [State.memOk, wf_mem_iff, State.schedule_mem, switchParity_mem, switchData_memOk, setFlash_mem, ftlEnd_mem]
theorem engPlaces_state_mem (s : State) (x : Ctx) (a : Acc) (ws : List (Nat × List Byte)) : (s.engPlaces x a ws).state.mem = s.mem := by
  have h := engPlaces_mem x a ws s
  generalize s.engPlaces x a ws = e at h ⊢
  cases e <;> exact h
theorem engWrites_state_memOk (s : State) (x : Ctx) (eng : Nat) (shadow : Bool) (l : Overlap) (ws : List (Nat × List Byte)) (hs : s.memOk) :
    (s.engWrites x eng shadow l ws).state.memOk := by
  have h := engWrites_memOk x eng shadow l ws hs
  generalize s.engWrites x eng shadow l ws = e at h ⊢
  cases e <;> exact h
theorem devWrite_memOk (s : State) (d p va : Nat) (b : List Byte) (hs : s.memOk) : (s.devWrite d p va b).1.memOk := by
  have h := engWrites_state_memOk s (schedCtx d p) 17 false {} [(va, b)] hs
  unfold State.devWrite
  generalize s.engWrites (schedCtx d p) 17 false {} [(va, b)] = e at h ⊢
  cases e with
  | ok t v => exact h
  | stop t w => cases w <;> exact h
theorem payOwed_memOk (s : State) (hs : s.memOk) : (s.payOwed).memOk := foldl_memOk (fun s _ h => devWrite_memOk s _ _ _ _ h) _ _ hs
theorem cmdWrites_memOk (s : State) (x : Ctx) (eng : Nat) (shadow : Bool) (l : Overlap) (h id : Nat) (ws : List (Nat × List Byte)) (hs : s.memOk) : (s.cmdWrites x eng shadow l h id ws).state.memOk := by
  have h := engPlaces_state_mem s x (.dst shadow) (ws.flatMap fun w => byteCuts w.1 w.2)
  unfold State.cmdWrites
  generalize s.engPlaces x (.dst shadow) (ws.flatMap fun w => byteCuts w.1 w.2) = e at h ⊢
  cases e with
  | ok t ps => exact memOk_of_mem (noteWrites_mem _ _ _ _ _) (engPut_memOk _ _ _ _ _ (memOk_of_mem h hs))
  | stop t w => exact memOk_of_mem h hs
theorem shapeEffect_memOk (s : State) (a : Fin 64) (k : Fin 16) (hs : s.memOk) : (shapeEffect s a k).memOk := by
  have h := readVa_memOk s .load (s.me.sreg a.val) 64 hs
  unfold shapeEffect
  dsimp only
  split
  · trivial
  · split
    · rename_i heq
      rw [heq] at h
      exact h
    · split
      · trivial
      · exact memOk_of_mem (s := s) (countSpan_mem _ _ _) hs
theorem startCopies_memOk (s : State) (q h : Nat) (hs : s.memOk) : (s.startCopies q h).memOk := by
  unfold State.startCopies
  grind [State.memOk, wf_mem_iff, foldl_mem, State.setQuad_mem, State.schedule_mem]
theorem kickCopies_memOk (s : State) (q : Nat) (hs : s.memOk) : (s.kickCopies q).memOk := foldl_memOk (fun s h hs => startCopies_memOk s q h.1 hs) _ _ hs
theorem accept_memOk (s : State) (h : Nat) (m : CopyCmd) (hs : s.memOk) : (s.accept h m).memOk := by
  unfold State.accept
  grind [State.memOk, wf_mem_iff, State.setQuad_mem, order_mem, startCopies_memOk, Res.memOk]
theorem copyEffect_memOk (s : State) (kind : CopyKind) (wform : Bool) (dst src c : W64) (inc : Fin 16) (h : Fin 8) (mw : Micro) (hs : s.memOk) : (copyEffect s kind wform dst src c inc h mw).memOk := by
  unfold copyEffect
  grind [State.memOk, wf_mem_iff, accept_memOk, Res.memOk, fault]
theorem endCopy_memOk (s : State) (q h : Nat) (m : CopyCmd) (hs : s.memOk) : (s.endCopy q h m).memOk := by
  unfold State.endCopy
  grind [State.memOk, wf_mem_iff, updCopy_mem, completes_mem, State.schedule_mem, startCopies_memOk]
theorem failCopy_memOk (s : State) (q h : Nat) (m : CopyCmd) (sub : Nat) (va : W64) (hs : s.memOk) : (s.failCopy q h m sub va).memOk := by
  unfold State.failCopy
  grind [State.memOk, wf_mem_iff, State.setQuad_mem, leaves_mem, unitHalt_mem, startCopies_memOk]
theorem againCopy_memOk (s : State) (q : Nat) (m : CopyCmd) (n : Nat) (hs : s.memOk) : (s.againCopy q m n).memOk := by
  unfold State.againCopy
  grind [State.memOk, wf_mem_iff, State.schedule_mem]
theorem stopCopy_memOk (s : State) (q h : Nat) (m : CopyCmd) (w : EngStop) (hs : s.memOk) : (s.stopCopy q h m w).memOk := by
  unfold State.stopCopy
  grind [State.memOk, wf_mem_iff, failCopy_memOk, againCopy_memOk, countEcc_mem, updCopy_mem, queueRecord_mem, countRead_mem, awaitRepair_mem, Eng.state]
theorem appendBeats_memOk (s : State) (q : Nat) (m : CopyCmd) (f : Nat) (hs : s.memOk) : (s.appendBeats q m f).memOk := by
  unfold State.appendBeats
  grind [State.memOk, wf_mem_iff, settleArr_mem, State.setQuad_mem, updCopy_mem, State.schedule_mem, againCopy_memOk, Eng.state]
theorem keepCopy_memOk (s : State) (q h : Nat) (m : CopyCmd) (draws : Nat) (w : EngStop) (hs : s.memOk) : (s.keepCopy q h m draws w).memOk := by
  unfold State.keepCopy
  grind [State.memOk, wf_mem_iff, stopCopy_memOk, drewFor_mem, updCopy_mem, Eng.state]
theorem deliverSegment_memOk (s : State) (q h : Nat) (x : Ctx) (m : CopyCmd) (draws : Nat) (hs : s.memOk) : (s.deliverSegment q h x m draws).memOk := by
  unfold State.deliverSegment
  grind [State.memOk, wf_mem_iff, drewFor_mem, updCopy_mem, againCopy_memOk, engReads_mem, keepCopy_memOk, destPieces_mem, cmdWrites_memOk, Eng.state]
theorem copyPage_memOk (s : State) (q : Nat) (m : CopyCmd) (hs : s.memOk) : (s.copyPage q m).memOk := by
  unfold State.copyPage
  grind [State.memOk, wf_mem_iff, foldl_mem, flushPath_memOk, noteTraffic_mem, reach_mem, touchLines_mem, updCopy_mem, againCopy_memOk, State.schedule_mem, memWrite_wf]
theorem copySegment_memOk (s : State) (q id : Nat) (hs : s.memOk) : (s.copySegment q id).memOk := by
  unfold State.copySegment
  repeat' split
  all_goals grind [State.memOk, wf_mem_iff, againCopy_memOk, copyPage_memOk, State.schedule_mem, endCopy_memOk, appendBeats_memOk, fillSegment_mem, stopCopy_memOk, drewFor_mem, deliverSegment_memOk, updCopy_mem, Eng.state]
theorem waitcEffect_memOk (s : State) (h : Fin 8) (t : Fin 524288) (hs : s.memOk) : (waitcEffect s h t).memOk := by
  unfold waitcEffect
  dsimp only
  split
  · exact hs
  · split <;> exact hs
theorem drainEffect_memOk (s : State) (h c : Fin 8) (hs : s.memOk) : (drainEffect s h c).memOk := by
  unfold drainEffect
  grind [State.memOk, wf_mem_iff, Res.memOk, Eng.state]
theorem pagemvEffect_memOk (s : State) (a b : Fin 64) (h : Fin 8) (hs : s.memOk) : (pagemvEffect s a b h).memOk := by
  unfold pagemvEffect
  refine Res.memOk_ite _ trivial (Res.memOk_ite _ trivial (Res.memOk_ite _ trivial (Res.memOk_ite _ trivial (Res.memOk_ite _ trivial ?_))))
  split
  · trivial
  · trivial
  · exact Res.memOk_ite _ trivial (Res.memOk_ite _ hs (Res.memOk_ite _ hs (accept_memOk _ _ _ (memOk_of_mem (State.setMe_mem _ _) (removeTlb_memOk _ _ (memWrite_wf _ _ _ hs))))))
theorem pagemvDone_memOk (s : State) (q id : Nat) (hs : s.memOk) : (s.pagemvDone q id).memOk := by
  unfold State.pagemvDone
  grind [State.memOk, wf_mem_iff, State.setDie_mem, removeTlb_memOk, releaseReplay_mem, payOwed_memOk, endCopy_memOk, memWrite_wf, Eng.state]
theorem dropPair_memOk (s : State) (p : Nat) (k : Pair) (hs : s.memOk) : (s.dropPair p k).memOk := by
  unfold State.dropPair
  grind [State.memOk, wf_mem_iff, removeTlb_memOk]
theorem publishEffect_memOk (s : State) (n : Fin 64) (hs : s.memOk) : (publishEffect s n).memOk := by
  unfold publishEffect
  grind [State.memOk, wf_mem_iff, dropPair_memOk, State.setPart_mem, stall_mem, Res.memOk, fault]
theorem undefEffect_memOk (s : State) (n : Fin 64) (hs : s.memOk) : (undefEffect s n).memOk := by
  unfold undefEffect
  grind [State.memOk, wf_mem_iff, dropPair_memOk, State.setPart_mem, stall_mem, Res.memOk]
theorem defEffect_memOk (s : State) (n a : Fin 64) (hs : s.memOk) : (defEffect s n a).memOk := by
  unfold defEffect
  grind [State.memOk, wf_mem_iff, readSpan_memOk, countSpan_mem, State.setPart_mem, dropPair_memOk, Res.memOk, fault, MRes.memOk, Eng.state]
theorem leaseEffect_memOk (s : State) (r : Fin 64) (hs : s.memOk) : (leaseEffect s r).memOk := by
  unfold leaseEffect
  dsimp only
  split
  · split
    · trivial
    · split
      · exact hs
      · split
        · exact hs
        · exact hs
  · split
    · trivial
    · split
      · trivial
      · have h1 : ∀ (u : State) (l : List Lessee), u.memOk → (u.grantLeases s.myQuad l).memOk := fun u l hu => memOk_of_mem (grantLeases_mem _ _ _) hu
        split
        · split
          · exact h1 _ _ hs
          · exact h1 _ _ hs
        · exact h1 _ _ hs
theorem lookMatrix_memOk {s : State} (q : Nat) (h : s.memOk) : (s.lookMatrix q).memOk := memOk_of_mem (lookMatrix_mem s q) h
theorem acceptMatrix_memOk (s : State) (l : Lessee) (x : MatCmd) (hs : s.memOk) : (s.acceptMatrix l x).memOk := by
  have h2 : ((groupQuads s.myQuad l.word).foldl State.settleArr s).memOk := memOk_of_mem (foldl_mem (fun s p => settleArr_mem s p) _ _) hs
  unfold State.acceptMatrix
  dsimp only
  generalize (groupQuads s.myQuad l.word).foldl State.settleArr s = u at h2 ⊢
  have h3 : State.memOk (if u.turnOver s.myQuad = true then u.endTurn s.myQuad else u) := ite_memOk _ (memOk_of_mem (endTurn_mem u s.myQuad) h2) h2
  generalize (if u.turnOver s.myQuad = true then u.endTurn s.myQuad else u) = w at h3 ⊢
  refine Res.memOk_ite _ h3 (Res.memOk_ite _ (memOk_of_mem (s := w) (wantTurn_mem _ _) h3) (Res.memOk_ite _ (memOk_of_mem (wantTurn_mem _ _) h3) ?_))
  have h4 : ∀ c : Bool, State.memOk (if c = true then w.beginTurn w.cur (groupQuads s.myQuad l.word) else w) := fun c =>
    ite_memOk _ (memOk_of_mem (beginTurn_mem _ _ _) h3) h3
  have h5 : ∀ (c : Prop) [Decidable c] (v : State), v.memOk → State.memOk (if c then v else v.endTurn s.myQuad) := fun c _ v h =>
    ite_memOk _ h (memOk_of_mem (endTurn_mem _ _) h)
  refine h5 _ _ (memOk_of_mem (setArr_mem _ _ _) (foldl_memOk (fun v p h => ?_) _ _ (h4 _)))
  exact ite_memOk _ (lookMatrix_memOk _ (memOk_of_mem (setArr_mem _ _ _) h)) (memOk_of_mem (setArr_mem _ _ _) h)
theorem mmaEffect_memOk (s : State) (r : Fin 64) (f g : Fin 32) (sat o nb na : Bool) (b : Fin 4) (lent : Lent) (hs : s.memOk) : (mmaEffect s r f g sat o nb na b lent).memOk := by
  unfold mmaEffect
  grind [State.memOk, wf_mem_iff, acceptMatrix_memOk, Res.memOk, fault]
theorem mmvEffect_memOk (s : State) (r : Fin 64) (f g : Fin 32) (res sat o nb na : Bool) (b : Fin 4) (lent : Lent) (hs : s.memOk) : (mmvEffect s r f g res sat o nb na b lent).memOk := by
  unfold mmvEffect
  grind [State.memOk, wf_mem_iff, acceptMatrix_memOk, setArr_mem, Res.memOk, fault]
theorem mzeroEffect_memOk (s : State) (b : Fin 4) (hs : s.memOk) : (mzeroEffect s b).memOk := by
  unfold mzeroEffect
  grind [State.memOk, wf_mem_iff, acceptMatrix_memOk, Res.memOk, fault]
theorem mcfgEffect_memOk (s : State) (r : Fin 64) (hs : s.memOk) : (mcfgEffect s r).memOk := by
  unfold mcfgEffect
  grind [Res.memOk, State.memOk, wf_mem_iff, fault_memOk, uncorrectable_memOk, contained_memOk, State.setMe_mem]
theorem mwaitEffect_memOk (s : State) (m : Fin 16) (hs : s.memOk) : (mwaitEffect s m).memOk := by
  unfold mwaitEffect
  grind [State.memOk, wf_mem_iff, Res.memOk, fault]
theorem mdrainEffect_memOk (s : State) (r : Fin 64) (b : Fin 4) (hs : s.memOk) : (mdrainEffect s r b).memOk := by
  unfold mdrainEffect
  grind [Res.memOk, State.memOk, wf_mem_iff, fault_memOk, uncorrectable_memOk, contained_memOk, State.setMe_mem, flowDrain_mem]
theorem lfreeEffect_memOk (s : State) (hs : s.memOk) : (lfreeEffect s).memOk := by
  unfold lfreeEffect
  grind [State.memOk, wf_mem_iff, flowDrain_mem, releaseLease_mem, Res.memOk]
theorem descriptor_memOk (s : State) (va : W64) (hs : s.memOk) : (s.descriptor va).memOk := by
  unfold State.descriptor
  grind [State.memOk, wf_mem_iff, readVa_memOk, Res.memOk, fault, MRes.memOk, Eng.state]
theorem kvagEffect_memOk (s : State) (a : Fin 64) (g : Fin 16) (hs : s.memOk) : (kvagEffect s a g).memOk := by
  unfold kvagEffect
  grind [State.memOk, wf_mem_iff, descriptor_memOk, countSpan_mem, State.setDie_mem, stall_mem, Res.memOk, fault, MRes.memOk, Eng.state]
theorem attEffect_memOk (s : State) (dec : Bool) (a : Fin 64) (i : Fin 16) (h : Fin 8) (hs : s.memOk) : (attEffect s dec a i h).memOk := by
  unfold attEffect
  grind [State.memOk, wf_mem_iff, descriptor_memOk, countSpan_mem, State.setDie_mem, order_mem, stall_mem, kickAtt_mem, Res.memOk, fault, MRes.memOk, Eng.state]
theorem stageRow_memOk (s : State) (m : AttCmd) (src dst : W64) (hs : s.memOk) : (s.stageRow m src dst).state.memOk := by
  unfold State.stageRow
  grind [State.memOk, wf_mem_iff, foldl_mem, kvPieces_mem, engRead_mem, cmdWrites_memOk, Eng.state]
theorem stageRows_memOk (m : AttCmd) (r : AttRow) (u : Nat) (p : Pair) : ∀ (s : State) (js : List Nat), s.memOk → (s.stageRows m r u p js).state.memOk
  | _, [], hs => hs
  | s, j :: t, hs => by
    unfold State.stageRows
    dsimp only
    have h1 := stageRow_memOk s m (m.kv.row r.slot (field m.desc 46 2 + 1) r.head j) (p.nameVa + BitVec.ofNat 64 (2 * (m.kv.coldLen * m.kv.posS) * u + j * m.kv.posS)) hs
    split
    · rename_i heq
      rw [heq] at h1
      exact h1
    · rename_i s1 v heq
      rw [heq] at h1
      have h2 := stageRow_memOk s1 m (m.kv.row r.slot (field m.desc 46 2 + 1) r.head j + m.kv.vOff)
        (p.nameVa + BitVec.ofNat 64 (2 * (m.kv.coldLen * m.kv.posS) * u + j * m.kv.posS) + BitVec.ofNat 64 (m.kv.coldLen * m.kv.posS)) h1
      split
      · rename_i heq
        rw [heq] at h2
        exact h2
      · rename_i heq
        rw [heq] at h2
        exact stageRows_memOk m r u p _ t h2
theorem stageUnit_memOk (s : State) (m : AttCmd) (r : AttRow) (hs : s.memOk) : (s.stageUnit m r).state.memOk := by
  unfold State.stageUnit
  dsimp only
  split
  · exact hs
  · split
    · exact hs
    · split
      · exact hs
      · rename_i p _
        split
        · exact hs
        · have h := stageRows_memOk m r m.units.length p s (List.range m.kv.coldLen) hs
          split
          · rename_i heq
            rw [heq] at h
            exact h
          · rename_i heq
            rw [heq] at h
            exact h
theorem attRow_memOk (s : State) (m : AttCmd) (i : Nat) (hs : s.memOk) : (s.attRow m i).state.memOk := by
  unfold State.attRow
  repeat' split
  all_goals grind [State.memOk, wf_mem_iff, foldl_mem, attEntry_mem, stageUnit_memOk, engRead_mem, attTiles_mem, cmdWrites_memOk, Eng.state]
theorem attBlock_memOk (d e : Nat) : ∀ (s : State) (f : Nat) (m : AttCmd), s.memOk → (s.attBlock d e f m).memOk
  | s, 0, m, hs => by
    unfold State.attBlock
    split
    · exact memOk_of_mem (dropAtt_mem _ _ _ _) hs
    · exact memOk_of_mem ((kickAtt_mem _ _ _ _).trans (updAtt_mem _ _ _ _ _)) hs
  | s, f + 1, m, hs => by
    unfold State.attBlock
    have h := attRow_memOk s m m.row hs
    split
    · exact hs
    · split
      · rename_i heq
        rw [heq] at h
        exact memOk_of_mem (stopAtt_mem _ _ _ _ _) h
      · rename_i u bit units heq
        rw [heq] at h
        have hu : (u.updAtt d e m.ord fun o => some { o with row := m.row + 1, fullyMasked := m.fullyMasked ++ [bit], units := units }).memOk :=
          memOk_of_mem (updAtt_mem _ _ _ _ _) h
        dsimp only
        split
        · exact attBlock_memOk d e _ f _ hu
        · exact hu
theorem attStep_memOk (s : State) (d e : Nat) (hs : s.memOk) : (s.attStep d e).memOk := by
  unfold State.attStep
  grind [Res.memOk, State.memOk, wf_mem_iff, attBlock_memOk, kickAtt_mem, updAtt_mem, completes_mem, count_mem, State.schedule_mem]
theorem rteEffect_memOk (s : State) (a : Fin 64) (i : Fin 16) (h : Fin 8) (hs : s.memOk) : (rteEffect s a i h).memOk := by
  unfold rteEffect
  grind [State.memOk, wf_mem_iff, descriptor_memOk, countSpan_mem, State.setDie_mem, order_mem, stall_mem, kickRte_mem, Res.memOk, fault, MRes.memOk, Eng.state]
theorem writeOutputs_memOk (s : State) (m : RteCmd) (hs : s.memOk) : (s.writeOutputs m).state.memOk := by
  unfold State.writeOutputs
  grind [State.memOk, wf_mem_iff, engRead_mem, cmdWrites_memOk, Eng.state]
theorem passComplete_memOk (s : State) (d : Nat) (hs : s.memOk) : (s.passComplete d).memOk := by
  unfold State.passComplete
  grind [State.memOk, wf_mem_iff, State.schedule_mem, writeOutputs_memOk, stopRte_mem, updRte_mem, completes_mem, count_mem, kickRte_mem, Eng.state]
theorem ptrcfgEffect_memOk (s : State) (a : Fin 64) (hs : s.memOk) : (ptrcfgEffect s a).memOk := by
  unfold ptrcfgEffect
  grind [State.memOk, wf_mem_iff, State.setDie_mem, Res.memOk, fault]
theorem ptrldEffect_memOk (s : State) (a b : Fin 64) (hs : s.memOk) : (ptrldEffect s a b).memOk := by
  unfold ptrldEffect
  grind [State.memOk, wf_mem_iff, descriptor_memOk, countSpan_mem, State.setDie_mem, stall_mem, Res.memOk, fault, MRes.memOk, Eng.state]
theorem ptrrunEffect_memOk (s : State) (a b c : Fin 64) (hs : s.memOk) : (ptrrunEffect s a b c).memOk := by
  unfold ptrrunEffect
  grind [State.memOk, wf_mem_iff, ptrCount_mem, State.setDie_mem, State.schedule_mem, pointerRun_mem, Res.memOk, fault, Eng.state]
theorem expire_memOk (s : State) (p : Nat) (hs : s.memOk) : (s.expire p).memOk := by
  refine foldl_memOk (fun s e hs => foldl_memOk (fun s h hs => ?_) _ _ hs) _ _ hs
  dsimp only
  split
  · exact memOk_of_mem (ptrCount_mem _ _ _) (freeSlot_memOk _ _ _ hs)
  · exact hs
theorem endCompute_memOk (s : State) (p : Nat) (hs : s.memOk) : (s.endCompute p).memOk := by
  unfold State.endCompute
  grind [State.memOk, wf_mem_iff, State.setPart_mem, podArrive_mem, carry_mem, scheduleFirst_mem]
theorem boundarySteps_memOk (s : State) (p : Nat) (hs : s.memOk) : (s.boundarySteps p).memOk := by
  unfold State.boundarySteps
  grind [State.memOk, wf_mem_iff, applyQuotas_mem, resetCaps_mem, expire_memOk]
theorem closeBoundary_memOk (s : State) (p : Nat) (hs : s.memOk) : (s.closeBoundary p).memOk := by
  unfold State.closeBoundary
  grind [State.memOk, wf_mem_iff, foldl_mem, finishRuns_mem, flushFor_memOk, sealLanding_mem, completes_mem, count_mem, State.setPart_mem, boundarySteps_memOk, mapCtx_mem, State.schedule_mem, Eng.state]
theorem superstep_memOk (s : State) (p : Nat) (hs : s.memOk) : (s.superstep p).memOk := by
  unfold State.superstep
  grind [State.memOk, wf_mem_iff, endCompute_memOk, scheduleFirst_mem, closeBoundary_memOk]
theorem barEffect_memOk (s : State) (st c : Fin 8) (g : Fin 256) (hs : s.memOk) : (barEffect s st c g).memOk := by
  unfold barEffect
  dsimp only
  split
  · exact hs
  · exact hs
  · generalize (if c.val = 2 then !s.me.coop else decide ((s.part s.me.part).barSize c.val g.val = 0)) = bad
    cases bad with
    | true => trivial
    | false =>
      rw [if_neg (by simp)]
      split
      · exact releaseHold_memOk _ hs
      · exact memOk_of_mem (s := s) (barArrive_mem _ _ _ _ _) hs
theorem sstepEffect_memOk (s : State) (c : Fin 8) (hs : s.memOk) : (sstepEffect s c).memOk := by
  unfold sstepEffect
  dsimp only
  split
  · trivial
  · split
    · exact releaseHold_memOk _ hs
    · have h1 : ∀ (b : Prop) [Decidable b] (u : State), u.memOk → Res.memOk (.ok (if b then u.endCompute s.myPart else u)) := fun b _ u hu => by
        split
        · exact endCompute_memOk _ _ hu
        · exact hu
      exact h1 _ _ hs
theorem xsendEffect_memOk (s : State) (a b c : Fin 64) (i : Fin 16) (h : Fin 8) (hs : s.memOk) : (xsendEffect s a b c i h).memOk := by
  unfold xsendEffect
  grind [State.memOk, wf_mem_iff, State.newId_mem, order_mem, State.addReq_mem, State.schedule_mem, Res.memOk, fault]
theorem bindSend_memOk (s : State) (p d gen ix : Nat) (r : SendRec) (hs : s.memOk) : (s.bindSend p d gen ix r).memOk := by
  unfold State.bindSend
  grind [State.memOk, wf_mem_iff, exchangeFault_mem, State.setDie_mem, State.addReq_mem, land_mem, againLand_mem]
theorem bindArrives_memOk (s : State) (id : Nat) (hs : s.memOk) : (s.bindArrives id).memOk := by
  unfold State.bindArrives
  grind [State.memOk, wf_mem_iff, bindSend_memOk, phaseDone_mem]
theorem xrecvEffect_memOk (s : State) (d k : Fin 64) (hs : s.memOk) : (xrecvEffect s d k).memOk := by
  unfold xrecvEffect
  grind [State.memOk, wf_mem_iff, pend_mem, State.addReq_mem, State.schedule_mem, Res.memOk]
theorem scramblePriv_memOk (s : State) (c : Nat) (t : Task) (hs : s.memOk) : (s.scramblePriv c t).memOk := by
  unfold State.scramblePriv
  grind [State.memOk, wf_mem_iff, State.newSeed_mem, scramble_memOk, memWrite_wf]
theorem kickUnits_memOk (s : State) (c : Nat) (hs : s.memOk) : (s.kickUnits c).memOk := by
  unfold State.kickUnits
  grind [State.memOk, wf_mem_iff, foldl_mem, kickCopies_memOk, wakeMatrix_mem, kickAtt_mem, kickRte_mem]
theorem saveCore_memOk (s : State) (c : Nat) (hs : s.memOk) : (s.saveCore c).memOk := by
  unfold State.saveCore
  grind [State.memOk, wf_mem_iff, resumeCore_mem, tallocArrives_mem, settleArr_mem, release_mem, State.setQuad_mem, State.setDie_mem, State.setCore_mem, leaveReplay_mem, kickUnits_memOk, memWrite_wf, Eng.state]
theorem restorePad_wf (v : Saved) (seed : Nat) {m : Tbl Byte} (h : Memory.wf m = true) : Memory.wf (v.restorePad seed m) = true := by
  refine List.foldlRecOn (motive := fun m => Memory.wf m = true) _ _ ?_ fun m hm e _ => memWrite_wf _ _ _ hm
  exact List.foldlRecOn (motive := fun m => Memory.wf m = true) _ _ (clearPad_wf _ h) fun m hm n _ => memWrite_wf _ _ _ hm
theorem restoreCore_memOk (s : State) (v : Saved) (hs : s.memOk) : (s.restoreCore v).memOk := by
  have h1 : State.memOk { s.newSeed.2 with mem := v.restorePad s.newSeed.1 s.newSeed.2.mem } := restorePad_wf v _ hs
  unfold State.restoreCore
  dsimp only
  refine memOk_of_mem (s := { s.newSeed.2 with mem := v.restorePad s.newSeed.1 s.newSeed.2.mem }) ?_ h1
  rw [foldl_mem (fun s p => State.schedule_mem s _ _), foldl_mem (fun s o => by split <;> simp)]
  rw [State.setDie_mem, State.setQuad_mem]
  split
  · rfl
  · rw [foldl_mem (fun s p => State.schedule_mem s _ _)]
    rfl
theorem restoreAll_memOk (s : State) (d : Nat) (hs : s.memOk) : (s.restoreAll d).memOk := by
  unfold State.restoreAll
  dsimp only
  generalize (s.die d).saved.filter s.restorable = back
  refine foldl_memOk (f := fun (s : State) (v : Saved) => s.kickUnits v.core) (fun s v h => kickUnits_memOk s v.core h) _ _ ?_
  exact foldl_memOk (f := State.restoreCore) restoreCore_memOk _ _ hs
theorem slipWrite_memOk (s : State) (p : Nat) (b : List Byte) (hs : s.memOk) : (s.slipWrite p b).memOk := by
  unfold State.slipWrite
  grind [State.memOk, wf_mem_iff, State.setPart_mem, devWrite_memOk]
theorem frameStep_memOk (s : State) (p : Nat) (hs : s.memOk) : (s.frameStep p).memOk := by
  unfold State.frameStep
  grind [State.memOk, wf_mem_iff, foldl_mem, slipWrite_memOk, State.setPart_mem, scheduleOnce_mem, Eng.state]
theorem frameSteps_memOk (s : State) (p : Nat) (hs : s.memOk) : (s.frameSteps p).memOk := by
  unfold State.frameSteps
  grind [State.memOk, wf_mem_iff, finishRuns_mem, State.setPart_mem, boundarySteps_memOk]
theorem startFrame_memOk (s : State) (p : Nat) (hs : s.memOk) : (s.startFrame p).memOk := by
  unfold State.startFrame
  grind [State.memOk, wf_mem_iff, frameSteps_memOk, State.setPart_mem, scheduleFirst_mem]
theorem deferredStart_memOk (s : State) (p : Nat) (hs : s.memOk) : (s.deferredStart p).memOk := by
  unfold State.deferredStart
  grind [State.memOk, wf_mem_iff, State.setPart_mem, frameSteps_memOk, scheduleFirst_mem]
theorem insertTask_state_memOk (s : State) (p d : Nat) (r : List Byte) (n : Node) (start : W64) (l : Option Nat) (hs : s.memOk) :
    (s.insertTask p d r n start l).state.memOk := by
  cases h : s.insertTask p d r n start l with
  | ok t b => exact insertTask_memOk h hs
  | stop t w =>
    unfold State.insertTask at h
    dsimp only at h
    split at h
    · cases h
    · split at h
      · cases h
        exact hs
      · cases h
      · cases h
theorem startCore_memOk (s : State) (c : Nat) (t : Task) (pc : W64) (cont : Bool) (lat : Nat) (hs : s.memOk) : (s.startCore c t pc cont lat).memOk := by
  have key : ∀ (u : State) (k : Core), u.memOk → State.memOk (if cont = true
      then ((u.setCore c (if cont = true then { k with post := .resume } else k)).scramblePriv c t).scheduleFirst lat (.continuationResume c)
      else (u.setCore c (if cont = true then { k with post := .resume } else k)).scramblePriv c t) := fun u k hu =>
    ite_memOk _ (memOk_of_mem (scheduleFirst_mem _ _ _) (scramblePriv_memOk _ _ _ hu)) (scramblePriv_memOk _ _ _ hu)
  have hclear : State.memOk { s with mem := clearPad s.mem c } := clearPad_wf c hs
  unfold State.startCore
  exact key _ _ (ite_memOk _ hclear hs)
theorem place_memOk (s : State) (p ent : Nat) (e : Entry) (spilled : Bool) (cs : List Nat) (hs : s.memOk) : (s.place p ent e spilled cs).memOk := by
  exact foldl_memOk (fun s c h => startCore_memOk s _ _ _ _ _ h) _ _ hs
theorem handOut_memOk (d : Nat) : ∀ (s : State) (l : List (Nat × Nat × Bool)) (r : Option Nat), s.memOk → (s.handOut d l r).memOk
  | _, [], _, hs => hs
  | s, (p, ent, sp) :: t, r, hs => by
    unfold State.handOut
    split
    · exact handOut_memOk d s t r hs
    · rename_i e _
      split
      · exact handOut_memOk d s t r hs
      · dsimp only
        split
        · exact handOut_memOk d s t _ hs
        · have he := rereadNode_mem s e
          split
          · rename_i heq
            rw [heq] at he
            exact handOut_memOk d _ t r (place_memOk _ _ _ _ _ _ (memOk_of_mem he hs))
          · rename_i heq
            rw [heq] at he
            exact memOk_of_mem ((scheduleOnce_mem _ _ _).trans he) hs
theorem dispatch_memOk (s : State) (d : Nat) (hs : s.memOk) : (s.dispatch d).memOk := handOut_memOk d _ _ _ (restoreAll_memOk s d hs)
theorem suspendCore_memOk (s : State) (c kind reg : Nat) (word : W64) (hs : s.memOk) : (s.suspendCore c kind reg word).memOk := by
  unfold State.suspendCore
  dsimp only
  repeat' split
  all_goals grind [State.memOk, wf_mem_iff, ringWrite_memOk, freeCore_mem, State.setPart_mem, State.setDie_mem, makeReady_mem, State.schedule_mem, taskReady_mem]
theorem trySuspend_memOk (s : State) (c : Nat) (hs : s.memOk) : (s.trySuspend c).memOk := by
  unfold State.trySuspend
  grind [State.memOk, wf_mem_iff, endTask_mem, suspendCore_memOk, noteRelease_mem, flowDrain_mem]
theorem tspawnEffect_memOk (s : State) (a b : Fin 64) (hs : s.memOk) : (tspawnEffect s a b).memOk := by
  have h := readSpan_memOk s (s.me.sreg a.val) 32 hs
  unfold tspawnEffect
  dsimp only
  split
  · trivial
  · split
    · trivial
    · split
      · rename_i heq
        rw [heq] at h
        exact h
      · rename_i r _
        have hc := checkRecord_mem s s.myPart (s.me.sreg b.val).toNat r
        split
        · exact hs
        · trivial
        · rename_i heq
          rw [heq] at hc
          split
          · exact releaseHold_memOk _ (memOk_of_mem hc hs)
          · exact memOk_of_mem (s := s) ((countSpan_mem _ _ _).trans hc) hs
theorem insertion_memOk (s : State) (id : Nat) (hs : s.memOk) : (s.insertion id).memOk := by
  unfold State.insertion
  repeat' split
  all_goals grind [State.memOk, wf_mem_iff, State.schedule_mem, State.setCore_mem, coreHalt_mem, checkRecord_mem, insertTask_memOk, Eng.state]
theorem parkEffect_memOk (s : State) (n : Nat) (hs : s.memOk) : (parkEffect s n).memOk := by
  unfold parkEffect
  grind [Res.memOk, State.memOk, wf_mem_iff, fault_memOk, uncorrectable_memOk, contained_memOk, State.setMe_mem]
theorem tdoneEffect_memOk (s : State) (hs : s.memOk) : (tdoneEffect s).memOk := by
  unfold tdoneEffect
  dsimp only
  split
  · exact memOk_of_mem (s := s) (barArrive_mem _ _ _ _ _) hs
  · exact hs
theorem gloadEffect_memOk (s : State) (d : Fin 64) (k : Fin 1024) (l : Lent) (hs : s.memOk) : (gloadEffect s d k l).memOk := by
  unfold gloadEffect
  grind [State.memOk, wf_mem_iff, pend_mem, Res.memOk, fault]
theorem snapstEffect_memOk (s : State) (b : Fin 64) (o : Fin 256) (l : Lent) (hs : s.memOk) : (snapstEffect s b o l).memOk := by
  unfold snapstEffect
  dsimp only
  split
  · trivial
  · split
    · trivial
    · split
      · rename_i heq
        exact places_stop heq hs
      · exact storePieces_memOk _ _ hs
theorem readImage_memOk (s : State) (va : W64) (n : Nat) (hs : s.memOk) : (s.readImage va n).memOk := by
  unfold State.readImage
  split
  · rename_i heq
    exact readLines_stop heq hs
  · trivial
theorem eretEffect_memOk (s : State) (st : Fin 8) (a b : Fin 64) (hs : s.memOk) : (eretEffect s st a b).memOk := by
  unfold eretEffect
  dsimp only
  repeat' split
  all_goals grind [State.memOk, wf_mem_iff, readImage_memOk, eretTo_mem, Res.memOk, fault, MRes.memOk, Eng.state]
theorem haltEffect_memOk (s : State) (a : Fin 64) (hs : s.memOk) : (haltEffect s a).memOk := by
  unfold haltEffect
  grind [State.memOk, wf_mem_iff, haltPart_mem, Res.memOk, fault]
theorem insertHandler_memOk {s t : State} {d i : Nat} (h : s.insertHandler d i = some t) (hs : s.memOk) : t.memOk := by
  unfold State.insertHandler at h
  have hc := checkRecord_mem s s.svPart d (handlerRecord s.svcfg (classOf d) i s.svPart)
  dsimp only at h
  split at h
  · rename_i heq
    rw [heq] at hc
    cases h
    exact memOk_of_mem hc hs
  · rename_i heq
    rw [heq] at hc
    split at h
    · rename_i hi
      cases h
      exact insertTask_memOk hi (memOk_of_mem hc hs)
    · cases h
  · cases h
theorem recordWrite_memOk (s : State) (d : Nat) (hs : s.memOk) : (s.recordWrite d).memOk := by
  unfold State.recordWrite
  dsimp only
  split
  · exact hs
  · rename_i r who t _
    have hp : ∀ u : State, u.memOk → State.memOk (if t.isEmpty then u.setDie d { u.die d with recs := t }
        else (u.setDie d { u.die d with recs := t }).scheduleOnce 1 (.svqRecordWrite d)) := fun u hu => by
      split
      · exact hu
      · exact memOk_of_mem (s := u) (scheduleOnce_mem _ _ _) hu
    have hw : (s.scheduleOnce 64 (.svqRecordWrite d)).memOk := memOk_of_mem (scheduleOnce_mem _ _ _) hs
    split
    · exact hp s hs
    · split
      · exact hw
      · split
        · exact hw
        · rename_i u heq
          have hu := insertHandler_memOk heq hs
          have he := engWrites_state_memOk u (schedCtx d u.svPart) 17 false {} [(bits u.svqBase 63 12 * 4096 + 64 * (u.svqHead.toNat % 2 ^ bits s.svqBase 4 0), r.take 56 ++ leBytes 8 u.beacon.toNat)] hu
          split
          · exact hw
          · rename_i v _ heq
            rw [heq] at he
            exact hp _ he
theorem statusWrite_memOk (s : State) (p : Nat) (va : W64) (off : Nat) (b : List Byte) (hs : s.memOk) : (s.statusWrite p va off b).memOk := by
  unfold State.statusWrite
  grind [State.memOk, wf_mem_iff, devWrite_memOk]
theorem noteEnded_memOk (s : State) (launch : Option Nat) (tag : Nat) (hs : s.memOk) : (s.noteEnded launch tag).memOk := by
  unfold State.noteEnded
  grind [State.memOk, wf_mem_iff, statusWrite_memOk]
theorem releaseParty_memOk {s : State} (hs : s.memOk) : ∀ p : Party, (s.releaseParty p).memOk
  | .core c p => by
    unfold State.releaseParty
    dsimp only
    split
    · split <;> exact hs
    · exact memOk_of_mem (mapSaved_mem _ _) hs
  | .copy q id => kickCopies_memOk _ _ (memOk_of_mem (mapCopies_mem _ _) hs)
  | .att d e id => memOk_of_mem (s := s) ((kickAtt_mem _ _ _ _).trans ((mapSaved_mem _ _).trans (updAtt_mem _ _ _ _ _))) hs
  | .rte d id => memOk_of_mem (s := s) ((kickRte_mem _ _).trans ((mapSaved_mem _ _).trans (updRte_mem _ _ _ _))) hs
  | .flash _ _ => hs
  | .send d ix id => by
    unfold State.releaseParty
    dsimp only
    split
    · exact memOk_of_mem (s := s) ((kickLands_mem _ _).trans (updSend_mem _ _ _ _)) hs
    · exact memOk_of_mem (s := s) (updSend_mem _ _ _ _) hs
theorem endHeld_memOk (s : State) (c p : Nat) (hs : s.memOk) : (s.endHeld c p).memOk := by
  unfold State.endHeld
  grind [State.memOk, wf_mem_iff, noteEnded_memOk, endArrives_mem, State.setCore_mem, mapSaved_mem]
theorem failHeld_memOk (s : State) (f : CopyCmd → Bool) (hs : s.memOk) : (s.failHeld f).memOk := by
  refine foldl_memOk (fun s e h => memOk_of_mem ((unitHalt_mem _ _ _ _ _ _).trans (failSaved_mem _ _ _ _ _)) h) _ _ ?_
  exact foldl_memOk (fun s e h => failCopy_memOk _ _ _ _ _ _ h) _ _ hs
theorem endPage_memOk (s : State) (e lp : Nat) (hs : s.memOk) : (s.endPage e lp).memOk := by
  unfold State.endPage
  dsimp only
  refine failHeld_memOk _ _ (foldl_memOk (fun s c h => endHeld_memOk _ _ _ h) _ _ (foldl_memOk (fun s h hs => freeSlot_memOk _ _ _ hs) _ _ ?_))
  refine foldl_memOk (fun s p h => foldl_memOk (fun s n h => ?_) _ _ h) _ _ hs
  split
  · exact noteEnded_memOk _ _ _ (memOk_of_mem (freeEntry_mem _ _ _) h)
  · exact h
theorem endParty_memOk {s : State} (hs : s.memOk) : ∀ p : Party, (s.endParty p).memOk
  | .core c p => endHeld_memOk _ _ _ hs
  | .copy q id => failHeld_memOk _ _ hs
  | .att d e id => by
    unfold State.endParty
    dsimp only
    split
    · exact memOk_of_mem (stopAtt_mem _ _ _ _ _) hs
    · split
      · exact memOk_of_mem ((unitHalt_mem _ _ _ _ _ _).trans (failSaved_mem _ _ _ _ _)) hs
      · exact hs
  | .rte d id => by
    unfold State.endParty
    dsimp only
    split
    · exact memOk_of_mem (stopRte_mem _ _ _ _ _) hs
    · split
      · exact memOk_of_mem ((unitHalt_mem _ _ _ _ _ _).trans (failSaved_mem _ _ _ _ _)) hs
      · exact hs
  | .flash e lp => by
    unfold State.endParty
    dsimp only
    split
    · exact endPage_memOk _ _ _ hs
    · exact hs
  | .send d ix id => by
    unfold State.endParty
    dsimp only
    split
    · split
      · split
        · exact memOk_of_mem (landFails_mem _ _ _ _ _ _ _) hs
        · exact hs
      · exact hs
    · exact hs
theorem svackRelease_memOk (s : State) (ix : Nat) (hs : s.memOk) : (s.svackRelease ix).memOk := by
  unfold State.svackRelease
  split
  · exact hs
  · exact hs
  · refine releaseParty_memOk ?_ _
    exact hs
theorem svackEnd_memOk (s : State) (ix : Nat) (hs : s.memOk) : (s.svackEnd ix).memOk := by
  unfold State.svackEnd
  split
  · exact hs
  · refine endParty_memOk ?_ _
    exact hs
theorem saveUnit_memOk (s : State) (p kind ix : Nat) (hs : s.memOk) : (s.saveUnit p kind ix).memOk := by
  unfold State.saveUnit
  grind [State.memOk, wf_mem_iff, saveCore_memOk]
theorem haltLine_memOk (s : State) (p kind ix : Nat) (hs : s.memOk) : (s.haltLine p kind ix).memOk := by
  unfold State.haltLine
  grind [State.memOk, wf_mem_iff, State.schedule_mem, State.setCore_mem, settleArr_mem, queueRecord_mem, saveUnit_memOk, State.setPart_mem]
theorem kickDie_memOk (s : State) (d : Nat) (hs : s.memOk) : (s.kickDie d).memOk := by
  have h1 : (s.quads.foldl (fun (s : State) (q : Nat × Quad) => if dieOfQuad q.1 = d then (s.kickCopies q.1).wakeMatrix q.1 else s) s).memOk := by
    refine foldl_memOk (fun s q h => ?_) _ _ hs
    split
    · exact memOk_of_mem (wakeMatrix_mem _ _) (kickCopies_memOk _ _ h)
    · exact h
  unfold State.kickDie
  dsimp only
  generalize s.quads.foldl _ s = u at h1 ⊢
  have h2 : ∀ v : State, v.memOk → State.memOk (if 2 ≤ d then v.kickFlash (d - 2) else v) := fun v hv => by
    split
    · exact memOk_of_mem (kickFlash_mem _ _) hv
    · exact hv
  refine h2 _ (memOk_of_mem (s := u) ?_ h1)
  rw [foldl_mem (fun s a => kickLands_mem s a), foldl_mem (fun s _ => State.schedule_mem s _ _), scheduleOnce_mem, kickRte_mem, foldl_mem (fun s e => kickAtt_mem _ _ _ _)]
theorem pstateResume_memOk (s : State) (p : Nat) (hs : s.memOk) : (s.pstateResume p).memOk := by
  unfold State.pstateResume
  dsimp only
  split
  · exact hs
  · exact foldl_memOk (fun s d h => kickDie_memOk s d h) _ _ (memOk_of_mem (s := s) (mapSaved_mem _ _) hs)
theorem beginSlice_memOk (s : State) (d k p : Nat) (w : W64) (hs : s.memOk) : (s.beginSlice d k p w).memOk := by
  unfold State.beginSlice
  grind [State.memOk, wf_mem_iff, State.setDie_mem, kickDie_memOk, State.schedule_mem]
theorem endSlices_memOk (s : State) (d : Nat) (hs : s.memOk) : (s.endSlices d).memOk := by
  unfold State.endSlices
  grind [State.memOk, wf_mem_iff, State.setDie_mem, kickDie_memOk]
theorem sliceEnd_memOk (s : State) (d : Nat) (hs : s.memOk) : (s.sliceEnd d).memOk := by
  unfold State.sliceEnd
  grind [State.memOk, wf_mem_iff, foldl_mem, endSlices_memOk, beginSlice_memOk, State.schedule_mem, settleArr_mem, State.setDie_mem]
theorem preemptUnit_memOk (s : State) (d kind ix : Nat) (hs : s.memOk) : (s.preemptUnit d kind ix).memOk := by
  unfold State.preemptUnit
  grind [State.memOk, wf_mem_iff, State.schedule_mem, State.setCore_mem, saveUnit_memOk, State.setDie_mem]
theorem preemptDone_memOk (s : State) (d : Nat) (hs : s.memOk) : (s.preemptDone d).memOk := by
  unfold State.preemptDone
  grind [State.memOk, wf_mem_iff, State.setDie_mem, sliceEnd_memOk]
theorem freeSlots_memOk (s : State) (p : Nat) (hs : s.memOk) : (s.freeSlots p).memOk := foldl_memOk (fun _ _ h => foldl_memOk (fun _ _ h => freeSlot_memOk _ _ _ h) _ _ h) _ _ hs
theorem tearDown_memOk (s : State) (p : Nat) (hs : s.memOk) : (s.tearDown p).memOk := by
  unfold State.tearDown
  dsimp only
  refine foldl_memOk (fun s d h => kickDie_memOk s d h) _ _ (memOk_of_mem (podMissing_mem _) (foldl_memOk (fun s k h => dropPair_memOk _ _ _ h) _ _ ?_))
  refine memOk_of_mem (State.setPart_mem _ _ _) (memOk_of_mem ((foldl_mem (fun s d => by split <;> rfl) _ _).trans (foldl_mem (fun s d => by split <;> simp) _ _)) (freeSlots_memOk _ _ (memOk_of_mem ?_ hs)))
  rw [freeTiles_mem, foldl_mem (fun s q => lookMatrix_mem _ _), foldl_mem (fun s e => dropArray_mem _ _ _)]
  exact foldl_mem (fun s q => by simp) _ _
theorem unlessRsv_memOk (n : Nat) (v : W64) {s t : State} (hs : s.memOk) (ht : t.memOk) : (unlessRsv n v s t).memOk := by
  unfold unlessRsv
  split
  · exact hs
  · exact ht
theorem ttbaseSet_memOk (s : State) (p : Nat) (v : W64) (hs : s.memOk) : (s.ttbaseSet p v).memOk := by
  unfold State.ttbaseSet
  grind [State.memOk, wf_mem_iff, State.setPart_mem, removeTlb_memOk]
theorem sliceSet_memOk (s : State) (n : Nat) (v : W64) (hs : s.memOk) : (s.sliceSet n v).memOk := by
  unfold State.sliceSet
  grind [State.memOk, wf_mem_iff, slipWrite_memOk, endSlices_memOk, scheduleOnce_mem, sliceEnd_memOk]
theorem okIf_memOk (b : Bool) {s : State} (hs : s.memOk) : (okIf b s).memOk := by
  unfold okIf
  split
  · exact hs
  · trivial
theorem ownWrite_memOk (s : State) (n : Nat) (v : W64) (hs : s.memOk) : (s.ownWrite n v).memOk := by
  unfold State.ownWrite
  dsimp only
  split
  · exact okIf_memOk _ hs
  · exact memOk_of_mem (srseedSet_mem _ _ _) hs
  · exact okIf_memOk _ hs
  · exact hs
  · exact hs
  · exact hs
  · exact Res.memOk_ite _ hs (Res.memOk_ite _ hs hs)
theorem partWrite_memOk (s : State) (n : Nat) (v : W64) (hs : s.memOk) : (s.partWrite n v).memOk := by
  unfold State.partWrite
  grind [State.memOk, wf_mem_iff, okIf_memOk, State.setPart_mem, pstateHalt_mem, pstateResume_memOk, sscfgSet_mem, ttbaseSet_memOk, stall_mem, Res.memOk]
theorem dieWrite_memOk (s : State) (n : Nat) (v : W64) (hs : s.memOk) : (s.dieWrite n v).memOk := by
  unfold State.dieWrite
  grind [State.memOk, wf_mem_iff, State.setDie_mem, okIf_memOk, Res.memOk]
theorem unitWrite_memOk (s : State) (n : Nat) (v : W64) (hs : s.memOk) : (s.unitWrite n v).memOk := by
  have hf : ∀ t, s.ftlCommand (n - 0x124) v = some t → t.memOk := fun t h => memOk_of_mem (ftlCommand_mem h) hs
  unfold State.unitWrite
  dsimp only
  refine Res.memOk_ite _ hs (Res.memOk_ite _ hs (Res.memOk_ite _ (okIf_memOk _ hs) (Res.memOk_ite _ ?_ (Res.memOk_ite _ hs (Res.memOk_ite _ ?_
    (Res.memOk_ite _ hs (Res.memOk_ite _ (okIf_memOk _ hs) (Res.memOk_ite _ (okIf_memOk _ hs) (Res.memOk_ite _ hs (Res.memOk_ite _ ?_ hs))))))))))
  · split
    · exact hf _ ‹_›
    · trivial
  · exact ite_memOk _ hs hs
  · exact ite_memOk _ (svackEnd_memOk _ _ hs) (svackRelease_memOk _ _ hs)
theorem regWrite_memOk (s : State) (n : Nat) (v : W64) (hs : s.memOk) : (s.regWrite n v).memOk := by
  unfold State.regWrite
  grind [State.memOk, wf_mem_iff, ownWrite_memOk, partWrite_memOk, unitWrite_memOk, dieWrite_memOk, kpartSet_mem, State.setPart_mem, sliceSet_memOk, Res.memOk, fault]
theorem rdmsEffect_memOk (s : State) (d : Fin 64) (n : Fin 1024) (hs : s.memOk) : (rdmsEffect s d n).memOk := by
  unfold rdmsEffect
  grind [State.memOk, wf_mem_iff, pushS_mem, Res.memOk, fault]
theorem wrmsEffect_memOk (s : State) (a : Fin 64) (n : Fin 1024) (hs : s.memOk) : (wrmsEffect s a n).memOk := by
  unfold wrmsEffect
  grind [State.memOk, wf_mem_iff, regWrite_memOk, Res.memOk, fault]
theorem packetEnd_memOk (s : State) (b : List Byte) (v : Verdict) (hs : s.memOk) : (s.packetEnd b v).memOk := by
  unfold State.packetEnd
  grind [State.memOk, wf_mem_iff, statusWrite_memOk, State.schedule_mem]
theorem launchRecord_memOk (s : State) (b : List Byte) (launch i : Nat) (hs : s.memOk) : (s.launchRecord b launch i).state.memOk := by
  unfold State.launchRecord
  rw [orElse_state]
  refine andThen_memOk (memOk_of_mem (imageRead_mem _ _ _ _ _) hs) fun u r hu => andThen_memOk (memOk_of_mem (checkRecord_mem _ _ _ _) hu) fun u n hu => ?_
  cases n with
  | error c => exact hu
  | ok n => exact andThen_memOk (insertTask_state_memOk _ _ _ _ _ _ _ hu) fun u done hu => hu
theorem launchRecords_memOk (b : List Byte) (launch : Nat) : ∀ (s : State) (n i : Nat) (v : Verdict), s.memOk → (s.launchRecords b launch n i v).state.memOk
  | _, 0, _, _, hs => hs
  | s, n + 1, i, _, hs => andThen_memOk (launchRecord_memOk s b launch i hs) fun u _ hu => launchRecords_memOk b launch u n (i + 1) _ hu
theorem launch_memOk (s : State) (b : List Byte) (hs : s.memOk) : (s.launch b).state.memOk := by
  unfold State.launch
  exact andThen_memOk (launchRecords_memOk _ _ _ _ _ _ (memOk_of_mem (s := s) ((create_mem _ _).trans (packetSets_mem _ _)) hs)) fun u v hu => hu
theorem takePacket_memOk {s : State} (ev : Instr) {f : State → List Byte → Eng Verdict} (hs : s.memOk) (hf : ∀ b, (f s b).state.memOk) :
    (s.takePacket ev f).memOk := by
  unfold State.takePacket
  split
  · exact hs
  · rename_i b _
    split
    · exact packetEnd_memOk _ _ _ hs
    · have h := hf b
      split
      · rename_i heq
        rw [heq] at h
        exact packetEnd_memOk _ _ _ h
      · exact hs
theorem tearPacket_memOk (s : State) (hs : s.memOk) : (s.tearPacket).memOk := by
  unfold State.tearPacket
  grind [State.memOk, wf_mem_iff, packetEnd_memOk, packetSets_mem, tearDown_memOk, State.schedule_mem]
theorem command_memOk {s : State} (op : Nat) (ev : Instr) {f : State → Eng Unit} (hs : s.memOk) (hf : ∀ u, u.memOk → (f u).state.memOk) :
    (s.command op ev f).memOk := by
  have hr : ∀ u : State, u.memOk → State.memOk (match f u with
      | .ok s _ => s
      | .stop s _ => { s with mboxNext := some ev }.schedule 64 ev) := fun u hu => by
    have h := hf u hu
    generalize f u = e at h ⊢
    cases e <;> exact h
  unfold State.command
  dsimp only
  split
  · split
    · exact hr { s with mboxNext := none } hs
    · exact hs
  · split
    · exact hs
    · exact hr { s with mboxOp := op, mboxState := 1, mboxDetail := 0 } hs
theorem attestTo_memOk (s : State) (a0 a1 : W64) (hs : s.memOk) : (s.attestTo a0 a1).state.memOk := by
  refine andThen_memOk (memOk_of_mem (mboxRead_mem _ _ _) hs) fun u b hu => ?_
  cases b with
  | none => exact hu
  | some nonce =>
    have h := engPlaces_state_mem u (schedCtx 0 u.svPart) (.dst false) (byteCuts a1.toNat (u.reportAll nonce))
    dsimp only
    split
    · rename_i heq
      rw [heq] at h
      exact memOk_of_mem h hu
    · rename_i heq
      rw [heq] at h
      exact memOk_of_mem h hu
    · rename_i heq
      rw [heq] at h
      have hv := memOk_of_mem h hu
      change State.memOk (if _ then _ else _)
      split
      · exact engPut_memOk _ _ _ _ _ hv
      · exact hv
theorem loadPage_memOk (s : State) (l : Load) (hs : s.memOk) : (s.loadPage l).state.memOk := by
  unfold State.loadPage
  grind [State.memOk, wf_mem_iff, engWrites_memOk, loadFail_mem, takeSpare_mem, Eng.state]
theorem loadPages_memOk : ∀ (s : State) (n : Nat), s.memOk → (s.loadPages n).memOk
  | _, 0, hs => hs
  | s, n + 1, hs => by
    unfold State.loadPages
    split
    · exact hs
    · rename_i l _
      split
      · have h := loadPage_memOk s l hs
        split
        · rename_i heq
          rw [heq] at h
          exact loadPages_memOk _ n h
        · rename_i heq
          rw [heq] at h
          exact memOk_of_mem (scheduleOnce_mem _ _ _) h
      · exact hs
theorem chunk_memOk (s : State) (data : List Byte) (hs : s.memOk) : (s.chunk data).memOk := by
  unfold State.chunk
  dsimp only
  split
  · exact memOk_of_mem (relayStart_mem _ _) hs
  · rename_i l _
    split
    · exact hs
    · split
      · exact memOk_of_mem (loadFail_mem _ _ _) hs
      · have hp : ∀ (u : State) (n : Nat), u.memOk → State.memOk (match (u.loadPages n).loadw with
            | none => u.loadPages n
            | some m => if m.written = m.pages then (u.loadPages n).scheduleOnce 1 .loadwSwitch else u.loadPages n) := fun u n hu => by
          have h := loadPages_memOk u n hu
          split
          · exact h
          · split
            · exact memOk_of_mem (scheduleOnce_mem _ _ _) h
            · exact h
        exact hp _ _ hs
theorem loadMap_memOk (s : State) (l : Load) (hs : s.memOk) : (s.loadMap l).memOk := by
  unfold State.loadMap
  refine foldl_memOk (fun s lp h => deliver_memOk _ _ _ h) _ _ (memOk_of_mem (s := s) ?_ hs)
  rw [foldl_mem (fun s b => by dsimp only; split <;> simp)]
  exact setFlash_mem _ _ _
theorem loadSwitch_memOk (s : State) (hs : s.memOk) : (s.loadSwitch).memOk := by
  cases hl : s.loadw with
  | none => simpa only [State.loadSwitch, hl] using hs
  | some l0 =>
    simp only [State.loadSwitch, hl]
    have h1 := loadPages_memOk s (l0.pages - l0.written) hs
    generalize s.loadPages (l0.pages - l0.written) = u at h1 ⊢
    split
    · exact h1
    · rename_i l _
      split
      · exact h1
      · split
        · exact memOk_of_mem (loadFail_mem _ _ _) h1
        · split
          · exact h1
          · have h2 : State.memOk (if l.toHbm = true then u else u.loadMap l) := by
              split
              · exact h1
              · exact loadMap_memOk _ _ h1
            generalize (if l.toHbm = true then u else u.loadMap l) = w at h2 ⊢
            split
            · exact memOk_of_mem (s := w) (report_mem _ _) h2
            · exact h2
theorem cold_memOk (s : State) (_ : s.memOk) : (s.cold).memOk := rfl
theorem stageDone_memOk (s : State) (n : Nat) (hs : s.memOk) : (s.stageDone n).memOk := by
  unfold State.stageDone
  split
  · exact hs
  · exact hs
  · rfl
  · exact hs
theorem bringup_memOk (s : State) (ok : Bool) (hs : s.memOk) : (s.bringup ok).memOk := by
  unfold State.bringup
  grind [State.memOk, wf_mem_iff, stageDone_memOk, riseReady_mem, State.schedule_mem]
theorem loopEffect_memOk (s : State) (j count len : Nat) (hs : s.memOk) : (loopEffect s j count len).memOk := by
  unfold loopEffect
  dsimp only
  split
  · trivial
  · split
    · trivial
    · split <;> exact hs
end Sys2Proof.Machine
end

section
/-! Proofs about memory (O46), third part: every instruction and event keeps the canonical form. -/
namespace Sys2Proof.Machine
open Sys2Proof

/-! ### Every instruction and event -/

section
variable {s : State} (hs : s.memOk)
include hs

theorem scalarOp_stepOk {i : Instr} {lat : Nat} {d : Fin 64} {v : W64} : StepOk (scalarOp i s lat d v) := meaning_stepOk _ _ hs (memOk_of_mem (s := s) rfl hs)
theorem predOp_stepOk {i : Instr} {p : Fin 8} {v : Pred} : StepOk (predOp i s p v) := meaning_stepOk _ _ hs (memOk_of_mem (s := s) rfl hs)
theorem laneOp2_stepOk {i : Instr} {sh : Lent} {lat : Nat} {d a b : Fin 64} {p : Fin 8} {f : W32 → W32 → W32} : StepOk (laneOp2 i s sh lat d a b p f) :=
  meaning_stepOk _ _ hs (memOk_of_mem (s := s) rfl hs)
theorem laneOp1_stepOk {i : Instr} {sh : Lent} {lat : Nat} {d a : Fin 64} {p : Fin 8} {f : W32 → W32} : StepOk (laneOp1 i s sh lat d a p f) :=
  meaning_stepOk _ _ hs (memOk_of_mem (s := s) rfl hs)
theorem comparePush_stepOk {i : Instr} {sh : Lent} {q p : Fin 8} {a b : Fin 64} {f : W32 → W32 → Bool} : StepOk (comparePush i s sh q p a b f) :=
  meaning_stepOk _ _ hs (memOk_of_mem (s := s) rfl hs)
theorem roundedOp_stepOk {i : Instr} {sh : Lent} {lat mode cnt : Nat} {d : Fin 64} {p : Fin 8} {f : (Nat → Nat) → Nat → Nat → Nat → W32} :
    StepOk (roundedOp i s sh lat mode cnt d p f) := meaning_stepOk _ _ hs (memOk_of_mem (s := s) (drewBlock_mem ..) hs)
theorem floatOp_stepOk {i : Instr} {sh : Lent} {d a b : Fin 64} {p : Fin 8} {t r : Fin 4} {f : Bool → Num → Num → Num → Num} :
    StepOk (floatOp i s sh d a b p t r f) := by
  unfold floatOp
  exact roundedOp_stepOk hs
theorem reduceOp_stepOk {i : Instr} {sh : Lent} {d a : Fin 64} {p : Fin 8} {f : Nat → List W32 → W32} {mode : Nat} :
    StepOk (reduceOp i s sh d a p f mode) := meaning_stepOk _ _ hs (memOk_of_mem (s := s) (drewBlock_mem ..) hs)

theorem startBringup_memOk : s.startBringup.memOk := hs
theorem rebuild_memOk (e lp : Nat) : StepOk (execRebuild e lp s) := by
  have h1 : ((stripeRest ((s.flash e).phys lp)).foldl (fun s q => s.countRead e q) s).memOk := memOk_of_mem (foldl_mem (by simp) _ _) hs
  refine stepOk_next (ite_memOk _ hs (ite_memOk _ hs (ite_memOk _ (memOk_of_mem (ftlEnd_mem ..) h1) (memOk_of_mem (ftlEnd_mem ..) ?_))))
  exact deliver_memOk _ _ _ (memOk_of_mem ((bumpClass_mem ..).trans (remapPage_mem ..)) h1)
theorem refill_memOk (e lp : Nat) : StepOk (execRefill e lp s) := by
  refine stepOk_next (ite_memOk _ hs (ite_memOk _ hs ?_))
  split
  · exact hs
  · exact memOk_of_mem (ftlEnd_mem ..) hs
  · exact memOk_of_mem (ftlEnd_mem ..) (deliver_memOk _ _ _ (memOk_of_mem ((setFlash_mem ..).trans (remapPage_mem ..)) hs))
theorem kpartSet_memOk (n : Nat) (v : W64) : ((s.kpartSet n v).getD s).memOk := by
  cases h : s.kpartSet n v with
  | none => exact hs
  | some t => exact memOk_of_mem (kpartSet_mem h) hs
theorem execVclz_stepOk {d a : Fin 64} {p : Fin 8} {e : Fin 4} {sh : Lent} : StepOk (execVclz d a p e sh s) := laneOp1_stepOk hs
theorem execVpopc_stepOk {d a : Fin 64} {p : Fin 8} {e : Fin 4} {sh : Lent} : StepOk (execVpopc d a p e sh s) := laneOp1_stepOk hs
theorem execVfadd_stepOk {d a b : Fin 64} {p : Fin 8} {t r : Fin 4} {sh : Lent} : StepOk (execVfadd d a b p t r sh s) := floatOp_stepOk hs
theorem execVfsub_stepOk {d a b : Fin 64} {p : Fin 8} {t r : Fin 4} {sh : Lent} : StepOk (execVfsub d a b p t r sh s) := floatOp_stepOk hs
theorem execVfmul_stepOk {d a b : Fin 64} {p : Fin 8} {t r : Fin 4} {sh : Lent} : StepOk (execVfmul d a b p t r sh s) := floatOp_stepOk hs
theorem execVfma_stepOk {d a b : Fin 64} {p : Fin 8} {t r : Fin 4} {sh : Lent} : StepOk (execVfma d a b p t r sh s) := floatOp_stepOk hs
theorem execVfabs_stepOk {d a : Fin 64} {p : Fin 8} {t : Fin 4} {sh : Lent} : StepOk (execVfabs d a p t sh s) := laneOp1_stepOk hs
theorem execVfneg_stepOk {d a : Fin 64} {p : Fin 8} {t : Fin 4} {sh : Lent} : StepOk (execVfneg d a p t sh s) := laneOp1_stepOk hs
theorem execVcmp_stepOk {c q : Fin 8} {a b : Fin 64} {p : Fin 8} {u : Bool} {sh : Lent} : StepOk (execVcmp c q a b p u sh s) := comparePush_stepOk hs
theorem execVfcmp_stepOk {c q : Fin 8} {a b : Fin 64} {p : Fin 8} {sh : Lent} : StepOk (execVfcmp c q a b p sh s) := comparePush_stepOk hs
theorem execVradd_stepOk {d a : Fin 64} {p : Fin 8} {u t : Bool} {sh : Lent} : StepOk (execVradd d a p u t sh s) := reduceOp_stepOk hs
theorem execVcvt_stepOk {d a : Fin 64} {f g p : Fin 8} {k r : Fin 4} {sh : Lent} : StepOk (execVcvt d a f g p k r sh s) := by
  unfold execVcvt
  exact roundedOp_stepOk hs
theorem execVaddi_stepOk {d a : Fin 64} {p : Fin 8} {i : Fin 1024} {sh : Lent} : StepOk (execVaddi d a p i sh s) := laneOp1_stepOk hs
end

/-- Every instruction and every event keeps the canonical form. -/
theorem exec_stepOk {s : State} (hs : s.memOk) : ∀ i : Instr, StepOk (exec i s)
  | .nopS _ => meaning_stepOk _ _ hs (memOk_of_mem (s := s) rfl hs)
  | .nop => meaning_stepOk _ _ hs (memOk_of_mem (s := s) rfl hs)
  | .hdr _ _ _ _ _ _ _ _ => meaning_stepOk _ _ hs (memOk_of_mem (s := s) rfl hs)
  | .add _ _ _ _ => scalarOp_stepOk hs
  | .sub _ _ _ _ => scalarOp_stepOk hs
  | .mul _ _ _ _ => scalarOp_stepOk hs
  | .mulh _ _ _ _ _ => scalarOp_stepOk hs
  | .and _ _ _ _ => scalarOp_stepOk hs
  | .or _ _ _ _ => scalarOp_stepOk hs
  | .xor _ _ _ _ => scalarOp_stepOk hs
  | .shl _ _ _ _ => scalarOp_stepOk hs
  | .shr _ _ _ _ => scalarOp_stepOk hs
  | .sra _ _ _ _ => scalarOp_stepOk hs
  | .min _ _ _ _ _ => scalarOp_stepOk hs
  | .max _ _ _ _ _ => scalarOp_stepOk hs
  | .addi _ _ _ _ => scalarOp_stepOk hs
  | .andi _ _ _ _ => scalarOp_stepOk hs
  | .ori _ _ _ _ => scalarOp_stepOk hs
  | .xori _ _ _ _ => scalarOp_stepOk hs
  | .shli _ _ _ _ => scalarOp_stepOk hs
  | .shri _ _ _ _ => scalarOp_stepOk hs
  | .srai _ _ _ _ => scalarOp_stepOk hs
  | .li _ _ _ => scalarOp_stepOk hs
  | .lih _ _ _ => scalarOp_stepOk hs
  | .addsh _ _ _ _ _ => scalarOp_stepOk hs
  | .cmp _ _ _ _ _ => predOp_stepOk hs
  | .cmpi _ _ _ _ _ => predOp_stepOk hs
  | .plog _ _ _ _ _ => predOp_stepOk hs
  | .clz _ _ _ => scalarOp_stepOk hs
  | .popc _ _ _ => scalarOp_stepOk hs
  | .sext _ _ _ _ => scalarOp_stepOk hs
  | .zext _ _ _ _ => scalarOp_stepOk hs
  | .div _ _ _ _ _ => scalarOp_stepOk hs
  | .rem _ _ _ _ _ => scalarOp_stepOk hs
  | .br _ _ _ _ => meaning_stepOk _ _ hs (ite_memOk _ (memOk_of_mem (s := s) rfl hs) hs)
  | .call _ _ _ _ => meaning_stepOk _ _ hs (ite_memOk _ (memOk_of_mem (s := s) rfl hs) hs)
  | .jr _ _ => meaning_stepOk _ _ hs (Res.memOk_ite _ trivial (memOk_of_mem (s := s) rfl hs))
  | .loopImm _ _ _ _ => meaning_stepOk _ _ hs (loopEffect_memOk (hs := hs) ..)
  | .loopReg _ _ _ _ => meaning_stepOk _ _ hs (Res.memOk_ite _ trivial (loopEffect_memOk (hs := hs) ..))
  | .loopEnd => stepOk_next hs
  | .bar _ _ _ => meaning_stepOk _ _ hs (barEffect_memOk (hs := hs) ..)
  | .barComplete _ _ _ _ => stepOk_next (memOk_of_mem (barDone_mem ..) hs)
  | .waitc _ _ _ => meaning_stepOk _ _ hs (waitcEffect_memOk (hs := hs) ..)
  | .sstep _ _ => meaning_stepOk _ _ hs (sstepEffect_memOk (hs := hs) ..)
  | .tspawn _ _ _ => meaning_stepOk _ _ hs (tspawnEffect_memOk (hs := hs) ..)
  | .park _ _ => meaning_stepOk _ _ hs (parkEffect_memOk (hs := hs) ..)
  | .yield _ => meaning_stepOk _ _ hs (parkEffect_memOk (hs := hs) ..)
  | .tdone _ => meaning_stepOk _ _ hs (tdoneEffect_memOk (hs := hs) ..)
  | .trap _ _ => meaning_stepOk _ _ hs (memOk_of_mem (s := s) rfl hs)
  | .eret _ _ _ => meaning_stepOk _ _ hs (eretEffect_memOk (hs := hs) ..)
  | .snaprel _ => meaning_stepOk _ _ hs (memOk_of_mem (s := s) rfl hs)
  | .rdms _ _ _ => meaning_stepOk _ _ hs (rdmsEffect_memOk (hs := hs) ..)
  | .wrms _ _ _ => meaning_stepOk _ _ hs (wrmsEffect_memOk (hs := hs) ..)
  | .halt _ _ => meaning_stepOk _ _ hs (haltEffect_memOk (hs := hs) ..)
  | .ld _ _ _ _ _ _ => meaning_stepOk _ _ hs (loadScalar_memOk (hs := hs) ..)
  | .ldv _ _ _ _ _ _ => meaning_stepOk _ _ hs (loadVector_memOk (hs := hs) ..)
  | .ldg _ _ _ _ _ _ => meaning_stepOk _ _ hs (loadGather_memOk (hs := hs) ..)
  | .ldb _ _ _ _ _ _ => meaning_stepOk _ _ hs (loadBroadcast_memOk (hs := hs) ..)
  | .tagq _ _ _ => meaning_stepOk _ _ hs (memOk_of_mem (s := s) rfl hs)
  | .tagset _ _ _ => meaning_stepOk _ _ hs (Res.memOk_ite _ trivial (memOk_of_mem (s := s) rfl hs))
  | .tagclr _ _ => meaning_stepOk _ _ hs (Res.memOk_ite _ (memOk_of_mem (s := s) rfl hs) (Res.memOk_ite _ trivial (memOk_of_mem (s := s) rfl hs)))
  | .tld _ _ _ _ _ _ => meaning_stepOk _ _ hs (tldEffect_memOk (hs := hs) ..)
  | .tdrop _ => meaning_stepOk _ _ hs (tdropEffect_memOk (hs := hs) ..)
  | .tcnt _ _ => meaning_stepOk _ _ hs (tcntEffect_memOk (hs := hs) ..)
  | .tcntWait _ _ => meaning_stepOk _ _ hs (tcntEffect_memOk (hs := hs) ..)
  | .aadd _ _ _ _ _ _ => meaning_stepOk _ _ hs (atomicEffect_memOk (hs := hs) ..)
  | .amin _ _ _ _ _ _ => meaning_stepOk _ _ hs (atomicEffect_memOk (hs := hs) ..)
  | .amax _ _ _ _ _ _ => meaning_stepOk _ _ hs (atomicEffect_memOk (hs := hs) ..)
  | .aand _ _ _ _ _ _ => meaning_stepOk _ _ hs (atomicEffect_memOk (hs := hs) ..)
  | .aor _ _ _ _ _ _ => meaning_stepOk _ _ hs (atomicEffect_memOk (hs := hs) ..)
  | .axor _ _ _ _ _ _ => meaning_stepOk _ _ hs (atomicEffect_memOk (hs := hs) ..)
  | .aswp _ _ _ _ _ _ => meaning_stepOk _ _ hs (atomicEffect_memOk (hs := hs) ..)
  | .acas _ _ _ _ _ _ => meaning_stepOk _ _ hs (atomicEffect_memOk (hs := hs) ..)
  | .cpyIn _ _ _ _ _ _ => meaning_stepOk _ _ hs (copyEffect_memOk (hs := hs) ..)
  | .cpygIn _ _ _ _ _ _ => meaning_stepOk _ _ hs (copyEffect_memOk (hs := hs) ..)
  | .cpysIn _ _ _ _ _ _ => meaning_stepOk _ _ hs (copyEffect_memOk (hs := hs) ..)
  | .cpyfIn _ _ _ _ _ _ => meaning_stepOk _ _ hs (copyEffect_memOk (hs := hs) ..)
  | .shape _ _ _ => meaning_stepOk _ _ hs (shapeEffect_memOk (hs := hs) ..)
  | .hread _ _ _ _ _ => meaning_stepOk _ _ hs (hreadEffect_memOk (hs := hs) ..)
  | .hwait _ => meaning_stepOk _ _ hs (hwaitEffect_memOk (hs := hs) ..)
  | .hstat _ _ => meaning_stepOk _ _ hs (hstatEffect_memOk (hs := hs) ..)
  | .hrel _ => meaning_stepOk _ _ hs (hrelEffect_memOk (hs := hs) ..)
  | .gload _ _ _ => meaning_stepOk _ _ hs (gloadEffect_memOk (hs := hs) ..)
  | .vadd _ _ _ _ _ _ _ _ => laneOp2_stepOk hs
  | .vsub _ _ _ _ _ _ _ _ => laneOp2_stepOk hs
  | .vmul _ _ _ _ _ _ _ _ => laneOp2_stepOk hs
  | .vmulh _ _ _ _ _ _ _ => laneOp2_stepOk hs
  | .vmin _ _ _ _ _ _ _ => laneOp2_stepOk hs
  | .vmax _ _ _ _ _ _ _ => laneOp2_stepOk hs
  | .vand _ _ _ _ _ => laneOp2_stepOk hs
  | .vor _ _ _ _ _ => laneOp2_stepOk hs
  | .vxor _ _ _ _ _ => laneOp2_stepOk hs
  | .vshl _ _ _ _ _ _ => laneOp2_stepOk hs
  | .vshr _ _ _ _ _ _ => laneOp2_stepOk hs
  | .vsra _ _ _ _ _ _ => laneOp2_stepOk hs
  | .vabs _ _ _ _ _ _ => laneOp1_stepOk hs
  | .vneg _ _ _ _ _ _ => laneOp1_stepOk hs
  | .vclz _ _ _ _ _ => execVclz_stepOk hs
  | .vpopc _ _ _ _ _ => execVpopc_stepOk hs
  | .vfadd _ _ _ _ _ _ _ => execVfadd_stepOk hs
  | .vfsub _ _ _ _ _ _ _ => execVfsub_stepOk hs
  | .vfmul _ _ _ _ _ _ _ => execVfmul_stepOk hs
  | .vfma _ _ _ _ _ _ _ => execVfma_stepOk hs
  | .vfmin _ _ _ _ _ _ => laneOp2_stepOk hs
  | .vfmax _ _ _ _ _ _ => laneOp2_stepOk hs
  | .vfabs _ _ _ _ _ => execVfabs_stepOk hs
  | .vfneg _ _ _ _ _ => execVfneg_stepOk hs
  | .vcmp _ _ _ _ _ _ _ => execVcmp_stepOk hs
  | .vfcmp _ _ _ _ _ _ => execVfcmp_stepOk hs
  | .vsel _ _ _ _ _ => meaning_stepOk _ _ hs (memOk_of_mem (s := s) rfl hs)
  | .vshuf _ _ _ _ _ => meaning_stepOk _ _ hs (memOk_of_mem (s := s) rfl hs)
  | .vbcast _ _ _ _ _ => meaning_stepOk _ _ hs (memOk_of_mem (s := s) rfl hs)
  | .vmovs _ _ _ _ => meaning_stepOk _ _ hs (memOk_of_mem (s := s) rfl hs)
  | .vmovsTos _ _ _ _ => meaning_stepOk _ _ hs (memOk_of_mem (s := s) rfl hs)
  | .vmov _ _ _ _ => laneOp1_stepOk hs
  | .vradd _ _ _ _ _ _ => execVradd_stepOk hs
  | .vrmin _ _ _ _ _ => reduceOp_stepOk hs
  | .vrmax _ _ _ _ _ => reduceOp_stepOk hs
  | .vfradd _ _ _ _ _ => reduceOp_stepOk hs
  | .vfrmin _ _ _ _ => reduceOp_stepOk hs
  | .vfrmax _ _ _ _ => reduceOp_stepOk hs
  | .vcvt _ _ _ _ _ _ _ _ => execVcvt_stepOk hs
  | .vxc _ _ _ _ _ _ => meaning_stepOk _ _ hs (Res.memOk_ite _ trivial (memOk_of_mem (s := s) rfl hs))
  | .pwld _ _ _ => meaning_stepOk _ _ hs (Res.memOk_ite _ trivial (memOk_of_mem (s := s) rfl hs))
  | .vpwp _ _ _ _ => laneOp1_stepOk hs
  | .brank _ _ _ _ _ => meaning_stepOk _ _ hs (memOk_of_mem (s := s) rfl hs)
  | .bsel _ _ _ _ _ => meaning_stepOk _ _ hs (memOk_of_mem (s := s) rfl hs)
  | .vaddi _ _ _ _ _ => execVaddi_stepOk hs
  | .vli _ _ _ _ => meaning_stepOk _ _ hs (memOk_of_mem (s := s) rfl hs)
  | .st _ _ _ _ _ _ => meaning_stepOk _ _ hs (storeScalar_memOk (hs := hs) ..)
  | .stv _ _ _ _ _ _ => meaning_stepOk _ _ hs (storeVector_memOk (hs := hs) ..)
  | .sts _ _ _ _ _ _ => meaning_stepOk _ _ hs (storeScatter_memOk (hs := hs) ..)
  | .cowst _ _ _ _ _ _ => meaning_stepOk _ _ hs (cowstEffect_memOk (hs := hs) ..)
  | .talloc _ _ _ _ _ _ => meaning_stepOk _ _ hs (tallocEffect_memOk (hs := hs) ..)
  | .twr _ _ _ _ _ _ => meaning_stepOk _ _ hs (twrEffect_memOk (hs := hs) ..)
  | .tseal _ => meaning_stepOk _ _ hs (tsealEffect_memOk (hs := hs) ..)
  | .cpyOut _ _ _ _ _ _ => meaning_stepOk _ _ hs (copyEffect_memOk (hs := hs) ..)
  | .cpygOut _ _ _ _ _ _ => meaning_stepOk _ _ hs (copyEffect_memOk (hs := hs) ..)
  | .cpysOut _ _ _ _ _ _ => meaning_stepOk _ _ hs (copyEffect_memOk (hs := hs) ..)
  | .cpyfOut _ _ _ _ _ _ => meaning_stepOk _ _ hs (copyEffect_memOk (hs := hs) ..)
  | .publish _ => meaning_stepOk _ _ hs (publishEffect_memOk (hs := hs) ..)
  | .publishDef _ _ => meaning_stepOk _ _ hs (defEffect_memOk (hs := hs) ..)
  | .publishUndef _ => meaning_stepOk _ _ hs (undefEffect_memOk (hs := hs) ..)
  | .drain _ _ => meaning_stepOk _ _ hs (drainEffect_memOk (hs := hs) ..)
  | .fence _ => meaning_stepOk _ _ hs (Res.memOk_ite _ (releaseHold_memOk (hs := hs) ..) hs)
  | .mark => meaning_stepOk _ _ hs (memOk_of_mem (s := s) rfl hs)
  | .tlbiVa _ => meaning_stepOk _ _ hs (tlbiEffect_memOk _ _ hs (removeTlb_memOk _ _ hs))
  | .tlbiOwn => meaning_stepOk _ _ hs (tlbiEffect_memOk _ _ hs (removeTlb_memOk _ _ hs))
  | .tlbiPva _ _ => meaning_stepOk _ _ hs (tlbiEffect_memOk _ _ hs (removeTlb_memOk _ _ hs))
  | .tlbiPart _ => meaning_stepOk _ _ hs (tlbiEffect_memOk _ _ hs (removeTlb_memOk _ _ hs))
  | .tlbiGlob => meaning_stepOk _ _ hs (tlbiEffect_memOk _ _ hs (removeTlb_memOk _ _ hs))
  | .pagemv _ _ _ _ => meaning_stepOk _ _ hs (pagemvEffect_memOk (hs := hs) ..)
  | .wmap _ _ _ _ => meaning_stepOk _ _ hs (wmapEffect_memOk (hs := hs) ..)
  | .wunmap _ => meaning_stepOk _ _ hs (wunmapEffect_memOk (hs := hs) ..)
  | .lease _ _ => meaning_stepOk _ _ hs (leaseEffect_memOk (hs := hs) ..)
  | .lfree _ => meaning_stepOk _ _ hs (lfreeEffect_memOk (hs := hs) ..)
  | .mcfg _ _ => meaning_stepOk _ _ hs (mcfgEffect_memOk (hs := hs) ..)
  | .mma _ _ _ _ _ _ _ _ _ => meaning_stepOk _ _ hs (mmaEffect_memOk (hs := hs) ..)
  | .mmv _ _ _ _ _ _ _ _ _ _ => meaning_stepOk _ _ hs (mmvEffect_memOk (hs := hs) ..)
  | .mdrain _ _ _ => meaning_stepOk _ _ hs (mdrainEffect_memOk (hs := hs) ..)
  | .mzero _ _ => meaning_stepOk _ _ hs (mzeroEffect_memOk (hs := hs) ..)
  | .mwait _ _ => meaning_stepOk _ _ hs (mwaitEffect_memOk (hs := hs) ..)
  | .rte _ _ _ _ => meaning_stepOk _ _ hs (rteEffect_memOk (hs := hs) ..)
  | .apre _ _ _ _ => meaning_stepOk _ _ hs (attEffect_memOk (hs := hs) ..)
  | .adec _ _ _ _ => meaning_stepOk _ _ hs (attEffect_memOk (hs := hs) ..)
  | .kvag _ _ _ => meaning_stepOk _ _ hs (kvagEffect_memOk (hs := hs) ..)
  | .xsend _ _ _ _ _ _ => meaning_stepOk _ _ hs (xsendEffect_memOk (hs := hs) ..)
  | .xrecv _ _ _ => meaning_stepOk _ _ hs (xrecvEffect_memOk (hs := hs) ..)
  | .ptrcfg _ _ => meaning_stepOk _ _ hs (ptrcfgEffect_memOk (hs := hs) ..)
  | .ptrld _ _ _ => meaning_stepOk _ _ hs (ptrldEffect_memOk (hs := hs) ..)
  | .ptrrun _ _ _ _ => meaning_stepOk _ _ hs (ptrrunEffect_memOk (hs := hs) ..)
  | .snapst _ _ _ => meaning_stepOk _ _ hs (snapstEffect_memOk (hs := hs) ..)
  | .registerWriteLands _ => stepOk_next (memOk_of_mem (State.setCore_mem ..) hs)
  | .interlockedResultArrives _ _ => stepOk_next (memOk_of_mem (arrive_mem ..) hs)
  | .trapEntry _ _ _ _ => stepOk_next (memOk_of_mem (trap_mem ..) hs)
  | .pageWalk _ _ _ => stepOk_next (memOk_of_mem (endWalk_mem ..) hs)
  | .copySegment _ _ => stepOk_next (copySegment_memOk (hs := hs) ..)
  | .copyComplete _ _ => stepOk_next (memOk_of_mem (count_mem ..) hs)
  | .pagemvCopyComplete _ _ => stepOk_next (pagemvDone_memOk (hs := hs) ..)
  | .hotRegionSwap _ _ _ => stepOk_next (ite_memOk _ hs hs)
  | .pseudoChannelPowerDown _ _ => stepOk_next (ite_memOk _ hs hs)
  | .pseudoChannelSelfRefresh _ _ => stepOk_next (ite_memOk _ hs hs)
  | .stackRetrain _ => stepOk_next (ite_memOk _ hs (ite_memOk _ hs hs))
  | .handleRequestArrives _ => stepOk_next (handleArrives_memOk (hs := hs) ..)
  | .flashPageRead _ _ _ => stepOk_next (pageRead_memOk (hs := hs) ..)
  | .relocationSwitch _ _ _ => stepOk_next (relocSwitch_memOk (hs := hs) ..)
  | .oldBlockErase _ _ _ => stepOk_next (memOk_of_mem (oldErase_mem ..) hs)
  | .rebuild _ _ => rebuild_memOk hs _ _
  | .relocate _ _ => stepOk_next (ite_memOk _ hs (memOk_of_mem (moveBlock_mem ..) hs))
  | .retire _ _ => stepOk_next (ite_memOk _ hs (memOk_of_mem (moveBlock_mem ..) hs))
  | .refill _ _ => refill_memOk hs _ _
  | .ftlCommandComplete _ => stepOk_next (ite_memOk _ (memOk_of_mem (setFlash_mem ..) hs) hs)
  | .pointerRun _ => stepOk_next (memOk_of_mem (pointerRun_mem ..) hs)
  | .tallocRequestArrives _ => stepOk_next (memOk_of_mem (tallocArrives_mem ..) hs)
  | .tallocGrant _ => stepOk_next (memOk_of_mem (grantTiles_mem ..) hs)
  | .tileAccessArrives _ => stepOk_next (tileArrives_memOk _ hs)
  | .leaseGrant _ => stepOk_next (memOk_of_mem (grantLeases_mem ..) hs)
  | .turnGrant _ => stepOk_next (memOk_of_mem (grantTurn_mem ..) hs)
  | .matrixCommandRetire _ => stepOk_next (memOk_of_mem (retireMatrix_mem ..) hs)
  | .groupPartArrives _ _ => stepOk_next (memOk_of_mem (partArrives_mem ..) hs)
  | .drainRowLeaves _ => stepOk_next (memOk_of_mem (rowLeaves_mem ..) hs)
  | .attentionCommandComplete _ => stepOk_next (attStep_memOk (hs := hs) ..)
  | .capacityRequest _ => stepOk_next (memOk_of_mem (capacityArrives_mem ..) hs)
  | .routingRound _ => stepOk_next (memOk_of_mem (routeRound_mem ..) hs)
  | .xsendBinding _ => stepOk_next (bindArrives_memOk (hs := hs) ..)
  | .landing _ => stepOk_next (memOk_of_mem (land_mem ..) hs)
  | .xrecvRequestArrives _ => stepOk_next (memOk_of_mem (xrecvArrives_mem ..) hs)
  | .superstepBoundary _ => stepOk_next (superstep_memOk (hs := hs) ..)
  | .beaconTick => stepOk_next (memOk_of_mem (beaconStep_mem ..) hs)
  | .frameStart _ => stepOk_next (startFrame_memOk (hs := hs) ..)
  | .deferredFrameStart _ => stepOk_next (deferredStart_memOk (hs := hs) ..)
  | .frameAdvance _ => stepOk_next (frameStep_memOk (hs := hs) ..)
  | .taskInsertion _ => stepOk_next (insertion_memOk (hs := hs) ..)
  | .taskReady _ _ => stepOk_next (memOk_of_mem (taskReady_mem ..) hs)
  | .taskDispatch _ => stepOk_next (dispatch_memOk (hs := hs) ..)
  | .continuationResume _ => stepOk_next (memOk_of_mem (resumeCore_mem ..) hs)
  | .parkWake _ _ => stepOk_next (memOk_of_mem (parkOver_mem ..) hs)
  | .installTemplate => stepOk_next (takePacket_memOk _ hs fun _ => memOk_of_mem (install_mem ..) hs)
  | .launchTasks => stepOk_next (takePacket_memOk _ hs fun _ => launch_memOk (hs := hs) ..)
  | .removeTemplate => stepOk_next (takePacket_memOk _ hs fun _ => memOk_of_mem (remove_mem ..) hs)
  | .tearDownPartition => stepOk_next (tearPacket_memOk (hs := hs) ..)
  | .launchWindowWrite _ _ => stepOk_next (memOk_of_mem (hostWrite_mem ..) hs)
  | .hostMemWrite _ _ => fun _ e => hostMemWrite_memOk _ _ e hs
  | .hostMemRead _ _ => stepOk_next hs
  | .pod _ _ _ _ => stepOk_next (command_memOk _ _ hs fun _ hu => memOk_of_mem (podSet_mem ..) hu)
  | .loadw _ _ _ _ _ _ => stepOk_next (command_memOk _ _ hs fun _ hu => memOk_of_mem (loadStart_mem ..) hu)
  | .weightChunk _ => stepOk_next (chunk_memOk (hs := hs) ..)
  | .loadwSwitch => stepOk_next (loadSwitch_memOk (hs := hs) ..)
  | .attest _ _ => stepOk_next (command_memOk _ _ hs fun _ hu => attestTo_memOk (hs := hu) ..)
  | .fwstage _ _ => stepOk_next (command_memOk _ _ hs fun _ hu => memOk_of_mem (fwStage_mem ..) hu)
  | .podBarrierMessage _ _ _ _ _ => stepOk_next (memOk_of_mem (podArrive_mem ..) hs)
  | .podBarrierRelease _ _ _ _ => stepOk_next (memOk_of_mem (podRelease_mem ..) hs)
  | .ptpMessage _ => stepOk_next (ite_memOk _ hs hs)
  | .linkRetry => stepOk_next hs
  | .keeperWindow => stepOk_next (ite_memOk _ (memOk_of_mem ((scheduleOnce_mem ..).trans (keeper_mem ..)) hs) hs)
  | .keepcfgWrite _ => stepOk_next (memOk_of_mem (keepcfgSet_mem ..) hs)
  | .poolbaseWrite _ => stepOk_next (memOk_of_mem (poolbaseSet_mem ..) hs)
  | .srseedWrite _ _ => stepOk_next (memOk_of_mem (srseedSet_mem ..) hs)
  | .ttbaseWrite _ _ => stepOk_next (unlessRsv_memOk _ _ hs (ttbaseSet_memOk (hs := hs) ..))
  | .kpartWrite _ _ => stepOk_next (unlessRsv_memOk _ _ hs (kpartSet_memOk hs _ _))
  | .sscfgWrite _ _ => stepOk_next (unlessRsv_memOk _ _ hs (memOk_of_mem (sscfgSet_mem ..) hs))
  | .sliceWrite _ _ => stepOk_next (unlessRsv_memOk _ _ hs (sliceSet_memOk (hs := hs) ..))
  | .pstateHalt _ => stepOk_next (memOk_of_mem (pstateHalt_mem ..) hs)
  | .pstateResume _ => stepOk_next (pstateResume_memOk (hs := hs) ..)
  | .svackRelease _ => stepOk_next (svackRelease_memOk (hs := hs) ..)
  | .svackEnd _ => stepOk_next (svackEnd_memOk (hs := hs) ..)
  | .svqRecordWrite _ => stepOk_next (recordWrite_memOk (hs := hs) ..)
  | .haltLineArrives _ _ _ => stepOk_next (haltLine_memOk (hs := hs) ..)
  | .halted _ => stepOk_next (memOk_of_mem (closeHalt_mem ..) hs)
  | .sliceEnd _ => stepOk_next (sliceEnd_memOk (hs := hs) ..)
  | .preemptionUnitSave _ _ _ => stepOk_next (preemptUnit_memOk (hs := hs) ..)
  | .preemptionComplete _ => stepOk_next (preemptDone_memOk (hs := hs) ..)
  | .powerUp => stepOk_next (ite_memOk _ hs rfl)
  | .bringupStageComplete _ => stepOk_next (bringup_memOk (hs := hs) ..)
  | .cxlReset => stepOk_next (ite_memOk _ rfl hs)
  | .storePerformed _ => stepOk_next (performStore_memOk _ hs)
  | .instructionFetchMissReturn _ => stepOk_next (memOk_of_mem (fetchReturn_mem ..) hs)
  | .routingPassComplete _ => stepOk_next (passComplete_memOk (hs := hs) ..)
  | .powerOff => stepOk_next rfl
  | .portLaneChange _ => stepOk_next hs
  | .loadwDoneReport _ => stepOk_next (memOk_of_mem (report_mem ..) hs)
end Sys2Proof.Machine
end

section
/-! Proofs about memory (O46), last part: every bundle and every step keeps the canonical form. -/
namespace Sys2Proof.Machine
open Sys2Proof

theorem runSlot_memOk (i : Instr) {s : State} (hs : s.memOk) : (runSlot i s).memOk := by
  have h := exec_stepOk hs i
  cases e : exec i s with
  | next t => simpa only [runSlot, e] using h t e
  | fault f => simpa only [runSlot, e] using memOk_of_mem (State.mark_mem ..) hs
  | refused r => simpa only [runSlot, e] using memOk_of_mem (State.mark_mem ..) hs

theorem holdAll_memOk (is : List Instr) {s : State} (hs : s.memOk) : (holdAll is s).memOk := by
  induction is generalizing s with
  | nil => exact hs
  | cons i t ih => exact ih (ite_memOk _ (runSlot_memOk i hs) hs)

theorem firstStop_memOk (is : List Instr) {s t : State} (hs : s.memOk) (h : firstStop s is = some t) : t.memOk := by
  have hall := holdAll_memOk is hs
  simp only [firstStop] at h
  split at h
  case h_1 u hu =>
    obtain ⟨i, -, rfl⟩ := List.mem_map.mp (List.mem_of_find?_eq_some hu)
    obtain rfl := Option.some.inj h
    exact ite_memOk _ (memOk_of_mem (State.mark_mem ..) hall) (runSlot_memOk i hs)
  case h_2 =>
    split at h
    · exact Option.some.inj h ▸ hall
    · cases h

theorem raiseNow_memOk (f : FaultInfo) {s : State} (hs : s.memOk) : (s.raiseNow f).memOk :=
  ite_memOk _ (memOk_of_mem (State.mark_mem ..) hs) (memOk_of_mem (State.mark_mem ..) (takeFault_memOk f hs))

theorem runInTurn_memOk {base : State} (i : Instr) {s : State} (hs : s.memOk) : (runInTurn base i s).memOk := by
  unfold runInTurn
  split
  · exact memOk_of_mem (countImage_mem ..) hs
  · exact runSlot_memOk i hs

theorem threadSlots_memOk {base : State} (hb : base.memOk) (is : List Instr) {s : State} (hs : s.memOk) : (threadSlots base is s).memOk := by
  induction is generalizing s with
  | nil => exact hs
  | cons i t ih =>
    have h := runInTurn_memOk (base := base) i hs
    simp only [threadSlots]
    split
    · exact raiseNow_memOk _ hb
    · exact memOk_of_mem (State.mark_mem ..) hb
    · exact memOk_of_mem (State.mark_mem ..) hb
    · exact ih h
    · exact ih h

theorem retire_memOk (pc st : Nat) (b : List Byte) {s : State} (hs : s.memOk) : (s.retire pc st b).memOk :=
  memOk_of_mem (State.setMe_mem ..) (ite_memOk _ hs (runSlot_memOk .loopEnd hs))

@[simp] theorem unwant_mem (s : State) : s.unwant.mem = s.mem := by
  unfold State.unwant
  grind [setArr_mem]

@[simp] theorem countFetch_mem (s t : State) : (s.countFetch t).mem = t.mem := by
  unfold State.countFetch
  grind [countPlaces_mem, State.setMe_mem]

@[simp] theorem stallWant_mem (s : State) (w : Instr) : (s.stallWant w).mem = s.mem := by
  unfold State.stallWant
  grind [wantTurn_mem, State.setMe_mem]

@[simp] theorem stopped_mem (s : State) : s.stopped.mem = s.mem := by
  unfold State.stopped
  grind [unwant_mem, State.setMe_mem]

theorem fetch_stop {s t : State} (hs : s.memOk) (h : s.fetch = .stop t) : t.memOk := by
  unfold State.fetch at h
  grind [State.memOk, wf_mem_iff, raiseNow_memOk, missed_mem, State.setMe_mem, State.schedule_mem, State.mark_mem, transStop_memOk, Res.memOk]

theorem issueBundle_memOk {s : State} (hs : s.memOk) : s.issueBundle.memOk := by
  have h0 : ((s.mark .idle).setMe { s.me with waits := 0, engaged := false }).memOk := memOk_of_mem (State.setMe_mem ..) hs
  unfold State.issueBundle
  generalize (s.mark .idle).setMe { s.me with waits := 0, engaged := false } = u at h0
  have hcount {t : State} (ht : t.memOk) : (u.countFetch t).memOk := memOk_of_mem (countFetch_mem ..) ht
  have hstop {t : State} (ht : t.memOk) : t.stopped.memOk := memOk_of_mem (stopped_mem t) ht
  have hstall {t : State} (w : Instr) (ht : t.memOk) : (t.stallWant w).memOk := memOk_of_mem (stallWant_mem t w) ht
  dsimp only
  split
  next t hf => exact hstop (fetch_stop h0 hf)
  next b hf =>
    split
    · exact hstop (hcount (raiseNow_memOk _ h0))
    split
    · exact hstop (raiseNow_memOk _ h0)
    next x hx =>
      split
      next t ht =>
        have ht := firstStop_memOk _ h0 ht
        refine hstop ?_
        split
        · exact hcount ht
        · exact hstall _ ht
      next hn =>
        have ht := threadSlots_memOk h0 (slotOrder x) h0
        split
        · exact hstop (hcount ht)
        · exact hstop (hstall _ ht)
        · exact hstop (hstall _ ht)
        · exact retire_memOk _ _ _ (hcount ht)
        · exact retire_memOk _ _ _ (hcount ht)

theorem issueNext_memOk {s : State} (hs : s.memOk) : s.issueNext.memOk := by
  unfold State.issueNext
  split
  · exact ite_memOk _ (trySuspend_memOk (hs := hs) ..) (trySuspend_memOk (hs := hs) ..)
  · exact ite_memOk _ (memOk_of_mem (stopped_mem _) (memOk_of_mem (State.mark_mem ..) (memOk_of_mem (takeTrap_mem ..) hs))) hs
  · exact issueBundle_memOk hs

/-- Settles O46, instruction by instruction and event by event: whatever writes memory writes it with `memWrite`, which keeps the canonical form. -/
theorem stepKeepsMemory : Obligations.StepKeepsMemory := by
  unfold Obligations.StepKeepsMemory
  intro s t hs h
  simp only [step] at h
  split at h
  · cases h
  · refine exec_stepOk ?_ _ t h
    exact hs
  · split at h
    · refine exec_stepOk ?_ _ t h
      exact hs
    · cases h
      exact issueNext_memOk (by exact hs)
end Sys2Proof.Machine
end

section
/-! Proofs about NOP, HDR and MARK (R26, R28), and the words of the spec. -/
namespace Sys2Proof.Machine
open Sys2Proof

/-- Of an instruction that reads and writes no register nothing is waited for, and it reads none too early. -/
theorem clear_of_uses_nil {i : Instr} {s : State} (hw : i.wf = true) (hu : Instr.uses i s.me = ([], [])) : Clear i s := by
  simp [Clear, hw, hu, Core.pendingOn, Core.earlyRead]

/-- Settles O3: none of the four names a register, so nothing stands before it, and its effect is the state as it is. -/
theorem noOperations : Obligations.NoOperations := by
  unfold Obligations.NoOperations
  intro s
  refine ⟨fun st => ?_, ?_, ?_, fun st w z y x c b a hw => ?_⟩
  · exact meaning_ok (clear_of_uses_nil rfl rfl)
  · exact meaning_ok (clear_of_uses_nil rfl rfl)
  · exact meaning_ok (clear_of_uses_nil rfl rfl)
  · exact meaning_ok (clear_of_uses_nil hw rfl)

/-- Settles O41, by running the decoder on the words. -/
theorem decodesTheSpecsWords : Obligations.DecodesTheSpecsWords := by
  unfold Obligations.DecodesTheSpecsWords
  decide
end Sys2Proof.Machine
end

section
/-! Proofs about results that land (R30, R32, R37, R209). -/
namespace Sys2Proof.Machine
open Sys2Proof

/-! ### What a payload that lands leaves in the registers (R37, R209) -/

theorem tget_tset {α : Type} (t : Tbl α) (k j : Nat) (v : α) : tget (tset t k v) j = if j = k then some v else tget t j := by
  split
  next h => rw [h, tget_tset_same]
  next h => exact tget_tset_other t v (Ne.symm h)
theorem sreg_zero (k : Core) : k.sreg 0 = 0 := rfl
theorem preg_zero (k : Core) : k.preg 0 = BitVec.allOnes 128 := rfl
theorem sreg_congr {k k' : Core} (hs : k'.s = k.s) (hd : k'.seed = k.seed) (q : Nat) : k'.sreg q = k.sreg q := by
  simp only [Core.sreg, hs, hd]
theorem preg_congr {k k' : Core} (hp : k'.p = k.p) (hd : k'.seed = k.seed) (q : Nat) : k'.preg q = k.preg q := by
  simp only [Core.preg, hp, hd]
theorem vreg_congr {k k' : Core} (hv : k'.v = k.v) (hd : k'.seed = k.seed) (q g : Nat) : k'.vreg q g = k.vreg q g := by
  simp only [Core.vreg, hv, hd]
theorem sreg_with_s (k : Core) {r : Nat} (v : W64) (hr : r ≠ 0) (q : Nat) :
    Core.sreg { k with s := tset k.s r v } q = if q = r then v else k.sreg q := by
  by_cases h : q = r
  · subst h; simp [Core.sreg, hr]
  · simp [Core.sreg, tget_tset_other _ _ (Ne.symm h), h]
theorem preg_with_p (k : Core) {r : Nat} (v : Pred) (hr : r ≠ 0) (q : Nat) :
    Core.preg { k with p := tset k.p r v } q = if q = r then v else k.preg q := by
  by_cases h : q = r
  · subst h; simp [Core.preg, hr]
  · simp [Core.preg, tget_tset_other _ _ (Ne.symm h), h]

/-- A scalar result lands in its register; s0, and a register to skip, discard it. -/
theorem land_scalar (k : Core) (skip : List Nat) (r : Nat) (v : W64) :
    (∀ q, (k.land skip (.scalar r v)).sreg q = if q = r ∧ r ≠ 0 ∧ keyS r ∉ skip then v else k.sreg q)
    ∧ k.land skip (.scalar r v) = { k with s := (k.land skip (.scalar r v)).s } := by
  by_cases h : r = 0 ∨ keyS r ∈ skip
  · have e : k.land skip (.scalar r v) = k := if_pos (by simpa using h)
    exact ⟨fun q => by grind, by rw [e]⟩
  · have e : k.land skip (.scalar r v) = { k with s := tset k.s r v } := if_neg (by simpa using h)
    rw [not_or] at h
    exact ⟨fun q => by rw [e, sreg_with_s _ _ h.1]; simp [h], by rw [e]⟩

/-- A predicate result lands in the lanes it changes. -/
theorem land_pred (k : Core) (skip : List Nat) (r : Nat) (lanes b : Pred) :
    (∀ q l, l < 128 → ((k.land skip (.pred r lanes b)).preg q).getLsbD l =
      if q = r ∧ r ≠ 0 ∧ keyP r ∉ skip ∧ lanes.getLsbD l = true then b.getLsbD l else (k.preg q).getLsbD l)
    ∧ k.land skip (.pred r lanes b) = { k with p := (k.land skip (.pred r lanes b)).p } := by
  by_cases h : r = 0 ∨ keyP r ∈ skip
  · have e : k.land skip (.pred r lanes b) = k := if_pos (by simpa using h)
    exact ⟨fun q l _ => by grind, by rw [e]⟩
  · have e : k.land skip (.pred r lanes b) = { k with p := tset k.p r ((k.preg r &&& ~~~lanes) ||| (b &&& lanes)) } :=
      if_neg (by simpa using h)
    rw [not_or] at h
    refine ⟨fun q l hl => ?_, by rw [e]⟩
    rw [e, preg_with_p _ _ h.1]
    by_cases hq : q = r
    · subst hq
      by_cases hlane : lanes.getLsbD l = true
      · simp [h, hlane]
      · rw [if_pos rfl, if_neg (fun h' => hlane h'.2.2.2)]
        simp [-BitVec.getLsbD_eq_getElem, hl, Bool.not_eq_true _ ▸ hlane]
    · simp [hq]

/-- One register-cluster of a vector result lands. -/
def Core.landRow (skip : List Nat) (r cs n : Nat) (lanes : Pred) (data : List Row) (k : Core) (q : Nat) : Core :=
  if skip.contains (keyV (r + q / n) (cs + q % n)) then k else k.putRow (r + q / n) (cs + q % n) lanes (data.getD q 0)
theorem land_vec_eq (k : Core) (skip : List Nat) (r rows cs n : Nat) (lanes : Pred) (data : List Row) :
    k.land skip (.vec r rows cs n lanes data) = (List.range (rows * n)).foldl (Core.landRow skip r cs n lanes data) k := rfl
theorem landRow_frame (skip : List Nat) (r cs n : Nat) (lanes : Pred) (data : List Row) (k : Core) (q : Nat) :
    Core.landRow skip r cs n lanes data k q = { k with v := (Core.landRow skip r cs n lanes data k q).v } := by
  unfold Core.landRow
  split <;> rfl

theorem index_iff {r cs n m q g : Nat} (hn : 0 < n) :
    q = r + m / n ∧ g = cs + m % n ↔ r ≤ q ∧ cs ≤ g ∧ g < cs + n ∧ n * (q - r) + (g - cs) = m := by
  constructor
  · rintro ⟨rfl, rfl⟩
    refine ⟨Nat.le_add_right .., Nat.le_add_right .., Nat.add_lt_add_left (Nat.mod_lt m hn) _, ?_⟩
    rw [Nat.add_sub_cancel_left, Nat.add_sub_cancel_left, Nat.div_add_mod]
  · rintro ⟨hq, hg, hg', rfl⟩
    rw [Nat.mul_add_div hn, Nat.mul_add_mod, Nat.div_eq_of_lt (by omega), Nat.mod_eq_of_lt (by omega)]
    omega

theorem landRows_frame (skip : List Nat) (r cs n : Nat) (lanes : Pred) (data : List Row) : ∀ (l : List Nat) (k : Core),
    l.foldl (Core.landRow skip r cs n lanes data) k = { k with v := (l.foldl (Core.landRow skip r cs n lanes data) k).v }
  | [], _ => rfl
  | a :: l, k => by
    rw [List.foldl_cons, landRows_frame skip r cs n lanes data l, landRow_frame]

/-- A lane after one register-cluster of a block has landed. -/
theorem lane_landRow (k : Core) (skip : List Nat) (r cs n : Nat) (lanes : Pred) (data : List Row) (h0 : 0 < n) (hn : cs + n ≤ 8) (q g l m : Nat)
    (hg : g < 8) (hl : l < 16) : lane ((Core.landRow skip r cs n lanes data k m).vreg q g) l =
      if r ≤ q ∧ cs ≤ g ∧ g < cs + n ∧ n * (q - r) + (g - cs) = m ∧ keyV q g ∉ skip ∧ lanes.getLsbD (16 * g + l) = true
      then lane (data.getD m 0) l else lane (k.vreg q g) l := by
  have hi := index_iff (r := r) (cs := cs) (m := m) (q := q) (g := g) h0
  have hm := Nat.mod_lt m h0
  unfold Core.landRow
  split
  next hs => 
    rw [if_neg]
    rintro ⟨h1, h2, h3, h4, h5, -⟩
    obtain ⟨rfl, rfl⟩ := hi.mpr ⟨h1, h2, h3, h4⟩
    exact h5 (by simpa using hs)
  next hs =>
    rw [lane_putRow _ _ _ _ _ _ _ _ (by omega) hg hl]
    congr 1
    refine propext ⟨fun ⟨h1, h2, h3⟩ => ?_, fun ⟨h1, h2, h3, h4, h5, h6⟩ => ?_⟩
    · obtain ⟨a, b, c, d⟩ := hi.mp ⟨h1, h2⟩
      subst h1 h2
      exact ⟨a, b, c, d, by simpa using hs, h3⟩
    · obtain ⟨a, b⟩ := hi.mpr ⟨h1, h2, h3, h4⟩
      exact ⟨a, b, b ▸ h6⟩

/-- A lane after the first m register-clusters of a block have landed. -/
theorem lane_landRows (k : Core) (skip : List Nat) (r cs n : Nat) (lanes : Pred) (data : List Row) (h0 : 0 < n) (hn : cs + n ≤ 8) (q g l : Nat) (hg : g < 8)
    (hl : l < 16) : ∀ m, lane (((List.range m).foldl (Core.landRow skip r cs n lanes data) k).vreg q g) l =
      if r ≤ q ∧ cs ≤ g ∧ g < cs + n ∧ n * (q - r) + (g - cs) < m ∧ keyV q g ∉ skip ∧ lanes.getLsbD (16 * g + l) = true
      then lane (data.getD (n * (q - r) + (g - cs)) 0) l else lane (k.vreg q g) l
  | 0 => by simp
  | m + 1 => by
    rw [List.range_succ, List.foldl_append, List.foldl_cons, List.foldl_nil, lane_landRow _ _ _ _ _ _ _ h0 hn _ _ _ _ hg hl,
      lane_landRows k skip r cs n lanes data h0 hn q g l hg hl m]
    grind

/-- A vector result lands in the lanes it changes. -/
theorem land_vec (k : Core) (skip : List Nat) (r rows cs n : Nat) (lanes : Pred) (data : List Row) :
    (cs + n ≤ 8 → ∀ q g l, g < 8 → l < 16 → lane ((k.land skip (.vec r rows cs n lanes data)).vreg q g) l =
      if r ≤ q ∧ q < r + rows ∧ cs ≤ g ∧ g < cs + n ∧ keyV q g ∉ skip ∧ lanes.getLsbD (16 * g + l) = true
      then lane (data.getD (n * (q - r) + (g - cs)) 0) l else lane (k.vreg q g) l)
    ∧ k.land skip (.vec r rows cs n lanes data) = { k with v := (k.land skip (.vec r rows cs n lanes data)).v } := by
  rw [land_vec_eq]
  refine ⟨fun hn q g l hg hl => ?_, landRows_frame ..⟩
  rcases Nat.eq_zero_or_pos n with rfl | h0
  · rw [if_neg (by omega)]
    simp
  · rw [lane_landRows _ _ _ _ _ _ _ h0 hn _ _ _ hg hl]
    congr 1
    refine propext ⟨fun ⟨h1, h2, h3, h4, h5⟩ => ⟨h1, ?_, h2, h3, h5⟩, fun ⟨h1, h2, h3, h4, h5⟩ => ⟨h1, h3, h4, ?_, h5⟩⟩
    · by_contra h
      have := Nat.mul_le_mul_left n (show rows ≤ q - r by omega)
      rw [Nat.mul_comm n rows] at this
      omega
    · calc n * (q - r) + (g - cs) < n * (q - r) + n := by omega
        _ = n * (q - r + 1) := (Nat.mul_succ ..).symm
        _ ≤ n * rows := Nat.mul_le_mul_left n (by omega)
        _ = rows * n := Nat.mul_comm ..
/-- The registers of a vector result. -/
theorem mem_keys_vec {r rows cs n : Nat} {lanes : Pred} {data : List Row} {q g : Nat} (hq : r ≤ q ∧ q < r + rows) (hg : cs ≤ g ∧ g < cs + n) :
    keyV q g ∈ (Payload.vec r rows cs n lanes data).keys := by
  simp only [Payload.keys, List.mem_flatMap, List.mem_map, List.mem_range]
  exact ⟨q - r, by omega, g - cs, by omega, by rw [Nat.add_sub_cancel' hq.1, Nat.add_sub_cancel' hg.1]⟩

def Core.landSegment (skip : List Nat) (j cs n : Nat) (lanes : Pred) (data : List Row) (k : Core) (q : Nat) : Core :=
  if skip.contains (keyW (j + q)) then k
  else
    let m := (laneMask lanes (cs + q / 2 % n) 16).extractLsb' (256 * (q % 2)) 160
    { k with pwp := tput 0 k.pwp (j + q) ((k.segment (j + q) &&& ~~~m) ||| ((data.getD (q / 2) 0).extractLsb' (256 * (q % 2)) 160 &&& m)) }
theorem landSegments_frame (skip : List Nat) (j cs n : Nat) (lanes : Pred) (data : List Row) : ∀ (l : List Nat) (k : Core),
    l.foldl (Core.landSegment skip j cs n lanes data) k = { k with pwp := (l.foldl (Core.landSegment skip j cs n lanes data) k).pwp }
  | [], _ => rfl
  | a :: l, k => by
    have h : Core.landSegment skip j cs n lanes data k a = { k with pwp := (Core.landSegment skip j cs n lanes data k a).pwp } := by
      unfold Core.landSegment
      split <;> rfl
    rw [List.foldl_cons, landSegments_frame skip j cs n lanes data l, h]

/-- What lands changes registers only. -/
theorem land_frame (k : Core) (skip : List Nat) : ∀ w : Payload,
    k.land skip w = { k with s := (k.land skip w).s, p := (k.land skip w).p, v := (k.land skip w).v, pwp := (k.land skip w).pwp }
  | .scalar r v => by rw [(land_scalar k skip r v).2]
  | .pred r lanes b => by rw [(land_pred k skip r lanes b).2]
  | .vec r rows cs n lanes data => by rw [(land_vec k skip r rows cs n lanes data).2]
  | .pwp j rows cs n lanes data => by
    have h : k.land skip (.pwp j rows cs n lanes data) = { k with pwp := (k.land skip (.pwp j rows cs n lanes data)).pwp } :=
      landSegments_frame ..
    rw [h]

/-! ### Landing in issue order (R30) -/

/-- The registers of a write on which a later-issued write has landed. -/
def Core.lateKeys (k : Core) (f : Flight) : List Nat :=
  if f.keep then [] else f.w.keys.filter (fun q => match tget k.landed q with | some n => decide (f.seq < n) | none => false)
theorem mem_lateKeys {k : Core} {f : Flight} {q : Nat} (h : q ∈ f.w.keys) :
    q ∈ k.lateKeys f ↔ f.keep = false ∧ ∃ n, tget k.landed q = some n ∧ f.seq < n := by
  unfold Core.lateKeys
  split
  next hk => simp [hk]
  next hk =>
    cases hl : tget k.landed q with
    | none => simp [hl]
    | some n => simp [hl, h, hk]
theorem landFlight_eq (k : Core) (f : Flight) : k.landFlight f =
    { k.land (k.lateKeys f) f.w with landed := (k.landFlight f).landed } := rfl
theorem landFlight_frame (k : Core) (f : Flight) : k.landFlight f = { k with
    s := (k.landFlight f).s, p := (k.landFlight f).p, v := (k.landFlight f).v, pwp := (k.landFlight f).pwp, landed := (k.landFlight f).landed } := by
  rw [landFlight_eq, land_frame]

theorem tget_land_marks (n : Nat) (p : Nat → Bool) : ∀ (ks : List Nat) (t : Tbl Nat) (q : Nat),
    tget (ks.foldl (fun t q => if p q then t else tset t q n) t) q = if q ∈ ks ∧ p q = false then some n else tget t q
  | [], _, _ => by simp
  | k :: ks, t, q => by
    rw [List.foldl_cons, tget_land_marks n p ks]
    by_cases hq : q = k
    · subst hq
      by_cases hp : p q = true
      · simp [hp]
      · simp [Bool.eq_false_iff.mpr hp]
    · have : tget (if p k then t else tset t k n) q = tget t q := by
        split
        · rfl
        · exact tget_tset_other _ _ (Ne.symm hq)
      simp [this, hq]
/-- What the clock of the last write that landed on a register is after a write has landed. -/
theorem landed_landFlight (k : Core) (f : Flight) (q : Nat) :
    tget (k.landFlight f).landed q = if q ∈ f.w.keys ∧ q ∉ k.lateKeys f then some f.seq else tget k.landed q := by
  have h : (k.landFlight f).landed
      = f.w.keys.foldl (fun t q => if (k.lateKeys f).contains q then t else tset t q f.seq) (k.land (k.lateKeys f) f.w).landed := rfl
  have hl : (k.land (k.lateKeys f) f.w).landed = k.landed := by rw [land_frame]
  rw [h, hl, tget_land_marks]
  simp

theorem landDue_eq (k : Core) : k.landDue =
    { (k.flight.filter fun g => decide (g.due ≤ k.sched)).foldl Core.landFlight { k with flight := k.flight.filter fun g => decide (k.sched < g.due) } with
      landed := k.landDue.landed } := rfl

/-- The value that a write brings to scalar register r. -/
def Flight.scalarOf (r : Nat) (f : Flight) : Option W64 := match f.w with | .scalar q v => if q = r then some v else none | _ => none
theorem sreg_landFlight {k : Core} {f : Flight} {r : Nat} (hr : r ≠ 0) (hl : ∀ n, tget k.landed r = some n → n ≤ f.seq) :
    (k.landFlight f).sreg r = (f.scalarOf r).getD (k.sreg r) := by
  have hd : (k.land (k.lateKeys f) f.w).seed = k.seed := by rw [land_frame]
  rw [show (k.landFlight f).sreg r = (k.land (k.lateKeys f) f.w).sreg r from rfl]
  unfold Flight.scalarOf
  split
  next q v hw =>
    have hm : keyS q ∈ f.w.keys := by simp [hw, Payload.keys]
    rw [hw, (land_scalar ..).1]
    by_cases hq : q = r
    · subst hq
      have : ¬ keyS q ∈ k.lateKeys f := by
        rw [mem_lateKeys hm]
        rintro ⟨-, n, hn, hlt⟩
        exact absurd (hl n hn) (by omega)
      simp [hr, this]
    · simp [Ne.symm hq, hq]
  next hw =>
    refine sreg_congr ?_ hd r
    cases hp : f.w with
    | scalar q v => exact absurd hp (hw q v)
    | pred q lanes b => rw [(land_pred ..).2]
    | vec r rows cs n lanes data => rw [(land_vec ..).2]
    | pwp j rows cs n lanes data => 
      have h : ∀ k : Core, k.land (k.lateKeys f) (.pwp j rows cs n lanes data) = { k with pwp := (k.land (k.lateKeys f) (.pwp j rows cs n lanes data)).pwp } := fun k => landSegments_frame ..
      rw [h]

/-- Writes that land in issue order leave in a scalar register the value of the last of them. -/
theorem sreg_landFlights {r : Nat} (hr : r ≠ 0) : ∀ (fs : List Flight) (k : Core), (fs.map (·.seq)).Pairwise (· < ·) →
    (∀ n, tget k.landed r = some n → ∀ f, f ∈ fs → n ≤ f.seq) →
    (fs.foldl Core.landFlight k).sreg r = ((fs.filterMap (Flight.scalarOf r)).getLast?).getD (k.sreg r)
  | [], _, _, _ => rfl
  | f :: fs, k, hp, hl => by
    rw [List.map_cons, List.pairwise_cons] at hp
    have hlater : ∀ g ∈ fs, f.seq < g.seq := fun g hg => hp.1 _ (List.mem_map_of_mem hg)
    rw [List.foldl_cons, sreg_landFlights hr fs _ hp.2, sreg_landFlight hr fun n hn => hl n hn f (List.mem_cons_self ..)]
    · cases h : f.scalarOf r with
      | none => simp [h]
      | some v => simp [h, List.getLast?_cons]
    · intro n hn g hg
      rw [landed_landFlight] at hn
      split at hn
      · exact Option.some.inj hn ▸ (hlater g hg).le
      · exact hl n hn g (List.mem_cons_of_mem _ hg)

/-- The one write that is readable lands, and the others stay in flight. -/
theorem landDue_single {k : Core} {f : Flight} (h : (k.flight.filter fun g => decide (g.due ≤ k.sched)) = [f]) :
    k.landDue = { Core.land { k with flight := k.flight.filter fun g => decide (k.sched < g.due) } (k.lateKeys f) f.w with
      landed := k.landDue.landed } := by
  conv_lhs => rw [landDue_eq, h]
  rfl

/-- Settles O6: one write lands as the lemma about its payload says, and a fold over the writes lands them in issue order. -/
theorem writesLand : Obligations.WritesLand := by
  unfold Obligations.WritesLand
  refine ⟨fun c s f hf => ?_, fun c r s hr hp hl => ?_⟩
  · refine ⟨_, rfl, fun j hj => State.core_setCore_other s _ (Ne.symm hj), rfl, ?_⟩
    simp only [State.core_setCore_same]
    have hk := landDue_single hf
    generalize (s.core c).landDue = k' at hk
    generalize s.core c = k at hk
    refine ⟨?_, ?_, fun r v hw => ?_, fun r lanes b hw => ?_, fun r rows cs n lanes data hw hn => ?_⟩
    · rw [hk, land_frame]
    · rw [hk, land_frame]
    · have hm : keyS r ∈ f.w.keys := by simp [hw, Payload.keys]
      rw [hw] at hk
      obtain ⟨hr, hframe⟩ := land_scalar { k with flight := k.flight.filter fun g => decide (k.sched < g.due) } (k.lateKeys f) r v
      refine ⟨fun q => ?_, by rw [hk, hframe], by rw [hk, hframe], by rw [hk, hframe]⟩
      rw [hk]
      exact (hr q).trans (if_congr (by rw [mem_lateKeys hm]) rfl rfl)
    · have hm : keyP r ∈ f.w.keys := by simp [hw, Payload.keys]
      rw [hw] at hk
      obtain ⟨hr, hframe⟩ := land_pred { k with flight := k.flight.filter fun g => decide (k.sched < g.due) } (k.lateKeys f) r lanes b
      refine ⟨fun q l hl => ?_, by rw [hk, hframe], by rw [hk, hframe], by rw [hk, hframe]⟩
      rw [hk]
      exact (hr q l hl).trans (if_congr (by rw [mem_lateKeys hm]) rfl rfl)
    · obtain ⟨hr, hframe⟩ := land_vec { k with flight := k.flight.filter fun g => decide (k.sched < g.due) } (k.lateKeys f) r rows cs n lanes data
      rw [hw] at hk
      refine ⟨fun q g l hg hl => ?_, by rw [hk, hframe], by rw [hk, hframe], by rw [hk, hframe]⟩
      rw [hk]
      refine (hr hn q g l hg hl).trans ?_
      by_cases hin : (r ≤ q ∧ q < r + rows) ∧ cs ≤ g ∧ g < cs + n
      · have hm : keyV q g ∈ f.w.keys := hw ▸ mem_keys_vec hin.1 hin.2
        exact if_congr (by rw [mem_lateKeys hm]) rfl rfl
      · rw [if_neg fun h => hin ⟨⟨h.1, h.2.1⟩, h.2.2.1, h.2.2.2.1⟩, if_neg fun h => hin ⟨⟨h.1, h.2.1⟩, h.2.2.1, h.2.2.2.1⟩]
        rfl
  · refine ⟨_, rfl, ?_⟩
    rw [State.core_setCore_same, landDue_eq]
    exact sreg_landFlights hr _ _ hp hl
/-! ### Interlocked results (R32) -/

theorem arrive_known {s : State} {c id : Nat} {p : Pend} {w : Payload} (hp : (s.core c).pend.find? (fun p => p.id == id) = some p)
    (hv : p.value = some w) :
    s.arrive c id = s.setCore c { (s.core c).landPend p.seq w with pend := (s.core c).pend.filter fun q => q.id != id } := by
  simp only [State.arrive, hp, hv]
theorem arrive_unknown {s : State} {c id : Nat} (h : (s.core c).pend.find? (fun p => p.id == id) = none
      ∨ ∃ p, (s.core c).pend.find? (fun p => p.id == id) = some p ∧ p.value = none) : s.arrive c id = s := by
  rcases h with hp | ⟨p, hp, hv⟩
  · simp only [State.arrive, hp]
  · simp only [State.arrive, hp, hv]
theorem landPend_scalar (k : Core) (n r : Nat) (v : W64) : k.landPend n (.scalar r v) = { k.land [] (.scalar r v) with
    landed := if k.flight.isEmpty then k.landed else tset k.landed (keyS r) n } := by
  have h : k.landPend n (.scalar r v) = if (k.land [] (.scalar r v)).flight.isEmpty then k.land [] (.scalar r v)
    else { k.land [] (.scalar r v) with landed := tset (k.land [] (.scalar r v)).landed (keyS r) n } := rfl
  rw [h, (land_scalar k [] r v).2]
  cases k.flight.isEmpty <;> rfl

/-- Settles O7: the value lands as a scalar result does. -/
theorem interlockedResultArrives : Obligations.InterlockedResultArrives := by
  unfold Obligations.InterlockedResultArrives
  intro c id s
  refine ⟨s.arrive c id, rfl, fun p r v hp hv => ?_, arrive_unknown⟩
  have hreg := (land_scalar (s.core c) [] r v).1
  have hframe := (land_scalar (s.core c) [] r v).2
  rw [arrive_known hp hv, landPend_scalar, State.core_setCore_same]
  refine ⟨fun q => ?_, rfl, fun hf q => ?_, fun hf => ?_, ?_, fun j hj => State.core_setCore_other s _ (Ne.symm hj), rfl⟩
  · refine Eq.trans ?_ ((hreg q).trans (by simp))
    rfl
  · rw [if_neg (by simpa using hf), tget_tset]
  · simp [hf]
  · rw [hframe]
end Sys2Proof.Machine
end

section
/-! Proofs about reset (R401). -/
namespace Sys2Proof.Machine
open Sys2Proof

/-- Settles O47: what reset lists is empty, so that each part of it is evaluated. -/
theorem resetState : Obligations.ResetState := by
  unfold Obligations.ResetState
  exact ⟨rfl, fun a => rfl, fun c => rfl, fun c k => rfl, by decide, by decide, by decide, by decide⟩
end Sys2Proof.Machine
end

section
/-! Proofs about what moves next (R30, R260, R342, R390, R413). -/
namespace Sys2Proof.Machine
open Sys2Proof

/-! ### Who moves next (R413, R30) -/

theorem earliest_none (clk : Nat) : ∀ {t : Tbl Core}, (∀ c k, (c, k) ∈ t → k.ready = false) → earliest clk t = none
  | [], _ => rfl
  | (c, k) :: t, h => by
    have ht := earliest_none clk fun c k hm => h c k (List.mem_cons_of_mem _ hm)
    simp [earliest, ht, h c k (List.mem_cons_self ..)]
theorem earliest_some (clk : Nat) {t : Tbl Core} {c : Nat} {k : Core} (h : (c, k) ∈ t) (hr : k.ready = true) : ∃ e, earliest clk t = some e := by
  induction t with
  | nil => cases h
  | cons x t ih =>
    obtain ⟨c', k'⟩ := x
    simp only [earliest]
    cases he : earliest clk t with
    | some e =>
      dsimp only
      split
      · exact ⟨_, rfl⟩
      · exact ⟨_, rfl⟩
    | none =>
      rcases List.mem_cons.mp h with heq | hm
      · obtain ⟨rfl, rfl⟩ := Prod.mk.inj heq
        exact ⟨_, if_pos hr⟩
      · obtain ⟨e, h'⟩ := ih hm
        rw [he] at h'
        cases h'

theorem step_event {s : State} {t : Nat} {i : Instr} (h : s.mover = .event t i) :
    step s = exec i { s with clk := max s.clk t, agenda := s.agenda.tail } := by
  simp only [step, h]
theorem step_core {s : State} {c : Nat} (h : s.mover = .core c) : step s =
    match Core.first c (s.core c) with
    | some i => exec i { s with clk := max s.clk (s.core c).nextClk, cur := c }
    | none => .next (State.issueNext { s with clk := max s.clk (s.core c).nextClk, cur := c }) := by
  simp only [step, h]
  rfl
theorem first_flight {k : Core} (c : Nat) (h : ∃ f, f ∈ k.flight ∧ f.due ≤ k.sched) : Core.first c k = some (.registerWriteLands c) := by
  simp [Core.first, h]
theorem first_drain {k : Core} (c : Nat) {d : Drain} (h : ∀ f, f ∈ k.flight → k.sched < f.due) (hd : k.drain = some d) (hlt : d.due < k.sched) :
    Core.first c k = some (.drainRowLeaves c) := by
  have : ¬ ∃ f ∈ k.flight, f.due ≤ k.sched := fun ⟨f, hf, hle⟩ => absurd (h f hf) (by omega)
  simp [Core.first, this, hd, hlt]
/-- What a bundle goes before: dispatch, and an access to a tile by a higher core. -/
theorem yields_iff (s : State) (i : Instr) (c : Nat) :
    s.yields i c = true ↔ (∃ d, i = .taskDispatch d) ∨ ∃ c', s.tileCore i = some c' ∧ c < c' := by
  unfold State.yields
  split
  next d => simp
  next hd =>
    have : ¬ ∃ d, i = .taskDispatch d := fun ⟨d, h⟩ => hd d h
    simp only [this, false_or]
    cases s.tileCore i <;> simp

theorem mover_cons {s : State} {t : Nat} {i : Instr} {r : List (Nat × Instr)} {e : Nat × Core} (ha : s.agenda = (t, i) :: r)
    (he : earliest s.clk s.cores = some e) (ht : s.trapAt t i = none) :
    s.mover = if max s.clk t < max s.clk e.2.nextClk ∨ (max s.clk t = max s.clk e.2.nextClk ∧ !s.yields i e.1) then .event t i else .core e.1 := by
  simp only [State.mover, ha, he, ht, List.head?_cons]

/-- Settles O45, by the branches of `mover` and of `Core.first`. -/
theorem stepTakesEventsFirst : Obligations.StepTakesEventsFirst := by
  unfold Obligations.StepTakesEventsFirst
  intro s
  refine ⟨fun t i r ha h => ?_, fun t i r e ha he ht h => ?_, fun t d c k r ha hm hk hr ht hf => ?_, fun c hc => ⟨fun h => ?_, fun d h hd hlt => ?_⟩,
    fun ha h => ?_⟩
  · have hm : s.mover = .event t i := by
      cases he : earliest s.clk s.cores with
      | none => simp only [State.mover, ha, he, List.head?_cons]
      | some e =>
        obtain ⟨ht, hlt⟩ := h e he
        rw [mover_cons ha he ht, if_pos (by simpa only [← yields_iff, Bool.not_eq_true, Bool.not_eq_eq_eq_not, Bool.not_true] using hlt)]
    rw [step_event hm, ha]
    rfl
  · rw [mover_cons ha he ht, if_neg]
    rintro (hlt | ⟨heq, hy⟩)
    · omega
    · rcases h with h | ⟨-, h⟩
      · omega
      · rw [(yields_iff s i e.1).mpr h] at hy
        cases hy
  · obtain ⟨e, he⟩ := earliest_some s.clk hm hr
    have : s.trapAt t (.preemptionUnitSave d 0 c) = some c := by
      subst hk
      simp [State.trapAt, hr, hf] at ht ⊢
      omega
    simp only [State.mover, ha, he, this, List.head?_cons]
  · rw [step_core hc, first_flight c h]
  · rw [step_core hc, first_drain c h hd hlt]
  · simp only [step, State.mover, ha, earliest_none s.clk h, List.head?_nil]
end Sys2Proof.Machine
end

section
/-! Proofs about what reads are counted in (R70, R119 to R122, R391). -/
namespace Sys2Proof.Machine
open Sys2Proof

/-! ### What reads are counted in (R70, R119 to R122, R391) -/

/-- Only the counts of dies, stacks and flash have changed, and what they set off is on the agenda. -/
structure Counts (s t : State) : Prop where
  eq : t = { s with dies := t.dies, hot := t.hot, pchan := t.pchan, pchanUsed := t.pchanUsed, busyTill := t.busyTill
                    agenda := t.agenda, hclass := t.hclass, health := t.health }

namespace Counts
theorem refl (s : State) : Counts s s := ⟨rfl⟩
theorem trans {s t u : State} (h : Counts s t) (g : Counts t u) : Counts s u := ⟨by rw [g.eq, h.eq]⟩
theorem ite {s t u : State} (c : Prop) [Decidable c] (ht : Counts s t) (hu : Counts s u) : Counts s (if c then t else u) := by
  split
  · exact ht
  · exact hu
theorem foldl {α : Type} {f : State → α → State} (h : ∀ s a, Counts s (f s a)) : ∀ (l : List α) (s : State), Counts s (l.foldl f s)
  | [], s => refl s
  | a :: l, s => (h s a).trans (foldl h l (f s a))
variable {s t : State} (h : Counts s t)
include h
theorem cores : t.cores = s.cores := by rw [h.eq]
theorem core (c : Nat) : t.core c = s.core c := by rw [h.eq]; rfl
theorem cur : t.cur = s.cur := by rw [h.eq]
theorem me : t.me = s.me := by rw [h.eq]; rfl
theorem issue : t.issue = s.issue := by rw [h.eq]
theorem clk : t.clk = s.clk := by rw [h.eq]
theorem quads : t.quads = s.quads := by rw [h.eq]
theorem parts : t.parts = s.parts := by rw [h.eq]
end Counts

theorem schedule_counts (s : State) (dt : Nat) (i : Instr) : Counts s (s.schedule dt i) := ⟨rfl⟩
theorem setDie_counts (s : State) (d : Nat) (x : Die) : Counts s (s.setDie d x) := ⟨rfl⟩
theorem setFlash_counts (s : State) (e : Nat) (f : Flash) : Counts s (s.setFlash e f) := ⟨rfl⟩
theorem bumpStack_counts (s : State) (e k lo : Nat) : Counts s (s.bumpStack e k lo) := ⟨rfl⟩
theorem dropStack_counts (s : State) (e k lo : Nat) : Counts s (s.dropStack e k lo) := ⟨rfl⟩
theorem bumpClass_counts (s : State) (e b lo w n : Nat) : Counts s (s.bumpClass e b lo w n) := .ite _ (.refl s) ⟨rfl⟩
theorem setBlock_counts (s : State) (e b : Nat) (f : Flash) : Counts s (s.setBlock e b f) :=
  ((setFlash_counts s e f).trans (.foldl (fun s _ => dropStack_counts s ..) _ _)).trans (.foldl (fun s _ => bumpStack_counts s ..) _ _)
theorem retireBlock_counts (s : State) (e b : Nat) : Counts s (s.retireBlock e b) := (setBlock_counts ..).trans (bumpStack_counts ..)
theorem takeFresh_counts (s : State) (e near : Nat) (only : Bool) (n : Nat) : Counts s (s.takeFresh e near only n).1 := by
  induction n generalizing s with
  | zero => exact .refl s
  | succ n ih =>
    unfold State.takeFresh
    dsimp only
    split
    · exact .refl s
    split
    · exact (retireBlock_counts ..).trans (ih _)
    · exact setBlock_counts ..
theorem startRelocation_counts (s : State) (e b : Nat) : Counts s (s.startRelocation e b) := by
  have h : Counts s (s.takeSpare e (stackOf b) (decide (allBlocks ≤ b))).1 := takeFresh_counts ..
  unfold State.startRelocation
  split
  next u heq => rwa [heq] at h
  next u k heq =>
    rw [heq] at h
    exact (((h.trans (setBlock_counts ..)).trans (bumpStack_counts ..)).trans (bumpClass_counts ..)).trans (schedule_counts ..)
theorem countPage_counts (s : State) (e pp : Nat) : Counts s (s.countPage e pp) :=
  have h := (setFlash_counts s e _).trans (bumpClass_counts ..)
  .ite _ (h.trans (startRelocation_counts ..)) h
theorem countRead_counts (s : State) (e pp : Nat) : Counts s (s.countRead e pp) :=
  .ite _ ((Counts.foldl (fun s _ => countPage_counts s ..) _ _).trans (bumpClass_counts ..)) (countPage_counts ..)
theorem reach_counts (s : State) (pa : Nat) : Counts s (s.reach pa) := ⟨by rw [reach_eq]⟩
theorem touch_counts (s : State) (pa n : Nat) : Counts s (s.touch pa n) :=
  .ite _ (.refl s) (.ite _ (reach_counts s pa) ((reach_counts s pa).trans (setDie_counts ..)))
theorem noteTraffic_counts (s : State) (c pa n : Nat) : Counts s (s.noteTraffic c pa n) := .ite _ (.refl s) ⟨rfl⟩
theorem countPlaces_counts (s : State) (c : Nat) (ps : List (Place × Nat)) : Counts s (s.countPlaces c ps) := by
  refine (Counts.foldl (fun s p => countRead_counts s ..) _ _).trans (.foldl (fun s p => ?_) _ _)
  split
  · exact (noteTraffic_counts ..).trans (touch_counts ..)
  · exact .refl s
theorem counted_counts (s : State) (c : Nat) (xs : List (List Byte × W64 × Place)) : Counts s (s.counted c xs) := countPlaces_counts ..
theorem countSpan_counts (s : State) (va : W64) (n : Nat) : Counts s (s.countSpan va n) := by
  unfold State.countSpan
  split
  · exact counted_counts ..
  · exact .refl s
theorem countImage_counts (s : State) (b : Fin 64) : Counts s (s.countImage b) := by
  unfold State.countImage
  split
  · exact .refl s
  split
  · split
    · exact countSpan_counts ..
    · exact .refl s
  · exact .refl s
end Sys2Proof.Machine
end

section
/-! Proofs about a bundle (R25, R34, R35). -/
namespace Sys2Proof
/-- No row of slots 1 to 3 decodes to an instruction of slot 0 (R24). -/
theorem slot_of_rowL {w : Nat} {l : Lent} {m : Micro} {i : Instr} : rowL w l m = some i → 1 ≤ i.slot := by
  unfold rowL
  iterate 30 refine of_row (P := fun i : Instr => 1 ≤ i.slot) ?_ fun _ => Nat.le_refl 1
  exact nofun
theorem slot_of_rowV {w : Nat} {l : Lent} {i : Instr} : rowV w l = some i → 1 ≤ i.slot := by
  unfold rowV
  iterate 47 refine of_row (P := fun i : Instr => 1 ≤ i.slot) ?_ fun _ => by simp [Instr.slot]
  exact nofun
theorem slot_of_rowW {w : Nat} {l : Lent} {m : Micro} {i : Instr} : rowW w l m = some i → 1 ≤ i.slot := by
  unfold rowW
  iterate 44 refine of_row (P := fun i : Instr => 1 ≤ i.slot) ?_ fun _ => by simp [Instr.slot]
  exact nofun
theorem slot_of_decodeSlot {k w : Nat} {x : Lend} {i : Instr} (h : decodeSlot (k + 1) w x = .ok i) : 1 ≤ i.slot :=
  match k with
  | 0 => slot_of_rowL (of_decoded h).1
  | 1 => slot_of_rowV (of_decoded h).1
  | _ + 2 => slot_of_rowW (of_decoded h).1
/-- Slots 1 to 3 of a bundle hold instructions of these slots. -/
theorem slots_of_decodeBundle {w0 w1 w2 w3 : Nat} {x : Bundle} (h : decodeBundle w0 w1 w2 w3 = .ok x) :
    1 ≤ x.l.slot ∧ 1 ≤ x.v.slot ∧ 1 ≤ x.w.slot := by
  unfold decodeBundle at h
  cases h0 : decodeSlot0 w0 with
  | error e => simp [h0] at h
  | ok i0 =>
    cases h1 : decodeSlot 1 w1 (lendOf i0 1) with
    | error e => simp [h0, h1] at h
    | ok i1 =>
      cases h2 : decodeSlot 2 w2 (lendOf i0 2) with
      | error e => simp [h0, h1, h2] at h
      | ok i2 =>
        cases h3 : decodeSlot 3 w3 (lendOf i0 3) with
        | error e => simp [h0, h1, h2, h3] at h
        | ok i3 =>
          simp only [h0, h1, h2, h3, Except.ok.injEq] at h
          subst h
          exact ⟨slot_of_decodeSlot h1, slot_of_decodeSlot h2, slot_of_decodeSlot h3⟩
end Sys2Proof

namespace Sys2Proof.Machine
open Sys2Proof

/-! ### A bundle (R25, R34, R35) -/

theorem step_issues {s : State} {c : Nat} (h : s.Issues c) : step s = .next (State.issueBundle { s with clk := max s.clk (s.core c).nextClk, cur := c }) := by
  have hp : State.me { s with clk := max s.clk (s.core c).nextClk, cur := c } = s.core c := rfl
  rw [step_core h.mover, h.first]
  dsimp only
  rw [State.issueNext, hp, h.post]

/-- What becomes of the bundle that x holds, tried on the state u. -/
def State.runBundle (u : State) (b : List Byte) (x : Bundle) : State :=
  match firstStop u [x.s, x.l, x.v, x.w] with
  | some t => (match t.issue with | .trapped _ => u.countFetch t | _ => t.stallWant x.w).stopped
  | none =>
    let t := threadSlots u (slotOrder x) u
    match t.issue with
    | .trapped _ => (u.countFetch t).stopped
    | .held => (t.stallWant x.w).stopped
    | .late => (t.stallWant x.w).stopped
    | .issued => (u.countFetch t).retire u.me.pc.toNat (wordOf b 0 / 2 ^ 28 % 8) b
    | .idle => (u.countFetch t).retire u.me.pc.toNat (wordOf b 0 / 2 ^ 28 % 8) b
/-- A core whose fetch finds a well-formed bundle runs it. -/
theorem step_runBundle {s : State} {c : Nat} {b : List Byte} {x : Bundle} (h : s.Issues c) (hf : (s.issuing c).fetch = .words b)
    (hi : illFormed (s.issuing c).me (s.issuing c).myDie b = none)
    (hd : decodeBundle (wordOf b 0) (wordOf b 1) (wordOf b 2) (wordOf b 3) = .ok x) : step s = .next ((s.issuing c).runBundle b x) := by
  rw [step_issues h]
  have hu : s.issuing c = (State.mark { s with clk := max s.clk (s.core c).nextClk, cur := c } .idle).setMe
    { State.me { s with clk := max s.clk (s.core c).nextClk, cur := c } with waits := 0, engaged := false } := rfl
  simp only [State.issueBundle, ← hu, hf, hi, hd]
  rfl
theorem step_illFormed {s : State} {c n : Nat} {b : List Byte} (h : s.Issues c) (hf : (s.issuing c).fetch = .words b)
    (hi : illFormed (s.issuing c).me (s.issuing c).myDie b = some n) : step s = .next
      ((s.issuing c).countFetch ((s.issuing c).raiseNow ⟨illegalInstruction, 0, BitVec.ofNat 64 (wordOf b n), n⟩)).stopped := by
  rw [step_issues h]
  have hu : s.issuing c = (State.mark { s with clk := max s.clk (s.core c).nextClk, cur := c } .idle).setMe
    { State.me { s with clk := max s.clk (s.core c).nextClk, cur := c } with waits := 0, engaged := false } := rfl
  simp only [State.issueBundle, ← hu, hf, hi]

theorem runSlot_next {i : Instr} {s t : State} (h : exec i s = .next t) : runSlot i s = t := by
  simp only [runSlot, h]
theorem firstStop_none {s : State} {is : List Instr} (h : ∀ i, i ∈ is → ∃ t, exec i s = .next t ∧ t.issue = .issued) : firstStop s is = none := by
  have hi : ∀ t, t ∈ is.map (fun i => runSlot i s) → t.issue = .issued := by
    rintro _ ht
    obtain ⟨i, hm, rfl⟩ := List.mem_map.mp ht
    obtain ⟨t, he, ht⟩ := h i hm
    rw [runSlot_next he, ht]
  have hf : (is.map fun i => runSlot i s).find? (fun t => t.issue.faults) = none :=
    List.find?_eq_none.mpr fun t ht => by rw [hi t ht]; exact Bool.false_ne_true
  have ha : (is.map fun i => runSlot i s).any (fun t => t.issue == .held) = false :=
    List.any_eq_false.mpr fun t ht => by rw [hi t ht]; exact Bool.false_ne_true
  simp only [firstStop, hf, ha, Bool.false_eq_true, if_false]

/-- A slot passes that neither traps nor waits to. -/
def Passes (s : State) (i : Instr) : Prop := ∃ t, exec i s = .next t ∧ t.issue ≠ .late ∧ ∀ g, t.issue ≠ .trapped g
theorem not_faults_of_passes {s : State} {i : Instr} (h : Passes s i) : (runSlot i s).issue.faults = false := by
  obtain ⟨t, he, hl, ht⟩ := h
  rw [runSlot_next he]
  cases hi : t.issue with
  | trapped f => exact absurd hi (ht f)
  | late => exact absurd hi hl
  | _ => rfl
theorem find_faults {s : State} {before after : List Instr} {i : Instr} (hb : ∀ j, j ∈ before → Passes s j) (hi : (runSlot i s).issue.faults = true) :
    ((before ++ i :: after).map fun i => runSlot i s).find? (fun t => t.issue.faults) = some (runSlot i s) := by
  have hn : (before.map fun i => runSlot i s).find? (fun t => t.issue.faults) = none := by
    refine List.find?_eq_none.mpr fun t ht => ?_
    obtain ⟨j, hm, rfl⟩ := List.mem_map.mp ht
    rw [not_faults_of_passes (hb j hm)]
    exact Bool.false_ne_true
  rw [List.map_append, List.find?_append, hn, List.map_cons, List.find?_cons_of_pos (p := fun t : State => t.issue.faults) hi]
  rfl
theorem firstStop_trapped {s t : State} {before after : List Instr} {i : Instr} {f : FaultInfo} (hb : ∀ j, j ∈ before → Passes s j)
    (he : exec i s = .next t) (ht : t.issue = .trapped f) : firstStop s (before ++ i :: after) = some t := by
  have hr := runSlot_next he
  simp only [firstStop, find_faults hb (by rw [hr, ht]; rfl), hr, ht]
  rfl
theorem firstStop_late {s t : State} {before after : List Instr} {i : Instr} (hb : ∀ j, j ∈ before → Passes s j)
    (he : exec i s = .next t) (ht : t.issue = .late) :
    firstStop s (before ++ i :: after) = some ((holdAll (before ++ i :: after) s).mark .held) := by
  have hr := runSlot_next he
  simp only [firstStop, find_faults hb (by rw [hr, ht]; rfl), hr, ht]
  rfl

theorem holdAll_passed {s : State} : ∀ {is : List Instr}, (∀ j, j ∈ is → ∃ r, exec j s = .next r ∧ r.issue ≠ .held) → ∀ js, holdAll (is ++ js) s = holdAll js s
  | [], _, _ => rfl
  | i :: is, h, js => by
    obtain ⟨r, he, hr⟩ := h i (List.mem_cons_self ..)
    have hh : (runSlot i s).issue ≠ .held := by rwa [runSlot_next he]
    have : (if (runSlot i s).issue == .held then runSlot i s else s) = s := if_neg (by simpa using hh)
    rw [List.cons_append, holdAll, this, holdAll_passed fun j hj => h j (List.mem_cons_of_mem _ hj)]
theorem firstStop_held {s t : State} {before after : List Instr} {i : Instr} (he : exec i s = .next t) (ht : t.issue = .held)
    (hp : ∀ j, j ∈ before ++ i :: after → Passes s j) (hb : ∀ j, j ∈ before → ∃ r, exec j s = .next r ∧ r.issue ≠ .held)
    (ha : ∀ j, j ∈ after → ∃ r, exec j t = .next r ∧ r.issue ≠ .held) : firstStop s (before ++ i :: after) = some t := by
  have hr := runSlot_next he
  have hf : ((before ++ i :: after).map fun i => runSlot i s).find? (fun t => t.issue.faults) = none := by
    refine List.find?_eq_none.mpr fun t ht => ?_
    obtain ⟨j, hm, rfl⟩ := List.mem_map.mp ht
    rw [not_faults_of_passes (hp j hm)]
    exact Bool.false_ne_true
  have hany : ((before ++ i :: after).map fun i => runSlot i s).any (fun t => t.issue == .held) = true := by
    refine List.any_eq_true.mpr ⟨t, List.mem_map.mpr ⟨i, by simp, hr⟩, by rw [ht]; rfl⟩
  have hh : holdAll (before ++ i :: after) s = t := by
    rw [holdAll_passed hb, holdAll, hr, ht]
    exact (congrArg (holdAll · t) (List.append_nil after).symm).trans (holdAll_passed ha [])
  simp only [firstStop, hf, hany, hh, if_true]

theorem runInTurn_of_slot {base s : State} {i : Instr} (h : 1 ≤ i.slot) : runInTurn base i s = runSlot i s := by
  unfold runInTurn
  split
  · exact absurd h (Nat.not_succ_le_zero 0)
  · rfl
theorem runInTurn_of_not_eret {base s : State} {i : Instr} (h : ¬ ∃ a b q, i = .eret a b q) : runInTurn base i s = runSlot i s := by
  unfold runInTurn
  split
  next a b q => exact absurd ⟨a, b, q, rfl⟩ h
  next => rfl
theorem mem_slotOrder {x : Bundle} {i : Instr} (h : i ∈ slotOrder x) : i = x.s ∨ i = x.l ∨ i = x.v ∨ i = x.w := by
  unfold slotOrder at h
  split at h
  all_goals
    simp only [List.mem_cons, List.not_mem_nil, or_false] at h
    tauto
theorem threadSlots_issued {base s t : State} {i : Instr} {is : List Instr} (h : runInTurn base i s = t) (ht : t.issue = .issued) :
    threadSlots base (i :: is) s = threadSlots base is t := by
  simp only [threadSlots, h, ht]
theorem runBundle_issued {u t : State} (b : List Byte) {x : Bundle} (hn : firstStop u [x.s, x.l, x.v, x.w] = none)
    (ht : threadSlots u (slotOrder x) u = t) (h : t.issue = .issued) :
    u.runBundle b x = (u.countFetch t).retire u.me.pc.toNat (wordOf b 0 / 2 ^ 28 % 8) b := by
  simp only [State.runBundle, hn, ht, h]
theorem runBundle_trapped {u t : State} (b : List Byte) {x : Bundle} {f : FaultInfo} (hs : firstStop u [x.s, x.l, x.v, x.w] = some t)
    (h : t.issue = .trapped f) : u.runBundle b x = (u.countFetch t).stopped := by
  simp only [State.runBundle, hs, h]
theorem runBundle_held {u t : State} (b : List Byte) {x : Bundle} (hs : firstStop u [x.s, x.l, x.v, x.w] = some t)
    (h : t.issue = .held) : u.runBundle b x = (t.stallWant x.w).stopped := by
  simp only [State.runBundle, hs, h]

/-- Settles O43: what `firstStop` finds decides, and where it finds nothing the slots act in turn. -/
theorem stepRunsTheBundle : Obligations.StepRunsTheBundle := by
  unfold Obligations.StepRunsTheBundle
  intro s c b x hs u hf hi hd
  rw [step_runBundle hs hf hi hd]
  refine ⟨fun hall i1 i2 i3 i4 t1 t2 t3 t4 ho e1 h1 e2 h2 e3 h3 e4 h4 => ?_, fun before i after t hsl he hb => ⟨fun f ht => ?_, fun ht => ?_⟩,
    fun before i after t hsl he ht hp hb ha => ?_⟩
  · have hn := firstStop_none hall
    obtain ⟨hl, hv, hw⟩ := slots_of_decodeBundle hd
    by_cases hx : (∃ a b q, x.s = .eret a b q)
    · obtain ⟨a, b', q, hx⟩ := hx
      simp only [hx, List.cons.injEq, and_true] at ho e4 ⊢
      obtain ⟨rfl, rfl, rfl, rfl⟩ := ho
      have h5 : runInTurn u (.eret a b' q) t3 = (t4.seeing t3).countImage q := by rw [runInTurn, runSlot_next e4]
      have h6 : ((t4.seeing t3).countImage q).issue = .issued := (countImage_counts ..).issue.trans h4
      have ht : threadSlots u (slotOrder x) u = (t4.seeing t3).countImage q := by
        simp only [slotOrder, hx]
        rw [threadSlots_issued ((runInTurn_of_slot hl).trans (runSlot_next e1)) h1,
          threadSlots_issued ((runInTurn_of_slot hv).trans (runSlot_next e2)) h2,
          threadSlots_issued ((runInTurn_of_slot hw).trans (runSlot_next e3)) h3, threadSlots_issued h5 h6]
        rfl
      exact congrArg _ (runBundle_issued b hn ht h6)
    · have ho : [i1, i2, i3, i4] = slotOrder x := ho
      have hrun : ∀ i, i ∈ [i1, i2, i3, i4] → ∀ s, runInTurn u i s = runSlot i s := by
        intro i hi s
        rcases mem_slotOrder (ho ▸ hi) with rfl | h
        · exact runInTurn_of_not_eret hx
        · exact runInTurn_of_slot (by rcases h with rfl | rfl | rfl; exacts [hl, hv, hw])
      have e4 : exec i4 t3 = .next t4 := by
        split at e4
        next a b' q h => exact absurd ⟨a, b', q, h⟩ hx
        next => exact e4
      have ht : threadSlots u (slotOrder x) u = t4 := by
        rw [← ho, threadSlots_issued ((hrun i1 (by simp) u).trans (runSlot_next e1)) h1,
          threadSlots_issued ((hrun i2 (by simp) t1).trans (runSlot_next e2)) h2,
          threadSlots_issued ((hrun i3 (by simp) t2).trans (runSlot_next e3)) h3,
          threadSlots_issued ((hrun i4 (by simp) t3).trans (runSlot_next e4)) h4]
        rfl
      rw [show s.issuing c = u from rfl, runBundle_issued b hn ht h4]
      dsimp only
      split
      next a b' q h => exact absurd ⟨a, b', q, h⟩ hx
      next => rfl
  · exact congrArg _ (runBundle_trapped b (hsl ▸ firstStop_trapped hb he ht) ht)
  · exact congrArg _ (runBundle_held b (hsl ▸ firstStop_late hb he ht) rfl)
  · exact congrArg _ (runBundle_held b (hsl ▸ firstStop_held he ht (fun j hj => hp j (hsl ▸ hj)) hb ha) ht)
end Sys2Proof.Machine
end

section
/-! Proofs about ill-formed bundles (R34, R36, R47). -/
namespace Sys2Proof.Machine
open Sys2Proof

/-! ### Ill-formed bundles (R34, R36, R47) -/

/-- What an answer says that finds the least number of a kind, where there is one. -/
def FindsLeast (p : Nat → Prop) (o : Option Nat) : Prop := ∀ n, o = some n ↔ p n ∧ ∀ m, m < n → ¬ p m

theorem FindsLeast.congr {p q : Nat → Prop} {o : Option Nat} (h : FindsLeast p o) (hpq : ∀ n, p n ↔ q n) : FindsLeast q o := fun n => by
  rw [h n, hpq n]
  exact and_congr_right fun _ => forall_congr' fun m => imp_congr_right fun _ => not_congr (hpq m)
theorem FindsLeast.not_of_none {p : Nat → Prop} (h : FindsLeast p none) (n : Nat) : ¬ p n := by
  classical
  intro hn
  have := (h (Nat.find ⟨n, hn⟩)).mpr ⟨Nat.find_spec _, fun m hm => Nat.find_min _ hm⟩
  cases this
theorem FindsLeast.of_none {p : Nat → Prop} (h : ∀ n, ¬ p n) : FindsLeast p none := fun n => by simp [h n]
theorem FindsLeast.of_some {p : Nat → Prop} {n : Nat} (h : p n) (hl : ∀ m, p m → n ≤ m) : FindsLeast p (some n) := fun m => by
  rw [Option.some.injEq]
  refine ⟨?_, fun ⟨hm, hlm⟩ => Nat.le_antisymm (hl m hm) (Nat.le_of_not_lt fun hlt => hlm n hlt h)⟩
  rintro rfl
  exact ⟨h, fun k hk hp => absurd (hl k hp) (by omega)⟩
theorem FindsLeast.le {p : Nat → Prop} {n m : Nat} (h : FindsLeast p (some n)) (hm : p m) : n ≤ m :=
  Nat.le_of_not_lt fun hlt => ((h n).mp rfl).2 m hlt hm
theorem FindsLeast.min {p q : Nat → Prop} {a b : Option Nat} (ha : FindsLeast p a) (hb : FindsLeast q b) :
    FindsLeast (fun n => p n ∨ q n) (minSlot a b) := by
  cases a with
  | none => exact hb.congr fun n => by simp [ha.not_of_none n]
  | some a =>
    have hpa := ((ha a).mp rfl).1
    cases b with
    | none => exact ha.congr fun n => by simp [hb.not_of_none n]
    | some b =>
      have hqb := ((hb b).mp rfl).1
      refine .of_some ?_ fun m hm => ?_
      · rcases Nat.le_total a b with h | h
        · exact Or.inl (by rwa [Nat.min_eq_left h])
        · exact Or.inr (by rwa [Nat.min_eq_right h])
      · rcases hm with h | h
        · exact (Nat.min_le_left ..).trans (ha.le h)
        · exact (Nat.min_le_right ..).trans (hb.le h)

/-- The first entry of a kind of a list whose numbers rise has the least number. -/
theorem find_least {α : Type} (f : Nat × α → Bool) : ∀ {l : List (Nat × α)}, l.Pairwise (fun a b => a.1 < b.1) →
    FindsLeast (fun n => ∃ e, (n, e) ∈ l ∧ f (n, e) = true) ((l.find? f).map (·.1))
  | [], _ => .of_none fun n ⟨_, h, _⟩ => nomatch h
  | (n, a) :: l, h => by
    rw [List.pairwise_cons] at h
    cases hf : f (n, a) with
    | true =>
      rw [List.find?_cons_of_pos hf]
      refine .of_some ⟨a, List.mem_cons_self .., hf⟩ ?_
      rintro m ⟨e, hm, -⟩
      rcases List.mem_cons.mp hm with he | hm
      · cases he; exact le_rfl
      · exact (h.1 _ hm).le
    | false =>
      rw [List.find?_cons_of_neg (by rw [hf]; exact Bool.false_ne_true)]
      refine (find_least f h.2).congr fun m => ⟨fun ⟨e, hm, he⟩ => ⟨e, List.mem_cons_of_mem _ hm, he⟩, fun ⟨e, hm, he⟩ => ?_⟩
      rcases List.mem_cons.mp hm with heq | hm
      · cases heq; rw [hf] at he; cases he
      · exact ⟨e, hm, he⟩

/-- Two instructions of a list name one destination, the first of them with the number n (R36). -/
def Collides (k : Core) (l : List (Nat × Instr)) (n : Nat) : Prop :=
  ∃ i m j q, (n, i) ∈ l ∧ (m, j) ∈ l ∧ n < m ∧ q ∈ dests i k ∧ q ∈ dests j k
theorem collision_least (k : Core) : ∀ {l : List (Nat × Instr)}, l.Pairwise (fun a b => a.1 < b.1) → FindsLeast (Collides k l) (collision k l)
  | [], _ => .of_none fun n ⟨_, _, _, _, h, _⟩ => nomatch h
  | (n, i) :: l, h => by
    rw [List.pairwise_cons] at h
    have hlt : ∀ m j, (m, j) ∈ l → n < m := fun m j hm => h.1 _ hm
    unfold collision
    split
    next hc =>
      obtain ⟨q, hq, hq'⟩ := List.any_eq_true.mp hc
      obtain ⟨⟨m, j⟩, hm, hj⟩ := List.any_eq_true.mp hq'
      refine .of_some ⟨i, m, j, q, List.mem_cons_self .., List.mem_cons_of_mem _ hm, hlt m j hm, hq, by simpa using hj⟩ ?_
      rintro m' ⟨i', _, _, _, hm', -⟩
      rcases List.mem_cons.mp hm' with he | hm'
      · cases he; exact le_rfl
      · exact (hlt _ _ hm').le
    next hc =>
      refine (collision_least k h.2).congr fun m => ⟨fun ⟨i', m', j, q, hi, hj, h'⟩ =>
        ⟨i', m', j, q, List.mem_cons_of_mem _ hi, List.mem_cons_of_mem _ hj, h'⟩, fun ⟨i', m', j, q, hi, hj, hlt', hq, hq'⟩ => ?_⟩
      rcases List.mem_cons.mp hj with he | hj
      · cases he
        rcases List.mem_cons.mp hi with he | hi
        · cases he; omega
        · exact absurd (hlt _ _ hi) (by omega)
      · rcases List.mem_cons.mp hi with he | hi
        · cases he
          exact absurd (List.any_eq_true.mpr ⟨q, hq, List.any_eq_true.mpr ⟨(m', j), hj, by simpa using hq'⟩⟩) hc
        · exact ⟨i', m', j, q, hi, hj, hlt', hq, hq'⟩

theorem slotsOf_sorted (b : List Byte) : (slotsOf b).Pairwise fun x y => x.1 < y.1 := by
  simp [slotsOf]
/-- A slot is ill-formed (R34, R36, R47). -/
def IllSlot (k : Core) (d : Nat) (b : List Byte) (n : Nat) : Prop :=
  ∃ e, (n, e) ∈ slotsOf b ∧ match e with
    | .error _ => True
    | .ok i => barred d i = true ∨ ∃ m j q, (m, Except.ok j) ∈ slotsOf b ∧ n < m ∧ q ≠ keyS 0 ∧ q ≠ keyP 0
        ∧ q ∈ (Instr.uses i k).2 ∧ q ∈ (Instr.uses j k).2

theorem mem_dests {i : Instr} {k : Core} {q : Nat} : q ∈ dests i k ↔ q ≠ keyS 0 ∧ q ≠ keyP 0 ∧ q ∈ (Instr.uses i k).2 := by
  simp [dests, keyS, keyP, and_assoc, and_comm]
/-- The decoded slots of a bundle. -/
def decoded (l : List (Nat × Except Reject Instr)) : List (Nat × Instr) := l.filterMap fun e => match e.2 with | .ok i => some (e.1, i) | .error _ => none
theorem mem_decoded {l : List (Nat × Except Reject Instr)} {n : Nat} {i : Instr} : (n, i) ∈ decoded l ↔ (n, .ok i) ∈ l := by
  simp only [decoded, List.mem_filterMap]
  constructor
  · rintro ⟨⟨m, e⟩, hm, he⟩
    cases e with
    | error => cases he
    | ok j => cases he; exact hm
  · exact fun h => ⟨_, h, rfl⟩
theorem decoded_sorted {l : List (Nat × Except Reject Instr)} (h : l.Pairwise fun x y => x.1 < y.1) : (decoded l).Pairwise fun x y => x.1 < y.1 := by
  refine List.Pairwise.filterMap _ ?_ h
  rintro ⟨n, e⟩ ⟨m, e'⟩ hlt x hx y hy
  cases e <;> cases hx
  cases e' <;> cases hy
  exact hlt

theorem illFormed_least (k : Core) (d : Nat) (b : List Byte) : FindsLeast (IllSlot k d b) (illFormed k d b) := by
  have hs := slotsOf_sorted b
  refine (FindsLeast.min (find_least (fun e => match e.2 with | .ok i => barred d i | .error _ => true) hs)
    (collision_least k (decoded_sorted hs))).congr fun n => ?_
  constructor
  · rintro (⟨e, hm, he⟩ | ⟨i, m, j, q, hi, hj, hlt, hq, hq'⟩)
    · refine ⟨e, hm, ?_⟩
      cases e with
      | error => trivial
      | ok i => exact Or.inl he
    · obtain ⟨h0, h1, hq⟩ := mem_dests.mp hq
      exact ⟨.ok i, mem_decoded.mp hi, Or.inr ⟨m, j, q, mem_decoded.mp hj, hlt, h0, h1, hq, (mem_dests.mp hq').2.2⟩⟩
  · rintro ⟨e, hm, he⟩
    cases e with
    | error => exact Or.inl ⟨_, hm, rfl⟩
    | ok i =>
      rcases he with he | ⟨m, j, q, hj, hlt, h0, h1, hq, hq'⟩
      · exact Or.inl ⟨_, hm, he⟩
      · exact Or.inr ⟨i, m, j, q, mem_decoded.mpr hm, mem_decoded.mpr hj, hlt, mem_dests.mpr ⟨h0, h1, hq⟩, mem_dests.mpr ⟨h0, h1, hq'⟩⟩

theorem raiseNow_trapped {u : State} {f : FaultInfo} (hp : u.me.pend = []) (ht : Trappable u) (hc : f.code ≤ 14)
    (hb : f.slot * 65536 + f.sub * 256 + f.code < 2 ^ 64) :
    (u.raiseNow f).issue = .trapped f ∧ Trapped u (u.raiseNow f) f.slot f.code f.sub f.info u.me.pc u.me.sched := by
  have h : u.raiseNow f = (u.trapTo f u.me.pc u.me.sched).mark (.trapped f) := by
    rw [State.raiseNow, if_neg (by simp [hp]), State.takeFault, if_pos hc, trap_trapTo ht]
  rw [h]
  exact ⟨rfl, trapTo_trapped u f u.me.pc u.me.sched _ hb⟩

/-- Settles O44: the bundle's fault is that of the least ill-formed slot. -/
theorem illFormedBundlesTrap : Obligations.IllFormedBundlesTrap := by
  unfold Obligations.IllFormedBundlesTrap
  intro s c b hs u bad hf
  have hl : FindsLeast bad (illFormed u.me u.myDie b) := illFormed_least _ _ _
  refine ⟨hl, fun n hn hlt hp ht => ⟨_, step_illFormed hs hf ((hl n).mpr ⟨hn, hlt⟩), raiseNow_trapped hp ht (show 1 ≤ 14 by omega) ?_⟩⟩
  obtain ⟨e, hm, -⟩ := hn
  have : n ≤ 3 := by
    simp only [slotsOf, List.mem_cons, Prod.mk.injEq, List.not_mem_nil, or_false] at hm
    omega
  simp only [illegalInstruction]
  omega
end Sys2Proof.Machine
end

section
/-! Proofs about the mark of how a slot went: no access of an engine reads it. -/
namespace Sys2Proof.Machine
open Sys2Proof

/-! ### The mark of how a slot went is read by no access of an engine (R25) -/

section
variable (v : Issue)

theorem mark_ite (c : Prop) [Decidable c] {a b a' b' : State} (ha : a = a'.mark v) (hb : b = b'.mark v) :
    (if c then a else b) = (if c then a' else b').mark v := by
  split
  · exact ha
  · exact hb
theorem foldl_mark {α : Type} {f : State → α → State} (h : ∀ s a, f (s.mark v) a = (f s a).mark v) : ∀ (l : List α) (s : State),
    l.foldl f (s.mark v) = (l.foldl f s).mark v
  | [], _ => rfl
  | a :: l, s => by rw [List.foldl_cons, h, foldl_mark h l]; rfl

theorem schedule_mark (s : State) (dt : Nat) (i : Instr) : (s.mark v).schedule dt i = (s.schedule dt i).mark v := rfl
theorem bumpStack_mark (s : State) (e k lo : Nat) : (s.mark v).bumpStack e k lo = (s.bumpStack e k lo).mark v := rfl
theorem dropStack_mark (s : State) (e k lo : Nat) : (s.mark v).dropStack e k lo = (s.dropStack e k lo).mark v := rfl
theorem setFlash_mark (s : State) (e : Nat) (f : Flash) : (s.mark v).setFlash e f = (s.setFlash e f).mark v := rfl
theorem bumpClass_mark (s : State) (e b lo w n : Nat) : (s.mark v).bumpClass e b lo w n = (s.bumpClass e b lo w n).mark v :=
  mark_ite v _ rfl rfl
theorem setBlock_mark (s : State) (e b : Nat) (f : Flash) : (s.mark v).setBlock e b f = (s.setBlock e b f).mark v := by
  have h1 : ∀ l : List Nat, l.foldl (fun s st => State.dropStack s e st 48) ((s.setFlash e f).mark v)
      = (l.foldl (fun s st => State.dropStack s e st 48) (s.setFlash e f)).mark v := fun l => foldl_mark v (fun s k => dropStack_mark v s e k 48) l _
  unfold State.setBlock
  dsimp only
  rw [setFlash_mark, show (s.mark v).flash e = s.flash e from rfl, h1]
  exact foldl_mark v (fun s k => bumpStack_mark v s e k 48) _ _
theorem retireBlock_mark (s : State) (e b : Nat) : (s.mark v).retireBlock e b = (s.retireBlock e b).mark v :=
  congrArg (fun s => State.bumpStack s e (stackOf b) 32) (setBlock_mark v s e b _)
theorem takeFresh_mark (e near : Nat) (only : Bool) : ∀ (n : Nat) (s : State),
    (s.mark v).takeFresh e near only n = ((s.takeFresh e near only n).1.mark v, (s.takeFresh e near only n).2)
  | 0, _ => rfl
  | n + 1, s => by
    have hf : (s.mark v).flash e = s.flash e := rfl
    unfold State.takeFresh
    dsimp only
    rw [hf]
    cases (s.flash e).fresh near only with
    | none => rfl
    | some b =>
      dsimp only
      split
      · rw [retireBlock_mark, takeFresh_mark e near only n]
      · rw [setBlock_mark]
theorem startRelocation_mark (s : State) (e b : Nat) : (s.mark v).startRelocation e b = (s.startRelocation e b).mark v := by
  have h : ∀ n o, (s.mark v).takeSpare e n o = ((s.takeSpare e n o).1.mark v, (s.takeSpare e n o).2) := fun n o => takeFresh_mark v e n o _ s
  unfold State.startRelocation
  rw [h]
  rcases s.takeSpare e (stackOf b) (decide (allBlocks ≤ b)) with ⟨u, _ | k⟩
  · rfl
  · dsimp only
    rw [setBlock_mark, bumpStack_mark, bumpClass_mark, schedule_mark]
    rfl
theorem countPage_mark (s : State) (e pp : Nat) : (s.mark v).countPage e pp = (s.countPage e pp).mark v := by
  unfold State.countPage
  dsimp only
  rw [setFlash_mark, bumpClass_mark]
  exact mark_ite v _ (startRelocation_mark v ..) rfl
theorem countRead_mark (s : State) (e pp : Nat) : (s.mark v).countRead e pp = (s.countRead e pp).mark v := by
  refine mark_ite v _ ?_ (countPage_mark ..)
  rw [foldl_mark v fun s q => countPage_mark v s e q, bumpClass_mark]
theorem reach_mark (s : State) (pa : Nat) : (s.mark v).reach pa = (s.reach pa).mark v := mark_ite v _ rfl (mark_ite v _ rfl rfl)
theorem touch_mark (s : State) (pa n : Nat) : (s.mark v).touch pa n = (s.touch pa n).mark v := by
  refine mark_ite v _ rfl ?_
  rw [reach_mark]
  exact mark_ite v _ rfl rfl
theorem noteTraffic_mark (s : State) (c pa n : Nat) : (s.mark v).noteTraffic c pa n = (s.noteTraffic c pa n).mark v := mark_ite v _ rfl rfl
theorem countPlaces_mark (s : State) (c : Nat) (ps : List (Place × Nat)) : (s.mark v).countPlaces c ps = (s.countPlaces c ps).mark v := by
  unfold State.countPlaces
  dsimp only
  rw [foldl_mark v fun s p => countRead_mark v s p.1 ((s.flash p.1).phys p.2), foldl_mark]
  rintro s ⟨p, n⟩
  cases p with
  | phys pa =>
    dsimp only
    rw [← touch_mark, ← noteTraffic_mark]
    rfl
  | _ => rfl
theorem counted_mark (s : State) (c : Nat) (xs : List (List Byte × W64 × Place)) : (s.mark v).counted c xs = (s.counted c xs).mark v :=
  countPlaces_mark ..
theorem used_mark (s : State) (l : Overlap) : (s.mark v).used l = (s.used l).mark v := mark_ite v _ rfl rfl
theorem startWalk_mark (s : State) (d q p vpn : Nat) : (s.mark v).startWalk d q p vpn = (s.startWalk d q p vpn).mark v :=
  mark_ite v _ rfl (mark_ite v _ rfl rfl)

section
variable (s : State)
theorem hostRegRead_mark (o n : Nat) : hostRegRead (s.mark v) o n = hostRegRead s o n := rfl
theorem windowWrite_mark (o : Nat) (b : List Byte) : (s.mark v).windowWrite o b = (s.windowWrite o b).mark v :=
  mark_ite v _ rfl (mark_ite v _ rfl (mark_ite v _ rfl rfl))
theorem mailbox_mark (b : List Byte) : (s.mark v).mailbox b = (s.mailbox b).mark v :=
  mark_ite v _ rfl (mark_ite v _ rfl (mark_ite v _ rfl rfl))
theorem poolbaseSet_mark (w : W64) : (s.mark v).poolbaseSet w = (s.poolbaseSet w).mark v := mark_ite v _ rfl rfl
theorem hostReg_mark (o : Nat) (b : List Byte) (r : Nat) : (s.mark v).hostReg o b r = (s.hostReg o b r).mark v :=
  mark_ite v _ rfl (mark_ite v _ rfl (mark_ite v _ (poolbaseSet_mark ..) (mark_ite v _ rfl (mark_ite v _ rfl rfl))))
theorem hostWrite_mark (o : Nat) (b : List Byte) : (s.mark v).hostWrite o b = (s.hostWrite o b).mark v :=
  mark_ite v _ (windowWrite_mark ..) (mark_ite v _ (mailbox_mark ..) (foldl_mark v (fun s r => hostReg_mark v s o b r) _ _))
theorem assertHalt_mark (p c sub d : Nat) : (s.mark v).assertHalt p c sub d = (s.assertHalt p c sub d).mark v := by
  have hu : (s.mark v).unitsOf p = s.unitsOf p := rfl
  have hp : (s.mark v).part p = s.part p := rfl
  unfold State.assertHalt
  dsimp only
  rw [hu, hp, show (s.mark v).clk = s.clk from rfl]
  generalize s.unitsOf p = us
  refine mark_ite v _ ?_ ?_
  · have hf : ∀ (x : Part) (l : List (Nat × Nat)), l.foldl (fun s u => State.schedule s 120 (.haltLineArrives p u.1 u.2)) ((s.mark v).setPart p x)
        = (l.foldl (fun s u => State.schedule s 120 (.haltLineArrives p u.1 u.2)) (s.setPart p x)).mark v :=
      fun x l => foldl_mark v (fun s u => schedule_mark v s 120 (.haltLineArrives p u.1 u.2)) l (s.setPart p x)
    rw [hf]
    split <;> rfl
  · cases (s.part p).halt with
    | none => rfl
    | some h => exact mark_ite v _ rfl rfl
theorem unitHalt_mark (p k i : Nat) (f : FaultInfo) (m : CmdInfo) : (s.mark v).unitHalt p k i f m = (s.unitHalt p k i f m).mark v := by
  have hu : (s.mark v).unitsOf p = s.unitsOf p := rfl
  have hp : (s.mark v).part p = s.part p := rfl
  unfold State.unitHalt
  dsimp only
  rw [hu, hp]
  generalize s.unitsOf p = us
  split
  · rfl
  · rw [← assertHalt_mark]
    refine congrArg (fun s => State.assertHalt s p f.code f.sub (unitDie (k, i))) ?_
    split <;> rfl
theorem coreHalt_mark (c : Nat) (f : FaultInfo) : (s.mark v).coreHalt c f = (s.coreHalt c f).mark v :=
  unitHalt_mark v (s.setCore c { s.core c with stopped := true }) (s.core c).part 0 c f _
theorem tileWrite_mark (w : PathStore) (d ix g : Nat) : (s.mark v).tileWrite w d ix g = (s.tileWrite w d ix g).mark v := by
  unfold State.tileWrite
  refine mark_ite v _ ?_ (mark_ite v _ (coreHalt_mark ..) (unitHalt_mark ..))
  have hd : (s.mark v).die d = s.die d := rfl
  unfold State.writeTile
  rw [hd]
  dsimp only
  cases tget (s.die d).tiles ix <;> rfl
theorem takeEffect_mark (w : PathStore) : (s.mark v).takeEffect w = (s.takeEffect w).mark v := by
  unfold State.takeEffect
  cases w.tile with
  | some x => exact tileWrite_mark ..
  | none => exact mark_ite v _ (hostWrite_mark ..) rfl
theorem performFirst_mark (q n : Nat) : ∀ s : State, (s.mark v).performFirst q n = (s.performFirst q n).mark v := by
  induction n with
  | zero => exact fun _ => rfl
  | succ n ih =>
    intro s
    have hq : (s.mark v).quad q = s.quad q := rfl
    unfold State.performFirst
    rw [hq]
    dsimp only
    cases (s.quad q).path with
    | nil => rfl
    | cons w r =>
      dsimp only
      rw [← ih, ← takeEffect_mark]
      rfl
theorem hostNow_mark (c o n : Nat) : (s.mark v).hostNow c o n = s.hostNow c o n :=
  congrArg (fun s => hostRegRead s o n) (performFirst_mark v (c / 4) (s.quad (c / 4)).path.length s) |>.trans rfl
theorem viaTables_mark (x : Ctx) (a : Acc) (va : Nat) (c : Bool) : (s.mark v).viaTables x a va c = s.viaTables x a va c := rfl
theorem viaHbf_mark (x : Ctx) (a : Acc) (va : Nat) : (s.mark v).viaHbf x a va = s.viaHbf x a va := rfl
theorem viaFixed_mark (x : Ctx) (a : Acc) (o : Nat) : (s.mark v).viaFixed x a o = s.viaFixed x a o := by
  have hp : (s.mark v).part = s.part := rfl
  have ht : (s.mark v).viaTables = s.viaTables := rfl
  unfold State.viaFixed
  generalize (s.mark v).part = p at hp
  generalize (s.mark v).viaTables = t at ht
  subst hp ht
  rfl
theorem viaKennel_mark (x : Ctx) (a : Acc) (va : Nat) : (s.mark v).viaKennel x a va = s.viaKennel x a va := rfl
theorem viaPairs_mark (x : Ctx) (a : Acc) (va : Nat) : (s.mark v).viaPairs x a va = s.viaPairs x a va := rfl
theorem readAt_mark (c : Nat) (p : Place) (n : Nat) : (s.mark v).readAt c p n = s.readAt c p n := rfl
theorem beyondWindows_mark (x : Ctx) (a : Acc) (va : Nat) : (s.mark v).beyondWindows x a va = s.beyondWindows x a va := by
  unfold State.beyondWindows
  rw [viaFixed_mark]
  rfl
theorem rowEntry_mark (x : Ctx) (w : Window) (i : Nat) : (s.mark v).rowEntry x w i = s.rowEntry x w i := by
  unfold State.rowEntry
  rw [beyondWindows_mark]
  rfl
theorem translate_mark (x : Ctx) (a : Acc) (va : W64) : (s.mark v).translate x a va = s.translate x a va := by
  have hw : ∀ w va, (s.mark v).viaWindow x a w va = s.viaWindow x a w va := fun w va => by
    unfold State.viaWindow
    rw [rowEntry_mark]
    rfl
  unfold State.translate
  simp only [hw, beyondWindows_mark]
  rfl
end

/-- An answer of an engine with the mark. -/
def Eng.mark {α : Type} : Eng α → Eng α
  | .ok s x => .ok (s.mark v) x
  | .stop s w => .stop (s.mark v) w
theorem engineTranslate_mark (s : State) (x : Ctx) (a : Acc) (va : W64) :
    (s.mark v).engineTranslate x a va = ((s.engineTranslate x a va).1.mark v, (s.engineTranslate x a va).2) := by
  have hw : ∀ a, (s.mark v).walk x.part a = s.walk x.part a := fun _ => rfl
  unfold State.engineTranslate
  rw [translate_mark]
  cases s.translate x a va with
  | miss vpn =>
    dsimp only
    rw [hw]
    cases s.walk x.part (vpn * 4096) with
    | leaf => dsimp only; rw [startWalk_mark]
    | _ => rfl
  | _ => rfl
theorem engPieces_mark (x : Ctx) (l : Overlap) (a : Acc) : ∀ (rs : List (Nat × Nat)) (s : State), (s.mark v).engPieces x l a rs = (s.engPieces x l a rs).mark v
  | [], _ => rfl
  | (va, n) :: t, s => by
    unfold State.engPieces
    dsimp only
    rw [engineTranslate_mark]
    rcases s.engineTranslate x a (BitVec.ofNat 64 va) with ⟨u, tr⟩
    have hr : ∀ p, (u.mark v).readAt x.core p n = u.readAt x.core p n := fun _ => rfl
    cases tr with
    | at_ p leaf =>
      dsimp only
      rw [hr]
      cases u.readAt x.core p n with
      | host o => 
        dsimp only
        rw [engPieces_mark x l a t]
        cases u.engPieces x l a t with
        | stop => rfl
        | ok w r => exact congrArg (fun b => Eng.ok (w.mark v) ((l.source w.fresh p.key b, leaf, p) :: r)) (hostNow_mark v w x.core o n)
      | bytes b => 
        dsimp only
        rw [engPieces_mark x l a t]
        cases u.engPieces x l a t <;> rfl
      | _ => rfl
    | _ => rfl
theorem engRead_mark (s : State) (x : Ctx) (l : Overlap) (a : Acc) (va : W64) (n : Nat) : (s.mark v).engRead x l a va n = (s.engRead x l a va n).mark v := by
  unfold State.engRead State.engReads
  rw [engPieces_mark]
  cases s.engPieces x l a ([(va.toNat, n)].flatMap fun r => cuts r.1 r.2) with
  | stop => rfl
  | ok u ps => exact congrArg (Eng.ok · _) (by rw [counted_mark, used_mark])
theorem andThen_mark {α β : Type} (e : Eng α) {f : State → α → Eng β} (h : ∀ s x, f (s.mark v) x = (f s x).mark v) :
    (e.mark v).andThen f = (e.andThen f).mark v := by
  cases e with
  | ok s x => exact h s x
  | stop => rfl
theorem orElse_mark {α : Type} (e : Eng α) (x : α) : (e.mark v).orElse x = (e.orElse x).mark v := by
  cases e with
  | ok => rfl
  | stop s w => cases w <;> rfl
theorem readRegions_mark (d p at_ inst : Nat) : ∀ (n i : Nat) (s : State), (s.mark v).readRegions d p at_ inst n i = (s.readRegions d p at_ inst n i).mark v
  | 0, _, _ => rfl
  | n + 1, i, s => by
    unfold State.readRegions State.imageRead
    rw [engRead_mark, andThen_mark]
    intro u b
    dsimp only
    rw [readRegions_mark d p at_ inst n, andThen_mark]
    exact fun _ _ => rfl
theorem readNode_mark (s : State) (d p tmpl node inst : Nat) : (s.mark v).readNode d p tmpl node inst = (s.readNode d p tmpl node inst).mark v := by
  have hp : (s.mark v).part p = s.part p := rfl
  unfold State.readNode State.imageRead
  rw [hp]
  cases (s.part p).image tmpl with
  | none => rfl
  | some va =>
    dsimp only
    rw [engRead_mark, andThen_mark, orElse_mark]
    intro u h
    split
    · rfl
    · rw [engRead_mark, andThen_mark]
      intro u b
      rw [readRegions_mark, andThen_mark]
      exact fun _ _ => rfl
theorem checkRecord_mark (s : State) (p d : Nat) (r : List Byte) : (s.mark v).checkRecord p d r = (s.checkRecord p d r).mark v := by
  unfold State.checkRecord
  split
  · rfl
  · rw [readNode_mark, andThen_mark]
    exact fun _ _ => rfl
end
end Sys2Proof.Machine
end

section
/-! Proofs about TSPAWN and reads of the core on a marked state. -/
namespace Sys2Proof.Machine
open Sys2Proof

theorem readVa_mark_ok (v : Issue) (s : State) (a : Acc) (va : W64) (n : Nat) (x : List Byte × W64 × Place) :
    (s.mark v).readVa a va n = .ok x ↔ s.readVa a va n = .ok x := by
  have hc : (s.mark v).ctx = s.ctx := rfl
  have hr : ∀ p, (s.mark v).readAt (s.mark v).cur p n = s.readAt s.cur p n := fun _ => rfl
  have hh : ∀ o, (s.mark v).hostNow (s.mark v).cur o n = s.hostNow s.cur o n := fun o => hostNow_mark v s s.cur o n
  unfold State.readVa
  rw [translate_mark, hc]
  cases s.translate s.ctx a va with
  | at_ p leaf =>
    dsimp only
    rw [hr]
    cases s.readAt s.cur p n with
    | uncorrectable c i => cases p <;> simp
    | host o => exact Iff.of_eq (congrArg (fun b => MRes.ok (b, leaf, p) = MRes.ok x) (hh o))
    | _ => rfl
  | _ => simp
theorem readLines_mark_ok (v : Issue) (s : State) : ∀ (l : List (W64 × Nat)) (xs : List (List Byte × W64 × Place)),
    (s.mark v).readLines l = .ok xs ↔ s.readLines l = .ok xs
  | [], xs => Iff.rfl
  | (va, n) :: l, xs => by
    have hv := readVa_mark_ok v s .load va n
    have hl := readLines_mark_ok v s l
    have h : ∀ s : State, s.readLines ((va, n) :: l) = .ok xs ↔ ∃ x r, s.readVa .load va n = .ok x ∧ s.readLines l = .ok r ∧ x :: r = xs := fun s => by
      rw [State.readLines]
      cases s.readVa .load va n with
      | stop r => cases r <;> simp
      | ok x => cases s.readLines l <;> simp
    rw [h, h]
    simp only [hv, hl]
theorem countSpan_mark (v : Issue) (s : State) (va : W64) (n : Nat) : (s.mark v).countSpan va n = (s.countSpan va n).mark v := by
  have h := readLines_mark_ok v s ((List.range (cdiv n 64)).map fun i => (va + BitVec.ofNat 64 (64 * i), min 64 (n - 64 * i)))
  unfold State.countSpan
  cases hs : s.readLines ((List.range (cdiv n 64)).map fun i => (va + BitVec.ofNat 64 (64 * i), min 64 (n - 64 * i))) with
  | ok xs =>
    rw [(h xs).mpr hs]
    exact counted_mark ..
  | stop r =>
    cases hm : (s.mark v).readLines ((List.range (cdiv n 64)).map fun i => (va + BitVec.ofNat 64 (64 * i), min 64 (n - 64 * i))) with
    | ok xs =>
      rw [(h xs).mp hm] at hs
      cases hs
    | stop r => rfl

theorem readSpan_ok {s : State} {va : W64} {n : Nat} {r : List Byte} : s.readSpan va n = .ok r ↔
    ∃ xs, s.readLines ((List.range (cdiv n 64)).map fun i => (va + BitVec.ofNat 64 (64 * i), min 64 (n - 64 * i))) = .ok xs ∧ xs.flatMap (·.1) = r := by
  unfold State.readSpan
  cases s.readLines ((List.range (cdiv n 64)).map fun i => (va + BitVec.ofNat 64 (64 * i), min 64 (n - 64 * i))) <;> simp

/-- What a read or a translation that stops answers is no result. -/
def Res.isOk : Res → Bool
  | .ok _ => true
  | .raise _ => false
  | .hold _ => false
theorem transStop_isOk (s : State) (va : W64) : ∀ t : Trans, (s.transStop va t).isOk = false
  | .fail _ => rfl
  | .miss _ => rfl
  | .migrating => rfl
  | .bad => rfl
  | .ecc c i e => by
    have h : s.transStop va (.ecc c i e) = if c = 32 then .hold (s.pageHold e i va) else uncorrectable c i := rfl
    rw [h]
    split <;> rfl
  | .at_ _ _ => rfl
theorem readVa_stop_isOk {s : State} {a : Acc} {va : W64} {n : Nat} {r : Res} (h : s.readVa a va n = .stop r) : r.isOk = false := by
  unfold State.readVa at h
  cases ht : s.translate s.ctx a va with
  | at_ p leaf =>
    rw [ht] at h
    dsimp only at h
    cases hr : s.readAt s.cur p n with
    | bytes b => rw [hr] at h; cases h
    | tileBad => rw [hr] at h; cases h; rfl
    | uncorrectable c i => rw [hr] at h; cases p <;> (cases h; rfl)
    | host o => rw [hr] at h; cases h
  | _ =>
    rw [ht] at h
    cases h
    exact transStop_isOk ..
theorem readLines_stop_isOk {s : State} {l : List (W64 × Nat)} {r : Res} (h : s.readLines l = .stop r) : r.isOk = false := by
  induction l generalizing r with
  | nil => cases h
  | cons x l ih =>
    obtain ⟨va, n⟩ := x
    rw [State.readLines] at h
    cases hv : s.readVa .load va n with
    | stop r' =>
      rw [hv] at h
      have := readVa_stop_isOk hv
      cases r' with
      | ok => cases this
      | raise f => exact MRes.stop.inj h ▸ rfl
      | hold u => exact MRes.stop.inj h ▸ rfl
    | ok x =>
      rw [hv] at h
      cases hl : s.readLines l with
      | stop r' =>
        rw [hl] at h
        exact MRes.stop.inj h ▸ ih hl
      | ok xs =>
        rw [hl] at h
        cases h
theorem readSpan_stop_isOk {s : State} {va : W64} {n : Nat} {r : Res} (h : s.readSpan va n = .stop r) : r.isOk = false := by
  unfold State.readSpan at h
  split at h
  next r' hr => exact MRes.stop.inj h ▸ readLines_stop_isOk hr
  next => cases h

/-- A TSPAWN that issues has sent its record. -/
def State.spawned (s : State) (d : Nat) (r : List Byte) (va : W64) : State :=
  let u := (s.addReq (.insert s.cur s.myPart d r va)).2.countSpan va 32
  (u.setMe { u.me with post := .tspawn }).schedule (if d = u.myDie then 6 else 380) (.taskInsertion s.nextId)
theorem spawned_mark (v : Issue) (s : State) (d : Nat) (r : List Byte) (va : W64) : (s.mark v).spawned d r va = (s.spawned d r va).mark v := by
  have h : ((s.mark v).addReq (.insert (s.mark v).cur (s.mark v).myPart d r va)).2 = (s.addReq (.insert s.cur s.myPart d r va)).2.mark v := rfl
  unfold State.spawned
  rw [h, countSpan_mark]
  rfl
theorem tspawnEffect_ok {s w : State} {a b : Fin 64} : tspawnEffect s a b = .ok w ↔ (s.me.sreg a.val).toNat % 32 = 0 ∧ (s.me.sreg b.val).toNat ≤ 5
    ∧ ∃ r u n, s.readSpan (s.me.sreg a.val) 32 = .ok r ∧ s.checkRecord s.myPart (s.me.sreg b.val).toNat r = .ok u (.ok n)
      ∧ u.waitsFor (u.releaseOut u.cur) = false ∧ u.spawned (s.me.sreg b.val).toNat r (s.me.sreg a.val) = w := by
  unfold tspawnEffect
  dsimp only
  split
  next h => simp [fault, h]
  next h =>
    split
    next h' => simp only [fault, reduceCtorEq, false_iff, not_and]; omega
    next h' =>
      have h1 : (s.me.sreg a.val).toNat % 32 = 0 := by omega
      have h2 : (s.me.sreg b.val).toNat ≤ 5 := by omega
      simp only [h1, h2, true_and]
      cases hr : s.readSpan (s.me.sreg a.val) 32 with
      | stop r =>
        have := readSpan_stop_isOk hr
        cases r with
        | ok => cases this
        | _ => simp
      | ok r =>
        simp only [MRes.ok.injEq]
        cases hc : s.checkRecord s.myPart (s.me.sreg b.val).toNat r with
        | stop => simp [hc]
        | ok u n =>
          cases n with
          | error => simp [hc, fault]
          | ok n =>
            cases hw : u.waitsFor (u.releaseOut u.cur) with
            | true => simp [hc, hw, State.releaseHold]
            | false => simp [hc, hw, State.spawned]
theorem waitsFor_mark (s : State) (x : Bool) : (s.mark .issued).waitsFor x = false := by
  simp [State.waitsFor]
theorem tspawnEffect_mark {s w : State} {a b : Fin 64} (h : tspawnEffect s a b = .ok w) : tspawnEffect (s.mark .issued) a b = .ok (w.mark .issued) := by
  obtain ⟨h1, h2, r, u, n, hr, hc, hw, rfl⟩ := tspawnEffect_ok.mp h
  refine tspawnEffect_ok.mpr ⟨h1, h2, r, u.mark .issued, n, ?_, ?_, waitsFor_mark .., spawned_mark ..⟩
  · obtain ⟨xs, hx, rfl⟩ := readSpan_ok.mp hr
    exact readSpan_ok.mpr ⟨xs, (readLines_mark_ok ..).mpr hx, rfl⟩
  · refine (checkRecord_mark .issued s ..).trans ?_
    exact congrArg _ hc
end Sys2Proof.Machine
end

section
/-! Proofs about a bundle of one instruction (R24, R29). -/
namespace Sys2Proof.Machine
open Sys2Proof

theorem inWords_sound {s : State} {pa n : Nat} (h : Spec.sound s pa n) : inWords s.badWords pa n = false := by
  refine List.any_eq_false.mpr fun w hw => ?_
  have := h w hw
  simp only [Bool.and_eq_true, decide_eq_true_eq]
  omega
/-- A read of a sound range of the physical map gives its bytes as the core reads them. -/
theorem readAt_phys {s : State} {c pa n : Nat} (h : Spec.sound s pa n) : s.readAt c (.phys pa) n = .bytes (Spec.bytesAt s c pa n) := by
  simp only [State.readAt, inWords_sound h, Bool.false_eq_true, if_false]
  rfl
theorem fetch_phys {s : State} {pa : Nat} {leaf : W64} (hb : tget s.me.lbuf s.me.pc.toNat = none)
    (ht : s.translate s.ctx .fetch s.me.pc = .at_ (.phys pa) leaf) (h : Spec.sound s pa 16) : s.fetch = .words (Spec.bytesAt s s.cur pa 16) := by
  simp only [State.fetch, hb, ht, readAt_phys h]

theorem mark_of_issue {s : State} {v : Issue} (h : s.issue = v) : s.mark v = s := by
  subst h
  rfl
theorem exec_tspawn_mark {st : Fin 8} {a b : Fin 64} {u t : State} (h : exec (.tspawn st a b) u = .next t) (ht : t.issue = .issued) :
    exec (.tspawn st a b) (u.mark .issued) = .next t := by
  obtain ⟨hc, w, hw, rfl⟩ := meaning_issued h ht
  exact (congrArg (meaning _ 0 _) (tspawnEffect_mark hw)).trans (meaning_ok (s := u.mark .issued) hc)
theorem exec_rdms_mark {st : Fin 8} {d : Fin 64} {n : Fin 1024} {u t : State} (h : exec (.rdms st d n) u = .next t) (ht : t.issue = .issued) :
    exec (.rdms st d n) (u.mark .issued) = .next t := by
  obtain ⟨hc, w, hw, rfl⟩ := meaning_issued h ht
  have he : rdmsEffect (u.mark .issued) d n = .ok (w.mark .issued) := by
    have hp : (u.mark .issued).isSup = u.isSup := rfl
    have hr : (u.mark .issued).regRead n.val = u.regRead n.val := rfl
    unfold rdmsEffect at hw ⊢
    rw [hp, hr]
    split at hw
    · cases hw
    next h1 =>
      rw [if_neg h1]
      split at hw
      · cases hw
      next h2 =>
        cases hw
        rw [if_neg h2]
        rfl
  exact (congrArg (meaning _ 0 _) he).trans (meaning_ok (s := u.mark .issued) hc)

theorem readImage_stop_isOk {s : State} {va : W64} {n : Nat} {r : Res} (h : s.readImage va n = .stop r) : r.isOk = false := by
  unfold State.readImage at h
  split at h
  next r' hr => exact MRes.stop.inj h ▸ readLines_stop_isOk hr
  next => cases h
theorem eretEffect_ok {s t : State} {st : Fin 8} {a b : Fin 64} (h : eretEffect s st a b = .ok t) : ∃ src, t = s.eretTo (s.me.sreg a.val) src st.val := by
  unfold eretEffect at h
  dsimp only at h
  split at h
  · cases h
  split at h
  · split at h
    next r hr =>
      have := readImage_stop_isOk hr
      rw [h] at this
      cases this
    next =>
      split at h
      · cases h
      split at h
      next r hr =>
        have := readImage_stop_isOk hr
        rw [h] at this
        cases this
      next =>
        split at h
        · cases h
        next src _ => exact ⟨src, (Res.ok.inj h).symm⟩
  · exact ⟨_, (Res.ok.inj h).symm⟩
theorem exec_eret_frame {st : Fin 8} {a b : Fin 64} {s t : State} (h : exec (.eret st a b) s = .next t) (ht : t.issue = .issued) :
    t.mem = s.mem ∧ t.quads = s.quads ∧ t.dies = s.dies := by
  obtain ⟨-, w, hw, rfl⟩ := meaning_issued h ht
  obtain ⟨src, rfl⟩ := eretEffect_ok hw
  exact ⟨rfl, rfl, rfl⟩

/-- A NOP of any slot. -/
def isNop (i : Instr) : Prop := i = .nop ∨ ∃ st, i = .nopS st
theorem exec_isNop {i : Instr} (h : isNop i) (s : State) : exec i s = .next (s.mark .issued) := by
  have hn := noOperations s
  rcases h with rfl | ⟨st, rfl⟩
  · exact hn.2.1
  · exact hn.1 st
theorem passes_isNop {i : Instr} (h : isNop i) (s : State) : Passes s i :=
  ⟨_, exec_isNop h s, nofun, nofun⟩
theorem ne_held_isNop {i : Instr} (h : isNop i) (s : State) : ∃ r, exec i s = .next r ∧ r.issue ≠ .held :=
  ⟨_, exec_isNop h s, nofun⟩

/-- One instruction stands among NOPs in a bundle. -/
structure Alone (i : Instr) (x : Bundle) : Prop where
  split : ∃ before after, [x.s, x.l, x.v, x.w] = before ++ i :: after ∧ (∀ j, j ∈ before → isNop j) ∧ ∀ j, j ∈ after → isNop j
theorem alone_of_mem {i : Instr} {x : Bundle} {st : Fin 8}
    (h : x ∈ [⟨i, .nop, .nop, .nop⟩, ⟨.nopS st, i, .nop, .nop⟩, ⟨.nopS st, .nop, i, .nop⟩, (⟨.nopS st, .nop, .nop, i⟩ : Bundle)]) : Alone i x := by
  simp only [List.mem_cons, List.not_mem_nil, or_false] at h
  rcases h with rfl | rfl | rfl | rfl
  · exact ⟨[], [.nop, .nop, .nop], rfl, by simp, by simp [isNop]⟩
  · exact ⟨[.nopS st], [.nop, .nop], rfl, by simp [isNop], by simp [isNop]⟩
  · exact ⟨[.nopS st, .nop], [.nop], rfl, by simp [isNop], by simp [isNop]⟩
  · exact ⟨[.nopS st, .nop, .nop], [], rfl, by simp [isNop], by simp⟩

/-- The image that an ERET reads is counted. -/
def imaged (i : Instr) (r : State) : State := match i with
  | .eret _ _ q => r.countImage q
  | _ => r
theorem imaged_of_not_eret {i : Instr} (h : ¬ ∃ a b q, i = .eret a b q) (r : State) : imaged i r = r := by
  unfold imaged
  split
  next a b q => exact absurd ⟨a, b, q, rfl⟩ h
  next => rfl
theorem imaged_of_slot {i : Instr} (h : 1 ≤ i.slot) (r : State) : imaged i r = r :=
  imaged_of_not_eret (fun ⟨a, b, q, hi⟩ => by rw [hi] at h; cases h) r

/-- The state that an instruction of slot 0 acts on, and what it leaves, in a bundle that has reached t (R25). -/
def seenFrom (i : Instr) (t u : State) : State := match i with
  | .eret _ _ _ => t.seeing u
  | _ => t
def imagedFrom (i : Instr) (r t : State) : State := match i with
  | .eret _ _ q => (r.seeing t).countImage q
  | _ => r
theorem seenFrom_of_not_eret {i : Instr} (h : ¬ ∃ a b q, i = .eret a b q) (t u : State) : seenFrom i t u = t := by
  unfold seenFrom
  split
  next a b q => exact absurd ⟨a, b, q, rfl⟩ h
  next => rfl
theorem imagedFrom_of_not_eret {i : Instr} (h : ¬ ∃ a b q, i = .eret a b q) (r t : State) : imagedFrom i r t = r := by
  unfold imagedFrom
  split
  next a b q => exact absurd ⟨a, b, q, rfl⟩ h
  next => rfl
theorem slotOrder_slot0_last {x : Bundle} (h : ¬ ((∃ a b q, x.s = .rdms a b q) ∨ ∃ a b q, x.s = .tspawn a b q)) :
    slotOrder x = [x.l, x.v, x.w, x.s] := by
  unfold slotOrder
  split
  next a b q hx => exact absurd (.inl ⟨a, b, q, hx⟩) h
  next a b q hx => exact absurd (.inr ⟨a, b, q, hx⟩) h
  next => rfl

/-- Settles O42, from O43: beside one instruction stand NOPs, and the mark of a NOP changes nothing for it. -/
theorem stepRunsOneInstruction : Obligations.StepRunsOneInstruction := by
  unfold Obligations.StepRunsOneInstruction
  intro s c pa leaf i x st hs u b hb ht hsound hi hd hx t he
  have hf : u.fetch = .words b := fetch_phys hb ht hsound
  obtain ⟨hissue, hstop, hheld⟩ := stepRunsTheBundle s c b x hs hf hi hd
  obtain ⟨before, after, hsl, hbefore, hafter⟩ := (alone_of_mem hx).split
  have hpb : ∀ j, j ∈ before → Passes u j := fun j hj => passes_isNop (hbefore j hj) u
  refine ⟨fun hti r hr hri => ?_, fun hti => ?_, fun hti => ?_, fun f hti => (hstop before i after t hsl he hpb).1 f hti⟩
  · have hall : ∀ j, j ∈ [x.s, x.l, x.v, x.w] → ∃ t, exec j u = .next t ∧ t.issue = .issued := by
      intro j hj
      rw [hsl] at hj
      rcases List.mem_append.mp hj with hj | hj
      · exact ⟨_, exec_isNop (hbefore j hj) u, rfl⟩
      rcases List.mem_cons.mp hj with rfl | hj
      · exact ⟨t, he, hti⟩
      · exact ⟨_, exec_isNop (hafter j hj) u, rfl⟩
    change step s = .next ((u.countFetch (imaged i r)).retire u.me.pc.toNat (wordOf b 0 / 2 ^ 28 % 8) b)
    obtain ⟨hl, hv1, hw1⟩ := slots_of_decodeBundle hd
    have hnop : ∀ j, isNop j → exec j u = .next (u.mark .issued) ∧ exec j (u.mark .issued) = .next (u.mark .issued) :=
      fun j hj => ⟨exec_isNop hj u, exec_isNop hj _⟩
    have hafter_r : ∀ j, isNop j → exec j r = .next r := fun j hj => by rw [exec_isNop hj, mark_of_issue hri]
    have h1 := hnop .nop (.inl rfl)
    have h0 := hnop (.nopS st) (.inr ⟨st, rfl⟩)
    -- on the mark of a NOP the instruction answers r as well
    have hmark : x.l = .nop → exec i (u.mark .issued) = .next r := by
      intro hxl
      rw [hxl] at hr
      split at hr
      next hi =>
        subst hi
        rw [h1.1] at hr
        exact (Host.Outcome.next.inj hr) ▸ h1.2
      next => exact hr
    simp only [List.mem_cons, List.not_mem_nil, or_false] at hx
    rcases hx with rfl | rfl | rfl | rfl
    · have hr := hmark rfl
      by_cases hlate : (∃ a b q, i = .rdms a b q) ∨ ∃ a b q, i = .tspawn a b q
      · have hrt : r = t := by
          rcases hlate with ⟨a, b, q, rfl⟩ | ⟨a, b, q, rfl⟩
          · exact Host.Outcome.next.inj (hr.symm.trans (exec_rdms_mark he hti))
          · exact Host.Outcome.next.inj (hr.symm.trans (exec_tspawn_mark he hti))
        subst hrt
        rcases hlate with ⟨a, b, q, rfl⟩ | ⟨a, b, q, rfl⟩
        · exact hissue hall _ .nop .nop .nop r r r r rfl he hri (hafter_r _ (.inl rfl)) hri (hafter_r _ (.inl rfl)) hri (hafter_r _ (.inl rfl)) hri
        · exact hissue hall _ .nop .nop .nop r r r r rfl he hri (hafter_r _ (.inl rfl)) hri (hafter_r _ (.inl rfl)) hri (hafter_r _ (.inl rfl)) hri
      · by_cases hx : ∃ a b q, i = .eret a b q
        · obtain ⟨a, b', q, rfl⟩ := hx
          obtain ⟨hm, hq, hd⟩ := exec_eret_frame hr hri
          have hseen : r.seeing (u.mark .issued) = r := by
            unfold State.seeing
            rw [← hm, ← hq, ← hd]
          have := hissue hall .nop .nop .nop _ (u.mark .issued) (u.mark .issued) (u.mark .issued) r rfl h1.1 rfl h1.2 rfl h1.2 rfl hr hri
          simp only [hseen] at this
          exact this
        · have ho : [.nop, .nop, .nop, i] = slotOrder ⟨i, .nop, .nop, .nop⟩ := (slotOrder_slot0_last (x := ⟨i, .nop, .nop, .nop⟩) hlate).symm
          have h : step s = .next ((u.countFetch (imagedFrom i r (u.mark .issued))).retire u.me.pc.toNat (wordOf b 0 / 2 ^ 28 % 8) b) :=
            hissue hall .nop .nop .nop i (u.mark .issued) (u.mark .issued) (u.mark .issued) r ho h1.1 rfl h1.2 rfl h1.2 rfl
              ((congrArg (exec i) (seenFrom_of_not_eret hx ..)).trans hr) hri
          rw [h, imaged_of_not_eret hx, imagedFrom_of_not_eret hx]
    · have hr : exec i u = .next r := (congrArg (exec i) (if_pos rfl)).symm.trans hr
      rw [imaged_of_slot hl]
      exact hissue hall i .nop .nop (.nopS st) r r r r rfl hr hri (hafter_r _ (.inl rfl)) hri (hafter_r _ (.inl rfl)) hri (hafter_r _ (.inr ⟨st, rfl⟩)) hri
    · rw [imaged_of_slot hv1]
      exact hissue hall .nop i .nop (.nopS st) (u.mark .issued) r r r rfl h1.1 rfl (hmark rfl) hri (hafter_r _ (.inl rfl)) hri
        (hafter_r _ (.inr ⟨st, rfl⟩)) hri
    · rw [imaged_of_slot hw1]
      exact hissue hall .nop .nop i (.nopS st) (u.mark .issued) (u.mark .issued) r r rfl h1.1 rfl h1.2 rfl (hmark rfl) hri
        (hafter_r _ (.inr ⟨st, rfl⟩)) hri
  · refine hheld before i after t hsl he hti (fun j hj => ?_) (fun j hj => ne_held_isNop (hbefore j hj) u) fun j hj => ne_held_isNop (hafter j hj) t
    rw [hsl] at hj
    rcases List.mem_append.mp hj with hj | hj
    · exact hpb j hj
    rcases List.mem_cons.mp hj with rfl | hj
    · exact ⟨t, he, by rw [hti]; nofun, by rw [hti]; nofun⟩
    · exact passes_isNop (hafter j hj) u
  · have h := (hstop before i after t hsl he hpb).2 hti
    have hpass : ∀ j, j ∈ [x.s, x.l, x.v, x.w] → ∃ r, exec j u = .next r ∧ r.issue ≠ .held := by
      intro j hj
      rw [hsl] at hj
      rcases List.mem_append.mp hj with hj | hj
      · exact ne_held_isNop (hbefore j hj) u
      rcases List.mem_cons.mp hj with rfl | hj
      · exact ⟨t, he, by rw [hti]; nofun⟩
      · exact ne_held_isNop (hafter j hj) u
    have hu : holdAll [x.s, x.l, x.v, x.w] u = u := holdAll_passed hpass []
    rw [h, hu]
end Sys2Proof.Machine
end

section
/-! Proofs about branches, calls, jumps and loops (R217 to R222). -/
namespace Sys2Proof.Machine
open Sys2Proof

/-! ### Faults of a slot (R362, R364) -/

/-- A clear instruction whose effect is a precise fault, but for codes 1 and 2, traps with that fault's own information. -/
theorem fault_traps {i : Instr} {s : State} {n c sub : Nat} {info : W64} (h : Clear i s) (hc : 2 < c ∧ c ≤ 14) (hsub : sub < 256) (hn : n < 4)
    (hp : TakesNow s c) (ht : Trappable s) : ∃ t, meaning i n s (fault c sub info) = .next t ∧ t.issue = .trapped ⟨c, sub, info, n⟩
      ∧ Trapped s t n c sub info s.me.pc s.me.sched := by
  have := meaning_traps (n := n) (f := ⟨c, sub, info, 0⟩) h hp ht hc.2 (show n * 65536 + sub * 256 + c < 2 ^ 64 by omega)
  simp only [show ¬ c ≤ 2 by omega, if_false] at this
  exact this
theorem fault_Traps {i : Instr} {s : State} {n c sub : Nat} {info : W64} (h : Clear i s) (hc : 2 < c ∧ c ≤ 14) (hsub : sub < 256) (hn : n < 4)
    (he : exec i s = meaning i n s (fault c sub info)) : Traps i s n c sub info := fun hp ht => by
  rw [he]
  exact fault_traps h hc hsub hn hp ht

theorem OnlyCore.cur {s t : State} (h : OnlyCore s t) : t.cur = s.cur := by rw [h.1]
theorem OnlyCore.trans {s t u : State} (h : OnlyCore s t) (g : OnlyCore t u) : OnlyCore s u := by
  refine ⟨?_, fun c hc => (g.2 c (h.cur ▸ hc)).trans (h.2 c hc)⟩
  rw [g.1, h.1]

/-! ### Branches (R217 to R222) -/

theorem loopsAfter_keeps (ls : List Loop) (pc t : W64) : Spec.keepsLoops ls (loopsAfter ls pc t) pc.toNat t.toNat := by
  unfold Spec.keepsLoops loopsAfter
  refine List.filter_congr fun l _ => ?_
  rw [Bool.eq_iff_iff]
  simp [bne_iff_ne, BitVec.toNat_inj, and_assoc]
theorem sjTarget_toNat (pc : W64) (o : Fin 262144) : (sjTarget pc o).toNat = Spec.target pc o := by
  have h : sjTarget pc o = BitVec.ofInt 64 ((pc.toNat : Int) + 16 * Spec.sgn 18 o) := by
    rw [sjTarget, sextTo_sgn, BitVec.ofInt_add, ofInt_toNat, Int.mul_comm, BitVec.ofInt_mul]
    rfl
  rw [h, BitVec.toNat_ofInt]
  rfl
/-- What a taken branch leaves of the core. -/
theorem branch_spec (s : State) (t : W64) : OnlyCore s (s.branch t) ∧ (s.branch t).me.pc = t ∧ (s.branch t).me.extra = s.me.extra + 2
    ∧ Spec.keepsLoops s.me.loops (s.branch t).me.loops s.me.pc.toNat (s.branch t).me.pc.toNat
    ∧ (s.branch t).me = { s.me with pc := (s.branch t).me.pc, jumped := true, extra := (s.branch t).me.extra, loops := (s.branch t).me.loops } := by
  have h : (s.branch t).me = { s.me with pc := t, jumped := true, extra := s.me.extra + 2, loops := loopsAfter s.me.loops s.me.pc t } :=
    State.me_setCore ..
  refine ⟨setMe_onlyCore _ _, ?_⟩
  rw [h]
  exact ⟨rfl, rfl, loopsAfter_keeps .., rfl⟩

/-- Settles O4, by what a taken branch leaves. -/
theorem controlTransfers : Obligations.ControlTransfers := by
  unfold Obligations.ControlTransfers
  refine ⟨fun st p n o s => ⟨fun h => ⟨fun ht => ?_, fun ht => ?_⟩, fun h => ⟨fun ht => ?_, fun ht => ?_⟩⟩, fun st a s h => ⟨fun ha => ?_, fun ha hp ht => ?_⟩⟩
  · have ht : taken s.me p n = false := ht
    rw [exec_br, execBr, ht]
    exact meaning_ok h
  · have ht : taken s.me p n = true := ht
    obtain ⟨hoc, hpc, hex, hl, hme⟩ := branch_spec s (sjTarget s.me.pc o)
    rw [exec_br, execBr, ht, if_pos rfl]
    refine ⟨_, meaning_ok h, rfl, hoc.mark _, ?_, hex, hl, hme⟩
    rw [← sjTarget_toNat]
    exact congrArg _ hpc
  · have ht : taken s.me p n = false := ht
    rw [exec_call, execCall, ht]
    exact meaning_ok h
  · have ht : taken s.me p n = true := ht
    obtain ⟨hoc, hpc, hex, hl, hme⟩ := branch_spec (s.pushS 0 1 63 (s.me.pc + 16)) (sjTarget s.me.pc o)
    have hk : (s.pushS 0 1 63 (s.me.pc + 16)).me = s.me.push 0 1 (.scalar 63 (s.me.pc + 16)) := push_me ..
    rw [hk] at hex hl hme
    rw [exec_call, execCall, ht, if_pos rfl]
    refine ⟨_, meaning_ok h, rfl, ?_, ?_, hex, hl, hme⟩
    · exact ((push_onlyCore ..).trans hoc).mark _
    · rw [← sjTarget_toNat]
      exact congrArg _ hpc
  · have hb : bits (s.me.sreg a.val) 3 0 = 0 := by simpa [bits] using ha
    obtain ⟨hoc, hpc, hex, hl, hme⟩ := branch_spec s (s.me.sreg a.val)
    rw [exec_jr, execJr, if_neg (by simpa using hb)]
    exact ⟨_, meaning_ok h, rfl, hoc.mark _, hpc, hex, hl, hme⟩
  · have hb : bits (s.me.sreg a.val) 3 0 ≠ 0 := by simpa [bits] using ha
    rw [exec_jr, execJr, if_pos hb]
    exact fault_traps h (by decide) (by decide) (by decide) hp ht

/-! ### Loops (R220, R221) -/

/-- The counters that a table holds. -/
def counters (t : Tbl W32) (j : Nat) : W32 := tgetD t j 0
theorem counters_tput (t : Tbl W32) (k : Nat) (v : W32) : counters (tput 0 t k v) = fun j => if j = k then v else counters t j := by
  funext j
  rw [counters, tgetD_tput]
  exact if_congr eq_comm rfl rfl
theorem endLoops_ends (pc : W64) : ∀ (ls : List Loop) (lc : Tbl W32),
    Spec.Ends pc ls (counters lc) (endLoops pc ls lc).1 (counters (endLoops pc ls lc).2.1) (endLoops pc ls lc).2.2
  | [], lc => .done _
  | l :: t, lc => by
    unfold endLoops
    split
    next h =>
      split
      next hz =>
        refine .out l t _ _ _ _ h hz ?_
        rw [← counters_tput]
        exact endLoops_ends pc t _
      next hz =>
        dsimp only
        rw [counters_tput]
        refine (congrArg (fun f => Spec.Ends pc (l :: t) (counters lc) (l :: t) f l.first) ?_).mp (.back l t _ h (by unfold counters; omega))
        funext k
        split
        next hk => rw [hk]; rfl
        next => rfl
    next h => exact .skip l t _ _ _ _ h (endLoops_ends pc t lc)

/-- The first and the last bundle of the body of a LOOP at pc (R220). -/
def loopFirst (s : State) : W64 := s.me.pc + 16
def loopLast (s : State) (l : Fin 256) : W64 := loopFirst s + BitVec.ofNat 64 (16 * l.val)
/-- A LOOP may not take a level in use, nor overlap the end of an active loop's body (R220). -/
def loopUsed (s : State) (j : Nat) : Bool := s.me.loops.any fun x => x.k == j
def loopCrosses (s : State) (l : Fin 256) : Bool := s.me.loops.any fun x =>
  decide (x.first.toNat ≤ (loopFirst s).toNat ∧ (loopFirst s).toNat ≤ x.last.toNat ∧ x.last.toNat < (loopLast s l).toNat)

theorem loopEffect_eq (s : State) (j count : Nat) (l : Fin 256) : loopEffect s j count (l.val + 1) =
    if loopUsed s j || loopCrosses s l then fault 8
    else
      let lc := tput 0 s.me.lc j (BitVec.ofNat 32 count)
      let skip := endLoops (loopLast s l) s.me.loops lc
      let ends := endLoops s.me.pc skip.1 skip.2.1
      .ok (s.setMe (if count = 0 then { s.me with
          lc := ends.2.1, loops := ends.1, pc := if ends.2.2 = s.me.pc + 16 then skip.2.2 else ends.2.2, jumped := true }
        else { s.me with lc := lc, loops := ⟨j, loopFirst s, loopLast s l⟩ :: s.me.loops })) := by
  have hc : (s.me.loops.any fun x => decide (x.first.toNat ≤ (s.me.pc + 16).toNat) && decide ((s.me.pc + 16).toNat ≤ x.last.toNat)
      && decide (x.last.toNat < (s.me.pc + 16 + BitVec.ofNat 64 (16 * (l.val + 1 - 1))).toNat)) = loopCrosses s l := by
    refine List.any_congr rfl fun x => ?_
    rw [Nat.add_sub_cancel, Bool.eq_iff_iff]
    simp [loopFirst, loopLast, and_assoc]
  unfold loopEffect
  dsimp only
  rw [hc, show (s.me.loops.any fun x => x.k == j) = loopUsed s j from rfl]
  cases loopUsed s j with
  | true => rfl
  | false =>
    cases loopCrosses s l with
    | true => rfl
    | false =>
      rw [if_neg Bool.false_ne_true, if_neg Bool.false_ne_true, if_neg (show ¬ (false || false) = true from Bool.false_ne_true),
        apply_ite s.setMe, apply_ite Res.ok]
      rfl
theorem exec_loop {st : Fin 8} {k : Fin 4} {l : Fin 256} {s : State} {i : Instr} {count : Nat}
    (hi : (∃ c : Fin 1024, i = .loopImm st k c l ∧ count = c.val) ∨ (∃ r : Fin 64, i = .loopReg st k r l ∧ count = (s.me.sreg r.val).toNat)) :
    exec i s = meaning i 0 s (if 2 ^ 32 ≤ count then fault 5 else loopEffect s k.val count (l.val + 1)) := by
  rcases hi with ⟨c, rfl, rfl⟩ | ⟨r, rfl, rfl⟩
  · rw [if_neg (by omega)]
    rfl
  · refine congrArg (meaning _ 0 s) (if_congr ?_ rfl rfl)
    omega

/-- Settles O5: `endLoops` ends iterations as the rule says, and LOOP arms, skips or faults by its operands. -/
theorem loops : Obligations.Loops := by
  unfold Obligations.Loops
  refine ⟨fun st k l s i count hi h => ?_, fun s => ?_⟩
  · rw [exec_loop hi]
    refine ⟨fun hc hu hx => ?_, fun hc hu hp ht => ?_, fun hc hp ht => ?_⟩
    · have he := loopEffect_eq s k.val count l
      rw [if_neg (by rw [show loopUsed s k.val = false from hu, show loopCrosses s l = false from hx]; exact Bool.false_ne_true)] at he
      rw [if_neg (by omega), he]
      refine ⟨_, meaning_ok h, rfl, (setMe_onlyCore _ _).mark _, ?_⟩
      rw [State.me_mark, State.setMe_eq, State.me_setCore]
      by_cases h0 : count = 0
      · subst h0
        rw [if_pos rfl]
        refine ⟨rfl, fun h => absurd rfl h, fun _ => ⟨rfl, _, _, _, _, ?_, endLoops_ends .., rfl⟩⟩
        exact (congrArg (fun f => Spec.Ends (loopLast s l) s.me.loops f _ _ _) (counters_tput ..)).mp (endLoops_ends ..)
      · rw [if_neg h0]
        refine ⟨rfl, fun _ => ⟨rfl, rfl, rfl, fun j => congrFun (counters_tput ..) j⟩, fun h => absurd h h0⟩
    · rw [if_neg (by omega), loopEffect_eq, if_pos (show loopUsed s k.val || loopCrosses s l from hu)]
      exact fault_traps h (by decide) (by decide) (by decide) hp ht
    · rw [if_pos hc]
      exact fault_traps h (by decide) (by decide) (by decide) hp ht
  · refine ⟨_, rfl, setMe_onlyCore _ _, ?_⟩
    rw [State.setMe_eq, State.me_setCore]
    exact ⟨rfl, endLoops_ends .., rfl⟩
end Sys2Proof.Machine
end

section
/-! Proofs about the halt of a partition, taking a trap, HALT and RDMS (R364, R366, R376, R379, R381). -/
namespace Sys2Proof.Machine
open Sys2Proof

/-! ### The agenda -/

theorem mem_agendaPlace {before : Instr → Bool} {e : Nat × Instr} {t : Nat} {i : Instr} :
    ∀ l : List (Nat × Instr), e ∈ agendaPlace before l t i ↔ e = (t, i) ∨ e ∈ l
  | [] => List.mem_cons
  | x :: l => by
    unfold agendaPlace
    split
    · exact List.mem_cons
    · rw [List.mem_cons, List.mem_cons, mem_agendaPlace l]
      exact or_left_comm
theorem mem_schedule {s : State} {dt : Nat} {i : Instr} {e : Nat × Instr} : e ∈ (s.schedule dt i).agenda ↔ e = (s.clk + dt, i) ∨ e ∈ s.agenda :=
  mem_agendaPlace _

/-! ### The halt of a partition (R379) -/

/-- Only partitions and the agenda have changed. -/
structure OnlyParts (s t : State) : Prop where
  eq : t = { s with parts := t.parts, agenda := t.agenda }
namespace OnlyParts
theorem refl (s : State) : OnlyParts s s := ⟨rfl⟩
theorem trans {s t u : State} (h : OnlyParts s t) (g : OnlyParts t u) : OnlyParts s u := ⟨by rw [g.eq, h.eq]⟩
theorem setPart (s : State) (p : Nat) (x : Part) : OnlyParts s (s.setPart p x) := ⟨rfl⟩
theorem schedule (s : State) (dt : Nat) (i : Instr) : OnlyParts s (s.schedule dt i) := ⟨rfl⟩
theorem foldl {α : Type} {f : State → α → State} (h : ∀ s a, OnlyParts s (f s a)) : ∀ (l : List α) (s : State), OnlyParts s (l.foldl f s)
  | [], s => refl s
  | a :: l, s => (h s a).trans (foldl h l (f s a))
variable {s t : State} (h : OnlyParts s t)
include h
theorem core (c : Nat) : t.core c = s.core c := by rw [h.eq]; rfl
theorem cores : t.cores = s.cores := by rw [h.eq]
theorem me : t.me = s.me := by rw [h.eq]; rfl
theorem sameBytes : SameBytes s t := fun q a => by rw [h.eq]; rfl
end OnlyParts

/-- The events that tell units of a halt are on the agenda, and nothing else has changed. -/
theorem foldl_schedule {α : Type} (dt : Nat) (f : α → Instr) : ∀ (us : List α) (s : State),
    let t := us.foldl (fun s u => s.schedule dt (f u)) s
    t = { s with agenda := t.agenda } ∧ (∀ u, u ∈ us → (s.clk + dt, f u) ∈ t.agenda) ∧ ∀ e, e ∈ s.agenda → e ∈ t.agenda
  | [], s => ⟨rfl, fun u h => (nomatch h), fun _ h => h⟩
  | a :: us, s => by
    obtain ⟨h1, h2, h3⟩ := foldl_schedule dt f us (s.schedule dt (f a))
    refine ⟨h1, fun u hu => ?_, fun e he => h3 e (mem_schedule.2 (.inr he))⟩
    rcases List.mem_cons.1 hu with rfl | hu
    · exact h3 _ (mem_schedule.2 (.inl rfl))
    · exact h2 u hu

/-- The halt line of a partition that runs, or is torn down, asserts: it begins to halt, and its units hear of it 120 clocks later. -/
structure HaltBegins (s t : State) (p code sub d : Nat) : Prop where
  halting : t.part p = { s.part p with pstate := 1, halt := some ⟨code, sub, d, s.clk, s.unitsOf p, [], false⟩ }
  heard : ∀ u, u ∈ s.unitsOf p → (s.clk + 120, Instr.haltLineArrives p u.1 u.2) ∈ t.agenda

theorem assertHalt_begins {s : State} {p code sub d : Nat} (h : (s.part p).pstate = 0 ∨ (s.part p).pstate = 3) :
    HaltBegins s (s.assertHalt p code sub d) p code sub d := by
  unfold State.assertHalt
  dsimp only
  rw [if_pos h]
  generalize hu : s.setPart p _ = u
  obtain ⟨h1, h2, -⟩ := foldl_schedule 120 (fun x : Nat × Nat => Instr.haltLineArrives p x.1 x.2) (s.unitsOf p) u
  generalize List.foldl _ u _ = w at h1 h2
  have hp : w.part p = u.part p := by rw [h1]; rfl
  have hc : u.clk = s.clk := by rw [← hu]; rfl
  have hpu : u.part p = _ := hu ▸ State.part_setPart_same ..
  refine ⟨by rw [apply_ite (State.part · p), State.part_schedule, ite_self, hp, hpu], fun x hx => ?_⟩
  have := hc ▸ h2 x hx
  split
  · exact mem_schedule.2 (.inr this)
  · exact this
theorem assertHalt_only (s : State) (p code sub d : Nat) : OnlyParts s (s.assertHalt p code sub d) := by
  unfold State.assertHalt
  dsimp only
  split
  · generalize hu : s.setPart p _ = u
    have h0 : OnlyParts s u := hu ▸ .setPart ..
    have h1 := OnlyParts.foldl (fun s (x : Nat × Nat) => OnlyParts.schedule s 120 (.haltLineArrives p x.1 x.2)) (s.unitsOf p) u
    split
    · exact (h0.trans h1).trans (.schedule ..)
    · exact h0.trans h1
  · split
    · split
      · exact .setPart ..
      · exact .refl s
    · exact .refl s
theorem assertHalt_dbl (s : State) (p code sub d q : Nat) : ((s.assertHalt p code sub d).part q).dbl = (s.part q).dbl := by
  unfold State.assertHalt
  dsimp only
  split
  · generalize hu : s.setPart p _ = u
    have h1 := (foldl_schedule 120 (fun x : Nat × Nat => Instr.haltLineArrives p x.1 x.2) (s.unitsOf p) u).1
    generalize List.foldl _ u _ = w at h1
    have hp : w.part q = u.part q := by rw [h1]; rfl
    rw [apply_ite (State.part · q), State.part_schedule, ite_self, hp, ← hu, State.part_setPart]
    split
    next h => subst h; rfl
    · rfl
  · split
    · split
      · rw [State.part_setPart]
        split
        next h => subst h; rfl
        · rfl
      · rfl
    · rfl

theorem unitHalt_only (s : State) (p k i : Nat) (f : FaultInfo) (m : CmdInfo) : OnlyParts s (s.unitHalt p k i f m) := by
  unfold State.unitHalt
  dsimp only
  split
  · exact .refl s
  · refine .trans ?_ (assertHalt_only ..)
    split
    · exact .refl s
    · exact .setPart ..
theorem unitHalt_dbl (s : State) (p k i : Nat) (f : FaultInfo) (m : CmdInfo) (q : Nat) : ((s.unitHalt p k i f m).part q).dbl = (s.part q).dbl := by
  unfold State.unitHalt
  dsimp only
  split
  · rfl
  · rw [assertHalt_dbl]
    split
    · rfl
    · rw [State.part_setPart]
      split
      next h => subst h; rfl
      · rfl
/-- A unit's first fault in a partition that runs begins the halt. -/
theorem unitHalt_begins {s : State} {p : Nat} (k i : Nat) (f : FaultInfo) (m : CmdInfo) (h : (s.part p).pstate = 0) :
    ∃ u, OnlyParts s u ∧ u.clk = s.clk ∧ HaltBegins u (s.unitHalt p k i f m) p f.code f.sub (unitDie (k, i)) := by
  unfold State.unitHalt
  dsimp only
  rw [if_neg (by omega)]
  refine ⟨_, ?_, ?_, assertHalt_begins (.inl ?_)⟩
  · split
    · exact .refl s
    · exact .setPart ..
  · split <;> rfl
  · split
    · exact h
    · rw [State.part_setPart_same]
      exact h

/-- What a class-P fault of the current core leaves (R379). -/
structure CoreHalts (s t : State) (f : FaultInfo) : Prop where
  me : t.me = { s.me with stopped := true }
  others : ∀ c, c ≠ s.cur → t.core c = s.core c
  rest : t = { s with cores := t.cores, parts := t.parts, agenda := t.agenda }
  dbl : (t.part s.me.part).dbl = (s.part s.me.part).dbl
  begins : (s.part s.me.part).pstate = 0 → (t.part s.me.part).pstate = 1
    ∧ ∃ h, (t.part s.me.part).halt = some h ∧ h.code = f.code ∧ h.sub = f.sub ∧ h.die = s.myDie ∧ h.done = [] ∧ h.closing = false
      ∧ ∀ u, u ∈ h.left → (s.clk + 120, Instr.haltLineArrives s.me.part u.1 u.2) ∈ t.agenda
theorem coreHalt_halts (s : State) (f : FaultInfo) : CoreHalts s (s.coreHalt s.cur f) f := by
  unfold State.coreHalt
  dsimp only
  rw [← State.me_eq]
  generalize hu : s.setCore s.cur _ = u
  have ho := unitHalt_only u s.me.part 0 s.cur f ⟨0, 0, 0xFFFFFFFF, 0, 0⟩
  have hp (q : Nat) : u.part q = s.part q := by rw [← hu]; rfl
  have hc : u.clk = s.clk := by rw [← hu]; rfl
  refine ⟨?_, fun c hc => ?_, ?_, ?_, fun h => ?_⟩
  · rw [ho.me, ← hu, State.me_setCore]
  · rw [ho.core, ← hu, State.core_setCore_other _ _ (Ne.symm ‹_›)]
  · rw [ho.eq, ← hu]; rfl
  · rw [unitHalt_dbl, hp]
  · obtain ⟨w, _, hw, hb⟩ := unitHalt_begins (s := u) (p := s.me.part) 0 s.cur f ⟨0, 0, 0xFFFFFFFF, 0, 0⟩ (by rw [hp]; exact h)
    rw [hb.halting]
    refine ⟨rfl, _, rfl, rfl, rfl, rfl, rfl, rfl, fun x hx => ?_⟩
    rw [← hc, ← hw]
    exact hb.heard x hx
theorem CoreHalts.sameBytes {s t : State} {f : FaultInfo} (h : CoreHalts s t f) : SameBytes s t := fun q a => by rw [h.rest]; rfl

/-! ### Taking a trap (R364, R366) -/

/-- Settles O11: a trap enters the handler, or is a double fault, or stops the core, by what the context holds. -/
theorem trapEntry : Obligations.TrapEntry := by
  unfold Obligations.TrapEntry
  intro slot code sub info s hs hsub hcode
  refine ⟨_, rfl, fun ht => ?_, fun hh => ?_, fun hh hv => ?_, ?_⟩
  · rw [trap_trapTo ht]
    exact trapTo_trapped s ⟨code, sub, info, slot⟩ _ _ s.issue (show slot * 65536 + sub * 256 + code < 2 ^ 64 by omega)
  · unfold State.trap
    dsimp only
    rw [if_pos hh]
    have h := coreHalt_halts (s.setPart s.me.part { s.part s.me.part with dbl := true }) ⟨21, code, info, slot⟩
    refine ⟨h.dbl.trans (congrArg Part.dbl (State.part_setPart_same ..)), h.me, fun h0 => (h.begins ?_).1⟩
    exact (congrArg Part.pstate (State.part_setPart_same ..)).trans h0
  · unfold State.trap
    dsimp only
    rw [if_neg (ne_true_of_eq_false hh), if_pos (show (!bit (s.part s.me.part).tvec 0) = true from (congrArg _ hv).trans rfl)]
    have h := coreHalt_halts s ⟨code, sub, info, slot⟩
    exact ⟨h.dbl, h.me, fun h0 => (h.begins h0).1⟩
  · unfold State.trap
    dsimp only
    split
    · exact (coreHalt_halts (s.setPart s.me.part { s.part s.me.part with dbl := true }) ⟨21, code, info, slot⟩).sameBytes
    split
    · exact (coreHalt_halts s ⟨code, sub, info, slot⟩).sameBytes
    · exact fun q a => rfl

/-! ### HALT (R381) -/

/-- A fault of code 1 or 2 has the instruction's word as TINFO (R364). -/
theorem word_traps {i : Instr} {s : State} {n c sub : Nat} {info : W64} (h : Clear i s) (hc : c ≤ 2) (hsub : sub < 256) (hn : n < 4)
    (he : exec i s = meaning i n s (fault c sub info)) : Traps i s n c sub (BitVec.ofNat 64 (encode i)) := fun hp ht => by
  have := meaning_traps (n := n) (f := ⟨c, sub, info, 0⟩) h hp ht (show c ≤ 14 by omega) (show n * 65536 + sub * 256 + c < 2 ^ 64 by omega)
  simp only [hc, if_true] at this
  rw [he]
  exact this

theorem bits_eq_zero {x : W64} : bits x 63 4 = 0 ↔ x.toNat < 16 := by
  unfold bits
  have := x.isLt
  omega

/-- Settles O15: HALT stops its core and begins the halt of its own partition, begins another's, or traps. -/
theorem halts : Obligations.Halts := by
  unfold Obligations.Halts
  intro st a s hc
  have he : exec (.halt st a) s = meaning (.halt st a) 0 s (haltEffect s a) := rfl
  refine ⟨fun h hw => ?_, fun ha hsup hw hne => ?_, fun ha hsup => ?_, fun ha hsup hw => ?_⟩
  · have heff : haltEffect s a = .ok (s.haltPart s.me.part) := by
      unfold haltEffect
      dsimp only
      by_cases ha : a.val = 0
      · rw [if_pos ha]; rfl
      · obtain ⟨hsup, hp⟩ := h.resolve_left ha
        rw [if_neg ha, hsup, Bool.not_true, if_neg Bool.false_ne_true, if_neg (not_not.2 (bits_eq_zero.2 hw)), hp]
    rw [he, heff, meaning_ok hc]
    refine ⟨fun hx => by rw [State.haltPart, if_pos hx], fun h1 h2 => ?_⟩
    rw [State.haltPart, if_neg (by tauto), if_pos (show s.me.part = s.myPart from rfl)]
    have hh := coreHalt_halts s ⟨22, 0, 0, 0⟩
    exact ⟨_, rfl, rfl, hh.me, hh.begins, hh.sameBytes⟩
  · have heff : haltEffect s a = .ok (s.haltPart (s.me.sreg a.val).toNat) := by
      unfold haltEffect
      dsimp only
      rw [if_neg ha, hsup, Bool.not_true, if_neg Bool.false_ne_true, if_neg (not_not.2 (bits_eq_zero.2 hw))]
    rw [he, heff, meaning_ok hc]
    unfold State.haltPart
    by_cases hx : (s.part (s.me.sreg a.val).toNat).pstate = 1 ∨ (s.part (s.me.sreg a.val).toNat).pstate = 2
    · rw [if_pos hx]
      exact ⟨_, rfl, rfl, rfl, fun h => by omega, fun _ => rfl, fun _ _ => rfl⟩
    · rw [if_neg hx, if_neg (show ¬ (s.me.sreg a.val).toNat = s.myPart from hne)]
      have ho := assertHalt_only s (s.me.sreg a.val).toNat 22 0 s.myDie
      refine ⟨_, rfl, rfl, ho.me, fun h => ?_, fun h => absurd h hx, ho.sameBytes⟩
      exact congrArg Part.pstate (assertHalt_begins h).halting
  · refine word_traps hc (Nat.le_refl 2) (by decide) (by decide) (he.trans (congrArg _ ?_)) (info := 0)
    unfold haltEffect
    dsimp only
    rw [if_neg ha, hsup, Bool.not_false, if_pos rfl]
    rfl
  · refine fault_Traps hc (by decide) (by decide) (by decide) (he.trans (congrArg _ ?_))
    unfold haltEffect
    dsimp only
    rw [if_neg ha, hsup, Bool.not_true, if_neg Bool.false_ne_true, if_pos (mt bits_eq_zero.1 (by omega))]
    rfl

/-! ### RDMS (R376) -/

/-- Settles O13: RDMS by whose register the number names. -/
theorem registerReads : Obligations.RegisterReads := by
  unfold Obligations.RegisterReads
  intro st d n s hc
  have he : exec (.rdms st d n) s = meaning (.rdms st d n) 0 s (rdmsEffect s d n) := rfl
  refine ⟨fun ha hw => ?_, fun ha h1 h2 hsup => ?_, fun ha => ?_⟩
  · rw [he, rdmsEffect, ha, Bool.not_true, if_neg Bool.false_ne_true, if_neg, meaning_ok hc]
    · rfl
    · rcases hw with h | h | h
      · simp [regSup, h]
      · simp [h]
      · simp [h]
  · refine word_traps hc (Nat.le_refl 2) (by decide) (by decide) (he.trans (congrArg _ ?_)) (info := 0)
    rw [rdmsEffect, ha, Bool.not_true, if_neg Bool.false_ne_true, if_pos]
    · rfl
    · simp [regSup, h1, h2, hsup]
  · refine word_traps hc (by decide : 1 ≤ 2) (by decide) (by decide) (he.trans (congrArg _ ?_)) (info := 0)
    rw [rdmsEffect, ha, Bool.not_false, if_pos rfl]
    rfl
end Sys2Proof.Machine
end

section
/-! Proofs about what stores leave unchanged, and ERET, SNAPREL and SNAPST (R370 to R372). -/
namespace Sys2Proof.Machine
open Sys2Proof

/-! ### What the current core's stores leave unchanged -/

/-- Only memory, the quads with their paths, the dies' notes and counts, and what is under way have changed. -/
structure OnlyStores (s t : State) : Prop where
  eq : t = { s with mem := t.mem, quads := t.quads, dies := t.dies, agenda := t.agenda, fresh := t.fresh, reqs := t.reqs
                    hot := t.hot, pchan := t.pchan, pchanUsed := t.pchanUsed, issue := t.issue }
namespace OnlyStores
theorem refl (s : State) : OnlyStores s s := ⟨rfl⟩
theorem trans {s t u : State} (h : OnlyStores s t) (g : OnlyStores t u) : OnlyStores s u := ⟨by rw [g.eq, h.eq]⟩
theorem me {s t : State} (h : OnlyStores s t) : t.me = s.me := by rw [h.eq]; rfl
end OnlyStores
theorem storeRunsAt_only (s : State) (pa : Nat) (rs : List (Nat × List Byte)) : OnlyStores s (s.storeRunsAt pa rs) := by
  exact ⟨(storeRunsAt_stored rs s pa).rest⟩
theorem settled_only (s : State) (va : Nat) (p : Place) (f : Bool) (n : Nat) : OnlyStores s (s.settled va p f n) := by
  unfold State.settled
  rw [apply_ite (fun u => State.noteStore u va p f n)]
  split
  · exact ⟨by rw [noteStore_eq]⟩
  · exact ⟨by rw [noteStore_eq]⟩
theorem writeTile_only (s : State) (d ix o : Nat) (b : List Byte) : OnlyStores s (s.writeTile d ix o b) := by
  unfold State.writeTile
  dsimp only
  split
  · exact ⟨rfl⟩
  · exact .refl s
theorem storePlace_only (s : State) (va : W64) (p : Place) (b : List Byte) : OnlyStores s (s.storePlace va p b) := by
  cases p with
  | phys pa => exact (settled_only ..).trans (storeRunsAt_only ..)
  | host o => exact (settled_only ..).trans (storeRunsAt_only ..)
  | tile d ix g o => exact writeTile_only ..
  | flash e o => exact .refl s
theorem storePieces_only : ∀ (ps : List (W64 × Place × List Byte)) (s : State), OnlyStores s (s.storePieces ps)
  | [], s => .refl s
  | (va, p, b) :: t, s => (storePlace_only s va p b).trans (storePieces_only t _)

/-! ### ERET, SNAPREL and SNAPST (R370 to R372) -/

theorem eretEffect_plain {s : State} {st : Fin 8} {a : Fin 64} (h : (s.me.sreg a.val).toNat % 16 = 0) :
    eretEffect s st a 0 = .ok (s.eretTo (s.me.sreg a.val) (if s.me.theld then s.me.buffer else ⟨[], [], none, none⟩) st.val) := by
  unfold eretEffect
  dsimp only
  rw [if_neg (not_not.2 h), if_neg (not_not.2 (show (0 : Fin 64).val = 0 from rfl))]
theorem eretEffect_misaligned {s : State} {st : Fin 8} {a b : Fin 64} (h : (s.me.sreg a.val).toNat % 16 ≠ 0) :
    eretEffect s st a b = fault instructionAlignment := by
  unfold eretEffect
  dsimp only
  rw [if_pos h]
theorem eretEffect_header {s : State} {st : Fin 8} {a b : Fin 64} {h : List Byte} (ht : (s.me.sreg a.val).toNat % 16 = 0) (hb : b ≠ 0)
    (hr : s.readImage (s.me.sreg b.val) 128 = .ok h) (hn : imageSize h = none) : eretEffect s st a b = fault invalidOperand := by
  unfold eretEffect
  dsimp only
  rw [if_neg (not_not.2 ht), if_pos (show b.val ≠ 0 from fun h0 => hb (Fin.ext h0)), hr]
  dsimp only
  rw [hn]
/-- An image of the size its header gives has been read, and holds no buffer, or one. -/
theorem eretEffect_noImage {s : State} {st : Fin 8} {a b : Fin 64} {h img : List Byte} {n : Nat} (ht : (s.me.sreg a.val).toNat % 16 = 0) (hb : b ≠ 0)
    (hr : s.readImage (s.me.sreg b.val) 128 = .ok h) (hn : imageSize h = some n) (hi : s.readImage (s.me.sreg b.val) n = .ok img)
    (hbuf : imageBuffer img = none) : eretEffect s st a b = fault invalidOperand := by
  unfold eretEffect
  dsimp only
  rw [if_neg (not_not.2 ht), if_pos (show b.val ≠ 0 from fun h0 => hb (Fin.ext h0)), hr]
  dsimp only
  rw [hn]
  dsimp only
  rw [hi]
  dsimp only
  rw [hbuf]
theorem eretEffect_image {s : State} {st : Fin 8} {a b : Fin 64} {h img : List Byte} {n : Nat} {src : Buffer}
    (ht : (s.me.sreg a.val).toNat % 16 = 0) (hb : b ≠ 0) (hr : s.readImage (s.me.sreg b.val) 128 = .ok h) (hn : imageSize h = some n)
    (hi : s.readImage (s.me.sreg b.val) n = .ok img) (hbuf : imageBuffer img = some src) :
    eretEffect s st a b = .ok (s.eretTo (s.me.sreg a.val) src st.val) := by
  unfold eretEffect
  dsimp only
  rw [if_neg (not_not.2 ht), if_pos (show b.val ≠ 0 from fun h0 => hb (Fin.ext h0)), hr]
  dsimp only
  rw [hn]
  dsimp only
  rw [hi]
  dsimp only
  rw [hbuf]

theorem snapstEffect_held {s : State} {b : Fin 64} {o : Fin 256} {l : Lent} {ps : List Place} (ha : (s.me.sreg b.val + offM 6 o l).toNat % 64 = 0)
    (hh : s.me.theld = true)
    (hps : s.places .store ((lineRanges (s.me.sreg b.val + offM 6 o l) (imageOf s.me.buffer).length).map (·.1)) = .ok ps) :
    snapstEffect s b o l = .ok (s.storePieces (((lineRanges (s.me.sreg b.val + offM 6 o l) (imageOf s.me.buffer).length).zip ps).map fun e =>
      (e.1.1, e.2, ((imageOf s.me.buffer).drop (e.1.1 - (s.me.sreg b.val + offM 6 o l)).toNat).take e.1.2))) := by
  unfold snapstEffect
  dsimp only
  rw [if_neg (not_not.2 ha), if_neg (by rw [hh]; exact Bool.false_ne_true), hps]

/-- Settles O12: each return and snapshot by its operands and the held buffer. -/
theorem trapReturns : Obligations.TrapReturns := by
  unfold Obligations.TrapReturns
  have he (st : Fin 8) (a b : Fin 64) (s : State) : exec (.eret st a b) s = meaning (.eret st a b) 0 s (eretEffect s st a b) := rfl
  refine ⟨fun st a s hc => ⟨fun ht => ?_, fun ht => ?_⟩, fun s => ⟨fun st hc => ?_, fun b o l hc => ?_, fun st a b hc hb ht h hr => ?_⟩⟩
  · rw [he, eretEffect_plain ht, meaning_ok hc]
    refine ⟨_, rfl, rfl, (setMe_onlyCore _ _).mark _, ?_⟩
    rw [State.me_mark, State.eretTo, State.setMe_eq, State.me_setCore]
    exact ⟨rfl, rfl, rfl, rfl, rfl, rfl, rfl, rfl, ⟨_, fun f _ h => Nat.lt_succ_of_lt h, Nat.le_succ _, rfl⟩, rfl⟩
  · exact fault_Traps hc (by decide) (by decide) (by decide) ((he ..).trans (congrArg _ (eretEffect_misaligned ht)))
  · exact meaning_ok hc
  · have hs : exec (.snapst b o l) s = meaning (.snapst b o l) 3 s (snapstEffect s b o l) := rfl
    refine ⟨fun ha => ?_, fun ha hh => ?_, fun ha hh ps hps => ?_⟩
    · refine fault_Traps hc (by decide) (by decide) (by decide) (hs.trans (congrArg _ ?_))
      unfold snapstEffect
      dsimp only
      rw [if_pos ha]
      rfl
    · refine fault_Traps hc (by decide) (by decide) (by decide) (hs.trans (congrArg _ ?_))
      unfold snapstEffect
      dsimp only
      rw [if_neg (not_not.2 ha), hh, Bool.not_false, if_pos rfl]
      rfl
    · rw [hs, snapstEffect_held ha hh hps, meaning_ok hc]
      refine ⟨_, rfl, rfl, ?_, ?_, rfl⟩
      · rw [State.me_mark, (storePieces_only _ s).me]
      · rw [State.me_mark, (storePieces_only _ s).me, hh]
  · refine ⟨fun hn => ?_, fun n img hn hi => ⟨fun hbuf => ?_, fun src hbuf => ?_⟩⟩
    · exact fault_Traps hc (by decide) (by decide) (by decide) ((he ..).trans (congrArg _ (eretEffect_header ht hb hr hn)))
    · refine fault_Traps hc (by decide) (by decide) (by decide) ((he ..).trans (congrArg _ ?_))
      exact eretEffect_noImage ht hb hr hn hi hbuf
    · rw [he, eretEffect_image ht hb hr hn hi hbuf, meaning_ok hc]
end Sys2Proof.Machine
end

section
/-! Proofs about WRMS (R376). -/
namespace Sys2Proof.Machine
open Sys2Proof

/-! ### Reserved bits (R5) -/

theorem testBit_span {hi lo : Nat} (h : lo ≤ hi + 1) (i : Nat) : (span hi lo).testBit i = (decide (lo ≤ i) && decide (i ≤ hi)) := by
  have : span hi lo = (2 ^ (hi + 1 - lo) - 1) <<< lo := by
    rw [span, Nat.shiftLeft_eq, Nat.sub_mul, Nat.one_mul, ← Nat.pow_add, Nat.sub_add_cancel h]
  rw [this, Nat.testBit_shiftLeft, Nat.testBit_two_pow_sub_one]
  by_cases h1 : lo ≤ i
  · simp only [h1, decide_true, Bool.true_and]
    exact decide_eq_decide.2 (by omega)
  · simp [h1]
/-- A word with no bit of a mask is below 2^lo where the mask has every bit from lo on. -/
theorem lt_of_reserved {v : W64} {m lo : Nat} (h : v.toNat &&& m = 0) (hm : ∀ i, lo ≤ i → i < 64 → m.testBit i = true) : v.toNat < 2 ^ lo := by
  refine Nat.lt_pow_two_of_testBit _ fun i hi => ?_
  by_cases h64 : i < 64
  · have := congrArg (Nat.testBit · i) h
    simpa [Nat.testBit_and, hm i hi h64] using this
  · exact Nat.testBit_lt_two_pow (v.isLt.trans_le (Nat.pow_le_pow_right (by decide) (by omega)))
theorem lt_of_span {v : W64} {lo : Nat} (h : v.toNat &&& span 63 lo = 0) (hl : lo < 64) : v.toNat < 2 ^ lo :=
  lt_of_reserved h fun i h1 h2 => by rw [testBit_span (by omega)]; simp [h1]; omega


/-! ### WRMS of the context's registers (R376) -/

theorem wrms_meaning (st : Fin 8) (a : Fin 64) (n : Fin 1024) (s : State) :
    exec (.wrms st a n) s = meaning (.wrms st a n) 0 s (wrmsEffect s a n) := rfl
/-- A write that is allowed and sets no reserved bit. -/
theorem wrmsEffect_write {s : State} {a : Fin 64} {n : Fin 1024} (ha : regAssigned n.val = true) (hp : n.val < 0x40 ∨ s.isSup = true)
    (hv : (s.me.sreg a.val).toNat &&& regRsv n.val = 0) : wrmsEffect s a n = s.regWrite n.val (s.me.sreg a.val) := by
  have hsup : (regSup n.val && !s.isSup) = false := by
    rcases hp with h | h
    · simp [regSup, h]
    · simp [h]
  rw [wrmsEffect, ha, hsup, Bool.not_true, if_neg Bool.false_ne_true, if_neg Bool.false_ne_true, if_neg (not_not.2 hv)]
theorem wrmsEffect_reserved {s : State} {a : Fin 64} {n : Fin 1024} (ha : regAssigned n.val = true) (hp : n.val < 0x40 ∨ s.isSup = true)
    (hv : (s.me.sreg a.val).toNat &&& regRsv n.val ≠ 0) : wrmsEffect s a n = fault illegalInstruction := by
  have hsup : (regSup n.val && !s.isSup) = false := by
    rcases hp with h | h
    · simp [regSup, h]
    · simp [h]
  rw [wrmsEffect, ha, hsup, Bool.not_true, if_neg Bool.false_ne_true, if_neg Bool.false_ne_true, if_pos hv]
theorem wrmsEffect_privilege {s : State} {a : Fin 64} {n : Fin 1024} (ha : regAssigned n.val = true) (hn : 0x40 ≤ n.val) (hp : s.isSup = false) :
    wrmsEffect s a n = fault privilege := by
  rw [wrmsEffect, ha, Bool.not_true, if_neg Bool.false_ne_true, if_pos]
  simp [regSup, hn, hp]

theorem zeroExtend_setWidth {v : W64} (h : v.toNat < 2 ^ 32) : (v.setWidth 32).zeroExtend 64 = v := by
  apply BitVec.eq_of_toNat_eq
  simp only [BitVec.toNat_setWidth, BitVec.truncate_eq_setWidth]
  omega

/-- The registers of a context that hold what is written. -/
def ownRegs : List Nat := [0x000, 0x002, 0x008, 0x009, 0x00A, 0x010, 0x011, 0x012, 0x013, 0x014, 0x015, 0x016, 0x017, 0x034]
/-- What a write of a context register may change of its core. -/
def Core.rewritten (k k' : Core) : Prop := k' = { k with ctxctl := k'.ctxctl, mgeo := k'.mgeo, tscr := k'.tscr, lc := k'.lc, cc := k'.cc }
theorem regWrite_own {s : State} {n : Nat} {v : W64} (hn : n ∈ ownRegs) (hv : v.toNat &&& regRsv n = 0) (h0 : n = 0x000 → ctxctlOk v = true)
    (h2 : n = 0x002 → mgeoOk v = true) :
    ∃ k', s.regWrite n v = .ok (s.setMe k') ∧ s.me.rewritten k' ∧ (s.setMe k').regRead n = v := by
  have hme (k : Core) : (s.setMe k).me = k := State.me_setCore ..
  have hcount (j : Nat) (hj : v.toNat &&& regRsv (8 + j) = 0) (hl : regRsv (8 + j) = span 63 32) :
      ({ s.me with lc := tput 0 s.me.lc j (v.setWidth 32) }.lcount j).zeroExtend 64 = v := by
    rw [Core.lcount, tgetD_tput_same]
    exact zeroExtend_setWidth (lt_of_span (hl ▸ hj) (by decide))
  have hcc (j : Nat) (hj : v.toNat &&& regRsv (0x10 + j) = 0) (hl : regRsv (0x10 + j) = span 63 32) :
      (tgetD (tput 0 s.me.cc j (v.setWidth 32)) j 0).zeroExtend 64 = v := by
    rw [tgetD_tput_same]
    exact zeroExtend_setWidth (lt_of_span (hl ▸ hj) (by decide))
  have hcase : n = 0x000 ∨ n = 0x002 ∨ n = 0x034 ∨ (∃ j, j < 3 ∧ n = 8 + j) ∨ ∃ j, j < 8 ∧ n = 0x10 + j := by
    simp only [ownRegs, List.mem_cons, List.not_mem_nil, or_false] at hn
    by_cases h8 : 8 ≤ n ∧ n < 11
    · exact .inr (.inr (.inr (.inl ⟨n - 8, by omega, by omega⟩)))
    by_cases h10 : 0x10 ≤ n ∧ n < 0x18
    · exact .inr (.inr (.inr (.inr ⟨n - 0x10, by omega, by omega⟩)))
    omega
  rcases hcase with rfl | rfl | rfl | ⟨j, hj, rfl⟩ | ⟨j, hj, rfl⟩
  · exact ⟨{ s.me with ctxctl := v }, if_pos (h0 rfl), rfl, congrArg Core.ctxctl (hme _)⟩
  · exact ⟨{ s.me with mgeo := v }, if_pos (h2 rfl), rfl, congrArg Core.mgeo (hme _)⟩
  · exact ⟨{ s.me with tscr := v }, rfl, rfl, congrArg Core.tscr (hme _)⟩
  · interval_cases j <;> exact ⟨_, rfl, rfl, (congrArg (fun k : Core => (k.lcount _).zeroExtend 64) (hme _)).trans (hcount _ hv rfl)⟩
  · interval_cases j <;> exact ⟨_, rfl, rfl, (congrArg (fun k : Core => (tgetD k.cc _ 0).zeroExtend 64) (hme _)).trans (hcc _ hv rfl)⟩

/-! ### The registers of a partition -/

/-- What a write of a register of partition p that holds its value leaves. -/
structure PartWritten (s t : State) (n : Nat) (v : W64) (p : Nat) : Prop where
  issued : t.issue = .issued
  reads : t.regRead n = v
  rest : t = { s with parts := t.parts, issue := .issued }
  others : ∀ q, q ≠ p → t.part q = s.part q
theorem setPart_written {s : State} {n : Nat} {v : W64} {p : Nat} {x : Part} (h : (s.setPart p x).regRead n = v) :
    PartWritten s ((s.setPart p x).mark .issued) n v p :=
  ⟨rfl, h, rfl, fun _ hq => State.part_setPart_other s x (Ne.symm hq)⟩

theorem regWrite_part {s : State} {n : Nat} {v : W64} (h : 0x40 ≤ n) (h' : n < 0x100 ∨ (0x170 ≤ n ∧ n < 0x180)) : s.regWrite n v = s.partWrite n v := by
  unfold State.regWrite
  rw [if_neg (by omega)]
  rcases h' with h' | ⟨h1, h2⟩
  · rw [if_pos h']
  · rw [if_neg (by omega), if_neg (by omega), if_neg (by omega), if_pos h2]
theorem regRead_csave {s : State} {n : Nat} (h1 : 0x170 ≤ n) (h2 : n < 0x180) : s.regRead n = (s.part (n % 16)).csave := by
  unfold State.regRead
  dsimp only
  simp only [show ¬ n < 0x040 by omega, show ¬ n < 0x100 by omega, show ¬ n < 0x110 by omega, show ¬ n < 0x120 by omega, show ¬ n < 0x124 by omega,
    show ¬ n < 0x128 by omega, show ¬ n < 0x12C by omega, show ¬ n < 0x130 by omega, show ¬ n < 0x132 by omega, show ¬ n = 0x132 by omega,
    show ¬ n = 0x133 by omega, show ¬ n = 0x134 by omega, show ¬ n = 0x135 by omega, show ¬ n = 0x136 by omega, show ¬ n < 0x140 by omega,
    show ¬ n < 0x148 by omega, show ¬ n < 0x150 by omega, show ¬ n < 0x158 by omega, show ¬ n < 0x160 by omega, show ¬ n < 0x168 by omega, h2, if_false, if_true]

/-- What the registers of a partition below 0x100 read, by n / 16. -/
def partRead (p : Part) (f : Nat) : W64 :=
  match f with
  | 0x04 => p.ctxctl
  | 0x05 => p.tvec
  | 0x06 => p.pstateWord
  | 0x07 => p.sscfg
  | 0x08 => p.ssstat
  | 0x09 => p.ttbase
  | 0x0A => p.ovf
  | 0x0B => w64 p.hquota
  | 0x0C => p.tring
  | 0x0D => w64 p.ring.length
  | 0x0E => p.slip
  | _ => p.slipPtr
theorem regRead_part {s : State} {n : Nat} (h1 : 0x40 ≤ n) (h2 : n < 0x100) : s.regRead n = partRead (s.part (n % 16)) (n / 16) := by
  unfold State.regRead
  dsimp only
  rw [if_neg (by omega), if_pos h2]
  rfl

/-- The registers of a partition that hold a value within their limits, by n / 16, with whether a value is within them. -/
def partRegs (x : Part) (v : W64) : List (Nat × Bool) :=
  [(0x04, ctxctlOk v), (0x05, true), (0x0A, true), (0x0B, decide (v.toNat ≤ 4096)),
    (0x0C, decide (6 ≤ v.toNat % 32 ∧ v.toNat % 32 ≤ 16 ∧ x.ring = [])), (0x0E, decide (4 ≤ v.toNat % 32 ∧ v.toNat % 32 ≤ 12)), (0x17, true)]
theorem lgIn_eq (v : W64) (lo hi : Nat) : lgIn v lo hi = decide (lo ≤ v.toNat % 32 ∧ v.toNat % 32 ≤ hi) := by
  have : bits v 4 0 = v.toNat % 32 := by unfold bits; omega
  rw [lgIn, this, Bool.decide_and]
theorem regWrite_partReg {s : State} {n : Nat} {v : W64} {ok : Bool} (hn : (n / 16, ok) ∈ partRegs (s.part (n % 16)) v)
    (hv : v.toNat &&& regRsv n = 0) :
    ∃ x, s.regWrite n v = okIf ok (s.setPart (n % 16) x) ∧ (s.setPart (n % 16) x).regRead n = v := by
  have hpart (x : Part) : (s.setPart (n % 16) x).part (n % 16) = x := State.part_setPart_same ..
  have hrsv (h1 : 0x40 ≤ n) (h2 : n < 0x120) : regRsv n = famRsv n := by
    unfold regRsv
    rw [if_neg (by omega), if_pos h2]
  simp only [partRegs, List.mem_cons, List.not_mem_nil, or_false, Prod.mk.injEq] at hn
  rcases hn with ⟨h, rfl⟩ | ⟨h, rfl⟩ | ⟨h, rfl⟩ | ⟨h, rfl⟩ | ⟨h, rfl⟩ | ⟨h, rfl⟩ | ⟨h, rfl⟩
  all_goals rw [regWrite_part (by omega) (by omega), State.partWrite, h]
  · refine ⟨_, rfl, ?_⟩
    rw [regRead_part (by omega) (by omega), h, hpart]
    rfl
  · refine ⟨_, rfl, ?_⟩
    rw [regRead_part (by omega) (by omega), h, hpart]
    rfl
  · refine ⟨_, rfl, ?_⟩
    rw [regRead_part (by omega) (by omega), h, hpart]
    rfl
  · have hlt : v.toNat < 2 ^ 13 := lt_of_span (by rw [hrsv (by omega) (by omega), famRsv, h] at hv; exact hv) (by decide)
    have hb : bits v 12 0 = v.toNat := by unfold bits; omega
    refine ⟨_, congrArg (okIf · _) (by rw [hb]), ?_⟩
    rw [regRead_part (by omega) (by omega), h, hpart, hb]
    exact BitVec.ofNat_toNat .. |>.trans (BitVec.setWidth_eq v)
  · refine ⟨_, congrArg (okIf · _) ?_, ?_⟩
    · rw [lgIn_eq, Bool.eq_iff_iff]
      simp [and_assoc]
    · rw [regRead_part (by omega) (by omega), h, hpart]
      rfl
  · refine ⟨_, congrArg (okIf · _) (lgIn_eq ..), ?_⟩
    rw [regRead_part (by omega) (by omega), h, hpart]
    rfl
  · refine ⟨_, rfl, ?_⟩
    rw [regRead_csave (by omega) (by omega), hpart]

/-- Settles O14: WRMS of a context register, of the registers of a partition that take any value, and its traps. -/
theorem registerWrites : Obligations.RegisterWrites := by
  unfold Obligations.RegisterWrites
  intro st a n s hc
  dsimp only
  refine ⟨fun hn hv h0 h2 => ?_, fun hn hv h0 => ?_, fun hn h2 => ?_, fun hn => ?_, fun hn ha hsup => ?_, fun ha hp hv => ?_, fun hn hsup hv => ?_⟩
  · have ha : regAssigned n.val = true ∧ n.val < 0x40 := by
      revert hn
      generalize n.val = m
      intro hm
      simp only [List.mem_cons, List.not_mem_nil, or_false] at hm
      rcases hm with rfl | rfl | rfl | rfl | rfl | rfl | rfl | rfl | rfl | rfl | rfl | rfl | rfl | rfl <;> decide
    obtain ⟨k', hw, hk, hr⟩ := regWrite_own hn hv h0 h2
    rw [wrms_meaning, wrmsEffect_write ha.1 (.inl ha.2) hv, hw, meaning_ok hc]
    refine ⟨_, rfl, rfl, (setMe_onlyCore _ _).mark _, hr, ?_⟩
    rw [State.me_mark, State.setMe_eq, State.me_setCore, hk]
    exact ⟨rfl, rfl, rfl, rfl, rfl⟩
  · refine fault_Traps hc (by decide) (by decide) (by decide) ((wrms_meaning ..).trans (congrArg _ ?_))
    rw [wrmsEffect_write (by rw [hn]; rfl) (.inl (by omega)) hv, hn]
    exact if_neg (ne_true_of_eq_false h0)
  · refine fault_Traps hc (by decide) (by decide) (by decide) ((wrms_meaning ..).trans (congrArg _ ?_))
    rw [wrmsEffect_write (by rw [hn]; rfl) (.inl (by omega)) (by rw [hn]; exact Nat.and_zero _), hn]
    exact if_neg (ne_true_of_eq_false h2)
  · rw [wrms_meaning, wrmsEffect_write (by rw [hn]; rfl) (.inl (by omega)) (by rw [hn]; exact Nat.and_zero _), hn]
    rw [show s.regWrite 3 _ = .ok (s.setMe { s.me with drainStall := 0, leaseWait := 0 }) from rfl, meaning_ok hc]
    refine ⟨_, rfl, rfl, (setMe_onlyCore _ _).mark _, ?_⟩
    have hread (u : State) : u.regRead 3 = w64 (u.me.drainStall * 2 ^ 32 + u.me.leaseWait) := rfl
    rw [hread, State.me_mark, State.setMe_eq, State.me_setCore, Nat.zero_mul, Nat.zero_add]
    rfl
  · exact word_traps hc (Nat.le_refl 2) (by decide) (by decide) ((wrms_meaning ..).trans (congrArg _ (wrmsEffect_privilege ha hn hsup)))
  · exact word_traps hc (by decide : 1 ≤ 2) (by decide) (by decide) ((wrms_meaning ..).trans (congrArg _ (wrmsEffect_reserved ha hp hv)))
  · have ha : regAssigned n.val = true ∧ (n.val / 16, true) ∈ partRegs (s.part (n.val % 16)) (s.me.sreg a.val) := by
      revert hn
      generalize n.val = m
      intro hm
      simp only [List.mem_cons, List.not_mem_nil, or_false] at hm
      simp only [partRegs, List.mem_cons, List.not_mem_nil, or_false, Prod.mk.injEq]
      rcases hm with rfl | rfl | rfl | rfl | rfl | rfl | rfl <;> exact ⟨by decide, by simp⟩
    obtain ⟨x, hw, hr⟩ := regWrite_partReg ha.2 hv
    rw [wrms_meaning, wrmsEffect_write ha.1 (.inr hsup) hv, hw, okIf, if_pos rfl, meaning_ok hc]
    obtain ⟨h1, h2, h3, h4⟩ := setPart_written hr
    exact ⟨_, rfl, h1, h2, h3, h4⟩

/-! ### WRMS of the supervisor's other registers -/

/-- What a write of a register of a die leaves. -/
structure DieWritten (s t : State) (n : Nat) (v : W64) (d : Nat) : Prop where
  issued : t.issue = .issued
  reads : t.regRead n = v
  rest : t = { s with dies := t.dies, issue := .issued }
  others : ∀ e, e ≠ d → t.die e = s.die e
theorem setDie_written {s : State} {n : Nat} {v : W64} {d : Nat} {x : Die} (h : (s.setDie d x).regRead n = v) :
    DieWritten s ((s.setDie d x).mark .issued) n v d :=
  ⟨rfl, h, rfl, fun _ hq => State.die_setDie_other s x (Ne.symm hq)⟩

/-- The registers of an ED's flash or of a die that hold a value within their limits, with their die. -/
def dieRegs (v : W64) : List (Nat × Nat × Bool) :=
  ((List.range 4).map fun e => (0x120 + e, 2 + e, decide (1000 ≤ v.toNat ∧ v.toNat ≤ 1000000)))
    ++ ((List.range 4).map fun e => (0x128 + e, 2 + e, true)) ++ ((List.range 6).map fun d => (0x138 + d, d, true))
    ++ ((List.range 6).map fun d => (0x140 + d, d, decide (9 ≤ v.toNat % 32 ∧ v.toNat % 32 ≤ 20))) ++ ((List.range 6).map fun d => (0x150 + d, d, true))
theorem regWrite_dieReg {s : State} {n d : Nat} {v : W64} {ok : Bool} (hn : (n, d, ok) ∈ dieRegs v) (hv : v.toNat &&& regRsv n = 0) :
    ∃ x, s.regWrite n v = okIf ok (s.setDie d x) ∧ (s.setDie d x).regRead n = v := by
  have hdie (x : Die) : (s.setDie d x).die d = x := State.die_setDie_same ..
  simp only [dieRegs, List.mem_append, List.mem_map, List.mem_range, Prod.mk.injEq] at hn
  rcases hn with (((⟨e, he, rfl, rfl, rfl⟩ | ⟨e, he, rfl, rfl, rfl⟩) | ⟨e, he, rfl, rfl, rfl⟩) | ⟨e, he, rfl, rfl, rfl⟩) | ⟨e, he, rfl, rfl, rfl⟩
  · have hr : regRsv (0x120 + e) = span 63 20 := by interval_cases e <;> rfl
    have hlt : v.toNat < 2 ^ 20 := lt_of_span (hr ▸ hv) (by decide)
    have hb : bits v 19 0 = v.toNat := by unfold bits; omega
    refine ⟨{ s.die (2 + e) with flash := { s.flash e with rdthr := v.toNat } }, ?_, ?_⟩
    · rw [Bool.decide_and, ← hb]
      interval_cases e <;> rfl
    · have hread (u : State) : u.regRead (0x120 + e) = w64 (u.flash e).rdthr := by interval_cases e <;> rfl
      rw [hread, State.flash, hdie]
      exact BitVec.ofNat_toNat .. |>.trans (BitVec.setWidth_eq v)
  · refine ⟨{ s.die (2 + e) with flash := { s.flash e with arg := v } }, by interval_cases e <;> rfl, ?_⟩
    have hread (u : State) : u.regRead (0x128 + e) = (u.flash e).arg := by interval_cases e <;> rfl
    rw [hread, State.flash, hdie]
  · refine ⟨{ s.die e with frt := v }, by interval_cases e <;> rfl, ?_⟩
    have hread (u : State) : u.regRead (0x138 + e) = (u.die e).frt := by interval_cases e <;> rfl
    rw [hread, hdie]
  · refine ⟨{ s.die e with freeqBase := v }, ?_, ?_⟩
    · rw [← lgIn_eq]
      interval_cases e <;> rfl
    · have hread (u : State) : u.regRead (0x140 + e) = (u.die e).freeqBase := by interval_cases e <;> rfl
      rw [hread, hdie]
  · refine ⟨{ s.die e with hbmpm := v }, by interval_cases e <;> rfl, ?_⟩
    have hread (u : State) : u.regRead (0x150 + e) = (u.die e).hbmpm := by interval_cases e <;> rfl
    rw [hread, hdie]

/-- A write of a read-only register. -/
theorem regWrite_readOnly {s : State} {n : Nat} {v : W64} (hn : n / 16 ∈ [0x08, 0x0D, 0x10] ∨ n = 0x133 ∨ (0x158 ≤ n ∧ n < 0x160) ∨ (0x1E0 ≤ n ∧ n < 0x240)) :
    s.regWrite n v = .ok s := by
  simp only [List.mem_cons, List.not_mem_nil, or_false] at hn
  rcases hn with (h | h | h) | rfl | ⟨h1, h2⟩ | ⟨h1, h2⟩
  · rw [regWrite_part (by omega) (by omega), State.partWrite, h]
    rfl
  · rw [regWrite_part (by omega) (by omega), State.partWrite, h]
    rfl
  · rw [State.regWrite, if_neg (by omega), if_neg (by omega), if_pos (by omega), State.unitWrite, if_pos (by omega)]
  · rfl
  · rw [State.regWrite, if_neg (by omega), if_neg (by omega), if_neg (by omega), if_pos (by omega), State.dieWrite, show n / 8 = 0x2B by omega]
    rfl
  · rw [State.regWrite, if_neg (by omega), if_neg (by omega), if_neg (by omega), if_neg (by omega), if_neg (by omega), if_neg (by omega), if_pos (by omega)]

/-- A bit of two fields of a word, one above the other. -/
theorem getLsbD_fields {lo x y b : Nat} (h : y < 2 ^ lo) (h64 : b < 64) :
    (w64 (2 ^ lo * x + y)).getLsbD b = if b < lo then y.testBit b else x.testBit (b - lo) := by
  rw [w64, BitVec.getLsbD_ofNat, decide_eq_true h64, Bool.true_and, Nat.testBit_two_pow_mul_add _ h]
theorem hbmErr_getLsbD (x : Die) {b : Nat} (hb : 32 ≤ b) (h64 : b < 64) : x.hbmErr.getLsbD b = x.errCorrected.getLsbD (b - 32) := by
  have h1 := x.errUncorrectable.isLt
  have h2 := x.errRetired.isLt
  rw [Die.hbmErr, Nat.add_assoc, Nat.mul_comm _ (2 ^ 32), getLsbD_fields (by omega) h64, if_neg (by omega)]
  rfl
theorem slipPtr_getLsbD (x : Part) {b : Nat} (hb : b < 16) : x.slipPtr.getLsbD b = x.slipLost.getLsbD b := by
  rw [Part.slipPtr, show x.slipTail.toNat * 2 ^ 40 + x.slipHead.toNat * 65536 = 2 ^ 16 * (x.slipTail.toNat * 2 ^ 24 + x.slipHead.toNat) by omega,
    getLsbD_fields x.slipLost.isLt (by omega), if_pos hb]
  rfl

/-- Settles O60: each register of the supervisor by what a write of it leaves, and its limits. -/
theorem supervisorWrites : Obligations.SupervisorWrites := by
  unfold Obligations.SupervisorWrites
  intro st a n s hc hsup ha
  dsimp only
  intro hv
  have he {r : Res} (hr : s.regWrite n.val (s.me.sreg a.val) = r) : exec (.wrms st a n) s = meaning (.wrms st a n) 0 s r := by
    rw [wrms_meaning, wrmsEffect_write ha (.inr hsup) hv, hr]
  have hok {t : State} (hr : s.regWrite n.val (s.me.sreg a.val) = .ok t) : exec (.wrms st a n) s = .next (t.mark .issued) := by
    rw [he hr, meaning_ok hc]
  have htrap (hr : s.regWrite n.val (s.me.sreg a.val) = fault invalidOperand) : Traps (.wrms st a n) s 0 5 0 0 :=
    fault_Traps hc (by decide) (by decide) (by decide) (he hr)
  refine ⟨fun ok hn => ?_, fun d ok hn => ?_, fun hn => ?_, fun hn => ?_, fun hn => ?_, fun hn => hok (regWrite_readOnly hn), fun e he hn => ?_, fun lo hi hn => ?_⟩
  · obtain ⟨x, hw, hr⟩ := regWrite_partReg hn hv
    refine ⟨fun h => ?_, fun h => htrap (by rw [hw, h]; rfl)⟩
    obtain ⟨h1, h2, h3, h4⟩ := setPart_written hr
    exact ⟨_, hok (by rw [hw, h]; rfl), h1, h2, h3, h4⟩
  · obtain ⟨x, hw, hr⟩ := regWrite_dieReg hn hv
    refine ⟨fun h => ?_, fun h => htrap (by rw [hw, h]; rfl)⟩
    obtain ⟨h1, h2, h3, h4⟩ := setDie_written hr
    exact ⟨_, hok (by rw [hw, h]; rfl), h1, h2, h3, h4⟩
  · have hw : s.regWrite n.val (s.me.sreg a.val) = okIf (decide (1000 ≤ (s.me.sreg a.val).toNat % 2 ^ 24))
        { s with frameTicksNew := some ((s.me.sreg a.val).toNat % 2 ^ 24) } := by
      have hb : bits (s.me.sreg a.val) 23 0 = (s.me.sreg a.val).toNat % 2 ^ 24 := by unfold bits; omega
      rw [hn, ← hb]
      rfl
    exact ⟨fun h => hok (by rw [hw, decide_eq_true h]; rfl), fun h => htrap (by rw [hw, decide_eq_false (by omega)]; rfl)⟩
  · have hw : s.regWrite n.val (s.me.sreg a.val) = okIf (decide (6 ≤ (s.me.sreg a.val).toNat % 32 ∧ (s.me.sreg a.val).toNat % 32 ≤ 14))
        { s with svqBase := s.me.sreg a.val } := by
      rw [hn, ← lgIn_eq]
      rfl
    exact ⟨fun h h' => hok (by rw [hw, decide_eq_true ⟨h, h'⟩]; rfl), fun h => htrap (by rw [hw, decide_eq_false (by omega)]; rfl)⟩
  · refine hok ?_
    rw [hn]
    refine congrArg (fun x => Res.ok { s with svqTail := x }) ?_
    apply BitVec.eq_of_toNat_eq
    simp [Nat.shiftRight_eq_div_pow]
  · have hw : s.regWrite n.val (s.me.sreg a.val) =
        .ok (if bit (s.me.sreg a.val) 2 then s.setFlash e { s.flash e with overrun := false } else s) := by
      rw [hn]
      interval_cases e <;> rfl
    have hbit : bit (s.me.sreg a.val) 2 = (s.me.sreg a.val).getLsbD 2 := by
      rw [bit, BitVec.getLsbD, Nat.testBit_eq_decide_div_mod_eq]
      rfl
    refine ⟨_, hok hw, rfl, ?_⟩
    rw [hbit]
    split
    next h =>
      refine ⟨rfl, ?_, fun d hd => State.die_setDie_other _ _ (Ne.symm hd)⟩
      rw [State.flash, State.die_mark, State.setFlash, State.die_setDie_same, h]
      simp
    next h =>
      refine ⟨rfl, ?_, fun d _ => rfl⟩
      rw [Bool.eq_false_of_not_eq_true h, Bool.not_false, Bool.and_true]
      rfl
  · rcases hn with ⟨h, hl⟩ | ⟨h1, h2, hl⟩ | ⟨h, hl⟩
    · obtain ⟨rfl, rfl⟩ := Prod.mk.inj hl
      have hread (u : State) : u.regRead n.val = tgetD u.hclass (n.val - 0x110) 0 := by
        unfold State.regRead
        dsimp only
        rw [if_neg (by omega), if_neg (by omega), if_neg (by omega), if_pos (by omega)]
      have hw : s.regWrite n.val (s.me.sreg a.val) = .ok { s with
          hclass := tput 0 s.hclass (n.val - 0x110) (tgetD s.hclass (n.val - 0x110) 0 &&& ~~~(s.me.sreg a.val &&& BitVec.ofNat 64 (span 63 32))) } := by
        unfold State.regWrite State.unitWrite
        rw [if_neg (by omega), if_neg (by omega), if_pos (by omega), if_neg (by omega), if_pos (by omega)]
      refine ⟨_, hok hw, rfl, rfl, fun b hb h64 => ?_⟩
      rw [hread, hread, State.mark_hclass, tgetD_tput_same, BitVec.getLsbD_and, BitVec.getLsbD_not, BitVec.getLsbD_and, BitVec.getLsbD_ofNat,
        testBit_span (by decide), decide_eq_true h64, decide_eq_true hb, decide_eq_true (show b ≤ 63 by omega)]
      simp
    · obtain ⟨rfl, rfl⟩ := Prod.mk.inj hl
      have hd : n.val / 8 = 0x2C := by omega
      have hread (u : State) : u.regRead n.val = (u.die (n.val % 8)).hbmErr := by
        obtain ⟨m, hm⟩ := n
        dsimp only at h1 h2 ⊢
        interval_cases m <;> rfl
      have hw : s.regWrite n.val (s.me.sreg a.val) = .ok (s.setDie (n.val % 8) { s.die (n.val % 8) with
          errCorrected := (s.die (n.val % 8)).errCorrected &&& ~~~((s.me.sreg a.val).extractLsb' 32 32) }) := by
        unfold State.regWrite State.dieWrite
        rw [if_neg (by omega), if_neg (by omega), if_neg (by omega), if_pos (by omega), hd]
        rfl
      refine ⟨_, hok hw, rfl, rfl, fun b hb h64 => ?_⟩
      rw [hread, hread, State.die_mark, State.die_setDie_same, hbmErr_getLsbD _ hb h64, hbmErr_getLsbD _ hb h64, BitVec.getLsbD_and, BitVec.getLsbD_not,
        BitVec.getLsbD_extractLsb', decide_eq_true (show b - 32 < 32 by omega), Nat.add_sub_cancel' hb]
      rfl
    · obtain ⟨rfl, rfl⟩ := Prod.mk.inj hl
      have hw : s.regWrite n.val (s.me.sreg a.val) = .ok (s.setPart (n.val % 16) { s.part (n.val % 16) with
          slipTail := (s.me.sreg a.val).extractLsb' 40 24, slipLost := (s.part (n.val % 16)).slipLost &&& ~~~((s.me.sreg a.val).setWidth 16) }) := by
        rw [regWrite_part (by omega) (by omega), State.partWrite, h]
        rfl
      refine ⟨_, hok hw, rfl, rfl, fun b _ hb => ?_⟩
      rw [regRead_part (by omega) (by omega), regRead_part (by omega) (by omega), h, State.part_mark, State.part_setPart_same]
      refine (slipPtr_getLsbD _ hb).trans ?_
      rw [BitVec.getLsbD_and, BitVec.getLsbD_not, BitVec.getLsbD_setWidth, decide_eq_true hb, Bool.true_and, Bool.true_and]
      exact congrArg (· && _) (slipPtr_getLsbD _ hb).symm
end Sys2Proof.Machine
end

section
/-! Proofs about the tag table, WAITC, DRAIN and FENCE (R142, R143, R155, R156, R168). -/
namespace Sys2Proof.Machine
open Sys2Proof

/-! ### The tag table (R155, R156) -/

theorem tget_tdel {α : Type} (t : Tbl α) (k j : Nat) : tget (tdel t k) j = if j = k then none else tget t j := by
  split
  next h => rw [h, tget_tdel_same]
  next h => exact tget_tdel_other t (Ne.symm h)

theorem tagOf_eq (va : W64) : tagOf va = BitVec.ofNat 45 (va.toNat / 4096) := by
  apply BitVec.eq_of_toNat_eq
  rw [tagOf, BitVec.toNat_ofNat, BitVec.toNat_ofNat, bits]
  omega
theorem carve_eq (k : Core) : k.carve = (k.priv + 4095) / 4096 := by
  unfold Core.carve cdiv
  omega
theorem immB_val (k : Fin 1024) (l : Lent) : immB k l = k.val + 1024 * (l.elim 0 (·.val)) := immB_eq k l

/-- A tag's slot is one of the usable entries that hold it. -/
theorem tagSlot_spec (k : Core) (t : BitVec 45) :
    (∃ j, ((j, t) ∈ k.tags ∧ j + k.carve < 192) ∧ k.tagSlot t = some j) ∨ ((∀ j, ¬ ((j, t) ∈ k.tags ∧ j + k.carve < 192)) ∧ k.tagSlot t = none) := by
  unfold Core.tagSlot
  cases h : k.tags.find? fun e => e.2 == t && decide (e.1 + k.carve < 192) with
  | some e =>
    obtain ⟨j, u⟩ := e
    have hp := List.find?_some h
    simp only [Bool.and_eq_true, beq_iff_eq, decide_eq_true_eq] at hp
    obtain ⟨rfl, hj⟩ := hp
    exact .inl ⟨j, ⟨List.mem_of_find?_eq_some h, hj⟩, rfl⟩
  | none =>
    refine .inr ⟨fun j ⟨hm, hj⟩ => ?_, rfl⟩
    have := List.find?_eq_none.1 h _ hm
    simp [hj] at this
theorem tagRival_eq_true {k : Core} {t : BitVec 45} {n : Nat} : k.tagRival t n = true ↔ ∃ j, j ≠ n ∧ (j, t) ∈ k.tags ∧ j + k.carve < 192 := by
  unfold Core.tagRival
  rw [List.any_eq_true]
  constructor
  · rintro ⟨⟨j, u⟩, hm, hp⟩
    simp only [Bool.and_eq_true, beq_iff_eq, decide_eq_true_eq, bne_iff_ne] at hp
    obtain ⟨⟨rfl, hj⟩, hn⟩ := hp
    exact ⟨j, hn, hm, hj⟩
  · rintro ⟨j, hn, hm, hj⟩
    exact ⟨(j, t), hm, by simp [hj, hn]⟩

/-- Settles O23: TAGQ finds a usable slot, TAGSET writes an unrivalled one, TAGCLR takes entries out. -/
theorem tagTable : Obligations.TagTable := by
  unfold Obligations.TagTable
  intro s
  refine ⟨fun d a l hc => ?_, fun a k l hc => ?_, fun k l hc => ?_⟩
  · refine ⟨_, meaning_ok hc, ?_⟩
    rw [tagOf_eq]
    rcases tagSlot_spec s.me (BitVec.ofNat 45 ((s.me.sreg a.val).toNat / 4096)) with ⟨j, hj, he⟩ | ⟨hn, he⟩
    · exact .inl ⟨j, hj, by rw [he]⟩
    · exact .inr ⟨hn, by rw [he]⟩
  · have he : exec (.tagset a k l) s = meaning (.tagset a k l) 1 s (if 192 ≤ immB k l + s.me.carve ∨ s.me.tagRival (tagOf (s.me.sreg a.val)) (immB k l)
        then fault invalidOperand else .ok (s.setMe { s.me with tags := tset s.me.tags (immB k l) (tagOf (s.me.sreg a.val)) })) := rfl
    rw [immB_val, carve_eq, tagOf_eq] at he
    have hrival : s.me.tagRival (BitVec.ofNat 45 ((s.me.sreg a.val).toNat / 4096)) (k.val + 1024 * (l.elim 0 (·.val))) = true ↔ _ := tagRival_eq_true
    refine ⟨fun hn hr => ?_, fun h => ?_⟩
    · rw [if_neg (not_or.2 ⟨by omega, mt hrival.1 fun ⟨j, hj, hm, hl⟩ => hj (hr j hm hl)⟩), meaning_ok hc] at he
      refine ⟨_, he, rfl, (setMe_onlyCore _ _).mark _, ?_⟩
      rw [State.me_mark, State.setMe_eq, State.me_setCore]
      exact ⟨rfl, fun j => tget_tset ..⟩
    · exact fault_Traps hc (by decide) (by decide) (by decide) (he.trans (congrArg _ (if_pos (h.imp_right hrival.2))))
  · have he : exec (.tagclr k l) s = meaning (.tagclr k l) 1 s (if immB k l = 1023 then .ok (s.setMe { s.me with tags := [] })
        else if 192 ≤ immB k l then fault invalidOperand else .ok (s.setMe { s.me with tags := tdel s.me.tags (immB k l) })) := rfl
    rw [immB_val] at he
    refine ⟨fun h => ?_, fun h1 h2 => fault_Traps hc (by decide) (by decide) (by decide) (he.trans (congrArg _ (by rw [if_neg h1, if_pos h2]; rfl)))⟩
    by_cases hn : k.val + 1024 * (l.elim 0 (·.val)) = 1023
    · rw [if_pos hn, meaning_ok hc] at he
      refine ⟨_, he, rfl, (setMe_onlyCore _ _).mark _, ?_⟩
      rw [State.me_mark, State.setMe_eq, State.me_setCore]
      exact ⟨rfl, fun j => (if_pos (.inl hn)).symm⟩
    · rw [if_neg hn, if_neg (by omega), meaning_ok hc] at he
      refine ⟨_, he, rfl, (setMe_onlyCore _ _).mark _, ?_⟩
      rw [State.me_mark, State.setMe_eq, State.me_setCore]
      exact ⟨rfl, fun j => (tget_tdel ..).trans (if_congr (by simp [hn]) rfl rfl)⟩

/-! ### WAITC, DRAIN and FENCE (R142, R143, R168) -/

/-- A slot that holds its bundle leaves the state it has noted its wait in. -/
theorem meaning_holds {i : Instr} {n : Nat} {s t : State} (h : Clear i s) : meaning i n s (.hold t) = .next (t.mark .held) := meaning_hold h

theorem waitsFor_false (s : State) : s.waitsFor false = false := rfl
theorem waitsFor_true {s : State} (h : s.issue = .idle) : s.waitsFor true = true := by
  rw [State.waitsFor, h]
  rfl

/-- Settles O29: each of the three waits by its condition. -/
theorem counterWaits : Obligations.CounterWaits := by
  unfold Obligations.CounterWaits
  intro s
  have hf (c : Fin 8) : exec (.fence c) s = meaning (.fence c) 3 s (if s.waitsFor (s.unperformed c.val s.cur) then s.releaseHold else .ok s) := rfl
  refine ⟨fun st h n hc => ?_, fun h c hc hm he => ?_, fun c hc h3 h2 => ?_, fun c hc h hi => ?_⟩
  · have he : exec (.waitc st h n) s = meaning (.waitc st h n) 0 s (waitcEffect s h n) := rfl
    unfold waitcEffect at he
    dsimp only at he
    refine ⟨fun h0 => ?_, fun h0 hv => ?_, fun hv => ?_⟩
    · rw [he, if_pos h0, meaning_ok hc]
    · rw [if_neg h0, if_neg (by omega), meaning_ok hc] at he
      refine ⟨_, he, rfl, (setMe_onlyCore _ _).mark _, ?_⟩
      rw [State.me_mark, State.setMe_eq, State.me_setCore]
      exact ⟨rfl, fun j => (tgetD_tput ..).trans (if_congr eq_comm rfl rfl)⟩
    · rw [he, if_neg (by omega), if_pos hv, meaning_hold hc]
  · have hout : ((tgetD (s.quad s.myQuad).chans h.val []).any fun m => m.core == s.cur && !m.done) = false := by
      rw [List.any_eq_false]
      intro m hmem
      simp only [Bool.and_eq_true, beq_iff_eq, Bool.not_eq_true', not_and, Bool.not_eq_false]
      exact hm m hmem
    have heng : (decide (3 ≤ c.val) && s.engOut s.cur (1 + h.val)) = false := by
      rw [Bool.and_eq_false_imp]
      exact fun h => he (of_decide_eq_true h)
    have hd : drainEffect s h c = .ok s := by
      unfold drainEffect
      dsimp only
      rw [hout, heng]
      rfl
    exact (congrArg (meaning (.drain h c) 3 s) hd).trans (meaning_ok hc)
  · have hu : s.unperformed c.val s.cur = false := by
      rw [State.unperformed, Bool.or_eq_false_iff, Bool.and_eq_false_imp, Bool.and_eq_false_imp]
      exact ⟨fun h => h3 (of_decide_eq_true h), fun h => h2 (of_decide_eq_true h)⟩
    rw [hf, hu, waitsFor_false, if_neg Bool.false_ne_true, meaning_ok hc]
  · have hu : s.unperformed c.val s.cur = true := by
      rw [State.unperformed, Bool.or_eq_true, Bool.and_eq_true, Bool.and_eq_true, decide_eq_true_iff, decide_eq_true_iff]
      exact h
    rw [hf, hu, waitsFor_true hi, if_pos rfl, State.releaseHold, meaning_hold hc]
end Sys2Proof.Machine
end

section
/-! Proofs about what a load notes, and LD and LDB (R162, R165). -/
namespace Sys2Proof.Machine
open Sys2Proof

/-! ### What a load notes (R120 to R122, R290, R386) -/

theorem tget_map {α β : Type} (f : α → β) (t : Tbl α) (k : Nat) : tget (t.map fun e => (e.1, f e.2)) k = (tget t k).map f := by
  induction t with
  | nil => rfl
  | cons e t ih =>
    rw [List.map_cons, tget_cons, tget_cons, ih]
    split <;> rfl
theorem tgetD_map {α β : Type} (f : α → β) (t : Tbl α) (k : Nat) (d : α) : tgetD (t.map fun e => (e.1, f e.2)) k (f d) = f (tgetD t k d) := by
  rw [tgetD, tgetD, tget_map]
  cases tget t k <;> rfl

namespace Noted
theorem refl (s : State) : Spec.Noted s s := ⟨rfl, fun _ => ⟨.inl, fun h => h.elim id And.left⟩, fun _ => rfl, fun _ => rfl⟩
theorem trans {s t u : State} (h : Spec.Noted s t) (g : Spec.Noted t u) : Spec.Noted s u := by
  have hc : t.clk = s.clk := by rw [h.rest]
  refine ⟨by rw [g.rest, h.rest], fun e => ⟨fun he => ?_, fun he => he.elim (fun he => (g.events e).2 (.inl ((h.events e).2 (.inl he)))) And.left⟩,
    fun d => by rw [g.dies, h.dies], fun d => (g.passes d).trans (h.passes d)⟩
  rcases (g.events e).1 he with ht | ⟨-, hx⟩
  · exact ((h.events e).1 ht).imp_right fun h => ⟨he, h.2⟩
  · exact .inr ⟨he, hc ▸ hx⟩
theorem foldl {α : Type} {f : State → α → State} : ∀ (l : List α) (s : State), (∀ a, a ∈ l → ∀ s, Spec.Noted s (f s a)) → Spec.Noted s (l.foldl f s)
  | [], s, _ => refl s
  | a :: l, s, h => trans (h a (.head _) s) (foldl l _ fun b hb => h b (.tail _ hb))
variable {s t : State} (h : Spec.Noted s t)
include h
theorem cores : t.cores = s.cores := by rw [h.rest]
theorem me : t.me = s.me := by rw [h.rest]; rfl
theorem cur : t.cur = s.cur := by rw [h.rest]
end Noted

/-- A routing pass that notes an access of partition p to words of its histogram, and its die. -/
def RteCmd.noting (p va n : Nat) (m : RteCmd) : RteCmd := if m.touched p va n then { m with touches := m.touches ++ [(va, n)] } else m
def Die.noting (p va n : Nat) (x : Die) : Die := { x with rte := x.rte.map (RteCmd.noting p va n) }
theorem noteHist_dies (s : State) (va n : Nat) : s.noteHist va n =
    if s.dies.any fun d => d.2.rte.any fun m => m.touched s.myPart va n then
      { s with dies := s.dies.map fun d => (d.1, d.2.noting s.myPart va n) } else s := rfl
theorem noting_touches (p va n : Nat) (m : RteCmd) : { m.noting p va n with touches := [] } = { m with touches := [] } := by
  unfold RteCmd.noting
  split <;> rfl
theorem noteHist_noted (s : State) (va n : Nat) : Spec.Noted s (s.noteHist va n) := by
  rw [noteHist_dies]
  split
  · have hd (d : Nat) : State.die { s with dies := s.dies.map fun d => (d.1, d.2.noting s.myPart va n) } d = (s.die d).noting s.myPart va n :=
      tgetD_map (Die.noting s.myPart va n) s.dies d {}
    refine ⟨rfl, fun e => ⟨.inl, fun h => h.elim id And.left⟩, fun d => by rw [hd]; rfl, fun d => ?_⟩
    rw [hd]
    exact (List.map_map ..).trans (List.map_congr_left fun m _ => noting_touches ..)
  · exact Noted.refl s
theorem noteLoads_noted (s : State) (ls : List (Nat × Nat)) : Spec.Noted s (s.noteLoads ls) := Noted.foldl ls s fun _ _ s => noteHist_noted s _ _
theorem reach_noted (s : State) (pa : Nat) : Spec.Noted s (s.reach pa) := by
  unfold State.reach
  dsimp only
  split
  · exact Noted.refl s
  split
  · refine ⟨rfl, fun e => ⟨fun he => ?_, fun he => he.elim (fun he => mem_schedule.2 (.inr he)) And.left⟩, fun _ => rfl, fun _ => rfl⟩
    exact (mem_schedule.1 he).symm.imp_right fun h => ⟨he, _, _, _, h⟩
  · exact ⟨rfl, fun e => ⟨.inl, fun h => h.elim id And.left⟩, fun _ => rfl, fun _ => rfl⟩
theorem touch_noted (s : State) (pa n : Nat) : Spec.Noted s (s.touch pa n) := by
  unfold State.touch
  dsimp only
  split
  · exact Noted.refl s
  split
  · exact reach_noted s pa
  · refine Noted.trans (reach_noted s pa) ⟨rfl, fun e => ⟨.inl, fun h => h.elim id And.left⟩, fun d => ?_, fun d => ?_⟩
    · rw [State.die_setDie]
      split
      next h => subst h; rfl
      · rfl
    · rw [State.die_setDie]
      split
      next h => subst h; rfl
      · rfl
theorem noteTraffic_noted (s : State) (c pa n : Nat) : Spec.Noted s (s.noteTraffic c pa n) := by
  unfold State.noteTraffic
  split
  · exact Noted.refl s
  · exact ⟨rfl, fun e => ⟨.inl, fun h => h.elim id And.left⟩, fun _ => rfl, fun _ => rfl⟩
/-- The counts of accesses to the physical map read no flash. -/
theorem countPlaces_noted (s : State) (c : Nat) (ps : List (Place × Nat)) (h : ∀ p, p ∈ ps → ∃ pa, p.1 = .phys pa) : Spec.Noted s (s.countPlaces c ps) := by
  unfold State.countPlaces
  dsimp only
  rw [List.filterMap_eq_nil_iff.2 fun p hp => by obtain ⟨pa, hpa⟩ := h p hp; rw [hpa]]
  refine Noted.foldl ps s fun p hp s => ?_
  obtain ⟨pa, hpa⟩ := h p hp
  rw [hpa]
  exact Noted.trans (noteTraffic_noted ..) (touch_noted ..)
theorem counted_noted (s : State) (c : Nat) (xs : List (List Byte × W64 × Place)) (h : ∀ x, x ∈ xs → ∃ pa, x.2.2 = .phys pa) :
    Spec.Noted s (s.counted c xs) := by
  refine countPlaces_noted s c _ fun p hp => ?_
  obtain ⟨x, hx, rfl⟩ := List.mem_map.1 hp
  exact h x hx

/-! ### Reads of the physical map -/

theorem readVa_phys {s : State} {va : W64} {n pa : Nat} {leaf : W64} (ht : s.translate s.ctx .load va = .at_ (.phys pa) leaf) (h : Spec.sound s pa n) :
    s.readVa .load va n = .ok (Spec.bytesAt s s.cur pa n, leaf, .phys pa) := by
  unfold State.readVa
  rw [ht]
  dsimp only
  rw [readAt_phys h]
theorem readVa_fail {s : State} {va : W64} {n c : Nat} (ht : s.translate s.ctx .load va = .fail c) :
    s.readVa .load va n = .stop (fault translation c va) := by
  unfold State.readVa
  rw [ht]
  rfl
/-- Lines that all translate to sound places of the physical map. -/
theorem readLines_phys {α : Type} {s : State} (f : α → W64 × Nat) (pa : α → Nat) (leaf : α → W64) : ∀ ls : List α,
    (∀ x, x ∈ ls → s.translate s.ctx .load (f x).1 = .at_ (.phys (pa x)) (leaf x) ∧ Spec.sound s (pa x) (f x).2) →
    s.readLines (ls.map f) = .ok (ls.map fun x => (Spec.bytesAt s s.cur (pa x) (f x).2, leaf x, .phys (pa x)))
  | [], _ => rfl
  | x :: ls, h => by
    obtain ⟨ht, hs⟩ := h x (.head _)
    rw [List.map_cons, List.map_cons]
    generalize hfx : f x = w at ht hs
    obtain ⟨va, n⟩ := w
    unfold State.readLines
    rw [readVa_phys ht hs]
    dsimp only
    rw [readLines_phys f pa leaf ls fun y hy => h y (.tail _ hy)]

theorem activeBelow_pos {p : Pred} {c : Nat} : ∀ n, 0 < activeBelow p c n ↔ ∃ l, l < n ∧ p.getLsbD (16 * c + l) = true
  | 0 => by simp [activeBelow]
  | n + 1 => by
    rw [activeBelow]
    constructor
    · intro h
      by_cases hn : p.getLsbD (16 * c + n) = true
      · exact ⟨n, Nat.lt_succ_self n, hn⟩
      · rw [if_neg hn, Nat.zero_add] at h
        obtain ⟨l, hl, hp⟩ := (activeBelow_pos n).1 h
        exact ⟨l, Nat.lt_succ_of_lt hl, hp⟩
    · rintro ⟨l, hl, hp⟩
      rcases Nat.lt_succ_iff_lt_or_eq.1 hl with h | rfl
      · exact Nat.add_pos_right _ ((activeBelow_pos n).2 ⟨l, h, hp⟩)
      · rw [if_pos hp]
        omega
theorem anyLane_iff {p : Pred} {c : Nat} : anyLane p c = true ↔ ∃ l, l < 16 ∧ p.getLsbD (16 * c + l) = true := by
  rw [anyLane, decide_eq_true_iff, activeBelow_pos]

theorem ptest_eq (k : Core) (p : Nat) : k.ptest p = (k.preg p).getLsbD 0 := rfl

/-- Settles O16: LD and LDB by their predicate, the alignment of their address, and where it translates. -/
theorem singleLoads : Obligations.SingleLoads := by
  unfold Obligations.SingleLoads
  constructor
  · intro d b p z o l s hc
    have he : exec (.ld d b p z o l) s = meaning (.ld d b p z o l) 1 s (loadScalar s d b p z o l) := rfl
    unfold loadScalar at he
    dsimp only at he
    rw [ptest_eq] at he
    rw [address_eq]
    refine ⟨fun hp => ?_, fun hp ha => ?_, fun hp ha pa leaf ht hs => ?_, fun hp ha c ht hcl => ?_⟩
    · rw [he, hp, Bool.not_false, if_pos rfl, meaning_ok hc]
    · refine fault_Traps hc (by decide) (by decide) (by decide) (he.trans (congrArg _ ?_))
      rw [hp, Bool.not_true, if_neg Bool.false_ne_true, if_pos ha]
      rfl
    · rw [hp, Bool.not_true, if_neg Bool.false_ne_true, if_neg (not_not.2 ha), readVa_phys ht hs] at he
      dsimp only at he
      rw [meaning_ok hc, leNat_eq] at he
      refine ⟨_, Noted.trans (noteHist_noted ..) (countPlaces_noted _ _ _ fun x hx => ?_), he⟩
      exact ⟨pa, by rw [List.mem_singleton.1 hx]⟩
    · refine fault_Traps hc (by decide) hcl (by decide) (he.trans (congrArg _ ?_))
      rw [hp, Bool.not_true, if_neg Bool.false_ne_true, if_neg (not_not.2 ha), readVa_fail ht]
      rfl
  · intro d b p z o l s hc
    have he : exec (.ldb d b p z o l) s = meaning (.ldb d b p z o l) 1 s (loadBroadcast s d b p z o l) := rfl
    unfold loadBroadcast at he
    dsimp only at he
    rw [address_eq]
    have hon : ((List.range s.me.ctxExtent.2).any fun j => anyLane (s.me.preg p.val) (s.me.ctxExtent.1 + j)) = true ↔
        ∃ j l, j < s.me.ctxExtent.2 ∧ l < 16 ∧ (s.me.preg p.val).getLsbD (16 * (s.me.ctxExtent.1 + j) + l) = true := by
      rw [List.any_eq_true]
      simp only [List.mem_range, anyLane_iff, exists_and_left]
    dsimp only
    refine ⟨fun h => ?_, fun h ha => ?_, fun h ha pa leaf ht hs => ?_⟩
    · rw [he, Bool.eq_false_of_not_eq_true (mt hon.1 h), Bool.not_false, if_pos rfl, meaning_ok hc]
    · refine fault_Traps hc (by decide) (by decide) (by decide) (he.trans (congrArg _ ?_))
      rw [hon.2 h, Bool.not_true, if_neg Bool.false_ne_true, if_pos ha]
      rfl
    · rw [hon.2 h, Bool.not_true, if_neg Bool.false_ne_true, if_neg (not_not.2 ha), readVa_phys ht hs] at he
      dsimp only at he
      rw [meaning_ok hc, leNat_eq] at he
      refine ⟨_, _, Noted.trans (noteHist_noted ..) (countPlaces_noted _ _ _ fun x hx => ?_), he, ?_, fun j l hj hl => ?_⟩
      · exact ⟨pa, by rw [List.mem_singleton.1 hx]⟩
      · rw [List.length_map, List.length_range]
      · rw [List.getD_eq_getElem _ _ (by rw [List.length_map, List.length_range]; exact hj), List.getElem_map, lane_rowOf _ hl]
end Sys2Proof.Machine
end

section
/-! Proofs about SHAPE and LDG (R133, R164). -/
namespace Sys2Proof.Machine
open Sys2Proof

/-! ### SHAPE (R133) -/

theorem countSpan_line {s : State} {va : W64} {pa : Nat} {leaf : W64} (ht : s.translate s.ctx .load va = .at_ (.phys pa) leaf) (h : Spec.sound s pa 64) :
    Spec.Noted s (s.countSpan va 64) := by
  have hl := readLines_phys (s := s) (fun _ : Unit => (va, 64)) (fun _ => pa) (fun _ => leaf) [()] fun _ _ => ⟨ht, h⟩
  have hr : (List.range (cdiv 64 64)).map (fun i => (va + BitVec.ofNat 64 (64 * i), min 64 (64 - 64 * i))) = [(va, 64)] := by
    rw [show cdiv 64 64 = 1 from rfl]
    exact congrArg (fun x => [(x, 64)]) (BitVec.add_zero va)
  unfold State.countSpan
  rw [hr, show [(va, 64)] = [()].map (fun _ => (va, 64)) from rfl, hl]
  exact counted_noted _ _ _ fun x hx => ⟨pa, by rw [List.mem_singleton.1 hx]⟩

theorem shapeEffect_line {s : State} {a : Fin 64} {k : Fin 16} {pa : Nat} {leaf : W64} (ha : (s.me.sreg a.val).toNat % 64 = 0)
    (ht : s.translate s.ctx .load (s.me.sreg a.val) = .at_ (.phys pa) leaf) (h : Spec.sound s pa 64) :
    (shapeOf (Spec.bytesAt s s.cur pa 64) = none → shapeEffect s a k = fault invalidOperand)
    ∧ ∀ x, shapeOf (Spec.bytesAt s s.cur pa 64) = some x → shapeEffect s a k = .ok ((s.countSpan (s.me.sreg a.val) 64).setMe { s.me with
        shapes := tset s.me.shapes k.val x, shapeOld := tset s.me.shapeOld k.val (s.me.bid, tget s.me.shapes k.val)
        shapeAt := tset s.me.shapeAt k.val (s.clk + s.loadLatency (.phys pa)) }) := by
  unfold shapeEffect
  dsimp only
  rw [if_neg (not_not.2 ha), readVa_phys ht h]
  dsimp only
  constructor
  · intro hn
    rw [hn]
  · intro x hx
    rw [hx]

/-- Settles O28: SHAPE by the alignment of its record and by whether its fields are in range. -/
theorem shapeLoads : Obligations.ShapeLoads := by
  unfold Obligations.ShapeLoads
  intro a k l s hc
  have he {r : Res} (h : shapeEffect s a k = r) : exec (.shape a k l) s = meaning (.shape a k l) 1 s r := congrArg (meaning (.shape a k l) 1 s) h
  refine ⟨fun ha => ?_, fun ha pa leaf ht hs => ⟨fun x hx => ?_, fun hx => ?_⟩⟩
  · refine fault_Traps hc (by decide) (by decide) (by decide) (he ?_)
    unfold shapeEffect
    dsimp only
    rw [if_pos ha]
    rfl
  · have hn := countSpan_line ht hs
    refine ⟨_, _, hn, (he ((shapeEffect_line ha ht hs).2 x hx)).trans (meaning_ok hc), rfl, (setMe_onlyCore _ _).mark _, ?_⟩
    rw [State.me_mark, State.setMe_eq, State.me_setCore]
    exact ⟨rfl, fun j => tget_tset .., fun j hj => tget_tset_other _ _ (Ne.symm hj)⟩
  · exact fault_Traps hc (by decide) (by decide) (by decide) (he ((shapeEffect_line ha ht hs).1 hx))

/-! ### The lanes of LDG and STS (R164) -/

theorem filterMap_ite {α β : Type} (p : α → Bool) (f : α → β) (l : List α) :
    (l.filterMap fun x => if p x = true then some (f x) else none) = (l.filter p).map f := by
  induction l with
  | nil => rfl
  | cons x l ih =>
    rw [List.filterMap_cons, List.filter_cons, ih]
    cases p x <;> rfl
theorem find?_unique {α : Type} {p : α → Bool} {l : List α} {x : α} (hm : x ∈ l) (hp : p x = true) (hu : ∀ y, y ∈ l → p y = true → y = x) :
    l.find? p = some x := by
  cases h : l.find? p with
  | none => exact absurd hp (List.find?_eq_none.1 h x hm)
  | some y => rw [hu y (List.mem_of_find?_eq_some h) (List.find?_some h)]

/-- The address that LDG and STS give lane q, counted from the first of cluster cs. -/
def laneVa (s : State) (a b : Fin 64) (sc : Fin 4) (q : Nat) : W64 :=
  BitVec.ofNat 64 ((s.me.sreg a.val).toNat + (lane (s.me.vreg b.val (s.me.ctxExtent.1 + q / 16)) (q % 16)).toNat * 2 ^ sc.val)
/-- Whether a predicate leaves lane q of a block on, counted from the first of cluster cs. -/
def laneOn (s : State) (p : Fin 8) (q : Nat) : Bool := (s.me.preg p.val).getLsbD (16 * (s.me.ctxExtent.1 + q / 16) + q % 16)
/-- The lanes that are on. -/
def lanesOn (s : State) (p : Fin 8) : List Nat := (List.range (16 * s.me.ctxExtent.2)).filter (laneOn s p)

theorem laneVa_eq (s : State) (a b : Fin 64) (sc : Fin 4) (q : Nat) : s.me.sreg a.val
    + ((lane (s.me.vreg b.val (s.me.ctxExtent.1 + q / 16)) (q % 16)).zeroExtend 64 <<< sc.val) = laneVa s a b sc q := by
  apply BitVec.eq_of_toNat_eq
  rw [laneVa, BitVec.toNat_add, BitVec.toNat_ofNat, BitVec.toNat_shiftLeft, BitVec.zeroExtend, BitVec.toNat_setWidth, Nat.shiftLeft_eq,
    Nat.mod_eq_of_lt (Nat.lt_of_lt_of_le (BitVec.isLt _) (by decide)), Nat.add_mod_mod]
theorem laneAddrs_eq (s : State) (a b : Fin 64) (p : Fin 8) (sc : Fin 4) :
    s.laneAddrs a b p sc = (lanesOn s p).map fun q => (s.me.ctxExtent.1 + q / 16, q % 16, laneVa s a b sc q) := by
  unfold State.laneAddrs
  dsimp only
  simp only [laneVa_eq]
  exact filterMap_ite (laneOn s p) _ _
theorem elemN_eq (e : Fin 4) : elemN e = if e.val = 0 then 4 else if e.val = 1 then 2 else 1 := by
  revert e
  decide
theorem mem_lanesOn {s : State} {p : Fin 8} {q : Nat} : q ∈ lanesOn s p ↔ q < 16 * s.me.ctxExtent.2 ∧ laneOn s p q = true := by
  rw [lanesOn, List.mem_filter, List.mem_range]

/-- The lowest lane that is on and misaligned decides. -/
theorem misaligned_first {s : State} {a b : Fin 64} {p : Fin 8} {sc : Fin 4} {n q : Nat} (hq : q ∈ lanesOn s p) (hm : (laneVa s a b sc q).toNat % n ≠ 0)
    (hf : ∀ r, r ∈ lanesOn s p → r < q → (laneVa s a b sc r).toNat % n = 0) : misaligned n (s.laneAddrs a b p sc) = some (laneVa s a b sc q) := by
  obtain ⟨hlt, hon⟩ := mem_lanesOn.1 hq
  rw [laneAddrs_eq, misaligned, List.find?_map, lanesOn, List.find?_filter, List.find?_range_eq_some.2]
  · rfl
  · refine ⟨by simp [hon, hm], List.mem_range.2 hlt, fun j hj => ?_⟩
    by_cases hoj : laneOn s p j = true
    · simp [hoj, hf j (mem_lanesOn.2 ⟨hj.trans hlt, hoj⟩) hj]
    · simp [hoj]
theorem misaligned_none {s : State} {a b : Fin 64} {p : Fin 8} {sc : Fin 4} {n : Nat}
    (h : ∀ r, r ∈ lanesOn s p → (laneVa s a b sc r).toNat % n = 0) : misaligned n (s.laneAddrs a b p sc) = none := by
  rw [laneAddrs_eq, misaligned, List.find?_map, List.find?_eq_none.2]
  · rfl
  · intro r hr
    simp [h r hr]

theorem maxLatency_ge (s : State) {xs : List (List Byte × W64 × Place)} {x : List Byte × W64 × Place} (h : x ∈ xs) :
    s.loadLatency x.2.2 ≤ s.maxLatency xs := by
  have key (l : List (List Byte × W64 × Place)) : ∀ m, m ≤ l.foldl (fun m x => max m (s.loadLatency x.2.2)) m
      ∧ ∀ y, y ∈ l → s.loadLatency y.2.2 ≤ l.foldl (fun m x => max m (s.loadLatency x.2.2)) m := by
    induction l with
    | nil => exact fun m => ⟨Nat.le_refl m, fun _ hy => nomatch hy⟩
    | cons z l ih =>
      intro m
      obtain ⟨h1, h2⟩ := ih (max m (s.loadLatency z.2.2))
      refine ⟨(Nat.le_max_left ..).trans h1, fun y hy => ?_⟩
      rcases List.mem_cons.1 hy with rfl | hy
      · exact (Nat.le_max_right ..).trans h1
      · exact h2 y hy
  exact (key xs 4).2 x h

/-- What LDG does where every lane that is on is aligned and translates to the physical map. -/
theorem loadGather_phys {s : State} {d a b : Fin 64} {p : Fin 8} {sc e : Fin 4} {pa : Nat → Nat} {leaf : Nat → W64} (hne : lanesOn s p ≠ [])
    (hal : ∀ q, q ∈ lanesOn s p → (laneVa s a b sc q).toNat % elemN e = 0)
    (ht : ∀ q, q ∈ lanesOn s p → s.translate s.ctx .load (laneVa s a b sc q) = .at_ (.phys (pa q)) (leaf q) ∧ Spec.sound s (pa q) (elemN e)) :
    ∃ data lat u, Spec.Noted s u
      ∧ loadGather s d a b p sc e = .ok (u.pend (blockKeys d.val 1 s.me.ctxExtent.1 s.me.ctxExtent.2)
          (some (.vec d.val 1 s.me.ctxExtent.1 s.me.ctxExtent.2 (s.me.preg p.val) data)) lat).2
      ∧ (∀ q, q ∈ lanesOn s p → s.loadLatency (.phys (pa q)) ≤ lat)
      ∧ ∀ q, q ∈ lanesOn s p → lane (data.getD (q / 16) 0) (q % 16) = BitVec.ofNat 32 (Spec.number (Spec.bytesAt s s.cur (pa q) (elemN e))) := by
  have hread := readLines_phys (s := s) (fun q => (laneVa s a b sc q, elemN e)) pa leaf (lanesOn s p) ht
  unfold loadGather
  dsimp only
  rw [misaligned_none hal]
  dsimp only
  rw [laneAddrs_eq, List.map_map, show (lanesOn s p).map ((fun x : Nat × Nat × W64 => (x.2.2, elemN e)) ∘ fun q =>
    (s.me.ctxExtent.1 + q / 16, q % 16, laneVa s a b sc q)) = (lanesOn s p).map fun q => (laneVa s a b sc q, elemN e) from rfl, hread]
  dsimp only
  rw [if_neg (by rw [List.isEmpty_map, List.isEmpty_iff]; exact hne), List.zip_map']
  refine ⟨_, _, _, Noted.trans (noteLoads_noted ..) (counted_noted _ _ _ fun x hx => ?_), rfl, fun q hq => ?_, fun q hq => ?_⟩
  · obtain ⟨q, _, rfl⟩ := List.mem_map.1 hx
    exact ⟨_, rfl⟩
  · exact maxLatency_ge s (x := (Spec.bytesAt s s.cur (pa q) (elemN e), leaf q, .phys (pa q))) (List.mem_map.2 ⟨q, hq, rfl⟩)
  · obtain ⟨hlt, _⟩ := mem_lanesOn.1 hq
    rw [List.getD_eq_getElem _ _ (by rw [List.length_map, List.length_range]; omega), List.getElem_map, List.getElem_range, lane_rowOf _ (Nat.mod_lt _ (by decide)),
      List.find?_map, find?_unique hq]
    · exact congrArg (BitVec.ofNat 32) (leNat_eq _)
    · simp
    · intro y _ hy
      simp only [Function.comp_apply, Bool.and_eq_true, beq_iff_eq] at hy
      omega

/-- Settles O18: LDG by its lanes that are on, their alignment, and where they translate. -/
theorem gatherLoads : Obligations.GatherLoads := by
  unfold Obligations.GatherLoads
  intro d a b p sc e s hc
  have he {r : Res} (h : loadGather s d a b p sc e = r) : exec (.ldg d a b p sc e) s = meaning (.ldg d a b p sc e) 1 s r :=
    congrArg (meaning (.ldg d a b p sc e) 1 s) h
  rw [← elemN_eq]
  dsimp only
  -- lane q of the block is lane q % 16 of cluster cs + q / 16
  have hdiv (j l : Nat) (hl : l < 16) : (16 * j + l) / 16 = j ∧ (16 * j + l) % 16 = l := by omega
  have hmem {j l : Nat} : (j < s.me.ctxExtent.2 ∧ l < 16 ∧ (s.me.preg p.val).getLsbD (16 * (s.me.ctxExtent.1 + j) + l) = true) ↔
      l < 16 ∧ 16 * j + l ∈ lanesOn s p := by
    rw [mem_lanesOn, laneOn]
    constructor
    · rintro ⟨hj, hl, hon⟩
      obtain ⟨h1, h2⟩ := hdiv j l hl
      exact ⟨hl, by omega, by rw [h1, h2]; exact hon⟩
    · rintro ⟨hl, hlt, hon⟩
      obtain ⟨h1, h2⟩ := hdiv j l hl
      rw [h1, h2] at hon
      exact ⟨by omega, hl, hon⟩
  have hva {j l : Nat} (hl : l < 16) : BitVec.ofNat 64 ((s.me.sreg a.val).toNat
      + (lane (s.me.vreg b.val (s.me.ctxExtent.1 + j)) l).toNat * 2 ^ sc.val) = laneVa s a b sc (16 * j + l) := by
    obtain ⟨h1, h2⟩ := hdiv j l hl
    rw [laneVa, h1, h2]
  have hsplit (q : Nat) : 16 * (q / 16) + q % 16 = q := by omega
  have hof {q : Nat} (hq : q ∈ lanesOn s p) : q / 16 < s.me.ctxExtent.2 ∧ q % 16 < 16
      ∧ (s.me.preg p.val).getLsbD (16 * (s.me.ctxExtent.1 + q / 16) + q % 16) = true :=
    hmem.2 ⟨by omega, by rw [hsplit]; exact hq⟩
  refine ⟨fun h => ?_, fun j l hon hm hf => ?_, fun ⟨j, l, hon⟩ hal pa leaf ht => ?_⟩
  · have hn : lanesOn s p = [] := List.eq_nil_iff_forall_not_mem.2 fun q hq => h _ _ (hof hq)
    have : loadGather s d a b p sc e = .ok s := by
      unfold loadGather
      dsimp only
      rw [misaligned_none fun r hr => absurd hr (by rw [hn]; exact List.not_mem_nil), laneAddrs_eq, hn]
      rfl
    rw [he this, meaning_ok hc]
  · obtain ⟨hl, hq⟩ := hmem.1 hon
    rw [hva hl] at hm ⊢
    refine fault_Traps hc (by decide) (by decide) (by decide) (he ?_)
    unfold loadGather
    dsimp only
    rw [misaligned_first hq hm fun r hr hlt => ?_]
    · rfl
    · have := hf _ _ (hof hr) (by omega)
      rwa [hva (by omega), hsplit] at this
  · obtain ⟨data, lat, u, hu, hx, hlat, hdata⟩ := loadGather_phys (s := s) (d := d) (a := a) (b := b) (p := p) (sc := sc) (e := e)
      (pa := fun q => pa (q / 16) (q % 16)) (leaf := fun q => leaf (q / 16) (q % 16)) (List.ne_nil_of_mem (hmem.1 hon).2)
      (fun q hq => by have := hal _ _ (hof hq); rwa [hva (by omega), hsplit] at this)
      (fun q hq => by have := ht _ _ (hof hq); rwa [hva (by omega), hsplit] at this)
    refine ⟨data, lat, u, hu, (he hx).trans (meaning_ok hc), fun j l hon => ?_, fun j l hon => ?_⟩
    · obtain ⟨hl, hq⟩ := hmem.1 hon
      obtain ⟨h1, h2⟩ := hdiv j l hl
      simpa only [h1, h2] using hlat _ hq
    · obtain ⟨hl, hq⟩ := hmem.1 hon
      obtain ⟨h1, h2⟩ := hdiv j l hl
      simpa only [h1, h2] using hdata _ hq
end Sys2Proof.Machine
end

section
/-! Proofs about LDV (R163, R196, R197). -/
namespace Sys2Proof.Machine
open Sys2Proof

/-! ### Numbers and the bytes that hold them (R2) -/

theorem leNat_append (a b : List Byte) : leNat (a ++ b) = leNat a + 256 ^ a.length * leNat b := by
  induction a with
  | nil => simp [leNat]
  | cons x a ih => rw [List.cons_append, leNat, leNat, ih, List.length_cons, Nat.pow_succ]; ring
theorem leNat_lt (b : List Byte) : leNat b < 256 ^ b.length := by
  induction b with
  | nil => exact Nat.one_pos
  | cons x b ih =>
    rw [leNat, List.length_cons, Nat.pow_succ]
    have := x.isLt
    omega
theorem leNat_take (b : List Byte) {k : Nat} (h : k ≤ b.length) : leNat (b.take k) = leNat b % 256 ^ k := by
  have hl := leNat_append (b.take k) (b.drop k)
  rw [List.take_append_drop, List.length_take, Nat.min_eq_left h] at hl
  rw [hl, Nat.add_mul_mod_self_left, Nat.mod_eq_of_lt]
  have := leNat_lt (b.take k)
  rwa [List.length_take, Nat.min_eq_left h] at this
theorem leNat_drop (b : List Byte) {k : Nat} (h : k ≤ b.length) : leNat (b.drop k) = leNat b / 256 ^ k := by
  have hl := leNat_append (b.take k) (b.drop k)
  have ht := leNat_lt (b.take k)
  rw [List.take_append_drop, List.length_take, Nat.min_eq_left h] at hl
  rw [List.length_take, Nat.min_eq_left h] at ht
  rw [hl, Nat.add_mul_div_left _ _ (Nat.pow_pos (by decide)), Nat.div_eq_of_lt ht, Nat.zero_add]
/-- A lane of a row read from 64 bytes is the number of its 4 bytes (R163). -/
theorem lane_rowBytes {b : List Byte} {l : Nat} (hb : b.length = 64) (hl : l < 16) : lane (rowBytes b) l = BitVec.ofNat 32 (leNat ((b.drop (4 * l)).take 4)) := by
  have hlt : leNat b < 2 ^ 512 := by
    have := leNat_lt b
    rwa [hb, show (256 : Nat) ^ 64 = 2 ^ 512 by rw [show (256 : Nat) = 2 ^ 8 from rfl, ← Nat.pow_mul]] at this
  apply BitVec.eq_of_toNat_eq
  rw [lane, rowBytes, BitVec.extractLsb'_toNat, BitVec.toNat_ofNat, BitVec.toNat_ofNat, Nat.mod_eq_of_lt hlt, Nat.shiftRight_eq_div_pow,
    leNat_take _ (by rw [List.length_drop]; omega), leNat_drop _ (by omega), show (256 : Nat) ^ (4 * l) = 2 ^ (32 * l) by
      rw [show (256 : Nat) = 2 ^ 8 from rfl, ← Nat.pow_mul]; congr 1; omega]
  exact (Nat.mod_mod ..).symm
theorem bytesAt_part {s : State} {c pa n k m : Nat} (h : k + m ≤ n) : ((Spec.bytesAt s c pa n).drop k).take m = Spec.bytesAt s c (pa + k) m := by
  unfold Spec.bytesAt
  rw [← List.map_drop, ← List.map_take]
  refine List.ext_getElem (by simp; omega) fun i h1 h2 => ?_
  simp [Nat.add_assoc]
theorem bytesAt_length (s : State) (c pa n : Nat) : (Spec.bytesAt s c pa n).length = n := by
  rw [Spec.bytesAt, List.length_map, List.length_range]
theorem bytesAt_getD {s : State} {c pa n i : Nat} (h : i < n) : (Spec.bytesAt s c pa n).getD i 0 = s.seenByte c (pa + i) := by
  rw [List.getD_eq_getElem _ _ (by rw [bytesAt_length]; exact h)]
  simp [Spec.bytesAt]

/-! ### The register-clusters of a vector load (R163) -/

/-- The register-clusters of a block that a predicate leaves a lane of. -/
def blockOn (s : State) (p : Fin 8) (z : Fin 4) : List Nat :=
  (List.range (2 ^ z.val * s.me.ctxExtent.2)).filter fun q => anyLane (s.me.preg p.val) (s.me.ctxExtent.1 + q % s.me.ctxExtent.2)
/-- Whether lane l of register-cluster q of a block is on. -/
def blockAct (s : State) (p : Fin 8) (q l : Nat) : Bool := (s.me.preg p.val).getLsbD (16 * (s.me.ctxExtent.1 + q % s.me.ctxExtent.2) + l)
theorem mem_blockOn {s : State} {p : Fin 8} {z : Fin 4} {q : Nat} :
    q ∈ blockOn s p z ↔ q < 2 ^ z.val * s.me.ctxExtent.2 ∧ ∃ l, l < 16 ∧ blockAct s p q l = true := by
  rw [blockOn, List.mem_filter, List.mem_range, anyLane_iff]
  rfl

theorem loadVector_misaligned {s : State} {d b : Fin 64} {p : Fin 8} {z : Fin 4} {o : Fin 256} {l : Lent}
    (ha : (s.me.sreg b.val + offM 6 o l).toNat % 64 ≠ 0) : loadVector s d b p z o l = fault alignment 0 (s.me.sreg b.val + offM 6 o l) := by
  unfold loadVector
  dsimp only
  rw [if_pos ha]
theorem loadVector_stop {s : State} {d b : Fin 64} {p : Fin 8} {z : Fin 4} {o : Fin 256} {l : Lent} {r : Res}
    (ha : (s.me.sreg b.val + offM 6 o l).toNat % 64 = 0)
    (hr : s.vectorRows (s.me.sreg b.val + offM 6 o l) (blockOn s p z) (blockAct s p) = .stop r) : loadVector s d b p z o l = r := by
  unfold blockOn blockAct at hr
  unfold loadVector
  dsimp only
  rw [if_neg (not_not.2 ha), hr]
theorem loadVector_none {s : State} {d b : Fin 64} {p : Fin 8} {z : Fin 4} {o : Fin 256} {l : Lent}
    (ha : (s.me.sreg b.val + offM 6 o l).toNat % 64 = 0) (hn : blockOn s p z = []) : loadVector s d b p z o l = .ok s := by
  have hr : s.vectorRows (s.me.sreg b.val + offM 6 o l) (blockOn s p z) (blockAct s p) = .ok ([], []) := by
    rw [hn]
    rfl
  unfold blockOn blockAct at hr
  unfold loadVector
  dsimp only
  rw [if_neg (not_not.2 ha), hr]
/-- The rows have been read, from the physical map. -/
theorem loadVector_rows {s : State} {d b : Fin 64} {p : Fin 8} {z : Fin 4} {o : Fin 256} {l : Lent} {rs : List (Nat × Row)}
    {xs : List (List Byte × W64 × Place)} (ha : (s.me.sreg b.val + offM 6 o l).toNat % 64 = 0)
    (hr : s.vectorRows (s.me.sreg b.val + offM 6 o l) (blockOn s p z) (blockAct s p) = .ok (rs, xs)) (hx : xs ≠ [])
    (hp : ∀ x, x ∈ xs → ∃ pa, x.2.2 = .phys pa) :
    ∃ data u, Spec.Noted s u ∧ loadVector s d b p z o l = .ok (u.pend (blockKeys d.val (2 ^ z.val) s.me.ctxExtent.1 s.me.ctxExtent.2)
        (some (.vec d.val (2 ^ z.val) s.me.ctxExtent.1 s.me.ctxExtent.2 (s.me.preg p.val) data)) (s.maxLatency xs)).2
      ∧ ∀ q e, q < 2 ^ z.val * s.me.ctxExtent.2 → rs.find? (fun e => e.1 == q) = some e → data.getD q 0 = e.2 := by
  unfold blockOn blockAct at hr
  unfold loadVector
  dsimp only
  rw [if_neg (not_not.2 ha), hr]
  cases xs with
  | nil => exact absurd rfl hx
  | cons x xs =>
    refine ⟨_, _, Noted.trans (noteLoads_noted ..) (counted_noted _ _ _ hp), rfl, fun q e hq he => ?_⟩
    rw [List.getD_eq_getElem _ _ (by rw [List.length_map, List.length_range]; exact hq), List.getElem_map, List.getElem_range, he]

theorem zip_map_self {α β : Type} (f : α → β) (l : List α) : l.zip (l.map f) = l.map fun x => (x, f x) := by
  induction l with
  | nil => rfl
  | cons x l ih => rw [List.map_cons, List.zip_cons_cons, ih, List.map_cons]

/-! ### LDV from raw pages -/

theorem rawRows_phys {s : State} {va : W64} {on : List Nat} {pa : Nat → Nat} {leaf : Nat → W64}
    (ht : ∀ q, q ∈ on → s.translate s.ctx .load (va + BitVec.ofNat 64 (64 * q)) = .at_ (.phys (pa q)) (leaf q) ∧ Spec.sound s (pa q) 64) :
    ((∃ q, q ∈ on ∧ pteFmt (leaf q) ≠ 31) → s.rawRows va on = .stop (fault alignment 0 va))
    ∧ ((∀ q, q ∈ on → pteFmt (leaf q) = 31) → s.rawRows va on = .ok (on.map fun q => (q, rowBytes (Spec.bytesAt s s.cur (pa q) 64)),
        on.map fun q => (Spec.bytesAt s s.cur (pa q) 64, leaf q, .phys (pa q)))) := by
  have hread := readLines_phys (s := s) (fun q => (va + BitVec.ofNat 64 (64 * q), 64)) pa leaf on ht
  unfold State.rawRows
  rw [hread]
  dsimp only
  constructor
  · rintro ⟨q, hq, hf⟩
    rw [if_neg]
    intro h
    have := List.all_eq_true.1 h _ (List.mem_map.2 ⟨q, hq, rfl⟩)
    exact hf (eq_of_beq this)
  · intro hf
    rw [if_pos, zip_map_self, List.map_map]
    · rfl
    · rw [List.all_map, List.all_eq_true]
      intro q hq
      exact beq_iff_eq.2 (hf q hq)
/-- A block whose own address tells raw pages. -/
theorem vectorRows_raw {s : State} {va : W64} {on : List Nat} {act : Nat → Nat → Bool} (hne : on ≠ [])
    (h : (∃ w e, s.translate s.ctx .load va = .at_ w e ∧ pteFmt e = 31) ∨ ((∀ w e, s.translate s.ctx .load va ≠ .at_ w e) ∧ s.windowAt s.ctx va.toNat = none
      ∧ ∀ q, q ∈ on → (va.toNat + 64 * q) / 4096 ≠ va.toNat / 4096)) : s.vectorRows va on act = s.rawRows va on := by
  unfold State.vectorRows
  rw [if_neg (by rw [List.isEmpty_iff]; exact hne)]
  rcases h with ⟨w, e, ht, hf⟩ | ⟨ht, hw, hq⟩
  · rw [ht]
    cases w with
    | phys pa => exact if_pos hf
    | host _ | tile _ _ _ _ | flash _ _ => rfl
  · have hany : (on.any fun q => (va.toNat + 64 * q) / 4096 == va.toNat / 4096) = false := by
      rw [List.any_eq_false]
      intro q hm
      rw [beq_iff_eq]
      exact hq q hm
    split
    next pa e he => exact absurd he (ht _ _)
    next w e he => exact absurd he (ht _ _)
    next => rw [hw, hany]; rfl
theorem find?_rows {on : List Nat} {f : Nat → Row} {q : Nat} (h : q ∈ on) : (on.map fun q => (q, f q)).find? (fun e => e.1 == q) = some (q, f q) := by
  rw [List.find?_map, find?_unique h]
  · rfl
  · exact beq_self_eq_true q
  · exact fun y _ hy => eq_of_beq hy

/-! ### LDV from formatted pages (R196, R197) -/

/-- Bits depend only on the bytes that hold them. -/
theorem bitsAt_congr {rd rd' : Nat → Byte} {o w : Nat} (hw : 0 < w) (h : ∀ i, i < (o + w - 1) / 8 + 1 - o / 8 → rd (o / 8 + i) = rd' (o / 8 + i)) :
    bitsAt rd o w = bitsAt rd' o w := by
  have hm : (o + w - 1) / 8 + 1 - o / 8 ≤ w / 8 + 2 := by omega
  have hlow (f : Nat → Byte) : bitsAt f o w
      = leNat ((List.range ((o + w - 1) / 8 + 1 - o / 8)).map fun i => f (o / 8 + i)) % (2 ^ (o % 8) * 2 ^ w) / 2 ^ (o % 8) := by
    rw [bitsAt, ← Nat.mod_mul_right_div_self, ← Nat.pow_add]
    congr 1
    have ht := leNat_take ((List.range (w / 8 + 2)).map fun i => f (o / 8 + i)) (k := (o + w - 1) / 8 + 1 - o / 8)
      (by rw [List.length_map, List.length_range]; exact hm)
    rw [← List.map_take, List.take_range, Nat.min_eq_left hm] at ht
    rw [ht, Nat.mod_mod_of_dvd]
    rw [show (256 : Nat) = 2 ^ 8 from rfl, ← Nat.pow_mul]
    exact Nat.pow_dvd_pow 2 (by omega)
  rw [hlow, hlow]
  congr 3
  exact List.map_congr_left fun i hi => h i (List.mem_range.1 hi)
theorem elemBits_pos (fmt : Nat) : 0 < elemBits fmt := by
  unfold elemBits
  split
  next f h =>
    unfold ffOf at h
    split at h <;> cases h <;> decide
  next =>
    split
    · omega
    · split <;> decide
theorem sharedAt_aligned (fmt g b : Nat) : sharedAt fmt g b % 8 = 0 := by
  unfold sharedAt
  split
  · omega
  · omega
  · dsimp only
    omega
/-- A lane of a formatted page depends only on the bytes that its element and its shared byte occupy. -/
theorem laneOf_congr {rd rd' : Nat → Byte} {fmt g n : Nat} (h : ∀ o, o ∈ elemSpan fmt g n → rd o = rd' o) : laneOf rd fmt g n = laneOf rd' fmt g n := by
  have he : bitsAt rd (elemAt fmt g (n / 4) (n % 4)) (elemBits fmt) = bitsAt rd' (elemAt fmt g (n / 4) (n % 4)) (elemBits fmt) :=
    bitsAt_congr (elemBits_pos fmt) fun i hi => h _ (List.mem_append_right _ (List.mem_map.2 ⟨i, List.mem_range.2 hi, rfl⟩))
  have hsh (hs : hasShared fmt = true) : bitsAt rd (sharedAt fmt g (n / 4)) 8 = bitsAt rd' (sharedAt fmt g (n / 4)) 8 := by
    have ha := sharedAt_aligned fmt g (n / 4)
    refine bitsAt_congr (by decide) fun i hi => ?_
    obtain rfl : i = 0 := by omega
    refine h _ (List.mem_append_left _ ?_)
    rw [if_pos hs]
    exact List.mem_singleton.2 (Nat.add_zero _)
  unfold laneOf elemNum
  rw [he]
  cases hs : hasShared fmt with
  | false => rfl
  | true => rw [hsh hs]
theorem elemSpan_ne_nil (fmt g n : Nat) : elemSpan fmt g n ≠ [] := by
  have := elemBits_pos fmt
  refine List.append_ne_nil_of_right_ne_nil _ ?_
  rw [Ne, List.map_eq_nil_iff, List.range_eq_nil]
  omega

theorem foldl_min_le (l : List Nat) : ∀ m, l.foldl min m ≤ m ∧ ∀ x, x ∈ l → l.foldl min m ≤ x := by
  induction l with
  | nil => exact fun m => ⟨Nat.le_refl m, fun _ hx => nomatch hx⟩
  | cons y l ih =>
    intro m
    obtain ⟨h1, h2⟩ := ih (min m y)
    refine ⟨h1.trans (Nat.min_le_left ..), fun x hx => ?_⟩
    rcases List.mem_cons.1 hx with rfl | hx
    · exact h1.trans (Nat.min_le_right ..)
    · exact h2 x hx
theorem le_foldl_max (l : List Nat) : ∀ m, m ≤ l.foldl max m ∧ ∀ x, x ∈ l → x ≤ l.foldl max m := by
  induction l with
  | nil => exact fun m => ⟨Nat.le_refl m, fun _ hx => nomatch hx⟩
  | cons y l ih =>
    intro m
    obtain ⟨h1, h2⟩ := ih (max m y)
    refine ⟨(Nat.le_max_left ..).trans h1, fun x hx => ?_⟩
    rcases List.mem_cons.1 hx with rfl | hx
    · exact (Nat.le_max_right ..).trans h1
    · exact h2 x hx
/-- Every offset lies in one of the parts of lines that a list of offsets lies in. -/
theorem linesOf_covers {os : List Nat} {o : Nat} (h : o ∈ os) : ∃ w, w ∈ linesOf os ∧ w.1 ≤ o ∧ o < w.1 + w.2 := by
  have hm : o ∈ os.filter fun x => x / 64 == o / 64 := List.mem_filter.2 ⟨h, beq_self_eq_true _⟩
  refine ⟨_, List.mem_map.2 ⟨o / 64, List.mem_eraseDups.2 (List.mem_map.2 ⟨o, h, rfl⟩), rfl⟩, ?_, ?_⟩
  · exact (foldl_min_le _ _).2 o hm
  · have h1 := (foldl_min_le (os.filter fun x => x / 64 == o / 64) (64 * (o / 64) + 63)).2 o hm
    have h2 := (le_foldl_max (os.filter fun x => x / 64 == o / 64) 0).2 o hm
    dsimp only
    omega
/-- A byte of pieces, each of which holds what stands at its offsets, is what stands there. -/
theorem pieceByte_eq {ls : List (Nat × Nat)} {at_ : Nat → Nat} {s : State} {c o : Nat} (hc : ∃ w, w ∈ ls ∧ w.1 ≤ o ∧ o < w.1 + w.2)
    (ha : ∀ w, w ∈ ls → ∀ i, i < w.2 → at_ (w.1 + i) = at_ w.1 + i) :
    pieceByte (ls.map fun w => (w, Spec.bytesAt s c (at_ w.1) w.2)) o = s.seenByte c (at_ o) := by
  unfold pieceByte
  cases hf : (ls.map fun w => (w, Spec.bytesAt s c (at_ w.1) w.2)).find? fun p => decide (p.1.1 ≤ o) && decide (o < p.1.1 + p.1.2) with
  | none =>
    obtain ⟨w, hw, h1, h2⟩ := hc
    have := List.find?_eq_none.1 hf _ (List.mem_map.2 ⟨w, hw, rfl⟩)
    simp [h1, h2] at this
  | some e =>
    obtain ⟨w, hw, rfl⟩ := List.mem_map.1 (List.mem_of_find?_eq_some hf)
    have hp := List.find?_some hf
    simp only [Bool.and_eq_true, decide_eq_true_eq] at hp
    obtain ⟨h1, h2⟩ := hp
    dsimp only
    rw [bytesAt_getD (by omega), ← ha w hw _ (by omega), Nat.add_sub_cancel' h1]

/-- The parts of lines that hold the elements of the lanes of a block that are on, from element e on. -/
def formLines (s : State) (p : Fin 8) (z : Fin 4) (fmt g e : Nat) : List (Nat × Nat) :=
  linesOf ((laneElems (blockOn s p z) (blockAct s p)).flatMap fun i => elemSpan fmt g (e + i))
theorem mem_laneElems {s : State} {p : Fin 8} {z : Fin 4} {i : Nat} :
    i ∈ laneElems (blockOn s p z) (blockAct s p) ↔ ∃ q l, q < 2 ^ z.val * s.me.ctxExtent.2 ∧ l < 16 ∧ blockAct s p q l = true ∧ i = 16 * q + l := by
  unfold laneElems
  simp only [List.mem_flatMap, List.mem_map, List.mem_filter, List.mem_range, mem_blockOn]
  constructor
  · rintro ⟨q, ⟨hq, -⟩, l, ⟨hl, ha⟩, rfl⟩
    exact ⟨q, l, hq, hl, ha, rfl⟩
  · rintro ⟨q, l, hq, hl, ha, rfl⟩
    exact ⟨q, ⟨hq, l, hl, ha⟩, l, ⟨hl, ha⟩, rfl⟩

theorem formattedRows_noFirst {s : State} {va : W64} {pa : Nat} {leaf : W64} {on : List Nat} {act : Nat → Nat → Bool}
    (h : firstElem (pteFmt leaf) (pageGeo (pteFmt leaf) (pteBaxis leaf) (pteLpack leaf)) (pa % 4096) = none) :
    s.formattedRows va pa leaf on act = .stop (fault alignment 0 va) := by
  unfold State.formattedRows
  dsimp only
  rw [h]
theorem formattedRows_past {s : State} {va : W64} {pa e : Nat} {leaf : W64} {on : List Nat} {act : Nat → Nat → Bool}
    (h : firstElem (pteFmt leaf) (pageGeo (pteFmt leaf) (pteBaxis leaf) (pteLpack leaf)) (pa % 4096) = some e)
    (hp : ∃ i, i ∈ laneElems on act ∧ 4 * pageBlocks (pteFmt leaf) (pageGeo (pteFmt leaf) (pteBaxis leaf) (pteLpack leaf)) ≤ e + i) :
    s.formattedRows va pa leaf on act = .stop (fault alignment 0 va) := by
  obtain ⟨i, hi, hle⟩ := hp
  unfold State.formattedRows
  dsimp only
  rw [h]
  dsimp only
  rw [if_pos (List.any_eq_true.2 ⟨i, hi, decide_eq_true hle⟩)]
/-- The elements lie in their page, and their lines in sound places of the physical map. -/
theorem formattedRows_phys {s : State} {va : W64} {pa e : Nat} {leaf : W64} {p : Fin 8} {z : Fin 4} {at_ : Nat → Nat} {leafs : Nat → W64}
    (h : firstElem (pteFmt leaf) (pageGeo (pteFmt leaf) (pteBaxis leaf) (pteLpack leaf)) (pa % 4096) = some e)
    (hp : ∀ i, i ∈ laneElems (blockOn s p z) (blockAct s p) →
      e + i < 4 * pageBlocks (pteFmt leaf) (pageGeo (pteFmt leaf) (pteBaxis leaf) (pteLpack leaf)))
    (ht : ∀ w, w ∈ formLines s p z (pteFmt leaf) (pageGeo (pteFmt leaf) (pteBaxis leaf) (pteLpack leaf)) e →
      s.translate s.ctx .load (va + BitVec.ofNat 64 w.1 - BitVec.ofNat 64 (pa % 4096)) = .at_ (.phys (at_ w.1)) (leafs w.1)
      ∧ Spec.sound s (at_ w.1) w.2 ∧ ∀ i, i < w.2 → at_ (w.1 + i) = at_ w.1 + i) :
    let ls := formLines s p z (pteFmt leaf) (pageGeo (pteFmt leaf) (pteBaxis leaf) (pteLpack leaf)) e
    ((∃ w, w ∈ ls ∧ attr (leafs w.1) ≠ attr leaf) →
      s.formattedRows va pa leaf (blockOn s p z) (blockAct s p) = .stop (fault alignment 0 va))
    ∧ ((∀ w, w ∈ ls → attr (leafs w.1) = attr leaf) → ∃ rows : Nat → Row,
      s.formattedRows va pa leaf (blockOn s p z) (blockAct s p) = .ok ((blockOn s p z).map fun q => (q, rows q),
        ls.map fun w => (Spec.bytesAt s s.cur (at_ w.1) w.2, leafs w.1, .phys (at_ w.1)))
      ∧ ∀ q l, q < 2 ^ z.val * s.me.ctxExtent.2 → l < 16 → blockAct s p q l = true → lane (rows q) l =
          laneOf (fun i => s.seenByte s.cur (at_ i)) (pteFmt leaf) (pageGeo (pteFmt leaf) (pteBaxis leaf) (pteLpack leaf)) (e + (16 * q + l))) := by
  have hread := readLines_phys (s := s) (fun w : Nat × Nat => (va + BitVec.ofNat 64 w.1 - BitVec.ofNat 64 (pa % 4096), w.2)) (fun w => at_ w.1)
    (fun w => leafs w.1) (formLines s p z (pteFmt leaf) (pageGeo (pteFmt leaf) (pteBaxis leaf) (pteLpack leaf)) e) fun w hw => ⟨(ht w hw).1, (ht w hw).2.1⟩
  have hnone : ((laneElems (blockOn s p z) (blockAct s p)).any fun i =>
      decide (4 * pageBlocks (pteFmt leaf) (pageGeo (pteFmt leaf) (pteBaxis leaf) (pteLpack leaf)) ≤ e + i)) = false := by
    rw [List.any_eq_false]
    intro i hi
    have := hp i hi
    simp only [decide_eq_true_eq]
    omega
  unfold formLines at hread
  unfold State.formattedRows
  dsimp only
  rw [h]
  dsimp only
  rw [hnone, if_neg Bool.false_ne_true, hread]
  dsimp only
  constructor
  · rintro ⟨w, hw, hne⟩
    rw [if_pos]
    exact List.any_eq_true.2 ⟨_, List.mem_map.2 ⟨w, hw, rfl⟩, bne_iff_ne.2 hne⟩
  · intro heq
    rw [if_neg]
    · refine ⟨_, rfl, fun q l hq hl ha => ?_⟩
      rw [lane_rowOf _ hl, if_pos ha, Nat.add_assoc, List.map_map, zip_map_self]
      refine laneOf_congr fun o ho => pieceByte_eq (linesOf_covers ?_) fun w hw => (ht w hw).2.2
      exact List.mem_flatMap.2 ⟨_, mem_laneElems.2 ⟨q, l, hq, hl, ha, rfl⟩, ho⟩
    · rw [List.any_map, List.any_eq_true]
      rintro ⟨w, hw, hb⟩
      exact bne_iff_ne.1 hb (heq w hw)
theorem vectorRows_formatted {s : State} {va : W64} {on : List Nat} {act : Nat → Nat → Bool} {pa : Nat} {leaf : W64} (hne : on ≠ [])
    (ht : s.translate s.ctx .load va = .at_ (.phys pa) leaf) (hf : pteFmt leaf ≠ 31) : s.vectorRows va on act = s.formattedRows va pa leaf on act := by
  unfold State.vectorRows
  rw [if_neg (by rw [List.isEmpty_iff]; exact hne), ht]
  exact if_neg hf

/-- Settles O17: LDV by the page that its block's address tells, the alignment of its elements, and the pages of its lines. -/
theorem blockLoads : Obligations.BlockLoads := by
  unfold Obligations.BlockLoads
  have he {d b : Fin 64} {p : Fin 8} {z : Fin 4} {o : Fin 256} {l : Lent} {s : State} {r : Res} (h : loadVector s d b p z o l = r) :
      exec (.ldv d b p z o l) s = meaning (.ldv d b p z o l) 1 s r := congrArg (meaning (.ldv d b p z o l) 1 s) h
  refine ⟨fun d b p z o l s hc => ?_, fun d b p z o l s hc => ?_⟩
  · rw [address_eq]
    dsimp only
    have htrap (h : loadVector s d b p z o l = fault alignment 0 (s.me.sreg b.val + offM 6 o l)) :
        Traps (.ldv d b p z o l) s 1 4 0 (s.me.sreg b.val + offM 6 o l) := fault_Traps hc (by decide) (by decide) (by decide) (he h)
    refine ⟨fun ha => htrap (loadVector_misaligned ha), fun ha hn => ?_, fun ha ⟨q0, hq0, hl0⟩ pa leaf ht hraw => ?_⟩
    · have : blockOn s p z = [] := List.eq_nil_iff_forall_not_mem.2 fun q hq => hn q (mem_blockOn.1 hq).1 (mem_blockOn.1 hq).2
      exact (he (loadVector_none ha this)).trans (meaning_ok hc)
    · have hne : blockOn s p z ≠ [] := List.ne_nil_of_mem (mem_blockOn.2 ⟨hq0, hl0⟩)
      have hrows := vectorRows_raw (s := s) (va := s.me.sreg b.val + offM 6 o l) (act := blockAct s p) hne
        (hraw.imp (fun ⟨w, e, h⟩ => ⟨.phys w, e, h⟩) fun ⟨h1, h2, h3⟩ => ⟨h1, h2, fun q hq => h3 q (mem_blockOn.1 hq).1 (mem_blockOn.1 hq).2⟩)
      obtain ⟨h1, h2⟩ := rawRows_phys (s := s) (va := s.me.sreg b.val + offM 6 o l) (on := blockOn s p z) (pa := pa) (leaf := leaf)
        fun q hq => ht q (mem_blockOn.1 hq).1 (mem_blockOn.1 hq).2
      refine ⟨fun ⟨q, hq, hon, hf⟩ => htrap (loadVector_stop ha (hrows.trans (h1 ⟨q, mem_blockOn.2 ⟨hq, hon⟩, hf⟩))), fun hf => ?_⟩
      have hok := hrows.trans (h2 fun q hq => hf q (mem_blockOn.1 hq).1 (mem_blockOn.1 hq).2)
      obtain ⟨data, u, hu, hx, hd⟩ := loadVector_rows (d := d) ha hok (mt List.map_eq_nil_iff.1 hne) fun x hx => by
        obtain ⟨q, _, rfl⟩ := List.mem_map.1 hx
        exact ⟨_, rfl⟩
      refine ⟨data, _, u, hu, (he hx).trans (meaning_ok hc), fun q hq hon => ?_, fun q l hq hon hl => ?_⟩
      · exact maxLatency_ge s (x := (Spec.bytesAt s s.cur (pa q) 64, leaf q, .phys (pa q))) (List.mem_map.2 ⟨q, mem_blockOn.2 ⟨hq, hon⟩, rfl⟩)
      · rw [hd q _ hq (find?_rows (mem_blockOn.2 ⟨hq, hon⟩)), lane_rowBytes (bytesAt_length ..) hl, bytesAt_part (by omega), leNat_eq]
  · rw [address_eq]
    dsimp only
    intro ha ⟨q0, l0, hq0, hl0, ha0⟩ first leaf ht hf
    have htrap (h : loadVector s d b p z o l = fault alignment 0 (s.me.sreg b.val + offM 6 o l)) :
        Traps (.ldv d b p z o l) s 1 4 0 (s.me.sreg b.val + offM 6 o l) := fault_Traps hc (by decide) (by decide) (by decide) (he h)
    have hne : blockOn s p z ≠ [] := List.ne_nil_of_mem (mem_blockOn.2 ⟨hq0, l0, hl0, ha0⟩)
    have hrows := vectorRows_formatted (act := blockAct s p) hne ht hf
    refine ⟨fun h => htrap (loadVector_stop ha (hrows.trans (formattedRows_noFirst h))), fun e hfirst => ⟨fun ⟨q, l, ⟨hq, hl, hon⟩, hle⟩ => ?_, fun hpage at_ leafs hlines => ?_⟩⟩
    · exact htrap (loadVector_stop ha (hrows.trans (formattedRows_past hfirst ⟨_, mem_laneElems.2 ⟨q, l, hq, hl, hon, rfl⟩, hle⟩)))
    · obtain ⟨h1, h2⟩ := formattedRows_phys (s := s) (va := s.me.sreg b.val + offM 6 o l) hfirst (fun i hi => by
        obtain ⟨q, l, hq, hl, hon, rfl⟩ := mem_laneElems.1 hi
        exact hpage q l ⟨hq, hl, hon⟩) hlines
      refine ⟨fun h => htrap (loadVector_stop ha (hrows.trans (h1 h))), fun h => ?_⟩
      obtain ⟨rows, hok, hlane⟩ := h2 h
      have hls : formLines s p z (pteFmt leaf) (pageGeo (pteFmt leaf) (pteBaxis leaf) (pteLpack leaf)) e ≠ [] := by
        obtain ⟨o, ho⟩ := List.exists_mem_of_ne_nil _ (elemSpan_ne_nil (pteFmt leaf) (pageGeo (pteFmt leaf) (pteBaxis leaf) (pteLpack leaf)) (e + (16 * q0 + l0)))
        obtain ⟨w, hw, -⟩ := linesOf_covers (List.mem_flatMap (f := fun i => elemSpan (pteFmt leaf) (pageGeo (pteFmt leaf) (pteBaxis leaf) (pteLpack leaf)) (e + i)).2
          ⟨_, mem_laneElems.2 ⟨q0, l0, hq0, hl0, ha0, rfl⟩, ho⟩)
        exact List.ne_nil_of_mem hw
      obtain ⟨data, u, hu, hx, hd⟩ := loadVector_rows (d := d) ha (hrows.trans hok) (mt List.map_eq_nil_iff.1 hls) fun x hx => by
        obtain ⟨q, _, rfl⟩ := List.mem_map.1 hx
        exact ⟨_, rfl⟩
      refine ⟨data, _, u, hu, (he hx).trans (meaning_ok hc), fun q l ⟨hq, hl, hon⟩ => ?_⟩
      rw [hd q _ hq (find?_rows (mem_blockOn.2 ⟨hq, l, hl, hon⟩))]
      exact hlane q l hq hl hon
end Sys2Proof.Machine
end

section
/-! Proofs about ST and COWST (R162). -/
namespace Sys2Proof.Machine
open Sys2Proof

/-! ### ST and COWST (R162) -/

theorem runsOf_bounds : ∀ (l : List (Option Byte)) (o : Nat) (r : Nat × List Byte), r ∈ runsOf o l → o ≤ r.1 ∧ r.1 + r.2.length ≤ o + l.length
  | [], _, _, h => nomatch h
  | none :: t, o, r, h => by
    obtain ⟨h1, h2⟩ := runsOf_bounds t (o + 1) r h
    rw [List.length_cons]
    omega
  | some b :: t, o, r, h => by
    have ih := runsOf_bounds t (o + 1)
    rw [List.length_cons]
    unfold runsOf at h
    split at h
    next o' bs rest heq =>
      rw [heq] at ih
      have h0 := ih (o', bs) (.head _)
      dsimp only at h0
      split at h
      next ho =>
        rcases List.mem_cons.1 h with rfl | hr
        · rw [List.length_cons]
          omega
        · have := ih r (.tail _ hr)
          omega
      next =>
        rcases List.mem_cons.1 h with rfl | hr
        · rw [List.length_singleton]
          omega
        · have := ih r hr
          omega
    next =>
      obtain rfl := List.mem_singleton.1 h
      rw [List.length_singleton]
      omega
theorem storeRuns_bounds (s : State) (va k : Nat) (b : List Byte) {r : Nat × List Byte} (h : r ∈ s.storeRuns va k b) : r.1 + r.2.length ≤ b.length := by
  unfold State.storeRuns at h
  split at h
  · have := (runsOf_bounds _ 0 r h).2
    rw [List.length_map, List.length_zip, List.length_range, Nat.min_self] at this
    omega
  · obtain rfl := List.mem_singleton.1 h
    exact Nat.le_of_eq (Nat.zero_add _)
theorem bytesOf_length (n x : Nat) : (Spec.bytesOf n x).length = n := by rw [Spec.bytesOf, List.length_map, List.length_range]

/-- What ST and COWST of an aligned address do where it translates to the physical map, and for COWST the page is not shared. -/
theorem exec_store {d b : Fin 64} {p : Fin 8} {z : Fin 4} {o : Fin 256} {l : Lent} {s : State} {i : Instr} {acc : Acc}
    (hi : (i = .st d b p z o l ∧ acc = .store) ∨ (i = .cowst d b p z o l ∧ acc = .cowst)) :
    ((s.me.preg p.val).getLsbD 0 = false → exec i s = meaning i 3 s (.ok s))
    ∧ ((s.me.preg p.val).getLsbD 0 = true → (s.me.sreg b.val + offM z.val o l).toNat % 2 ^ z.val ≠ 0 →
        exec i s = meaning i 3 s (fault alignment 0 (s.me.sreg b.val + offM z.val o l)))
    ∧ ((s.me.preg p.val).getLsbD 0 = true → (s.me.sreg b.val + offM z.val o l).toNat % 2 ^ z.val = 0 →
        (acc = .cowst → s.windowAt s.ctx (s.me.sreg b.val + offM z.val o l).toNat = none) → ∀ pl leaf,
        s.translate s.ctx acc (s.me.sreg b.val + offM z.val o l) = .at_ pl leaf → (acc = .cowst → pteShared leaf = false) →
        exec i s = meaning i 3 s (.ok (s.storePlace (s.me.sreg b.val + offM z.val o l) pl (leBytes (2 ^ z.val) (s.me.sreg d.val).toNat)))) := by
  rcases hi with ⟨rfl, rfl⟩ | ⟨rfl, rfl⟩
  · have he : exec (.st d b p z o l) s = meaning (.st d b p z o l) 3 s (storeScalar s d b p z o l) := rfl
    unfold storeScalar at he
    dsimp only at he
    rw [ptest_eq] at he
    refine ⟨fun hp => ?_, fun hp ha => ?_, fun hp ha _ pl leaf ht _ => ?_⟩
    · rw [he, hp, Bool.not_false, if_pos rfl]
    · rw [he, hp, Bool.not_true, if_neg Bool.false_ne_true, if_pos ha]
    · rw [he, hp, Bool.not_true, if_neg Bool.false_ne_true, if_neg (not_not.2 ha), ht]
  · have he : exec (.cowst d b p z o l) s = meaning (.cowst d b p z o l) 3 s (cowstEffect s d b p z o l) := rfl
    unfold cowstEffect at he
    dsimp only at he
    rw [ptest_eq] at he
    refine ⟨fun hp => ?_, fun hp ha => ?_, fun hp ha hw pl leaf ht hs => ?_⟩
    · rw [he, hp, Bool.not_false, if_pos rfl]
    · rw [he, hp, Bool.not_true, if_neg Bool.false_ne_true, if_pos ha]
    · rw [hp, Bool.not_true, if_neg Bool.false_ne_true, if_neg (not_not.2 ha), hw rfl, Option.isSome_none, if_neg Bool.false_ne_true, ht] at he
      dsimp only at he
      rwa [hs rfl, Bool.not_false, if_pos rfl] at he

/-- Settles O19: ST and COWST by their predicate, the alignment of their address, and what a store at a place leaves. -/
theorem scalarStores : Obligations.ScalarStores := by
  unfold Obligations.ScalarStores
  intro d b p z o l s i acc hi hc
  rw [address_eq]
  obtain ⟨h1, h2, h3⟩ := exec_store (s := s) hi
  refine ⟨fun hp => (h1 hp).trans (meaning_ok hc), fun hp ha => fault_Traps hc (by decide) (by decide) (by decide) (h2 hp ha),
    fun hp ha hw pa leaf ht hs => ?_⟩
  have hst := storePlace_stored s (s.me.sreg b.val + offM z.val o l) pa (leBytes (2 ^ z.val) (s.me.sreg d.val).toNat)
  have hlen : (leBytes (2 ^ z.val) (s.me.sreg d.val).toNat).length = 2 ^ z.val := by rw [leBytes_eq, bytesOf_length]
  refine ⟨_, _, (h3 hp ha hw _ leaf ht hs).trans (meaning_ok hc), rfl, Stored.mark hst _, fun w hw => ?_, fun ho => ?_⟩
  · obtain ⟨r, hr, rfl⟩ := List.mem_map.1 hw
    have := storeRuns_bounds s _ _ _ hr
    dsimp only
    omega
  · rw [storeRuns_plain (by rw [hlen]; exact ho), leBytes_eq]
    rfl
end Sys2Proof.Machine
end

section
/-! Proofs about STV and STS (R163, R164). -/
namespace Sys2Proof.Machine
open Sys2Proof

/-! ### A store leaves what later stores of its bundle overlap (R81, R144) -/

/-- What the commands of the current core have written, and the slots of its partition, are as before. -/
structure SameLaps (s t : State) : Prop where
  cur : t.cur = s.cur
  part : t.myPart = s.myPart
  wrote : t.wroteBy s.cur = s.wroteBy s.cur
  slots : ∀ p va n, t.inSlot p va n = s.inSlot p va n
namespace SameLaps
theorem refl (s : State) : SameLaps s s := ⟨rfl, rfl, rfl, fun _ _ _ => rfl⟩
theorem trans {s t u : State} (h : SameLaps s t) (g : SameLaps t u) : SameLaps s u := by
  obtain ⟨h1, h2, h3, h4⟩ := h
  obtain ⟨g1, g2, g3, g4⟩ := g
  rw [h1] at g1 g3
  exact ⟨g1, g2.trans h2, g3.trans h3, fun p va n => (g4 p va n).trans (h4 p va n)⟩
theorem overlapped {s t : State} (h : SameLaps s t) (va k n : Nat) : t.overlapped va k n = s.overlapped va k n := by
  rw [overlapped_eq, overlapped_eq, h.cur, h.part, h.wrote, h.slots]
/-- The channels of the core's quad, and the flash and the commands of every die, are as before. -/
theorem of_eq {s t : State} (hc : t.cores = s.cores) (h1 : t.cur = s.cur) (hq : (t.quad (s.cur / 4)).chans = (s.quad (s.cur / 4)).chans)
    (hd : t.dies = s.dies) : SameLaps s t := by
  have hme : t.me = s.me := by unfold State.me State.core; rw [hc, h1]
  have hdie (d : Nat) : t.die d = s.die d := by unfold State.die; rw [hd]
  refine ⟨h1, by unfold State.myPart; rw [hme], ?_, fun p va n => by unfold State.inSlot; rw [hd]⟩
  unfold State.wroteBy State.laps
  rw [hq, hdie]
end SameLaps
theorem reach_same (s : State) (pa : Nat) : SameLaps s (s.reach pa) := by
  rw [reach_eq]
  exact .of_eq rfl rfl rfl rfl
theorem storePhys_same (s : State) (p pa : Nat) (b : List Byte) : SameLaps s (s.storePhys s.cur p 0 pa b) := by
  unfold State.storePhys
  split
  · exact .of_eq rfl rfl rfl rfl
  · unfold State.enterPath
    refine .trans ?_ (reach_same _ _)
    refine .of_eq rfl rfl ?_ rfl
    unfold State.enter
    dsimp only
    rw [State.quad_schedule, State.quad_setQuad_same]
theorem storeRunsAt_same : ∀ (rs : List (Nat × List Byte)) (pa : Nat) (s : State), SameLaps s (s.storeRunsAt pa rs)
  | [], _, s => .refl s
  | (o, b) :: t, pa, s => (storePhys_same s s.myPart (pa + o) b).trans (storeRunsAt_same t pa _)
theorem noteHist_same (s : State) (va n : Nat) : SameLaps s (s.noteHist va n) := by
  rw [noteHist_dies]
  split
  · have hd (d : Nat) : State.die { s with dies := s.dies.map fun d => (d.1, d.2.noting s.myPart va n) } d = (s.die d).noting s.myPart va n :=
      tgetD_map (Die.noting s.myPart va n) s.dies d {}
    refine ⟨rfl, rfl, ?_, fun p a m => ?_⟩
    · unfold State.wroteBy State.laps
      rw [hd]
      simp only [List.map_append]
      refine congrArg₂ _ rfl (wrote_map _ _ RteCmd.lap (RteCmd.noting s.myPart va n) (fun m => ?_) fun m => ?_)
      · unfold RteCmd.noting
        split <;> rfl
      · unfold RteCmd.noting
        split <;> rfl
    · exact List.any_map
  · exact .refl s
/-- A die whose bound messages note a store. -/
def Die.sendsNoting (p va k : Nat) (o : Nat → List Byte) (n : Nat) (x : Die) : Die :=
  { x with tiles := x.tiles.map fun t => (t.1, t.2.noteSend p va k o n) }
theorem noteSends_same (s : State) (va k : Nat) (o : Nat → List Byte) (n : Nat) : SameLaps s (s.noteSends va k o n) := by
  have hd (d : Nat) : (s.noteSends va k o n).die d = (s.die d).sendsNoting s.myPart va k o n :=
    tgetD_map (Die.sendsNoting s.myPart va k o n) s.dies d {}
  refine ⟨rfl, rfl, ?_, fun p a m => List.any_map⟩
  unfold State.wroteBy State.laps
  rw [hd]
  rfl
/-- A slot that notes an access of n bytes of partition p. -/
def HSlot.noting (p va n : Nat) (h : HSlot) : HSlot := if h.meets p va n then { h with dirty := (va, n) :: h.dirty } else h
def Die.slotsNoting (p va n : Nat) (x : Die) : Die :=
  { x with flash := { x.flash with slots := x.flash.slots.map fun h => (h.1, h.2.noting p va n) } }
theorem noteSlots_dies (s : State) (p va n : Nat) : s.noteSlots p va n =
    if !s.inSlot p va n then s else { s with dies := s.dies.map fun e => (e.1, e.2.slotsNoting p va n) } := rfl
theorem noting_meets (p va n : Nat) (h : HSlot) (q a m : Nat) : (h.noting p va n).meets q a m = h.meets q a m := by
  unfold HSlot.noting
  split <;> rfl
theorem noteSlots_same (s : State) (p va n : Nat) : SameLaps s (s.noteSlots p va n) := by
  rw [noteSlots_dies]
  split
  · exact .refl s
  · have hd (d : Nat) : State.die { s with dies := s.dies.map fun e => (e.1, e.2.slotsNoting p va n) } d = (s.die d).slotsNoting p va n :=
      tgetD_map (Die.slotsNoting p va n) s.dies d {}
    refine ⟨rfl, rfl, ?_, fun q a m => ?_⟩
    · unfold State.wroteBy State.laps
      rw [hd]
      rfl
    · unfold State.inSlot
      rw [List.any_map]
      refine List.any_congr rfl fun e => ?_
      dsimp only [Function.comp_apply, Die.slotsNoting]
      rw [List.any_map]
      exact List.any_congr rfl fun h => noting_meets ..
theorem any_tgetD {α : Type} {f : α → Bool} {d : α} (hd : f d = false) : ∀ (t : Tbl α) (k : Nat), f (tgetD t k d) = true → (t.any fun e => f e.2) = true
  | [], _, h => absurd h (by rw [tgetD_nil, hd]; exact Bool.false_ne_true)
  | (j, w) :: t, k, h => by
    rw [List.any_cons, Bool.or_eq_true]
    rw [tgetD, tget_cons] at h
    split at h
    next v heq =>
      split at heq
      · obtain rfl := Option.some.inj heq
        exact .inl h
      · exact .inr (any_tgetD hd t k (by rw [tgetD, heq]; exact h))
    next => exact absurd h (by rw [hd]; exact Bool.false_ne_true)
/-- An entry that changes nothing that a predicate looks at. -/
theorem any_tset {α : Type} {f : α → Bool} {d v : α} (hd : f d = false) {k : Nat} : ∀ t : Tbl α, f v = f (tgetD t k d) →
    ((tset t k v).any fun e => f e.2) = t.any fun e => f e.2
  | [], h => by
    rw [tset, List.any_cons, h, tgetD_nil, hd]
    rfl
  | (j, w) :: t, h => by
    have hc : tgetD ((j, w) :: t) k d = if j = k then w else tgetD t k d := by
      rw [tgetD, tget_cons, tgetD]
      by_cases hj : j = k
      · rw [if_pos hj, if_pos hj]
      · rw [if_neg hj, if_neg hj]
    rw [hc] at h
    unfold tset
    split
    next hlt =>
      rw [if_neg (by omega)] at h
      rw [List.any_cons, List.any_cons]
      by_cases ht : f v = true
      · rw [any_tgetD hd t k (h ▸ ht), Bool.or_true, Bool.or_true]
      · rw [Bool.eq_false_of_not_eq_true ht, Bool.false_or]
    split
    next heq =>
      rw [if_pos heq.symm] at h
      rw [List.any_cons, List.any_cons, h]
    next hne =>
      rw [if_neg (Ne.symm hne)] at h
      rw [List.any_cons, List.any_cons, any_tset hd t h]
theorem mapLaps_same (s : State) (f : Nat → Nat → Overlap → Overlap) (hf : ∀ h i l, (f h i l).wrote = l.wrote) : SameLaps s (s.mapLaps s.cur f) := by
  have he := mapLaps_eq s s.cur f
  refine ⟨by rw [he], by rw [he]; rfl, mapLaps_wroteBy _ _ _ hf, fun p va n => ?_⟩
  unfold State.mapLaps
  dsimp only
  split
  · rfl
  · exact any_tset (f := fun x : Die => x.flash.slots.any fun h => h.2.meets p va n) (d := {}) rfl s.dies rfl
theorem noteStore_same (s : State) (va : Nat) (p : Place) (f : Bool) (n : Nat) : SameLaps s (s.noteStore va p f n) := by
  unfold State.noteStore
  generalize hu : s.mapLaps s.cur _ = u
  have h := hu ▸ mapLaps_same s (fun _ _ l => { l with dirty := l.dirty ++ [(p.key, s.bytesNow s.cur p n, f)] }) fun _ _ _ => rfl
  exact ((h.trans (noteHist_same ..)).trans (noteSends_same ..)).trans (noteSlots_same ..)
theorem settled_same (s : State) (va : Nat) (p : Place) (f : Bool) (n : Nat) : SameLaps s (s.settled va p f n) := by
  unfold State.settled
  refine .trans ?_ (noteStore_same _ _ _ _ _)
  split
  · exact .of_eq rfl rfl rfl rfl
  · exact .refl s
theorem storePlace_same (s : State) (va : W64) (pa : Nat) (b : List Byte) : SameLaps s (s.storePlace va (.phys pa) b) :=
  (settled_same ..).trans (storeRunsAt_same ..)
/-- Stores that overlap nothing before the first of them overlap nothing when their turn comes. -/
theorem plainly_of : ∀ (ps : List (W64 × Nat × List Byte)) (s : State), (∀ e, e ∈ ps → s.overlapped e.1.toNat e.2.1 e.2.2.length = false) → s.plainly ps
  | [], _, _ => trivial
  | e :: ps, s, h => ⟨h e (.head _), plainly_of ps _ fun f hf => ((storePlace_same s e.1 e.2.1 e.2.2).overlapped ..).trans (h f (.tail _ hf))⟩

/-! ### STV and STS (R163, R164) -/

/-- Pieces that agree on a byte, one of which covers its address. -/
theorem last_of_cover {a : Nat} {v : Byte} : ∀ (ps : List (Nat × List Byte)) (x : Byte),
    (∀ e, e ∈ ps → e.1 ≤ a → a < e.1 + e.2.length → e.2.getD (a - e.1) 0 = v) → (x = v ∨ ∃ e, e ∈ ps ∧ e.1 ≤ a ∧ a < e.1 + e.2.length) →
    Spec.last ps a x = v
  | [], x, _, h => h.elim id fun ⟨_, he, _⟩ => nomatch he
  | (p, y) :: t, x, hv, h => by
    unfold Spec.last
    refine last_of_cover t _ (fun e he => hv e (.tail _ he)) ?_
    by_cases hc : p ≤ a ∧ a < p + y.length
    · rw [if_pos hc]
      exact .inl (hv (p, y) (.head _) hc.1 hc.2)
    · rw [if_neg hc]
      refine h.imp_right fun ⟨e, he, h1, h2⟩ => ?_
      rcases List.mem_cons.1 he with rfl | he
      · exact absurd ⟨h1, h2⟩ hc
      · exact ⟨e, he, h1, h2⟩

theorem places_phys {α : Type} {s : State} {acc : Acc} (f : α → W64) (pa : α → Nat) (leaf : α → W64) : ∀ ls : List α,
    (∀ x, x ∈ ls → s.translate s.ctx acc (f x) = .at_ (.phys (pa x)) (leaf x)) → s.places acc (ls.map f) = .ok (ls.map fun x => .phys (pa x))
  | [], _ => rfl
  | x :: ls, h => by
    rw [List.map_cons, List.map_cons]
    unfold State.places
    rw [h x (.head _)]
    dsimp only
    rw [places_phys f pa leaf ls fun y hy => h y (.tail _ hy)]
/-- What STS does where every lane that is on is aligned, translates to the physical map and overlaps nothing. -/
theorem storeScatter_phys {s : State} {d a b : Fin 64} {p : Fin 8} {sc e : Fin 4} {pa : Nat → Nat} {leaf : Nat → W64}
    (hal : ∀ q, q ∈ lanesOn s p → (laneVa s a b sc q).toNat % elemN e = 0)
    (ht : ∀ q, q ∈ lanesOn s p → s.translate s.ctx .store (laneVa s a b sc q) = .at_ (.phys (pa q)) (leaf q)
      ∧ s.overlapped (laneVa s a b sc q).toNat (pa q) (elemN e) = false) :
    ∃ t, storeScatter s d a b p sc e = .ok t ∧ Spec.Stored s t ((lanesOn s p).map fun q =>
      (pa q, Spec.bytesOf (elemN e) (lane (s.me.vreg d.val (s.me.ctxExtent.1 + q / 16)) (q % 16)).toNat)) := by
  have hpl := places_phys (s := s) (acc := .store) (laneVa s a b sc) pa leaf (lanesOn s p) fun q hq => (ht q hq).1
  have hst := storePieces_stored ((lanesOn s p).map fun q =>
    (laneVa s a b sc q, pa q, leBytes (elemN e) (lane (s.me.vreg d.val (s.me.ctxExtent.1 + q / 16)) (q % 16)).toNat)) s (plainly_of _ s fun w hw => by
      obtain ⟨q, hq, rfl⟩ := List.mem_map.1 hw
      dsimp only
      rw [leBytes_eq, bytesOf_length]
      exact (ht q hq).2)
  rw [List.map_map, List.map_map] at hst
  unfold storeScatter
  dsimp only
  rw [misaligned_none hal]
  dsimp only
  rw [laneAddrs_eq, List.map_map, show (lanesOn s p).map ((fun x : Nat × Nat × W64 => x.2.2) ∘ fun q =>
    (s.me.ctxExtent.1 + q / 16, q % 16, laneVa s a b sc q)) = (lanesOn s p).map (laneVa s a b sc) from rfl, hpl]
  dsimp only
  rw [List.zip_map', List.map_map]
  refine ⟨_, rfl, ?_⟩
  simp only [leBytes_eq] at hst ⊢
  exact hst

/-- A store of part of a range that overlaps nothing overlaps nothing. -/
theorem overlapped_part {s : State} {va k n va' k' n' i : Nat} (h : s.overlapped va k n = false) (hv : va' = va + i) (hk : k' = k + i)
    (hn : i + n' ≤ n) : s.overlapped va' k' n' = false := by
  subst hv hk
  unfold State.overlapped at h ⊢
  rw [Bool.or_eq_false_iff, List.any_eq_false] at h ⊢
  obtain ⟨h1, h2⟩ := h
  refine ⟨fun l hl hd => h1 l hl ?_, ?_⟩
  · unfold anyDirty at hd ⊢
    rw [List.any_eq_true] at hd ⊢
    obtain ⟨e, he, hc⟩ := hd
    refine ⟨e, he, ?_⟩
    simp only [Bool.and_eq_true, decide_eq_true_eq] at hc ⊢
    omega
  · unfold State.inSlot at h2 ⊢
    rw [List.any_eq_false] at h2 ⊢
    intro d hd hs
    refine h2 d hd ?_
    rw [List.any_eq_true] at hs ⊢
    obtain ⟨x, hx, hm⟩ := hs
    refine ⟨x, hx, ?_⟩
    unfold HSlot.meets at hm ⊢
    simp only [Bool.and_eq_true, decide_eq_true_eq] at hm ⊢
    obtain ⟨⟨hp, hl⟩, hr⟩ := hm
    exact ⟨⟨hp, by omega⟩, by omega⟩

theorem activeBelow_le (p : Pred) (c : Nat) : ∀ n, activeBelow p c n ≤ n
  | 0 => Nat.le_refl 0
  | n + 1 => by
    have := activeBelow_le p c n
    rw [activeBelow]
    split <;> omega
theorem activeBelow_full {p : Pred} {c : Nat} : ∀ n, activeBelow p c n = n → ∀ l, l < n → p.getLsbD (16 * c + l) = true
  | 0, _, l, hl => absurd hl (Nat.not_lt_zero l)
  | n + 1, h, l, hl => by
    have hle := activeBelow_le p c n
    rw [activeBelow] at h
    by_cases hn : p.getLsbD (16 * c + n) = true
    · rw [if_pos hn] at h
      rcases Nat.lt_succ_iff_lt_or_eq.1 hl with hlt | rfl
      · exact activeBelow_full n (by omega) l hlt
      · exact hn
    · rw [if_neg hn] at h
      omega
theorem bytesOf_getD {n x i : Nat} (h : i < n) : (Spec.bytesOf n x).getD i 0 = BitVec.ofNat 8 (x / 256 ^ i) := by
  rw [List.getD_eq_getElem _ _ (by rw [bytesOf_length]; exact h)]
  simp [Spec.bytesOf]
/-- A byte of a row is one of its lane's (R2, R163). -/
theorem row_byte (x : Row) (a : Nat) : BitVec.ofNat 8 (x.toNat / 256 ^ a) = BitVec.ofNat 8 ((lane x (a / 4)).toNat / 256 ^ (a % 4)) := by
  apply BitVec.eq_of_toNat_eq
  rw [BitVec.toNat_ofNat, BitVec.toNat_ofNat, lane, BitVec.extractLsb'_toNat, Nat.shiftRight_eq_div_pow]
  have hp (k : Nat) : (256 : Nat) ^ k = 2 ^ (8 * k) := by rw [show (256 : Nat) = 2 ^ 8 from rfl, ← Nat.pow_mul]
  have h32 : (2 : Nat) ^ 32 = 2 ^ (8 * (a % 4)) * 2 ^ (32 - 8 * (a % 4)) := by rw [← Nat.pow_add]; congr 1; omega
  rw [hp, hp, h32, Nat.mod_mul_right_div_self, Nat.mod_mod_of_dvd _ (Nat.pow_dvd_pow 2 (by omega : 8 ≤ 32 - 8 * (a % 4))), Nat.div_div_eq_div_mul,
    ← Nat.pow_add, show 32 * (a / 4) + 8 * (a % 4) = 8 * a by omega]

/-- A piece of a row covers bytes of lanes that are on, and holds what the row has there. -/
theorem rowPieces_holds {pg : Pred} {c : Nat} {x : Row} {w : Nat × List Byte} (hw : w ∈ rowPieces pg c x) :
    w.1 ≤ 60 ∧ w.1 + w.2.length ≤ 64 ∧ ∀ a, w.1 ≤ a → a < w.1 + w.2.length →
      pg.getLsbD (16 * c + a / 4) = true ∧ w.2.getD (a - w.1) 0 = BitVec.ofNat 8 ((lane x (a / 4)).toNat / 256 ^ (a % 4)) := by
  unfold rowPieces at hw
  split at hw
  next hfull =>
    obtain rfl := List.mem_singleton.1 hw
    have hlen : (bytesRow x).length = 64 := by rw [bytesRow, leBytes_eq, bytesOf_length]
    dsimp only
    rw [hlen]
    refine ⟨Nat.zero_le _, Nat.le_refl 64, fun a _ ha => ⟨activeBelow_full 16 hfull _ (by omega), ?_⟩⟩
    rw [Nat.sub_zero, bytesRow, leBytes_eq, bytesOf_getD (by omega), row_byte]
  next =>
    obtain ⟨l, hl, rfl⟩ := List.mem_map.1 hw
    obtain ⟨hl, hon⟩ := List.mem_filter.1 hl
    have hl := List.mem_range.1 hl
    dsimp only
    rw [leBytes_eq, bytesOf_length]
    refine ⟨by omega, by omega, fun a h1 h2 => ?_⟩
    have ha : a / 4 = l ∧ a - 4 * l = a % 4 := by omega
    rw [ha.1, ha.2, bytesOf_getD (by omega)]
    exact ⟨hon, rfl⟩
/-- Every byte of a lane that is on is in a piece of its row. -/
theorem rowPieces_cover {pg : Pred} {c : Nat} {x : Row} {l i : Nat} (hl : l < 16) (hi : i < 4) (hon : pg.getLsbD (16 * c + l) = true) :
    ∃ w, w ∈ rowPieces pg c x ∧ w.1 ≤ 4 * l + i ∧ 4 * l + i < w.1 + w.2.length := by
  unfold rowPieces
  split
  · refine ⟨_, List.mem_singleton_self _, Nat.zero_le _, ?_⟩
    rw [bytesRow, leBytes_eq, bytesOf_length]
    omega
  · refine ⟨_, List.mem_map.2 ⟨l, List.mem_filter.2 ⟨List.mem_range.2 hl, hon⟩, rfl⟩, Nat.le_add_right .., ?_⟩
    rw [leBytes_eq, bytesOf_length]
    omega

/-- The row of register-cluster q of a block whose base register is d. -/
def blockRow (s : State) (d : Fin 64) (q : Nat) : Row := s.me.vreg (d.val + q / s.me.ctxExtent.2) (s.me.ctxExtent.1 + q % s.me.ctxExtent.2)
/-- The pieces that STV stores, at physical addresses. -/
def vectorPieces (s : State) (d : Fin 64) (p : Fin 8) (z : Fin 4) (pa : Nat → Nat) : List (Nat × List Byte) :=
  (blockOn s p z).flatMap fun q =>
    (rowPieces (s.me.preg p.val) (s.me.ctxExtent.1 + q % s.me.ctxExtent.2) (blockRow s d q)).map fun w => (pa q + w.1, w.2)
/-- What STV of an aligned block does where each of its register-clusters translates to the physical map and overlaps nothing. -/
theorem storeVector_phys {s : State} {d b : Fin 64} {p : Fin 8} {z : Fin 4} {o : Fin 256} {l : Lent} {pa : Nat → Nat} {leaf : Nat → W64}
    (ha : (s.me.sreg b.val + offM 6 o l).toNat % 64 = 0)
    (ht : ∀ q, q ∈ blockOn s p z → s.translate s.ctx .store (s.me.sreg b.val + offM 6 o l + BitVec.ofNat 64 (64 * q)) = .at_ (.phys (pa q)) (leaf q)
      ∧ s.overlapped (s.me.sreg b.val + offM 6 o l + BitVec.ofNat 64 (64 * q)).toNat (pa q) 64 = false) :
    ∃ t, storeVector s d b p z o l = .ok t ∧ Spec.Stored s t (vectorPieces s d p z pa) := by
  generalize hva : s.me.sreg b.val + offM 6 o l = va at ha ht
  have hpl := places_phys (s := s) (acc := .store) (fun q => va + BitVec.ofNat 64 (64 * q)) pa leaf (blockOn s p z) fun q hq => (ht q hq).1
  have hst := storePieces_stored ((blockOn s p z).flatMap fun q =>
    (rowPieces (s.me.preg p.val) (s.me.ctxExtent.1 + q % s.me.ctxExtent.2) (blockRow s d q)).map fun w =>
      (va + BitVec.ofNat 64 (64 * q) + BitVec.ofNat 64 w.1, pa q + w.1, w.2)) s (plainly_of _ s fun e he => by
    obtain ⟨q, hq, he⟩ := List.mem_flatMap.1 he
    obtain ⟨w, hw, rfl⟩ := List.mem_map.1 he
    obtain ⟨h60, hle, -⟩ := rowPieces_holds hw
    refine overlapped_part (ht q hq).2 ?_ rfl hle
    dsimp only
    rw [BitVec.toNat_add _ (BitVec.ofNat 64 w.1), BitVec.toNat_ofNat w.1, Nat.mod_eq_of_lt (show w.1 < 2 ^ 64 by omega), Nat.mod_eq_of_lt]
    rw [BitVec.toNat_add, BitVec.toNat_ofNat]
    have := va.isLt
    omega)
  unfold storeVector
  dsimp only
  rw [hva, if_neg (not_not.2 ha), show s.blockLines d z p va = (blockOn s p z).map fun q =>
    (va + BitVec.ofNat 64 (64 * q), s.me.ctxExtent.1 + q % s.me.ctxExtent.2, blockRow s d q) from rfl, List.map_map,
    show (blockOn s p z).map ((fun x : W64 × Nat × Row => x.1) ∘ fun q => (va + BitVec.ofNat 64 (64 * q), s.me.ctxExtent.1 + q % s.me.ctxExtent.2, blockRow s d q))
      = (blockOn s p z).map fun q => va + BitVec.ofNat 64 (64 * q) from rfl, hpl]
  dsimp only
  rw [List.zip_map', List.flatMap_map]
  refine ⟨_, rfl, ?_⟩
  rw [List.map_flatMap, List.map_flatMap] at hst
  simp only [List.map_map] at hst
  exact hst

/-- Settles O20: STV and STS by the alignment of their addresses, and what each lane that is on leaves. -/
theorem laneStores : Obligations.LaneStores := by
  unfold Obligations.LaneStores
  refine ⟨fun d b p z o l s hc => ?_, fun d a b p sc e s hc => ?_⟩
  · rw [address_eq]
    have he {r : Res} (h : storeVector s d b p z o l = r) : exec (.stv d b p z o l) s = meaning (.stv d b p z o l) 3 s r :=
      congrArg (meaning (.stv d b p z o l) 3 s) h
    dsimp only
    refine ⟨fun ha => ?_, fun ha pa leaf ht => ?_⟩
    · refine fault_Traps hc (by decide) (by decide) (by decide) (he ?_)
      unfold storeVector
      dsimp only
      rw [if_pos ha]
      rfl
    have hon {q : Nat} (hq : q ∈ blockOn s p z) := ht q (mem_blockOn.1 hq).1 (mem_blockOn.1 hq).2
    obtain ⟨t, hx, hst⟩ := storeVector_phys (d := d) ha fun q hq => ⟨(hon hq).1, (hon hq).2.2⟩
    refine ⟨_, _, (he hx).trans (meaning_ok hc), rfl, Stored.mark hst _, fun w a hw h1 h2 => ?_, fun q k i x hq ⟨hk, hqk⟩ hi huniq => ?_⟩
    · obtain ⟨q, hq, hw⟩ := List.mem_flatMap.1 hw
      obtain ⟨v, hv, rfl⟩ := List.mem_map.1 hw
      obtain ⟨-, hle, hb⟩ := rowPieces_holds hv
      dsimp only at h1 h2
      have hact := (hb (a - pa q) (by omega) (by omega)).1
      exact ⟨q, (a - pa q) / 4, (a - pa q) % 4, (mem_blockOn.1 hq).1, ⟨by omega, hact⟩, by omega, by omega⟩
    · have hmem : q ∈ blockOn s p z := mem_blockOn.2 ⟨hq, k, hk, hqk⟩
      refine last_of_cover _ x (fun e hm h1 h2 => ?_) (.inr ?_)
      · obtain ⟨r, hr, hm⟩ := List.mem_flatMap.1 hm
        obtain ⟨v, hv, rfl⟩ := List.mem_map.1 hm
        obtain ⟨-, hle, hb⟩ := rowPieces_holds hv
        dsimp only at h1 h2 ⊢
        have hpr := (hon hr).2.1
        have hpq := (hon hmem).2.1
        obtain ⟨hact, hbyte⟩ := hb (pa q + 4 * k + i - pa r) (by omega) (by omega)
        have hrq : r = q := huniq r _ (mem_blockOn.1 hr).1 ⟨by omega, hact⟩ (by omega)
        subst hrq
        have hk' : pa r + 4 * k + i - pa r = 4 * k + i := by omega
        rw [hk'] at hbyte
        rw [show pa r + 4 * k + i - (pa r + v.1) = 4 * k + i - v.1 by omega, hbyte, show (4 * k + i) / 4 = k by omega, show (4 * k + i) % 4 = i by omega]
        rfl
      · obtain ⟨v, hv, h1, h2⟩ := rowPieces_cover (x := blockRow s d q) hk hi hqk
        exact ⟨(pa q + v.1, v.2), List.mem_flatMap.2 ⟨q, hmem, List.mem_map.2 ⟨v, hv, rfl⟩⟩, by dsimp only; omega, by dsimp only; omega⟩
  · have he {r : Res} (h : storeScatter s d a b p sc e = r) : exec (.sts d a b p sc e) s = meaning (.sts d a b p sc e) 3 s r :=
      congrArg (meaning (.sts d a b p sc e) 3 s) h
    rw [← elemN_eq]
    dsimp only
    refine ⟨fun q hq hm hf => ?_, fun hal pa leaf ht => ?_⟩
    · refine fault_Traps hc (by decide) (by decide) (by decide) (he ?_)
      unfold storeScatter
      dsimp only
      rw [misaligned_first (mem_lanesOn.2 hq) hm fun r hr hlt => hf r (mem_lanesOn.1 hr) hlt]
      rfl
    · obtain ⟨t, hx, hst⟩ := storeScatter_phys (d := d) (e := e) (fun q hq => hal q (mem_lanesOn.1 hq)) fun q hq => ht q (mem_lanesOn.1 hq)
      exact ⟨_, (he hx).trans (meaning_ok hc), rfl, Stored.mark hst _⟩
end Sys2Proof.Machine
end

section
/-! Proofs about writes of a path that reach their homes (R318). -/
namespace Sys2Proof.Machine
open Sys2Proof

/-! ### Writes of a path that reach their homes (R318) -/

theorem toMem_iff (w : PathStore) : Spec.toMem w = true ↔ w.tile = none ∧ inHostBlock w.addr = false := by
  unfold Spec.toMem
  cases w.tile <;> simp
theorem takeEffect_toMem {s : State} {w : PathStore} (h : Spec.toMem w = true) : s.takeEffect w = { s with mem := memWrite s.mem w.addr w.bytes } := by
  obtain ⟨ht, hh⟩ := (toMem_iff w).1 h
  unfold State.takeEffect
  rw [ht]
  dsimp only
  rw [hh, if_neg Bool.false_ne_true]
theorem takeEffect_host {s : State} {w : PathStore} (ht : w.tile = none) (h : Spec.toMem w = false) :
    s.takeEffect w = s.hostWrite (w.addr - hostPa) w.bytes := by
  unfold State.takeEffect
  rw [ht]
  dsimp only
  rw [if_pos]
  by_contra hh
  rw [(toMem_iff w).2 ⟨ht, Bool.eq_false_of_not_eq_true hh⟩] at h
  exact absurd h (by decide)

theorem hostReg_quads (s : State) (o : Nat) (b : List Byte) (r : Nat) : (s.hostReg o b r).quads = s.quads := by
  unfold State.hostReg State.poolbaseSet State.keepcfgSet
  split_ifs <;> rfl
theorem windowWrite_quads (s : State) (o : Nat) (b : List Byte) : (s.windowWrite o b).quads = s.quads := by
  unfold State.windowWrite
  dsimp only
  split_ifs <;> rfl
theorem mailbox_quads (s : State) (b : List Byte) : (s.mailbox b).quads = s.quads := by
  unfold State.mailbox
  dsimp only
  split_ifs <;> rfl
theorem hostWrite_quads (s : State) (o : Nat) (b : List Byte) : (s.hostWrite o b).quads = s.quads := by
  unfold State.hostWrite
  split
  · exact windowWrite_quads ..
  split
  · exact mailbox_quads ..
  · simp only [List.foldl_cons, List.foldl_nil, hostReg_quads]
theorem writeTile_quads (s : State) (d ix o : Nat) (b : List Byte) : (s.writeTile d ix o b).quads = s.quads := by
  unfold State.writeTile
  dsimp only
  split <;> rfl
theorem tileWrite_quads (s : State) (w : PathStore) (d ix g : Nat) : (s.tileWrite w d ix g).quads = s.quads := by
  unfold State.tileWrite
  split
  · exact writeTile_quads ..
  · dsimp only
    split
    · unfold State.coreHalt
      rw [(unitHalt_only ..).eq]
      rfl
    · rw [(unitHalt_only ..).eq]
theorem takeEffect_quads (s : State) (w : PathStore) : (s.takeEffect w).quads = s.quads := by
  unfold State.takeEffect
  split
  · exact tileWrite_quads ..
  split
  · exact hostWrite_quads ..
  · rfl
theorem takeEffect_byte (s : State) (w : PathStore) (x : Nat) : tgetD (s.takeEffect w).mem x 0 =
    if Spec.toMem w = true then (if w.addr ≤ x ∧ x < w.addr + w.bytes.length then w.bytes.getD (x - w.addr) 0 else tgetD s.mem x 0) else tgetD s.mem x 0 := by
  by_cases h : Spec.toMem w = true
  · rw [if_pos h, takeEffect_toMem h, tgetD_memWrite]
  · rw [if_neg h]
    unfold State.takeEffect
    split
    next d ix g _ =>
      unfold State.tileWrite
      split
      · rw [writeTile_mem]
      · dsimp only
        split
        · rw [coreHalt_mem]
        · rw [unitHalt_mem]
    next ht =>
      have hh : inHostBlock w.addr = true := by
        by_contra hh
        exact h ((toMem_iff w).2 ⟨ht, Bool.eq_false_of_not_eq_true hh⟩)
      rw [if_pos hh, hostWrite_mem]

theorem homeByte_cons (s t : State) (w : PathStore) (ws : List PathStore) (x : Nat)
    (h : tgetD t.mem x 0 = if Spec.toMem w = true then (if w.addr ≤ x ∧ x < w.addr + w.bytes.length then w.bytes.getD (x - w.addr) 0 else tgetD s.mem x 0)
      else tgetD s.mem x 0) : Spec.homeByte t ws x = Spec.homeByte s (w :: ws) x := by
  unfold Spec.homeByte
  rw [h, List.filter_cons]
  split <;> rfl

/-- What the first n writes of a quad's path leave when they have reached their homes. -/
structure PathReached (s t : State) (q n : Nat) : Prop where
  path : (t.quad q).path = (s.quad q).path.drop n
  quad : t.quad q = { s.quad q with path := (t.quad q).path }
  others : ∀ p, p ≠ q → t.quad p = s.quad p
  bytes : ∀ x, tgetD t.mem x 0 = Spec.homeByte s ((s.quad q).path.take n) x
  plain : (∀ w, w ∈ (s.quad q).path.take n → Spec.toMem w = true) → t = { s with mem := t.mem, quads := t.quads }
theorem performFirst_reached (q : Nat) : ∀ (n : Nat) (s : State), PathReached s (s.performFirst q n) q n
  | 0, s => ⟨rfl, rfl, fun _ _ => rfl, fun _ => rfl, fun _ => rfl⟩
  | n + 1, s => by
    unfold State.performFirst
    dsimp only
    split
    next h => exact ⟨by rw [h]; rfl, rfl, fun _ _ => rfl, fun _ => by rw [h]; rfl, fun _ => rfl⟩
    next w r h =>
      generalize hu : (s.setQuad q { s.quad q with path := r }).takeEffect w = u
      have hq (p : Nat) : u.quad p = (s.setQuad q { s.quad q with path := r }).quad p := by
        rw [← hu]
        exact congrArg (fun qs => tgetD qs p ({} : Quad)) (takeEffect_quads _ w)
      have hqq : u.quad q = { s.quad q with path := r } := (hq q).trans (State.quad_setQuad_same ..)
      obtain ⟨h1, h2, h3, h4, h5⟩ := performFirst_reached q n u
      have hb (x : Nat) := takeEffect_byte (s.setQuad q { s.quad q with path := r }) w x
      rw [hu] at hb
      refine ⟨?_, ?_, fun p hp => ?_, fun x => ?_, fun hm => ?_⟩
      · rw [h1, hqq, h]
        rfl
      · rw [h2, hqq]
      · rw [h3 p hp, hq, State.quad_setQuad_other _ _ (Ne.symm hp)]
      · rw [h4, hqq, h]
        exact homeByte_cons s u w _ x (hb x)
      · rw [h] at hm
        rw [hqq] at h5
        have hw := hm w (.head _)
        rw [h5 fun v hv => hm v (.tail _ hv), ← hu, takeEffect_toMem hw]
        rfl

/-! ### The store that reaches its home (R318) -/

theorem dueCount_taken (clk : Nat) : ∀ l : List PathStore, ∀ w, w ∈ l.take (dueCount clk 0 l) → w.tile = none ∧ w.due ≤ clk
  | [], w, h => nomatch h
  | v :: r, w, h => by
    unfold dueCount at h
    split at h
    · exact absurd h List.not_mem_nil
    next hd =>
      split at h
      next ht =>
        rcases List.mem_cons.1 h with rfl | h
        · exact ⟨ht, Nat.le_of_not_lt hd⟩
        · exact dueCount_taken clk r w h
      · exact absurd h List.not_mem_nil
      next n _ hn => exact absurd hn (by omega)
theorem dueCount_next (clk : Nat) : ∀ l : List PathStore, ∀ w, (l.drop (dueCount clk 0 l)).head? = some w → w.tile ≠ none ∨ clk < w.due
  | [], w, h => nomatch h
  | v :: r, w, h => by
    unfold dueCount at h
    split at h
    next hd =>
      obtain rfl := Option.some.inj h
      exact .inr hd
    next hd =>
      split at h
      · exact dueCount_next clk r w h
      next ht _ =>
        obtain rfl := Option.some.inj h
        exact .inl (by rw [ht]; exact Option.some_ne_none _)
      next n _ hn => exact absurd hn (by omega)

/-- Writes that stand before every TWR are seen by every core of the quad. -/
theorem seenBy_append {c : Nat} {r : List PathStore} : ∀ l : List PathStore, (∀ w, w ∈ l → w.tile = none) → seenBy c [] (l ++ r) = l ++ seenBy c [] r
  | [], _ => rfl
  | w :: l, h => by
    rw [List.cons_append, seenBy, if_neg (by rw [h w (.head _)]; simp), if_neg (by simp), seenBy_append l fun v hv => h v (.tail _ hv), List.cons_append]
theorem homeByte_plain {s : State} {ws : List PathStore} (h : ∀ w, w ∈ ws → Spec.toMem w = true) (x : Nat) :
    Spec.homeByte s ws x = pathByte ws x (tgetD s.mem x 0) := by
  have key : ∀ (ws : List PathStore) (b : Byte), (∀ w, w ∈ ws → Spec.toMem w = true) →
      Spec.last ((ws.filter Spec.toMem).map fun w => (w.addr, w.bytes)) x b = pathByte ws x b := by
    intro ws
    induction ws with
    | nil => exact fun _ _ => rfl
    | cons w ws ih =>
      intro b h
      have hw := h w (.head _)
      rw [List.filter_cons, if_pos hw, List.map_cons, pathByte_cons, Spec.last, ih _ fun v hv => h v (.tail _ hv)]
      simp [((toMem_iff w).1 hw).1]
  exact key ws _ h
theorem PathReached.seenByte {s t : State} {q n : Nat} (h : PathReached s t q n) (hm : ∀ w, w ∈ (s.quad q).path.take n → Spec.toMem w = true) {c : Nat}
    (hc : c / 4 = q) (x : Nat) : t.seenByte c x = s.seenByte c x := by
  have hs : (s.quad q).path = (s.quad q).path.take n ++ (t.quad q).path := by rw [h.path, List.take_append_drop]
  unfold State.seenByte
  rw [hc, h.bytes, homeByte_plain hm]
  generalize (s.quad q).path.take n = l at hm hs
  rw [hs, seenBy_append l fun w hw => ((toMem_iff w).1 (hm w hw)).1, pathByte_append]

/-- The order of an event among others depends on no path. -/
theorem before_quads {s : State} {qs : Tbl Quad} (h : ∀ q, (tgetD qs q {}).chans = (s.quad q).chans) (i j : Instr) :
    State.before { s with quads := qs } i j = s.before i j := by
  have hc (i : Instr) : State.tileCore { s with quads := qs } i = s.tileCore i := by
    unfold State.tileCore
    split
    · rfl
    next q id => exact congrArg (fun ch => ((List.flatMap (·.2) ch).find? fun m : CopyCmd => m.id == id).map CopyCmd.core) (h q)
    all_goals rfl
  have hr (i : Instr) : State.rank { s with quads := qs } i = s.rank i := by
    unfold State.rank
    simp only [hc]
    rfl
  unfold State.before
  rw [hr, hr]
theorem schedule_quads {s : State} {qs : Tbl Quad} (h : ∀ q, (tgetD qs q {}).chans = (s.quad q).chans) (dt : Nat) (i : Instr) :
    State.schedule { s with quads := qs } dt i = { s.schedule dt i with quads := qs } := by
  unfold State.schedule
  rw [show State.before { s with quads := qs } i = s.before i from funext fun j => before_quads h i j]
theorem apply_withQuads {qs : Tbl Quad} {c : Prop} [Decidable c] {a b a' b' : State} (ha : a' = { a with quads := qs }) (hb : b' = { b with quads := qs }) :
    (if c then a' else b') = { (if c then a else b) with quads := qs } := by
  split
  · exact ha
  · exact hb
section
variable {s : State} {qs : Tbl Quad} (h : ∀ q, (tgetD qs q {}).chans = (s.quad q).chans)
include h
theorem windowWrite_withQuads (o : Nat) (b : List Byte) : State.windowWrite { s with quads := qs } o b = { s.windowWrite o b with quads := qs } :=
  apply_withQuads rfl (apply_withQuads rfl (apply_withQuads (schedule_quads (s := { s with packets := s.packets ++ [b] }) h 1 (packetEvent b)) rfl))
theorem mailbox_withQuads (b : List Byte) : State.mailbox { s with quads := qs } b = { s.mailbox b with quads := qs } := by
  refine apply_withQuads rfl (apply_withQuads rfl (apply_withQuads rfl ?_))
  exact schedule_quads (s := { s with mboxOp := field b 0 1, mboxState := 1, mboxDetail := 0, mboxNext := some _ }) h 1 _
end
theorem hostReg_withQuads (s : State) (qs : Tbl Quad) (o : Nat) (b : List Byte) (r : Nat) :
    State.hostReg { s with quads := qs } o b r = { s.hostReg o b r with quads := qs } :=
  apply_withQuads rfl (apply_withQuads rfl (apply_withQuads (apply_withQuads rfl rfl) (apply_withQuads rfl (apply_withQuads rfl rfl))))
theorem hostWrite_withQuads {s : State} {qs : Tbl Quad} (h : ∀ q, (tgetD qs q {}).chans = (s.quad q).chans) (o : Nat) (b : List Byte) :
    State.hostWrite { s with quads := qs } o b = { s.hostWrite o b with quads := qs } := by
  refine apply_withQuads (windowWrite_withQuads h o b) (apply_withQuads (mailbox_withQuads h b) ?_)
  simp only [List.foldl_cons, List.foldl_nil, hostReg_withQuads]

/-- One write alone reaches its home. -/
theorem performFirst_one {s : State} {q n : Nat} {w : PathStore} (h : (s.quad q).path.take n = [w]) :
    s.performFirst q n = (s.setQuad q { s.quad q with path := ((s.performFirst q n).quad q).path }).takeEffect w := by
  have hp := (performFirst_reached q n s).path
  cases n with
  | zero => exact absurd h (List.cons_ne_nil _ _).symm
  | succ n =>
    rw [hp]
    cases hs : (s.quad q).path with
    | nil => exact absurd h (by rw [hs]; exact (List.cons_ne_nil _ _).symm)
    | cons v r =>
      rw [hs, List.take_succ_cons] at h
      obtain ⟨rfl, hr⟩ := List.cons.inj h
      unfold State.performFirst
      dsimp only
      rw [hs]
      dsimp only
      cases n with
      | zero => rfl
      | succ n =>
        have hnil : r = [] := (List.take_eq_nil_iff.1 hr).resolve_left (Nat.succ_ne_zero n)
        subst hnil
        have hq : ((s.setQuad q { s.quad q with path := [] }).takeEffect v).quad q = { s.quad q with path := [] } :=
          (congrArg (fun qs => tgetD qs q ({} : Quad)) (takeEffect_quads _ v)).trans (State.quad_setQuad_same ..)
        unfold State.performFirst
        dsimp only
        rw [hq]
        rfl

/-- Settles O22: the writes at the head of the path that are due have reached their homes. -/
theorem storePerformed : Obligations.StorePerformed := by
  unfold Obligations.StorePerformed
  intro q s
  have h := performFirst_reached q (dueCount s.clk 0 (s.quad q).path) s
  refine ⟨s.performStore q, (s.quad q).path.take (dueCount s.clk 0 (s.quad q).path), rfl, ?_, dueCount_taken _ _, fun w hw => ?_, h.bytes, h.others, h.quad,
    fun hm => ⟨fun c x hc => h.seenByte hm hc x, h.plain hm⟩, fun w hd hw => ?_⟩
  · rw [show s.performStore q = s.performFirst q (dueCount s.clk 0 (s.quad q).path) from rfl, h.path, List.take_append_drop]
  · exact dueCount_next s.clk (s.quad q).path w (h.path ▸ hw)
  · have ht := (dueCount_taken s.clk (s.quad q).path w (by rw [hd]; exact List.mem_singleton_self w)).1
    have hstep : s.performStore q = _ := performFirst_one hd
    rw [takeEffect_host ht hw] at hstep
    generalize ((s.performFirst q (dueCount s.clk 0 (s.quad q).path)).quad q).path = r at hstep
    have hw := hostWrite_withQuads (s := s) (qs := (s.setQuad q { s.quad q with path := r }).quads) (fun p => ?_) (w.addr - hostPa) w.bytes
    · rw [hstep]
      refine Eq.trans (show (s.setQuad q { s.quad q with path := r }).hostWrite _ _ = _ from hw) ?_
      rw [hostWrite_quads]
    · refine Eq.trans (congrArg Quad.chans (State.quad_setQuad s q p { s.quad q with path := r })) ?_
      split
      next hqp => subst hqp; rfl
      · rfl
end Sys2Proof.Machine
end

section
/-! Proofs about the atomics (R169). -/
namespace Sys2Proof.Machine
open Sys2Proof

/-! ### What writes leave unchanged when they reach their homes -/

/-- Beside memory, tiles and the host's registers, a write that reaches its home can only stop its core, and begin the halt of its partition. -/
structure TakesEffect (s t : State) : Prop where
  rest : t = { s with mem := t.mem, quads := t.quads, cores := t.cores, parts := t.parts, agenda := t.agenda, dies := t.dies, lcOverrun := t.lcOverrun
                      packets := t.packets, poolbase := t.poolbase, keepNext := t.keepNext, throttled := t.throttled, windows := t.windows
                      mboxOverrun := t.mboxOverrun, mboxState := t.mboxState, mboxOp := t.mboxOp, mboxDetail := t.mboxDetail, mboxNext := t.mboxNext }
  core : ∀ c, t.core c = { s.core c with stopped := (t.core c).stopped }
  slots : ∀ p va n, t.inSlot p va n = s.inSlot p va n
namespace TakesEffect
theorem refl (s : State) : TakesEffect s s := ⟨rfl, fun _ => rfl, fun _ _ _ => rfl⟩
theorem trans {s t u : State} (h : TakesEffect s t) (g : TakesEffect t u) : TakesEffect s u :=
  ⟨by rw [g.rest, h.rest], fun c => by rw [g.core, h.core], fun p va n => (g.slots p va n).trans (h.slots p va n)⟩
theorem of_eq {s t : State} (h : t = { s with mem := t.mem, quads := t.quads, parts := t.parts, agenda := t.agenda, lcOverrun := t.lcOverrun
                                              packets := t.packets, poolbase := t.poolbase, keepNext := t.keepNext, throttled := t.throttled, windows := t.windows
                                              mboxOverrun := t.mboxOverrun, mboxState := t.mboxState, mboxOp := t.mboxOp, mboxDetail := t.mboxDetail
                                              mboxNext := t.mboxNext }) : TakesEffect s t :=
  ⟨by rw [h], fun c => by rw [h]; rfl, fun p va n => by rw [h]; rfl⟩
theorem foldl {α : Type} {f : State → α → State} (h : ∀ s a, TakesEffect s (f s a)) : ∀ (l : List α) (s : State), TakesEffect s (l.foldl f s)
  | [], s => refl s
  | a :: l, s => (h s a).trans (foldl h l (f s a))
end TakesEffect

theorem hostReg_effect (s : State) (o : Nat) (b : List Byte) (r : Nat) : TakesEffect s (s.hostReg o b r) := by
  refine .of_eq ?_
  unfold State.hostReg State.poolbaseSet State.keepcfgSet
  split_ifs <;> rfl
theorem hostWrite_effect (s : State) (o : Nat) (b : List Byte) : TakesEffect s (s.hostWrite o b) := by
  unfold State.hostWrite
  split
  · refine .of_eq ?_
    unfold State.windowWrite
    dsimp only
    split_ifs <;> rfl
  split
  · refine .of_eq ?_
    unfold State.mailbox
    dsimp only
    split_ifs <;> rfl
  · exact TakesEffect.foldl (fun t r => hostReg_effect t o b r) _ s
theorem writeTile_effect (s : State) (d ix o : Nat) (b : List Byte) : TakesEffect s (s.writeTile d ix o b) := by
  unfold State.writeTile
  dsimp only
  split
  · refine ⟨rfl, fun _ => rfl, fun p va n => ?_⟩
    exact any_tset (f := fun x : Die => x.flash.slots.any fun h => h.2.meets p va n) (d := {}) rfl s.dies rfl
  · exact .refl s
theorem unitHalt_effect (s : State) (p k i : Nat) (f : FaultInfo) (m : CmdInfo) : TakesEffect s (s.unitHalt p k i f m) := by
  have h := unitHalt_only s p k i f m
  exact .of_eq (by rw [h.eq])
theorem stopped_effect (s : State) (c : Nat) (b : Bool) : TakesEffect s (s.setCore c { s.core c with stopped := b }) := by
  refine ⟨rfl, fun j => ?_, fun _ _ _ => rfl⟩
  rw [State.core_setCore]
  split
  next h => subst h; rfl
  · rfl
theorem coreHalt_effect (s : State) (c : Nat) (f : FaultInfo) : TakesEffect s (s.coreHalt c f) :=
  (stopped_effect s c true).trans (unitHalt_effect ..)
theorem takeEffect_effect (s : State) (w : PathStore) : TakesEffect s (s.takeEffect w) := by
  unfold State.takeEffect State.tileWrite
  split
  · split
    · exact writeTile_effect ..
    dsimp only
    split
    · exact coreHalt_effect ..
    · exact unitHalt_effect ..
  split
  · exact hostWrite_effect ..
  · exact .of_eq rfl
theorem performFirst_effect (q : Nat) : ∀ (n : Nat) (s : State), TakesEffect s (s.performFirst q n)
  | 0, s => .refl s
  | n + 1, s => by
    unfold State.performFirst
    dsimp only
    split
    · exact .refl s
    · exact (TakesEffect.of_eq (s := s) rfl).trans ((takeEffect_effect ..).trans (performFirst_effect q n _))

/-- Part of a range that no slot's destination meets is met by none. -/
theorem inSlot_part {s : State} {p va va' n n' i : Nat} (h : s.inSlot p va n = false) (hv : va' = va + i) (hn : i + n' ≤ n) : s.inSlot p va' n' = false := by
  subst hv
  unfold State.inSlot at h ⊢
  rw [List.any_eq_false] at h ⊢
  intro d hd hs
  refine h d hd ?_
  rw [List.any_eq_true] at hs ⊢
  obtain ⟨x, hx, hm⟩ := hs
  refine ⟨x, hx, ?_⟩
  unfold HSlot.meets at hm ⊢
  simp only [Bool.and_eq_true, decide_eq_true_eq] at hm ⊢
  obtain ⟨⟨hp, hl⟩, hr⟩ := hm
  exact ⟨⟨hp, by omega⟩, by omega⟩

/-! ### Atomics (R169) -/

/-- Bytes depend on a number's low bits alone. -/
theorem byte_of_mod {x y n j : Nat} (h : x % 256 ^ n = y % 256 ^ n) (hj : j < n) : BitVec.ofNat 8 (x / 256 ^ j) = BitVec.ofNat 8 (y / 256 ^ j) := by
  have key (x : Nat) : x / 256 ^ j % 2 ^ 8 = x % 256 ^ n % (256 ^ j * 256) / 256 ^ j := by
    rw [Nat.mod_mod_of_dvd _ (by rw [← Nat.pow_succ]; exact Nat.pow_dvd_pow 256 hj), Nat.mod_mul_right_div_self]
    rfl
  apply BitVec.eq_of_toNat_eq
  rw [BitVec.toNat_ofNat, BitVec.toNat_ofNat, key, key, h]

/-- An atomic's effect, with the table's new value on its bytes. -/
structure AtomicForm (i : Instr) (s : State) (d a b : Fin 64) (n : Nat) (f : Nat → Nat → Nat → Nat) (z : Bool) (g : Nat → W64 → W64 → W64) : Prop where
  width : n = if z then 8 else 4
  exec : exec i s = meaning i 1 s (atomicEffect s d a b z g)
  value : ∀ old, old < 256 ^ n → (g (8 * n) (BitVec.ofNat 64 old) (s.me.sreg b.val)).toNat % 256 ^ n
    = f old (s.me.sreg b.val).toNat (s.me.sreg d.val).toNat % 256 ^ n
theorem toNat_old {z : Bool} {old : Nat} (h : old < 256 ^ (if z then 8 else 4)) : (BitVec.ofNat 64 old).toNat = old := by
  rw [BitVec.toNat_ofNat, Nat.mod_eq_of_lt]
  cases z
  · exact h.trans (by decide)
  · exact h
theorem toNat_old' {z : Bool} {old : Nat} (h : old < 256 ^ (if z then 8 else 4)) : old % 2 ^ 64 = old :=
  (BitVec.toNat_ofNat ..).symm.trans (toNat_old h)
theorem bits_bytes (n : Nat) : 2 ^ (8 * n) = 256 ^ n := Nat.pow_mul 2 8 n
theorem mod_word {z : Bool} (x : Nat) : x % 2 ^ 64 % 256 ^ (if z then 8 else 4) = x % 256 ^ (if z then 8 else 4) :=
  Nat.mod_mod_of_dvd x (by cases z <;> decide)
/-- One of two words by their order or equality, as the table has it. -/
theorem chosen_mod {z : Bool} {p q : Prop} [Decidable p] [Decidable q] {y : W64} {old : Nat} (h : old < 256 ^ (if z then 8 else 4)) (hpq : p ↔ q) :
    (if p then y else BitVec.ofNat 64 old).toNat % 256 ^ (if z then 8 else 4)
      = (if q then y.toNat % 256 ^ (if z then 8 else 4) else old) % 256 ^ (if z then 8 else 4) := by
  by_cases hp : p
  · rw [if_pos hp, if_pos (hpq.1 hp), Nat.mod_mod]
  · rw [if_neg hp, if_neg (mt hpq.2 hp), toNat_old h]
theorem lessW_iff {w : Nat} {x y : W64} : lessW w x y = true ↔ Spec.sgn w x.toNat < Spec.sgn w y.toNat := decide_eq_true_iff
theorem atomic_form {i : Instr} {s : State} {d a b : Fin 64} {n : Nat} {c : Fin 8} {rel : Bool} {f : Nat → Nat → Nat → Nat}
    (h : Spec.atomic i = some (d, a, b, n, c, rel, f)) : ∃ z g, AtomicForm i s d a b n f z g := by
  unfold Spec.atomic at h
  dsimp only at h
  cases i
  case aadd d a b z c o =>
    obtain ⟨⟩ := h
    refine ⟨z, _, rfl, rfl, fun old ho => ?_⟩
    rw [BitVec.toNat_add, toNat_old ho, mod_word, Nat.mod_mod]
  case amin d a b z c o =>
    obtain ⟨⟩ := h
    exact ⟨z, _, rfl, rfl, fun old ho => chosen_mod ho (by rw [lessW_iff, toNat_old ho])⟩
  case amax d a b z c o =>
    obtain ⟨⟩ := h
    exact ⟨z, _, rfl, rfl, fun old ho => chosen_mod ho (by rw [lessW_iff, toNat_old ho])⟩
  case aand d a b z c o =>
    obtain ⟨⟩ := h
    refine ⟨z, _, rfl, rfl, fun old ho => ?_⟩
    rw [BitVec.toNat_and, toNat_old ho, Nat.mod_mod]
  case aor d a b z c o =>
    obtain ⟨⟩ := h
    refine ⟨z, _, rfl, rfl, fun old ho => ?_⟩
    rw [BitVec.toNat_or, toNat_old ho, Nat.mod_mod]
  case axor d a b z c o =>
    obtain ⟨⟩ := h
    refine ⟨z, _, rfl, rfl, fun old ho => ?_⟩
    rw [BitVec.toNat_xor, toNat_old ho, Nat.mod_mod]
  case aswp d a b z c o =>
    obtain ⟨⟩ := h
    refine ⟨z, _, rfl, rfl, fun old ho => ?_⟩
    rw [Nat.mod_mod]
  case acas d a b z c o =>
    obtain ⟨⟩ := h
    exact ⟨z, _, rfl, rfl, fun old ho => chosen_mod ho (by rw [toNat_old ho, bits_bytes, Nat.mod_eq_of_lt ho])⟩
  all_goals exact absurd h (Option.some_ne_none _).symm

/-- A scalar result of the current core is awaited (R32). -/
structure PendsScalar (s t : State) (d lat : Nat) (v : W64) : Prop where
  rest : t = { s with cores := t.cores, agenda := t.agenda, nextId := t.nextId }
  me : t.me = { s.me with pend := t.me.pend, seq := s.me.seq + 1 }
  others : ∀ j, j ≠ s.cur → t.core j = s.core j
  awaits : Spec.Awaits s t d v lat
theorem pend_scalar (s : State) (d lat : Nat) (v : W64) : PendsScalar s (s.pend [keyS d] (some (.scalar d v)) lat).2 d lat v := by
  have hm : (s.pend [keyS d] (some (.scalar d v)) lat).2.me
      = { s.me with pend := s.me.pend ++ [⟨s.nextId, [keyS d], s.me.bid, s.me.seq, some (.scalar d v)⟩], seq := s.me.seq + 1 } :=
    State.core_setCore_same { s with nextId := s.nextId + 1 } s.cur _
  refine ⟨rfl, by rw [hm], fun j hj => State.core_setCore_other { s with nextId := s.nextId + 1 } _ (Ne.symm hj), s.nextId, by rw [hm], ?_⟩
  exact mem_schedule.2 (.inl rfl)

/-- An atomic's write where no slot has its destination. -/
theorem atomicBytes_plain {s : State} {va : Nat} {b : List Byte} (h : s.inSlot s.myPart va b.length = false) : s.atomicBytes va b = b := by
  unfold State.atomicBytes
  refine List.ext_getElem (by simp) fun j h1 h2 => ?_
  have h1 : s.inSlot s.myPart (va + j) 1 = false := inSlot_part h rfl (by simpa using h2)
  simp [State.slotByte, h1]
theorem atomicBytes_length (s : State) (va : Nat) (b : List Byte) : (s.atomicBytes va b).length = b.length := by simp [State.atomicBytes]

/-- The state in which an atomic has written bytes w at its home, before it awaits its result (R313). -/
def atomicDone (s : State) (va pa n : Nat) (w : List Byte) : State :=
  let u := ((s.flushPath s.myQuad).settled va (.phys pa) false n).countPlaces (s.flushPath s.myQuad).cur [(.phys pa, n)]
  { u with mem := memWrite u.mem pa w }
theorem atomicEffect_misaligned {s : State} {d a b : Fin 64} {z : Bool} {g : Nat → W64 → W64 → W64}
    (h : (s.me.sreg a.val).toNat % (if z then 8 else 4) ≠ 0) : atomicEffect s d a b z g = fault alignment 0 (s.me.sreg a.val) := by
  unfold atomicEffect
  dsimp only
  rw [if_pos h]
/-- What an atomic leaves: the bytes of its home, an empty path of its quad, and what its writes to tiles and to the host do there. -/
structure AtomicDone (s t : State) (pa : Nat) (w : List Byte) : Prop where
  bytes : ∀ x, tgetD t.mem x 0 = if pa ≤ x ∧ x < pa + w.length then w.getD (x - pa) 0 else Spec.homeByte s (s.quad s.myQuad).path x
  path : (t.quad s.myQuad).path = []
  others : ∀ q, q ≠ s.myQuad → t.quad q = s.quad q
  cur : t.cur = s.cur
  clk : t.clk = s.clk
  me : t.me = { s.me with stopped := t.me.stopped }
  plain : (∀ w, w ∈ (s.quad s.myQuad).path → Spec.toMem w = true) → t.cores = s.cores ∧ t.parts = s.parts
section
variable {s : State} {n pa : Nat}
theorem flushPath_byte (h : Spec.sound s pa n) : (s.flushPath s.myQuad).readAt (s.flushPath s.myQuad).cur (.phys pa) n
    = .bytes ((List.range n).map fun j => Spec.homeByte s (s.quad s.myQuad).path (pa + j)) := by
  have hr := performFirst_reached s.myQuad (s.quad s.myQuad).path.length s
  have he := performFirst_effect s.myQuad (s.quad s.myQuad).path.length s
  change PathReached s (s.flushPath s.myQuad) _ _ at hr
  change TakesEffect s (s.flushPath s.myQuad) at he
  have hb : (s.flushPath s.myQuad).badWords = s.badWords := by rw [he.rest]
  have hc : (s.flushPath s.myQuad).cur = s.cur := by rw [he.rest]
  rw [readAt_phys (fun w hw => h w (hb ▸ hw))]
  refine congrArg Got.bytes (List.map_congr_left fun j _ => ?_)
  have hp : ((s.flushPath s.myQuad).quad (s.cur / 4)).path = [] := hr.path.trans (List.drop_length ..)
  unfold State.seenByte
  rw [hc, hp]
  exact (hr.bytes (pa + j)).trans (by rw [List.take_length])
theorem atomicDone_holds (s : State) (va pa n : Nat) (w : List Byte) : AtomicDone s (atomicDone s va pa n w) pa w := by
  have hr := performFirst_reached s.myQuad (s.quad s.myQuad).path.length s
  have he := performFirst_effect s.myQuad (s.quad s.myQuad).path.length s
  change PathReached s (s.flushPath s.myQuad) _ _ at hr
  change TakesEffect s (s.flushPath s.myQuad) at he
  unfold atomicDone
  dsimp only
  generalize s.flushPath s.myQuad = u at hr he
  have hs := settled_only u va (.phys pa) false n
  have hn := countPlaces_noted (u.settled va (.phys pa) false n) u.cur [(.phys pa, n)] fun x hx => ⟨pa, by rw [List.mem_singleton.1 hx]⟩
  have hmem := settled_mem u va (.phys pa) false n
  have hq1 : ∃ ch, (u.settled va (.phys pa) false n).quad u.myQuad = { u.quad u.myQuad with chans := ch } := by
    unfold State.settled
    split
    · exact noteStore_quad { u with fresh := u.fresh + 1 } va (.phys pa) false n
    · exact noteStore_quad u va (.phys pa) false n
  have hq2 (q : Nat) (h : q ≠ u.myQuad) : (u.settled va (.phys pa) false n).quad q = u.quad q := by
    unfold State.settled
    split
    · exact noteStore_quad_other { u with fresh := u.fresh + 1 } va (.phys pa) false n h
    · exact noteStore_quad_other u va (.phys pa) false n h
  generalize u.settled va (.phys pa) false n = v at hs hn hmem hq1 hq2
  generalize v.countPlaces u.cur [(.phys pa, n)] = x at hn
  have huq : u.myQuad = s.myQuad := by
    unfold State.myQuad
    rw [he.rest]
  have hxq : x.quads = v.quads := by rw [hn.rest]
  have hxm : x.mem = v.mem := by rw [hn.rest]
  have hcores : x.cores = u.cores := by rw [hn.rest, hs.eq]
  have hcur : x.cur = u.cur := by rw [hn.rest, hs.eq]
  refine ⟨fun a => ?_, ?_, fun q hq => ?_, ?_, ?_, ?_, fun hp => ?_⟩
  · rw [tgetD_memWrite, hxm, hmem, hr.bytes, List.take_length]
  · obtain ⟨ch, hch⟩ := hq1
    rw [huq] at hch
    refine (congrArg (fun qs => (tgetD qs s.myQuad ({} : Quad)).path) hxq).trans ?_
    exact (congrArg Quad.path hch).trans (hr.path.trans (List.drop_length ..))
  · refine (congrArg (fun qs => tgetD qs q ({} : Quad)) hxq).trans ?_
    exact (hq2 q (huq ▸ hq)).trans (hr.others q hq)
  · exact hcur.trans (by rw [he.rest])
  · show x.clk = _
    rw [hn.rest, hs.eq, he.rest]
  · have hm : x.me = u.me := by rw [Noted.me hn, hs.me]
    show x.me = { s.me with stopped := x.me.stopped }
    have hc : u.cur = s.cur := by rw [he.rest]
    rw [hm]
    unfold State.me
    rw [hc]
    exact he.core s.cur
  · have hpl := hr.plain (by rw [List.take_length]; exact hp)
    exact ⟨hcores.trans (by rw [hpl]), show x.parts = _ by rw [hn.rest, hs.eq, hpl]⟩
theorem atomicEffect_phys {d a b : Fin 64} {z : Bool} {g : Nat → W64 → W64 → W64} {leaf : W64} (hn : n = if z then 8 else 4)
    (h : (s.me.sreg a.val).toNat % n = 0) (ht : s.translate s.ctx .atomic (s.me.sreg a.val) = .at_ (.phys pa) leaf) (hs : Spec.sound s pa n) :
    let old := BitVec.ofNat 64 (Spec.number ((List.range n).map fun j => Spec.homeByte s (s.quad s.myQuad).path (pa + j)))
    atomicEffect s d a b z g = .ok ((atomicDone s (s.me.sreg a.val).toNat pa n ((s.flushPath s.myQuad).atomicBytes (s.me.sreg a.val).toNat
      (leBytes n (g (8 * n) old (s.me.sreg b.val)).toNat))).pend [keyS d.val] (some (.scalar d.val old)) (s.loadLatency (.phys pa))).2 := by
  subst hn
  unfold atomicEffect
  dsimp only
  rw [if_neg (not_not.2 h), ht]
  dsimp only
  rw [flushPath_byte hs]
  dsimp only
  rw [leNat_eq]
  rfl
end

/-- Settles O21: by the class of the atomic its new value, and by the flushed path what it reads and writes at its home. -/
theorem atomics : Obligations.Atomics := by
  unfold Obligations.Atomics
  intro i s d a b n c rel f hi hc
  obtain ⟨z, g, hn, he, hv⟩ := atomic_form (s := s) hi
  dsimp only
  refine ⟨fun ha => ?_, fun ha pa leaf ht hs => ?_⟩
  · exact fault_Traps hc (by decide) (by decide) (by decide) (he.trans (congrArg _ (atomicEffect_misaligned (hn ▸ ha))))
  have hold := leNat_lt ((List.range n).map fun j => Spec.homeByte s (s.quad s.myQuad).path (pa + j))
  rw [List.length_map, List.length_range, leNat_eq] at hold
  rw [atomicEffect_phys hn ha ht hs, meaning_ok hc] at he
  generalize Spec.number ((List.range n).map fun j => Spec.homeByte s (s.quad s.myQuad).path (pa + j)) = old at hold he
  generalize hw : (s.flushPath s.myQuad).atomicBytes (s.me.sreg a.val).toNat (leBytes n (g (8 * n) (BitVec.ofNat 64 old) (s.me.sreg b.val)).toNat) = w at he
  have hl : w.length = n := by rw [← hw, atomicBytes_length, leBytes_length]
  obtain ⟨hb, hp, ho, hcur, hclk, hme, hpl⟩ := atomicDone_holds s (s.me.sreg a.val).toNat pa n w
  generalize atomicDone s (s.me.sreg a.val).toNat pa n w = u at he hb hp ho hcur hclk hme hpl
  obtain ⟨hrest, htme, hoth, id, hpend, hag⟩ := pend_scalar u d.val (s.loadLatency (.phys pa)) (BitVec.ofNat 64 old)
  generalize (u.pend [keyS d.val] (some (.scalar d.val (BitVec.ofNat 64 old))) (s.loadLatency (.phys pa))).2 = t at he hrest htme hoth hpend hag
  have hmem (x : Nat) : tgetD (t.mark .issued).mem x 0 = _ := (congrArg (fun m => tgetD m x (0 : Byte)) (show t.mem = u.mem by rw [hrest])).trans (hb x)
  have hquad (q : Nat) : (t.mark .issued).quad q = u.quad q := congrArg (fun qs => tgetD qs q ({} : Quad)) (show t.quads = u.quads by rw [hrest])
  refine ⟨_, he, rfl, fun hin j hj => ?_, fun x hx => ?_, by rw [hquad, hp], fun q hq => by rw [hquad, ho q hq], ⟨id, ?_, ?_⟩, fun hw => ?_⟩
  · have hu := performFirst_effect s.myQuad (s.quad s.myQuad).path.length s
    have hin' : (s.flushPath s.myQuad).inSlot (s.flushPath s.myQuad).myPart (s.me.sreg a.val).toNat n = false := by
      have hpart : (s.flushPath s.myQuad).myPart = s.myPart := by
        unfold State.myPart State.me
        rw [show (s.flushPath s.myQuad).cur = s.cur by rw [State.flushPath, hu.rest]]
        exact (congrArg Core.part (hu.core s.cur) :)
      rw [hpart]
      exact (hu.slots ..).trans hin
    rw [hmem, if_pos (by omega), Nat.add_sub_cancel_left, ← hw, atomicBytes_plain (by rw [leBytes_length]; exact hin'), leBytes_eq, bytesOf_getD hj]
    exact byte_of_mod (hv old hold) hj
  · rw [hmem, if_neg (by omega)]
  · rw [State.me_mark, hpend, hme]
  · rw [← hclk, ← hcur]
    exact hag
  · obtain ⟨hcores, hparts⟩ := hpl hw
    have hum : u.me = s.me := by
      unfold State.me State.core
      rw [hcores, hcur]
    refine ⟨?_, fun j hj => ?_, ?_⟩
    · rw [State.me_mark, htme, hum]
    · refine (hoth j (hcur ▸ hj)).trans ?_
      unfold State.core
      rw [hcores]
    · exact (show t.parts = u.parts by rw [hrest]).trans hparts
end Sys2Proof.Machine
end

section
/-! Proofs about the acceptance of copies (R124, R136). -/
namespace Sys2Proof.Machine
open Sys2Proof

/-! ### A command that its channel accepts (R124, R125, R140) -/

/-- A command as its channel holds it, whether it runs or waits. -/
def CopyCmd.idle (m : CopyCmd) : CopyCmd := { m with active := false }
/-- A command's channel holds it behind the others, and its core has it in its order. -/
structure Accepted (s t : State) (h : Nat) (m : CopyCmd) : Prop where
  chan : (tgetD (t.quad s.myQuad).chans h []).map CopyCmd.idle
    = (tgetD (s.quad s.myQuad).chans h []).map CopyCmd.idle ++ [{ m with id := s.nextId, active := false }]
  quad : t.quad s.myQuad = { s.quad s.myQuad with chans := (t.quad s.myQuad).chans }
  others : ∀ q, q ≠ s.myQuad → t.quad q = s.quad q
  me : t.me = { s.me with orders := s.me.orders ++ [(h, s.nextId, m.inc, none)] }
  cores : ∀ j, j ≠ s.cur → t.core j = s.core j
  rest : t = { s with cores := t.cores, quads := t.quads, agenda := t.agenda, nextId := s.nextId + 1 }
theorem Accepted.sameBytes {s t : State} {h : Nat} {m : CopyCmd} (a : Accepted s t h m) : SameBytes s t := fun c x => by
  have hm : t.mem = s.mem := by rw [a.rest]
  have hp : (t.quad (c / 4)).path = (s.quad (c / 4)).path := by
    by_cases hq : c / 4 = s.myQuad
    · rw [hq, a.quad]
    · rw [a.others _ hq]
  unfold State.seenByte
  rw [hm, hp]
/-- Events placed one after the other change the agenda alone. -/
theorem foldl_scheduled {α : Type} (dt : State → α → Nat) (f : α → Instr) : ∀ (l : List α) (s : State),
    let t := l.foldl (fun s a => s.schedule (dt s a) (f a)) s
    t = { s with agenda := t.agenda }
  | [], _ => rfl
  | a :: l, s => (foldl_scheduled dt f l (s.schedule (dt s a) (f a))).trans rfl
/-- The start of a channel's first commands changes which of them run. -/
theorem startCopies_starts (s : State) (q h : Nat) : ∃ act : CopyCmd → Bool, ∃ ag, s.startCopies q h
    = { s.setQuad q { s.quad q with chans := tset (s.quad q).chans h ((tgetD (s.quad q).chans h []).map fun m => if m.done then m else { m with active := act m }) } with agenda := ag } := by
  unfold State.startCopies
  exact ⟨_, _, foldl_scheduled (fun s m => s.copyBase m) (fun m => .copySegment q m.id) _ _⟩
theorem accept_full {s : State} {h : Nat} {m : CopyCmd} (hq : 32 ≤ queued (tgetD (s.quad s.myQuad).chans h [])) : s.accept h m = .hold s := by
  unfold State.accept
  dsimp only
  rw [if_pos hq]
/-- The state in which a command has joined its channel and its core's order, before the channel's first commands start. -/
def State.joined (s : State) (h : Nat) (m : CopyCmd) : State :=
  (State.setQuad { s with nextId := s.nextId + 1 } s.myQuad
    { s.quad s.myQuad with chans := tset (s.quad s.myQuad).chans h (tgetD (s.quad s.myQuad).chans h [] ++ [{ m with id := s.nextId }]) }).order s.cur h s.nextId m.inc
theorem accept_joined {s : State} {h : Nat} {m : CopyCmd} (hq : queued (tgetD (s.quad s.myQuad).chans h []) < 32) :
    s.accept h m = .ok ((s.joined h m).startCopies s.myQuad h) := if_neg (Nat.not_le.2 hq)
theorem accept_room {s : State} {h : Nat} {m : CopyCmd} (hq : queued (tgetD (s.quad s.myQuad).chans h []) < 32) :
    ∃ t, s.accept h m = .ok t ∧ Accepted s t h m := by
  refine ⟨_, accept_joined hq, ?_⟩
  generalize hu : s.joined h m = u
  have huq : u.quad s.myQuad = { s.quad s.myQuad with chans := tset (s.quad s.myQuad).chans h (tgetD (s.quad s.myQuad).chans h [] ++ [{ m with id := s.nextId }]) } := by
    rw [← hu]
    exact State.quad_setQuad_same { s with nextId := s.nextId + 1 } ..
  have huo (q : Nat) (hq : q ≠ s.myQuad) : u.quad q = s.quad q := by
    rw [← hu]
    exact State.quad_setQuad_other { s with nextId := s.nextId + 1 } _ (Ne.symm hq)
  obtain ⟨act, ag, ht⟩ := startCopies_starts u s.myQuad h
  rw [ht]
  have hq1 : State.quad { u.setQuad s.myQuad { u.quad s.myQuad with chans := tset (u.quad s.myQuad).chans h ((tgetD (u.quad s.myQuad).chans h []).map fun m => if m.done then m else { m with active := act m }) } with agenda := ag } s.myQuad
      = { u.quad s.myQuad with chans := tset (u.quad s.myQuad).chans h ((tgetD (u.quad s.myQuad).chans h []).map fun m => if m.done then m else { m with active := act m }) } :=
    State.quad_setQuad_same ..
  refine ⟨?_, ?_, fun q hq => ?_, ?_, fun j hj => ?_, ?_⟩
  · rw [hq1, tgetD_tset_same, huq, tgetD_tset_same, List.map_map, List.map_append]
    have hi (o : CopyCmd) : CopyCmd.idle (if o.done then o else { o with active := act o }) = o.idle := by
      split <;> rfl
    exact congrArg₂ _ (List.map_congr_left fun o _ => hi o) (congrArg (fun o => [o]) (hi _))
  · rw [hq1, huq]
  · exact (State.quad_setQuad_other _ _ (Ne.symm hq)).trans (huo q hq)
  · rw [← hu]
    exact State.core_setCore_same _ s.cur _
  · rw [← hu]
    exact State.core_setCore_other _ _ (Ne.symm hj)
  · rw [← hu]
    rfl

/-! ### The copies (R124, R136) -/

/-- What a copy instruction does, by its operands. -/
structure CopyForm (i : Instr) (s : State) (slot : Nat) (kind : CopyKind) (wform : Bool) (dst src c : W64) (inc h : Nat) (mw : Micro) : Prop where
  below : slot < 4
  exec : ∃ (n : Fin 16) (k : Fin 8), inc = n.val ∧ h = k.val ∧ exec i s = meaning i slot s (copyEffect s kind wform dst src c n k mw)
theorem copy_form {i : Instr} {s : State} {slot : Nat} {kind : CopyKind} {wform : Bool} {dst src c : W64} {inc h : Nat} {mw : Micro}
    (hi : Spec.copy i s.me.sreg = some (slot, kind, wform, dst, src, c, inc, h, mw)) : CopyForm i s slot kind wform dst src c inc h mw := by
  unfold Spec.copy at hi
  split at hi
  case h_9 => exact absurd hi (Option.some_ne_none _).symm
  all_goals
    obtain ⟨⟩ := hi
    refine ⟨by decide, _, _, rfl, rfl, ?_⟩
  all_goals rfl
/-- The command that a copy gives its channel (R124, R136). -/
def State.copyCmd (s : State) (kind : CopyKind) (wform : Bool) (dst src c : W64) (inc : Nat) (mw : Micro) : CopyCmd :=
  let sh := if mwWalk (mwOf mw) then s.me.shape (mwShp (mwOf mw)) else none
  ⟨0, s.cur, s.myPart, kind, wform, mwOf mw, dst, src, c, sh, inc, bits s.me.ctxctl 10 8, s.me.priv, s.me.coop,
    (match sh with | some x => x.bytes | none => c.toNat), 0, 0, [], 0, 0, [], false, {}, BitVec.allOnes 64, none, false, false, none, s.me.pc, s.me.tag⟩
section
variable {s : State} {kind : CopyKind} {wform : Bool} {dst src c : W64} {inc : Fin 16} {h : Fin 8} {mw : Micro}
theorem copyEffect_fits (hl : mwWalk (mwOf mw) = true → s.shapeLate (mwShp (mwOf mw)) = false)
    (hf : Spec.CopyFits kind (mwOf mw) (if mwWalk (mwOf mw) then s.me.shape (mwShp (mwOf mw)) else none) c.toNat) :
    copyEffect s kind wform dst src c inc h mw = s.accept h.val (s.copyCmd kind wform dst src c inc.val mw) := by
  obtain ⟨h1, h2, h3, h4, h5, h6, h7⟩ := hf
  unfold copyEffect
  dsimp only
  generalize hsh : (if mwWalk (mwOf mw) then s.me.shape (mwShp (mwOf mw)) else none) = sh at h1 h4 h5
  have hwalk : (mwWalk (mwOf mw) && s.shapeLate (mwShp (mwOf mw))) = false := by
    cases hw : mwWalk (mwOf mw) with
    | true => rw [hl hw, Bool.and_false]
    | false => rfl
  have hshape : (mwWalk (mwOf mw) && sh.isNone) = false := by
    cases hw : mwWalk (mwOf mw) with
    | true =>
      rw [Bool.true_and, Option.isNone_eq_false_iff]
      exact h1 hw
    | false => rfl
  rw [hwalk, hshape, if_neg Bool.false_ne_true, if_neg Bool.false_ne_true, if_neg fun hc => Nat.not_lt.2 (h2 (by simpa using hc.1)) hc.2,
    if_neg fun hc => hc.2 (h3 hc.1), if_neg, if_neg, if_neg]
  · unfold State.copyCmd
    rw [hsh] <;> rfl
  · simp only [Bool.or_eq_true, Bool.and_eq_true, beq_iff_eq, decide_eq_true_eq]
    exact fun hk => hk.elim (fun hk => hk.2 (h6 hk.1)) fun hk => hk.2 (h7 hk.1)
  · cases kind with
    | scatter =>
      cases sh with
      | none => exact Bool.false_ne_true
      | some x =>
        obtain ⟨hx, hy⟩ := h5 x rfl rfl
        simp [hx, hy]
    | cpy | gather | fifo _ | page _ => exact Bool.false_ne_true
  · cases sh with
    | none => exact Bool.false_ne_true
    | some x =>
      have hx := h4 x rfl
      simp only [Bool.and_eq_true, Bool.or_eq_true, decide_eq_true_eq]
      exact fun ⟨ht, hk⟩ => hk.elim (fun hk => hk (hx ht).1) fun hk => Nat.not_lt.2 (hx ht).2 hk
theorem copyEffect_count (hw : mwWalk (mwOf mw) = false) (hc : 2 ^ 28 < c.toNat ∨ (mwCv (mwOf mw) = true ∧ c.toNat % 64 ≠ 0)) :
    copyEffect s kind wform dst src c inc h mw = fault invalidOperand := by
  unfold copyEffect
  dsimp only
  rw [hw, Bool.false_and, Bool.false_and, if_neg Bool.false_ne_true, if_neg Bool.false_ne_true]
  by_cases h1 : 2 ^ 28 < c.toNat
  · rw [if_pos ⟨rfl, h1⟩]
  · rw [if_neg fun h => h1 h.2, if_pos (hc.resolve_left h1)]
end

/-- Settles O27: a copy that fits is accepted, or held by a full queue; its count is looked at first. -/
theorem copiesAccepted : Obligations.CopiesAccepted := by
  unfold Obligations.CopiesAccepted
  intro i s slot kind wform dst src c inc h mw hi hc
  obtain ⟨hslot, n, k, rfl, rfl, he⟩ := copy_form hi
  have he {r} (hr : copyEffect s kind wform dst src c n k mw = r) : exec i s = meaning i slot s r := he.trans (congrArg (meaning i slot s) hr)
  dsimp only
  refine ⟨fun hl hf hq => ?_, fun hl hf hq => ?_, fun hw hx => ?_⟩
  · obtain ⟨t, ht, ha⟩ := accept_room (m := s.copyCmd kind wform dst src c n.val mw) hq
    refine ⟨_, _, (he ((copyEffect_fits hl hf).trans ht)).trans (meaning_ok hc), rfl, ha.chan, rfl, rfl, rfl, rfl, rfl, rfl, rfl, rfl, rfl, rfl, rfl, rfl, rfl,
      rfl, rfl, rfl, ?_, ha.me, ha.cores, ha.others, ha.sameBytes, ?_⟩
    · unfold State.copyCmd
      dsimp only
      generalize (if mwWalk (mwOf mw) then s.me.shape (mwShp (mwOf mw)) else none) = sh
      cases sh <;> rfl
    · rw [ha.rest]
      rfl
  · exact (he ((copyEffect_fits hl hf).trans (accept_full hq))).trans (meaning_hold hc)
  · exact fault_Traps hc (by decide) (by decide) hslot (he (copyEffect_count hw hx))
end Sys2Proof.Machine
end

section
/-! Proofs about TALLOC (R174, R175). -/
namespace Sys2Proof.Machine
open Sys2Proof

/-! ### What is put on the agenda (R413) -/

theorem agendaPlace_adds (before : Instr → Bool) (at_ : Nat) (i : Instr) : ∀ ag, Spec.Adds ag at_ i (agendaPlace before ag at_ i)
  | [] => ⟨[], [], rfl, rfl, by simp, by simp⟩
  | (u, j) :: r => by
    unfold agendaPlace
    split
    next h =>
      refine ⟨[], (u, j) :: r, rfl, rfl, fun _ h => (nomatch h), fun e he => ?_⟩
      obtain rfl := Option.some.inj he
      simp only [Bool.or_eq_true, decide_eq_true_eq, Bool.and_eq_true, beq_iff_eq] at h
      dsimp only
      omega
    next h =>
      obtain ⟨a, b, h1, h2, h3, h4⟩ := agendaPlace_adds before at_ i r
      refine ⟨(u, j) :: a, b, congrArg _ h1, congrArg _ h2, fun e he => ?_, h4⟩
      rcases List.mem_cons.1 he with rfl | he
      · simp only [Bool.or_eq_true, decide_eq_true_eq, not_or] at h
        exact Nat.le_of_not_lt h.1
      · exact h3 e he
theorem schedule_adds (s : State) (dt : Nat) (i : Instr) : Spec.Adds s.agenda (s.clk + dt) i (s.schedule dt i).agenda := agendaPlace_adds ..

theorem me_setMe (s : State) (k : Core) : (s.setMe k).me = k := State.me_setCore s k

theorem schedule_onlyCore (s : State) (dt : Nat) (i : Instr) : OnlyCore s (s.schedule dt i) := ⟨rfl, fun _ _ => rfl⟩

/-! ### TALLOC (R174, R175) -/

theorem onlyCore_pendScalar {s t : State} {d lat : Nat} {v : W64} (h : PendsScalar s t d lat v) : OnlyCore s t :=
  ⟨by rw [h.rest], h.others⟩
/-- The rows of a drain that go on leaving change its core's drain alone (R267). -/
theorem flowDrain_core (s : State) : OnlyCore s (s.flowDrain s.cur) ∧ (s.flowDrain s.cur).agenda = s.agenda
    ∧ (s.flowDrain s.cur).me = { s.me with drain := (s.flowDrain s.cur).me.drain, buffer := (s.flowDrain s.cur).me.buffer } := by
  unfold State.flowDrain
  dsimp only
  split
  · exact ⟨⟨rfl, fun _ _ => rfl⟩, rfl, rfl⟩
  split
  · split
    · exact ⟨⟨rfl, fun _ _ => rfl⟩, rfl, rfl⟩
    · exact ⟨⟨rfl, fun j hj => State.core_setCore_other _ _ (Ne.symm hj)⟩, rfl, by rw [State.me_setCore]; rfl⟩
  · exact ⟨⟨rfl, fun j hj => State.core_setCore_other _ _ (Ne.symm hj)⟩, rfl, by rw [State.me_setCore]; rfl⟩

theorem flowDrain_setMe (s : State) (k : Core) : OnlyCore s ((s.setMe k).flowDrain s.cur)
    ∧ ((s.setMe k).flowDrain s.cur).me = { k with drain := ((s.setMe k).flowDrain s.cur).me.drain, buffer := ((s.setMe k).flowDrain s.cur).me.buffer } := by
  obtain ⟨f1, -, f3⟩ := flowDrain_core (s.setMe k)
  rw [me_setMe] at f3
  exact ⟨(setMe_onlyCore s k).trans f1, f3⟩

/-- Settles O24: by the request that the core has out, or has not, and by the operands. -/
theorem tileAllocates : Obligations.TileAllocates := by
  unfold Obligations.TileAllocates
  intro d a n tg life l s hc
  have he {r} (h : tallocEffect s d a n tg life = r) : exec (.talloc d a n tg life l) s = meaning (.talloc d a n tg life l) 3 s r :=
    congrArg (meaning (.talloc d a n tg life l) 3 s) h
  unfold tallocEffect at he
  dsimp only at he ⊢
  refine ⟨fun r va hr hv => ?_, fun r hr hv => ⟨fun h => ?_, fun h1 h2 => ?_⟩, fun hr h => ?_, fun hr h1 h2 h3 h4 h5 h6 => ?_⟩
  · rw [hr] at he
    dsimp only at he
    rw [hv] at he
    have hp := pend_scalar (s.setMe { s.me with talloc := none }) d.val (if r.die = s.myDie then 6 else 380) va
    refine ⟨_, (he rfl).trans (meaning_ok hc), rfl, ?_, ?_, ?_, ?_⟩
    · exact ((setMe_onlyCore s _).trans (onlyCore_pendScalar hp)).mark .issued
    · rw [State.me_mark, hp.me, me_setMe]
    · obtain ⟨id, h1, h2⟩ := hp.awaits
      rw [me_setMe] at h1
      exact ⟨id, h1, h2⟩
    · rw [State.me_mark, hp.me, me_setMe]
  · rw [hr] at he
    dsimp only at he
    rw [hv] at he
    have hb : (r.arrived && !s.me.inPlace) = false := by
      rcases h with h | h <;> simp [h]
    exact (he (if_neg (by rw [hb]; exact Bool.false_ne_true))).trans (meaning_hold hc)
  · rw [hr] at he
    dsimp only at he
    rw [hv] at he
    obtain ⟨f1, f2⟩ := flowDrain_setMe s { s.me with post := .suspend 3 0 0 s.me.pc, talloc := some r }
    exact ⟨_, (he (if_pos (by rw [h1, h2]; rfl))).trans (meaning_hold hc), rfl, f1.mark .held, f2.trans (by rw [hr]; rfl)⟩
  · rw [hr] at he
    refine fault_Traps hc (by decide) (by decide) (by decide) (he ?_)
    dsimp only
    by_cases h1 : (s.me.sreg a.val).toNat % 4096 ≠ 0 ∨ (s.me.sreg a.val).toNat < 4096 ∨ 262144 < (s.me.sreg a.val).toNat
    · rw [if_pos h1]
      rfl
    rw [if_neg h1]
    by_cases h2 : (s.me.sreg n.val).toNat < 1 ∨ 65535 < (s.me.sreg n.val).toNat
    · rw [if_pos h2]
      rfl
    rw [if_neg h2, if_pos (by tauto)]
    rfl
  · rw [hr] at he
    dsimp only at he
    rw [if_neg (by omega), if_neg (by omega), if_neg (Nat.not_lt.2 h6)] at he
    refine ⟨_, (he rfl).trans (meaning_hold hc), rfl, ?_, me_setMe .., ?_⟩
    · exact ((setMe_onlyCore s _).trans (schedule_onlyCore ..)).mark .held
    · exact schedule_adds ..
end Sys2Proof.Machine
end

section
/-! Proofs about TSEAL, TLD, TDROP and TCNT (R170, R171, R177 to R179). -/
namespace Sys2Proof.Machine
open Sys2Proof

/-! ### Faults that halt a partition (R362, R379) -/

theorem fault_HaltsAt {i : Instr} {s : State} {n c sub : Nat} {info : W64} (h : Clear i s) (hc : 14 < c) (hc' : c < 32)
    (he : exec i s = meaning i n s (fault c sub info)) : HaltsAt i s n c sub info := by
  have hr : meaning i n s (fault c sub info) = .next ((s.takeFault ⟨c, sub, info, n⟩).mark (.trapped ⟨c, sub, info, n⟩)) := by
    refine (meaning_raise h (.inl hc)).trans ?_
    dsimp only
    rw [if_neg (by omega)]
  have ht : s.takeFault ⟨c, sub, info, n⟩ = s.coreHalt s.cur ⟨c, sub, info, n⟩ := by
    unfold State.takeFault
    dsimp only
    rw [if_neg (by omega), if_pos hc']
  have hh := coreHalt_halts s ⟨c, sub, info, n⟩
  rw [ht] at hr
  refine ⟨_, he.trans hr, rfl, hh.me, hh.others, fun h0 => (hh.begins h0).1, ?_⟩
  exact (congrArg (fun t : State => { t with issue := Issue.trapped ⟨c, sub, info, n⟩ }) hh.rest)

/-! ### What an address names (R170, R171) -/

theorem inKennel_iff {va : Nat} : inKennel va = true ↔ kennelBase ≤ va ∧ va < kennelBase + 2 ^ 52 := by
  rw [inKennel, Bool.and_eq_true, decide_eq_true_eq, decide_eq_true_eq]
section
variable {s : State} {va : W64} {d ix : Nat} {tl : Tile}
theorem nameTile_outside (h : inKennel va.toNat = false) : s.nameTile va = .bad (fault invalidOperand) := by
  unfold State.nameTile
  rw [h, Bool.not_false, if_pos rfl]
theorem nameTile_absent (hk : inKennel va.toNat = true) (hv : bit (s.part s.me.part).ttbase 0 = true) (hd : 6 ≤ va.toNat / 2 ^ 49 % 8) :
    s.nameTile va = .bad (fault translation notMapped va) := by
  unfold State.nameTile
  dsimp only
  rw [hk, show bit (s.part s.myPart).ttbase 0 = true from hv, Bool.not_true, if_neg Bool.false_ne_true, if_neg Bool.false_ne_true]
  exact if_pos hd
theorem nameTile_of_window (hw : kennelBase ≤ va.toNat ∧ va.toNat < kennelBase + 2 ^ 52) (hv : bit (s.part s.me.part).ttbase 0 = true)
    (hd : va.toNat / 2 ^ 49 % 8 < 6) {r : Named}
    (hs : ∀ t, s.liveTile (va.toNat / 2 ^ 49 % 8) (va.toNat / 2 ^ 20 % 2 ^ 17) (va.toNat / 2 ^ 37 % 4096) = some t →
      r = if t.part ≠ s.myPart then .bad (fault translation permission va)
        else .tile (va.toNat / 2 ^ 49 % 8) (va.toNat / 2 ^ 20 % 2 ^ 17) (va.toNat / 2 ^ 37 % 4096) (some t))
    (hn : s.liveTile (va.toNat / 2 ^ 49 % 8) (va.toNat / 2 ^ 20 % 2 ^ 17) (va.toNat / 2 ^ 37 % 4096) = none →
      r = .tile (va.toNat / 2 ^ 49 % 8) (va.toNat / 2 ^ 20 % 2 ^ 17) (va.toNat / 2 ^ 37 % 4096) none) : s.nameTile va = r := by
  unfold State.nameTile
  dsimp only
  rw [inKennel_iff.2 hw, show bit (s.part s.myPart).ttbase 0 = true from hv, Bool.not_true, if_neg Bool.false_ne_true, if_neg Bool.false_ne_true,
    if_neg (Nat.not_le.2 (show bits va 51 49 < 6 from hd))]
  change (match s.liveTile (va.toNat / 2 ^ 49 % 8) (va.toNat / 2 ^ 20 % 2 ^ 17) (va.toNat / 2 ^ 37 % 4096) with | some t => _ | none => _) = r
  split
  next t ht => exact (hs t ht).symm
  next ht => exact (hn ht).symm
theorem nameTile_names (h : Spec.Names s va d ix tl) : s.nameTile va = .tile d ix (va.toNat / 2 ^ 37 % 4096) (some tl) := by
  obtain ⟨hw, hv, ⟨rfl, hd⟩, rfl, hl, hg, ho⟩ := h
  have ht : s.liveTile (va.toNat / 2 ^ 49 % 8) (va.toNat / 2 ^ 20 % 2 ^ 17) (va.toNat / 2 ^ 37 % 4096) = some tl := by
    unfold State.liveTile
    rw [hl]
    exact if_pos hg
  refine nameTile_of_window hw hv hd (fun t h => ?_) fun h => absurd (ht.symm.trans h) (Option.some_ne_none _)
  obtain rfl := Option.some.inj (h.symm.trans ht)
  rw [if_neg (not_not.2 (show t.part = s.myPart from ho))]
theorem nameTile_other (h : Spec.NamesOther s va tl) : s.nameTile va = .bad (fault translation permission va) := by
  obtain ⟨hw, hv, hd, hl, hg, ho⟩ := h
  have ht : s.liveTile (va.toNat / 2 ^ 49 % 8) (va.toNat / 2 ^ 20 % 2 ^ 17) (va.toNat / 2 ^ 37 % 4096) = some tl := by
    unfold State.liveTile
    rw [hl]
    exact if_pos hg
  refine nameTile_of_window hw hv hd (fun t h => ?_) fun h => absurd (ht.symm.trans h) (Option.some_ne_none _)
  obtain rfl := Option.some.inj (h.symm.trans ht)
  rw [if_pos (show t.part ≠ s.myPart from ho)]
theorem nameTile_none (h : Spec.NamesNone s va d) :
    s.nameTile va = .tile d (va.toNat / 2 ^ 20 % 2 ^ 17) (va.toNat / 2 ^ 37 % 4096) none := by
  obtain ⟨hw, hv, ⟨rfl, hd⟩, hn⟩ := h
  have ht : s.liveTile (va.toNat / 2 ^ 49 % 8) (va.toNat / 2 ^ 20 % 2 ^ 17) (va.toNat / 2 ^ 37 % 4096) = none := by
    unfold State.liveTile
    split
    next t h => exact if_neg (hn t h)
    · rfl
  exact nameTile_of_window hw hv hd (fun t h => absurd (ht.symm.trans h).symm (Option.some_ne_none _)) fun _ => rfl
end

/-! ### A read that is given up (R171, R179) -/

theorem tgetD_all {α : Type} {P : α → Prop} {d : α} (hd : P d) {t : Tbl α} (h : ∀ e, e ∈ t → P e.2) (k : Nat) : P (tgetD t k d) := by
  induction t with
  | nil => exact hd
  | cons e t ih =>
    have ih := ih fun e he => h e (.tail _ he)
    unfold tgetD at ih ⊢
    rw [tget_cons]
    by_cases hk : e.1 = k
    · rw [if_pos hk]
      exact h e (.head _)
    · rw [if_neg hk]
      exact ih
/-- A tile that is freed leaves its slot, gives the slot's next generation, and is listed by no port. -/
theorem freeTile_die {s : State} {d ix : Nat} {tl : Tile} (h : tget (s.die d).tiles ix = some tl) : ∃ x : Die,
    (∀ e, (s.freeTile d ix).die e = (s.setDie d x).die e) ∧ x.tiles = tdel (s.die d).tiles ix
    ∧ x.gens = tput 1 (s.die d).gens ix (if tl.gen = 0xFFF then 1 else tl.gen + 1)
    ∧ x.ports = ((s.die d).ports.map fun e => (e.1, e.2.filter (· != ix))).filter fun e => !e.2.isEmpty := by
  unfold State.freeTile
  dsimp only
  rw [h]
  dsimp only
  refine ⟨{ s.die d with
    tiles := tdel (s.die d).tiles ix, gens := tput 1 (s.die d).gens ix (if tl.gen = 0xFFF then 1 else tl.gen + 1)
    ports := ((s.die d).ports.map fun e => (e.1, e.2.filter (· != ix))).filter fun e => !e.2.isEmpty }, fun e => ?_, rfl, rfl, rfl⟩
  split <;> rfl
theorem consume_consumed {s : State} {d ix : Nat} {tl : Tile} (h : tget (s.die d).tiles ix = some tl) : Spec.Consumed s (s.consume d ix tl) d ix tl := by
  unfold State.consume
  dsimp only
  by_cases h1 : tl.count = 1
  · rw [if_pos h1]
    obtain ⟨x, hx, ht, hg, hp⟩ := freeTile_die h
    refine ⟨fun h => absurd h1 h, fun _ => ?_, fun j hj => ?_, fun e he => ?_⟩
    · rw [hx, State.die_setDie_same]
      refine ⟨by rw [ht, tget_tdel, if_pos rfl], ?_, fun p hp' => ?_⟩
      · unfold Die.gen
        rw [hg, tgetD_tput_same]
      · rw [hp] at hp'
        refine absurd hp' (tgetD_all (P := fun l => ix ∉ l) List.not_mem_nil (fun e he hi => ?_) p)
        obtain ⟨y, hy, rfl⟩ := List.mem_map.1 (List.mem_filter.1 he).1
        exact absurd (List.mem_filter.1 hi).2 (by simp)
    · rw [hx, State.die_setDie_same, ht, tget_tdel, if_neg hj]
    · rw [hx, State.die_setDie_other _ _ (Ne.symm he)]
  · rw [if_neg h1]
    refine ⟨fun _ => ?_, fun h => absurd h h1, fun j hj => ?_, fun e he => State.die_setDie_other _ _ (Ne.symm he)⟩
    · rw [State.die_setDie_same]
      exact ⟨tget_tset_same .., rfl⟩
    · rw [State.die_setDie_same]
      exact tget_tset_other _ _ (Ne.symm hj)
theorem freeTile_dies (s : State) (d ix : Nat) : s.freeTile d ix = { s with dies := (s.freeTile d ix).dies, agenda := (s.freeTile d ix).agenda } := by
  unfold State.freeTile
  dsimp only
  split
  · rfl
  · split <;> rfl
theorem consume_dies (s : State) (d ix : Nat) (tl : Tile) :
    s.consume d ix tl = { s with dies := (s.consume d ix tl).dies, agenda := (s.consume d ix tl).agenda } := by
  unfold State.consume
  dsimp only
  split
  · exact freeTile_dies s d ix
  · rfl
theorem Consumed.of_dies {s t u : State} {d ix : Nat} {tl : Tile} (h : Spec.Consumed s t d ix tl) (hd : u.dies = t.dies) : Spec.Consumed s u d ix tl := by
  have he (e : Nat) : u.die e = t.die e := congrArg (fun x => tgetD x e ({} : Die)) hd
  obtain ⟨h1, h2, h3, h4⟩ := h
  exact ⟨by rw [he]; exact h1, by rw [he]; exact h2, by rw [he]; exact h3, fun e h => (he e).trans (h4 e h)⟩

/-! ### TSEAL, TLD, TDROP and TCNT (R177 to R179) -/

section
variable {s : State} {va : W64} {d ix : Nat} {tl : Tile}
theorem tsealEffect_bad {a : Fin 64} {r : Res} (h : s.nameTile (s.me.sreg a.val) = .bad r) : tsealEffect s a = r := by
  unfold tsealEffect
  dsimp only
  rw [h]
theorem tsealEffect_none {a : Fin 64} {g : Nat} (h : s.nameTile (s.me.sreg a.val) = .tile d ix g none) : tsealEffect s a = fault 16 0 (s.me.sreg a.val) := by
  unfold tsealEffect
  dsimp only
  rw [h]
theorem tsealEffect_tile {a : Fin 64} {g : Nat} (h : s.nameTile (s.me.sreg a.val) = .tile d ix g (some tl)) :
    tsealEffect s a = if tl.sealed || tl.bound then fault 16 0 (s.me.sreg a.val) else if s.waitsFor (s.releaseOut s.cur) then s.releaseHold
      else .ok (s.setDie d { s.die d with tiles := tset (s.die d).tiles ix { tl with sealed := true } }) := by
  unfold tsealEffect
  dsimp only
  rw [h]
theorem tdropEffect_bad {a : Fin 64} {r : Res} (h : s.nameTile (s.me.sreg a.val) = .bad r) : tdropEffect s a = r := by
  unfold tdropEffect
  dsimp only
  rw [h]
theorem tdropEffect_none {a : Fin 64} {g : Nat} (h : s.nameTile (s.me.sreg a.val) = .tile d ix g none) : tdropEffect s a = fault 16 0 (s.me.sreg a.val) := by
  unfold tdropEffect
  dsimp only
  rw [h]
theorem tdropEffect_tile {a : Fin 64} {g : Nat} (h : s.nameTile (s.me.sreg a.val) = .tile d ix g (some tl)) :
    tdropEffect s a = if !tl.sealed then .hold s else if tl.count = 0 then fault 16 0 (s.me.sreg a.val) else .ok (s.consume d ix tl) := by
  unfold tdropEffect
  dsimp only
  rw [h]
variable {r b : Fin 64} {p : Fin 8} {z : Fin 4} {o : Fin 256} {l : Lent} (hp : (s.me.preg p.val).getLsbD 0 = true)
include hp
theorem tldEffect_bad {q : Res} (h : s.nameTile (Spec.address (s.me.sreg b.val) z.val o l) = .bad q) : tldEffect s r b p z o l = q := by
  unfold tldEffect
  dsimp only
  rw [ptest_eq, hp, Bool.not_true, if_neg Bool.false_ne_true, ← address_eq, h]
theorem tldEffect_misaligned {g : Nat} {t : Option Tile} (h : s.nameTile (Spec.address (s.me.sreg b.val) z.val o l) = .tile d ix g t)
    (ha : (Spec.address (s.me.sreg b.val) z.val o l).toNat % 2 ^ z.val ≠ 0) :
    tldEffect s r b p z o l = fault alignment 0 (Spec.address (s.me.sreg b.val) z.val o l) := by
  unfold tldEffect
  dsimp only
  rw [ptest_eq, hp, Bool.not_true, if_neg Bool.false_ne_true, ← address_eq, h]
  exact if_pos ha
theorem tldEffect_none {g : Nat} (h : s.nameTile (Spec.address (s.me.sreg b.val) z.val o l) = .tile d ix g none)
    (ha : (Spec.address (s.me.sreg b.val) z.val o l).toNat % 2 ^ z.val = 0) :
    tldEffect s r b p z o l = fault 16 0 (Spec.address (s.me.sreg b.val) z.val o l) := by
  unfold tldEffect
  dsimp only
  rw [ptest_eq, hp, Bool.not_true, if_neg Bool.false_ne_true, ← address_eq, h]
  exact if_neg (not_not.2 ha)
theorem tldEffect_tile {g : Nat} (h : s.nameTile (Spec.address (s.me.sreg b.val) z.val o l) = .tile d ix g (some tl))
    (ha : (Spec.address (s.me.sreg b.val) z.val o l).toNat % 2 ^ z.val = 0) :
    tldEffect s r b p z o l = if !tl.sealed then .hold s else if tl.count = 0 then fault 16 0 (Spec.address (s.me.sreg b.val) z.val o l)
      else if 4096 * tl.units ≤ (Spec.address (s.me.sreg b.val) z.val o l).toNat % 2 ^ 20 then
        fault translation notMapped (Spec.address (s.me.sreg b.val) z.val o l)
      else .ok ((s.consume d ix tl).pend [keyS r.val] (some (.scalar r.val (BitVec.ofNat 64 (Spec.number ((List.range (2 ^ z.val)).map fun i =>
        tl.byte ((Spec.address (s.me.sreg b.val) z.val o l).toNat % 2 ^ 20 + i)))))) (tileLatency s d)).2 := by
  rw [← leNat_eq]
  unfold tldEffect
  dsimp only
  rw [ptest_eq, hp, Bool.not_true, if_neg Bool.false_ne_true, ← address_eq, h]
  exact if_neg (not_not.2 ha)
end
section
variable {s : State} {d ix : Nat} {tl : Tile}
theorem tcntEffect_none {w : Bool} {r a : Fin 64} {g : Nat} (h : s.nameTile (s.me.sreg a.val) = .tile d ix g none) :
    tcntEffect s w r a = .ok (s.pend [keyS r.val] (some (.scalar r.val 0)) (tileLatency s d)).2 := by
  unfold tcntEffect
  rw [h]
  dsimp only
  rw [Bool.and_false]
  rfl
theorem tcntEffect_tile {w : Bool} {r a : Fin 64} {g : Nat} (h : s.nameTile (s.me.sreg a.val) = .tile d ix g (some tl)) :
    tcntEffect s w r a = if w && !tl.sealed then .hold s else .ok (s.pend [keyS r.val]
      (some (.scalar r.val (BitVec.ofNat 64 (2 ^ 17 + tl.sealed.toNat * 2 ^ 16 + tl.count)))) (tileLatency s d)).2 := by
  unfold tcntEffect
  rw [h]
  rfl
end

/-- Settles O26: by what the address names, and by the tile's state. -/
theorem tilesConsumed : Obligations.TilesConsumed := by
  unfold Obligations.TilesConsumed
  intro s d ix tl
  dsimp only
  refine ⟨fun a hc hn hs hb hr => ?_, fun a hc => ?_, fun r b p z o l hc hp => ?_, fun a hc => ?_, fun r b p z o l hc => ⟨fun hp => ?_, fun hp ha hn hu => ?_⟩,
    fun a hc hn => ?_, fun r a hc => ?_, fun r a hc => ?_⟩
  · have he : exec (.tseal a) s = meaning (.tseal a) 3 s (tsealEffect s a) := rfl
    rw [tsealEffect_tile (nameTile_names hn), if_neg (by rw [hs, hb]; exact Bool.false_ne_true), hr, waitsFor_false, if_neg Bool.false_ne_true] at he
    exact he.trans (meaning_ok hc)
  · have he {r} (h : tsealEffect s a = r) : exec (.tseal a) s = meaning (.tseal a) 3 s r := congrArg (meaning (.tseal a) 3 s) h
    refine ⟨fun h => ?_, fun h => ?_, fun h1 h2 h3 => ?_, fun h => ?_⟩
    · refine fault_HaltsAt hc (by decide) (by decide) (he ?_)
      rcases h with h | ⟨h, hs⟩
      · exact tsealEffect_none (nameTile_none h)
      · rw [tsealEffect_tile (nameTile_names h)]
        exact if_pos (by rw [Bool.or_eq_true]; exact hs)
    · exact fault_Traps hc (by decide) (by decide) (by decide) (he (tsealEffect_bad (nameTile_outside h)))
    · exact fault_Traps hc (by decide) (by decide) (by decide) (he (tsealEffect_bad (nameTile_absent h1 h2 h3)))
    · exact fault_Traps hc (by decide) (by decide) (by decide) (he (tsealEffect_bad (nameTile_other h)))
  · have he {q} (h : tldEffect s r b p z o l = q) : exec (.tld r b p z o l) s = meaning (.tld r b p z o l) 1 s q :=
      congrArg (meaning (.tld r b p z o l) 1 s) h
    refine ⟨fun ha h => ?_, fun h ha => ?_, fun ha h hs h0 hu => ?_, fun h => ?_, fun h1 h2 h3 => ?_, fun h => ?_⟩
    · refine fault_HaltsAt hc (by decide) (by decide) (he ?_)
      rcases h with h | ⟨h, hs, h0⟩
      · exact tldEffect_none hp (nameTile_none h) ha
      · rw [tldEffect_tile hp (nameTile_names h) ha, hs]
        exact if_pos h0
    · refine fault_Traps hc (by decide) (by decide) (by decide) (he ?_)
      rcases h with h | h
      · exact tldEffect_misaligned hp (nameTile_none h) ha
      · exact tldEffect_misaligned hp (nameTile_names h) ha
    · refine fault_Traps hc (by decide) (by decide) (by decide) (he ?_)
      rw [tldEffect_tile hp (nameTile_names h) ha, hs]
      exact (if_neg h0).trans (if_pos hu)
    · exact fault_Traps hc (by decide) (by decide) (by decide) (he (tldEffect_bad hp (nameTile_outside h)))
    · exact fault_Traps hc (by decide) (by decide) (by decide) (he (tldEffect_bad hp (nameTile_absent h1 h2 h3)))
    · exact fault_Traps hc (by decide) (by decide) (by decide) (he (tldEffect_bad hp (nameTile_other h)))
  · have he {r} (h : tdropEffect s a = r) : exec (.tdrop a) s = meaning (.tdrop a) 1 s r := congrArg (meaning (.tdrop a) 1 s) h
    refine ⟨fun h => ?_, fun h => ?_, fun h1 h2 h3 => ?_, fun h => ?_⟩
    · refine fault_HaltsAt hc (by decide) (by decide) (he ?_)
      rcases h with h | ⟨h, hs, h0⟩
      · exact tdropEffect_none (nameTile_none h)
      · rw [tdropEffect_tile (nameTile_names h), hs]
        exact if_pos h0
    · exact fault_Traps hc (by decide) (by decide) (by decide) (he (tdropEffect_bad (nameTile_outside h)))
    · exact fault_Traps hc (by decide) (by decide) (by decide) (he (tdropEffect_bad (nameTile_absent h1 h2 h3)))
    · exact fault_Traps hc (by decide) (by decide) (by decide) (he (tdropEffect_bad (nameTile_other h)))
  · have he : exec (.tld r b p z o l) s = meaning (.tld r b p z o l) 1 s (tldEffect s r b p z o l) := rfl
    unfold tldEffect at he
    rw [ptest_eq, hp] at he
    exact he.trans (meaning_ok hc)
  · have he : exec (.tld r b p z o l) s = meaning (.tld r b p z o l) 1 s (tldEffect s r b p z o l) := rfl
    rw [tldEffect_tile hp (nameTile_names hn) ha] at he
    refine ⟨fun hs h0 => ?_, fun hs => ?_⟩
    · rw [hs, Bool.not_true, if_neg Bool.false_ne_true, if_neg h0, if_neg (Nat.not_le.2 hu)] at he
      generalize BitVec.ofNat 64 (Spec.number _) = v at he ⊢
      have hcons := consume_consumed hn.live
      have hd := consume_dies s d ix tl
      generalize s.consume d ix tl = u at he hcons hd
      have ht := pend_scalar u r.val (tileLatency s d) v
      have hme : u.me = s.me := by rw [hd]; rfl
      have hclk : u.clk = s.clk := by rw [hd]
      have hcur : u.cur = s.cur := by rw [hd]
      obtain ⟨id, h1, h2⟩ := ht.awaits
      rw [hme] at h1
      rw [hclk, hcur] at h2
      refine ⟨_, he.trans (meaning_ok hc), rfl, Consumed.of_dies hcons (congrArg State.dies ht.rest :), ⟨id, h1, h2⟩, ?_, ?_, ?_⟩
      · exact ((congrArg State.mem ht.rest).trans (congrArg State.mem hd :) :)
      · exact ((congrArg State.quads ht.rest).trans (congrArg State.quads hd :) :)
      · exact ht.me.trans (by rw [hme]; rfl)
    · rw [hs] at he
      exact he.trans (meaning_hold hc)
  · have he : exec (.tdrop a) s = meaning (.tdrop a) 1 s (tdropEffect s a) := rfl
    rw [tdropEffect_tile (nameTile_names hn)] at he
    refine ⟨fun hs h0 => ?_, fun hs => ?_⟩
    · rw [hs, Bool.not_true, if_neg Bool.false_ne_true, if_neg h0] at he
      have hd := consume_dies s d ix tl
      exact ⟨_, he.trans (meaning_ok hc), rfl, Consumed.of_dies (consume_consumed hn.live) rfl, (congrArg State.cores hd :),
        (congrArg State.mem hd :), (congrArg State.quads hd :)⟩
    · rw [hs] at he
      exact he.trans (meaning_hold hc)
  · have he {q} (h : tcntEffect s false r a = q) : exec (.tcnt r a) s = meaning (.tcnt r a) 1 s q := congrArg (meaning (.tcnt r a) 1 s) h
    exact ⟨fun h => (he (tcntEffect_tile (nameTile_names h))).trans (meaning_ok hc), fun h => (he (tcntEffect_none (nameTile_none h))).trans (meaning_ok hc)⟩
  · have he {q} (h : tcntEffect s true r a = q) : exec (.tcntWait r a) s = meaning (.tcntWait r a) 1 s q := congrArg (meaning (.tcntWait r a) 1 s) h
    refine ⟨fun h hs => ?_, fun h hs => ?_, fun h => (he (tcntEffect_none (nameTile_none h))).trans (meaning_ok hc)⟩
    · refine (he ((tcntEffect_tile (nameTile_names h)).trans ?_)).trans (meaning_ok hc)
      rw [hs]
      rfl
    · refine (he ((tcntEffect_tile (nameTile_names h)).trans ?_)).trans (meaning_hold hc)
      rw [hs]
      rfl
end Sys2Proof.Machine
end

section
/-! Proofs about TWR and the writes that reach tiles (R167, R176, R318). -/
namespace Sys2Proof.Machine
open Sys2Proof

/-! ### Writes to tiles leave by the path (R167, R318) -/

theorem le_last_of_sorted {l : List PathStore} (h : (l.map (·.due)).Pairwise (· ≤ ·)) {w : PathStore} (hw : w ∈ l) :
    w.due ≤ (match l.getLast? with | some v => v.due | none => 0) := by
  have hne : l ≠ [] := List.ne_nil_of_mem hw
  rw [List.getLast?_eq_some_getLast hne]
  have hl : l = l.dropLast ++ [l.getLast hne] := (List.dropLast_append_getLast hne).symm
  rw [hl, List.map_append, List.pairwise_append] at h
  rw [hl] at hw
  rcases List.mem_append.1 hw with hw | hw
  · exact h.2.2 _ (List.mem_map_of_mem hw) _ (List.mem_singleton_self _)
  · rw [List.mem_singleton.1 hw]
/-- The tile, the address in it and the bytes of a piece that leaves for a Kennel. -/
def pieceKey (e : Place × List Byte) : Option (Nat × Nat × Nat) × Nat × List Byte := match e.1 with
  | .tile d ix g o => (some (d, ix, g), o, e.2)
  | _ => (none, 0, e.2)
def PathStore.key (w : PathStore) : Option (Nat × Nat × Nat) × Nat × List Byte := (w.tile, w.addr, w.bytes)
/-- Pieces of the current core have entered its quad's path, in their order. -/
structure Sent (s t : State) (ps : List (Place × List Byte)) (new : List PathStore) : Prop where
  quad : t.quad s.myQuad = { s.quad s.myQuad with path := (s.quad s.myQuad).path ++ new }
  others : ∀ q, q ≠ s.myQuad → t.quad q = s.quad q
  pieces : new.map PathStore.key = ps.map pieceKey
  each : ∀ w, w ∈ new → w.core = s.cur ∧ w.part = s.me.part ∧ w.eng = 0
    ∧ ∀ d ix g, w.tile = some (d, ix, g) → s.clk + (if d = s.myDie then 28 else 358) ≤ w.due
  sorted : ((s.quad s.myQuad).path.map (·.due)).Pairwise (· ≤ ·) → ((t.quad s.myQuad).path.map (·.due)).Pairwise (· ≤ ·)
  rest : t = { s with quads := t.quads, agenda := t.agenda }
/-- A write to a tile enters the path of the current core's quad. -/
structure EnteredTile (s t : State) (d ix g o : Nat) (b : List Byte) (w : PathStore) : Prop where
  write : w.core = s.cur ∧ w.part = s.me.part ∧ w.eng = 0 ∧ w.tile = some (d, ix, g) ∧ w.addr = o ∧ w.bytes = b
  due : s.clk + (if d = s.myDie then 28 else 358) ≤ w.due
  after : ∀ v, (s.quad s.myQuad).path.getLast? = some v → v.due ≤ w.due
  quad : t.quad s.myQuad = { s.quad s.myQuad with path := (s.quad s.myQuad).path ++ [w] }
  others : ∀ q, q ≠ s.myQuad → t.quad q = s.quad q
  rest : t = { s with quads := t.quads, agenda := t.agenda }
theorem enter_tile (s : State) (d ix g o : Nat) (b : List Byte) :
    ∃ w, EnteredTile s (s.enter (if d = s.myDie then 28 else 358) ⟨s.cur, s.myPart, 0, 0, some (d, ix, g), o, b⟩) d ix g o b w := by
  refine ⟨_, ⟨rfl, rfl, rfl, rfl, rfl, rfl⟩, Nat.le_max_left .., fun v hv => ?_, State.quad_setQuad_same .., fun q hq => State.quad_setQuad_other _ _ (Ne.symm hq), rfl⟩
  refine Nat.le_trans ?_ (Nat.le_max_right _ _)
  change v.due ≤ (match (s.quad s.myQuad).path.getLast? with | some v => v.due | none => 0)
  rw [hv]
theorem sendPieces_sent : ∀ (ps : List (Place × List Byte)) (s : State), (∀ e, e ∈ ps → ∃ d ix g o, e.1 = .tile d ix g o) → ∃ new, Sent s (s.sendPieces ps) ps new
  | [], s, _ => ⟨[], by rw [List.append_nil]; rfl, fun _ _ => rfl, rfl, fun _ h => (nomatch h), id, rfl⟩
  | (p, b) :: ps, s, h => by
    obtain ⟨d, ix, g, o, hp⟩ := h _ (.head _)
    dsimp only at hp
    subst hp
    obtain ⟨w, hw⟩ := enter_tile s d ix g o b
    unfold State.sendPieces
    generalize s.enter _ _ = u at hw
    obtain ⟨new, hn⟩ := sendPieces_sent ps u fun e he => h e (.tail _ he)
    generalize u.sendPieces ps = t at hn
    have hq : u.myQuad = s.myQuad := by unfold State.myQuad; rw [hw.rest]
    have hme : u.me = s.me := by rw [hw.rest]; rfl
    have hclk : u.clk = s.clk := by rw [hw.rest]
    have hcur : u.cur = s.cur := by rw [hw.rest]
    have hdie : u.myDie = s.myDie := by unfold State.myDie; rw [hcur]
    obtain ⟨h1, h2, h3, h4, h5, h6⟩ := hn
    rw [hq] at h1 h2 h5
    refine ⟨w :: new, ?_, fun q hq => (h2 q hq).trans (hw.others q hq), ?_, fun v hv => ?_, fun hs => h5 ?_, ?_⟩
    · rw [h1, hw.quad, List.append_assoc]
      rfl
    · rw [List.map_cons, List.map_cons, h3]
      obtain ⟨-, -, -, e1, e2, e3⟩ := hw.write
      unfold PathStore.key
      rw [e1, e2, e3]
      rfl
    · rcases List.mem_cons.1 hv with rfl | hv
      · obtain ⟨e1, e2, e3, e4, -, -⟩ := hw.write
        refine ⟨e1, e2, e3, fun d' ix' g' ht => ?_⟩
        obtain ⟨rfl, -⟩ := Prod.mk.inj (Option.some.inj (e4.symm.trans ht))
        exact hw.due
      · have hv := h4 v hv
        rw [hcur, hme, hclk, hdie] at hv
        exact hv
    · rw [hw.quad]
      dsimp only
      rw [List.map_append, List.pairwise_append]
      refine ⟨hs, List.pairwise_singleton .., fun x hx y hy => ?_⟩
      obtain ⟨v, hv, rfl⟩ := List.mem_map.1 hx
      obtain rfl := List.mem_singleton.1 hy
      refine (le_last_of_sorted hs hv).trans ?_
      split
      next v hv => exact hw.after v hv
      · exact Nat.zero_le _
    · rw [h6, hw.rest]

/-! ### TWR (R176) -/

theorem twrBad_none {s : State} : ∀ {l : List (W64 × Place)}, (∀ e, e ∈ l → ∃ d ix g o, e.2 = Place.tile d ix g o ∧ s.writable d ix g = true) → s.twrBad l = none
  | [], _ => rfl
  | (va, p) :: l, h => by
    obtain ⟨d, ix, g, o, hp, hw⟩ := h _ (.head _)
    dsimp only at hp
    subst hp
    unfold State.twrBad
    rw [if_pos hw]
    exact twrBad_none fun e he => h e (.tail _ he)
theorem pieceKey_plus (p : Place) (w : Nat × List Byte) : pieceKey (p.plus w.1, w.2) = match p with
    | .tile d ix g o => (some (d, ix, g), o + w.1, w.2)
    | _ => (none, 0, w.2) := by
  cases p <;> rfl
theorem twrEffect_tiles {s : State} {d b : Fin 64} {p : Fin 8} {z : Fin 4} {o : Fin 256} {l : Lent}
    (ha : (Spec.address (s.me.sreg b.val) 6 o l).toNat % 64 = 0)
    (hk : ∀ e, e ∈ s.blockLines d z p (Spec.address (s.me.sreg b.val) 6 o l) → inKennel e.1.toNat = true) {ps : List Place}
    (hp : s.places .twr ((s.blockLines d z p (Spec.address (s.me.sreg b.val) 6 o l)).map (·.1)) = .ok ps)
    (ht : ∀ q, q ∈ ps → ∃ dd ix g o', q = Place.tile dd ix g o' ∧ s.writable dd ix g = true) :
    twrEffect s d b p z o l = .ok (s.sendPieces (((s.blockLines d z p (Spec.address (s.me.sreg b.val) 6 o l)).zip ps).flatMap fun e =>
      (rowPieces (s.me.preg p.val) e.1.2.1 e.1.2.2).map fun w => (e.2.plus w.1, w.2))) := by
  have hn : (s.blockLines d z p (Spec.address (s.me.sreg b.val) 6 o l)).find? (fun e => !inKennel e.1.toNat) = none := by
    rw [List.find?_eq_none]
    exact fun e he => by rw [hk e he]; exact Bool.false_ne_true
  have hb : s.twrBad (((s.blockLines d z p (Spec.address (s.me.sreg b.val) 6 o l)).map (·.1)).zip ps) = none :=
    twrBad_none fun e he => ht e.2 (List.of_mem_zip he).2
  unfold twrEffect
  rw [← address_eq]
  dsimp only
  rw [if_neg (not_not.2 ha), hn, hp]
  dsimp only
  rw [hb]
theorem twrEffect_misaligned {s : State} {d b : Fin 64} {p : Fin 8} {z : Fin 4} {o : Fin 256} {l : Lent}
    (ha : (Spec.address (s.me.sreg b.val) 6 o l).toNat % 64 ≠ 0) :
    twrEffect s d b p z o l = fault alignment 0 (Spec.address (s.me.sreg b.val) 6 o l) := by
  unfold twrEffect
  rw [← address_eq]
  exact if_pos ha

/-! ### A write reaches its tile (R176, R318) -/

theorem dueCount_due (clk : Nat) : ∀ (n : Nat) (l : List PathStore), (∀ w, w ∈ l.take (dueCount clk n l) → w.due ≤ clk)
    ∧ ((l.take (dueCount clk n l)).filter fun w => w.tile.isSome).length ≤ n
  | _, [] => ⟨fun _ h => (nomatch h), Nat.zero_le _⟩
  | n, w :: r => by
    unfold dueCount
    split
    · exact ⟨fun _ h => (nomatch h), Nat.zero_le _⟩
    next hd =>
      split
      next ht =>
        obtain ⟨h1, h2⟩ := dueCount_due clk _ r
        refine ⟨fun v hv => ?_, ?_⟩
        · rcases List.mem_cons.1 hv with rfl | hv
          · exact Nat.le_of_not_lt hd
          · exact h1 v hv
        · rw [List.take_succ_cons, List.filter_cons_of_neg (by rw [ht]; exact Bool.false_ne_true)]
          exact h2
      · exact ⟨fun _ h => (nomatch h), Nat.zero_le _⟩
      next t m ht =>
        obtain ⟨h1, h2⟩ := dueCount_due clk m r
        refine ⟨fun v hv => ?_, ?_⟩
        · rcases List.mem_cons.1 hv with rfl | hv
          · exact Nat.le_of_not_lt hd
          · exact h1 v hv
        · rw [List.take_succ_cons, List.filter_cons_of_pos (by rw [ht]; rfl)]
          exact Nat.succ_le_succ h2
theorem dueCount_stops (clk : Nat) : ∀ (n : Nat) (l : List PathStore) (w : PathStore), (l.drop (dueCount clk n l)).head? = some w →
    clk < w.due ∨ (w.tile ≠ none ∧ (0 < n → ∃ v, v ∈ l.take (dueCount clk n l) ∧ v.tile ≠ none))
  | _, [], _, h => nomatch h
  | n, v :: r, w, h => by
    unfold dueCount at h ⊢
    split at h
    next hd =>
      obtain rfl := Option.some.inj h
      exact .inl hd
    next hd =>
      rw [if_neg hd]
      split at h
      next ht =>
        exact (dueCount_stops clk _ r w h).imp_right fun ⟨h1, h2⟩ => ⟨h1, fun hn => (h2 hn).imp fun u hu => ⟨.tail _ hu.1, hu.2⟩⟩
      next t ht =>
        obtain rfl := Option.some.inj h
        exact .inr ⟨by rw [ht]; exact Option.some_ne_none _, fun h => absurd h (Nat.lt_irrefl 0)⟩
      next t m ht =>
        refine (dueCount_stops clk m r w h).imp_right fun ⟨h1, _⟩ => ⟨h1, fun _ => ⟨v, ?_, by rw [ht]; exact Option.some_ne_none _⟩⟩
        exact .head _

/-- A write to the host's registers changes no core, tile or partition (R395). -/
structure HostEffect (s t : State) : Prop where
  cores : t.cores = s.cores
  dies : t.dies = s.dies
  parts : t.parts = s.parts
namespace HostEffect
theorem refl (s : State) : HostEffect s s := ⟨rfl, rfl, rfl⟩
theorem trans {s t u : State} (h : HostEffect s t) (g : HostEffect t u) : HostEffect s u :=
  ⟨g.cores.trans h.cores, g.dies.trans h.dies, g.parts.trans h.parts⟩
theorem ite {s t u : State} {c : Prop} [Decidable c] (h : HostEffect s t) (g : HostEffect s u) : HostEffect s (if c then t else u) := by
  split
  · exact h
  · exact g
theorem foldl {α : Type} {f : State → α → State} (h : ∀ s a, HostEffect s (f s a)) : ∀ (l : List α) (s : State), HostEffect s (l.foldl f s)
  | [], s => refl s
  | a :: l, s => (h s a).trans (foldl h l (f s a))
end HostEffect
theorem hostReg_host (s : State) (o : Nat) (b : List Byte) (r : Nat) : HostEffect s (s.hostReg o b r) := by
  unfold State.hostReg State.poolbaseSet State.keepcfgSet
  split_ifs <;> exact ⟨rfl, rfl, rfl⟩
theorem hostWrite_host (s : State) (o : Nat) (b : List Byte) : HostEffect s (s.hostWrite o b) :=
  .ite (.ite (.refl s) (.ite ⟨rfl, rfl, rfl⟩ (.ite ⟨rfl, rfl, rfl⟩ ⟨rfl, rfl, rfl⟩)))
    (.ite (.ite ⟨rfl, rfl, rfl⟩ (.ite (.refl s) (.ite ⟨rfl, rfl, rfl⟩ ⟨rfl, rfl, rfl⟩))) (.foldl (fun s r => hostReg_host s o b r) _ s))
theorem takeEffect_plain {s : State} {w : PathStore} (h : w.tile = none) : HostEffect s (s.takeEffect w) := by
  unfold State.takeEffect
  rw [h]
  exact .ite (hostWrite_host ..) ⟨rfl, rfl, rfl⟩
theorem performFirst_plain (q : Nat) : ∀ (n : Nat) (s : State), (∀ w, w ∈ (s.quad q).path.take n → w.tile = none) → HostEffect s (s.performFirst q n)
  | 0, s, _ => .refl s
  | n + 1, s, h => by
    unfold State.performFirst
    dsimp only
    split
    · exact .refl s
    next w r hp =>
      rw [hp] at h
      have hq : ((s.setQuad q { s.quad q with path := r }).takeEffect w).quad q = { s.quad q with path := r } :=
        (congrArg (fun qs => tgetD qs q ({} : Quad)) (takeEffect_quads _ w)).trans (State.quad_setQuad_same ..)
      have h1 : HostEffect s ((s.setQuad q { s.quad q with path := r }).takeEffect w) :=
        .trans (t := s.setQuad q { s.quad q with path := r }) ⟨rfl, rfl, rfl⟩ (takeEffect_plain (h w (.head _)))
      refine h1.trans (performFirst_plain q n _ fun v hv => ?_)
      rw [hq] at hv
      exact h v (.tail _ hv)
/-- Bytes that a tile has been written. -/
theorem tileWritten (b : List Byte) : ∀ (t : Tile) (o : Nat), t.write o b = { t with bytes := (t.write o b).bytes }
    ∧ (∀ j, j < b.length → tget (t.write o b).bytes (o + j) = some (b.getD j 0))
    ∧ ∀ x, x < o ∨ o + b.length ≤ x → tget (t.write o b).bytes x = tget t.bytes x := by
  induction b with
  | nil => exact fun t o => ⟨rfl, fun j hj => absurd hj (Nat.not_lt_zero j), fun _ _ => rfl⟩
  | cons y b ih =>
    intro t o
    obtain ⟨h1, h2, h3⟩ := ih { t with bytes := tset t.bytes o y } (o + 1)
    unfold Tile.write
    refine ⟨h1.trans rfl, fun j hj => ?_, fun x hx => ?_⟩
    · cases j with
      | zero =>
        exact (h3 o (.inl (Nat.lt_succ_self o))).trans (tget_tset_same ..)
      | succ j =>
        rw [show o + (j + 1) = o + 1 + j by omega, h2 j (Nat.lt_of_succ_lt_succ hj)]
        rfl
    · rw [List.length_cons] at hx
      rw [h3 x (by omega)]
      exact tget_tset_other _ _ (by omega)
/-- What the first write of a path, one to a tile, has done when writes that go to no tile have followed it. -/
theorem performFirst_tile {s : State} {q n : Nat} {w : PathStore} {rest : List PathStore} {d ix g : Nat} (h : (s.quad q).path.take n = w :: rest)
    (ht : w.tile = some (d, ix, g)) (hr : ∀ v, v ∈ rest → v.tile = none) : ∃ qs, HostEffect (State.tileWrite { s with quads := qs } w d ix g) (s.performFirst q n) := by
  cases n with
  | zero => exact absurd h (List.cons_ne_nil _ _).symm
  | succ n =>
    cases hs : (s.quad q).path with
    | nil => exact absurd h (by rw [hs]; exact (List.cons_ne_nil _ _).symm)
    | cons v r =>
      rw [hs, List.take_succ_cons] at h
      obtain ⟨rfl, hrest⟩ := List.cons.inj h
      have hq : ((s.setQuad q { s.quad q with path := r }).takeEffect v).quad q = { s.quad q with path := r } :=
        (congrArg (fun qs => tgetD qs q ({} : Quad)) (takeEffect_quads _ v)).trans (State.quad_setQuad_same ..)
      have hp := performFirst_plain q n ((s.setQuad q { s.quad q with path := r }).takeEffect v) fun x hx => hr x (by rw [hq, hrest] at hx; exact hx)
      have hv : (s.setQuad q { s.quad q with path := r }).takeEffect v = (s.setQuad q { s.quad q with path := r }).tileWrite v d ix g := by
        unfold State.takeEffect
        rw [ht]
      rw [hv] at hp
      refine ⟨(s.setQuad q { s.quad q with path := r }).quads, ?_⟩
      unfold State.performFirst
      dsimp only
      rw [hs]
      dsimp only
      rw [hv]
      exact hp
theorem tileWrite_writable {s : State} {w : PathStore} {d ix g : Nat} {tl : Tile} (hw : s.writable d ix g = true) (ht : tget (s.die d).tiles ix = some tl) :
    s.tileWrite w d ix g = s.setDie d { s.die d with tiles := tset (s.die d).tiles ix (tl.write w.addr w.bytes) } := by
  unfold State.tileWrite State.writeTile
  rw [if_pos hw]
  dsimp only
  rw [ht]
/-- A write that its tile refuses stops its core, and halts its partition. -/
structure Refused (s t : State) (w : PathStore) : Prop where
  dies : t.dies = s.dies
  stops : (s.core w.core).task.isSome = true → (s.core w.core).part = w.part → (t.core w.core).stopped = true
  halts : (s.part w.part).pstate = 0 → (t.part w.part).pstate = 1
theorem tileWrite_refused {s : State} {w : PathStore} {d ix g : Nat} (hw : s.writable d ix g = false) : Refused s (s.tileWrite w d ix g) w := by
  unfold State.tileWrite
  rw [if_neg (by rw [hw]; exact Bool.false_ne_true)]
  dsimp only
  generalize (⟨16, 0, _, 3⟩ : FaultInfo) = f
  split
  next h =>
    rw [Bool.and_eq_true, beq_iff_eq] at h
    unfold State.coreHalt
    dsimp only
    rw [h.2]
    generalize hu : s.setCore w.core _ = u
    have ho := unitHalt_only u w.part 0 w.core f ⟨0, 0, 0xFFFFFFFF, 0, 0⟩
    refine ⟨?_, fun _ _ => ?_, fun h0 => ?_⟩
    · rw [ho.eq, ← hu]
      rfl
    · rw [ho.core, ← hu, State.core_setCore_same]
    · obtain ⟨_, _, _, hb⟩ := unitHalt_begins (s := u) (p := w.part) 0 w.core f ⟨0, 0, 0xFFFFFFFF, 0, 0⟩ (by rw [← hu]; exact h0)
      rw [hb.halting]
  next h =>
    have ho := unitHalt_only s w.part 0 w.core f ⟨0, 0, 0xFFFFFFFF, 0, 0⟩
    refine ⟨by rw [ho.eq], fun h1 h2 => absurd (by rw [h1, h2, Bool.true_and, beq_self_eq_true]) h, fun h0 => ?_⟩
    obtain ⟨_, _, _, hb⟩ := unitHalt_begins (s := s) (p := w.part) 0 w.core f ⟨0, 0, 0xFFFFFFFF, 0, 0⟩ h0
    rw [hb.halting]

/-- Settles O25: by the path that TWR's pieces enter, and by the tile that the first write to one finds. -/
theorem tileWrites : Obligations.TileWrites := by
  unfold Obligations.TileWrites
  intro s
  refine ⟨fun d b p z o l hc => ?_, fun c => ?_⟩
  · have he {r} (h : twrEffect s d b p z o l = r) : exec (.twr d b p z o l) s = meaning (.twr d b p z o l) 3 s r :=
      congrArg (meaning (.twr d b p z o l) 3 s) h
    dsimp only
    refine ⟨fun ha => fault_Traps hc (by decide) (by decide) (by decide) (he (twrEffect_misaligned ha)), fun ha hk ps hp ht => ?_⟩
    obtain ⟨new, h1, h2, h3, h4, h5, h6⟩ := sendPieces_sent (((s.blockLines d z p (Spec.address (s.me.sreg b.val) 6 o l)).zip ps).flatMap fun e =>
      (rowPieces (s.me.preg p.val) e.1.2.1 e.1.2.2).map fun w => (e.2.plus w.1, w.2)) s fun e he => by
        obtain ⟨x, hx, hm⟩ := List.mem_flatMap.1 he
        obtain ⟨w, _, rfl⟩ := List.mem_map.1 hm
        obtain ⟨dd, ix, g, o', hq, _⟩ := ht x.2 (List.of_mem_zip hx).2
        exact ⟨dd, ix, g, o' + w.1, by rw [hq]; rfl⟩
    refine ⟨_, new, (he (twrEffect_tiles ha hk hp ht)).trans (meaning_ok hc), rfl, h1, h2, ?_, h4, h5, ?_⟩
    · refine h3.trans ?_
      rw [List.map_flatMap]
      refine List.flatMap_congr fun e _ => ?_
      rw [List.map_map]
      exact List.map_congr_left fun w _ => pieceKey_plus e.2 w
    · rw [h6]
      rfl
  · have hr := performFirst_reached (c / 4) (dueCount s.clk 1 (s.quad (c / 4)).path) s
    obtain ⟨hdue, hone⟩ := dueCount_due s.clk 1 (s.quad (c / 4)).path
    refine ⟨s.tileArrives (c / 4), (s.quad (c / 4)).path.take (dueCount s.clk 1 (s.quad (c / 4)).path), rfl, ?_, hdue, hone, fun w hw => ?_, hr.bytes, ?_⟩
    · rw [show s.tileArrives (c / 4) = s.performFirst (c / 4) (dueCount s.clk 1 (s.quad (c / 4)).path) from rfl, hr.path, List.take_append_drop]
    · exact (dueCount_stops s.clk 1 (s.quad (c / 4)).path w (hr.path ▸ hw)).imp_right fun h => ⟨h.1, h.2 Nat.one_pos⟩
    · intro w rest d ix g hd ht
      rw [hd, List.filter_cons_of_pos (by rw [ht]; rfl)] at hone
      have hplain (v : PathStore) (hv : v ∈ rest) : v.tile = none := by
        have := List.filter_eq_nil_iff.1 (List.length_eq_zero_iff.1 (Nat.le_zero.1 (Nat.le_of_succ_le_succ hone))) v hv
        simpa using this
      obtain ⟨qs, hcores, hdies, hparts⟩ := performFirst_tile hd ht hplain
      change (s.tileArrives (c / 4)).cores = _ at hcores
      change (s.tileArrives (c / 4)).dies = _ at hdies
      change (s.tileArrives (c / 4)).parts = _ at hparts
      refine ⟨fun tl hw htl => ?_, fun hw => ?_⟩
      · rw [tileWrite_writable (s := { s with quads := qs }) hw htl] at hcores hdies hparts
        have hdd : (s.tileArrives (c / 4)).die d = _ := (congrArg (fun x => tgetD x d ({} : Die)) hdies).trans (State.die_setDie_same ..)
        obtain ⟨h1, h2, h3⟩ := tileWritten w.bytes tl w.addr
        refine ⟨tl.write w.addr w.bytes, ?_, h2, h3, h1, hcores, hparts⟩
        rw [hdd]
        exact tget_tset_same ..
      · obtain ⟨h1, h2, h3⟩ := tileWrite_refused (s := { s with quads := qs }) (w := w) hw
        refine ⟨fun k => ?_, fun h4 h5 => ?_, fun h4 => ?_⟩
        · exact congrArg (fun x => (tgetD x k ({} : Die)).tiles) (hdies.trans h1)
        · exact (congrArg (fun x => (tgetD x w.core ({} : Core)).stopped) hcores).trans (h2 h4 h5)
        · exact (congrArg (fun x => (tgetD x w.part ({} : Part)).pstate) hparts).trans (h3 h4)
end Sys2Proof.Machine
end

section
/-! Proofs about the lane-wise operations (R226 to R231). -/
namespace Sys2Proof.Machine
open Sys2Proof

/-! ### Packed elements (R198) -/

theorem packFrom_lt (w : Nat) (f : Nat → Nat) : ∀ n, packFrom w f n < 2 ^ (w * n)
  | 0 => Nat.one_pos
  | n + 1 => by
    have h1 := packFrom_lt w f n
    have h2 : f n % 2 ^ w < 2 ^ w := Nat.mod_lt _ (Nat.two_pow_pos w)
    rw [packFrom, Nat.mul_succ, Nat.pow_add]
    calc f n % 2 ^ w * 2 ^ (w * n) + packFrom w f n < (f n % 2 ^ w + 1) * 2 ^ (w * n) := by rw [Nat.succ_mul]; omega
      _ ≤ 2 ^ w * 2 ^ (w * n) := Nat.mul_le_mul_right _ h2
      _ = 2 ^ (w * n) * 2 ^ w := Nat.mul_comm ..
theorem packFrom_elem (w : Nat) (f : Nat → Nat) {k : Nat} : ∀ n, k < n → packFrom w f n / 2 ^ (w * k) % 2 ^ w = f k % 2 ^ w
  | n + 1, h => by
    rw [packFrom]
    rcases Nat.lt_succ_iff_lt_or_eq.1 h with h | rfl
    · obtain ⟨m, rfl⟩ : ∃ m, n = k + 1 + m := ⟨n - (k + 1), by omega⟩
      have hp : f (k + 1 + m) % 2 ^ w * 2 ^ (w * (k + 1 + m)) = 2 ^ (w * k) * (2 ^ w * (f (k + 1 + m) % 2 ^ w * 2 ^ (w * m))) := by
        rw [Nat.mul_add, Nat.mul_succ, Nat.pow_add, Nat.pow_add]
        ring
      rw [hp, Nat.mul_add_div (Nat.two_pow_pos _), Nat.mul_add_mod]
      exact packFrom_elem w f _ h
    · rw [Nat.mul_comm (f k % 2 ^ w), Nat.mul_add_div (Nat.two_pow_pos _), Nat.div_eq_of_lt (packFrom_lt w f k), Nat.add_zero, Nat.mod_mod]
/-- An element of a lane made of elements. -/
theorem elem_pack {w k : Nat} (f : Nat → Nat) (h : k < 32 / w) : Spec.elem w (pack w f) k = f k % 2 ^ w := by
  have hlt : packFrom w f (32 / w) < 2 ^ 32 := Nat.lt_of_lt_of_le (packFrom_lt w f _) (Nat.pow_le_pow_right Nat.two_pos (Nat.mul_div_le 32 w))
  unfold Spec.elem pack
  rw [BitVec.toNat_ofNat, Nat.mod_eq_of_lt hlt]
  exact packFrom_elem w f _ h
theorem elem_lt (w : Nat) (x : W32) (k : Nat) : Spec.elem w x k < 2 ^ w := Nat.mod_lt _ (Nat.two_pow_pos w)
theorem elem_word (x : W32) : Spec.elem 32 x 0 = x.toNat := by
  unfold Spec.elem
  rw [Nat.mul_zero, Nat.pow_zero, Nat.div_one, Nat.mod_eq_of_lt x.isLt]
theorem width_eq (e : Nat) : elemW e = Spec.width e := by
  match e with
  | 0 | 1 | _ + 2 => rfl
theorem float_eq (t : Nat) : floatOf t = Spec.float t := by
  match t with
  | 0 | 1 | _ + 2 => rfl

/-! ### The values of elements (R227) -/

theorem elemInt_value (w : Nat) (u : Bool) (x : W32) (k : Nat) : elemInt w u x k = Spec.value w u (Spec.elem w x k) := by
  cases u with
  | false => rfl
  | true =>
    show ((Spec.elem w x k : Nat) : Int) = (Spec.elem w x k % 2 ^ w : Nat)
    rw [Nat.mod_eq_of_lt (elem_lt w x k)]
theorem narrow_fit (w : Nat) (u t : Bool) (z : Int) : narrow w u t z = Spec.fit w u t z := by
  have hp : (0 : Int) < ((2 ^ w : Nat) : Int) := by exact_mod_cast Nat.two_pow_pos w
  have hq : (0 : Int) < ((2 ^ (w - 1) : Nat) : Int) := by exact_mod_cast Nat.two_pow_pos (w - 1)
  have hc : (if t then clampInt (loOf w u) (hiOf w u) z else z)
      = if t then (if u then max 0 (min z ((2 ^ w : Nat) - 1)) else max (-(2 ^ (w - 1) : Nat)) (min z ((2 ^ (w - 1) : Nat) - 1))) else z := by
    cases t with
    | false => rfl
    | true =>
      rw [if_pos rfl, if_pos rfl]
      unfold clampInt loOf hiOf
      cases u with
      | true =>
        rw [if_pos rfl, if_pos rfl, if_pos rfl]
        split <;> omega
      | false =>
        rw [if_neg Bool.false_ne_true, if_neg Bool.false_ne_true, if_neg Bool.false_ne_true]
        split <;> omega
  unfold narrow Spec.fit
  rw [hc]
  rfl
theorem wrap_lt (w : Nat) (z : Int) : Spec.wrap w z < 2 ^ w := by
  have hp : (0 : Int) < ((2 ^ w : Nat) : Int) := by exact_mod_cast Nat.two_pow_pos w
  have h1 := Int.emod_nonneg z (ne_of_gt hp)
  have h2 := Int.emod_lt_of_pos z hp
  unfold Spec.wrap
  omega
/-- The low bits of an element's value are the element. -/
theorem wrap_value {w x : Nat} (u : Bool) (h : x < 2 ^ w) : Spec.wrap w (Spec.value w u x) = x := by
  have hx : ((x : Nat) : Int) % ((2 ^ w : Nat) : Int) = x := Int.emod_eq_of_lt (Int.natCast_nonneg x) (by exact_mod_cast h)
  unfold Spec.wrap Spec.value Spec.sgn
  rw [Nat.mod_eq_of_lt h]
  split
  · rw [hx, Int.toNat_natCast]
  split
  · rw [hx, Int.toNat_natCast]
  · rw [Int.sub_emod_right, hx, Int.toNat_natCast]
theorem fit_wrap (w : Nat) (u : Bool) (z : Int) : Spec.fit w u false z = Spec.wrap w z := rfl
theorem narrow_mod (w : Nat) (u t : Bool) (z : Int) : narrow w u t z % 2 ^ w = Spec.fit w u t z := by
  rw [narrow_fit]
  exact Nat.mod_eq_of_lt (wrap_lt w _)
section
variable {w k : Nat} (h : k < 32 / w)
include h
theorem packed2_elem (u t : Bool) (f : Int → Int → Int) (x y : W32) : Spec.elem w (packed2 w u t f x y) k
    = Spec.fit w u t (f (Spec.value w u (Spec.elem w x k)) (Spec.value w u (Spec.elem w y k))) := by
  rw [packed2, elem_pack _ h, narrow_mod, elemInt_value, elemInt_value]
theorem packed1_elem (u t : Bool) (f : Int → Int) (x : W32) :
    Spec.elem w (packed1 w u t f x) k = Spec.fit w u t (f (Spec.value w u (Spec.elem w x k))) := by
  rw [packed1, elem_pack _ h, narrow_mod, elemInt_value]
theorem shiftPacked_elem (f : Nat → Nat → Nat) (x y : W32) :
    Spec.elem w (shiftPacked w f x y) k = f (Spec.elem w x k) (Spec.elem w y k % w) % 2 ^ w := elem_pack _ h
end
theorem word_of_lt {k : Nat} (h : k < 32 / 32) : k = 0 := by omega

/-! ### Floating-point elements (R229) -/

theorem float_cases (t : Nat) : Spec.float t = fp32 ∨ Spec.float t = bf16 ∨ Spec.float t = fp16 := by
  match t with
  | 0 => exact .inl rfl
  | 1 => exact .inr (.inl rfl)
  | _ + 2 => exact .inr (.inr rfl)
theorem canon_lt (t : Nat) : (Spec.float t).canon < 2 ^ (Spec.float t).width := by
  rcases float_cases t with h | h | h <;> rw [h] <;> decide
theorem width_pos (t : Nat) : 0 < (Spec.float t).width := by
  rcases float_cases t with h | h | h <;> rw [h] <;> decide
/-- The sign bit of an element is inverted by adding it. -/
theorem add_top {x m : Nat} (h : x < 2 ^ (m + 1)) : (x + 2 ^ m) % 2 ^ (m + 1) = x ^^^ 2 ^ m := by
  refine Nat.eq_of_testBit_eq fun j => ?_
  rw [Nat.testBit_mod_two_pow, Nat.testBit_xor, Nat.testBit_two_pow, Nat.add_comm x]
  rcases Nat.lt_trichotomy j m with hj | rfl | hj
  · rw [Nat.testBit_two_pow_add_gt hj, decide_eq_true (by omega), decide_eq_false (by omega), Bool.true_and, Bool.xor_false]
  · rw [Nat.testBit_two_pow_add_eq, decide_eq_true (by omega), decide_eq_true rfl, Bool.true_and, Bool.xor_true]
  · rw [decide_eq_false (by omega), decide_eq_false (by omega), Bool.false_and, Bool.xor_false]
    exact (Nat.testBit_lt_two_pow (h.trans_le (Nat.pow_le_pow_right Nat.two_pos hj))).symm

theorem signOp_clear (t x : Nat) : signOp (Spec.float t) true x % 2 ^ (Spec.float t).width
    = if ((Spec.float t).dec x).isNan then (Spec.float t).canon else x % 2 ^ ((Spec.float t).width - 1) := by
  unfold signOp
  split
  · exact Nat.mod_eq_of_lt (canon_lt t)
  · exact Nat.mod_eq_of_lt ((Nat.mod_lt _ (Nat.two_pow_pos _)).trans_le (Nat.pow_le_pow_right Nat.two_pos (Nat.sub_le ..)))
theorem signOp_invert {t x : Nat} (h : x < 2 ^ (Spec.float t).width) : signOp (Spec.float t) false x % 2 ^ (Spec.float t).width
    = if ((Spec.float t).dec x).isNan then (Spec.float t).canon else x ^^^ 2 ^ ((Spec.float t).width - 1) := by
  unfold signOp
  split
  · exact Nat.mod_eq_of_lt (canon_lt t)
  · obtain ⟨m, hm⟩ : ∃ m, (Spec.float t).width = m + 1 := ⟨_, (Nat.succ_pred_eq_of_pos (width_pos t)).symm⟩
    rw [hm] at h ⊢
    rw [if_neg Bool.false_ne_true, Nat.mod_mod]
    exact add_top h

/-! ### The lane-wise operations that round nothing (R226 to R231) -/

/-- A lane-wise operation makes each lane of its block by `g`, and each element of it as the table says. -/
structure ElementForm (i : Instr) (s : State) (lat w : Nat) (d a b : Fin 64) (p : Fin 8) (sh : Lent) (f : Nat → Nat → Nat) (g : Nat → Nat → Nat → W32) : Prop where
  exec : exec i s = meaning i 2 s (.ok (s.pushV sh lat d (s.me.preg p.val) fun r c => rowOf (g r c) 16))
  elem : ∀ r c l k, k < 32 / w → Spec.elem w (g r c l) k = f (Spec.elem w (lane (s.vsrc a.val r c) l) k) (Spec.elem w (lane (s.vsrc b.val r c) l) k)
section
variable {i : Instr} {s : State} {lat w : Nat} {d a b : Fin 64} {p : Fin 8} {sh : Lent} {f : Nat → Nat → Nat}
theorem laneOp2_form (h : W32 → W32 → W32) (he : exec i s = laneOp2 i s sh lat d a b p h)
    (hf : ∀ x y k, k < 32 / w → Spec.elem w (h x y) k = f (Spec.elem w x k) (Spec.elem w y k)) : ∃ g, ElementForm i s lat w d a b p sh f g :=
  ⟨_, he, fun _ _ _ k hk => hf _ _ k hk⟩
theorem laneOp1_form (h : W32 → W32) (he : exec i s = laneOp1 i s sh lat d a p h)
    (hf : ∀ x y k, k < 32 / w → Spec.elem w (h x) k = f (Spec.elem w x k) y) : ∃ g, ElementForm i s lat w d a a p sh f g :=
  ⟨_, he, fun _ _ _ k hk => hf _ _ k hk⟩
end

theorem imm32_toNat (n : Fin 1024) : (imm32 n).toNat = Spec.wrap 32 (Spec.sgn 10 n.val) := BitVec.toNat_ofInt ..
theorem add_imm32 (x : W32) (n : Fin 1024) : (x + imm32 n).toNat = Spec.wrap 32 ((x.toNat : Int) + Spec.sgn 10 n.val) := by
  have h : x + imm32 n = BitVec.ofInt 32 ((x.toNat : Int) + sintOf 10 n.val) := by
    rw [BitVec.ofInt_add, BitVec.ofInt_natCast, BitVec.ofNat_toNat, BitVec.setWidth_eq]
    rfl
  rw [h]
  exact BitVec.toNat_ofInt ..
theorem natAbs_value (z : Int) : (if z < 0 then -z else z) = (z.natAbs : Int) := by
  split <;> omega
/-- The table's results are the elements that an instruction makes. -/
structure HasForm (i : Instr) (s : State) : Prop where
  form : ∀ (lat w : Nat) (d a b : Fin 64) (p : Fin 8) (sh : Lent) (f : Nat → Nat → Nat), Spec.elements i = some (lat, w, d, a, b, p, sh, f) →
    ∃ g, ElementForm i s lat w d a b p sh f g
section
variable (s : State) (d a b : Fin 64) (p : Fin 8) (e : Fin 4) (u t : Bool) (n : Fin 1024) (sh : Lent)
theorem vadd_form : HasForm (.vadd d a b p e u t sh) s := by
  refine ⟨fun _ _ _ _ _ _ _ _ h => ?_⟩
  obtain ⟨⟩ := h
  exact laneOp2_form _ rfl fun x y k hk => by rw [width_eq, packed2_elem hk]
theorem vsub_form : HasForm (.vsub d a b p e u t sh) s := by
  refine ⟨fun _ _ _ _ _ _ _ _ h => ?_⟩
  obtain ⟨⟩ := h
  exact laneOp2_form _ rfl fun x y k hk => by rw [width_eq, packed2_elem hk]
theorem vmul_form : HasForm (.vmul d a b p e u t sh) s := by
  refine ⟨fun _ _ _ _ _ _ _ _ h => ?_⟩
  obtain ⟨⟩ := h
  exact laneOp2_form _ rfl fun x y k hk => by rw [width_eq, packed2_elem hk]
theorem vmulh_form : HasForm (.vmulh d a b p e u sh) s := by
  refine ⟨fun _ _ _ _ _ _ _ _ h => ?_⟩
  obtain ⟨⟩ := h
  exact laneOp2_form _ rfl fun x y k hk => by rw [width_eq, packed2_elem hk]; rfl
theorem vmin_form : HasForm (.vmin d a b p e u sh) s := by
  refine ⟨fun _ _ _ _ _ _ _ _ h => ?_⟩
  obtain ⟨⟩ := h
  refine laneOp2_form _ rfl fun x y k hk => ?_
  rw [width_eq, packed2_elem hk, fit_wrap]
  split
  · exact wrap_value u (elem_lt ..)
  · exact wrap_value u (elem_lt ..)
theorem vmax_form : HasForm (.vmax d a b p e u sh) s := by
  refine ⟨fun _ _ _ _ _ _ _ _ h => ?_⟩
  obtain ⟨⟩ := h
  refine laneOp2_form _ rfl fun x y k hk => ?_
  rw [width_eq, packed2_elem hk, fit_wrap]
  split
  · exact wrap_value u (elem_lt ..)
  · exact wrap_value u (elem_lt ..)
theorem vand_form : HasForm (.vand d a b p sh) s := by
  refine ⟨fun _ _ _ _ _ _ _ _ h => ?_⟩
  obtain ⟨⟩ := h
  exact laneOp2_form _ rfl fun x y k hk => by rw [word_of_lt hk, elem_word, elem_word, elem_word, BitVec.toNat_and]
theorem vor_form : HasForm (.vor d a b p sh) s := by
  refine ⟨fun _ _ _ _ _ _ _ _ h => ?_⟩
  obtain ⟨⟩ := h
  exact laneOp2_form _ rfl fun x y k hk => by rw [word_of_lt hk, elem_word, elem_word, elem_word, BitVec.toNat_or]
theorem vxor_form : HasForm (.vxor d a b p sh) s := by
  refine ⟨fun _ _ _ _ _ _ _ _ h => ?_⟩
  obtain ⟨⟩ := h
  exact laneOp2_form _ rfl fun x y k hk => by rw [word_of_lt hk, elem_word, elem_word, elem_word, BitVec.toNat_xor]
theorem vshl_form : HasForm (.vshl d a b p e sh) s := by
  refine ⟨fun _ _ _ _ _ _ _ _ h => ?_⟩
  obtain ⟨⟩ := h
  exact laneOp2_form _ rfl fun x y k hk => by rw [width_eq, shiftPacked_elem hk]
theorem vshr_form : HasForm (.vshr d a b p e sh) s := by
  refine ⟨fun _ _ _ _ _ _ _ _ h => ?_⟩
  obtain ⟨⟩ := h
  refine laneOp2_form _ rfl fun x y k hk => ?_
  rw [width_eq, shiftPacked_elem hk]
  exact Nat.mod_eq_of_lt (Nat.lt_of_le_of_lt (Nat.div_le_self ..) (elem_lt ..))
theorem vsra_form : HasForm (.vsra d a b p e sh) s := by
  refine ⟨fun _ _ _ _ _ _ _ _ h => ?_⟩
  obtain ⟨⟩ := h
  exact laneOp2_form _ rfl fun x y k hk => by rw [width_eq, shiftPacked_elem hk, narrow_mod]; rfl
theorem vabs_form : HasForm (.vabs d a p e t sh) s := by
  refine ⟨fun _ _ _ _ _ _ _ _ h => ?_⟩
  obtain ⟨⟩ := h
  exact laneOp1_form _ rfl fun x y k hk => by rw [width_eq, packed1_elem hk, natAbs_value]; rfl
theorem vneg_form : HasForm (.vneg d a p e t sh) s := by
  refine ⟨fun _ _ _ _ _ _ _ _ h => ?_⟩
  obtain ⟨⟩ := h
  exact laneOp1_form _ rfl fun x y k hk => by rw [width_eq, packed1_elem hk]; rfl
theorem vclz_form : HasForm (.vclz d a p e sh) s := by
  refine ⟨fun _ _ _ _ _ _ _ _ h => ?_⟩
  obtain ⟨⟩ := h
  refine laneOp1_form (fun x => pack (elemW e.val) fun k => clzN (elemW e.val) (elemOf (elemW e.val) x k)) rfl fun x y k hk => ?_
  rw [width_eq, elem_pack _ hk, clzN_value]
  exact Nat.mod_eq_of_lt (Nat.lt_of_le_of_lt ((List.length_filter_le _ _).trans_eq List.length_range) Nat.lt_two_pow_self)
theorem vpopc_form : HasForm (.vpopc d a p e sh) s := by
  refine ⟨fun _ _ _ _ _ _ _ _ h => ?_⟩
  obtain ⟨⟩ := h
  refine laneOp1_form (fun x => pack (elemW e.val) fun k => popN (elemW e.val) (elemOf (elemW e.val) x k)) rfl fun x y k hk => ?_
  rw [width_eq, elem_pack _ hk, popN_value]
  exact Nat.mod_eq_of_lt (Nat.lt_of_le_of_lt ((List.length_filter_le _ _).trans_eq List.length_range) Nat.lt_two_pow_self)
theorem vaddi_form : HasForm (.vaddi d a p n sh) s := by
  refine ⟨fun _ _ _ _ _ _ _ _ h => ?_⟩
  obtain ⟨⟩ := h
  exact laneOp1_form ((· + imm32 n)) rfl fun x y k hk => by rw [word_of_lt hk, elem_word, elem_word, add_imm32]
theorem vli_form : HasForm (.vli d p n sh) s := by
  refine ⟨fun _ _ _ _ _ _ _ _ h => ?_⟩
  obtain ⟨⟩ := h
  exact ⟨fun _ _ _ => imm32 n, rfl, fun r c l k hk => by rw [word_of_lt hk, elem_word, imm32_toNat]⟩
theorem vmov_form : HasForm (.vmov d a p sh) s := by
  refine ⟨fun _ _ _ _ _ _ _ _ h => ?_⟩
  obtain ⟨⟩ := h
  exact laneOp1_form _ rfl fun x y k hk => rfl
theorem vfmin_form (t : Fin 4) : HasForm (.vfmin d a b p t sh) s := by
  refine ⟨fun _ _ _ _ _ _ _ _ h => ?_⟩
  obtain ⟨⟩ := h
  refine laneOp2_form _ rfl fun x y k hk => ?_
  rw [float_eq, floatPick, elem_pack _ hk, Nat.mod_eq_of_lt]
  · rfl
  · unfold minF
    split_ifs
    · exact canon_lt _
    · exact elem_lt ..
    · exact elem_lt ..
theorem vfmax_form (t : Fin 4) : HasForm (.vfmax d a b p t sh) s := by
  refine ⟨fun _ _ _ _ _ _ _ _ h => ?_⟩
  obtain ⟨⟩ := h
  refine laneOp2_form _ rfl fun x y k hk => ?_
  rw [float_eq, floatPick, elem_pack _ hk, Nat.mod_eq_of_lt]
  · rfl
  · unfold maxF
    split_ifs
    · exact canon_lt _
    · exact elem_lt ..
    · exact elem_lt ..
theorem vfabs_form (t : Fin 4) : HasForm (.vfabs d a p t sh) s := by
  refine ⟨fun _ _ _ _ _ _ _ _ h => ?_⟩
  obtain ⟨⟩ := h
  refine laneOp1_form (fun x => pack (floatOf t.val).width fun k => signOp (floatOf t.val) true (elemOf (floatOf t.val).width x k)) rfl fun x y k hk => ?_
  rw [float_eq, elem_pack _ hk]
  exact signOp_clear ..
theorem vfneg_form (t : Fin 4) : HasForm (.vfneg d a p t sh) s := by
  refine ⟨fun _ _ _ _ _ _ _ _ h => ?_⟩
  obtain ⟨⟩ := h
  refine laneOp1_form (fun x => pack (floatOf t.val).width fun k => signOp (floatOf t.val) false (elemOf (floatOf t.val).width x k)) rfl fun x y k hk => ?_
  rw [float_eq, elem_pack _ hk]
  exact signOp_invert (elem_lt ..)
end
theorem element_form (i : Instr) (s : State) : HasForm i s := by
  cases i with
  | vadd => exact vadd_form ..
  | vsub => exact vsub_form ..
  | vmul => exact vmul_form ..
  | vmulh => exact vmulh_form ..
  | vmin => exact vmin_form ..
  | vmax => exact vmax_form ..
  | vand => exact vand_form ..
  | vor => exact vor_form ..
  | vxor => exact vxor_form ..
  | vshl => exact vshl_form ..
  | vshr => exact vshr_form ..
  | vsra => exact vsra_form ..
  | vabs => exact vabs_form ..
  | vneg => exact vneg_form ..
  | vclz => exact vclz_form ..
  | vpopc => exact vpopc_form ..
  | vaddi => exact vaddi_form ..
  | vli => exact vli_form ..
  | vmov => exact vmov_form ..
  | vfmin => exact vfmin_form ..
  | vfmax => exact vfmax_form ..
  | vfabs => exact vfabs_form ..
  | vfneg => exact vfneg_form ..
  | _ =>
    refine ⟨fun _ _ _ _ _ _ _ _ h => ?_⟩
    exact absurd h (Option.some_ne_none _).symm

/-- Settles O34: each lane-wise operation has its form, and its block is on its way. -/
theorem vectorElements : Obligations.VectorElements := by
  unfold Obligations.VectorElements
  intro i s lat w d a b p sh f h hc
  obtain ⟨g, he, hg⟩ := (element_form i s).form _ _ _ _ _ _ _ _ h
  obtain ⟨data, hn, hd⟩ := lanes_next hc sh lat d (s.me.preg p.val) g
  refine ⟨data, he.trans hn, fun r j l k hr hj hl hk => ?_⟩
  rw [hd r j l hr hj hl]
  exact hg r _ l k hk
end Sys2Proof.Machine
end

section
/-! Proofs about the operations that round and convert (R229, R234, R199, R200). -/
namespace Sys2Proof.Machine
open Sys2Proof

/-! ### Draws (R200) -/

theorem below_eq (p : Pred) (c : Nat) : ∀ l, activeBelow p c l = Spec.below p c l
  | 0 => rfl
  | l + 1 => by
    rw [activeBelow, below_eq p c l]
    unfold Spec.below
    rw [List.range_succ, List.filter_append, List.length_append, Nat.add_comm]
    congr 1
    rw [List.filter_cons, List.filter_nil]
    split <;> rfl
theorem genKey_inj {p g h : Nat} (hk : genKey p g = genKey p h) : g = h := Nat.add_left_cancel hk
theorem gen_drew (s : State) (p g mode n h : Nat) : (s.drew p g mode n).gen p h = if h = g ∧ mode = 5 then advanceGen n (s.gen p g) else s.gen p h := by
  unfold State.drew
  by_cases hm : mode = 5
  · rw [if_pos hm]
    by_cases hg : h = g
    · subst hg
      rw [if_pos (show h = h ∧ mode = 5 from ⟨rfl, hm⟩)]
      exact tgetD_tset_same ..
    · rw [if_neg (fun hk : h = g ∧ mode = 5 => hg hk.1)]
      exact tgetD_tset_other _ _ _ fun hk => hg (genKey_inj hk).symm
  · rw [if_neg hm, if_neg (fun h => hm h.2)]
theorem drew_rest (s : State) (p g mode n : Nat) : s.drew p g mode n = { s with gens := (s.drew p g mode n).gens } := by
  unfold State.drew
  split <;> rfl
/-- The draws of several generators of a partition, one after the other. -/
theorem foldl_drew (s : State) (p mode : Nat) (f c : Nat → Nat) (hf : Function.Injective f) : ∀ n,
    let t := (List.range n).foldl (fun t j => t.drew p (f j) mode (c j)) s
    t = { s with gens := t.gens }
    ∧ (∀ j, j < n → t.gen p (f j) = advanceGen (if mode = 5 then c j else 0) (s.gen p (f j))) ∧ ∀ g, (∀ j, j < n → g ≠ f j) → t.gen p g = s.gen p g
  | 0 => ⟨rfl, fun j hj => absurd hj (Nat.not_lt_zero j), fun _ _ => rfl⟩
  | n + 1 => by
    obtain ⟨h1, h2, h3⟩ := foldl_drew s p mode f c hf n
    dsimp only
    rw [List.range_succ, List.foldl_append, List.foldl_cons, List.foldl_nil]
    generalize (List.range n).foldl (fun t j => t.drew p (f j) mode (c j)) s = t at h1 h2 h3
    refine ⟨?_, fun j hj => ?_, fun g hg => ?_⟩
    · rw [drew_rest, h1]
    · rw [gen_drew]
      rcases Nat.lt_succ_iff_lt_or_eq.1 hj with hj | rfl
      · rw [if_neg (fun h => absurd (hf h.1) (Nat.ne_of_lt hj)), h2 j hj]
      · rw [h3 _ fun i hi he => absurd (hf he) (Nat.ne_of_gt hi)]
        by_cases hm : mode = 5
        · rw [if_pos ⟨rfl, hm⟩, if_pos hm]
        · rw [if_neg (fun h => hm h.2), if_neg hm]
          rfl
    · rw [gen_drew, if_neg (fun h => hg n (Nat.lt_succ_self n) h.1), h3 g fun j hj => hg j (Nat.lt_succ_of_lt hj)]
/-- A state that differs from another in the current core's results alone has the draws of a block to make that the other has. -/
theorem drewBlock_drew {s t : State} (h : OnlyCore s t) (hg : ∀ sh, t.me.extent sh = s.me.extent sh) (hp : t.me.part = s.me.part)
    (sh : Lent) (mode cnt : Nat) (lanes : Pred) (red : Bool) :
    Spec.Drew s (t.drewBlock sh mode cnt lanes red) t (s.me.extent sh).1 (s.me.extent sh).2
      (fun c => if mode = 5 then (if red then 1 else cnt * rowsOf sh * Spec.below lanes c 16) else 0) := by
  have hpart : t.myPart = s.myPart := hp
  have hgen (p g : Nat) : t.gen p g = s.gen p g := by rw [h.1]; rfl
  obtain ⟨h1, h2, h3⟩ := foldl_drew t s.myPart mode (fun j => 8 * s.cur + ((s.me.extent sh).1 + j))
    (fun j => if red then 1 else cnt * rowsOf sh * activeBelow lanes ((s.me.extent sh).1 + j) 16) (fun i j hij => by dsimp only at hij; omega) (s.me.extent sh).2
  have ht : t.drewBlock sh mode cnt lanes red = (List.range (s.me.extent sh).2).foldl (fun u j => u.drew s.myPart (8 * s.cur + ((s.me.extent sh).1 + j)) mode
      (if red then 1 else cnt * rowsOf sh * activeBelow lanes ((s.me.extent sh).1 + j) 16)) t := by
    unfold State.drewBlock
    rw [hg, hpart, h.cur]
  rw [ht]
  refine ⟨h1, fun j hj => ?_, fun g hg => ?_⟩
  · rw [h2 j hj, hgen, below_eq]
  · rw [h3 g hg, hgen]

theorem Drew.mark {s t u : State} {cs n : Nat} {f : Nat → Nat} (h : Spec.Drew s t u cs n f) (v : Issue) : Spec.Drew s (t.mark v) (u.mark v) cs n f := by
  obtain ⟨h1, h2, h3⟩ := h
  exact ⟨by rw [h1]; rfl, h2, h3⟩
theorem push_extent (s : State) (slot lat : Nat) (w : Payload) (sh : Lent) : (s.push slot lat w).me.extent sh = s.me.extent sh := by
  rw [State.push, me_setMe]
  rfl
theorem push_part (s : State) (slot lat : Nat) (w : Payload) : (s.push slot lat w).me.part = s.me.part := by
  rw [State.push, me_setMe]
  rfl

/-! ### Rounded elements (R199, R201) -/

theorem enc_lt {f : FF} (hm : f.maxCode < 2 ^ (f.eb + f.mb)) (hc : f.canon < 2 ^ f.width) (mode d : Nat) (sat : Bool) (x : Num) :
    f.enc mode d sat x < 2 ^ f.width := by
  have hw : 2 ^ f.width = 2 * 2 ^ (f.eb + f.mb) := by
    rw [FF.width, Nat.add_assoc, Nat.pow_add, Nat.pow_one]
  have hi : (2 ^ f.eb - 1) * 2 ^ f.mb < 2 ^ (f.eb + f.mb) := by
    rw [Nat.pow_add]
    exact Nat.mul_lt_mul_of_pos_right (Nat.sub_lt (Nat.two_pow_pos _) Nat.one_pos) (Nat.two_pow_pos _)
  have key (neg : Bool) {c : Nat} (h : c < 2 ^ (f.eb + f.mb)) : neg.toNat * 2 ^ (f.eb + f.mb) + c < 2 ^ f.width := by
    cases neg <;> simp only [Bool.toNat_false, Bool.toNat_true] <;> omega
  unfold FF.enc
  cases x with
  | nan => exact hc
  | inf neg =>
    dsimp only
    refine key neg ?_
    split
    · exact hi
    · exact hm
  | fin neg m e =>
    dsimp only
    split
    · exact key neg (Nat.two_pow_pos _)
    · refine key neg ?_
      split
      next h => exact Nat.lt_of_le_of_lt h hm
      · split
        · exact hi
        · exact hm
theorem float_enc_lt (t mode d : Nat) (sat : Bool) (x : Num) : (Spec.float t).enc mode d sat x < 2 ^ (Spec.float t).width := by
  refine enc_lt ?_ (canon_lt t) mode d sat x
  rcases float_cases t with h | h | h <;> rw [h] <;> decide
theorem perLaneF_eq (t : Nat) : perLaneF t = 32 / (Spec.float t).width := by
  match t with
  | 0 | 1 => rfl
  | _ + 2 => exact (if_neg (Nat.succ_ne_zero _)).trans (show 2 = 32 / fp16.width from rfl)
theorem cvtEnc_lt {t : Nat} (mode d : Nat) (x : Num) : cvtEnc t mode d x < 2 ^ cvtWidth t := by
  unfold cvtEnc
  split
  next h =>
    have hw : (Spec.float t).width = cvtWidth t := by
      have ht : t < 3 := of_decide_eq_true h
      interval_cases t <;> rfl
    rw [float_eq, ← hw]
    exact float_enc_lt ..
  · exact wrap_lt (cvtWidth t) _

/-- What an operation that rounds sends to its block, and the draws that it makes (R200). -/
theorem roundedOp_next {i : Instr} {s : State} (hc : Clear i s) (sh : Lent) (lat mode cnt : Nat) (d : Fin 64) (p : Fin 8)
    (f : (Nat → Nat) → Nat → Nat → Nat → W32) : ∃ data u, roundedOp i s sh lat mode cnt d p f = .next u
      ∧ Spec.Drew s u ((s.push 2 lat (.vec d.val (rowsOf sh) (s.me.extent sh).1 (s.me.extent sh).2 (s.me.preg p.val) data)).mark .issued)
          (s.me.extent sh).1 (s.me.extent sh).2 (fun c => if mode = 5 then cnt * rowsOf sh * Spec.below (s.me.preg p.val) c 16 else 0)
      ∧ ∀ w j l, w < rowsOf sh → j < (s.me.extent sh).2 → l < 16 → lane (data.getD ((s.me.extent sh).2 * w + j) 0) l
          = f (fun k => if mode = 5 then drawAt (s.gen s.myPart (8 * s.cur + ((s.me.extent sh).1 + j)))
              (cnt * (w * Spec.below (s.me.preg p.val) ((s.me.extent sh).1 + j) 16 + Spec.below (s.me.preg p.val) ((s.me.extent sh).1 + j) l) + k) else 0)
            w ((s.me.extent sh).1 + j) l := by
  unfold roundedOp
  dsimp only
  generalize hF : (fun r c => rowOf _ 16 : Nat → Nat → Row) = F
  refine ⟨blockData (rowsOf sh) (s.me.extent sh).1 (s.me.extent sh).2 F, _, meaning_ok hc, ?_, fun w j l hw hj hl => ?_⟩
  · exact Drew.mark (drewBlock_drew (t := s.pushV sh lat d (s.me.preg p.val) F) (push_onlyCore ..) (fun _ => push_extent ..) (push_part ..) sh mode cnt (s.me.preg p.val) false) .issued
  · rw [blockData_getD _ _ hw hj, ← hF, lane_rowOf _ hl]
    simp only [below_eq]

/-! ### The instructions (R229, R234) -/

theorem rounded_form {i : Instr} {s : State} {d a b : Fin 64} {p : Fin 8} {t r : Fin 4} {sh : Lent} {f : Bool → Num → Num → Num → Num}
    (h : Spec.rounded i = some (d, a, b, p, t, r, sh, f)) : exec i s = floatOp i s sh d a b p t r f := by
  unfold Spec.rounded at h
  split at h
  case h_5 => exact absurd h (Option.some_ne_none _).symm
  all_goals
    obtain ⟨⟩ := h
    rfl
/-- What the encoding of a conversion admits (R47, R234). -/
theorem vcvt_wf {d a : Fin 64} {g h p : Fin 8} {k r : Fin 4} {sh : Lent} (hw : Instr.wf (.vcvt d a g h p k r sh) = true) :
    g.val < 6 ∧ h.val < 6 ∧ k.val * min (perLane g) (perLane h) < max (perLane g) (perLane h) := by
  change (decide (g.val < 6) && decide (h.val < 6) && g != h && positionOk (perLane g) (perLane h) k && shapeOk sh [d, a]) = true at hw
  simp only [Bool.and_eq_true, decide_eq_true_eq] at hw
  obtain ⟨⟨⟨⟨h1, h2⟩, -⟩, h3⟩, -⟩ := hw
  exact ⟨h1, h2, of_decide_eq_true h3⟩
/-- Elements per lane by a conversion's type code. -/
theorem cvtWidth_perLane {t : Fin 8} (h : t.val < 6) : 32 / cvtWidth t.val = perLane t ∧ (perLane t = 1 ∨ perLane t = 2 ∨ perLane t = 4) := by
  revert h
  revert t
  decide
section
variable {f g k mode : Nat} {draw : Nat → Nat} {x old : W32} {i : Nat} (hi : i < 32 / cvtWidth g)
include hi
theorem cvtLane_equal (h : 32 / cvtWidth f = 32 / cvtWidth g) : Spec.elem (cvtWidth g) (cvtLane f g k mode draw x old) i
    = cvtEnc g mode (draw i) (cvtDec f (Spec.elem (cvtWidth f) x i)) := by
  unfold cvtLane
  dsimp only
  rw [elem_pack _ hi, if_pos h]
  exact Nat.mod_eq_of_lt (cvtEnc_lt ..)
theorem cvtLane_wider (h : 32 / cvtWidth f < 32 / cvtWidth g) (hk : k * (32 / cvtWidth f) ≤ i) (hk' : i < k * (32 / cvtWidth f) + 32 / cvtWidth f) :
    Spec.elem (cvtWidth g) (cvtLane f g k mode draw x old) i
      = cvtEnc g mode (draw (i - k * (32 / cvtWidth f))) (cvtDec f (Spec.elem (cvtWidth f) x (i - k * (32 / cvtWidth f)))) := by
  unfold cvtLane
  dsimp only
  rw [elem_pack _ hi, if_neg (Nat.ne_of_lt h), if_pos h, if_pos ⟨hk, hk'⟩]
  exact Nat.mod_eq_of_lt (cvtEnc_lt ..)
theorem cvtLane_kept (h : 32 / cvtWidth f < 32 / cvtWidth g) (hk : i < k * (32 / cvtWidth f) ∨ k * (32 / cvtWidth f) + 32 / cvtWidth f ≤ i) :
    Spec.elem (cvtWidth g) (cvtLane f g k mode draw x old) i = Spec.elem (cvtWidth g) old i := by
  unfold cvtLane
  dsimp only
  rw [elem_pack _ hi, if_neg (Nat.ne_of_lt h), if_pos h, if_neg (by omega)]
  exact Nat.mod_eq_of_lt (elem_lt ..)
theorem cvtLane_narrower (h : 32 / cvtWidth g < 32 / cvtWidth f) : Spec.elem (cvtWidth g) (cvtLane f g k mode draw x old) i
    = cvtEnc g mode (draw i) (cvtDec f (Spec.elem (cvtWidth f) x (k * (32 / cvtWidth g) + i))) := by
  unfold cvtLane
  dsimp only
  rw [elem_pack _ hi, if_neg (Nat.ne_of_gt h), if_neg (Nat.not_lt.2 h.le)]
  exact Nat.mod_eq_of_lt (cvtEnc_lt ..)
end

/-- Settles O35: each lane is one rounding of its elements, or the conversion of them. -/
theorem vectorRounding : Obligations.VectorRounding := by
  unfold Obligations.VectorRounding
  intro s
  refine ⟨fun i d a b p t r sh f h hc => ?_, fun d a g h p k r sh hc => ?_⟩
  · obtain ⟨data, u, he, hd, hx⟩ := roundedOp_next hc sh 4 (s.me.modeOf r.val) (perLaneF t.val) d p fun draw row c l =>
      pack (floatOf t.val).width fun k => (floatOf t.val).enc (s.me.modeOf r.val) (draw k) false (f (s.me.modeOf r.val == 4)
        ((floatOf t.val).dec (elemOf (floatOf t.val).width (lane (s.vsrc a.val row c) l) k)) ((floatOf t.val).dec (elemOf (floatOf t.val).width (lane (s.vsrc b.val row c) l) k))
        ((floatOf t.val).dec (elemOf (floatOf t.val).width (lane (s.vsrc d.val row c) l) k)))
    simp only [perLaneF_eq, float_eq] at hd hx
    refine ⟨data, u, (rounded_form h).trans he, hd, fun w j l k hw hj hl hk => ?_⟩
    rw [hx w j l hw hj hl]
    exact (elem_pack _ hk).trans (Nat.mod_eq_of_lt (float_enc_lt ..))
  · obtain ⟨data, u, he, hd, hx⟩ := roundedOp_next hc sh 3 (if isFloatType g.val || isFloatType h.val then s.me.modeOf r.val else 2)
      (min (32 / cvtWidth g.val) (32 / cvtWidth h.val)) d p fun draw row c l =>
        cvtLane g.val h.val k.val (if isFloatType g.val || isFloatType h.val then s.me.modeOf r.val else 2) draw (lane (s.vsrc a.val row c) l)
          (lane (s.me.vreg (d.val + row) c) l)
    refine ⟨data, u, he, hd, fun w j l e hw hj hl => ?_⟩
    dsimp only
    rw [hx w j l hw hj hl]
    obtain ⟨hg, hh, hk⟩ := vcvt_wf hc.1
    obtain ⟨hng, hcg⟩ := cvtWidth_perLane hg
    obtain ⟨hnh, hch⟩ := cvtWidth_perLane hh
    rw [← hng, ← hnh] at hk
    rw [← hng] at hcg
    rw [← hnh] at hch
    refine ⟨fun hle he => ?_, fun hlt he ho => cvtLane_kept he hlt ho, fun hlt he => cvtLane_narrower he hlt⟩
    rcases Nat.lt_or_eq_of_le hle with hlt | heq
    · have hin : k.val * (32 / cvtWidth g.val) + 32 / cvtWidth g.val ≤ 32 / cvtWidth h.val := by
        rw [Nat.min_eq_left hle, Nat.max_eq_right hle] at hk
        rcases hcg with hn | hn | hn <;> rw [hn] at hk hlt ⊢ <;> omega
      rw [cvtLane_wider (by omega) hlt (Nat.le_add_right ..) (by omega), Nat.add_sub_cancel_left]
    · have h0 : k.val = 0 := by
        rw [heq, Nat.min_self, Nat.max_self] at hk
        exact Nat.eq_zero_of_not_pos fun hp => Nat.not_le.2 hk (Nat.le_mul_of_pos_left _ hp)
      rw [h0, Nat.zero_mul, Nat.zero_add]
      exact cvtLane_equal (heq ▸ he) heq
end Sys2Proof.Machine
end

section
/-! Proofs about vector compares, selects and moves (R230 to R232). -/
namespace Sys2Proof.Machine
open Sys2Proof

/-! ### Bits of lanes (R230) -/

theorem lanesFold_getLsbD (cs : Nat) (f : Nat → Nat → Bool) {g : Nat} (hg : g < 128) : ∀ m,
    ((List.range m).foldl (fun r q => if f (cs + q / 16) (q % 16) then r ||| (1#128 <<< (16 * cs + q)) else r) (0 : Pred)).getLsbD g
      = (decide (16 * cs ≤ g) && decide (g < 16 * cs + m) && f (g / 16) (g % 16))
  | 0 => by
    rw [List.range_zero, List.foldl_nil]
    have : (decide (16 * cs ≤ g) && decide (g < 16 * cs + 0)) = false := by
      rw [Bool.and_eq_false_iff, decide_eq_false_iff_not, decide_eq_false_iff_not]
      omega
    rw [this, Bool.false_and]
    exact BitVec.getLsbD_zero
  | m + 1 => by
    rw [List.range_succ, List.foldl_append, List.foldl_cons, List.foldl_nil]
    have ih := lanesFold_getLsbD cs f hg m
    generalize (List.range m).foldl (fun r q => if f (cs + q / 16) (q % 16) then r ||| (1#128 <<< (16 * cs + q)) else r) (0 : Pred) = r at ih
    have hbit : (1#128 <<< (16 * cs + m)).getLsbD g = decide (g = 16 * cs + m) := by
      rw [BitVec.getLsbD_shiftLeft, BitVec.getLsbD_one]
      by_cases h : g = 16 * cs + m
      · subst h
        simp [hg]
      · rw [decide_eq_false h]
        simp
        omega
    have hstep : (if f (cs + m / 16) (m % 16) then r ||| (1#128 <<< (16 * cs + m)) else r).getLsbD g
        = (r.getLsbD g || (f (cs + m / 16) (m % 16) && (1#128 <<< (16 * cs + m)).getLsbD g)) := by
      cases f (cs + m / 16) (m % 16) <;> simp
    rw [hstep, ih, hbit]
    by_cases h : g = 16 * cs + m
    · rw [decide_eq_true h, show cs + m / 16 = g / 16 by omega, show m % 16 = g % 16 by omega, decide_eq_false (show ¬ g < 16 * cs + m by omega),
        decide_eq_true (show 16 * cs ≤ g by omega), decide_eq_true (show g < 16 * cs + (m + 1) by omega)]
      simp
    · rw [decide_eq_false h, Bool.and_false, Bool.or_false, show decide (g < 16 * cs + (m + 1)) = decide (g < 16 * cs + m) from decide_eq_decide.2 (by omega)]
theorem laneBits_getLsbD (cs n : Nat) (f : Nat → Nat → Bool) {g : Nat} (hg : g < 128) :
    (laneBits cs n f).getLsbD g = (decide (16 * cs ≤ g) && decide (g < 16 * (cs + n)) && f (g / 16) (g % 16)) := by
  rw [Nat.mul_add]
  exact lanesFold_getLsbD cs f hg (16 * n)

/-- What a comparison sends to its predicate register: the lanes of its row that are on, and the test's bits there. -/
theorem comparePush_next {i : Instr} {s : State} (hc : Clear i s) (sh : Lent) (q p : Fin 8) (a b : Fin 64) (f : W32 → W32 → Bool) :
    let on := fun g => decide (16 * (s.me.extent sh).1 ≤ g) && decide (g < 16 * ((s.me.extent sh).1 + (s.me.extent sh).2)) && (s.me.preg p.val).getLsbD g
    ∃ lanes v : Pred, comparePush i s sh q p a b f = .next ((s.push 2 2 (.pred q.val lanes v)).mark .issued)
      ∧ ∀ g, g < 128 → lanes.getLsbD g = on g
        ∧ (on g = true → v.getLsbD g = f (lane (s.vsrc a.val 0 (g / 16)) (g % 16)) (lane (s.vsrc b.val 0 (g / 16)) (g % 16))) := by
  refine ⟨_, _, meaning_ok hc, fun g hg => ?_⟩
  rw [laneBits_getLsbD _ _ _ hg, laneBits_getLsbD _ _ _ hg, show 16 * (g / 16) + g % 16 = g by omega]
  refine ⟨rfl, fun h => ?_⟩
  obtain ⟨h1, h2⟩ := Bool.and_eq_true_iff.1 h
  rw [h1, h2, Bool.true_and, Bool.true_and]

theorem bne_eq_not_decide (y z : Int) : (y != z) = decide (y ≠ z) := by
  by_cases h : y = z <;> simp [h]
theorem condF_unordered {y z : Num} (h : (y.isNan || z.isNan) = true) (c : Fin 8) : condF c.val y z = (c.val == 1 || decide (6 ≤ c.val)) := by
  unfold condF
  dsimp only
  rw [h]
  revert c
  generalize y.lt z = a
  generalize z.lt y = b
  revert a b
  decide
theorem zeroExtend_word (x : W32) : x.zeroExtend 64 = BitVec.ofNat 64 x.toNat := by
  apply BitVec.eq_of_toNat_eq
  simp

/-- Settles O36: comparisons bit by bit, moves lane by lane. -/
theorem vectorMoves : Obligations.VectorMoves := by
  unfold Obligations.VectorMoves
  intro s sh
  dsimp only
  refine ⟨fun c q p a b u hc => ?_, fun c q p a b hc => ?_, fun d a b k hc => ?_, fun d a b p hc => ?_, fun d a k p hc => ?_, fun d a p hc => ?_, fun d a k hc => ?_⟩
  · obtain ⟨lanes, v, he, hv⟩ := comparePush_next hc sh q p a b fun x y => condV c.val (elemInt 32 u x 0) (elemInt 32 u y 0)
    refine ⟨lanes, v, he, fun g hg => ⟨(hv g hg).1, fun hon => ((hv g hg).2 hon).trans ?_⟩⟩
    rw [elemInt_value, elemInt_value, elem_word, elem_word]
    generalize Spec.value 32 u _ = y
    generalize Spec.value 32 u _ = z
    generalize c.val = n
    match n with
    | 0 => rfl
    | 1 => exact bne_eq_not_decide y z
    | 2 | 3 | 4 | _ + 5 => rfl
  · obtain ⟨lanes, v, he, hv⟩ := comparePush_next hc sh q p a b fun x y => condF c.val (fp32.dec x.toNat) (fp32.dec y.toNat)
    refine ⟨lanes, v, he, fun g hg => ⟨(hv g hg).1, fun hon => ?_⟩⟩
    rw [(hv g hg).2 hon]
    generalize fp32.dec _ = y
    generalize fp32.dec _ = z
    refine ⟨fun h => condF_unordered h c, fun hy hz => ?_⟩
    unfold condF
    dsimp only
    rw [hy, hz]
    generalize c.val = n
    match n with
    | 0 | 1 | 2 | 3 | 4 | 5 | _ + 6 => rfl
  · obtain ⟨data, he, hd⟩ := lanes_next hc sh 2 d (BitVec.allOnes 128) fun r c l =>
      if (s.me.preg k.val).getLsbD (16 * c + l) then lane (s.vsrc a.val r c) l else lane (s.vsrc b.val r c) l
    refine ⟨data, he, fun r j l hr hj hl => ?_⟩
    rw [hd r j l hr hj hl]
    split <;> rfl
  · obtain ⟨data, he, hd⟩ := lanes_next hc sh 3 d (s.me.preg p.val) fun r c l => lane (s.vsrc a.val r c) ((lane (s.vsrc b.val r c) l).toNat % 16)
    exact ⟨data, he, hd⟩
  · obtain ⟨data, he, hd⟩ := lanes_next hc sh 2 d (s.me.preg p.val) fun r c _ => lane (s.vsrc a.val r c) k.val
    exact ⟨data, he, hd⟩
  · obtain ⟨data, he, hd⟩ := lanes_next hc sh 3 d (s.me.preg p.val) fun _ _ _ => (s.me.sreg a.val).truncate 32
    refine ⟨data, he, fun r j l hr hj hl => ?_⟩
    rw [hd r j l hr hj hl]
    exact BitVec.toNat_setWidth ..
  · have he : exec (.vmovsTos d a k sh) s = meaning (.vmovsTos d a k sh) 2 s
        (.ok (s.pushS 2 3 d.val ((lane (s.vsrc a.val 0 (s.me.extent sh).1) k.val).zeroExtend 64))) := rfl
    rw [he, meaning_ok hc, State.pushS, zeroExtend_word]
end Sys2Proof.Machine
end

section
/-! Proofs about reductions (R233, R200). -/
namespace Sys2Proof.Machine
open Sys2Proof

/-! ### The smallest and the largest of a list (R233) -/

section
variable {α : Type} [LinearOrder α] {lt : W32 → W32 → Bool} {key : W32 → α}
theorem foldl_least : ∀ (r : List W32) (m : W32), (∀ x y, x ∈ m :: r → y ∈ m :: r → (lt x y = true ↔ key x < key y)) →
    let v := r.foldl (fun m y => if lt y m then y else m) m
    v ∈ m :: r ∧ ∀ x, x ∈ m :: r → key v ≤ key x
  | [], m, _ => ⟨.head _, fun x hx => by rw [List.mem_singleton.1 hx]; rfl⟩
  | y :: r, m, h => by
    have hm : m ∈ m :: y :: r := .head _
    have hy : y ∈ m :: y :: r := .tail _ (.head _)
    rw [List.foldl_cons]
    by_cases hlt : lt y m = true
    · rw [if_pos hlt]
      obtain ⟨h1, h2⟩ := foldl_least r y fun a b ha hb => h a b (.tail _ ha) (.tail _ hb)
      refine ⟨.tail _ h1, fun x hx => ?_⟩
      rcases List.mem_cons.1 hx with rfl | hx
      · exact (h2 y (.head _)).trans ((h y x hy hm).1 hlt).le
      · exact h2 x hx
    · rw [if_neg hlt]
      have hsub {a : W32} (ha : a ∈ m :: r) : a ∈ m :: y :: r := (List.mem_cons.1 ha).elim (fun h => h ▸ hm) fun h => .tail _ (.tail _ h)
      obtain ⟨h1, h2⟩ := foldl_least r m fun a b ha hb => h a b (hsub ha) (hsub hb)
      refine ⟨hsub h1, fun x hx => ?_⟩
      rcases List.mem_cons.1 hx with rfl | hx
      · exact h2 x (.head _)
      rcases List.mem_cons.1 hx with rfl | hx
      · exact (h2 m (.head _)).trans (not_lt.1 (mt (h x m hy hm).2 hlt))
      · exact h2 x (.tail _ hx)
theorem extreme_least (empty : W32) {xs : List W32} (hx : xs ≠ []) (h : ∀ x y, x ∈ xs → y ∈ xs → (lt x y = true ↔ key x < key y)) :
    extreme lt empty xs ∈ xs ∧ ∀ x, x ∈ xs → key (extreme lt empty xs) ≤ key x := by
  cases xs with
  | nil => exact absurd rfl hx
  | cons m r => exact foldl_least r m h
end

/-! ### The order of the exact values (R229) -/

/-- The rational number of a finite value. -/
def Num.rat (neg : Bool) (m : Nat) (e : Int) : ℚ := (if neg then -(m : ℚ) else m) * (2 : ℚ) ^ e
/-- The place of a value that is not NaN in the order of R229: infinities outside, the sign only between zeros. -/
def Num.rank : Num → ℤ ×ₗ ℚ ×ₗ ℤ
  | .nan => toLex (0, toLex (0, 0))
  | .inf neg => toLex (if neg then -1 else 1, toLex (0, 0))
  | .fin neg m e => toLex (0, toLex (Num.rat neg m e, if m = 0 ∧ neg = false then 1 else 0))
theorem signedMant_rat {neg : Bool} {m : Nat} {e base : Int} (h : base ≤ e) : ((signedMant neg m e base : Int) : ℚ) * (2 : ℚ) ^ base = Num.rat neg m e := by
  have hp : (2 : ℚ) ^ (e - base).toNat * 2 ^ base = 2 ^ e := by
    rw [← zpow_natCast, ← zpow_add₀ (by norm_num), Int.toNat_of_nonneg (by omega), Int.sub_add_cancel]
  unfold signedMant Num.rat
  cases neg
  · simp [mul_assoc, hp]
  · simp [mul_assoc, hp]
theorem signedMant_lt {a b : Bool} {m n : Nat} {e f : Int} :
    signedMant a m e (min e f) < signedMant b n f (min e f) ↔ Num.rat a m e < Num.rat b n f := by
  rw [← signedMant_rat (min_le_left e f), ← signedMant_rat (min_le_right e f), mul_lt_mul_iff_left₀ (zpow_pos (by norm_num) _), Int.cast_lt]
theorem rat_eq_zero {neg : Bool} {m : Nat} {e : Int} : Num.rat neg m e = 0 ↔ m = 0 := by
  unfold Num.rat
  rw [mul_eq_zero, or_iff_left (zpow_ne_zero _ (by norm_num))]
  cases neg <;> simp
theorem rank_fin {a b : Bool} {m n : Nat} {e f : Int} : (Num.fin a m e).rank < (Num.fin b n f).rank ↔
    Num.rat a m e < Num.rat b n f ∨ (m = 0 ∧ n = 0 ∧ a = true ∧ b = false) := by
  unfold Num.rank
  simp only [Prod.Lex.toLex_lt_toLex, lt_irrefl, false_or, true_and]
  refine or_congr_right ⟨fun ⟨h1, h2⟩ => ?_, fun ⟨h1, h2, h3, h4⟩ => ?_⟩
  · have hn : n = 0 ∧ b = false := by
      by_contra hn
      rw [if_neg hn] at h2
      split at h2 <;> omega
    rw [if_pos hn] at h2
    have hm : ¬ (m = 0 ∧ a = false) := fun hm => by
      rw [if_pos hm] at h2
      exact absurd h2 (lt_irrefl _)
    have h0 : m = 0 := rat_eq_zero.1 (h1.trans (rat_eq_zero.2 hn.1))
    exact ⟨h0, hn.1, Bool.eq_true_of_not_eq_false fun ha => hm ⟨h0, ha⟩, hn.2⟩
  · refine ⟨(rat_eq_zero.2 h1).trans (rat_eq_zero.2 h2).symm, ?_⟩
    rw [if_neg (fun h => by rw [h3] at h; exact absurd h.2 (by decide)), if_pos ⟨h2, h4⟩]
    exact Int.one_pos
theorem below_fin {a b : Bool} {m n : Nat} {e f : Int} : (Num.fin a m e).below (.fin b n f) = true ↔
    Num.rat a m e < Num.rat b n f ∨ (m = 0 ∧ n = 0 ∧ a = true ∧ b = false) := by
  by_cases h : m = 0 ∧ n = 0 ∧ a = true ∧ b = false
  · obtain ⟨rfl, rfl, rfl, rfl⟩ := h
    exact ⟨fun _ => .inr ⟨rfl, rfl, rfl, rfl⟩, fun _ => rfl⟩
  · have hl : (Num.fin a m e).below (.fin b n f) = (Num.fin a m e).lt (.fin b n f) := by
      unfold Num.below
      split
      next h1 h2 =>
        obtain ⟨rfl, rfl, -⟩ := Num.fin.inj h1
        obtain ⟨rfl, rfl, -⟩ := Num.fin.inj h2
        exact absurd ⟨rfl, rfl, rfl, rfl⟩ h
      · rfl
    rw [hl, or_iff_left h, ← signedMant_lt]
    exact decide_eq_true_iff
theorem below_iff {x y : Num} (hx : x.isNan = false) (hy : y.isNan = false) : x.below y = true ↔ x.rank < y.rank := by
  cases x with
  | nan => exact absurd hx (by decide)
  | inf a =>
    cases y with
    | nan => exact absurd hy (by decide)
    | inf b => cases a <;> cases b <;> simp [Num.below, Num.lt, Num.rank, Prod.Lex.toLex_lt_toLex]
    | fin b n f => cases a <;> simp [Num.below, Num.lt, Num.rank, Prod.Lex.toLex_lt_toLex]
  | fin a m e =>
    cases y with
    | nan => exact absurd hy (by decide)
    | inf b => cases b <;> simp [Num.below, Num.lt, Num.rank, Prod.Lex.toLex_lt_toLex]
    | fin b n f => rw [below_fin, rank_fin]

/-! ### Reductions (R200, R233) -/

theorem mem_gather {s : State} {sh : Lent} {a : Fin 64} {p : Fin 8} {c : Nat} {x : W32} : x ∈ s.gather sh a p c ↔
    ∃ r l, r < rowsOf sh ∧ l < 16 ∧ (s.me.preg p.val).getLsbD (16 * c + l) = true ∧ x = lane (s.vsrc a.val r c) l := by
  unfold State.gather
  simp only [List.mem_flatMap, List.mem_range, List.mem_map, List.mem_filter]
  constructor
  · rintro ⟨r, hr, l, ⟨hl, hp⟩, rfl⟩
    exact ⟨r, l, hr, hl, hp, rfl⟩
  · rintro ⟨r, l, hr, hl, hp, rfl⟩
    exact ⟨r, hr, l, ⟨hl, hp⟩, rfl⟩
/-- What a reduction sends to its block, and the draws that it makes. -/
theorem reduceOp_next {i : Instr} {s : State} (hc : Clear i s) (sh : Lent) (d a : Fin 64) (p : Fin 8) (f : Nat → List W32 → W32) (mode : Nat) :
    ∃ data t, reduceOp i s sh d a p f mode = .next t
      ∧ Spec.Drew s t ((s.push 2 5 (.vec d.val (rowsOf sh) (s.me.extent sh).1 (s.me.extent sh).2 (BitVec.allOnes 128) data)).mark .issued)
          (s.me.extent sh).1 (s.me.extent sh).2 (fun _ => if mode = 5 then 1 else 0)
      ∧ ∀ r j l, r < rowsOf sh → j < (s.me.extent sh).2 → l < 16 → lane (data.getD ((s.me.extent sh).2 * r + j) 0) l
          = f ((s.me.extent sh).1 + j) (s.gather sh a p ((s.me.extent sh).1 + j)) := by
  refine ⟨_, _, meaning_ok hc, Drew.mark (drewBlock_drew (push_onlyCore ..) (fun _ => push_extent ..) (push_part ..) sh mode 1 0 true) .issued,
    fun r j l hr hj hl => ?_⟩
  rw [blockData_getD _ _ hr hj, lane_rowOf _ hl]
/-- A reduction that does not round draws nothing. -/
theorem reduceOp_plain {i : Instr} {s : State} (hc : Clear i s) (sh : Lent) (d a : Fin 64) (p : Fin 8) (f : Nat → List W32 → W32) :
    ∃ data, reduceOp i s sh d a p f 0
        = .next ((s.push 2 5 (.vec d.val (rowsOf sh) (s.me.extent sh).1 (s.me.extent sh).2 (BitVec.allOnes 128) data)).mark .issued)
      ∧ ∀ r j l, r < rowsOf sh → j < (s.me.extent sh).2 → l < 16 → lane (data.getD ((s.me.extent sh).2 * r + j) 0) l
          = f ((s.me.extent sh).1 + j) (s.gather sh a p ((s.me.extent sh).1 + j)) := by
  have hd (t : State) : t.drewBlock sh 0 1 0 true = t := by
    unfold State.drewBlock
    dsimp only
    generalize List.range _ = l
    induction l with
    | nil => rfl
    | cons j l ih => exact ih
  have he : reduceOp i s sh d a p f 0 = meaning i 2 s (.ok (s.pushV sh 5 d (BitVec.allOnes 128) fun _ c => rowOf (fun _ => f c (s.gather sh a p c)) 16)) :=
    congrArg (fun t => meaning i 2 s (.ok t)) (hd _)
  rw [he]
  exact lanes_next hc sh 5 d (BitVec.allOnes 128) fun _ c _ => f c (s.gather sh a p c)
theorem sum_value (u : Bool) (xs : List W32) :
    (xs.map fun x => elemInt 32 u x 0).foldl (· + ·) 0 = (xs.map fun x => Spec.value 32 u x.toNat).sum := by
  rw [← List.sum_eq_foldl]
  refine congrArg List.sum (List.map_congr_left fun x _ => ?_)
  rw [elemInt_value, elem_word]
theorem value_lt (u : Bool) (x y : W32) : (if u then x.ult y else x.slt y) = true ↔ Spec.value 32 u x.toNat < Spec.value 32 u y.toNat := by
  cases u with
  | true =>
    rw [if_pos rfl, BitVec.ult_iff_toNat_lt]
    show _ ↔ ((x.toNat % 2 ^ 32 : Nat) : Int) < (y.toNat % 2 ^ 32 : Nat)
    rw [Nat.mod_eq_of_lt x.isLt, Nat.mod_eq_of_lt y.isLt, Int.ofNat_lt]
  | false =>
    rw [if_neg Bool.false_ne_true, BitVec.slt_iff_toInt_lt, BitVec.toInt_eq_toNat_cond, BitVec.toInt_eq_toNat_cond]
    show _ ↔ Spec.sgn 32 x.toNat < Spec.sgn 32 y.toNat
    unfold Spec.sgn
    rw [Nat.mod_eq_of_lt x.isLt, Nat.mod_eq_of_lt y.isLt]
    split <;> split <;> split <;> split <;> omega
theorem extremeF_nan {f : Num → Num → Bool} {e : W32} {xs : List W32} (h : ∃ x, x ∈ xs ∧ (fp32.dec x.toNat).isNan = true) : extremeF f e xs = 0x7FC00000 :=
  if_pos (List.any_eq_true.2 h)
theorem extremeF_plain {f : Num → Num → Bool} {e : W32} {xs : List W32} (h : ∀ x, x ∈ xs → (fp32.dec x.toNat).isNan = false) :
    extremeF f e xs = extreme (fun x y => f (fp32.dec x.toNat) (fp32.dec y.toNat)) e xs :=
  if_neg fun ha => by
    obtain ⟨x, hx, hn⟩ := List.any_eq_true.1 ha
    exact absurd hn (by rw [h x hx]; exact Bool.false_ne_true)

/-- Settles O37: each cluster's value is what its lanes give. -/
theorem vectorReductions : Obligations.VectorReductions := by
  unfold Obligations.VectorReductions
  intro s sh d a p
  dsimp only
  refine ⟨fun c x => mem_gather, fun u t hc => ?_, fun u hc => ?_, fun u hc => ?_, fun r hc => ?_, fun hc => ?_, fun hc => ?_⟩
  · obtain ⟨data, he, hd⟩ := reduceOp_plain hc sh d a p fun _ xs => BitVec.ofNat 32 (narrow 32 u t ((xs.map fun x => elemInt 32 u x 0).foldl (· + ·) 0))
    refine ⟨data, he, fun r j l hr hj hl => ?_⟩
    rw [hd r j l hr hj hl, narrow_fit, sum_value]
  · obtain ⟨data, he, hd⟩ := reduceOp_plain hc sh d a p fun _ => extreme (fun x y => if u then x.ult y else x.slt y) (if u then 0xFFFFFFFF else 0x7FFFFFFF)
    refine ⟨fun c => extreme (fun x y => if u then x.ult y else x.slt y) (if u then 0xFFFFFFFF else 0x7FFFFFFF) (s.gather sh a p c), ⟨data, he, hd⟩, fun c => ⟨fun h => by dsimp only; rw [h]; rfl, fun h => extreme_least _ h fun x y _ _ => value_lt u x y⟩⟩
  · obtain ⟨data, he, hd⟩ := reduceOp_plain hc sh d a p fun _ => extreme (fun x y => if u then y.ult x else y.slt x) (if u then 0 else 0x80000000)
    refine ⟨fun c => extreme (fun x y => if u then y.ult x else y.slt x) (if u then 0 else 0x80000000) (s.gather sh a p c), ⟨data, he, hd⟩, fun c => ⟨fun h => by dsimp only; rw [h]; rfl, fun h => ?_⟩⟩
    exact extreme_least (α := Intᵒᵈ) (key := fun x => OrderDual.toDual (Spec.value 32 u x.toNat)) _ h fun x y _ _ => value_lt u y x
  · obtain ⟨data, t, he, hd, hx⟩ := reduceOp_next hc sh d a p
      (fun c => sumF (s.me.modeOf r.val) (if s.me.modeOf r.val = 5 then drawAt (s.gen s.myPart (8 * s.cur + c)) 0 else 0)) (s.me.modeOf r.val)
    refine ⟨data, t, he, hd, fun w j l hw hj hl => ?_⟩
    rw [hx w j l hw hj hl]
    unfold sumF
    by_cases h : s.gather sh a p ((s.me.extent sh).1 + j) = []
    · rw [h]
      rfl
    · rw [if_neg (mt List.isEmpty_iff.1 h), if_neg h]
  · obtain ⟨data, he, hd⟩ := reduceOp_plain hc sh d a p fun _ => extremeF Num.below 0x7F800000
    refine ⟨fun c => extremeF Num.below 0x7F800000 (s.gather sh a p c), ⟨data, he, hd⟩, fun c => ⟨fun h => by dsimp only; rw [h]; rfl, fun h => extremeF_nan h, fun h hn => ?_⟩⟩
    dsimp only
    rw [extremeF_plain hn]
    obtain ⟨h1, h2⟩ := extreme_least (key := fun x => (fp32.dec x.toNat).rank) 0x7F800000 h fun x y hx hy => below_iff (hn x hx) (hn y hy)
    exact ⟨h1, fun x hx => Bool.eq_false_of_not_eq_true fun hb => not_lt.2 (h2 x hx) ((below_iff (hn x hx) (hn _ h1)).1 hb)⟩
  · obtain ⟨data, he, hd⟩ := reduceOp_plain hc sh d a p fun _ => extremeF (fun x y => y.below x) 0xFF800000
    refine ⟨fun c => extremeF (fun x y => y.below x) 0xFF800000 (s.gather sh a p c), ⟨data, he, hd⟩, fun c => ⟨fun h => by dsimp only; rw [h]; rfl, fun h => extremeF_nan h, fun h hn => ?_⟩⟩
    dsimp only
    rw [extremeF_plain hn]
    obtain ⟨h1, h2⟩ := extreme_least (key := fun x => OrderDual.toDual (fp32.dec x.toNat).rank) 0xFF800000 h fun x y hx hy => below_iff (hn y hy) (hn x hx)
    exact ⟨h1, fun x hx => Bool.eq_false_of_not_eq_true fun hb => not_lt.2 (h2 x hx) ((below_iff (hn _ h1) (hn x hx)).1 hb)⟩
end Sys2Proof.Machine
end

section
/-! Proofs about TLBI (R107). -/
namespace Sys2Proof.Machine
open Sys2Proof

/-! ### Writes that reach their homes before others (R107, R318) -/

theorem last_covered {x : Nat} : ∀ (ps : List (Nat × List Byte)) (b : Byte),
    Spec.last ps x b = b ∨ ∃ p, p ∈ ps ∧ p.1 ≤ x ∧ x < p.1 + p.2.length ∧ Spec.last ps x b = p.2.getD (x - p.1) 0
  | [], _ => .inl rfl
  | (a, y) :: t, b => by
    unfold Spec.last
    rcases last_covered t (if a ≤ x ∧ x < a + y.length then y.getD (x - a) 0 else b) with h | ⟨p, hp, h1, h2, h3⟩
    · rw [h]
      by_cases hc : a ≤ x ∧ x < a + y.length
      · exact .inr ⟨(a, y), .head _, hc.1, hc.2, if_pos hc⟩
      · exact .inl (if_neg hc)
    · exact .inr ⟨p, .tail _ hp, h1, h2, h3⟩
theorem homeByte_covered (s : State) (ws : List PathStore) (x : Nat) : Spec.homeByte s ws x = tgetD s.mem x 0
    ∨ ∃ w, w ∈ ws ∧ w.tile = none ∧ w.addr ≤ x ∧ x < w.addr + w.bytes.length ∧ Spec.homeByte s ws x = w.bytes.getD (x - w.addr) 0 := by
  unfold Spec.homeByte
  refine (last_covered _ _).imp_right fun ⟨p, hp, h1, h2, h3⟩ => ?_
  obtain ⟨w, hw, rfl⟩ := List.mem_map.1 hp
  obtain ⟨hw, hm⟩ := List.mem_filter.1 hw
  exact ⟨w, hw, ((toMem_iff w).1 hm).1, h1, h2, h3⟩
theorem tget_mem {α : Type} {k : Nat} {v : α} : ∀ {t : Tbl α}, tget t k = some v → (k, v) ∈ t
  | (j, w) :: t, h => by
    rw [tget_cons] at h
    by_cases hj : j = k
    · rw [if_pos hj] at h
      rw [← hj, ← Option.some.inj h]
      exact .head _
    · rw [if_neg hj] at h
      exact .tail _ (tget_mem h)
namespace Reached
theorem refl (s : State) : Spec.Reached s s := ⟨fun _ => ⟨[], rfl⟩, fun _ => .inl rfl⟩
theorem trans {s t u : State} (h : Spec.Reached s t) (g : Spec.Reached t u) : Spec.Reached s u := by
  refine ⟨fun q => ?_, fun x => ?_⟩
  · obtain ⟨d1, h1⟩ := h.paths q
    obtain ⟨d2, h2⟩ := g.paths q
    exact ⟨d1 ++ d2, by rw [h1, h2, List.append_assoc]⟩
  · rcases g.bytes x with hb | ⟨q, w, hw, h1, h2, h3, h4⟩
    · rw [hb]
      exact h.bytes x
    · obtain ⟨d1, hd⟩ := h.paths q
      exact .inr ⟨q, w, by rw [hd]; exact List.mem_append_right _ hw, h1, h2, h3, h4⟩
/-- A write that is still on its path was there before. -/
theorem mem {s t : State} (h : Spec.Reached s t) {q : Nat} {w : PathStore} (hw : w ∈ (t.quad q).path) : w ∈ (s.quad q).path := by
  obtain ⟨d, hd⟩ := h.paths q
  rw [hd]
  exact List.mem_append_right _ hw
theorem plain {s t : State} (h : Spec.Reached s t) (hp : Spec.plainPaths s) : Spec.plainPaths t := fun q w hw => hp q w (Reached.mem h hw)
end Reached

/-- Writes of some paths have reached their homes, with what those that go to tiles and to the host's registers do there. -/
structure Flushed (s t : State) : Prop where
  reached : Spec.Reached s t
  quads : ∀ q, t.quad q = { s.quad q with path := (t.quad q).path }
  dies : ∀ d, t.die d = { s.die d with tiles := (t.die d).tiles }
  effect : TakesEffect s t
  plain : Spec.plainPaths s → t = { s with mem := t.mem, quads := t.quads }
namespace Flushed
theorem refl (s : State) : Flushed s s := ⟨Reached.refl s, fun _ => rfl, fun _ => rfl, .refl s, fun _ => rfl⟩
theorem trans {s t u : State} (h : Flushed s t) (g : Flushed t u) : Flushed s u :=
  ⟨Reached.trans h.reached g.reached, fun q => by rw [g.quads, h.quads], fun d => by rw [g.dies, h.dies], h.effect.trans g.effect,
    fun hp => by rw [g.plain (Reached.plain h.reached hp), h.plain hp]⟩
theorem foldl {α : Type} {f : State → α → State} (h : ∀ s a, Flushed s (f s a)) : ∀ (l : List α) (s : State), Flushed s (l.foldl f s)
  | [], s => refl s
  | a :: l, s => (h s a).trans (foldl h l (f s a))
end Flushed
theorem takeEffect_die (s : State) (w : PathStore) (d : Nat) : (s.takeEffect w).die d = { s.die d with tiles := ((s.takeEffect w).die d).tiles } := by
  unfold State.takeEffect
  split
  next dd ix g ht =>
    by_cases hw : s.writable dd ix g = true
    · unfold State.tileWrite State.writeTile
      rw [if_pos hw]
      dsimp only
      split
      · rw [State.die_setDie]
        split
        next hd => subst hd; rfl
        · rfl
      · rfl
    · have hr := tileWrite_refused (w := w) (Bool.eq_false_of_not_eq_true hw)
      have hd : (s.tileWrite w dd ix g).die d = s.die d := congrArg (fun x => tgetD x d ({} : Die)) hr.dies
      rw [hd]
  split
  · have hd : (s.hostWrite (w.addr - hostPa) w.bytes).die d = s.die d := congrArg (fun x => tgetD x d ({} : Die)) (hostWrite_host ..).dies
    rw [hd]
  · rfl
theorem performFirst_die (q : Nat) : ∀ (n : Nat) (s : State) (d : Nat), (s.performFirst q n).die d = { s.die d with tiles := ((s.performFirst q n).die d).tiles }
  | 0, s, d => rfl
  | n + 1, s, d => by
    unfold State.performFirst
    dsimp only
    split
    · rfl
    · rw [performFirst_die q n, takeEffect_die]
      rfl
theorem performFirst_flushed (s : State) (q n : Nat) : Flushed s (s.performFirst q n) := by
  have h := performFirst_reached q n s
  refine ⟨⟨fun p => ?_, fun x => ?_⟩, fun p => ?_, performFirst_die q n s, performFirst_effect q n s, fun hp => h.plain fun w hw => hp q w (List.mem_of_mem_take hw)⟩
  · by_cases hp : p = q
    · subst hp
      exact ⟨_, by rw [h.path]; exact (List.take_append_drop n _).symm⟩
    · exact ⟨[], by rw [h.others p hp]; rfl⟩
  · rw [h.bytes]
    exact (homeByte_covered _ _ x).imp_right fun ⟨w, hw, h1⟩ => ⟨q, w, List.mem_of_mem_take hw, h1⟩
  · by_cases hp : p = q
    · subst hp
      exact h.quad
    · rw [h.others p hp]
/-- The step of a wait: the writes of one path, through the last that the predicate names. -/
def flushOne (f : PathStore → Bool) (s : State) (e : Nat × Quad) : State :=
  if e.2.path.any f then s.performFirst e.1 (throughLast f e.2.path) else s
theorem flushFor_eq (s : State) (f : PathStore → Bool) : s.flushFor f = s.quads.foldl (flushOne f) s := rfl
theorem flushOne_flushed (f : PathStore → Bool) (s : State) (e : Nat × Quad) : Flushed s (flushOne f s e) := by
  unfold flushOne
  split
  · exact performFirst_flushed ..
  · exact .refl s
theorem flushFor_flushed (s : State) (f : PathStore → Bool) : Flushed s (s.flushFor f) := Flushed.foldl (flushOne_flushed f) s.quads s
theorem flushOne_other {f : PathStore → Bool} {q : Nat} (s : State) (e : Nat × Quad) (h : e.1 ≠ q) : (flushOne f s e).quad q = s.quad q := by
  unfold flushOne
  split
  · exact (performFirst_reached ..).others q (Ne.symm h)
  · rfl
theorem throughLast_none (f : PathStore → Bool) : ∀ l : List PathStore, ∀ w, w ∈ l.drop (throughLast f l) → f w = false
  | [], w, h => nomatch h
  | v :: r, w, h => by
    have ih := throughLast_none f r w
    unfold throughLast at h
    split at h
    next h0 =>
      rw [h0, List.drop_zero] at ih
      split at h
      · exact ih h
      next hv =>
        rcases List.mem_cons.1 h with rfl | h
        · exact Bool.eq_false_of_not_eq_true hv
        · exact ih h
    next n hn =>
      rw [hn] at ih
      exact ih h
theorem flushOne_done {f : PathStore → Bool} (s : State) (q : Nat) (e : Quad) (h : (s.quad q).path = e.path) (w : PathStore)
    (hw : w ∈ ((flushOne f s (q, e)).quad q).path) : f w = false := by
  unfold flushOne at hw
  split at hw
  · rw [(performFirst_reached ..).path, h] at hw
    exact throughLast_none f _ w hw
  next ha => exact Bool.eq_false_of_not_eq_true fun hf => ha (List.any_eq_true.2 ⟨w, h ▸ hw, hf⟩)
theorem foldl_flushOne_done {f : PathStore → Bool} {q : Nat} {e : Quad} (l : Tbl Quad) : ∀ (s : State), tget l q = some e → (s.quad q).path = e.path →
    ∀ w, w ∈ ((l.foldl (flushOne f) s).quad q).path → f w = false := by
  induction l with
  | nil => exact fun s hl => nomatch hl
  | cons a l ih =>
    intro s hl hs w hw
    rw [tget_cons] at hl
    rw [List.foldl_cons] at hw
    by_cases hk : a.1 = q
    · rw [if_pos hk] at hl
      have ha : a = (q, e) := Prod.ext hk (Option.some.inj hl)
      rw [ha] at hw
      exact flushOne_done s q e hs w (Reached.mem (Flushed.foldl (flushOne_flushed f) l _).reached hw)
    · rw [if_neg hk] at hl
      exact ih (flushOne f s a) hl (by rw [flushOne_other s a hk, hs]) w hw
/-- After the wait no write that the predicate names stands on a path. -/
theorem flushFor_done (s : State) (f : PathStore → Bool) (q : Nat) (w : PathStore) (hw : w ∈ ((s.flushFor f).quad q).path) : f w = false := by
  cases hq : tget s.quads q with
  | none =>
    have hn : (s.quad q).path = [] := congrArg Quad.path (show tgetD s.quads q ({} : Quad) = {} by unfold tgetD; rw [hq])
    have hm := Reached.mem (flushFor_flushed s f).reached hw
    rw [hn] at hm
    exact nomatch hm
  | some e =>
    exact foldl_flushOne_done s.quads s hq (congrArg Quad.path (show tgetD s.quads q ({} : Quad) = e by unfold tgetD; rw [hq])) w hw

/-! ### TLB removals (R107) -/

theorem dropTlb_quad (s : State) (f : TlbEnt → Bool) (c : Bool) (q : Nat) :
    (s.dropTlb f c).quad q = { s.quad q with tlb := (s.quad q).tlb.filter fun e => !f e } := by
  exact tgetD_map (fun x : Quad => { x with tlb := x.tlb.filter fun e => !f e }) s.quads q {}
theorem dropTlb_die (s : State) (f : TlbEnt → Bool) (c : Bool) (d : Nat) :
    (s.dropTlb f c).die d = { s.die d with tlb := (s.die d).tlb.filter (fun e => !f e), wcache := if c then [] else (s.die d).wcache } := by
  cases c with
  | true => exact tgetD_map (fun x : Die => { x with tlb := x.tlb.filter (fun e => !f e), wcache := [] }) s.dies d {}
  | false => exact tgetD_map (fun x : Die => { x with tlb := x.tlb.filter (fun e => !f e) }) s.dies d {}
/-- A core without what walks have told it of the pages that a removal names. -/
def Core.forget (k : Core) (f : TlbEnt → Bool) : Core := { k with walked := k.walked.filter fun w => !f ⟨k.part, w.1, 0, 0⟩ }
theorem dropTlb_core (s : State) (f : TlbEnt → Bool) (c : Bool) (j : Nat) : (s.dropTlb f c).core j = (s.core j).forget f := by
  have hg : (s.dropTlb f c).cores = s.cores.map fun e => (e.1, e.2.forget f) := by
    refine List.map_congr_left fun e _ => ?_
    split
    next h => rw [Core.forget, List.isEmpty_iff.1 h, List.filter_nil, ← List.isEmpty_iff.1 h]
    · rfl
  unfold State.core
  rw [hg]
  exact tgetD_map (·.forget f) s.cores j {}
theorem dropTlb_rest {s u : State} {f : TlbEnt → Bool} {c : Bool} {m : Tbl Byte} {q : Tbl Quad} (h : u = { s with mem := m, quads := q }) :
    u.dropTlb f c = { s with cores := (u.dropTlb f c).cores, quads := (u.dropTlb f c).quads, dies := (u.dropTlb f c).dies, mem := (u.dropTlb f c).mem } := by
  rw [h]
  rfl
theorem mem_flatMap_tgetD {α β : Type} {g : α → List β} {t : Tbl α} {k : Nat} {d : α} {x : β} (hd : g d = []) (h : x ∈ g (tgetD t k d)) :
    x ∈ t.flatMap fun e => g e.2 := by
  unfold tgetD at h
  cases ht : tget t k with
  | none => rw [ht] at h; rw [hd] at h; exact nomatch h
  | some v =>
    rw [ht] at h
    exact List.mem_flatMap.2 ⟨(k, v), tget_mem ht, h⟩
/-- Whether a write of a path went through an entry of a TLB of the package that a removal names. -/
def State.throughGone (s : State) (f : TlbEnt → Bool) (w : PathStore) : Bool :=
  (((s.quads.flatMap fun e => e.2.tlb) ++ s.dies.flatMap fun e => e.2.tlb).filter f).any fun t => s.within t w
theorem removeTlb_eq (s : State) (f : TlbEnt → Bool) (c : Bool) : s.removeTlb f c = (s.flushFor (s.throughGone f)).dropTlb f c := rfl
theorem removeTlb_removed (s : State) (f : TlbEnt → Bool) (c : Bool) : Spec.Removed s (s.removeTlb f c) f := by
  have h := flushFor_flushed s (s.throughGone f)
  rw [removeTlb_eq]
  refine ⟨fun q => ?_, fun d => ?_, ⟨fun q => ?_, h.reached.bytes⟩, fun e he hm q w hw => ?_⟩
  · rw [dropTlb_quad, h.quads]
  · rw [dropTlb_die, h.dies]
  · obtain ⟨d, hd⟩ := h.reached.paths q
    exact ⟨d, by rw [dropTlb_quad]; exact hd⟩
  · rw [dropTlb_quad] at hw
    have hn := flushFor_done _ _ _ _ hw
    refine Bool.eq_false_of_not_eq_true (List.any_eq_false.1 hn e (List.mem_filter.2 ⟨List.mem_append.2 (hm.imp ?_ ?_), he⟩))
    · exact fun ⟨q, hq⟩ => mem_flatMap_tgetD (g := Quad.tlb) rfl hq
    · exact fun ⟨d, hd⟩ => mem_flatMap_tgetD (g := Die.tlb) rfl hd
theorem removeTlb_wcache (s : State) (f : TlbEnt → Bool) (c : Bool) (d : Nat) : ((s.removeTlb f c).die d).wcache = if c then [] else (s.die d).wcache := by
  rw [removeTlb_eq, dropTlb_die, (flushFor_flushed s _).dies]
theorem removeTlb_core (s : State) (f : TlbEnt → Bool) (c : Bool) (hp : Spec.plainPaths s) (j : Nat) : (s.removeTlb f c).core j = (s.core j).forget f := by
  rw [removeTlb_eq, dropTlb_core]
  exact congrArg (·.forget f) (congrArg (fun u : State => u.core j) ((flushFor_flushed s (s.throughGone f)).plain hp) :)
/-- What a removal leaves as it is, where every write on its way goes to memory. -/
theorem removeTlb_only (s : State) (f : TlbEnt → Bool) (c : Bool) (hp : Spec.plainPaths s) :
    s.removeTlb f c = { s with cores := (s.removeTlb f c).cores, quads := (s.removeTlb f c).quads, dies := (s.removeTlb f c).dies,
                               mem := (s.removeTlb f c).mem } := by
  have h := (flushFor_flushed s (s.throughGone f)).plain hp
  rw [removeTlb_eq]
  exact dropTlb_rest h

/-- A removal and its stall, with no store or copy of the core out. -/
theorem tlbiEffect_done {s : State} {sup : Bool} {f : TlbEnt → Bool} {c : Bool} (hs : sup = true → s.isSup = true) (hp : s.pathOut s.cur = false)
    (hc : s.copiesOut s.cur = false) :
    tlbiEffect s sup false (fun t => t.removeTlb f c) = .ok ((s.removeTlb f c).setMe { (s.removeTlb f c).me with dyn := (s.removeTlb f c).me.dyn + 600 }) := by
  have h1 : (sup && !s.isSup) = false := by
    cases sup with
    | true => rw [hs rfl]; rfl
    | false => rfl
  unfold tlbiEffect
  rw [h1, hp, hc]
  rfl
theorem removeTlb_cur (s : State) (f : TlbEnt → Bool) (c : Bool) : (s.removeTlb f c).cur = s.cur := by
  rw [removeTlb_eq]
  exact (congrArg State.cur (flushFor_flushed s (s.throughGone f)).effect.rest :)
theorem removeTlb_walked (s : State) (f : TlbEnt → Bool) (c : Bool) (j : Nat) (w : Nat × Nat × Nat) (h : w ∈ ((s.removeTlb f c).core j).walked) :
    w ∈ (s.core j).walked := by
  rw [removeTlb_eq, dropTlb_core] at h
  have := (List.mem_filter.1 h).1
  rw [(flushFor_flushed s _).effect.core] at this
  exact this
theorem removeTlb_quad (s : State) (f : TlbEnt → Bool) (c : Bool) (q : Nat) :
    (s.removeTlb f c).quad q = { s.quad q with tlb := ((s.removeTlb f c).quad q).tlb, path := ((s.removeTlb f c).quad q).path } := by
  rw [removeTlb_eq, dropTlb_quad, (flushFor_flushed s _).quads]
theorem removeTlb_die {s : State} (f : TlbEnt → Bool) (c : Bool) (hp : Spec.plainPaths s) (d : Nat) :
    (s.removeTlb f c).die d = { s.die d with tlb := ((s.removeTlb f c).die d).tlb, wcache := ((s.removeTlb f c).die d).wcache } := by
  have hd : (s.flushFor (s.throughGone f)).die d = s.die d := (congrArg (fun u : State => u.die d) ((flushFor_flushed s (s.throughGone f)).plain hp) :)
  rw [removeTlb_eq, dropTlb_die, hd]
/-- The stall of the current core. -/
def State.stalled (s : State) (n : Nat) : State := s.setMe { s.me with dyn := s.me.dyn + n }
theorem stalled_core (s : State) (n j : Nat) : (s.stalled n).core j = { s.core j with dyn := ((s.stalled n).core j).dyn } := by
  unfold State.stalled State.setMe
  rw [State.core_setCore]
  split
  next hj => subst hj; rfl
  · rfl
theorem stalled_rest {s u : State} {c : Tbl Core} {q : Tbl Quad} {d : Tbl Die} {m : Tbl Byte} (n : Nat)
    (h : u = { s with cores := c, quads := q, dies := d, mem := m }) : (u.stalled n).mark .issued
      = { s with cores := (u.stalled n).cores, quads := (u.stalled n).quads, dies := (u.stalled n).dies, mem := (u.stalled n).mem, issue := .issued, parts := (u.stalled n).parts } := by
  rw [h]
  rfl
theorem forget_stalled {k m : Core} {f : TlbEnt → Bool} {n : Nat} (h : k = { m.forget f with dyn := n }) : k = { m with walked := k.walked, dyn := k.dyn } := by
  rw [h]
  rfl
theorem stalled_other {s : State} (n : Nat) {j : Nat} (hj : j ≠ s.cur) : (s.stalled n).core j = s.core j := by
  unfold State.stalled State.setMe
  rw [State.core_setCore, if_neg (Ne.symm hj)]

theorem forget_walkedOnly {k m : Core} {f : TlbEnt → Bool} (h : k = m.forget f) : k = { m with walked := k.walked } := by
  rw [h]
  rfl
/-- What a removal and a stall leave, beside the partitions. -/
theorem stalled_only (s : State) (f : TlbEnt → Bool) (c : Bool) (n : Nat) (hp : Spec.plainPaths s) (g : Tbl Part) (i : Issue) :
    Spec.RemovedOnly s { (s.removeTlb f c).stalled n with parts := g, issue := i } := by
  have hcur := removeTlb_cur s f c
  refine ⟨removeTlb_quad s f c, removeTlb_die f c hp, fun j hj => forget_walkedOnly (f := f) ?_, ?_, ?_⟩
  · exact (stalled_other n (hcur ▸ hj)).trans (removeTlb_core s f c hp j)
  · have h := stalled_core (s.removeTlb f c) n (s.removeTlb f c).cur
    rw [removeTlb_core s f c hp, hcur] at h
    exact forget_stalled ((show ((s.removeTlb f c).stalled n).me = ((s.removeTlb f c).stalled n).core s.cur from congrArg _ hcur).trans h)
  · exact (congrArg (fun u : State => { u with parts := g, issue := i }) (stalled_rest n (removeTlb_only s f c hp)) :)

/-- A removal with nothing of the core out, and what it leaves. -/
theorem tlbi_removes {i : Instr} {s : State} {sup : Bool} {f : TlbEnt → Bool} {c : Bool} (hc : Clear i s) (hs : sup = true → s.isSup = true)
    (hp : s.pathOut s.cur = false) (ho : s.copiesOut s.cur = false)
    (he : exec i s = meaning i 3 s (tlbiEffect s sup false fun t => t.removeTlb f c)) :
    ∃ t, exec i s = .next t ∧ t.issue = .issued ∧ Spec.Removed s t f ∧ (∀ d, (t.die d).wcache = if c then [] else (s.die d).wcache)
      ∧ (∀ j w, w ∈ (t.core j).walked → w ∈ (s.core j).walked) ∧ (Spec.plainPaths s → Spec.RemovedOnly s t ∧ t.parts = s.parts) := by
  rw [tlbiEffect_done hs hp ho] at he
  have hr := removeTlb_removed s f c
  refine ⟨((s.removeTlb f c).stalled 600).mark .issued, he.trans (meaning_ok hc), rfl, ⟨hr.quads, hr.dies, ⟨hr.reached.paths, hr.reached.bytes⟩, hr.done⟩,
    removeTlb_wcache s f c, fun j w hw => ?_, fun hpl => ?_⟩
  · exact removeTlb_walked s f c j w ((congrArg Core.walked (stalled_core (s.removeTlb f c) 600 j) :) ▸ hw)
  exact ⟨stalled_only s f c 600 hpl (s.removeTlb f c).parts .issued, (congrArg State.parts (removeTlb_only s f c hpl) :)⟩

/-- A removal that is refused: the privilege comes first, then the operand. -/
theorem tlbi_traps {i : Instr} {s : State} {bad : Bool} {g : State → State} (hc : Clear i s) (he : exec i s = meaning i 3 s (tlbiEffect s true bad g)) :
    (s.isSup = false → Traps i s 3 2 0 (BitVec.ofNat 64 (encode i))) ∧ (s.isSup = true → bad = true → Traps i s 3 5 0 0) := by
  refine ⟨fun h => word_traps (sub := 0) (info := 0) hc (by decide) (by decide) (by decide) (he.trans (congrArg (meaning i 3 s) ?_)),
    fun h hb => fault_Traps hc (by decide) (by decide) (by decide) (he.trans (congrArg (meaning i 3 s) ?_))⟩
  · unfold tlbiEffect
    rw [h]
    rfl
  · unfold tlbiEffect
    rw [h, hb]
    rfl
theorem partBad_eq (v : W64) : partBad v = decide (16 ≤ v.toNat) := by
  unfold partBad
  have := bits_eq_zero (x := v)
  by_cases h : v.toNat < 16
  · rw [this.2 h, decide_eq_false (by omega)]
    rfl
  · rw [decide_eq_true (by omega)]
    exact bne_iff_ne.2 (mt this.1 h)
theorem bits_low4 (v : W64) : bits v 3 0 = v.toNat % 16 := by
  unfold bits
  omega
theorem bits_page (v : W64) : bits v 63 12 = v.toNat / 4096 := by
  unfold bits
  have := v.isLt
  omega

/-- What TLBI does, by the entries that it names and whether it clears the walk caches. -/
theorem tlbi_form {i : Instr} {s : State} {sup bad : Bool} {f : TlbEnt → Bool} {c : Bool} {P : Prop} [Decidable P] (hc : Clear i s) (hP : P ↔ c = false)
    (he : exec i s = meaning i 3 s (tlbiEffect s sup bad fun t => t.removeTlb f c)) :
    ((sup = true → s.isSup = true) → bad = false → s.pathOut s.cur = false → s.copiesOut s.cur = false →
      ∃ t, exec i s = .next t ∧ t.issue = .issued ∧ Spec.Removed s t f ∧ (∀ d, (t.die d).wcache = if P then (s.die d).wcache else [])
        ∧ (∀ j w, w ∈ (t.core j).walked → w ∈ (s.core j).walked) ∧ (Spec.plainPaths s → Spec.RemovedOnly s t ∧ t.parts = s.parts))
    ∧ (sup = true → s.isSup = false → Traps i s 3 2 0 (BitVec.ofNat 64 (encode i)))
    ∧ (sup = true → s.isSup = true → bad = true → Traps i s 3 5 0 0) := by
  refine ⟨fun hs hb hp ho => ?_, fun h => ?_, fun h => ?_⟩
  · subst hb
    obtain ⟨t, h1, h2, h3, h4, h5⟩ := tlbi_removes hc hs hp ho he
    refine ⟨t, h1, h2, h3, fun d => (h4 d).trans ?_, h5⟩
    cases c with
    | true => exact (if_neg fun h => nomatch hP.1 h).symm
    | false => exact (if_pos (hP.2 rfl)).symm
  · subst h
    exact (tlbi_traps hc he).1
  · subst h
    exact (tlbi_traps hc he).2

/-- Settles O31: each kind of TLBI removes the entries it names, or takes its fault. -/
theorem tlbRemovals : Obligations.TlbRemovals := by
  unfold Obligations.TlbRemovals
  intro a b s i sup bad f p page hi hc
  rcases hi with ⟨rfl, rfl, rfl, rfl⟩ | ⟨rfl, rfl, rfl, rfl⟩ | ⟨rfl, rfl, rfl, rfl⟩ | ⟨rfl, rfl, rfl, rfl⟩ | ⟨rfl, rfl, rfl, rfl⟩
  · refine tlbi_form (c := false) hc (iff_of_true (.inl rfl) rfl) ?_
    rw [exec_tlbiVa, execTlbiVa, bits_page]
    rfl
  · exact tlbi_form (c := true) hc (iff_of_false (fun h => h.elim Instr.noConfusion Instr.noConfusion) Bool.noConfusion) rfl
  · refine tlbi_form (c := false) hc (iff_of_true (.inr rfl) rfl) ?_
    rw [exec_tlbiPva, execTlbiPva, bits_page, bits_low4, partBad_eq]
    rfl
  · refine tlbi_form (c := true) hc (iff_of_false (fun h => h.elim Instr.noConfusion Instr.noConfusion) Bool.noConfusion) ?_
    rw [exec_tlbiPart, execTlbiPart, bits_low4, partBad_eq]
  · exact tlbi_form (c := true) hc (iff_of_false (fun h => h.elim Instr.noConfusion Instr.noConfusion) Bool.noConfusion) rfl
end Sys2Proof.Machine
end

section
/-! Proofs about publish pairs and remap windows (R113, R114, R146 to R149). -/
namespace Sys2Proof.Machine
open Sys2Proof

/-! ### What a halt leaves of a partition (R379, R380) -/

/-- Of the partitions only the halts and the faults of their units differ. -/
structure OnlyHalts (s t : State) : Prop where
  eq : ∀ q, t.part q = { s.part q with pstate := (t.part q).pstate, halt := (t.part q).halt, unitFault := (t.part q).unitFault }
namespace OnlyHalts
theorem refl (s : State) : OnlyHalts s s := ⟨fun _ => rfl⟩
theorem of_eq {s t : State} (h : t.parts = s.parts) : OnlyHalts s t := ⟨fun q => by
  have hq : t.part q = s.part q := congrArg (fun x => tgetD x q ({} : Part)) h
  rw [hq]⟩
theorem trans {s t u : State} (h : OnlyHalts s t) (g : OnlyHalts t u) : OnlyHalts s u := ⟨fun q => by rw [g.eq, h.eq]⟩
theorem setPart {s : State} {p : Nat} {x : Part} (h : x = { s.part p with pstate := x.pstate, halt := x.halt, unitFault := x.unitFault }) :
    OnlyHalts s (s.setPart p x) := ⟨fun q => by
  rw [State.part_setPart]
  split
  next hq => subst hq; exact h
  · rfl⟩
theorem ite {s t u : State} {c : Prop} [Decidable c] (h : OnlyHalts s t) (g : OnlyHalts s u) : OnlyHalts s (if c then t else u) := by
  split
  · exact h
  · exact g
theorem pairs {s t : State} (h : OnlyHalts s t) (q : Nat) : (t.part q).pairs = (s.part q).pairs := by rw [h.eq]
end OnlyHalts
theorem assertHalt_halts (s : State) (p code sub d : Nat) : OnlyHalts s (s.assertHalt p code sub d) := by
  unfold State.assertHalt
  dsimp only
  split
  · generalize hu : s.setPart p _ = u
    have h0 : OnlyHalts s u := by rw [← hu]; exact .setPart rfl
    refine h0.trans ?_
    have h : OnlyHalts u (List.foldl _ u (s.unitsOf p)) :=
      .of_eq (congrArg State.parts (foldl_schedule 120 (fun x : Nat × Nat => Instr.haltLineArrives p x.1 x.2) (s.unitsOf p) u).1 :)
    exact .ite (h.trans (.of_eq rfl)) h
  · split
    · exact .ite (.setPart rfl) (.refl s)
    · exact .refl s
theorem unitHalt_halts (s : State) (p k i : Nat) (f : FaultInfo) (m : CmdInfo) : OnlyHalts s (s.unitHalt p k i f m) := by
  unfold State.unitHalt
  dsimp only
  refine .ite (.refl s) (.trans ?_ (assertHalt_halts ..))
  split
  · exact .refl s
  · exact .setPart rfl
theorem coreHalt_onlyHalts (s : State) (c : Nat) (f : FaultInfo) : OnlyHalts s (s.coreHalt c f) := by
  unfold State.coreHalt
  dsimp only
  generalize hu : s.setCore c _ = u
  have h0 : OnlyHalts s u := .of_eq (by rw [← hu]; rfl)
  exact h0.trans (unitHalt_halts ..)
theorem takeEffect_halts (s : State) (w : PathStore) : OnlyHalts s (s.takeEffect w) := by
  unfold State.takeEffect
  split
  · unfold State.tileWrite State.writeTile
    refine .ite ?_ (.ite (coreHalt_onlyHalts ..) (unitHalt_halts ..))
    dsimp only
    split <;> exact .of_eq rfl
  · exact .ite (.of_eq (hostWrite_host ..).parts) (.of_eq rfl)
theorem performFirst_halts (q n : Nat) : ∀ s : State, OnlyHalts s (s.performFirst q n) := by
  induction n with
  | zero => exact .refl
  | succ n ih =>
    intro s
    unfold State.performFirst
    dsimp only
    split
    · exact .refl s
    next w r _ =>
      have h0 : OnlyHalts s (s.setQuad q { s.quad q with path := r }) := .of_eq rfl
      exact (h0.trans (takeEffect_halts ..)).trans (ih _)
theorem removeTlb_halts (s : State) (f : TlbEnt → Bool) (c : Bool) : OnlyHalts s (s.removeTlb f c) := by
  have hf : ∀ (l : List (Nat × Quad)) (u : State), OnlyHalts u (l.foldl (flushOne (s.throughGone f)) u) := by
    intro l
    induction l with
    | nil => exact .refl
    | cons e l ih => exact fun u => .trans (.ite (performFirst_halts ..) (.refl u)) (ih _)
  exact (hf s.quads s).trans (.of_eq rfl)

/-! ### What counting an access leaves (R68, R70, R120, R121) -/

/-- Counts of the memories' accesses, and what the dies keep of them. -/
structure Metered (s t : State) : Prop where
  eq : t = { s with dies := t.dies, hot := t.hot, pchan := t.pchan, pchanUsed := t.pchanUsed, busyTill := t.busyTill, agenda := t.agenda
                    health := t.health, hclass := t.hclass }
namespace Metered
theorem refl (s : State) : Metered s s := ⟨rfl⟩
theorem trans {s t u : State} (h : Metered s t) (g : Metered t u) : Metered s u := ⟨by rw [g.eq, h.eq]⟩
theorem ite {s t u : State} {c : Prop} [Decidable c] (h : Metered s t) (g : Metered s u) : Metered s (if c then t else u) := by
  split
  · exact h
  · exact g
theorem foldl {α : Type} {f : State → α → State} (h : ∀ s a, Metered s (f s a)) (l : List α) : ∀ s : State, Metered s (l.foldl f s) := by
  induction l with
  | nil => exact refl
  | cons a l ih => exact fun s => (h s a).trans (ih (f s a))
theorem of_noted {s t : State} (h : Spec.Noted s t) : Metered s t := ⟨h.rest.trans (by rw [h.rest])⟩
end Metered
theorem bumpClass_metered (s : State) (e b lo w n : Nat) : Metered s (s.bumpClass e b lo w n) := .ite (.refl s) ⟨rfl⟩
theorem setBlock_metered (s : State) (e b : Nat) (f : Flash) : Metered s (s.setBlock e b f) := by
  have h0 : Metered s (s.setFlash e f) := ⟨rfl⟩
  exact (h0.trans (.foldl (fun _ _ => ⟨rfl⟩) _ _)).trans (.foldl (fun _ _ => ⟨rfl⟩) _ _)
theorem retireBlock_metered (s : State) (e b : Nat) : Metered s (s.retireBlock e b) := (setBlock_metered ..).trans ⟨rfl⟩
theorem takeFresh_metered (e near : Nat) (only : Bool) (n : Nat) : ∀ s : State, Metered s (s.takeFresh e near only n).1 := by
  induction n with
  | zero => exact .refl
  | succ n ih =>
    intro s
    unfold State.takeFresh
    dsimp only
    split
    · exact .refl s
    · split
      · exact (retireBlock_metered ..).trans (ih _)
      · exact setBlock_metered ..
theorem startRelocation_metered (s : State) (e b : Nat) : Metered s (s.startRelocation e b) := by
  unfold State.startRelocation
  have h := takeFresh_metered e (stackOf b) (decide (allBlocks ≤ b)) ((s.flash e).weak.length + 1) s
  unfold State.takeSpare
  split
  next hs => rw [hs] at h; exact h
  next hs =>
    rw [hs] at h
    exact h.trans ((((setBlock_metered ..).trans ⟨rfl⟩).trans (bumpClass_metered ..)).trans ⟨rfl⟩)
theorem countPage_metered (s : State) (e pp : Nat) : Metered s (s.countPage e pp) := by
  have h (f : Flash) (n : Nat) : Metered s ((s.setFlash e f).bumpClass e (pp / 256) 32 32 n) := Metered.trans ⟨rfl⟩ (bumpClass_metered ..)
  unfold State.countPage
  exact .ite ((h _ _).trans (startRelocation_metered ..)) (h _ _)
theorem countRead_metered (s : State) (e pp : Nat) : Metered s (s.countRead e pp) := by
  unfold State.countRead
  exact .ite ((Metered.foldl (fun s q => countPage_metered s e q) _ s).trans (bumpClass_metered ..)) (countPage_metered ..)
theorem countPlaces_metered (s : State) (c : Nat) (ps : List (Place × Nat)) : Metered s (s.countPlaces c ps) := by
  unfold State.countPlaces
  refine (Metered.foldl (fun s p => countRead_metered s _ _) _ s).trans (.foldl (fun s p => ?_) _ _)
  split
  · exact .of_noted (Noted.trans (noteTraffic_noted ..) (touch_noted ..))
  · exact .refl s
theorem countSpan_metered (s : State) (va : W64) (n : Nat) : Metered s (s.countSpan va n) := by
  unfold State.countSpan
  split
  · exact countPlaces_metered ..
  · exact .refl s

/-! ### PUBLISH, WMAP and WUNMAP (R113, R146 to R149) -/

/-- The removal of a pair's translations, what the pairs of the partition then are, and the stall. -/
def State.repaired (s : State) (p : Nat) (k : Pair) (g : Tbl Pair) : State :=
  ((s.dropPair p k).setPart p { (s.dropPair p k).part p with pairs := g }).stalled 600
theorem removeTlb_myPart (s : State) (f : TlbEnt → Bool) (c : Bool) : (s.removeTlb f c).myPart = s.myPart := by
  unfold State.myPart State.me
  rw [removeTlb_cur, removeTlb_eq, dropTlb_core, (flushFor_flushed s _).effect.core]
  rfl
theorem publishEffect_live {s : State} {n : Fin 64} {k : Pair} (hk : tget (s.part s.myPart).pairs n.val = some k) (hp : s.pathOut s.cur = false)
    (hc : s.copiesInto k = false) :
    publishEffect s n = .ok (s.repaired s.myPart k (tset (s.part s.myPart).pairs n.val { k with sel := !k.sel })) := by
  unfold publishEffect
  dsimp only
  rw [hk]
  dsimp only
  rw [hp, hc]
  have hm : (s.dropPair s.myPart k).myPart = s.myPart := removeTlb_myPart ..
  have hq : ((s.dropPair s.myPart k).part s.myPart).pairs = (s.part s.myPart).pairs := (removeTlb_halts ..).pairs _
  rw [hm, hq]
  rfl
theorem undefEffect_live {s : State} {n : Fin 64} {k : Pair} (hk : tget (s.part s.myPart).pairs n.val = some k) (hp : s.pathOut s.cur = false)
    (hc : s.copiesInto k = false) : undefEffect s n = .ok (s.repaired s.myPart k (tdel (s.part s.myPart).pairs n.val)) := by
  unfold undefEffect
  dsimp only
  rw [hk]
  dsimp only
  rw [hp, hc]
  have hm : (s.dropPair s.myPart k).myPart = s.myPart := removeTlb_myPart ..
  have hq : ((s.dropPair s.myPart k).part s.myPart).pairs = (s.part s.myPart).pairs := (removeTlb_halts ..).pairs _
  rw [hm, hq]
  rfl
/-- The entries of a partition that translate a range of a pair. -/
def ranged (p : Nat) (k : Pair) (e : TlbEnt) : Bool := e.part == p && (meet (e.vpn * 2 ^ e.lg * 4096) (2 ^ e.lg * 4096) k.nameVa.toNat k.len
  || meet (e.vpn * 2 ^ e.lg * 4096) (2 ^ e.lg * 4096) k.secondVa.toNat k.len)
theorem dropPair_eq (s : State) (p : Nat) (k : Pair) : s.dropPair p k = s.removeTlb (ranged p k) false := rfl
theorem repaired_pairs (s : State) (p : Nat) (k : Pair) (g : Tbl Pair) : ((s.repaired p k g).part p).pairs = g := by
  have h : (s.repaired p k g).part p = { (s.dropPair p k).part p with pairs := g } := State.part_setPart_same ..
  rw [h]
theorem repaired_removed (s : State) (p : Nat) (k : Pair) (g : Tbl Pair) : Spec.Removed s ((s.repaired p k g).mark .issued) (ranged p k) := by
  have h := removeTlb_removed s (ranged p k) false
  exact ⟨h.quads, h.dies, ⟨h.reached.paths, h.reached.bytes⟩, h.done⟩
theorem repaired_only {s : State} (p : Nat) (k : Pair) (g : Tbl Pair) (hp : Spec.plainPaths s) :
    Spec.RemovedOnly s ((s.repaired p k g).mark .issued) ∧ ∀ q, q ≠ p → (s.repaired p k g).part q = s.part q := by
  refine ⟨stalled_only s (ranged p k) false 600 hp _ .issued, fun q hq => ?_⟩
  have h : (s.repaired p k g).part q = (s.dropPair p k).part q := State.part_setPart_other _ _ (Ne.symm hq)
  rw [h]
  exact (congrArg (fun u : State => u.part q) (removeTlb_only s (ranged p k) false hp) :)
theorem removeTlb_part {s : State} (f : TlbEnt → Bool) (c : Bool) (hp : Spec.plainPaths s) (q : Nat) : (s.removeTlb f c).part q = s.part q :=
  (congrArg (fun u : State => u.part q) (removeTlb_only s f c hp) :)
theorem forget_me {k m : Core} {f : TlbEnt → Bool} (h : k = m.forget f) : k = { m with walked := k.walked, dyn := k.dyn } := by
  rw [h]
  rfl
/-- What a removal leaves, where the partitions have changed before it. -/
theorem removeTlb_onlyPart {s : State} (p : Nat) (x : Part) (f : TlbEnt → Bool) (c : Bool) (hp : Spec.plainPaths s) :
    Spec.RemovedOnly s (((s.setPart p x).removeTlb f c).mark .issued) := by
  have hcur : ((s.setPart p x).removeTlb f c).cur = s.cur := removeTlb_cur ..
  refine ⟨removeTlb_quad (s.setPart p x) f c, removeTlb_die (s := s.setPart p x) f c hp, fun j _ => forget_walkedOnly (f := f) ?_, forget_me (f := f) ?_, ?_⟩
  · exact removeTlb_core (s.setPart p x) f c hp j
  · exact (show ((s.setPart p x).removeTlb f c).me = ((s.setPart p x).removeTlb f c).core s.cur from congrArg _ hcur).trans
      (removeTlb_core (s.setPart p x) f c hp s.cur)
  · have h := removeTlb_only (s.setPart p x) f c hp
    exact (congrArg (fun u : State => { u with issue := .issued, parts := ((s.setPart p x).removeTlb f c).parts }) h :)
theorem pairOf_sel {r : List Byte} {k : Pair} (h : pairOf r = some k) : k.sel = false := by
  unfold pairOf at h
  dsimp only at h
  split at h
  · rw [← Option.some.inj h]
  · exact nomatch h

section
variable {s : State} {n a : Fin 64}
theorem defEffect_misaligned (h : (s.me.sreg a.val).toNat % 32 ≠ 0) : defEffect s n a = fault alignment 0 (s.me.sreg a.val) := if_pos h
variable {r : List Byte} (h : (s.me.sreg a.val).toNat % 32 = 0) (hr : s.readSpan (s.me.sreg a.val) 32 = .ok r)
include h hr
theorem defEffect_none (hp : pairOf r = none) : defEffect s n a = fault invalidOperand := by
  unfold defEffect
  dsimp only
  rw [if_neg (not_not.2 h), hr]
  dsimp only
  rw [hp]
theorem defEffect_some {k : Pair} (hp : pairOf r = some k) :
    defEffect s n a = if (tget (s.part s.myPart).pairs n.val).isSome || s.pairMeets s.myPart k then fault invalidOperand
      else .ok (((s.countSpan (s.me.sreg a.val) 32).setPart s.myPart { s.part s.myPart with pairs := tset (s.part s.myPart).pairs n.val k }).dropPair s.myPart k) := by
  unfold defEffect
  dsimp only
  rw [if_neg (not_not.2 h), hr]
  dsimp only
  rw [hp]
end

section
variable {s : State} {a b : Fin 64} {n : Fin 16}
theorem wmapEffect_descriptor (h : (s.me.sreg a.val).toNat % 32 ≠ 0) : wmapEffect s a b n = fault alignment 0 (s.me.sreg a.val) := if_pos h
variable (h : (s.me.sreg a.val).toNat % 32 = 0)
include h
theorem wmapEffect_table (ht : (s.me.sreg b.val).toNat % 4 ≠ 0) : wmapEffect s a b n = fault alignment 0 (s.me.sreg b.val) :=
  (if_neg (not_not.2 h)).trans (if_pos ht)
variable {r : List Byte} (ht : (s.me.sreg b.val).toNat % 4 = 0) (hr : s.readSpan (s.me.sreg a.val) 32 = .ok r)
include ht hr
theorem wmapEffect_none (hw : windowOf r (s.me.sreg b.val) = none) : wmapEffect s a b n = fault invalidOperand := by
  unfold wmapEffect
  dsimp only
  rw [if_neg (not_not.2 h), if_neg (not_not.2 ht), hr]
  dsimp only
  rw [hw]
theorem wmapEffect_some {w : Window} (hw : windowOf r (s.me.sreg b.val) = some w)
    (hm : ∀ e, e ∈ (s.die s.myDie).wins → e.1 / 16 = s.myPart → e.1 ≠ 16 * s.myPart + n.val → e.2.meets w = false) (hs : s.writesOut s.cur = false) :
    wmapEffect s a b n = .ok ((s.countSpan (s.me.sreg a.val) 32).setDie s.myDie
      { (s.countSpan (s.me.sreg a.val) 32).die s.myDie with wins := tset (s.die s.myDie).wins (16 * s.myPart + n.val) w }) := by
  have hn : ((s.die s.myDie).wins.any fun e => e.1 / 16 == s.myPart && e.1 != 16 * s.myPart + n.val && e.2.meets w) = false := by
    refine List.any_eq_false.2 fun e he hc => ?_
    rw [Bool.and_eq_true, Bool.and_eq_true, beq_iff_eq, bne_iff_ne] at hc
    exact Bool.false_ne_true ((hm e he hc.1.1 hc.1.2).symm.trans hc.2)
  unfold wmapEffect
  dsimp only
  rw [if_neg (not_not.2 h), if_neg (not_not.2 ht), hr]
  dsimp only
  rw [hw]
  dsimp only
  rw [hn, hs]
  rfl
end

theorem publish_form (n : Fin 64) (s : State) (hc : Clear (.publish n) s) :
    (∀ k, tget (s.part s.myPart).pairs n.val = some k → s.pathOut s.cur = false → s.copiesInto k = false → ∃ t, exec (.publish n) s = .next t
      ∧ t.issue = .issued ∧ (∀ j, tget (t.part s.myPart).pairs j = if j = n.val then some { k with sel := !k.sel } else tget (s.part s.myPart).pairs j)
      ∧ Spec.Removed s t (ranged s.myPart k) ∧ (Spec.plainPaths s → Spec.RemovedOnly s t ∧ ∀ q, q ≠ s.myPart → t.part q = s.part q))
    ∧ (tget (s.part s.myPart).pairs n.val = none → Traps (.publish n) s 3 5 0 0) := by
  have he {r} (h : publishEffect s n = r) : exec (.publish n) s = meaning (.publish n) 3 s r := congrArg (meaning (.publish n) 3 s) h
  refine ⟨fun k hk hp hi => ⟨_, (he (publishEffect_live hk hp hi)).trans (meaning_ok hc), rfl, fun j => ?_, repaired_removed .., repaired_only _ _ _⟩, fun hk => ?_⟩
  · exact (congrArg (tget · j) (repaired_pairs s s.myPart k _)).trans (tget_tset ..)
  · refine fault_Traps hc (by decide) (by decide) (by decide) (he ?_)
    unfold publishEffect
    dsimp only
    rw [hk]
    rfl
theorem publishUndef_form (n : Fin 64) (s : State) (hc : Clear (.publishUndef n) s) :
    (∀ k, tget (s.part s.myPart).pairs n.val = some k → s.pathOut s.cur = false → s.copiesInto k = false → ∃ t, exec (.publishUndef n) s = .next t
      ∧ t.issue = .issued ∧ (∀ j, tget (t.part s.myPart).pairs j = if j = n.val then none else tget (s.part s.myPart).pairs j)
      ∧ Spec.Removed s t (ranged s.myPart k) ∧ (Spec.plainPaths s → Spec.RemovedOnly s t ∧ ∀ q, q ≠ s.myPart → t.part q = s.part q))
    ∧ (tget (s.part s.myPart).pairs n.val = none → exec (.publishUndef n) s = .next (s.mark .issued)) := by
  have he {r} (h : undefEffect s n = r) : exec (.publishUndef n) s = meaning (.publishUndef n) 3 s r := congrArg (meaning (.publishUndef n) 3 s) h
  refine ⟨fun k hk hp hi => ⟨_, (he (undefEffect_live hk hp hi)).trans (meaning_ok hc), rfl, fun j => ?_, repaired_removed .., repaired_only _ _ _⟩, fun hk => ?_⟩
  · exact (congrArg (tget · j) (repaired_pairs s s.myPart k _)).trans (tget_tdel ..)
  · refine (he ?_).trans (meaning_ok hc)
    unfold undefEffect
    dsimp only
    rw [hk]

/-- Settles O32: by the state of the pair or window named, and what its descriptor says. -/
theorem remaps : Obligations.Remaps := by
  unfold Obligations.Remaps
  refine ⟨fun n s => ⟨publish_form n s, publishUndef_form n s⟩, fun s => ⟨fun n a hc => ?_, fun a b n l hc => ?_, fun n hc hs => ?_⟩⟩
  · have he {r} (h : defEffect s n a = r) : exec (.publishDef n a) s = meaning (.publishDef n a) 3 s r := congrArg (meaning (.publishDef n a) 3 s) h
    refine ⟨fun h => fault_Traps hc (by decide) (by decide) (by decide) (he (defEffect_misaligned h)), fun h r hr => ⟨fun hp => ?_, fun k hp ⟨o, ho⟩ => ?_, fun k hp hn hm => ?_⟩⟩
    · exact fault_Traps hc (by decide) (by decide) (by decide) (he (defEffect_none h hr hp))
    · refine fault_Traps hc (by decide) (by decide) (by decide) (he ((defEffect_some h hr hp).trans (if_pos ?_)))
      rw [show tget (s.part s.myPart).pairs n.val = some o from ho]
      rfl
    · have hd := (defEffect_some (n := n) h hr hp).trans (if_neg (by
        rw [show tget (s.part s.myPart).pairs n.val = none from hn, show s.pairMeets s.myPart k = false from hm]
        exact Bool.false_ne_true))
      refine ⟨_, (he hd).trans (meaning_ok hc), rfl, pairOf_sel hp, fun j => ?_, fun hpl => ?_⟩
      · have h2 := (removeTlb_halts ((s.countSpan (s.me.sreg a.val) 32).setPart s.myPart { s.part s.myPart with pairs := tset (s.part s.myPart).pairs n.val k })
          (ranged s.myPart k) false).pairs s.myPart
        rw [State.part_setPart_same] at h2
        exact (congrArg (tget · j) h2).trans (tget_tset ..)
      · have hm := (countSpan_metered s (s.me.sreg a.val) 32).eq
        have hq (q) : (s.countSpan (s.me.sreg a.val) 32).quad q = s.quad q := congrArg (fun x => tgetD x q ({} : Quad)) (congrArg State.quads hm :)
        have hpl' : Spec.plainPaths (s.countSpan (s.me.sreg a.val) 32) := fun q w hw => hpl q w (hq q ▸ hw)
        generalize s.countSpan (s.me.sreg a.val) 32 = u at hm hpl' ⊢
        refine ⟨removeTlb_onlyPart _ _ (ranged s.myPart k) false hpl', fun q hq => ?_⟩
        refine (removeTlb_part (s := u.setPart ..) (ranged s.myPart k) false hpl' q).trans ?_
        exact (State.part_setPart_other _ _ (Ne.symm hq)).trans (congrArg (fun x => tgetD x q ({} : Part)) (congrArg State.parts hm :))
  · have he {r} (h : wmapEffect s a b n = r) : exec (.wmap a b n l) s = meaning (.wmap a b n l) 3 s r := congrArg (meaning (.wmap a b n l) 3 s) h
    refine ⟨fun h => fault_Traps hc (by decide) (by decide) (by decide) (he (wmapEffect_descriptor h)),
      fun h ht => fault_Traps hc (by decide) (by decide) (by decide) (he (wmapEffect_table h ht)), fun h ht r hr => ⟨fun hw => ?_, fun w hw hm hs => ?_⟩⟩
    · exact fault_Traps hc (by decide) (by decide) (by decide) (he (wmapEffect_none h ht hr hw))
    · exact (he (wmapEffect_some h ht hr hw hm hs)).trans (meaning_ok hc)
  · have he : exec (.wunmap n) s = meaning (.wunmap n) 3 s (.ok (s.setDie s.myDie { s.die s.myDie with wins := tdel (s.die s.myDie).wins (16 * s.myPart + n.val) })) := by
      refine congrArg (meaning (.wunmap n) 3 s) ?_
      unfold wunmapEffect
      rw [hs]
      rfl
    refine ⟨_, he.trans (meaning_ok hc), rfl, fun j => ?_, fun d hd => State.die_setDie_other _ _ (Ne.symm hd), rfl⟩
    have h : (s.setDie s.myDie { s.die s.myDie with wins := tdel (s.die s.myDie).wins (16 * s.myPart + n.val) }).die s.myDie = _ := State.die_setDie_same ..
    exact (congrArg (fun x : Die => tget x.wins j) h).trans (tget_tdel ..)
end Sys2Proof.Machine
end

section
/-! Proofs about PAGEMV (R116, R117). -/
namespace Sys2Proof.Machine
open Sys2Proof

/-! ### PAGEMV (R116, R117) -/

/-- The machine with another memory. -/
def State.withMem (s : State) (m : Tbl Byte) : State := { s with mem := m }
theorem withMem_quad (s : State) (m : Tbl Byte) (q : Nat) : (s.withMem m).quad q = s.quad q := rfl
theorem withMem_cur (s : State) (m : Tbl Byte) : (s.withMem m).cur = s.cur := rfl
theorem withMem_nextId (s : State) (m : Tbl Byte) : (s.withMem m).nextId = s.nextId := rfl
theorem withMem_myPart (s : State) (m : Tbl Byte) : (s.withMem m).myPart = s.myPart := rfl
/-- The memory in which the leaf shows the migration. -/
def State.migMem (s : State) (e : W64) (at_ : Nat) : Tbl Byte := memWrite s.mem at_ (leBytes 8 (migLeaf e (ptePa e) true).toNat)
/-- The leaf of the page under migration. -/
def State.leafMig (s : State) (e : W64) (at_ : Nat) : State := s.withMem (s.migMem e at_)
/-- The page's translations are gone, and the core stalls for it. -/
def State.unpaged (s : State) (e va : W64) (at_ : Nat) : State := ((s.leafMig e at_).removeTlb (covers (s.leafMig e at_).myPart (bits va 63 12)) false).stalled 600
/-- The copy of a page to its new frame. -/
def State.pageCmd (s u : State) (va : W64) (pa at_ lg : Nat) (e : W64) : CopyCmd :=
  ⟨0, u.cur, u.myPart, .page at_, false, 0, BitVec.ofNat 64 pa, BitVec.ofNat 64 (ptePa e), va, none, 1, 1, s.me.priv, s.me.coop,
    2 ^ lg, 0, 0, [], 0, 0, [], false, {}, 0, none, false, false, none, s.me.pc, s.me.tag⟩

section
variable {s : State} {a b : Fin 64} {h : Fin 8} (hs : s.isSup = true) (hw : s.windowAt s.ctx (s.me.sreg a.val).toNat = none)
  (h57 : (s.me.sreg a.val).toNat < 2 ^ 57) (hf : inHbf (s.me.sreg a.val).toNat = false) (hu : unmappable (s.me.sreg a.val).toNat = false)
  {e : W64} {lg at_ : Nat} (hl : s.walk s.myPart (s.me.sreg a.val).toNat = .leaf e lg at_)
include hs hw h57 hf hu hl
theorem pagemvEffect_leaf : pagemvEffect s a b h =
    if (s.me.sreg a.val).toNat % 2 ^ lg ≠ 0 ∨ (s.me.sreg b.val).toNat % 2 ^ lg ≠ 0
        ∨ !(pageRegion (s.me.sreg b.val).toNat lg = some 0 ∨ pageRegion (s.me.sreg b.val).toNat lg = some 3)
        ∨ pteShared e ∨ pteX e ∨ pteMig e then fault invalidOperand
    else if s.waitsFor (s.pathOut s.cur || s.copiesOut s.cur) then .hold s
    else if 32 ≤ queued (tgetD (s.quad s.myQuad).chans h.val []) then .hold s
    else (s.unpaged e (s.me.sreg a.val) at_).accept h.val (s.pageCmd (s.unpaged e (s.me.sreg a.val) at_) (s.me.sreg a.val) (s.me.sreg b.val).toNat at_ lg e) := by
  refine (if_neg (by rw [hs]; exact Bool.false_ne_true)).trans ?_
  refine (if_neg (by rw [hw]; exact Bool.false_ne_true)).trans ?_
  refine (if_neg (Nat.not_le.2 h57)).trans ?_
  refine (if_neg (by rw [hf]; exact Bool.false_ne_true)).trans ?_
  refine (if_neg (by rw [hu]; exact Bool.false_ne_true)).trans ?_
  rw [hl]
  rfl
end
theorem stalled_quad (s : State) (n q : Nat) : (s.stalled n).quad q = s.quad q := rfl
theorem stalled_cur (s : State) (n : Nat) : (s.stalled n).cur = s.cur := rfl
theorem stalled_nextId (s : State) (n : Nat) : (s.stalled n).nextId = s.nextId := rfl
theorem unpaged_quad (s : State) (e va : W64) (at_ q : Nat) : (s.unpaged e va at_).quad q
    = { s.quad q with tlb := ((s.unpaged e va at_).quad q).tlb, path := ((s.unpaged e va at_).quad q).path } := by
  unfold State.unpaged
  rw [stalled_quad, removeTlb_quad, State.leafMig, withMem_quad]
theorem unpaged_cur (s : State) (e va : W64) (at_ : Nat) : (s.unpaged e va at_).cur = s.cur := by
  unfold State.unpaged
  rw [stalled_cur, removeTlb_cur, State.leafMig, withMem_cur]
theorem removeTlb_nextId (s : State) (f : TlbEnt → Bool) (c : Bool) : (s.removeTlb f c).nextId = s.nextId := by
  rw [removeTlb_eq]
  exact (congrArg State.nextId (flushFor_flushed s (s.throughGone f)).effect.rest :)
theorem unpaged_nextId (s : State) (e va : W64) (at_ : Nat) : (s.unpaged e va at_).nextId = s.nextId := by
  unfold State.unpaged
  rw [stalled_nextId, removeTlb_nextId, State.leafMig, withMem_nextId]
theorem Removed.stalled {s u : State} {f : TlbEnt → Bool} (h : Spec.Removed s u f) (n : Nat) : Spec.Removed s (u.stalled n) f :=
  ⟨h.quads, h.dies, ⟨h.reached.paths, h.reached.bytes⟩, h.done⟩
theorem unpaged_removed (s : State) (e va : W64) (at_ : Nat) :
    Spec.Removed (s.leafMig e at_) (s.unpaged e va at_) (covers (s.leafMig e at_).myPart (bits va 63 12)) := by
  unfold State.unpaged
  exact Removed.stalled (removeTlb_removed (s.leafMig e at_) _ false) 600
/-- A removal is not undone by a command that its channel accepts. -/
theorem Accepted.removed {s u t : State} {f : TlbEnt → Bool} {h : Nat} {m : CopyCmd} (a : Accepted u t h m) (r : Spec.Removed s u f) : Spec.Removed s t f := by
  have hq (q : Nat) : (t.quad q).tlb = (u.quad q).tlb ∧ (t.quad q).path = (u.quad q).path := by
    by_cases hq : q = u.myQuad
    · rw [hq, a.quad]
      exact ⟨rfl, rfl⟩
    · rw [a.others q hq]
      exact ⟨rfl, rfl⟩
  have hd (d : Nat) : t.die d = u.die d := congrArg (fun x => tgetD x d ({} : Die)) (congrArg State.dies a.rest :)
  have hm : t.mem = u.mem := (congrArg State.mem a.rest :)
  refine ⟨fun q => (hq q).1.trans (r.quads q), fun d => (congrArg Die.tlb (hd d)).trans (r.dies d), ⟨fun q => ?_, fun x => ?_⟩, fun e he hm q w hw => ?_⟩
  · obtain ⟨l, hl⟩ := r.reached.paths q
    exact ⟨l, by rw [(hq q).2]; exact hl⟩
  · rw [hm]
    exact r.reached.bytes x
  · rw [(hq q).2] at hw
    exact r.done e he hm q w hw

theorem removed_leaf (s t : State) (e va : W64) (at_ : Nat) : Spec.Removed (s.leafMig e at_) t (covers (s.leafMig e at_).myPart (bits va 63 12))
    = Spec.Removed { s with mem := memWrite s.mem at_ (Spec.bytesOf 8 (migLeaf e (ptePa e) true).toNat) } t
        (fun x => x.part == s.me.part && x.vpn == va.toNat / 4096 / 2 ^ x.lg) := by
  unfold State.leafMig State.migMem
  rw [withMem_myPart, bits_page, leBytes_eq]
  rfl

/-- Settles O33: by the operands and the leaf that PAGEMV finds. -/
theorem pageMoves : Obligations.PageMoves := by
  unfold Obligations.PageMoves
  intro a b h l s hc
  have he {r} (hr : pagemvEffect s a b h = r) : exec (.pagemv a b h l) s = meaning (.pagemv a b h l) 3 s r := congrArg (meaning (.pagemv a b h l) 3 s) hr
  refine ⟨fun hs => word_traps (sub := 0) (info := 0) hc (by decide) (by decide) (by decide) (he ?_), fun hs hw h57 hf hu e lg at_ hl => ⟨fun hb => ?_, ?_⟩⟩
  · unfold pagemvEffect
    rw [hs]
    rfl
  · refine fault_Traps hc (by decide) (by decide) (by decide) (he ((pagemvEffect_leaf hs hw h57 hf hu hl).trans (if_pos ?_)))
    exact hb.imp_right fun hb => hb.imp_right fun hb => .inr hb
  · intro h1 h2 h3 h4 h5 h6 hp hk hq
    have hpg := pagemvEffect_leaf (b := b) (h := h) hs hw h57 hf hu hl
    rw [if_neg (by
      rw [h4, h5, h6]
      simp only [h1, h2, h3, ne_eq, not_true_eq_false, decide_true, Bool.not_true, Bool.false_eq_true, or_self, not_false_eq_true]), hp, hk] at hpg
    rw [if_neg (by exact Bool.false_ne_true), if_neg (Nat.not_le.2 (show queued _ < 32 from hq))] at hpg
    have hcur := unpaged_cur s e (s.me.sreg a.val) at_
    have hmq : (s.unpaged e (s.me.sreg a.val) at_).myQuad = s.myQuad := congrArg (· / 4) hcur
    have hch : ((s.unpaged e (s.me.sreg a.val) at_).quad s.myQuad).chans = (s.quad s.myQuad).chans := (congrArg Quad.chans (unpaged_quad s e (s.me.sreg a.val) at_ s.myQuad) :)
    obtain ⟨t, ht, ha⟩ := accept_room (s := s.unpaged e (s.me.sreg a.val) at_) (h := h.val)
      (m := s.pageCmd (s.unpaged e (s.me.sreg a.val) at_) (s.me.sreg a.val) (s.me.sreg b.val).toNat at_ lg e) (by rw [hmq, hch]; exact hq)
    have hr := ha.removed (unpaged_removed ..)
    have hchan := ha.chan
    rw [hmq, hch, unpaged_nextId] at hchan
    rw [removed_leaf] at hr
    exact ⟨t.mark .issued, _, (he (hpg.trans ht)).trans (meaning_ok hc), rfl, ⟨hr.quads, hr.dies, ⟨hr.reached.paths, hr.reached.bytes⟩, hr.done⟩, hchan, rfl, rfl,
      BitVec.toNat_ofNat .., (BitVec.toNat_ofNat ..).trans (Nat.mod_eq_of_lt (s.me.sreg b.val).isLt), rfl, hcur, rfl, rfl⟩
end Sys2Proof.Machine
end

section
/-! Proofs about XSEND and XRECV (R300, R301, R304). -/
namespace Sys2Proof.Machine
open Sys2Proof

/-! ### XSEND and XRECV (R300, R301, R304) -/

section
variable {s : State} {a b c : Fin 64} {i : Fin 16} {h : Fin 8}
/-- Whether the address of a send names a permit: an address of the window of the Kennels, of a die that has one (R300). -/
def namesPermit (va : Nat) : Prop := kennelBase ≤ va ∧ va < kennelBase + 2 ^ 52 ∧ va / 2 ^ 49 % 8 < 6
theorem namesPermit_iff (va : W64) : namesPermit va.toNat ↔ ¬ (!inKennel va.toNat ∨ 6 ≤ bits va 51 49) := by
  rw [Bool.not_eq_true', not_or, Bool.not_eq_false, inKennel_iff, Nat.not_le, and_assoc]
  rfl
/-- The send that XSEND asks to bind. -/
def State.sendOf (s : State) (b c : Fin 64) (i : Fin 16) (h : Fin 8) : SendRec :=
  ⟨s.cur, s.me.sreg b.val, bits (s.me.sreg c.val) 18 0, bits (s.me.sreg c.val) 24 19, h.val, i.val, s.nextId,
    if (s.part s.me.part).ssExchange then (s.part s.me.part).ssCount + 1 else (s.part s.me.part).ssCount, false, 0, {}, none,
    s.me.priv, s.me.coop, s.me.pc, s.me.tag⟩
/-- The send has its place in the order of its channel, and its request is on the way. -/
def State.sending (s : State) (a b c : Fin 64) (i : Fin 16) (h : Fin 8) : State :=
  State.schedule
    { s.setMe { s.me with orders := s.me.orders ++ [(h.val, s.nextId, i.val, none)] } with
      nextId := s.nextId + 2
      reqs := tset s.reqs (s.nextId + 1) (.bind s.cur s.me.part (bits (s.me.sreg a.val) 51 49) (bits (s.me.sreg a.val) 48 37) (bits (s.me.sreg a.val) 36 20)
        (s.sendOf b c i h)) }
    (if bits (s.me.sreg a.val) 51 49 = s.myDie then 12 else 760) (.xsendBinding (s.nextId + 1))
theorem xsendEffect_refused (hr : ¬ namesPermit (s.me.sreg a.val).toNat ∨ bits (s.me.sreg c.val) 63 25 ≠ 0 ∨ bits (s.me.sreg c.val) 18 0 = 0
    ∨ 262144 < bits (s.me.sreg c.val) 18 0 ∨ (s.part s.me.part).members = 0) : xsendEffect s a b c i h = fault invalidOperand := by
  rw [namesPermit_iff, not_not] at hr
  by_cases h1 : !inKennel (s.me.sreg a.val).toNat ∨ 6 ≤ bits (s.me.sreg a.val) 51 49
  · exact if_pos h1
  refine (if_neg h1).trans ?_
  by_cases h2 : bits (s.me.sreg c.val) 63 25 ≠ 0 ∨ bits (s.me.sreg c.val) 18 0 = 0 ∨ 262144 < bits (s.me.sreg c.val) 18 0
  · exact if_pos h2
  refine (if_neg h2).trans ?_
  exact if_pos (by tauto)
theorem xsendEffect_sends (h1 : namesPermit (s.me.sreg a.val).toNat) (h2 : bits (s.me.sreg c.val) 63 25 = 0) (h3 : 1 ≤ bits (s.me.sreg c.val) 18 0)
    (h4 : bits (s.me.sreg c.val) 18 0 ≤ 262144) (h5 : (s.part s.me.part).members ≠ 0) : xsendEffect s a b c i h = .ok (s.sending a b c i h) := by
  refine (if_neg ((namesPermit_iff _).1 h1)).trans ?_
  refine (if_neg (by omega)).trans ?_
  exact (if_neg h5).trans rfl
end

/-- Settles O51: by the operands of XSEND; XRECV asks its port. -/
theorem exchangeCommands : Obligations.ExchangeCommands := by
  unfold Obligations.ExchangeCommands
  intro s
  refine ⟨fun a b c i h l hc => ?_, fun d k l hc => ?_⟩
  · have he {r} (hx : xsendEffect s a b c i h = r) : exec (.xsend a b c i h l) s = meaning (.xsend a b c i h l) 3 s r :=
      congrArg (meaning (.xsend a b c i h l) 3 s) hx
    refine ⟨fun h1 h2 h3 h4 h5 => ?_, fun hr => fault_Traps hc (by decide) (by decide) (by decide) (he (xsendEffect_refused hr))⟩
    refine ⟨_, s.sendOf b c i h, (he (xsendEffect_sends h1 h2 h3 h4 h5)).trans (meaning_ok hc), rfl, ?_, tget_tset_same .., rfl, rfl, rfl, rfl, rfl, rfl,
      rfl, rfl, rfl, rfl, agendaPlace_adds _ _ _ s.agenda, rfl⟩
    exact me_setMe ..
  · refine ⟨_, (show exec (.xrecv d k l) s = meaning (.xrecv d k l) 3 s (xrecvEffect s d k) from rfl).trans (meaning_ok hc), rfl, ?_, ?_, ?_, ?_⟩
    · exact State.me_setCore { s with nextId := s.nextId + 1 } _
    · exact tget_tset_same ..
    · exact agendaPlace_adds _ _ _ s.agenda
    · rfl
end Sys2Proof.Machine
end

section
/-! Proofs about weight handles (R78, R80, R82 to R86). -/
namespace Sys2Proof.Machine
open Sys2Proof

/-! ### Requests to a handle table (R78, R82, R413) -/

/-- The core's bundle has sent its request. -/
def State.asking (s : State) (e : Nat) (r : Req) : State :=
  (s.setMe { s.me with hreq := some ⟨s.me.pc, false, 0, 0⟩ }).sendReq r (2 + e) .handleRequestArrives
theorem filter_pc {o : Option HReq} {pc : W64} (h : ∀ r, o = some r → r.pc ≠ pc) : o.filter (fun r => r.pc == pc) = none := by
  cases o with
  | none => rfl
  | some r => exact if_neg (by rw [beq_iff_eq]; exact h r rfl)
section
variable {s : State} {e : Nat} {r : Req} {fin : State → W64 → State} {info : W64}
theorem atTable_sends (h : ∀ q, s.me.hreq = some q → q.pc ≠ s.me.pc) : s.atTable e r fin info = .hold (s.asking e r) := by
  unfold State.atTable
  dsimp only
  rw [filter_pc h]
  rfl
variable {q : HReq} (hq : s.me.hreq = some q) (hp : q.pc = s.me.pc)
include hq hp
theorem atTable_found : s.atTable e r fin info
    = if !q.done then .hold s else if q.fault ≠ 0 then fault q.fault 0 info else .ok (fin (s.setMe { s.me with hreq := none }) q.value) := by
  unfold State.atTable
  dsimp only
  rw [show s.me.hreq.filter (fun h => h.pc == s.me.pc) = some q by rw [hq]; exact if_pos (beq_iff_eq.2 hp)]
theorem atTable_waits (hd : q.done = false) : s.atTable e r fin info = .hold s := (atTable_found hq hp).trans (if_pos (by rw [hd]; rfl))
theorem atTable_told (hd : q.done = true) (hf : q.fault = 0) : s.atTable e r fin info = .ok (fin (s.setMe { s.me with hreq := none }) q.value) :=
  (atTable_found hq hp).trans ((if_neg (by rw [hd]; exact Bool.false_ne_true)).trans (if_neg (not_not.2 hf)))
theorem atTable_fault (hd : q.done = true) (hf : q.fault ≠ 0) : s.atTable e r fin info = fault q.fault 0 info :=
  (atTable_found hq hp).trans ((if_neg (by rw [hd]; exact Bool.false_ne_true)).trans (if_pos hf))
end
/-- An instruction that is a request to a table asks it, and is held until it is told. -/
theorem atTable_asks {i : Instr} {s : State} {slot e : Nat} {r : Req} {fin : State → W64 → State} {info : W64} (hc : Clear i s) (hn : slot < 4)
    (he : exec i s = meaning i slot s (s.atTable e r fin info)) : Spec.Asks i s slot e r info := by
  refine ⟨fun h => ?_, fun q hq hp hd => ?_, fun q hq hp hd hf => ?_⟩
  · rw [atTable_sends h] at he
    refine ⟨_, he.trans (meaning_hold hc), rfl, ?_, fun j hj => ?_, tget_tset_same .., agendaPlace_adds _ _ _ s.agenda, rfl⟩
    · exact me_setMe ..
    · exact State.core_setCore_other _ _ (Ne.symm hj)
  · rw [atTable_waits hq hp hd] at he
    exact he.trans (meaning_hold hc)
  · have hf0 : q.fault ≠ 0 ∧ 2 < q.fault ∧ q.fault ≤ 14 := by
      simp only [List.mem_cons, List.not_mem_nil, or_false] at hf
      omega
    rw [atTable_fault hq hp hd hf0.1] at he
    exact fault_Traps hc hf0.2 (by decide) hn he
/-- The request's interlocked result, once the table has told it. -/
theorem atTable_awaits {i : Instr} {s : State} {slot e d : Nat} {r : Req} {info : W64} (hc : Clear i s)
    (he : exec i s = meaning i slot s (s.atTable e r (fun s v => (s.pend [keyS d] (some (.scalar d v)) (s.tableRest e)).2) info)) {h : HReq}
    (hq : s.me.hreq = some h) (hp : h.pc = s.me.pc) (hd : h.done = true) (hf : h.fault = 0) :
    ∃ t, exec i s = .next t ∧ t.issue = .issued ∧ OnlyCore s t ∧ Spec.Awaits s t d h.value (if s.myDie = 2 + e then 6 else 380)
      ∧ t.me = { s.me with hreq := none, pend := t.me.pend, seq := s.me.seq + 1 } := by
  rw [atTable_told hq hp hd hf] at he
  have hps := pend_scalar (s.setMe { s.me with hreq := none }) d ((s.setMe { s.me with hreq := none }).tableRest e) h.value
  refine ⟨_, he.trans (meaning_ok hc), rfl, ((setMe_onlyCore s _).trans (onlyCore_pendScalar hps)).mark .issued, ?_, ?_⟩
  · obtain ⟨id, h1, h2⟩ := hps.awaits
    rw [me_setMe] at h1
    exact ⟨id, h1, h2⟩
  · rw [State.me_mark, hps.me, me_setMe]

/-! ### Handle words (R82) -/

theorem bits_low12 (w : W64) : bits w 11 0 = w.toNat % 4096 := by
  unfold bits
  omega
/-- A word that names no slot of any table. -/
def namesNone (w : W64) : Prop := 2 ^ 26 ≤ w.toNat ∨ w = 0
theorem badHandle_iff (w : W64) : (bits w 63 26 ≠ 0 ∨ w = 0) ↔ namesNone w := by
  refine or_congr_left ?_
  unfold bits
  have := w.isLt
  omega
theorem badHandle_eq (w : W64) : badHandle w = true ↔ namesNone w := by
  rw [badHandle, Bool.or_eq_true, bne_iff_ne, beq_iff_eq, badHandle_iff]
section
variable {s : State} {p : Nat} {w : W64}
theorem handle_none (h : namesNone w) : s.handle p w = none := if_pos ((badHandle_iff w).2 h)
variable (hn : ¬ namesNone w)
include hn
theorem handle_free (h : tget (s.flash (w.toNat / 2 ^ 24 % 4)).slots (w.toNat % 4096) = none) : s.handle p w = some none := by
  refine (if_neg (mt (badHandle_iff w).1 hn)).trans ?_
  rw [show tget (s.flash (bits w 25 24)).slots (bits w 11 0) = none from bits_low12 w ▸ h]
theorem handle_slot {x : HSlot} (h : tget (s.flash (w.toNat / 2 ^ 24 % 4)).slots (w.toNat % 4096) = some x) :
    s.handle p w = if x.part ≠ p then none else if x.gen = w.toNat / 4096 % 4096 then some (some x) else some none := by
  refine (if_neg (mt (badHandle_iff w).1 hn)).trans ?_
  rw [show tget (s.flash (bits w 25 24)).slots (bits w 11 0) = some x from bits_low12 w ▸ h]
  rfl
end

/-! ### HREAD, HWAIT, HSTAT and HREL -/

/-- The units of a range that HREAD asks for. -/
def unitsOf (u : Fin 128) (l : Lent) : Nat := 128 * (l.elim 0 (·.val)) + u.val + 1
theorem unitsOf_none (u : Fin 128) : unitsOf u none = u.val + 1 := congrArg (· + 1) (Nat.zero_add _)
theorem unitsOf_some (u : Fin 128) (x : Fin 256) : unitsOf u (some x) = x.val * 128 + u.val + 1 := congrArg (· + u.val + 1) (Nat.mul_comm ..)
section
variable {s : State} {d a b : Fin 64} {u : Fin 128} {l : Lent}
theorem hreadEffect_source (h : (s.me.sreg a.val).toNat % 4096 ≠ 0) : hreadEffect s d a b u l = fault alignment 0 (s.me.sreg a.val) := if_pos h
variable (ha : (s.me.sreg a.val).toNat % 4096 = 0)
include ha
theorem hreadEffect_destination (h : (s.me.sreg b.val).toNat % 4096 ≠ 0) : hreadEffect s d a b u l = fault alignment 0 (s.me.sreg b.val) :=
  (if_neg (not_not.2 ha)).trans (if_pos h)
variable (hb : (s.me.sreg b.val).toNat % 4096 = 0)
include hb
theorem hreadEffect_outside (h : edOf (s.me.sreg a.val).toNat (unitsOf u l) = none) : hreadEffect s d a b u l = fault 11 := by
  unfold hreadEffect
  cases l
  all_goals
    simp only [unitsOf_none, unitsOf_some] at h
    dsimp only
    rw [if_neg (not_not.2 ha), if_neg (not_not.2 hb), h]
theorem hreadEffect_asks {e e' o : Nat} {leaf : W64} (h : edOf (s.me.sreg a.val).toNat (unitsOf u l) = some e)
    (ht : s.translate s.ctx (.src true) (s.me.sreg a.val) = .at_ (.flash e' o) leaf) (hd : s.dstCheck e (s.me.sreg b.val) (List.range (unitsOf u l)) = none) :
    hreadEffect s d a b u l = s.atTable e
      (.hread s.cur s.me.part e (s.me.sreg a.val) (s.me.sreg b.val) (unitsOf u l) s.me.tag s.me.pc s.me.priv s.me.coop)
      (fun s v => (s.pend [keyS d.val] (some (.scalar d.val v)) (s.tableRest e)).2) 0 := by
  unfold hreadEffect
  cases l
  all_goals
    simp only [unitsOf_none, unitsOf_some] at h hd ⊢
    rw [if_neg (not_not.2 ha), if_neg (not_not.2 hb), h]
    dsimp only
    rw [ht]
    dsimp only
    rw [hd]
    rfl
end
theorem dstCheck_none {s : State} {e n : Nat} {dst : W64} (h : ∀ k, k < n → ∃ pa leaf', s.translate s.ctx (.dst false) (dst + BitVec.ofNat 64 (4096 * k))
    = .at_ (.phys pa) leaf' ∧ pa < 2 ^ 40 ∧ hbmDie pa = 2 + e) : s.dstCheck e dst (List.range n) = none := by
  choose! pa leaf h1 h2 h3 using h
  have hp := places_phys (s := s) (acc := .dst false) (fun k => dst + BitVec.ofNat 64 (4096 * k)) pa leaf (List.range n) fun k hk => h1 k (List.mem_range.1 hk)
  unfold State.dstCheck
  rw [hp]
  refine if_pos (List.all_eq_true.2 fun p hp => ?_)
  obtain ⟨k, hk, rfl⟩ := List.mem_map.1 hp
  have hk := List.mem_range.1 hk
  exact Bool.and_eq_true_iff.2 ⟨decide_eq_true (h2 k hk), beq_iff_eq.2 (h3 k hk)⟩

theorem hwait_form (a : Fin 64) (s : State) (hc : Clear (.hwait a) s) :
    let w := s.me.sreg a.val
    let e := w.toNat / 2 ^ 24 % 4
    let names := fun h : HSlot => tget (s.flash e).slots (w.toNat % 4096) = some h ∧ h.part = s.me.part ∧ h.gen = w.toNat / 4096 % 4096
    (namesNone w ∨ (∃ h, tget (s.flash e).slots (w.toNat % 4096) = some h ∧ h.part ≠ s.me.part) → Traps (.hwait a) s 1 10 0 w)
    ∧ (¬ namesNone w → (∀ h, tget (s.flash e).slots (w.toNat % 4096) = some h → h.part = s.me.part ∧ h.gen ≠ w.toNat / 4096 % 4096) → Traps (.hwait a) s 1 9 0 w)
    ∧ (¬ namesNone w → ∀ h, names h → h.done.length = h.units → exec (.hwait a) s = .next (s.mark .issued))
    ∧ (¬ namesNone w → ∀ h, names h → h.done.length ≠ h.units → s.me.inPlace = true →
        exec (.hwait a) s = .next ((s.setMe { s.me with waits := w }).mark .held)) := by
  intro w e names
  have he {r} (h : hwaitEffect s a = r) : exec (.hwait a) s = meaning (.hwait a) 1 s r := congrArg (meaning (.hwait a) 1 s) h
  have hnone (h : s.handle s.myPart w = none) : hwaitEffect s a = fault 10 0 w := by
    unfold hwaitEffect
    dsimp only
    rw [show s.handle s.myPart (s.me.sreg a.val) = none from h]
  have hstale (h : s.handle s.myPart w = some none) : hwaitEffect s a = fault 9 0 w := by
    unfold hwaitEffect
    dsimp only
    rw [show s.handle s.myPart (s.me.sreg a.val) = some none from h]
  have hlive {x : HSlot} (hn : ¬ namesNone w) (h : names x) : hwaitEffect s a = if x.isDone then .ok s else if s.me.inPlace then .hold (s.setMe { s.me with waits := w })
      else .hold ((s.setMe { s.me with post := .suspend 4 a.val w s.me.pc }).flowDrain s.cur) := by
    have hh : s.handle s.myPart (s.me.sreg a.val) = some (some x) := (handle_slot hn h.1).trans ((if_neg (not_not.2 h.2.1)).trans (if_pos h.2.2))
    unfold hwaitEffect
    dsimp only
    rw [hh]
  refine ⟨fun h => ?_, fun hn h => ?_, fun hn x hx hd => ?_, fun hn x hx hd hi => ?_⟩
  · refine fault_Traps hc (by decide) (by decide) (by decide) (he (hnone ?_))
    by_cases hn : namesNone w
    · exact handle_none hn
    · obtain ⟨x, hx, hp⟩ := h.resolve_left hn
      exact (handle_slot hn hx).trans (if_pos hp)
  · refine fault_Traps hc (by decide) (by decide) (by decide) (he (hstale ?_))
    cases hx : tget (s.flash e).slots (w.toNat % 4096) with
    | none => exact handle_free hn hx
    | some x =>
      obtain ⟨hp, hg⟩ := h x hx
      exact (handle_slot hn hx).trans ((if_neg (not_not.2 hp)).trans (if_neg hg))
  · exact (he ((hlive hn hx).trans (if_pos (beq_iff_eq.2 hd)))).trans (meaning_ok hc)
  · exact (he ((hlive hn hx).trans ((if_neg (mt beq_iff_eq.1 hd)).trans (if_pos hi)))).trans (meaning_hold hc)

/-- Settles O30: each handle instruction by its word or ranges and by what its table has told. -/
theorem handles : Obligations.Handles := by
  unfold Obligations.Handles
  refine ⟨fun d a b u l s hc => ?_, fun d a s => ⟨hwait_form a s, fun hc => ?_, fun hc => ?_⟩⟩
  · have he {r} (h : hreadEffect s d a b u l = r) : exec (.hread d a b u l) s = meaning (.hread d a b u l) 1 s r :=
      congrArg (meaning (.hread d a b u l) 1 s) h
    refine ⟨fun h => fault_Traps hc (by decide) (by decide) (by decide) (he (hreadEffect_source h)),
      fun ha h => fault_Traps hc (by decide) (by decide) (by decide) (he (hreadEffect_destination ha h)), fun ha hb h => ?_, fun ha hb e o leaf h1 h2 h3 h4 ht hd => ?_⟩
    · refine fault_Traps hc (by decide) (by decide) (by decide) (he (hreadEffect_outside ha hb (if_neg ?_)))
      unfold unitsOf
      omega
    · subst h4
      have hx := he (hreadEffect_asks ha hb (if_pos ⟨h1, h2, h3⟩) ht (dstCheck_none hd))
      exact ⟨atTable_asks hc (by decide) hx, fun h hq hp hd hf => atTable_awaits hc hx hq hp hd hf⟩
  · refine ⟨fun h => fault_Traps hc (by decide) (by decide) (by decide) (congrArg (meaning (.hstat d a) 1 s) (if_pos ((badHandle_eq _).2 h))), fun hn => ?_⟩
    have hx := congrArg (meaning (.hstat d a) 1 s) (show hstatEffect s d a = _ from if_neg (mt (badHandle_eq _).1 hn))
    exact ⟨atTable_asks hc (by decide) hx, fun h hq hp hd hf => atTable_awaits hc hx hq hp hd hf⟩
  · refine ⟨fun h => fault_Traps hc (by decide) (by decide) (by decide) (congrArg (meaning (.hrel a) 1 s) (if_pos ((badHandle_eq _).2 h))), fun hn => ?_⟩
    have hx := congrArg (meaning (.hrel a) 1 s) (show hrelEffect s a = _ from if_neg (mt (badHandle_eq _).1 hn))
    refine ⟨atTable_asks hc (by decide) hx, fun h hq hp hd hf => ?_⟩
    rw [atTable_told hq hp hd hf] at hx
    exact hx.trans (meaning_ok hc)
end Sys2Proof.Machine
end

section
/-! Proofs about barriers and supersteps (R225, R293, R296). -/
namespace Sys2Proof.Machine
open Sys2Proof

/-! ### Arrivals at a barrier (R225) -/

/-- The arrivals that an instance has, without its number. -/
def State.arrivals (s : State) (p c sc g : Nat) : List Nat := (tgetD (s.part p).bars (barKey c sc g) []).tail
/-- A core has arrived at its instance, which completes when it is the last. -/
structure Arrived (s t : State) (p c sc g inst : Nat) : Prop where
  rest : t = { s with parts := t.parts, agenda := t.agenda, nextId := t.nextId }
  others : ∀ q, q ≠ p → t.part q = s.part q
  fewer : (s.arrivals p c sc g).length + 1 < (s.part p).barSize sc g →
    tget (t.part p).bars (barKey c sc g) = some (inst :: (s.arrivals p c sc g ++ [c])) ∧ t.agenda = s.agenda
  last : (s.part p).barSize sc g ≤ (s.arrivals p c sc g).length + 1 →
    tget (t.part p).bars (barKey c sc g) = none ∧ Spec.Adds s.agenda (s.clk + 1) (.barComplete sc inst p g) t.agenda
theorem tgetD_tail (t : Tbl (List Nat)) (k n : Nat) : (tgetD t k [n]).tail = (tgetD t k []).tail := by
  unfold tgetD
  cases tget t k <;> rfl
/-- A state whose partition p alone differs. -/
theorem Arrived.setPart {s u : State} {p c sc g inst : Nat} {x : Part} (hu : u = { s with nextId := u.nextId })
    (hb : (s.arrivals p c sc g).length + 1 < (s.part p).barSize sc g) (hx : tget x.bars (barKey c sc g) = some (inst :: (s.arrivals p c sc g ++ [c]))) :
    Arrived s (u.setPart p x) p c sc g inst := by
  generalize u.nextId = n at hu
  subst hu
  refine ⟨rfl, fun q hq => State.part_setPart_other { s with nextId := n } x (Ne.symm hq), fun _ => ⟨?_, rfl⟩, fun h => absurd hb (by omega)⟩
  rw [State.part_setPart_same, hx]
theorem Arrived.complete {s u : State} {p c sc g inst : Nat} {x : Part} (hu : u = { s with nextId := u.nextId })
    (hb : (s.part p).barSize sc g ≤ (s.arrivals p c sc g).length + 1) (hx : tget x.bars (barKey c sc g) = none) :
    Arrived s ((u.setPart p x).schedule 1 (.barComplete sc inst p g)) p c sc g inst := by
  generalize u.nextId = n at hu
  subst hu
  refine ⟨rfl, fun q hq => State.part_setPart_other { s with nextId := n } x (Ne.symm hq), fun h => absurd hb (by omega), fun _ => ⟨?_, agendaPlace_adds _ _ _ s.agenda⟩⟩
  rw [State.part_schedule, State.part_setPart_same, hx]
theorem barArrive_arrived (s : State) (p c sc g : Nat) : Arrived s (s.barArrive p c sc g).2 p c sc g (s.barArrive p c sc g).1 := by
  have hu : ∀ b : Bool, (if b then s else { s with nextId := s.nextId + 1 })
      = { s with nextId := (if b then s else { s with nextId := s.nextId + 1 }).nextId } := fun b => by cases b <;> rfl
  unfold State.barArrive
  dsimp only
  rw [tgetD_tail]
  generalize (tgetD (s.part p).bars (barKey c sc g) [if sc = 5 then tgetD (s.part p).podSeq g 0 else s.nextId]).headD 0 = inst
  have hl : (inst :: ((tgetD (s.part p).bars (barKey c sc g) []).tail ++ [c])).length = (s.arrivals p c sc g).length + 1 + 1 := by
    rw [List.length_cons, List.length_append]
    rfl
  rw [hl]
  by_cases h : (s.part p).barSize sc g < (s.arrivals p c sc g).length + 1 + 1
  · rw [if_pos h]
    exact .complete (hu _) (Nat.le_of_lt_succ h) (tget_tdel_same ..)
  · rw [if_neg h]
    exact .setPart (hu _) (by omega) (tget_tset_same ..)

/-! ### BAR (R225) -/

theorem foldl_max_le (l : List Flight) : ∀ n : Nat, n ≤ l.foldl (fun m f => max m f.due) n ∧ (∀ f, f ∈ l → f.due ≤ l.foldl (fun m f => max m f.due) n)
    ∧ (n < l.foldl (fun m f => max m f.due) n → ∃ f, f ∈ l ∧ f.due = l.foldl (fun m f => max m f.due) n) := by
  induction l with
  | nil => exact fun n => ⟨le_rfl, fun f h => (List.not_mem_nil h).elim, fun h => absurd h (lt_irrefl n)⟩
  | cons a l ih =>
    intro n
    rw [List.foldl_cons]
    obtain ⟨h1, h2, h3⟩ := ih (max n a.due)
    refine ⟨(le_max_left ..).trans h1, fun f hf => ?_, fun h => ?_⟩
    · rcases List.mem_cons.1 hf with rfl | hf
      · exact (le_max_right ..).trans h1
      · exact h2 f hf
    · by_cases hl : max n a.due < l.foldl (fun m f => max m f.due) (max n a.due)
      · obtain ⟨f, hf, he⟩ := h3 hl
        exact ⟨f, .tail _ hf, he⟩
      · have hm : max n a.due = l.foldl (fun m f => max m f.due) (max n a.due) := le_antisymm h1 (Nat.le_of_not_lt hl)
        rw [← hm] at h ⊢
        exact ⟨a, .head _, (max_eq_right ((lt_max_iff.1 h).resolve_left (lt_irrefl n)).le).symm⟩
theorem due_le_lastDue {k : Core} {f : Flight} (h : f ∈ k.flight) : f.due ≤ k.lastDue := (foldl_max_le k.flight 0).2.1 f h
theorem lastDue_due {k : Core} (h : 0 < k.lastDue) : ∃ f, f ∈ k.flight ∧ f.due = k.lastDue := (foldl_max_le k.flight 0).2.2 h
section
variable {s : State} {st c : Fin 8} {g : Fin 256}
theorem barEffect_lane (h : c.val = 0) : barEffect s st c g = .ok s := by
  obtain rfl : c = 0 := Fin.ext h
  rfl
theorem barEffect_core (h : c.val = 1) :
    barEffect s st c g = .ok (s.setMe { s.me with extra := s.me.extra + (s.me.lastDue - (s.me.sched + 1 + st.val + s.me.extra)) }) := by
  obtain rfl : c = 1 := Fin.ext h
  rfl
theorem barEffect_wide (h : 2 ≤ c.val) : barEffect s st c g
    = if (if c.val = 2 then !s.me.coop else decide ((s.part s.me.part).barSize c.val g.val = 0)) then fault invalidOperand
      else if s.waitsFor (s.unperformed c.val s.cur) then s.releaseHold
      else .ok ((s.barArrive s.me.part s.cur c.val g.val).2.setMe
        { (s.barArrive s.me.part s.cur c.val g.val).2.me with post := .bar c.val (s.barArrive s.me.part s.cur c.val g.val).1 g.val }) := by
  obtain ⟨_ | _ | c, hc⟩ := c
  · exact absurd h (Nat.not_succ_le_zero 1)
  · exact absurd h (Nat.not_succ_le_self 1)
  · rfl
end
/-- An arrival leaves its core as it is but for what it then waits for. -/
theorem Arrived.setMe {s t : State} {p c sc g inst : Nat} (h : Arrived s t p c sc g inst) (x : Post) :
    (t.setMe { t.me with post := x }).me = { s.me with post := x } ∧ (∀ j, j ≠ s.cur → (t.setMe { t.me with post := x }).core j = s.core j)
    ∧ (t.setMe { t.me with post := x }).mark .issued = { s with
        cores := (t.setMe { t.me with post := x }).cores, parts := t.parts, agenda := t.agenda, nextId := t.nextId, issue := .issued } := by
  have hr := h.rest
  have hcur : t.cur = s.cur := (congrArg State.cur hr :)
  have hm : t.me = s.me := (congrArg State.me hr :)
  refine ⟨?_, fun j hj => ?_, ?_⟩
  · rw [me_setMe, hm]
  · refine (State.core_setCore_other _ _ (Ne.symm (hcur ▸ hj))).trans ?_
    exact (congrArg (fun u : State => u.core j) hr :)
  · exact (congrArg (fun u : State => { u with cores := (t.setMe { t.me with post := x }).cores, issue := .issued }) hr :)

theorem bar_form (st c : Fin 8) (g : Fin 256) (s : State) (hc : Clear (.bar st c g) s) :
    let k := s.me
    let x := s.part k.part
    let key := barKey s.cur c.val g.val
    let old := (tgetD x.bars key []).tail
    let size := if c.val = 2 then 4 else tgetD x.groups g.val 0
    (c.val = 0 → exec (.bar st c g) s = .next (s.mark .issued))
    ∧ (c.val = 1 → ∃ n, exec (.bar st c g) s = .next ((s.setMe { k with extra := k.extra + n }).mark .issued)
        ∧ (∀ f, f ∈ k.flight → f.due ≤ k.sched + 1 + st.val + (k.extra + n))
        ∧ (n ≠ 0 → ∃ f, f ∈ k.flight ∧ f.due = k.sched + 1 + st.val + (k.extra + n)))
    ∧ (2 ≤ c.val → (if c.val = 2 then k.coop = true else 0 < size ∧ s.releaseOut s.cur = false) → s.tileWritesOut s.cur = false →
        ∃ t inst, exec (.bar st c g) s = .next t ∧ t.issue = .issued
          ∧ t.me = { k with post := .bar c.val inst g.val } ∧ (∀ j, j ≠ s.cur → t.core j = s.core j)
          ∧ (old.length + 1 < size → tget (t.part k.part).bars key = some (inst :: (old ++ [s.cur])) ∧ t.agenda = s.agenda)
          ∧ (size ≤ old.length + 1 → tget (t.part k.part).bars key = none
              ∧ Spec.Adds s.agenda (s.clk + 1) (.barComplete c.val inst k.part g.val) t.agenda)
          ∧ (∀ q, q ≠ k.part → t.part q = s.part q)
          ∧ t = { s with cores := t.cores, parts := t.parts, agenda := t.agenda, nextId := t.nextId, issue := .issued })
    ∧ (2 ≤ c.val → (if c.val = 2 then k.coop = false else size = 0) → Traps (.bar st c g) s 0 5 0 0) := by
  intro k x key old size
  have he {r} (h : barEffect s st c g = r) : exec (.bar st c g) s = meaning (.bar st c g) 0 s r := congrArg (meaning (.bar st c g) 0 s) h
  refine ⟨fun h => (he (barEffect_lane h)).trans (meaning_ok hc), fun h => ⟨_, (he (barEffect_core h)).trans (meaning_ok hc), fun f hf => ?_, fun hn => ?_⟩,
    fun h hm ht => ?_, fun h hm => fault_Traps hc (by decide) (by decide) (by decide) (he ((barEffect_wide h).trans (if_pos ?_)))⟩
  · have := due_le_lastDue hf
    change f.due ≤ s.me.lastDue at this
    change f.due ≤ s.me.sched + 1 + st.val + (s.me.extra + _)
    omega
  · obtain ⟨f, hf, hd⟩ := lastDue_due (k := s.me) (by omega)
    refine ⟨f, hf, ?_⟩
    change f.due = s.me.sched + 1 + st.val + (s.me.extra + _)
    omega
  · have hf : ¬ ((if c.val = 2 then !s.me.coop else decide ((s.part s.me.part).barSize c.val g.val = 0)) = true) := by
      split_ifs at hm ⊢ with h2
      · rw [show s.me.coop = true from hm]
        exact Bool.false_ne_true
      · have : (s.part s.me.part).barSize c.val g.val = size := rfl
        rw [decide_eq_true_iff]
        omega
    have hw : s.unperformed c.val s.cur = false := by
      unfold State.unperformed
      rw [ht, Bool.and_false, Bool.or_false, Bool.and_eq_false_iff, decide_eq_false_iff_not]
      split_ifs at hm with h2
      · exact .inl (by omega)
      · exact .inr hm.2
    have ha := barArrive_arrived s s.me.part s.cur c.val g.val
    obtain ⟨h1, h2, h3⟩ := ha.setMe (.bar c.val (s.barArrive s.me.part s.cur c.val g.val).1 g.val)
    refine ⟨_, (s.barArrive s.me.part s.cur c.val g.val).1, (he ((barEffect_wide h).trans ((if_neg hf).trans (if_neg ?_)))).trans (meaning_ok hc), rfl, h1, h2,
      ha.fewer, ha.last, ha.others, h3⟩
    rw [hw]
    exact Bool.false_ne_true
  · split_ifs at hm ⊢ with h2
    · rw [show s.me.coop = false from hm]
      rfl
    · exact decide_eq_true hm

/-! ### SSTEP and the end of a compute phase (R293, R296, R298) -/

/-- A package's arrival at a pod barrier changes the barriers of the partitions alone (R407). -/
structure PodMoves (s t : State) : Prop where
  rest : t = { s with parts := t.parts, podMiss := t.podMiss, agenda := t.agenda }
  parts : ∀ q, t.part q = { s.part q with podBars := (t.part q).podBars }
theorem podArrive_moves (s : State) (pkg : Nat) (b : Bool) (p g n : Nat) : PodMoves s (s.podArrive pkg b p g n) := by
  have hs (x : Tbl (List Nat)) (v : W64) (ag : List (Nat × Instr)) :
      PodMoves s { s.setPart p { s.part p with podBars := x } with podMiss := v, agenda := ag } := by
    refine ⟨rfl, fun q => ?_⟩
    have h : ({ s.setPart p { s.part p with podBars := x } with podMiss := v, agenda := ag } : State).part q
        = if p = q then { s.part p with podBars := x } else s.part q := State.part_setPart ..
    rw [h]
    split
    next hq => subst hq; rfl
    · rfl
  unfold State.podArrive
  dsimp only
  split
  · exact ⟨rfl, fun _ => rfl⟩
  · split
    · exact hs ..
    · exact hs ..
/-- The messages that are carried ask for their landings. -/
structure OnlyReqs (s t : State) : Prop where
  eq : t = { s with agenda := t.agenda, reqs := t.reqs, nextId := t.nextId }
theorem carry_reqs (s : State) (es : List (Nat × Nat × Tile × SendRec)) : OnlyReqs s (s.carry es) := by
  unfold State.carry
  dsimp only
  generalize carryTime (es.map fun e => (dieOfCore e.2.2.2.core, e.1, e.2.2.2.len)) = n
  induction es generalizing s with
  | nil => exact ⟨rfl⟩
  | cons e es ih =>
    rw [List.foldl_cons]
    refine ⟨(ih _).eq.trans ?_⟩
    split <;> rfl
/-- The compute phase of a partition has ended. -/
structure PhaseEnded (s t : State) (p : Nat) : Prop where
  rest : t = { s with parts := t.parts, podMiss := t.podMiss, agenda := t.agenda, reqs := t.reqs, nextId := t.nextId }
  phase : (t.part p).ssExchange = true ∧ (t.part p).ssArrived = 0 ∧ (t.part p).ssCount = (s.part p).ssCount
theorem endCompute_ended (s : State) (p : Nat) : PhaseEnded s (s.endCompute p) p := by
  have h1 : PhaseEnded s (s.setPart p { s.part p with ssExchange := true, ssArrived := 0, ssPodDone := false }) p := by
    refine ⟨rfl, ?_⟩
    rw [State.part_setPart_same]
    exact ⟨rfl, rfl, rfl⟩
  unfold State.endCompute
  dsimp only
  generalize s.setPart p { s.part p with ssExchange := true, ssArrived := 0, ssPodDone := false } = u at h1 ⊢
  have h2 : PhaseEnded s (if (s.part p).pod then u.podArrive u.podIndex false p 0 (s.part p).ssCount else u) p := by
    split
    · obtain ⟨m1, m2⟩ := podArrive_moves u u.podIndex false p 0 (s.part p).ssCount
      refine ⟨by rw [m1, h1.rest], ?_⟩
      rw [m2]
      exact h1.phase
    · exact h1
  generalize (if (s.part p).pod then u.podArrive u.podIndex false p 0 (s.part p).ssCount else u) = v at h2 ⊢
  have hc := (carry_reqs v ((v.sends p).filter fun e => decide (e.2.2.2.step ≤ (s.part p).ssCount) && !e.2.2.2.landed)).eq
  generalize v.carry _ = w at hc ⊢
  have h3 : PhaseEnded s w p := ⟨by rw [hc, h2.rest], by rw [hc]; exact h2.phase⟩
  split
  · exact h3
  · exact ⟨by rw [h3.rest]; rfl, h3.phase⟩
/-- The core's arrival at the boundary is counted, and it waits for it. -/
def State.steps (s : State) : State :=
  (s.setPart s.myPart { s.part s.myPart with ssArrived := (s.part s.myPart).ssArrived + 1 }).setMe
    { s.me with post := .sstep ((s.part s.myPart).ssCount + if (s.part s.myPart).ssExchange then 2 else 1) }
section
variable {s : State} {c : Fin 8}
theorem sstepEffect_refused (h : (s.part s.myPart).members = 0 ∨ (s.part s.myPart).pod ≠ (c.val == 5)) : sstepEffect s c = fault invalidOperand := if_pos h
theorem sstepEffect_arrives (h1 : (s.part s.myPart).members ≠ 0) (h2 : (s.part s.myPart).pod = (c.val == 5)) (h3 : s.releaseOut s.cur = false) :
    sstepEffect s c = .ok (if !(s.part s.myPart).ssExchange ∧ (s.part s.myPart).members ≤ (s.part s.myPart).ssArrived + 1
      then s.steps.endCompute s.myPart else s.steps) := by
  refine (if_neg (by rw [not_or, not_not]; exact ⟨h1, h2⟩)).trans ?_
  refine (if_neg ?_).trans rfl
  rw [h3]
  exact Bool.false_ne_true
end
/-- What an arrival at the boundary leaves, before the phase may end. -/
structure Stepped (s t : State) : Prop where
  me : t.me = { s.me with post := .sstep ((s.part s.myPart).ssCount + if (s.part s.myPart).ssExchange then 2 else 1) }
  others : ∀ j, j ≠ s.cur → t.core j = s.core j
  part : t.part s.myPart = { s.part s.myPart with ssArrived := (s.part s.myPart).ssArrived + 1 }
  rest : t = { s with cores := t.cores, parts := t.parts }
theorem steps_stepped (s : State) : Stepped s s.steps :=
  ⟨me_setMe .., fun _ hj => State.core_setCore_other _ _ (Ne.symm hj), State.part_setPart_same .., rfl⟩
theorem sstep_arrives {st c : Fin 8} {s : State} (hc : Clear (.sstep st c) s) (h1 : (s.part s.myPart).members ≠ 0)
    (h2 : (s.part s.myPart).pod = (c.val == 5)) (h3 : s.releaseOut s.cur = false) :
    ∃ t, exec (.sstep st c) s = .next t ∧ t.issue = .issued
      ∧ t.me = { s.me with post := .sstep ((s.part s.myPart).ssCount + if (s.part s.myPart).ssExchange then 2 else 1) } ∧ (∀ j, j ≠ s.cur → t.core j = s.core j)
      ∧ ((s.part s.myPart).ssExchange = true ∨ (s.part s.myPart).ssArrived + 1 < (s.part s.myPart).members →
          t.part s.myPart = { s.part s.myPart with ssArrived := (s.part s.myPart).ssArrived + 1 } ∧ t = { s with cores := t.cores, parts := t.parts, issue := .issued })
      ∧ ((s.part s.myPart).ssExchange = false → (s.part s.myPart).members ≤ (s.part s.myPart).ssArrived + 1 →
          (t.part s.myPart).ssExchange = true ∧ (t.part s.myPart).ssArrived = 0 ∧ (t.part s.myPart).ssCount = (s.part s.myPart).ssCount)
      ∧ t.mem = s.mem ∧ t.quads = s.quads := by
  have hs := sstepEffect_arrives h1 h2 h3
  have hst := steps_stepped s
  generalize s.steps = u at hs hst
  have he := (congrArg (meaning (.sstep st c) 0 s) hs).trans (meaning_ok hc)
  have hcur : u.cur = s.cur := (congrArg State.cur hst.rest :)
  by_cases hl : !(s.part s.myPart).ssExchange ∧ (s.part s.myPart).members ≤ (s.part s.myPart).ssArrived + 1
  · rw [if_pos hl] at he
    have hend := endCompute_ended u s.myPart
    generalize u.endCompute s.myPart = w at he hend
    have hcores : w.cores = u.cores := (congrArg State.cores hend.rest :)
    have hcore (j : Nat) : w.core j = u.core j := congrArg (fun t => tgetD t j ({} : Core)) hcores
    have hwcur : w.cur = u.cur := (congrArg State.cur hend.rest :)
    refine ⟨_, he, rfl, ?_, fun j hj => (hcore j).trans (hst.others j hj), fun h => ?_, fun _ _ => ?_, ?_, ?_⟩
    · exact ((show w.me = w.core u.cur from congrArg _ hwcur).trans (hcore u.cur)).trans hst.me
    · rcases h with h | h
      · exact absurd hl.1 (by rw [h]; exact Bool.false_ne_true)
      · exact absurd hl.2 (Nat.not_le.2 h)
    · obtain ⟨e1, e2, e3⟩ := hend.phase
      exact ⟨e1, e2, e3.trans (congrArg Part.ssCount hst.part :)⟩
    · exact (congrArg State.mem hend.rest :).trans (congrArg State.mem hst.rest :)
    · exact (congrArg State.quads hend.rest :).trans (congrArg State.quads hst.rest :)
  · rw [if_neg hl] at he
    refine ⟨_, he, rfl, hst.me, hst.others, fun _ => ⟨hst.part, ?_⟩, fun h1 h2 => absurd ⟨by rw [h1]; rfl, h2⟩ hl, ?_, ?_⟩
    · exact (congrArg (fun v : State => v.mark .issued) hst.rest :)
    · exact (congrArg State.mem hst.rest :)
    · exact (congrArg State.quads hst.rest :)

/-- Settles O8: BAR by its scope, SSTEP by whether its arrival ends the phase. -/
theorem arrivals : Obligations.Arrivals := by
  unfold Obligations.Arrivals
  refine ⟨bar_form, fun st c s hc => ⟨fun h1 h2 h3 => sstep_arrives hc h1 h2 h3, fun h => ?_⟩⟩
  exact fault_Traps hc (by decide) (by decide) (by decide) (congrArg (meaning (.sstep st c) 0 s) (sstepEffect_refused h))
end Sys2Proof.Machine
end

section
/-! Proofs about the task instructions (R350 to R353). -/
namespace Sys2Proof.Machine
open Sys2Proof

/-! ### GLOAD (R353) -/

/-- The values that GLOAD names, by their numbers. -/
theorem gloadValue_listed {t : Task} {n : Nat} {v : W64} (h : (n, v) ∈
    [(0, t.args.getD 0 0), (1, t.args.getD 1 0), (2, t.args.getD 2 0), (3, t.args.getD 3 0), (4, BitVec.ofNat 64 t.inst),
      (5, BitVec.ofNat 64 (t.tmpl * 65536 + t.node)), (6, BitVec.ofNat 64 t.member), (7, BitVec.ofNat 64 t.tag), (8, BitVec.ofNat 64 t.part)]) :
    n < 9 ∧ gloadValue t n = v := by
  simp only [List.mem_cons, Prod.mk.injEq, List.not_mem_nil, or_false] at h
  rcases h with ⟨rfl, rfl⟩ | ⟨rfl, rfl⟩ | ⟨rfl, rfl⟩ | ⟨rfl, rfl⟩ | ⟨rfl, rfl⟩ | ⟨rfl, rfl⟩ | ⟨rfl, rfl⟩ | ⟨rfl, rfl⟩ | ⟨rfl, rfl⟩
  all_goals exact ⟨by decide, rfl⟩
section
variable {s : State} {d : Fin 64} {k : Fin 1024} {l : Lent} {t : Task} (ht : s.me.task = some t)
include ht
theorem gloadEffect_task : gloadEffect s d k l
    = if 9 ≤ immB k l then fault invalidOperand else .ok (s.pend [keyS d.val] (some (.scalar d.val (gloadValue t (immB k l)))) 2).2 := by
  unfold gloadEffect
  dsimp only
  rw [ht]
end

/-! ### PARK, YIELD and TDONE (R351, R352) -/

theorem parkEffect_coop {s : State} (n : Nat) (h : s.me.coop = true) : parkEffect s n = fault invalidOperand := if_pos h
theorem parkEffect_alone {s : State} (n : Nat) (h : s.me.coop = false) :
    parkEffect s n = .ok (s.setMe { s.me with post := if n = 0 then .suspend 2 0 0 0 else .suspend 1 0 (s.beaconAfter n) 0 }) :=
  if_neg (by rw [h]; exact Bool.false_ne_true)
theorem beaconAfter_here {s : State} {n : Nat} (h : s.tick + n < s.frameTicks) : s.beaconAfter n = BitVec.ofNat 64 (s.frame * 2 ^ 24 + (s.tick + n)) := if_pos h
theorem beaconAfter_later {s : State} {n : Nat} (h : s.frameTicks ≤ s.tick + n) (h0 : 0 < s.frameTicksNew.getD s.frameTicks) :
    ∃ e r, r < s.frameTicksNew.getD s.frameTicks ∧ s.tick + n = s.frameTicks + e * s.frameTicksNew.getD s.frameTicks + r
      ∧ s.beaconAfter n = BitVec.ofNat 64 ((s.frame + 1 + e) * 2 ^ 24 + r) := by
  refine ⟨_, _, Nat.mod_lt _ h0, ?_, if_neg (Nat.not_lt.2 h)⟩
  have := Nat.div_add_mod' (s.tick + n - s.frameTicks) (s.frameTicksNew.getD s.frameTicks)
  omega
theorem park_form (st : Fin 8) (s : State) (n : Fin 524288) (hc : Clear (.park st n) s) :
    (s.me.coop = false → n.val = 0 → exec (.park st n) s = .next ((s.setMe { s.me with post := .suspend 2 0 0 0 }).mark .issued))
    ∧ (s.me.coop = false → n.val ≠ 0 → ∃ wake, exec (.park st n) s = .next ((s.setMe { s.me with post := .suspend 1 0 wake 0 }).mark .issued)
        ∧ (s.tick + n.val < s.frameTicks → wake = BitVec.ofNat 64 (s.frame * 2 ^ 24 + (s.tick + n.val)))
        ∧ (s.frameTicks ≤ s.tick + n.val → 0 < s.frameTicksNew.getD s.frameTicks →
            ∃ e r, r < s.frameTicksNew.getD s.frameTicks ∧ s.tick + n.val = s.frameTicks + e * s.frameTicksNew.getD s.frameTicks + r
              ∧ wake = BitVec.ofNat 64 ((s.frame + 1 + e) * 2 ^ 24 + r)))
    ∧ (s.me.coop = true → Traps (.park st n) s 0 5 0 0) := by
  have he {r} (h : parkEffect s n.val = r) : exec (.park st n) s = meaning (.park st n) 0 s r := congrArg (meaning (.park st n) 0 s) h
  refine ⟨fun h hn => ?_, fun h hn => ⟨s.beaconAfter n.val, ?_, beaconAfter_here, beaconAfter_later⟩,
    fun h => fault_Traps hc (by decide) (by decide) (by decide) (he (parkEffect_coop _ h))⟩
  · have hp := parkEffect_alone n.val h
    rw [if_pos hn] at hp
    exact (he hp).trans (meaning_ok hc)
  · have hp := parkEffect_alone n.val h
    rw [if_neg hn] at hp
    exact (he hp).trans (meaning_ok hc)
theorem tdoneEffect_alone {s : State} (h : s.me.coop = false) : tdoneEffect s = .ok (s.setMe { s.me with post := .suspend 5 0 0 0 }) :=
  if_neg (by rw [h]; exact Bool.false_ne_true)
theorem tdoneEffect_coop {s : State} (h : s.me.coop = true) : tdoneEffect s = .ok ((s.barArrive s.me.part s.cur 2 0).2.setMe
    { (s.barArrive s.me.part s.cur 2 0).2.me with post := .suspend 0 (s.barArrive s.me.part s.cur 2 0).1 0 0 }) := if_pos h

/-! ### TSPAWN (R350) -/

section
variable {s : State} {a b : Fin 64}
theorem tspawnEffect_misaligned (h : (s.me.sreg a.val).toNat % 32 ≠ 0) : tspawnEffect s a b = fault alignment 0 (s.me.sreg a.val) := if_pos h
variable (ha : (s.me.sreg a.val).toNat % 32 = 0)
include ha
theorem tspawnEffect_die (h : 5 < (s.me.sreg b.val).toNat) : tspawnEffect s a b = fault invalidOperand := (if_neg (not_not.2 ha)).trans (if_pos h)
variable (hd : (s.me.sreg b.val).toNat ≤ 5) {r : List Byte} (hr : s.readSpan (s.me.sreg a.val) 32 = .ok r)
include hd hr
theorem tspawnEffect_stops {u : State} {w : EngStop} (h : s.checkRecord s.myPart (s.me.sreg b.val).toNat r = .stop u w) : tspawnEffect s a b = .hold s := by
  unfold tspawnEffect
  dsimp only
  rw [if_neg (not_not.2 ha), if_neg (Nat.not_lt.2 hd), hr]
  dsimp only
  rw [h]
theorem tspawnEffect_refused {u : State} {e : Nat} (h : s.checkRecord s.myPart (s.me.sreg b.val).toNat r = .ok u (.error e)) :
    tspawnEffect s a b = fault 13 := by
  unfold tspawnEffect
  dsimp only
  rw [if_neg (not_not.2 ha), if_neg (Nat.not_lt.2 hd), hr]
  dsimp only
  rw [h]
/-- The record's insertion is asked for and its read counted. -/
def State.inserts (u : State) (d : Nat) (r : List Byte) (va : W64) : State :=
  { u with nextId := u.nextId + 1, reqs := tset u.reqs u.nextId (.insert u.cur u.myPart d r va) }.countSpan va 32
theorem tspawnEffect_asks {u : State} {n : Node} (h : s.checkRecord s.myPart (s.me.sreg b.val).toNat r = .ok u (.ok n)) (hu : u.releaseOut u.cur = false) :
    tspawnEffect s a b = .ok (((u.inserts (s.me.sreg b.val).toNat r (s.me.sreg a.val)).setMe
        { (u.inserts (s.me.sreg b.val).toNat r (s.me.sreg a.val)).me with post := .tspawn }).schedule
      (if (s.me.sreg b.val).toNat = (u.inserts (s.me.sreg b.val).toNat r (s.me.sreg a.val)).myDie then 6 else 380) (.taskInsertion u.nextId)) := by
  refine (if_neg (not_not.2 ha)).trans ((if_neg (Nat.not_lt.2 hd)).trans ?_)
  rw [hr]
  dsimp only
  rw [h]
  refine (if_neg ?_).trans rfl
  rw [hu]
  exact Bool.false_ne_true
end

/-- Settles O9: each instruction by its number, its task's kind, or its record. -/
theorem taskInstructions : Obligations.TaskInstructions := by
  unfold Obligations.TaskInstructions
  refine ⟨fun d k l s t hc ht => ?_, fun st s => ⟨fun hc => ?_, park_form st s, fun hc => ?_⟩, fun st a b s hc => ?_⟩
  · have he {r} (h : gloadEffect s d k l = r) : exec (.gload d k l) s = meaning (.gload d k l) 1 s r := congrArg (meaning (.gload d k l) 1 s) h
    rw [← immB_eq]
    refine ⟨fun v hv => ?_, fun h => fault_Traps hc (by decide) (by decide) (by decide) (he ((gloadEffect_task ht).trans (if_pos h)))⟩
    obtain ⟨h9, rfl⟩ := gloadValue_listed hv
    exact (he ((gloadEffect_task ht).trans (if_neg (Nat.not_le.2 h9)))).trans (meaning_ok hc)
  · have he {r} (h : parkEffect s 0 = r) : exec (.yield st) s = meaning (.yield st) 0 s r := congrArg (meaning (.yield st) 0 s) h
    exact ⟨fun h => (he (parkEffect_alone 0 h)).trans (meaning_ok hc), fun h => fault_Traps hc (by decide) (by decide) (by decide) (he (parkEffect_coop 0 h))⟩
  · have he {r} (h : tdoneEffect s = r) : exec (.tdone st) s = meaning (.tdone st) 0 s r := congrArg (meaning (.tdone st) 0 s) h
    refine ⟨fun h => (he (tdoneEffect_alone h)).trans (meaning_ok hc), fun h => ?_⟩
    have ha := barArrive_arrived s s.me.part s.cur 2 0
    obtain ⟨h1, h2, h3⟩ := ha.setMe (.suspend 0 (s.barArrive s.me.part s.cur 2 0).1 0 0)
    exact ⟨_, (s.barArrive s.me.part s.cur 2 0).1, (he (tdoneEffect_coop h)).trans (meaning_ok hc), rfl, h1, ⟨ha.fewer, ha.last⟩, h3⟩
  · have he {r} (h : tspawnEffect s a b = r) : exec (.tspawn st a b) s = meaning (.tspawn st a b) 0 s r := congrArg (meaning (.tspawn st a b) 0 s) h
    refine ⟨fun h => fault_Traps hc (by decide) (by decide) (by decide) (he (tspawnEffect_misaligned h)),
      fun ha h => fault_Traps hc (by decide) (by decide) (by decide) (he (tspawnEffect_die ha h)), fun ha hd r hr => ⟨fun u e h => ?_, fun u w h => ?_, fun n u h hu => ?_⟩⟩
    · exact fault_Traps hc (by decide) (by decide) (by decide) (he (tspawnEffect_refused ha hd hr h))
    · exact (he (tspawnEffect_stops ha hd hr h)).trans (meaning_hold hc)
    · exact (he (tspawnEffect_asks ha hd hr h hu)).trans (meaning_ok hc)
end Sys2Proof.Machine
end

section
/-! A refutation about LEASE (R242, R246). -/
namespace Sys2Proof.Machine
open Sys2Proof

/-! ### A group LEASE that finds a member's request twice (R242, R246) -/

/-- A word that asks bank 0 of a group of quads 0 and 1. -/
def pairWord : W64 := 0x10011
/-- The granted request of a core of quad 1 for that group. -/
def pairRequest : Lessee := ⟨4, 0, 1, pairWord, true, 0, true, false⟩
/-- Core 0 is about to ask for the group; quad 1 lists the request of its core twice. -/
def pairTwice : State := { cores := [(0, { s := [(1, pairWord)] })], quads := [(1, { arr := { lessees := [pairRequest, pairRequest] } })] }
theorem pairTwice_held : ∃ t, exec (.lease 1 none) pairTwice = .next t ∧ t.issue = .held := ⟨_, rfl, by decide +kernel⟩
theorem pairTwice_lessees (p : Nat) (x : Lessee) (h : x ∈ (pairTwice.arr p).lessees) : x = pairRequest := by
  by_cases hp : p = 1
  · subst hp
    rcases List.mem_cons.1 h with rfl | h
    · rfl
    · exact List.mem_singleton.1 h
  · have hq : pairTwice.quad p = {} := by
      unfold State.quad tgetD
      rw [show tget pairTwice.quads p = none from if_neg (Ne.symm hp)]
    rw [State.arr, hq] at h
    exact nomatch h

/-- Refutes O48: a member quad that lists one granted request twice grants it no more, so the last member's LEASE waits. The machine lists no
request twice by itself; the statement is about every state. -/
theorem not_arrayLeases : ¬ Obligations.ArrayLeases := by
  unfold Obligations.ArrayLeases
  intro h
  obtain ⟨-, -, -, -, hgroup⟩ := (h pairTwice).1 1 none (by decide +kernel)
  obtain ⟨-, -, hgrant⟩ := hgroup (by decide +kernel) (by decide +kernel) ⟨fun x hx => (nomatch hx), fun v hv => (nomatch hv)⟩
  have hone (p : Nat) (h0 : firstQuad pairTwice.myDie + 0 ≤ p) (h2 : p < firstQuad pairTwice.myDie + 0 + 2) (hp : p ≠ pairTwice.myQuad) : p = 1 := by
    have : firstQuad pairTwice.myDie = 0 ∧ pairTwice.myQuad = 0 := by decide +kernel
    omega
  refine (hgrant ?_ (fun p h0 h2 hp => ?_) (fun b p _ hl => nomatch hl)).elim fun t ⟨ht, hi, _⟩ => ?_
  · rintro (h1 | h1 | h1 | h1 | h1 | ⟨x, hx, _⟩ | ⟨i, x, n, _, hx, _, hw, _⟩)
    · exact absurd h1 (by decide)
    · exact absurd h1 (by decide)
    · exact absurd h1 (by decide +kernel)
    · exact absurd h1 (by decide +kernel)
    · exact absurd h1 (by decide +kernel)
    · exact nomatch hx
    · exact hw (by rw [pairTwice_lessees _ x hx]; decide +kernel)
  · obtain rfl := hone p h0 h2 hp
    exact ⟨rfl, pairRequest, ⟨.head _, by decide +kernel, rfl⟩, fun y hy => .inl (pairTwice_lessees 1 y hy)⟩
  · obtain ⟨u, hu, hheld⟩ := pairTwice_held
    cases Host.Outcome.next.inj (hu.symm.trans ht)
    exact absurd (hheld.symm.trans hi) (by decide)
end Sys2Proof.Machine
end

section
/-! A refutation about frame starts (R172, R295). -/
namespace Sys2Proof.Machine
open Sys2Proof
/-- Partition 0 has a deferred frame start, and two pending quotas of its die 0. -/
def quotaTwice : State := { parts := [(0, { pstate := 0, deferred := true, kpend := [(0, 1), (0, 2)] })] }
theorem quotaTwice_taken : ∃ u, exec (.deferredFrameStart 0) quotaTwice = .next u ∧ u.kpart 0 0 = 2 := ⟨_, rfl, by decide +kernel⟩

/-- Refutes O56: of two pending quotas of one die that a partition lists, a frame start takes the second. The machine lists no die twice by itself;
the statement is about every state. -/
theorem not_boundaryEvents : ¬ Obligations.BoundaryEvents := by
  unfold Obligations.BoundaryEvents
  intro h
  obtain ⟨-, -, -, -, -, hframe, -⟩ := h quotaTwice
  obtain ⟨t, u, -, hu, -, -, -, htaken, -⟩ := hframe 0
  obtain ⟨-, -, hd⟩ := htaken (by decide +kernel) (by decide +kernel) (by decide +kernel) rfl
  obtain ⟨v, hv, hquota⟩ := quotaTwice_taken
  cases Host.Outcome.next.inj (hv.symm.trans hu)
  have hold : quotaTwice.kpart 0 0 = 0 := by decide +kernel
  rcases hd 0 (by decide) with h1 | h1
  · exact absurd (hold.symm.trans (h1.trans hquota)) (by decide)
  · exact absurd ((congrArg some hquota).symm.trans h1.symm) (by decide +kernel)
end Sys2Proof.Machine
end

section
/-! What an engine's reads leave unchanged. -/
namespace Sys2Proof.Machine
open Sys2Proof

/-! ### What an engine's reads leave unchanged (R68, R104, R105, R120) -/

/-- An engine has read: walks have begun, accesses are counted, and blocks whose count has come to its limit are under relocation. -/
structure Fetched (s t : State) : Prop where
  eq : t = { s with dies := t.dies, agenda := t.agenda, fresh := t.fresh, hot := t.hot, pchan := t.pchan, pchanUsed := t.pchanUsed
                    busyTill := t.busyTill, health := t.health, hclass := t.hclass }
  dies : ∀ d, t.die d = { s.die d with walks := (t.die d).walks, waitq := (t.die d).waitq, rte := (t.die d).rte, flash := (t.die d).flash
                                       errCorrected := (t.die d).errCorrected }
  flash : ∀ d, (t.die d).flash = { (s.die d).flash with
    count := (t.die d).flash.count, used := (t.die d).flash.used, retired := (t.die d).flash.retired, weak := (t.die d).flash.weak
    moving := (t.die d).flash.moving, opened := (t.die d).flash.opened }
  passes : ∀ d, (t.die d).rte.map (fun m => { m with touches := [] }) = (s.die d).rte.map fun m => { m with touches := [] }
  later : ∀ e, e ∈ s.agenda → e ∈ t.agenda
  slices : ∀ d n, (n, Instr.sliceEnd d) ∈ t.agenda → (n, Instr.sliceEnd d) ∈ s.agenda
namespace Fetched
theorem refl (s : State) : Fetched s s := ⟨rfl, fun _ => rfl, fun _ => rfl, fun _ => rfl, fun _ h => h, fun _ _ h => h⟩
theorem trans {s t u : State} (h : Fetched s t) (g : Fetched t u) : Fetched s u :=
  ⟨by rw [g.eq, h.eq], fun d => by rw [g.dies, h.dies], fun d => by rw [g.flash, h.flash], fun d => (g.passes d).trans (h.passes d),
    fun e he => g.later e (h.later e he), fun d n he => h.slices d n (g.slices d n he)⟩
theorem ite {s t u : State} {c : Prop} [Decidable c] (h : Fetched s t) (g : Fetched s u) : Fetched s (if c then t else u) := by
  split
  · exact h
  · exact g
theorem foldl {α : Type} {f : State → α → State} (h : ∀ s a, Fetched s (f s a)) (l : List α) : ∀ s : State, Fetched s (l.foldl f s) := by
  induction l with
  | nil => exact refl
  | cons a l ih => exact fun s => (h s a).trans (ih (f s a))
/-- Nothing has changed but counts of the package. -/
theorem counts {s t : State} (h : t = { s with fresh := t.fresh, hot := t.hot, pchan := t.pchan, pchanUsed := t.pchanUsed, busyTill := t.busyTill
                                               health := t.health, hclass := t.hclass }) : Fetched s t := by
  have hd : t.dies = s.dies := by rw [h]
  have ha : t.agenda = s.agenda := by rw [h]
  have hdie (d : Nat) : t.die d = s.die d := congrArg (fun x => tgetD x d ({} : Die)) hd
  refine ⟨h.trans (by rw [hd, ha]), fun d => by rw [hdie], fun d => by rw [hdie], fun d => by rw [hdie], fun e he => ha ▸ he, fun d n he => ha ▸ he⟩
theorem schedule (s : State) (dt : Nat) {i : Instr} (h : ∀ d, i ≠ .sliceEnd d) : Fetched s (s.schedule dt i) :=
  ⟨rfl, fun _ => rfl, fun _ => rfl, fun _ => rfl, fun _ he => mem_schedule.2 (.inr he), fun d _ he =>
    (mem_schedule.1 he).elim (fun he => absurd (Prod.mk.inj he).2.symm (h d)) id⟩
theorem setDie {s : State} {d : Nat} {x : Die}
    (hx : x = { s.die d with walks := x.walks, waitq := x.waitq, rte := x.rte, flash := x.flash, errCorrected := x.errCorrected })
    (hf : x.flash = { (s.die d).flash with count := x.flash.count, used := x.flash.used, retired := x.flash.retired, weak := x.flash.weak
                                           moving := x.flash.moving, opened := x.flash.opened })
    (hr : x.rte.map (fun m => { m with touches := [] }) = (s.die d).rte.map fun m => { m with touches := [] }) : Fetched s (s.setDie d x) := by
  have hd (e : Nat) : (s.setDie d x).die e = if d = e then x else s.die e := State.die_setDie ..
  refine ⟨rfl, fun e => ?_, fun e => ?_, fun e => ?_, fun e he => he, fun _ _ he => he⟩
  all_goals
    rw [hd]
    split
    next h => subst h; assumption
    · rfl
theorem setFlash {s : State} {e : Nat} {f : Flash}
    (hf : f = { s.flash e with count := f.count, used := f.used, retired := f.retired, weak := f.weak, moving := f.moving, opened := f.opened }) :
    Fetched s (s.setFlash e f) := setDie rfl hf rfl
theorem of_noted {s t : State} (h : Spec.Noted s t) : Fetched s t := by
  refine ⟨h.rest.trans (by rw [h.rest]), fun d => by rw [h.dies], fun d => by rw [h.dies], h.passes, fun e he => (h.events e).2 (.inl he), fun d n he => ?_⟩
  rcases (h.events _).1 he with he | ⟨-, k, r, j, he⟩
  · exact he
  · exact absurd (Prod.mk.inj he).2 Instr.noConfusion
end Fetched
theorem bumpClass_fetched (s : State) (e b lo w n : Nat) : Fetched s (s.bumpClass e b lo w n) := .ite (.refl s) (.counts rfl)
theorem setBlock_fetched {s : State} {e : Nat} {f : Flash} (b : Nat)
    (hf : f = { s.flash e with count := f.count, used := f.used, retired := f.retired, weak := f.weak, moving := f.moving, opened := f.opened }) :
    Fetched s (s.setBlock e b f) :=
  ((Fetched.setFlash hf).trans (.foldl (fun _ _ => .counts rfl) _ _)).trans (.foldl (fun _ _ => .counts rfl) _ _)
theorem retireBlock_fetched (s : State) (e b : Nat) : Fetched s (s.retireBlock e b) := (setBlock_fetched b rfl).trans (.counts rfl)
theorem takeFresh_fetched (e near : Nat) (only : Bool) (n : Nat) : ∀ s : State, Fetched s (s.takeFresh e near only n).1 := by
  induction n with
  | zero => exact .refl
  | succ n ih =>
    intro s
    unfold State.takeFresh
    dsimp only
    split
    · exact .refl s
    · split
      · exact (retireBlock_fetched ..).trans (ih _)
      · exact setBlock_fetched _ rfl
theorem startRelocation_fetched (s : State) (e b : Nat) : Fetched s (s.startRelocation e b) := by
  unfold State.startRelocation
  have h := takeFresh_fetched e (stackOf b) (decide (allBlocks ≤ b)) ((s.flash e).weak.length + 1) s
  unfold State.takeSpare
  split
  next hs => rw [hs] at h; exact h
  next hs =>
    rw [hs] at h
    exact h.trans ((((setBlock_fetched b rfl).trans (.counts rfl)).trans (bumpClass_fetched ..)).trans (.schedule _ _ fun _ => Instr.noConfusion))
theorem countPage_fetched (s : State) (e pp : Nat) : Fetched s (s.countPage e pp) := by
  have h (n m : Nat) : Fetched s ((s.setFlash e { s.flash e with count := tset (s.flash e).count (pp / 256) m }).bumpClass e (pp / 256) 32 32 n) :=
    Fetched.trans (.setFlash rfl) (bumpClass_fetched ..)
  unfold State.countPage
  exact .ite ((h _ _).trans (startRelocation_fetched ..)) (h _ _)
theorem countRead_fetched (s : State) (e pp : Nat) : Fetched s (s.countRead e pp) := by
  unfold State.countRead
  exact .ite ((Fetched.foldl (fun s q => countPage_fetched s e q) _ s).trans (bumpClass_fetched ..)) (countPage_fetched ..)
theorem countPlaces_fetched (s : State) (c : Nat) (ps : List (Place × Nat)) : Fetched s (s.countPlaces c ps) := by
  unfold State.countPlaces
  refine (Fetched.foldl (fun s p => countRead_fetched s _ _) _ s).trans (.foldl (fun s p => ?_) _ _)
  split
  · exact .of_noted (Noted.trans (noteTraffic_noted ..) (touch_noted ..))
  · exact .refl s
theorem beginWalk_fetched (s : State) (d : Nat) (w : Nat × Nat × Nat) : Fetched s (s.beginWalk d w) :=
  Fetched.trans (t := s.setDie d { s.die d with walks := (s.die d).walks ++ [w] }) (.setDie rfl rfl rfl) (.schedule _ _ fun _ => Instr.noConfusion)
theorem startWalk_fetched (s : State) (d q p vpn : Nat) : Fetched s (s.startWalk d q p vpn) :=
  .ite (.refl s) (.ite (beginWalk_fetched ..) (.setDie rfl rfl rfl))
theorem engineTranslate_fetched (s : State) (x : Ctx) (a : Acc) (va : W64) : Fetched s (s.engineTranslate x a va).1 := by
  unfold State.engineTranslate
  split
  · split
    · exact .refl s
    · exact .refl s
    · exact startWalk_fetched ..
  · exact .refl s
theorem engPieces_fetched (x : Ctx) (l : Overlap) (a : Acc) (rs : List (Nat × Nat)) : ∀ s : State, Fetched s (s.engPieces x l a rs).state := by
  induction rs with
  | nil => exact .refl
  | cons r rs ih =>
    intro s
    unfold State.engPieces
    have h := engineTranslate_fetched s x a (BitVec.ofNat 64 r.1)
    dsimp only
    split
    next hp =>
      rw [hp] at h
      split
      · exact h
      · exact h
      · refine h.trans ?_
        have hr := ih (by assumption)
        split
        next heq => rw [heq] at hr; exact hr
        next heq => rw [heq] at hr; exact hr
      · refine h.trans ?_
        have hr := ih (by assumption)
        split
        next heq => rw [heq] at hr; exact hr
        next heq => rw [heq] at hr; exact hr
    next hp => rw [hp] at h; exact h
theorem engReads_fetched (s : State) (x : Ctx) (l : Overlap) (a : Acc) (rs : List (Nat × Nat)) : Fetched s (s.engReads x l a rs).state := by
  unfold State.engReads
  have h := engPieces_fetched x l a (rs.flatMap fun r => cuts r.1 r.2) s
  split
  next heq => rw [heq] at h; exact h
  next heq =>
    rw [heq] at h
    exact (h.trans (countPlaces_fetched ..)).trans (.ite (.refl _) (.counts rfl))
theorem engRead_fetched (s : State) (x : Ctx) (l : Overlap) (a : Acc) (va : W64) (n : Nat) : Fetched s (s.engRead x l a va n).state := engReads_fetched ..
theorem engPlaces_fetched (x : Ctx) (a : Acc) (ws : List (Nat × List Byte)) : ∀ s : State, Fetched s (s.engPlaces x a ws).state := by
  induction ws with
  | nil => exact .refl
  | cons w ws ih =>
    intro s
    unfold State.engPlaces
    have h := engineTranslate_fetched s x a (BitVec.ofNat 64 w.1)
    dsimp only
    split
    next hp =>
      rw [hp] at h
      refine h.trans ?_
      have hr := ih (by assumption)
      rw [apply_ite Eng.state]
      refine .ite (.refl _) ?_
      split
      next heq => rw [heq] at hr; exact hr
      next heq => rw [heq] at hr; exact hr
    next hp => rw [hp] at h; exact h
end Sys2Proof.Machine
end

section
/-! What the work of the units leaves unchanged. -/
namespace Sys2Proof.Machine
open Sys2Proof

/-! ### What the work of the units leaves unchanged -/

/-- Units have worked: bytes, the quads, walks, tiles, commands, the flash, and counts have changed, and events have been added. -/
structure Worked (s t : State) : Prop where
  eq : t = { s with mem := t.mem, quads := t.quads, dies := t.dies, agenda := t.agenda, fresh := t.fresh, hot := t.hot, pchan := t.pchan
                    pchanUsed := t.pchanUsed, busyTill := t.busyTill, health := t.health, hclass := t.hclass, owed := t.owed }
  dies : ∀ d, t.die d = { s.die d with walks := (t.die d).walks, waitq := (t.die d).waitq, tiles := (t.die d).tiles, att := (t.die d).att
                                       rte := (t.die d).rte, flash := (t.die d).flash, errCorrected := (t.die d).errCorrected }
  later : ∀ e, e ∈ s.agenda → e ∈ t.agenda
  slices : ∀ d n, (n, Instr.sliceEnd d) ∈ t.agenda → (n, Instr.sliceEnd d) ∈ s.agenda
theorem Fetched.worked {s t : State} (h : Fetched s t) : Worked s t := by
  refine ⟨h.eq.trans (by rw [h.eq]), fun d => (h.dies d).trans (by rw [h.dies d]), h.later, h.slices⟩
namespace Worked
theorem refl (s : State) : Worked s s := (Fetched.refl s).worked
theorem trans {s t u : State} (h : Worked s t) (g : Worked t u) : Worked s u :=
  ⟨by rw [g.eq, h.eq], fun d => by rw [g.dies, h.dies], fun e he => g.later e (h.later e he), fun d n he => h.slices d n (g.slices d n he)⟩
theorem ite {s t u : State} {c : Prop} [Decidable c] (h : Worked s t) (g : Worked s u) : Worked s (if c then t else u) := by
  split
  · exact h
  · exact g
theorem foldl {α : Type} {f : State → α → State} (h : ∀ s a, Worked s (f s a)) (l : List α) : ∀ s : State, Worked s (l.foldl f s) := by
  induction l with
  | nil => exact refl
  | cons a l ih => exact fun s => (h s a).trans (ih (f s a))
/-- Bytes and the quads alone have changed, and counts of the package. -/
theorem quads {s t : State} (h : t = { s with mem := t.mem, quads := t.quads, fresh := t.fresh, hot := t.hot, pchan := t.pchan
                                              pchanUsed := t.pchanUsed, busyTill := t.busyTill, health := t.health, hclass := t.hclass, owed := t.owed }) :
    Worked s t := by
  have hd : t.dies = s.dies := by rw [h]
  have ha : t.agenda = s.agenda := by rw [h]
  have hdie (d : Nat) : t.die d = s.die d := congrArg (fun x => tgetD x d ({} : Die)) hd
  exact ⟨h.trans (by rw [hd, ha]), fun d => by rw [hdie], fun e he => ha ▸ he, fun d n he => ha ▸ he⟩
theorem schedule (s : State) (dt : Nat) {i : Instr} (h : ∀ d, i ≠ .sliceEnd d) : Worked s (s.schedule dt i) := (Fetched.schedule s dt h).worked
theorem scheduleOnce (s : State) (dt : Nat) {i : Instr} (h : ∀ d, i ≠ .sliceEnd d) : Worked s (s.scheduleOnce dt i) := .ite (.refl s) (.schedule s dt h)
theorem scheduleBy (s : State) (dt : Nat) {i : Instr} (h : ∀ d, i ≠ .sliceEnd d) : Worked s (s.scheduleBy dt i) := .ite (.refl s) (.schedule s dt h)
theorem setDie {s : State} {d : Nat} {x : Die}
    (hx : x = { s.die d with walks := x.walks, waitq := x.waitq, tiles := x.tiles, att := x.att, rte := x.rte, flash := x.flash
                             errCorrected := x.errCorrected }) : Worked s (s.setDie d x) := by
  have hd (e : Nat) : (s.setDie d x).die e = if d = e then x else s.die e := State.die_setDie ..
  refine ⟨rfl, fun e => ?_, fun e he => he, fun d n he => he⟩
  rw [hd]
  split
  next h => subst h; exact hx
  · rfl
theorem setFlash (s : State) (e : Nat) (f : Flash) : Worked s (s.setFlash e f) := setDie rfl
variable {s t : State} (h : Worked s t)
include h
theorem cores : t.cores = s.cores := by rw [h.eq]
theorem core (c : Nat) : t.core c = s.core c := by rw [h.eq]; rfl
theorem parts : t.parts = s.parts := by rw [h.eq]
theorem part (p : Nat) : t.part p = s.part p := by rw [h.eq]; rfl
theorem clk : t.clk = s.clk := by rw [h.eq]
theorem reqs : t.reqs = s.reqs := by rw [h.eq]
end Worked

/-! ### Engine writes -/

theorem reach_worked (s : State) (pa : Nat) : Worked s (s.reach pa) := (Fetched.of_noted (reach_noted s pa)).worked
theorem enterPath_worked (s : State) (c p eng pa : Nat) (b : List Byte) : Worked s (s.enterPath c p eng pa b) := by
  unfold State.enterPath
  refine .trans ?_ (reach_worked ..)
  have h (u : State) (n : Nat) : Worked u (u.schedule n (.storePerformed (c / 4))) := .schedule _ _ fun _ => Instr.noConfusion
  exact Worked.trans (.quads rfl) (h (s.setQuad (c / 4) _) _)
theorem storePhys_worked (s : State) (c p eng pa : Nat) (b : List Byte) : Worked s (s.storePhys c p eng pa b) := .ite (.quads rfl) (enterPath_worked ..)
theorem writeTile_worked (s : State) (d ix o : Nat) (b : List Byte) : Worked s (s.writeTile d ix o b) := by
  unfold State.writeTile
  dsimp only
  split
  · exact .setDie rfl
  · exact .refl s
theorem noteSlots_worked (s : State) (p va n : Nat) : Worked s (s.noteSlots p va n) := by
  rw [noteSlots_dies]
  refine .ite (.refl s) ⟨rfl, fun d => ?_, fun e he => he, fun d n he => he⟩
  have hd : State.die { s with dies := s.dies.map fun e => (e.1, e.2.slotsNoting p va n) } d = (s.die d).slotsNoting p va n :=
    tgetD_map (Die.slotsNoting p va n) s.dies d {}
  rw [hd]
  rfl
theorem settle_worked (s : State) (x : Ctx) (l : Overlap) (va : Nat) (p : Place) (b : List Byte) : Worked s (s.settle x l va p b).1 := by
  unfold State.settle
  dsimp only
  rw [apply_ite Prod.fst]
  exact .ite (.refl s) ((noteSlots_worked ..).trans (.quads rfl))
theorem putRuns_worked (x : Ctx) (eng : Nat) (p : Place) (rs : List (Nat × List Byte)) : ∀ s : State, Worked s (s.putRuns x eng p rs) := by
  induction rs with
  | nil => exact .refl
  | cons r rs ih =>
    intro s
    cases p with
    | phys pa => exact (storePhys_worked ..).trans (ih _)
    | host o => exact (storePhys_worked ..).trans (ih _)
    | tile d ix g o => exact (writeTile_worked ..).trans (ih _)
    | flash e o => exact ih s
theorem engPut_worked (x : Ctx) (eng : Nat) (l : Overlap) (ps : List (Nat × Place × List Byte)) : ∀ s : State, Worked s (s.engPut x eng l ps) := by
  induction ps with
  | nil => exact .refl
  | cons p ps ih => exact fun s => ((settle_worked ..).trans (putRuns_worked ..)).trans (ih _)
theorem engWrites_worked (s : State) (x : Ctx) (eng : Nat) (sh : Bool) (l : Overlap) (ws : List (Nat × List Byte)) :
    Worked s (s.engWrites x eng sh l ws).state := by
  unfold State.engWrites
  have h := engPlaces_fetched x (.dst sh) (ws.flatMap fun w => byteCuts w.1 w.2) s
  split
  next heq => rw [heq] at h; exact h.worked
  next heq => rw [heq] at h; exact h.worked.trans (engPut_worked ..)
theorem devWrite_worked (s : State) (d p va : Nat) (b : List Byte) : Worked s (s.devWrite d p va b).1 := by
  unfold State.devWrite
  have h := engWrites_worked s (schedCtx d p) 17 false {} [(va, b)]
  split
  next heq => rw [heq] at h; exact h
  next heq => rw [heq] at h; exact h.trans (.quads rfl)
  next heq => rw [heq] at h; exact h

/-! ### Units that turn to their work -/

theorem startCopies_worked (s : State) (q h : Nat) : Worked s (s.startCopies q h) :=
  Worked.trans (t := s.setQuad q _) (.quads rfl) (.foldl (fun _ _ => .schedule _ _ fun _ => Instr.noConfusion) _ _)
theorem kickCopies_worked (s : State) (q : Nat) : Worked s (s.kickCopies q) := .foldl (fun s (h : Nat × List CopyCmd) => startCopies_worked s q h.1) _ s
theorem settleArr_worked (s : State) (q : Nat) : Worked s (s.settleArr q) := .quads rfl
theorem lookMatrix_worked (s : State) (q : Nat) : Worked s (s.lookMatrix q) := by
  unfold State.lookMatrix
  dsimp only
  split
  · exact settleArr_worked ..
  · refine (settleArr_worked s q).trans (.ite (.refl _) ?_)
    split
    · exact .scheduleBy _ _ fun _ => Instr.noConfusion
    · exact .refl _
theorem wakeMatrix_worked (s : State) (q : Nat) : Worked s (s.wakeMatrix q) :=
  Worked.trans (t := s.setArr q _) (.quads rfl) (lookMatrix_worked ..)
theorem updAtt_worked (s : State) (d e id : Nat) (f : AttCmd → Option AttCmd) : Worked s (s.updAtt d e id f) := .setDie rfl
theorem kickAtt_worked (s : State) (d e : Nat) (last : Option Nat) : Worked s (s.kickAtt d e last) := by
  unfold State.kickAtt
  refine .ite (.refl s) ?_
  split
  · exact .refl s
  · exact (updAtt_worked ..).trans (.schedule _ _ fun _ => Instr.noConfusion)
theorem updRte_worked (s : State) (d id : Nat) (f : RteCmd → Option RteCmd) : Worked s (s.updRte d id f) := .setDie rfl
theorem kickRte_worked (s : State) (d : Nat) : Worked s (s.kickRte d) := .ite (.refl s) (.scheduleOnce _ _ fun _ => Instr.noConfusion)
theorem kickStack_worked (s : State) (e st dt : Nat) : Worked s (s.kickStack e st dt) := by
  unfold State.kickStack
  refine .ite (.refl s) ?_
  split
  · exact .refl s
  · exact (Worked.setFlash ..).trans (.schedule _ _ fun _ => Instr.noConfusion)
theorem kickFlash_worked (s : State) (e : Nat) : Worked s (s.kickFlash e) := .foldl (fun s st => kickStack_worked s e st 5640) _ s
theorem kickLands_worked (s : State) (p : Nat) : Worked s (s.kickLands p) := by
  refine .foldl (fun s r => ?_) s.reqs s
  obtain ⟨id, r⟩ := r
  cases r with
  | land d ix =>
    dsimp only
    split
    · exact .ite (.scheduleOnce _ _ fun _ => Instr.noConfusion) (.refl s)
    · exact .refl s
  | _ => exact .refl s
theorem kickDie_worked (s : State) (d : Nat) : Worked s (s.kickDie d) := by
  unfold State.kickDie
  dsimp only
  generalize hu : s.quads.foldl _ s = u
  have hs : Worked s u := hu ▸ .foldl (fun s q => .ite ((kickCopies_worked ..).trans (wakeMatrix_worked ..)) (.refl s)) _ s
  refine hs.trans ?_
  generalize hv : (u.die d).att.foldl _ u = v
  have hw : Worked u v := hv ▸ .foldl (fun s e => kickAtt_worked ..) _ u
  refine hw.trans ?_
  generalize hx : (v.kickRte d).scheduleOnce 0 (.taskDispatch d) = x
  have hx' : Worked v x := hx ▸ (kickRte_worked ..).trans (.scheduleOnce _ _ fun _ => Instr.noConfusion)
  refine hx'.trans ?_
  generalize hy : (x.die d).runs.foldl _ x = y
  have hy' : Worked x y := hy ▸ .foldl (fun s _ => .schedule _ _ fun _ => Instr.noConfusion) _ x
  refine hy'.trans ((Worked.foldl (fun s p => kickLands_worked s p) allParts y).trans ?_)
  exact .ite (kickFlash_worked ..) (.refl _)
end Sys2Proof.Machine
end

section
/-! What reading a task's record and inserting it leave unchanged. -/
namespace Sys2Proof.Machine
open Sys2Proof

/-! ### What reading a record and inserting it leave unchanged (R340) -/

theorem Fetched.andThen {α β : Type} {s : State} {e : Eng α} {f : State → α → Eng β} (h : Fetched s e.state) (hf : ∀ t v, Fetched t (f t v).state) :
    Fetched s (e.andThen f).state := by
  cases e with
  | ok t v => exact h.trans (hf t v)
  | stop t w => exact h
theorem Fetched.orElse {α : Type} {s : State} {e : Eng α} (v : α) (h : Fetched s e.state) : Fetched s (e.orElse v).state := by
  cases e with
  | ok t x => exact h
  | stop t w => cases w <;> exact h
theorem imageRead_fetched (s : State) (d p va n : Nat) : Fetched s (s.imageRead d p va n).state := engRead_fetched ..
theorem readRegions_fetched (d p a inst : Nat) (n : Nat) : ∀ (s : State) (i : Nat), Fetched s (s.readRegions d p a inst n i).state := by
  induction n with
  | zero => exact fun s _ => .refl s
  | succ n ih => exact fun s i => .andThen (imageRead_fetched ..) fun t b => .andThen (ih t (i + 1)) fun u r => .refl u
theorem readNode_fetched (s : State) (d p tmpl node inst : Nat) : Fetched s (s.readNode d p tmpl node inst).state := by
  unfold State.readNode
  split
  · exact .refl s
  · refine .orElse _ (.andThen (imageRead_fetched ..) fun t h => ?_)
    rw [apply_ite Eng.state]
    exact .ite (.refl t) (.andThen (imageRead_fetched ..) fun u b => .andThen (readRegions_fetched ..) fun v r => .refl v)
theorem checkRecord_fetched (s : State) (p d : Nat) (r : List Byte) : Fetched s (s.checkRecord p d r).state := by
  unfold State.checkRecord
  rw [apply_ite Eng.state]
  exact .ite (.refl s) (.andThen (readNode_fetched ..) fun t n => .refl t)

/-- A record has been inserted: its ring entry is written, and stands in the ring of its partition. -/
structure Inserted (s t : State) (p : Nat) : Prop where
  eq : t = { s with mem := t.mem, dies := t.dies, parts := t.parts, agenda := t.agenda, nextId := t.nextId }
  parts : ∀ q, t.part q = { s.part q with ring := (t.part q).ring, late := (t.part q).late }
  others : ∀ q, q ≠ p → t.part q = s.part q
  later : ∀ e, e ∈ s.agenda → e ∈ t.agenda
theorem Inserted.refl (s : State) (p : Nat) : Inserted s s p := ⟨rfl, fun _ => rfl, fun _ _ => rfl, fun _ h => h⟩
theorem insertTask_inserted (s : State) (p d : Nat) (r : List Byte) (n : Node) (start : W64) (launch : Option Nat) :
    Inserted s (s.insertTask p d r n start launch).state p := by
  unfold State.insertTask
  dsimp only
  rw [apply_ite Eng.state]
  split
  · exact .refl s p
  · split
    · exact .refl s p
    · exact .refl s p
    next pa _ =>
      dsimp only [Eng.state]
      generalize hw : State.setPart _ p _ = w
      have h : Inserted s w p := by
        subst hw
        refine ⟨rfl, fun q => ?_, fun q hq => ?_, fun e he => he⟩
        · rw [State.part_setPart]
          split
          next h => subst h; rfl
          · rfl
        · rw [State.part_setPart_other _ _ (Ne.symm hq)]
          rfl
      split
      · exact ⟨by rw [h.eq]; rfl, fun q => h.parts q, fun q hq => h.others q hq, fun e he => mem_schedule.2 (.inr (h.later e he))⟩
      · exact h
/-- Units have worked and tasks have been inserted. -/
structure Loaded (s t : State) : Prop where
  eq : t = { s with mem := t.mem, quads := t.quads, dies := t.dies, parts := t.parts, agenda := t.agenda, nextId := t.nextId, fresh := t.fresh
                    hot := t.hot, pchan := t.pchan, pchanUsed := t.pchanUsed, busyTill := t.busyTill, health := t.health, hclass := t.hclass
                    owed := t.owed }
  later : ∀ e, e ∈ s.agenda → e ∈ t.agenda
theorem Worked.loaded {s t : State} (h : Worked s t) : Loaded s t := ⟨h.eq.trans (by rw [h.eq]), h.later⟩
theorem Inserted.loaded {s t : State} {p : Nat} (h : Inserted s t p) : Loaded s t := ⟨h.eq.trans (by rw [h.eq]), h.later⟩
namespace Loaded
theorem refl (s : State) : Loaded s s := (Worked.refl s).loaded
theorem trans {s t u : State} (h : Loaded s t) (g : Loaded t u) : Loaded s u := ⟨by rw [g.eq, h.eq], fun e he => g.later e (h.later e he)⟩
variable {s t : State} (h : Loaded s t)
include h
theorem core (c : Nat) : t.core c = s.core c := by rw [h.eq]; rfl
theorem svqBase : t.svqBase = s.svqBase := by rw [h.eq]
theorem svqHead : t.svqHead = s.svqHead := by rw [h.eq]
theorem svPart : t.svPart = s.svPart := by rw [h.eq]; rfl
theorem beacon : t.beacon = s.beacon := by rw [h.eq]; rfl
end Loaded
theorem insertHandler_loaded {s u : State} {d i : Nat} (h : s.insertHandler d i = some u) : Loaded s u := by
  unfold State.insertHandler at h
  dsimp only at h
  have hc := (checkRecord_fetched s s.svPart d (handlerRecord s.svcfg (classOf d) i s.svPart)).worked.loaded
  split at h
  next heq =>
    cases h
    rw [heq] at hc
    exact hc
  next t n heq =>
    rw [heq] at hc
    have hi := (insertTask_inserted t t.svPart d (handlerRecord s.svcfg (classOf d) i s.svPart) n 0 none).loaded
    split at h
    next heq =>
      cases h
      rw [heq] at hi
      exact hc.trans hi
    · cases h
  · cases h
end Sys2Proof.Machine
end

section
/-! Halts, records, slices, pre-emption and bring-up (R356, R379 to R389, R400, R401). -/
namespace Sys2Proof.Machine
open Sys2Proof

/-! ### The halt and the resumption of a partition (R379, R382) -/

theorem tset_keeps {α : Type} {d : α} (f : α → α) (k : Nat) (t : Tbl α) : ∀ e, e ∈ t → (e ∈ tset t k (f (tgetD t k d)) ∨ (e.1, f e.2) ∈ tset t k (f (tgetD t k d))) := by
  induction t with
  | nil => exact fun e he => (nomatch he)
  | cons x t ih =>
    obtain ⟨j, w⟩ := x
    intro e he
    unfold tset
    split
    · exact .inl (.tail _ he)
    split
    next h =>
      subst h
      rw [tgetD, tget_cons, if_pos rfl]
      rcases List.mem_cons.1 he with rfl | he
      · exact .inr (.head _)
      · exact .inl (.tail _ he)
    next h =>
      rw [tgetD, tget_cons, if_neg (Ne.symm h)]
      rcases List.mem_cons.1 he with rfl | he
      · exact .inl (.head _)
      · exact (ih e he).imp (.tail _) (.tail _)
/-- A core that stops works for its partition still. -/
theorem mem_unitsOf_stopped {s : State} {p c : Nat} {u : Nat × Nat} (h : u ∈ s.unitsOf p) : u ∈ (s.setCore c { s.core c with stopped := true }).unitsOf p := by
  unfold State.unitsOf State.liveUnits at h ⊢
  dsimp only at h ⊢
  simp only [List.mem_eraseDups, List.mem_append, List.mem_map, List.mem_filter] at h ⊢
  refine h.imp_left (.imp_left ?_)
  repeat refine .imp_left ?_
  rintro ⟨e, ⟨he, ht⟩, rfl⟩
  rcases tset_keeps (d := {}) (fun k => { k with stopped := true }) c s.cores e he with h1 | h1
  · exact ⟨e, ⟨h1, ht⟩, rfl⟩
  · exact ⟨_, ⟨h1, ht⟩, rfl⟩
/-- A fault of a unit in a partition that runs is heard by every unit that works for it. -/
theorem unitHalt_heard {s : State} {p : Nat} (k i : Nat) (f : FaultInfo) (m : CmdInfo) (h : (s.part p).pstate = 0) :
    ((s.unitHalt p k i f m).part p).pstate = 1
    ∧ ∀ u, u ∈ s.unitsOf p → (s.clk + 120, Instr.haltLineArrives p u.1 u.2) ∈ (s.unitHalt p k i f m).agenda := by
  unfold State.unitHalt
  dsimp only
  rw [if_neg (by omega)]
  split
  · have hb := assertHalt_begins (code := f.code) (sub := f.sub) (d := unitDie (k, i)) (.inl h)
    exact ⟨congrArg Part.pstate hb.halting, hb.heard⟩
  · generalize hx : ({ s.part p with unitFault := (s.part p).unitFault ++ [(k, i, f, m)] } : Part) = x
    have hp : (s.setPart p x).part p = x := State.part_setPart_same ..
    have hb := assertHalt_begins (s := s.setPart p x) (p := p) (code := f.code) (sub := f.sub) (d := unitDie (k, i)) (.inl (by rw [hp, ← hx]; exact h))
    refine ⟨congrArg Part.pstate hb.halting, fun u hu => hb.heard u ?_⟩
    unfold State.unitsOf at hu ⊢
    simp only [List.mem_eraseDups, List.mem_append] at hu ⊢
    rw [hp, ← hx]
    refine hu.imp_right fun hu => ?_
    obtain ⟨e, he, rfl⟩ := List.mem_map.1 hu
    obtain ⟨he, hk⟩ := List.mem_filter.1 he
    exact List.mem_map.2 ⟨e, List.mem_filter.2 ⟨List.mem_append_left _ he, hk⟩, rfl⟩
theorem pstateHalt_halts {s : State} {p : Nat} (h : (s.part p).pstate = 0) :
    ((s.pstateHalt p).part p).pstate = 1 ∧ (∀ x, x ∈ s.unitsOf p → (s.clk + 120, Instr.haltLineArrives p x.1 x.2) ∈ (s.pstateHalt p).agenda)
    ∧ (p = s.myPart → (s.pstateHalt p).me.stopped = true)
    ∧ (p ≠ s.myPart → (s.pstateHalt p).cores = s.cores ∧ (s.unitsOf p = [] → (s.clk + 120, Instr.halted p) ∈ (s.pstateHalt p).agenda)) := by
  rw [State.pstateHalt, if_pos h, State.haltPart, if_neg (by omega)]
  by_cases hp : p = s.myPart
  · rw [if_pos hp]
    have hh : (s.coreHalt s.cur ⟨22, 0, 0, 0⟩).me = { s.me with stopped := true } := (coreHalt_halts s ⟨22, 0, 0, 0⟩).me
    have hu : s.coreHalt s.cur ⟨22, 0, 0, 0⟩ = (s.setCore s.cur { s.core s.cur with stopped := true }).unitHalt p 0 s.cur ⟨22, 0, 0, 0⟩ := by rw [hp]; rfl
    obtain ⟨h1, h2⟩ := unitHalt_heard (s := s.setCore s.cur { s.core s.cur with stopped := true }) (p := p) 0 s.cur ⟨22, 0, 0, 0⟩ ⟨0, 0, 0xFFFFFFFF, 0, 0⟩ h
    rw [← hu] at h1 h2
    exact ⟨h1, fun x hx => h2 x (mem_unitsOf_stopped hx), fun _ => by rw [hh], fun hn => absurd hp hn⟩
  · rw [if_neg hp]
    have hb := assertHalt_begins (code := 22) (sub := 0) (d := s.myDie) (.inl h)
    refine ⟨congrArg Part.pstate hb.halting, hb.heard, fun he => absurd he hp, fun _ => ⟨(assertHalt_only ..).cores, fun hn => ?_⟩⟩
    unfold State.assertHalt
    dsimp only
    rw [if_pos (.inl h), hn]
    exact mem_schedule.2 (.inl rfl)
theorem pstateResume_resumes {s : State} {p : Nat} (h : (s.part p).pstate = 2) :
    ((s.pstateResume p).part p).pstate = 0
    ∧ ∀ c k, tget s.cores c = some k → k.task.isSome = true → k.part = p → ((s.pstateResume p).core c).stopped = false := by
  unfold State.pstateResume
  dsimp only
  rw [if_neg (not_not.2 h)]
  generalize hu : State.mapSaved _ _ = u
  have hw : Worked u ((List.range 6).foldl State.kickDie u) := .foldl kickDie_worked _ u
  refine ⟨?_, fun c k hk ht hp => ?_⟩
  · rw [hw.part, ← hu]
    exact congrArg Part.pstate (State.part_setPart_same s p _)
  · rw [hw.core, ← hu]
    have hc : ∀ t : Tbl Core, tget t c = some k → (tgetD (t.map fun e : Nat × Core =>
        if e.2.task.isSome ∧ e.2.part = p then (e.1, { e.2 with stopped := false, nextClk := max e.2.nextClk (s.clk + 1) }) else e) c {}).stopped = false := by
      intro t
      induction t with
      | nil => exact fun h => (nomatch h)
      | cons e t ih =>
        intro he
        rw [tget_cons] at he
        split at he
        next hj =>
          cases he
          rw [List.map_cons, if_pos ⟨ht, hp⟩, tgetD, tget_cons, if_pos hj]
        next hj =>
          rw [List.map_cons, tgetD, tget_cons]
          split
          next heq =>
            rw [if_neg (by split <;> exact hj)] at heq
            have := ih he
            rwa [tgetD, heq] at this
          next => rfl
    exact hc s.cores hk

/-! ### Parties that a record names, and records (R384, R385) -/

theorem noteEnded_core (s : State) (l : Option Nat) (tag : Nat) (c : Nat) : (s.noteEnded l tag).core c = s.core c := by
  unfold State.noteEnded State.statusWrite
  split
  · rfl
  · split
    · rfl
    · exact (devWrite_worked ..).core c
theorem endHeld_ends {s : State} {c p : Nat} (hp : (s.core c).part = p) (ht : (s.core c).task.isSome = true) :
    ((s.endHeld c p).core c).held = none ∧ ((s.core c).coop = false → ((s.endHeld c p).core c).post = .suspend 5 0 0 0) := by
  unfold State.endHeld
  dsimp only
  rw [if_pos ⟨hp, ht⟩]
  obtain ⟨u, hu⟩ := Option.isSome_iff_exists.1 ht
  rw [hu]
  dsimp only
  rw [noteEnded_core, State.core_setCore_same]
  refine ⟨rfl, fun hc => ?_⟩
  unfold State.endArrives
  rw [if_neg (ne_true_of_eq_false hc)]
  rfl

theorem recordWrite_none {s : State} {d : Nat} (h : (s.die d).recs = []) : s.recordWrite d = s := by
  unfold State.recordWrite
  dsimp only
  rw [h]
/-- A die's oldest record leaves; the next one is looked at in the next clock. -/
def State.popRecord (s : State) (d : Nat) (rs : List (List Byte × Option Party)) : State :=
  let s := s.setDie d { s.die d with recs := rs }
  if rs.isEmpty then s else s.scheduleOnce 1 (.svqRecordWrite d)
theorem popRecord_pops (s : State) (d : Nat) (rs : List (List Byte × Option Party)) :
    ((s.popRecord d rs).die d).recs = rs ∧ s.popRecord d rs = { s with dies := (s.popRecord d rs).dies, agenda := (s.popRecord d rs).agenda } := by
  have h : ((s.setDie d { s.die d with recs := rs }).die d).recs = rs := congrArg Die.recs (State.die_setDie_same ..)
  unfold State.popRecord State.scheduleOnce
  dsimp only
  split
  · exact ⟨h, rfl⟩
  · split
    · exact ⟨h, rfl⟩
    · exact ⟨h, rfl⟩
section
variable {s : State} {d : Nat} {r : List Byte} {who : Option Party} {rs : List (List Byte × Option Party)} (h : (s.die d).recs = (r, who) :: rs)
include h
theorem recordWrite_invalid (hv : s.svValid = false) : s.recordWrite d = s.popRecord d rs := by
  unfold State.recordWrite
  dsimp only
  rw [h]
  dsimp only
  rw [hv]
  exact if_pos rfl
theorem recordWrite_full (hv : s.svValid = true) (hf : (s.svqHead - s.svqTail).toNat = 2 ^ bits s.svqBase 4 0) :
    s.recordWrite d = s.scheduleOnce 64 (.svqRecordWrite d) := by
  unfold State.recordWrite
  dsimp only
  rw [h]
  dsimp only
  rw [hv]
  exact (if_neg Bool.false_ne_true).trans (if_pos hf)
/-- The record has been written behind the records of the queue, and its party is noted. -/
def State.recorded (s w : State) (who : Option Party) : State :=
  { w with parties := who.elim (tdel w.parties s.svqHead.toNat) (tset w.parties s.svqHead.toNat), svqHead := s.svqHead + 1 }
theorem recordWrite_written {u w : State} (hv : s.svValid = true) (hf : (s.svqHead - s.svqTail).toNat ≠ 2 ^ bits s.svqBase 4 0)
    (hu : s.insertHandler d s.svqHead.toNat = some u)
    (hw : u.engWrites (schedCtx d s.svPart) 17 false {}
      [(bits s.svqBase 63 12 * 4096 + 64 * (s.svqHead.toNat % 2 ^ bits s.svqBase 4 0), r.take 56 ++ leBytes 8 s.beacon.toNat)] = .ok w ()) :
    s.recordWrite d = (s.recorded w who).popRecord d rs := by
  have hl := insertHandler_loaded hu
  have hh : w.svqHead = s.svqHead := by
    have h0 := engWrites_worked u (schedCtx d s.svPart) 17 false {}
      [(bits s.svqBase 63 12 * 4096 + 64 * (s.svqHead.toNat % 2 ^ bits s.svqBase 4 0), r.take 56 ++ leBytes 8 s.beacon.toNat)]
    rw [hw] at h0
    exact h0.loaded.svqHead.trans hl.svqHead
  unfold State.recordWrite
  dsimp only
  rw [h]
  dsimp only
  rw [hv]
  refine (if_neg Bool.false_ne_true).trans ((if_neg hf).trans ?_)
  rw [hu]
  dsimp only
  rw [hl.svPart, hl.beacon, hl.svqBase, hl.svqHead, hw]
  dsimp only
  rw [hh]
  cases who <;> rfl
theorem recordWrite_notes {u w : State} (hv : s.svValid = true) (hf : (s.svqHead - s.svqTail).toNat ≠ 2 ^ bits s.svqBase 4 0)
    (hu : s.insertHandler d s.svqHead.toNat = some u)
    (hw : u.engWrites (schedCtx d s.svPart) 17 false {}
      [(bits s.svqBase 63 12 * 4096 + 64 * (s.svqHead.toNat % 2 ^ bits s.svqBase 4 0), r.take 56 ++ leBytes 8 s.beacon.toNat)] = .ok w ()) :
    ((s.recordWrite d).die d).recs = rs ∧ (s.recordWrite d).svqHead = s.svqHead + 1 ∧ (s.recordWrite d).mem = w.mem
    ∧ (s.recordWrite d).quads = w.quads ∧ tget (s.recordWrite d).parties s.svqHead.toNat = who := by
  rw [recordWrite_written h hv hf hu hw]
  obtain ⟨h1, h2⟩ := popRecord_pops (s.recorded w who) d rs
  refine ⟨h1, by rw [h2]; rfl, by rw [h2]; rfl, by rw [h2]; rfl, ?_⟩
  rw [h2]
  cases who with
  | none => exact tget_tdel_same _ _
  | some p => exact tget_tset_same _ _ _
end

/-! ### The halt, unit by unit (R379, R380) -/

section
/-! A translation asks the cores for nothing but the walks that have failed for them (R105). -/
variable {s : State} {cs : Tbl Core} (h : ∀ c, (tgetD cs c {}).walked = (s.core c).walked)
include h
theorem viaTables_cores : ({ s with cores := cs } : State).viaTables = s.viaTables := by
  funext x a va p
  unfold State.viaTables
  rw [show (({ s with cores := cs } : State).core x.core).walked = (s.core x.core).walked from h x.core]
  rfl
theorem viaFixed_cores (x : Ctx) (a : Acc) (o : Nat) : ({ s with cores := cs } : State).viaFixed x a o = s.viaFixed x a o := by
  have hp : ({ s with cores := cs } : State).part = s.part := rfl
  have ht := viaTables_cores h
  unfold State.viaFixed
  generalize ({ s with cores := cs } : State).part = p at hp
  generalize ({ s with cores := cs } : State).viaTables = t at ht
  subst hp ht
  rfl
theorem beyondWindows_cores (x : Ctx) (a : Acc) (va : Nat) : ({ s with cores := cs } : State).beyondWindows x a va = s.beyondWindows x a va := by
  have hp : ({ s with cores := cs } : State).viaPairs x a va = s.viaPairs x a va := by
    unfold State.viaPairs
    rw [viaTables_cores h]
    rfl
  unfold State.beyondWindows
  rw [viaFixed_cores h, hp]
  rfl
theorem rowEntry_cores (x : Ctx) (w : Window) (i : Nat) : ({ s with cores := cs } : State).rowEntry x w i = s.rowEntry x w i := by
  unfold State.rowEntry
  rw [beyondWindows_cores h]
  rfl
theorem translate_cores (x : Ctx) (a : Acc) (va : W64) : ({ s with cores := cs } : State).translate x a va = s.translate x a va := by
  have hw : ∀ w va, ({ s with cores := cs } : State).viaWindow x a w va = s.viaWindow x a w va := fun w va => by
    unfold State.viaWindow
    rw [rowEntry_cores h, viaTables_cores h]
    rfl
  unfold State.translate
  simp only [hw, beyondWindows_cores h]
  rfl
theorem ringRead_cores (d p ent off n : Nat) : ({ s with cores := cs } : State).ringRead d p ent off n = s.ringRead d p ent off n := by
  unfold State.ringRead State.ringPa
  rw [show ({ s with cores := cs } : State).svPart = s.svPart from rfl, translate_cores h]
  rfl
end
theorem stoppable_stopped (s : State) (p c : Nat) : (s.setCore c { s.core c with stopped := true }).stoppable p 0 c = s.stoppable p 0 c := by
  have hr (d p ent off n : Nat) : (s.setCore c { s.core c with stopped := true }).ringRead d p ent off n = s.ringRead d p ent off n := by
    refine ringRead_cores (fun j => ?_) d p ent off n
    rw [tgetD_tset]
    split
    next h => subst h; rfl
    · rfl
  unfold State.stoppable State.saveable
  dsimp only
  simp only [State.core_setCore_same, hr]
  rfl
theorem saveUnit_engine (s : State) (p ix : Nat) {kind : Nat} (h : kind ≠ 0) : s.saveUnit p kind ix = s := if_neg fun g => h g.1
section
variable {s : State} {p kind ix : Nat} {h : Halt} (hh : (s.part p).halt = some h) (hp : (s.part p).pstate = 1) (hm : (kind, ix) ∈ h.left)
include hh

theorem haltLine_idle (hn : (s.part p).pstate ≠ 1 ∨ (kind, ix) ∉ h.left) : s.haltLine p kind ix = s := by
  unfold State.haltLine
  rw [hh]
  refine if_pos ?_
  rcases hn with hn | hn
  · rw [decide_eq_true hn, Bool.true_or]
  · rw [show h.left.contains (kind, ix) = false from Bool.eq_false_iff.2 fun hc => hn (List.contains_iff_mem.1 hc), Bool.not_false, Bool.or_true]
include hp hm
theorem haltLine_eq : s.haltLine p kind ix =
    if kind = 0 ∧ (s.core ix).part = p ∧ (s.core ix).endsCommand = true then s.schedule 1 (.haltLineArrives p kind ix)
    else
      let s := if kind = 0 ∧ (s.core ix).part = p then s.setCore ix { s.core ix with stopped := true } else s
      if (!s.stoppable p kind ix) = true then s.schedule 16 (.haltLineArrives p kind ix)
      else
        let works := (s.unitsOf p).contains (kind, ix)
        let s := if kind = 2 then s.settleArr ix else s
        let s := if works then (s.queueRecord (unitDie (kind, ix)) (s.stopRecord p kind ix) none).saveUnit p kind ix else s
        let left := h.left.filter (· != (kind, ix))
        let s := s.setPart p { s.part p with halt := some { h with left := left, done := if works then h.done ++ [(kind, ix)] else h.done } }
        if left.isEmpty then s.schedule 1 (.halted p) else s := by
  unfold State.haltLine
  rw [hh]
  refine if_neg ?_
  rw [hp, List.contains_iff_mem.2 hm]
  decide
theorem haltLine_core (h0 : kind = 0) (hc : (s.core ix).part = p) :
    ((s.core ix).endsCommand = true → s.haltLine p kind ix = s.schedule 1 (.haltLineArrives p kind ix))
    ∧ ((s.core ix).endsCommand = false → s.stoppable p kind ix = false →
        s.haltLine p kind ix = (s.setCore ix { s.core ix with stopped := true }).schedule 16 (.haltLineArrives p kind ix)) := by
  rw [haltLine_eq hh hp hm]
  refine ⟨fun he => if_pos ⟨h0, hc, he⟩, fun he hst => Eq.trans (if_neg fun g => ne_true_of_eq_false he g.2.2) ?_⟩
  dsimp only
  rw [if_pos (show kind = 0 ∧ (s.core ix).part = p from ⟨h0, hc⟩)]
  subst h0
  exact if_pos (by rw [stoppable_stopped, hst]; rfl)
theorem haltLine_unit (h0 : kind ≠ 0) (hst : s.stoppable p kind ix = true) :
    ((s.haltLine p kind ix).part p).halt
      = some { h with left := h.left.filter (· != (kind, ix)), done := if (kind, ix) ∈ s.unitsOf p then h.done ++ [(kind, ix)] else h.done }
    ∧ (s.haltLine p kind ix).cores = s.cores
    ∧ ((s.haltLine p kind ix).die (unitDie (kind, ix))).recs.length = (s.die (unitDie (kind, ix))).recs.length + (if (kind, ix) ∈ s.unitsOf p then 1 else 0)
    ∧ ((∀ u, u ∈ h.left → u = (kind, ix)) → (s.clk + 1, Instr.halted p) ∈ (s.haltLine p kind ix).agenda) := by
  rw [haltLine_eq hh hp hm, if_neg fun g => h0 g.1]
  dsimp only
  rw [if_neg fun g : kind = 0 ∧ (s.core ix).part = p => h0 g.1, hst, saveUnit_engine _ _ _ h0, if_neg (by decide)]
  have hw : Worked s (if kind = 2 then s.settleArr ix else s) := .ite (settleArr_worked ..) (.refl s)
  revert hw
  generalize (if kind = 2 then s.settleArr ix else s) = w
  intro hw
  have hd := congrArg Die.recs (hw.dies (unitDie (kind, ix)))
  have hl (hu : ∀ u, u ∈ h.left → u = (kind, ix)) : (h.left.filter (· != (kind, ix))).isEmpty = true := by
    rw [List.isEmpty_iff, List.filter_eq_nil_iff]
    intro u hu'
    rw [hu u hu']
    simp
  have ht {t : State} (ht : t.clk = s.clk) (hu : ∀ u, u ∈ h.left → u = (kind, ix)) :
      (s.clk + 1, Instr.halted p) ∈ (if (h.left.filter (· != (kind, ix))).isEmpty then t.schedule 1 (.halted p) else t).agenda := by
    rw [if_pos (hl hu), ← ht]
    exact mem_schedule.2 (.inl rfl)
  have hk {α : Type} (f : State → α) (t : State) (hf : f (t.schedule 1 (.halted p)) = f t) :
      f (if (h.left.filter (· != (kind, ix))).isEmpty then t.schedule 1 (.halted p) else t) = f t := by
    split
    · exact hf
    · rfl
  by_cases hu : (kind, ix) ∈ s.unitsOf p
  · rw [List.contains_iff_mem.2 hu, if_pos rfl, if_pos rfl, if_pos hu, if_pos hu]
    refine ⟨(hk (fun t => (t.part p).halt) _ rfl).trans (congrArg Part.halt (State.part_setPart_same ..)), (hk State.cores _ rfl).trans hw.cores,
      (hk (fun t => (t.die (unitDie (kind, ix))).recs.length) _ rfl).trans ?_, ht hw.clk⟩
    rw [← hd]
    exact (congrArg (fun x : Die => x.recs.length) (State.die_setDie_same w (unitDie (kind, ix)) _)).trans (List.length_append ..)
  · rw [show (s.unitsOf p).contains (kind, ix) = false from Bool.eq_false_iff.2 fun hc => hu (List.contains_iff_mem.1 hc), if_neg Bool.false_ne_true, if_neg Bool.false_ne_true,
      if_neg hu, if_neg hu]
    exact ⟨(hk (fun t => (t.part p).halt) _ rfl).trans (congrArg Part.halt (State.part_setPart_same ..)), (hk State.cores _ rfl).trans hw.cores,
      (hk (fun t => (t.die (unitDie (kind, ix))).recs.length) _ rfl).trans (by rw [← hd]; rfl), ht hw.clk⟩
end
section
variable {s : State} {p : Nat} {h : Halt} (hh : (s.part p).halt = some h)
include hh
theorem closeHalt_idle (hn : (s.part p).pstate ≠ 1 ∨ h.left ≠ []) : s.closeHalt p = s := by
  unfold State.closeHalt
  dsimp only
  rw [hh]
  refine if_pos ?_
  rcases hn with hn | hn
  · rw [decide_eq_true hn, Bool.true_or]
  · rw [show h.left.isEmpty = false from Bool.eq_false_iff.2 fun hc => hn (List.isEmpty_iff.1 hc), Bool.not_false, Bool.or_true]
variable (hp : (s.part p).pstate = 1) (hl : h.left = []) (hv : s.svValid = false)
include hp hl hv
theorem closeHalt_closing (hc : h.closing = true) : s.closeHalt p = s.setPart p { s.part p with pstate := 2, halt := none, unitFault := [] } := by
  unfold State.closeHalt
  dsimp only
  rw [hh]
  dsimp only
  rw [hl, hp, hv, hc]
  rfl
theorem closeHalt_last (hc : h.closing = false) (hd : ∀ u, u ∈ s.unitsOf p → u ∈ h.done) (he : ∀ e, e ∈ (s.part p).unitFault → e.1 ≠ 8) :
    s.closeHalt p = ((s.setPart p { s.part p with halt := some { h with closing := true } }).queueRecord h.die
      (record 24 h.code 8 p 0 h.die 0 0 0 0 0 [] 0xFFFFFFFF 0 s.beacon) none).schedule 1 (.halted p) := by
  have hlate : ((s.unitsOf p).filter fun u => !h.done.contains u) = [] :=
    List.filter_eq_nil_iff.2 fun u hu => by rw [List.contains_iff_mem.2 (hd u hu)]; decide
  have hf : ((s.part p).unitFault.find? fun e => e.1 == 8) = none := List.find?_eq_none.2 fun e hm g => he e hm (eq_of_beq g)
  unfold State.closeHalt
  dsimp only
  rw [hh]
  dsimp only
  rw [hl, hp, hv, hc, hlate, hf]
  rfl
end

/-! ### Slices (R356, R357, R389) -/

/-- A die has a valid slice entry. -/
def State.sliced (s : State) (d i : Nat) : Bool := bit (tgetD s.slices (16 * d + i) 0) 16
theorem nextSlice_none {s : State} {d : Nat} (k : Nat) (h : ∀ i, i < 16 → s.sliced d i = false) : s.nextSlice d k = none := by
  refine List.findSome?_eq_none_iff.2 fun i hi => if_neg ?_
  obtain ⟨j, -, rfl⟩ := List.mem_map.1 hi
  exact ne_true_of_eq_false (h _ (Nat.mod_lt _ (by decide)))
theorem nextSlice_first {s : State} {d i : Nat} (hi : i < 16) (hl : ∀ j, j < i → s.sliced d j = false) (hv : s.sliced d i = true) :
    s.nextSlice d 15 = some (i, tgetD s.slices (16 * d + i) 0) := by
  unfold State.nextSlice
  rw [show ((List.range 16).map fun i => (15 + 1 + i) % 16) = List.range 16 from by decide]
  refine List.findSome?_eq_some_iff.2 ⟨List.range i, i, (List.range (15 - i)).map (i + 1 + ·), ?_, if_pos hv, fun j hj => ?_⟩
  · rw [show 16 = i + 1 + (15 - i) from by omega, List.range_add, List.range_succ]
    simp
  · exact if_neg (ne_true_of_eq_false (hl j (List.mem_range.1 hj)))
theorem sliceCount_one {s : State} {d i : Nat} (hi : i < 16) (hv : s.sliced d i = true) (ho : ∀ j, j < 16 → j ≠ i → s.sliced d j = false) :
    s.sliceCount d = 1 := by
  have h : ((List.range 16).filter fun j => sliceValid (tgetD s.slices (16 * d + j) 0)) = (List.range 16).filter (· == i) := by
    refine List.filter_congr fun j hj => ?_
    by_cases hji : j = i
    · rw [hji, beq_self_eq_true]; exact hv
    · rw [beq_eq_false_iff_ne.2 hji]; exact ho j (List.mem_range.1 hj) hji
  rw [State.sliceCount, h, List.filter_beq, List.length_replicate]
  exact List.count_eq_one_of_mem List.nodup_range (List.mem_range.2 hi)
theorem sliceCount_several {s : State} {d i j : Nat} (hi : i < 16) (hv : s.sliced d i = true) (hj : j < 16) (hn : j ≠ i) (hw : s.sliced d j = true) :
    s.sliceCount d ≠ 1 := by
  intro h
  obtain ⟨a, ha⟩ := List.length_eq_one_iff.1 h
  have hm {k : Nat} (hk : k < 16) (hs : s.sliced d k = true) : k = a :=
    List.mem_singleton.1 (ha ▸ List.mem_filter.2 ⟨List.mem_range.2 hk, hs⟩)
  exact hn ((hm hj hw).trans (hm hi hv).symm)
theorem sliceEnd_none {s : State} {d : Nat} (hp : (s.die d).pre = none) (h : ∀ i, i < 16 → s.sliced d i = false) :
    ((s.sliceEnd d).die d).slice = none ∧ ((s.sliceEnd d).die d).pre = none ∧ ∀ e, e ∈ (s.sliceEnd d).agenda → e.2 ≠ .sliceEnd d := by
  have he : s.sliceEnd d = s.endSlices d := by
    unfold State.sliceEnd
    dsimp only
    rw [hp, nextSlice_none _ h]
    rfl
  rw [he, State.endSlices]
  generalize hu : State.setDie _ d _ = u
  have hw := kickDie_worked u d
  have hd : u.die d = { s.die d with slice := none, outs := [] } := by rw [← hu, State.die_setDie_same]
  refine ⟨by rw [hw.dies, hd], by rw [hw.dies, hd]; exact hp, fun e hm hs => ?_⟩
  obtain ⟨n, i⟩ := e
  subst hs
  have hm := hw.slices d n hm
  rw [← hu] at hm
  have := (List.mem_filter.1 hm).2
  simp at this
section
variable {s : State} {d i : Nat} (hp : (s.die d).pre = none) (hs : (s.die d).slice = none) (hi : i < 16)
  (hl : ∀ j, j < i → s.sliced d j = false) (hv : s.sliced d i = true)
include hp hs hi hl hv
theorem sliceEnd_begins (ho : s.outgoing d (bits (tgetD s.slices (16 * d + i) 0) 20 17) = none ∨ ∀ j, j < 16 → j ≠ i → s.sliced d j = false) :
    s.sliceEnd d = s.beginSlice d i (bits (tgetD s.slices (16 * d + i) 0) 20 17) (tgetD s.slices (16 * d + i) 0) := by
  have hc : (if s.sliceCount d = 1 then none else s.outgoing d (bits (tgetD s.slices (16 * d + i) 0) 20 17)) = none := by
    rcases ho with ho | ho
    · rw [ho, ite_self]
    · exact if_pos (sliceCount_one hi hv ho)
  unfold State.sliceEnd
  dsimp only
  rw [hp, hs]
  refine (if_neg Bool.false_ne_true).trans ?_
  rw [show (if (none : Option Nat).isSome = true then (s.die d).sliceIx else 15) = 15 from rfl, nextSlice_first hi hl hv]
  dsimp only
  rw [hc]
theorem sliceEnd_preempts {q : Nat} (hj : ∃ j, j < 16 ∧ j ≠ i ∧ s.sliced d j = true)
    (ho : s.outgoing d (bits (tgetD s.slices (16 * d + i) 0) 20 17) = some q) :
    s.sliceEnd d = if !s.csaveOk q then s.schedule 64 (.sliceEnd d) else
      (s.dieUnits d q).foldl (fun (s : State) u => s.schedule 16 (.preemptionUnitSave d u.1 u.2))
        ((s.quads.foldl (fun (s : State) (y : Nat × Quad) => if dieOfQuad y.1 = d then s.settleArr y.1 else s) s).setDie d
          { (s.quads.foldl (fun (s : State) (y : Nat × Quad) => if dieOfQuad y.1 = d then s.settleArr y.1 else s) s).die d with
            pre := some ⟨q, s.dieUnits d q⟩ }) := by
  obtain ⟨j, hj, hn, hw⟩ := hj
  have hc : (if s.sliceCount d = 1 then none else s.outgoing d (bits (tgetD s.slices (16 * d + i) 0) 20 17)) = some q := by
    rw [if_neg (sliceCount_several hi hv hj hn hw), ho]
  unfold State.sliceEnd
  dsimp only
  rw [hp, hs]
  refine (if_neg Bool.false_ne_true).trans ?_
  rw [show (if (none : Option Nat).isSome = true then (s.die d).sliceIx else 15) = 15 from rfl, nextSlice_first hi hl hv]
  dsimp only
  rw [hc]
end
theorem beginSlice_begins (s : State) (d k p : Nat) (w : W64) :
    ((s.beginSlice d k p w).die d).slice = some p ∧ ((s.beginSlice d k p w).die d).sliceIx = k
    ∧ (s.clk + 940 * max 1 (bits w 15 0), Instr.sliceEnd d) ∈ (s.beginSlice d k p w).agenda := by
  unfold State.beginSlice
  dsimp only
  generalize (if s.sliceCount d = 1 then (s.die d).outs.filter (· != p) else allParts.filter (· != p)) = outs
  have hw := kickDie_worked (s.setDie d { s.die d with slice := some p, sliceIx := k, outs := outs }) d
  have hd := (hw.dies d)
  rw [State.die_setDie_same] at hd
  refine ⟨?_, ?_, ?_⟩
  · rw [State.die_schedule, hd]
  · rw [State.die_schedule, hd]
  · have hc : (State.kickDie (s.setDie d { s.die d with slice := some p, sliceIx := k, outs := outs }) d).clk = s.clk := hw.clk
    rw [← hc]
    exact mem_schedule.2 (.inl rfl)

/-! ### Pre-emption of a unit (R389) -/
section
variable {s : State} {d p kind ix : Nat} {us : List (Nat × Nat)} (hp : (s.die d).pre = some ⟨p, us⟩)
include hp
theorem preemptUnit_idle (hm : (kind, ix) ∉ us) : s.preemptUnit d kind ix = s := by
  have hc : ¬us.contains (kind, ix) = true := fun hc => hm (List.contains_iff_mem.1 hc)
  unfold State.preemptUnit
  rw [hp]
  dsimp only
  refine Eq.trans (if_neg fun g => hc g.1) ?_
  rw [if_neg fun g : us.contains (kind, ix) = true ∧ kind = 0 ∧ (s.core ix).part = p => hc g.1]
  exact if_pos (by rw [Bool.eq_false_iff.2 hc]; rfl)
variable (hm : (kind, ix) ∈ us)
include hm
theorem preemptUnit_core (h0 : kind = 0) (hc : (s.core ix).part = p) :
    ((s.core ix).endsCommand = true → s.preemptUnit d kind ix = s.schedule 1 (.preemptionUnitSave d kind ix))
    ∧ ((s.core ix).endsCommand = false → s.stoppable p kind ix = false →
        s.preemptUnit d kind ix = (s.setCore ix { s.core ix with stopped := true }).schedule 16 (.preemptionUnitSave d kind ix)) := by
  have hl := List.contains_iff_mem.2 hm
  unfold State.preemptUnit
  rw [hp]
  dsimp only
  refine ⟨fun he => if_pos ⟨hl, h0, hc, he⟩, fun he hst => Eq.trans (if_neg fun g => ne_true_of_eq_false he g.2.2.2) ?_⟩
  rw [if_pos (show us.contains (kind, ix) = true ∧ kind = 0 ∧ (s.core ix).part = p from ⟨hl, h0, hc⟩)]
  refine Eq.trans (if_neg (by rw [hl]; exact Bool.false_ne_true)) ?_
  subst h0
  exact if_pos (by rw [stoppable_stopped, hst]; rfl)
theorem preemptUnit_engine (h0 : kind ≠ 0) (hst : s.stoppable p kind ix = true) :
    ((s.preemptUnit d kind ix).die d).pre = some ⟨p, us.filter (· != (kind, ix))⟩ ∧ (s.preemptUnit d kind ix).cores = s.cores
    ∧ ((∀ u, u ∈ us → u = (kind, ix)) → (s.clk + 1, Instr.preemptionComplete d) ∈ (s.preemptUnit d kind ix).agenda) := by
  have hl := List.contains_iff_mem.2 hm
  unfold State.preemptUnit
  rw [hp]
  dsimp only
  rw [if_neg fun g => h0 g.2.1]
  rw [if_neg fun g : us.contains (kind, ix) = true ∧ kind = 0 ∧ (s.core ix).part = p => h0 g.2.1, hl, hst, saveUnit_engine _ _ _ h0,
    if_neg (by decide), if_neg (by decide)]
  have hd (x : Die) : ((s.setDie d x).die d) = x := State.die_setDie_same ..
  split
  · exact ⟨congrArg Die.pre (hd _), rfl, fun _ => mem_schedule.2 (.inl rfl)⟩
  next he =>
    refine ⟨congrArg Die.pre (hd _), rfl, fun hu => absurd ?_ he⟩
    rw [List.isEmpty_iff, List.filter_eq_nil_iff]
    intro u hu'
    rw [hu u hu']
    simp
end

/-! ### Power and bring-up (R400, R401) -/

theorem giveBack_fetched (s : State) (e b : Nat) : Fetched s (s.giveBack e b) := .ite (setBlock_fetched b rfl) (.refl s)
theorem giveSpares_fetched (s : State) : Fetched s s.giveSpares :=
  .foldl (fun s _ => .foldl (fun s b => giveBack_fetched s _ b) _ s) _ s
/-- What of the flash's contents survives. -/
theorem kept_bytes (t : Tbl Die) (e : Nat) :
    (tgetD (t.filterMap fun d : Nat × Die => if d.1 < 2 then none else some (d.1, { flash := d.2.flash.kept })) (2 + e) ({} : Die)).flash.bytes
      = (tgetD t (2 + e) ({} : Die)).flash.bytes
    ∧ (tgetD (t.filterMap fun d : Nat × Die => if d.1 < 2 then none else some (d.1, { flash := d.2.flash.kept })) (2 + e) ({} : Die)).flash.map
      = (tgetD t (2 + e) ({} : Die)).flash.map := by
  induction t with
  | nil => exact ⟨rfl, rfl⟩
  | cons x t ih =>
    obtain ⟨j, y⟩ := x
    rw [List.filterMap_cons]
    by_cases hj : j = 2 + e
    · subst hj
      rw [if_neg (by omega)]
      simp only [tgetD, tget_cons, if_pos]
      trivial
    · have hc : tgetD ((j, y) :: t) (2 + e) ({} : Die) = tgetD t (2 + e) {} := by rw [tgetD, tget_cons, if_neg hj]; rfl
      rw [hc]
      split
      next hn => exact ih
      next b hb =>
        split at hb
        · cases hb
        · cases hb
          rw [tgetD, tget_cons, if_neg hj]
          exact ih
theorem cold_flash (s : State) (e : Nat) : (s.cold.flash e).bytes = (s.flash e).bytes ∧ (s.cold.flash e).map = (s.flash e).map := by
  have hf := (giveSpares_fetched s).flash (2 + e)
  unfold State.cold
  revert hf
  dsimp only
  generalize s.giveSpares = g
  intro hf
  obtain ⟨h1, h2⟩ := kept_bytes g.dies e
  exact ⟨h1.trans (congrArg Flash.bytes hf : (g.die (2 + e)).flash.bytes = _), h2.trans (congrArg Flash.map hf : (g.die (2 + e)).flash.map = _)⟩
/-- The clock, the firmware slots and what is staged survive. -/
theorem cold_keeps (s : State) : s.cold.clk = s.clk ∧ s.cold.fwStaged = s.fwStaged ∧ s.cold.fwActive = s.fwActive := by
  have hg : s.giveSpares.clk = s.clk ∧ s.giveSpares.fwStaged = s.fwStaged ∧ s.giveSpares.fwActive = s.fwActive := by
    rw [(giveSpares_fetched s).eq]
    exact ⟨rfl, rfl, rfl⟩
  unfold State.cold
  revert hg
  generalize s.giveSpares = g
  exact id
theorem startBringup_flash (s : State) (e : Nat) : s.startBringup.flash e = s.flash e := rfl
theorem startBringup_agenda {s : State} (h : s.agenda = []) : s.startBringup.agenda = [(s.clk + 1880000000, Instr.bringupStageComplete true)] := by
  unfold State.startBringup State.schedule
  rw [h]
  rfl
section
variable {s : State} (hp : s.powered = true) (hr : s.ready = false) (hn : s.devStage < 6) (he : s.devError = 0)
theorem bringup_idle {ok : Bool} (h : s.powered = false ∨ s.ready = true ∨ 6 ≤ s.devStage ∨ s.devError ≠ 0) : s.bringup ok = s := by
  refine if_pos ?_
  rcases h with h | h | h | h
  all_goals simp [h]
include hp hr hn he
theorem bringup_fails {ok : Bool} (h : ok = false ∨ (s.devStage = 0 ∧ s.fwValid 0 = false ∧ s.fwValid 1 = false)) :
    s.bringup ok = { s with devError := stageError s.devStage } := by
  refine (if_neg ?_).trans (if_pos ?_)
  · simp [hp, hr, he, hn]
  · rcases h with h | ⟨h1, h2, h3⟩
    · simp [h]
    · simp [h1, h2, h3]
theorem bringup_goes (h : s.devStage ≠ 0 ∨ s.fwValid 0 = true ∨ s.fwValid 1 = true) :
    s.bringup true = if s.devStage = 5 then ({ s.stageDone s.devStage with devStage := s.devStage + 1 } : State).riseReady
      else ({ s.stageDone s.devStage with devStage := s.devStage + 1 } : State).schedule (stageBound (s.devStage + 1)) (.bringupStageComplete true) := by
  refine (if_neg ?_).trans (if_neg ?_)
  · simp [hp, hr, he, hn]
  · rcases h with h | h | h
    all_goals simp [h]
end
theorem stageDone_keeps (s : State) (n : Nat) : (s.stageDone n).ready = s.ready ∧ (s.stageDone n).clk = s.clk := by
  unfold State.stageDone
  split <;> exact ⟨rfl, rfl⟩
theorem riseReady_rises (s : State) : s.riseReady.ready = true ∧ s.riseReady.mem = s.mem ∧ s.riseReady.frame = 0 ∧ s.riseReady.tick = 0
    ∧ s.riseReady.devStage = s.devStage := by
  unfold State.riseReady State.scheduleOnce
  dsimp only
  generalize ({ s with ready := true, frame := 0, tick := 0, measure := List.replicate 32 0 } : State).agenda.any _ = b
  split <;> split <;> exact ⟨rfl, rfl, rfl, rfl, rfl⟩
theorem svackRelease_core {s : State} {ix c p : Nat} (hi : tget s.parties ix = some (.core c p)) (hp : (s.core c).part = p) (ht : (s.core c).task.isSome = true)
    (hh : (s.core c).held = some (2 ^ 32)) :
    s.svackRelease ix = { s with parties := tdel s.parties ix }.setCore c { s.core c with held := none, nextClk := max (s.core c).nextClk (s.clk + 1) } := by
  unfold State.svackRelease
  rw [hi]
  exact Eq.trans (if_pos ⟨hp, ht⟩) (if_pos hh)
theorem svackEnd_core {s : State} {ix c p : Nat} (hi : tget s.parties ix = some (.core c p)) :
    s.svackEnd ix = ({ s with parties := tdel s.parties ix } : State).endHeld c p := by
  unfold State.svackEnd
  rw [hi]
  rfl
theorem recordWrite_drops {s : State} {d : Nat} {r : List Byte × Option Party} {rs : List (List Byte × Option Party)} (h : (s.die d).recs = r :: rs)
    (hv : s.svValid = false) : ((s.recordWrite d).die d).recs = rs ∧ (s.recordWrite d).mem = s.mem ∧ (s.recordWrite d).svqHead = s.svqHead := by
  obtain ⟨r, who⟩ := r
  obtain ⟨h1, h2⟩ := popRecord_pops s d rs
  rw [recordWrite_invalid h hv]
  exact ⟨h1, by rw [h2], by rw [h2]⟩
/-- After a closing record the Sheepdog looks again in the next clock. -/
theorem closeHalt_ends {s : State} {p : Nat} {h : Halt} (hh : (s.part p).halt = some h) (hp : (s.part p).pstate = 1) (hl : h.left = [])
    (hv : s.svValid = false) :
    (h.closing = true → ((s.closeHalt p).part p).pstate = 2 ∧ ((s.closeHalt p).part p).halt = none ∧ ((s.closeHalt p).part p).unitFault = []
      ∧ (s.closeHalt p).dies = s.dies)
    ∧ (h.closing = false → (∀ u, u ∈ s.unitsOf p → u ∈ h.done) → (∀ e, e ∈ (s.part p).unitFault → e.1 ≠ 8) →
        ((s.closeHalt p).part p).halt = some { h with closing := true } ∧ ((s.closeHalt p).die h.die).recs.length = (s.die h.die).recs.length + 1
        ∧ (s.clk + 1, Instr.halted p) ∈ (s.closeHalt p).agenda) := by
  refine ⟨fun hc => ?_, fun hc hd he => ?_⟩
  · rw [closeHalt_closing hh hp hl hv hc, State.part_setPart_same]
    exact ⟨rfl, rfl, rfl, rfl⟩
  · rw [closeHalt_last hh hp hl hv hc hd he]
    refine ⟨congrArg Part.halt (State.part_setPart_same s p _), ?_, mem_schedule.2 (.inl rfl)⟩
    exact (congrArg (fun x : Die => x.recs.length) (State.die_setDie_same (s.setPart p _) h.die _)).trans (List.length_append ..)
theorem preemptDone_last {s : State} {d p : Nat} (h : (s.die d).pre = some ⟨p, []⟩) :
    s.preemptDone d = (s.setDie d { s.die d with pre := none, outs := if p ∈ (s.die d).outs then (s.die d).outs else (s.die d).outs ++ [p] }).sliceEnd d := by
  unfold State.preemptDone
  dsimp only
  rw [h]
  dsimp only
  by_cases hm : p ∈ (s.die d).outs
  · rw [if_pos (List.contains_iff_mem.2 hm), if_pos hm]
  · rw [if_neg fun g => hm (List.contains_iff_mem.1 g), if_neg hm]
theorem sliceEnd_saves {s : State} {d i q : Nat} (hp : (s.die d).pre = none) (hs : (s.die d).slice = none) (hi : i < 16)
    (hl : ∀ j, j < i → s.sliced d j = false) (hv : s.sliced d i = true) (hj : ∃ j, j < 16 ∧ j ≠ i ∧ s.sliced d j = true)
    (ho : s.outgoing d (bits (tgetD s.slices (16 * d + i) 0) 20 17) = some q) :
    (s.csaveOk q = false → s.sliceEnd d = s.schedule 64 (.sliceEnd d))
    ∧ (s.csaveOk q = true → ((s.sliceEnd d).die d).pre = some ⟨q, s.dieUnits d q⟩ ∧ ((s.sliceEnd d).die d).slice = none
        ∧ ∀ x, x ∈ s.dieUnits d q → (s.clk + 16, Instr.preemptionUnitSave d x.1 x.2) ∈ (s.sliceEnd d).agenda) := by
  rw [sliceEnd_preempts hp hs hi hl hv hj ho]
  refine ⟨fun hc => if_pos (by rw [hc]; rfl), fun hc => ?_⟩
  rw [if_neg (by rw [hc]; decide)]
  have hw : Worked s (s.quads.foldl (fun (s : State) (y : Nat × Quad) => if dieOfQuad y.1 = d then s.settleArr y.1 else s) s) :=
    .foldl (fun s y => .ite (settleArr_worked ..) (.refl s)) _ s
  revert hw
  generalize s.quads.foldl _ s = w
  intro hw
  obtain ⟨h1, h2, -⟩ := foldl_schedule 16 (fun u : Nat × Nat => Instr.preemptionUnitSave d u.1 u.2) (s.dieUnits d q)
    (w.setDie d { w.die d with pre := some ⟨q, s.dieUnits d q⟩ })
  have hd : (w.setDie d { w.die d with pre := some ⟨q, s.dieUnits d q⟩ }).die d = { w.die d with pre := some ⟨q, s.dieUnits d q⟩ } := State.die_setDie_same ..
  have hc : (w.setDie d { w.die d with pre := some ⟨q, s.dieUnits d q⟩ }).clk = s.clk := hw.clk
  refine ⟨?_, ?_, fun x hx => hc ▸ h2 x hx⟩
  · rw [h1]
    exact congrArg Die.pre hd
  · rw [h1]
    exact (congrArg Die.slice hd).trans ((congrArg Die.slice (hw.dies d)).trans hs)

/-- The state that a power-up leaves. -/
def State.poweredUp (s : State) : State :=
  if s.powered then s
    else
      let s := s.cold
      { s with fwActive := if s.fwStaged then 1 - s.fwActive else s.fwActive, fwStaged := false }.startBringup
theorem powerUp_cold {s : State} (h : s.powered = false) :
    s.poweredUp.powered = true ∧ s.poweredUp.ready = false ∧ s.poweredUp.devStage = 0 ∧ s.poweredUp.agenda = [(s.clk + 1880000000, Instr.bringupStageComplete true)]
    ∧ s.poweredUp.fwStaged = false ∧ s.poweredUp.fwActive = if s.fwStaged then 1 - s.fwActive else s.fwActive := by
  obtain ⟨hclk, hst, hact⟩ := cold_keeps s
  have hr : s.cold.ready = false := rfl
  have ha : s.cold.agenda = [] := rfl
  unfold State.poweredUp
  rw [if_neg (ne_true_of_eq_false h), ← hst, ← hact, ← hclk]
  revert hr ha
  generalize s.cold = c
  intro hr ha
  exact ⟨rfl, hr, rfl, startBringup_agenda ha, rfl, rfl⟩
theorem powerOff_cold (s : State) :
    s.cold.powered = false ∧ s.cold.ready = false ∧ s.cold.mem = [] ∧ s.cold.cores = [] ∧ s.cold.parts = [] ∧ s.cold.agenda = [] :=
  ⟨rfl, rfl, rfl, rfl, rfl, rfl⟩
/-- The state that a CXL reset leaves. -/
def State.coldReset (s : State) : State := if s.powered then s.cold.startBringup else s
theorem cxlReset_cold {s : State} (h : s.powered = true) :
    s.coldReset.powered = true ∧ s.coldReset.ready = false ∧ s.coldReset.devStage = 0 ∧ s.coldReset.mem = [] ∧ s.coldReset.cores = []
    ∧ s.coldReset.parts = [] := by
  rw [State.coldReset, if_pos h]
  exact ⟨rfl, rfl, rfl, rfl, rfl, rfl⟩
theorem bringup_ends {s : State} (hp : s.powered = true) (hr : s.ready = false) (hn : s.devStage < 6) (he : s.devError = 0)
    (h : s.devStage ≠ 0 ∨ s.fwValid 0 = true ∨ s.fwValid 1 = true) :
    (s.bringup true).devStage = s.devStage + 1
    ∧ (s.devStage < 5 → (s.bringup true).ready = false
        ∧ (s.clk + stageBound (s.devStage + 1), Instr.bringupStageComplete true) ∈ (s.bringup true).agenda)
    ∧ (s.devStage = 5 → (s.bringup true).ready = true ∧ (s.bringup true).mem = [] ∧ (s.bringup true).frame = 0 ∧ (s.bringup true).tick = 0) := by
  rw [bringup_goes hp hr hn he h]
  obtain ⟨h1, h2⟩ := stageDone_keeps s s.devStage
  by_cases h5 : s.devStage = 5
  · rw [if_pos h5]
    obtain ⟨r1, r2, r3, r4, r5⟩ := riseReady_rises { s.stageDone s.devStage with devStage := s.devStage + 1 }
    refine ⟨r5, fun hlt => absurd h5 (by omega), fun _ => ⟨r1, r2.trans ?_, r3, r4⟩⟩
    rw [h5]
    rfl
  · rw [if_neg h5]
    refine ⟨rfl, fun _ => ⟨h1.trans hr, ?_⟩, fun h => absurd h h5⟩
    rw [← h2]
    exact mem_schedule.2 (.inl rfl)

/-- Settles O59, clause by clause from the equations of each event. -/
theorem supervisorEvents : Obligations.SupervisorEvents := by
  intro s
  refine ⟨fun p => ?_, fun ix => ?_, fun d => ?_, fun p kind ix => ?_, fun p => ?_, fun d => ?_, fun d kind ix => ?_, ?_, fun ok => ?_⟩
  · exact ⟨_, _, rfl, rfl, fun h => if_neg h, fun h => if_pos h, pstateHalt_halts, pstateResume_resumes⟩
  · refine ⟨_, _, rfl, rfl, fun h => ?_, fun e lp h => ?_, fun c p h hp ht hh => ⟨svackRelease_core h hp ht hh, ?_⟩⟩
    · rw [State.svackRelease, State.svackEnd, h]
      exact ⟨rfl, rfl⟩
    · rw [State.svackRelease, h]
    · rw [svackEnd_core h]
      exact endHeld_ends (s := { s with parties := tdel s.parties ix }) hp ht
  · refine ⟨_, rfl, recordWrite_none, fun r rs h hv => recordWrite_drops h hv, fun r rs h hv hf => recordWrite_full (r := r.1) (who := r.2) h hv hf,
      fun r who rs u w h hv hf hu hw => recordWrite_notes h hv hf hu ?_⟩
    rw [leBytes_eq]
    exact hw
  · refine ⟨_, rfl, fun h => ?_, fun h hh hm => haltLine_idle hh (.inr hm), fun h hh hp hm h0 hst => haltLine_unit hh hp hm h0 hst, fun h hh hp hm h0 hc => ?_⟩
    · by_cases hn : (s.part p).halt = none
      · rw [State.haltLine, hn]
      · obtain ⟨x, hx⟩ := Option.ne_none_iff_exists'.1 hn
        exact haltLine_idle hx (.inl (h.resolve_left hn))
    · obtain ⟨h1, h2⟩ := haltLine_core hh hp hm h0 hc
      refine ⟨fun he => ?_, fun he hst => ?_⟩
      · rw [h1 he]
        exact ⟨rfl, rfl, mem_schedule.2 (.inl rfl)⟩
      · rw [h2 he hst]
        exact ⟨by rw [State.core_schedule, State.core_setCore_same], mem_schedule.2 (.inl rfl)⟩
  · refine ⟨_, rfl, fun h => ?_, fun h hh hl => closeHalt_idle hh (.inr hl), fun h hh hp hl hv => closeHalt_ends hh hp hl hv⟩
    by_cases hn : (s.part p).halt = none
    · rw [State.closeHalt, hn]
    · obtain ⟨x, hx⟩ := Option.ne_none_iff_exists'.1 hn
      exact closeHalt_idle hx (.inl (h.resolve_left hn))
  · refine ⟨_, _, rfl, rfl, fun h => if_pos h, fun h => ?_, fun p x xs h => ?_, fun p h => ?_, sliceEnd_none, fun i w q hp hs hi hl hw hv hj ho => ?_,
      fun i w hp hs hi hl hw hv ho => ?_⟩
    · rw [State.preemptDone, h]
    · rw [State.preemptDone, h]
    · rw [preemptDone_last h]
      rfl
    · subst hw
      exact sliceEnd_saves hp hs hi hl hv hj ho
    · subst hw
      rw [sliceEnd_begins hp hs hi hl hv ho]
      exact beginSlice_begins ..
  · refine ⟨_, rfl, fun h => ?_, fun p us h hm => preemptUnit_idle h hm, fun p us h hm h0 hst => preemptUnit_engine h hm h0 hst, fun p us h hm h0 hc => ?_⟩
    · rw [State.preemptUnit, h]
    · obtain ⟨h1, h2⟩ := preemptUnit_core h hm h0 hc
      refine ⟨fun he => ?_, fun he hst => ?_⟩
      · rw [h1 he]
        exact ⟨rfl, rfl, mem_schedule.2 (.inl rfl)⟩
      · rw [h2 he hst]
        exact ⟨by rw [State.core_schedule, State.core_setCore_same], mem_schedule.2 (.inl rfl)⟩
  · refine ⟨s.poweredUp, s.cold, s.coldReset, rfl, rfl, rfl, fun h => if_pos h, fun h => if_neg (ne_true_of_eq_false h), powerUp_cold, powerOff_cold s, cxlReset_cold,
      fun e => ⟨(cold_flash s e).1, (cold_flash s e).2, fun h => ?_⟩⟩
    rw [State.coldReset, if_pos h, startBringup_flash]
    exact (cold_flash s e).1
  · exact ⟨_, rfl, bringup_idle, fun hp hr hn he => ⟨fun h => bringup_fails hp hr hn he h, fun hok h => hok ▸ bringup_ends hp hr hn he h⟩⟩
end Sys2Proof.Machine
end

section
/-! Proofs about commands to attention, routing and the Pointer (R89 to R91, R268, R272, R284). -/
namespace Sys2Proof.Machine
open Sys2Proof

/-! ### What counting a read changes (R119 to R122) -/

/-- A read of the physical map has been counted. -/
structure Counted (s u : State) : Prop where
  eq : u = { s with dies := u.dies, agenda := u.agenda, hot := u.hot, pchan := u.pchan, pchanUsed := u.pchanUsed, busyTill := u.busyTill }
  dies : ∀ d, u.die d = { s.die d with errCorrected := (u.die d).errCorrected }
namespace Counted
theorem refl (s : State) : Counted s s := ⟨rfl, fun _ => rfl⟩
theorem trans {s t u : State} (h : Counted s t) (g : Counted t u) : Counted s u := ⟨by rw [g.eq, h.eq], fun d => by rw [g.dies, h.dies]⟩
theorem ite {s t u : State} {c : Prop} [Decidable c] (h : Counted s t) (g : Counted s u) : Counted s (if c then t else u) := by
  split
  · exact h
  · exact g
variable {s u : State} (h : Counted s u)
include h
theorem me : u.me = s.me := by rw [h.eq]; rfl
theorem cur : u.cur = s.cur := by rw [h.eq]
theorem myDie : u.myDie = s.myDie := by rw [h.eq]; rfl
theorem myPart : u.myPart = s.myPart := by rw [h.eq]; rfl
theorem nextId : u.nextId = s.nextId := by rw [h.eq]
end Counted
theorem reach_counted (s : State) (pa : Nat) : Counted s (s.reach pa) := by
  unfold State.reach
  dsimp only
  split
  · exact .refl s
  · split
    · exact ⟨rfl, fun _ => rfl⟩
    · exact ⟨rfl, fun _ => rfl⟩
theorem touch_counted (s : State) (pa n : Nat) : Counted s (s.touch pa n) := by
  refine .ite (.refl s) (.ite (reach_counted s pa) (.trans (reach_counted s pa) ⟨rfl, fun d => ?_⟩))
  rw [State.die_setDie]
  split
  next h => subst h; rfl
  · rfl
theorem noteTraffic_counted (s : State) (c pa n : Nat) : Counted s (s.noteTraffic c pa n) := .ite (.refl s) ⟨rfl, fun _ => rfl⟩
theorem countSpan_counted {s : State} {va : W64} {pa : Nat} {leaf : W64} (ht : s.translate s.ctx .load va = .at_ (.phys pa) leaf) (h : Spec.sound s pa 64) :
    Counted s (s.countSpan va 64) := by
  have hl := readLines_phys (s := s) (fun _ : Unit => (va, 64)) (fun _ => pa) (fun _ => leaf) [()] fun _ _ => ⟨ht, h⟩
  have hr : (List.range (cdiv 64 64)).map (fun i => (va + BitVec.ofNat 64 (64 * i), min 64 (64 - 64 * i))) = [(va, 64)] := by
    rw [show cdiv 64 64 = 1 from rfl]
    exact congrArg (fun x => [(x, 64)]) (BitVec.add_zero va)
  unfold State.countSpan
  rw [hr, show [(va, 64)] = [()].map (fun _ => (va, 64)) from rfl, hl]
  exact (noteTraffic_counted ..).trans (touch_counted ..)

/-! ### Descriptors (R271) -/

theorem descriptor_misaligned {s : State} {va : W64} (h : va.toNat % 64 ≠ 0) : s.descriptor va = .stop (fault alignment 0 va) := if_pos h
theorem descriptor_reads {s : State} {va : W64} {d : List Byte} {lat : Nat} (h : Spec.Reads s va d lat) :
    s.descriptor va = .ok (d, lat) ∧ Counted s (s.countSpan va 64) := by
  obtain ⟨h0, pa, leaf, ht, hs, rfl, rfl⟩ := h
  refine ⟨?_, countSpan_counted ht hs⟩
  unfold State.descriptor
  rw [if_neg (not_not.2 h0), readVa_phys ht hs]
theorem stall_counted {s u : State} (h : Counted s u) (d : Nat) (x : Die) (lat : Nat) :
    (u.setDie d x).stall lat = (u.setDie d x).setMe { s.me with dyn := s.me.dyn + lat } := by
  rw [← h.me]
  rfl

section
variable {s : State} {a : Fin 64}
theorem kvagEffect_misaligned (g : Fin 16) (h : (s.me.sreg a.val).toNat % 64 ≠ 0) : kvagEffect s a g = fault alignment 0 (s.me.sreg a.val) := by
  rw [kvagEffect, descriptor_misaligned h]
theorem kvagEffect_invalid {d : List Byte} {lat : Nat} (g : Fin 16) (h : Spec.Reads s (s.me.sreg a.val) d lat) (hk : kvOf d = none) :
    kvagEffect s a g = fault invalidOperand := by
  rw [kvagEffect, (descriptor_reads h).1]
  dsimp only
  rw [hk]
theorem kvagEffect_loads {d : List Byte} {lat : Nat} {k : KvGen} (g : Fin 16) (h : Spec.Reads s (s.me.sreg a.val) d lat) (hk : kvOf d = some k) :
    kvagEffect s a g = .ok (((s.countSpan (s.me.sreg a.val) 64).setDie s.myDie
      { (s.countSpan (s.me.sreg a.val) 64).die s.myDie with kvs := tset (s.die s.myDie).kvs (16 * s.myPart + g.val) k }).setMe
        { s.me with dyn := s.me.dyn + lat }) := by
  obtain ⟨hd, hc⟩ := descriptor_reads h
  rw [kvagEffect, hd]
  dsimp only
  rw [hk]
  dsimp only
  rw [stall_counted hc, hc.myDie, hc.myPart, show ((s.countSpan (s.me.sreg a.val) 64).die s.myDie).kvs = (s.die s.myDie).kvs by rw [hc.dies]]
theorem ptrldEffect_misaligned (b : Fin 64) (h : (s.me.sreg a.val).toNat % 64 ≠ 0) : ptrldEffect s a b = fault alignment 0 (s.me.sreg a.val) := by
  rw [ptrldEffect, descriptor_misaligned h]
theorem ptrldEffect_invalid {b : Fin 64} {d : List Byte} {lat : Nat} (h : Spec.Reads s (s.me.sreg a.val) d lat)
    (hk : layerOf d = none ∨ 256 ≤ (s.me.sreg b.val).toNat) : ptrldEffect s a b = fault invalidOperand := by
  rw [ptrldEffect, (descriptor_reads h).1]
  dsimp only
  rcases hl : layerOf d with _ | y
  · rfl
  · exact if_pos (hk.resolve_left (by rw [hl]; exact Option.some_ne_none y))
theorem ptrldEffect_loads {b : Fin 64} {d : List Byte} {lat : Nat} {y : PtrLayer} (h : Spec.Reads s (s.me.sreg a.val) d lat) (hk : layerOf d = some y)
    (hn : (s.me.sreg b.val).toNat < 256) :
    ptrldEffect s a b = .ok (((s.countSpan (s.me.sreg a.val) 64).setDie s.myDie
      { (s.countSpan (s.me.sreg a.val) 64).die s.myDie with layers := tset (s.die s.myDie).layers (s.me.sreg b.val).toNat y }).setMe
        { s.me with dyn := s.me.dyn + lat }) := by
  obtain ⟨hd, hc⟩ := descriptor_reads h
  rw [ptrldEffect, hd]
  dsimp only
  rw [hk]
  dsimp only
  rw [if_neg (by omega), stall_counted hc, hc.myDie, show ((s.countSpan (s.me.sreg a.val) 64).die s.myDie).layers = (s.die s.myDie).layers by rw [hc.dies]]
end

/-! ### Acceptance on the engines of a die (R268, R284) -/

/-- A command has been queued on an engine of the die in the order of its core: the read of its descriptor is counted. -/
structure Queued (s t : State) (h inc lat : Nat) : Prop where
  issued : t.issue = .issued
  same : SameBytes s t
  me : t.me = { s.me with orders := s.me.orders ++ [(h, s.nextId, inc, none)], dyn := s.me.dyn + lat }
  rest : t = { s with cores := t.cores, dies := t.dies, agenda := t.agenda, nextId := s.nextId + 1, issue := .issued
                      hot := t.hot, pchan := t.pchan, pchanUsed := t.pchanUsed, busyTill := t.busyTill }
/-- The descriptor's read counted, the command's number taken, the die changed, and the command in its core's order. -/
def State.enqueue (s : State) (va : W64) (x : Die) (h inc lat : Nat) : State :=
  let s := s.countSpan va 64
  (({ s with nextId := s.nextId + 1 }.setDie s.myDie x).order s.cur h s.nextId inc).stall lat
theorem enqueue_queued {s t : State} {va : W64} {d : List Byte} {lat : Nat} (hr : Spec.Reads s va d lat) (x : Die) (h inc : Nat)
    (ht : t = { s.enqueue va x h inc lat with dies := t.dies, agenda := t.agenda }) : Queued s (t.mark .issued) h inc lat := by
  have hc := (descriptor_reads hr).2
  have he : s.enqueue va x h inc lat = { s with
      cores := (s.enqueue va x h inc lat).cores, dies := (s.enqueue va x h inc lat).dies, agenda := (s.enqueue va x h inc lat).agenda
      nextId := s.nextId + 1, hot := (s.countSpan va 64).hot, pchan := (s.countSpan va 64).pchan, pchanUsed := (s.countSpan va 64).pchanUsed
      busyTill := (s.countSpan va 64).busyTill } := by
    unfold State.enqueue
    rw [hc.eq]
    rfl
  have hm : (s.enqueue va x h inc lat).me = { s.me with orders := s.me.orders ++ [(h, s.nextId, inc, none)], dyn := s.me.dyn + lat } := by
    have h2 (u : State) (id : Nat) : (u.order u.cur h id inc).me = { u.me with orders := u.me.orders ++ [(h, id, inc, none)] } := me_setMe u _
    unfold State.enqueue State.stall
    dsimp only
    rw [me_setMe, hc.nextId]
    generalize hv : State.setDie _ _ x = v
    have hvm : v.me = s.me := by rw [← hv]; exact hc.me
    have hvc : v.cur = s.cur := by rw [← hv]; exact hc.cur
    rw [hc.cur, ← hvc, h2 v, hvm]
  have htm : t.me = (s.enqueue va x h inc lat).me := by rw [ht]; rfl
  rw [he] at ht
  refine ⟨rfl, ?_, by rw [State.me_mark, htm, hm], ?_⟩
  · rw [ht]
    exact fun _ _ => rfl
  · rw [ht]
    rfl
theorem enqueue_die {s : State} {va : W64} {d : List Byte} {lat : Nat} (hr : Spec.Reads s va d lat) (x : Die) (h inc : Nat) :
    (s.enqueue va x h inc lat).die s.myDie = x := by
  rw [← (descriptor_reads hr).2.myDie]
  exact State.die_setDie_same _ _ x
theorem queued_statement {s t : State} {h inc lat : Nat} (q : Queued s t h inc lat) :
    t.issue = .issued ∧ SameBytes s t ∧ t.me = { s.me with orders := s.me.orders ++ [(h, s.nextId, inc, none)], dyn := s.me.dyn + lat }
    ∧ t = { s with cores := t.cores, dies := t.dies, agenda := t.agenda, nextId := s.nextId + 1, issue := .issued
                   hot := t.hot, pchan := t.pchan, pchanUsed := t.pchanUsed, busyTill := t.busyTill } := ⟨q.issued, q.same, q.me, q.rest⟩

/-- The attention command of a descriptor, with the generator it names, as it is accepted. -/
def State.attCmd (s : State) (dec : Bool) (d : List Byte) (g : KvGen) (h i : Nat) : AttCmd :=
  ⟨s.cur, s.myPart, dec, d, g, h, i, s.nextId, false, 0, [], [], {}, s.me.priv, s.me.coop, none, s.me.pc, s.me.tag⟩
section
variable {s : State} {dec : Bool} {a : Fin 64} {i : Fin 16} {h : Fin 8}
theorem attEffect_misaligned (hm : (s.me.sreg a.val).toNat % 64 ≠ 0) : attEffect s dec a i h = fault alignment 0 (s.me.sreg a.val) := by
  rw [attEffect, descriptor_misaligned hm]
variable {d : List Byte} {lat : Nat} (hr : Spec.Reads s (s.me.sreg a.val) d lat)
include hr
theorem attEffect_invalid (hd : attOk d dec = false) : attEffect s dec a i h = fault invalidOperand := by
  rw [attEffect, (descriptor_reads hr).1]
  exact if_pos (by rw [hd]; rfl)
variable {g : KvGen} (hd : attOk d dec = true) (hg : tget (s.die s.myDie).kvs (16 * s.myPart + field d 48 1) = some g) (hs : s.stageOk d g = true)
include hd hg hs
theorem attEffect_full (hl : 16 ≤ (tgetD (s.die s.myDie).att (attEngine s dec) []).length) : attEffect s dec a i h = .hold s := by
  rw [attEffect, (descriptor_reads hr).1]
  dsimp only
  rw [hd, hg]
  dsimp only
  rw [hs]
  exact if_pos hl
theorem attEffect_queues (hl : (tgetD (s.die s.myDie).att (attEngine s dec) []).length < 16) :
    ∃ x : Die, attEffect s dec a i h = .ok ((s.enqueue (s.me.sreg a.val) x h.val i.val lat).kickAtt s.myDie (attEngine s dec))
      ∧ x.att = tset (s.die s.myDie).att (attEngine s dec) (tgetD (s.die s.myDie).att (attEngine s dec) [] ++ [s.attCmd dec d g h.val i.val]) := by
  obtain ⟨he, hc⟩ := descriptor_reads hr
  have hn : ¬16 ≤ (tgetD (s.die s.myDie).att (attEngine s dec) []).length := by omega
  have hatt : ((s.countSpan (s.me.sreg a.val) 64).die s.myDie).att = (s.die s.myDie).att := by rw [hc.dies]
  rw [attEffect, he]
  dsimp only
  rw [hd, hg]
  dsimp only
  rw [hs, ← hc.myDie]
  refine ⟨_, Eq.trans (if_neg (by decide)) (Eq.trans (if_neg (by decide)) (Eq.trans (if_neg (by rw [hc.myDie]; exact hn)) rfl)), ?_⟩
  rw [State.attCmd, hc.cur, hc.myPart, hc.me, hc.nextId, hc.myDie, hatt]
end
theorem map_filterMap_keeps {α β : Type} {f : α → Option α} {g : α → β} (h : ∀ x, (f x).map g = some (g x)) (l : List α) :
    (l.filterMap f).map g = l.map g := by
  rw [List.map_filterMap, funext h, List.filterMap_eq_map']
/-- The head of the engine's queue works, and its end is awaited. -/
theorem kickAtt_kicks (s : State) (d e : Nat) :
    s.kickAtt d e = { s with dies := (s.kickAtt d e).dies, agenda := (s.kickAtt d e).agenda }
    ∧ (tgetD ((s.kickAtt d e).die d).att e []).map (fun y => { y with busy := false }) = (tgetD (s.die d).att e []).map fun y => { y with busy := false } := by
  unfold State.kickAtt
  split
  · exact ⟨rfl, rfl⟩
  · split
    · exact ⟨rfl, rfl⟩
    next m _ =>
      refine ⟨rfl, ?_⟩
      rw [State.die_schedule, State.updAtt]
      rw [State.die_setDie_same, tgetD_tput]
      rw [if_pos rfl]
      refine map_filterMap_keeps (fun y => ?_) _
      split <;> rfl

/-- The routing pass of a descriptor, with the shape it names, as it is accepted. -/
def State.rteCmd (s : State) (d : List Byte) (sh : ShapeRec) (h i : Nat) : RteCmd :=
  ⟨s.cur, s.myPart, d, sh, h, i, s.nextId, false, false, false, false, [], [], [], [], 0, [], [], {}, s.me.priv, s.me.coop, none, s.me.pc, s.me.tag⟩
section
variable {s : State} {a : Fin 64} {i : Fin 16} {h : Fin 8}
theorem rteEffect_misaligned (hm : (s.me.sreg a.val).toNat % 64 ≠ 0) : rteEffect s a i h = fault alignment 0 (s.me.sreg a.val) := by
  rw [rteEffect, descriptor_misaligned hm]
variable {d : List Byte} {lat : Nat} (hr : Spec.Reads s (s.me.sreg a.val) d lat) (hi : field d 58 1 < 16) (hs : s.shapeLate (field d 58 1) = false)
include hr hi hs
theorem rteEffect_unshaped (hn : s.me.shape (field d 58 1) = none) : rteEffect s a i h = fault invalidOperand := by
  rw [rteEffect, (descriptor_reads hr).1]
  dsimp only
  rw [if_neg (by omega), hs, hn]
  rfl
variable {sh : ShapeRec} (hsh : s.me.shape (field d 58 1) = some sh)
include hsh
theorem rteEffect_invalid (hd : rteOk d sh = false) : rteEffect s a i h = fault invalidOperand := by
  rw [rteEffect, (descriptor_reads hr).1]
  dsimp only
  rw [if_neg (by omega), hs, hsh]
  exact Eq.trans (if_neg (by decide)) (if_pos (by rw [hd]; rfl))
variable (hd : rteOk d sh = true)
include hd
theorem rteEffect_full (hl : 16 ≤ (s.die s.myDie).rte.length) : rteEffect s a i h = .hold s := by
  rw [rteEffect, (descriptor_reads hr).1]
  dsimp only
  rw [if_neg (by omega), hs, hsh]
  exact Eq.trans (if_neg (by decide)) (Eq.trans (if_neg (by rw [hd]; decide)) (if_pos hl))
theorem rteEffect_queues (hl : (s.die s.myDie).rte.length < 16) :
    ∃ (x : Die) (m : RteCmd), rteEffect s a i h = .ok ((s.enqueue (s.me.sreg a.val) x h.val i.val lat).kickRte s.myDie) ∧ x.rte = (s.die s.myDie).rte ++ [m]
      ∧ m.core = s.cur ∧ m.part = s.myPart ∧ m.desc = d ∧ m.shape = sh ∧ m.chan = h.val ∧ m.inc = i.val ∧ m.ord = s.nextId ∧ m.started = false := by
  obtain ⟨he, hc⟩ := descriptor_reads hr
  have hn : ¬16 ≤ (s.die s.myDie).rte.length := by omega
  have hrte : ((s.countSpan (s.me.sreg a.val) 64).die s.myDie).rte = (s.die s.myDie).rte := by rw [hc.dies]
  rw [rteEffect, he]
  dsimp only
  rw [if_neg (by omega), hs, hsh, ← hc.myDie]
  refine ⟨_, (s.countSpan (s.me.sreg a.val) 64).rteCmd d sh h.val i.val, Eq.trans (if_neg (by decide)) (Eq.trans (if_neg (by rw [hd]; decide)) (Eq.trans (if_neg (by rw [hc.myDie]; exact hn)) rfl)), ?_⟩
  rw [hc.myDie]
  exact ⟨congrArg (· ++ _) hrte, hc.cur, hc.myPart, rfl, rfl, rfl, rfl, hc.nextId, rfl⟩
end
/-- The routing engine is looked at again, and nothing else changes. -/
theorem kickRte_kicks (s : State) (d : Nat) : s.kickRte d = { s with agenda := (s.kickRte d).agenda } := by
  unfold State.kickRte State.scheduleOnce
  dsimp only
  split
  · rfl
  · split <;> rfl

/-! ### The Pointer (R89 to R91) -/

section
variable {s : State} {a b c : Fin 64}
theorem ptrcfgEffect_sets (h1 : bits (s.me.sreg a.val) 63 16 = 0) (h2 : bits (s.me.sreg a.val) 7 4 ≠ 0) (h3 : bit (s.me.sreg a.val) 3 = false) :
    ptrcfgEffect s a = .ok (s.setDie s.myDie { s.die s.myDie with ptrCfg := s.me.sreg a.val }) :=
  if_neg fun h => h.elim (absurd h1) fun h => h.elim h2 (ne_true_of_eq_false h3)
theorem ptrrunEffect_enabled (h : ¬((s.me.sreg c.val).toNat = 0 ∨ 256 < (s.me.sreg c.val).toNat)) (he : bit (s.die s.myDie).ptrCfg 2 = true) :
    ptrrunEffect s a b c = if 8 ≤ (s.die s.myDie).runs.length then .ok (s.ptrCount s.myDie 48) else
      .ok ((s.setDie s.myDie { s.die s.myDie with runs := (s.die s.myDie).runs ++ [⟨s.myPart, s.me.sreg a.val, (s.me.sreg b.val).toNat,
        (s.me.sreg c.val).toNat, s.cur, s.me.priv, s.me.coop⟩] }).schedule 1000 (.pointerRun s.myDie)) :=
  (if_neg h).trans (if_neg (by rw [he]; decide))
end

/-- Settles O50 by the effect of each command: the checks of its operands, and where it is queued. -/
theorem engineCommands : Obligations.EngineCommands := by
  intro s a l
  refine ⟨fun g hc => ?_, fun dec i h n hn hc => ?_, fun i h hc => ?_, fun hc => ?_, fun b hc => ?_, fun b c hc => ?_⟩
  · have he {r : Res} (h : kvagEffect s a g = r) : exec (.kvag a g l) s = meaning (.kvag a g l) 3 s r := congrArg (meaning (.kvag a g l) 3 s) h
    exact ⟨fun hm => fault_Traps hc (by decide) (by decide) (by decide) (he (kvagEffect_misaligned g hm)), fun d lat hr =>
      ⟨fun k hk => (he (kvagEffect_loads g hr hk)).trans (meaning_ok hc),
       fun hk => fault_Traps hc (by decide) (by decide) (by decide) (he (kvagEffect_invalid g hr hk))⟩⟩
  · have he {r : Res} (h : attEffect s dec a i h = r) : exec n s = meaning n 3 s r := by
      rw [hn, ← h]
      cases dec <;> rfl
    refine ⟨fun hm => fault_Traps hc (by decide) (by decide) (by decide) (he (attEffect_misaligned hm)), fun d lat hr =>
      ⟨fun hd => fault_Traps hc (by decide) (by decide) (by decide) (he (attEffect_invalid hr hd)), fun g hd hg hs => ⟨fun hl => ?_, fun hl =>
        (he (attEffect_full hr hd hg hs hl)).trans (meaning_hold hc)⟩⟩⟩
    obtain ⟨x, hx, hatt⟩ := attEffect_queues (i := i) (h := h) hr hd hg hs hl
    obtain ⟨h1, h2⟩ := kickAtt_kicks (s.enqueue (s.me.sreg a.val) x h.val i.val lat) s.myDie (attEngine s dec)
    refine ⟨_, _, (he hx).trans (meaning_ok hc), queued_statement (enqueue_queued hr x h.val i.val h1), ?_, rfl⟩
    refine h2.trans ?_
    rw [enqueue_die hr, hatt, tgetD_tset, if_pos rfl, List.map_append]
    rfl
  · have he {r : Res} (g : rteEffect s a i h = r) : exec (.rte a i h l) s = meaning (.rte a i h l) 3 s r := congrArg (meaning (.rte a i h l) 3 s) g
    refine ⟨fun hm => fault_Traps hc (by decide) (by decide) (by decide) (he (rteEffect_misaligned hm)), fun d lat hr hi hs =>
      ⟨fun hn => fault_Traps hc (by decide) (by decide) (by decide) (he (rteEffect_unshaped hr hi hs hn)), fun sh hsh =>
       ⟨fun hd => fault_Traps hc (by decide) (by decide) (by decide) (he (rteEffect_invalid hr hi hs hsh hd)), fun hd hl => ?_, fun hd hl =>
        (he (rteEffect_full hr hi hs hsh hd hl)).trans (meaning_hold hc)⟩⟩⟩
    obtain ⟨x, m, hx, hrte, hm⟩ := rteEffect_queues (i := i) (h := h) hr hi hs hsh hd hl
    have hk := kickRte_kicks (s.enqueue (s.me.sreg a.val) x h.val i.val lat) s.myDie
    refine ⟨_, m, (he hx).trans (meaning_ok hc), queued_statement (enqueue_queued hr x h.val i.val (hk.trans (by rw [hk]))), ?_, hm⟩
    have hd : ((s.enqueue (s.me.sreg a.val) x h.val i.val lat).kickRte s.myDie).die s.myDie = x := by
      rw [hk]
      exact enqueue_die hr x h.val i.val
    exact (congrArg Die.rte hd).trans hrte
  · have he {r : Res} (h : ptrcfgEffect s a = r) : exec (.ptrcfg a l) s = meaning (.ptrcfg a l) 3 s r := congrArg (meaning (.ptrcfg a l) 3 s) h
    exact ⟨fun h1 h2 h3 => (he (ptrcfgEffect_sets h1 h2 h3)).trans (meaning_ok hc), fun h => fault_Traps hc (by decide) (by decide) (by decide) (he (if_pos h))⟩
  · have he {r : Res} (h : ptrldEffect s a b = r) : exec (.ptrld a b l) s = meaning (.ptrld a b l) 3 s r := congrArg (meaning (.ptrld a b l) 3 s) h
    exact ⟨fun hm => fault_Traps hc (by decide) (by decide) (by decide) (he (ptrldEffect_misaligned b hm)), fun d lat hr =>
      ⟨fun y hk hn => (he (ptrldEffect_loads hr hk hn)).trans (meaning_ok hc),
       fun hk => fault_Traps hc (by decide) (by decide) (by decide) (he (ptrldEffect_invalid hr hk))⟩⟩
  · have he {r : Res} (h : ptrrunEffect s a b c = r) : exec (.ptrrun a b c l) s = meaning (.ptrrun a b c l) 3 s r := congrArg (meaning (.ptrrun a b c l) 3 s) h
    refine ⟨fun h => fault_Traps hc (by decide) (by decide) (by decide) (he (if_pos h)), fun h1 h2 hb => (he ?_).trans (meaning_ok hc),
      fun h1 h2 hb hr => (he ((ptrrunEffect_enabled (by omega) hb).trans (if_pos hr))).trans (meaning_ok hc),
      fun h1 h2 hb hr => (he ((ptrrunEffect_enabled (by omega) hb).trans (if_neg (by omega)))).trans (meaning_ok hc)⟩
    exact Eq.trans (if_neg (by omega)) (if_pos (by rw [hb]; rfl))
end Sys2Proof.Machine
end

section
/-! Proofs about page walks, fetches, HBM management, counters and migrations (R101, R104, R105, R117, R120 to R122, R140). -/
namespace Sys2Proof.Machine
open Sys2Proof

/-! ### What keeps memory, the store paths and the TLBs -/

/-- Memory, the store paths and the TLBs are as before. -/
structure KeepsPages (s t : State) : Prop where
  mem : t.mem = s.mem
  quads : ∀ q, (t.quad q).tlb = (s.quad q).tlb ∧ (t.quad q).path = (s.quad q).path
  dies : ∀ d, (t.die d).tlb = (s.die d).tlb
namespace KeepsPages
theorem refl (s : State) : KeepsPages s s := ⟨rfl, fun _ => ⟨rfl, rfl⟩, fun _ => rfl⟩
theorem trans {s t u : State} (h : KeepsPages s t) (g : KeepsPages t u) : KeepsPages s u :=
  ⟨g.mem.trans h.mem, fun q => ⟨(g.quads q).1.trans (h.quads q).1, (g.quads q).2.trans (h.quads q).2⟩, fun d => (g.dies d).trans (h.dies d)⟩
theorem ite {s t u : State} {c : Prop} [Decidable c] (h : KeepsPages s t) (g : KeepsPages s u) : KeepsPages s (if c then t else u) := by
  split
  · exact h
  · exact g
theorem foldl {α : Type} {f : State → α → State} (h : ∀ s a, KeepsPages s (f s a)) (l : List α) : ∀ s : State, KeepsPages s (l.foldl f s) := by
  induction l with
  | nil => exact refl
  | cons a l ih => exact fun s => (h s a).trans (ih (f s a))
theorem setDie {s : State} {d : Nat} {x : Die} (h : x.tlb = (s.die d).tlb) : KeepsPages s (s.setDie d x) := by
  refine ⟨rfl, fun _ => ⟨rfl, rfl⟩, fun e => ?_⟩
  rw [State.die_setDie]
  split
  next g => subst g; exact h
  · rfl
theorem setQuad {s : State} {q : Nat} {y : Quad} (ht : y.tlb = (s.quad q).tlb) (hp : y.path = (s.quad q).path) : KeepsPages s (s.setQuad q y) := by
  refine ⟨rfl, fun r => ?_, fun _ => rfl⟩
  rw [State.quad_setQuad]
  split
  next g => subst g; exact ⟨ht, hp⟩
  · exact ⟨rfl, rfl⟩
theorem setCore (s : State) (c : Nat) (k : Core) : KeepsPages s (s.setCore c k) := ⟨rfl, fun _ => ⟨rfl, rfl⟩, fun _ => rfl⟩
theorem of_fetched {s t : State} (h : Fetched s t) : KeepsPages s t :=
  ⟨by rw [h.eq], fun q => by rw [h.eq]; exact ⟨rfl, rfl⟩, fun d => by rw [h.dies]⟩
theorem of_counted {s t : State} (h : Counted s t) : KeepsPages s t :=
  ⟨by rw [h.eq], fun q => by rw [h.eq]; exact ⟨rfl, rfl⟩, fun d => by rw [h.dies]⟩
theorem sameBytes {s t : State} (h : KeepsPages s t) : SameBytes s t := fun c a => by
  unfold State.seenByte
  rw [(h.quads (c / 4)).2, h.mem]
/-- What keeps them does not undo a removal. -/
theorem removed {s u t : State} {f : TlbEnt → Bool} (h : KeepsPages u t) (r : Spec.Removed s u f) : Spec.Removed s t f := by
  refine ⟨fun q => (h.quads q).1.trans (r.quads q), fun d => (h.dies d).trans (r.dies d), ⟨fun q => ?_, fun x => ?_⟩, fun e he hm q w hw => ?_⟩
  · obtain ⟨l, hl⟩ := r.reached.paths q
    exact ⟨l, by rw [(h.quads q).2]; exact hl⟩
  · rw [h.mem]
    exact r.reached.bytes x
  · rw [(h.quads q).2] at hw
    exact r.done e he hm q w hw
end KeepsPages

/-! ### Page walks (R101, R104, R105) -/

/-- The walker has taken up misses: the cores, memory, the quads and the TLBs are as before. -/
structure Walks (s t : State) : Prop where
  eq : t = { s with dies := t.dies, agenda := t.agenda }
  tlb : ∀ d, (t.die d).tlb = (s.die d).tlb
theorem Walks.refl (s : State) : Walks s s := ⟨rfl, fun _ => rfl⟩
theorem Walks.trans {s t u : State} (h : Walks s t) (g : Walks t u) : Walks s u := ⟨by rw [g.eq, h.eq], fun d => (g.tlb d).trans (h.tlb d)⟩
theorem Walks.setDie {s : State} {d : Nat} {x : Die} (h : x.tlb = (s.die d).tlb) : Walks s (s.setDie d x) := ⟨rfl, (KeepsPages.setDie h).dies⟩
theorem beginWalk_walks (s : State) (d : Nat) (w : Nat × Nat × Nat) : Walks s (s.beginWalk d w) := by
  have h : Walks s (s.setDie d { s.die d with walks := (s.die d).walks ++ [w] }) := .setDie rfl
  exact ⟨rfl, h.tlb⟩
theorem serveMiss_walks (d n : Nat) : ∀ s : State, Walks s (s.serveMiss d n) := by
  induction n with
  | zero => exact .refl
  | succ n ih =>
    intro s
    unfold State.serveMiss
    dsimp only
    split
    · exact .refl s
    · split
      · exact .refl s
      next w _ =>
        split
        · refine .trans ?_ (ih _)
          exact .setDie rfl
        · refine .trans ?_ (beginWalk_walks ..)
          exact .setDie rfl
theorem mem_capped {α : Type} {n : Nat} (hn : 0 < n) (l : List α) (x : α) : x ∈ capped n (l ++ [x]) := by
  unfold capped
  rw [List.drop_append_of_le_length (by rw [List.length_append, List.length_singleton]; omega)]
  exact List.mem_append_right _ (.head _)
/-- A walk has ended in a leaf, which enters the TLBs of the die and of a quad. -/
def State.walkedTo (s : State) (d q : Nat) (t : TlbEnt) : State :=
  let s := s.setDie d { s.die d with tlb := capped 65536 ((s.die d).tlb ++ [t]) }
  s.setQuad q { s.quad q with tlb := capped 4096 ((s.quad q).tlb ++ [t]) }
/-- A walk has failed, and the cores that miss on its page are told. -/
def State.walkedNowhere (s : State) (d p vpn c f : Nat) : State :=
  { s with cores := s.cores.map fun (e : Nat × Core) =>
      if dieOfCore e.1 == d && e.2.part == p && e.2.missing.contains vpn then (e.1, { e.2 with walked := (vpn, c, f) :: e.2.walked }) else e }
/-- A walk has left the walker, its entries are cached, and its reads counted. -/
def State.walkLeft (s : State) (d p vpn : Nat) : State :=
  let levels := walkLevels s.mem (vpn * 4096) 5 (s.part p).root
  let keys := (levels.filter fun w => w.2.2).map fun w => cacheKey p (vpn * 4096) w.1
  let u := levels.foldl (fun (u : State) w =>
    if w.2.2 && (s.die d).wcache.contains (cacheKey p (vpn * 4096) w.1) then u else u.touch (entryAt (vpn * 4096) (w.1 - 1) w.2.1) 8) s
  u.setDie d { u.die d with
    walks := (u.die d).walks.filter fun w => !(w.1 == p && w.2.1 == vpn)
    wcache := capped 1024 (((u.die d).wcache.filter fun w => !keys.contains w) ++ keys) }
theorem walkLeft_eq (s : State) (d p vpn : Nat) : ∃ (v : State) (x : Die), Counted s v ∧ s.walkLeft d p vpn = v.setDie d x ∧ x.tlb = (v.die d).tlb := by
  refine ⟨_, _, ?_, rfl, rfl⟩
  generalize walkLevels s.mem (vpn * 4096) 5 (s.part p).root = l
  suffices h : ∀ u : State, Counted u (l.foldl (fun (s' : State) w =>
      if (w.2.2 && (s.die d).wcache.contains (cacheKey p (vpn * 4096) w.1)) = true then s' else s'.touch (entryAt (vpn * 4096) (w.1 - 1) w.2.1) 8) u) from h s
  induction l with
  | nil => exact .refl
  | cons w l ih => exact fun u => .trans (.ite (.refl u) (touch_counted ..)) (ih _)
theorem walkLeft_keeps (s : State) (d p vpn : Nat) : KeepsPages s (s.walkLeft d p vpn) ∧ (s.walkLeft d p vpn).cores = s.cores
    ∧ (s.walkLeft d p vpn).walk p (vpn * 4096) = s.walk p (vpn * 4096) := by
  obtain ⟨v, x, hc, he, hx⟩ := walkLeft_eq s d p vpn
  rw [he]
  refine ⟨(KeepsPages.of_counted hc).trans (.setDie hx), (congrArg State.cores hc.eq :), ?_⟩
  rw [hc.eq]
  rfl
section
variable {s : State} {d p vpn : Nat}
theorem endWalk_leaf {e : W64} {lg a : Nat} (h : s.walk p (vpn * 4096) = .leaf e lg a) :
    ∃ q, Walks ((s.walkLeft d p vpn).walkedTo d q ⟨p, vpn / 2 ^ (lg - 12), lg - 12, e⟩) (s.endWalk d p vpn) := by
  have hw := (walkLeft_keeps s d p vpn).2.2
  rw [h] at hw
  unfold State.walkLeft at hw
  unfold State.endWalk
  dsimp only at hw ⊢
  rw [hw]
  exact ⟨_, serveMiss_walks ..⟩
theorem endWalk_fail {c : Nat} (h : s.walk p (vpn * 4096) = .fail c) : Walks ((s.walkLeft d p vpn).walkedNowhere d p vpn c 0) (s.endWalk d p vpn) := by
  have hw := (walkLeft_keeps s d p vpn).2.2
  rw [h] at hw
  unfold State.walkLeft at hw
  unfold State.endWalk
  dsimp only at hw ⊢
  rw [hw]
  exact serveMiss_walks ..
theorem endWalk_ecc {f : Nat} (h : s.walk p (vpn * 4096) = .ecc f) : Walks ((s.walkLeft d p vpn).walkedNowhere d p vpn 0 f) (s.endWalk d p vpn) := by
  have hw := (walkLeft_keeps s d p vpn).2.2
  rw [h] at hw
  unfold State.walkLeft at hw
  unfold State.endWalk
  dsimp only at hw ⊢
  rw [hw]
  exact serveMiss_walks ..
end
theorem walkedTo_same (s : State) (d q : Nat) (t : TlbEnt) : SameBytes s (s.walkedTo d q t) := fun c a => by
  have hp : ((s.walkedTo d q t).quad (c / 4)).path = (s.quad (c / 4)).path := by
    unfold State.walkedTo
    dsimp only
    rw [State.quad_setQuad]
    split
    next h => subst h; rfl
    · rfl
  unfold State.seenByte
  rw [hp]
  rfl
/-- A failure is told to the cores that miss on the page. -/
theorem walkedNowhere_told {s : State} {d p vpn c f j : Nat} {k : Core} (hj : tget s.cores j = some k) (hd : dieOfCore j = d) (hp : k.part = p)
    (hm : vpn ∈ k.missing) : (vpn, c, f) ∈ ((s.walkedNowhere d p vpn c f).core j).walked := by
  have h : ∀ t : Tbl Core, tget t j = some k → (vpn, c, f) ∈ (tgetD (t.map fun e : Nat × Core =>
      if (dieOfCore e.1 == d && e.2.part == p && e.2.missing.contains vpn) = true then (e.1, { e.2 with walked := (vpn, c, f) :: e.2.walked }) else e) j {}).walked := by
    intro t
    induction t with
    | nil => exact fun h => (nomatch h)
    | cons e t ih =>
      obtain ⟨i, x⟩ := e
      intro he
      rw [tget_cons] at he
      split at he
      next hi =>
        cases he
        subst hi
        rw [List.map_cons, if_pos (by rw [hd, hp, List.contains_iff_mem.2 hm]; simp), tgetD, tget_cons, if_pos rfl]
        exact .head _
      next hi =>
        rw [List.map_cons, tgetD, tget_cons, if_neg (by split <;> exact hi)]
        exact ih he
  exact h s.cores hj

/-! ### Counting in order (R140, R141) -/

theorem addCount_counts (k : Core) (h inc : Nat) :
    (tgetD (k.addCount h inc).cc h 0).toNat = min 0xFFFFFFFF ((tgetD k.cc h 0).toNat + inc)
    ∧ (0xFFFFFFFF < (tgetD k.cc h 0).toNat + inc → (k.addCount h inc).ccsat = k.ccsat ||| BitVec.ofNat 8 (2 ^ h))
    ∧ (∀ g, g ≠ h → tgetD (k.addCount h inc).cc g 0 = tgetD k.cc g 0) ∧ (k.addCount h inc).orders = k.orders := by
  unfold Core.addCount
  dsimp only
  split
  next hv =>
    refine ⟨?_, fun _ => rfl, fun g hg => tgetD_tput_other (d := 0) k.cc 0xFFFFFFFF (Ne.symm hg), rfl⟩
    rw [tgetD_tput_same]
    have : (4294967295 : W32).toNat = 0xFFFFFFFF := rfl
    omega
  next hv =>
    refine ⟨?_, fun h => absurd h hv, fun g hg => tgetD_tput_other _ _ (Ne.symm hg), rfl⟩
    rw [tgetD_tput_same, BitVec.toNat_ofNat]
    omega
theorem results_keeps (k : Core) (h : Nat) (m : CopyCmd) : (k.results h m).cc = k.cc ∧ (k.results h m).ccsat = k.ccsat ∧ (k.results h m).orders = k.orders := by
  unfold Core.results
  dsimp only
  split <;> split <;> exact ⟨rfl, rfl, rfl⟩
theorem countUp_keeps (c h n : Nat) : ∀ s : State, KeepsPages s (s.countUp c h n) := by
  induction n with
  | zero => exact .refl
  | succ n ih =>
    intro s
    unfold State.countUp
    dsimp only
    split
    · refine .trans (.trans ?_ (.setCore ..)) (ih _)
      exact .setQuad rfl rfl
    · exact .refl s
theorem countUp_none {s : State} {c h n : Nat} (hn : ∀ id inc x, (s.core c).orders.find? (fun o => o.1 == h) ≠ some (h, id, inc, some x)) :
    s.countUp c h n = s := by
  cases n with
  | zero => rfl
  | succ n =>
    unfold State.countUp
    dsimp only
    split
    next g id inc x heq =>
      have hg : g = h := eq_of_beq (List.find?_some heq :)
      subst hg
      exact absurd heq (hn id inc x)
    · rfl
/-- The orders of a core whose first command of a channel has been counted name no other that is complete. -/
theorem counted_once {s u : State} {r : Core} {c h id inc n : Nat} (h1 : r.cc = (s.core c).cc) (h2 : r.ccsat = (s.core c).ccsat)
    (h3 : r.orders = (s.core c).orders.filter fun o => !(o.1 == h && o.2.1 == id))
    (hn : ∀ o, o ∈ (s.core c).orders → o.1 = h → o.2.1 ≠ id → o.2.2.2 = none) :
    Spec.Counted s ((u.setCore c (r.addCount h inc)).countUp c h n) c h inc
    ∧ (((u.setCore c (r.addCount h inc)).countUp c h n).core c).orders = (s.core c).orders.filter fun o => !(o.1 == h && o.2.1 == id) := by
  obtain ⟨a1, a2, a3, a4⟩ := addCount_counts r h inc
  rw [countUp_none, Spec.Counted, State.core_setCore_same, ← h1, ← h2, ← h3]
  · exact ⟨⟨a1, a2, a3⟩, a4⟩
  · intro id' inc' x hf
    rw [State.core_setCore_same, a4, h3] at hf
    obtain ⟨hm, hk⟩ := List.mem_filter.1 (List.mem_of_find?_eq_some hf)
    refine absurd (hn _ hm rfl fun hid => ?_) (Option.some_ne_none x)
    subst hid
    simp at hk
theorem countUp_one {s : State} {c h id inc x n : Nat} (hf : (s.core c).orders.find? (fun o => o.1 == h) = some (h, id, inc, some x))
    (hn : ∀ o, o ∈ (s.core c).orders → o.1 = h → o.2.1 ≠ id → o.2.2.2 = none) :
    Spec.Counted s (s.countUp c h (n + 1)) c h inc
    ∧ ((s.countUp c h (n + 1)).core c).orders = (s.core c).orders.filter fun o => !(o.1 == h && o.2.1 == id) := by
  unfold State.countUp
  dsimp only
  rw [hf]
  dsimp only
  split
  next m _ =>
    obtain ⟨r1, r2, r3⟩ := results_keeps { s.core c with orders := (s.core c).orders.filter fun o => !(o.1 == h && o.2.1 == id) } h m
    exact counted_once r1 r2 r3 hn
  · exact counted_once rfl rfl rfl hn
theorem count_events {s : State} {c h : Nat} :
    ((∀ id inc x, (s.core c).orders.find? (fun o => o.1 == h) ≠ some (h, id, inc, some x)) → s.count c h = s)
    ∧ ∀ id inc x, (s.core c).orders.find? (fun o => o.1 == h) = some (h, id, inc, some x) →
        (∀ o, o ∈ (s.core c).orders → o.1 = h → o.2.1 ≠ id → o.2.2.2 = none) → Spec.Counted s (s.count c h) c h inc
          ∧ ((s.count c h).core c).orders = (s.core c).orders.filter fun o => !(o.1 == h && o.2.1 == id) := by
  refine ⟨fun hn => countUp_none hn, fun id inc x hf hn => ?_⟩
  obtain ⟨n, hl⟩ := Nat.exists_eq_add_one_of_ne_zero (n := (s.core c).orders.length) fun h0 => by
    rw [List.length_eq_zero_iff.1 h0] at hf
    cases hf
  rw [State.count, hl]
  exact countUp_one hf hn

/-! ### The end of a migration (R117, R386) -/

theorem replayOne_keeps (s : State) (d i : Nat) (a : Nat × Nat × Nat) : KeepsPages s (s.replayOne d i a) := by
  have h (x : Ctx) (b : Acc) (va : W64) : KeepsPages s (s.engineTranslate x b va).1 := .of_fetched (engineTranslate_fetched ..)
  exact (h _ _ _).trans (.setCore ..)
theorem replayOne_owed (s : State) (d i : Nat) (a : Nat × Nat × Nat) : (s.replayOne d i a).owed = s.owed := by
  have h (x : Ctx) (b : Acc) (va : W64) : (s.engineTranslate x b va).1.owed = s.owed := (congrArg State.owed (engineTranslate_fetched s x b va).eq :)
  exact h _ _ _
/-- A change that keeps the pages, and the device's writes that wait. -/
def Replays (s t : State) : Prop := KeepsPages s t ∧ t.owed = s.owed
theorem Replays.trans {s t u : State} (h : Replays s t) (g : Replays t u) : Replays s u := ⟨h.1.trans g.1, g.2.trans h.2⟩
theorem Replays.foldl {α : Type} {f : State → α → State} (h : ∀ s a, Replays s (f s a)) (l : List α) : ∀ s : State, Replays s (l.foldl f s) := by
  induction l with
  | nil => exact fun s => ⟨.refl s, rfl⟩
  | cons a l ih => exact fun s => (h s a).trans (ih (f s a))
theorem releaseReplay_replays (s : State) : Replays s s.releaseReplay := by
  refine .foldl (fun s d => ?_) _ s
  unfold State.releaseDie
  dsimp only
  refine .trans ?_ (.foldl (fun s e => ⟨replayOne_keeps .., replayOne_owed ..⟩) _ _)
  split
  · exact ⟨.refl s, rfl⟩
  · exact ⟨.setDie rfl, rfl⟩
theorem payOwed_keeps {s : State} (h : s.owed = []) : KeepsPages s s.payOwed := by
  unfold State.payOwed
  rw [h]
  exact ⟨rfl, fun _ => ⟨rfl, rfl⟩, fun _ => rfl⟩
theorem startCopies_keeps (s : State) (q h : Nat) : KeepsPages s (s.startCopies q h) := by
  obtain ⟨act, ag, he⟩ := startCopies_starts s q h
  rw [he]
  have hk (y : Quad) (ht : y.tlb = (s.quad q).tlb) (hp : y.path = (s.quad q).path) : KeepsPages s (s.setQuad q y) := .setQuad ht hp
  have := hk { s.quad q with chans := tset (s.quad q).chans h ((tgetD (s.quad q).chans h []).map fun m => if m.done then m else { m with active := act m }) } rfl rfl
  exact ⟨this.mem, this.quads, this.dies⟩
theorem endCopy_keeps (s : State) (q h : Nat) (m : CopyCmd) : KeepsPages s (s.endCopy q h m) := by
  unfold State.endCopy
  dsimp only
  refine .trans (.trans (t := s.updCopy q m.id fun m => { m with done := true, active := false }) (.setQuad rfl rfl) ?_) (startCopies_keeps ..)
  exact ⟨rfl, fun _ => ⟨rfl, rfl⟩, fun _ => rfl⟩
/-- A removal from a machine whose die has changed beside its TLB. -/
theorem Removed.of_setDie {s t : State} {d : Nat} {x : Die} {f : TlbEnt → Bool} (hx : x.tlb = (s.die d).tlb) (h : Spec.Removed (s.setDie d x) t f) :
    Spec.Removed s t f := by
  have hd (e : Nat) : ((s.setDie d x).die e).tlb = (s.die e).tlb := (KeepsPages.setDie hx).dies e
  exact ⟨h.quads, fun e => by rw [h.dies, hd], ⟨h.reached.paths, h.reached.bytes⟩, fun e he hm => h.done e he (hm.imp_right fun ⟨j, hj⟩ => ⟨j, by rw [hd]; exact hj⟩)⟩
/-- The migration of a page has ended in a machine whose leaf names the new frame: the page's translations go, and what waits goes on. -/
def State.migrated (s : State) (q h : Nat) (m : CopyCmd) : State :=
  (s.removeTlb (covers m.part (bits m.c 63 12)) false).releaseReplay.payOwed.endCopy q h m
theorem migrated_removed {s : State} (q h : Nat) (m : CopyCmd) (ho : s.owed = []) :
    Spec.Removed s (s.migrated q h m) (covers m.part (bits m.c 63 12)) := by
  have hr := removeTlb_removed s (covers m.part (bits m.c 63 12)) false
  have hw : (s.removeTlb (covers m.part (bits m.c 63 12)) false).owed = [] := by
    rw [← ho, removeTlb_eq]
    exact (congrArg State.owed (flushFor_flushed s (s.throughGone _)).effect.rest :)
  obtain ⟨h1, h2⟩ := releaseReplay_replays (s.removeTlb (covers m.part (bits m.c 63 12)) false)
  exact ((h1.trans (payOwed_keeps (h2.trans hw))).trans (endCopy_keeps ..)).removed hr
/-- The memory in which the leaf of a page names the new frame. -/
def State.movedMem (s : State) (m : CopyCmd) (at_ : Nat) : Tbl Byte :=
  memWrite s.mem at_ (leBytes 8 (migLeaf (BitVec.ofNat 64 (leNat (memRead s.mem at_ 8))) m.dst.toNat false).toNat)
theorem withMem_owed (s : State) (mem : Tbl Byte) : (s.withMem mem).owed = s.owed := rfl
theorem withMem_die (s : State) (mem : Tbl Byte) (d : Nat) : (s.withMem mem).die d = s.die d := rfl
theorem withMem_setDie (s : State) (mem : Tbl Byte) (d : Nat) (x : Die) : (s.setDie d x).withMem mem = (s.withMem mem).setDie d x := rfl
theorem pagemvDone_migrated {s : State} {q id h at_ : Nat} {m : CopyCmd} (hf : s.findCopy q id = some (h, m)) (hk : m.kind = .page at_)
    (hd : m.done = false) (hp : m.total ≤ m.pos) :
    ∃ x : Die, x.tlb = (s.die (hbmDie m.src.toNat)).tlb
      ∧ s.pagemvDone q id = ((s.setDie (hbmDie m.src.toNat) x).withMem (s.movedMem m at_)).migrated q h m := by
  have hn : ¬(m.done || decide (m.pos < m.total)) = true := by
    rw [hd, Bool.false_or]
    exact fun h => absurd (of_decide_eq_true h) (by omega)
  unfold State.pagemvDone State.movedMem
  rw [hf]
  dsimp only
  rw [hk]
  dsimp only
  rw [if_neg hn]
  simp only [State.setDie_mem]
  generalize memWrite s.mem at_ _ = mem
  refine ⟨_, ?_, rfl⟩
  rfl
theorem pagemvDone_removed {s : State} {q id h at_ : Nat} {m : CopyCmd} (hf : s.findCopy q id = some (h, m)) (hk : m.kind = .page at_) (hd : m.done = false)
    (hp : m.total ≤ m.pos) (ho : s.owed = []) :
    Spec.Removed (s.withMem (s.movedMem m at_)) (s.pagemvDone q id) (covers m.part (bits m.c 63 12)) := by
  obtain ⟨x, hx, he⟩ := pagemvDone_migrated hf hk hd hp
  have hw : ((s.withMem (s.movedMem m at_)).setDie (hbmDie m.src.toNat) x).owed = [] := by
    rw [State.setDie_owed, withMem_owed, ho]
  have hr := migrated_removed q h m hw
  rw [he, withMem_setDie s (s.movedMem m at_) (hbmDie m.src.toNat) x]
  refine Removed.of_setDie ?_ hr
  rw [withMem_die, hx]
theorem removed_moved (s t : State) (m : CopyCmd) (at_ : Nat) : Spec.Removed (s.withMem (s.movedMem m at_)) t (covers m.part (bits m.c 63 12))
    = Spec.Removed { s with mem := memWrite s.mem at_ (Spec.bytesOf 8 (migLeaf (BitVec.ofNat 64 (leNat (memRead s.mem at_ 8))) m.dst.toNat false).toNat) } t
        (fun e => e.part == m.part && e.vpn == m.c.toNat / 2 ^ 12 / 2 ^ e.lg) := by
  unfold State.movedMem
  rw [bits_page, leBytes_eq]
  rfl

/-! ### The events -/

theorem Walks.sameBytes {s t : State} (h : Walks s t) : SameBytes s t := fun c a => by rw [h.eq]; rfl
theorem SameBytes.trans {s t u : State} (h : SameBytes s t) (g : SameBytes t u) : SameBytes s u := fun c a => (g c a).trans (h c a)
theorem endWalk_same (s : State) (d p vpn : Nat) : SameBytes s (s.endWalk d p vpn) := by
  have hk := (walkLeft_keeps s d p vpn).1.sameBytes
  cases hw : s.walk p (vpn * 4096) with
  | leaf e lg a =>
    obtain ⟨q, h⟩ := endWalk_leaf (d := d) hw
    exact (SameBytes.trans hk (walkedTo_same (s.walkLeft d p vpn) d q _)).trans h.sameBytes
  | fail c => exact SameBytes.trans (t := (s.walkLeft d p vpn).walkedNowhere d p vpn c 0) hk (endWalk_fail hw).sameBytes
  | ecc f => exact SameBytes.trans (t := (s.walkLeft d p vpn).walkedNowhere d p vpn 0 f) hk (endWalk_ecc hw).sameBytes
theorem endWalk_enters {s : State} {d p vpn : Nat} {e : W64} {lg a : Nat} (h : s.walk p (vpn * 4096) = .leaf e lg a) :
    ⟨p, vpn / 2 ^ (lg - 12), lg - 12, e⟩ ∈ ((s.endWalk d p vpn).die d).tlb := by
  obtain ⟨q, hw⟩ := endWalk_leaf (d := d) h
  rw [hw.tlb, State.walkedTo]
  dsimp only
  rw [State.die_setQuad, State.die_setDie_same]
  dsimp only
  exact mem_capped (by norm_num) _ _
/-- A walk that ended nowhere has left the TLB as it was, and is told. -/
theorem walkedNowhere_tells {s t : State} {d p vpn c f : Nat} (h : Walks ((s.walkLeft d p vpn).walkedNowhere d p vpn c f) t) :
    (t.die d).tlb = (s.die d).tlb
    ∧ ∀ j k, tget s.cores j = some k → dieOfCore j = d → k.part = p → vpn ∈ k.missing → (vpn, c, f) ∈ (t.core j).walked := by
  obtain ⟨hk, hc, -⟩ := walkLeft_keeps s d p vpn
  refine ⟨(h.tlb d).trans (hk.dies d), fun j k hj hd hp hm => ?_⟩
  rw [h.eq]
  exact walkedNowhere_told (hc ▸ hj) hd hp hm
theorem fetchReturn_at {s : State} {c : Nat} {pl : Place} {leaf : W64} (hf : (s.core c).fetching = true)
    (ht : s.translate (s.ctxOf c (s.core c).part (s.core c).priv (s.core c).coop) .fetch (s.core c).pc = .at_ pl leaf) :
    s.fetchReturn c = s.setCore c { s.core c with fetching := false, nextClk := max (s.core c).nextClk s.clk } := by
  unfold State.fetchReturn
  dsimp only
  rw [if_neg (by rw [hf]; decide), ht]
  rfl

/-- Whether a swap of two regions may begin. -/
def State.maySwap (s : State) (k a b : Nat) : Prop :=
  bit (s.die (stackDie k)).hbmpm 1 = true ∧ s.deadlineTraffic k = false ∧ ∀ e, e ∈ s.swapping → s.clk < e.2 → e.1 ≠ a ∧ e.1 ≠ b
theorem maySwap_iff (s : State) (k a b : Nat) : s.maySwap k a b ↔ ¬(!bit (s.die (stackDie k)).hbmpm 1 || s.deadlineTraffic k
    || (s.swapping.filter fun e => decide (s.clk < e.2)).any fun e => e.1 == a || e.1 == b) = true := by
  unfold State.maySwap
  simp [List.any_eq_true, not_or, and_assoc]
theorem hotRegionSwap_swaps (s : State) (k r r2 : Nat) :
    ∃ t, exec (.hotRegionSwap k r r2) s = .next t ∧ SameBytes s t ∧ (¬s.maySwap k (k * 2 ^ 20 + r) (k * 2 ^ 20 + r2) → t = s)
      ∧ (s.maySwap k (k * 2 ^ 20 + r) (k * 2 ^ 20 + r2) →
          tgetD t.hbmMap (k * 2 ^ 20 + r) (k * 2 ^ 20 + r) = tgetD s.hbmMap (k * 2 ^ 20 + r2) (k * 2 ^ 20 + r2)
          ∧ tgetD t.hbmMap (k * 2 ^ 20 + r2) (k * 2 ^ 20 + r2) = tgetD s.hbmMap (k * 2 ^ 20 + r) (k * 2 ^ 20 + r)
          ∧ (k * 2 ^ 20 + r, s.clk + 9400) ∈ t.swapping ∧ (k * 2 ^ 20 + r2, s.clk + 9400) ∈ t.swapping
          ∧ t = { s with hbmMap := t.hbmMap, swaps := s.swaps + 1, swapping := t.swapping }) := by
  generalize ha : k * 2 ^ 20 + r = a
  generalize hb : k * 2 ^ 20 + r2 = b
  rw [maySwap_iff]
  refine ⟨_, rfl, ?_⟩
  rw [ha, hb]
  split
  next h => exact ⟨fun _ _ => rfl, fun _ => rfl, fun h' => absurd h h'⟩
  next h =>
    refine ⟨fun _ _ => rfl, fun h' => absurd h h', fun _ => ⟨?_, ?_, ?_, ?_, rfl⟩⟩
    · dsimp only
      rw [tgetD_tset]
      split
      next he => rw [he]
      · rw [tgetD_tset, if_pos rfl]
    · dsimp only
      rw [tgetD_tset, if_pos rfl]
    · exact List.mem_append_right _ (.head _)
    · exact List.mem_append_right _ (.tail _ (.head _))
theorem powerDown_marks (s : State) (k ch : Nat) : ∃ t, exec (.pseudoChannelPowerDown k ch) s = .next t ∧ t = { s with pchan := t.pchan }
    ∧ (bits (s.die (stackDie k)).hbmpm 23 8 = 0 ∨ ¬tgetD s.pchanUsed (64 * k + ch) 0 + bits (s.die (stackDie k)).hbmpm 23 8 ≤ s.clk → t = s)
    ∧ (bits (s.die (stackDie k)).hbmpm 23 8 ≠ 0 → tgetD s.pchanUsed (64 * k + ch) 0 + bits (s.die (stackDie k)).hbmpm 23 8 ≤ s.clk →
        tget s.pchan (64 * k + ch) = none → tget t.pchan (64 * k + ch) = some 1) := by
  refine ⟨_, rfl, ?_, fun h => if_pos ?_, fun h0 h1 h2 => ?_⟩
  · split <;> rfl
  · exact h.imp_right fun h => .inl (by rw [State.idleFor, decide_eq_false h]; rfl)
  · rw [if_neg (by rw [State.idleFor, decide_eq_true h1, h2]; simp [h0])]
    exact tget_tset_same _ _ _
theorem selfRefresh_marks (s : State) (k ch : Nat) : ∃ u, exec (.pseudoChannelSelfRefresh k ch) s = .next u ∧ u = { s with pchan := u.pchan }
    ∧ (bits (s.die (stackDie k)).hbmpm 39 24 = 0 ∨ ¬tgetD s.pchanUsed (64 * k + ch) 0 + 940 * bits (s.die (stackDie k)).hbmpm 39 24 ≤ s.clk → u = s)
    ∧ (bits (s.die (stackDie k)).hbmpm 39 24 ≠ 0 → tgetD s.pchanUsed (64 * k + ch) 0 + 940 * bits (s.die (stackDie k)).hbmpm 39 24 ≤ s.clk →
        tget u.pchan (64 * k + ch) = some 2) := by
  refine ⟨_, rfl, ?_, fun h => if_pos ?_, fun h0 h1 => ?_⟩
  · split <;> rfl
  · exact h.imp_right fun h => by rw [State.idleFor, decide_eq_false h]; rfl
  · rw [if_neg (by rw [State.idleFor, decide_eq_true h1]; simp [h0])]
    exact tget_tset_same _ _ _
theorem stackRetrain_looks (s : State) (k : Nat) : ∃ t, exec (.stackRetrain k) s = .next t ∧ SameBytes s t
    ∧ (s.deadlineTraffic k = false → tgetD t.retrains k 0 = tgetD s.retrains k 0 + 1 ∧ t.grants = s.grants)
    ∧ (s.deadlineTraffic k = true → t.retrains = s.retrains ∧ let since := tgetD s.retrainWait k s.clk
        (s.clk < since + 1880000 → t.grants = s.grants ∧ (s.clk + 940, Instr.stackRetrain k) ∈ t.agenda ∧ tget t.retrainWait k = some since)
        ∧ (since + 1880000 ≤ s.clk → tget t.grants (stackDie k) = some (0, s.clk + 1880))) := by
  refine ⟨_, rfl, ?_⟩
  dsimp only
  cases hd : s.deadlineTraffic k with
  | false =>
    rw [if_pos (by rfl)]
    exact ⟨fun _ _ => rfl, fun _ => ⟨by rw [tgetD_tset, if_pos rfl], rfl⟩, fun h => absurd h Bool.false_ne_true⟩
  | true =>
    rw [if_neg (by decide)]
    split
    next h =>
      exact ⟨fun _ _ => rfl, fun h => absurd h Bool.false_ne_true.symm, fun _ => ⟨rfl, fun _ => ⟨rfl, mem_schedule.2 (.inl rfl), tget_tset_same _ _ _⟩,
        fun h' => absurd h (by omega)⟩⟩
    next h =>
      exact ⟨fun _ _ => rfl, fun h => absurd h Bool.false_ne_true.symm, fun _ => ⟨rfl, fun h' => absurd h' h, fun _ => tget_tset_same _ _ _⟩⟩

/-- Settles O53, event by event. -/
theorem memoryEvents : Obligations.MemoryEvents := by
  intro s
  refine ⟨fun d p vpn => ?_, fun c => ?_, hotRegionSwap_swaps s, fun k ch => ?_, stackRetrain_looks s, fun c h => ?_, fun q id => ?_⟩
  · exact ⟨_, rfl, endWalk_same s d p vpn, fun e lg a h => endWalk_enters h, fun c h => walkedNowhere_tells (endWalk_fail h),
      fun f h => walkedNowhere_tells (endWalk_ecc h)⟩
  · exact ⟨_, rfl, fun h => if_pos (by rw [h]; rfl), fun pl leaf h ht => fetchReturn_at h ht⟩
  · obtain ⟨t, ht, h1, h2⟩ := powerDown_marks s k ch
    obtain ⟨u, hu, h3, h4⟩ := selfRefresh_marks s k ch
    exact ⟨t, u, ht, hu, h1, h3, h2, h4⟩
  · exact ⟨_, rfl, (countUp_keeps ..).sameBytes, count_events⟩
  · refine ⟨_, rfl, fun h => ?_, fun h m at_ hf hk hd hp ho => (removed_moved s _ m at_).mp (pagemvDone_removed hf hk hd hp ho)⟩
    rw [State.pagemvDone, h]
end Sys2Proof.Machine
end

section
/-! Proofs about the host, the mailbox and weight loads (R172, R394, R404, R405, R409 to R412). -/
namespace Sys2Proof.Machine
open Sys2Proof

/-! ### The host's accesses (R394, R398) -/

theorem hostMemWrite_writes (s : State) (a : Nat) (data : List Byte) : ∃ t, exec (.hostMemWrite a data) s = .next t ∧ t = { s with mem := t.mem }
    ∧ ∀ x, tgetD t.mem x 0 = if a ≤ x ∧ x < a + data.length ∧ x < 2 ^ 40 then data.getD (x - a) 0 else tgetD s.mem x 0 := by
  refine ⟨_, rfl, ?_, fun x => ?_⟩
  · split <;> rfl
  · unfold hbmBytes
    split
    next h =>
      dsimp only
      rw [tgetD_memWrite, List.length_take]
      by_cases hx : a ≤ x ∧ x < a + data.length ∧ x < 2 ^ 40
      · obtain ⟨h1, h2, h3⟩ := hx
        rw [if_pos ⟨h1, by omega⟩, if_pos ⟨h1, h2, h3⟩]
        simp only [List.getD_eq_getElem?_getD, List.getElem?_take]
        rw [if_pos (by omega)]
      · rw [if_neg (by omega), if_neg hx]
    next h => rw [if_neg (by omega)]
theorem hostByte_ready {s : State} {a n i : Nat} (hr : s.ready = true) (hn : a + n ≤ 2 ^ 40) (hs : Spec.sound s a n) (hi : i < n) :
    s.hostByte (a + i) = tgetD s.mem (a + i) 0 := by
  refine if_neg ?_
  rw [hr, decide_eq_false (by unfold hbmBytes; omega), List.any_eq_false.2 fun w hw => ?_]
  · decide
  · have := hs w hw
    simp only [Bool.and_eq_true, decide_eq_true_eq, not_and]
    omega

/-! ### Bytes of a command -/

theorem drop_take_getD {b : List Byte} {o n : Nat} (h : o + n ≤ b.length) : (b.drop o).take n = (List.range n).map fun i => b.getD (o + i) 0 := by
  refine List.ext_getElem (by rw [List.length_take, List.length_drop, List.length_map, List.length_range]; omega) fun i h1 h2 => ?_
  rw [List.getElem_take, List.getElem_drop, List.getElem_map, List.getElem_range, List.getD_eq_getElem]
theorem field_number {b : List Byte} {o n : Nat} (h : o + n ≤ b.length) : field b o n = Spec.number ((List.range n).map fun i => b.getD (o + i) 0) := by
  rw [field, leNat_eq, drop_take_getD h]
theorem zeros_iff {b : List Byte} {o n : Nat} (h : o + n ≤ b.length) : zeros b o n = true ↔ ∀ i, i < n → b.getD (o + i) 0 = 0 := by
  rw [zeros, drop_take_getD h, List.all_map, List.all_eq_true]
  simp only [List.mem_range, Function.comp, beq_iff_eq]

/-! ### The mailbox (R404) -/

theorem mailbox_takes {s : State} {data : List Byte} (hl : data.length = 64) (hm : s.mboxState ≠ 1) (hr : s.ready = true) :
    let op := (data.getD 0 0).toNat
    let bad := op = 0 ∨ 4 < op ∨ ∃ i, 0 < i ∧ i < 8 ∧ data.getD i 0 ≠ 0
    (s.mailbox data).mboxOp = op ∧ (bad → (s.mailbox data).mboxState = 3 ∧ (s.mailbox data).mboxDetail = 1)
    ∧ (¬bad → (s.mailbox data).mboxState = 1 ∧ (s.mailbox data).mboxDetail = 0
        ∧ ∃ ev, (s.mailbox data).mboxNext = some ev ∧ (s.clk + 1, ev) ∈ (s.mailbox data).agenda) := by
  have hop : field data 0 1 = (data.getD 0 0).toNat := by
    rw [field_number (by omega)]
    simp [Spec.number]
  have hz : (!zeros data 1 7) = true ↔ ∃ i, 0 < i ∧ i < 8 ∧ data.getD i 0 ≠ 0 := by
    rw [Bool.not_eq_true', ← Bool.not_eq_true, zeros_iff (by omega)]
    constructor
    · intro h
      obtain ⟨i, hi⟩ := not_forall.1 h
      obtain ⟨h7, hn⟩ := Classical.not_imp.1 hi
      exact ⟨1 + i, by omega, by omega, hn⟩
    · rintro ⟨i, h0, h8, hn⟩ h
      have := h (i - 1) (by omega)
      rw [show 1 + (i - 1) = i by omega] at this
      exact hn this
  dsimp only
  unfold State.mailbox
  dsimp only
  rw [if_neg hm, if_neg (by rw [hr]; simp), hop]
  generalize (data.getD 0 0).toNat = op at *
  by_cases hb : op = 0 ∨ 4 < op ∨ (!zeros data 1 7) = true
  · rw [if_pos hb]
    exact ⟨rfl, fun _ => ⟨rfl, rfl⟩, fun h => absurd (hb.imp_right (.imp_right hz.1)) h⟩
  · rw [if_neg hb]
    exact ⟨rfl, fun h => absurd (h.imp_right (.imp_right hz.2)) hb, fun _ => ⟨rfl, rfl, _, rfl, mem_schedule.2 (.inl rfl)⟩⟩
/-- How an event of the mailbox goes on, by what its command answers. -/
def State.ran (ev : Instr) (e : Eng Unit) : State :=
  match e with
  | .ok s _ => s
  | .stop s _ => { s with mboxNext := some ev }.schedule 64 ev
theorem command_busy {s : State} {op : Nat} {ev : Instr} {f : State → Eng Unit} (h1 : s.mboxState = 1) (h2 : s.mboxNext ≠ some ev) :
    s.command op ev f = { s with mboxOverrun := true } := Eq.trans (if_pos h1) (if_neg h2)
theorem command_mailed {s u : State} {op : Nat} {ev : Instr} {f : State → Eng Unit} (h : Spec.Mailed s u op ev) : s.command op ev f = State.ran ev (f u) := by
  obtain ⟨hr, ⟨h1, h2, rfl⟩ | ⟨h1, rfl⟩⟩ := h
  · exact Eq.trans (if_pos h1) (if_pos h2)
  · exact Eq.trans (if_neg h1) (if_neg (by rw [hr]; simp))
theorem mailed_keeps {s u : State} {op : Nat} {ev : Instr} (h : Spec.Mailed s u op ev) :
    u = { s with mboxOp := u.mboxOp, mboxState := 1, mboxDetail := u.mboxDetail, mboxNext := u.mboxNext } := by
  obtain ⟨-, ⟨h1, -, rfl⟩ | ⟨-, rfl⟩⟩ := h
  · rw [← h1]
  · rfl
theorem mboxRead_fetched (s : State) (va : W64) (n : Nat) : Fetched s (s.mboxRead va n).state :=
  .orElse _ (.andThen (engPieces_fetched ..) fun t _ => .refl t)
theorem mboxRead_ok {s v : State} {va : W64} {n : Nat} {b : Option (List Byte)} (h : s.mboxRead va n = .ok v b) : Fetched s v := by
  have := mboxRead_fetched s va n
  rw [h] at this
  exact this
theorem withArg_stop {v : State} {w : EngStop} (f : State → List Byte → Eng Unit) : State.withArg (.stop v w) f = .stop v w := rfl
theorem withArg_none (v : State) (f : State → List Byte → Eng Unit) : State.withArg (.ok v none) f = .ok (v.mboxEnd 3 1) () := rfl
theorem withArg_some (v : State) (b : List Byte) (f : State → List Byte → Eng Unit) : State.withArg (.ok v (some b)) f = f v b := rfl

/-! ### POD (R405) -/

section
variable {s : State} {a0 a1 a2 a3 : W64}
theorem podSet_bad (h : a1 = 0 ∨ 64 < a1.toNat ∨ a1.toNat ≤ a2.toNat ∨ 127 < a3.toNat) : s.podSet a0 a1 a2 a3 = .ok (s.mboxEnd 3 1) () := if_pos h
variable (hb : ¬(a1 = 0 ∨ 64 < a1.toNat ∨ a1.toNat ≤ a2.toNat ∨ 127 < a3.toNat))
include hb
theorem podSet_used (h : ∃ e, e ∈ s.parts ∧ bit e.2.sscfg 19 = true) : s.podSet a0 a1 a2 a3 = .ok (s.mboxEnd 3 2) () :=
  Eq.trans (if_neg hb) (if_pos (List.any_eq_true.2 h))
theorem podSet_reads (h : ¬∃ e, e ∈ s.parts ∧ bit e.2.sscfg 19 = true) : s.podSet a0 a1 a2 a3 =
    State.withArg (s.mboxRead a0 (16 * a1.toNat)) fun s t =>
      .ok ({ s with podSize := a1.toNat, podIndex := a2.toNat, podTable := t, podDomain := a3.toNat, locked := false }.podMissing.mboxEnd 2 0) () :=
  Eq.trans (if_neg hb) (if_neg fun g => h (List.any_eq_true.1 g))
end
theorem pod_commands (s : State) (a0 a1 a2 a3 : W64) : ∃ t, exec (.pod a0 a1 a2 a3) s = .next t
    ∧ (s.mboxState = 1 → s.mboxNext ≠ some (.pod a0 a1 a2 a3) → t = { s with mboxOverrun := true })
    ∧ (∀ u, Spec.Mailed s u 1 (.pod a0 a1 a2 a3) →
        let bad := a1 = 0 ∨ 64 < a1.toNat ∨ a1.toNat ≤ a2.toNat ∨ 127 < a3.toNat
        let inUse := ∃ e, e ∈ s.parts ∧ bit e.2.sscfg 19 = true
        (bad → t.mboxState = 3 ∧ t.mboxDetail = 1) ∧ (¬ bad → inUse → t.mboxState = 3 ∧ t.mboxDetail = 2)
        ∧ (∀ v w, ¬ bad → ¬ inUse → u.mboxRead a0 (16 * a1.toNat) = .stop v w →
            t = { v with mboxNext := some (.pod a0 a1 a2 a3) }.schedule 64 (.pod a0 a1 a2 a3))
        ∧ (∀ v, ¬ bad → ¬ inUse → u.mboxRead a0 (16 * a1.toNat) = .ok v none → t.mboxState = 3 ∧ t.mboxDetail = 1)
        ∧ (∀ v b, ¬ bad → ¬ inUse → u.mboxRead a0 (16 * a1.toNat) = .ok v (some b) → t.mboxState = 2 ∧ t.mboxDetail = 0 ∧ t.podSize = a1.toNat
            ∧ t.podIndex = a2.toNat ∧ t.podTable = b ∧ t.podDomain = a3.toNat)) := by
  refine ⟨_, rfl, command_busy, fun u hu => ?_⟩
  have hp : u.parts = s.parts := by rw [mailed_keeps hu]
  rw [command_mailed hu, ← hp]
  refine ⟨fun hb => ?_, fun hb hi => ?_, fun v w hb hi hr => ?_, fun v hb hi hr => ?_, fun v b hb hi hr => ?_⟩
  · rw [podSet_bad hb]
    exact ⟨rfl, rfl⟩
  · rw [podSet_used hb hi]
    exact ⟨rfl, rfl⟩
  · rw [podSet_reads hb hi, hr]
    rfl
  · rw [podSet_reads hb hi, hr]
    exact ⟨rfl, rfl⟩
  · rw [podSet_reads hb hi, hr]
    exact ⟨rfl, rfl, rfl, rfl, rfl, rfl⟩

/-! ### LOADW (R409) -/

theorem loadw_commands (s : State) (a0 a1 a2 a3 a4 a5 : W64) : ∃ t, exec (.loadw a0 a1 a2 a3 a4 a5) s = .next t
    ∧ (s.mboxState = 1 → s.mboxNext ≠ some (.loadw a0 a1 a2 a3 a4 a5) → t = { s with mboxOverrun := true })
    ∧ (∀ u, Spec.Mailed s u 2 (.loadw a0 a1 a2 a3 a4 a5) →
        (3 < a1.toNat ∨ a3 = 0 ∨ 2 ^ 26 < a3.toNat ∨ 3 < a5.toNat → t.mboxState = 3 ∧ t.mboxDetail = 1)
        ∧ (a1.toNat ≤ 3 → 0 < a3.toNat → a2.toNat + a3.toNat ≤ lastPage + 1 → a5 = 0 ∨ a5 = 2 → a3.toNat ≤ 2 ^ 26 →
            (s.loadw ≠ none → t = { u with mboxNext := some (.loadw a0 a1 a2 a3 a4 a5) }.schedule 64 (.loadw a0 a1 a2 a3 a4 a5))
            ∧ (∀ v w b dg, s.loadw = none → u.mboxRead a0 32 = .ok v (some b) → v.mboxRead a4 32 = .ok w (some dg) →
              t.mboxState = 1 ∧ t.loadw = some ⟨a1.toNat, a2.toNat, a3.toNat, false, a5 == 2, dg, [], [], 0, false, none⟩
              ∧ t.portOut = if a5 = 2 ∧ s.podSize ≠ 0 ∧ s.podIndex + 1 < s.podSize then [.load a1.toNat a2.toNat a3.toNat s.podIndex dg] else []))) := by
  refine ⟨_, rfl, command_busy, fun u hu => ?_⟩
  have hk := mailed_keeps hu
  have hl : u.loadw = s.loadw := by rw [hk]
  rw [command_mailed hu]
  refine ⟨fun hb => ?_, fun h1 h3 hlast h5 hn => ?_⟩
  · have h0 : a3 = 0 ↔ a3.toNat = 0 := by rw [← BitVec.toNat_inj]; rfl
    rw [h0] at hb
    unfold State.loadStart
    dsimp only
    rw [if_pos hb]
    exact ⟨rfl, rfl⟩
  · have hf : bit a5 0 = false ∧ bit a5 1 = (a5 == 2) ∧ ¬3 < a5.toNat := by rcases h5 with rfl | rfl <;> decide
    obtain ⟨f0, f1, f2⟩ := hf
    have hg : u.loadStart a0 a1 a2 a3 a4 a5 = if u.loadw.isSome then .stop u .wait
        else State.withArg (u.mboxRead a0 32) fun s _ => State.withArg (s.mboxRead a4 32) fun s digest =>
          .ok (s.loadBegin ⟨a1.toNat, a2.toNat, a3.toNat, false, a5 == 2, digest, [], [], 0, false, none⟩) () := by
      unfold State.loadStart
      dsimp only
      rw [if_neg (by omega), f0, f1, if_neg (by rw [decide_eq_false (by omega)]; decide)]
      simp
    rw [hg]
    refine ⟨fun hs => ?_, fun v w b dg hs hr1 hr2 => ?_⟩
    · rw [if_pos (Option.isSome_iff_ne_none.2 (hl ▸ hs))]
      rfl
    · rw [if_neg (by rw [hl, hs]; decide), hr1, withArg_some, hr2, withArg_some]
      have h1 := (mboxRead_ok hr1).trans (mboxRead_ok hr2)
      have hm : w.mboxState = 1 ∧ w.podSize = s.podSize ∧ w.podIndex = s.podIndex := by
        rw [h1.eq]
        exact hk ▸ ⟨rfl, rfl, rfl⟩
      obtain ⟨m1, m2, m3⟩ := hm
      refine ⟨m1, rfl, ?_⟩
      unfold State.ran State.loadBegin State.passesOn
      dsimp only
      rw [m2, m3]
      simp [and_assoc]

/-! ### ATTEST and FWSTAGE (R411, R412) -/

/-- Pieces that all translate to HBM are placed there, and no walk begins. -/
theorem engPlaces_hbm {s : State} {x : Ctx} {a : Acc} (ws : List (Nat × List Byte))
    (h : ∀ c, c ∈ ws → ∃ pa leaf, pa < 2 ^ 40 ∧ s.translate x a (BitVec.ofNat 64 c.1) = .at_ (.phys pa) leaf) :
    ∃ ps, s.engPlaces x a ws = .ok s ps ∧ (ps.all fun p => p.2.1.isHbm) = true := by
  induction ws with
  | nil => exact ⟨[], rfl, rfl⟩
  | cons c ws ih =>
    obtain ⟨pa, leaf, hpa, ht⟩ := h c (.head _)
    obtain ⟨ps, hp, hall⟩ := ih fun d hd => h d (.tail _ hd)
    have he : s.engineTranslate x a (BitVec.ofNat 64 c.1) = (s, .at_ (.phys pa) leaf) := by
      unfold State.engineTranslate
      rw [ht]
    refine ⟨(c.1, .phys pa, c.2) :: ps, ?_, ?_⟩
    · unfold State.engPlaces
      dsimp only
      rw [he]
      dsimp only
      rw [if_neg (by exact Bool.false_ne_true), hp]
    · rw [List.all_cons, hall, Bool.and_true]
      exact decide_eq_true hpa
/-- A cut of a range begins at its begin or at a line within it. -/
theorem mem_lineCuts {c : Nat × Nat} (f : Nat) : ∀ {va n : Nat}, c ∈ lineCuts f va n → (c.1 = va ∨ c.1 % 64 = 0 ∧ va < c.1) ∧ c.1 < va + n := by
  induction f with
  | zero => exact fun h => (nomatch h)
  | succ f ih =>
    intro va n h
    rw [lineCuts] at h
    split at h
    · cases h
    next hn =>
      dsimp only at h
      rcases List.mem_cons.1 h with rfl | h
      · exact ⟨.inl rfl, by dsimp only; omega⟩
      · obtain ⟨h1, h2⟩ := ih h
        have : min n (64 - va % 64) = n ∨ (va + min n (64 - va % 64)) % 64 = 0 := by omega
        refine ⟨.inr ?_, by omega⟩
        rcases h1 with h1 | h1
        · omega
        · exact ⟨h1.1, by omega⟩
theorem mem_byteCuts {c : Nat × List Byte} {va : Nat} {b : List Byte} (h : c ∈ byteCuts va b) : (c.1 = va ∨ c.1 % 64 = 0 ∧ va < c.1) ∧ c.1 < va + b.length := by
  obtain ⟨d, hd, rfl⟩ := List.mem_map.1 h
  exact mem_lineCuts _ hd
theorem attest_commands (s : State) (a0 a1 : W64) : ∃ t, exec (.attest a0 a1) s = .next t
    ∧ (s.mboxState = 1 → s.mboxNext ≠ some (.attest a0 a1) → t = { s with mboxOverrun := true })
    ∧ (∀ u, Spec.Mailed s u 3 (.attest a0 a1) →
        (∀ v w, u.mboxRead a0 32 = .stop v w → t = { v with mboxNext := some (.attest a0 a1) }.schedule 64 (.attest a0 a1))
        ∧ (∀ v, u.mboxRead a0 32 = .ok v none → t.mboxState = 3 ∧ t.mboxDetail = 1)
        ∧ (∀ v n, u.mboxRead a0 32 = .ok v (some n) →
            (∀ x, (x = a1.toNat ∨ x % 64 = 0 ∧ a1.toNat < x) → x < a1.toNat + (v.reportAll n).length →
              ∃ pa leaf, pa < 2 ^ 40 ∧ v.translate (schedCtx 0 v.svPart) (.dst false) (BitVec.ofNat 64 x) = .at_ (.phys pa) leaf) →
            ∃ w, v.engWrites (schedCtx 0 v.svPart) 17 false {} [(a1.toNat, v.reportAll n)] = .ok w ()
              ∧ t = { w with mboxState := 2, mboxDetail := BitVec.ofNat 32 (v.reportAll n).length })) := by
  refine ⟨_, rfl, command_busy, fun u hu => ?_⟩
  rw [command_mailed hu]
  refine ⟨fun v w hr => ?_, fun v hr => ?_, fun v n hr hx => ?_⟩
  · rw [State.attestTo, hr]
    rfl
  · rw [State.attestTo, hr]
    exact ⟨rfl, rfl⟩
  · obtain ⟨ps, hp, hall⟩ := engPlaces_hbm (s := v) (x := schedCtx 0 v.svPart) (a := .dst false) (byteCuts a1.toNat (v.reportAll n)) fun c hc =>
      hx c.1 (mem_byteCuts hc).1 (mem_byteCuts hc).2
    refine ⟨v.engPut (schedCtx 0 v.svPart) 17 {} ps, ?_, ?_⟩
    · unfold State.engWrites
      rw [List.flatMap_singleton, hp]
    · rw [State.attestTo, hr, withArg_some]
      dsimp only
      rw [hp]
      dsimp only
      rw [if_pos hall]
      rfl
theorem fwstage_commands (s : State) (a0 a1 : W64) : ∃ t, exec (.fwstage a0 a1) s = .next t
    ∧ (s.mboxState = 1 → s.mboxNext ≠ some (.fwstage a0 a1) → t = { s with mboxOverrun := true })
    ∧ (∀ u, Spec.Mailed s u 4 (.fwstage a0 a1) →
        (2 ^ 26 < a1.toNat → t.mboxState = 3 ∧ t.mboxDetail = 1)
        ∧ (∀ v, a1.toNat ≤ 2 ^ 26 → u.mboxRead a0 a1.toNat = .ok v none → t.mboxState = 3 ∧ t.mboxDetail = 1)
        ∧ (∀ v b, a1.toNat ≤ 2 ^ 26 → u.mboxRead a0 a1.toNat = .ok v (some b) →
            (Config.firmwareSigned b = false → t.mboxState = 3 ∧ t.mboxDetail = 2)
            ∧ (Config.firmwareSigned b = true → (Config.firmwareVersion b).toNat < s.fwLowest.toNat → t.mboxState = 3 ∧ t.mboxDetail = 3)
            ∧ (Config.firmwareSigned b = true → s.fwLowest.toNat ≤ (Config.firmwareVersion b).toNat → t.mboxState = 2
                ∧ tget t.fwSlots (1 - s.fwActive) = some b ∧ t.fwStaged = true ∧ t.fwActive = s.fwActive))) := by
  refine ⟨_, rfl, command_busy, fun u hu => ?_⟩
  have hk := mailed_keeps hu
  have hr : u.ready = true := by rw [hk]; exact hu.1
  have hs : u.stageRead a0 a1.toNat = u.mboxRead a0 a1.toNat := if_pos hr
  rw [command_mailed hu]
  refine ⟨fun hb => ?_, fun v hb hv => ?_, fun v b hb hv => ?_⟩
  · rw [State.fwStage, if_pos hb]
    exact ⟨rfl, rfl⟩
  · rw [State.fwStage, if_neg (by omega), hs, hv]
    exact ⟨rfl, rfl⟩
  · have hw : v.fwLowest = s.fwLowest ∧ v.fwActive = s.fwActive := by
      rw [(mboxRead_ok hv).eq, hk]
      exact ⟨rfl, rfl⟩
    rw [State.fwStage, if_neg (by omega), hs, hv, withArg_some, hw.1]
    refine ⟨fun h => ?_, fun h1 h2 => ?_, fun h1 h2 => ?_⟩
    · rw [h]
      exact ⟨rfl, rfl⟩
    · rw [h1, if_neg (by decide), if_pos h2]
      exact ⟨rfl, rfl⟩
    · rw [h1, if_neg (by decide), if_neg (by omega), ← hw.2]
      exact ⟨rfl, tget_tset_same _ _ _, rfl, rfl⟩

/-! ### Chunks of a load (R409) -/

/-- The machine with another load under way and other messages at its port. -/
def State.loading (s : State) (x : Option Load) (o : List PortMsg) : State := { s with loadw := x, portOut := o }
section
variable (s : State) (x : Option Load) (o : List PortMsg)
theorem foldl_loading {α : Type} {f : State → α → State} (h : ∀ s a, f (s.loading x o) a = (f s a).loading x o) (l : List α) :
    ∀ s : State, l.foldl f (s.loading x o) = (l.foldl f s).loading x o := by
  induction l with
  | nil => exact fun _ => rfl
  | cons a l ih =>
    intro s
    rw [List.foldl_cons, h, ih]
    rfl
theorem setBlock_loading (e b : Nat) (f : Flash) : (s.loading x o).setBlock e b f = (s.setBlock e b f).loading x o := by
  have h1 (n : Nat) (l : List Nat) (s : State) : l.foldl (fun s st => s.bumpStack e st n) (s.loading x o) = (l.foldl (fun s st => s.bumpStack e st n) s).loading x o :=
    foldl_loading x o (fun _ _ => rfl) l s
  have h2 (n : Nat) (l : List Nat) (s : State) : l.foldl (fun s st => s.dropStack e st n) (s.loading x o) = (l.foldl (fun s st => s.dropStack e st n) s).loading x o :=
    foldl_loading x o (fun _ _ => rfl) l s
  have h3 : (s.loading x o).setFlash e f = (s.setFlash e f).loading x o := rfl
  unfold State.setBlock
  dsimp only
  rw [h3, h2, h1]
  rfl
theorem takeFresh_loading (e near : Nat) (only : Bool) (n : Nat) :
    ∀ s : State, (s.loading x o).takeFresh e near only n = ((s.takeFresh e near only n).1.loading x o, (s.takeFresh e near only n).2) := by
  induction n with
  | zero => exact fun _ => rfl
  | succ n ih =>
    intro s
    have hf : (s.loading x o).flash e = s.flash e := rfl
    have hr (b : Nat) : (s.loading x o).retireBlock e b = (s.retireBlock e b).loading x o := by
      unfold State.retireBlock
      rw [hf]
      dsimp only
      rw [setBlock_loading]
      rfl
    unfold State.takeFresh
    dsimp only
    rw [hf]
    split
    · rfl
    next b _ =>
      split
      · rw [hr, ih]
      · rw [setBlock_loading]
theorem takeSpare_loading (e near : Nat) (only : Bool) :
    (s.loading x o).takeSpare e near only = ((s.takeSpare e near only).1.loading x o, (s.takeSpare e near only).2) := takeFresh_loading x o e near only _ s
end

theorem loadFail_fails (s : State) (l : Load) (d : Nat) : (s.loadFail l d).loadw = none
    ∧ (l.relay = none → (s.loadFail l d).mboxState = 3 ∧ (s.loadFail l d).mboxDetail = BitVec.ofNat 32 d)
    ∧ (l.relay ≠ none → (s.loadFail l d).mboxState = s.mboxState) ∧ (s.loadFail l d).portOut = s.portOut := by
  have hw := (Fetched.foldl (fun (s : State) b => giveBack_fetched s l.ed b) l.blocks s).eq
  unfold State.loadFail
  dsimp only
  revert hw
  generalize l.blocks.foldl _ s = w
  intro hw
  have hm : w.mboxState = s.mboxState := (congrArg State.mboxState hw :)
  have hp : w.portOut = s.portOut := (congrArg State.portOut hw :)
  split
  next h =>
    refine ⟨rfl, fun hn => ?_, fun _ => hm, hp⟩
    rw [hn] at h
    cases h
  next h =>
    refine ⟨rfl, fun _ => ⟨rfl, rfl⟩, fun hn => ?_, hp⟩
    exact absurd (Option.isSome_iff_ne_none.2 hn) h
section
variable {s : State} {l : Load}
theorem loadPages_whole {n : Nat} (hl : s.loadw = some l) (h : l.pages ≤ l.written ∨ l.got.length < pageBytes * (l.written + 1)) : s.loadPages n = s := by
  cases n with
  | zero => rfl
  | succ n =>
    unfold State.loadPages
    rw [hl]
    exact if_neg (by omega)
theorem loadPages_step {u : State} {n : Nat} (hl : s.loadw = some l) (h : l.written < l.pages ∧ pageBytes * (l.written + 1) ≤ l.got.length)
    (hp : s.loadPage l = .ok u ()) : s.loadPages (n + 1) = u.loadPages n := by
  conv => lhs; unfold State.loadPages
  rw [hl]
  dsimp only
  rw [if_pos h, hp]
theorem loadPage_kept (hh : l.toHbm = false) (h : l.written % 256 ≠ 0) :
    s.loadPage l = .ok { s with loadw := some { l with written := l.written + 1 } } () := by
  unfold State.loadPage
  dsimp only
  rw [if_neg (ne_true_of_eq_false hh), if_neg h]
theorem loadPage_full {u : State} (hh : l.toHbm = false) (h : l.written % 256 = 0) (ht : s.takeSpare l.ed 4 false = (u, none)) :
    s.loadPage l = .ok (u.loadFail l 3) () := by
  unfold State.loadPage
  dsimp only
  rw [if_neg (ne_true_of_eq_false hh), if_pos h, ht]
theorem loadPage_block {u : State} {b : Nat} (hh : l.toHbm = false) (h : l.written % 256 = 0) (ht : s.takeSpare l.ed 4 false = (u, some b)) :
    s.loadPage l = .ok { u with loadw := some { l with written := l.written + 1, blocks := l.blocks ++ [b] } } () := by
  unfold State.loadPage
  dsimp only
  rw [if_neg (ne_true_of_eq_false hh), if_pos h, ht]
theorem takeSpare_fetched (s : State) (e near : Nat) (only : Bool) : Fetched s (s.takeSpare e near only).1 := takeFresh_fetched ..
theorem loadPage_portOut (s : State) (l : Load) : (s.loadPage l).state.portOut = s.portOut := by
  unfold State.loadPage
  dsimp only
  have hw (x : Ctx) (ws : List (Nat × List Byte)) : (s.engWrites x 17 false {} ws).state.portOut = s.portOut := (congrArg State.portOut (engWrites_worked s x 17 false {} ws).eq :)
  have ht := (congrArg State.portOut (takeSpare_fetched s l.ed 4 false).eq :)
  have hf (t : State) (d : Nat) : (t.loadFail l d).portOut = t.portOut := (loadFail_fails t l d).2.2.2
  split
  · split
    next heq =>
      have h0 := congrArg (fun e : Eng Unit => e.state.portOut) heq
      exact h0.symm.trans (hw _ _)
    next heq =>
      have h0 := congrArg (fun e : Eng Unit => e.state.portOut) heq
      exact h0.symm.trans (hw _ _)
    next heq =>
      have h0 := congrArg (fun e : Eng Unit => e.state.portOut) heq
      exact (hf _ _).trans (h0.symm.trans (hw _ _))
  · split
    · split
      next heq =>
        rw [heq] at ht
        exact (hf _ _).trans ht
      next heq =>
        rw [heq] at ht
        exact ht
    · rfl
theorem loadPages_portOut (n : Nat) : ∀ s : State, (s.loadPages n).portOut = s.portOut := by
  induction n with
  | zero => exact fun _ => rfl
  | succ n ih =>
    intro s
    unfold State.loadPages
    split
    · rfl
    next l _ =>
      have h := loadPage_portOut s l
      split
      · split
        next heq =>
          rw [heq] at h
          exact (ih _).trans h
        next heq =>
          rw [heq] at h
          unfold State.scheduleOnce
          rw [apply_ite State.portOut]
          exact (ite_self _).trans h
      · rfl
end

/-- The number in the eight bytes at an offset of a chunk. -/
def chunkWord (data : List Byte) (o : Nat) : Nat := Spec.number ((List.range 8).map fun i => data.getD (o + i) 0)
theorem chunk_relays {s : State} {data : List Byte} (hl : s.loadw = none) :
    let taken := s.podSize ≠ 0 ∧ s.podIndex ≠ 0 ∧ data.length = 64 ∧ chunkWord data 0 ≤ 3 ∧ chunkWord data 16 ≠ 0
      ∧ chunkWord data 8 + chunkWord data 16 ≤ lastPage + 1
    (¬taken → s.chunk data = s)
    ∧ (taken → (s.chunk data).loadw = some ⟨chunkWord data 0, chunkWord data 8, chunkWord data 16, false, true, data.drop 32, [], [], 0, false, some (chunkWord data 24)⟩) := by
  have hc : s.chunk data = s.relayStart data := by
    unfold State.chunk
    rw [hl]
  dsimp only
  rw [hc]
  by_cases h64 : data.length = 64
  · have hf {o : Nat} (ho : o + 8 ≤ 64) : field data o 8 = chunkWord data o := field_number (by omega)
    unfold State.relayStart
    dsimp only
    rw [hf (by decide), hf (by decide), hf (by decide), hf (by decide)]
    refine ⟨fun hn => if_pos ?_, fun ⟨h1, h2, h3, h4, h5, h6⟩ => ?_⟩
    · simp only [h64, not_true_eq_false, ne_eq, true_and, false_or] at hn ⊢
      omega
    · rw [if_neg (by omega)]
      rfl
  · exact ⟨fun _ => if_pos (.inr (.inr (.inl h64))), fun ⟨_, _, h, _⟩ => absurd h h64⟩
section
variable {s : State} {l : Load} {data : List Byte} (hl : s.loadw = some l) (hs : l.switched = false) (hg : l.got.length < l.pages * 16384)
include hl hs hg
theorem chunk_empty (hd : data = []) : s.chunk data = s.loadFail l 4 := by
  unfold State.chunk
  rw [hl]
  dsimp only
  rw [hs, hd, if_neg (by rw [Bool.false_or]; exact fun h => absurd (of_decide_eq_true h) (by unfold pageBytes; omega))]
  rfl
/-- A chunk that brings bytes: they join those that have come, the pages that are whole are passed on and written. -/
theorem chunk_brings (hd : data ≠ []) : ∃ u : State, u = (s.loading (some { l with got := (l.got ++ data).take (l.pages * pageBytes) })
      (if s.passesOn l then ((List.range (((l.got ++ data).take (l.pages * pageBytes)).length / pageBytes - l.got.length / pageBytes)).map
        (l.got.length / pageBytes + ·)).map fun i => PortMsg.page i ((((l.got ++ data).take (l.pages * pageBytes)).drop (pageBytes * i)).take pageBytes) else [])).loadPages
      (data.length / pageBytes + 2)
    ∧ s.chunk data = u.loadw.elim u fun m => if m.written = m.pages then u.scheduleOnce 1 .loadwSwitch else u := by
  refine ⟨_, rfl, ?_⟩
  unfold State.chunk
  rw [hl]
  dsimp only
  rw [hs, if_neg (by rw [Bool.false_or]; exact fun h => absurd (of_decide_eq_true h) (by unfold pageBytes; omega)),
    if_neg (by rw [List.isEmpty_iff]; exact hd)]
  generalize hu : State.loadPages _ (data.length / pageBytes + 2) = u
  have hu' := hu
  unfold State.loading
  rw [hu']
  cases u.loadw <;> rfl
end
theorem scheduleOnce_keeps (s : State) (dt : Nat) (i : Instr) : s.scheduleOnce dt i = { s with agenda := (s.scheduleOnce dt i).agenda }
    ∧ ∃ e, e ∈ (s.scheduleOnce dt i).agenda ∧ e.2 = i := by
  unfold State.scheduleOnce
  split
  next h =>
    obtain ⟨e, he, hi⟩ := List.any_eq_true.1 h
    exact ⟨rfl, e, he, eq_of_beq hi⟩
  · exact ⟨rfl, _, mem_schedule.2 (.inl rfl), rfl⟩
theorem chunk_passes {s : State} {l : Load} {data : List Byte} {n : Nat} (hl : s.loadw = some l) (hs : l.switched = false) (hn : n < l.pages)
    (hg : l.got.length = 16384 * n) (hd : data.length = 16384) :
    (s.chunk data).portOut = if l.forward = true ∧ s.podSize ≠ 0 ∧ s.podIndex + 1 < s.podSize then [.page n data] else [] := by
  obtain ⟨u, hu, hc⟩ := chunk_brings hl hs (by omega) (data := data) fun h => by rw [h] at hd; cases hd
  have hout : (s.chunk data).portOut = u.portOut := by
    rw [hc]
    cases u.loadw with
    | none => rfl
    | some m =>
      dsimp only [Option.elim]
      split
      · rw [(scheduleOnce_keeps u 1 .loadwSwitch).1]
      · rfl
  have htake : (l.got ++ data).take (l.pages * pageBytes) = l.got ++ data := List.take_of_length_le (by rw [List.length_append]; unfold pageBytes; omega)
  have hone : (l.got ++ data).length / pageBytes - l.got.length / pageBytes = 1 ∧ l.got.length / pageBytes = n := by
    rw [List.length_append]
    unfold pageBytes
    omega
  have hpage : ((l.got ++ data).drop (pageBytes * n)).take pageBytes = data := by
    rw [show pageBytes * n = l.got.length from hg.symm, List.drop_left, List.take_of_length_le (by rw [hd]; exact Nat.le_refl _)]
  rw [hout, hu, loadPages_portOut, htake, hone.1, hone.2]
  have hp : s.passesOn l = true ↔ l.forward = true ∧ s.podSize ≠ 0 ∧ s.podIndex + 1 < s.podSize := by
    unfold State.passesOn
    simp [and_assoc]
  by_cases h : s.passesOn l = true
  · rw [if_pos (hp.1 h), if_pos h]
    exact congrArg (fun b => [PortMsg.page n b]) hpage
  · rw [if_neg fun g => h (hp.2 g), if_neg h]
    rfl
section
variable {s : State} {l : Load} {data : List Byte} (hl : s.loadw = some l) (hs : l.switched = false) (hd : data ≠ [])
  (hg : l.got.length + data.length ≤ 16384 * l.pages)
include hl hs hd hg
/-- A chunk within the load joins what has come; then the pages that are whole are written. -/
theorem chunk_joins : ∃ (o : List PortMsg) (u : State), u = (s.loading (some { l with got := l.got ++ data }) o).loadPages (data.length / pageBytes + 2)
    ∧ s.chunk data = u.loadw.elim u fun m => if m.written = m.pages then u.scheduleOnce 1 .loadwSwitch else u := by
  have hlen := List.length_pos_iff.2 hd
  obtain ⟨u, hu, hc⟩ := chunk_brings hl hs (by omega) hd
  rw [List.take_of_length_le (by rw [List.length_append]; unfold pageBytes; omega)] at hu
  exact ⟨_, u, hu, hc⟩
variable (hw : l.written < l.pages)
include hw
theorem chunk_waits (h : l.got.length + data.length < 16384 * (l.written + 1)) :
    s.chunk data = { s with loadw := some { l with got := l.got ++ data }, portOut := (s.chunk data).portOut } := by
  obtain ⟨o, u, hu, hc⟩ := chunk_joins hl hs hd hg
  rw [loadPages_whole rfl (.inr (by rw [List.length_append]; exact h))] at hu
  rw [hc, hu]
  dsimp only [State.loading, Option.elim]
  rw [if_neg (by omega)]
variable (h1 : 16384 * (l.written + 1) ≤ l.got.length + data.length) (hh : l.toHbm = false)
include h1 hh
theorem chunk_full (h : l.written % 256 = 0) {u : State} (ht : s.takeSpare l.ed 4 false = (u, none)) :
    (s.chunk data).loadw = none ∧ (l.relay = none → (s.chunk data).mboxState = 3 ∧ (s.chunk data).mboxDetail = 3) := by
  obtain ⟨o, v, hv, hc⟩ := chunk_joins hl hs hd hg
  have hsp : (s.loading (some { l with got := l.got ++ data }) o).takeSpare l.ed 4 false = (u.loading (some { l with got := l.got ++ data }) o, none) := by
    rw [takeSpare_loading, ht]
  obtain ⟨f1, f2, -⟩ := loadFail_fails (u.loading (some { l with got := l.got ++ data }) o) { l with got := l.got ++ data } 3
  have hv : v = (u.loading (some { l with got := l.got ++ data }) o).loadFail { l with got := l.got ++ data } 3 := by
    rw [hv, loadPages_step (l := { l with got := l.got ++ data }) rfl ⟨hw, by rw [List.length_append]; exact h1⟩ (loadPage_full hh h hsp)]
    unfold State.loadPages
    rw [f1]
  rw [hc, hv, f1]
  exact ⟨f1, f2⟩
variable (h2 : l.got.length + data.length < 16384 * (l.written + 2))
include h2
theorem chunk_keeps (h : l.written % 256 ≠ 0) : (s.chunk data).loadw = some { l with got := l.got ++ data, written := l.written + 1 }
    ∧ (l.written + 1 < l.pages → (s.chunk data).agenda = s.agenda)
    ∧ (l.written + 1 = l.pages → ∃ e, e ∈ (s.chunk data).agenda ∧ e.2 = .loadwSwitch) := by
  obtain ⟨o, u, hu, hc⟩ := chunk_joins hl hs hd hg
  have hu : u = s.loading (some { l with got := l.got ++ data, written := l.written + 1 }) o := by
    rw [hu, loadPages_step (l := { l with got := l.got ++ data }) rfl ⟨hw, by rw [List.length_append]; exact h1⟩ (loadPage_kept hh h)]
    exact loadPages_whole rfl (.inr (by rw [List.length_append]; exact h2))
  rw [hc, hu]
  dsimp only [State.loading, Option.elim]
  split
  next he =>
    obtain ⟨k1, k2⟩ := scheduleOnce_keeps (s.loading (some { l with got := l.got ++ data, written := l.written + 1 }) o) 1 .loadwSwitch
    refine ⟨?_, fun hlt => absurd he (by omega), fun _ => k2⟩
    exact (congrArg State.loadw k1 :)
  next he => exact ⟨rfl, fun _ => rfl, fun h => absurd h he⟩
theorem chunk_takes (h : l.written % 256 = 0) {u : State} {b : Nat} (ht : s.takeSpare l.ed 4 false = (u, some b)) :
    (s.chunk data).loadw = some { l with got := l.got ++ data, written := l.written + 1, blocks := l.blocks ++ [b] }
    ∧ (s.chunk data).flash l.ed = u.flash l.ed := by
  obtain ⟨o, v, hv, hc⟩ := chunk_joins hl hs hd hg
  have hsp : (s.loading (some { l with got := l.got ++ data }) o).takeSpare l.ed 4 false = (u.loading (some { l with got := l.got ++ data }) o, some b) := by
    rw [takeSpare_loading, ht]
  have hv : v = u.loading (some { l with got := l.got ++ data, written := l.written + 1, blocks := l.blocks ++ [b] }) o := by
    rw [hv, loadPages_step (l := { l with got := l.got ++ data }) rfl ⟨hw, by rw [List.length_append]; exact h1⟩ (loadPage_block hh h hsp)]
    exact loadPages_whole rfl (.inr (by rw [List.length_append]; exact h2))
  rw [hc, hv]
  dsimp only [State.loading, Option.elim]
  split
  · rw [(scheduleOnce_keeps _ 1 .loadwSwitch).1]
    exact ⟨rfl, rfl⟩
  · exact ⟨rfl, rfl⟩
end

/-! ### The switch of a load and its reports (R409, R410) -/

/-- Work on an ED's flash that keeps the table of its pages, the load, the mailbox and the port. -/
structure OnFlash (e : Nat) (s t : State) : Prop where
  eq : t = { s with mem := t.mem, fresh := t.fresh, busyTill := t.busyTill, cores := t.cores, quads := t.quads, dies := t.dies, agenda := t.agenda
                    hot := t.hot, pchan := t.pchan, pchanUsed := t.pchanUsed, health := t.health, hclass := t.hclass }
  map : (t.flash e).map = (s.flash e).map
namespace OnFlash
variable {e : Nat}
theorem refl (s : State) : OnFlash e s s := ⟨rfl, rfl⟩
theorem trans {s t u : State} (h : OnFlash e s t) (g : OnFlash e t u) : OnFlash e s u := ⟨by rw [g.eq, h.eq], g.map.trans h.map⟩
theorem ite {s t u : State} {c : Prop} [Decidable c] (h : OnFlash e s t) (g : OnFlash e s u) : OnFlash e s (if c then t else u) := by
  split
  · exact h
  · exact g
theorem foldl {α : Type} {f : State → α → State} (h : ∀ s a, OnFlash e s (f s a)) (l : List α) : ∀ s : State, OnFlash e s (l.foldl f s) := by
  induction l with
  | nil => exact refl
  | cons a l ih => exact fun s => (h s a).trans (ih (f s a))
theorem of_fetched {s t : State} (h : Fetched s t) : OnFlash e s t := ⟨h.eq.trans (by rw [h.eq]), (congrArg Flash.map (h.flash (2 + e)) :)⟩
theorem same {s t : State} (h : t = { s with mem := t.mem, fresh := t.fresh, busyTill := t.busyTill, cores := t.cores, quads := t.quads, agenda := t.agenda }) :
    OnFlash e s t := by
  have hd : t.dies = s.dies := by rw [h]
  exact ⟨h.trans (by rw [h]), congrArg (fun x => (tgetD x (2 + e) ({} : Die)).flash.map) hd⟩
end OnFlash
theorem flash_setFlash (s : State) (e j : Nat) (f : Flash) : (s.setFlash e f).flash j = if e = j then f else s.flash j := by
  unfold State.setFlash State.flash
  dsimp only
  rw [State.die_setDie]
  by_cases h : e = j
  · rw [if_pos (by omega), if_pos h]
  · rw [if_neg (by omega), if_neg h]
theorem OnFlash.setFlash {s : State} {e : Nat} {f : Flash} (h : f.map = (s.flash e).map) : OnFlash e s (s.setFlash e f) :=
  ⟨rfl, by rw [flash_setFlash, if_pos rfl, h]⟩
theorem OnFlash.setBlock {s : State} {e : Nat} {f : Flash} (b : Nat) (h : f.map = (s.flash e).map) : OnFlash e s (s.setBlock e b f) := by
  unfold State.setBlock
  dsimp only
  exact (OnFlash.setFlash h).trans (.of_fetched (.trans (.foldl (fun _ _ => .counts rfl) _ _) (.foldl (fun _ _ => .counts rfl) _ _)))
theorem eraseBlock_onFlash (s : State) (e b : Nat) : OnFlash e s (s.eraseBlock e b) := by
  unfold State.eraseBlock
  dsimp only
  split
  · refine .trans ?_ (.of_fetched (retireBlock_fetched ..))
    exact .setBlock b rfl
  · exact .setBlock b rfl
theorem writeUnits_onFlash (e : Nat) (h : HSlot) (us : List Nat) : ∀ s : State, OnFlash e s (s.writeUnits e h us) := by
  induction us with
  | nil => exact .refl
  | cons u us ih =>
    intro s
    unfold State.writeUnits
    dsimp only
    split
    · refine .trans ?_ (ih _)
      generalize memWrite _ _ _ = m
      generalize (if h.dirty.isEmpty = true then s.fresh else s.fresh + 1) = n
      exact (OnFlash.same (s := s) (t := { s with mem := m, fresh := n }) rfl).trans (.of_fetched (.of_noted (noteTraffic_noted ..)))
    · exact ih s
theorem wakeHandle_onFlash (s : State) (e w : Nat) : OnFlash e s (s.wakeHandle w) :=
  .foldl (fun s _ => .foldl (fun s _ => .ite (.same rfl) (.refl s)) _ s) _ s
theorem doneUnits_onFlash (s : State) (e k : Nat) (us : List Nat) (lp : Nat) (r : Bool) : OnFlash e s (s.doneUnits e k us lp r) := by
  unfold State.doneUnits
  dsimp only
  split
  · exact .refl s
  · split
    · exact .trans (.setFlash (by exact rfl)) (wakeHandle_onFlash ..)
    · exact .setFlash (by exact rfl)
theorem kickFlash_onFlash (s : State) (e : Nat) : OnFlash e s (s.kickFlash e) := by
  refine .foldl (fun s st => ?_) _ s
  unfold State.kickStack
  dsimp only
  split
  · exact .refl s
  · split
    · exact .refl s
    · refine OnFlash.trans (.setFlash (s := s) ?_) (.same (by exact rfl))
      exact rfl
theorem saved_flash (g : Saved → Saved) (t : Tbl Die) (k : Nat) :
    (tgetD (t.map fun d : Nat × Die => if d.2.saved.isEmpty then d else (d.1, { d.2 with saved := d.2.saved.map g })) k ({} : Die)).flash
      = (tgetD t k ({} : Die)).flash := by
  induction t with
  | nil => rfl
  | cons d t ih =>
    rw [List.map_cons, tgetD, tgetD, tget_cons, tget_cons]
    have hk : (if d.2.saved.isEmpty then d else (d.1, { d.2 with saved := d.2.saved.map g })).1 = d.1 := by split <;> rfl
    rw [hk]
    by_cases hd : d.1 = k
    · rw [if_pos hd, if_pos hd]
      dsimp only
      split <;> rfl
    · rw [if_neg hd, if_neg hd]
      exact ih
theorem deliver_onFlash (s : State) (e lp : Nat) : OnFlash e s (s.deliver e lp) := by
  unfold State.deliver
  dsimp only
  refine .trans (.trans (.trans (.setFlash (s := s) (f := { s.flash e with waiting := (s.flash e).waiting.filter (· != lp) }) rfl) ?_)
    (.foldl (fun s h => .ite (.trans (writeUnits_onFlash ..) (doneUnits_onFlash ..)) (.refl s)) _ _)) (kickFlash_onFlash ..)
  exact ⟨rfl, congrArg Flash.map (saved_flash _ _ _)⟩
/-- A flash with the pages of a load at their places in the load's blocks. -/
def Flash.loaded (f : Flash) (l : Load) : Flash :=
  { f with
    map := (List.range l.pages).foldl (fun m i => tset m (l.first + i) (256 * l.blocks.getD (i / 256) 0 + i % 256)) f.map
    bytes := memWrite f.bytes (l.first * pageBytes) l.got
    count := l.blocks.foldl tdel f.count }
theorem loadMap_onFlash (s : State) (l : Load) : OnFlash l.ed (s.setFlash l.ed ((s.flash l.ed).loaded l)) (s.loadMap l) := by
  unfold State.loadMap
  dsimp only
  generalize hu : List.foldl _ (s.setFlash l.ed _) _ = u
  have h : OnFlash l.ed (s.setFlash l.ed ((s.flash l.ed).loaded l)) u := by
    subst hu
    exact .foldl (fun s b => .ite (eraseBlock_onFlash ..) (.refl s)) _ _
  exact h.trans (.foldl (fun s lp => deliver_onFlash s l.ed lp) _ _)
theorem foldl_tset_get {f : Nat → Nat} {first n i : Nat} (h : i < n) (m : Tbl Nat) (d : Nat) :
    tgetD ((List.range n).foldl (fun m i => tset m (first + i) (f i)) m) (first + i) d = f i := by
  induction n with
  | zero => cases h
  | succ n ih =>
    rw [List.range_succ, List.foldl_append, List.foldl_cons, List.foldl_nil, tgetD_tset]
    split
    next he => rw [show n = i by omega]
    next he => exact ih (by omega)
theorem loadMap_phys (s : State) (l : Load) {i : Nat} (h : i < l.pages) :
    ((s.loadMap l).flash l.ed).phys (l.first + i) = 256 * l.blocks.getD (i / 256) 0 + i % 256 := by
  unfold Flash.phys
  rw [(loadMap_onFlash s l).map, flash_setFlash, if_pos rfl]
  exact foldl_tset_get (f := fun i => 256 * l.blocks.getD (i / 256) 0 + i % 256) h _ _
theorem loadMap_keeps (s : State) (l : Load) : (s.loadMap l).mboxState = s.mboxState ∧ (s.loadMap l).podIndex = s.podIndex := by
  rw [(loadMap_onFlash s l).eq]
  exact ⟨rfl, rfl⟩
theorem report_flash (s : State) (pkg e : Nat) : (s.report pkg).flash e = s.flash e := by
  unfold State.report
  split
  · rfl
  · split
    · rfl
    · exact (apply_ite (State.flash · e) ..).trans (ite_self _)
section
variable {s : State} {l : Load} (hl : s.loadw = some l)
include hl
theorem report_eq {pkg : Nat} (hr : l.relay = none) : s.report pkg =
    let u : State := { s with loadDone := if s.loadDone.contains pkg then s.loadDone else pkg :: s.loadDone }
    if (u.loadChain l).all u.loadDone.contains then { u with loadw := none, loadDone := [] }.mboxEnd 2 l.pages else u := by
  unfold State.report
  split
  next h => exact absurd (hl.symm.trans h) nofun
  next m h =>
    obtain rfl := Option.some.inj (hl.symm.trans h)
    exact if_neg (by rw [hr]; decide)
theorem report_ends {pkg : Nat} (hr : l.relay = none) (h : ∀ i, i ∈ s.loadChain l → i = pkg ∨ i ∈ s.loadDone) :
    (s.report pkg).loadw = none ∧ (s.report pkg).mboxState = 2 ∧ (s.report pkg).mboxDetail = BitVec.ofNat 32 l.pages := by
  have hall : (({ s with loadDone := if s.loadDone.contains pkg then s.loadDone else pkg :: s.loadDone } : State).loadChain l).all
      (if s.loadDone.contains pkg then s.loadDone else pkg :: s.loadDone).contains = true := by
    refine List.all_eq_true.2 fun i hi => List.contains_iff_mem.2 ?_
    rcases h i hi with rfl | h
    · split
      next hc => exact List.contains_iff_mem.1 hc
      · exact .head _
    · split
      · exact h
      · exact .tail _ h
  rw [(report_eq hl hr).trans (if_pos hall)]
  exact ⟨rfl, rfl, rfl⟩
variable (hs : l.switched = false) (hw : l.written = l.pages)
include hs hw
theorem loadSwitch_eq : s.loadSwitch = if sha256 l.got ≠ l.digest then s.loadFail l 2
    else if !l.toHbm && s.loadBusy l then s.schedule 16 .loadwSwitch
    else
      let u := if l.toHbm then s else s.loadMap l
      l.relay.elim (({ u with loadw := some { l with switched := true } } : State).report u.podIndex)
        fun i => { u with loadw := none, loadDone := [], portOut := [.done u.podIndex i] } := by
  unfold State.loadSwitch
  rw [hl]
  dsimp only
  rw [loadPages_whole hl (.inl (by omega)), hl]
  dsimp only
  rw [hs, if_neg (by simp [hw])]
  cases l.relay <;> rfl
theorem loadSwitch_switches :
    (sha256 l.got ≠ l.digest → s.loadSwitch.loadw = none ∧ (l.relay = none → s.loadSwitch.mboxState = 3 ∧ s.loadSwitch.mboxDetail = 2))
    ∧ (sha256 l.got = l.digest → l.toHbm = false → s.loadBusy l = true → s.loadSwitch = s.schedule 16 .loadwSwitch)
    ∧ (sha256 l.got = l.digest → l.toHbm = false → s.loadBusy l = false →
        (∀ j, l.relay = some j → s.loadSwitch.loadw = none ∧ s.loadSwitch.portOut = [.done s.podIndex j] ∧ s.loadSwitch.mboxState = s.mboxState)
        ∧ ∀ i, i < l.pages → (s.loadSwitch.flash l.ed).phys (l.first + i) = 256 * l.blocks.getD (i / 256) 0 + i % 256) := by
  rw [loadSwitch_eq hl hs hw]
  refine ⟨fun hd => ?_, fun hd hh hb => ?_, fun hd hh hb => ?_⟩
  · rw [if_pos hd]
    obtain ⟨f1, f2, -⟩ := loadFail_fails s l 2
    exact ⟨f1, f2⟩
  · rw [if_neg (not_not.2 hd), if_pos (by rw [hh, hb]; rfl)]
  · rw [if_neg (not_not.2 hd), if_neg (by rw [hh, hb]; decide)]
    dsimp only
    rw [if_neg (ne_true_of_eq_false hh)]
    obtain ⟨k1, k2⟩ := loadMap_keeps s l
    refine ⟨fun j hj => ?_, fun i hi => ?_⟩
    · rw [hj]
      exact ⟨rfl, by rw [← k2]; rfl, k1⟩
    · rw [← loadMap_phys s l hi]
      cases l.relay with
      | none =>
        dsimp only [Option.elim]
        rw [report_flash]
        rfl
      | some j => rfl
end
end Sys2Proof.Machine
end

section
/-! Proofs about the Keeper, ports, seeds and the registers of the package (R97, R172, R200, R293, R356, R399, R402, R406), and the statement on them. -/
namespace Sys2Proof.Machine

/-! ### The Keeper, ports and the base of the pool (R399, R402, R403, R406) -/

theorem portLanes_change (s : State) (n : Nat) : ∃ t, exec (.portLaneChange n) s = .next t ∧ t.lanes = min 8 n ∧ (t.portUp = true ↔ 4 ≤ n)
    ∧ (n < 4 → t.locked = false) ∧ t = { s with lanes := t.lanes, portUp := t.portUp, locked := t.locked } := by
  refine ⟨_, rfl, rfl, ?_, fun h => ?_, rfl⟩
  · exact decide_eq_true_iff.trans (by omega)
  · exact (Bool.and_eq_false_iff).2 (.inr (decide_eq_false (by omega)))
theorem bits_word {n hi lo : Nat} (h : n < 2 ^ 64) : bits (BitVec.ofNat 64 n) hi lo = n / 2 ^ lo % 2 ^ (hi - lo + 1) := by
  unfold bits
  rw [BitVec.toNat_ofNat, Nat.mod_eq_of_lt h]
theorem keepcfg_stored (s : State) (v : W64) : s.keepcfgSet v = { s with keepNext := (s.keepcfgSet v).keepNext }
    ∧ ∃ w, (s.keepcfgSet v).keepNext = some w ∧ bits w 28 16 = max 1000 (min 5400 (bits v 28 16)) ∧ bits w 15 8 = min 100 (bits v 15 8) := by
  refine ⟨rfl, _, rfl, ?_, ?_⟩
  · rw [bits_word (by omega)]
    omega
  · rw [bits_word (by omega)]
    omega
theorem poolbase_stored (s : State) (v : W64) :
    ((∃ e, e ∈ s.parts ∧ e.2.ring ≠ []) → s.poolbaseSet v = s)
    ∧ ((∀ e, e ∈ s.parts → e.2.ring = []) → s.poolbaseSet v = { s with poolbase := (s.poolbaseSet v).poolbase }
      ∧ (s.poolbaseSet v).poolbase.toNat = v.toNat / 2 ^ 34 * 2 ^ 34) := by
  have hi : s.anyInserted = true ↔ ∃ e, e ∈ s.parts ∧ e.2.ring ≠ [] := by
    unfold State.anyInserted
    simp
  unfold State.poolbaseSet
  refine ⟨fun h => if_pos (hi.2 h), fun h => ?_⟩
  rw [if_neg fun g => by
    obtain ⟨e, he, hr⟩ := hi.1 g
    exact hr (h e he)]
  refine ⟨rfl, ?_⟩
  have := v.isLt
  simp only [bits, BitVec.toNat_ofNat]
  omega
/-- What the Keeper grants is no less than the demand up to the floor, and no more than the demand. -/
theorem keeperGrant_between (f rest ask d : Nat) (w : Bool) : 0 < (keeperGrant f rest ask d w).2
    ∧ min (19200 * d) f * (keeperGrant f rest ask d w).2 ≤ 19200 * (keeperGrant f rest ask d w).1
    ∧ (keeperGrant f rest ask d w).1 ≤ d * (keeperGrant f rest ask d w).2 := by
  unfold keeperGrant
  dsimp only
  split
  · dsimp only
    omega
  next h =>
    have ha : 0 < ask := Nat.pos_of_ne_zero fun h0 => h (by rw [h0]; simp)
    have hs : min (19200 * d) f + above d f = 19200 * d := by
      unfold above
      omega
    dsimp only
    generalize min (19200 * d) f = base at *
    generalize above d f = x at *
    refine ⟨by omega, ?_, ?_⟩
    · calc base * (19200 * ask) = 19200 * (base * ask) := by ring
        _ ≤ _ := Nat.mul_le_mul_left _ (Nat.le_add_right ..)
    · calc base * ask + min (x * ask) (rest * x) ≤ base * ask + x * ask := Nat.add_le_add_left (Nat.min_le_left ..) _
        _ = d * (19200 * ask) := by rw [← Nat.add_mul, hs]; ring
theorem tget_map_keys {α : Type} (g : Nat → α) {q : Nat} : ∀ {l : List Nat}, q ∈ l → tget (l.map fun q => (q, g q)) q = some (g q)
  | a :: l, h => by
    rw [List.map_cons, tget_cons]
    split
    next ha => rw [← ha]
    next ha => exact tget_map_keys g ((List.mem_cons.1 h).resolve_left fun h => ha h.symm)
theorem keeper_grants (s : State) : let cfg := s.keepNext.getD s.keepcfg
    s.keeper.keepcfg = cfg ∧ s.keeper.keepNext = none ∧ s.keeper.windows.toNat = min 0xFFFFFFFF (s.windows.toNat + 1)
    ∧ ∀ q, q < 192 → ∃ want n d, tget s.keeper.demand q = some want ∧ tget s.keeper.granted q = some (n, d) ∧ 0 < d
      ∧ min (19200 * want) (bits cfg 28 16 * bits cfg 15 8) * d ≤ 19200 * n ∧ n ≤ want * d := by
  refine ⟨rfl, rfl, ?_, fun q hq => ?_⟩
  · unfold State.keeper
    dsimp only
    have := s.windows.isLt
    split
    next h => rw [h]; rfl
    next h =>
      have hn : s.windows.toNat ≠ 0xFFFFFFFF := fun g => h (BitVec.eq_of_toNat_eq g)
      have ha : (s.windows + 1).toNat = (s.windows.toNat + 1) % 2 ^ 32 := BitVec.toNat_add ..
      omega
  · unfold State.keeper
    dsimp only
    have hz (f : Nat → Nat) : ((List.range 192).map f).zip (List.range 192) = (List.range 192).map fun q => (f q, q) := by
      rw [← List.zip_map', List.map_id']
    rw [hz, List.map_map, List.map_map]
    obtain ⟨h1, h2, h3⟩ := keeperGrant_between _ _ _ _ _
    exact ⟨_, _, _, tget_map_keys _ (List.mem_range.2 hq), tget_map_keys _ (List.mem_range.2 hq), h1, h2, h3⟩

/-! ### Seeds (R200), translation tables (R97), the Kennel's shares (R172) -/

theorem tgetD_foldl_tset {α : Type} {key : Nat → Nat} (hk : ∀ a b, key a = key b → a = b) (f : Nat → α) (d : α) (i : Nat) (l : List Nat) :
    ∀ t : Tbl α, tgetD (l.foldl (fun t g => tset t (key g) (f g)) t) (key i) d = if i ∈ l then f i else tgetD t (key i) d := by
  induction l with
  | nil => exact fun t => rfl
  | cons a l ih =>
    intro t
    rw [List.foldl_cons, ih, tgetD_tset]
    by_cases hi : i ∈ l
    · rw [if_pos hi, if_pos (.tail _ hi)]
    · rw [if_neg hi]
      by_cases ha : a = i
      · rw [if_pos (congrArg key ha), if_pos (List.mem_cons.2 (.inl ha.symm)), ha]
      · rw [if_neg fun g => ha (hk _ _ g), if_neg fun g => (List.mem_cons.1 g).elim (fun g => ha g.symm) hi]
theorem srseed_loads (s : State) (p : Nat) (v : W64) : ((s.srseedSet p v).part p).srseed = v
    ∧ ∀ g, g < 6144 → ((s.srseedSet p v).gen p g).toNat = if v.toNat ^^^ g = 0 then 1 else v.toNat ^^^ g := by
  refine ⟨congrArg Part.srseed (State.part_setPart_same ..), fun g hg => ?_⟩
  have hx : (v ^^^ BitVec.ofNat 64 g).toNat = v.toNat ^^^ g := by
    rw [BitVec.toNat_xor, BitVec.toNat_ofNat, Nat.mod_eq_of_lt (by omega)]
  unfold State.gen State.srseedSet
  dsimp only
  by_cases hv : v = 0
  · rw [if_pos hv]
    have hn : tget (s.gens.filter fun g => g.1 / 32768 != p) (genKey p g) = none := by
      refine Option.eq_none_iff_forall_ne_some.2 fun w hw => ?_
      have hm := (List.mem_filter.1 (tget_mem hw)).2
      rw [bne_iff_ne] at hm
      exact hm (by unfold genKey; omega)
    unfold tgetD
    rw [hn, hv, show (0 : W64).toNat = 0 from rfl, Nat.zero_xor]
    dsimp only
    split
    · rfl
    · rw [BitVec.toNat_ofNat, Nat.mod_eq_of_lt (by omega)]
  · rw [if_neg hv, tgetD_foldl_tset (fun a b h => by unfold genKey at h; omega), if_pos (by simp; omega)]
    unfold loadGen
    rw [← hx]
    have h0 : v ^^^ BitVec.ofNat 64 g = 0 ↔ (v ^^^ BitVec.ofNat 64 g).toNat = 0 := ⟨fun h => by rw [h]; rfl, fun h => BitVec.eq_of_toNat_eq h⟩
    split
    next h => rw [if_pos (h0.1 h)]; rfl
    next h => rw [if_neg fun g => h (h0.2 g)]
theorem assertHalt_ttbase (s : State) (p code sub d q : Nat) : ((s.assertHalt p code sub d).part q).ttbase = (s.part q).ttbase := by
  unfold State.assertHalt
  dsimp only
  split
  · generalize hu : s.setPart p _ = u
    have h1 := (foldl_schedule 120 (fun x : Nat × Nat => Instr.haltLineArrives p x.1 x.2) (s.unitsOf p) u).1
    generalize List.foldl _ u _ = w at h1
    have hp : w.part q = u.part q := by rw [h1]; rfl
    rw [apply_ite (State.part · q), State.part_schedule, ite_self, hp, ← hu, State.part_setPart]
    split
    next h => subst h; rfl
    · rfl
  · split
    · split
      · rw [State.part_setPart]
        split
        next h => subst h; rfl
        · rfl
      · rfl
    · rfl
theorem unitHalt_ttbase (s : State) (p k i : Nat) (f : FaultInfo) (m : CmdInfo) (q : Nat) : ((s.unitHalt p k i f m).part q).ttbase = (s.part q).ttbase := by
  unfold State.unitHalt
  dsimp only
  split
  · rfl
  · rw [assertHalt_ttbase]
    split
    · rfl
    · rw [State.part_setPart]
      split
      next h => subst h; rfl
      · rfl
theorem takeEffect_ttbase (s : State) (w : PathStore) (q : Nat) : ((s.takeEffect w).part q).ttbase = (s.part q).ttbase := by
  unfold State.takeEffect
  split
  next d ix g ht =>
    unfold State.tileWrite
    split
    · unfold State.writeTile
      dsimp only
      split <;> rfl
    · dsimp only
      split
      · exact unitHalt_ttbase ..
      · exact unitHalt_ttbase ..
  · split
    · exact congrArg (fun x => (tgetD x q ({} : Part)).ttbase) (hostWrite_host ..).parts
    · rfl
theorem performFirst_ttbase (q : Nat) (p : Nat) : ∀ (n : Nat) (s : State), ((s.performFirst q n).part p).ttbase = (s.part p).ttbase
  | 0, s => rfl
  | n + 1, s => by
    unfold State.performFirst
    dsimp only
    split
    · rfl
    · rw [performFirst_ttbase q p n, takeEffect_ttbase]
      rfl
theorem foldl_flushOne_ttbase (f : PathStore → Bool) (p : Nat) : ∀ (l : Tbl Quad) (s : State), ((l.foldl (flushOne f) s).part p).ttbase = (s.part p).ttbase
  | [], s => rfl
  | e :: l, s => by
    rw [List.foldl_cons, foldl_flushOne_ttbase f p l]
    unfold flushOne
    split
    · exact performFirst_ttbase ..
    · rfl
theorem removeTlb_ttbase (s : State) (f : TlbEnt → Bool) (c : Bool) (p : Nat) : ((s.removeTlb f c).part p).ttbase = (s.part p).ttbase := by
  rw [removeTlb_eq]
  exact foldl_flushOne_ttbase ..
theorem ttbase_removes (s : State) (p : Nat) (v : W64) :
    ((s.ttbaseSet p v).part p).ttbase = v ∧ Spec.Removed s (s.ttbaseSet p v) fun e => e.part == p := by
  refine ⟨(removeTlb_ttbase ..).trans (congrArg Part.ttbase (State.part_setPart_same ..)), ?_⟩
  obtain ⟨h1, h2, ⟨h3, h4⟩, h5⟩ := removeTlb_removed (s.setPart p { s.part p with ttbase := v }) (fun e => e.part == p) true
  exact ⟨h1, h2, ⟨h3, h4⟩, h5⟩
theorem unlessRsv_pos {n : Nat} {v : W64} (s t : State) (h : v.toNat &&& regRsv n ≠ 0) : unlessRsv n v s t = s := if_pos h
theorem unlessRsv_neg {n : Nat} {v : W64} (s t : State) (h : v.toNat &&& regRsv n = 0) : unlessRsv n v s t = t := if_neg (not_not.2 h)
theorem kpart_refused {s : State} {n : Nat} {v : W64} (h : ceiling v < guarantee v ∨ kennelUnits (n / 16) < ceiling v) : s.kpartSet n v = none := by
  unfold State.kpartSet
  exact if_pos (h.imp_right .inl)
theorem kpart_accepted {s w : State} {n : Nat} {v : W64} (h : s.kpartSet n v = some w) :
    ((s.part (n % 16)).ring = [] → (∀ e, e ∈ s.dies → ∀ x, x ∈ e.2.tiles → x.2.part ≠ n % 16) → w.kpart (n / 16) (n % 16) = v)
    ∧ ((s.part (n % 16)).ring ≠ [] → tgetD (w.part (n % 16)).kpend (n / 16) 0 = v ∧ (w.part (n % 16)).kpart = (s.part (n % 16)).kpart) := by
  unfold State.kpartSet at h
  dsimp only at h
  have h := (Option.ite_none_left_eq_some.1 h).2
  by_cases hc : ((s.part (n % 16)).ring.isEmpty && !s.dies.any fun e => e.2.tiles.any fun t => t.2.part == n % 16) = true
  · rw [if_pos hc] at h
    rw [Bool.and_eq_true, List.isEmpty_iff] at hc
    have hw := Option.some.inj h
    refine ⟨fun _ _ => ?_, fun hr => absurd hc.1 hr⟩
    unfold State.kpart
    rw [← hw, (scheduleOnce_keeps ..).1]
    refine (congrArg (fun x : Part => tgetD x.kpart (n / 16) 0) (State.part_setPart_same ..)).trans ?_
    exact tgetD_tput_same ..
  · rw [if_neg hc] at h
    have hw := Option.some.inj h
    refine ⟨fun hr ht => absurd ?_ hc, fun _ => ?_⟩
    · rw [hr, Bool.and_eq_true, Bool.not_eq_true', List.any_eq_false]
      refine ⟨rfl, fun e he g => ?_⟩
      obtain ⟨x, hx, hp⟩ := List.any_eq_true.1 g
      exact ht e he x hx (eq_of_beq hp)
    · rw [← hw, State.part_setPart_same]
      exact ⟨tgetD_tset_same .., rfl⟩

/-! ### Supersteps and slices (R293, R356) -/

theorem sscfg_set (s : State) (p : Nat) (v : W64) :
    ((s.part p).ssExchange = false → (s.part p).ssArrived = 0 → ((s.sscfgSet p v).part p).sscfg = v ∧ ((s.sscfgSet p v).part p).sspend = none)
    ∧ ((s.part p).ssExchange = true ∨ (s.part p).ssArrived ≠ 0 →
        ((s.sscfgSet p v).part p).sscfg = (s.part p).sscfg ∧ ((s.sscfgSet p v).part p).sspend = some v) := by
  unfold State.sscfgSet
  dsimp only
  refine ⟨fun h g => ?_, fun h => ?_⟩
  · rw [if_pos (by rw [h, g]; rfl), State.part_setPart_same]
    exact ⟨rfl, rfl⟩
  · rw [if_neg fun g => by
      rw [Bool.and_eq_true, Bool.not_eq_true', beq_iff_eq] at g
      exact h.elim (fun h => by rw [h] at g; cases g.1) (fun h => h g.2), State.part_setPart_same]
    exact ⟨rfl, rfl⟩
theorem slipWrite_slices (s : State) (p : Nat) (b : List Byte) : (s.slipWrite p b).slices = s.slices := by
  unfold State.slipWrite
  dsimp only
  split
  · rfl
  · have h := devWrite_worked s 0 s.svPart (bits (s.part p).slip 63 12 * 4096 + 32 * ((s.part p).slipHead.toNat % 2 ^ bits (s.part p).slip 4 0)) b
    split
    next heq =>
      rw [heq] at h
      exact (congrArg State.slices h.eq :)
    · rfl
theorem endSlices_slices (s : State) (d : Nat) : (s.endSlices d).slices = s.slices := by
  unfold State.endSlices
  dsimp only
  exact (congrArg State.slices (kickDie_worked ..).eq :)
theorem sliceSet_slices (s : State) (n : Nat) (v : W64) : tgetD (s.sliceSet n v).slices n 0
    = if sliceValid v = true ∧ bits v 15 0 < bits (s.die (n / 16)).srt 15 0 + 8 then w64 (bits v 63 16 * 65536 + (bits (s.die (n / 16)).srt 15 0 + 8)) else v := by
  have hk (u : State) : (if u.sliceCount (n / 16) = 0 then (if (u.die (n / 16)).slice.isSome then u.endSlices (n / 16) else u)
      else if (u.die (n / 16)).slice.isNone then u.scheduleOnce 1 (.sliceEnd (n / 16)) else u).slices = u.slices := by
    split
    · split
      · exact endSlices_slices ..
      · rfl
    · split
      · rw [(scheduleOnce_keeps ..).1]
      · rfl
  unfold State.sliceSet
  dsimp only
  refine (congrArg (tgetD · n 0) ((hk _).trans ?_)).trans (tgetD_tput_same (d := 0) s.slices n _)
  have hc : (sliceValid v && decide (bits v 15 0 < bits (s.die (n / 16)).srt 15 0 + 8)) = true
      ↔ sliceValid v = true ∧ bits v 15 0 < bits (s.die (n / 16)).srt 15 0 + 8 := by
    rw [Bool.and_eq_true, decide_eq_true_iff]
  by_cases h : sliceValid v = true ∧ bits v 15 0 < bits (s.die (n / 16)).srt 15 0 + 8
  · rw [if_pos (hc.2 h), if_pos (hc.2 h), if_pos h]
    exact slipWrite_slices ..
  · rw [if_neg fun g => h (hc.1 g), if_neg fun g => h (hc.1 g), if_neg h]
theorem slice_set (s : State) (n : Nat) (v : W64) : let least := bits (s.die (n / 16)).srt 15 0 + 8
    (bit v 16 = false ∨ least ≤ bits v 15 0 → tgetD (s.sliceSet n v).slices n 0 = v)
    ∧ (bit v 16 = true → bits v 15 0 < least → least < 65536 →
        bits (tgetD (s.sliceSet n v).slices n 0) 15 0 = least ∧ bits (tgetD (s.sliceSet n v).slices n 0) 63 16 = bits v 63 16) := by
  intro least
  rw [sliceSet_slices]
  refine ⟨fun h => if_neg fun g => h.elim (fun h => ?_) fun h => Nat.not_lt.2 h g.2, fun hv hl h6 => ?_⟩
  · exact Bool.false_ne_true (h.symm.trans g.1)
  · rw [if_pos ⟨hv, hl⟩]
    have hw : bits v 63 16 < 2 ^ 48 := Nat.mod_lt _ (by decide)
    unfold w64
    rw [bits_word (by omega), bits_word (by omega)]
    constructor <;> omega

/-! ### The statement -/

theorem weightChunk_chunks (s : State) (data : List Byte) : ∃ t, exec (.weightChunk data) s = .next t
    ∧ (s.loadw = none → let n := chunkWord data
        let taken := s.podSize ≠ 0 ∧ s.podIndex ≠ 0 ∧ data.length = 64 ∧ n 0 ≤ 3 ∧ n 16 ≠ 0 ∧ n 8 + n 16 ≤ lastPage + 1
        (¬ taken → t = s) ∧ (taken → t.loadw = some ⟨n 0, n 8, n 16, false, true, data.drop 32, [], [], 0, false, some (n 24)⟩))
    ∧ (∀ l, s.loadw = some l → l.switched = false → l.got.length < l.pages * 16384 → data = [] →
        t.loadw = none ∧ (l.relay = none → t.mboxState = 3 ∧ t.mboxDetail = 4) ∧ (l.relay ≠ none → t.mboxState = s.mboxState))
    ∧ (∀ l n, s.loadw = some l → l.switched = false → n < l.pages → l.got.length = 16384 * n → data.length = 16384 →
        t.portOut = if l.forward = true ∧ s.podSize ≠ 0 ∧ s.podIndex + 1 < s.podSize then [.page n data] else [])
    ∧ (∀ l, s.loadw = some l → l.switched = false → l.written < l.pages → data ≠ [] → l.got.length + data.length ≤ 16384 * l.pages →
        (l.got.length + data.length < 16384 * (l.written + 1) → t = { s with loadw := some { l with got := l.got ++ data }, portOut := t.portOut })
        ∧ (16384 * (l.written + 1) ≤ l.got.length + data.length → l.got.length + data.length < 16384 * (l.written + 2) → l.toHbm = false →
            l.written % 256 ≠ 0 → t.loadw = some { l with got := l.got ++ data, written := l.written + 1 }
            ∧ (l.written + 1 < l.pages → t.agenda = s.agenda) ∧ (l.written + 1 = l.pages → ∃ e, e ∈ t.agenda ∧ e.2 = .loadwSwitch))
        ∧ (16384 * (l.written + 1) ≤ l.got.length + data.length → l.got.length + data.length < 16384 * (l.written + 2) → l.toHbm = false →
            l.written % 256 = 0 → (∀ u, s.takeSpare l.ed 4 false = (u, none) → t.loadw = none ∧ (l.relay = none → t.mboxState = 3 ∧ t.mboxDetail = 3))
            ∧ ∀ u b, s.takeSpare l.ed 4 false = (u, some b) → t.loadw = some { l with got := l.got ++ data, written := l.written + 1, blocks := l.blocks ++ [b] } ∧ t.flash l.ed = u.flash l.ed)) := by
  refine ⟨s.chunk data, rfl, fun h => chunk_relays h, fun l hl hs hg hd => ?_, fun l n hl hs hn hg hd => chunk_passes hl hs hn hg hd,
    fun l hl hs hw hd hg => ⟨chunk_waits hl hs hd hg hw, fun h1 h2 hh h => chunk_keeps hl hs hd hg hw h1 hh h2 h,
      fun h1 h2 hh h => ⟨fun u ht => chunk_full hl hs hd hg hw h1 hh h ht, fun u b ht => chunk_takes hl hs hd hg hw h1 hh h2 h ht⟩⟩⟩
  obtain ⟨f1, f2, f3, -⟩ := loadFail_fails s l 4
  rw [chunk_empty hl hs hg hd]
  exact ⟨f1, f2, f3⟩
/-- Settles O58: each access, command and event of the host, the Keeper and the package's registers by its own lemma. -/
theorem hostEvents : Obligations.HostEvents := by
  unfold Obligations.HostEvents
  refine fun s => ⟨hostMemWrite_writes s, fun a n => ?_, fun data hl => ?_, pod_commands s, loadw_commands s, weightChunk_chunks s, ?_, fun pkg => ?_,
    fun a0 a1 => ?_, fwstage_commands s, ⟨s, rfl, rfl⟩, portLanes_change s, ?_, fun v => ⟨_, rfl, keepcfg_stored s v⟩, fun v => ⟨_, rfl, poolbase_stored s v⟩,
    fun p v => ⟨_, rfl, srseed_loads s p v⟩, fun p v => ⟨_, rfl, unlessRsv_pos _ _, fun h => ?_⟩, fun n v => ⟨_, rfl, fun h => ?_, fun w h hw => ?_⟩,
    fun p v => ⟨_, rfl, unlessRsv_pos _ _, fun h => ?_, fun h => ?_⟩, fun n v => ⟨_, rfl, unlessRsv_pos _ _, fun h => ?_⟩⟩
  · refine ⟨_, rfl, rfl, by rw [List.length_map, List.length_range], fun hr hn hs => ?_⟩
    exact List.map_congr_left fun i hi => hostByte_ready hr hn hs (List.mem_range.1 hi)
  · have hw : s.hostWrite 0x100 data = s.mailbox data := Eq.trans (if_neg (by omega)) (if_pos ⟨rfl, hl⟩)
    refine ⟨_, rfl, fun h => ?_, fun h hr => ?_⟩
    · rw [hw]
      exact if_pos h
    · rw [hw]
      exact mailbox_takes hl h hr
  · refine ⟨_, rfl, fun h => ?_, fun l hl hs hw => loadSwitch_switches hl hs hw⟩
    unfold State.loadSwitch
    rw [h]
    dsimp only
    rw [h]
  · refine ⟨_, rfl, fun h => ?_, fun l hl hr => ?_, fun l hl hr h => report_ends hl hr h⟩
    · unfold State.report
      rw [h]
    · unfold State.report
      rw [hl]
      exact if_pos (Option.isSome_iff_ne_none.2 hr)
  · simp only [← leBytes_eq]
    exact attest_commands s a0 a1
  · refine ⟨_, rfl, fun h => if_neg (ne_true_of_eq_false h), fun h => ?_⟩
    rw [if_pos h, (scheduleOnce_keeps ..).1]
    exact keeper_grants s
  · rw [unlessRsv_neg _ _ h]
    exact ttbase_removes s p v
  · by_cases hr : v.toNat &&& regRsv 0x180 = 0
    · rw [unlessRsv_neg _ _ hr, kpart_refused (h.resolve_left (not_not.2 hr))]
      rfl
    · exact unlessRsv_pos _ _ hr
  · rw [unlessRsv_neg _ _ h, hw]
    exact ⟨rfl, kpart_accepted hw⟩
  · rw [unlessRsv_neg _ _ h]
    exact (sscfg_set s p v).1
  · rw [unlessRsv_neg _ _ h]
    exact (sscfg_set s p v).2
  · rw [unlessRsv_neg _ _ h]
    exact slice_set s n v
end Sys2Proof.Machine
end

section
/-! A teardown whose removal of translations brings a packet to the launch window (R358, R397). -/
namespace Sys2Proof.Machine
open Sys2Proof

/-! ### A teardown that brings a packet (R358, R397) -/

/-- A packet that tears partition 0 down. -/
def tearPacketBytes : List Byte := 4 :: List.replicate 63 0
/-- A packet on its way to the launch window. -/
def windowStore : PathStore := ⟨0, 0, 0, 0, none, hostPa + 0x1000, List.replicate 64 0⟩
/-- The device is about to tear partition 0 down. The page of a publish pair of the partition is one of the host register block, to which a store of the
partition is on its way. -/
def tearsWindow : State :=
  { ready := true, packets := [tearPacketBytes], parts := [(0, { pairs := [(0, ⟨0, 0, 4096, false⟩)] })]
    quads := [(0, { path := [windowStore], tlb := [⟨0, 0, 0, BitVec.ofNat 64 (hostPa + 0x1000)⟩] })] }
/-- The removal of the pair's translations waits for the store, which puts its packet into the queue. -/
theorem tearsWindow_packets : tearsWindow.tearPacket.packets = [windowStore.bytes] := by decide +kernel

/-- Refutes O57: a store on its way to the launch window, through a page of a publish pair of the partition that a packet tears down, reaches the window
within the teardown; the queue then holds its packet too, not just the rest of what it held. -/
theorem not_taskEvents : ¬ Obligations.TaskEvents := by
  unfold Obligations.TaskEvents
  intro h
  obtain ⟨-, -, -, -, -, hpackets, -⟩ := h tearsWindow
  obtain ⟨-, -, -, t, -, -, -, ht, -, -, -, -, -, -, -, htear⟩ := hpackets
  obtain ⟨-, -, hrest, -⟩ := htear tearPacketBytes (by decide +kernel)
  have hp : t.packets = tearsWindow.packets.tail := hrest (by decide +kernel) (by decide +kernel)
  cases Host.Outcome.next.inj ht
  exact absurd (tearsWindow_packets.symm.trans hp) (by decide +kernel)
end Sys2Proof.Machine
end

section
/-! What the progress of an array leaves, and its turns (R243, R248, R254). -/
namespace Sys2Proof.Machine
open Sys2Proof

/-! ### Progress of an array (R248, R254, R255) -/

/-- A quad whose array has made progress: beats have left its FIFO parts, and its commands, as many as before, may stand otherwise. -/
structure Paced (y z : Quad) : Prop where
  eq : z = { y with fifo := z.fifo, arr := { y.arr with queue := z.arr.queue } }
  length : z.arr.queue.length = y.arr.queue.length
namespace Paced
theorem refl (y : Quad) : Paced y y := ⟨rfl, rfl⟩
theorem trans {y z w : Quad} (h : Paced y z) (g : Paced z w) : Paced y w := ⟨by rw [g.eq, h.eq], g.length.trans h.length⟩
theorem mk' {y : Quad} {f : Tbl (List (BitVec 512))} {l : List MatCmd} (h : l.length = y.arr.queue.length) :
    Paced y { y with fifo := f, arr := { y.arr with queue := l } } := ⟨rfl, h⟩
end Paced
theorem splitDone_append (l : List MatCmd) : (splitDone l).1 ++ (splitDone l).2 = l := by
  induction l with
  | nil => rfl
  | cons x t ih =>
    unfold splitDone
    split
    · exact congrArg (x :: ·) ih
    · rfl
theorem splitDone_length {l a b : List MatCmd} (h : splitDone l = (a, b)) : a.length + b.length = l.length := by
  have := congrArg List.length (splitDone_append l)
  rwa [List.length_append, h] at this
theorem markBegun_length (q now : Nat) (x : MatCmd) (t : List MatCmd) : (markBegun q now x t).length = t.length + 1 := by
  unfold markBegun
  split <;> rfl
theorem take_fifo (x : MatCmd) (q : Nat) (y : Quad) : (x.take q y).2 = { y with fifo := (x.take q y).2.fifo } := rfl
theorem pace_paced (q till f : Nat) : ∀ (now : Nat) (y : Quad), Paced y (Quad.pace q till f now y) := by
  induction f with
  | zero => exact fun _ y => .refl y
  | succ f ih =>
    intro now y
    unfold Quad.pace
    split
    next => exact .refl y
    next done x t hs =>
      have hl := splitDone_length hs
      dsimp only
      split
      · refine .trans (.mk' (f := y.fifo) ?_) (ih _ _)
        rw [List.length_append]
        exact hl
      · split
        · refine .mk' (f := y.fifo) ?_
          rw [List.length_append, markBegun_length]
          exact hl
        · have hm := markBegun_length q now x t
          split
          · exact .refl y
          next x' t' hmark =>
            generalize (leastPos _).getD 1 = d
            rw [hmark, List.length_cons, Nat.add_right_cancel_iff] at hm
            refine .trans ⟨?_, ?_⟩ (ih _ _)
            · cases t' with
              | nil => rfl
              | cons z r =>
                cases x.follower q t with
                | none => rfl
                | some w =>
                  dsimp only
                  split <;> rfl
            · dsimp only
              rw [List.length_append, List.length_cons, ← hl, List.length_cons, ← hm]
              cases t' with
              | nil => rfl
              | cons z r =>
                cases x.follower q t with
                | none => rfl
                | some w =>
                  dsimp only
                  split <;> rfl

/-- A quad whose array has settled at the state's clock. -/
def State.settledQuad (s : State) (q : Nat) : Quad := (s.settleArr q).quad q
theorem settleArr_eq (s : State) (q : Nat) : s.settleArr q = s.setQuad q (s.settledQuad q) :=
  congrArg (s.setQuad q) (State.quad_setQuad_same s q _).symm
theorem settledQuad_paced (s : State) (q : Nat) : ∃ z : Quad, Paced (s.quad q) z ∧ s.settledQuad q = { z with arr := { z.arr with settled := s.clk } } := by
  refine ⟨_, ?_, State.quad_setQuad_same s q _⟩
  split
  · split
    · exact pace_paced ..
    · exact .refl _
  · exact .refl _
/-- Settling leaves all of a quad but its FIFO parts, the progress of its commands and the clock of the count. -/
theorem settledQuad_keeps (s : State) (q : Nat) : s.settledQuad q = { s.quad q with
    fifo := (s.settledQuad q).fifo, arr := { s.arr q with queue := (s.settledQuad q).arr.queue, settled := s.clk } }
    ∧ (s.settledQuad q).arr.queue.length = (s.arr q).queue.length := by
  obtain ⟨z, hz, he⟩ := settledQuad_paced s q
  rw [he]
  exact ⟨by rw [hz.eq]; rfl, hz.length⟩
theorem settleArr_quad (s : State) (q p : Nat) : (s.settleArr q).quad p = if q = p then s.settledQuad q else s.quad p := by
  rw [settleArr_eq, State.quad_setQuad]
/-- Settling a quad's array depends on nothing of another quad. -/
theorem settledQuad_congr {s t : State} {q : Nat} (h : t = { s with quads := t.quads, agenda := t.agenda, nextId := t.nextId }) (hq : t.quad q = s.quad q) : t.settledQuad q = s.settledQuad q := by
  unfold State.settledQuad State.settleArr
  rw [hq, State.quad_setQuad_same, State.quad_setQuad_same]
  rw [h]
  rfl

/-! ### Turns (R243, R245) -/

/-- The leases, the waiting cores and the turns of every array are as they were. -/
structure SameTurns (s t : State) : Prop where
  lessees : ∀ p, (t.arr p).lessees = (s.arr p).lessees
  wants : ∀ p, (t.arr p).wants = (s.arr p).wants
  turn : ∀ p, (t.arr p).turn = (s.arr p).turn
  count : ∀ p, (t.arr p).turnCount = (s.arr p).turnCount
  since : ∀ p, (t.arr p).turnClk = (s.arr p).turnClk
  last : ∀ p, (t.arr p).lastMember = (s.arr p).lastMember
  clk : t.clk = s.clk
section
variable {s t : State} (h : SameTurns s t)
include h
theorem SameTurns.lease (q c : Nat) : (t.arr q).lease c = (s.arr q).lease c := congrArg (List.find? _) (h.lessees q)
theorem SameTurns.member (q : Nat) (w : W64) : t.member q w = s.member q w := congrArg (List.find? _) (h.lessees q)
theorem SameTurns.leader (q : Nat) (l : Lessee) : t.leader q l = s.leader q l := by
  unfold State.leader
  rw [h.lessees]
theorem SameTurns.whole (q : Nat) (l : Lessee) : t.whole q l = s.whole q l := by
  unfold State.whole
  simp only [h.member]
theorem SameTurns.someoneWaits (q : Nat) : t.someoneWaits q = s.someoneWaits q := by
  unfold State.someoneWaits State.groupWaits State.singleWaits
  simp only [h.lessees, h.whole, h.leader, h.wants, h.turn, h.lease]
theorem SameTurns.turnQuads (q c : Nat) : t.turnQuads q c = s.turnQuads q c := by
  unfold State.turnQuads
  rw [h.lease]
end
/-- A turn whose holder has begun neither 16 commands nor 8,192 clocks ago, and for which nobody waits, is not over. -/
theorem turnOver_false {s : State} {q c : Nat} (ht : (s.arr q).turn = some c) (hc : (s.arr q).turnCount < 16) (hk : s.clk < (s.arr q).turnClk + 8192)
    (hw : ∀ p, p ∈ s.turnQuads q c → s.someoneWaits p = false) : s.turnOver q = false := by
  unfold State.turnOver
  dsimp only
  rw [ht]
  dsimp only
  rw [decide_eq_false (by omega), decide_eq_false (by omega), List.any_eq_false.2 fun p hp => ne_true_of_eq_false (hw p hp)]
  rfl

/-! ### The arrays of several quads settle -/

/-- The arrays of some quads have settled; the others stand as before. -/
structure SettledOn (s t : State) (qs : List Nat) : Prop where
  eq : t = { s with quads := t.quads }
  here : ∀ p, p ∈ qs → t.quad p = s.settledQuad p
  others : ∀ p, p ∉ qs → t.quad p = s.quad p
theorem settles_on (qs : List Nat) : ∀ s : State, qs.Nodup → SettledOn s (qs.foldl State.settleArr s) qs := by
  induction qs with
  | nil => exact fun s _ => ⟨rfl, fun p h => (nomatch h), fun p _ => rfl⟩
  | cons q qs ih =>
    intro s hn
    obtain ⟨hq, hn⟩ := List.nodup_cons.1 hn
    obtain ⟨he, hh, ho⟩ := ih (s.settleArr q) hn
    have hothers (p : Nat) (hp : p ≠ q) : (s.settleArr q).quad p = s.quad p := (settleArr_quad ..).trans (if_neg (Ne.symm hp))
    refine ⟨he.trans rfl, fun p hp => ?_, fun p hp => ?_⟩
    · by_cases hpq : p = q
      · rw [List.foldl_cons, hpq, ho q hq]
        rfl
      · have hp := (List.mem_cons.1 hp).resolve_left hpq
        rw [List.foldl_cons, hh p hp]
        exact settledQuad_congr rfl (hothers p hpq)
    · obtain ⟨hpq, hp⟩ := not_or.1 fun h => hp (List.mem_cons.2 h)
      rw [List.foldl_cons, ho p hp, hothers p hpq]
theorem SettledOn.arr {s t : State} {qs : List Nat} (h : SettledOn s t qs) (p : Nat) : t.arr p = { s.arr p with queue := (t.arr p).queue, settled := (t.arr p).settled } := by
  unfold State.arr
  by_cases hp : p ∈ qs
  · rw [h.here p hp, (settledQuad_keeps s p).1]
    rfl
  · rw [h.others p hp]
theorem SettledOn.turns {s t : State} {qs : List Nat} (h : SettledOn s t qs) : SameTurns s t :=
  ⟨fun p => by rw [h.arr], fun p => by rw [h.arr], fun p => by rw [h.arr], fun p => by rw [h.arr], fun p => by rw [h.arr], fun p => by rw [h.arr], by rw [h.eq]⟩
end Sys2Proof.Machine
end

section
/-! Acceptance of a matrix command on the quads of its issuer's turn (R243, R252, R254). -/
namespace Sys2Proof.Machine
open Sys2Proof

/-! ### The next retirement is awaited -/

theorem scheduleBy_eq (s : State) (d : Nat) (i : Instr) : s.scheduleBy d i = { s with agenda := (s.scheduleBy d i).agenda } := by
  unfold State.scheduleBy
  split <;> rfl
/-- Looking at an array settles it; what it awaits stands on the agenda. -/
theorem lookMatrix_eq (s : State) (q : Nat) : s.lookMatrix q = { s.settleArr q with agenda := (s.lookMatrix q).agenda } := by
  unfold State.lookMatrix
  dsimp only
  split
  · rfl
  · split
    · rfl
    · split
      · rw [scheduleBy_eq]
      · rfl
theorem lookMatrix_quad (s : State) (q p : Nat) : (s.lookMatrix q).quad p = if q = p then s.settledQuad q else s.quad p := by
  rw [lookMatrix_eq]
  exact settleArr_quad s q p

/-! ### A command that has just been accepted (R252, R254) -/

/-- A command that is accepted in this clock has made no progress. -/
theorem pace_new {q n clk : Nat} {x : MatCmd} {y : Quad} (hq : y.arr.queue = [x]) (hc : x.clk = clk) (hf : x.fin = none) (hb : x.begun = false) :
    Quad.pace q clk (n + 1) clk y = y := by
  have hs : splitDone y.arr.queue = ([], [x]) := by
    rw [hq]
    unfold splitDone
    rw [hf]
    rfl
  have hm : markBegun q clk x [] = [x] := by
    unfold markBegun
    rw [hb, decide_eq_false (by omega)]
    rw [Bool.or_false, ← hb]
    rfl
  unfold Quad.pace
  rw [hs]
  dsimp only
  rw [if_neg (fun h => by omega), if_pos (Nat.le_refl _), hm, List.nil_append, ← hq]
theorem settledQuad_new {s : State} {q : Nat} {x : MatCmd} (hq : (s.arr q).queue = [x]) (hc : x.clk = s.clk) (hf : x.fin = none) (hb : x.begun = false)
    (hs : (s.arr q).settled = s.clk) : s.settledQuad q = s.quad q := by
  unfold State.settledQuad State.settleArr
  rw [State.quad_setQuad_same]
  have hq' : (s.quad q).arr.queue = [x] := hq
  have hs' : (s.quad q).arr.settled = s.clk := hs
  have hp := pace_new (q := q) (n := 65535) hq' hc hf hb
  have he : ({ s.quad q with arr := { (s.quad q).arr with settled := s.clk } } : Quad) = s.quad q := by rw [← hs']
  have hd : splitDone [x] = ([], [x]) := by
    unfold splitDone
    rw [hf]
    rfl
  rw [hq', hd]
  dsimp only
  rw [hs', hc, Nat.max_self, hp, ite_self]
  exact he
/-- The core that a command is accepted for on a quad: its issuer, or the member of the group there. -/
def State.commandCore (s : State) (l : Lessee) (p : Nat) : Nat := if isGroup l.word then (s.member p l.word).elim s.cur Lessee.core else s.cur
/-- A command as a quad's queue holds it, with the geometry of the core there. -/
def State.commandOn (s : State) (l : Lessee) (x : MatCmd) (p : Nat) : MatCmd :=
  { x with core := s.commandCore l p, geoA := bits (s.core (s.commandCore l p)).mgeo 1 0, geoB := bits (s.core (s.commandCore l p)).mgeo 3 2 }
/-- A command enters the queue of a quad. -/
def State.acceptOn (l : Lessee) (x : MatCmd) (s : State) (p : Nat) : State :=
  let t := s.setArr p { s.arr p with turnCount := (s.arr p).turnCount + 1, queue := (s.arr p).queue ++ [s.commandOn l x p] }
  if (s.arr p).queue.isEmpty then t.lookMatrix p else t
theorem acceptOn_eq (l : Lessee) (x : MatCmd) : (fun (s : State) (p : Nat) =>
      let a := s.arr p
      let core := if isGroup l.word then (match s.member p l.word with | some y => y.core | none => s.cur) else s.cur
      let s := s.setArr p { a with turnCount := a.turnCount + 1, queue := a.queue ++ [{ x with core := core, geoA := bits (s.core core).mgeo 1 0, geoB := bits (s.core core).mgeo 3 2 }] }
      if a.queue.isEmpty then s.lookMatrix p else s) = State.acceptOn l x := by
  funext s p
  unfold State.acceptOn State.commandOn State.commandCore
  dsimp only
  cases s.member p l.word <;> rfl
theorem arr_setArr (s : State) (q p : Nat) (a : Arr) : (s.setArr q a).quad p = if q = p then { s.quad q with arr := a } else s.quad p := State.quad_setQuad ..
theorem acceptOn_keeps (s : State) (l : Lessee) (x : MatCmd) (p : Nat) :
    s.acceptOn l x p = { s with quads := (s.acceptOn l x p).quads, agenda := (s.acceptOn l x p).agenda } := by
  unfold State.acceptOn
  dsimp only
  split
  · rw [lookMatrix_eq]
    rfl
  · rfl
/-- A quad with a command behind its queue, counted in its turn. -/
def State.withCommand (s : State) (l : Lessee) (x : MatCmd) (p : Nat) : Quad :=
  { s.quad p with arr := { s.arr p with turnCount := (s.arr p).turnCount + 1, queue := (s.arr p).queue ++ [s.commandOn l x p] } }
theorem acceptOn_adds {s : State} {l : Lessee} {x : MatCmd} {p : Nat} (hc : x.clk = s.clk) (hf : x.fin = none) (hb : x.begun = false)
    (hs : (s.arr p).settled = s.clk) (j : Nat) : (s.acceptOn l x p).quad j = if p = j then s.withCommand l x p else s.quad j := by
  unfold State.acceptOn
  dsimp only
  generalize ht : s.setArr p _ = t
  have hj (j : Nat) : t.quad j = if p = j then s.withCommand l x p else s.quad j := by rw [← ht, arr_setArr]; rfl
  have hp : t.quad p = s.withCommand l x p := (hj p).trans (if_pos rfl)
  split
  next he =>
    have hq : (t.arr p).queue = [s.commandOn l x p] := by
      rw [State.arr, hp, State.withCommand, List.isEmpty_iff.1 he]
      rfl
    have hk : t.clk = s.clk := by rw [← ht]; rfl
    rw [lookMatrix_quad, settledQuad_new hq (hc.trans hk.symm) hf hb (by rw [State.arr, hp, hk]; exact hs), hp, hj]
    split <;> rfl
  · exact hj j
/-- A command has been accepted on several quads. -/
structure AddedOn (s t : State) (l : Lessee) (x : MatCmd) (qs : List Nat) : Prop where
  eq : t = { s with quads := t.quads, agenda := t.agenda }
  here : ∀ p, p ∈ qs → t.quad p = s.withCommand l x p
  others : ∀ p, p ∉ qs → t.quad p = s.quad p
theorem accepts_on {l : Lessee} {x : MatCmd} (hf : x.fin = none) (hb : x.begun = false) (qs : List Nat) : ∀ s : State, qs.Nodup → x.clk = s.clk →
    (∀ p, p ∈ qs → (s.arr p).settled = s.clk) → AddedOn s (qs.foldl (State.acceptOn l x) s) l x qs := by
  induction qs with
  | nil => exact fun s _ _ _ => ⟨rfl, fun p h => (nomatch h), fun p _ => rfl⟩
  | cons q qs ih =>
    intro s hn hc hs
    obtain ⟨hq, hn⟩ := List.nodup_cons.1 hn
    have hj := acceptOn_adds (l := l) hc hf hb (hs q (.head _))
    have hk := acceptOn_keeps s l x q
    rw [List.foldl_cons]
    generalize hu : s.acceptOn l x q = u at hj hk
    have hother (p : Nat) (hp : p ≠ q) : u.quad p = s.quad p := (hj p).trans (if_neg (Ne.symm hp))
    have hless (p : Nat) : (u.arr p).lessees = (s.arr p).lessees := by
      rw [State.arr, hj]
      split
      next h => subst h; rfl
      · rfl
    have hmem (p : Nat) : u.member p l.word = s.member p l.word := congrArg (List.find? _) (hless p)
    have hclk : u.clk = s.clk := by rw [hk]
    have hcore (c : Nat) : u.core c = s.core c := by rw [hk]; rfl
    have hcur : u.cur = s.cur := by rw [hk]
    have hcmd (p : Nat) : u.commandOn l x p = s.commandOn l x p := by
      unfold State.commandOn State.commandCore
      rw [hmem, hcur, hcore]
    obtain ⟨he, hh, ho⟩ := ih u hn (hc.trans hclk.symm) fun p hp => by
      rw [State.arr, hother p fun h => hq (h ▸ hp), hclk]
      exact hs p (.tail _ hp)
    refine ⟨he.trans (by rw [hk]), fun p hp => ?_, fun p hp => ?_⟩
    · by_cases hpq : p = q
      · rw [hpq, ho q hq, hj, if_pos rfl]
      · rw [hh p ((List.mem_cons.1 hp).resolve_left hpq), State.withCommand, State.withCommand, State.arr, State.arr, hother p hpq, hcmd]
    · obtain ⟨hpq, hp⟩ := not_or.1 fun h => hp (List.mem_cons.2 h)
      rw [ho p hp, hother p hpq]

/-! ### Acceptance in a turn (R243, R246) -/

/-- The current core holds the turn of all the quads of its lease, which nothing has ended, and each has room. -/
structure Turn (s : State) (l : Lessee) (qs : List Nat) : Prop where
  lease : (s.arr s.myQuad).lease s.cur = some l
  quads : groupQuads s.myQuad l.word = qs
  mine : s.myQuad ∈ qs
  whole : s.whole s.myQuad l = true
  turn : ∀ p, p ∈ qs → (s.arr p).turn = some s.cur ∧ (s.arr p).turnCount < 16 ∧ s.clk < (s.arr p).turnClk + 8192
    ∧ s.someoneWaits p = false ∧ (s.arr p).queue.length < 8
theorem groupQuads_nodup (q : Nat) (w : W64) : (groupQuads q w).Nodup := by
  unfold groupQuads
  split
  · exact List.nodup_range.map fun a b h => Nat.add_left_cancel h
  · exact List.nodup_singleton q
/-- The command as it is accepted: with its number, its clock, its bundle and its group. -/
def State.stamped (s : State) (l : Lessee) (q : Nat) (qs : List Nat) (x : MatCmd) : MatCmd :=
  { x with id := s.nextId, clk := s.clk, pc := s.me.pc, tag := s.me.tag, grp := if isGroup l.word then some (qs.headD q, l.word) else none }
/-- A command enters the queues of its quads; its issuer waits no more, and the 16th command of a turn ends it. -/
def State.acceptAll (s : State) (f : State → Nat → State) (q : Nat) (qs : List Nat) : State :=
  let v := qs.foldl f { s with nextId := s.nextId + 1 }
  let w := v.setArr q { v.arr q with wants := (v.arr q).wants.filter (· != v.cur) }
  if (w.arr q).turnCount < 16 then w else w.endTurn q
theorem acceptMatrix_mine {s u : State} {l : Lessee} {qs : List Nat} (x : MatCmd) (h : Turn s l qs) (hu : qs.foldl State.settleArr s = u) :
    s.acceptMatrix l x = .ok (u.acceptAll (State.acceptOn l (u.stamped l s.myQuad qs x)) s.myQuad qs) := by
  have hs : SettledOn s u qs := hu ▸ settles_on qs s (h.quads ▸ groupQuads_nodup ..)
  have hcur : u.cur = s.cur := by rw [hs.eq]
  have hover : u.turnOver s.myQuad = false := by
    obtain ⟨h1, h2, h3, -⟩ := h.turn _ h.mine
    refine turnOver_false (c := s.cur) (hs.turns.turn _ ▸ h1) (hs.turns.count _ ▸ h2) (by rw [hs.turns.since, hs.turns.clk]; exact h3) fun p hp => ?_
    rw [hs.turns.turnQuads, State.turnQuads, show s.cur / 4 = s.myQuad from rfl, h.lease] at hp
    rw [hs.turns.someoneWaits]
    exact (h.turn p (h.quads ▸ hp)).2.2.2.1
  have hmine : ((u.arr s.myQuad).turn == some u.cur) = true := by
    rw [hs.turns.turn, (h.turn _ h.mine).1, hcur]
    exact beq_self_eq_true _
  have hroom : (qs.any fun p => decide (8 ≤ (u.arr p).queue.length)) = false := List.any_eq_false.2 fun p hp => by
    rw [State.arr, hs.here p hp, (settledQuad_keeps s p).2]
    have := (h.turn p hp).2.2.2.2
    exact fun hd => absurd (of_decide_eq_true hd) (by omega)
  unfold State.acceptMatrix
  dsimp only
  simp only [h.quads, hu, hover, hmine, hs.turns.whole, h.whole, hroom, Bool.false_eq_true, if_false, Bool.not_true, Bool.false_and]
  exact congrArg (fun f => Res.ok (u.acceptAll f s.myQuad qs)) (acceptOn_eq l (u.stamped l s.myQuad qs x))

/-! ### The end of a turn (R243) -/

/-- The turn of a core on a quad ends. -/
def State.endOn (c : Nat) (who : State → Nat → Nat) (s : State) (p : Nat) : State :=
  if (s.arr p).turn = some c then s.setArr p { s.arr p with turn := none, turnCount := 0, lastMember := who s p } else s
/-- A core's turn has ended on some quads; nothing else of a quad has changed. -/
structure EndedOn (c : Nat) (s t : State) (qs : List Nat) : Prop where
  eq : t = { s with quads := t.quads }
  quad : ∀ p, t.quad p = { s.quad p with arr := { s.arr p with turn := (t.arr p).turn, turnCount := (t.arr p).turnCount, lastMember := (t.arr p).lastMember } }
  others : ∀ p, p ∉ qs → t.quad p = s.quad p
  turn : ∀ p, (t.arr p).turn = (s.arr p).turn ∨ (t.arr p).turn = none
  ended : ∀ p, p ∈ qs → (t.arr p).turn ≠ some c
theorem endOn_keeps (c : Nat) (who : State → Nat → Nat) (s : State) (q : Nat) : EndedOn c s (s.endOn c who q) [q] := by
  unfold State.endOn
  split
  next h =>
    refine ⟨rfl, fun p => ?_, fun p hp => ?_, fun p => ?_, fun p hp => ?_⟩
    · have hp := arr_setArr s q p { s.arr q with turn := none, turnCount := 0, lastMember := who s q }
      generalize s.setArr q _ = t at hp
      by_cases hq : q = p
      · subst hq
        rw [if_pos rfl] at hp
        rw [show t.arr q = _ from congrArg Quad.arr hp, hp]
      · rw [if_neg hq] at hp
        rw [show t.arr p = _ from congrArg Quad.arr hp, hp]
        rfl
    · rw [arr_setArr, if_neg fun (g : q = p) => hp (List.mem_singleton.2 g.symm)]
    · rw [State.arr, arr_setArr]
      split
      · exact .inr rfl
      · exact .inl rfl
    · rw [List.mem_singleton.1 hp, State.arr, arr_setArr, if_pos rfl]
      exact nofun
  next h => exact ⟨rfl, fun p => rfl, fun p _ => rfl, fun p => .inl rfl, fun p hp => List.mem_singleton.1 hp ▸ h⟩
theorem ends_on (c : Nat) (who : State → Nat → Nat) (qs : List Nat) : ∀ s : State, EndedOn c s (qs.foldl (State.endOn c who) s) qs := by
  induction qs with
  | nil => exact fun s => ⟨rfl, fun p => rfl, fun p _ => rfl, fun p => .inl rfl, fun p h => (nomatch h)⟩
  | cons q qs ih =>
    intro s
    obtain ⟨e1, q1, o1, n1, d1⟩ := endOn_keeps c who s q
    rw [List.foldl_cons]
    generalize s.endOn c who q = u at *
    obtain ⟨e2, q2, o2, n2, d2⟩ := ih u
    generalize qs.foldl (State.endOn c who) u = t at *
    refine ⟨e2.trans (by rw [e1]), fun p => ?_, fun p hp => ?_, fun p => (n2 p).elim (fun h => h ▸ n1 p) .inr, fun p hp => ?_⟩
    · rw [q2, State.arr, State.arr, q1]
    · obtain ⟨hpq, hp⟩ := not_or.1 fun h => hp (List.mem_cons.2 h)
      rw [o2 p hp, o1 p fun h => hpq (List.mem_singleton.1 h)]
    · by_cases hq : p ∈ qs
      · exact d2 p hq
      · have hpq := (List.mem_cons.1 hp).resolve_right hq
        rw [State.arr, o2 p hq]
        exact d1 p (hpq ▸ .head _)
theorem endTurn_ends {s : State} {q c : Nat} (h : (s.arr q).turn = some c) : EndedOn c s (s.endTurn q) (s.turnQuads q c) := by
  have he : ∃ who, s.endTurn q = (s.turnQuads q c).foldl (State.endOn c who) s := by
    unfold State.endTurn
    rw [h]
    exact ⟨_, rfl⟩
  obtain ⟨who, he⟩ := he
  rw [he]
  exact ends_on c who _ s

/-! ### What acceptance leaves (R243, R252) -/

/-- A command has been accepted on the quads of its issuer's turn. -/
structure Taken (s t : State) (l : Lessee) (x : MatCmd) (qs : List Nat) : Prop where
  rest : t = { s with quads := t.quads, agenda := t.agenda, nextId := s.nextId + 1 }
  others : ∀ p, p ∉ qs → t.quad p = s.quad p
  here : ∀ p, p ∈ qs → t.quad p = { s.settledQuad p with arr := { (s.settledQuad p).arr with
    queue := (s.settledQuad p).arr.queue ++ [s.commandOn l (s.stamped l s.myQuad qs x) p], turn := (t.arr p).turn, turnCount := (t.arr p).turnCount
    lastMember := (t.arr p).lastMember, wants := (t.arr p).wants } }
  wants : (t.arr s.myQuad).wants = (s.arr s.myQuad).wants.filter (· != s.cur)
  goes : (s.arr s.myQuad).turnCount < 15 → ∀ p, p ∈ qs → (t.arr p).turn = some s.cur ∧ (t.arr p).turnCount = (s.arr p).turnCount + 1
  ends : (s.arr s.myQuad).turnCount = 15 → (t.arr s.myQuad).turn = none
theorem acceptMatrix_takes {s : State} {l : Lessee} {qs : List Nat} {x : MatCmd} (h : Turn s l qs) (hf : x.fin = none) (hb : x.begun = false) :
    ∃ t, s.acceptMatrix l x = .ok t ∧ Taken s t l x qs := by
  obtain ⟨u, hu⟩ : ∃ u, qs.foldl State.settleArr s = u := ⟨_, rfl⟩
  refine ⟨_, acceptMatrix_mine x h hu, ?_⟩
  have hn : qs.Nodup := h.quads ▸ groupQuads_nodup ..
  have hs : SettledOn s u qs := hu ▸ settles_on qs s hn
  have hme : u.stamped l s.myQuad qs x = s.stamped l s.myQuad qs x := by
    unfold State.stamped State.me
    rw [hs.eq]
    rfl
  rw [hme]
  generalize hy : s.stamped l s.myQuad qs x = y
  have hyc : y.clk = u.clk := by rw [← hy, hs.turns.clk]; rfl
  obtain ⟨ve, vh, vo⟩ := accepts_on (l := l) (x := y) (by rw [← hy]; exact hf) (by rw [← hy]; exact hb) qs { u with nextId := u.nextId + 1 } hn hyc
    fun p hp => (congrArg (fun z : Quad => z.arr.settled) ((hs.here p hp).trans (settledQuad_keeps s p).1)).trans hs.turns.clk.symm
  unfold State.acceptAll
  dsimp only
  generalize qs.foldl (State.acceptOn l y) { u with nextId := u.nextId + 1 } = v at *
  have hcmd (p : Nat) : ({ u with nextId := u.nextId + 1 } : State).commandOn l y p = s.commandOn l y p := by
    unfold State.commandOn State.commandCore
    have hm : ({ u with nextId := u.nextId + 1 } : State).member p l.word = s.member p l.word := hs.turns.member p l.word
    rw [hm, hs.eq]
    rfl
  have hv (p : Nat) (hp : p ∈ qs) : v.quad p = { s.settledQuad p with arr := { (s.settledQuad p).arr with
      turnCount := (s.arr p).turnCount + 1, queue := (s.settledQuad p).arr.queue ++ [s.commandOn l y p] } } := by
    have hup : ({ u with nextId := u.nextId + 1 } : State).quad p = s.settledQuad p := hs.here p hp
    have hcount : (s.settledQuad p).arr.turnCount = (s.arr p).turnCount := by rw [(settledQuad_keeps s p).1]
    rw [vh p hp, State.withCommand, hcmd, State.arr, hup, hcount]
  have hvo (p : Nat) (hp : p ∉ qs) : v.quad p = s.quad p := (vo p hp).trans (hs.others p hp)
  have hve : v = { s with quads := v.quads, agenda := v.agenda, nextId := s.nextId + 1 } := by rw [ve, hs.eq]
  clear ve vh vo hcmd
  have hcur : v.cur = s.cur := by rw [hve]
  rw [hcur]
  have hw (p : Nat) := arr_setArr v s.myQuad p { v.arr s.myQuad with wants := (v.arr s.myQuad).wants.filter (· != s.cur) }
  have hwe : v.setArr s.myQuad { v.arr s.myQuad with wants := (v.arr s.myQuad).wants.filter (· != s.cur) } = { v with quads :=
    (v.setArr s.myQuad { v.arr s.myQuad with wants := (v.arr s.myQuad).wants.filter (· != s.cur) }).quads } := rfl
  generalize v.setArr s.myQuad _ = w at hw hwe ⊢
  have hwq (p : Nat) (hp : p ∈ qs) : w.quad p = { s.settledQuad p with arr := { (s.settledQuad p).arr with
      turnCount := (s.arr p).turnCount + 1, queue := (s.settledQuad p).arr.queue ++ [s.commandOn l y p], wants := (w.arr p).wants } } := by
    have hva : v.arr p = _ := congrArg Quad.arr (hv p hp)
    by_cases hqp : s.myQuad = p
    · subst hqp
      have he := (hw s.myQuad).trans (if_pos rfl)
      have ha : w.arr s.myQuad = _ := congrArg Quad.arr he
      rw [ha, he, hva, hv _ hp]
    · have he := (hw p).trans (if_neg hqp)
      have ha : w.arr p = v.arr p := congrArg Quad.arr he
      rw [ha, he, hva, hv _ hp]
  have hww : (w.arr s.myQuad).wants = (s.arr s.myQuad).wants.filter (· != s.cur) := by
    have : (v.arr s.myQuad).wants = (s.arr s.myQuad).wants := by rw [State.arr, hv _ h.mine, (settledQuad_keeps s _).1]
    rw [State.arr, hw, if_pos rfl, ← this]
  have hwo (p : Nat) (hp : p ∉ qs) : w.quad p = s.quad p := by
    rw [hw, if_neg fun (g : s.myQuad = p) => hp (g ▸ h.mine), hvo p hp]
  have hwt (p : Nat) (hp : p ∈ qs) : (w.arr p).turn = (s.arr p).turn ∧ (w.arr p).turnCount = (s.arr p).turnCount + 1 ∧ (w.arr p).lessees = (s.arr p).lessees := by
    rw [State.arr, hwq p hp, (settledQuad_keeps s p).1]
    exact ⟨rfl, rfl, rfl⟩
  have hcount := (hwt _ h.mine).2.1
  have hends : ∃ t, t = (if (w.arr s.myQuad).turnCount < 16 then w else w.endTurn s.myQuad) ∧ EndedOn s.cur w t (if (w.arr s.myQuad).turnCount < 16 then [] else qs)
      ∧ ((w.arr s.myQuad).turnCount < 16 → t = w) := by
    refine ⟨_, rfl, ?_, fun h => if_pos h⟩
    split
    · exact ⟨rfl, fun p => rfl, fun p _ => rfl, fun p => .inl rfl, fun p hp => nomatch hp⟩
    · have ht : (w.arr s.myQuad).turn = some s.cur := (hwt _ h.mine).1.trans (h.turn _ h.mine).1
      have := endTurn_ends ht
      have hl : (w.arr (s.cur / 4)).lease s.cur = some l := (congrArg (List.find? _) (hwt _ h.mine).2.2).trans h.lease
      unfold State.turnQuads at this
      rw [hl] at this
      exact h.quads ▸ this
  obtain ⟨t, ht, hen, hsame⟩ := hends
  rw [← ht]
  have hta (p : Nat) : (t.arr p).wants = (w.arr p).wants := (congrArg (fun z : Quad => z.arr.wants) (hen.quad p) :)
  refine ⟨?_, fun p hp => ?_, fun p hp => ?_, (hta _).trans hww, fun hc p hp => ?_, fun hc => ?_⟩
  · rw [hen.eq, hwe, hve]
  · refine (hen.others p ?_).trans (hwo p hp)
    split
    · exact nofun
    · exact hp
  · have ha : w.arr p = _ := congrArg Quad.arr (hwq p hp)
    rw [hy, hen.quad p, hta, ha, hwq p hp]
  · rw [hsame (by omega), (hwt p hp).1, (hwt p hp).2.1]
    exact ⟨(h.turn p hp).1, rfl⟩
  · rw [if_neg (by omega)] at hen
    exact (hen.turn s.myQuad).resolve_left fun he => hen.ended _ h.mine (he.trans ((hwt _ h.mine).1.trans (h.turn _ h.mine).1))
end Sys2Proof.Machine
end

section
/-! Commands under a single lease and under a group's (R242, R243, R246). -/
namespace Sys2Proof.Machine
open Sys2Proof

/-! ### A claimed bank (R242) -/

theorem claimed_has {s : State} {b : Nat} {x : Lessee} (h : (s.arr s.myQuad).lease s.cur = some x) (hb : x.banks / 2 ^ b % 2 = 1) : s.claimed b = some x := by
  unfold State.claimed
  rw [h]
  exact if_pos hb
theorem claimed_lacks {s : State} {b : Nat} (h : (s.arr s.myQuad).lease s.cur = none ∨ ∃ x, (s.arr s.myQuad).lease s.cur = some x ∧ x.banks / 2 ^ b % 2 = 0) :
    s.claimed b = none := by
  unfold State.claimed
  obtain h | ⟨x, h, hb⟩ := h
  · rw [h]
  · rw [h]
    exact if_neg (hb ▸ Nat.zero_ne_one)

/-! ### A command under a single lease, and under a group's (R243, R246, R252) -/

theorem groupQuads_single {q : Nat} {w : W64} (h : isGroup w = false) : groupQuads q w = [q] := by
  unfold groupQuads
  rw [h]
  rfl
theorem single_turn {s : State} {l : Lessee} (h : Spec.HasTurn s s.myQuad s.cur) (hl : (s.arr s.myQuad).lease s.cur = some l) (hg : isGroup l.word = false) :
    Turn s l [s.myQuad] := by
  refine ⟨hl, groupQuads_single hg, .head _, ?_, fun p hp => ?_⟩
  · unfold State.whole
    rw [hg]
    rfl
  · rw [List.mem_singleton.1 hp]
    exact ⟨h.turn, h.count, h.clock, h.nobody, h.room⟩
theorem group_turn {s : State} {l : Lessee} (h : Spec.GroupTurn s l) (hl : (s.arr s.myQuad).lease s.cur = some l) :
    Turn s l (groupQuads s.myQuad l.word) := ⟨hl, rfl, h.mine, h.whole, h.turn⟩
theorem settledArr (s : State) (q : Nat) : (s.settleArr q).arr q = (s.settledQuad q).arr := congrArg Quad.arr ((settleArr_quad s q q).trans (if_pos rfl))
theorem Taken.banks {s t : State} {l : Lessee} {x : MatCmd} {qs : List Nat} (h : Taken s t l x qs) (p : Nat) :
    (t.arr p).banks = (s.arr p).banks ∧ (t.arr p).lessees = (s.arr p).lessees ∧ (t.arr p).batch = (s.arr p).batch := by
  by_cases hp : p ∈ qs
  · rw [State.arr, h.here p hp, (settledQuad_keeps s p).1]
    exact ⟨rfl, rfl, rfl⟩
  · rw [State.arr, h.others p hp]
    exact ⟨rfl, rfl, rfl⟩
theorem Taken.queue {s t : State} {l : Lessee} {x : MatCmd} {qs : List Nat} (h : Taken s t l x qs) {p : Nat} (hp : p ∈ qs) :
    (t.arr p).queue = ((s.settleArr p).arr p).queue ++ [s.commandOn l (s.stamped l s.myQuad qs x) p] := by
  rw [State.arr, h.here p hp, settledArr]
theorem Taken.accepted {s t : State} {l : Lessee} {x : MatCmd} (h : Taken s t l x [s.myQuad]) (ht : Turn s l [s.myQuad]) (hg : isGroup l.word = false)
    (hx : x.core = s.cur) (hxg : x.grp = none) : Spec.Accepted s (t.mark .issued) s.myQuad x := by
  refine ⟨⟨_, h.queue (.head _), ?_⟩, ?_, ⟨(h.banks _).1, (h.banks _).2.1, h.wants⟩, ⟨fun p hp => h.others p fun g => hp (List.mem_singleton.1 g), ?_⟩, ?_⟩
  · unfold State.commandOn State.commandCore State.stamped
    rw [hg]
    dsimp only [Bool.false_eq_true, if_false]
    rw [if_neg Bool.false_ne_true, if_neg Bool.false_ne_true, ← hx, ← hxg, hx]
    rfl
  · show (t.arr s.myQuad).turn = _
    obtain ⟨h1, h2, -⟩ := ht.turn _ (.head _)
    split
    next hc => exact h.ends hc
    next hc => exact (h.goes (by omega) _ (.head _)).1
  · have hq : (t.mark .issued).quad s.myQuad = t.quad s.myQuad := rfl
    rw [hq, h.here _ (.head _), (settledQuad_keeps s _).1]
  · exact congrArg (State.mark · .issued) h.rest
theorem Taken.groupAccepted {s t : State} {l : Lessee} {x : MatCmd} (h : Taken s t l x (groupQuads s.myQuad l.word)) (hg : Spec.GroupTurn s l) :
    Spec.GroupAccepted s (t.mark .issued) l x := by
  refine ⟨fun p hp => ?_, fun p => ⟨(h.banks p).1, (h.banks p).2.1⟩, fun p hp hc => h.goes hc p hp, h.others, ?_⟩
  · have hw := hg.whole
    unfold State.whole at hw
    rw [hg.group, Bool.not_true, Bool.false_or, Bool.and_eq_true, List.all_eq_true] at hw
    have hm := hw.2 p hp
    cases he : s.member p l.word with
    | none =>
      rw [he] at hm
      nomatch hm
    | some e =>
      refine ⟨_, e, rfl, h.queue hp, ?_⟩
      unfold State.commandOn State.commandCore State.stamped
      rw [hg.group, he]
      rfl
  · exact congrArg (State.mark · .issued) h.rest

/-! ### MMA, MMV and MZERO (R252, R256, R259) -/

/-- A command under a single lease, in its turn, is accepted. -/
theorem acceptMatrix_single {s : State} {l : Lessee} {x : MatCmd} (h : Spec.HasTurn s s.myQuad s.cur) (hl : (s.arr s.myQuad).lease s.cur = some l)
    (hg : isGroup l.word = false) (hx : x.core = s.cur ∧ x.grp = none ∧ x.fin = none ∧ x.begun = false) :
    ∃ t, s.acceptMatrix l x = .ok t ∧ (t.arr s.myQuad).batch = (s.arr s.myQuad).batch ∧ Spec.Accepted s (t.mark .issued) s.myQuad x := by
  obtain ⟨hc, hgr, hf, hb⟩ := hx
  have ht := single_turn h hl hg
  obtain ⟨t, he, hk⟩ := acceptMatrix_takes (x := x) ht hf hb
  exact ⟨t, he, (hk.banks _).2.2, hk.accepted ht hg hc hgr⟩
/-- A command of a group's leader, in the group's turn, is accepted on every array. -/
theorem acceptMatrix_group {s : State} {l : Lessee} {x : MatCmd} (h : Spec.GroupTurn s l) (hl : (s.arr s.myQuad).lease s.cur = some l)
    (hf : x.fin = none) (hb : x.begun = false) : ∃ t, s.acceptMatrix l x = .ok t ∧ Spec.GroupAccepted s (t.mark .issued) l x := by
  obtain ⟨t, he, hk⟩ := acceptMatrix_takes (x := x) (group_turn h hl) hf hb
  exact ⟨t, he, hk.groupAccepted h⟩
theorem lentRound_eq (k : Core) (l : Lent) : lentRound k l = if l.elim 0 (·.val) % 8 = 0 then bits k.ctxctl 10 8 else l.elim 0 (·.val) % 8 := by
  cases l <;> rfl
/-- The parameters of the resident operands are those of a command. -/
theorem resident_iff (o : Option Batch) (c m k f : Nat) : (o.elim true fun x => x.core != c || x.m != m || x.k != k || x.fmt != f) = false
    ↔ ∃ x, o = some x ∧ x.core = c ∧ x.m = m ∧ x.k = k ∧ x.fmt = f := by
  cases o with
  | none => exact ⟨nofun, nofun⟩
  | some x => simp [and_assoc]
end Sys2Proof.Machine
end

section
/-! What the matrix instructions come to (R252, R256, R257, R260). -/
namespace Sys2Proof.Machine
open Sys2Proof

/-! ### What the matrix instructions come to (R250, R252, R256, R259, R260) -/

/-- The command of an MMA, before it is stamped. -/
def State.mmaCmd (s : State) (r : Fin 64) (f g : Fin 32) (sat o nb na : Bool) (b : Fin 4) (l : Lent) : MatCmd :=
  ⟨0, 0, s.cur, s.myPart, 0, b.val, f.val, g.val, na, nb, o, sat, false, lentRound s.me l, 0, 0,
        shapeM (s.me.sreg r.val), shapeN (s.me.sreg r.val), shapeK (s.me.sreg r.val), none, false, [], [], none, 0, 0, none, 0, 0⟩
/-- The command of an MMV, before it is stamped. -/
def State.mmvCmd (s : State) (r : Fin 64) (f g : Fin 32) (res sat o nb na : Bool) (b : Fin 4) (l : Lent) : MatCmd :=
  ⟨0, 0, s.cur, s.myPart, 1, b.val, f.val, g.val, na, nb, o, sat, res, lentRound s.me l, 0, 0,
        shapeM (s.me.sreg r.val), shapeN (s.me.sreg r.val), shapeK (s.me.sreg r.val), none, false, [], [], none, 0, 0, none, 0, 0⟩
/-- The command of an MZERO, before it is stamped. -/
def State.mzeroCmd (s : State) (b : Fin 4) : MatCmd :=
  ⟨0, 0, s.cur, s.myPart, 2, b.val, 0, 0, false, false, true, false, false, 1, 0, 0, 1, 1, 1, none, false, [], [], none, 0, 0, none, 0, 0⟩
section
variable {s : State} {r : Fin 64} {f g : Fin 32} {sat o nb na : Bool} {b : Fin 4} {l : Lent} {x : Lessee}
theorem mmaEffect_lacks (h : s.claimed b.val = none) : mmaEffect s r f g sat o nb na b l = fault invalidOperand := by
  unfold mmaEffect
  rw [h]
theorem mmvEffect_lacks {res : Bool} (h : s.claimed b.val = none) : mmvEffect s r f g res sat o nb na b l = fault invalidOperand := by
  unfold mmvEffect
  rw [h]
theorem mzeroEffect_lacks (h : s.claimed b.val = none) : mzeroEffect s b = fault invalidOperand := by
  unfold mzeroEffect
  rw [h]
theorem mdrainEffect_lacks (h : s.claimed b.val = none) : mdrainEffect s r b = fault invalidOperand := by
  unfold mdrainEffect
  rw [h]
/-- The rows and columns that a lease takes: 256 of each member on a side. -/
theorem mmaEffect_has (h : s.claimed b.val = some x) : mmaEffect s r f g sat o nb na b l =
    if bits (s.me.sreg r.val) 63 36 ≠ 0 ∨ (if isGroup x.word then decide (256 * gmOf x.word < shapeM (s.me.sreg r.val)) || decide (256 * gnOf x.word < shapeN (s.me.sreg r.val))
      else decide (256 < shapeM (s.me.sreg r.val)) || decide (256 < shapeN (s.me.sreg r.val))) then fault invalidOperand
    else if isGroup x.word && s.leader s.myQuad x != s.cur then fault invalidOperand
    else s.acceptMatrix x (s.mmaCmd r f g sat o nb na b l) := by
  unfold mmaEffect
  rw [h]
  rfl
theorem mzeroEffect_has (h : s.claimed b.val = some x) : mzeroEffect s b = if isGroup x.word && s.leader s.myQuad x != s.cur then fault invalidOperand
    else s.acceptMatrix x (s.mzeroCmd b) := by
  unfold mzeroEffect
  rw [h]
  rfl
theorem mdrainEffect_has (h : s.claimed b.val = some x) : mdrainEffect s r b =
    if bits (s.me.sreg r.val) 63 17 ≠ 0 ∨ bits (s.me.sreg r.val) 16 8 = 0 ∨ 256 < bits (s.me.sreg r.val) 7 0 + bits (s.me.sreg r.val) 16 8 then fault invalidOperand
    else if s.matrixOut s.cur [b.val] then .hold ((s.setMe { s.me with drainStall := min 0xFFFFFFFF (s.me.drainStall + 1) }).flowDrain s.cur)
    else if s.streaming s.myQuad then .hold (s.flowDrain s.cur)
    else .ok (s.setMe { s.me with drain := some ⟨b.val, bits (s.me.sreg r.val) 7 0, bits (s.me.sreg r.val) 16 8, s.me.sched + 6⟩ }) := by
  unfold mdrainEffect
  rw [h]
/-- What a word and the resident operands must keep to for MMV. -/
def State.fitsMmv (s : State) (r : Fin 64) (f : Fin 32) (res : Bool) : Prop :=
  (bits (s.me.sreg r.val) 63 36 = 0 ∧ shapeN (s.me.sreg r.val) ≤ 256 ∧ shapeM (s.me.sreg r.val) ≤ 8
    ∧ shapeM (s.me.sreg r.val) * shapeK (s.me.sreg r.val) ≤ (if f.val ≤ 1 then 32768 else 65536))
  ∧ (res = true → ∃ x, (s.arr s.myQuad).batch = some x ∧ x.core = s.cur ∧ x.m = shapeM (s.me.sreg r.val) ∧ x.k = shapeK (s.me.sreg r.val) ∧ x.fmt = f.val)
theorem mmvEffect_misfit {res : Bool} (h : s.claimed b.val = some x) (hf : ¬ s.fitsMmv r f res ∨ isGroup x.word = true) :
    mmvEffect s r f g res sat o nb na b l = fault invalidOperand := by
  unfold mmvEffect
  rw [h]
  dsimp only
  by_cases hn : bits (s.me.sreg r.val) 63 36 ≠ 0 ∨ 256 < shapeN (s.me.sreg r.val) ∨ 8 < shapeM (s.me.sreg r.val)
      ∨ (if f.val ≤ 1 then 32768 else 65536) < shapeM (s.me.sreg r.val) * shapeK (s.me.sreg r.val) ∨ isGroup x.word
  · exact if_pos hn
  · rw [if_neg hn]
    simp only [not_or, Nat.not_lt, not_not, ne_eq] at hn
    obtain ⟨h0, hN, hm, hk, hg⟩ := hn
    have hres : ¬ (res = true → _) := fun hr => hf.resolve_right hg ⟨⟨h0, hN, hm, hk⟩, hr⟩
    obtain ⟨hr, hno⟩ := Classical.not_imp.1 hres
    refine if_pos (Bool.and_eq_true_iff.2 ⟨hr, Bool.eq_true_of_not_eq_false fun ho => hno ((resident_iff ..).1 (Eq.trans ?_ ho))⟩)
    cases (s.arr s.myQuad).batch <;> rfl
/-- A fitting MMV is accepted, and keeps the parameters of the operands it loads. -/
theorem mmvEffect_accepts {res : Bool} {t : State} (h : s.claimed b.val = some x) (hg : isGroup x.word = false) (hf : s.fitsMmv r f res)
    (ht : s.acceptMatrix x (s.mmvCmd r f g res sat o nb na b l) = .ok t) :
    mmvEffect s r f g res sat o nb na b l =
      .ok (if res then t else t.setArr t.myQuad { t.arr t.myQuad with batch := some ⟨t.cur, shapeM (s.me.sreg r.val), shapeK (s.me.sreg r.val), f.val⟩ }) := by
  obtain ⟨⟨h0, hN, hm, hk⟩, hres⟩ := hf
  unfold mmvEffect
  rw [h]
  dsimp only
  have hno : ¬ (bits (s.me.sreg r.val) 63 36 ≠ 0 ∨ 256 < shapeN (s.me.sreg r.val) ∨ 8 < shapeM (s.me.sreg r.val)
      ∨ (if f.val ≤ 1 then 32768 else 65536) < shapeM (s.me.sreg r.val) * shapeK (s.me.sreg r.val) ∨ isGroup x.word) := by
    rw [hg]
    simp only [not_or, Nat.not_lt, not_not, ne_eq]
    exact ⟨h0, hN, hm, hk, nofun⟩
  unfold State.mmvCmd at ht
  rw [if_neg hno, ht]
  cases res with
  | false => rfl
  | true =>
    obtain ⟨y, hy, hc, hym, hyk, hyf⟩ := hres rfl
    rw [hy]
    refine if_neg ?_
    simp [hc, hym, hyk, hyf]
end
end Sys2Proof.Machine
end

section
/-! Proofs about matrix commands (R243, R250 to R260). -/
namespace Sys2Proof.Machine
open Sys2Proof

/-- What an array keeps as its resident operands is no part of a command's acceptance. -/
theorem accepted_withBatch {s t : State} {q : Nat} {x : MatCmd} (h : Spec.Accepted s t q x) (o : Option Batch) :
    Spec.Accepted s (t.setArr q { t.arr q with batch := o }) q x := by
  obtain ⟨hq, ht, hb, ⟨ho, he⟩, hr⟩ := h
  have hj := arr_setArr t q
  have hk : (t.setArr q { t.arr q with batch := o }).arr q = { t.arr q with batch := o } := congrArg Quad.arr ((hj q _).trans (if_pos rfl))
  refine ⟨by rw [hk]; exact hq, by rw [hk]; exact ht, by rw [hk]; exact hb, ⟨fun p hp => ?_, ?_⟩, ?_⟩
  · rw [hj, if_neg (Ne.symm hp)]
    exact ho p hp
  · rw [hj, if_pos rfl]
    have := congrArg Quad.path he
    rw [he]
  · generalize t.arr q = a
    rw [hr]
    rfl

section
variable {s : State} {r : Fin 64} {f g : Fin 32} {sat o nb na res : Bool} {b : Fin 4} {l : Lent} {x : Lessee}
variable (hl : (s.arr s.myQuad).lease s.cur = some x) (hb : x.banks / 2 ^ b.val % 2 = 1)
include hl hb

/-! ### MMA (R252) -/

theorem mma_single (hc : Clear (.mma r f g sat o nb na b l) s) (h : Spec.HasTurn s s.myQuad s.cur) (hg : isGroup x.word = false)
    (h0 : bits (s.me.sreg r.val) 63 36 = 0) (hm : shapeM (s.me.sreg r.val) ≤ 256) (hn : shapeN (s.me.sreg r.val) ≤ 256) :
    ∃ t, exec (.mma r f g sat o nb na b l) s = .next t ∧ t.issue = .issued ∧ Spec.Accepted s t s.myQuad (s.mmaCmd r f g sat o nb na b l) := by
  obtain ⟨t, ht, -, ha⟩ := acceptMatrix_single h hl hg (x := (s.mmaCmd r f g sat o nb na b l)) ⟨rfl, rfl, rfl, rfl⟩
  refine ⟨_, ?_, rfl, ha⟩
  rw [exec_mma, execMma, mmaEffect_has (claimed_has hl hb), hg, if_neg (by simp [h0]; omega), if_neg nofun, ht]
  exact meaning_ok hc
theorem mma_group (hc : Clear (.mma r f g sat o nb na b l) s) (h : Spec.GroupTurn s x)
    (h0 : bits (s.me.sreg r.val) 63 36 = 0) (hm : shapeM (s.me.sreg r.val) ≤ 256 * gmOf x.word) (hn : shapeN (s.me.sreg r.val) ≤ 256 * gnOf x.word) :
    ∃ t, exec (.mma r f g sat o nb na b l) s = .next t ∧ t.issue = .issued ∧ Spec.GroupAccepted s t x (s.mmaCmd r f g sat o nb na b l) := by
  obtain ⟨t, ht, ha⟩ := acceptMatrix_group h hl (x := (s.mmaCmd r f g sat o nb na b l)) rfl rfl
  refine ⟨_, ?_, rfl, ha⟩
  rw [exec_mma, execMma, mmaEffect_has (claimed_has hl hb), h.group, if_neg (by simp [h0]; omega), if_neg (by simp [h.leads]), ht]
  exact meaning_ok hc
theorem mma_misfit (hg : isGroup x.word = false) (h : bits (s.me.sreg r.val) 63 36 ≠ 0 ∨ 256 < shapeM (s.me.sreg r.val) ∨ 256 < shapeN (s.me.sreg r.val)) :
    mmaEffect s r f g sat o nb na b l = fault invalidOperand := by
  rw [mmaEffect_has (claimed_has hl hb), hg]
  refine if_pos (h.imp_right fun h => ?_)
  simpa using h
theorem mma_groupMisfit (hg : isGroup x.word = true) (h : bits (s.me.sreg r.val) 63 36 ≠ 0 ∨ 256 * gmOf x.word < shapeM (s.me.sreg r.val)
      ∨ 256 * gnOf x.word < shapeN (s.me.sreg r.val) ∨ s.leader s.myQuad x ≠ s.cur) : mmaEffect s r f g sat o nb na b l = fault invalidOperand := by
  rw [mmaEffect_has (claimed_has hl hb), hg, if_pos rfl]
  split
  · rfl
  next hn =>
    refine if_pos ?_
    simp at hn
    have : s.leader s.myQuad x ≠ s.cur := by
      obtain h | h | h | h := h
      · exact absurd hn.1 h
      · omega
      · omega
      · exact h
    simpa using this

/-! ### MMV (R256, R259) -/

theorem mmv_single (hc : Clear (.mmv r f g res sat o nb na b l) s) (h : Spec.HasTurn s s.myQuad s.cur) (hg : isGroup x.word = false) (hf : s.fitsMmv r f res) :
    ∃ t, exec (.mmv r f g res sat o nb na b l) s = .next t ∧ t.issue = .issued ∧ Spec.Accepted s t s.myQuad (s.mmvCmd r f g res sat o nb na b l)
      ∧ (t.arr s.myQuad).batch = if res = true then (s.arr s.myQuad).batch else some ⟨s.cur, shapeM (s.me.sreg r.val), shapeK (s.me.sreg r.val), f.val⟩ := by
  obtain ⟨t, ht, hbt, ha⟩ := acceptMatrix_single h hl hg (x := (s.mmvCmd r f g res sat o nb na b l)) ⟨rfl, rfl, rfl, rfl⟩
  have he : exec (.mmv r f g res sat o nb na b l) s = _ := (congrArg (meaning _ 3 s) (mmvEffect_accepts (claimed_has hl hb) hg hf ht)).trans (meaning_ok hc)
  have hcur : t.cur = s.cur := (congrArg State.cur ha.rest :)
  have hq : t.myQuad = s.myQuad := congrArg (· / 4) hcur
  refine ⟨_, he, rfl, ?_⟩
  cases res with
  | true => exact ⟨ha, hbt⟩
  | false =>
    rw [if_neg Bool.false_ne_true, if_neg Bool.false_ne_true, hq, hcur]
    exact ⟨accepted_withBatch ha _, congrArg (fun y : Quad => y.arr.batch) ((arr_setArr t s.myQuad s.myQuad _).trans (if_pos rfl))⟩

/-! ### MZERO (R257) -/

theorem mzero_single (hc : Clear (.mzero b l) s) (h : Spec.HasTurn s s.myQuad s.cur) (hg : isGroup x.word = false) :
    ∃ t, exec (.mzero b l) s = .next t ∧ t.issue = .issued ∧ Spec.Accepted s t s.myQuad (s.mzeroCmd b) := by
  obtain ⟨t, ht, -, ha⟩ := acceptMatrix_single h hl hg (x := s.mzeroCmd b) ⟨rfl, rfl, rfl, rfl⟩
  refine ⟨_, ?_, rfl, ha⟩
  rw [exec_mzero, execMzero, mzeroEffect_has (claimed_has hl hb), hg, if_neg nofun, ht]
  exact meaning_ok hc
theorem mzero_group (hc : Clear (.mzero b l) s) (h : Spec.GroupTurn s x) :
    ∃ t, exec (.mzero b l) s = .next t ∧ t.issue = .issued ∧ Spec.GroupAccepted s t x (s.mzeroCmd b) := by
  obtain ⟨t, ht, ha⟩ := acceptMatrix_group h hl (x := s.mzeroCmd b) rfl rfl
  refine ⟨_, ?_, rfl, ha⟩
  rw [exec_mzero, execMzero, mzeroEffect_has (claimed_has hl hb), h.group, if_neg (by simp [h.leads]), ht]
  exact meaning_ok hc
theorem mzero_noLeader (hg : isGroup x.word = true) (h : s.leader s.myQuad x ≠ s.cur) : mzeroEffect s b = fault invalidOperand := by
  rw [mzeroEffect_has (claimed_has hl hb), hg]
  exact if_pos (by simpa using h)

/-! ### MDRAIN (R260) -/

theorem mdrain_starts (hc : Clear (.mdrain r b l) s) (h0 : bits (s.me.sreg r.val) 63 17 = 0) (hn : bits (s.me.sreg r.val) 16 8 ≠ 0)
    (hr : bits (s.me.sreg r.val) 7 0 + bits (s.me.sreg r.val) 16 8 ≤ 256) (ho : s.matrixOut s.cur [b.val] = false) (hs : s.streaming s.myQuad = false) :
    exec (.mdrain r b l) s = .next ((s.setMe { s.me with drain := some ⟨b.val, bits (s.me.sreg r.val) 7 0, bits (s.me.sreg r.val) 16 8, s.me.sched + 6⟩ }).mark .issued) := by
  rw [exec_mdrain, execMdrain, mdrainEffect_has (claimed_has hl hb), if_neg (by simp [h0, hn]; omega), ho, hs]
  exact meaning_ok hc
theorem mdrain_misfit (h : bits (s.me.sreg r.val) 63 17 ≠ 0 ∨ bits (s.me.sreg r.val) 16 8 = 0 ∨ 256 < bits (s.me.sreg r.val) 7 0 + bits (s.me.sreg r.val) 16 8) :
    mdrainEffect s r b = fault invalidOperand := by
  rw [mdrainEffect_has (claimed_has hl hb)]
  exact if_pos h
end

/-! ### MCFG (R250) -/

theorem mgeoOk_iff (w : W64) : mgeoOk w = true ↔ bits w 63 4 = 0 ∧ bits w 3 2 ≠ 3 ∧ bits w 1 0 ≠ 3 := by
  unfold mgeoOk
  rw [Bool.and_eq_true, Bool.and_eq_true, beq_iff_eq, bne_iff_ne, bne_iff_ne, and_assoc]
section
variable {s : State} {r : Fin 64} {l : Lent}
theorem mcfg_writes (hc : Clear (.mcfg r l) s) (h : mgeoOk (s.me.sreg r.val) = true) :
    exec (.mcfg r l) s = .next ((s.setMe { s.me with mgeo := s.me.sreg r.val }).mark .issued) := by
  rw [exec_mcfg, execMcfg, mcfgEffect, if_pos h]
  exact meaning_ok hc
theorem mcfg_misfit (h : mgeoOk (s.me.sreg r.val) ≠ true) : mcfgEffect s r = fault invalidOperand := if_neg h
end
/-- An instruction of slot 3 whose effect is an invalid-operand fault traps so. -/
theorem slot3_operand {i : Instr} {s : State} {e : Res} (hc : Clear i s) (hi : exec i s = meaning i 3 s e) (he : e = fault invalidOperand) : Traps i s 3 5 0 0 :=
  fault_Traps hc (by decide) (by decide) (by decide) (hi.trans (congrArg (meaning i 3 s) he))

/-- Settles O49, by the acceptance of a command on the quads of its issuer's turn, whose arrays settle first. -/
theorem matrixCommands : Obligations.MatrixCommands := by
  unfold Obligations.MatrixCommands
  intro s q r l
  dsimp only
  refine ⟨fun hc => ⟨fun h0 h3 h1 => mcfg_writes hc ((mgeoOk_iff _).2 ⟨h0, h3, h1⟩), fun h => slot3_operand hc (exec_mcfg ..) (mcfg_misfit fun g => ?_)⟩, ?_, ?_, ?_, ?_⟩
  · obtain ⟨h0, h3, h1⟩ := (mgeoOk_iff _).1 g
    exact h.elim (· h0) fun h => h.elim h3 h1
  · intro f g st o nb na b hc hq
    subst hq
    rw [← lentRound_eq]
    refine ⟨?_, ?_, ?_, ?_, fun h => slot3_operand hc (exec_mma ..) (mmaEffect_lacks (claimed_lacks h))⟩
    · rintro h ⟨x, ⟨hl, hb⟩, hg⟩ h0 hm hn
      exact mma_single hl hb hc h hg h0 hm hn
    · rintro x ⟨hl, hb⟩ h h0 hm hn
      exact mma_group hl hb hc h h0 hm hn
    · rintro ⟨x, ⟨hl, hb⟩, hg⟩ h
      exact slot3_operand hc (exec_mma ..) (mma_misfit hl hb hg h)
    · rintro x ⟨hl, hb⟩ hg h
      exact slot3_operand hc (exec_mma ..) (mma_groupMisfit hl hb hg h)
  · intro f g res st o nb na b hc hq
    subst hq
    rw [← lentRound_eq]
    refine ⟨?_, ?_, ?_⟩
    · rintro h ⟨x, ⟨hl, hb⟩, hg⟩ hf hr
      exact mmv_single hl hb hc h hg ⟨hf, hr⟩
    · rintro ⟨x, ⟨hl, hb⟩, -⟩ h
      exact slot3_operand hc (exec_mmv ..) (mmvEffect_misfit (claimed_has hl hb) (.inl fun g => h.elim (· g.1) (· g.2)))
    · rintro (h | ⟨x, ⟨hl, hb⟩, hg⟩)
      · exact slot3_operand hc (exec_mmv ..) (mmvEffect_lacks (claimed_lacks h))
      · exact slot3_operand hc (exec_mmv ..) (mmvEffect_misfit (claimed_has hl hb) (.inr hg))
  · intro b hc hq
    subst hq
    refine ⟨?_, ?_, ?_⟩
    · rintro h ⟨x, ⟨hl, hb⟩, hg⟩
      exact mzero_single hl hb hc h hg
    · rintro x ⟨hl, hb⟩ h
      exact mzero_group hl hb hc h
    · rintro (h | ⟨x, ⟨hl, hb⟩, hg, hn⟩)
      · exact slot3_operand hc (exec_mzero ..) (mzeroEffect_lacks (claimed_lacks h))
      · exact slot3_operand hc (exec_mzero ..) (mzero_noLeader hl hb hg hn)
  · intro b hc hq
    subst hq
    refine ⟨?_, ?_, fun h => slot3_operand hc (exec_mdrain ..) (mdrainEffect_lacks (claimed_lacks h))⟩
    · rintro x ⟨hl, hb⟩ h0 hn hr ho hs
      exact mdrain_starts hl hb hc h0 hn hr ho hs
    · rintro x ⟨hl, hb⟩ h
      exact slot3_operand hc (exec_mdrain ..) (mdrain_misfit hl hb h)
end Sys2Proof.Machine
end

section
/-! The banks of an array (R253, R257). -/
namespace Sys2Proof.Machine
open Sys2Proof

/-! ### Banks of an array (R253, R257) -/

theorem bankKey_inj {b n i j i' j' : Nat} (hn : n ≤ 256) (hj : j < n) (hj' : j' < n) (h : bankKey b i j = bankKey b i' j') : i = i' ∧ j = j' := by
  unfold bankKey at h
  omega
/-- The values of a bank once the first elements of a block have been made, row by row. -/
theorem tgetD_mapBank_range {t : Tbl W32} {b n : Nat} (hn : n ≤ 256) (f : Nat → Nat → W32 → W32) {i j : Nat} (hj : j < n) (c : Nat) :
    tgetD ((List.range c).foldl (fun (t : Tbl W32) e => let key := bankKey b (e / n) (e % n); tput (0 : W32) t key (f (e / n) (e % n) (tgetD t key 0))) t) (bankKey b i j) 0
      = if n * i + j < c then f i j (tgetD t (bankKey b i j) 0) else tgetD t (bankKey b i j) 0 := by
  induction c with
  | zero => rfl
  | succ c ih =>
    rw [List.range_succ, List.foldl_append, List.foldl_cons, List.foldl_nil]
    dsimp only
    have hm : c % n < n := Nat.mod_lt _ (by omega)
    have hc := Nat.div_add_mod c n
    by_cases he : n * i + j = c
    · have hi : c / n = i := by rw [← he, Nat.mul_add_div (by omega), Nat.div_eq_of_lt hj, Nat.add_zero]
      have hj' : c % n = j := by rw [← he, Nat.mul_add_mod, Nat.mod_eq_of_lt hj]
      rw [hi, hj', tgetD_tput_same, ih, if_neg (by omega), if_pos (by omega)]
    · have hk : bankKey b (c / n) (c % n) ≠ bankKey b i j := fun h => by
        obtain ⟨hi, hj'⟩ := bankKey_inj hn hm hj h
        rw [hi, hj'] at hc
        exact he hc
      rw [tgetD_tput_other _ _ hk, ih]
      by_cases hl : n * i + j < c
      · rw [if_pos hl, if_pos (by omega)]
      · rw [if_neg hl, if_neg (by omega)]
/-- A column past a block's last keeps its values. -/
theorem tgetD_mapBank_beside {t : Tbl W32} {b n : Nat} (f : Nat → Nat → W32 → W32) {i j : Nat} (h0 : 0 < n) (hn : n ≤ j) (hj : j < 256) (c : Nat) :
    tgetD ((List.range c).foldl (fun (t : Tbl W32) e => let key := bankKey b (e / n) (e % n); tput (0 : W32) t key (f (e / n) (e % n) (tgetD t key 0))) t) (bankKey b i j) 0
      = tgetD t (bankKey b i j) 0 := by
  induction c with
  | zero => rfl
  | succ c ih =>
    have hk : bankKey b (c / n) (c % n) ≠ bankKey b i j := fun g => by
      have hm : c % n < n := Nat.mod_lt _ h0
      unfold bankKey at g
      omega
    rw [List.range_succ, List.foldl_append, List.foldl_cons, List.foldl_nil]
    exact (tgetD_tput_other _ _ hk).trans ih
/-- Every element of a block is made of its old value; the others of its bank keep theirs. -/
theorem tgetD_mapBank {t : Tbl W32} {b m n i j : Nat} (f : Nat → Nat → W32 → W32) (hn : n ≤ 256) (hj : j < 256) :
    tgetD (mapBank t b m n f) (bankKey b i j) 0 = if i < m ∧ j < n then f i j (tgetD t (bankKey b i j) 0) else tgetD t (bankKey b i j) 0 := by
  unfold mapBank
  by_cases hjn : j < n
  · rw [tgetD_mapBank_range hn f hjn]
    have hiff : n * i + j < m * n ↔ i < m ∧ j < n := by
      rw [Nat.mul_comm m n]
      constructor
      · intro h
        exact ⟨Nat.lt_of_mul_lt_mul_left (Nat.lt_of_le_of_lt (Nat.le_add_right ..) h), hjn⟩
      · rintro ⟨h, -⟩
        calc n * i + j < n * i + n := Nat.add_lt_add_left hjn _
          _ = n * (i + 1) := rfl
          _ ≤ n * m := Nat.mul_le_mul_left n h
    exact ite_congr (propext hiff) (fun _ => rfl) fun _ => rfl
  · rw [if_neg fun h => hjn h.2]
    obtain rfl | h0 := Nat.eq_zero_or_pos n
    · rfl
    · exact tgetD_mapBank_beside f h0 (Nat.not_lt.1 hjn) hj _
theorem tget_filterKey {t : Tbl W32} (p : Nat → Bool) (k : Nat) : tget (t.filter fun e => p e.1) k = if p k then tget t k else none := by
  induction t with
  | nil => exact (ite_self _).symm
  | cons e t ih =>
    obtain ⟨j, v⟩ := e
    rw [List.filter_cons, tget_cons]
    by_cases hj : j = k
    · subst hj
      cases hp : p j
      · rw [if_neg Bool.false_ne_true, ih, hp]
        rfl
      · rw [if_pos rfl, tget_cons, if_pos rfl, if_pos rfl, if_pos rfl]
    · rw [if_neg hj]
      split
      · rw [tget_cons, if_neg hj, ih]
      · exact ih
theorem tgetD_clearBank (t : Tbl W32) (b c : Nat) {i : Nat} (hi : i < 65536) : tgetD (clearBank t b) (c * 65536 + i) 0 = if c = b then 0 else tgetD t (c * 65536 + i) 0 := by
  have hc : (c * 65536 + i) / 65536 = c := by omega
  unfold tgetD clearBank
  rw [tget_filterKey (fun k => k / 65536 != b), hc]
  by_cases h : c = b
  · rw [if_neg (by simp [h]), if_pos h]
  · rw [if_pos (by simp [h]), if_neg h]
end Sys2Proof.Machine
end

section
/-! Retirement of matrix commands and the parts of a group's (R247, R253 to R257). -/
namespace Sys2Proof.Machine
open Sys2Proof

/-! ### The head of a queue retires (R253 to R257) -/

theorem setArr_arr (s : State) (q : Nat) (a : Arr) : (s.setArr q a).arr q = a := congrArg Quad.arr ((arr_setArr s q q a).trans (if_pos rfl))
theorem settledQuad_arr (s : State) (q : Nat) : (s.settledQuad q).arr = { s.arr q with queue := (s.settledQuad q).arr.queue, settled := s.clk } :=
  (congrArg Quad.arr (settledQuad_keeps s q).1 :)
theorem lookMatrix_arr (s : State) (q : Nat) : (s.lookMatrix q).arr q = (s.settledQuad q).arr := congrArg Quad.arr ((lookMatrix_quad s q q).trans (if_pos rfl))
theorem popMatrix_pops (s : State) (q : Nat) : ((s.popMatrix q).arr q).banks = (s.arr q).banks ∧ ((s.popMatrix q).arr q).inbox = (s.arr q).inbox
    ∧ ((s.popMatrix q).arr q).queue.length = (s.arr q).queue.tail.length := by
  have ha := setArr_arr s q { s.arr q with queue := (s.arr q).queue.tail }
  unfold State.popMatrix
  dsimp only
  have hl := (settledQuad_keeps (s.setArr q { s.arr q with queue := (s.arr q).queue.tail }) q).2
  rw [lookMatrix_arr, hl, settledQuad_arr, ha]
  exact ⟨rfl, rfl, rfl⟩
/-- A retirement whose array has its last row done, and may write its bank, runs the head of the queue. -/
theorem retireMatrix_runs {s : State} {q e : Nat} {x : MatCmd} {r : List MatCmd} (hq : ((s.settleArr q).arr q).queue = x :: r) (hp : x.parts = none)
    (hr : (s.settleArr q).arrRuns q x.part = true) (hf : x.fin = some e) (he : e + (x.work q).2.2.2 + 1 ≤ s.clk) (hd : (s.settleArr q).draining q x.bank = false) :
    s.retireMatrix q = (s.settleArr q).runMatrix q x := by
  unfold State.retireMatrix
  dsimp only
  generalize hu : s.settleArr q = u at *
  have hc : u.clk = s.clk := by rw [← hu]; rfl
  rw [hq]
  dsimp only
  rw [hp, hr, hf, hd]
  have hlate : ¬ u.clk < e + (x.work q).2.2.2 + 1 := by omega
  exact (if_neg (by decide)).trans ((if_neg hlate).trans (if_neg Bool.false_ne_true))
theorem runMatrix_clears {s : State} {q : Nat} {x : MatCmd} (hk : x.kind = 2) :
    ((s.runMatrix q x).arr q).banks = clearBank (s.arr q).banks x.bank ∧ ((s.runMatrix q x).arr q).queue.length = (s.arr q).queue.tail.length := by
  unfold State.runMatrix
  dsimp only
  rw [if_pos hk]
  obtain ⟨hb, -, hl⟩ := popMatrix_pops (s.setArr q { s.arr q with banks := clearBank (s.arr q).banks x.bank }) q
  rw [hb, hl, setArr_arr]
  exact ⟨rfl, rfl⟩
theorem drew_same {s : State} {p g mode n : Nat} (h : mode ≠ 5) : s.drew p g mode n = s := if_neg h
/-- The operands that a command leaves resident, or finds so. -/
def State.residentOf (s : State) (q : Nat) (x : MatCmd) : Tbl (List (BitVec 512) × Nat) :=
  if x.kind = 1 ∧ !x.res then tset (s.arr q).resident x.core (x.ina, x.geoA) else (s.arr q).resident
theorem runMatrix_makes {s : State} {q : Nat} {x : MatCmd} (hk : x.kind ≠ 2) (hg : x.grp = none) (h5 : x.mode ≠ 5) (hm : 0 < x.m) (hn : 0 < x.n) (hkk : 0 < x.k) :
    ((s.runMatrix q x).arr q).banks = mapBank (s.arr q).banks x.bank x.m x.n (fun i j v => x.element x.m x.n x.k (cdiv x.k 16)
        (tgetD (s.residentOf q x) x.core ([], 0)) (s.gen x.part (arrGen q)) i j (if x.ovw then 0 else v))
      ∧ ((s.runMatrix q x).arr q).queue.length = (s.arr q).queue.tail.length := by
  have hsh : x.shape q = (x.m, x.n, x.k) := by
    unfold MatCmd.shape
    rw [hg]
  unfold State.runMatrix
  rw [hsh, hg]
  dsimp only
  rw [if_neg hk, if_neg (by omega), drew_same h5, Bool.not_false, if_pos rfl]
  have hres : (if x.kind = 1 ∧ !x.res then { s.arr q with resident := tset (s.arr q).resident x.core (x.ina, x.geoA) } else s.arr q)
      = { s.arr q with resident := s.residentOf q x } := by
    unfold State.residentOf
    split <;> rfl
  rw [hres]
  generalize mapBank _ _ _ _ _ = b
  obtain ⟨hb, -, hl⟩ := popMatrix_pops (s.setArr q { s.arr q with resident := s.residentOf q x, banks := b }) q
  rw [setArr_arr] at hb hl
  exact ⟨hb, hl⟩
theorem tgetD_residentOf (s : State) (q : Nat) (x : MatCmd) : tgetD (s.residentOf q x) x.core ([], 0)
    = if x.kind = 1 ∧ x.res = false then (x.ina, x.geoA) else tgetD (s.arr q).resident x.core ([], 0) := by
  unfold State.residentOf
  cases x.res
  · split
    next h => rw [if_pos ⟨h.1, rfl⟩, tgetD_tset_same]
    next h => rw [if_neg fun g => h ⟨g.1, rfl⟩]
  · rw [if_neg (fun h => nomatch h.2), if_neg (fun h => nomatch h.2)]

/-! ### Parts of a group's command (R247) -/

/-- The state in which the parts that are due have left for their home, where they stand behind those that have arrived. -/
def State.partsHome (s : State) (q src : Nat) : State :=
  let here := (s.arr src).part.filter fun p => p.1 == q && decide (p.2.2.1 ≤ s.clk)
  let u := s.setArr src { s.arr src with part := (s.arr src).part.filter fun p => !(p.1 == q && decide (p.2.2.1 ≤ s.clk)) }
  u.setArr q { u.arr q with inbox := (u.arr q).inbox ++ here.map fun p => (p.2.1, src, p.2.2.2) }
theorem partArrives_eq (s : State) (q src : Nat) : s.partArrives q src = (s.partsHome q src).addParts q (((s.partsHome q src).arr q).inbox.length + 1) := by
  unfold State.partArrives State.partsHome
  dsimp only
  rw [List.partition_eq_filter_filter]
  rfl
theorem partsHome_keeps (s : State) (q src : Nat) : s.partsHome q src = { s with quads := (s.partsHome q src).quads } := rfl
theorem partsHome_arr (s : State) (q src p : Nat) : (s.partsHome q src).arr p = { s.arr p with
    part := ((s.partsHome q src).arr p).part, inbox := ((s.partsHome q src).arr p).inbox } := by
  unfold State.partsHome
  dsimp only
  generalize hu : s.setArr src { s.arr src with part := (s.arr src).part.filter fun p => !(p.1 == q && decide (p.2.2.1 ≤ s.clk)) } = u
  have hup (p : Nat) : u.arr p = { s.arr p with part := (u.arr p).part } := by
    rw [State.arr, ← hu, arr_setArr]
    split
    next h => subst h; rfl
    · rfl
  have hp := arr_setArr u q p { u.arr q with inbox := (u.arr q).inbox ++ ((s.arr src).part.filter fun p => p.1 == q && decide (p.2.2.1 ≤ s.clk)).map fun p => (p.2.1, src, p.2.2.2) }
  generalize u.setArr q _ = w at *
  have ha : w.arr p = _ := congrArg Quad.arr hp
  rw [ha]
  split
  next h => subst h; rw [hup q]
  · show u.arr p = { s.arr p with part := (u.arr p).part, inbox := (u.arr p).inbox }
    rw [show (u.arr p).inbox = (s.arr p).inbox from (congrArg Arr.inbox (hup p) :)]
    exact hup p
theorem partsHome_inbox (s : State) (q src p : Nat) : ((s.partsHome q src).arr p).inbox = if q = p then (s.arr q).inbox
    ++ ((s.arr src).part.filter fun p => p.1 == q && decide (p.2.2.1 ≤ s.clk)).map (fun p => (p.2.1, src, p.2.2.2)) else (s.arr p).inbox := by
  unfold State.partsHome
  dsimp only
  generalize hu : s.setArr src { s.arr src with part := (s.arr src).part.filter fun p => !(p.1 == q && decide (p.2.2.1 ≤ s.clk)) } = u
  have hup (p : Nat) : (u.arr p).inbox = (s.arr p).inbox := by
    rw [State.arr, ← hu, arr_setArr]
    split
    next h => subst h; rfl
    · rfl
  rw [State.arr, arr_setArr]
  split
  · exact congrArg (· ++ _) (hup q)
  · exact hup p
theorem addPart_empty {s : State} {q : Nat} (h : (s.arr q).inbox = []) : s.addPart q = none := by
  unfold State.addPart
  dsimp only
  rw [h]
  cases (s.arr q).queue with
  | nil => rfl
  | cons x t =>
    dsimp only
    cases x.parts <;> rfl
theorem addParts_empty {s : State} {q f : Nat} (h : (s.arr q).inbox = []) : s.addParts q f = s := by
  cases f with
  | zero => rfl
  | succ f =>
    unfold State.addParts
    rw [addPart_empty h, h]
    rfl
/-- The array of a part's home with the part added. -/
def State.withPart (s : State) (q : Nat) (x : MatCmd) (r : List MatCmd) (left id src : Nat) (part : Tbl W32) : Arr :=
  { s.arr q with
    banks := mapBank (s.arr q).banks x.bank (x.shape q).1 (x.shape q).2.1 fun i j v =>
      accRound x.mode 0 x.sat (if x.ovw then 0 else v) (fp32.dec (tgetD part (bankKey 0 i j) 0).toNat)
    inbox := (s.arr q).inbox.filter fun e => !(e.1 == id && e.2.1 == src)
    queue := { x with parts := some (left - 1), ovw := false } :: r }
theorem addPart_adds {s : State} {q left id src : Nat} {x : MatCmd} {r : List MatCmd} {part : Tbl W32} (hq : (s.arr q).queue = x :: r)
    (hp : x.parts = some left) (hi : (s.arr q).inbox.find? (fun e => e.1 == x.id) = some (id, src, part)) (h5 : x.mode ≠ 5)
    (hd : s.draining q x.bank = false) (hr : s.arrRuns q x.part = true) :
    s.addPart q = some (if left ≤ 1 then (s.setArr q (s.withPart q x r left id src part)).popMatrix q else s.setArr q (s.withPart q x r left id src part)) := by
  unfold State.addPart State.withPart
  dsimp only
  rw [hq]
  dsimp only
  rw [hp, hi]
  dsimp only
  rw [hd, hr, if_neg (by decide)]
  simp only [h5, if_false, drew_same h5]
/-- No part is due, and none has arrived before. -/
theorem partArrives_none {s : State} {q src : Nat} (h : ∀ p, p ∈ (s.arr src).part → p.1 = q → s.clk < p.2.2.1) (hi : (s.arr q).inbox = []) :
    s.partArrives q src = s.partsHome q src ∧ ∀ p, ((s.partsHome q src).arr p).inbox = (s.arr p).inbox := by
  have hnone : (s.arr src).part.filter (fun p => p.1 == q && decide (p.2.2.1 ≤ s.clk)) = [] := List.filter_eq_nil_iff.2 fun p hp hd => by
    rw [Bool.and_eq_true, beq_iff_eq, decide_eq_true_iff] at hd
    exact absurd (h p hp hd.1) (Nat.not_lt.2 hd.2)
  have hin (p : Nat) : ((s.partsHome q src).arr p).inbox = (s.arr p).inbox := by
    rw [partsHome_inbox, hnone, List.map_nil, List.append_nil]
    split
    next g => rw [g]
    · rfl
  rw [partArrives_eq]
  exact ⟨addParts_empty ((hin q).trans hi), hin⟩
/-- The one part that is due is added to its bank, and with the last of its command's parts the command retires. -/
theorem partArrives_adds {s : State} {q src id at_ left : Nat} {part : Tbl W32} {x : MatCmd} {r : List MatCmd}
    (hd : (s.arr src).part.filter (fun p => p.1 == q && decide (p.2.2.1 ≤ s.clk)) = [(q, id, at_, part)]) (hi : (s.arr q).inbox = [])
    (hq : (s.arr q).queue = x :: r) (hx : x.id = id) (hp : x.parts = some left) (h5 : x.mode ≠ 5) (hs : s.draining q x.bank = false)
    (hr : s.arrRuns q x.part = true) (hn : (x.shape q).2.1 ≤ 256) : let t := s.partArrives q src
    (∀ i j, j < 256 → tgetD (t.arr q).banks (bankKey x.bank i j) 0 = if i < (x.shape q).1 ∧ j < (x.shape q).2.1 then
          accRound x.mode 0 x.sat (if x.ovw then 0 else tgetD (s.arr q).banks (bankKey x.bank i j) 0) (fp32.dec (tgetD part (bankKey 0 i j) 0).toNat)
        else tgetD (s.arr q).banks (bankKey x.bank i j) 0)
      ∧ (t.arr q).inbox = [] ∧ (1 < left → (t.arr q).queue = { x with parts := some (left - 1), ovw := false } :: r)
      ∧ (left ≤ 1 → (t.arr q).queue.length = r.length) := by
  have hin : ((s.partsHome q src).arr q).inbox = [(id, src, part)] := by
    rw [partsHome_inbox, if_pos rfl, hi, hd]
    rfl
  have ha := partsHome_arr s q src q
  have hk := partsHome_keeps s q src
  rw [partArrives_eq, hin]
  generalize s.partsHome q src = u at *
  have hadd := addPart_adds (s := u) (id := id) (src := src) (part := part) (by rw [ha]; exact hq) hp (by
    rw [hin]
    exact List.find?_cons_of_pos (by rw [hx]; exact beq_self_eq_true _)) h5 (by rw [hk]; exact hs) (by rw [hk]; exact hr)
  have hbanks : (u.arr q).banks = (s.arr q).banks := by rw [ha]
  obtain ⟨w, hw⟩ : ∃ w, (if left ≤ 1 then (u.setArr q (u.withPart q x r left id src part)).popMatrix q else u.setArr q (u.withPart q x r left id src part)) = w := ⟨_, rfl⟩
  have hwa : (w.arr q).banks = (u.withPart q x r left id src part).banks ∧ (w.arr q).inbox = (u.withPart q x r left id src part).inbox := by
    rw [← hw]
    split
    · obtain ⟨h1, h2, -⟩ := popMatrix_pops (u.setArr q (u.withPart q x r left id src part)) q
      rw [h1, h2, setArr_arr]
      exact ⟨rfl, rfl⟩
    · rw [setArr_arr]
      exact ⟨rfl, rfl⟩
  have hempty : (w.arr q).inbox = [] := by
    rw [hwa.2, State.withPart, hin]
    exact List.filter_eq_nil_iff.2 fun e he => by
      rw [List.mem_singleton.1 he]
      simp
  have ht : u.addParts q ([(id, src, part)].length + 1) = w := by
    rw [List.length_singleton]
    unfold State.addParts
    rw [hadd, hw]
    exact addParts_empty hempty
  rw [ht]
  refine ⟨fun i j hj => ?_, hempty, fun hl => ?_, fun hl => ?_⟩
  · rw [hwa.1, State.withPart, tgetD_mapBank _ hn hj, hbanks]
  · rw [← hw, if_neg (by omega), setArr_arr, State.withPart]
  · rw [← hw, if_pos hl, (popMatrix_pops _ q).2.2, setArr_arr]
    rfl
end Sys2Proof.Machine
end

section
/-! Grants of tiles, leases and turns (R175, R242, R243). -/
namespace Sys2Proof.Machine
open Sys2Proof

/-! ### Grants of tiles (R172 to R175) -/

/-- The lowest free slot is the first that holds no tile. -/
theorem lowestFree_first {t : Tbl Tile} {ix : Nat} (hix : tget t ix = none) : ∀ (f n : Nat), n ≤ ix → ix < n + f → (∀ j, n ≤ j → j < ix → tget t j ≠ none) →
    lowestFree t f n = ix := by
  intro f
  induction f with
  | zero => intro n h1 h2; omega
  | succ f ih =>
    intro n h1 h2 hn
    unfold lowestFree
    obtain rfl | hlt := Nat.eq_or_lt_of_le h1
    · rw [hix]
    · cases hg : tget t n with
      | none => exact absurd hg (hn n (Nat.le_refl n) hlt)
      | some y => exact ih (n + 1) hlt (by omega) fun j hj => hn j (by omega)
/-- The state in which a request has its tile, the lowest free one. -/
structure TileMade (s t : State) (d p : Nat) (r : TReq) (ix : Nat) : Prop where
  made : ∃ y, tget (t.die d).tiles ix = some y ∧ y.gen = (s.die d).gen ix ∧ y.units = r.units ∧ y.part = p
    ∧ y.count = r.reads ∧ y.life = r.life ∧ y.sealed = false ∧ y.bound = false
  treqs : (t.die d).treqs = (s.die d).treqs
  cores : t.cores = s.cores
theorem makeTile_makes {s : State} {d p ix : Nat} {r : TReq} (h : ix < 131072) (hb : ∀ j, j < ix → tget (s.die d).tiles j ≠ none)
    (hix : tget (s.die d).tiles ix = none) : (s.makeTile d p r).1 = tileVa d ((s.die d).gen ix) ix ∧ TileMade s (s.makeTile d p r).2 d p r ix := by
  unfold State.makeTile State.newSeed
  dsimp only
  rw [lowestFree_first hix 131072 0 (Nat.zero_le _) (by omega) fun j _ hj => hb j hj]
  refine ⟨rfl, ⟨⟨(s.die d).gen ix, r.units, p, r.reads, r.life, false, false, none, s.fresh, []⟩, ?_, rfl, rfl, rfl, rfl, rfl, rfl, rfl⟩, ?_, rfl⟩
  · rw [State.die_setDie_same]
    exact tget_tset_same ..
  · rw [State.die_setDie_same]
/-- A request within its partition's guarantee needs no shared units. -/
theorem needShared_within {u n g : Nat} (h : u + n ≤ g) : needShared u n g = 0 := by
  unfold needShared
  omega
/-- A core that holds its bundle for a tile is told its address. -/
theorem deliverTile_tells {s : State} {c p : Nat} {r : TReq} {va : W64} (hp : (s.core c).part = p) (ht : (s.core c).task.isSome = true) :
    s.deliverTile c p none r va = s.setCore c { s.core c with talloc := some { r with addr := some va } } := by
  unfold State.deliverTile
  exact if_pos ⟨hp, ht⟩
/-- The first of the requests, within its partition's guarantee and ceiling, has the lowest free tile, and its core is told. -/
theorem grantWalk_grants {s : State} {d c p ix : Nat} {r : TReq} {blocked : Bool} (hp : (s.core c).part = p) (ht : (s.core c).task.isSome = true)
    (hc : (s.die d).used p + r.units ≤ ceiling (s.kpart d p)) (hg : (s.die d).used p + r.units ≤ guarantee (s.kpart d p))
    (h : ix < 131072) (hb : ∀ j, j < ix → tget (s.die d).tiles j ≠ none) (hix : tget (s.die d).tiles ix = none) :
    let t := s.grantWalk d [(c, r, p, none)] [] blocked
    (t.core c).talloc = some { r with addr := some (tileVa d ((s.die d).gen ix) ix) } ∧ (t.die d).treqs = (s.die d).treqs
      ∧ ∃ y, tget (t.die d).tiles ix = some y ∧ y.gen = (s.die d).gen ix ∧ y.units = r.units ∧ y.part = p
        ∧ y.count = r.reads ∧ y.life = r.life ∧ y.sealed = false ∧ y.bound = false := by
  obtain ⟨hva, hm⟩ := makeTile_makes (p := p) (r := r) h hb hix
  have he : s.grantWalk d [(c, r, p, none)] [] blocked = (s.makeTile d p r).2.deliverTile c p none r (s.makeTile d p r).1 := by
    unfold State.grantWalk
    dsimp only
    rw [needShared_within hg, if_pos]
    · rfl
    · rw [List.contains_nil, decide_eq_true hc, decide_eq_true (Nat.zero_le _), decide_eq_false (Nat.lt_irrefl 0), Bool.and_false]
      rfl
  have hcore : (s.makeTile d p r).2.core c = s.core c := by
    unfold State.core
    rw [hm.cores]
  dsimp only
  rw [he, hva, deliverTile_tells (by rw [hcore]; exact hp) (by rw [hcore]; exact ht)]
  exact ⟨by rw [State.core_setCore_same], hm.treqs, hm.made⟩
/-- A request that must not be granted joins the waiting ones. -/
theorem grantWalk_waits {s : State} {d : Nat} {x : Nat × TReq × Nat × Option Nat} {parts : List Nat} {blocked : Bool}
    (h : parts.contains x.2.2.1 = true ∨ ceiling (s.kpart d x.2.2.1) < (s.die d).used x.2.2.1 + x.2.1.units) :
    s.grantWalk d [x] parts blocked = s.setDie d { s.die d with treqs := (s.die d).treqs ++ [x] } := by
  obtain ⟨c, r, p, e⟩ := x
  unfold State.grantWalk
  dsimp only at h ⊢
  rw [if_neg]
  · rfl
  · obtain h | h := h
    · rw [h]
      exact Bool.false_ne_true
    · rw [decide_eq_false (by omega : ¬ (s.die d).used p + r.units ≤ ceiling (s.kpart d p)), Bool.and_false]
      exact Bool.false_ne_true

/-! ### Leases (R242) -/

/-- A core has its banks granted on a quad. -/
def State.grantedOn (s : State) (q c : Nat) : Prop := ∃ x, x ∈ (s.arr q).lessees ∧ x.core = c ∧ x.granted = true
theorem writeBack_lessees (s : State) (q b : Nat) (v : ArrSave) (p : Nat) : ((s.writeBack q b v).arr p).lessees = (s.arr p).lessees := by
  unfold State.writeBack
  dsimp only
  refine Eq.trans (congrArg (fun y : Quad => y.arr.lessees) (arr_setArr s q p _)) ?_
  split
  next h => subst h; rfl
  · rfl
/-- An entry as the grant of a core leaves it. -/
def Lessee.take (c k : Nat) (x : Lessee) : Lessee := if x.core = c then { x with granted := true, clk := k } else x
theorem Lessee.take_keeps (c k : Nat) (x : Lessee) : (x.take c k).core = x.core ∧ (x.granted = true → (x.take c k).granted = true) := by
  unfold Lessee.take
  split
  · exact ⟨rfl, fun _ => rfl⟩
  · exact ⟨rfl, id⟩
theorem Lessee.take_own {c k : Nat} {x : Lessee} (h : x.core = c) : (x.take c k).granted = true := by
  unfold Lessee.take
  rw [if_pos h]
/-- A grant marks the entries of its core. -/
theorem grantOn_lessees (s : State) (q : Nat) (l : Lessee) : ∃ k, ∀ p, ((s.grantOn q l).arr p).lessees =
    if q = p then (s.arr q).lessees.map (Lessee.take l.core k) else (s.arr p).lessees := by
  unfold State.grantOn
  dsimp only
  generalize hf : List.filter _ (List.range 4) = f
  generalize hu : s.setArr q _ = u
  refine ⟨s.clk + if f.isEmpty then 0 else 64, fun p => ?_⟩
  have hlp : (u.arr p).lessees = if q = p then (s.arr q).lessees.map (Lessee.take l.core (s.clk + if f.isEmpty then 0 else 64)) else (s.arr p).lessees := by
    rw [← hu, State.arr, arr_setArr]
    by_cases h : q = p
    · rw [if_pos h, if_pos h]
      rfl
    · rw [if_neg h, if_neg h]
      rfl
  split
  · exact (writeBack_lessees ..).trans hlp
  · exact hlp
theorem grantOn_keeps {s : State} {p c : Nat} (q : Nat) (l : Lessee) (h : s.grantedOn p c) : (s.grantOn q l).grantedOn p c := by
  obtain ⟨x, hx, hc, hg⟩ := h
  obtain ⟨k, he⟩ := grantOn_lessees s q l
  unfold State.grantedOn
  rw [he]
  split
  next h =>
    obtain ⟨h1, h2⟩ := x.take_keeps l.core k
    exact ⟨_, List.mem_map_of_mem (h ▸ hx), h1.trans hc, h2 hg⟩
  · exact ⟨x, hx, hc, hg⟩
theorem grantOn_grants {s : State} {q : Nat} {l : Lessee} (h : l ∈ (s.arr q).lessees) : (s.grantOn q l).grantedOn q l.core := by
  obtain ⟨k, he⟩ := grantOn_lessees s q l
  unfold State.grantedOn
  rw [he, if_pos rfl]
  exact ⟨_, List.mem_map_of_mem h, (l.take_keeps l.core k).1, Lessee.take_own rfl⟩
/-- The entries that are granted together. -/
def State.grantAll (s : State) (ms : List (Nat × Option Lessee)) : State :=
  ms.foldl (fun s e => e.2.elim s (s.grantOn e.1)) s
theorem grantAll_keeps {p c : Nat} (ms : List (Nat × Option Lessee)) : ∀ {s : State}, s.grantedOn p c → (s.grantAll ms).grantedOn p c := by
  induction ms with
  | nil => exact id
  | cons e ms ih =>
    obtain ⟨q, o⟩ := e
    intro s h
    refine ih ?_
    cases o with
    | none => exact h
    | some l => exact grantOn_keeps q l h
/-- One entry is looked at: with its group it is granted, or nothing changes. -/
theorem grantLeases_cons (s : State) (q : Nat) (l : Lessee) (t : List Lessee) : ∃ ms, s.grantLeases q (l :: t) = (s.grantAll ms).grantLeases q t
    ∧ (l.granted = true → ms = [])
    ∧ (isGroup l.word = false → l.granted = false → freeFor l.core l.banks (s.arr q).lessees = true → ms = [(q, some l)]) := by
  have hfold : (fun (s : State) (e : Nat × Option Lessee) => match e.2 with | some x => s.grantOn e.1 x | none => s) = fun s e => e.2.elim s (s.grantOn e.1) := by
    funext s e
    cases e.2 <;> rfl
  rw [State.grantLeases]
  unfold State.grantAll
  generalize hms : List.map _ _ = ms
  generalize hok : (!l.granted && ms.all _) = ok
  refine ⟨if ok then ms else [], ?_, fun hg => ?_, fun hg hn hf => ?_⟩
  · rw [← hfold]
    cases ok <;> rfl
  · rw [hg] at hok
    rw [← hok]
    rfl
  · rw [hg] at hms
    have : ms = [(q, some l)] := hms.symm
    rw [hn, this] at hok
    have hok : ok = true := hok.symm.trans (by simp [hf])
    rw [hok, this]
    rfl
theorem grantLeases_keeps {q p c : Nat} (t : List Lessee) : ∀ {s : State}, s.grantedOn p c → (s.grantLeases q t).grantedOn p c := by
  induction t with
  | nil => exact id
  | cons l t ih =>
    intro s h
    obtain ⟨ms, he, -⟩ := grantLeases_cons s q l t
    rw [he]
    exact ih (grantAll_keeps ms h)
/-- Where every entry is granted, nothing changes. -/
theorem grantLeases_granted {q : Nat} (t : List Lessee) : ∀ {s : State}, (∀ x, x ∈ t → x.granted = true) → s.grantLeases q t = s := by
  induction t with
  | nil => exact fun _ => rfl
  | cons l t ih =>
    intro s h
    obtain ⟨ms, he, hm, -⟩ := grantLeases_cons s q l t
    rw [he, hm (h l (.head _))]
    exact ih fun x hx => h x (.tail _ hx)
/-- The first entry of a quad, whose banks no granted one has, is granted. -/
theorem grantLeases_first {s : State} {q : Nat} {l : Lessee} {r : List Lessee} (hl : (s.arr q).lessees = l :: r) (hg : isGroup l.word = false)
    (hn : l.granted = false) (hf : ∀ x, x ∈ r → x.granted = true → x.banks &&& l.banks = 0) :
    (s.grantLeases q (s.arr q).lessees).grantedOn q l.core := by
  have hfree : freeFor l.core l.banks (s.arr q).lessees = true := by
    rw [hl]
    unfold freeFor
    rw [if_pos rfl, List.all_eq_true]
    intro x hx
    cases hxg : x.granted
    · rfl
    · exact beq_iff_eq.2 (hf x hx hxg)
  obtain ⟨ms, he, -, hm⟩ := grantLeases_cons s q l r
  rw [hl, he, hm hg hn hfree]
  exact grantLeases_keeps r (grantOn_grants (hl ▸ .head _))

/-! ### Turns (R243) -/

/-- No single lessee waits where nobody does. -/
theorem singleWaits_nobody {s : State} {q : Nat} (h : s.someoneWaits q = false) : s.groupWaits q = none ∧ ∀ m, m < 4 → s.singleWaits q (4 * q + m) = false := by
  unfold State.someoneWaits at h
  rw [Bool.or_eq_false_iff, List.any_eq_false] at h
  exact ⟨Option.isSome_eq_false_iff.1 h.1 |> Option.isNone_iff_eq_none.1, fun m hm => Bool.eq_false_of_not_eq_true (h.2 m (List.mem_range.2 hm))⟩
/-- An arbiter whose turn is not over, and for which nobody waits, leaves all as it is. -/
theorem grantTurn_nobody {s : State} {q : Nat} (ho : (s.settleArr q).turnOver q = false) (hw : (s.settleArr q).someoneWaits q = false) :
    s.grantTurn q = s.settleArr q := by
  obtain ⟨hg, hs⟩ := singleWaits_nobody hw
  unfold State.grantTurn
  dsimp only
  generalize s.settleArr q = u at *
  rw [ho, if_neg Bool.false_ne_true, hg]
  dsimp only
  have hfind : ((List.range 4).map fun i => 4 * q + ((u.arr q).lastMember + 1 + i) % 4).find? (u.singleWaits q) = none := by
    rw [List.find?_eq_none]
    intro c hc
    obtain ⟨i, -, rfl⟩ := List.mem_map.1 hc
    rw [hs _ (Nat.mod_lt _ (by decide))]
    exact Bool.false_ne_true
  rw [hfind]
  dsimp only
  rw [ite_self, hw]
  rfl
/-- The one single lessee that waits takes a free turn. -/
theorem grantTurn_one {s : State} {q m : Nat} (hm : m < 4) (ht : ((s.settleArr q).arr q).turn = none) (hg : (s.settleArr q).groupWaits q = none)
    (hs : ∀ k, k < 4 → ((s.settleArr q).singleWaits q (4 * q + k) = true ↔ k = m)) :
    ((s.grantTurn q).arr q).turn = some (4 * q + m) ∧ ((s.grantTurn q).arr q).turnCount = 0 := by
  unfold State.grantTurn
  dsimp only
  generalize s.settleArr q = u at *
  have ho : u.turnOver q = false := by
    unfold State.turnOver
    dsimp only
    rw [ht]
  rw [ho, if_neg Bool.false_ne_true, hg]
  dsimp only
  have hfind : ((List.range 4).map fun i => 4 * q + ((u.arr q).lastMember + 1 + i) % 4).find? (u.singleWaits q) = some (4 * q + m) := by
    cases hf : ((List.range 4).map fun i => 4 * q + ((u.arr q).lastMember + 1 + i) % 4).find? (u.singleWaits q) with
    | none =>
      rw [List.find?_eq_none] at hf
      refine absurd ((hs m hm).2 rfl) (hf _ (List.mem_map.2 ⟨(m + 3 * ((u.arr q).lastMember + 1)) % 4, List.mem_range.2 (Nat.mod_lt _ (by decide)), ?_⟩))
      omega
    | some c =>
      have hc := List.find?_some hf
      obtain ⟨i, -, rfl⟩ := List.mem_map.1 (List.mem_of_find?_eq_some hf)
      rw [(hs _ (Nat.mod_lt _ (by decide))).1 hc]
  rw [ht, hfind]
  dsimp only
  have hb : ((u.beginTurn (4 * q + m) [q]).arr q).turn = some (4 * q + m) ∧ ((u.beginTurn (4 * q + m) [q]).arr q).turnCount = 0 := by
    have := setArr_arr u q { u.arr q with turn := some (4 * q + m), turnCount := 0, turnClk := u.clk }
    exact ⟨congrArg Arr.turn this, congrArg Arr.turnCount this⟩
  rw [Option.isSome_none, if_neg Bool.false_ne_true]
  split <;> exact hb
end Sys2Proof.Machine
end

section
/-! Attention commands, routing passes and capacity (R269, R288, R289). -/
namespace Sys2Proof.Machine
open Sys2Proof

/-! ### Attention commands (R269) -/

theorem countUp_dies (c h n : Nat) : ∀ s : State, (s.countUp c h n).dies = s.dies := by
  induction n with
  | zero => exact fun _ => rfl
  | succ n ih =>
    intro s
    unfold State.countUp
    dsimp only
    split
    · exact ih _
    · rfl
/-- Nothing of a die changes while commands are counted. -/
theorem count_die (s : State) (c h d : Nat) : (s.count c h).die d = s.die d := by
  unfold State.die
  rw [State.count, countUp_dies]
theorem kickAtt_none {s : State} {d e : Nat} (h : tgetD (s.die d).att e [] = []) : s.kickAtt d e = s := by
  have hh : s.attHead d e none = none := by
    unfold State.attHead
    rw [h]
    rfl
  unfold State.kickAtt
  rw [hh]
  exact ite_self _
section
variable {s : State} {d e : Nat} {m : AttCmd} (hb : (tgetD (s.die d).att e []).find? (fun m => m.busy) = some m) (hh : m.held = none) (hr : attRows m.desc ≤ m.row)
include hb hh hr
/-- A command whose rows are done looks again while its engine's writes are out. -/
theorem attStep_waits (ho : s.engOut m.core 16 = true) : s.attStep d e = s.schedule 16 (.attentionCommandComplete (64 * d + e)) := by
  unfold State.attStep
  dsimp only
  rw [hb]
  dsimp only
  rw [hh, if_neg (by decide), if_neg (by omega), if_pos ho]
/-- A command whose rows are done, and whose engine's writes are performed, leaves its queue. -/
theorem attStep_leaves (ho : s.engOut m.core 16 = false) : (tgetD ((s.attStep d e).die d).att e []).map (fun y => { y with busy := false })
    = ((tgetD (s.die d).att e []).filter fun y => y.ord != m.ord).map fun y => { y with busy := false } := by
  have he : s.attStep d e = (((s.updAtt d e m.ord fun _ => none).completes m.core m.chan m.ord).count m.core m.chan).kickAtt d e := by
    unfold State.attStep
    dsimp only
    rw [hb]
    dsimp only
    rw [hh, if_neg (by decide), if_neg (by omega), ho]
    rfl
  rw [he, (kickAtt_kicks _ d e).2, count_die]
  have hu : (((s.updAtt d e m.ord fun _ => none).completes m.core m.chan m.ord).die d) = (s.updAtt d e m.ord fun _ => none).die d := rfl
  rw [hu, State.updAtt, State.die_setDie_same]
  dsimp only
  rw [tgetD_tput_same, ← List.filterMap_eq_filter]
  congr 2
  funext y
  by_cases hy : y.ord = m.ord
  · rw [if_pos hy, Option.guard, hy]
    simp
  · rw [if_neg hy, Option.guard]
    simp [hy]
end

/-! ### Routing passes (R269, R288, R289) -/

/-- The pass that has a number leaves the queue. -/
theorem mem_updRte_none {s : State} {d id : Nat} (x : RteCmd) : x ∈ ((s.updRte d id fun _ => none).die d).rte ↔ x ∈ (s.die d).rte ∧ x.ord ≠ id := by
  rw [State.updRte, State.die_setDie_same]
  dsimp only
  rw [List.mem_filterMap]
  constructor
  · rintro ⟨y, hy, h⟩
    split at h
    · nomatch h
    next hn => exact Option.some.inj h ▸ ⟨hy, hn⟩
  · rintro ⟨hx, hn⟩
    exact ⟨x, hx, if_neg hn⟩
theorem mem_updRte_some {s : State} {d : Nat} {m : RteCmd} {f : RteCmd → RteCmd} (h : m ∈ (s.die d).rte) : f m ∈ ((s.updRte d m.ord fun o => some (f o)).die d).rte := by
  rw [State.updRte, State.die_setDie_same]
  exact List.mem_filterMap.2 ⟨m, h, if_pos rfl⟩
section
variable {s : State} {d : Nat} {m : RteCmd} (hm : (s.die d).rte.find? (fun m => m.ended) = some m) (hh : m.held = none) (hw : m.written = true)
include hm hh hw
theorem passComplete_waits (ho : s.engOut m.core 16 = true) : s.passComplete d = s.schedule 16 (.routingPassComplete d) := by
  unfold State.passComplete
  dsimp only
  rw [hm]
  dsimp only
  rw [hh, hw, if_neg (by decide), if_neg (by decide), if_pos ho]
theorem passComplete_leaves (ho : s.engOut m.core 16 = false) (x : RteCmd) : x ∈ ((s.passComplete d).die d).rte ↔ x ∈ (s.die d).rte ∧ x.ord ≠ m.ord := by
  have he : s.passComplete d = (((s.updRte d m.ord fun _ => none).completes m.core m.chan m.ord).count m.core m.chan).kickRte d := by
    unfold State.passComplete
    dsimp only
    rw [hm]
    dsimp only
    rw [hh, hw, if_neg (by decide), if_neg (by decide), ho]
    rfl
  have hk (t : State) : (t.kickRte d).die d = t.die d := by rw [kickRte_kicks]; rfl
  rw [he, hk, count_die]
  exact mem_updRte_none x
end
theorem passComplete_none {s : State} {d : Nat} (h : ∀ m, m ∈ (s.die d).rte → m.ended = false) : s.passComplete d = s := by
  have hf : (s.die d).rte.find? (fun m => m.ended) = none := List.find?_eq_none.2 fun m hm => by
    rw [h m hm]
    exact Bool.false_ne_true
  unfold State.passComplete
  dsimp only
  rw [hf]
theorem routeRound_none {s : State} {d : Nat} (h : (s.die d).rte = []) : s.routeRound d = s := by
  unfold State.routeRound
  dsimp only
  rw [h]
  rfl
section
variable {s : State} {d : Nat} {m : RteCmd} (hm : (s.die d).rte.find? (fun m => m.started && !m.ended) = some m) (hh : m.held = none)
include hm hh
theorem routeRound_waits (hw : 0 < m.waiting) : s.routeRound d = s := by
  unfold State.routeRound
  dsimp only
  rw [hm]
  dsimp only
  rw [hh, if_neg (by decide), if_pos hw]
/-- A round after which no token has been refused ends its pass. -/
theorem routeRound_ends (hw : m.waiting = 0) (hr : m.refused = []) : ∃ x, x ∈ ((s.routeRound d).die d).rte ∧ x.ord = m.ord ∧ x.ended = true ∧ x.grants = m.grants := by
  have hnone : ((List.range m.shape.c1).flatMap fun t => m.refused.filter (· == t)) = [] := by
    rw [hr]
    exact List.flatMap_eq_nil_iff.2 fun t _ => rfl
  have he : s.routeRound d = s.roundSent d { m with refused := [] } := by
    unfold State.routeRound
    dsimp only
    rw [hm]
    dsimp only
    rw [hh, if_neg (by decide), if_neg (by omega), hnone]
    rfl
  rw [he]
  unfold State.roundSent
  rw [if_neg (by show ¬ 0 < m.waiting; omega)]
  exact ⟨_, mem_updRte_some (m := m) (f := fun o => { m with refused := [], lap := o.lap, touches := o.touches, ended := true }) (List.mem_of_find?_eq_some hm), rfl, rfl, rfl⟩
end
/-- A request at an expert's home takes one of its places, if one is left. -/
theorem capacityArrives_counts {s : State} {id d k e q cap h c p : Nat} (hr : tget s.reqs id = some (.capacity d k e q cap h c p)) :
    tget (s.capacityArrives id).reqs id = none ∧ tgetD ((s.capacityArrives id).die h).caps (1024 * p + e) 0
      = if tgetD (s.die h).caps (1024 * p + e) 0 < cap then tgetD (s.die h).caps (1024 * p + e) 0 + 1 else tgetD (s.die h).caps (1024 * p + e) 0 := by
  unfold State.capacityArrives
  rw [hr]
  dsimp only
  generalize hn : tgetD (({ s with reqs := tdel s.reqs id } : State).die h).caps (1024 * p + e) 0 = n
  have hn' : tgetD (s.die h).caps (1024 * p + e) 0 = n := hn
  rw [hn']
  generalize hu : (if decide (n < cap) = true then _ else _ : State) = u
  have hreq : tget u.reqs id = none := by
    rw [← hu]
    split <;> exact tget_tdel_same ..
  have hcap : tgetD (u.die h).caps (1024 * p + e) 0 = if n < cap then n + 1 else n := by
    rw [← hu]
    by_cases hl : n < cap
    · rw [if_pos (decide_eq_true hl), if_pos hl, State.die_setDie_same, tgetD_tset_same]
    · rw [if_neg (by simpa using hl), if_neg hl]
      exact hn
  have hupd (j : Nat) (f : RteCmd → Option RteCmd) : tget (u.updRte d j f).reqs id = none ∧ tgetD ((u.updRte d j f).die h).caps (1024 * p + e) 0 = if n < cap then n + 1 else n := by
    refine ⟨hreq, ?_⟩
    rw [State.updRte, State.die_setDie]
    split
    next hd => subst hd; exact hcap
    · exact hcap
  split
  · generalize (if decide (n < cap) = true then RteCmd.grant _ _ _ else _ : RteCmd) = y
    split <;> exact hupd ..
  · exact ⟨hreq, hcap⟩
end Sys2Proof.Machine
end

section
/-! Messages, their permits and their ports (R300, R302, R304, R306). -/
namespace Sys2Proof.Machine
open Sys2Proof

/-! ### Messages (R300, R302, R304, R306) -/

theorem phaseDone_eq (s : State) (p : Nat) : s.phaseDone p = { s with agenda := (s.phaseDone p).agenda } := by
  unfold State.phaseDone
  dsimp only
  split <;> rfl
theorem againLand_eq (s : State) (p id : Nat) (r : SendRec) (n : Nat) : s.againLand p id r n = { s with agenda := (s.againLand p id r n).agenda } := by
  unfold State.againLand
  split <;> rfl
theorem countUp_parts (c h n : Nat) : ∀ s : State, (s.countUp c h n).parts = s.parts := by
  induction n with
  | zero => exact fun _ => rfl
  | succ n ih =>
    intro s
    unfold State.countUp
    dsimp only
    split
    · exact ih _
    · rfl
theorem leaves_part (s : State) (c h id p : Nat) : (s.leaves c h id).part p = s.part p := by
  unfold State.part State.leaves State.count
  rw [countUp_parts]
  rfl
/-- An exchange fault of a partition that runs halts it. -/
theorem exchangeFault_halts {s : State} {p sub : Nat} {va : W64} {r : SendRec} (h : (s.part p).pstate = 0) : ((s.exchangeFault p sub va r).part p).pstate = 1 := by
  unfold State.exchangeFault
  obtain ⟨u, -, -, hb⟩ := unitHalt_begins (s := s.leaves r.core r.chan r.ord) (p := p) 6 (64 * dieOfCore r.core) ⟨20, sub, va, 0⟩
    ⟨r.pc, r.tag, r.core, r.chan, r.pos / 4096⟩ (by rw [leaves_part]; exact h)
  rw [hb.halting]
/-- A message that fits a permit of its partition is bound to it. -/
theorem bindArrives_binds {s : State} {id c p d gen ix : Nat} {r : SendRec} {y : Tile} (hr : tget s.reqs id = some (.bind c p d gen ix r))
    (hl : s.liveTile d ix gen = some y) (hp : y.part = p) (hs : y.sealed = false) (hb : y.bound = false) (hn : r.len ≤ 4096 * y.units) :
    tget ((s.bindArrives id).die d).tiles ix = some { y with bound := true, send := some r } ∧ (s.bindArrives id).cores = s.cores ∧ (s.bindArrives id).mem = s.mem := by
  unfold State.bindArrives
  rw [hr]
  dsimp only
  rw [phaseDone_eq]
  unfold State.bindSend
  have hl' : ({ s with reqs := tdel s.reqs id } : State).liveTile d ix gen = some y := hl
  rw [hl']
  dsimp only
  rw [if_neg (by rw [hs, hb]; decide), if_neg (not_not_intro hp), if_neg (by omega)]
  generalize hu : State.setDie _ d _ = u
  have htile : tget (u.die d).tiles ix = some { y with bound := true, send := some r } := by
    rw [← hu, State.die_setDie_same]
    exact tget_tset_same ..
  have hrest : u.cores = s.cores ∧ u.mem = s.mem := by
    rw [← hu]
    exact ⟨rfl, rfl⟩
  split
  · rw [againLand_eq]
    exact ⟨htile, hrest⟩
  · exact ⟨htile, hrest⟩
/-- A message without its permit halts its partition. -/
theorem bindArrives_halts {s : State} {id c p d gen ix : Nat} {r : SendRec} (hr : tget s.reqs id = some (.bind c p d gen ix r))
    (hl : s.liveTile d ix gen = none) (hp : (s.part p).pstate = 0) : ((s.bindArrives id).part p).pstate = 1 := by
  unfold State.bindArrives
  rw [hr]
  dsimp only
  rw [phaseDone_eq]
  unfold State.bindSend
  have hl' : ({ s with reqs := tdel s.reqs id } : State).liveTile d ix gen = none := hl
  rw [hl']
  exact exchangeFault_halts hp
theorem updSend_tile {s : State} {d ix : Nat} {y : Tile} {r : SendRec} (f : Tile → SendRec → Tile) (hy : tget (s.die d).tiles ix = some y) (hr : y.send = some r) :
    tget ((s.updSend d ix f).die d).tiles ix = some (f y r) := by
  unfold State.updSend
  dsimp only
  rw [hy]
  dsimp only
  rw [hr]
  dsimp only
  rw [State.die_setDie_same]
  exact tget_tset_same ..
section
variable {s : State} {id d ix : Nat} {y : Tile} {r : SendRec} (hq : tget s.reqs id = some (.land d ix)) (hy : tget (s.die d).tiles ix = some y)
variable (hr : y.send = some r) (hl : r.landed = false)
include hq hy hr hl
/-- A step of a landing writes the next bytes of the message to its permit. -/
theorem land_steps {u : State} {b : List Byte} (hh : r.held = none) (h0 : r.pos = 0 → s.runsOn (dieOfCore r.core) y.part = true)
    (he : s.engRead (s.ctxOf r.core y.part r.priv r.coop) r.lap (.src false) (r.src + BitVec.ofNat 64 r.pos) (min 4096 (r.len - r.pos)) = .ok u b) :
    tget ((s.land id).die d).tiles ix = some { y.write r.pos b with
      send := some { r with pos := r.pos + min 4096 (r.len - r.pos), landed := decide (r.len ≤ r.pos + min 4096 (r.len - r.pos)) } } := by
  have hf := engRead_fetched s (s.ctxOf r.core y.part r.priv r.coop) r.lap (.src false) (r.src + BitVec.ofNat 64 r.pos) (min 4096 (r.len - r.pos))
  rw [he] at hf
  have hty : tget (u.die d).tiles ix = some y := (congrArg (fun x : Die => tget x.tiles ix) (hf.dies d)).trans hy
  have hrun : (decide (r.pos = 0) && !s.runsOn (dieOfCore r.core) y.part) = false := by
    by_cases hz : r.pos = 0
    · rw [h0 hz, Bool.not_true, Bool.and_false]
    · rw [decide_eq_false hz, Bool.false_and]
  unfold State.land
  rw [hq]
  dsimp only
  rw [hy, Option.bind_some, hr, Option.map_some]
  dsimp only
  rw [if_neg (by rw [hl]; exact Bool.false_ne_true), if_neg (by rw [hrun]; exact Bool.false_ne_true), if_neg (by rw [hh]; decide), he]
  dsimp only
  generalize min 4096 (r.len - r.pos) = n at *
  have ht := updSend_tile (fun t v => { t.write v.pos b with send := some { v with pos := v.pos + n, landed := decide (r.len ≤ r.pos + n) } }) hty hr
  split
  · rw [phaseDone_eq]
    exact ht
  · rw [againLand_eq]
    exact ht
/-- A message that has not begun waits until its sender's die runs its partition. -/
theorem land_waits (h0 : r.pos = 0) (hn : s.runsOn (dieOfCore r.core) y.part = false) : s.land id = s := by
  unfold State.land
  rw [hq]
  dsimp only
  rw [hy, Option.bind_some, hr, Option.map_some]
  dsimp only
  rw [hl, hn, decide_eq_true h0]
  rfl
end
/-- A pending result is told its value. -/
theorem answer_answers (s : State) (c id : Nat) (v : W64) (dt : Nat) : Spec.Answered s (s.answer c id (fun r => .scalar r v) dt) c id v dt := by
  intro p hp hid
  have hany : ((s.core c).pend.any fun p => p.id == id) = true := List.any_eq_true.2 ⟨p, hp, beq_iff_eq.2 hid⟩
  unfold State.answer
  dsimp only
  rw [hany, if_pos rfl]
  refine ⟨?_, mem_schedule.2 (.inl rfl)⟩
  have hc (k : Core) : ((s.setCore c k).schedule dt (.interlockedResultArrives c id)).core c = k := State.core_setCore_same ..
  rw [hc]
  exact List.mem_map.2 ⟨p, hp, if_pos (beq_iff_eq.2 hid)⟩
theorem xrecvArrives_empty {s : State} {id c p k pd : Nat} (hr : tget s.reqs id = some (.xrecv c p k pd))
    (hp : tgetD (s.die (dieOfCore c)).ports (portKey p k) [] = []) : Spec.Answered s (s.xrecvArrives id) c pd 0 14 := by
  have he : s.xrecvArrives id = ({ s with reqs := tdel s.reqs id } : State).answer c pd (fun r => .scalar r 0) 14 := by
    unfold State.xrecvArrives
    rw [hr]
    dsimp only
    have hp' : tgetD (({ s with reqs := tdel s.reqs id } : State).die (dieOfCore c)).ports (portKey p k) [] = [] := hp
    rw [hp']
  rw [he]
  exact answer_answers { s with reqs := tdel s.reqs id } c pd 0 14
theorem xrecvArrives_takes {s : State} {id c p k pd ix : Nat} {r : List Nat} {y : Tile} (hr : tget s.reqs id = some (.xrecv c p k pd))
    (hp : tgetD (s.die (dieOfCore c)).ports (portKey p k) [] = ix :: r) (hy : tget (s.die (dieOfCore c)).tiles ix = some y) :
    tgetD ((s.xrecvArrives id).die (dieOfCore c)).ports (portKey p k) [] = r
      ∧ Spec.Answered s (s.xrecvArrives id) c pd (tileVa (dieOfCore c) y.gen ix) 14 := by
  obtain ⟨u, hu⟩ : ∃ u : State, u = ({ s with reqs := tdel s.reqs id } : State).setDie (dieOfCore c) { s.die (dieOfCore c) with
    ports := tput [] (s.die (dieOfCore c)).ports (portKey p k) r } := ⟨_, rfl⟩
  have he : s.xrecvArrives id = u.answer c pd (fun r => .scalar r (tileVa (dieOfCore c) y.gen ix)) 14 := by
    rw [hu]
    unfold State.xrecvArrives
    rw [hr]
    dsimp only
    have hd : ({ s with reqs := tdel s.reqs id } : State).die (dieOfCore c) = s.die (dieOfCore c) := rfl
    rw [hd, hp]
    dsimp only
    rw [hy]
    rfl
  have hport : tgetD (u.die (dieOfCore c)).ports (portKey p k) [] = r := by
    rw [hu, State.die_setDie_same]
    exact tgetD_tput_same ..
  have hcore : u.core c = s.core c := by rw [hu]; rfl
  have hclk : u.clk = s.clk := by rw [hu]; rfl
  rw [he]
  refine ⟨?_, fun q hq hid => ?_⟩
  · unfold State.answer
    dsimp only
    split
    · exact hport
    · split
      · exact hport
      · rw [State.die_setDie_same]
        exact hport
  · have := answer_answers u c pd (tileVa (dieOfCore c) y.gen ix) 14 q (by rw [hcore]; exact hq) hid
    rwa [hclk] at this
end Sys2Proof.Machine
end

section
/-! Proofs about grants, retirements, routing rounds and messages (R175, R242, R243, R247, R254, R257, R260, R269, R288, R289, R302, R304). -/
namespace Sys2Proof.Machine
open Sys2Proof

/-! ### Requests that arrive (R174, R175) -/

theorem tallocArrives_none {s : State} {c : Nat} (h : (s.core c).talloc = none) : s.tallocArrives c = s := by
  unfold State.tallocArrives
  dsimp only
  rw [h]
section
variable {s : State} {c : Nat} {r : TReq} (hr : (s.core c).talloc = some r) (ha : r.arrived = false)
include hr ha
theorem tallocArrives_considers : s.tallocArrives c = (s.setCore c { s.core c with talloc := some { r with arrived := true } }).considerNew r.die
    (c, { r with arrived := true }, (s.core c).part, none) := by
  unfold State.tallocArrives
  dsimp only
  rw [hr]
  dsimp only
  rw [if_neg (by rw [ha]; exact Bool.false_ne_true)]
/-- With no request before it, one within its partition's guarantee is granted at once. -/
theorem tallocArrives_grants {ix : Nat} (ht : (s.core c).task.isSome = true) (hn : (s.die r.die).treqs = [])
    (hc : (s.die r.die).used (s.core c).part + r.units ≤ ceiling (s.kpart r.die (s.core c).part))
    (hg : (s.die r.die).used (s.core c).part + r.units ≤ guarantee (s.kpart r.die (s.core c).part))
    (h : ix < 131072) (hb : ∀ j, j < ix → tget (s.die r.die).tiles j ≠ none) (hix : tget (s.die r.die).tiles ix = none) :
    ((s.tallocArrives c).core c).talloc = some { r with arrived := true, addr := some (tileVa r.die ((s.die r.die).gen ix) ix) }
      ∧ ∃ y, tget ((s.tallocArrives c).die r.die).tiles ix = some y ∧ y.gen = (s.die r.die).gen ix ∧ y.units = r.units ∧ y.part = (s.core c).part
          ∧ y.count = r.reads ∧ y.life = r.life ∧ y.sealed = false ∧ y.bound = false := by
  rw [tallocArrives_considers hr ha]
  generalize hu : s.setCore c { s.core c with talloc := some { r with arrived := true } } = u
  have hcore : u.core c = { s.core c with talloc := some { r with arrived := true } } := by rw [← hu, State.core_setCore_same]
  have hd : u.die r.die = s.die r.die := by rw [← hu]; rfl
  have hk : u.kpart r.die (s.core c).part = s.kpart r.die (s.core c).part := by rw [← hu]; rfl
  unfold State.considerNew
  dsimp only
  rw [hd, hn]
  obtain ⟨h1, -, h2⟩ := grantWalk_grants (s := u) (d := r.die) (c := c) (p := (s.core c).part) (r := { r with arrived := true }) (blocked := false)
    ((congrArg Core.part hcore :)) ((congrArg (fun k : Core => k.task.isSome) hcore :).trans ht) (by rw [hd, hk]; exact hc) (by rw [hd, hk]; exact hg) h (by rw [hd]; exact hb) (by rw [hd]; exact hix)
  rw [hd] at h1 h2
  exact ⟨h1, h2⟩
/-- Behind a request of its partition it waits. -/
theorem tallocArrives_waits (ho : ∃ o, o ∈ (s.die r.die).treqs ∧ o.2.2.1 = (s.core c).part) :
    ((s.tallocArrives c).die r.die).treqs = (s.die r.die).treqs ++ [(c, { r with arrived := true }, (s.core c).part, none)]
      ∧ ((s.tallocArrives c).die r.die).tiles = (s.die r.die).tiles := by
  obtain ⟨o, hm, hp⟩ := ho
  rw [tallocArrives_considers hr ha]
  unfold State.considerNew
  dsimp only
  rw [grantWalk_waits (.inl ?_), State.die_setDie_same]
  · exact ⟨rfl, rfl⟩
  · exact List.contains_iff_mem.2 (List.mem_map.2 ⟨o, hm, hp⟩)
end

/-- Settles O55, by what each of the events has to do with its unit. -/
theorem engineEvents : Obligations.EngineEvents := by
  unfold Obligations.EngineEvents
  intro s
  refine ⟨fun c => ⟨_, rfl, tallocArrives_none, ?_, ?_⟩, fun d => ⟨_, rfl, grantTiles_mem s d, ?_, ?_, ?_⟩, fun q => ⟨_, rfl, grantLeases_granted _, ?_⟩,
    fun q => ⟨_, rfl, grantTurn_nobody, fun m hm ht hg hs => grantTurn_one hm ht hg hs⟩, fun q => ⟨_, rfl, ?_, ?_⟩, fun q src => ⟨_, rfl, ?_, ?_⟩,
    fun c => ⟨_, rfl, ?_, ?_⟩, fun e => ⟨_, rfl, ?_, ?_⟩, fun id => ⟨_, rfl, ?_⟩, fun d => ⟨_, rfl, routeRound_none, ?_⟩, fun d => ⟨_, rfl, passComplete_none, ?_⟩,
    fun id => ⟨_, rfl, ?_, ?_⟩, fun id => ⟨_, rfl, ?_⟩, ?_, fun id => ⟨_, rfl, ?_⟩⟩
  · intro r ix hr ha ht hn hc hg h hb hix
    exact tallocArrives_grants hr ha ht hn hc hg h hb hix
  · intro r hr ha ho
    exact tallocArrives_waits hr ha ho
  · intro h
    unfold State.grantTiles
    dsimp only
    rw [h]
    refine ⟨?_, rfl⟩
    show ((State.setDie _ d _).die d).tiles = _
    rw [State.die_setDie_same]
  · intro c r p ix hq hp ht hc hg h hb hix
    unfold State.grantTiles
    dsimp only
    rw [hq]
    generalize hu : s.setDie d { s.die d with treqs := [] } = u
    have hd : u.die d = { s.die d with treqs := [] } := by rw [← hu, State.die_setDie_same]
    have hcore : u.core c = s.core c := by rw [← hu]; rfl
    have hk : u.kpart d p = s.kpart d p := by rw [← hu]; rfl
    obtain ⟨h1, h2, h3⟩ := grantWalk_grants (s := u) (d := d) (c := c) (p := p) (r := r) (blocked := false) (by rw [hcore]; exact hp) (by rw [hcore]; exact ht)
      (by rw [hd, hk]; exact hc) (by rw [hd, hk]; exact hg) h (by rw [hd]; exact hb) (by rw [hd]; exact hix)
    rw [hd] at h1 h2 h3
    exact ⟨h1, h2, h3⟩
  · intro x hq hx
    unfold State.grantTiles
    dsimp only
    rw [hq]
    generalize hu : s.setDie d { s.die d with treqs := [] } = u
    have hd : u.die d = { s.die d with treqs := [] } := by rw [← hu, State.die_setDie_same]
    have hk (p : Nat) : u.kpart d p = s.kpart d p := by rw [← hu]; rfl
    have hcores : u.cores = s.cores := by rw [← hu]; rfl
    rw [grantWalk_waits (.inr (by rw [hd, hk]; exact hx)), State.die_setDie_same, hd]
    exact ⟨rfl, rfl, hcores⟩
  · intro l r hl hg hn hf
    exact grantLeases_first hl hg hn hf
  · intro h
    unfold State.retireMatrix
    dsimp only
    rw [h]
  · intro x r e hq hp hr hf he hd
    rw [retireMatrix_runs hq hp hr hf he hd]
    have hbanks : ((s.settleArr q).arr q).banks = (s.arr q).banks := by rw [settledArr, settledQuad_arr]
    refine ⟨fun hk => ?_, fun hk hg h5 hm hn hkk hm' hn' => ?_⟩
    · obtain ⟨hb, hl⟩ := runMatrix_clears (s := s.settleArr q) (q := q) hk
      refine ⟨fun b i hi => ?_, by rw [hl, hq]; rfl⟩
      rw [hb, tgetD_clearBank _ _ _ hi, hbanks]
    · obtain ⟨hb, hl⟩ := runMatrix_makes (s := s.settleArr q) (q := q) (by omega) hg h5 hm hn hkk
      refine ⟨fun i j hi hj => ?_, by rw [hl, hq]; rfl⟩
      rw [hb, tgetD_mapBank _ hn' hj, tgetD_residentOf, hbanks]
  · intro h hi
    obtain ⟨he, hin⟩ := partArrives_none h hi
    rw [he]
    refine ⟨fun p => ?_, rfl⟩
    rw [hin, partsHome_arr]
    exact ⟨rfl, rfl, rfl⟩
  · intro id at_ part x r left hd hi hq hx hp h5 hs hr hm hn
    obtain ⟨h1, h2, h3, h4⟩ := partArrives_adds hd hi hq hx hp h5 hs hr hn
    exact ⟨fun i j _ hj => h1 i j hj, h2, h3, h4⟩
  · intro h
    unfold State.rowLeaves
    dsimp only
    rw [h]
  · intro d h
    unfold State.rowLeaves
    dsimp only
    rw [h]
  · intro h
    unfold State.attStep
    dsimp only
    rw [h]
    exact kickAtt_none h
  · intro m hb hh hr
    exact ⟨attStep_waits hb hh hr, attStep_leaves hb hh hr⟩
  · intro d k e q cap h c p hr
    exact capacityArrives_counts hr
  · intro m hm hh
    exact ⟨routeRound_waits hm hh, routeRound_ends hm hh⟩
  · intro m hm hh hw
    exact ⟨passComplete_waits hm hh hw, passComplete_leaves hm hh hw⟩
  · intro c p d gen ix r y hr hl hp hs hb hn
    exact bindArrives_binds hr hl hp hs hb hn
  · intro c p d gen ix r hr hl hp
    exact bindArrives_halts hr hl hp
  · intro d ix y r u b hq hy hr hl hh h0 n he
    obtain ⟨hw, hb, -⟩ := tileWritten b y r.pos
    refine ⟨_, land_steps hq hy hr hl hh h0 he, rfl, ?_, ?_, hb⟩
    · rw [hw]
    · rw [hw]
  · intro id d ix y r hq hy hr hl h0 hn
    exact congrArg Host.Outcome.next (land_waits hq hy hr hl h0 hn)
  · intro c p k pd hr
    exact ⟨xrecvArrives_empty hr, fun ix r y hp hy => xrecvArrives_takes hr hp hy⟩
end Sys2Proof.Machine
end

section
/-! Reads of flash that begin, units that are delivered, and pages that are good again (R74, R79, R83). -/
namespace Sys2Proof.Machine
open Sys2Proof

/-! ### Reads that begin (R79) -/

/-- Reads have begun at an ED's stacks. -/
structure Kicked (e : Nat) (s t : State) : Prop where
  eq : t = { s with dies := t.dies, agenda := t.agenda }
  flash : t.flash e = { s.flash e with reading := (t.flash e).reading }
  later : ∀ v, v ∈ s.agenda → v ∈ t.agenda
namespace Kicked
variable {e : Nat}
theorem refl (s : State) : Kicked e s s := ⟨rfl, rfl, fun _ h => h⟩
theorem trans {s t u : State} (h : Kicked e s t) (g : Kicked e t u) : Kicked e s u :=
  ⟨by rw [g.eq, h.eq], by rw [g.flash, h.flash], fun v hv => g.later v (h.later v hv)⟩
theorem foldl {α : Type} {f : State → α → State} (h : ∀ s a, Kicked e s (f s a)) (l : List α) : ∀ s : State, Kicked e s (l.foldl f s) := by
  induction l with
  | nil => exact refl
  | cons a l ih => exact fun s => (h s a).trans (ih (f s a))
end Kicked
theorem flash_setFlash_same (s : State) (e : Nat) (f : Flash) : (s.setFlash e f).flash e = f := (flash_setFlash ..).trans (if_pos rfl)
theorem Kicked.reads (s : State) (e n : Nat) (i : Instr) (r : List (Nat × Nat × Nat × Nat)) : Kicked e s ((s.setFlash e { s.flash e with reading := r }).schedule n i) := by
  have h := flash_setFlash_same s e { s.flash e with reading := r }
  generalize hu : s.setFlash e { s.flash e with reading := r } = u at h
  refine ⟨by rw [← hu]; rfl, ?_, fun v hv => mem_schedule.2 (.inr (by rw [← hu]; exact hv))⟩
  show u.flash e = { s.flash e with reading := (u.flash e).reading }
  rw [h]
theorem kickStack_kicked (s : State) (e st dt : Nat) : Kicked e s (s.kickStack e st dt) := by
  unfold State.kickStack
  dsimp only
  split
  · exact .refl s
  · split
    · exact .refl s
    · exact .reads ..
theorem kickFlash_kicked (s : State) (e : Nat) : Kicked e s (s.kickFlash e) := .foldl (fun s st => kickStack_kicked s e st 5640) _ s

/-! ### Units that are delivered (R79, R81, R83) -/

/-- Work for the slots of an ED: of its flash, only the slots and the reads have changed. -/
structure Served (e : Nat) (s t : State) : Prop where
  clk : t.clk = s.clk
  flash : t.flash e = { s.flash e with slots := (t.flash e).slots, reading := (t.flash e).reading }
  later : ∀ v, v ∈ s.agenda → v ∈ t.agenda
namespace Served
variable {e : Nat}
theorem refl (s : State) : Served e s s := ⟨rfl, rfl, fun _ h => h⟩
theorem trans {s t u : State} (h : Served e s t) (g : Served e t u) : Served e s u :=
  ⟨g.clk.trans h.clk, by rw [g.flash, h.flash], fun v hv => g.later v (h.later v hv)⟩
theorem ite {s t u : State} {c : Prop} [Decidable c] (h : Served e s t) (g : Served e s u) : Served e s (if c then t else u) := by
  split
  · exact h
  · exact g
theorem foldl {α : Type} {f : State → α → State} (h : ∀ s a, Served e s (f s a)) (l : List α) : ∀ s : State, Served e s (l.foldl f s) := by
  induction l with
  | nil => exact refl
  | cons a l ih => exact fun s => (h s a).trans (ih (f s a))
theorem same {s t : State} (hc : t.clk = s.clk) (hd : t.dies = s.dies) (hl : ∀ v, v ∈ s.agenda → v ∈ t.agenda) : Served e s t := by
  have hf : t.flash e = s.flash e := congrArg (fun x => (tgetD x (2 + e) ({} : Die)).flash) hd
  exact ⟨hc, by rw [hf], hl⟩
theorem schedule (s : State) (n : Nat) (i : Instr) : Served e s (s.schedule n i) := .same rfl rfl fun _ hv => mem_schedule.2 (.inr hv)
theorem setFlash {s : State} {f : Flash} (h : f = { s.flash e with slots := f.slots, reading := f.reading }) : Served e s (s.setFlash e f) := by
  have hf : (s.setFlash e f).flash e = f := (flash_setFlash ..).trans (if_pos rfl)
  exact ⟨rfl, by rw [hf]; exact h, fun _ hv => hv⟩
end Served
theorem Kicked.served {e : Nat} {s t : State} (h : Kicked e s t) : Served e s t := ⟨by rw [h.eq], by rw [h.flash], h.later⟩
theorem Kicked.core {e : Nat} {s t : State} (h : Kicked e s t) (c : Nat) : t.core c = s.core c := by
  have hc : t.cores = s.cores := by rw [h.eq]
  unfold State.core
  rw [hc]
theorem Kicked.reqs {e : Nat} {s t : State} (h : Kicked e s t) : t.reqs = s.reqs := by rw [h.eq]
theorem Kicked.mem {e : Nat} {s t : State} (h : Kicked e s t) : t.mem = s.mem := by rw [h.eq]
theorem Kicked.slots {e : Nat} {s t : State} (h : Kicked e s t) : (t.flash e).slots = (s.flash e).slots := by rw [h.flash]
/-- Units reach memory; the flash stays as it is. -/
structure Written (s t : State) : Prop where
  eq : t = { s with mem := t.mem, fresh := t.fresh, agenda := t.agenda, hot := t.hot, pchan := t.pchan, pchanUsed := t.pchanUsed, busyTill := t.busyTill
                    health := t.health, hclass := t.hclass, dies := t.dies }
  flash : ∀ j, t.flash j = s.flash j
  later : ∀ v, v ∈ s.agenda → v ∈ t.agenda
theorem noteTraffic_written (s : State) (c pa n : Nat) : Written s (s.noteTraffic c pa n) := by
  have h := noteTraffic_noted s c pa n
  have hf := Fetched.of_noted h
  exact ⟨hf.eq.trans (by rw [hf.eq]), fun j => by unfold State.flash; rw [h.dies], hf.later⟩
theorem writeUnits_written (e : Nat) (h : HSlot) (us : List Nat) : ∀ s : State, Written s (s.writeUnits e h us) := by
  induction us with
  | nil => exact fun s => ⟨rfl, fun _ => rfl, fun _ hv => hv⟩
  | cons u us ih =>
    intro s
    unfold State.writeUnits
    dsimp only
    split
    next pa _ _ =>
      generalize memWrite _ _ _ = m
      generalize (if h.dirty.isEmpty = true then s.fresh else s.fresh + 1) = n
      have h1 := noteTraffic_written { s with mem := m, fresh := n } h.core pa 116
      have h2 := ih (State.noteTraffic { s with mem := m, fresh := n } h.core pa 116)
      exact ⟨by rw [h2.eq, h1.eq], fun j => (h2.flash j).trans (h1.flash j), fun v hv => h2.later v (h1.later v hv)⟩
    · exact ih s
theorem Written.served {e : Nat} {s t : State} (h : Written s t) : Served e s t := ⟨by rw [h.eq], by rw [h.flash], h.later⟩
/-- Events have been put on the agenda. -/
structure Awaits (s t : State) : Prop where
  eq : t = { s with agenda := t.agenda }
  later : ∀ v, v ∈ s.agenda → v ∈ t.agenda
namespace Awaits
theorem refl (s : State) : Awaits s s := ⟨rfl, fun _ h => h⟩
theorem trans {s t u : State} (h : Awaits s t) (g : Awaits t u) : Awaits s u := ⟨by rw [g.eq, h.eq], fun v hv => g.later v (h.later v hv)⟩
theorem schedule (s : State) (n : Nat) (i : Instr) : Awaits s (s.schedule n i) := ⟨rfl, fun _ hv => mem_schedule.2 (.inr hv)⟩
theorem ite {s t u : State} {c : Prop} [Decidable c] (h : Awaits s t) (g : Awaits s u) : Awaits s (if c then t else u) := by
  split
  · exact h
  · exact g
theorem foldl {α : Type} {f : State → α → State} (h : ∀ s a, Awaits s (f s a)) (l : List α) : ∀ s : State, Awaits s (l.foldl f s) := by
  induction l with
  | nil => exact refl
  | cons a l ih => exact fun s => (h s a).trans (ih (f s a))
theorem flash {s t : State} (h : Awaits s t) (j : Nat) : t.flash j = s.flash j := by rw [h.eq]; rfl
theorem served {e : Nat} {s t : State} (h : Awaits s t) : Served e s t := ⟨by rw [h.eq], by rw [h.flash], h.later⟩
end Awaits
theorem wakeHandle_awaits (s : State) (w : Nat) : Awaits s (s.wakeHandle w) :=
  .foldl (fun s _ => .foldl (fun s _ => .ite (.schedule ..) (.refl s)) _ s) _ s
/-- A slot with units done, and a page that it waits for no longer. -/
def HSlot.withUnits (h : HSlot) (us : List Nat) (lp : Nat) (r : Bool) : HSlot :=
  { h with done := h.done ++ us.filter (fun u => !h.done.contains u), repair := h.repair.filter (· != lp), repaired := h.repaired || r }
theorem HSlot.mem_withUnits {h : HSlot} {us : List Nat} {lp : Nat} {r : Bool} (u : Nat) : u ∈ (h.withUnits us lp r).done ↔ u ∈ h.done ∨ u ∈ us := by
  unfold HSlot.withUnits
  dsimp only
  rw [List.mem_append, List.mem_filter]
  by_cases hu : u ∈ h.done
  · exact ⟨fun _ => .inl hu, fun _ => .inl hu⟩
  · exact or_congr_right ⟨fun g => g.1, fun g => ⟨g, by rw [List.contains_eq_mem, decide_eq_false hu]; rfl⟩⟩
theorem doneUnits_some {s : State} {e k : Nat} {h : HSlot} (us : List Nat) (lp : Nat) (r : Bool) (hk : tget (s.flash e).slots k = some h) :
    Awaits (s.setFlash e { s.flash e with slots := tset (s.flash e).slots k (h.withUnits us lp r) }) (s.doneUnits e k us lp r) := by
  unfold State.doneUnits
  dsimp only
  rw [hk]
  exact .ite (wakeHandle_awaits ..) (.refl _)
theorem doneUnits_served (s : State) (e k : Nat) (us : List Nat) (lp : Nat) (r : Bool) : Served e s (s.doneUnits e k us lp r) := by
  cases hk : tget (s.flash e).slots k with
  | none =>
    unfold State.doneUnits
    dsimp only
    rw [hk]
    exact .refl s
  | some h => exact .trans (.setFlash rfl) (doneUnits_some us lp r hk).served

/-! ### A page that is good again (R74) -/

/-- The parties that waited on a page go on. -/
theorem resume_served {e : Nat} (s : State) (cs : Tbl Core) (qs : Tbl Quad) (g : Saved → Saved) : Served e s { s with
    cores := cs, quads := qs, dies := s.dies.map fun d : Nat × Die => if d.2.saved.isEmpty then d else (d.1, { d.2 with saved := d.2.saved.map g }) } := by
  have hf := saved_flash g s.dies (2 + e)
  exact ⟨rfl, hf.trans (by rw [State.flash, State.die, State.flash, State.die, hf]), fun _ hv => hv⟩
theorem deliver_served (s : State) (e lp : Nat) :
    Served e (s.setFlash e { s.flash e with waiting := (s.flash e).waiting.filter (· != lp) }) (s.deliver e lp) := by
  unfold State.deliver
  dsimp only
  generalize s.setFlash e _ = u
  refine (Served.trans ?_ (Served.foldl (fun s h => ?_) _ _)).trans (kickFlash_kicked ..).served
  · exact resume_served u _ _ _
  · exact .ite (.trans (writeUnits_written ..).served (doneUnits_served ..)) (.refl s)
/-- What a delivery leaves of an ED's flash. -/
theorem deliver_flash (s : State) (e lp : Nat) : (s.deliver e lp).flash e = { s.flash e with
    waiting := (s.flash e).waiting.filter (· != lp), slots := ((s.deliver e lp).flash e).slots, reading := ((s.deliver e lp).flash e).reading } := by
  have h := (deliver_served s e lp).flash
  rwa [flash_setFlash_same] at h
end Sys2Proof.Machine
end

section
/-! What a handle table tells, and HREAD there (R78, R80, R86). -/
namespace Sys2Proof.Machine
open Sys2Proof

/-! ### What a handle table tells (R78) -/

theorem tell_told {s u : State} {c : Nat} (p fault : Nat) (v : W64) (hc : u.core c = s.core c) : Spec.Told s (u.tell c p fault v) c p fault v := by
  intro r hr hd ht hp
  unfold State.tell
  dsimp only
  rw [hc, ht, hp, Bool.true_and, if_pos (beq_self_eq_true p), State.core_setCore_same, hr]
  dsimp only [Option.map_some]
  rw [hd]
  rfl
theorem tell_eq (s : State) (c p fault : Nat) (v : W64) : s.tell c p fault v = { s with cores := (s.tell c p fault v).cores, dies := (s.tell c p fault v).dies } := by
  unfold State.tell
  dsimp only
  split <;> rfl
theorem tell_flash (s : State) (c p fault : Nat) (v : W64) (j : Nat) : (s.tell c p fault v).flash j = s.flash j := by
  unfold State.tell
  dsimp only
  split
  · rfl
  · unfold State.flash
    rw [State.die_setDie]
    split
    next h => rw [h]
    · rfl
/-- The state in which a request has been taken. -/
def State.withoutReq (s : State) (id : Nat) : State := { s with reqs := tdel s.reqs id }
theorem withoutReq_none (s : State) (id : Nat) : tget (s.withoutReq id).reqs id = none := tget_tdel_same ..
theorem tell_reqs (s : State) (c p fault : Nat) (v : W64) : (s.tell c p fault v).reqs = s.reqs := by rw [tell_eq]

/-! ### HREAD at its table (R80) -/

section
variable {s : State} {id c p e n tag priv : Nat} {src dst : W64} {pc : W64} {coop : Bool} (hr : tget s.reqs id = some (.hread c p e src dst n tag pc priv coop))
include hr
theorem handleArrives_hread : s.handleArrives id = (s.withoutReq id).hreadArrives c p e src dst n tag pc priv coop := by
  unfold State.handleArrives
  rw [hr]
  rfl
theorem hread_conflict (h : conflicts (s.flash e) p src dst n = true) : s.handleArrives id = (s.withoutReq id).tell c p 12 0 :=
  (handleArrives_hread hr).trans (if_pos h)
variable (h : conflicts (s.flash e) p src dst n = false)
include h
theorem hread_joins {k : Nat} {x : HSlot} (hj : joinable (s.flash e) p src dst n = some (k, x)) : ∃ u : State, s.handleArrives id = u.tell c p 0 (BitVec.ofNat 64 (handleWord e x.gen k))
    ∧ u.core c = s.core c ∧ u.reqs = (s.withoutReq id).reqs ∧ tget (u.flash e).slots k = some { x with holders := x.holders + 1, prefetch := false } := by
  have hc' : conflicts ((s.withoutReq id).flash e) p src dst n = false := h
  have hj' : joinable ((s.withoutReq id).flash e) p src dst n = some (k, x) := hj
  rw [handleArrives_hread hr]
  unfold State.hreadArrives
  dsimp only
  rw [hc', if_neg Bool.false_ne_true, hj']
  dsimp only
  generalize hw : (if x.prefetch = true then _ else _ : State) = w
  have hk : w = { s.withoutReq id with dies := w.dies } := by
    rw [← hw]
    split <;> rfl
  refine ⟨_, rfl, ?_, ?_, ?_⟩
  · show w.core c = s.core c
    rw [hk]
    rfl
  · show w.reqs = _
    rw [hk]
  · rw [flash_setFlash_same]
    exact tget_tset_same ..
theorem hread_null (hj : joinable (s.flash e) p src dst n = none) (hn : s.slotFor e p = none) : s.handleArrives id = (s.withoutReq id).tell c p 0 0 := by
  have hc' : conflicts ((s.withoutReq id).flash e) p src dst n = false := h
  have hj' : joinable ((s.withoutReq id).flash e) p src dst n = none := hj
  have hn' : (s.withoutReq id).slotFor e p = none := hn
  rw [handleArrives_hread hr]
  unfold State.hreadArrives
  dsimp only
  rw [hc', if_neg Bool.false_ne_true, hj']
  dsimp only
  rw [hn']
theorem hread_takes {k : Nat} (hj : joinable (s.flash e) p src dst n = none) (hn : s.slotFor e p = some k) :
    ∃ u : State, s.handleArrives id = u.tell c p 0 (BitVec.ofNat 64 (handleWord e (hgen (s.flash e) k) k))
    ∧ u.core c = s.core c ∧ u.reqs = (s.withoutReq id).reqs
    ∧ ∃ x, tget (u.flash e).slots k = some x ∧ x.gen = hgen (s.flash e) k ∧ x.src = src ∧ x.dst = dst ∧ x.units = n ∧ x.part = p ∧ x.holders = 1 ∧ x.done = [] := by
  have hc' : conflicts ((s.withoutReq id).flash e) p src dst n = false := h
  have hj' : joinable ((s.withoutReq id).flash e) p src dst n = none := hj
  have hn' : (s.withoutReq id).slotFor e p = some k := hn
  rw [handleArrives_hread hr]
  unfold State.hreadArrives
  dsimp only
  rw [hc', if_neg Bool.false_ne_true, hj']
  dsimp only
  rw [hn']
  refine ⟨(s.withoutReq id).takeSlot e k src dst n p c tag pc priv coop false 0, rfl, ?_⟩
  unfold State.takeSlot
  dsimp only
  generalize hw : (s.withoutReq id).setFlash e _ = w
  have hkick := kickFlash_kicked w e
  refine ⟨?_, ?_, ⟨hgen (s.flash e) k, src, dst, n, p, 1, false, false, [], [], [], (s.flash e).allocSeq, 0, tag, c, pc, priv, coop⟩, ?_, rfl, rfl, rfl, rfl, rfl, rfl, rfl⟩
  · rw [hkick.core, ← hw]
    rfl
  · rw [hkick.reqs, ← hw]
    rfl
  · rw [hkick.slots, ← hw, flash_setFlash_same]
    exact tget_tset_same ..
end

/-! ### HSTAT and HREL at their table (R82, R85, R86) -/

/-- The slot that a word of an ED's table names. -/
theorem handle_named {s : State} {p e : Nat} {w : W64} (h0 : w ≠ 0) (hw : w.toNat < 2 ^ 26) (he : e = w.toNat / 2 ^ 24) :
    s.handle p w = (tget (s.flash e).slots (w.toNat % 4096)).elim (some none) fun h =>
      if h.part ≠ p then none else if h.gen = w.toNat / 4096 % 4096 then some (some h) else some none := by
  have h1 : bits w 63 26 = 0 := by
    unfold bits
    omega
  have h2 : bits w 25 24 = e := by
    unfold bits
    omega
  have h3 : bits w 11 0 = w.toNat % 4096 := by
    unfold bits
    omega
  have h4 : bits w 23 12 = w.toNat / 4096 % 4096 := by
    unfold bits
    omega
  unfold State.handle
  rw [h1, h2, h3, h4, if_neg fun h => h.elim (fun g => g rfl) h0]
  cases tget (s.flash e).slots (w.toNat % 4096) <;> rfl
theorem scramble_eq (x : Ctx) (l : List (Nat × Nat)) : ∀ s : State, s.scramble x l = { s with mem := (s.scramble x l).mem, fresh := (s.scramble x l).fresh } := by
  induction l with
  | nil => exact fun _ => rfl
  | cons r l ih =>
    intro s
    unfold State.scramble
    dsimp only
    split
    · rw [ih]
    · exact ih s
theorem scrambleUnits_eq (s : State) (h : HSlot) : s.scrambleUnits h = { s with mem := (s.scrambleUnits h).mem, fresh := (s.scrambleUnits h).fresh } := by
  unfold State.scrambleUnits
  generalize List.filter _ (List.range h.units) = us
  induction us generalizing s with
  | nil => rfl
  | cons u us ih =>
    rw [List.foldl_cons, ih, scramble_eq]
/-- A slot's freeing takes it out, and keeps the cores. -/
theorem freeSlot_frees (s : State) (e k : Nat) : (∀ c, (s.freeSlot e k).core c = s.core c) ∧ (s.freeSlot e k).reqs = s.reqs ∧ tget ((s.freeSlot e k).flash e).slots k = none := by
  unfold State.freeSlot
  dsimp only
  cases hk : tget (s.flash e).slots k with
  | none => exact ⟨fun _ => rfl, rfl, hk⟩
  | some h =>
    dsimp only
    have hs := scrambleUnits_eq s h
    generalize s.scrambleUnits h = u at *
    generalize hv : u.setFlash e _ = v
    have ha := wakeHandle_awaits v (handleWord e h.gen k)
    have hkick := kickFlash_kicked (v.wakeHandle (handleWord e h.gen k)) e
    refine ⟨fun c => ?_, ?_, ?_⟩
    · rw [hkick.core, ha.eq, ← hv, hs]
      rfl
    · rw [hkick.reqs, ha.eq, ← hv, hs]
      rfl
    · rw [hkick.slots, ha.flash, ← hv, flash_setFlash_same]
      exact tget_tdel_same ..
end Sys2Proof.Machine
end

section
/-! HSTAT and HREL at their table (R82, R85, R86). -/
namespace Sys2Proof.Machine
open Sys2Proof

section
variable {s : State} {id c p e : Nat} {w : W64} (h0 : w ≠ 0) (hw : w.toNat < 2 ^ 26) (he : e = w.toNat / 2 ^ 24)
include h0 hw he

/-- What a table finds of a request that names no live handle of its partition. -/
theorem handle_finds : (tget (s.flash e).slots (w.toNat % 4096) = none → s.handle p w = some none)
    ∧ (∀ h, tget (s.flash e).slots (w.toNat % 4096) = some h → h.part ≠ p → s.handle p w = none)
    ∧ (∀ h, tget (s.flash e).slots (w.toNat % 4096) = some h → h.part = p → h.gen ≠ w.toNat / 4096 % 4096 → s.handle p w = some none)
    ∧ (∀ h, tget (s.flash e).slots (w.toNat % 4096) = some h → h.part = p → h.gen = w.toNat / 4096 % 4096 → s.handle p w = some (some h)) := by
  rw [handle_named h0 hw he]
  refine ⟨fun h => by rw [h]; rfl, fun h hk hp => ?_, fun h hk hp hg => ?_, fun h hk hp hg => ?_⟩
  · rw [hk]
    exact if_pos hp
  · rw [hk]
    exact (if_neg (not_not_intro hp)).trans (if_neg hg)
  · rw [hk]
    exact (if_neg (not_not_intro hp)).trans (if_pos hg)
end
section
variable {s : State} {id c p e : Nat} {w : W64}
theorem handleArrives_hstat (hr : tget s.reqs id = some (.hstat c p e w)) : s.handleArrives id = (s.handle p w).elim ((s.withoutReq id).tell c p 10 0)
    fun o => o.elim ((s.withoutReq id).tell c p 0 3) fun h => (s.withoutReq id).tell c p 0 h.status := by
  unfold State.handleArrives
  rw [hr]
  dsimp only
  cases s.handle p w with
  | none => rfl
  | some o => cases o <;> rfl
theorem handleArrives_hrel (hr : tget s.reqs id = some (.hrel c p e w)) : s.handleArrives id = (s.withoutReq id).hrelArrives c p e w := by
  unfold State.handleArrives
  rw [hr]
  rfl
theorem hrelArrives_eq (u : State) : u.hrelArrives c p e w = (u.handle p w).elim (u.tell c p 10 0)
    fun o => o.elim (u.tell c p 9 0) fun h => State.tell (if h.holders ≤ 1 then u.freeSlot e (bits w 11 0)
      else u.setFlash e { u.flash e with slots := tset (u.flash e).slots (bits w 11 0) { h with holders := h.holders - 1 } }) c p 0 0 := by
  unfold State.hrelArrives
  cases u.handle p w with
  | none => rfl
  | some o => cases o <;> rfl
theorem status_eq (h : HSlot) : h.status = BitVec.ofNat 64 (h.done.length * 2 ^ 32 + h.holders * 65536
    + h.gen * 16 + h.repaired.toNat * 8 + h.prefetch.toNat * 4 + if h.done.length = h.units then 1 else if h.repair = [] then 0 else 2) := by
  unfold HSlot.status HSlot.isDone
  simp only [beq_iff_eq, List.isEmpty_iff]
/-- A request that a table refuses, or that asks only, changes no slot. -/
theorem tell_keeps (fault : Nat) (v : W64) : Spec.Told s ((s.withoutReq id).tell c p fault v) c p fault v ∧ ((s.withoutReq id).tell c p fault v).mem = s.mem
    ∧ (((s.withoutReq id).tell c p fault v).flash e).slots = (s.flash e).slots ∧ tget ((s.withoutReq id).tell c p fault v).reqs id = none :=
  ⟨tell_told p fault v rfl, tell_mem .., by rw [tell_flash]; rfl, by rw [tell_reqs]; exact withoutReq_none s id⟩
end

/-- An HREAD that has arrived is no request any more. -/
theorem hread_taken {s : State} {id c p e n tag priv : Nat} {src dst pc : W64} {coop : Bool} (hr : tget s.reqs id = some (.hread c p e src dst n tag pc priv coop)) :
    tget (s.handleArrives id).reqs id = none := by
  cases hc : conflicts (s.flash e) p src dst n with
  | true =>
    rw [hread_conflict hr hc]
    exact (tell_keeps (e := e) 12 0).2.2.2
  | false =>
    cases hj : joinable (s.flash e) p src dst n with
    | some v =>
      obtain ⟨u, hu, -, hq, -⟩ := hread_joins hr hc hj
      rw [hu, tell_reqs, hq]
      exact withoutReq_none s id
    | none =>
      cases hn : s.slotFor e p with
      | none =>
        rw [hread_null hr hc hj hn]
        exact (tell_keeps (e := e) 0 0).2.2.2
      | some k =>
        obtain ⟨u, hu, -, hq, -⟩ := hread_takes hr hc hj hn
        rw [hu, tell_reqs, hq]
        exact withoutReq_none s id
/-- What HSTAT and HREL are told of a word that names no live handle: `stale` and its answer where no slot of the partition has it. -/
theorem refused_request {s : State} {id c p e stale : Nat} {v w : W64} (f : HSlot → State) (h0 : w ≠ 0) (hw : w.toNat < 2 ^ 26) (he : e = w.toNat / 2 ^ 24)
    (ht : s.handleArrives id = (s.handle p w).elim ((s.withoutReq id).tell c p 10 0) fun o => o.elim ((s.withoutReq id).tell c p stale v) f) :
    let t := s.handleArrives id
    let named := tget (s.flash e).slots (w.toNat % 4096)
    (named = none → Spec.Told s t c p stale v ∧ (t.flash e).slots = (s.flash e).slots)
    ∧ (∀ h, named = some h → h.part ≠ p → Spec.Told s t c p 10 0 ∧ t.mem = s.mem ∧ (t.flash e).slots = (s.flash e).slots)
    ∧ (∀ h, named = some h → h.part = p → h.gen ≠ w.toNat / 4096 % 4096 → Spec.Told s t c p stale v ∧ t.mem = s.mem ∧ (t.flash e).slots = (s.flash e).slots)
    ∧ (∀ h, named = some h → h.part = p → h.gen = w.toNat / 4096 % 4096 → t = f h)
    ∧ ((∀ h, tget (f h).reqs id = none) → tget t.reqs id = none) := by
  obtain ⟨h1, h2, h3, h4⟩ := handle_finds (s := s) (p := p) h0 hw he
  obtain ⟨k1, k2, k3, k4⟩ := tell_keeps (s := s) (id := id) (c := c) (p := p) (e := e) stale v
  obtain ⟨l1, l2, l3, l4⟩ := tell_keeps (s := s) (id := id) (c := c) (p := p) (e := e) 10 0
  dsimp only
  rw [ht]
  refine ⟨fun hn => ?_, fun h hn hp => ?_, fun h hn hp hg => ?_, fun h hn hp hg => ?_, fun hf => ?_⟩
  · rw [h1 hn]
    exact ⟨k1, k3⟩
  · rw [h2 h hn hp]
    exact ⟨l1, l2, l3⟩
  · rw [h3 h hn hp hg]
    exact ⟨k1, k2, k3⟩
  · rw [h4 h hn hp hg]
    rfl
  · cases s.handle p w with
    | none => exact l4
    | some o =>
      cases o with
      | none => exact k4
      | some h => exact hf h
/-- What HREL leaves of the slot it names. -/
theorem hrel_releases (s : State) (id c p e k : Nat) (h : HSlot) : let t := State.tell (if h.holders ≤ 1 then (s.withoutReq id).freeSlot e k
      else (s.withoutReq id).setFlash e { (s.withoutReq id).flash e with slots := tset ((s.withoutReq id).flash e).slots k { h with holders := h.holders - 1 } }) c p 0 0
    Spec.Told s t c p 0 0 ∧ (1 < h.holders → tget (t.flash e).slots k = some { h with holders := h.holders - 1 }) ∧ (h.holders ≤ 1 → tget (t.flash e).slots k = none)
    ∧ tget t.reqs id = none := by
  obtain ⟨f1, f2, f3⟩ := freeSlot_frees (s.withoutReq id) e k
  dsimp only
  rw [tell_flash, tell_reqs]
  split
  next hl => exact ⟨tell_told p 0 0 (f1 c), fun g => absurd g (by omega), fun _ => f3, by rw [f2]; exact withoutReq_none s id⟩
  next hl =>
    refine ⟨tell_told p 0 0 rfl, fun _ => ?_, fun g => absurd g hl, withoutReq_none s id⟩
    rw [flash_setFlash_same]
    exact tget_tset_same ..
end Sys2Proof.Machine
end

section
/-! Page reads, and the switch and the erase of relocations (R67, R68, R79, R392). -/
namespace Sys2Proof.Machine
open Sys2Proof

/-! ### A page has been read (R79, R86) -/

theorem Fetched.flashOf {s t : State} (h : Fetched s t) (e : Nat) : t.flash e = { s.flash e with
    count := (t.flash e).count, used := (t.flash e).used, retired := (t.flash e).retired, weak := (t.flash e).weak, moving := (t.flash e).moving
    opened := (t.flash e).opened } := h.flash (2 + e)
theorem awaitRepair_awaits (s : State) (e lp d : Nat) (r : List Byte) : (s.awaitRepair e lp d r).mem = s.mem ∧ lp ∈ ((s.awaitRepair e lp d r).flash e).waiting
    ∧ ((s.awaitRepair e lp d r).flash e).slots = (s.flash e).slots := by
  unfold State.awaitRepair
  dsimp only
  split
  next h => exact ⟨rfl, List.contains_iff_mem.1 h, rfl⟩
  next h =>
    have hf := flash_setFlash_same s e { s.flash e with waiting := (s.flash e).waiting ++ [lp] }
    have hq (u : State) (x : Option Party) : (u.queueRecord d r x).flash e = u.flash e := by
      unfold State.queueRecord State.flash
      dsimp only
      show ((u.setDie d _).die (2 + e)).flash = _
      rw [State.die_setDie]
      split
      next g => rw [g]
      · rfl
    refine ⟨rfl, ?_, ?_⟩
    · rw [hq, hf]
      exact List.mem_append_right _ (.head _)
    · rw [hq, hf]
theorem pageRead_none {s : State} {e k lp : Nat} (h : (s.flash e).reading.find? (fun r => r.2.1 == k && r.2.2.1 == lp) = none) : s.pageRead e k lp = s := by
  unfold State.pageRead
  dsimp only
  rw [h]
section
variable {s : State} {e k lp : Nat} {r : Nat × Nat × Nat × Nat} {h : HSlot}
variable (hr : (s.flash e).reading.find? (fun r => r.2.1 == k && r.2.2.1 == lp) = some r) (hg : tget (s.flash e).gone k = none)
variable (hk : tget (s.flash e).slots k = some h)
include hr hg hk
theorem pageRead_waits (hf : (s.flash e).fails r.2.2.2 = false) (hw : s.unitsWait h (h.unitsIn lp) = true) : s.pageRead e k lp = s.schedule 64 (.flashPageRead e k lp) := by
  obtain ⟨st, k', lp', pp⟩ := r
  unfold State.pageRead
  dsimp only
  rw [hr]
  dsimp only
  rw [hg]
  dsimp only
  rw [hk]
  dsimp only
  exact if_pos (by rw [hf, hw]; rfl)
/-- The units of a page that could be read are done. -/
theorem pageRead_done (hf : (s.flash e).fails r.2.2.2 = false) (hw : s.unitsWait h (h.unitsIn lp) = false) :
    tget ((s.pageRead e k lp).flash e).slots k = some (h.withUnits (h.unitsIn lp) lp false) := by
  obtain ⟨st, k', lp', pp⟩ := r
  unfold State.pageRead
  dsimp only
  rw [hr]
  dsimp only at hf ⊢
  rw [hg]
  dsimp only
  rw [hk]
  dsimp only
  rw [hf, hw, Bool.not_false, Bool.true_and, if_neg Bool.false_ne_true, if_neg Bool.false_ne_true, if_neg Bool.false_ne_true]
  have hread := countRead_fetched (s.setFlash e { s.flash e with reading := (s.flash e).reading.filter fun r => !(r.2.1 == k && r.2.2.1 == lp) }) e pp
  have hu := hread.flashOf e
  rw [flash_setFlash_same] at hu
  generalize State.countRead _ e pp = u at *
  have hwr := writeUnits_written e h (h.unitsIn lp) u
  generalize u.writeUnits e h (h.unitsIn lp) = v at *
  have hv : tget (v.flash e).slots k = some h := by
    rw [hwr.flash, hu]
    exact hk
  have hd := doneUnits_some (h.unitsIn lp) lp false hv
  have hk1 := kickStack_kicked (v.doneUnits e k (h.unitsIn lp) lp false) e st 17
  have hk2 := kickFlash_kicked ((v.doneUnits e k (h.unitsIn lp) lp false).kickStack e st 17) e
  rw [hk2.slots, hk1.slots, hd.flash, flash_setFlash_same]
  exact tget_tset_same ..
/-- A page that fails waits for repair, and its slot waits on it. -/
theorem pageRead_fails (hf : (s.flash e).fails r.2.2.2 = true) : (s.pageRead e k lp).mem = s.mem ∧ lp ∈ ((s.pageRead e k lp).flash e).waiting
    ∧ tget ((s.pageRead e k lp).flash e).slots k = some { h with repair := h.repair ++ [lp] } := by
  obtain ⟨st, k', lp', pp⟩ := r
  unfold State.pageRead
  dsimp only
  rw [hr]
  dsimp only at hf ⊢
  rw [hg]
  dsimp only
  rw [hk]
  dsimp only
  rw [hf, Bool.not_true, Bool.false_and, if_neg Bool.false_ne_true, if_pos rfl, if_pos rfl]
  have hread := countRead_fetched (s.setFlash e { s.flash e with reading := (s.flash e).reading.filter fun r => !(r.2.1 == k && r.2.2.1 == lp) }) e pp
  have hum : (State.countRead (s.setFlash e { s.flash e with reading := (s.flash e).reading.filter fun r => !(r.2.1 == k && r.2.2.1 == lp) }) e pp).mem = s.mem := by
    rw [hread.eq]
    rfl
  generalize State.countRead _ e pp = u at *
  generalize hv : u.setFlash e { u.flash e with slots := tset (u.flash e).slots k { h with repair := h.repair ++ [lp] } } = v
  have hvf : v.flash e = { u.flash e with slots := tset (u.flash e).slots k { h with repair := h.repair ++ [lp] } } := by rw [← hv, flash_setFlash_same]
  have hvm : v.mem = s.mem := by rw [← hv]; exact hum
  generalize slotRecord e k h lp u.beacon = rec
  have ha := awaitRepair_awaits v e lp (2 + e) rec
  generalize v.awaitRepair e lp (2 + e) rec = w at *
  have hk1 := kickStack_kicked w e st 17
  have hk2 := kickFlash_kicked (w.kickStack e st 17) e
  obtain ⟨a1, a2, a3⟩ := ha
  refine ⟨?_, ?_, ?_⟩
  · rw [hk2.mem, hk1.mem, a1, hvm]
  · rw [hk2.flash, hk1.flash]
    exact a2
  · rw [hk2.slots, hk1.slots, a3, hvf]
    exact tget_tset_same ..
end

/-! ### The switch and the erase of a relocation (R68, R392, R393) -/

theorem setBlock_health (s : State) (e b : Nat) (f : Flash) : s.setBlock e b f = { s.setFlash e f with health := (s.setBlock e b f).health } := by
  have h1 (n : Nat) (l : List Nat) : ∀ s : State, l.foldl (fun s st => s.bumpStack e st n) s = { s with health := (l.foldl (fun s st => s.bumpStack e st n) s).health } := by
    induction l with
    | nil => exact fun _ => rfl
    | cons a l ih =>
      intro s
      rw [List.foldl_cons, ih]
      rfl
  have h2 (n : Nat) (l : List Nat) : ∀ s : State, l.foldl (fun s st => s.dropStack e st n) s = { s with health := (l.foldl (fun s st => s.dropStack e st n) s).health } := by
    induction l with
    | nil => exact fun _ => rfl
    | cons a l ih =>
      intro s
      rw [List.foldl_cons, ih]
      rfl
  unfold State.setBlock
  dsimp only
  rw [h1, h2]
theorem setBlock_flash (s : State) (e b : Nat) (f : Flash) : (s.setBlock e b f).flash e = f := by
  rw [setBlock_health]
  exact flash_setFlash_same s e f
/-- The pages of a block that are bad and cannot be rebuilt are bad in the new one. -/
theorem copyBlock_copies (s : State) (e : Nat) (ps : List (Nat × Nat)) : (s.copyBlock e ps).flash e = { s.flash e with
    bad := (s.flash e).bad ++ ((ps.filter fun p => (s.flash e).bad.contains p.1).filter fun p => !(s.flash e).rebuildable p.1).map (·.2) }
    ∧ (s.copyBlock e ps).clk = s.clk ∧ (s.copyBlock e ps).agenda = s.agenda := by
  have hb (b lo w n : Nat) (t : State) : t.bumpClass e b lo w n = { t with hclass := (t.bumpClass e b lo w n).hclass } := by
    unfold State.bumpClass
    dsimp only
    split <;> rfl
  have hs (l : List Nat) : ∀ t : State, t.countSoft e l = { t with hclass := (t.countSoft e l).hclass } := by
    induction l with
    | nil => exact fun _ => rfl
    | cons a l ih =>
      intro t
      unfold State.countSoft at ih ⊢
      rw [List.foldl_cons, ih, hb]
  have hf (l : List (Nat × Nat)) : ∀ t : State, l.foldl (fun s p => s.bumpClass e (p.1 / 256) 16 16 1) t
      = { t with hclass := (l.foldl (fun s p => s.bumpClass e (p.1 / 256) 16 16 1) t).hclass } := by
    induction l with
    | nil => exact fun _ => rfl
    | cons a l ih =>
      intro t
      rw [List.foldl_cons, ih, hb]
  unfold State.copyBlock
  dsimp only
  rw [flash_setFlash_same]
  generalize (ps.filter fun p => (s.flash e).bad.contains p.1).filter (fun p => !(s.flash e).rebuildable p.1) = stay
  rw [hf, hs]
  exact ⟨rfl, rfl, rfl⟩
theorem relocSwitch_none {s : State} {e k b : Nat} (h : (b, k) ∉ (s.flash e).moving) : s.relocSwitch e k b = s := by
  unfold State.relocSwitch
  dsimp only
  rw [List.contains_eq_mem, decide_eq_false h]
  rfl
section
variable {s : State} {e k b : Nat} (h : (b, k) ∈ (s.flash e).moving)
include h
theorem relocSwitch_waits (hw : ∃ lp, lp ∈ (s.flash e).pagesIn b ∧ lp ∈ (s.flash e).waiting ∧ s.deliveryWaits e lp = true) :
    s.relocSwitch e k b = s.schedule 64 (.relocationSwitch e k b) := by
  obtain ⟨lp, h1, h2, h3⟩ := hw
  unfold State.relocSwitch
  dsimp only
  rw [List.contains_eq_mem, decide_eq_true h, Bool.not_true, if_neg Bool.false_ne_true]
  exact if_pos (List.any_eq_true.2 ⟨lp, h1, by rw [h3, List.contains_iff_mem.2 h2]; rfl⟩)
variable (hw : ¬ ∃ lp, lp ∈ (s.flash e).pagesIn b ∧ lp ∈ (s.flash e).waiting ∧ s.deliveryWaits e lp = true)
include hw
theorem relocSwitch_goes : s.relocSwitch e k b = if allBlocks ≤ b then (s.switchParity e k b).schedule 1316000 (.oldBlockErase e b k)
    else if (((s.switchData e k b).schedule 1316000 (.oldBlockErase e k b)).flash e).cmdMove = some b
        ∧ (((s.switchData e k b).schedule 1316000 (.oldBlockErase e k b)).flash e).lastOp = 2 then
      (((s.switchData e k b).schedule 1316000 (.oldBlockErase e k b)).setFlash e
        { ((s.switchData e k b).schedule 1316000 (.oldBlockErase e k b)).flash e with cmdMove := none }).ftlEnd e 2
    else (s.switchData e k b).schedule 1316000 (.oldBlockErase e k b) := by
  have hany : ((s.flash e).pagesIn b).any (fun lp => (s.flash e).waiting.contains lp && s.deliveryWaits e lp) = false := List.any_eq_false.2 fun lp hlp hd => by
    rw [Bool.and_eq_true, List.contains_iff_mem] at hd
    exact hw ⟨lp, hlp, hd⟩
  unfold State.relocSwitch
  dsimp only
  rw [List.contains_eq_mem, decide_eq_true h, Bool.not_true, if_neg Bool.false_ne_true, hany, if_neg Bool.false_ne_true]
end
/-- A command ends with its outcome. -/
theorem ftlEnd_ends (s : State) (e r : Nat) : (s.ftlEnd e r).flash e = { s.flash e with result := r } ∧ ∀ v, v ∈ s.agenda → v ∈ (s.ftlEnd e r).agenda :=
  ⟨flash_setFlash_same s e { s.flash e with result := r }, fun _ hv => mem_schedule.2 (.inr hv)⟩
/-- Deliveries keep an ED's map and its bad pages. -/
theorem delivers_keeps (e : Nat) (l : List Nat) : ∀ s : State, ((l.foldl (fun s lp => s.deliver e lp) s).flash e).map = (s.flash e).map
    ∧ ((l.foldl (fun s lp => s.deliver e lp) s).flash e).bad = (s.flash e).bad ∧ (l.foldl (fun s lp => s.deliver e lp) s).clk = s.clk := by
  induction l with
  | nil => exact fun _ => ⟨rfl, rfl, rfl⟩
  | cons lp l ih =>
    intro s
    obtain ⟨h1, h2, h3⟩ := ih (s.deliver e lp)
    rw [List.foldl_cons, h1, h2, h3, deliver_flash, (deliver_served s e lp).clk]
    exact ⟨rfl, rfl, rfl⟩
/-- The map of an ED after the switch of a data block. -/
theorem switchData_switches (s : State) (e k b : Nat) : (∀ lp, ((s.switchData e k b).flash e).phys lp
      = if lp ∈ (s.flash e).pagesIn b then 256 * k + (s.flash e).phys lp % 256 else (s.flash e).phys lp)
    ∧ (∀ lp, lp ∈ (s.flash e).pagesIn b → (s.flash e).phys lp ∈ (s.flash e).bad → (s.flash e).rebuildable ((s.flash e).phys lp) = false →
        256 * k + (s.flash e).phys lp % 256 ∈ ((s.switchData e k b).flash e).bad)
    ∧ (s.switchData e k b).clk = s.clk := by
  unfold State.switchData
  dsimp only
  obtain ⟨hf, hc, -⟩ := copyBlock_copies s e (((s.flash e).pagesIn b).map fun lp => ((s.flash e).phys lp, 256 * k + (s.flash e).phys lp % 256))
  generalize s.copyBlock e (((s.flash e).pagesIn b).map fun lp => ((s.flash e).phys lp, 256 * k + (s.flash e).phys lp % 256)) = u at *
  have hphys (lp : Nat) : (u.flash e).phys lp = (s.flash e).phys lp := by
    rw [hf]
    rfl
  simp only [hphys]
  generalize hv : u.setFlash e _ = v
  have hvf := flash_setFlash_same u e { u.flash e with
    map := ((s.flash e).pagesIn b).foldl (fun m lp => tset m lp (256 * k + (s.flash e).phys lp % 256)) (u.flash e).map, count := tdel (u.flash e).count k }
  rw [hv] at hvf
  obtain ⟨d1, d2, d3⟩ := delivers_keeps e (((s.flash e).pagesIn b).filter fun lp => (s.flash e).waiting.contains lp && (s.flash e).rebuildable ((s.flash e).phys lp)) v
  generalize List.foldl _ v _ = w at *
  have hm : (w.flash e).map = ((s.flash e).pagesIn b).foldl (fun m lp => tset m lp (256 * k + (s.flash e).phys lp % 256)) (s.flash e).map := by
    rw [d1, hvf, hf]
  refine ⟨fun lp => ?_, fun lp hlp hb hr => ?_, ?_⟩
  · show tgetD (w.flash e).map lp lp = _
    rw [hm]
    exact tgetD_foldl_tset (key := id) (fun _ _ h => h) (fun lp => 256 * k + (s.flash e).phys lp % 256) lp lp _ _
  · rw [d2, hvf]
    dsimp only
    rw [hf]
    refine List.mem_append_right _ (List.mem_map.2 ⟨((s.flash e).phys lp, 256 * k + (s.flash e).phys lp % 256), List.mem_filter.2 ⟨List.mem_filter.2 ⟨?_, ?_⟩, ?_⟩, rfl⟩)
    · exact List.mem_map.2 ⟨lp, hlp, rfl⟩
    · exact List.contains_iff_mem.2 hb
    · rw [hr]
      rfl
  · rw [d3, ← hv]
    exact hc
/-- The switch of a parity block moves no page, and its relocation goes the other way. -/
theorem switchParity_switches {s : State} {e k b : Nat} (h : (b, k) ∈ (s.flash e).moving) :
    (∀ lp, ((s.switchParity e k b).flash e).phys lp = (s.flash e).phys lp) ∧ (k, b) ∈ ((s.switchParity e k b).flash e).moving ∧ (s.switchParity e k b).clk = s.clk := by
  unfold State.switchParity
  dsimp only
  obtain ⟨hf, hc, -⟩ := copyBlock_copies s e ((List.range 256).map fun i => (256 * b + i, 256 * k + i))
  generalize s.copyBlock e ((List.range 256).map fun i => (256 * b + i, 256 * k + i)) = u at *
  have hmap : (u.flash e).map = (s.flash e).map := by rw [hf]
  have hmov : (u.flash e).moving = (s.flash e).moving := by rw [hf]
  refine ⟨fun lp => ?_, ?_, hc⟩
  · rw [flash_setFlash_same]
    exact congrArg (fun m => tgetD m lp lp) hmap
  · rw [flash_setFlash_same]
    refine List.mem_map.2 ⟨(b, k), ?_, if_pos rfl⟩
    show (b, k) ∈ (u.flash e).moving
    rw [hmov]
    exact h
/-- What a data block's switch leaves, whichever command's it was. -/
theorem relocSwitch_data {s : State} {e k b : Nat} (h : (b, k) ∈ (s.flash e).moving)
    (hw : ¬ ∃ lp, lp ∈ (s.flash e).pagesIn b ∧ lp ∈ (s.flash e).waiting ∧ s.deliveryWaits e lp = true) (hb : b < allBlocks) :
    (∀ lp, ((s.relocSwitch e k b).flash e).phys lp = if lp ∈ (s.flash e).pagesIn b then 256 * k + (s.flash e).phys lp % 256 else (s.flash e).phys lp)
    ∧ (∀ lp, lp ∈ (s.flash e).pagesIn b → (s.flash e).phys lp ∈ (s.flash e).bad → (s.flash e).rebuildable ((s.flash e).phys lp) = false →
        256 * k + (s.flash e).phys lp % 256 ∈ ((s.relocSwitch e k b).flash e).bad)
    ∧ (s.clk + 1316000, Instr.oldBlockErase e k b) ∈ (s.relocSwitch e k b).agenda := by
  obtain ⟨hp, hbad, hc⟩ := switchData_switches s e k b
  rw [relocSwitch_goes h hw, if_neg (Nat.not_le.2 hb)]
  have hev : (s.clk + 1316000, Instr.oldBlockErase e k b) ∈ ((s.switchData e k b).schedule 1316000 (.oldBlockErase e k b)).agenda :=
    mem_schedule.2 (.inl (by rw [hc]))
  have hfl : ((s.switchData e k b).schedule 1316000 (.oldBlockErase e k b)).flash e = (s.switchData e k b).flash e := rfl
  rw [hfl]
  generalize (s.switchData e k b).schedule 1316000 (.oldBlockErase e k b) = v at *
  generalize s.switchData e k b = u at *
  split
  · obtain ⟨he, hl⟩ := ftlEnd_ends (v.setFlash e { u.flash e with cmdMove := none }) e 2
    rw [he, flash_setFlash_same]
    exact ⟨hp, hbad, hl _ hev⟩
  · rw [hfl]
    exact ⟨hp, hbad, hev⟩
theorem relocSwitch_parity {s : State} {e k b : Nat} (h : (b, k) ∈ (s.flash e).moving)
    (hw : ¬ ∃ lp, lp ∈ (s.flash e).pagesIn b ∧ lp ∈ (s.flash e).waiting ∧ s.deliveryWaits e lp = true) (hb : allBlocks ≤ b) :
    (∀ lp, ((s.relocSwitch e k b).flash e).phys lp = (s.flash e).phys lp) ∧ (k, b) ∈ ((s.relocSwitch e k b).flash e).moving
    ∧ (s.clk + 1316000, Instr.oldBlockErase e b k) ∈ (s.relocSwitch e k b).agenda := by
  obtain ⟨hp, hm, hc⟩ := switchParity_switches h
  rw [relocSwitch_goes h hw, if_pos hb]
  exact ⟨hp, hm, mem_schedule.2 (.inl (by rw [hc]))⟩

/-! ### The erase of the old block (R67, R68) -/

theorem oldErase_none {s : State} {e k b : Nat} (h : (b, k) ∉ (s.flash e).moving) : s.oldErase e k b = s := by
  unfold State.oldErase
  dsimp only
  rw [List.contains_eq_mem, decide_eq_false h]
  rfl
theorem oldErase_waits {s : State} {e k b : Nat} (h : (b, k) ∈ (s.flash e).moving) (hr : ∃ r, r ∈ (s.flash e).reading ∧ r.2.2.2 / 256 = b) :
    s.oldErase e k b = s.schedule 17 (.oldBlockErase e k b) := by
  obtain ⟨r, hr, hb⟩ := hr
  unfold State.oldErase
  dsimp only
  rw [List.contains_eq_mem, decide_eq_true h, Bool.not_true, if_neg Bool.false_ne_true]
  exact if_pos (List.any_eq_true.2 ⟨r, hr, (beq_iff_eq.2 hb : (r.2.2.2 / 256 == b) = true)⟩)
/-- The other side of a block's use. -/
theorem flip_inUse (f : Flash) (b : Nat) : (f.flip b).inUse b = !f.inUse b := by
  unfold Flash.inUse Flash.flip
  dsimp only
  cases hc : f.used.contains b with
  | true =>
    have : (f.used.filter (· != b)).contains b = false := by
      rw [List.contains_eq_mem, decide_eq_false]
      rw [List.mem_filter]
      simp
    rw [if_pos rfl, this]
    cases decide (b < usedBlocks) <;> rfl
  | false =>
    have : (f.used ++ [b]).contains b = true := List.contains_iff_mem.2 (List.mem_append_right _ (.head _))
    rw [if_neg Bool.false_ne_true, this]
    cases decide (b < usedBlocks) <;> rfl
/-- What an erase leaves of an ED's flash. -/
theorem eraseBlock_erases (s : State) (e b : Nat) : ((s.eraseBlock e b).flash e).inUse b = !(s.flash e).inUse b
    ∧ tgetD ((s.eraseBlock e b).flash e).erase b 0 = tgetD (s.flash e).erase b 0 + 1 ∧ ((s.eraseBlock e b).flash e).moving = (s.flash e).moving
    ∧ ((s.eraseBlock e b).flash e).cmdMove = (s.flash e).cmdMove
    ∧ (b ∈ (s.flash e).weak → b ∈ ((s.eraseBlock e b).flash e).retired) ∧ (b ∉ (s.flash e).weak → ((s.eraseBlock e b).flash e).retired = (s.flash e).retired) := by
  have hin := flip_inUse ((s.flash e).unmark b) b
  have her : tgetD (tset ((s.flash e).unmark b).erase b (tgetD ((s.flash e).unmark b).erase b 0 + 1)) b 0 = tgetD (s.flash e).erase b 0 + 1 := tgetD_tset_same ..
  have hweak : ((s.flash e).unmark b).weak = (s.flash e).weak := rfl
  unfold State.eraseBlock
  dsimp only
  rw [hweak]
  generalize hu : s.setBlock e b _ = u
  have hf : u.flash e = _ := hu ▸ setBlock_flash s e b _
  split
  next hw =>
    have hw := List.contains_iff_mem.1 hw
    have hr : (u.retireBlock e b).flash e = { u.flash e with retired := (u.flash e).retired ++ [b], weak := (u.flash e).weak.filter (· != b) } :=
      (setBlock_flash u e b _ :)
    rw [hr, hf]
    exact ⟨hin, her, rfl, rfl, fun _ => List.mem_append_right _ (.head _), fun g => absurd hw g⟩
  next hw =>
    have hw : b ∉ (s.flash e).weak := fun g => hw (List.contains_iff_mem.2 g)
    rw [hf]
    exact ⟨hin, her, rfl, rfl, fun g => absurd g hw, fun _ => rfl⟩
/-- Once no read of it is left, the old block is erased; one that a RETIRE has moved, or whose erase fails, is retired. -/
theorem oldErase_erases {s : State} {e k b : Nat} (h : (b, k) ∈ (s.flash e).moving) (hr : ∀ r, r ∈ (s.flash e).reading → r.2.2.2 / 256 ≠ b) :
    let t := s.oldErase e k b
    (b, k) ∉ (t.flash e).moving ∧ (t.flash e).inUse b = !(s.flash e).inUse b ∧ tgetD (t.flash e).erase b 0 = tgetD (s.flash e).erase b 0 + 1
    ∧ ((s.flash e).cmdMove = some b ∨ b ∈ (s.flash e).weak → b ∈ (t.flash e).retired)
    ∧ (¬ ((s.flash e).cmdMove = some b ∨ b ∈ (s.flash e).weak) → (t.flash e).retired = (s.flash e).retired)
    ∧ ((s.flash e).cmdMove = some b → (t.flash e).cmdMove = none ∧ (t.flash e).result = 2) := by
  have hany : ((s.flash e).reading.any fun r => r.2.2.2 / 256 == b) = false := List.any_eq_false.2 fun r hm hd => hr r hm (beq_iff_eq.1 hd)
  unfold State.oldErase
  dsimp only
  rw [List.contains_eq_mem, decide_eq_true h, Bool.not_true, if_neg Bool.false_ne_true, hany, if_neg Bool.false_ne_true]
  have hret : ((s.flash e).cmdMove == some b) = true ↔ (s.flash e).cmdMove = some b := beq_iff_eq
  generalize ((s.flash e).cmdMove == some b) = ret at *
  generalize hu : s.setFlash e _ = u
  have huf : u.flash e = _ := hu ▸ flash_setFlash_same s e _
  obtain ⟨e1, e2, e3, e4, e5, e6⟩ := eraseBlock_erases u e b
  have hweak : b ∈ (u.flash e).weak ↔ (s.flash e).cmdMove = some b ∨ b ∈ (s.flash e).weak := by
    rw [huf]
    show b ∈ (if _ then _ else _ : List Nat) ↔ _
    rw [← hret]
    by_cases hw : b ∈ (s.flash e).weak
    · rw [List.contains_iff_mem.2 hw, Bool.not_true, Bool.and_false, if_neg Bool.false_ne_true]
      exact ⟨.inr, fun _ => hw⟩
    · cases ret with
      | false => exact ⟨.inr, fun g => g.elim (fun g => nomatch g) id⟩
      | true =>
        rw [show (s.flash e).weak.contains b = false by rw [List.contains_eq_mem, decide_eq_false hw]]
        exact ⟨fun _ => .inl rfl, fun _ => List.mem_append_right _ (.head _)⟩
  have hmov : (b, k) ∉ (u.flash e).moving := by
    rw [huf]
    exact fun g => absurd (List.mem_filter.1 g).2 (by simp)
  have huse : (u.flash e).inUse b = (s.flash e).inUse b := by rw [huf]; rfl
  have hera : (u.flash e).erase = (s.flash e).erase := by rw [huf]
  have hretd : (u.flash e).retired = (s.flash e).retired := by rw [huf]
  have hcmd : ret = true → (u.flash e).cmdMove = none := fun g => by
    rw [huf]
    exact if_pos g
  rw [huse] at e1
  rw [hera] at e2
  rw [hretd] at e6
  have a1 : (b, k) ∉ ((u.eraseBlock e b).flash e).moving := e3 ▸ hmov
  have a4 : (s.flash e).cmdMove = some b ∨ b ∈ (s.flash e).weak → b ∈ ((u.eraseBlock e b).flash e).retired := fun g => e5 (hweak.2 g)
  have a5 : ¬ ((s.flash e).cmdMove = some b ∨ b ∈ (s.flash e).weak) → ((u.eraseBlock e b).flash e).retired = (s.flash e).retired := fun g => e6 (hweak.not.2 g)
  split
  next hr =>
    rw [(ftlEnd_ends (u.eraseBlock e b) e 2).1]
    exact ⟨a1, e1, e2, a4, a5, fun _ => ⟨e4.trans (hcmd hr), rfl⟩⟩
  next hr => exact ⟨a1, e1, e2, a4, a5, fun g => absurd (hret.2 g) hr⟩
end Sys2Proof.Machine
end

section
/-! The commands of the translation layer (R73, R74). -/
namespace Sys2Proof.Machine
open Sys2Proof

/-! ### The commands of the translation layer (R73, R74) -/

theorem rebuild_moves {s : State} {e lp : Nat} (h : (s.flash e).moves lp = true) : exec (.rebuild e lp) s = .next (s.schedule 940 (.rebuild e lp))
    ∧ exec (.relocate e lp) s = .next (s.schedule 940 (.relocate e lp)) ∧ exec (.retire e lp) s = .next (s.schedule 940 (.retire e lp))
    ∧ exec (.refill e lp) s = .next (s.schedule 940 (.refill e lp)) :=
  ⟨congrArg Host.Outcome.next (if_pos h), congrArg Host.Outcome.next (if_pos h), congrArg Host.Outcome.next (if_pos h), congrArg Host.Outcome.next (if_pos h)⟩
/-- The state that a REBUILD leaves of a page whose block is not under relocation. -/
def State.rebuilt (s : State) (e lp : Nat) : State :=
  if s.deliveryWaits e lp then s.schedule 64 (.rebuild e lp)
  else if !(s.flash e).rebuildable ((s.flash e).phys lp) then ((stripeRest ((s.flash e).phys lp)).foldl (fun s q => s.countRead e q) s).ftlEnd e 3
  else ((((((stripeRest ((s.flash e).phys lp)).foldl (fun s q => s.countRead e q) s).remapPage e lp).bumpClass e ((s.flash e).phys lp / 256) 16 16 1).deliver e lp).ftlEnd e 2)
/-- The state that a REFILL leaves of a page whose block is not under relocation. -/
def State.refilled (s : State) (e lp : Nat) : State :=
  if s.deliveryWaits e lp then s.schedule 64 (.refill e lp)
  else ((s.flash e).source.or (s.refillSource e (s.flash e).sourceVa)).elim (s.schedule 64 (.refill e lp)) fun ps =>
    if ps = [] then s.ftlEnd e 3
    else (((s.remapPage e lp).setFlash e { (s.remapPage e lp).flash e with
      bytes := memWrite ((s.remapPage e lp).flash e).bytes (lp * 16384) (ps.flatMap fun q => memRead s.mem q 4096) }).deliver e lp).ftlEnd e 2
section
variable {s : State} {e lp : Nat} (h : (s.flash e).moves lp = false)
include h
theorem rebuild_acts : exec (.rebuild e lp) s = .next (s.rebuilt e lp) :=
  congrArg Host.Outcome.next (if_neg (by rw [h]; exact Bool.false_ne_true))
theorem move_acts : exec (.relocate e lp) s = .next (s.moveBlock e lp) ∧ exec (.retire e lp) s = .next (s.moveBlock e lp) :=
  ⟨congrArg Host.Outcome.next (if_neg (by rw [h]; exact Bool.false_ne_true)), congrArg Host.Outcome.next (if_neg (by rw [h]; exact Bool.false_ne_true))⟩
theorem refill_acts : exec (.refill e lp) s = .next (s.refilled e lp) := by
  refine congrArg Host.Outcome.next (Eq.trans (if_neg (by rw [h]; exact Bool.false_ne_true)) ?_)
  unfold State.refilled
  dsimp only
  split
  · rfl
  · cases (s.flash e).source.or (s.refillSource e (s.flash e).sourceVa) with
    | none => rfl
    | some ps => cases ps <;> rfl
end
theorem rebuilt_ends {s : State} {e lp : Nat} (h : s.deliveryWaits e lp = false) :
    ((s.flash e).rebuildable ((s.flash e).phys lp) = false → ((s.rebuilt e lp).flash e).result = 3)
    ∧ ((s.flash e).rebuildable ((s.flash e).phys lp) = true → ((s.rebuilt e lp).flash e).result = 2 ∧ lp ∉ ((s.rebuilt e lp).flash e).waiting) := by
  unfold State.rebuilt
  rw [h, if_neg Bool.false_ne_true]
  refine ⟨fun hr => ?_, fun hr => ?_⟩
  · rw [hr, Bool.not_false, if_pos rfl, (ftlEnd_ends _ e 3).1]
  · rw [hr, Bool.not_true, if_neg Bool.false_ne_true, (ftlEnd_ends _ e 2).1]
    refine ⟨rfl, ?_⟩
    dsimp only
    rw [deliver_flash]
    exact fun g => absurd (List.mem_filter.1 g).2 (by simp)
theorem getD_memRead (m : Tbl Byte) : ∀ (n a i : Nat), i < n → (memRead m a n).getD i 0 = tgetD m (a + i) 0 := by
  intro n
  induction n with
  | zero => exact fun a i hi => absurd hi (Nat.not_lt_zero i)
  | succ n ih =>
    intro a i hi
    unfold memRead
    cases i with
    | zero => rfl
    | succ i => rw [List.getD_cons_succ, ih (a + 1) i (by omega), show a + 1 + i = a + (i + 1) by omega]
/-- Byte i of pages one after the other is byte i % 4096 of page i / 4096. -/
theorem getD_pages (m : Tbl Byte) (ps : List Nat) : ∀ i, i < 4096 * ps.length →
    (ps.flatMap fun q => memRead m q 4096).getD i 0 = tgetD m (ps.getD (i / 4096) 0 + i % 4096) 0 := by
  induction ps with
  | nil => exact fun i hi => absurd hi (Nat.not_lt_zero i)
  | cons q ps ih =>
    intro i hi
    have hlen := memRead_length m 4096 q
    rw [List.flatMap_cons, List.getD_eq_getElem?_getD, List.getElem?_append]
    by_cases hq : i < 4096
    · rw [hlen, if_pos hq, Nat.div_eq_of_lt hq, Nat.mod_eq_of_lt hq]
      rw [← List.getD_eq_getElem?_getD]
      exact getD_memRead m 4096 q i hq
    · rw [hlen, if_neg hq, ← List.getD_eq_getElem?_getD, ih (i - 4096) (by rw [List.length_cons] at hi; omega)]
      rw [show i / 4096 = (i - 4096) / 4096 + 1 by omega, show i % 4096 = (i - 4096) % 4096 by omega, List.getD_cons_succ]
theorem length_pages (m : Tbl Byte) (ps : List Nat) : (ps.flatMap fun q => memRead m q 4096).length = 4096 * ps.length := by
  induction ps with
  | nil => rfl
  | cons q ps ih =>
    rw [List.flatMap_cons, List.length_append, ih, List.length_cons, memRead_length]
    omega
theorem refilled_ends {s : State} {e lp : Nat} (h : s.deliveryWaits e lp = false) : let source := (s.flash e).source.or (s.refillSource e (s.flash e).sourceVa)
    (source = none → s.refilled e lp = s.schedule 64 (.refill e lp)) ∧ (source = some [] → ((s.refilled e lp).flash e).result = 3)
    ∧ (∀ ps, source = some ps → ps ≠ [] → ((s.refilled e lp).flash e).result = 2 ∧ lp ∉ ((s.refilled e lp).flash e).waiting
        ∧ ∀ i, i < 4096 * ps.length → tgetD ((s.refilled e lp).flash e).bytes (16384 * lp + i) 0 = tgetD s.mem (ps.getD (i / 4096) 0 + i % 4096) 0) := by
  unfold State.refilled
  rw [h, if_neg Bool.false_ne_true]
  dsimp only
  generalize (s.flash e).source.or (s.refillSource e (s.flash e).sourceVa) = o
  refine ⟨fun ho => by rw [ho]; rfl, fun ho => ?_, fun ps ho hn => ?_⟩
  · rw [ho, Option.elim_some, if_pos rfl, (ftlEnd_ends s e 3).1]
  · rw [ho, Option.elim_some, if_neg hn, (ftlEnd_ends _ e 2).1]
    dsimp only
    rw [deliver_flash, flash_setFlash_same]
    refine ⟨rfl, fun g => absurd (List.mem_filter.1 g).2 (by simp), fun i hi => ?_⟩
    dsimp only
    rw [tgetD_memWrite, length_pages, if_pos (by omega), show 16384 * lp + i - lp * 16384 = i by omega]
    exact getD_pages _ ps i hi
/-- RELOCATE and RETIRE begin the relocation of their page's block where a spare is free, and else fail. -/
theorem moveBlock_moves {s : State} {e lp : Nat} (h : (s.flash e).moves lp = false) : let b := (s.flash e).phys lp / 256
    let spare := (s.flash e).fresh (stackOf b) (decide (allBlocks ≤ b))
    (spare = none → ((s.moveBlock e lp).flash e).result = 3) ∧ (∀ k, spare = some k → k ∉ (s.flash e).weak → (b, k) ∈ ((s.moveBlock e lp).flash e).moving) := by
  dsimp only
  unfold State.moveBlock
  dsimp only
  generalize hb : (s.flash e).phys lp / 256 = b
  have hnot : (s.flash e).isMoving b = false := hb ▸ h
  refine ⟨fun hn => ?_, fun k hk hw => ?_⟩
  · have hs : s.startRelocation e b = s := by
      unfold State.startRelocation State.takeSpare State.takeFresh
      dsimp only
      rw [hn]
    rw [hs, hnot, if_neg Bool.false_ne_true, (ftlEnd_ends s e 3).1]
  · have hm : (b, k) ∈ ((s.startRelocation e b).flash e).moving := by
      have ht : s.takeSpare e (stackOf b) (decide (allBlocks ≤ b)) = (s.setBlock e k ((s.flash e).flip k), some k) := by
        unfold State.takeSpare State.takeFresh
        dsimp only
        rw [hk]
        dsimp only
        rw [List.contains_eq_mem, decide_eq_false hw]
        rfl
      unfold State.startRelocation
      rw [ht]
      dsimp only
      generalize hv : State.setBlock _ e b _ = v
      have hvf : v.flash e = _ := hv ▸ setBlock_flash _ e b _
      have hf : ((((v.bumpStack e (stackOf b) 16).bumpClass e b 0 16 1).schedule 564000 (.relocationSwitch e k b)).flash e) = v.flash e := by
        unfold State.bumpClass
        rfl
      rw [hf, hvf]
      exact List.mem_append_right _ (.head _)
    have hmov : ((s.startRelocation e b).flash e).isMoving b = true := List.any_eq_true.2 ⟨(b, k), hm, beq_self_eq_true b⟩
    rw [hmov, if_pos rfl, flash_setFlash_same]
    exact hm
end Sys2Proof.Machine
end

section
/-! Proofs about handle requests, page reads, relocations, repair and the Pointer (R68, R73, R74, R78 to R80, R85, R91). -/
namespace Sys2Proof.Machine
open Sys2Proof

/-! ### Fields of records, whatever their length (R2) -/

/-- Bytes past a list's end count 0. -/
theorem leNat_takePad (n : Nat) : ∀ l : List Byte, leNat (l.take n) = leNat ((List.range n).map fun i => l.getD i 0) := by
  induction n with
  | zero => exact fun _ => rfl
  | succ n ih =>
    intro l
    rw [List.range_succ_eq_map, List.map_cons, List.map_map, leNat]
    cases l with
    | nil =>
      have := ih []
      rw [List.take_nil] at this ⊢
      exact congrArg (fun x => 0 + 256 * x) this
    | cons x l => exact congrArg (fun y => x.toNat + 256 * y) (ih l)
theorem field_pads (b : List Byte) (o n : Nat) : field b o n = Spec.number ((List.range n).map fun i => b.getD (o + i) 0) := by
  rw [field, leNat_takePad, leNat_eq]
  refine congrArg Spec.number (List.map_congr_left fun i _ => ?_)
  rw [List.getD_eq_getElem?_getD, List.getD_eq_getElem?_getD, List.getElem?_drop]
theorem field_byte (b : List Byte) (o : Nat) : field b o 1 = (b.getD o 0).toNat := by
  rw [field_pads]
  simp [Spec.number]

/-! ### Runs of the Pointer (R91) -/

theorem pointerRun_none {s : State} {d : Nat} (h : ∀ m, m ∈ (s.die d).runs → s.runsOn d m.part = false) : s.pointerRun d = s := by
  have hf : (s.die d).runs.find? (fun m => s.runsOn d m.part) = none := List.find?_eq_none.2 fun m hm => by
    rw [h m hm]
    exact Bool.false_ne_true
  unfold State.pointerRun
  dsimp only
  rw [hf]
/-- The state in which a run has been taken from its queue. -/
def State.runTaken (s : State) (d : Nat) (r : List PtrRun) : State := s.setDie d { s.die d with runs := r }
section
variable {s : State} {d : Nat} {m : PtrRun} {r : List PtrRun} (h : (s.die d).runs = m :: r) (hr : s.runsOn d m.part = true)
include h hr
theorem pointerRun_waits {u : State} (hw : (s.runTaken d r).ptrRunOne d m = .stop u .wait) : s.pointerRun d = s.schedule 64 (.pointerRun d) := by
  unfold State.pointerRun
  dsimp only
  rw [h, List.find?_cons_of_pos (by exact hr)]
  dsimp only
  rw [List.erase_cons_head]
  unfold State.runTaken at hw
  rw [hw]
theorem pointerRun_ok {u : State} (hw : (s.runTaken d r).ptrRunOne d m = .ok u ()) : s.pointerRun d = u := by
  unfold State.pointerRun
  dsimp only
  rw [h, List.find?_cons_of_pos (by exact hr)]
  dsimp only
  rw [List.erase_cons_head]
  unfold State.runTaken at hw
  rw [hw]
  rfl
theorem pointerRun_noLayer (hl : tget (s.die d).layers ((m.layer + bits (s.die d).ptrCfg 1 0 + 1) % 256) = none) :
    ((s.pointerRun d).die d).runs = r ∧ (s.pointerRun d).mem = s.mem := by
  have hd : (s.runTaken d r).die d = { s.die d with runs := r } := State.die_setDie_same ..
  have hone : (s.runTaken d r).ptrRunOne d m = .ok (s.runTaken d r) () := by
    unfold State.ptrRunOne
    dsimp only
    rw [hd, hl]
  rw [pointerRun_ok h hr hone, hd]
  exact ⟨rfl, rfl⟩
end
/-- The experts of a layer that are predicted for a token. -/
def PtrLayer.predicts (y : PtrLayer) (heads scales rows : List Byte) (t e : Nat) : Prop :=
  e ∈ predict y.kp ((List.range y.experts).map fun e => (List.range (64 * y.width64)).map fun j => ofInt (Spec.sgn 8 (heads.getD (e * (64 * y.width64) + j) 0).toNat))
    ((List.range y.experts).map fun e => fp32.dec (Spec.number ((List.range 4).map fun j => scales.getD (4 * e + j) 0)))
    ((List.range (64 * y.width64)).map fun j => bf16.dec (Spec.number ((List.range 2).map fun i => rows.getD (2 * (64 * y.width64 * t + j) + i) 0)))
/-- A run prefetches for the experts predicted for some token, in ascending order. -/
theorem ptrRunOne_prefetches {u s1 s2 s3 s4 : State} {d : Nat} {m : PtrRun} {y : PtrLayer} {heads scales rows table : List Byte}
    (hl : tget (u.die d).layers ((m.layer + bits (u.die d).ptrCfg 1 0 + 1) % 256) = some y)
    (h1 : u.engRead (m.ctx u) {} (.src false) y.head (y.experts * (64 * y.width64)) = .ok s1 heads)
    (h2 : s1.engRead (m.ctx u) {} (.src false) y.scale (4 * y.experts) = .ok s2 scales)
    (h3 : s2.engRead (m.ctx u) {} (.src false) m.rows (2 * (64 * y.width64) * m.tokens) = .ok s3 rows)
    (h4 : s3.engRead (m.ctx u) {} (.src false) y.map (32 * y.experts) = .ok s4 table) :
    ∃ es : List Nat, es.Pairwise (· < ·) ∧ (∀ e, e ∈ es ↔ e < y.experts ∧ ∃ t, t < m.tokens ∧ y.predicts heads scales rows t e)
      ∧ u.ptrRunOne d m = .ok (es.foldl (fun v e => v.prefetch d m ((table.drop (32 * e)).take 32)) s4) () := by
  unfold State.ptrRunOne
  dsimp only
  rw [hl]
  dsimp only
  rw [h1]
  dsimp only
  rw [h2]
  dsimp only
  rw [h3]
  dsimp only
  rw [h4]
  refine ⟨_, ?_, fun e => ?_, rfl⟩
  · exact List.pairwise_lt_range.filter _
  · rw [List.mem_filter, List.mem_range, List.any_eq_true]
    refine and_congr_right fun _ => ?_
    unfold PtrLayer.predicts
    simp only [List.mem_map, List.mem_range, List.contains_iff_mem, field_byte]
    simp only [field_pads]
    constructor
    · rintro ⟨l, ⟨t, ht, rfl⟩, he⟩
      exact ⟨t, ht, he⟩
    · rintro ⟨t, ht, he⟩
      exact ⟨_, ⟨t, ht, rfl⟩, he⟩

/-- Settles O54, by what each of the events has to do with its ED's flash and handle table. -/
theorem flashEvents : Obligations.FlashEvents := by
  unfold Obligations.FlashEvents
  intro s
  refine ⟨fun id => ⟨_, rfl, ?_, ?_⟩, fun e k lp => ⟨_, rfl, pageRead_none, ?_⟩, fun e k b => ⟨_, rfl, relocSwitch_none, ?_⟩,
    fun e k b => ⟨_, rfl, oldErase_none, oldErase_waits, ?_⟩, fun e lp => ?_, fun e => ⟨_, rfl, ?_, ?_⟩, fun d => ⟨_, rfl, pointerRun_none, ?_, ?_, ?_⟩⟩
  · intro c p e src dst n tag pc priv coop hr
    refine ⟨hread_taken hr, fun hc => ?_, fun hc => ⟨fun k h hj => ?_, fun hj hn => ?_, fun k hj hn => ?_⟩⟩
    · obtain ⟨h1, -, h3, -⟩ := tell_keeps (s := s) (id := id) (c := c) (p := p) (e := e) 12 0
      rw [hread_conflict hr hc]
      exact ⟨h3, h1⟩
    · obtain ⟨u, hu, hcore, -, hk⟩ := hread_joins hr hc hj
      rw [hu, tell_flash]
      exact ⟨hk, tell_told _ _ _ hcore⟩
    · obtain ⟨h1, -, h3, -⟩ := tell_keeps (s := s) (id := id) (c := c) (p := p) (e := e) 0 0
      rw [hread_null hr hc hj hn]
      exact ⟨h3, h1⟩
    · obtain ⟨u, hu, hcore, -, hk⟩ := hread_takes hr hc hj hn
      rw [hu, tell_flash]
      exact ⟨hk, tell_told _ _ _ hcore⟩
  · rintro c p e w (hr | hr) h0 hw he
    · have hs : tget s.reqs id = some (.hstat c p e w) := hr
      obtain ⟨h1, h2, h3, h4, h5⟩ := refused_request (s := s) (id := id) (c := c) (stale := 0) (v := 3) (fun h => (s.withoutReq id).tell c p 0 h.status) h0 hw he (handleArrives_hstat hr)
      dsimp only
      simp only [hs, if_true]
      refine ⟨h5 fun h => (tell_keeps (e := e) 0 h.status).2.2.2, h1, h2, h3, fun h hn hp hg => ⟨fun _ => ?_, fun hns => absurd trivial hns⟩⟩
      obtain ⟨k1, -, k3, -⟩ := tell_keeps (s := s) (id := id) (c := c) (p := p) (e := e) 0 h.status
      rw [h4 h hn hp hg]
      exact ⟨k3, status_eq h ▸ k1⟩
    · have hs : tget s.reqs id ≠ some (.hstat c p e w) := by
        rw [hr]
        exact nofun
      obtain ⟨h1, h2, h3, h4, h5⟩ := refused_request (s := s) (id := id) (c := c) (stale := 9) (v := 0) _ h0 hw he ((handleArrives_hrel hr).trans (hrelArrives_eq ..))
      dsimp only
      simp only [hs, if_false]
      have hk : bits w 11 0 = w.toNat % 4096 := by
        unfold bits
        omega
      refine ⟨h5 fun h => (hrel_releases s id c p e _ h).2.2.2, h1, h2, h3, fun h hn hp hg => ⟨fun g => g.elim, fun _ => ?_⟩⟩
      rw [h4 h hn hp hg, hk]
      obtain ⟨k1, k2, k3, -⟩ := hrel_releases s id c p e (w.toNat % 4096) h
      exact ⟨k1, k2, k3⟩
  · intro r h hr hg hk
    refine ⟨pageRead_waits hr hg hk, fun hf hw => ⟨_, pageRead_done hr hg hk hf hw, HSlot.mem_withUnits⟩, fun hf => ?_⟩
    obtain ⟨h1, h2, h3⟩ := pageRead_fails hr hg hk hf
    exact ⟨h1, h2, _, h3, rfl, List.mem_append_right _ (.head _)⟩
  · exact fun h => ⟨relocSwitch_waits h, relocSwitch_data h, relocSwitch_parity h⟩
  · intro h hr
    obtain ⟨h1, h2, h3, h4, h5, h6⟩ := oldErase_erases h hr
    exact ⟨h1, h2, h3, ⟨h4, h5⟩, h6⟩
  · cases hm : (s.flash e).moves lp with
    | true =>
      obtain ⟨h1, h2, h3, h4⟩ := rebuild_moves hm
      exact ⟨_, _, _, _, h1, h2, h3, h4, fun _ => ⟨rfl, rfl, rfl, rfl⟩, nofun⟩
    | false =>
      obtain ⟨h1, h2⟩ := moveBlock_moves hm
      refine ⟨_, _, _, _, rebuild_acts hm, (move_acts hm).1, (move_acts hm).2, refill_acts hm, nofun, fun _ => ⟨fun hn => ⟨h1 hn, h1 hn⟩, fun k hk hw => ⟨h2 k hk hw, h2 k hk hw⟩,
        fun hd => ⟨if_pos hd, if_pos hd⟩, fun hd => ?_⟩⟩
      obtain ⟨r1, r2⟩ := rebuilt_ends hd
      obtain ⟨r3, r4, r5⟩ := refilled_ends hd
      exact ⟨r1, r2, r3, r4, r5⟩
  · intro h1 h2
    show (State.flash (if _ then _ else _) e).state = _
    rw [if_pos ⟨h1, h2⟩, flash_setFlash_same]
  · intro h
    exact if_neg fun g => h.elim (fun h => h g.1) g.2
  · intro m r h hr hl
    exact pointerRun_noLayer h hr hl
  · intro m r u h hr hw
    exact pointerRun_waits h hr hw
  · intro m r y s1 s2 s3 s4 heads scales rows table h hr hl u w h1 h2 h3 h4
    have hd : (s.runTaken d r).die d = { s.die d with runs := r } := State.die_setDie_same ..
    obtain ⟨es, hes, hin, ho⟩ := ptrRunOne_prefetches (u := s.runTaken d r) (by rw [hd]; exact hl) h1 h2 h3 h4
    exact ⟨es, hes, hin, pointerRun_ok h hr ho⟩
end Sys2Proof.Machine
end

section
/-! What the count of a read leaves unchanged, translations with it (R104, R112, R119 to R122). -/
namespace Sys2Proof.Machine
open Sys2Proof

/-! ### What the count of a read leaves unchanged (R104, R112) -/

namespace Counted
variable {s u : State} (h : Counted s u)
include h
theorem mem : u.mem = s.mem := by rw [h.eq]
theorem quads : u.quads = s.quads := by rw [h.eq]
theorem quad : u.quad = s.quad := congrArg (fun x q => tgetD x q ({} : Quad)) h.quads
theorem part : u.part = s.part := by rw [h.eq]; rfl
theorem core : u.core = s.core := by rw [h.eq]; rfl
theorem badWords : u.badWords = s.badWords := by rw [h.eq]
theorem fabric : u.fabric = s.fabric := by rw [h.eq]; rfl
theorem hostWord : u.hostWord = s.hostWord := by rw [h.eq]; rfl
theorem tlb (c p vpn : Nat) : u.tlb c p vpn = s.tlb c p vpn := by
  unfold State.tlb
  rw [h.quad, h.dies]
theorem windowAt (x : Ctx) (va : Nat) : u.windowAt x va = s.windowAt x va := by
  unfold State.windowAt
  rw [h.dies]
theorem liveTile (d ix g : Nat) : u.liveTile d ix g = s.liveTile d ix g := by
  unfold State.liveTile
  rw [h.dies]
theorem walk (p va : Nat) : u.walk p va = s.walk p va := by
  unfold State.walk
  rw [h.part, h.mem, h.badWords]
theorem flashByte (e o : Nat) : u.flashByte e o = s.flashByte e o := by
  unfold State.flashByte
  rw [h.dies]
theorem seenByte (c a : Nat) : u.seenByte c a = s.seenByte c a := by
  unfold State.seenByte
  rw [h.quad, h.mem]
theorem readAt (c : Nat) (p : Place) (n : Nat) : u.readAt c p n = s.readAt c p n := by
  cases p with
  | phys pa =>
    unfold State.readAt
    simp only [h.badWords, h.seenByte]
  | host o => rfl
  | tile d ix g o =>
    unfold State.readAt
    simp only [h.liveTile]
  | flash e o =>
    unfold State.readAt
    simp only [h.flashByte]
    rw [h.dies]
theorem throughLeaf (x : Ctx) (a : Acc) (va : Nat) (c : Bool) (e : W64) (lg : Nat) : u.throughLeaf x a va c e lg = s.throughLeaf x a va c e lg := by
  unfold State.throughLeaf
  rw [h.fabric]
theorem viaTables (x : Ctx) (a : Acc) (va : Nat) (c : Bool) : u.viaTables x a va c = s.viaTables x a va c := by
  unfold State.viaTables
  simp only [h.walk, h.tlb, h.core, h.throughLeaf]
theorem viaFixed (x : Ctx) (a : Acc) (o : Nat) : u.viaFixed x a o = s.viaFixed x a o := by
  unfold State.viaFixed
  simp only [h.part, h.viaTables]
theorem viaKennel (x : Ctx) (a : Acc) (va : Nat) : u.viaKennel x a va = s.viaKennel x a va := by
  unfold State.viaKennel
  dsimp only
  rw [h.dies]
theorem beyondWindows (x : Ctx) (a : Acc) (va : Nat) : u.beyondWindows x a va = s.beyondWindows x a va := by
  unfold State.beyondWindows State.viaPairs State.viaHbf
  simp only [h.part, h.viaFixed, h.viaKennel, h.viaTables]
theorem rowEntry (x : Ctx) (w : Window) (i : Nat) : u.rowEntry x w i = s.rowEntry x w i := by
  unfold State.rowEntry hostRegRead
  simp only [h.beyondWindows, h.readAt, h.hostWord]
theorem translate (x : Ctx) (a : Acc) (va : W64) : u.translate x a va = s.translate x a va := by
  unfold State.translate State.viaWindow
  simp only [h.part, h.windowAt, h.rowEntry, h.viaTables, h.beyondWindows]
end Counted

/-! ### Reads of the physical map leave every slot's destination as it was (R81) -/

/-- Reads of the physical map have been counted, and a range that met no slot's destination meets none. -/
structure Tallied (s u : State) : Prop where
  counted : Counted s u
  free : ∀ p va n, s.inSlot p va n = false → u.inSlot p va n = false
namespace Tallied
theorem refl (s : State) : Tallied s s := ⟨.refl s, fun _ _ _ h => h⟩
theorem trans {s t u : State} (h : Tallied s t) (g : Tallied t u) : Tallied s u :=
  ⟨h.counted.trans g.counted, fun p va n hf => g.free p va n (h.free p va n hf)⟩
theorem ite {s t u : State} {c : Prop} [Decidable c] (h : Tallied s t) (g : Tallied s u) : Tallied s (if c then t else u) := by
  split
  · exact h
  · exact g
theorem foldl {α : Type} {f : State → α → State} (l : List α) (h : ∀ a, a ∈ l → ∀ s, Tallied s (f s a)) : ∀ s : State, Tallied s (l.foldl f s) := by
  induction l with
  | nil => exact refl
  | cons a l ih => exact fun s => (h a (.head _) s).trans (ih (fun b hb => h b (.tail _ hb)) (f s a))
theorem of_dies {s u : State} (h : Counted s u) (hd : u.dies = s.dies) : Tallied s u :=
  ⟨h, fun p va n hf => by unfold State.inSlot at hf ⊢; rwa [hd]⟩
end Tallied
theorem setDie_inSlot {s : State} {d p va n : Nat} {x : Die} (hx : x.flash = (s.die d).flash) (h : s.inSlot p va n = false) :
    (s.setDie d x).inSlot p va n = false := by
  unfold State.inSlot at h ⊢
  rw [List.any_eq_false] at h ⊢
  intro e he
  rcases tset_mem he with rfl | he
  · dsimp only
    rw [hx]
    unfold State.die tgetD
    cases hg : tget s.dies d with
    | none => exact Bool.false_ne_true
    | some y => exact h (d, y) (tget_mem hg)
  · exact h e he
theorem reach_tallied (s : State) (pa : Nat) : Tallied s (s.reach pa) := .of_dies (reach_counted s pa) (by rw [reach_eq])
theorem touch_tallied (s : State) (pa n : Nat) : Tallied s (s.touch pa n) := by
  refine ⟨touch_counted s pa n, fun p va k h => ?_⟩
  have hr := (reach_tallied s pa).free p va k h
  unfold State.touch
  dsimp only
  split
  · exact h
  · split
    · exact hr
    · exact setDie_inSlot rfl hr
theorem noteTraffic_tallied (s : State) (c pa n : Nat) : Tallied s (s.noteTraffic c pa n) :=
  .ite (.refl s) (.of_dies ⟨rfl, fun _ => rfl⟩ rfl)
theorem countPlaces_tallied (s : State) (c : Nat) (ps : List (Place × Nat)) (h : ∀ p, p ∈ ps → ∃ pa, p.1 = .phys pa) : Tallied s (s.countPlaces c ps) := by
  unfold State.countPlaces
  dsimp only
  rw [List.filterMap_eq_nil_iff.2 fun p hp => by obtain ⟨pa, hpa⟩ := h p hp; rw [hpa]]
  refine Tallied.foldl ps (fun p hp s => ?_) s
  obtain ⟨pa, hpa⟩ := h p hp
  rw [hpa]
  exact Tallied.trans (noteTraffic_tallied ..) (touch_tallied ..)
end Sys2Proof.Machine
end

section
/-! Ranges that engines read and write line by line (R125, R150, R318). -/
namespace Sys2Proof.Machine
open Sys2Proof

/-! ### A range read line by line (R125, R318) -/

theorem bytesAt_append (s : State) (c pa m n : Nat) : Spec.bytesAt s c pa (m + n) = Spec.bytesAt s c pa m ++ Spec.bytesAt s c (pa + m) n := by
  simp [Spec.bytesAt, List.range_add, Nat.add_assoc]
theorem sound_part {s : State} {pa n k m : Nat} (h : Spec.sound s pa n) (hk : k + m ≤ n) : Spec.sound s (pa + k) m := fun w hw => by
  rcases h w hw with h | h
  · exact .inl (by omega)
  · exact .inr (by omega)
theorem engineTranslate_at {s : State} {x : Ctx} {a : Acc} {va : W64} {p : Place} {leaf : W64} (h : s.translate x a va = .at_ p leaf) :
    s.engineTranslate x a va = (s, .at_ p leaf) := by
  unfold State.engineTranslate
  rw [h]
/-- The range of n bytes from an address is the n bytes from a physical address on. -/
def State.maps (s : State) (x : Ctx) (a : Acc) (va pa n : Nat) : Prop := ∀ i, i < n → ∃ leaf, s.translate x a (BitVec.ofNat 64 (va + i)) = .at_ (.phys (pa + i)) leaf
theorem maps_part {s : State} {x : Ctx} {a : Acc} {va pa n k m : Nat} (h : s.maps x a va pa n) (hk : k + m ≤ n) : s.maps x a (va + k) (pa + k) m := fun i hi => by
  rw [Nat.add_assoc, Nat.add_assoc]
  exact h (k + i) (by omega)
theorem maps_first {s : State} {x : Ctx} {a : Acc} {va pa n : Nat} (h : s.maps x a va pa n) (hn : n ≠ 0) :
    ∃ leaf, s.engineTranslate x a (BitVec.ofNat 64 va) = (s, .at_ (.phys pa) leaf) := by
  obtain ⟨leaf, hl⟩ := h 0 (by omega)
  exact ⟨leaf, engineTranslate_at hl⟩
theorem engPieces_cons {s : State} {x : Ctx} {l : Overlap} {a : Acc} {va pa m : Nat} {leaf : W64} {rs : List (Nat × Nat)} {ps : List (List Byte × W64 × Place)}
    (hl : l.dirty = []) (ht : s.engineTranslate x a (BitVec.ofNat 64 va) = (s, .at_ (.phys pa) leaf)) (hs : Spec.sound s pa m)
    (hr : s.engPieces x l a rs = .ok s ps) :
    s.engPieces x l a ((va, m) :: rs) = .ok s ((Spec.bytesAt s x.core pa m, leaf, .phys pa) :: ps) := by
  rw [State.engPieces]
  rw [ht]
  dsimp only
  rw [readAt_phys hs, hr]
  dsimp only
  unfold Overlap.source
  rw [hl]
  rfl
theorem engPieces_lines {s : State} {x : Ctx} {l : Overlap} {a : Acc} (hl : l.dirty = []) (f : Nat) : ∀ {va pa n : Nat}, (n ≠ 0 → n + va % 64 ≤ 64 * f) →
    s.maps x a va pa n → Spec.sound s pa n → ∃ ps, s.engPieces x l a (lineCuts f va n) = .ok s ps ∧ ps.flatMap (·.1) = Spec.bytesAt s x.core pa n
      ∧ ∀ y, y ∈ ps → ∃ pa, y.2.2 = .phys pa := by
  induction f with
  | zero =>
    intro va pa n hf _ _
    obtain rfl : n = 0 := by_contra fun hn => by have := hf hn; omega
    exact ⟨[], rfl, rfl, nofun⟩
  | succ f ih =>
    intro va pa n hf hm hs
    rw [lineCuts]
    split
    next hn => exact ⟨[], rfl, by rw [hn]; rfl, nofun⟩
    next hn =>
      dsimp only
      generalize hk : min n (64 - va % 64) = k
      obtain ⟨leaf, ht⟩ := maps_first hm hn
      have hf := hf hn
      obtain ⟨ps, h1, h2, h3⟩ := ih (va := va + k) (pa := pa + k) (n := n - k) (fun _ => by omega) (maps_part hm (by omega)) (sound_part hs (by omega))
      have hs' : Spec.sound s pa k := sound_part (k := 0) hs (by omega)
      refine ⟨_, engPieces_cons hl ht hs' h1, ?_, fun y hy => (List.mem_cons.1 hy).elim (fun h => ⟨pa, by rw [h]⟩) (h3 y)⟩
      rw [List.flatMap_cons, h2, ← bytesAt_append, Nat.add_sub_cancel' (by omega)]
theorem engRead_maps {s : State} {x : Ctx} {l : Overlap} {a : Acc} {va : W64} {pa n : Nat} (hl : l.dirty = []) (hm : s.maps x a va.toNat pa n)
    (hs : Spec.sound s pa n) : ∃ u, s.engRead x l a va n = .ok u (Spec.bytesAt s x.core pa n) ∧ Tallied s u := by
  obtain ⟨ps, h1, h2, h3⟩ := engPieces_lines hl (n / 64 + 2) (va := va.toNat) (fun _ => by omega) hm hs
  have hc : s.engPieces x l a ([(va.toNat, n)].flatMap fun r => cuts r.1 r.2) = .ok s ps := by
    rw [List.flatMap_singleton]
    exact h1
  refine ⟨s.counted x.core ps, ?_, countPlaces_tallied s x.core _ fun p hp => ?_⟩
  · unfold State.engRead State.engReads
    rw [hc]
    dsimp only
    rw [h2]
    unfold State.used
    rw [hl]
    rfl
  · obtain ⟨y, hy, rfl⟩ := List.mem_map.1 hp
    exact h3 y hy

/-! ### Writes on their way from a quad (R318) -/

/-- A range of bytes has entered the path of quad q, and nothing else of what a core reads has changed. -/
structure Pushed (s t : State) (q pa : Nat) (b : List Byte) : Prop where
  mem : t.mem = s.mem
  dies : t.dies = s.dies
  others : ∀ p, p ≠ q → t.quad p = s.quad p
  path : ∃ ws, (t.quad q).path = (s.quad q).path ++ ws ∧ (∀ w, w ∈ ws → w.tile = none)
    ∧ ∀ a h, pathByte ws a h = if pa ≤ a ∧ a < pa + b.length then b.getD (a - pa) 0 else h
namespace Pushed
theorem nil (s : State) (q pa : Nat) : Pushed s s q pa [] := ⟨rfl, rfl, fun _ _ => rfl, [], (List.append_nil _).symm, nofun, fun a h => by
  rw [if_neg (by simp), pathByte_nil]⟩
theorem append {s t u : State} {q pa : Nat} {b c : List Byte} (h : Pushed s t q pa b) (g : Pushed t u q (pa + b.length) c) : Pushed s u q pa (b ++ c) := by
  obtain ⟨ws, h1, h2, h3⟩ := h.path
  obtain ⟨vs, g1, g2, g3⟩ := g.path
  refine ⟨g.mem.trans h.mem, g.dies.trans h.dies, fun p hp => (g.others p hp).trans (h.others p hp), ws ++ vs, by rw [g1, h1, List.append_assoc],
    fun w hw => (List.mem_append.1 hw).elim (h2 w) (g2 w), fun a x => ?_⟩
  rw [pathByte_append, g3, h3, List.length_append]
  by_cases ha : pa + b.length ≤ a
  · rw [if_neg (c := pa ≤ a ∧ a < pa + b.length) (by omega), List.getD_append_right _ _ _ _ (by omega), Nat.sub_add_eq]
    exact if_congr (by omega) rfl rfl
  · rw [if_neg (c := pa + b.length ≤ a ∧ _) (by omega)]
    by_cases hb : pa ≤ a
    · rw [if_pos ⟨hb, by omega⟩, if_pos ⟨hb, by omega⟩, List.getD_append _ _ _ _ (by omega)]
    · rw [if_neg (by omega), if_neg (by omega)]
end Pushed
theorem enterPath_pushed (s : State) (c p eng pa : Nat) (b : List Byte) : Pushed s (s.enterPath c p eng pa b) (c / 4) pa b := by
  obtain ⟨due, hq⟩ : ∃ due, (s.enterPath c p eng pa b).quads =
      (s.setQuad (c / 4) { s.quad (c / 4) with path := (s.quad (c / 4)).path ++ [⟨c, p, eng, due, none, pa, b⟩] }).quads := by
    unfold State.enterPath
    rw [reach_eq]
    exact ⟨_, rfl⟩
  have hq (j : Nat) : (s.enterPath c p eng pa b).quad j =
      if c / 4 = j then { s.quad (c / 4) with path := (s.quad (c / 4)).path ++ [⟨c, p, eng, due, none, pa, b⟩] } else s.quad j := by
    unfold State.quad
    rw [hq]
    exact State.quad_setQuad ..
  refine ⟨enterPath_mem .., by unfold State.enterPath; rw [reach_eq]; rfl, fun j hj => (hq j).trans (if_neg fun h => hj h.symm), [_],
    by rw [hq, if_pos rfl], fun w hw => by rw [List.mem_singleton.1 hw], fun a h => ?_⟩
  rw [pathByte_cons, pathByte_nil]
  exact if_congr (by simp) rfl rfl

/-! ### Lines laid at a place and written (R150, R318) -/

/-- Pieces that lie one behind the other from an address and a physical address on, with their bytes. -/
def Laid (va pa : Nat) : List (Nat × Place × List Byte) → List Byte → Prop
  | [], b => b = []
  | (v, p, c) :: t, b => v = va ∧ p = .phys pa ∧ c ≠ [] ∧ ∃ r, b = c ++ r ∧ Laid (va + c.length) (pa + c.length) t r
theorem engPlaces_cons {s : State} {x : Ctx} {a : Acc} {va pa : Nat} {c : List Byte} {leaf : W64} {ws : List (Nat × List Byte)} {ps : List (Nat × Place × List Byte)}
    (ht : s.engineTranslate x a (BitVec.ofNat 64 va) = (s, .at_ (.phys pa) leaf)) (hr : s.engPlaces x a ws = .ok s ps) :
    s.engPlaces x a ((va, c) :: ws) = .ok s ((va, .phys pa, c) :: ps) := by
  rw [State.engPlaces]
  rw [ht]
  dsimp only
  rw [if_neg Bool.false_ne_true, hr]
theorem engPlaces_lines {s : State} {x : Ctx} {a : Acc} {va0 : Nat} {b : List Byte} (f : Nat) : ∀ {k pa n : Nat}, (n ≠ 0 → n + (va0 + k) % 64 ≤ 64 * f) →
    s.maps x a (va0 + k) pa n → k + n = b.length →
    ∃ ps, s.engPlaces x a ((lineCuts f (va0 + k) n).map fun c => (c.1, (b.drop (c.1 - va0)).take c.2)) = .ok s ps ∧ Laid (va0 + k) pa ps (b.drop k) := by
  induction f with
  | zero =>
    intro k pa n hf _ hk
    obtain rfl : n = 0 := by_contra fun hn => by have := hf hn; omega
    exact ⟨[], rfl, List.drop_eq_nil_of_le (by omega)⟩
  | succ f ih =>
    intro k pa n hf hm hk
    rw [lineCuts]
    split
    next hn => exact ⟨[], rfl, List.drop_eq_nil_of_le (by omega)⟩
    next hn =>
      dsimp only
      generalize hj : min n (64 - (va0 + k) % 64) = j
      have hf := hf hn
      obtain ⟨leaf, ht⟩ := maps_first hm hn
      have hm' := maps_part hm (k := j) (m := n - j) (by omega)
      rw [Nat.add_assoc] at hm'
      obtain ⟨ps, h1, h2⟩ := ih (k := k + j) (pa := pa + j) (n := n - j) (fun _ => by omega) hm' (by omega)
      have hl : ((b.drop k).take j).length = j := by rw [List.length_take, List.length_drop]; omega
      rw [List.map_cons, Nat.add_sub_cancel_left, Nat.add_assoc]
      refine ⟨_, engPlaces_cons ht h1, rfl, rfl, fun h => ?_, b.drop (k + j), ?_, ?_⟩
      · rw [h, List.length_nil] at hl
        omega
      · rw [← List.drop_drop, List.take_append_drop]
      · rw [hl, Nat.add_assoc]
        exact h2
/-- Bytes that no other writer overlaps are written as they are, and enter the path where their place is in no scratchpad of the quad. -/
theorem engPut_laid {x : Ctx} {eng : Nat} {l : Overlap} (hd : l.dirty = []) (hp : l.passed = []) (ps : List (Nat × Place × List Byte)) :
    ∀ {s : State} {va pa : Nat} {b : List Byte}, Laid va pa ps b → s.inSlot x.part va b.length = false →
    (∀ i, i < b.length → ownQuadPad x.core (pa + i) = false) → Pushed s (s.engPut x eng l ps) (x.core / 4) pa b := by
  induction ps with
  | nil =>
    intro s va pa b h _ _
    obtain rfl : b = [] := h
    exact .nil ..
  | cons y ps ih =>
    obtain ⟨v, p, c⟩ := y
    intro s va pa b h hs ho
    obtain ⟨rfl, rfl, hc, r, rfl, hr⟩ := h
    have hlen : 0 < c.length := List.length_pos_iff.2 hc
    rw [List.length_append] at hs ho
    have hset : s.settle x l v (.phys pa) c = (s, [(0, c)]) := by
      have hs : s.inSlot x.part v c.length = false := inSlot_part (i := 0) hs rfl (by omega)
      unfold State.settle Overlap.noted
      dsimp only
      rw [hs, hd, hp]
      rfl
    have hput : s.putRuns x eng (.phys pa) [(0, c)] = s.enterPath x.core x.part eng pa c := by
      have h0 : ownQuadPad x.core pa = false := ho 0 (by omega)
      show s.storePhys x.core x.part eng pa c = _
      unfold State.storePhys
      rw [h0]
      rfl
    rw [State.engPut, hset, hput]
    have hpu := enterPath_pushed s x.core x.part eng pa c
    refine hpu.append (ih hr ?_ fun i hi => ?_)
    · have : s.inSlot x.part (v + c.length) r.length = false := inSlot_part hs rfl (by omega)
      unfold State.inSlot at this ⊢
      rwa [hpu.dies]
    · rw [Nat.add_assoc]
      exact ho _ (by omega)
end Sys2Proof.Machine
end

section
/-! Proofs about the segments of a plain copy (R125, R136, R318). -/
namespace Sys2Proof.Machine
open Sys2Proof

/-! ### A segment of a plain copy -/

/-- Without a TWR on its path, every core of a quad sees every write there. -/
theorem seenByte_plain {s : State} {q c : Nat} (hc : c / 4 = q) (h : ∀ w, w ∈ (s.quad q).path → w.tile = none) (a : Nat) : s.seenByte c a = s.physByte q a := by
  have hs := seenBy_append (c := c) (r := []) _ h
  rw [List.append_nil, show seenBy c [] [] = [] from rfl, List.append_nil] at hs
  unfold State.seenByte State.physByte
  rw [hc, hs]
namespace Pushed
variable {s t : State} {q pa : Nat} {b : List Byte} (h : Pushed s t q pa b)
include h
theorem seen_other {c a : Nat} (hc : c / 4 ≠ q) : t.seenByte c a = s.seenByte c a := by
  unfold State.seenByte
  rw [h.others _ hc, h.mem]
theorem seen {c a : Nat} (hc : c / 4 = q) (ht : ∀ w, w ∈ (s.quad q).path → w.tile = none) :
    t.seenByte c a = if pa ≤ a ∧ a < pa + b.length then b.getD (a - pa) 0 else s.seenByte c a := by
  obtain ⟨ws, h1, h2, h3⟩ := h.path
  have ht' : ∀ w, w ∈ (t.quad q).path → w.tile = none := fun w hw => by
    rw [h1] at hw
    exact (List.mem_append.1 hw).elim (ht w) (h2 w)
  rw [seenByte_plain hc ht', seenByte_plain hc ht]
  unfold State.physByte
  rw [h1, pathByte_append, h3, h.mem]
end Pushed
/-- States that agree on the bytes at their homes and on the writes of the paths. -/
structure SamePaths (s t : State) : Prop where
  mem : t.mem = s.mem
  path : ∀ q, (t.quad q).path = (s.quad q).path
namespace SamePaths
theorem refl (s : State) : SamePaths s s := ⟨rfl, fun _ => rfl⟩
theorem trans {s t u : State} (h : SamePaths s t) (g : SamePaths t u) : SamePaths s u := ⟨g.mem.trans h.mem, fun q => (g.path q).trans (h.path q)⟩
theorem seen {s t : State} (h : SamePaths s t) (c a : Nat) : t.seenByte c a = s.seenByte c a := by
  unfold State.seenByte
  rw [h.mem, h.path]
end SamePaths
theorem mapLaps_samePaths (s : State) (c : Nat) (f : Nat → Nat → Overlap → Overlap) : SamePaths s (s.mapLaps c f) := by
  refine ⟨mapLaps_mem .., fun q => ?_⟩
  by_cases hq : q = c / 4
  · obtain ⟨ch, h⟩ := mapLaps_quad s c f
    rw [hq, h]
  · rw [mapLaps_quad_other s c f hq]
theorem noteWrites_samePaths (s : State) (c h id : Nat) (rs : List (Nat × Nat)) : SamePaths s (s.noteWrites c h id rs) := mapLaps_samePaths ..
theorem updCopy_samePaths (s : State) (q id : Nat) (f : CopyCmd → CopyCmd) : SamePaths s (s.updCopy q id f) := by
  refine ⟨rfl, fun p => ?_⟩
  unfold State.updCopy
  dsimp only
  rw [State.quad_setQuad]
  split
  next h => rw [h]
  · rfl
theorem againCopy_samePaths (s : State) (q : Nat) (m : CopyCmd) (n : Nat) : SamePaths s (s.againCopy q m n) := by
  unfold State.againCopy
  split
  · exact ⟨rfl, fun _ => rfl⟩
  · exact .refl s

section
variable {s : State} {q h : Nat} {x : Ctx} {m : CopyCmd}
theorem cmdWrites_pushed {eng id va pd : Nat} {b : List Byte} (hd : m.lap.dirty = []) (hp : m.lap.passed = []) (hm : s.maps x (.dst false) va pd b.length)
    (ho : ∀ i, i < b.length → ownQuadPad x.core (pd + i) = false) (hs : s.inSlot x.part va b.length = false) :
    ∃ u t, s.cmdWrites x eng false m.lap h id [(va, b)] = .ok t () ∧ Pushed s u (x.core / 4) pd b ∧ SamePaths u t := by
  obtain ⟨ps, h1, h2⟩ := engPlaces_lines (s := s) (x := x) (a := .dst false) (va0 := va) (b := b) (b.length / 64 + 2) (k := 0) (fun _ => by omega) hm (Nat.zero_add _)
  have hc : s.engPlaces x (.dst false) ([(va, b)].flatMap fun w => byteCuts w.1 w.2) = .ok s ps := by
    rw [List.flatMap_singleton]
    exact h1
  refine ⟨s.engPut x eng m.lap ps, (s.engPut x eng m.lap ps).noteWrites x.core h id (ps.map fun w => (w.2.1.key, w.2.2.length)), ?_,
    engPut_laid hd hp ps h2 hs ho, noteWrites_samePaths ..⟩
  unfold State.cmdWrites
  rw [hc]
theorem destPieces_plain {n lo : Nat} {b : List Byte} (hmw : m.mw = 0) (hj : m.jumps = []) (hb : b ≠ []) :
    s.destPieces x m (n + 1) lo b = .ok s [((m.dst + BitVec.ofNat 64 lo).toNat, b)] := by
  have hi : m.into lo b.length = [((m.dst + BitVec.ofNat 64 lo).toNat, b.length)] := by
    unfold CopyCmd.into
    rw [hj, CopyCmd.ranges, if_neg (mt List.length_eq_zero_iff.1 hb)]
    unfold CopyCmd.jumped
    rw [hj]
    rfl
  rw [State.destPieces, if_neg (by simpa using hb), if_pos (by rw [hmw]; rfl), hi]
  unfold cutAt cutAt
  rw [List.take_length]
theorem deliverSegment_pushed {pd : Nat} (hmw : m.mw = 0) (hj : m.jumps = []) (hd : m.lap.dirty = []) (hp : m.lap.passed = []) (hb : m.buf ≠ [])
    (hn : m.buf.length ≤ 4096) (hm : s.maps x (.dst false) (m.dst + BitVec.ofNat 64 m.out).toNat pd m.buf.length)
    (ho : ∀ i, i < m.buf.length → ownQuadPad x.core (pd + i) = false) (hs : s.inSlot x.part (m.dst + BitVec.ofNat 64 m.out).toNat m.buf.length = false) :
    ∃ u, Pushed s u (x.core / 4) pd m.buf ∧ SamePaths u (s.deliverSegment q h x m 0) := by
  obtain ⟨u, t, hw, hpu, hsp⟩ := cmdWrites_pushed (h := h) (eng := 1 + h) (id := m.id) hd hp hm ho hs
  refine ⟨u, hpu, ?_⟩
  unfold State.deliverSegment
  dsimp only
  rw [Nat.min_eq_right hn, List.take_length, if_neg (by rw [hmw]; decide), destPieces_plain hmw hj hb]
  dsimp only
  rw [show mwShd m.mw = false by rw [hmw]; rfl, hw]
  dsimp only
  rw [show (t.drewFor q h m 0) = t from if_neg (by rw [hmw]; exact Bool.false_ne_true)]
  exact (hsp.trans (updCopy_samePaths ..)).trans (againCopy_samePaths ..)
theorem fillSegment_plain {ps : Nat} (hmw : m.mw = 0) (hsh : m.shape = none) (hd : m.lap.dirty = []) (hb : m.buf = [])
    (hm : s.maps x m.acc (m.src + BitVec.ofNat 64 m.pos).toNat ps (segBytes m)) (hs : Spec.sound s ps (segBytes m)) :
    ∃ u, s.fillSegment q h x m = .ok u ({ m with buf := Spec.bytesAt s x.core ps (segBytes m), pos := m.pos + segBytes m }, 0) ∧ Tallied s u := by
  obtain ⟨u, hr, hu⟩ := engRead_maps (a := m.acc) hd hm hs
  refine ⟨u, ?_, hu⟩
  unfold State.fillSegment State.streamBytes
  dsimp only
  rw [if_neg (by rw [hmw]; decide), hsh]
  dsimp only
  rw [hr]
  dsimp only
  rw [hmw, hb]
  rfl
end
theorem segBytes_bounds {m : CopyCmd} (hk : m.kind = .cpy) (hsh : m.shape = none) (hp : m.pos < m.total) : 0 < segBytes m ∧ segBytes m ≤ 4096 := by
  unfold segBytes
  rw [hsh, hk]
  dsimp only
  omega
/-- A command that can go on, with nothing read yet, reads its segment and delivers it. -/
theorem copySegment_fills {s u : State} {q id h : Nat} {m o : CopyCmd} (hf : s.findCopy q id = some (h, m)) (hk : m.kind = .cpy) (hmw : m.mw = 0)
    (hdone : m.done = false) (hact : m.active = true) (hheld : m.held = none) (hbe : behindFull (tgetD (s.quad q).chans h []) m = false)
    (hp : m.pos < m.total) (hb : m.buf = []) (hfill : s.fillSegment q h (m.ctx s) m = .ok u (o, 0)) :
    s.copySegment q id = u.deliverSegment q h (m.ctx s) o 0 := by
  unfold State.copySegment
  rw [hf]
  dsimp only
  rw [if_neg (by rw [hdone, hact]; decide), if_neg (by rw [hheld]; decide), hk]
  dsimp only
  rw [if_neg (by omega), if_neg (by rw [hbe]; decide), if_neg (by rw [hb, hmw]; simp; omega), hfill]
  dsimp only
  rw [if_neg (by rw [hmw]; simp [mwCv])]
/-- Settles O52: a segment whose lines translate to memory is read line by line as a core of the quad sees it, and then stands on the quad's path behind
what was there, where every core of the quad reads it. -/
theorem copySegmentMovesBytes : Obligations.CopySegmentMovesBytes := by
  unfold Obligations.CopySegmentMovesBytes
  intro s q id h m ps pd ls ld hf hk hmw hsh hdone hact hheld hd hpa hj hq hpath hbe hp hb hout n src dst hsrc hs hdst hslot
  obtain ⟨hn0, hn⟩ := segBytes_bounds hk hsh hp
  have hat (a : W64) (i : Nat) : BitVec.ofNat 64 (a.toNat + i) = a + BitVec.ofNat 64 i := by
    rw [BitVec.ofNat_add, BitVec.ofNat_toNat, BitVec.setWidth_eq]
  have hms : s.maps (m.ctx s) m.acc src.toNat ps n := fun i hi => ⟨ls i, by rw [hat]; exact hsrc i hi⟩
  obtain ⟨u, hfill, hu⟩ := fillSegment_plain (q := q) (h := h) hmw hsh hd hb hms hs
  generalize ho : ({ m with buf := Spec.bytesAt s (m.ctx s).core ps n, pos := m.pos + n } : CopyCmd) = o at hfill
  have hbuf : o.buf = Spec.bytesAt s m.core ps n := by rw [← ho]; rfl
  have hlen : o.buf.length = n := by rw [hbuf]; exact bytesAt_length ..
  have hov : o.mw = 0 ∧ o.jumps = [] ∧ o.lap.dirty = [] ∧ o.lap.passed = [] ∧ o.dst + BitVec.ofNat 64 o.out = dst := by
    rw [← ho]
    exact ⟨hmw, hj, hd, hpa, by rw [hout]⟩
  obtain ⟨o1, o2, o3, o4, o5⟩ := hov
  have hmd : u.maps (m.ctx s) (.dst false) (o.dst + BitVec.ofNat 64 o.out).toNat pd o.buf.length := fun i hi => by
    rw [o5, hat, hu.counted.translate]
    exact ⟨ld i, (hdst i (hlen ▸ hi)).1⟩
  obtain ⟨v, hpu, hsp⟩ := deliverSegment_pushed (q := q) (h := h) o1 o2 o3 o4 (List.length_pos_iff.1 (by omega)) (by omega) hmd
    (fun i hi => (hdst i (hlen ▸ hi)).2) (by rw [o5, hlen]; exact hu.free _ _ _ hslot)
  have hpath' : ∀ w, w ∈ (u.quad q).path → w.tile = none := by rwa [hu.counted.quad]
  obtain rfl : q = (m.ctx s).core / 4 := hq
  refine ⟨_, rfl, ?_⟩
  rw [copySegment_fills hf hk hmw hdone hact hheld hbe hp hb hfill]
  refine ⟨by rw [hsp.mem, hpu.mem, hu.counted.mem], fun c i hc hi => ?_, fun c a ha => ?_⟩
  · rw [hsp.seen, hpu.seen hc hpath', if_pos ⟨by omega, by omega⟩, Nat.add_sub_cancel_left, hbuf, bytesAt_getD hi]
    exact (seenByte_plain (c := m.core) rfl hpath _).trans (seenByte_plain hc hpath _).symm
  · rw [hsp.seen, ← hu.counted.seenByte]
    by_cases hc : c / 4 = (m.ctx s).core / 4
    · rw [hpu.seen hc hpath', if_neg (by omega)]
    · exact hpu.seen_other hc
end Sys2Proof.Machine
end
